-- ==== Sys2Proof/Word.lean ====
section
/-! DEFINITION. The word types of the Z4 and their plainest arithmetic (spec/00_scope.md R1, R2). -/

namespace Sys2Proof

/-- A word is always 64 bits (R1). -/
abbrev Word := BitVec 64

/-- A byte of memory (R1). -/
abbrev Byte := BitVec 8

/-- A byte address of the program counter: 57 bits (R18). -/
abbrev Pc := BitVec 57

/-- A general register number v0-v63 as an instruction field holds it (R67, R68). -/
abbrev Reg := BitVec 6

/-- A predicate number p0-p7 (R68). -/
abbrev PReg := BitVec 3

end Sys2Proof
end

