-- ==== Sys2Proof/Syntax.lean ====
section
/-! DEFINITION. The instructions and events of the Z4: one constructor for each row of spec/opcode_table.json
(spec/04_encoding_and_assembly.md R65-R71; spec/95_what_each_step_holds.md for the events). -/

namespace Sys2Proof

/-- The control fields of an I32 instruction (R66). -/
structure Ctl32 where
  stall   : BitVec 3
  uniform : Bool
  deriving DecidableEq, Repr

/-- The common control fields of an I64 instruction (R67). -/
structure Ctl where
  guard   : PReg
  neg     : Bool
  set     : BitVec 4
  wait    : BitVec 12
  stall   : BitVec 3
  uniform : Bool
  deriving DecidableEq, Repr

/-- Operation width of an integer form (R84), in the order of its code. -/
inductive Width where
  | w64 | w32 | w16 | w8
  deriving DecidableEq, Repr

/-- Rounding modes (R47), in the order of their codes. -/
inductive Rm where
  | rne | rz | rup | rdn | rna
  deriving DecidableEq, Repr

/-- The two arithmetic floating types of the vector instructions (R113). -/
inductive FTy where
  | d | f
  deriving DecidableEq, Repr

/-- The sixteen type codes (R43), in the order of their codes. -/
inductive TyCode where
  | s8 | s16 | s32 | s64 | n8 | n16 | n32 | n64
  | d | f | h | bf | e4m3 | e5m2 | e2m1 | e3m5
  deriving DecidableEq, Repr

/-- Scopes (R71, R232), in the order of their codes. -/
inductive Scope where
  | blk | grv | die | pkg | fab | sys
  deriving DecidableEq, Repr

/-- Cache hints of LD and ST (R141), in the order of their codes. -/
inductive Hint where
  | none | ef | na | byp | keep
  deriving DecidableEq, Repr

/-- Barrier levels (R192). -/
inductive BarLevel where
  | block | grove | span
  deriving DecidableEq, Repr

/-- A barrier operand: its level and its index (R192). -/
structure BarRef where
  level : BarLevel
  index : BitVec 4
  deriving DecidableEq, Repr

/-- Conditions of the integer compare (R98), in the order of their codes. -/
inductive ICond where
  | eq | ne | ltS | leS | ltN | leN
  deriving DecidableEq, Repr

/-- Conditions of the floating compare (R118), in the order of their codes. -/
inductive FCond where
  | eq | ne | lt | le | un
  deriving DecidableEq, Repr

/-- Sizes and extensions of a load (R139), in the order of their codes. -/
inductive LdSize where
  | b8 | b16 | b32 | b64 | s8 | s16 | s32
  deriving DecidableEq, Repr

/-- Atomic operations (R201), in the order of their codes. -/
inductive AtomOp where
  | add | min | max | and | or | xor | exch
  deriving DecidableEq, Repr

/-- Atomic item types (R201). -/
inductive AtomTy where
  | s | n | d | f
  deriving DecidableEq, Repr

/-- Orders of an atomic (R201), in the order of their codes. -/
inductive AOrder where
  | acqRel | acquire | release | relaxed
  deriving DecidableEq, Repr

/-- Kinds of FENCE (R239). -/
inductive FenceKind where
  | acquire | release | full
  deriving DecidableEq, Repr

/-- Operations of CCTL (R146), in the order of their codes. -/
inductive CctlOp where
  | wbl1 | invl1 | wbl2 | invl2 | iinv | iinvall
  deriving DecidableEq, Repr

/-- Modes of SHFL (R198). -/
inductive ShflMode where
  | idx | up | down | xor
  deriving DecidableEq, Repr

/-- Kinds of VOTE with their operands (R199). -/
inductive VoteOp where
  | any    (inv : Bool) (pd pa : PReg)
  | all    (inv : Bool) (pd pa : PReg)
  | ballot (inv : Bool) (vd : Reg) (pa : PReg)
  | eq     (pd : PReg) (va : Reg)
  deriving DecidableEq, Repr

/-- Operations of REDB (R200). -/
inductive RedOp where
  | add | min | max | and | or | xor
  deriving DecidableEq, Repr

/-- Types of REDB (R200). -/
inductive RedTy where
  | s64 | n64 | d | f
  deriving DecidableEq, Repr

/-- Packing kinds of FPACK and FUNPACK (R131). -/
inductive PackKind where
  | e2m1 | e4m3 | e5m2 | bf
  deriving DecidableEq, Repr

/-- The engine a command names: a copy engine or the local one (R271, R291). -/
inductive EngSel where
  | ce (n : BitVec 4)
  | near
  deriving DecidableEq, Repr

/-- The engine EQRY asks (R304). -/
inductive QrySel where
  | ce (n : BitVec 4)
  | near
  | heartwood
  deriving DecidableEq, Repr

/-- The special registers (R27). -/
inductive SReg where
  | tid | lane | bundle | blk | grove | span | core | clock | time | ebud | tba | tlsbase | park | uctl
  | frec (w : BitVec 3)
  | frecPrev (w : BitVec 3)
  deriving DecidableEq, Repr

/-- How the outside reaches device memory through HDM decoder 0, and how it reads through decoder 1, the fill alias (R426, R428). -/
inductive HdmOp where
  | read (size : Nat)
  | write (bytes : List Byte)
  | aliasRead (size : Nat)
  deriving DecidableEq, Repr

/-- What a register write brings: the bytes of the access, which BAR0 takes at 8 only, and the word (R427). -/
structure RegData where
  width : Nat
  word : Word
  deriving DecidableEq, Repr

/-- What KEY_LOAD brings: the slot and the material of the key (R434). -/
structure KeyInput where
  slot : Nat
  material : Nat
  deriving DecidableEq, Repr

/-- A firmware image as the security complex sees it (R435): the outcome of the two signature checks on it is the
outside's, its security version is compared with the fused rollback counter. -/
structure FwImage where
  ident   : Nat
  version : Nat
  deriving DecidableEq, Repr

/-- A debug unlock token (R436). -/
structure UnlockToken where
  uid       : Word
  lifecycle : Nat
  nonce     : Nat
  signature : Nat
  deriving DecidableEq, Repr

/-- One constructor for each row of spec/opcode_table.json. The first 238 are instructions; the others are the
events, each one indivisible step of a unit of the package. -/
inductive Instr where
  -- C16 forms (R65)
  | c16Mov (st : Bool) (vd vb : BitVec 5)
  | c16Movi (st : Bool) (vd : BitVec 5) (imm : BitVec 5)
  | c16Add (st : Bool) (vd vb : BitVec 5)
  | c16Sub (st : Bool) (vd vb : BitVec 5)
  | c16Addi (st : Bool) (vd : BitVec 5) (imm : BitVec 5)
  | c16And (st : Bool) (vd vb : BitVec 5)
  | c16Or (st : Bool) (vd vb : BitVec 5)
  | c16Xor (st : Bool) (vd vb : BitVec 5)
  | c16Shli (st : Bool) (vd : BitVec 5) (imm : BitVec 5)
  | c16Shri (st : Bool) (vd : BitVec 5) (imm : BitVec 5)
  | c16Sari (st : Bool) (vd : BitVec 5) (imm : BitVec 5)
  | c16FaddD (st : Bool) (vd vb : BitVec 5)
  | c16FsubD (st : Bool) (vd vb : BitVec 5)
  | c16FmulD (st : Bool) (vd vb : BitVec 5)
  | c16FminD (st : Bool) (vd vb : BitVec 5)
  | c16FmaxD (st : Bool) (vd vb : BitVec 5)
  -- I32 forms (R70)
  | i32Add (k : Ctl32) (vd va vb : Reg)
  | i32Sub (k : Ctl32) (vd va vb : Reg)
  | i32Mul (k : Ctl32) (vd va vb : Reg)
  | i32MulhS64 (k : Ctl32) (vd va vb : Reg)
  | i32MulhN64 (k : Ctl32) (vd va vb : Reg)
  | i32MinS64 (k : Ctl32) (vd va vb : Reg)
  | i32MinN64 (k : Ctl32) (vd va vb : Reg)
  | i32MaxS64 (k : Ctl32) (vd va vb : Reg)
  | i32MaxN64 (k : Ctl32) (vd va vb : Reg)
  | i32AbsS64 (k : Ctl32) (vd va : Reg)
  | i32Neg (k : Ctl32) (vd va : Reg)
  | i32And (k : Ctl32) (vd va vb : Reg)
  | i32Andn (k : Ctl32) (vd va vb : Reg)
  | i32Or (k : Ctl32) (vd va vb : Reg)
  | i32Xor (k : Ctl32) (vd va vb : Reg)
  | i32Not (k : Ctl32) (vd va : Reg)
  | i32Shl (k : Ctl32) (vd va vb : Reg)
  | i32Shr (k : Ctl32) (vd va vb : Reg)
  | i32Sar (k : Ctl32) (vd va vb : Reg)
  | i32Rot (k : Ctl32) (vd va vb : Reg)
  | i32Shli (k : Ctl32) (vd va : Reg) (imm : BitVec 6)
  | i32Shri (k : Ctl32) (vd va : Reg) (imm : BitVec 6)
  | i32Sari (k : Ctl32) (vd va : Reg) (imm : BitVec 6)
  | i32Popc (k : Ctl32) (vd va : Reg)
  | i32Clz (k : Ctl32) (vd va : Reg)
  | i32Ctz (k : Ctl32) (vd va : Reg)
  | i32Brev (k : Ctl32) (vd va : Reg)
  | i32Addi (k : Ctl32) (vd va : Reg) (imm : BitVec 6)
  | i32FaddD (k : Ctl32) (vd va vb : Reg)
  | i32FsubD (k : Ctl32) (vd va vb : Reg)
  | i32FmulD (k : Ctl32) (vd va vb : Reg)
  | i32FminD (k : Ctl32) (vd va vb : Reg)
  | i32FmaxD (k : Ctl32) (vd va vb : Reg)
  | i32FabsD (k : Ctl32) (vd va : Reg)
  | i32FnegD (k : Ctl32) (vd va : Reg)
  | i32FaddF (k : Ctl32) (vd va vb : Reg)
  | i32FsubF (k : Ctl32) (vd va vb : Reg)
  | i32FmulF (k : Ctl32) (vd va vb : Reg)
  | i32FminF (k : Ctl32) (vd va vb : Reg)
  | i32FmaxF (k : Ctl32) (vd va vb : Reg)
  | i32FabsF (k : Ctl32) (vd va : Reg)
  | i32FnegF (k : Ctl32) (vd va : Reg)
  | i32FclassD (k : Ctl32) (vd va : Reg)
  | i32FgetexpD (k : Ctl32) (vd va : Reg)
  | i32FgetmanD (k : Ctl32) (vd va : Reg)
  | i32FclassF (k : Ctl32) (vd va : Reg)
  | i32FgetexpF (k : Ctl32) (vd va : Reg)
  | i32FgetmanF (k : Ctl32) (vd va : Reg)
  | i32SetpEq (k : Ctl32) (pd : PReg) (va vb : Reg)
  | i32SetpNe (k : Ctl32) (pd : PReg) (va vb : Reg)
  | i32SetpLtS64 (k : Ctl32) (pd : PReg) (va vb : Reg)
  | i32SetpLeS64 (k : Ctl32) (pd : PReg) (va vb : Reg)
  | i32SetpLtN64 (k : Ctl32) (pd : PReg) (va vb : Reg)
  | i32SetpLeN64 (k : Ctl32) (pd : PReg) (va vb : Reg)
  | i32FsetpEqD (k : Ctl32) (pd : PReg) (va vb : Reg)
  | i32FsetpNeD (k : Ctl32) (pd : PReg) (va vb : Reg)
  | i32FsetpLtD (k : Ctl32) (pd : PReg) (va vb : Reg)
  | i32FsetpLeD (k : Ctl32) (pd : PReg) (va vb : Reg)
  | i32FsetpUnD (k : Ctl32) (pd : PReg) (va vb : Reg)
  | i32FsetpEqF (k : Ctl32) (pd : PReg) (va vb : Reg)
  | i32FsetpNeF (k : Ctl32) (pd : PReg) (va vb : Reg)
  | i32FsetpLtF (k : Ctl32) (pd : PReg) (va vb : Reg)
  | i32FsetpLeF (k : Ctl32) (pd : PReg) (va vb : Reg)
  | i32FsetpUnF (k : Ctl32) (pd : PReg) (va vb : Reg)
  | pand (k : Ctl32) (pd pa pb : PReg)
  | por (k : Ctl32) (pd pa pb : PReg)
  | pxor (k : Ctl32) (pd pa pb : PReg)
  | pnot (k : Ctl32) (pd pa : PReg)
  | p2v (k : Ctl32) (vd : Reg)
  | v2p (k : Ctl32) (va : Reg)
  | i32Mov (k : Ctl32) (vd va : Reg)
  | i32Movi (k : Ctl32) (vd : Reg) (imm : BitVec 12)
  | i32FcvtDF (k : Ctl32) (vd va : Reg)
  | i32FcvtFD (k : Ctl32) (vd va : Reg)
  | i32I2fDS64 (k : Ctl32) (vd va : Reg)
  | i32I2fDN64 (k : Ctl32) (vd va : Reg)
  | i32F2iS64D (k : Ctl32) (vd va : Reg)
  | i32F2iN64D (k : Ctl32) (vd va : Reg)
  -- I64 integer forms (R71, R84)
  | i64Add (c : Ctl) (w : Width) (sx : Bool) (vd va vb : Reg)
  | i64Sub (c : Ctl) (w : Width) (sx : Bool) (vd va vb : Reg)
  | i64Mul (c : Ctl) (w : Width) (sx : Bool) (vd va vb : Reg)
  | i64MulhS (c : Ctl) (w : Width) (sx : Bool) (vd va vb : Reg)
  | i64MulhN (c : Ctl) (w : Width) (sx : Bool) (vd va vb : Reg)
  | i64MinS (c : Ctl) (w : Width) (sx : Bool) (vd va vb : Reg)
  | i64MinN (c : Ctl) (w : Width) (sx : Bool) (vd va vb : Reg)
  | i64MaxS (c : Ctl) (w : Width) (sx : Bool) (vd va vb : Reg)
  | i64MaxN (c : Ctl) (w : Width) (sx : Bool) (vd va vb : Reg)
  | i64Abs (c : Ctl) (w : Width) (sx : Bool) (vd va : Reg)
  | i64Neg (c : Ctl) (w : Width) (sx : Bool) (vd va : Reg)
  | i64And (c : Ctl) (w : Width) (sx : Bool) (vd va vb : Reg)
  | i64Andn (c : Ctl) (w : Width) (sx : Bool) (vd va vb : Reg)
  | i64Or (c : Ctl) (w : Width) (sx : Bool) (vd va vb : Reg)
  | i64Xor (c : Ctl) (w : Width) (sx : Bool) (vd va vb : Reg)
  | i64Not (c : Ctl) (w : Width) (sx : Bool) (vd va : Reg)
  | i64Shl (c : Ctl) (w : Width) (sx : Bool) (vd va vb : Reg)
  | i64Shr (c : Ctl) (w : Width) (sx : Bool) (vd va vb : Reg)
  | i64Sar (c : Ctl) (w : Width) (sx : Bool) (vd va vb : Reg)
  | i64Rot (c : Ctl) (w : Width) (sx : Bool) (vd va vb : Reg)
  | i64Popc (c : Ctl) (w : Width) (sx : Bool) (vd va : Reg)
  | i64Clz (c : Ctl) (w : Width) (sx : Bool) (vd va : Reg)
  | i64Ctz (c : Ctl) (w : Width) (sx : Bool) (vd va : Reg)
  | i64Brev (c : Ctl) (w : Width) (sx : Bool) (vd va : Reg)
  | i64Shli (c : Ctl) (w : Width) (amt : BitVec 6) (vd va : Reg)
  | i64Shri (c : Ctl) (w : Width) (amt : BitVec 6) (vd va : Reg)
  | i64Sari (c : Ctl) (w : Width) (amt : BitVec 6) (vd va : Reg)
  | i64Addi (c : Ctl) (imm : BitVec 18) (vd va : Reg)
  | mad (c : Ctl) (w : Width) (sx : Bool) (vd va vb vc : Reg)
  | lea (c : Ctl) (sh : BitVec 3) (vd va vb : Reg)
  | bfx (c : Ctl) (pos : BitVec 6) (len : BitVec 7) (sx : Bool) (vd va : Reg)
  | bfi (c : Ctl) (pos : BitVec 6) (len : BitVec 7) (vd va : Reg)
  | sel (c : Ctl) (p : PReg) (neg : Bool) (vd va vb : Reg)
  | i64Setp (c : Ctl) (cond : ICond) (w : Width) (pd : PReg) (va vb : Reg)
  | movl (c : Ctl) (imm : BitVec 24) (vd : Reg)
  | movk (c : Ctl) (val : BitVec 16) (pos : BitVec 2) (vd : Reg)
  | div (c : Ctl) (w : Width) (sg : Bool) (vd va vb : Reg)
  | rem (c : Ctl) (w : Width) (sg : Bool) (vd va vb : Reg)
  -- I64 floating forms (R71)
  | i64Fadd (c : Ctl) (rm : Rm) (ty : FTy) (vd va vb : Reg)
  | i64Fsub (c : Ctl) (rm : Rm) (ty : FTy) (vd va vb : Reg)
  | i64Fmul (c : Ctl) (rm : Rm) (ty : FTy) (vd va vb : Reg)
  | ffma (c : Ctl) (rm : Rm) (ty : FTy) (vd va vb vc : Reg)
  | i64Fmin (c : Ctl) (ty : FTy) (vd va vb : Reg)
  | i64Fmax (c : Ctl) (ty : FTy) (vd va vb : Reg)
  | i64Fsetp (c : Ctl) (cond : FCond) (ty : FTy) (pd : PReg) (va vb : Reg)
  | fscale (c : Ctl) (rm : Rm) (ty : FTy) (vd va vb : Reg)
  | fdiv (c : Ctl) (rm : Rm) (ty : FTy) (vd va vb : Reg)
  | fsqrt (c : Ctl) (rm : Rm) (ty : FTy) (vd va : Reg)
  | frcp (c : Ctl) (rm : Rm) (ty : FTy) (vd va : Reg)
  | frsq (c : Ctl) (ty : FTy) (vd va : Reg)
  | fexp2 (c : Ctl) (ty : FTy) (vd va : Reg)
  | flog2 (c : Ctl) (ty : FTy) (vd va : Reg)
  | fsin (c : Ctl) (ty : FTy) (vd va : Reg)
  | fcos (c : Ctl) (ty : FTy) (vd va : Reg)
  | i64Fcvt (c : Ctl) (dst src : TyCode) (rm : Rm) (sat : Bool) (vd va : Reg)
  | i64I2f (c : Ctl) (dst src : TyCode) (rm : Rm) (sat : Bool) (vd va : Reg)
  | i64F2i (c : Ctl) (dst src : TyCode) (rm : Rm) (vd va : Reg)
  | frnd (c : Ctl) (rm : Rm) (ty : FTy) (vd va : Reg)
  | fpack (c : Ctl) (kind : PackKind) (ty : FTy) (rm : Rm) (vd va vb : Reg)
  | funpack (c : Ctl) (kind : PackKind) (ty : FTy) (rm : Rm) (vd va vb : Reg)
  -- memory (R139-R148, R264)
  | ldB8 (c : Ctl) (off : BitVec 12) (pr : PReg) (hint : Hint) (vd va : Reg)
  | ldB16 (c : Ctl) (off : BitVec 12) (pr : PReg) (hint : Hint) (vd va : Reg)
  | ldB32 (c : Ctl) (off : BitVec 12) (pr : PReg) (hint : Hint) (vd va : Reg)
  | ldB64 (c : Ctl) (off : BitVec 12) (pr : PReg) (hint : Hint) (vd va : Reg)
  | ldS8 (c : Ctl) (off : BitVec 12) (pr : PReg) (hint : Hint) (vd va : Reg)
  | ldS16 (c : Ctl) (off : BitVec 12) (pr : PReg) (hint : Hint) (vd va : Reg)
  | ldS32 (c : Ctl) (off : BitVec 12) (pr : PReg) (hint : Hint) (vd va : Reg)
  | ldv (c : Ctl) (size : LdSize) (pr : PReg) (vd va vb : Reg)
  | stB8 (c : Ctl) (off : BitVec 12) (hint : Hint) (src va : Reg)
  | stB16 (c : Ctl) (off : BitVec 12) (hint : Hint) (src va : Reg)
  | stB32 (c : Ctl) (off : BitVec 12) (hint : Hint) (src va : Reg)
  | stB64 (c : Ctl) (off : BitVec 12) (hint : Hint) (src va : Reg)
  | ldsB8 (c : Ctl) (off : BitVec 12) (vd va : Reg)
  | ldsB16 (c : Ctl) (off : BitVec 12) (vd va : Reg)
  | ldsB32 (c : Ctl) (off : BitVec 12) (vd va : Reg)
  | ldsB64 (c : Ctl) (off : BitVec 12) (vd va : Reg)
  | ldsS8 (c : Ctl) (off : BitVec 12) (vd va : Reg)
  | ldsS16 (c : Ctl) (off : BitVec 12) (vd va : Reg)
  | ldsS32 (c : Ctl) (off : BitVec 12) (vd va : Reg)
  | stsB8 (c : Ctl) (off : BitVec 12) (src va : Reg)
  | stsB16 (c : Ctl) (off : BitVec 12) (src va : Reg)
  | stsB32 (c : Ctl) (off : BitVec 12) (src va : Reg)
  | stsB64 (c : Ctl) (off : BitVec 12) (src va : Reg)
  | touch (c : Ctl) (off : BitVec 12) (pr : PReg) (va : Reg)
  | pref (c : Ctl) (off : BitVec 12) (l2 excl : Bool) (va : Reg)
  | cctl (c : Ctl) (off : BitVec 12) (op : CctlOp) (va : Reg)
  | ldw (c : Ctl) (off : BitVec 12) (pr : PReg) (sc : Scope) (vd va : Reg)
  | ldc (c : Ctl) (off : BitVec 12) (pr : PReg) (sc : Scope) (vd va : Reg)
  | stf (c : Ctl) (off : BitVec 12) (pr : PReg) (sc : Scope) (src va : Reg)
  | stx (c : Ctl) (off : BitVec 12) (pr : PReg) (sc : Scope) (src va : Reg)
  | purge (c : Ctl) (off : BitVec 12) (pr : PReg) (sc : Scope) (va : Reg)
  | feq (c : Ctl) (off : BitVec 12) (pr : PReg) (sc : Scope) (pd : PReg) (va : Reg)
  -- atomics, versions, fence (R201, R202, R265, R239)
  | atom (c : Ctl) (op : AtomOp) (ty : AtomTy) (four : Bool) (ord : AOrder) (sc : Scope) (vd va vb : Reg)
  | atoms (c : Ctl) (op : AtomOp) (ty : AtomTy) (four : Bool) (ord : AOrder) (vd va vb : Reg)
  | red (c : Ctl) (op : AtomOp) (ty : AtomTy) (four : Bool) (ord : AOrder) (sc : Scope) (va vb : Reg)
  | cas (c : Ctl) (four : Bool) (ord : AOrder) (sc : Scope) (vd va vb vc : Reg)
  | vretire (c : Ctl) (va vb : Reg)
  | fence (c : Ctl) (kind : FenceKind) (sc : Scope)
  -- control (R103)
  | bra (c : Ctl) (off : BitVec 24)
  | jmp (c : Ctl) (va : Reg)
  | call (c : Ctl) (off : BitVec 24)
  | callr (c : Ctl) (va : Reg)
  | callt (c : Ctl) (pd : PReg) (vd va vb : Reg)
  | ret (c : Ctl)
  | exit (c : Ctl)
  | nop (c : Ctl)
  | wait (c : Ctl) (time : Bool) (va : Reg)
  | yield (c : Ctl)
  -- barriers, bundle-wide, launch (R191-R210)
  | bara (c : Ctl) (bar : BarRef) (vd : Reg)
  | barw (c : Ctl) (bar : BarRef) (vd va : Reg)
  | bars (c : Ctl) (bar : BarRef) (va : Reg)
  | bare (c : Ctl) (bar : BarRef) (vd : Reg)
  | bart (c : Ctl) (bar : BarRef) (pd : PReg) (va : Reg)
  | shfl (c : Ctl) (mode : ShflMode) (pv : PReg) (vd va vb : Reg)
  | vote (c : Ctl) (v : VoteOp)
  | redb (c : Ctl) (op : RedOp) (ty : RedTy) (vd va : Reg)
  | launch (c : Ctl) (sc : Scope) (va vb : Reg)
  | signal (c : Ctl) (sc : Scope) (fill : Bool) (va vb : Reg)
  | idemend (c : Ctl)
  -- engine commands (R291-R304)
  | cpy (c : Ctl) (ord : Bool) (eng : EngSel) (credit : Option BarRef) (vd va : Reg)
  | cpyx (c : Ctl) (ord : Bool) (eng : EngSel) (credit : Option BarRef) (vd va : Reg)
  | cpym (c : Ctl) (ord : Bool) (eng : EngSel) (credit : Option BarRef) (vd va vb : Reg)
  | publish (c : Ctl) (ord : Bool) (sys : Bool) (credit : Option BarRef) (vd va : Reg)
  | coll (c : Ctl) (ord : Bool) (eng : EngSel) (credit : Option BarRef) (vd va : Reg)
  | halo (c : Ctl) (ord : Bool) (eng : EngSel) (credit : Option BarRef) (vd va : Reg)
  | eqry (c : Ctl) (eng : QrySel) (vd : Reg)
  -- matrix (R309, R321, R322)
  | mma (c : Ctl) (en : BitVec 2) (fmt : TyCode) (bar : Option BarRef) (vd va : Reg)
  | mmag (c : Ctl) (en : BitVec 2) (fmt : TyCode) (bar : Option BarRef) (vd va : Reg)
  | mmaq (c : Ctl) (en : BitVec 2) (fmt : TyCode) (bar : Option BarRef) (vd va : Reg)
  | accz (c : Ctl) (va vb : Reg)
  | accrd (c : Ctl) (four : Bool) (vd va : Reg)
  | accwr (c : Ctl) (four : Bool) (va vb : Reg)
  | permt (c : Ctl) (va vb : Reg)
  -- traversal (R327)
  | trace (c : Ctl) (anyHit : Bool) (vd va : Reg)
  | tracek (c : Ctl) (km1 : BitVec 3) (vd va : Reg)
  | march (c : Ctl) (vd va : Reg)
  | graft (c : Ctl) (vd va : Reg)
  | hitattr (c : Ctl) (vd va vb : Reg)
  | frameout (c : Ctl) (vd va vb : Reg)
  -- special registers and traps (R28, R364-R366)
  | srd (c : Ctl) (sr : SReg) (vd : Reg)
  | swr (c : Ctl) (va : Reg)
  | trap (c : Ctl) (code : BitVec 18)
  | rft (c : Ctl) (skip : Bool)
  | bkpt (c : Ctl)
  -- events (95_what_each_step_holds.md)
  | classVResultLands (op : Nat)
  | storePerformed (op : Nat)
  | returnStackSpill (thr : Nat)
  | returnStackFill (thr : Nat)
  | waitExpiry (thr : Nat)
  | yieldExpiry (thr : Nat)
  | touchComplete (op : Nat)
  | threadRetire (thr : Nat)
  | blockTableEntryGrant (core part : Nat)
  | waiterRecord (thr : Nat)
  | wake (word : Nat)
  | formRetry (thr : Nat)
  | waiterNotice (core word : Nat)
  | engineCredit (msg : Nat)
  | abortDelivery (msg : Nat)
  | queueTake (ctx q : Nat)
  | placementAttempt (die ctx : Nat)
  | coreQueueStart (core : Nat)
  | balanceInterval (die : Nat)
  | nodeBatchDispatch (ctx q : Nat)
  | nodeBatchTimeout (ctx q : Nat)
  | nodeEndMark (ctx q : Nat)
  | launchCompletion (launch : Nat)
  | qeCoreCtxWrite (die idx : Nat) (val : Word)
  | coreOwnerChange (core : Nat)
  | xlInvCmd (die : Nat) (val : Word)
  | xlInvalidationDone (die : Nat)
  | frCmdRetry (die thr ctx : Nat)
  | frCmdSkip (die thr ctx : Nat)
  | frCmdKill (die thr ctx : Nat)
  | frCmdIgnored (die : Nat)
  | frPend (die : Nat)
  | peCmdPreempt (ctx : Nat)
  | peCmdKill (ctx : Nat)
  | peCmdPin (ctx : Nat)
  | peCmdRestore (ctx : Nat)
  | peDrainDone
  | peDrainTimeout
  | peSaveDone
  | ckCmdSave
  | ckExchangeDone
  | ckCmdRestore
  | dbgCmdStop (core part : Nat)
  | dbgCmdResume (core part : Nat)
  | wpHitWrite (core : Nat) (val : Word)
  | sampleTag (core part : Nat)
  | sampleRecord (core part : Nat)
  | svCmdGrant
  | svCmdRefuse
  | svCmdGiveFrame
  | svCmdIgnored
  | svPend
  | tpCmdRelease
  | tpCmdMigrate
  | tpCmdIgnored
  | migrationPassEnd
  | freezeCopyEnd
  | foCtlWrite (stream : Nat) (val : Word)
  | frameEncoded (stream : Nat)
  | ebudRefill
  | thermalTrip
  | registerWrite (off : Nat) (val : RegData)
  | peerDown (peer : Nat)
  | peerRead (peer off size : Nat)
  | peerWrite (peer off : Nat) (bytes : List Byte)
  | leaseHoldExpiry (line : Nat)
  | peerResend (op : Nat)
  | engineResend (cmd : Nat)
  | ptpRefresh (offset : Word)
  | fillAliasWrite (off : Nat) (bytes : List Byte)
  | hdmAccess (off : Nat) (acc : HdmOp)
  | hostSnoop (addr : Nat) (inval : Bool)
  | taprootRd (die sector : Nat)
  | taprootRdx (die sector : Nat)
  | taprootUp (die sector : Nat)
  | taprootEv (die sector : Nat) (dirty : Bool)
  | downgradeProbe (probe : Nat)
  | invalidateProbe (probe : Nat)
  | probeAck (probe : Nat)
  | evictionNotice (core line : Nat)
  | l1ReadMiss (core sector : Nat)
  | l1WriteUpgrade (core sector : Nat)
  | reclassifyComplete (frame : Nat)
  | remoteWriteApply (die msg : Nat)
  | scratchRefill (block page : Nat)
  | cowCopyDone (rec : Nat)
  | cowCopyError (rec : Nat)
  | cowReserveRetry (op : Nat)
  | publishBroadcast (cmd : Nat)
  | publishComplete (cmd : Nat)
  | vretireComplete (op : Nat)
  | sweep (region : Nat)
  | engineAccept (thr : Nat)
  | engineCommandStart (cmd : Nat)
  | engineCommandComplete (cmd : Nat)
  | matrixAccept (thr : Nat)
  | shareStart (core : Nat)
  | matrixStep (core : Nat)
  | shareReady (mx rank : Nat)
  | shareAbort (mx rank : Nat)
  | commitNotice (mx rank : Nat)
  | abortNotice (mx rank : Nat)
  | keyLoad (slot : KeyInput)
  | zeroise
  | firmwareImage (img : FwImage)
  | nonceRequest
  | debugUnlock (tok : UnlockToken)
  | spdmMeasurements
  | coldStart
  | warmStart
  | heartbeat (peer : Nat)
  | portUp (port : Nat)
  | portDown (port : Nat)
  deriving DecidableEq, Repr

end Sys2Proof
end

