-- ==== Sys2Proof/WellFormed.lean ====
section
/-! DEFINITION. The checks that make an instruction well formed, each with its name: a fetched encoding that fails one
raises ILLEGAL (spec/04_encoding_and_assembly.md R73 step 2). Checks on values that a field's type cannot hold (a
rounding code of 5, a nonzero reserved field) are made by the decoder. -/

namespace Sys2Proof

/-- The named well-formedness checks. -/
inductive WfCheck where
  /-- the set field is 12, 13 or 14 (R67, R73) -/
  | setField
  /-- the uniform bit on an entry that forbids it (R83, R191, R239, R364-R366) -/
  | uniformForbidden
  /-- a width and extension that R84 does not accept -/
  | extension
  /-- a bit field of length 0, above 64, or past bit 63 (R92, R93) -/
  | bitField
  /-- a run or block of registers that passes v63 (R132, R292, R309, R327) -/
  | regRun
  /-- a band-scale register named for a kind that has none (R132) -/
  | bandReg
  /-- a type code the entry does not accept (R128, R309) -/
  | typeCode
  /-- an operation, type and size that R200 or R201 does not accept -/
  | opType
  /-- a barrier index above its level's limit (R192, R291, R309) -/
  | barIndex
  deriving DecidableEq, Repr

/-- The set field names a flag f0-f11, or 15 for none (R67). -/
def Ctl.setOk (c : Ctl) : Bool := c.set.toNat ≤ 11 || c.set == 15

/-- The type code is one of the eight floating formats (R43). -/
def TyCode.isFloat : TyCode → Bool
  | .d | .f | .h | .bf | .e4m3 | .e5m2 | .e2m1 | .e3m5 => true
  | _ => false

/-- How an integer operation treats signs (R84). -/
inductive SignKind where
  | signed | unsigned | neutral
  deriving DecidableEq, Repr

/-- The combinations of width, kind and mod[2] that R84 accepts (DIV and REM apart). -/
def extOk : SignKind → Width → Bool → Bool
  | _, .w64, sx => !sx
  | .signed, _, sx => sx
  | .unsigned, _, sx => !sx
  | .neutral, _, _ => true

/-- A barrier index within its level's limit (R192). -/
def BarRef.ok (b : BarRef) : Bool :=
  match b.level with
  | .block => true
  | .grove => b.index.toNat < 8
  | .span => b.index.toNat < 4

/-- A credit barrier, when one is named, within its limits (R291). -/
def creditOk : Option BarRef → Bool
  | none => true
  | some b => b.ok

/-- A run of n registers from r stays within v0-v63 (R132, R292). -/
def runOk (r : Reg) (n : Nat) : Bool := r.toNat + n ≤ 64

/-- The number of items of a packed register (R131). -/
def PackKind.items : PackKind → Nat
  | .e2m1 | .e4m3 | .e5m2 => 8
  | .bf => 4

/-- The types an atomic accepts (R201). -/
def atomOk (op : AtomOp) (ty : AtomTy) (four : Bool) : Bool :=
  (match ty with
    | .d => !four
    | .f => four
    | _ => true) &&
  (match op with
    | .and | .or | .xor => ty == .n
    | _ => true)

/-- The types a bundle reduction accepts (R200). -/
def redOk : RedOp → RedTy → Bool
  | .and, .d | .and, .f | .or, .d | .or, .f | .xor, .d | .xor, .f => false
  | _, _ => true

/-- The operand formats a matrix instruction accepts (R309). -/
def mmaFmtOk : TyCode → Bool
  | .e3m5 => false
  | t => t.isFloat

/-- The operand formats MMAG accepts (R309). -/
def mmagFmtOk : TyCode → Bool
  | .e3m5 | .e2m1 => false
  | t => t.isFloat

/-- The first of the listed checks that fails. -/
def firstFail : List (Bool × WfCheck) → Option WfCheck
  | [] => none
  | (ok, w) :: rest => if ok then firstFail rest else some w

/-- The checks of an I64 instruction: its set field, then its own. -/
def chk (c : Ctl) (own : List (Bool × WfCheck)) : Option WfCheck := firstFail ((c.setOk, .setField) :: own)

/-- The checks of an I64 instruction that forbids the uniform bit. -/
def chkNoU (c : Ctl) (own : List (Bool × WfCheck)) : Option WfCheck :=
  chk c ((!c.uniform, .uniformForbidden) :: own)

/-- The check that an instruction fails, or none when it is well formed. C16 and I32 forms and events have none. -/
def Instr.wfError : Instr → Option WfCheck
  | .i64Add c w sx _ _ _ | .i64Sub c w sx _ _ _ | .i64Mul c w sx _ _ _ | .i64And c w sx _ _ _ | .i64Andn c w sx _ _ _
  | .i64Or c w sx _ _ _ | .i64Xor c w sx _ _ _ | .i64Shl c w sx _ _ _ | .i64Shr c w sx _ _ _ | .i64Sar c w sx _ _ _
  | .i64Rot c w sx _ _ _ => chk c [(extOk .neutral w sx, .extension)]
  | .i64Neg c w sx _ _ | .i64Not c w sx _ _ | .i64Popc c w sx _ _ | .i64Clz c w sx _ _ | .i64Ctz c w sx _ _
  | .i64Brev c w sx _ _ => chk c [(extOk .neutral w sx, .extension)]
  | .mad c w sx _ _ _ _ => chk c [(extOk .neutral w sx, .extension)]
  | .i64MulhS c w sx _ _ _ | .i64MinS c w sx _ _ _ | .i64MaxS c w sx _ _ _ => chk c [(extOk .signed w sx, .extension)]
  | .i64Abs c w sx _ _ => chk c [(extOk .signed w sx, .extension)]
  | .i64MulhN c w sx _ _ _ | .i64MinN c w sx _ _ _ | .i64MaxN c w sx _ _ _ =>
    chk c [(extOk .unsigned w sx, .extension)]
  | .i64Shli c _ _ _ _ | .i64Shri c _ _ _ _ | .i64Sari c _ _ _ _ => chk c []
  | .i64Addi c _ _ _ | .lea c _ _ _ _ | .sel c _ _ _ _ _ | .i64Setp c _ _ _ _ _ | .movl c _ _ | .movk c _ _ _ => chk c []
  | .bfx c pos len _ _ _ => chk c [(1 ≤ len.toNat && pos.toNat + len.toNat ≤ 64, .bitField)]
  | .bfi c pos len _ _ => chk c [(1 ≤ len.toNat && pos.toNat + len.toNat ≤ 64, .bitField)]
  | .div c _ _ _ _ _ | .rem c _ _ _ _ _ => chk c []
  | .i64Fadd c _ _ _ _ _ | .i64Fsub c _ _ _ _ _ | .i64Fmul c _ _ _ _ _ | .ffma c _ _ _ _ _ _ | .i64Fmin c _ _ _ _
  | .i64Fmax c _ _ _ _ | .i64Fsetp c _ _ _ _ _ | .fscale c _ _ _ _ _ | .fdiv c _ _ _ _ _ | .fsqrt c _ _ _ _
  | .frcp c _ _ _ _ | .frsq c _ _ _ | .fexp2 c _ _ _ | .flog2 c _ _ _ | .fsin c _ _ _ | .fcos c _ _ _
  | .frnd c _ _ _ _ => chk c []
  | .i64Fcvt c dst src _ _ _ _ => chk c [(dst.isFloat && src.isFloat, .typeCode)]
  | .i64I2f c dst src _ _ _ _ => chk c [(dst.isFloat && !src.isFloat, .typeCode)]
  | .i64F2i c dst src _ _ _ => chk c [(!dst.isFloat && src.isFloat, .typeCode)]
  | .fpack c kind _ _ _ va vb => chk c [(runOk va kind.items, .regRun), (kind == .e2m1 || vb == 0, .bandReg)]
  | .funpack c kind _ _ vd _ vb => chk c [(runOk vd kind.items, .regRun), (kind == .e2m1 || vb == 0, .bandReg)]
  | .ldB8 c _ _ _ _ _ | .ldB16 c _ _ _ _ _ | .ldB32 c _ _ _ _ _ | .ldB64 c _ _ _ _ _ | .ldS8 c _ _ _ _ _
  | .ldS16 c _ _ _ _ _ | .ldS32 c _ _ _ _ _ => chk c []
  | .ldv c _ _ _ _ _ => chk c []
  | .stB8 c _ _ _ _ | .stB16 c _ _ _ _ | .stB32 c _ _ _ _ | .stB64 c _ _ _ _ => chk c []
  | .ldsB8 c _ _ _ | .ldsB16 c _ _ _ | .ldsB32 c _ _ _ | .ldsB64 c _ _ _ | .ldsS8 c _ _ _ | .ldsS16 c _ _ _
  | .ldsS32 c _ _ _ | .stsB8 c _ _ _ | .stsB16 c _ _ _ | .stsB32 c _ _ _ | .stsB64 c _ _ _ => chk c []
  | .touch c _ _ _ | .pref c _ _ _ _ | .cctl c _ _ _ => chk c []
  | .ldw c _ _ _ _ _ | .ldc c _ _ _ _ _ | .stf c _ _ _ _ _ | .stx c _ _ _ _ _ | .purge c _ _ _ _
  | .feq c _ _ _ _ _ => chk c []
  | .atom c op ty four _ _ _ _ _ => chk c [(atomOk op ty four, .opType)]
  | .atoms c op ty four _ _ _ _ => chk c [(atomOk op ty four, .opType)]
  | .red c op ty four _ _ _ _ => chk c [(atomOk op ty four, .opType)]
  | .cas c _ _ _ _ _ _ _ => chk c []
  | .vretire c _ _ => chk c []
  | .fence c _ _ => chkNoU c []
  | .bra c _ | .jmp c _ | .call c _ | .callr c _ | .callt c _ _ _ _ | .ret c | .exit c | .nop c | .wait c _ _
  | .yield c => chkNoU c []
  | .bara c b _ | .barw c b _ _ | .bars c b _ | .bare c b _ | .bart c b _ _ => chk c [(b.ok, .barIndex)]
  | .shfl c _ _ _ _ _ | .vote c _ => chkNoU c []
  | .redb c op ty _ _ => chkNoU c [(redOk op ty, .opType)]
  | .launch c _ _ _ | .signal c _ _ _ _ | .idemend c => chk c []
  | .cpy c _ _ cr _ va | .cpyx c _ _ cr _ va => chk c [(runOk va 8, .regRun), (creditOk cr, .barIndex)]
  | .cpym c _ _ cr _ va _ => chk c [(runOk va 8, .regRun), (creditOk cr, .barIndex)]
  | .publish c _ _ cr _ va => chk c [(runOk va 2, .regRun), (creditOk cr, .barIndex)]
  | .coll c _ _ cr _ va => chk c [(runOk va 6, .regRun), (creditOk cr, .barIndex)]
  | .halo c _ _ cr _ va => chk c [(runOk va 9, .regRun), (creditOk cr, .barIndex)]
  | .eqry c _ _ => chk c []
  | .mma c _ fmt bar _ va => chk c [(mmaFmtOk fmt, .typeCode), (runOk va 3, .regRun), (creditOk bar, .barIndex)]
  | .mmag c _ fmt bar _ va => chk c [(mmagFmtOk fmt, .typeCode), (runOk va 3, .regRun), (creditOk bar, .barIndex)]
  | .mmaq c _ fmt bar _ va => chk c [(fmt == .e2m1, .typeCode), (runOk va 3, .regRun), (creditOk bar, .barIndex)]
  | .accz c _ _ | .accrd c _ _ _ | .accwr c _ _ _ | .permt c _ _ => chk c []
  | .trace c _ vd va => chk c [(runOk va 6 && runOk vd 3, .regRun)]
  | .tracek c km1 vd va => chk c [(runOk va 6 && runOk vd (km1.toNat + 2), .regRun)]
  | .march c vd va => chk c [(runOk va 5 && runOk vd 5, .regRun)]
  | .graft c _ va => chk c [(runOk va 4, .regRun)]
  | .hitattr c vd va _ => chk c [(runOk va 3 && runOk vd 2, .regRun)]
  | .frameout c _ _ _ => chk c []
  | .srd c _ _ | .swr c _ => chk c []
  | .trap c _ | .rft c _ | .bkpt c => chkNoU c []
  | _ => none

/-- The instruction passes every check. -/
def Instr.wf (i : Instr) : Bool := i.wfError.isNone

end Sys2Proof
end

