-- ==== Sys2Proof/Decode.lean ====
section
/-! DEFINITION. The decoder of Claem-1 instructions, total on any bytes, and after it the encoder, both written from the
same encoding tables (spec/04_encoding_and_assembly.md R64-R73 and the field layouts of the entries). -/

namespace Sys2Proof

/-- Why a parcel sequence is no instruction; each is ILLEGAL under R73 step 2, but for short, which says that bytes of
the instruction are missing. -/
inductive DecodeErr where
  /-- the opcode is unallocated (R70, R71) -/
  | opcode
  /-- a reserved field or sub-field is nonzero (R68, R73) -/
  | reserved
  /-- a sub-field holds a value that its table does not list (R47, R71, R141, R146, R291) -/
  | subField
  /-- the decoded instruction fails a well-formedness check -/
  | illFormed (c : WfCheck)
  /-- fewer bytes than the instruction's length (R64) -/
  | short
  deriving DecidableEq, Repr


/-- Width codes (R84). -/
def Width.toCode : Width → BitVec 2
  | .w64 => 0#2
  | .w32 => 1#2
  | .w16 => 2#2
  | .w8 => 3#2

/-- The value that a code of Width stands for; none where the code is reserved. -/
def Width.ofCode (b : BitVec 2) : Option Width :=
  match b.toNat with
  | 0 => some .w64
  | 1 => some .w32
  | 2 => some .w16
  | _ => some .w8

@[simp] theorem Width.ofCode_toCode (x : Width) : Width.ofCode x.toCode = some x := by cases x <;> rfl

/-- Rounding codes (R47). -/
def Rm.toCode : Rm → BitVec 3
  | .rne => 0#3
  | .rz => 1#3
  | .rup => 2#3
  | .rdn => 3#3
  | .rna => 4#3

/-- The value that a code of Rm stands for; none where the code is reserved. -/
def Rm.ofCode (b : BitVec 3) : Option Rm :=
  match b.toNat with
  | 0 => some .rne
  | 1 => some .rz
  | 2 => some .rup
  | 3 => some .rdn
  | 4 => some .rna
  | _ => none

@[simp] theorem Rm.ofCode_toCode (x : Rm) : Rm.ofCode x.toCode = some x := by cases x <;> rfl

/-- The type bit of the R sub-format (R113). -/
def FTy.toCode : FTy → BitVec 1
  | .d => 0#1
  | .f => 1#1

/-- The value that a code of FTy stands for; none where the code is reserved. -/
def FTy.ofCode (b : BitVec 1) : Option FTy :=
  match b.toNat with
  | 0 => some .d
  | _ => some .f

@[simp] theorem FTy.ofCode_toCode (x : FTy) : FTy.ofCode x.toCode = some x := by cases x <;> rfl

/-- Type codes (R43). -/
def TyCode.toCode : TyCode → BitVec 4
  | .s8 => 0#4
  | .s16 => 1#4
  | .s32 => 2#4
  | .s64 => 3#4
  | .n8 => 4#4
  | .n16 => 5#4
  | .n32 => 6#4
  | .n64 => 7#4
  | .d => 8#4
  | .f => 9#4
  | .h => 10#4
  | .bf => 11#4
  | .e4m3 => 12#4
  | .e5m2 => 13#4
  | .e2m1 => 14#4
  | .e3m5 => 15#4

/-- The value that a code of TyCode stands for; none where the code is reserved. -/
def TyCode.ofCode (b : BitVec 4) : Option TyCode :=
  match b.toNat with
  | 0 => some .s8
  | 1 => some .s16
  | 2 => some .s32
  | 3 => some .s64
  | 4 => some .n8
  | 5 => some .n16
  | 6 => some .n32
  | 7 => some .n64
  | 8 => some .d
  | 9 => some .f
  | 10 => some .h
  | 11 => some .bf
  | 12 => some .e4m3
  | 13 => some .e5m2
  | 14 => some .e2m1
  | _ => some .e3m5

@[simp] theorem TyCode.ofCode_toCode (x : TyCode) : TyCode.ofCode x.toCode = some x := by cases x <;> rfl

/-- Scope codes (R71). -/
def Scope.toCode : Scope → BitVec 3
  | .blk => 0#3
  | .grv => 1#3
  | .die => 2#3
  | .pkg => 3#3
  | .fab => 4#3
  | .sys => 5#3

/-- The value that a code of Scope stands for; none where the code is reserved. -/
def Scope.ofCode (b : BitVec 3) : Option Scope :=
  match b.toNat with
  | 0 => some .blk
  | 1 => some .grv
  | 2 => some .die
  | 3 => some .pkg
  | 4 => some .fab
  | 5 => some .sys
  | _ => none

@[simp] theorem Scope.ofCode_toCode (x : Scope) : Scope.ofCode x.toCode = some x := by cases x <;> rfl

/-- Cache hint codes (R141). -/
def Hint.toCode : Hint → BitVec 3
  | .none => 0#3
  | .ef => 1#3
  | .na => 2#3
  | .byp => 3#3
  | .keep => 4#3

/-- The value that a code of Hint stands for; none where the code is reserved. -/
def Hint.ofCode (b : BitVec 3) : Option Hint :=
  match b.toNat with
  | 0 => some .none
  | 1 => some .ef
  | 2 => some .na
  | 3 => some .byp
  | 4 => some .keep
  | _ => Option.none

@[simp] theorem Hint.ofCode_toCode (x : Hint) : Hint.ofCode x.toCode = some x := by cases x <;> rfl

/-- Integer condition codes (R98). -/
def ICond.toCode : ICond → BitVec 3
  | .eq => 0#3
  | .ne => 1#3
  | .ltS => 2#3
  | .leS => 3#3
  | .ltN => 4#3
  | .leN => 5#3

/-- The value that a code of ICond stands for; none where the code is reserved. -/
def ICond.ofCode (b : BitVec 3) : Option ICond :=
  match b.toNat with
  | 0 => some .eq
  | 1 => some .ne
  | 2 => some .ltS
  | 3 => some .leS
  | 4 => some .ltN
  | 5 => some .leN
  | _ => none

@[simp] theorem ICond.ofCode_toCode (x : ICond) : ICond.ofCode x.toCode = some x := by cases x <;> rfl

/-- Floating condition codes (R118). -/
def FCond.toCode : FCond → BitVec 3
  | .eq => 0#3
  | .ne => 1#3
  | .lt => 2#3
  | .le => 3#3
  | .un => 4#3

/-- The value that a code of FCond stands for; none where the code is reserved. -/
def FCond.ofCode (b : BitVec 3) : Option FCond :=
  match b.toNat with
  | 0 => some .eq
  | 1 => some .ne
  | 2 => some .lt
  | 3 => some .le
  | 4 => some .un
  | _ => none

@[simp] theorem FCond.ofCode_toCode (x : FCond) : FCond.ofCode x.toCode = some x := by cases x <;> rfl

/-- Load size codes (R264). -/
def LdSize.toCode : LdSize → BitVec 3
  | .b8 => 0#3
  | .b16 => 1#3
  | .b32 => 2#3
  | .b64 => 3#3
  | .s8 => 4#3
  | .s16 => 5#3
  | .s32 => 6#3

/-- The value that a code of LdSize stands for; none where the code is reserved. -/
def LdSize.ofCode (b : BitVec 3) : Option LdSize :=
  match b.toNat with
  | 0 => some .b8
  | 1 => some .b16
  | 2 => some .b32
  | 3 => some .b64
  | 4 => some .s8
  | 5 => some .s16
  | 6 => some .s32
  | _ => none

@[simp] theorem LdSize.ofCode_toCode (x : LdSize) : LdSize.ofCode x.toCode = some x := by cases x <;> rfl

/-- Atomic operation codes (R201). -/
def AtomOp.toCode : AtomOp → BitVec 3
  | .add => 0#3
  | .min => 1#3
  | .max => 2#3
  | .and => 3#3
  | .or => 4#3
  | .xor => 5#3
  | .exch => 6#3

/-- The value that a code of AtomOp stands for; none where the code is reserved. -/
def AtomOp.ofCode (b : BitVec 3) : Option AtomOp :=
  match b.toNat with
  | 0 => some .add
  | 1 => some .min
  | 2 => some .max
  | 3 => some .and
  | 4 => some .or
  | 5 => some .xor
  | 6 => some .exch
  | _ => none

@[simp] theorem AtomOp.ofCode_toCode (x : AtomOp) : AtomOp.ofCode x.toCode = some x := by cases x <;> rfl

/-- Atomic type codes (R201). -/
def AtomTy.toCode : AtomTy → BitVec 2
  | .s => 0#2
  | .n => 1#2
  | .d => 2#2
  | .f => 3#2

/-- The value that a code of AtomTy stands for; none where the code is reserved. -/
def AtomTy.ofCode (b : BitVec 2) : Option AtomTy :=
  match b.toNat with
  | 0 => some .s
  | 1 => some .n
  | 2 => some .d
  | _ => some .f

@[simp] theorem AtomTy.ofCode_toCode (x : AtomTy) : AtomTy.ofCode x.toCode = some x := by cases x <;> rfl

/-- Atomic order codes (R201). -/
def AOrder.toCode : AOrder → BitVec 2
  | .acqRel => 0#2
  | .acquire => 1#2
  | .release => 2#2
  | .relaxed => 3#2

/-- The value that a code of AOrder stands for; none where the code is reserved. -/
def AOrder.ofCode (b : BitVec 2) : Option AOrder :=
  match b.toNat with
  | 0 => some .acqRel
  | 1 => some .acquire
  | 2 => some .release
  | _ => some .relaxed

@[simp] theorem AOrder.ofCode_toCode (x : AOrder) : AOrder.ofCode x.toCode = some x := by cases x <;> rfl

/-- FENCE kind codes (R239). -/
def FenceKind.toCode : FenceKind → BitVec 2
  | .acquire => 0#2
  | .release => 1#2
  | .full => 2#2

/-- The value that a code of FenceKind stands for; none where the code is reserved. -/
def FenceKind.ofCode (b : BitVec 2) : Option FenceKind :=
  match b.toNat with
  | 0 => some .acquire
  | 1 => some .release
  | 2 => some .full
  | _ => none

@[simp] theorem FenceKind.ofCode_toCode (x : FenceKind) : FenceKind.ofCode x.toCode = some x := by cases x <;> rfl

/-- CCTL operation codes (R146). -/
def CctlOp.toCode : CctlOp → BitVec 4
  | .wbl1 => 0#4
  | .invl1 => 1#4
  | .wbl2 => 2#4
  | .invl2 => 3#4
  | .iinv => 4#4
  | .iinvall => 5#4

/-- The value that a code of CctlOp stands for; none where the code is reserved. -/
def CctlOp.ofCode (b : BitVec 4) : Option CctlOp :=
  match b.toNat with
  | 0 => some .wbl1
  | 1 => some .invl1
  | 2 => some .wbl2
  | 3 => some .invl2
  | 4 => some .iinv
  | 5 => some .iinvall
  | _ => none

@[simp] theorem CctlOp.ofCode_toCode (x : CctlOp) : CctlOp.ofCode x.toCode = some x := by cases x <;> rfl

/-- SHFL mode codes (R198). -/
def ShflMode.toCode : ShflMode → BitVec 2
  | .idx => 0#2
  | .up => 1#2
  | .down => 2#2
  | .xor => 3#2

/-- The value that a code of ShflMode stands for; none where the code is reserved. -/
def ShflMode.ofCode (b : BitVec 2) : Option ShflMode :=
  match b.toNat with
  | 0 => some .idx
  | 1 => some .up
  | 2 => some .down
  | _ => some .xor

@[simp] theorem ShflMode.ofCode_toCode (x : ShflMode) : ShflMode.ofCode x.toCode = some x := by cases x <;> rfl

/-- REDB operation codes (R200). -/
def RedOp.toCode : RedOp → BitVec 3
  | .add => 0#3
  | .min => 1#3
  | .max => 2#3
  | .and => 3#3
  | .or => 4#3
  | .xor => 5#3

/-- The value that a code of RedOp stands for; none where the code is reserved. -/
def RedOp.ofCode (b : BitVec 3) : Option RedOp :=
  match b.toNat with
  | 0 => some .add
  | 1 => some .min
  | 2 => some .max
  | 3 => some .and
  | 4 => some .or
  | 5 => some .xor
  | _ => none

@[simp] theorem RedOp.ofCode_toCode (x : RedOp) : RedOp.ofCode x.toCode = some x := by cases x <;> rfl

/-- REDB type codes (R200). -/
def RedTy.toCode : RedTy → BitVec 2
  | .s64 => 0#2
  | .n64 => 1#2
  | .d => 2#2
  | .f => 3#2

/-- The value that a code of RedTy stands for; none where the code is reserved. -/
def RedTy.ofCode (b : BitVec 2) : Option RedTy :=
  match b.toNat with
  | 0 => some .s64
  | 1 => some .n64
  | 2 => some .d
  | _ => some .f

@[simp] theorem RedTy.ofCode_toCode (x : RedTy) : RedTy.ofCode x.toCode = some x := by cases x <;> rfl

/-- Packing kind codes (R131). -/
def PackKind.toCode : PackKind → BitVec 2
  | .e2m1 => 0#2
  | .e4m3 => 1#2
  | .e5m2 => 2#2
  | .bf => 3#2

/-- The value that a code of PackKind stands for; none where the code is reserved. -/
def PackKind.ofCode (b : BitVec 2) : Option PackKind :=
  match b.toNat with
  | 0 => some .e2m1
  | 1 => some .e4m3
  | 2 => some .e5m2
  | _ => some .bf

@[simp] theorem PackKind.ofCode_toCode (x : PackKind) : PackKind.ofCode x.toCode = some x := by cases x <;> rfl

/-- Barrier level codes (R192). -/
def BarLevel.toCode : BarLevel → BitVec 2
  | .block => 0#2
  | .grove => 1#2
  | .span => 2#2

/-- The value that a code of BarLevel stands for; none where the code is reserved. -/
def BarLevel.ofCode (b : BitVec 2) : Option BarLevel :=
  match b.toNat with
  | 0 => some .block
  | 1 => some .grove
  | 2 => some .span
  | _ => none

@[simp] theorem BarLevel.ofCode_toCode (x : BarLevel) : BarLevel.ofCode x.toCode = some x := by cases x <;> rfl

/-- One bit as a Bool. -/
def bitOf (b : BitVec 1) : Bool := b == 1#1

/-- A Bool as one bit. -/
def ofBit (b : Bool) : BitVec 1 := if b then 1#1 else 0#1

@[simp] theorem bitOf_ofBit (b : Bool) : bitOf (ofBit b) = b := by cases b <;> rfl

/-- A barrier operand (R192): level above index. -/
def BarRef.toCode (b : BarRef) : BitVec 6 := b.level.toCode ++ b.index

/-- The barrier operand of six bits (R192). -/
def BarRef.ofCode (b : BitVec 6) : Option BarRef :=
  (BarLevel.ofCode (b.extractLsb' 4 2)).map fun l => { level := l, index := b.extractLsb' 0 4 }

/-- A credit barrier (R291): level 3 with index 0 names none. -/
def creditToCode : Option BarRef → BitVec 6
  | none => 0x30#6
  | some b => b.toCode

/-- The credit barrier of six bits (R291). -/
def creditOfCode (b : BitVec 6) : Option (Option BarRef) :=
  if b == 0x30#6 then some none else (BarRef.ofCode b).map some

/-- Engine selector codes of a command (R291). -/
def EngSel.toCode : EngSel → BitVec 5
  | .ce n => 0#1 ++ n
  | .near => 16#5

/-- The engine of five bits; 17-31 name none for a command (R291). -/
def EngSel.ofCode (b : BitVec 5) : Option EngSel :=
  if b.toNat < 16 then some (.ce (b.extractLsb' 0 4)) else if b.toNat = 16 then some .near else none

/-- Engine selector codes of EQRY (R291, R304). -/
def QrySel.toCode : QrySel → BitVec 5
  | .ce n => 0#1 ++ n
  | .near => 16#5
  | .heartwood => 17#5

/-- The engine of five bits that EQRY asks (R304). -/
def QrySel.ofCode (b : BitVec 5) : Option QrySel :=
  if b.toNat < 16 then some (.ce (b.extractLsb' 0 4)) else if b.toNat = 16 then some .near
  else if b.toNat = 17 then some .heartwood else none

/-- Special register numbers (R27). -/
def SReg.toCode : SReg → BitVec 18
  | .tid => 0x00#18 | .lane => 0x01#18 | .bundle => 0x02#18 | .blk => 0x03#18 | .grove => 0x04#18 | .span => 0x05#18
  | .core => 0x06#18 | .clock => 0x08#18 | .time => 0x09#18 | .ebud => 0x10#18 | .tba => 0x11#18 | .tlsbase => 0x12#18
  | .park => 0x13#18 | .uctl => 0x14#18
  | .frec w => 4#15 ++ w
  | .frecPrev w => 5#15 ++ w

/-- The special register of a number; none where the number is unallocated (R27, R28). -/
def SReg.ofCode (b : BitVec 18) : Option SReg :=
  match b.toNat with
  | 0x00 => some .tid | 0x01 => some .lane | 0x02 => some .bundle | 0x03 => some .blk | 0x04 => some .grove
  | 0x05 => some .span | 0x06 => some .core | 0x08 => some .clock | 0x09 => some .time | 0x10 => some .ebud
  | 0x11 => some .tba | 0x12 => some .tlsbase | 0x13 => some .park | 0x14 => some .uctl
  | n => if n / 8 = 4 then some (.frec (b.extractLsb' 0 3)) else if n / 8 = 5 then some (.frecPrev (b.extractLsb' 0 3))
    else none

/-- The two type codes of FRND, which must be equal (R127). -/
def frndToCode : FTy → BitVec 8
  | .d => 0x88#8
  | .f => 0x99#8

/-- The type of FRND's two type codes (R127). -/
def frndOfCode (b : BitVec 8) : Option FTy :=
  if b == 0x88#8 then some .d else if b == 0x99#8 then some .f else none

/-- A sub-field's value, or ILLEGAL (R71). -/
def sub {α : Type} : Option α → Except DecodeErr α
  | some a => .ok a
  | none => .error .subField

/-- Go on only when the reserved bits, those of the mask, are zero (R68, R73). -/
def resv {n : Nat} (p mask : BitVec n) (k : Except DecodeErr Instr) : Except DecodeErr Instr :=
  if p &&& mask == 0 then k else .error .reserved

/-- The decoded instruction when it is well formed (R73 step 2). -/
def fin (i : Instr) : Except DecodeErr Instr :=
  match i.wfError with
  | none => .ok i
  | some c => .error (.illFormed c)

/-- A C16 instruction (R65). Every parcel with bit 0 clear is one. -/
def decode16 (p : BitVec 16) : Instr :=
  let st := bitOf (p.extractLsb' 5 1)
  let vd := p.extractLsb' 6 5
  let vb := p.extractLsb' 11 5
  match (p.extractLsb' 1 4).toNat with
  | 0 => .c16Mov st vd vb
  | 1 => .c16Movi st vd vb
  | 2 => .c16Add st vd vb
  | 3 => .c16Sub st vd vb
  | 4 => .c16Addi st vd vb
  | 5 => .c16And st vd vb
  | 6 => .c16Or st vd vb
  | 7 => .c16Xor st vd vb
  | 8 => .c16Shli st vd vb
  | 9 => .c16Shri st vd vb
  | 10 => .c16Sari st vd vb
  | 11 => .c16FaddD st vd vb
  | 12 => .c16FsubD st vd vb
  | 13 => .c16FmulD st vd vb
  | 14 => .c16FminD st vd vb
  | _ => .c16FmaxD st vd vb

/-- An I32 instruction (R66, R70). -/
def decode32 (w : BitVec 32) : Except DecodeErr Instr :=
  let k : Ctl32 := { stall := w.extractLsb' 3 3, uniform := bitOf (w.extractLsb' 2 1) }
  let vd := w.extractLsb' 14 6
  let va := w.extractLsb' 20 6
  let vb := w.extractLsb' 26 6
  match (w.extractLsb' 6 8).toNat with
  | 0x00 => fin (.i32Add k vd va vb)
  | 0x01 => fin (.i32Sub k vd va vb)
  | 0x02 => fin (.i32Mul k vd va vb)
  | 0x03 => fin (.i32MulhS64 k vd va vb)
  | 0x04 => fin (.i32MulhN64 k vd va vb)
  | 0x05 => fin (.i32MinS64 k vd va vb)
  | 0x06 => fin (.i32MinN64 k vd va vb)
  | 0x07 => fin (.i32MaxS64 k vd va vb)
  | 0x08 => fin (.i32MaxN64 k vd va vb)
  | 0x09 => resv w 0xFC000000#32 (fin (.i32AbsS64 k vd va))
  | 0x0A => resv w 0xFC000000#32 (fin (.i32Neg k vd va))
  | 0x0B => fin (.i32And k vd va vb)
  | 0x0C => fin (.i32Andn k vd va vb)
  | 0x0D => fin (.i32Or k vd va vb)
  | 0x0E => fin (.i32Xor k vd va vb)
  | 0x0F => resv w 0xFC000000#32 (fin (.i32Not k vd va))
  | 0x10 => fin (.i32Shl k vd va vb)
  | 0x11 => fin (.i32Shr k vd va vb)
  | 0x12 => fin (.i32Sar k vd va vb)
  | 0x13 => fin (.i32Rot k vd va vb)
  | 0x14 => fin (.i32Shli k vd va vb)
  | 0x15 => fin (.i32Shri k vd va vb)
  | 0x16 => fin (.i32Sari k vd va vb)
  | 0x17 => resv w 0xFC000000#32 (fin (.i32Popc k vd va))
  | 0x18 => resv w 0xFC000000#32 (fin (.i32Clz k vd va))
  | 0x19 => resv w 0xFC000000#32 (fin (.i32Ctz k vd va))
  | 0x1A => resv w 0xFC000000#32 (fin (.i32Brev k vd va))
  | 0x1B => fin (.i32Addi k vd va vb)
  | 0x40 => fin (.i32FaddD k vd va vb)
  | 0x41 => fin (.i32FsubD k vd va vb)
  | 0x42 => fin (.i32FmulD k vd va vb)
  | 0x43 => fin (.i32FminD k vd va vb)
  | 0x44 => fin (.i32FmaxD k vd va vb)
  | 0x45 => resv w 0xFC000000#32 (fin (.i32FabsD k vd va))
  | 0x46 => resv w 0xFC000000#32 (fin (.i32FnegD k vd va))
  | 0x48 => fin (.i32FaddF k vd va vb)
  | 0x49 => fin (.i32FsubF k vd va vb)
  | 0x4A => fin (.i32FmulF k vd va vb)
  | 0x4B => fin (.i32FminF k vd va vb)
  | 0x4C => fin (.i32FmaxF k vd va vb)
  | 0x4D => resv w 0xFC000000#32 (fin (.i32FabsF k vd va))
  | 0x4E => resv w 0xFC000000#32 (fin (.i32FnegF k vd va))
  | 0x50 => resv w 0xFC000000#32 (fin (.i32FclassD k vd va))
  | 0x51 => resv w 0xFC000000#32 (fin (.i32FgetexpD k vd va))
  | 0x52 => resv w 0xFC000000#32 (fin (.i32FgetmanD k vd va))
  | 0x54 => resv w 0xFC000000#32 (fin (.i32FclassF k vd va))
  | 0x55 => resv w 0xFC000000#32 (fin (.i32FgetexpF k vd va))
  | 0x56 => resv w 0xFC000000#32 (fin (.i32FgetmanF k vd va))
  | 0x80 => resv w 0x000E0000#32 (fin (.i32SetpEq k (w.extractLsb' 14 3) va vb))
  | 0x81 => resv w 0x000E0000#32 (fin (.i32SetpNe k (w.extractLsb' 14 3) va vb))
  | 0x82 => resv w 0x000E0000#32 (fin (.i32SetpLtS64 k (w.extractLsb' 14 3) va vb))
  | 0x83 => resv w 0x000E0000#32 (fin (.i32SetpLeS64 k (w.extractLsb' 14 3) va vb))
  | 0x84 => resv w 0x000E0000#32 (fin (.i32SetpLtN64 k (w.extractLsb' 14 3) va vb))
  | 0x85 => resv w 0x000E0000#32 (fin (.i32SetpLeN64 k (w.extractLsb' 14 3) va vb))
  | 0x88 => resv w 0x000E0000#32 (fin (.i32FsetpEqD k (w.extractLsb' 14 3) va vb))
  | 0x89 => resv w 0x000E0000#32 (fin (.i32FsetpNeD k (w.extractLsb' 14 3) va vb))
  | 0x8A => resv w 0x000E0000#32 (fin (.i32FsetpLtD k (w.extractLsb' 14 3) va vb))
  | 0x8B => resv w 0x000E0000#32 (fin (.i32FsetpLeD k (w.extractLsb' 14 3) va vb))
  | 0x8C => resv w 0x000E0000#32 (fin (.i32FsetpUnD k (w.extractLsb' 14 3) va vb))
  | 0x90 => resv w 0x000E0000#32 (fin (.i32FsetpEqF k (w.extractLsb' 14 3) va vb))
  | 0x91 => resv w 0x000E0000#32 (fin (.i32FsetpNeF k (w.extractLsb' 14 3) va vb))
  | 0x92 => resv w 0x000E0000#32 (fin (.i32FsetpLtF k (w.extractLsb' 14 3) va vb))
  | 0x93 => resv w 0x000E0000#32 (fin (.i32FsetpLeF k (w.extractLsb' 14 3) va vb))
  | 0x94 => resv w 0x000E0000#32 (fin (.i32FsetpUnF k (w.extractLsb' 14 3) va vb))
  | 0x98 => resv w 0xE38E0000#32 (fin (.pand k (w.extractLsb' 14 3) (w.extractLsb' 20 3) (w.extractLsb' 26 3)))
  | 0x99 => resv w 0xE38E0000#32 (fin (.por k (w.extractLsb' 14 3) (w.extractLsb' 20 3) (w.extractLsb' 26 3)))
  | 0x9A => resv w 0xE38E0000#32 (fin (.pxor k (w.extractLsb' 14 3) (w.extractLsb' 20 3) (w.extractLsb' 26 3)))
  | 0x9B => resv w 0xFF8E0000#32 (fin (.pnot k (w.extractLsb' 14 3) (w.extractLsb' 20 3)))
  | 0x9C => resv w 0xFFF00000#32 (fin (.p2v k vd))
  | 0x9D => resv w 0xFC0FC000#32 (fin (.v2p k va))
  | 0xA0 => resv w 0xFC000000#32 (fin (.i32Mov k vd va))
  | 0xA1 => fin (.i32Movi k vd (w.extractLsb' 20 12))
  | 0xA8 => resv w 0xFC000000#32 (fin (.i32FcvtDF k vd va))
  | 0xA9 => resv w 0xFC000000#32 (fin (.i32FcvtFD k vd va))
  | 0xAA => resv w 0xFC000000#32 (fin (.i32I2fDS64 k vd va))
  | 0xAB => resv w 0xFC000000#32 (fin (.i32I2fDN64 k vd va))
  | 0xAC => resv w 0xFC000000#32 (fin (.i32F2iS64D k vd va))
  | 0xAD => resv w 0xFC000000#32 (fin (.i32F2iN64D k vd va))
  | _ => .error .opcode

/-- The control fields of an I64 instruction (R67). -/
def ctlOfWord (w : BitVec 64) : Ctl :=
  { guard := w.extractLsb' 22 3, neg := bitOf (w.extractLsb' 25 1), set := w.extractLsb' 18 4,
    wait := w.extractLsb' 6 12, stall := w.extractLsb' 3 3, uniform := bitOf (w.extractLsb' 2 1) }

/-- VOTE (R199): its kind, its inversion and its operands, predicates or registers by kind. -/
def decodeVote (c : Ctl) (p : BitVec 30) : Except DecodeErr Instr :=
  let inv := bitOf (p.extractLsb' 26 1)
  match (p.extractLsb' 24 2).toNat with
  | 0 => resv p 0x38FFFE38#30 (fin (.vote c (.any inv (p.extractLsb' 0 3) (p.extractLsb' 6 3))))
  | 1 => resv p 0x38FFFE38#30 (fin (.vote c (.all inv (p.extractLsb' 0 3) (p.extractLsb' 6 3))))
  | 2 => resv p 0x38FFFE00#30 (fin (.vote c (.ballot inv (p.extractLsb' 0 6) (p.extractLsb' 6 3))))
  | _ => resv p 0x3CFFF038#30 (fin (.vote c (.eq (p.extractLsb' 0 3) (p.extractLsb' 6 6))))

/-- An I64 instruction (R67, R71): p is its bits [63:34]. -/
def decode64 (w : BitVec 64) : Except DecodeErr Instr :=
  let c := ctlOfWord w
  let p := w.extractLsb' 34 30
  match (w.extractLsb' 26 8).toNat with
  | 0x00 =>
    resv p 0x38FC0000#30 ((sub (Width.ofCode (p.extractLsb' 24 2))).bind fun w => fin (.i64Add c w (bitOf (p.extractLsb' 26 1)) (p.extractLsb' 0 6) (p.extractLsb' 6 6) (p.extractLsb' 12 6)))
  | 0x01 =>
    resv p 0x38FC0000#30 ((sub (Width.ofCode (p.extractLsb' 24 2))).bind fun w => fin (.i64Sub c w (bitOf (p.extractLsb' 26 1)) (p.extractLsb' 0 6) (p.extractLsb' 6 6) (p.extractLsb' 12 6)))
  | 0x02 =>
    resv p 0x38FC0000#30 ((sub (Width.ofCode (p.extractLsb' 24 2))).bind fun w => fin (.i64Mul c w (bitOf (p.extractLsb' 26 1)) (p.extractLsb' 0 6) (p.extractLsb' 6 6) (p.extractLsb' 12 6)))
  | 0x03 =>
    resv p 0x38FC0000#30 ((sub (Width.ofCode (p.extractLsb' 24 2))).bind fun w => fin (.i64MulhS c w (bitOf (p.extractLsb' 26 1)) (p.extractLsb' 0 6) (p.extractLsb' 6 6) (p.extractLsb' 12 6)))
  | 0x04 =>
    resv p 0x38FC0000#30 ((sub (Width.ofCode (p.extractLsb' 24 2))).bind fun w => fin (.i64MulhN c w (bitOf (p.extractLsb' 26 1)) (p.extractLsb' 0 6) (p.extractLsb' 6 6) (p.extractLsb' 12 6)))
  | 0x05 =>
    resv p 0x38FC0000#30 ((sub (Width.ofCode (p.extractLsb' 24 2))).bind fun w => fin (.i64MinS c w (bitOf (p.extractLsb' 26 1)) (p.extractLsb' 0 6) (p.extractLsb' 6 6) (p.extractLsb' 12 6)))
  | 0x06 =>
    resv p 0x38FC0000#30 ((sub (Width.ofCode (p.extractLsb' 24 2))).bind fun w => fin (.i64MinN c w (bitOf (p.extractLsb' 26 1)) (p.extractLsb' 0 6) (p.extractLsb' 6 6) (p.extractLsb' 12 6)))
  | 0x07 =>
    resv p 0x38FC0000#30 ((sub (Width.ofCode (p.extractLsb' 24 2))).bind fun w => fin (.i64MaxS c w (bitOf (p.extractLsb' 26 1)) (p.extractLsb' 0 6) (p.extractLsb' 6 6) (p.extractLsb' 12 6)))
  | 0x08 =>
    resv p 0x38FC0000#30 ((sub (Width.ofCode (p.extractLsb' 24 2))).bind fun w => fin (.i64MaxN c w (bitOf (p.extractLsb' 26 1)) (p.extractLsb' 0 6) (p.extractLsb' 6 6) (p.extractLsb' 12 6)))
  | 0x09 =>
    resv p 0x38FFF000#30 ((sub (Width.ofCode (p.extractLsb' 24 2))).bind fun w => fin (.i64Abs c w (bitOf (p.extractLsb' 26 1)) (p.extractLsb' 0 6) (p.extractLsb' 6 6)))
  | 0x0A =>
    resv p 0x38FFF000#30 ((sub (Width.ofCode (p.extractLsb' 24 2))).bind fun w => fin (.i64Neg c w (bitOf (p.extractLsb' 26 1)) (p.extractLsb' 0 6) (p.extractLsb' 6 6)))
  | 0x0B =>
    resv p 0x38FC0000#30 ((sub (Width.ofCode (p.extractLsb' 24 2))).bind fun w => fin (.i64And c w (bitOf (p.extractLsb' 26 1)) (p.extractLsb' 0 6) (p.extractLsb' 6 6) (p.extractLsb' 12 6)))
  | 0x0C =>
    resv p 0x38FC0000#30 ((sub (Width.ofCode (p.extractLsb' 24 2))).bind fun w => fin (.i64Andn c w (bitOf (p.extractLsb' 26 1)) (p.extractLsb' 0 6) (p.extractLsb' 6 6) (p.extractLsb' 12 6)))
  | 0x0D =>
    resv p 0x38FC0000#30 ((sub (Width.ofCode (p.extractLsb' 24 2))).bind fun w => fin (.i64Or c w (bitOf (p.extractLsb' 26 1)) (p.extractLsb' 0 6) (p.extractLsb' 6 6) (p.extractLsb' 12 6)))
  | 0x0E =>
    resv p 0x38FC0000#30 ((sub (Width.ofCode (p.extractLsb' 24 2))).bind fun w => fin (.i64Xor c w (bitOf (p.extractLsb' 26 1)) (p.extractLsb' 0 6) (p.extractLsb' 6 6) (p.extractLsb' 12 6)))
  | 0x0F =>
    resv p 0x38FFF000#30 ((sub (Width.ofCode (p.extractLsb' 24 2))).bind fun w => fin (.i64Not c w (bitOf (p.extractLsb' 26 1)) (p.extractLsb' 0 6) (p.extractLsb' 6 6)))
  | 0x10 =>
    resv p 0x38FC0000#30 ((sub (Width.ofCode (p.extractLsb' 24 2))).bind fun w => fin (.i64Shl c w (bitOf (p.extractLsb' 26 1)) (p.extractLsb' 0 6) (p.extractLsb' 6 6) (p.extractLsb' 12 6)))
  | 0x11 =>
    resv p 0x38FC0000#30 ((sub (Width.ofCode (p.extractLsb' 24 2))).bind fun w => fin (.i64Shr c w (bitOf (p.extractLsb' 26 1)) (p.extractLsb' 0 6) (p.extractLsb' 6 6) (p.extractLsb' 12 6)))
  | 0x12 =>
    resv p 0x38FC0000#30 ((sub (Width.ofCode (p.extractLsb' 24 2))).bind fun w => fin (.i64Sar c w (bitOf (p.extractLsb' 26 1)) (p.extractLsb' 0 6) (p.extractLsb' 6 6) (p.extractLsb' 12 6)))
  | 0x13 =>
    resv p 0x38FC0000#30 ((sub (Width.ofCode (p.extractLsb' 24 2))).bind fun w => fin (.i64Rot c w (bitOf (p.extractLsb' 26 1)) (p.extractLsb' 0 6) (p.extractLsb' 6 6) (p.extractLsb' 12 6)))
  | 0x17 =>
    resv p 0x38FFF000#30 ((sub (Width.ofCode (p.extractLsb' 24 2))).bind fun w => fin (.i64Popc c w (bitOf (p.extractLsb' 26 1)) (p.extractLsb' 0 6) (p.extractLsb' 6 6)))
  | 0x18 =>
    resv p 0x38FFF000#30 ((sub (Width.ofCode (p.extractLsb' 24 2))).bind fun w => fin (.i64Clz c w (bitOf (p.extractLsb' 26 1)) (p.extractLsb' 0 6) (p.extractLsb' 6 6)))
  | 0x19 =>
    resv p 0x38FFF000#30 ((sub (Width.ofCode (p.extractLsb' 24 2))).bind fun w => fin (.i64Ctz c w (bitOf (p.extractLsb' 26 1)) (p.extractLsb' 0 6) (p.extractLsb' 6 6)))
  | 0x1A =>
    resv p 0x38FFF000#30 ((sub (Width.ofCode (p.extractLsb' 24 2))).bind fun w => fin (.i64Brev c w (bitOf (p.extractLsb' 26 1)) (p.extractLsb' 0 6) (p.extractLsb' 6 6)))
  | 0x14 =>
    resv p 0x3FF00000#30 ((sub (Width.ofCode (p.extractLsb' 18 2))).bind fun w => fin (.i64Shli c w (p.extractLsb' 12 6) (p.extractLsb' 0 6) (p.extractLsb' 6 6)))
  | 0x15 =>
    resv p 0x3FF00000#30 ((sub (Width.ofCode (p.extractLsb' 18 2))).bind fun w => fin (.i64Shri c w (p.extractLsb' 12 6) (p.extractLsb' 0 6) (p.extractLsb' 6 6)))
  | 0x16 =>
    resv p 0x3FF00000#30 ((sub (Width.ofCode (p.extractLsb' 18 2))).bind fun w => fin (.i64Sari c w (p.extractLsb' 12 6) (p.extractLsb' 0 6) (p.extractLsb' 6 6)))
  | 0x1B => fin (.i64Addi c (p.extractLsb' 12 18) (p.extractLsb' 0 6) (p.extractLsb' 6 6))
  | 0x1C =>
    resv p 0x38000000#30 ((sub (Width.ofCode (p.extractLsb' 24 2))).bind fun w => fin (.mad c w (bitOf (p.extractLsb' 26 1)) (p.extractLsb' 0 6) (p.extractLsb' 6 6) (p.extractLsb' 12 6) (p.extractLsb' 18 6)))
  | 0x1D =>
    resv p 0x38FC0000#30 (fin (.lea c (p.extractLsb' 24 3) (p.extractLsb' 0 6) (p.extractLsb' 6 6) (p.extractLsb' 12 6)))
  | 0x1E =>
    resv p 0x3C000000#30 (fin (.bfx c (p.extractLsb' 12 6) (p.extractLsb' 18 7) (bitOf (p.extractLsb' 25 1)) (p.extractLsb' 0 6) (p.extractLsb' 6 6)))
  | 0x1F =>
    resv p 0x3E000000#30 (fin (.bfi c (p.extractLsb' 12 6) (p.extractLsb' 18 7) (p.extractLsb' 0 6) (p.extractLsb' 6 6)))
  | 0x20 =>
    resv p 0x30FC0000#30 (fin (.sel c (p.extractLsb' 24 3) (bitOf (p.extractLsb' 27 1)) (p.extractLsb' 0 6) (p.extractLsb' 6 6) (p.extractLsb' 12 6)))
  | 0x21 =>
    resv p 0x20FC0038#30 ((sub (ICond.ofCode (p.extractLsb' 24 3))).bind fun cond => (sub (Width.ofCode (p.extractLsb' 27 2))).bind fun w => fin (.i64Setp c cond w (p.extractLsb' 0 3) (p.extractLsb' 6 6) (p.extractLsb' 12 6)))
  | 0x22 => fin (.movl c (p.extractLsb' 6 24) (p.extractLsb' 0 6))
  | 0x23 => resv p 0x00000FC0#30 (fin (.movk c (p.extractLsb' 12 16) (p.extractLsb' 28 2) (p.extractLsb' 0 6)))
  | 0x24 =>
    resv p 0x38FC0000#30 ((sub (Width.ofCode (p.extractLsb' 24 2))).bind fun w => fin (.div c w (bitOf (p.extractLsb' 26 1)) (p.extractLsb' 0 6) (p.extractLsb' 6 6) (p.extractLsb' 12 6)))
  | 0x25 =>
    resv p 0x38FC0000#30 ((sub (Width.ofCode (p.extractLsb' 24 2))).bind fun w => fin (.rem c w (bitOf (p.extractLsb' 26 1)) (p.extractLsb' 0 6) (p.extractLsb' 6 6) (p.extractLsb' 12 6)))
  | 0x28 =>
    resv p 0x30FC0000#30 ((sub (Rm.ofCode (p.extractLsb' 24 3))).bind fun rm => (sub (FTy.ofCode (p.extractLsb' 27 1))).bind fun ty => fin (.i64Fadd c rm ty (p.extractLsb' 0 6) (p.extractLsb' 6 6) (p.extractLsb' 12 6)))
  | 0x29 =>
    resv p 0x30FC0000#30 ((sub (Rm.ofCode (p.extractLsb' 24 3))).bind fun rm => (sub (FTy.ofCode (p.extractLsb' 27 1))).bind fun ty => fin (.i64Fsub c rm ty (p.extractLsb' 0 6) (p.extractLsb' 6 6) (p.extractLsb' 12 6)))
  | 0x2A =>
    resv p 0x30FC0000#30 ((sub (Rm.ofCode (p.extractLsb' 24 3))).bind fun rm => (sub (FTy.ofCode (p.extractLsb' 27 1))).bind fun ty => fin (.i64Fmul c rm ty (p.extractLsb' 0 6) (p.extractLsb' 6 6) (p.extractLsb' 12 6)))
  | 0x2B =>
    resv p 0x30000000#30 ((sub (Rm.ofCode (p.extractLsb' 24 3))).bind fun rm => (sub (FTy.ofCode (p.extractLsb' 27 1))).bind fun ty => fin (.ffma c rm ty (p.extractLsb' 0 6) (p.extractLsb' 6 6) (p.extractLsb' 12 6) (p.extractLsb' 18 6)))
  | 0x2C =>
    resv p 0x37FC0000#30 ((sub (FTy.ofCode (p.extractLsb' 27 1))).bind fun ty => fin (.i64Fmin c ty (p.extractLsb' 0 6) (p.extractLsb' 6 6) (p.extractLsb' 12 6)))
  | 0x2D =>
    resv p 0x37FC0000#30 ((sub (FTy.ofCode (p.extractLsb' 27 1))).bind fun ty => fin (.i64Fmax c ty (p.extractLsb' 0 6) (p.extractLsb' 6 6) (p.extractLsb' 12 6)))
  | 0x2E =>
    resv p 0x30FC0038#30 ((sub (FCond.ofCode (p.extractLsb' 24 3))).bind fun cond => (sub (FTy.ofCode (p.extractLsb' 27 1))).bind fun ty => fin (.i64Fsetp c cond ty (p.extractLsb' 0 3) (p.extractLsb' 6 6) (p.extractLsb' 12 6)))
  | 0x2F =>
    resv p 0x30FC0000#30 ((sub (Rm.ofCode (p.extractLsb' 24 3))).bind fun rm => (sub (FTy.ofCode (p.extractLsb' 27 1))).bind fun ty => fin (.fscale c rm ty (p.extractLsb' 0 6) (p.extractLsb' 6 6) (p.extractLsb' 12 6)))
  | 0x30 =>
    resv p 0x30FC0000#30 ((sub (Rm.ofCode (p.extractLsb' 24 3))).bind fun rm => (sub (FTy.ofCode (p.extractLsb' 27 1))).bind fun ty => fin (.fdiv c rm ty (p.extractLsb' 0 6) (p.extractLsb' 6 6) (p.extractLsb' 12 6)))
  | 0x31 =>
    resv p 0x30FFF000#30 ((sub (Rm.ofCode (p.extractLsb' 24 3))).bind fun rm => (sub (FTy.ofCode (p.extractLsb' 27 1))).bind fun ty => fin (.fsqrt c rm ty (p.extractLsb' 0 6) (p.extractLsb' 6 6)))
  | 0x32 =>
    resv p 0x30FFF000#30 ((sub (Rm.ofCode (p.extractLsb' 24 3))).bind fun rm => (sub (FTy.ofCode (p.extractLsb' 27 1))).bind fun ty => fin (.frcp c rm ty (p.extractLsb' 0 6) (p.extractLsb' 6 6)))
  | 0x33 =>
    resv p 0x37FFF000#30 ((sub (FTy.ofCode (p.extractLsb' 27 1))).bind fun ty => fin (.frsq c ty (p.extractLsb' 0 6) (p.extractLsb' 6 6)))
  | 0x34 =>
    resv p 0x37FFF000#30 ((sub (FTy.ofCode (p.extractLsb' 27 1))).bind fun ty => fin (.fexp2 c ty (p.extractLsb' 0 6) (p.extractLsb' 6 6)))
  | 0x35 =>
    resv p 0x37FFF000#30 ((sub (FTy.ofCode (p.extractLsb' 27 1))).bind fun ty => fin (.flog2 c ty (p.extractLsb' 0 6) (p.extractLsb' 6 6)))
  | 0x36 =>
    resv p 0x37FFF000#30 ((sub (FTy.ofCode (p.extractLsb' 27 1))).bind fun ty => fin (.fsin c ty (p.extractLsb' 0 6) (p.extractLsb' 6 6)))
  | 0x37 =>
    resv p 0x37FFF000#30 ((sub (FTy.ofCode (p.extractLsb' 27 1))).bind fun ty => fin (.fcos c ty (p.extractLsb' 0 6) (p.extractLsb' 6 6)))
  | 0x38 =>
    resv p 0x3F000000#30 ((sub (TyCode.ofCode (p.extractLsb' 12 4))).bind fun dst => (sub (TyCode.ofCode (p.extractLsb' 16 4))).bind fun src => (sub (Rm.ofCode (p.extractLsb' 20 3))).bind fun rm => fin (.i64Fcvt c dst src rm (bitOf (p.extractLsb' 23 1)) (p.extractLsb' 0 6) (p.extractLsb' 6 6)))
  | 0x39 =>
    resv p 0x3F000000#30 ((sub (TyCode.ofCode (p.extractLsb' 12 4))).bind fun dst => (sub (TyCode.ofCode (p.extractLsb' 16 4))).bind fun src => (sub (Rm.ofCode (p.extractLsb' 20 3))).bind fun rm => fin (.i64I2f c dst src rm (bitOf (p.extractLsb' 23 1)) (p.extractLsb' 0 6) (p.extractLsb' 6 6)))
  | 0x3A =>
    resv p 0x3F800000#30 ((sub (TyCode.ofCode (p.extractLsb' 12 4))).bind fun dst => (sub (TyCode.ofCode (p.extractLsb' 16 4))).bind fun src => (sub (Rm.ofCode (p.extractLsb' 20 3))).bind fun rm => fin (.i64F2i c dst src rm (p.extractLsb' 0 6) (p.extractLsb' 6 6)))
  | 0x3B =>
    resv p 0x3F800000#30 ((sub (Rm.ofCode (p.extractLsb' 20 3))).bind fun rm => (sub (frndOfCode (p.extractLsb' 12 8))).bind fun ty => fin (.frnd c rm ty (p.extractLsb' 0 6) (p.extractLsb' 6 6)))
  | 0x3C =>
    resv p 0x00FC0000#30 ((sub (PackKind.ofCode (p.extractLsb' 28 2))).bind fun kind => (sub (FTy.ofCode (p.extractLsb' 27 1))).bind fun ty => (sub (Rm.ofCode (p.extractLsb' 24 3))).bind fun rm => fin (.fpack c kind ty rm (p.extractLsb' 0 6) (p.extractLsb' 6 6) (p.extractLsb' 12 6)))
  | 0x3D =>
    resv p 0x00FC0000#30 ((sub (PackKind.ofCode (p.extractLsb' 28 2))).bind fun kind => (sub (FTy.ofCode (p.extractLsb' 27 1))).bind fun ty => (sub (Rm.ofCode (p.extractLsb' 24 3))).bind fun rm => fin (.funpack c kind ty rm (p.extractLsb' 0 6) (p.extractLsb' 6 6) (p.extractLsb' 12 6)))
  | 0x40 =>
    (sub (Hint.ofCode (p.extractLsb' 27 3))).bind fun hint => fin (.ldB8 c (p.extractLsb' 12 12) (p.extractLsb' 24 3) hint (p.extractLsb' 0 6) (p.extractLsb' 6 6))
  | 0x41 =>
    (sub (Hint.ofCode (p.extractLsb' 27 3))).bind fun hint => fin (.ldB16 c (p.extractLsb' 12 12) (p.extractLsb' 24 3) hint (p.extractLsb' 0 6) (p.extractLsb' 6 6))
  | 0x42 =>
    (sub (Hint.ofCode (p.extractLsb' 27 3))).bind fun hint => fin (.ldB32 c (p.extractLsb' 12 12) (p.extractLsb' 24 3) hint (p.extractLsb' 0 6) (p.extractLsb' 6 6))
  | 0x43 =>
    (sub (Hint.ofCode (p.extractLsb' 27 3))).bind fun hint => fin (.ldB64 c (p.extractLsb' 12 12) (p.extractLsb' 24 3) hint (p.extractLsb' 0 6) (p.extractLsb' 6 6))
  | 0x44 =>
    (sub (Hint.ofCode (p.extractLsb' 27 3))).bind fun hint => fin (.ldS8 c (p.extractLsb' 12 12) (p.extractLsb' 24 3) hint (p.extractLsb' 0 6) (p.extractLsb' 6 6))
  | 0x45 =>
    (sub (Hint.ofCode (p.extractLsb' 27 3))).bind fun hint => fin (.ldS16 c (p.extractLsb' 12 12) (p.extractLsb' 24 3) hint (p.extractLsb' 0 6) (p.extractLsb' 6 6))
  | 0x46 =>
    (sub (Hint.ofCode (p.extractLsb' 27 3))).bind fun hint => fin (.ldS32 c (p.extractLsb' 12 12) (p.extractLsb' 24 3) hint (p.extractLsb' 0 6) (p.extractLsb' 6 6))
  | 0x47 =>
    resv p 0x00FC0000#30 ((sub (LdSize.ofCode (p.extractLsb' 27 3))).bind fun size => fin (.ldv c size (p.extractLsb' 24 3) (p.extractLsb' 0 6) (p.extractLsb' 6 6) (p.extractLsb' 12 6)))
  | 0x48 =>
    resv p 0x07000000#30 ((sub (Hint.ofCode (p.extractLsb' 27 3))).bind fun hint => fin (.stB8 c (p.extractLsb' 12 12) hint (p.extractLsb' 0 6) (p.extractLsb' 6 6)))
  | 0x49 =>
    resv p 0x07000000#30 ((sub (Hint.ofCode (p.extractLsb' 27 3))).bind fun hint => fin (.stB16 c (p.extractLsb' 12 12) hint (p.extractLsb' 0 6) (p.extractLsb' 6 6)))
  | 0x4A =>
    resv p 0x07000000#30 ((sub (Hint.ofCode (p.extractLsb' 27 3))).bind fun hint => fin (.stB32 c (p.extractLsb' 12 12) hint (p.extractLsb' 0 6) (p.extractLsb' 6 6)))
  | 0x4B =>
    resv p 0x07000000#30 ((sub (Hint.ofCode (p.extractLsb' 27 3))).bind fun hint => fin (.stB64 c (p.extractLsb' 12 12) hint (p.extractLsb' 0 6) (p.extractLsb' 6 6)))
  | 0x4C => resv p 0x3F000000#30 (fin (.ldsB8 c (p.extractLsb' 12 12) (p.extractLsb' 0 6) (p.extractLsb' 6 6)))
  | 0x4D => resv p 0x3F000000#30 (fin (.ldsB16 c (p.extractLsb' 12 12) (p.extractLsb' 0 6) (p.extractLsb' 6 6)))
  | 0x4E => resv p 0x3F000000#30 (fin (.ldsB32 c (p.extractLsb' 12 12) (p.extractLsb' 0 6) (p.extractLsb' 6 6)))
  | 0x4F => resv p 0x3F000000#30 (fin (.ldsB64 c (p.extractLsb' 12 12) (p.extractLsb' 0 6) (p.extractLsb' 6 6)))
  | 0x50 => resv p 0x3F000000#30 (fin (.ldsS8 c (p.extractLsb' 12 12) (p.extractLsb' 0 6) (p.extractLsb' 6 6)))
  | 0x51 => resv p 0x3F000000#30 (fin (.ldsS16 c (p.extractLsb' 12 12) (p.extractLsb' 0 6) (p.extractLsb' 6 6)))
  | 0x52 => resv p 0x3F000000#30 (fin (.ldsS32 c (p.extractLsb' 12 12) (p.extractLsb' 0 6) (p.extractLsb' 6 6)))
  | 0x53 => resv p 0x3F000000#30 (fin (.stsB8 c (p.extractLsb' 12 12) (p.extractLsb' 0 6) (p.extractLsb' 6 6)))
  | 0x54 => resv p 0x3F000000#30 (fin (.stsB16 c (p.extractLsb' 12 12) (p.extractLsb' 0 6) (p.extractLsb' 6 6)))
  | 0x55 => resv p 0x3F000000#30 (fin (.stsB32 c (p.extractLsb' 12 12) (p.extractLsb' 0 6) (p.extractLsb' 6 6)))
  | 0x56 => resv p 0x3F000000#30 (fin (.stsB64 c (p.extractLsb' 12 12) (p.extractLsb' 0 6) (p.extractLsb' 6 6)))
  | 0x57 => resv p 0x3800003F#30 (fin (.touch c (p.extractLsb' 12 12) (p.extractLsb' 24 3) (p.extractLsb' 6 6)))
  | 0x58 =>
    resv p 0x3C00003F#30 (fin (.pref c (p.extractLsb' 12 12) (bitOf (p.extractLsb' 24 1)) (bitOf (p.extractLsb' 25 1)) (p.extractLsb' 6 6)))
  | 0x59 =>
    resv p 0x3000003F#30 ((sub (CctlOp.ofCode (p.extractLsb' 24 4))).bind fun op => fin (.cctl c (p.extractLsb' 12 12) op (p.extractLsb' 6 6)))
  | 0x5A =>
    (sub (Scope.ofCode (p.extractLsb' 27 3))).bind fun sc => fin (.ldw c (p.extractLsb' 12 12) (p.extractLsb' 24 3) sc (p.extractLsb' 0 6) (p.extractLsb' 6 6))
  | 0x5B =>
    (sub (Scope.ofCode (p.extractLsb' 27 3))).bind fun sc => fin (.ldc c (p.extractLsb' 12 12) (p.extractLsb' 24 3) sc (p.extractLsb' 0 6) (p.extractLsb' 6 6))
  | 0x5C =>
    (sub (Scope.ofCode (p.extractLsb' 27 3))).bind fun sc => fin (.stf c (p.extractLsb' 12 12) (p.extractLsb' 24 3) sc (p.extractLsb' 0 6) (p.extractLsb' 6 6))
  | 0x5D =>
    (sub (Scope.ofCode (p.extractLsb' 27 3))).bind fun sc => fin (.stx c (p.extractLsb' 12 12) (p.extractLsb' 24 3) sc (p.extractLsb' 0 6) (p.extractLsb' 6 6))
  | 0x5E =>
    resv p 0x0000003F#30 ((sub (Scope.ofCode (p.extractLsb' 27 3))).bind fun sc => fin (.purge c (p.extractLsb' 12 12) (p.extractLsb' 24 3) sc (p.extractLsb' 6 6)))
  | 0x5F =>
    resv p 0x00000038#30 ((sub (Scope.ofCode (p.extractLsb' 27 3))).bind fun sc => fin (.feq c (p.extractLsb' 12 12) (p.extractLsb' 24 3) sc (p.extractLsb' 0 3) (p.extractLsb' 6 6)))
  | 0x60 =>
    resv p 0x00800000#30 ((sub (AtomOp.ofCode (p.extractLsb' 24 3))).bind fun op => (sub (AtomTy.ofCode (p.extractLsb' 27 2))).bind fun ty => (sub (AOrder.ofCode (p.extractLsb' 21 2))).bind fun ord => (sub (Scope.ofCode (p.extractLsb' 18 3))).bind fun sc => fin (.atom c op ty (bitOf (p.extractLsb' 29 1)) ord sc (p.extractLsb' 0 6) (p.extractLsb' 6 6) (p.extractLsb' 12 6)))
  | 0x61 =>
    resv p 0x009C0000#30 ((sub (AtomOp.ofCode (p.extractLsb' 24 3))).bind fun op => (sub (AtomTy.ofCode (p.extractLsb' 27 2))).bind fun ty => (sub (AOrder.ofCode (p.extractLsb' 21 2))).bind fun ord => fin (.atoms c op ty (bitOf (p.extractLsb' 29 1)) ord (p.extractLsb' 0 6) (p.extractLsb' 6 6) (p.extractLsb' 12 6)))
  | 0x62 =>
    resv p 0x0080003F#30 ((sub (AtomOp.ofCode (p.extractLsb' 24 3))).bind fun op => (sub (AtomTy.ofCode (p.extractLsb' 27 2))).bind fun ty => (sub (AOrder.ofCode (p.extractLsb' 21 2))).bind fun ord => (sub (Scope.ofCode (p.extractLsb' 18 3))).bind fun sc => fin (.red c op ty (bitOf (p.extractLsb' 29 1)) ord sc (p.extractLsb' 6 6) (p.extractLsb' 12 6)))
  | 0x63 =>
    (sub (AOrder.ofCode (p.extractLsb' 28 2))).bind fun ord => (sub (Scope.ofCode (p.extractLsb' 25 3))).bind fun sc => fin (.cas c (bitOf (p.extractLsb' 24 1)) ord sc (p.extractLsb' 0 6) (p.extractLsb' 6 6) (p.extractLsb' 12 6) (p.extractLsb' 18 6))
  | 0x64 => resv p 0x3FFC003F#30 (fin (.vretire c (p.extractLsb' 6 6) (p.extractLsb' 12 6)))
  | 0x65 =>
    resv p 0x3FFE0FFF#30 ((sub (FenceKind.ofCode (p.extractLsb' 15 2))).bind fun kind => (sub (Scope.ofCode (p.extractLsb' 12 3))).bind fun sc => fin (.fence c kind sc))
  | 0x80 => resv p 0x0000003F#30 (fin (.bra c (p.extractLsb' 6 24)))
  | 0x81 => resv p 0x3FFFF03F#30 (fin (.jmp c (p.extractLsb' 6 6)))
  | 0x82 => resv p 0x0000003F#30 (fin (.call c (p.extractLsb' 6 24)))
  | 0x83 => resv p 0x3FFFF03F#30 (fin (.callr c (p.extractLsb' 6 6)))
  | 0x84 =>
    resv p 0x38FC0000#30 (fin (.callt c (p.extractLsb' 24 3) (p.extractLsb' 0 6) (p.extractLsb' 6 6) (p.extractLsb' 12 6)))
  | 0x85 => resv p 0x3FFFFFFF#30 (fin (.ret c))
  | 0x86 => resv p 0x3FFFFFFF#30 (fin (.exit c))
  | 0x87 => resv p 0x3FFFFFFF#30 (fin (.nop c))
  | 0x88 => resv p 0x3EFFF03F#30 (fin (.wait c (bitOf (p.extractLsb' 24 1)) (p.extractLsb' 6 6)))
  | 0x89 => resv p 0x3FFFFFFF#30 (fin (.yield c))
  | 0x90 =>
    resv p 0x00FFFFC0#30 ((sub (BarRef.ofCode (p.extractLsb' 24 6))).bind fun bar => fin (.bara c bar (p.extractLsb' 0 6)))
  | 0x91 =>
    resv p 0x00FFF000#30 ((sub (BarRef.ofCode (p.extractLsb' 24 6))).bind fun bar => fin (.barw c bar (p.extractLsb' 0 6) (p.extractLsb' 6 6)))
  | 0x92 =>
    resv p 0x00FFF03F#30 ((sub (BarRef.ofCode (p.extractLsb' 24 6))).bind fun bar => fin (.bars c bar (p.extractLsb' 6 6)))
  | 0x93 =>
    resv p 0x00FFFFC0#30 ((sub (BarRef.ofCode (p.extractLsb' 24 6))).bind fun bar => fin (.bare c bar (p.extractLsb' 0 6)))
  | 0x94 =>
    resv p 0x00FFF038#30 ((sub (BarRef.ofCode (p.extractLsb' 24 6))).bind fun bar => fin (.bart c bar (p.extractLsb' 0 3) (p.extractLsb' 6 6)))
  | 0x95 =>
    resv p 0x20FC0000#30 ((sub (ShflMode.ofCode (p.extractLsb' 24 2))).bind fun mode => fin (.shfl c mode (p.extractLsb' 26 3) (p.extractLsb' 0 6) (p.extractLsb' 6 6) (p.extractLsb' 12 6)))
  | 0x96 => decodeVote c p
  | 0x97 =>
    resv p 0x20FFF000#30 ((sub (RedOp.ofCode (p.extractLsb' 24 3))).bind fun op => (sub (RedTy.ofCode (p.extractLsb' 27 2))).bind fun ty => fin (.redb c op ty (p.extractLsb' 0 6) (p.extractLsb' 6 6)))
  | 0x98 =>
    resv p 0x38FC003F#30 ((sub (Scope.ofCode (p.extractLsb' 24 3))).bind fun sc => fin (.launch c sc (p.extractLsb' 6 6) (p.extractLsb' 12 6)))
  | 0x99 =>
    resv p 0x30FC003F#30 ((sub (Scope.ofCode (p.extractLsb' 24 3))).bind fun sc => fin (.signal c sc (bitOf (p.extractLsb' 27 1)) (p.extractLsb' 6 6) (p.extractLsb' 12 6)))
  | 0x9A => resv p 0x3FFFFFFF#30 (fin (.idemend c))
  | 0xA0 =>
    resv p 0x0003F000#30 ((sub (EngSel.ofCode (p.extractLsb' 24 5))).bind fun eng => (sub (creditOfCode (p.extractLsb' 18 6))).bind fun credit => fin (.cpy c (bitOf (p.extractLsb' 29 1)) eng credit (p.extractLsb' 0 6) (p.extractLsb' 6 6)))
  | 0xA1 =>
    resv p 0x0003F000#30 ((sub (EngSel.ofCode (p.extractLsb' 24 5))).bind fun eng => (sub (creditOfCode (p.extractLsb' 18 6))).bind fun credit => fin (.cpyx c (bitOf (p.extractLsb' 29 1)) eng credit (p.extractLsb' 0 6) (p.extractLsb' 6 6)))
  | 0xA2 =>
    (sub (EngSel.ofCode (p.extractLsb' 24 5))).bind fun eng => (sub (creditOfCode (p.extractLsb' 18 6))).bind fun credit => fin (.cpym c (bitOf (p.extractLsb' 29 1)) eng credit (p.extractLsb' 0 6) (p.extractLsb' 6 6) (p.extractLsb' 12 6))
  | 0xA3 =>
    resv p 0x1E03F000#30 ((sub (creditOfCode (p.extractLsb' 18 6))).bind fun credit => fin (.publish c (bitOf (p.extractLsb' 29 1)) (bitOf (p.extractLsb' 24 1)) credit (p.extractLsb' 0 6) (p.extractLsb' 6 6)))
  | 0xA4 =>
    resv p 0x0003F000#30 ((sub (EngSel.ofCode (p.extractLsb' 24 5))).bind fun eng => (sub (creditOfCode (p.extractLsb' 18 6))).bind fun credit => fin (.coll c (bitOf (p.extractLsb' 29 1)) eng credit (p.extractLsb' 0 6) (p.extractLsb' 6 6)))
  | 0xA5 =>
    resv p 0x0003F000#30 ((sub (EngSel.ofCode (p.extractLsb' 24 5))).bind fun eng => (sub (creditOfCode (p.extractLsb' 18 6))).bind fun credit => fin (.halo c (bitOf (p.extractLsb' 29 1)) eng credit (p.extractLsb' 0 6) (p.extractLsb' 6 6)))
  | 0xA6 =>
    resv p 0x20FFFFC0#30 ((sub (QrySel.ofCode (p.extractLsb' 24 5))).bind fun eng => fin (.eqry c eng (p.extractLsb' 0 6)))
  | 0xA8 =>
    resv p 0x0003F000#30 ((sub (TyCode.ofCode (p.extractLsb' 24 4))).bind fun fmt => (sub (creditOfCode (p.extractLsb' 18 6))).bind fun bar => fin (.mma c (p.extractLsb' 28 2) fmt bar (p.extractLsb' 0 6) (p.extractLsb' 6 6)))
  | 0xA9 =>
    resv p 0x0003F000#30 ((sub (TyCode.ofCode (p.extractLsb' 24 4))).bind fun fmt => (sub (creditOfCode (p.extractLsb' 18 6))).bind fun bar => fin (.mmag c (p.extractLsb' 28 2) fmt bar (p.extractLsb' 0 6) (p.extractLsb' 6 6)))
  | 0xAA =>
    resv p 0x0003F000#30 ((sub (TyCode.ofCode (p.extractLsb' 24 4))).bind fun fmt => (sub (creditOfCode (p.extractLsb' 18 6))).bind fun bar => fin (.mmaq c (p.extractLsb' 28 2) fmt bar (p.extractLsb' 0 6) (p.extractLsb' 6 6)))
  | 0xAB => resv p 0x3FFC003F#30 (fin (.accz c (p.extractLsb' 6 6) (p.extractLsb' 12 6)))
  | 0xAC => resv p 0x3EFFF000#30 (fin (.accrd c (bitOf (p.extractLsb' 24 1)) (p.extractLsb' 0 6) (p.extractLsb' 6 6)))
  | 0xAD =>
    resv p 0x3EFC003F#30 (fin (.accwr c (bitOf (p.extractLsb' 24 1)) (p.extractLsb' 6 6) (p.extractLsb' 12 6)))
  | 0xAE => resv p 0x3FFC003F#30 (fin (.permt c (p.extractLsb' 6 6) (p.extractLsb' 12 6)))
  | 0xC0 => resv p 0x3EFFF000#30 (fin (.trace c (bitOf (p.extractLsb' 24 1)) (p.extractLsb' 0 6) (p.extractLsb' 6 6)))
  | 0xC1 => resv p 0x38FFF000#30 (fin (.tracek c (p.extractLsb' 24 3) (p.extractLsb' 0 6) (p.extractLsb' 6 6)))
  | 0xC2 => resv p 0x3FFFF000#30 (fin (.march c (p.extractLsb' 0 6) (p.extractLsb' 6 6)))
  | 0xC3 => resv p 0x3FFFF000#30 (fin (.graft c (p.extractLsb' 0 6) (p.extractLsb' 6 6)))
  | 0xC4 => resv p 0x3FFC0000#30 (fin (.hitattr c (p.extractLsb' 0 6) (p.extractLsb' 6 6) (p.extractLsb' 12 6)))
  | 0xC5 => resv p 0x3FFC0000#30 (fin (.frameout c (p.extractLsb' 0 6) (p.extractLsb' 6 6) (p.extractLsb' 12 6)))
  | 0xD0 =>
    resv p 0x00000FC0#30 ((sub (SReg.ofCode (p.extractLsb' 12 18))).bind fun sr => fin (.srd c sr (p.extractLsb' 0 6)))
  | 0xD1 =>
    resv p 0x0000003F#30 (if p.extractLsb' 12 18 == 17#18 then fin (.swr c (p.extractLsb' 6 6)) else .error .subField)
  | 0xD2 => resv p 0x00000FFF#30 (fin (.trap c (p.extractLsb' 12 18)))
  | 0xD3 => resv p 0x3EFFFFFF#30 (fin (.rft c (bitOf (p.extractLsb' 24 1))))
  | 0xD4 => resv p 0x3FFFFFFF#30 (fin (.bkpt c))
  | _ => .error .opcode

/-- The length in bytes that the first parcel's low bits give (R64). -/
def lengthOf (p : BitVec 16) : Nat :=
  if p.extractLsb' 0 1 == 0#1 then 2 else if p.extractLsb' 0 2 == 1#2 then 4 else 8

/-- The instruction whose parcels, least significant first, begin the word (R64): it and its length in bytes. -/
def decodeWord (w : BitVec 64) : Except DecodeErr Instr :=
  if lengthOf (w.extractLsb' 0 16) = 2 then fin (decode16 (w.extractLsb' 0 16))
  else if lengthOf (w.extractLsb' 0 16) = 4 then decode32 (w.extractLsb' 0 32)
  else decode64 w

/-- Bytes in little-endian order as a number (R2). -/
def leBytes : List Byte → Nat
  | [] => 0
  | b :: bs => b.toNat + 256 * leBytes bs

/-- Decoding at the head of a list of bytes: the instruction and the bytes after it (R64). -/
def decodeBytes (bs : List Byte) : Except DecodeErr (Instr × List Byte) :=
  if bs.length < 2 then .error .short
  else
    let n := lengthOf (BitVec.ofNat 16 (leBytes (bs.take 2)))
    if bs.length < n then .error .short
    else (decodeWord (BitVec.ofNat 64 (leBytes (bs.take n)))).map fun i => (i, bs.drop n)

/-- The instruction that the decoder reads from the bits w of an opcode-table row; the bits above the row's are zero.
Parcels are stored little-endian, the first at the lowest address (R2, R64), which is the order in which the table
numbers its bits. -/
def decodeTableWord (_nbits w : Nat) : Option Instr :=
  match decodeWord (BitVec.ofNat 64 w) with
  | .ok i => some i
  | .error _ => none

/-- The bits of a C16 instruction (R65). -/
def enc16 (op : BitVec 4) (st : Bool) (vd vb : BitVec 5) : BitVec 64 :=
  (0#48 ++ vb ++ vd ++ ofBit st ++ op ++ 0#1 : BitVec 64)

/-- The bits of an I32 instruction: hi is bits [31:26], mid bits [25:20] and lo bits [19:14] (R66). -/
def enc32 (op : BitVec 8) (k : Ctl32) (hi mid lo : BitVec 6) : BitVec 64 :=
  (0#32 ++ hi ++ mid ++ lo ++ op ++ k.stall ++ ofBit k.uniform ++ 1#2 : BitVec 64)

/-- The bits of an I64 instruction: p is bits [63:34] (R67). -/
def enc64 (op : BitVec 8) (c : Ctl) (p : BitVec 30) : BitVec 64 :=
  (p ++ op ++ ofBit c.neg ++ c.guard ++ c.set ++ c.wait ++ c.stall ++ ofBit c.uniform ++ 3#2 : BitVec 64)

/-- The bits [63:34] of VOTE (R199). -/
def encVote : VoteOp → BitVec 30
  | .any inv pd pa => (0#3 ++ ofBit inv ++ 0#2 ++ 0#15 ++ pa ++ 0#3 ++ pd : BitVec 30)
  | .all inv pd pa => (0#3 ++ ofBit inv ++ 1#2 ++ 0#15 ++ pa ++ 0#3 ++ pd : BitVec 30)
  | .ballot inv vd pa => (0#3 ++ ofBit inv ++ 2#2 ++ 0#15 ++ pa ++ vd : BitVec 30)
  | .eq pd va => (0#4 ++ 3#2 ++ 0#12 ++ va ++ 0#3 ++ pd : BitVec 30)

/-- The encoder: the bits of an instruction, its first parcel lowest, zero above its length; none for an event, which
no encoding names. -/
def encode : Instr → Option (BitVec 64)
  | .c16Mov st vd vb => some (enc16 0#4 st vd vb)
  | .c16Movi st vd vb => some (enc16 1#4 st vd vb)
  | .c16Add st vd vb => some (enc16 2#4 st vd vb)
  | .c16Sub st vd vb => some (enc16 3#4 st vd vb)
  | .c16Addi st vd vb => some (enc16 4#4 st vd vb)
  | .c16And st vd vb => some (enc16 5#4 st vd vb)
  | .c16Or st vd vb => some (enc16 6#4 st vd vb)
  | .c16Xor st vd vb => some (enc16 7#4 st vd vb)
  | .c16Shli st vd vb => some (enc16 8#4 st vd vb)
  | .c16Shri st vd vb => some (enc16 9#4 st vd vb)
  | .c16Sari st vd vb => some (enc16 10#4 st vd vb)
  | .c16FaddD st vd vb => some (enc16 11#4 st vd vb)
  | .c16FsubD st vd vb => some (enc16 12#4 st vd vb)
  | .c16FmulD st vd vb => some (enc16 13#4 st vd vb)
  | .c16FminD st vd vb => some (enc16 14#4 st vd vb)
  | .c16FmaxD st vd vb => some (enc16 15#4 st vd vb)
  | .i32Add k vd va vb => some (enc32 0x00#8 k vb va vd)
  | .i32Sub k vd va vb => some (enc32 0x01#8 k vb va vd)
  | .i32Mul k vd va vb => some (enc32 0x02#8 k vb va vd)
  | .i32MulhS64 k vd va vb => some (enc32 0x03#8 k vb va vd)
  | .i32MulhN64 k vd va vb => some (enc32 0x04#8 k vb va vd)
  | .i32MinS64 k vd va vb => some (enc32 0x05#8 k vb va vd)
  | .i32MinN64 k vd va vb => some (enc32 0x06#8 k vb va vd)
  | .i32MaxS64 k vd va vb => some (enc32 0x07#8 k vb va vd)
  | .i32MaxN64 k vd va vb => some (enc32 0x08#8 k vb va vd)
  | .i32AbsS64 k vd va => some (enc32 0x09#8 k 0#6 va vd)
  | .i32Neg k vd va => some (enc32 0x0A#8 k 0#6 va vd)
  | .i32And k vd va vb => some (enc32 0x0B#8 k vb va vd)
  | .i32Andn k vd va vb => some (enc32 0x0C#8 k vb va vd)
  | .i32Or k vd va vb => some (enc32 0x0D#8 k vb va vd)
  | .i32Xor k vd va vb => some (enc32 0x0E#8 k vb va vd)
  | .i32Not k vd va => some (enc32 0x0F#8 k 0#6 va vd)
  | .i32Shl k vd va vb => some (enc32 0x10#8 k vb va vd)
  | .i32Shr k vd va vb => some (enc32 0x11#8 k vb va vd)
  | .i32Sar k vd va vb => some (enc32 0x12#8 k vb va vd)
  | .i32Rot k vd va vb => some (enc32 0x13#8 k vb va vd)
  | .i32Shli k vd va imm => some (enc32 0x14#8 k imm va vd)
  | .i32Shri k vd va imm => some (enc32 0x15#8 k imm va vd)
  | .i32Sari k vd va imm => some (enc32 0x16#8 k imm va vd)
  | .i32Popc k vd va => some (enc32 0x17#8 k 0#6 va vd)
  | .i32Clz k vd va => some (enc32 0x18#8 k 0#6 va vd)
  | .i32Ctz k vd va => some (enc32 0x19#8 k 0#6 va vd)
  | .i32Brev k vd va => some (enc32 0x1A#8 k 0#6 va vd)
  | .i32Addi k vd va imm => some (enc32 0x1B#8 k imm va vd)
  | .i32FaddD k vd va vb => some (enc32 0x40#8 k vb va vd)
  | .i32FsubD k vd va vb => some (enc32 0x41#8 k vb va vd)
  | .i32FmulD k vd va vb => some (enc32 0x42#8 k vb va vd)
  | .i32FminD k vd va vb => some (enc32 0x43#8 k vb va vd)
  | .i32FmaxD k vd va vb => some (enc32 0x44#8 k vb va vd)
  | .i32FabsD k vd va => some (enc32 0x45#8 k 0#6 va vd)
  | .i32FnegD k vd va => some (enc32 0x46#8 k 0#6 va vd)
  | .i32FaddF k vd va vb => some (enc32 0x48#8 k vb va vd)
  | .i32FsubF k vd va vb => some (enc32 0x49#8 k vb va vd)
  | .i32FmulF k vd va vb => some (enc32 0x4A#8 k vb va vd)
  | .i32FminF k vd va vb => some (enc32 0x4B#8 k vb va vd)
  | .i32FmaxF k vd va vb => some (enc32 0x4C#8 k vb va vd)
  | .i32FabsF k vd va => some (enc32 0x4D#8 k 0#6 va vd)
  | .i32FnegF k vd va => some (enc32 0x4E#8 k 0#6 va vd)
  | .i32FclassD k vd va => some (enc32 0x50#8 k 0#6 va vd)
  | .i32FgetexpD k vd va => some (enc32 0x51#8 k 0#6 va vd)
  | .i32FgetmanD k vd va => some (enc32 0x52#8 k 0#6 va vd)
  | .i32FclassF k vd va => some (enc32 0x54#8 k 0#6 va vd)
  | .i32FgetexpF k vd va => some (enc32 0x55#8 k 0#6 va vd)
  | .i32FgetmanF k vd va => some (enc32 0x56#8 k 0#6 va vd)
  | .i32SetpEq k pd va vb => some (enc32 0x80#8 k vb va (0#3 ++ pd))
  | .i32SetpNe k pd va vb => some (enc32 0x81#8 k vb va (0#3 ++ pd))
  | .i32SetpLtS64 k pd va vb => some (enc32 0x82#8 k vb va (0#3 ++ pd))
  | .i32SetpLeS64 k pd va vb => some (enc32 0x83#8 k vb va (0#3 ++ pd))
  | .i32SetpLtN64 k pd va vb => some (enc32 0x84#8 k vb va (0#3 ++ pd))
  | .i32SetpLeN64 k pd va vb => some (enc32 0x85#8 k vb va (0#3 ++ pd))
  | .i32FsetpEqD k pd va vb => some (enc32 0x88#8 k vb va (0#3 ++ pd))
  | .i32FsetpNeD k pd va vb => some (enc32 0x89#8 k vb va (0#3 ++ pd))
  | .i32FsetpLtD k pd va vb => some (enc32 0x8A#8 k vb va (0#3 ++ pd))
  | .i32FsetpLeD k pd va vb => some (enc32 0x8B#8 k vb va (0#3 ++ pd))
  | .i32FsetpUnD k pd va vb => some (enc32 0x8C#8 k vb va (0#3 ++ pd))
  | .i32FsetpEqF k pd va vb => some (enc32 0x90#8 k vb va (0#3 ++ pd))
  | .i32FsetpNeF k pd va vb => some (enc32 0x91#8 k vb va (0#3 ++ pd))
  | .i32FsetpLtF k pd va vb => some (enc32 0x92#8 k vb va (0#3 ++ pd))
  | .i32FsetpLeF k pd va vb => some (enc32 0x93#8 k vb va (0#3 ++ pd))
  | .i32FsetpUnF k pd va vb => some (enc32 0x94#8 k vb va (0#3 ++ pd))
  | .pand k pd pa pb => some (enc32 0x98#8 k (0#3 ++ pb) (0#3 ++ pa) (0#3 ++ pd))
  | .por k pd pa pb => some (enc32 0x99#8 k (0#3 ++ pb) (0#3 ++ pa) (0#3 ++ pd))
  | .pxor k pd pa pb => some (enc32 0x9A#8 k (0#3 ++ pb) (0#3 ++ pa) (0#3 ++ pd))
  | .pnot k pd pa => some (enc32 0x9B#8 k 0#6 (0#3 ++ pa) (0#3 ++ pd))
  | .p2v k vd => some (enc32 0x9C#8 k 0#6 0#6 vd)
  | .v2p k va => some (enc32 0x9D#8 k 0#6 va 0#6)
  | .i32Mov k vd va => some (enc32 0xA0#8 k 0#6 va vd)
  | .i32Movi k vd imm => some (enc32 0xA1#8 k (imm.extractLsb' 6 6) (imm.extractLsb' 0 6) vd)
  | .i32FcvtDF k vd va => some (enc32 0xA8#8 k 0#6 va vd)
  | .i32FcvtFD k vd va => some (enc32 0xA9#8 k 0#6 va vd)
  | .i32I2fDS64 k vd va => some (enc32 0xAA#8 k 0#6 va vd)
  | .i32I2fDN64 k vd va => some (enc32 0xAB#8 k 0#6 va vd)
  | .i32F2iS64D k vd va => some (enc32 0xAC#8 k 0#6 va vd)
  | .i32F2iN64D k vd va => some (enc32 0xAD#8 k 0#6 va vd)
  | .i64Add c w sx vd va vb =>
    some (enc64 0x00#8 c (0#3 ++ ofBit sx ++ w.toCode ++ 0#6 ++ vb ++ va ++ vd : BitVec 30))
  | .i64Sub c w sx vd va vb =>
    some (enc64 0x01#8 c (0#3 ++ ofBit sx ++ w.toCode ++ 0#6 ++ vb ++ va ++ vd : BitVec 30))
  | .i64Mul c w sx vd va vb =>
    some (enc64 0x02#8 c (0#3 ++ ofBit sx ++ w.toCode ++ 0#6 ++ vb ++ va ++ vd : BitVec 30))
  | .i64MulhS c w sx vd va vb =>
    some (enc64 0x03#8 c (0#3 ++ ofBit sx ++ w.toCode ++ 0#6 ++ vb ++ va ++ vd : BitVec 30))
  | .i64MulhN c w sx vd va vb =>
    some (enc64 0x04#8 c (0#3 ++ ofBit sx ++ w.toCode ++ 0#6 ++ vb ++ va ++ vd : BitVec 30))
  | .i64MinS c w sx vd va vb =>
    some (enc64 0x05#8 c (0#3 ++ ofBit sx ++ w.toCode ++ 0#6 ++ vb ++ va ++ vd : BitVec 30))
  | .i64MinN c w sx vd va vb =>
    some (enc64 0x06#8 c (0#3 ++ ofBit sx ++ w.toCode ++ 0#6 ++ vb ++ va ++ vd : BitVec 30))
  | .i64MaxS c w sx vd va vb =>
    some (enc64 0x07#8 c (0#3 ++ ofBit sx ++ w.toCode ++ 0#6 ++ vb ++ va ++ vd : BitVec 30))
  | .i64MaxN c w sx vd va vb =>
    some (enc64 0x08#8 c (0#3 ++ ofBit sx ++ w.toCode ++ 0#6 ++ vb ++ va ++ vd : BitVec 30))
  | .i64Abs c w sx vd va => some (enc64 0x09#8 c (0#3 ++ ofBit sx ++ w.toCode ++ 0#12 ++ va ++ vd : BitVec 30))
  | .i64Neg c w sx vd va => some (enc64 0x0A#8 c (0#3 ++ ofBit sx ++ w.toCode ++ 0#12 ++ va ++ vd : BitVec 30))
  | .i64And c w sx vd va vb =>
    some (enc64 0x0B#8 c (0#3 ++ ofBit sx ++ w.toCode ++ 0#6 ++ vb ++ va ++ vd : BitVec 30))
  | .i64Andn c w sx vd va vb =>
    some (enc64 0x0C#8 c (0#3 ++ ofBit sx ++ w.toCode ++ 0#6 ++ vb ++ va ++ vd : BitVec 30))
  | .i64Or c w sx vd va vb => some (enc64 0x0D#8 c (0#3 ++ ofBit sx ++ w.toCode ++ 0#6 ++ vb ++ va ++ vd : BitVec 30))
  | .i64Xor c w sx vd va vb =>
    some (enc64 0x0E#8 c (0#3 ++ ofBit sx ++ w.toCode ++ 0#6 ++ vb ++ va ++ vd : BitVec 30))
  | .i64Not c w sx vd va => some (enc64 0x0F#8 c (0#3 ++ ofBit sx ++ w.toCode ++ 0#12 ++ va ++ vd : BitVec 30))
  | .i64Shl c w sx vd va vb =>
    some (enc64 0x10#8 c (0#3 ++ ofBit sx ++ w.toCode ++ 0#6 ++ vb ++ va ++ vd : BitVec 30))
  | .i64Shr c w sx vd va vb =>
    some (enc64 0x11#8 c (0#3 ++ ofBit sx ++ w.toCode ++ 0#6 ++ vb ++ va ++ vd : BitVec 30))
  | .i64Sar c w sx vd va vb =>
    some (enc64 0x12#8 c (0#3 ++ ofBit sx ++ w.toCode ++ 0#6 ++ vb ++ va ++ vd : BitVec 30))
  | .i64Rot c w sx vd va vb =>
    some (enc64 0x13#8 c (0#3 ++ ofBit sx ++ w.toCode ++ 0#6 ++ vb ++ va ++ vd : BitVec 30))
  | .i64Popc c w sx vd va => some (enc64 0x17#8 c (0#3 ++ ofBit sx ++ w.toCode ++ 0#12 ++ va ++ vd : BitVec 30))
  | .i64Clz c w sx vd va => some (enc64 0x18#8 c (0#3 ++ ofBit sx ++ w.toCode ++ 0#12 ++ va ++ vd : BitVec 30))
  | .i64Ctz c w sx vd va => some (enc64 0x19#8 c (0#3 ++ ofBit sx ++ w.toCode ++ 0#12 ++ va ++ vd : BitVec 30))
  | .i64Brev c w sx vd va => some (enc64 0x1A#8 c (0#3 ++ ofBit sx ++ w.toCode ++ 0#12 ++ va ++ vd : BitVec 30))
  | .i64Shli c w amt vd va => some (enc64 0x14#8 c (0#10 ++ w.toCode ++ amt ++ va ++ vd : BitVec 30))
  | .i64Shri c w amt vd va => some (enc64 0x15#8 c (0#10 ++ w.toCode ++ amt ++ va ++ vd : BitVec 30))
  | .i64Sari c w amt vd va => some (enc64 0x16#8 c (0#10 ++ w.toCode ++ amt ++ va ++ vd : BitVec 30))
  | .i64Addi c imm vd va => some (enc64 0x1B#8 c (imm ++ va ++ vd : BitVec 30))
  | .mad c w sx vd va vb vc => some (enc64 0x1C#8 c (0#3 ++ ofBit sx ++ w.toCode ++ vc ++ vb ++ va ++ vd : BitVec 30))
  | .lea c sh vd va vb => some (enc64 0x1D#8 c (0#3 ++ sh ++ 0#6 ++ vb ++ va ++ vd : BitVec 30))
  | .bfx c pos len sx vd va => some (enc64 0x1E#8 c (0#4 ++ ofBit sx ++ len ++ pos ++ va ++ vd : BitVec 30))
  | .bfi c pos len vd va => some (enc64 0x1F#8 c (0#5 ++ len ++ pos ++ va ++ vd : BitVec 30))
  | .sel c p neg vd va vb => some (enc64 0x20#8 c (0#2 ++ ofBit neg ++ p ++ 0#6 ++ vb ++ va ++ vd : BitVec 30))
  | .i64Setp c cond w pd va vb =>
    some (enc64 0x21#8 c (0#1 ++ w.toCode ++ cond.toCode ++ 0#6 ++ vb ++ va ++ 0#3 ++ pd : BitVec 30))
  | .movl c imm vd => some (enc64 0x22#8 c (imm ++ vd : BitVec 30))
  | .movk c val pos vd => some (enc64 0x23#8 c (pos ++ val ++ 0#6 ++ vd : BitVec 30))
  | .div c w sg vd va vb => some (enc64 0x24#8 c (0#3 ++ ofBit sg ++ w.toCode ++ 0#6 ++ vb ++ va ++ vd : BitVec 30))
  | .rem c w sg vd va vb => some (enc64 0x25#8 c (0#3 ++ ofBit sg ++ w.toCode ++ 0#6 ++ vb ++ va ++ vd : BitVec 30))
  | .i64Fadd c rm ty vd va vb =>
    some (enc64 0x28#8 c (0#2 ++ ty.toCode ++ rm.toCode ++ 0#6 ++ vb ++ va ++ vd : BitVec 30))
  | .i64Fsub c rm ty vd va vb =>
    some (enc64 0x29#8 c (0#2 ++ ty.toCode ++ rm.toCode ++ 0#6 ++ vb ++ va ++ vd : BitVec 30))
  | .i64Fmul c rm ty vd va vb =>
    some (enc64 0x2A#8 c (0#2 ++ ty.toCode ++ rm.toCode ++ 0#6 ++ vb ++ va ++ vd : BitVec 30))
  | .ffma c rm ty vd va vb vc =>
    some (enc64 0x2B#8 c (0#2 ++ ty.toCode ++ rm.toCode ++ vc ++ vb ++ va ++ vd : BitVec 30))
  | .i64Fmin c ty vd va vb => some (enc64 0x2C#8 c (0#2 ++ ty.toCode ++ 0#9 ++ vb ++ va ++ vd : BitVec 30))
  | .i64Fmax c ty vd va vb => some (enc64 0x2D#8 c (0#2 ++ ty.toCode ++ 0#9 ++ vb ++ va ++ vd : BitVec 30))
  | .i64Fsetp c cond ty pd va vb =>
    some (enc64 0x2E#8 c (0#2 ++ ty.toCode ++ cond.toCode ++ 0#6 ++ vb ++ va ++ 0#3 ++ pd : BitVec 30))
  | .fscale c rm ty vd va vb =>
    some (enc64 0x2F#8 c (0#2 ++ ty.toCode ++ rm.toCode ++ 0#6 ++ vb ++ va ++ vd : BitVec 30))
  | .fdiv c rm ty vd va vb =>
    some (enc64 0x30#8 c (0#2 ++ ty.toCode ++ rm.toCode ++ 0#6 ++ vb ++ va ++ vd : BitVec 30))
  | .fsqrt c rm ty vd va => some (enc64 0x31#8 c (0#2 ++ ty.toCode ++ rm.toCode ++ 0#12 ++ va ++ vd : BitVec 30))
  | .frcp c rm ty vd va => some (enc64 0x32#8 c (0#2 ++ ty.toCode ++ rm.toCode ++ 0#12 ++ va ++ vd : BitVec 30))
  | .frsq c ty vd va => some (enc64 0x33#8 c (0#2 ++ ty.toCode ++ 0#15 ++ va ++ vd : BitVec 30))
  | .fexp2 c ty vd va => some (enc64 0x34#8 c (0#2 ++ ty.toCode ++ 0#15 ++ va ++ vd : BitVec 30))
  | .flog2 c ty vd va => some (enc64 0x35#8 c (0#2 ++ ty.toCode ++ 0#15 ++ va ++ vd : BitVec 30))
  | .fsin c ty vd va => some (enc64 0x36#8 c (0#2 ++ ty.toCode ++ 0#15 ++ va ++ vd : BitVec 30))
  | .fcos c ty vd va => some (enc64 0x37#8 c (0#2 ++ ty.toCode ++ 0#15 ++ va ++ vd : BitVec 30))
  | .i64Fcvt c dst src rm sat vd va =>
    some (enc64 0x38#8 c (0#6 ++ ofBit sat ++ rm.toCode ++ src.toCode ++ dst.toCode ++ va ++ vd : BitVec 30))
  | .i64I2f c dst src rm sat vd va =>
    some (enc64 0x39#8 c (0#6 ++ ofBit sat ++ rm.toCode ++ src.toCode ++ dst.toCode ++ va ++ vd : BitVec 30))
  | .i64F2i c dst src rm vd va =>
    some (enc64 0x3A#8 c (0#7 ++ rm.toCode ++ src.toCode ++ dst.toCode ++ va ++ vd : BitVec 30))
  | .frnd c rm ty vd va => some (enc64 0x3B#8 c (0#7 ++ rm.toCode ++ frndToCode ty ++ va ++ vd : BitVec 30))
  | .fpack c kind ty rm vd va vb =>
    some (enc64 0x3C#8 c (kind.toCode ++ ty.toCode ++ rm.toCode ++ 0#6 ++ vb ++ va ++ vd : BitVec 30))
  | .funpack c kind ty rm vd va vb =>
    some (enc64 0x3D#8 c (kind.toCode ++ ty.toCode ++ rm.toCode ++ 0#6 ++ vb ++ va ++ vd : BitVec 30))
  | .ldB8 c off pr hint vd va => some (enc64 0x40#8 c (hint.toCode ++ pr ++ off ++ va ++ vd : BitVec 30))
  | .ldB16 c off pr hint vd va => some (enc64 0x41#8 c (hint.toCode ++ pr ++ off ++ va ++ vd : BitVec 30))
  | .ldB32 c off pr hint vd va => some (enc64 0x42#8 c (hint.toCode ++ pr ++ off ++ va ++ vd : BitVec 30))
  | .ldB64 c off pr hint vd va => some (enc64 0x43#8 c (hint.toCode ++ pr ++ off ++ va ++ vd : BitVec 30))
  | .ldS8 c off pr hint vd va => some (enc64 0x44#8 c (hint.toCode ++ pr ++ off ++ va ++ vd : BitVec 30))
  | .ldS16 c off pr hint vd va => some (enc64 0x45#8 c (hint.toCode ++ pr ++ off ++ va ++ vd : BitVec 30))
  | .ldS32 c off pr hint vd va => some (enc64 0x46#8 c (hint.toCode ++ pr ++ off ++ va ++ vd : BitVec 30))
  | .ldv c size pr vd va vb => some (enc64 0x47#8 c (size.toCode ++ pr ++ 0#6 ++ vb ++ va ++ vd : BitVec 30))
  | .stB8 c off hint src va => some (enc64 0x48#8 c (hint.toCode ++ 0#3 ++ off ++ va ++ src : BitVec 30))
  | .stB16 c off hint src va => some (enc64 0x49#8 c (hint.toCode ++ 0#3 ++ off ++ va ++ src : BitVec 30))
  | .stB32 c off hint src va => some (enc64 0x4A#8 c (hint.toCode ++ 0#3 ++ off ++ va ++ src : BitVec 30))
  | .stB64 c off hint src va => some (enc64 0x4B#8 c (hint.toCode ++ 0#3 ++ off ++ va ++ src : BitVec 30))
  | .ldsB8 c off vd va => some (enc64 0x4C#8 c (0#6 ++ off ++ va ++ vd : BitVec 30))
  | .ldsB16 c off vd va => some (enc64 0x4D#8 c (0#6 ++ off ++ va ++ vd : BitVec 30))
  | .ldsB32 c off vd va => some (enc64 0x4E#8 c (0#6 ++ off ++ va ++ vd : BitVec 30))
  | .ldsB64 c off vd va => some (enc64 0x4F#8 c (0#6 ++ off ++ va ++ vd : BitVec 30))
  | .ldsS8 c off vd va => some (enc64 0x50#8 c (0#6 ++ off ++ va ++ vd : BitVec 30))
  | .ldsS16 c off vd va => some (enc64 0x51#8 c (0#6 ++ off ++ va ++ vd : BitVec 30))
  | .ldsS32 c off vd va => some (enc64 0x52#8 c (0#6 ++ off ++ va ++ vd : BitVec 30))
  | .stsB8 c off src va => some (enc64 0x53#8 c (0#6 ++ off ++ va ++ src : BitVec 30))
  | .stsB16 c off src va => some (enc64 0x54#8 c (0#6 ++ off ++ va ++ src : BitVec 30))
  | .stsB32 c off src va => some (enc64 0x55#8 c (0#6 ++ off ++ va ++ src : BitVec 30))
  | .stsB64 c off src va => some (enc64 0x56#8 c (0#6 ++ off ++ va ++ src : BitVec 30))
  | .touch c off pr va => some (enc64 0x57#8 c (0#3 ++ pr ++ off ++ va ++ 0#6 : BitVec 30))
  | .pref c off l2 excl va => some (enc64 0x58#8 c (0#4 ++ ofBit excl ++ ofBit l2 ++ off ++ va ++ 0#6 : BitVec 30))
  | .cctl c off op va => some (enc64 0x59#8 c (0#2 ++ op.toCode ++ off ++ va ++ 0#6 : BitVec 30))
  | .ldw c off pr sc vd va => some (enc64 0x5A#8 c (sc.toCode ++ pr ++ off ++ va ++ vd : BitVec 30))
  | .ldc c off pr sc vd va => some (enc64 0x5B#8 c (sc.toCode ++ pr ++ off ++ va ++ vd : BitVec 30))
  | .stf c off pr sc src va => some (enc64 0x5C#8 c (sc.toCode ++ pr ++ off ++ va ++ src : BitVec 30))
  | .stx c off pr sc src va => some (enc64 0x5D#8 c (sc.toCode ++ pr ++ off ++ va ++ src : BitVec 30))
  | .purge c off pr sc va => some (enc64 0x5E#8 c (sc.toCode ++ pr ++ off ++ va ++ 0#6 : BitVec 30))
  | .feq c off pr sc pd va => some (enc64 0x5F#8 c (sc.toCode ++ pr ++ off ++ va ++ 0#3 ++ pd : BitVec 30))
  | .atom c op ty four ord sc vd va vb =>
    some (enc64 0x60#8 c (ofBit four ++ ty.toCode ++ op.toCode ++ 0#1 ++ ord.toCode ++ sc.toCode ++ vb ++ va ++ vd : BitVec 30))
  | .atoms c op ty four ord vd va vb =>
    some (enc64 0x61#8 c (ofBit four ++ ty.toCode ++ op.toCode ++ 0#1 ++ ord.toCode ++ 0#3 ++ vb ++ va ++ vd : BitVec 30))
  | .red c op ty four ord sc va vb =>
    some (enc64 0x62#8 c (ofBit four ++ ty.toCode ++ op.toCode ++ 0#1 ++ ord.toCode ++ sc.toCode ++ vb ++ va ++ 0#6 : BitVec 30))
  | .cas c four ord sc vd va vb vc =>
    some (enc64 0x63#8 c (ord.toCode ++ sc.toCode ++ ofBit four ++ vc ++ vb ++ va ++ vd : BitVec 30))
  | .vretire c va vb => some (enc64 0x64#8 c (0#12 ++ vb ++ va ++ 0#6 : BitVec 30))
  | .fence c kind sc => some (enc64 0x65#8 c (0#13 ++ kind.toCode ++ sc.toCode ++ 0#12 : BitVec 30))
  | .bra c off => some (enc64 0x80#8 c (off ++ 0#6 : BitVec 30))
  | .jmp c va => some (enc64 0x81#8 c (0#18 ++ va ++ 0#6 : BitVec 30))
  | .call c off => some (enc64 0x82#8 c (off ++ 0#6 : BitVec 30))
  | .callr c va => some (enc64 0x83#8 c (0#18 ++ va ++ 0#6 : BitVec 30))
  | .callt c pd vd va vb => some (enc64 0x84#8 c (0#3 ++ pd ++ 0#6 ++ vb ++ va ++ vd : BitVec 30))
  | .ret c => some (enc64 0x85#8 c (0#30 : BitVec 30))
  | .exit c => some (enc64 0x86#8 c (0#30 : BitVec 30))
  | .nop c => some (enc64 0x87#8 c (0#30 : BitVec 30))
  | .wait c time va => some (enc64 0x88#8 c (0#5 ++ ofBit time ++ 0#12 ++ va ++ 0#6 : BitVec 30))
  | .yield c => some (enc64 0x89#8 c (0#30 : BitVec 30))
  | .bara c bar vd => some (enc64 0x90#8 c (bar.toCode ++ 0#18 ++ vd : BitVec 30))
  | .barw c bar vd va => some (enc64 0x91#8 c (bar.toCode ++ 0#12 ++ va ++ vd : BitVec 30))
  | .bars c bar va => some (enc64 0x92#8 c (bar.toCode ++ 0#12 ++ va ++ 0#6 : BitVec 30))
  | .bare c bar vd => some (enc64 0x93#8 c (bar.toCode ++ 0#18 ++ vd : BitVec 30))
  | .bart c bar pd va => some (enc64 0x94#8 c (bar.toCode ++ 0#12 ++ va ++ 0#3 ++ pd : BitVec 30))
  | .shfl c mode pv vd va vb => some (enc64 0x95#8 c (0#1 ++ pv ++ mode.toCode ++ 0#6 ++ vb ++ va ++ vd : BitVec 30))
  | .vote c v => some (enc64 0x96#8 c (encVote v))
  | .redb c op ty vd va => some (enc64 0x97#8 c (0#1 ++ ty.toCode ++ op.toCode ++ 0#12 ++ va ++ vd : BitVec 30))
  | .launch c sc va vb => some (enc64 0x98#8 c (0#3 ++ sc.toCode ++ 0#6 ++ vb ++ va ++ 0#6 : BitVec 30))
  | .signal c sc fill va vb =>
    some (enc64 0x99#8 c (0#2 ++ ofBit fill ++ sc.toCode ++ 0#6 ++ vb ++ va ++ 0#6 : BitVec 30))
  | .idemend c => some (enc64 0x9A#8 c (0#30 : BitVec 30))
  | .cpy c ord eng credit vd va =>
    some (enc64 0xA0#8 c (ofBit ord ++ eng.toCode ++ creditToCode credit ++ 0#6 ++ va ++ vd : BitVec 30))
  | .cpyx c ord eng credit vd va =>
    some (enc64 0xA1#8 c (ofBit ord ++ eng.toCode ++ creditToCode credit ++ 0#6 ++ va ++ vd : BitVec 30))
  | .cpym c ord eng credit vd va vb =>
    some (enc64 0xA2#8 c (ofBit ord ++ eng.toCode ++ creditToCode credit ++ vb ++ va ++ vd : BitVec 30))
  | .publish c ord sys credit vd va =>
    some (enc64 0xA3#8 c (ofBit ord ++ 0#4 ++ ofBit sys ++ creditToCode credit ++ 0#6 ++ va ++ vd : BitVec 30))
  | .coll c ord eng credit vd va =>
    some (enc64 0xA4#8 c (ofBit ord ++ eng.toCode ++ creditToCode credit ++ 0#6 ++ va ++ vd : BitVec 30))
  | .halo c ord eng credit vd va =>
    some (enc64 0xA5#8 c (ofBit ord ++ eng.toCode ++ creditToCode credit ++ 0#6 ++ va ++ vd : BitVec 30))
  | .eqry c eng vd => some (enc64 0xA6#8 c (0#1 ++ eng.toCode ++ 0#18 ++ vd : BitVec 30))
  | .mma c en fmt bar vd va =>
    some (enc64 0xA8#8 c (en ++ fmt.toCode ++ creditToCode bar ++ 0#6 ++ va ++ vd : BitVec 30))
  | .mmag c en fmt bar vd va =>
    some (enc64 0xA9#8 c (en ++ fmt.toCode ++ creditToCode bar ++ 0#6 ++ va ++ vd : BitVec 30))
  | .mmaq c en fmt bar vd va =>
    some (enc64 0xAA#8 c (en ++ fmt.toCode ++ creditToCode bar ++ 0#6 ++ va ++ vd : BitVec 30))
  | .accz c va vb => some (enc64 0xAB#8 c (0#12 ++ vb ++ va ++ 0#6 : BitVec 30))
  | .accrd c four vd va => some (enc64 0xAC#8 c (0#5 ++ ofBit four ++ 0#12 ++ va ++ vd : BitVec 30))
  | .accwr c four va vb => some (enc64 0xAD#8 c (0#5 ++ ofBit four ++ 0#6 ++ vb ++ va ++ 0#6 : BitVec 30))
  | .permt c va vb => some (enc64 0xAE#8 c (0#12 ++ vb ++ va ++ 0#6 : BitVec 30))
  | .trace c anyHit vd va => some (enc64 0xC0#8 c (0#5 ++ ofBit anyHit ++ 0#12 ++ va ++ vd : BitVec 30))
  | .tracek c km1 vd va => some (enc64 0xC1#8 c (0#3 ++ km1 ++ 0#12 ++ va ++ vd : BitVec 30))
  | .march c vd va => some (enc64 0xC2#8 c (0#18 ++ va ++ vd : BitVec 30))
  | .graft c vd va => some (enc64 0xC3#8 c (0#18 ++ va ++ vd : BitVec 30))
  | .hitattr c vd va vb => some (enc64 0xC4#8 c (0#12 ++ vb ++ va ++ vd : BitVec 30))
  | .frameout c vd va vb => some (enc64 0xC5#8 c (0#12 ++ vb ++ va ++ vd : BitVec 30))
  | .srd c sr vd => some (enc64 0xD0#8 c (sr.toCode ++ 0#6 ++ vd : BitVec 30))
  | .swr c va => some (enc64 0xD1#8 c (17#18 ++ va ++ 0#6 : BitVec 30))
  | .trap c code => some (enc64 0xD2#8 c (code ++ 0#12 : BitVec 30))
  | .rft c skip => some (enc64 0xD3#8 c (0#5 ++ ofBit skip ++ 0#24 : BitVec 30))
  | .bkpt c => some (enc64 0xD4#8 c (0#30 : BitVec 30))
  | .classVResultLands _ | .storePerformed _ | .returnStackSpill _ | .returnStackFill _ | .waitExpiry _
  | .yieldExpiry _ | .touchComplete _ | .threadRetire _ | .blockTableEntryGrant _ _ | .waiterRecord _ | .wake _
  | .formRetry _ | .waiterNotice _ _ | .engineCredit _ | .abortDelivery _ | .queueTake _ _
  | .placementAttempt _ _ | .coreQueueStart _ | .balanceInterval _ | .nodeBatchDispatch _ _
  | .nodeBatchTimeout _ _ | .nodeEndMark _ _ | .launchCompletion _ | .qeCoreCtxWrite _ _ _ | .coreOwnerChange _
  | .xlInvCmd _ _ | .xlInvalidationDone _ | .frCmdRetry _ _ _ | .frCmdSkip _ _ _ | .frCmdKill _ _ _
  | .frCmdIgnored _ | .frPend _ | .peCmdPreempt _ | .peCmdKill _ | .peCmdPin _ | .peCmdRestore _ | .peDrainDone
  | .peDrainTimeout | .peSaveDone | .ckCmdSave | .ckExchangeDone | .ckCmdRestore | .dbgCmdStop _ _
  | .dbgCmdResume _ _ | .wpHitWrite _ _ | .sampleTag _ _ | .sampleRecord _ _ | .svCmdGrant | .svCmdRefuse
  | .svCmdGiveFrame | .svCmdIgnored | .svPend | .tpCmdRelease | .tpCmdMigrate | .tpCmdIgnored | .migrationPassEnd
  | .freezeCopyEnd | .foCtlWrite _ _ | .frameEncoded _ | .ebudRefill | .thermalTrip | .registerWrite _ _
  | .peerDown _ | .peerRead _ _ _ | .peerWrite _ _ _ | .leaseHoldExpiry _ | .peerResend _ | .engineResend _
  | .ptpRefresh _ | .fillAliasWrite _ _ | .hdmAccess _ _ | .hostSnoop _ _ | .taprootRd _ _ | .taprootRdx _ _
  | .taprootUp _ _ | .taprootEv _ _ _ | .downgradeProbe _ | .invalidateProbe _ | .probeAck _
  | .evictionNotice _ _ | .l1ReadMiss _ _ | .l1WriteUpgrade _ _ | .reclassifyComplete _ | .remoteWriteApply _ _
  | .scratchRefill _ _ | .cowCopyDone _ | .cowCopyError _ | .cowReserveRetry _ | .publishBroadcast _
  | .publishComplete _ | .vretireComplete _ | .sweep _ | .engineAccept _ | .engineCommandStart _
  | .engineCommandComplete _ | .matrixAccept _ | .shareStart _ | .matrixStep _ | .shareReady _ _
  | .shareAbort _ _ | .commitNotice _ _ | .abortNotice _ _ | .keyLoad _ | .zeroise | .firmwareImage _
  | .nonceRequest | .debugUnlock _ | .spdmMeasurements | .coldStart | .warmStart | .heartbeat _ | .portUp _
  | .portDown _ => none

end Sys2Proof
end

