-- ==== Sys2Proof/Config.lean ====
section
/-! DEFINITION. What one part or the hardware's freedom fixes: values the spec leaves open, each an opaque function
without a body (spec/01_device_overview.md R11, R12; 08_parallel_work.md R160; 13_consistency_model.md R238). -/

namespace Sys2Proof.Config

/-- Free choice number i of step k among the moves or outcomes that the spec allows (notes/assumptions/1). -/
opaque choose : Nat → Nat → Nat

/-- Every clk whose number is a multiple of this plus one ends only when the units' open work that R164 promises is done
(notes/assumptions/43). -/
opaque patience : Nat

/-- Free choices that the units' events of one clk make at most (R164, R389; notes/assumptions/43). -/
opaque clkMoves : Nat

/-- Extra clk before an instruction is ready: its fetch (R30, R36; notes/assumptions/2). -/
opaque fetchDelay : Nat → Nat

/-- The latency of a class V instruction within its range, a fixed function of the instruction with its type and width and of
its operand bits for the part's stepping (R94, R124; notes/assumptions/13). -/
opaque latency : Nat → Nat → Nat → Nat

/-- The raw value an approximating instruction would give, by instruction, type and operand bits; kept only where the
bound of R126 admits it (notes/assumptions/4). -/
opaque approx : Nat → Nat → Nat → Nat

/-- One byte of a 16-byte block that was written under one key generation and is read under another, by the two
generations, the block's physical address, its bytes and the byte's index (R254; notes/assumptions/5). -/
opaque recrypt : Nat → Nat → Nat → List Byte → Nat → Byte

/-- The raw fuse draws of the part: die and position (R11; notes/assumptions/6). -/
opaque fuse : Nat → Nat → Nat

/-- DEV_STEPPING[7:0] of the part (R17; notes/assumptions/6). -/
opaque stepping : BitVec 8

/-- DEV_UID of the part (R436; notes/assumptions/6). -/
opaque devUid : Word

/-- The peer package's answer to an access: number of the draw (R410, R411; notes/assumptions/7). -/
opaque peerAnswer : Nat → Nat

/-- What another package supplies to a collective or a halo: by draw, which of them, and the element (R286, R288;
notes/assumptions/7). -/
opaque peerPart : Nat → Nat → Nat → Nat

/-- A value that the spec gives no number: by draw and place (notes/assumptions/28). -/
opaque unstated : Nat → Nat → Word

/-- Whether the two signatures of a firmware image verify (R435; notes/assumptions/8). -/
opaque imageVerifies : Nat → Bool

/-- Whether the signature of an unlock token verifies: signature, UID, lifecycle and nonce (R436; notes/assumptions/8). -/
opaque tokenVerifies : Nat → Word → Nat → Nat → Bool

/-- The set of a home slice that a line stands in (R397; notes/assumptions/61). -/
opaque homeSet : Nat → Nat

/-- The ROM's contents, and the SHA-384 digest of what a measurement block covers (R435; notes/assumptions/8). -/
opaque rom : Nat
opaque sha384 : List Nat → Nat

/-- Configuration space outside the device's own DVSEC, by offset, and where that DVSEC stands in it (R426; notes/assumptions/8). -/
opaque cfgSpace : Nat → BitVec 32
opaque dvsecAt : Nat

/-- Nonce number k (R436; notes/assumptions/8). -/
opaque nonce : Nat → Nat

/-- The payload of one encoded frame, by the encoder's memory of the frames before, the stream's registers, whether it is a key frame, and
its planes (R344; notes/assumptions/8). -/
opaque av1 : Nat → List Word → Bool → List Byte → List Byte

/-- The payload of a stream's sequence header, by its registers (R344; notes/assumptions/8). -/
opaque av1Seq : List Word → List Byte

/-- What the encoder remembers after a frame (R344; notes/assumptions/8). -/
opaque av1Next : Nat → List Word → Bool → List Byte → Nat

/-- Whether the tile of a CPYX, by its destination and shape words, is padded as an operand A, to 16 rows, or B, to 32: 0 for A (R283,
R306; notes/assumptions/25). -/
opaque tileOperand : Word → Word → Nat

/-- What a core's clk count stands above the package's: cores were reset at times of their own (R27; notes/assumptions/30). -/
opaque clockBase : Nat → Word

/-- Package power and hottest junction as measured at draw k (R438; notes/assumptions/9). -/
opaque power : Nat → Nat
opaque temperature : Nat → Nat

/-- The physical cores of die d left after k fuse draws: each draw takes one of those that remain. -/
def keep (d : Nat) : Nat → List Nat → List Nat
  | 0, l => l
  | k + 1, l => keep d k (l.eraseIdx (fuse d k % l.length))

/-- The enabled cores of die d in ascending physical index: 280 of the 288 (R11, R12). -/
def enabledCores (d : Nat) : List Nat := keep d 8 (List.range 288)

/-- Core p of die d is enabled (R11). -/
def coreEnabled (d p : Nat) : Bool := (enabledCores d).contains p

/-- The die-local index of an enabled core (R12). -/
def dieLocal (d p : Nat) : Nat := (enabledCores d).findIdx (· == p)

/-- The physical index of die-local index i (R12). -/
def physOf (d i : Nat) : Nat := (enabledCores d).getD i 288

/-- A core is Gaussian-capable when its physical index is a multiple of 4 (R12). -/
def gaussCapable (p : Nat) : Bool := p % 4 == 0

end Sys2Proof.Config
end

