-- ==== Sys2Proof/Machine/State.lean ====
section
/-! DEFINITION. The state of one Z4 package as plain data, and the state after reset
(spec/02_one_thread.md R18-R27, 08_parallel_work.md, 09_scheduling_hardware.md, 12_memory_hierarchy.md,
14_translation_and_versions.md, 16_engines_model.md, 18_matrix_engine.md, 21_faults_and_preemption.md,
25_die_coherence.md, 26_fabric_and_checkpoint.md, 27_host_security_startup.md). -/

namespace Sys2Proof.Machine

/-- The two stops a meaning of this model could name. No meaning of this model raises one: every instruction and event
answers a next state. -/
inductive Fault where
  /-- Raised by nobody: kept so that the type is not empty. Safe. -/
  | stuck
  deriving DecidableEq, Repr

/-- The refusals of the model. -/
inductive Refusal where
  /-- Answered by an arm of exec whose instruction has no meaning yet. Safe: nothing can be proved of its effect. -/
  | notModelled (mnemonic : String)
  deriving DecidableEq, Repr

/-- A table: pairs of a key and an entry, keys strictly rising. -/
abbrev Tbl (α : Type) := List (Nat × α)

/-! ## Faults (R351-R358) -/

/-- The causes of R351. -/
inductive Cause where
  | illegal | regrange | badaddr | misalign | xlate | perm | nonres | mapconflict | spbound | fenotag | noatom
  | febudget | parkfull | uniform | rsover | rsunder | nobar | barbal | vnone | vfuture | vretired | workingread
  | vnoframe | accbound | mxrange | gausscap | shtrange | uncorr | watch | bkpt | trap | async
  deriving DecidableEq, Repr

/-- The access kinds of R355. -/
inductive Kind where
  | none | fetch | load | store | atomic | fe | retstack | versioned | scratch | matrix | engine | traversal | barrier
  | shtable
  deriving DecidableEq, Repr

/-- A fault record of eight words (R354). -/
structure FRec where
  w0 : Word := 0
  w1 : Word := 0
  w2 : Word := 0
  w3 : Word := 0
  w4 : Word := 0
  w5 : Word := 0
  w6 : Word := 0
  w7 : Word := 0
  deriving DecidableEq, Repr

/-- What one member's fault is, before the record is written (R354). -/
structure FaultInfo where
  cause    : Cause
  kind     : Kind := .none
  addr     : Word := 0
  source   : Nat := 31
  tokenReg : Nat := 0
  code     : Nat := 0
  trapCode : Nat := 0
  step     : Nat := 0
  issuePc  : Word := 0
  lanes    : Option Nat := Option.none
  /-- comparators that matched (R382) -/
  hits     : Nat := 0
  /-- the member whose marked register it reports (R161, R357) -/
  reader   : Option Nat := Option.none
  deriving DecidableEq, Repr

/-- The mark of a register (R276, R316, R328, R357): who produced the result and what the later fault reports. -/
structure Mark where
  issuePc : Word
  source  : Nat
  code    : Nat
  addr    : Word := 0
  step    : Nat := 0
  deriving DecidableEq, Repr

/-! ## Threads (R18) -/

/-- What happens-before a thread's next access, as far as some die has not applied it (R234-R237): the writes that its
acquires brought, the writes that its other reads read (for a later FENCE.acq), the acquires at .die or wider that have
ended, fences marked (R236), what its last FENCE.rel or FENCE.full of each scope covers, and what the releases cover that its
reads of the scratchpad read from, for a later FENCE.acq (R229, R234). -/
structure Hb where
  seen : List Nat := []
  read : List Nat := []
  acqs : List (Nat × Bool) := []
  rels : List (Scope × List Nat) := []
  spad : List Nat := []
  deriving DecidableEq, Repr

/-- One thing that lands in a thread at the end of a clk (R31-R33, R35). -/
inductive Landing where
  | reg (r : Nat) (v : Word) (mark : Option Mark)
  | pred (p : Nat) (b : Bool)
  | flagUp (f : Nat)
  | flagDown (f : Nat)
  | tba (v : Word)
  | unsync
  deriving DecidableEq, Repr

/-- A landing with its clk and the issue number of its instruction (R32). -/
structure PendingWrite where
  landClk : Nat
  seq     : Nat
  what    : Landing
  deriving DecidableEq, Repr

/-- What a thread is doing (R30, R108, R110, R150, R352, R376). -/
inductive TStatus where
  | run
  /-- stopped at a waiting form; recorded = its waiter record is held at the home (R205) -/
  | form (word : Nat) (wantsFull : Bool) (launch recorded released : Bool)
  | fault
  | wait (time : Bool) (deadline : Nat) (flag : Option Nat)
  /-- after a YIELD (R111) -/
  | yield (deadline : Nat)
  /-- held by a synchronous instruction (R35) or a FENCE (R239) until the op named lands -/
  | sync (op : Nat)
  /-- held at the acceptance of an engine command or matrix instruction, with the instruction's parcels and the gang that
  issues it (R271, R314) -/
  | held (inst : Word) (gang : List Nat)
  | exited
  deriving DecidableEq, Repr

/-- Whether a thread is in the block table of its partition, or waits for an entry since some clk (R158). -/
inductive Tabled where
  | out | held | waits (since : Nat)
  deriving DecidableEq, Repr

/-- One thread (R18), with its place and what the hardware keeps for it. -/
structure Thread where
  blk       : Nat
  tid       : Nat
  bslot     : Nat
  pc        : Pc
  n         : Nat
  regs      : List Word
  preds     : List Bool
  flags     : List Nat
  hw        : List Pc
  depth     : Nat
  tba       : Word
  tlsbase   : Word
  frec      : FRec := {}
  frecPrev  : FRec := {}
  marks     : Tbl Mark := []
  writes    : List PendingWrite := []
  status    : TStatus := .run
  readyAt   : Nat := 0
  since     : Nat := 0
  releases  : Nat := 0
  skipWatch : Bool := false
  /-- the refused TOUCHes with a flag, still to be reported (R144): address, PC, and the issue number whose flag falls -/
  touchErr  : List (Word × Pc × Nat) := []
  /-- faults of matrix partners still to be raised (R316) -/
  mxErr     : List FaultInfo := []
  /-- its place in the block table (R158) -/
  tabled    : Tabled := .out
  /-- a report or a command names this stop (R361, R363) -/
  reported  : Bool := false
  /-- a restore issues the faulting instruction again (R379) -/
  reissue   : Bool := false
  /-- the faults that it has taken: the model's own count, which tells a sampled instruction's fault from an older one (R388) -/
  faults    : Nat := 0
  deriving DecidableEq, Repr

/-! ## Levels of work (R154, R193) -/

/-- The state of one barrier (R193), with the fall of expected that takes effect next phase and the threads whose
arrival counts in the open phase (R194). -/
structure Barrier where
  phase    : Nat := 0
  expected : Nat := 0
  arrivals : Nat := 0
  balance  : Int := 0
  abort    : Bool := false
  last     : Nat := 0
  fall     : Nat := 0
  arrived  : List Nat := []
  /-- the writes on their way that the open phase's releases cover, and those of completed phases (R197) -/
  past     : List Nat := []
  done     : List Nat := []
  deriving DecidableEq, Repr

/-- Where a barrier lives. -/
inductive BarHome where
  | block (id : Nat) (i : Nat)
  | grove (id : Nat) (i : Nat)
  | span (id : Nat) (i : Nat)
  deriving DecidableEq, Repr

/-- The state of a scratchpad page (R215). -/
inductive PageState where
  | pinned | unpinned | absent
  deriving DecidableEq, Repr

/-- The pending render counts of a block (R342). -/
structure Render where
  rays  : Nat := 0
  nodes : Nat := 0
  tests : Nat := 0
  hits  : Nat := 0
  pairs : Nat := 0
  deriving DecidableEq, Repr

/-- One resident block (R154, R156, R169). -/
structure Block where
  launch       : Nat
  grove        : Nat
  idx          : Nat
  die          : Nat
  core         : Nat
  slot         : Nat
  rank         : Nat
  threads      : Nat
  bars         : List Barrier
  /-- the bundle slot of each bundle: 64 × partition + slot (R156) -/
  homes        : List Nat := []
  scratch      : List Host.Cell := []
  scratchBytes : Nat
  pages        : List PageState := []
  backing      : Nat := 0
  idemOpen     : Bool := false
  /-- words c0 and c3 of the context entry as they stood at placement: R172 lists c0 and c5-c7 as read then, and leaves open
  whether sr.park follows a change of c3 while the block is resident (notes/assumptions/46) -/
  c0           : Word := 0
  park         : Word := 0
  render       : Render := {}
  /-- scratchpad items whose last write heads or continues a release sequence, with the writes on their way that it covers: of an
  ATOMS that releases, or of a write after a fence that does (R203, R229, R234) -/
  spadRel      : Tbl (List Nat) := []
  /-- what sr.frec and sr.frec_prev of its retired threads held, by thread number (R356, R390) -/
  gone         : Tbl (FRec × FRec) := []
  /-- scratchpad pages that were ABSENT with the operations that found them so (R216) -/
  waited       : List (Nat × Nat) := []
  /-- its threads have all retired: it has ended, and shares that have not keep its scratchpad and its granules (R165, R315) -/
  spent        : Bool := false
  deriving DecidableEq, Repr

/-- One resident grove. -/
structure Grove where
  launch : Nat
  index  : Nat
  die    : Nat
  bars   : List Barrier
  /-- the cores that have held its blocks, with their logical ranks in the launch (R157) -/
  ranks  : List (Nat × Nat) := []
  /-- of a node's grove: the retire counter and the batch size of the descriptor it was dispatched under (R187) -/
  retire : Option (Word × Nat) := Option.none
  /-- its threads have all retired: it has ended (R165) -/
  spent  : Bool := false
  deriving DecidableEq, Repr

/-- A launch the queue engine has taken (R166, R179), or a node's sweep. -/
structure Launch where
  words     : List Word
  ctx       : Nat
  queue     : Nat
  die       : Nat
  order     : Nat
  nextGrove : Nat := 0
  ended     : Nat := 0
  started   : Bool := false
  node      : Bool := false
  bars      : List Barrier := []
  /-- the writes on their way that its take brought, which its threads start after, and those of its retired threads, which its
  completion store comes after (R165, R177, R235) -/
  past      : List Nat := []
  /-- of a node: the batches dispatched, and the template and descriptor of those not yet placed (R187) -/
  batches   : Nat := 0
  tmpls     : Tbl (List Word) := []
  /-- the status of a refused record, 0 for a record that runs (R167) -/
  refused   : Nat := 0
  /-- groves taken off their cores that start afresh, with the logical ranks of their blocks (R369) -/
  back      : List (Nat × List Nat) := []
  /-- its levels stand in a save image (R368) -/
  saved     : Bool := false
  deriving DecidableEq, Repr

/-- The record that one die's queue engine keeps of one queue (R175, R177, R187, R188). -/
structure QueueSt where
  taken     : Nat := 0
  enabled   : Bool := false
  held      : Bool := false
  nodeBad   : Bool := false
  nextBatch : Nat := 0
  /-- when each batch still to be dispatched had its first record claimed (R186, R187) -/
  claimAt   : Tbl Nat := []
  short     : Option Nat := Option.none
  marked    : Bool := false
  launch    : Option Nat := Option.none
  deriving DecidableEq, Repr

/-! ## Cores -/

/-- What waits in an array's queue (R305). -/
inductive ArrayCmd where
  | share (mx rank : Nat)
  | op (seq : Nat)
  deriving DecidableEq, Repr

/-- A sampled instruction (R388): its partition and followed member, the issue numbers it took, the record's words as they
stand, the level that served it, and the cause of the fault that ended it. -/
structure Sample where
  part   : Nat
  member : Nat
  lo     : Nat
  hi     : Nat
  words  : List Word
  level  : Nat := 0
  fault  : Option Nat := Option.none
  saved  : Bool := false
  deriving DecidableEq, Repr

/-- One entry of a core's write-combining buffer (R225): its 256-byte line and the stores combined in it, by operation. -/
structure WcEnt where
  line : Nat
  ops  : List Nat
  deriving DecidableEq, Repr

/-- One core's own state (R13, R158, R174, R182, R305, R322, R380, R384, R387). -/
structure Core where
  owner     : Option Nat := Option.none
  nextOwner : Option (Option Nat) := Option.none
  /-- the launches that hold granules here, with their accumulator bytes -/
  grants    : List (Nat × Nat) := []
  /-- what each of those launches took at its first block here: its partition word, and above bit 64 the registers of one of its blocks
  (R13, R169, R170) -/
  taken     : Tbl Nat := []
  acc       : List Host.Cell := []
  perm      : List Nat := []
  array     : List ArrayCmd := []
  queue     : List (Nat × Nat) := []
  /-- partitions stopped (R385) -/
  stopped   : List Nat := []
  /-- sampling: the tagged instructions, the partitions whose next gang is tagged, and the end of each partition's interval
  (R388) -/
  samples   : List Sample := []
  armed     : List Nat := []
  sampleAt  : Tbl Nat := []
  /-- the partitions that have formed a gang in this clk (R159) -/
  issued    : List Nat := []
  /-- the write-combining buffer, oldest entry first: at most four entries (R225) -/
  wc        : List WcEnt := []
  /-- the first clk in which its array may take another step: one in each clk (R305) -/
  mxClk     : Nat := 0
  deriving DecidableEq, Repr

/-! ## Outstanding operations -/

/-- An atomic update (R201, R202). -/
inductive AtomFn where
  | op (o : AtomOp) (t : AtomTy)
  | cas
  deriving DecidableEq, Repr

/-- One member of a gang's atomic step (R204), with the issue number of its own instruction (R33). -/
structure AtomMember where
  thr : Nat
  x   : Word
  y   : Word := 0
  dst : Option Nat
  num : Nat := 0
  deriving DecidableEq, Repr

/-- A translated access: its context, virtual address, physical address, size and the properties of the leaf. -/
structure Access where
  ctx    : Nat
  va     : Nat
  pa     : Nat
  size   : Nat
  key    : Nat
  policy : Nat
  /-- the page record of a versioned page (R257), with the view: true is published -/
  vrec   : Option Nat := Option.none
  /-- the cache hint of LD and ST (R141) -/
  hint   : Nat := 0
  deriving DecidableEq, Repr

/-- The full/empty forms that change or read a word (R148). -/
inductive FeOp where
  | ldw | ldc | stf | stx | purge | feq
  deriving DecidableEq, Repr

/-- What a barrier instruction does when it reaches its barrier (R196). -/
inductive BarEv where
  | arrive (dst : Nat)
  | post (n : Int)
  | arriveWait (dst : Nat)
  | test (p : Nat) (pd : Nat)
  deriving DecidableEq, Repr

/-- A hierarchy by its descriptor (R323). -/
structure Hier where
  root  : Word
  prims : Word
  refs  : Word
  kind  : Nat
  nprim : Nat
  nref  : Nat
  deriving DecidableEq, Repr

/-- One entry of a GRAFT's stack: both boxes as bits, both child words, both levels (R340). -/
structure GEntry where
  bx : List Nat
  by_ : List Nat
  wx : Word
  wy : Word
  lx : Nat
  ly : Nat
  deriving DecidableEq, Repr

/-- A GRAFT's traversal: the stack, the current leaf pair with its indices, the claim not yet written, and the records emitted
(R340). -/
structure GState where
  stack   : List GEntry := []
  leaf    : Option GEntry := Option.none
  i       : Nat := 0
  j       : Nat := 0
  claim   : Option Nat := Option.none
  emitted : Nat := 0
  deriving DecidableEq, Repr

/-- The node that a GRAFT writes to (R186, R339). -/
structure GQueue where
  base   : Word
  rec_   : Nat
  cap    : Nat
  claim  : Word
  retire : Word
  deriving DecidableEq, Repr

/-- What both sides of a GRAFT are (R338). -/
structure GSides where
  ha   : Hier
  hb   : Hier
  self : Bool
  q    : GQueue
  deriving DecidableEq, Repr

/-- What an instruction of the traversal unit keeps while it is under way (R329): the items that it has read, by 16 × address + bytes;
the access that it waits to make, and whether that writes; the sectors that later accesses of its thread have met, each with the key
it was read under and its bytes as they then stood; its render counts; the level that a read of its was found at (R388); and how
many items of a record it has written. -/
structure UnitSt where
  got   : Tbl Word := []
  want  : Option (Access × Bool) := Option.none
  snap  : List (Nat × Nat × List Byte) := []
  count : Render := {}
  level : Nat := 0
  put   : Nat := 0
  deriving DecidableEq, Repr

/-- The queries of the traversal unit that write no memory (R327). -/
inductive UnitQ where
  | trace (anyHit : Bool)
  | tracek (k : Nat)
  | march
  | hitattr (desc : Word)
  deriving DecidableEq, Repr

/-- A TRACE, TRACEK, MARCH or HITATTR under way: its query, its first result register and its operand block (R327). -/
structure UnitOp where
  q  : UnitQ
  vd : Nat
  a  : List Word
  u  : UnitSt := {}
  deriving DecidableEq, Repr

/-- A CALLT under way: its result register and predicate, its index, the address of the record once the header has been read, and the
load that it waits for (R337). -/
structure CalltOp where
  vd    : Nat
  pd    : Nat
  base  : Word
  index : Word
  entry : Option Word := Option.none
  want  : Access
  deriving DecidableEq, Repr

/-- How a GRAFT ends once its state block is written: with its status word, or stopped for a pre-emption (R341). -/
inductive GraftEnd where
  | word (w : Word)
  | err (code : Nat) (va : Word)
  | off
  deriving DecidableEq, Repr

/-- A GRAFT under way: its result register and operands, its traversal once it is opened, the records of this issue, the words of the
state block still to be written when it stops, with how it ends then, and the word that its record's STF waits on, with whether a
waiter record is held for it or released (R338-R341). -/
structure GraftOp where
  vd       : Nat
  a0       : Word
  a1       : Word
  a2       : Word
  a3       : Word
  run      : Option (GSides × GState) := Option.none
  count    : Nat := 0
  out      : Option (List (Word × Word) × GraftEnd) := Option.none
  wait     : Option Nat := Option.none
  recorded : Bool := false
  released : Bool := false
  /-- released, and on its way to try the word again -/
  going    : Bool := false
  releases : Nat := 0
  u        : UnitSt := {}
  deriving DecidableEq, Repr

/-- What an outstanding operation will do when it is performed or lands. -/
inductive OpKind where
  /-- the results are known at issue -/
  | result (l : List Landing)
  | load (a : Access) (sgn : Bool) (dst : Nat) (pr : Nat)
  | store (a : Access) (v : Word)
  | atomic (a : Access) (fn : AtomFn) (members : List AtomMember)
  | feform (a : Access) (o : FeOp) (v : Word) (dst pr : Nat)
  | signal (a : Access) (fill : Bool) (v : Word)
  /-- LAUNCH: the slot and the record (R208) -/
  | launch (slot src : Access)
  | lds (blk off size : Nat) (sgn : Bool) (dst : Nat)
  | sts (blk off size : Nat) (v : Word)
  | atoms (blk off size : Nat) (fn : AtomFn) (members : List AtomMember)
  | touch (va : Nat) (ctx : Nat) (pr : Nat) (answer : Option Bool)
  | cctl (op : CctlOp) (pa : Nat)
  | fence (kind : FenceKind) (sc : Scope)
  | barw (home : BarHome) (p : Nat) (dst : Nat)
  | barEv (home : BarHome) (e : BarEv)
  | vretire (region : Nat) (step : Nat)
  | accz (off n : Nat)
  | accrd (off size dst : Nat)
  | accwr (off size : Nat) (v : Word)
  | permt (blk off n : Nat)
  /-- a return-stack spill or fill (R24, R25) -/
  | spill (a : Access) (v : Word)
  | fill (a : Access)
  /-- FRAMEOUT: the tile's block and offset, its word, the result register (R346) -/
  | frameout (blk off : Nat) (tile : Word) (vd : Nat)
  | graft (g : GraftOp)
  /-- TRACE, TRACEK, MARCH, HITATTR (R327) -/
  | unit (u : UnitOp)
  | callt (c : CalltOp)
  deriving DecidableEq, Repr

/-- The ordering an operation carries, and its scope (R233). -/
structure Order where
  acq   : Bool := false
  rel   : Bool := false
  scope : Scope := .pkg
  deriving DecidableEq, Repr

/-- One outstanding operation of the threads it names. -/
structure Op where
  thr      : Nat
  recv     : List Nat
  pc       : Pc
  word     : Word
  issueClk : Nat
  /-- the clks between which it may land, where the spec bounds them -/
  earliest : Nat := 0
  latest   : Option Nat := Option.none
  flag     : Option Nat
  sync     : Bool
  ord      : Order := {}
  /-- what lands with its end besides its own results: the record and predicate of a CALLT whose push spills (R106) -/
  also     : List Landing := []
  kind     : OpKind
  deriving DecidableEq, Repr

/-! ## Engine commands (R271-R304) -/

/-- The seven kinds of command in flight. -/
inductive CmdKind where
  | cpy | cpyx
  /-- CPYM with its image and the matrix operand block, and whether the image is refused (R299) -/
  | cpym (image a0 a1 a2 : Word) (bad : Bool)
  | publish (sys : Bool)
  | coll | halo
  deriving DecidableEq, Repr

/-- A group: the packages of its ranks and of its ring (R302). -/
structure GroupView where
  ranks : List Nat
  ring  : List Nat
  deriving DecidableEq, Repr

/-- A command in an engine (R273, R275-R279). -/
structure Cmd where
  engine  : Nat
  kind    : CmdKind
  thr     : Nat
  recv    : List Nat
  ctx     : Nat
  die     : Nat
  launch  : Nat
  grove   : Nat
  blkId   : Nat
  pc      : Pc
  regs    : List Word
  credit  : Option BarHome
  creditBad : Bool := false
  token   : Nat
  flag    : Option Nat
  sync    : Bool
  ordered : Bool
  /-- earlier commands of the sequences it belongs to that are still to complete (R279) -/
  after   : List Nat := []
  /-- writes its issue covers that some die has not applied (R237, R241), and those that the completions of the earlier commands of
  its sequences cover (R241, R279) -/
  past    : List Nat := []
  orderPast : List Nat := []
  /-- of a collective or halo: the group as its engine has read it (R302) -/
  grp     : Option GroupView := Option.none
  started : Bool := false
  done    : Bool := false
  /-- of a copy: every byte below this one is written, then the words written beyond it with their lengths, and the source
  words read and still to be written, with their bits; of a collective or halo: its stage, what its round has read, the rank that its
  neighbours gave a halo, and the words still to be written (R280, R285, R288) -/
  unit    : Nat := 0
  wrote   : Tbl Nat := []
  got     : Tbl (List Byte × Bool) := []
  label   : Option Nat := Option.none
  outs    : List (Word × List Byte) := []
  bytes   : Nat := 0
  /-- of a collective or halo: bytes of parts of words written of a round or result that is not yet written whole (R275) -/
  part    : Nat := 0
  err     : Nat := 0
  errAddr : Word := 0
  /-- accesses that a peer refused: how often, and when each may be sent again (R289) -/
  refused : Tbl (Nat × Nat) := []
  /-- the matrix command of a CPYM has been handed to its array (R284) -/
  handed  : Bool := true
  /-- completion: 0 nothing yet, 1 word stored, 2 credit sent, 3 credit applied -/
  stage   : Nat := 0
  deriving DecidableEq, Repr

/-- A credit or an ABORT delivery on its way to a barrier (R193, R277, R316). -/
structure Msg where
  bar   : BarHome
  n     : Int
  abort : Bool
  cmd   : Option Nat := Option.none
  mx    : Option (Nat × Nat) := Option.none
  deriving DecidableEq, Repr

/-! ## Matrix operations (R305-R319) -/

inductive ShareState where
  | queued | running | ready | aborting | ended
  deriving DecidableEq, Repr

structure Share where
  rank    : Nat
  blk     : Nat
  ms      : Nat
  ns      : Nat
  state   : ShareState := .queued
  step    : Nat := 0
  result  : List Host.Cell := []
  /-- the result buffer holds an uncorrectable error (R313, R316) -/
  bad     : Bool := false
  /-- the pool rows that the row group's first step read from the index vector (R313) -/
  rows    : List Nat := []
  /-- its own abort: code, step and the failing offset; whether a step met it, which leaves the block's thread a fault
  (R316); and whether ready or abort has reached the coordinator -/
  fail    : Option (Nat × Nat × Nat) := Option.none
  inStep  : Bool := false
  sent    : Bool := false
  deriving DecidableEq, Repr

structure MxOp where
  issuer  : Nat
  recv    : List Nat
  grove   : Nat
  pc      : Pc
  word    : Word
  fmt     : TyCode
  gather  : Bool
  perm    : Bool
  energy  : Nat
  a0      : Word
  a1      : Word
  a2      : Word
  bar     : Option BarRef
  token   : Option Nat
  flag    : Option Nat
  sync    : Bool
  shares  : List Share
  /-- first abort: code, rank, step -/
  abort   : Option (Nat × Nat × Nat) := Option.none
  barbal  : Option Nat := Option.none
  steps   : Nat := 0
  /-- a CPYM handed it over: the copy has waited for the issuer's earlier accesses (R284) -/
  handed  : Bool := false
  /-- the writes on their way that happen-before its issue, which the credit of a commit covers (R197, R319) -/
  past    : List Nat := []
  /-- where its issuer stood: its block in the grove, and its thread ID (R374) -/
  place   : Nat × Nat := (0, 0)
  /-- pre-emption stops its shares at their interrupt points (R318) -/
  stop    : Bool := false
  deriving DecidableEq, Repr

/-! ## Memory of the package -/

/-- Who made a write, as far as scopes tell agents apart (R232): a thread with its block and grove; a copy engine,
Heartwood, a queue engine or Taproot; the host; a peer. -/
inductive Author where
  | thread (k blk grove : Nat)
  | engine
  | host
  | peer
  deriving DecidableEq, Repr

/-- A release that whoever reads the write may synchronise with (R234): its author and scope, the writes on their way that it
covers, and operations of its author that a release at .blk or .grv went ahead of. -/
structure RelHead where
  by_   : Author
  scope : Scope
  past  : List Nat
  pend  : List Nat := []
  deriving DecidableEq, Repr

/-- A write not yet applied by every die (R236, R237): the threads or the command whose write it is, its operation and
author, the bytes and full/empty bits it replaced with the key generations of their sectors, the writes the clock of its
message names, and the releases that its readers may synchronise with. -/
structure Inflight where
  thrs  : List Nat := []
  op    : Option Nat := Option.none
  by_   : Author := .engine
  dies  : List Nat
  old   : List (Nat × Byte)
  oldFe : List (Nat × Bool)
  gens  : List (Nat × Option Nat) := []
  past  : List Nat
  heads : List RelHead := []
  deriving DecidableEq, Repr

/-- The class of a 64 KiB frame (R221) with its tenant field (R402). -/
inductive FClass where
  | unseen | priv (die : Nat) | readonly | shared
  deriving DecidableEq, Repr

/-- tenant: 0 none yet, t + 1 tenant t, 1025 MIXED (R402). -/
structure Frame where
  cls    : FClass := .unseen
  tenant : Nat := 0
  deriving DecidableEq, Repr

/-- A cached leaf (R252). agent: 0-3 the dies' cores and blocks, 4 Heartwood and peers. -/
structure TlbEnt where
  agent : Nat
  ctx   : Nat
  vpage : Nat
  leaf  : Word
  level : Nat
  deriving DecidableEq, Repr

/-- A cached root word (level 5) or table entry (R252): the agent as in TlbEnt, the context, the table's level, the first address
that the entry translates, and the word. -/
structure PteEnt where
  agent : Nat
  ctx   : Nat
  level : Nat
  base  : Nat
  word  : Word
  deriving DecidableEq, Repr

/-- Accesses that a copy-on-write or a migration held on a page until its switch: the new frame, the first issue number after the
switch, and the operations and commands; they go before every later access (R262, R263, R266). -/
structure Replay where
  frame : Nat
  limit : Nat
  ops   : List Nat
  deriving DecidableEq, Repr

/-- A waiter held at a home slice (R205, R206). -/
structure Waiter where
  word  : Nat
  ident : Nat
  deriving DecidableEq, Repr

/-- An L1 line: states of its four sectors (0 I, 1 S, 2 E, 3 M) and its mark (0 none, 1 evict-first, 2 keep). -/
structure L1Line where
  core   : Nat
  line   : Nat
  states : List Nat
  mark   : Nat := 0
  deriving DecidableEq, Repr

/-- An L2 line with its on-die directory entry (R398): mode, the cores pointed at, the coarse groups, the owner of each owned
sector, and the sectors that are dirty in the L2. -/
structure L2Ent where
  die    : Nat
  line   : Nat
  coarse : Bool := false
  ptrs   : List Nat := []
  groups : List Nat := []
  owners : List (Nat × Nat) := []
  dirty  : List Nat := []
  /-- its mark: 0 none, 1 evict-first (R142), 2 keep: the saved lines of a scratchpad page (R215) -/
  mark   : Nat := 0
  deriving DecidableEq, Repr

/-- What a coherence transaction will do when its last acknowledgement is in (R396, R397, R399, R400). -/
inductive TxnKind where
  | read | write | recall
  /-- a die answers the probe named -/
  | answer (probe : Nat)
  deriving DecidableEq, Repr

/-- A transaction with probes outstanding: at Taproot (die none) or at a die's L2; its sector, the requesting die and core
(none of them: the host or Taproot), and the acknowledgements still to come. -/
structure Txn where
  die    : Option Nat
  sector : Nat
  kind   : TxnKind
  reqDie : Option Nat := Option.none
  core   : Option Nat := Option.none
  wait   : Nat
  /-- a die answered that it held the sector M -/
  dirty  : Bool := false
  deriving DecidableEq, Repr

/-- A probe of a transaction, to a die, or to a core of it (R396, R400): whether it has been answered, or dropped because
the core's own eviction notice is on its way (R401). -/
structure Probe where
  txn      : Nat
  die      : Nat
  core     : Option Nat
  sector   : Nat
  inval    : Bool
  answered : Bool := false
  dropped  : Bool := false
  dirty    : Bool := false
  deriving DecidableEq, Repr

/-- An eviction notice on its way to its L2, with the line's dirty sectors (R401). -/
structure Notice where
  core  : Nat
  line  : Nat
  dirty : List Nat
  deriving DecidableEq, Repr

/-- A prefetch asked for and not yet served (R145): core, sector, into the L2 only, exclusive. -/
structure Prefetch where
  core   : Nat
  sector : Nat
  l2     : Bool
  excl   : Bool
  deriving DecidableEq, Repr

/-- A region's descriptor address with the W and O a die has applied (R259). -/
structure RegionView where
  die    : Nat
  region : Nat
  w      : Nat
  o      : Nat
  deriving DecidableEq, Repr

/-- A copy-on-write under way (R262). -/
structure Cow where
  page   : Nat
  region : Nat
  frame  : Nat
  byOp   : Nat
  /-- the key of the leaf that the held write came through (R254) -/
  key    : Nat
  deriving DecidableEq, Repr

/-- A PUBLISH or VRETIRE that Heartwood runs (R260, R265). -/
structure RegCmd where
  region : Nat
  w      : Nat
  o      : Nat
  acks   : List Nat
  deriving DecidableEq, Repr

/-- A migration at a home slice (R266): marked lines, pass number (0: it waits for the end of a copy-on-write), and whether
it is frozen. -/
structure Migration where
  src    : Nat
  dst    : Nat
  tag    : Nat
  marked : List Nat
  pass   : Nat
  frozen : Bool
  /-- lines that the pass has still to read: a write before it reads one leaves no mark -/
  todo   : List Nat := []
  deriving DecidableEq, Repr

/-- One rank of a running instance of collectives or halos (R285, R302): a collective's rank, or the one that a halo's neighbours
have given it. It is kept until every rank on this package has completed. -/
structure CollSlot where
  group    : Nat
  inst     : Nat
  halo     : Bool
  rank     : Option Nat
  cmd      : Nat
  /-- the error with which the instance ends for every rank, one that joins later too (R287) -/
  err      : Nat := 0
  deriving DecidableEq, Repr

/-- A request of the service ring that waits for its answer: a residency request (R430, R431) with the TOUCH behind it, or
a region's REFILL (R429). -/
structure ResReq where
  ctx : Nat
  va  : Nat
  op  : Option Nat
  refill : Bool := false
  deriving DecidableEq, Repr

/-- A block that a save took off its core, with what the image has no room for: the names of its level, its grove, and its
threads by key (R369, R373-R376). -/
structure Kept where
  bid     : Nat
  block   : Block
  grove   : Grove
  threads : List (Nat × Thread)
  deriving DecidableEq, Repr

/-- A context's values outside memory: its energy budget (R317) and render counters by die (R342), whether its save
area is pinned (R372), and the names of its saved blocks and matrix operations (R377, R378). -/
structure CtxSt where
  ebud   : Nat := 0
  stats  : List (Nat × Render) := []
  pinned : Bool := false
  /-- the dies whose last check found its entry invalid (R173) -/
  badAt  : List Nat := []
  kept   : List Kept := []
  keptMx : Tbl MxOp := []
  deriving DecidableEq, Repr

/-- An encode stream (R345, R347): frame number, held tiles of f and f + 1 as (tx, ty, 16,384 pixel bytes), whether a
held tile of f + 1 closes it, whether f is in ENCODE, the tiles of f - 1, what the encoder remembers of the frames before, and the
bytes of f still to be written. -/
structure Stream where
  frame   : Nat := 0
  tiles   : List (Nat × Nat × List Byte) := []
  next    : List (Nat × Nat × List Byte) := []
  nextEnd : Bool := false
  encode  : Bool := false
  prev    : List (Nat × Nat × List Byte) := []
  enc     : Nat := 0
  left    : Option (List Byte) := none
  deriving DecidableEq, Repr

/-- The pre-emption block's run (R368). -/
inductive PeStage where
  | idle | drain | save | restore
  deriving DecidableEq, Repr

structure PeSt where
  stage  : PeStage := .idle
  ctx    : Nat := 0
  deadline : Nat := 0
  deriving DecidableEq, Repr

/-- The checkpoint block's run (R417-R424): stage, the descriptor's words and the hashes of its chunks. -/
structure CkSt where
  /-- 0 idle, 1 hash, 2 exchange, 3 write, 4 manifest, 5 select, 6 read (R417) -/
  stage  : Nat := 0
  /-- its status, while the completion word has still to be stored (R422) -/
  final  : Option Nat := none
  desc   : List Word := []
  /-- the region descriptors of the job -/
  regions : List Nat := []
  hashes : List (List Byte) := []
  /-- its accesses that a peer refused: how often, and when each may be sent again (R289, R410) -/
  refused : Tbl (Nat × Nat) := []
  /-- what it has read, each access once -/
  got    : Tbl (List Byte × Bool) := []
  /-- a save's writes: those of this stage, and those of the manifest (R420, R421) -/
  outs   : List (Word × List Byte) := []
  entries : List (Word × List Byte) := []
  /-- a restore's candidate steps, largest first, once they are known; the chunks of the first of them still to be read, and the bytes of those
  that have been verified (R424) -/
  cands  : Option (List Nat) := none
  todo   : List (List Word) := []
  data   : List Byte := []
  deriving DecidableEq, Repr

/-- The lifecycle fuse with its volatile unlocked state (R435). -/
inductive Lifecycle where
  | test | prod | prodUnlocked | decommissioned
  deriving DecidableEq, Repr

/-- A lease this package holds on a peer line (R412), or has granted on its own (R414): of that one the expiry is 0 once its end has been
seen, and `held` names the writes that it holds, in order of arrival: operations, commands, held writes and, from 2^63 on, the
hardware's own. -/
structure Lease where
  line   : Nat
  expiry : Nat
  held   : List Nat := []
  deriving DecidableEq, Repr

/-- A write of an engine, the host or a peer that a lease or a frozen page holds (R266, R414), or a host write behind one (R245):
its number, key, address, bytes, the new full/empty bit of a word that it fills; whose write it is, the writes that happen-before it, and
its scope when it is a release. -/
structure HeldWr where
  id    : Nat := 0
  key   : Nat
  pa    : Nat
  bytes : List Byte
  fill  : Option Bool := Option.none
  by_   : Author := .engine
  thrs  : List Nat := []
  past  : List Nat := []
  rel   : Option Scope := Option.none
  deriving DecidableEq, Repr

/-- A thread's access to a peer that was refused, by its operation (R411). -/
structure PeerWait where
  op        : Nat
  refusals  : Nat
  notBefore : Nat
  deriving DecidableEq, Repr

/-- Where the thread record of a saved thread stands: its context, the record's virtual address and its register count
(R376, R377). -/
structure SavedThr where
  ctx : Nat
  va  : Nat
  n   : Nat
  deriving DecidableEq, Repr

/-- The state of one Z4 package. -/
structure State where
  /-- the core clock (R14), PTP time in ns, and the fields of the model's own: the counter behind the free choices, the
  outside's moves still to come, the gang that issues, the next issue number -/
  clk       : Nat
  ptp       : Nat
  draws     : Nat
  /-- the free choices made when this clk began: the model's own, which bounds the moves of one clk (R164, R389) -/
  clkDraws  : Nat
  inputs    : List Instr
  gang      : List Nat
  /-- the parcels of the instruction that the gang issues (w6 of R354) -/
  inst      : Word
  nextSeq   : Nat
  /-- memory by physical address (R219), the empty words (R228), sector key tags and key generations (R254, R434) -/
  mem       : List Host.Cell
  empties   : List Nat
  keyTags   : Tbl Nat
  keyGens   : Tbl Nat
  keyEpoch  : Nat
  inflight  : Tbl Inflight
  /-- sectors, and scratchpad words of a block, that hold an uncorrectable error (R439) -/
  badMem    : List Nat
  badSpad   : List (Nat × Nat)
  /-- the count of corrected errors, which no register shows (R439) -/
  corrected : Nat
  /-- translation and instruction caches: an instruction line by core, line and the key it was decrypted under (R252, R254, R23) -/
  tlb       : List TlbEnt
  ptes      : List PteEnt
  icache    : List (Nat × Nat × Nat × List Byte)
  hostKinds : Tbl Bool
  /-- host frames that hold a migrated device page, with its tag page (R267) -/
  tagPages  : Tbl Nat
  /-- invalidations under way: die, context, first page, pages, and the writes begun before the command (R252) -/
  invals    : List (Nat × Nat × Nat × Nat × Nat)
  /-- work -/
  threads   : Tbl Thread
  blocks    : Tbl Block
  groves    : Tbl Grove
  launches  : Tbl Launch
  /-- ended blocks, each with its grove as it then stood: what their storage holds until it is next taken (R214, R390) -/
  ended     : List (Nat × Block × Grove)
  queues    : Tbl QueueSt
  /-- the dies whose QE_CTX_TABLE has been written since the start: no context exists before (R437) -/
  ctxTabs   : List Nat
  /-- how many records each die's queue engine has taken (R179, R373) -/
  takes     : Tbl Nat
  cores     : Tbl Core
  ctxs      : Tbl CtxSt
  ops       : Tbl Op
  /-- what happens-before each thread's next access (R235) -/
  hbs       : Tbl Hb
  /-- saved threads that outstanding commands still name, by the number the commands know them by (R377) -/
  saved     : Tbl SavedThr
  /-- the next balancing interval of each die (R183) -/
  balanced  : Tbl Nat
  /-- node groves that have ended and whose retire counter still waits to be written: launch, counter, records (R187) -/
  retires   : List (Nat × Word × Nat)
  /-- full/empty waiting -/
  waitTab   : List Waiter
  sectors   : List Nat
  coreMarks : List (Nat × Nat)
  /-- waiter notices under way: the core that holds the sector, the word, and the waiting thread (R406) -/
  wnotes    : List (Nat × Nat × Nat)
  wakes     : List (Nat × Bool)
  retries   : List (Nat × Nat)
  /-- engines -/
  cmds      : Tbl Cmd
  msgs      : Tbl Msg
  colls     : List CollSlot
  mxOps     : Tbl MxOp
  /-- Heartwood and versions -/
  regions   : List RegionView
  /-- the regions whose first use has found their descriptor good (R256) -/
  regSeen   : List Nat
  regCmds   : Tbl RegCmd
  cows      : List Cow
  replay    : List Replay
  /-- the commands whose accesses wait for the switch of a frame, in order of arrival: frame and command (R262, R266) -/
  queued    : List (Nat × Nat)
  sweeps    : List Nat
  /-- the context whose command started a region's sweep (R429) -/
  sweepCtx  : Tbl Nat
  /-- Taproot and coherence -/
  frames    : Tbl Frame
  taproot   : Tbl (List Nat)
  /-- the lines that Taproot tracks, most recently used first (R397), and the requests of dies held at their homes in order of
  arrival: die, sector, and whether it is a write (R394) -/
  tapUse    : List Nat
  homeQ     : List (Nat × Nat × Bool)
  l2        : List L2Ent
  l1        : List L1Line
  /-- the dies that lost their copy of a sector to a write they have not applied yet (R236, R237, R396) -/
  late      : List (Nat × Nat)
  probes    : Tbl Probe
  txns      : Tbl Txn
  notices   : List Notice
  prefs     : List Prefetch
  tenants   : Tbl Nat
  migration : Option Migration
  /-- registers by BAR0 offset: those that differ from their reset value (R427) -/
  mmio      : Tbl Word
  /-- reports and service entries that wait for room (R361, R431): die or 4, and the eight words -/
  frQueue   : List (Nat × List Word)
  svQueue   : List (List Word)
  resReqs   : List ResReq
  streams   : Tbl Stream
  pe        : PeSt
  ck        : CkSt
  /-- fabric -/
  leases    : List Lease
  granted   : List Lease
  heldWr    : List HeldWr
  peerWaits : List PeerWait
  heard     : Tbl Nat
  portsUp   : List Nat
  /-- security complex and management controller (R434-R438) -/
  lifecycle : Lifecycle
  nonces    : List Nat
  nonceSeq  : Nat
  /-- the nonces that a token has used, which no token uses again (R436) -/
  usedNonces : List Nat
  rollback  : Nat
  firmware  : Option FwImage
  meas3     : Nat
  romHold   : Bool
  hbmTrained : Bool
  scrubEpoch : Nat
  linkUp    : Bool
  powered   : Bool
  /-- the junction has reached 115 °C: the rails go, whatever is measured later (R438) -/
  tripped   : Bool
  /-- the microsecond of PTP time whose refill has been done (R438) -/
  refilled  : Nat
  /-- the model's own: what the package last answered to a read or a request from outside: bytes, a nonce, or the digests of the
  measurement blocks (R409, R426, R435, R436) -/
  reply     : List Nat
  deriving DecidableEq, Repr

/-- The machine right after a cold start (R437): no context, thread or command; memory lists nothing, so every
device-memory word is zero and FULL (R228); every register at its reset value (R4); the CXL link up. -/
def State.reset : State where
  clk := 0
  ptp := 0
  draws := 0
  clkDraws := 0
  inputs := []
  gang := []
  inst := 0
  nextSeq := 0
  mem := []
  empties := []
  keyTags := []
  keyGens := []
  keyEpoch := 1
  inflight := []
  badMem := []
  badSpad := []
  corrected := 0
  tlb := []
  ptes := []
  icache := []
  hostKinds := []
  tagPages := []
  invals := []
  threads := []
  blocks := []
  groves := []
  launches := []
  ended := []
  queues := []
  ctxTabs := []
  takes := []
  cores := []
  ctxs := []
  ops := []
  hbs := []
  saved := []
  balanced := []
  retires := []
  waitTab := []
  sectors := []
  coreMarks := []
  wnotes := []
  wakes := []
  retries := []
  cmds := []
  msgs := []
  colls := []
  mxOps := []
  regions := []
  regSeen := []
  regCmds := []
  cows := []
  replay := []
  queued := []
  sweeps := []
  sweepCtx := []
  frames := []
  taproot := []
  tapUse := []
  homeQ := []
  l2 := []
  l1 := []
  late := []
  probes := []
  txns := []
  notices := []
  prefs := []
  tenants := []
  migration := none
  mmio := []
  frQueue := []
  svQueue := []
  resReqs := []
  streams := []
  pe := {}
  ck := {}
  leases := []
  granted := []
  heldWr := []
  peerWaits := []
  heard := []
  portsUp := []
  lifecycle := .prod
  nonces := []
  nonceSeq := 0
  usedNonces := []
  rollback := 0
  firmware := none
  meas3 := 0
  romHold := false
  hbmTrained := true
  scrubEpoch := 0
  linkUp := true
  powered := true
  tripped := false
  refilled := 0
  reply := []

end Sys2Proof.Machine
end

