-- ==== Sys2Proof/Machine/Table.lean ====
section
/-! DEFINITION. The named operations over tables and over memory's cells: keys strictly rising, one canonical form
(spec/00_scope.md R2, R5). -/

namespace Sys2Proof.Machine

/-- The entry of key k. -/
def Tbl.find {α : Type} : Tbl α → Nat → Option α
  | [], _ => none
  | (j, a) :: t, k => if j = k then some a else Tbl.find t k

/-- The table with key k set to a. -/
def Tbl.put {α : Type} : Tbl α → Nat → α → Tbl α
  | [], k, a => [(k, a)]
  | (j, b) :: t, k, a =>
    if k < j then (k, a) :: (j, b) :: t else if k = j then (k, a) :: t else (j, b) :: Tbl.put t k a

/-- The table without key k. -/
def Tbl.del {α : Type} (t : Tbl α) (k : Nat) : Tbl α := t.filter (fun e => e.1 != k)

/-- The table with entry k changed by f, where it stands. -/
def Tbl.upd {α : Type} (t : Tbl α) (k : Nat) (f : α → α) : Tbl α :=
  t.map (fun e => if e.1 = k then (e.1, f e.2) else e)

/-- Every entry changed. -/
def Tbl.mapVals {α : Type} (t : Tbl α) (f : Nat → α → α) : Tbl α := t.map (fun e => (e.1, f e.1 e.2))

/-- Keys strictly rise. -/
def Tbl.sorted {α : Type} : Tbl α → Bool
  | [] => true
  | [_] => true
  | a :: b :: t => decide (a.1 < b.1) && Tbl.sorted (b :: t)

/-- What a cell that nothing lists reads as: zero (R228, R437; host and peer memory notes/assumptions/10). -/
def unlisted : Byte := 0#8

/-- The byte at address a. -/
def Mem.read : List Host.Cell → Nat → Byte
  | [], _ => unlisted
  | (j, b) :: t, a => if j = a then b else if a < j then unlisted else Mem.read t a

/-- The memory with byte b at address a, in canonical form. -/
def Mem.write : List Host.Cell → Nat → Byte → List Host.Cell
  | [], a, b => if b = unlisted then [] else [(a, b)]
  | (j, c) :: t, a, b =>
    if a < j then (if b = unlisted then (j, c) :: t else (a, b) :: (j, c) :: t)
    else if a = j then (if b = unlisted then t else (a, b) :: t)
    else (j, c) :: Mem.write t a b

/-- Addresses strictly rise and no cell equals what an unlisted address reads as. -/
def Mem.wf : List Host.Cell → Bool
  | [] => true
  | [c] => c.2 != unlisted
  | c :: d :: t => decide (c.1 < d.1) && c.2 != unlisted && Mem.wf (d :: t)

/-- n bytes from address a. -/
def Mem.readN (m : List Host.Cell) (a : Nat) : Nat → List Byte
  | 0 => []
  | n + 1 => Mem.read m a :: Mem.readN m (a + 1) n

/-- The bytes written from address a on. -/
def Mem.writeN (m : List Host.Cell) (a : Nat) : List Byte → List Host.Cell
  | [] => m
  | b :: bs => Mem.writeN (Mem.write m a b) (a + 1) bs

/-- The number that bytes in little-endian order hold (R2). -/
def ofLe : List Byte → Nat
  | [] => 0
  | b :: bs => b.toNat + 256 * ofLe bs

/-- The n bytes of a number in little-endian order (R2). -/
def toLe : Nat → Nat → List Byte
  | 0, _ => []
  | n + 1, v => BitVec.ofNat 8 v :: toLe n (v / 256)

/-- A set of addresses in rising order, one more member. -/
def Addrs.add : List Nat → Nat → List Nat
  | [], a => [a]
  | j :: t, a => if a < j then a :: j :: t else if a = j then j :: t else j :: Addrs.add t a

/-- A set of addresses without a. -/
def Addrs.del (l : List Nat) (a : Nat) : List Nat := l.filter (fun j => j != a)

/-- Bits hi down to lo of a word as a number (R2). -/
def bits (w : Word) (hi lo : Nat) : Nat := w.toNat / 2 ^ lo % 2 ^ (hi + 1 - lo)

/-- Bit n of a word (R2). -/
def bit (w : Word) (n : Nat) : Bool := w.toNat.testBit n

/-- A word from fields: each a value and its lowest bit (R3). -/
def pack : List (Nat × Nat) → Word
  | [] => 0
  | (v, lo) :: t => BitVec.ofNat 64 (v * 2 ^ lo) ||| pack t

/-- Element i of a list of words, zero beyond it. -/
def wordAt (l : List Word) (i : Nat) : Word := l.getD i 0

/-- The smallest member that f holds of. -/
def firstSome {α β : Type} : List α → (α → Option β) → Option β
  | [], _ => none
  | a :: t, f => match f a with
    | some b => some b
    | none => firstSome t f

end Sys2Proof.Machine
end

