-- ==== Sys2Proof/Machine/Mmio.lean ====
section
/-! DEFINITION. The register map of BAR0 (spec/27_host_security_startup.md R427) with the blocks it places: access,
reset value and writable bits of every register (spec/00_scope.md R3, R4). -/

namespace Sys2Proof.Machine

/-- How a register answers (R4). -/
inductive RegAccess where
  | ro | rw | w1c | wo | absent
  deriving DecidableEq, Repr

/-- A register: its access, reset value and the bits a write sets. -/
structure RegSpec where
  acc   : RegAccess
  reset : Word := 0
  mask  : Word := BitVec.allOnes 64
  deriving DecidableEq, Repr

/-- The n lowest bits. -/
def low (n : Nat) : Word := BitVec.ofNat 64 (2 ^ n - 1)

/-- Bits hi down to lo. -/
def field (hi lo : Nat) : Word := BitVec.ofNat 64 ((2 ^ (hi + 1 - lo) - 1) * 2 ^ lo)

/-! Offsets in BAR0 (R427). -/
def Off.qe (d o : Nat) : Nat := 0x10000 + 0x1000 * d + o
def Off.xl (d o : Nat) : Nat := 0x20000 + 0x1000 * d + o
def Off.ce (e o : Nat) : Nat := 0x30000 + 0x100 * e + o
def Off.rs (d o : Nat) : Nat := 0x40000 + 0x100 * d + o
def Off.fo (st o : Nat) : Nat := 0x50000 + 0x100 * st + o
def Off.fr (d o : Nat) : Nat := 0x60000 + 0x100 * d + o
def Off.pe (o : Nat) : Nat := 0x70000 + o
def Off.ck (o : Nat) : Nat := 0x70100 + o
def Off.fb (o : Nat) : Nat := 0x80000 + o
def Off.sv (o : Nat) : Nat := 0x90000 + o
def Off.tp (o : Nat) : Nat := 0xA0000 + o
def Off.pwr (o : Nat) : Nat := 0xB0000 + o
/-- Core debug block of core c, where c is 512 × die + physical index. -/
def Off.dbg (c o : Nat) : Nat := 0x100000 + 0x100 * (288 * (c / 512) + c % 512) + o

/-- The word of DEV_CORE_EN for die d and word w (R17). -/
def coreEnWord (d w : Nat) : Word :=
  (List.range 64).foldl (fun acc i => if Config.coreEnabled d (64 * w + i) then acc ||| BitVec.ofNat 64 (2 ^ i) else acc) 0

/-- Device information (R17). -/
def specDev (o : Nat) : RegSpec :=
  if o = 0 then { acc := .ro, reset := 0x5A34 }
  else if o = 8 then { acc := .ro, reset := Config.stepping.setWidth 64 }
  else if o = 0x10 then { acc := .ro, reset := 0x04600118 }
  else if o = 0x18 then { acc := .ro, reset := 0x00100040 }
  else if 0x100 ≤ o ∧ o < 0x200 ∧ o % 0x40 / 8 < 5 then { acc := .ro, reset := coreEnWord ((o - 0x100) / 0x40) (o % 0x40 / 8) }
  else { acc := .absent }

/-- Queue engine (R175). -/
def specQe (o : Nat) : RegSpec :=
  if o = 0 then { acc := .rw, mask := field 39 12 }
  else if o = 8 then { acc := .rw, reset := 4, mask := low 9 }
  else if o = 0x10 ∨ o = 0x18 then { acc := .rw }
  else if o = 0x20 then { acc := .rw, mask := field 63 32 ||| low 10 }
  else if o = 0x28 then { acc := .rw, mask := field 63 32 ||| low 15 }
  else if 0x400 ≤ o ∧ o < 0x400 + 8 * 280 then { acc := .rw, mask := low 11 }
  else { acc := .absent }

/-- Translation (R248). -/
def specXl (o : Nat) : RegSpec :=
  if o = 0 then { acc := .rw, mask := field 51 13 }
  else if o = 8 then { acc := .rw, mask := field 56 16 }
  else if o = 0x10 then { acc := .rw, mask := low 32 }
  else if o = 0x18 then { acc := .wo }
  else if o = 0x20 then { acc := .ro }
  else { acc := .absent }

/-- Copy engine (R290). -/
def specCe (o : Nat) : RegSpec :=
  if o = 0 then { acc := .rw, reset := 0x40, mask := low 16 }
  else if o = 8 then { acc := .ro }
  else if o = 0x10 ∨ o = 0x18 ∨ o = 0x20 then { acc := .rw }
  else { acc := .absent }

/-- Render statistics (R343). -/
def specRs (o : Nat) : RegSpec :=
  if o = 0 then { acc := .rw, mask := low 10 }
  else if o = 8 ∨ o = 0x10 ∨ o = 0x18 ∨ o = 0x20 ∨ o = 0x28 then { acc := .rw }
  else { acc := .absent }

/-- Encode streams (R345). -/
def specFo (o : Nat) : RegSpec :=
  if o = 0 then { acc := .rw, mask := low 2 }
  else if o = 8 then { acc := .rw, mask := field 28 16 ||| low 13 }
  else if o = 0x10 then { acc := .rw, mask := low 48 }
  else if o = 0x18 ∨ o = 0x20 ∨ o = 0x30 then { acc := .rw }
  else if o = 0x28 ∨ o = 0x38 then { acc := .ro }
  else { acc := .absent }

/-- Fault report (R362). -/
def specFr (o : Nat) : RegSpec :=
  if o = 0 then { acc := .rw, mask := field 51 12 }
  else if o = 8 then { acc := .rw, mask := low 32 }
  else if o = 0x10 ∨ o = 0x20 then { acc := .ro }
  else if o = 0x18 ∨ o = 0x30 then { acc := .rw }
  else if o = 0x28 then { acc := .wo }
  else { acc := .absent }

/-- Pre-emption (R367) and checkpoint (R417). -/
def specPe (o : Nat) : RegSpec :=
  if o = 0 ∨ o = 0x108 then { acc := .wo }
  else if o = 8 ∨ o = 0x18 ∨ o = 0x110 then { acc := .ro }
  else if o = 0x10 then { acc := .rw, reset := 0x4E20, mask := low 32 }
  else if o = 0x100 then { acc := .rw, mask := field 56 6 }
  else { acc := .absent }

/-- Fabric (R408). -/
def specFb (o : Nat) : RegSpec :=
  if o = 0 ∨ o = 0x20 then { acc := .rw, mask := low 11 }
  else if o = 8 then { acc := .rw, reset := 0x4E20, mask := low 32 }
  else if o = 0x10 then { acc := .rw, reset := 0x3E8, mask := low 32 }
  else if o = 0x18 then { acc := .rw, reset := 0x40, mask := low 16 }
  else if o = 0x28 then { acc := .rw, mask := field 56 16 }
  else if o = 0x30 then { acc := .ro }
  else if o = 0x38 then { acc := .rw, reset := 0x0BEBC200, mask := low 32 }
  else if o = 0x40 then { acc := .rw }
  else if 0x100 ≤ o ∧ o < 0x180 then { acc := .ro }
  else { acc := .absent }

/-- Service block (R431). -/
def specSv (o : Nat) : RegSpec :=
  if o = 0 then { acc := .rw, mask := field 51 12 }
  else if o = 0x10 ∨ o = 0x20 then { acc := .ro }
  else if o = 0x28 then { acc := .rw, mask := low 10 }
  else if o = 0x38 then { acc := .wo }
  else if o = 0x48 ∨ o = 0x50 then { acc := .rw, mask := low 32 }
  else if o = 0x58 then { acc := .rw, mask := low 12 }
  else if o = 8 ∨ o = 0x18 ∨ o = 0x30 ∨ o = 0x40 ∨ o = 0x60 then { acc := .rw }
  else { acc := .absent }

/-- Taproot commands (R433). -/
def specTp (o : Nat) : RegSpec :=
  if o = 0 ∨ o = 8 ∨ o = 0x10 then { acc := .rw }
  else if o = 0x18 then { acc := .wo }
  else if o = 0x20 then { acc := .ro }
  else { acc := .absent }

/-- Power (R438). -/
def specPwr (o : Nat) : RegSpec :=
  if o = 0 then { acc := .rw, reset := 0x3A98, mask := low 16 }
  else if o = 8 then { acc := .rw, reset := 0x100000, mask := low 32 }
  else if o = 0x10 ∨ o = 0x18 then { acc := .ro }
  else if 0x800 ≤ o ∧ o < 0x800 + 8 * 1024 then { acc := .rw, mask := low 16 }
  else { acc := .absent }

/-- Core debug: watchpoints (R380), partition stop (R384), sampling (R387). -/
def specDbg (o : Nat) : RegSpec :=
  if o < 0x60 then
    (if o % 0x18 = 0x10 then { acc := .rw, mask := low 15 } else { acc := .rw, mask := low 57 })
  else if o = 0x60 then { acc := .w1c, mask := low 4 }
  else if o = 0x80 then { acc := .wo }
  else if o = 0x88 then { acc := .ro }
  else if o = 0x90 then { acc := .rw, mask := field 51 16 }
  else if o = 0x98 ∨ o = 0xB0 ∨ o = 0xC0 ∨ o = 0xC8 then { acc := .rw }
  else if o = 0xA0 then { acc := .rw, mask := field 63 32 ||| low 21 }
  else if o = 0xA8 then { acc := .rw, mask := field 51 12 }
  else if o = 0xB8 then { acc := .ro }
  else { acc := .absent }

/-- The register at a BAR0 offset (R427); offsets that name none are absent. -/
def regSpec (off : Nat) : RegSpec :=
  if off % 8 ≠ 0 then { acc := .absent }
  else if off < 0x1E8 then specDev off
  else if off < 0x10000 then { acc := .absent }
  else if off < 0x14000 then specQe (off % 0x1000)
  else if off < 0x20000 then { acc := .absent }
  else if off < 0x24000 then specXl (off % 0x1000)
  else if off < 0x30000 then { acc := .absent }
  else if off < 0x31000 then specCe (off % 0x100)
  else if off < 0x40000 then { acc := .absent }
  else if off < 0x40400 then specRs (off % 0x100)
  else if off < 0x50000 then { acc := .absent }
  else if off < 0x50800 then specFo (off % 0x100)
  else if off < 0x60000 then { acc := .absent }
  else if off < 0x60400 then specFr (off % 0x100)
  else if off < 0x70000 then { acc := .absent }
  else if off < 0x70200 then specPe (off - 0x70000)
  else if off < 0x80000 then { acc := .absent }
  else if off < 0x90000 then specFb (off - 0x80000)
  else if off < 0xA0000 then specSv (off - 0x90000)
  else if off < 0xB0000 then specTp (off - 0xA0000)
  else if off < 0xC0000 then specPwr (off - 0xB0000)
  else if off < 0x100000 then { acc := .absent }
  else if off < 0x100000 + 0x100 * 1152 then specDbg (off % 0x100)
  else { acc := .absent }

/-- The value the register at an offset holds. -/
def State.reg (s : State) (off : Nat) : Word := (s.mmio.find off).getD (regSpec off).reset

/-- The state with that register holding v. -/
def State.setReg (s : State) (off : Nat) (v : Word) : State :=
  { s with mmio := if v = (regSpec off).reset then s.mmio.del off else s.mmio.put off v }

/-- A counter register one higher. -/
def State.bumpReg (s : State) (off : Nat) : State := s.setReg off (s.reg off + 1)

/-! ## Registers that show state held elsewhere -/

/-- RS_RAYS to RS_PAIRS, which show the counts of a context: the die and which count (R343). -/
def rsCount (off : Nat) : Option (Nat × Nat) :=
  if 0x40000 ≤ off ∧ off < 0x40400 ∧ off % 8 = 0 ∧ 8 ≤ off % 0x100 ∧ off % 0x100 ≤ 0x28 then some ((off - 0x40000) / 0x100, off % 0x100 / 8 - 1)
  else none

/-- Count i of a block's or context's render counts: rays, nodes, tests, hits, pairs. -/
def Render.count (r : Render) : Nat → Nat
  | 0 => r.rays
  | 1 => r.nodes
  | 2 => r.tests
  | 3 => r.hits
  | _ => r.pairs

/-- The counts with count i set. -/
def Render.setCount (r : Render) (v : Nat) : Nat → Render
  | 0 => { r with rays := v }
  | 1 => { r with nodes := v }
  | 2 => { r with tests := v }
  | 3 => { r with hits := v }
  | _ => { r with pairs := v }

/-- The counts of a context on a die (R342). -/
def CtxSt.render (c : CtxSt) (die : Nat) : Render := (c.stats.find? fun e => e.1 == die).elim {} (·.2)

/-- The context with its counts on a die replaced. -/
def CtxSt.setRender (c : CtxSt) (die : Nat) (r : Render) : CtxSt := { c with stats := (die, r) :: c.stats.filter fun e => e.1 != die }

/-- The context that a die's RS_SEL names (R343). -/
def State.rsSel (s : State) (die : Nat) : Nat := bits (s.reg (Off.rs die 0)) 9 0

/-- The lifecycle closes the debug port (R384, R435, R436). -/
def State.debugLocked (s : State) : Bool :=
  match s.lifecycle with
  | .test | .prodUnlocked => false
  | .prod | .decommissioned => true

/-- What software reads there (R4): the render counts of the context that RS_SEL names (R343), DBG_STATUS with its locked
bit (R384), and a power limit of 15,000 at most (R438); all ones where the access is not aligned (R427). -/
def State.readReg (s : State) (off : Nat) : Word :=
  match rsCount off with
  | some (d, i) => BitVec.ofNat 64 ((((s.ctxs.find (s.rsSel d)).getD {}).render d).count i)
  | none =>
    match (regSpec off).acc with
    | .ro | .rw | .w1c =>
      if 0x100000 ≤ off ∧ off % 0x100 = 0x88 ∧ s.debugLocked then s.reg off ||| 256
      else if off = Off.pwr 0 ∧ 15000 < bits (s.reg off) 15 0 then 15000
      else s.reg off
    | .wo | .absent => if off % 8 = 0 then 0 else BitVec.allOnes 64

/-- A read through BAR0, by its offset and its width in bytes: all ones unless it is 8 bytes wide and aligned (R427). -/
def State.barRead (s : State) (off width : Nat) : Nat := if width = 8 ∧ off % 8 = 0 then (s.readReg off).toNat else 2 ^ (8 * width) - 1

/-- Where the device's DVSEC stands in configuration space: 12 bytes of header and the device information block (R426). -/
def dvsecBase : Nat := 0x100 + 4 * (Config.dvsecAt % 835)

/-- A read of 4 bytes of configuration space (R426): in the DVSEC its length and ID where PCI Express puts them, and from byte 12 on the
device information block of R17, the low half of each register at the lower address; elsewhere what the part has there (notes/assumptions/8). -/
def State.cfgRead (s : State) (off : Nat) : BitVec 32 :=
  let o := off - dvsecBase
  if off < dvsecBase ∨ 0x1F4 ≤ o then Config.cfgSpace off
  else if o = 4 then BitVec.ofNat 32 (0x1F4 * 2 ^ 20 + (Config.cfgSpace off).toNat % 2 ^ 20)
  else if o = 8 then BitVec.ofNat 32 ((Config.cfgSpace off).toNat / 65536 * 65536 + 1)
  else if 12 ≤ o then (s.readReg ((o - 12) / 8 * 8) >>> (8 * ((o - 12) % 8 / 4 * 4))).setWidth 32
  else Config.cfgSpace off

/-- A write of software to a register without an event of its own (R3, R4); of a render count it sets the count (R343). -/
def State.writeReg (s : State) (off : Nat) (v : Word) : State :=
  match rsCount off with
  | some (d, i) =>
    let c := (s.ctxs.find (s.rsSel d)).getD {}
    { s with ctxs := s.ctxs.put (s.rsSel d) (c.setRender d ((c.render d).setCount v.toNat i)) }
  | none =>
    match (regSpec off).acc with
    | .rw => s.setReg off ((s.reg off &&& ~~~(regSpec off).mask) ||| (v &&& (regSpec off).mask))
    | .w1c => s.setReg off (s.reg off &&& ~~~(v &&& (regSpec off).mask))
    | .ro | .wo | .absent => s

end Sys2Proof.Machine
end

