-- ==== Sys2Proof/Machine/Ops.lean ====
section
/-! DEFINITION. The named operations over the state that every meaning shares: threads and their registers, what lands
at the end of a clk, memory and full/empty bits, waking, barriers, and TAKING A FAULT with the return from one
(spec/02_one_thread.md, 10_isa_synchronisation.md, 12_memory_hierarchy.md, 13_consistency_model.md,
21_faults_and_preemption.md). -/

namespace Sys2Proof.Machine

/-- What a meaning answers: every meaning of this model answers a next state. -/
abbrev Out := Host.Outcome State Fault Refusal

/-! ## Places -/

/-- A thread's key is its die, physical core and resident-thread index as R206 packs them. -/
def keyOf (die phys slot : Nat) : Nat := die * 4194304 + phys * 8192 + slot

/-- The core of a thread key: 512 × die + physical index. -/
def coreOf (k : Nat) : Nat := k / 8192

def dieOf (k : Nat) : Nat := k / 4194304

def slotOf (k : Nat) : Nat := k % 8192

/-- Resident-thread index = 2,048 × partition + 32 × bundle slot + lane (R156). -/
def partOf (k : Nat) : Nat := k % 8192 / 2048

def laneOf (k : Nat) : Nat := k % 32

/-- Free choice number i of this step. -/
def State.pick (s : State) (i : Nat) : Nat := Config.choose s.draws i

/-! ## Threads -/

def State.thread? (s : State) (k : Nat) : Option Thread := s.threads.find k

def State.updThread (s : State) (k : Nat) (f : Thread → Thread) : State := { s with threads := s.threads.upd k f }

def State.updBlock (s : State) (b : Nat) (f : Block → Block) : State := { s with blocks := s.blocks.upd b f }

/-- Register r; a register at or above the count never reaches here (R20). -/
def Thread.reg (t : Thread) (r : Nat) : Word := t.regs.getD r 0

/-- Predicate p; p7 reads 1 (R21). -/
def Thread.pred (t : Thread) (p : Nat) : Bool := if p = 7 then true else t.preds.getD p false

/-- A write to p7 is discarded (R21). -/
def Thread.setPred (t : Thread) (p : Nat) (b : Bool) : Thread := if p = 7 then t else { t with preds := t.preds.set p b }

/-- A write that lands in a register clears or sets its mark (R276). -/
def Thread.setReg (t : Thread) (r : Nat) (v : Word) (m : Option Mark) : Thread :=
  { t with regs := t.regs.set r v
           marks := match m with
             | some k => t.marks.put r k
             | none => t.marks.del r }

/-- A flag's rise, which comes before whatever else lands of its instruction (R33). -/
def Landing.rises : Landing → Bool
  | .flagUp _ => true
  | .reg _ _ _ | .pred _ _ | .flagDown _ | .tba _ | .unsync => false

/-- A landing enters in issue order, so that of two in one clk the later-issued is kept (R32). -/
def insertWrite (w : PendingWrite) : List PendingWrite → List PendingWrite
  | [] => [w]
  | x :: t => if w.seq < x.seq ∨ (w.seq = x.seq ∧ w.what.rises = true) then w :: x :: t else x :: insertWrite w t

def Thread.queue (t : Thread) (w : PendingWrite) : Thread := { t with writes := insertWrite w t.writes }

/-- A restored thread's faulting instruction has succeeded (R379). -/
def Thread.succeeded (t : Thread) : Thread := if t.reissue then { t with frecPrev := t.frec, frec := {}, reissue := false } else t

/-- One landing takes effect (R31-R33, R35). -/
def Thread.apply (t : Thread) : Landing → Thread
  | .reg r v m => t.setReg r v m
  | .pred p b => t.setPred p b
  | .flagUp f => { t with flags := t.flags.set f (t.flags.getD f 0 + 1) }
  | .flagDown f => { t with flags := t.flags.set f (t.flags.getD f 0 - 1) }
  | .tba v => { t with tba := v }
  | .unsync => match t.status with
    | .sync _ => { t.succeeded with status := .run }
    | _ => t.succeeded

/-- The end of clk: everything due lands, in issue order (R31, R32). -/
def Thread.landAll (t : Thread) (clk : Nat) : Thread :=
  (t.writes.filter (fun w => w.landClk ≤ clk)).foldl (fun t w => t.apply w.what)
    { t with writes := t.writes.filter (fun w => clk < w.landClk) }

/-- Queue what an operation leaves in one thread. -/
def State.landIn (s : State) (k : Nat) (seq clk : Nat) (l : List Landing) : State :=
  s.updThread k (fun t => l.foldl (fun t x => t.queue { landClk := clk, seq := seq, what := x }) t)

/-- The launch of a thread's block, and its context. -/
def State.launchOf (s : State) (t : Thread) : Option Launch :=
  match s.blocks.find t.blk with
  | some b => s.launches.find b.launch
  | none => none

def State.ctxOf (s : State) (t : Thread) : Nat :=
  match s.launchOf t with
  | some l => l.ctx
  | none => 0

/-- Word c0 of the context as it stood at placement (R172). -/
def State.c0Of (s : State) (t : Thread) : Word :=
  match s.blocks.find t.blk with
  | some b => b.c0
  | none => 0

/-- FE_RETRY: 0 is read as 16 (R172). -/
def feRetry (c0 : Word) : Nat := if bits c0 23 16 = 0 then 16 else bits c0 23 16

/-! ## Memory encryption (R254, R434, R440) -/

def isDevice (pa : Nat) : Bool := pa < 2 ^ 40
def isPeer (pa : Nat) : Bool := decide (2 ^ 50 ≤ pa) && decide (pa < 2 ^ 51)
def isHost (pa : Nat) : Bool := decide (2 ^ 51 ≤ pa)

/-- The generation of a random key: slot k's of an epoch. Random keys have even generations, loaded ones odd (R434). -/
def randomKey (k epoch : Nat) : Nat := 2 * (k + 4096 * epoch)

/-- The generation of a loaded key: its 64 bytes (R434). -/
def loadedKey (material : Nat) : Nat := 2 * (material % 2 ^ 512) + 1

/-- The name of a key that an access begun before its slot changed goes on under (R434). -/
def oldKey (g : Nat) : Nat := 4097 + g

/-- The generation of the key in slot k: entry 4096 of the table holds the epoch of the slots not loaded since the last zeroising; a
number above it names a key that its slot no longer holds (R434). -/
def State.keyGen (s : State) (k : Nat) : Nat :=
  if 4096 < k then k - 4097 else (s.keyGens.find k).getD (randomKey k ((s.keyGens.find 4096).getD 0))

/-- The byte at pa as stored by the key it was written under, decrypted under generation g (R254). -/
def State.plain (s : State) (g pa : Nat) : Byte :=
  match s.keyTags.find (pa / 64) with
  | none => Mem.read s.mem pa
  | some w => if w = g then Mem.read s.mem pa
              else Config.recrypt w g (pa / 16) (Mem.readN s.mem (pa / 16 * 16) 16) (pa % 16)

/-- What die d still sees of a byte: what a write not yet applied there replaced, with the generation its sector stood under
(R236, R237, R254). -/
def oldByte (d pa : Nat) : Tbl Inflight → Option (Byte × Option Nat)
  | [] => none
  | (_, e) :: t =>
    if e.dies.contains d then
      match Tbl.find e.old pa with
      | some b => some (b, (Tbl.find e.gens (pa / 64)).getD none)
      | none => oldByte d pa t
    else oldByte d pa t

/-- The stored byte that an agent's read finds, with the generation it stands under: a die's core sees what its die has
applied; an engine, the host or Taproot the coherence order's end. -/
def State.rawAt (s : State) (die : Option Nat) (pa : Nat) : Byte × Option Nat :=
  (match die with
    | some d => oldByte d pa s.inflight
    | none => none).getD (Mem.read s.mem pa, s.keyTags.find (pa / 64))

/-- A byte by agent, decrypted under the key (R254). -/
def State.byteAt (s : State) (die : Option Nat) (key pa : Nat) : Byte :=
  match s.rawAt die pa with
  | (b, none) => b
  | (b, some w) =>
    if w = s.keyGen key then b
    else Config.recrypt w (s.keyGen key) (pa / 16) ((List.range 16).map fun i => (s.rawAt die (pa / 16 * 16 + i)).1) (pa % 16)

def State.bytesAt (s : State) (die : Option Nat) (key pa : Nat) : Nat → List Byte
  | 0 => []
  | n + 1 => s.byteAt die key pa :: s.bytesAt die key (pa + 1) n

/-- The little-endian item of n bytes at pa. -/
def State.readPa (s : State) (die : Option Nat) (key pa n : Nat) : Word := BitVec.ofNat 64 (ofLe (s.bytesAt die key pa n))

/-- The sectors that n bytes from pa on touch, one at least. -/
def sectorsOf (pa n : Nat) : List Nat := (List.range ((pa + max n 1 - 1) / 64 - pa / 64 + 1)).map (pa / 64 + ·)

/-- Before a write under generation g, the rest of the sector becomes its decryption under g. -/
def State.rekeySector (g : Nat) (s : State) (sec : Nat) : State :=
  if isDevice (64 * sec) = false then s else
  match s.keyTags.find sec with
  | none => { s with keyTags := s.keyTags.put sec g }
  | some w => if w = g then s
              else { s with mem := Mem.writeN s.mem (sec * 64) ((List.range 64).map fun i => s.plain g (sec * 64 + i))
                            keyTags := s.keyTags.put sec g }

/-- The sectors of a write under generation g. -/
def State.rekey (s : State) (g pa n : Nat) : State := (sectorsOf pa n).foldl (State.rekeySector g) s

/-- Who writes (R232, R237): the threads whose write it is, or a command's tag; the core and die in whose order it enters at
once; the operation and author; the writes its message names and the releases its readers may meet. -/
structure Writer where
  thrs  : List Nat := []
  core  : Option Nat := none
  die   : Option Nat := none
  op    : Option Nat := none
  by_   : Author := .engine
  past  : List Nat := []
  heads : List RelHead := []
  /-- a leaf write of the hardware, which no walk of any die misses (R252) -/
  now   : Bool := false
  deriving DecidableEq, Repr

/-- The clock of die d: of the writes on their way, those it has applied (R237). -/
def State.clock (s : State) (d : Nat) : List Nat := (s.inflight.filter fun e => !e.2.dies.contains d).map (·.1)

/-- The full/empty bit of the word that holds pa: true is FULL (R228). -/
def State.full (s : State) (pa : Nat) : Bool := !s.empties.contains (pa / 8 * 8)

/-- The bit as die d sees it (R229, R236). -/
def oldFull (d w : Nat) : Tbl Inflight → Option Bool
  | [] => none
  | (_, e) :: t =>
    if e.dies.contains d then
      match Tbl.find e.oldFe w with
      | some b => some b
      | none => oldFull d w t
    else oldFull d w t

def State.fullAt (s : State) (die : Option Nat) (pa : Nat) : Bool :=
  match die with
  | some d => (oldFull d (pa / 8 * 8) s.inflight).getD (s.full pa)
  | none => s.full pa

def State.setFull (s : State) (pa : Nat) (b : Bool) : State :=
  { s with empties := if b then Addrs.del s.empties (pa / 8 * 8) else Addrs.add s.empties (pa / 8 * 8) }

/-! ## Copies in caches (R217, R218, R396, R398, R400, R401) -/

/-- The state of a sector in a core's L1: 0 I, 1 S, 2 E, 3 M. -/
def State.l1State (s : State) (core pa : Nat) : Nat :=
  match s.l1.find? (fun (l : L1Line) => l.core == core && l.line == pa / 256) with
  | some l => l.states.getD (pa / 64 % 4) 0
  | none => 0

/-- Lines that hold nothing leave the cache. -/
def l1Trim (l : List L1Line) : List L1Line := l.filter fun (x : L1Line) => x.states.any (· != 0)

/-- After a write of a sector no copy of it is left but the writer's: its core's copy is M, its die's state EX. A die that lost
its copy is late until it applies the write (R236, R237); a core that lost its line is no sharer of it any more, and a lost
sector keeps no waiter mark (R398, R406). -/
def State.ownSector (s : State) (core die : Option Nat) (pa : Nat) : State :=
  let sec := pa / 64 % 4
  let l1 := l1Trim (s.l1.map fun (l : L1Line) => if l.line = pa / 256 then
    { l with states := l.states.set sec (if core = some l.core ∧ l.states.getD sec 0 ≠ 0 then 3 else 0) } else l)
  let left := fun (c : Nat) => (s.l1.any fun (l : L1Line) => l.core == c && l.line == pa / 256) && !l1.any fun (l : L1Line) => l.core == c && l.line == pa / 256
  let held := core.elim false fun c => s.l1State c pa != 0
  let lost := [0, 1, 2, 3].filter fun d => die != some d && !s.late.contains (d, pa / 64) &&
    (((s.taproot.find (pa / 64)).getD []).getD d 0 != 0 ||
      s.l1.any fun (l : L1Line) => l.core / 512 == d && l.line == pa / 256 && l.states.getD sec 0 != 0)
  { s with
    late := s.late ++ lost.map fun d => (d, pa / 64)
    l1 := l1
    coreMarks := s.coreMarks.filter fun m => m.2 != pa / 64 || core == some m.1
    l2 := s.l2.map fun (l : L2Ent) => if l.line = pa / 256 then
      { l with ptrs := l.ptrs.filter fun c => !left c
               owners := l.owners.filter (fun o => o.1 != sec) ++ (if die = some l.die ∧ held then [(sec, core.getD 0)] else [])
               dirty := if die = some l.die then l.dirty else l.dirty.filter (· != sec) } else l
    taproot := s.taproot.filterMap fun e => if e.1 = pa / 64 then
      (let st := [0, 1, 2, 3].map fun d => if die = some d ∧ e.2.getD d 0 ≠ 0 then 2 else 0
       if st.all (· == 0) then none else some (e.1, st)) else some e }

/-- A line leaves a core's L1 and its eviction notice starts (R401). -/
def State.evictLine (s : State) (core line : Nat) : State :=
  match s.l1.find? (fun (l : L1Line) => l.core == core && l.line == line) with
  | none => s
  | some l =>
    { s with l1 := s.l1.erase l
             coreMarks := s.coreMarks.filter fun m => !(m.1 == core && m.2 / 4 == line)
             notices := s.notices ++ [{ core := core, line := line, dirty := (List.range 4).filter fun i => l.states.getD i 0 == 3 }] }

/-- Every copy of a frame's lines is written back and dropped (R222). -/
def State.dropCopies (s : State) (frame : Nat) : State :=
  { s with l1 := s.l1.filter fun (l : L1Line) => l.line / 256 != frame
           l2 := s.l2.filter fun (l : L2Ent) => l.line / 256 != frame
           coreMarks := s.coreMarks.filter fun m => m.2 / 1024 != frame
           taproot := s.taproot.filter fun e => e.1 / 1024 != frame }

/-- A write of an engine, the host or a peer makes a READONLY frame SHARED, once every die has invalidated its copies (R222,
R223). -/
def State.classAgentWrite (s : State) (pa : Nat) : State :=
  match s.frames.find (pa / 65536) with
  | some f => if f.cls = .readonly then { s.dropCopies (pa / 65536) with frames := s.frames.put (pa / 65536) { f with cls := .shared } } else s
  | none => s

/-- A read of an agent probes the copies of a sector: an owner's M or E copy stays as S, what was dirty lies in its die's L2, and
Taproot's EX becomes O or S (R223, R396, R399). -/
def State.shareSector (s : State) (sec : Nat) : State :=
  let i := sec % 4
  let dirty := fun (d : Nat) => (s.l1.any fun (l : L1Line) => l.core / 512 == d && l.line == sec / 4 && l.states.getD i 0 == 3) ||
    s.l2.any fun (l : L2Ent) => l.die == d && l.line == sec / 4 && l.dirty.contains i
  { s with
    l1 := s.l1.map fun (l : L1Line) => if l.line = sec / 4 then { l with states := l.states.set i (min 1 (l.states.getD i 0)) } else l
    l2 := s.l2.map fun (l : L2Ent) => if l.line = sec / 4 then
      { l with owners := l.owners.filter (fun o => o.1 != i), dirty := if dirty l.die then (l.dirty ++ [i]).dedup else l.dirty } else l
    taproot := s.taproot.map fun e => if e.1 = sec then
      (e.1, e.2.zipIdx.map fun x => if x.1 = 2 then (if dirty x.2 then 3 else 1) else x.1) else e }

/-- A write to a line of the page that a migration copies marks the line, unless the pass has still to read it; whether it has
is free (R266; notes/assumptions/1). -/
def Migration.mark (m : Migration) (read : Bool) (line : Nat) : Migration :=
  if m.src ≠ line / 256 * 65536 ∨ (m.todo.contains (line % 256) = true ∧ read = false) then m
  else { m with marked := Addrs.add m.marked (line % 256), todo := m.todo.filter (· != line % 256) }

/-- The stored bytes and generations that a write of bytes replaces: the whole of a sector that changes its key (R254). -/
def State.replaced (s : State) (g pa n : Nat) : List (Nat × Byte) × List (Nat × Option Nat) :=
  let secs := sectorsOf pa n
  let turned := secs.filter fun sec => isDevice (64 * sec) && (match s.keyTags.find sec with
    | some w => w != g
    | none => false)
  (((List.range n).map (pa + ·) ++ (turned.flatMap fun sec => (List.range 64).map (64 * sec + ·)).filter fun a => decide (a < pa) || decide (pa + n ≤ a)).map
      fun a => (a, Mem.read s.mem a),
   secs.map fun sec => (sec, s.keyTags.find sec))

/-- ONE WRITE: bytes at pa under a key, with the new bits of the words whose bits it sets, in one step; it enters the writer's
die order and is on its way to the other dies (R229, R231, R236, R237). No die misses a write that is there at once (R252); one
that ends a region's activity ends its use: the next is a first use again, and no die holds its W and O any more (R256). -/
def State.writeBits (s : State) (w : Writer) (key pa : Nat) (bs : List Byte) (fes : List (Nat × Bool)) : State :=
  let s1 := s.rekey (s.keyGen key) pa bs.length
  let old := s.replaced (s.keyGen key) pa bs.length
  let e : Inflight :=
    { thrs := w.thrs, op := w.op, by_ := w.by_, past := w.past, heads := w.heads
      dies := if w.now then [] else [0, 1, 2, 3].filter fun d => w.die != some d
      old := old.1, gens := old.2, oldFe := fes.map fun f => (f.1, s1.full f.1) }
  let away := s1.inflight.mapVals fun _ x => if w.now then { x with old := x.old.filter fun c => decide (c.1 < pa) || decide (pa + bs.length ≤ c.1) } else x
  let secs := sectorsOf pa bs.length
  let on := fun (r : Nat) => decide (r + 8 ≤ pa) || decide (pa + bs.length ≤ r) ||
    ({ s1 with mem := Mem.writeN s1.mem pa bs }.byteAt none 0 (r + 4)).toNat.testBit 4
  let s2 := secs.foldl (fun x sec => x.ownSector w.core w.die (64 * sec)) s1
  let s3 := { s2 with
    mem := Mem.writeN s1.mem pa bs, inflight := away.put s1.nextSeq e, nextSeq := s1.nextSeq + 1
    regSeen := s1.regSeen.filter on
    regions := s1.regions.filter fun v => on v.region
    migration := s1.migration.map fun m => secs.foldl (fun m sec => m.mark (s.pick 14 % 2 == 0) (sec / 4)) m }
  fes.foldl (fun x f => x.setFull f.1 f.2) s3

/-- A write of bytes, with the bit of the word at pa where it sets one. -/
def State.writePa (s : State) (w : Writer) (key pa : Nat) (bs : List Byte) (fe : Option Bool) : State :=
  s.writeBits w key pa bs (match fe with
    | some b => [(pa / 8 * 8, b)]
    | none => [])

/-- A hardware write of a word of a structure reached by physical address, under key 0 (R440), with the writes on their way
that happen-before it (R237); of a READONLY frame it makes a SHARED one (R223). -/
def State.hwWriteBy (s : State) (past : List Nat) (pa : Nat) (v : Word) : State :=
  (s.classAgentWrite pa).writePa { past := past } 0 pa (toLe 8 v.toNat) none

/-- A leaf that the hardware writes (R252). -/
def State.hwWriteLeaf (s : State) (pa : Nat) (v : Word) : State := s.writePa { now := true } 0 pa (toLe 8 v.toNat) none

def State.hwWrite (s : State) (pa : Nat) (v : Word) : State := s.hwWriteBy [] pa v

def State.hwRead (s : State) (pa : Nat) : Word := s.readPa none 0 pa 8

/-- The copies that Heartwood's reads of n bytes meet are probed (R223). -/
def State.hwProbe (s : State) (pa n : Nat) : State := (sectorsOf pa n).foldl State.shareSector s

def State.hwWriteAll (s : State) (pa : Nat) : List Word → State
  | [] => s
  | v :: vs => (s.hwWrite pa v).hwWriteAll (pa + 8) vs

/-- The hardware's own writes on their way, which a later entry of a ring covers as a release (R361, R431). -/
def State.hwPast (s : State) : List Nat := (s.inflight.filter fun e => e.2.by_ == .engine && e.2.thrs.isEmpty).map (·.1)

/-- An entry of a ring: its words one after another, each a release at .sys of those before it (R361, R388, R431). -/
def State.hwRelease (s : State) (past : List Nat) (pa : Nat) : List Word → State
  | [] => s
  | v :: vs => (s.writePa { past := past, heads := [{ by_ := .engine, scope := .sys, past := past }] } 0 pa (toLe 8 v.toNat) none).hwRelease (past ++ [s.nextSeq]) (pa + 8) vs

/-! ## Waking (R149, R207, R406) -/

/-- The waiter bit as whoever changes a word sees it: a core that holds the sector exclusively looks at its own mark, everybody
else at the home's bit (R406). -/
def State.waiterBit (s : State) (core : Option Nat) (pa : Nat) : Bool :=
  match core with
  | some c => if 2 ≤ s.l1State c pa then s.coreMarks.contains (c, pa / 64) else s.sectors.contains (pa / 64)
  | none => s.sectors.contains (pa / 64)

/-- A change of a word's state sends a wake to the home while the word's sector has its waiter bit set. -/
def State.wakeWord (s : State) (core : Option Nat) (pa : Nat) (nowFull : Bool) : State :=
  if s.waiterBit core pa then { s with wakes := s.wakes ++ [(pa / 8 * 8, nowFull)] } else s

/-- One write that sets the bits of some words, waking at those whose state changes (R149, R177, R208). -/
def State.writeWords (s : State) (w : Writer) (key pa : Nat) (bs : List Byte) (ws : List Nat) (b : Bool) : State :=
  (ws.filter fun a => s.full a != b).foldl (fun x a => x.wakeWord w.core a b) (s.writeBits w key pa bs (ws.map fun a => (a, b)))

/-- A write of a word that sets its bit, waking when the state changes. -/
def State.writeWordFe (s : State) (w : Writer) (key pa : Nat) (v : Option Word) (b : Bool) : State :=
  s.writeWords w key pa (match v with
    | some v => toLe 8 v.toNat
    | none => []) [pa / 8 * 8] b

/-! ## Leases on this package's lines (R412, R414) -/

/-- Emax of a line (R412). -/
def State.emax (s : State) (line : Nat) : Option Nat := (s.granted.find? fun (l : Lease) => l.line == line).map (·.expiry)

/-- A lease holds writes to its line back until Emax plus FB_SKEW (R414). -/
def State.leaseOver (s : State) (l : Lease) : Bool := l.expiry == 0 || decide (l.expiry + bits (s.reg (Off.fb 0x10)) 31 0 ≤ s.ptp)

/-- The name of the checkpoint block's accesses: no command has it. -/
def ckId : Nat := 2 ^ 62

/-- The name under which a lease counts a write of the hardware of die d. -/
def hwId (d : Nat) : Nat := 2 ^ 63 + d

/-- A write that a lease holds is still to be made. -/
def State.writeWaits (s : State) (q : Nat) : Bool :=
  (s.ops.find q).isSome || ((s.cmds.find q).any fun c => !c.done || c.stage == 0) || (s.heldWr.any fun (h : HeldWr) => h.id == q) || (q == ckId && s.ck.stage != 0)

/-- A write to a line, of the operation, command or held write named, waits while a lease of the line may be valid at a peer; the writes that
one has held go once LEASE_HOLD_EXPIRY has seen its end, in order of arrival, and before every other (R414). -/
def State.leaseFreeFor (s : State) (who : Option Nat) (pa : Nat) : Bool :=
  (s.granted.all fun l => l.line != pa / 256 ||
    (match l.held.filter fun q => s.writeWaits q || who == some q with
      | [] => s.leaseOver l
      | q :: _ => l.expiry == 0 && who == some q)) && !s.heldWr.any fun (h : HeldWr) => h.pa / 256 == pa / 256 && who != some h.id

def State.leaseFree (s : State) (pa : Nat) : Bool := s.leaseFreeFor none pa

/-- A write that must wait for a lease takes its place among those that the lease holds (R414). -/
def State.holdWrite (s : State) (id pa : Nat) : State :=
  { s with granted := s.granted.map fun l => if l.line = pa / 256 ∧ l.expiry ≠ 0 ∧ l.held.contains id = false then { l with held := l.held ++ [id] } else l }

/-- No lease, and no write that waits, holds back a write somewhere in n bytes from pa on (R414). -/
def State.rangeFree (s : State) (pa n : Nat) : Bool :=
  (s.granted.all fun l => decide (256 * l.line + 256 ≤ pa) || decide (pa + n ≤ 256 * l.line) || s.leaseFree (256 * l.line)) &&
  s.heldWr.all fun (h : HeldWr) => decide (h.pa + h.bytes.length ≤ pa) || decide (pa + n ≤ h.pa)

/-- A ring entry at pa, of die d's hardware, waits for a lease of its line, which counts it (R414; notes/assumptions/68). -/
def State.ringWaits (s : State) (d pa : Nat) : State := if s.leaseFree pa then s else s.holdWrite (hwId d) pa

/-! ## Reports to software (R361, R431) -/

/-- Ring sizes that open a ring: a power of two between lo and hi. -/
def ringOpen (n lo hi : Nat) : Bool := decide (lo ≤ n) && decide (n ≤ hi) && decide (2 ^ Nat.log2 n = n)

/-- Where die d's next report goes. -/
def State.frPlace (s : State) (d : Nat) : Nat := (s.reg (Off.fr d 0)).toNat + 64 * ((s.reg (Off.fr d 0x10)).toNat % (s.reg (Off.fr d 8)).toNat)

/-- One entry into the fault-report ring of die d if it has room and no lease holds it back (R361, R414). -/
def State.frWrite (s : State) (d : Nat) (e : List Word) : Option State :=
  let size := (s.reg (Off.fr d 8)).toNat
  let wr := s.reg (Off.fr d 0x10)
  if ringOpen size 64 (2 ^ 20) && decide ((wr - s.reg (Off.fr d 0x18)).toNat < size) && s.leaseFree (s.frPlace d) then
    some ((s.hwRelease s.hwPast (s.frPlace d) e).setReg (Off.fr d 0x10) (wr + 1))
  else none

/-- Reports of die d that wait for room, as FR_PEND counts them. -/
def State.frCount (s : State) (d : Nat) : State :=
  s.setReg (Off.fr d 0x20) (BitVec.ofNat 64 (s.frQueue.filter (fun e => e.1 == d)).length)

/-- A report entry: written when the ring has room and nothing waits before it, else it waits (R361). -/
def State.report (s : State) (d : Nat) (e : List Word) : State :=
  if (s.frQueue.filter (fun x => x.1 == d)).isEmpty then
    match s.frWrite d e with
    | some s1 => s1
    | none => ({ s with frQueue := s.frQueue ++ [(d, e)] }.ringWaits d (s.frPlace d)).frCount d
  else { s with frQueue := s.frQueue ++ [(d, e)] }.frCount d

/-- Where the next service entry goes. -/
def State.svPlace (s : State) : Nat := (s.reg (Off.sv 0)).toNat + 64 * ((s.reg (Off.sv 0x10)).toNat % (s.reg (Off.sv 8)).toNat)

/-- One entry into the service ring if it has room and no lease holds it back (R414, R431). -/
def State.svWrite (s : State) (e : List Word) : Option State :=
  let size := (s.reg (Off.sv 8)).toNat
  let wr := s.reg (Off.sv 0x10)
  if ringOpen size 64 (2 ^ 20) && decide ((wr - s.reg (Off.sv 0x18)).toNat < size) && s.leaseFree s.svPlace then
    some ((s.hwRelease s.hwPast s.svPlace e).setReg (Off.sv 0x10) (wr + 1))
  else none

/-- A service entry: written when the ring has room and nothing waits before it, else it waits (R431). -/
def State.serviceEntry (s : State) (e : List Word) : State :=
  let wait := ({ s with svQueue := s.svQueue ++ [e] }.ringWaits 0 s.svPlace).setReg (Off.sv 0x20) (BitVec.ofNat 64 (s.svQueue.length + 1))
  if s.svQueue.isEmpty then (s.svWrite e).getD wait else wait

/-- A service entry of a kind (R431): kind, context, e1 and e2. -/
def State.service (s : State) (kind ctx : Nat) (e1 e2 : Word) : State :=
  s.serviceEntry [pack [(kind, 0), (ctx, 32)], e1, e2, 0, 0, 0, 0, 0]

/-! ## Taking a fault (R351-R361) -/

def Cause.code : Cause → Nat
  | .illegal => 0x01 | .regrange => 0x02 | .badaddr => 0x03 | .misalign => 0x04 | .xlate => 0x05 | .perm => 0x06
  | .nonres => 0x07 | .mapconflict => 0x08 | .spbound => 0x09 | .fenotag => 0x0A | .noatom => 0x0B
  | .febudget => 0x0C | .parkfull => 0x0D | .uniform => 0x0E | .rsover => 0x0F | .rsunder => 0x10 | .nobar => 0x11
  | .barbal => 0x12 | .vnone => 0x13 | .vfuture => 0x14 | .vretired => 0x15 | .workingread => 0x16
  | .vnoframe => 0x17 | .accbound => 0x18 | .mxrange => 0x19 | .gausscap => 0x1A | .shtrange => 0x1B
  | .uncorr => 0x1C | .watch => 0x1D | .bkpt => 0x1E | .trap => 0x1F | .async => 0x20

def Kind.code : Kind → Nat
  | .none => 0 | .fetch => 1 | .load => 2 | .store => 3 | .atomic => 4 | .fe => 5 | .retstack => 6 | .versioned => 7
  | .scratch => 8 | .matrix => 9 | .engine => 10 | .traversal => 11 | .barrier => 12 | .shtable => 13

/-- The record of R354 for a fault at pc, by the instruction's parcels and the gang lane mask. Word w6 is zero for kind
fetch and for a record with an issue PC. -/
def FaultInfo.toRec (f : FaultInfo) (pc : Pc) (inst : Word) (lanes : Nat) : FRec where
  w0 := pc.setWidth 64
  w1 := pack [(f.source, 32), (f.tokenReg, 24), (f.code, 16), (f.kind.code, 12), (f.cause.code, 0)]
  w2 := f.addr
  w3 := pack [(f.trapCode, 32), (f.step % 2 ^ 32, 0)]
  w4 := BitVec.ofNat 64 lanes
  w5 := f.issuePc
  w6 := if f.kind = .fetch ∨ f.issuePc ≠ 0 then 0 else inst
  w7 := 0

/-- The words of a report entry: the record's w0-w6 and the thread's name (R363). -/
def reportWords (r : FRec) (ctx k : Nat) : List Word :=
  [r.w0, r.w1, r.w2, r.w3, r.w4, r.w5, r.w6, pack [(ctx, 32), (k, 0)]]

/-- frec_prev takes the old record, frec the new one (R356); the thread leaves its block table entry (R158), and the issue that was
to skip the watchpoints has been (R383). -/
def Thread.shift (t : Thread) (r : FRec) : Thread := { t with frecPrev := t.frec, frec := r, reissue := false, tabled := .out, skipWatch := false, faults := t.faults + 1 }

/-- Hardware mode goes to the handler unless the fault is inside it or there is none (R360). -/
def Thread.entersHandler (t : Thread) : Bool := !bit t.frec.w7 0 && t.tba != 0

/-- TAKING A FAULT, the one shared operation (R356, R359-R361): thread k at pc, instruction word inst, gang lane mask
lanes. In hardware mode the handler runs with the record active; otherwise the thread stays stopped and a report goes
to its die's ring. BKPT is always reported. -/
def State.takeFault (s : State) (k : Nat) (pc : Pc) (inst : Word) (lanes : Nat) (f : FaultInfo) : State :=
  match s.thread? k with
  | none => s
  | some t =>
    let r := f.toRec pc inst ((f.lanes).getD lanes)
    let hwMode := !bit (s.c0Of t) 26 && f.cause != .bkpt
    let r1 := if hwMode then { r with w7 := 1 } else r
    if hwMode && t.entersHandler then
      s.updThread k fun t => { t.shift r1 with pc := t.tba.setWidth 57, status := .run, readyAt := s.clk + 1 + Config.fetchDelay s.draws, since := 0, releases := 0 }
    else
      (s.updThread k fun t => { t.shift r1 with pc := pc, status := .fault, since := 0, releases := 0, reported := true }).report (dieOf k)
        (reportWords r1 (s.ctxOf t) k)

/-- RETURN FROM A FAULT (R365): the record's active bit falls and the PC is the record's, or past its instruction. The
issue that follows a WATCH stop skips the watchpoints once (R383). -/
def Thread.returnFromFault (t : Thread) (len : Nat) (skip : Bool) : Thread :=
  { t with frec := { t.frec with w7 := 0 }
           pc := if skip then (t.frec.w0 + BitVec.ofNat 64 len).setWidth 57 else t.frec.w0.setWidth 57
           skipWatch := !skip && bits t.frec.w1 7 0 == 0x1D }

/-! ## Barriers (R193-R197) -/

def State.barGet (s : State) : BarHome → Option Barrier
  | .block b i => (s.blocks.find b).bind fun x => if x.spent then none else x.bars[i]?
  | .grove g i => (s.groves.find g).bind fun x => if x.spent then none else x.bars[i]?
  | .span l i => (s.launches.find l).bind fun x => x.bars[i]?

/-- The barrier's level stands in a save image: what is on its way to it waits (R193, R369). -/
def State.levelSaved (s : State) (h : BarHome) : Bool :=
  match h with
  | .block b _ => s.ctxs.any fun c => c.2.kept.any fun k => k.bid == b
  | .grove g _ => s.ctxs.any fun c => c.2.kept.any fun k => k.block.grove == g
  | .span l _ => (s.launches.find l).any (·.saved)

def State.barSet (s : State) (h : BarHome) (v : Barrier) : State :=
  match h with
  | .block b i => { s with blocks := s.blocks.upd b fun x => { x with bars := x.bars.set i v } }
  | .grove g i => { s with groves := s.groves.upd g fun x => { x with bars := x.bars.set i v } }
  | .span l i => { s with launches := s.launches.upd l fun x => { x with bars := x.bars.set i v } }

/-- The status word of phase p with a status code (R196). -/
def statusWord (p code : Nat) : Word := pack [(p, 32), (code, 0)]

/-- Phase p has completed when the open phase is past it, modulo 2^32 (R196). -/
def phaseDone (b : Barrier) (p : Nat) : Bool := decide ((p + 2 ^ 32 - b.phase % 2 ^ 32) % 2 ^ 32 ≥ 2 ^ 31)

/-- The status of a completed phase p: the last one's, or PASSED (R196). -/
def phaseStatus (b : Barrier) (p : Nat) : Nat := if (p + 1) % 2 ^ 32 = b.phase % 2 ^ 32 then b.last else 2

/-- The bound on a barrier instruction's latency, by level (R191). -/
def BarHome.bound : BarHome → Nat
  | .block _ _ => 64
  | .grove _ _ => 256
  | .span _ _ => 1024

/-- The waiters of a completed phase get its status word (R191, R193, R196). -/
def releaseBar (h : BarHome) (p code clk : Nat) (o : Op) : Op :=
  match o.kind with
  | .barw h' p' dst => if h' = h ∧ p' = p then { o with kind := .result [.reg dst (statusWord p code) none], latest := some (max clk o.issueClk + h.bound) } else o
  | _ => o

/-- The threads whose wait for phase p an operation holds. -/
def waitsAt (h : BarHome) (p : Nat) (o : Op) : List Nat :=
  match o.kind with
  | .barw h' p' _ => if h' = h ∧ p' = p then o.recv else []
  | _ => []

/-- More writes happen-before what thread k does next; those that every die has applied are forgotten (R235). -/
def State.see (s : State) (k : Nat) (ids : List Nat) : State :=
  if ids.isEmpty then s else
  let h := (s.hbs.find k).getD {}
  { s with hbs := s.hbs.put k { h with seen := ((h.seen ++ ids).filter fun i => (s.inflight.find i).isSome).dedup } }

/-- The barrier after an event: a phase completes when every arrival has come and the balance is zero, and what the phase's
releases cover happens-before what its waiters do next (R193, R197). -/
def State.barPut (s : State) (h : BarHome) (b : Barrier) : State :=
  if b.arrivals = b.expected ∧ b.balance = 0 then
    let code := if b.abort then 1 else 0
    let b1 : Barrier := { phase := (b.phase + 1) % 2 ^ 32, expected := b.expected - b.fall, arrivals := 0, balance := 0,
                          abort := false, last := code, fall := 0, arrived := []
                          past := [], done := ((b.done ++ b.past).filter fun i => (s.inflight.find i).isSome).dedup }
    let s1 := { s.barSet h b1 with ops := (s.barSet h b1).ops.mapVals fun _ o => releaseBar h b.phase code s.clk o }
    (s.ops.flatMap fun e => waitsAt h b.phase e.2).foldl (fun x k => x.see k b1.done) s1
  else s.barSet h b

/-- The balance stays in a signed 32-bit range (R195). -/
def balanceFits (n : Int) : Bool := decide (-(2 ^ 31) ≤ n) && decide (n ≤ 2 ^ 31 - 1)

/-- The barriers that a thread is a member of. -/
def State.barsOf (s : State) (t : Thread) : List BarHome :=
  match s.blocks.find t.blk with
  | none => []
  | some b =>
    (List.range b.bars.length).map (BarHome.block t.blk) ++
    (match s.groves.find b.grove with
      | some g => (List.range g.bars.length).map (BarHome.grove b.grove)
      | none => []) ++
    (match s.launches.find b.launch with
      | some l => (List.range l.bars.length).map (BarHome.span b.launch)
      | none => [])

/-- A member is gone: expected falls at once, or from the next phase when it has arrived in this one (R194). The last one's end is its
level's, whose barriers are freed as they stand (R165, R390). -/
def State.memberGone (s : State) (k : Nat) (h : BarHome) : State :=
  match s.barGet h with
  | none => s
  | some b =>
    if b.arrived.contains k then s.barSet h { b with fall := b.fall + 1 }
    else if b.expected ≤ 1 then s
    else s.barPut h { b with expected := b.expected - 1 }

/-! ## Outstanding operations -/

/-- An operation enters with the next issue number. -/
def State.addOp (s : State) (o : Op) : State := { s with ops := s.ops.put s.nextSeq o, nextSeq := s.nextSeq + 1 }

/-- The landings that end an operation in each thread that receives it: results, then the flag and the hold. -/
def Op.ending (o : Op) (l : List Landing) : List Landing :=
  l ++ o.also ++ (match o.flag with
    | some f => [Landing.flagDown f]
    | none => []) ++ (if o.sync then [Landing.unsync] else [])

/-- Operation seq ends: its results land at the end of this clk in every receiver (R31, R33, R35). -/
def State.finishOp (s : State) (seq : Nat) (o : Op) (l : List Landing) : State :=
  o.recv.foldl (fun s k => s.landIn k seq s.clk (o.ending l)) { s with ops := s.ops.del seq }

/-- The return stack as it stood before an instruction whose spill or fill faults (R25). -/
def Thread.unstack (t : Thread) : OpKind → Thread
  | .spill _ v => { t with hw := v.setWidth 57 :: t.hw.dropLast, depth := t.depth - 1 }
  | .fill _ => { t with depth := t.depth + 1 }
  | _ => t

/-- The issue number under which an operation's results land in thread k: each member of one atomic step keeps that of its own
instruction (R33, R204). -/
def Op.numFor (o : Op) (seq k : Nat) : Nat :=
  match o.kind with
  | .atomic _ _ ms | .atoms _ _ _ _ ms => ((ms.find? fun m => m.thr == k).map (·.num)).getD seq
  | _ => seq

/-- What a sampled instruction's operation tells its sample (R388). -/
def State.sampleUpd (s : State) (seq : Nat) (f : Sample → Sample) : State :=
  { s with cores := s.cores.mapVals fun _ c => { c with samples := c.samples.map fun x => if x.lo ≤ seq ∧ seq < x.hi then f x else x } }

/-- Operation seq faults after issue: its thread stops there (R352), its return stack as before the instruction (R25), and the
operation is gone. -/
def State.faultOp (s : State) (seq : Nat) (o : Op) (f : FaultInfo) : State :=
  let lanes := o.recv.foldl (fun m k => m ||| 2 ^ laneOf k) 0
  (o.recv.foldl (fun (s : State) k => s.takeFault k o.pc o.word lanes f)
    (o.recv.foldl (fun (s : State) k => match o.flag with
        | some f => s.landIn k (o.numFor seq k) s.clk [Landing.flagDown f]
        | none => s) (o.recv.foldl (fun (s : State) k => s.updThread k (Thread.unstack · o.kind)) { s with ops := s.ops.del seq }))).sampleUpd seq fun x => if o.recv.contains x.member then { x with fault := some f.cause.code } else x

end Sys2Proof.Machine
end

