-- ==== Sys2Proof/Machine/Xlate.lean ====
section
/-! DEFINITION. Address translation: the walk of the page tables, permissions, the translation caches, versioned pages
and their page records (spec/14_translation_and_versions.md R248-R264). -/

namespace Sys2Proof.Machine

/-- Who translates: the die whose translation block names the root array, and the die order that the reads see, none for
an engine or a queue engine (R237, R248). -/
structure Agent where
  die  : Nat
  view : Option Nat
  deriving DecidableEq, Repr

/-- The agent of a core's thread. -/
def Agent.core (k : Nat) : Agent := { die := dieOf k, view := some (dieOf k) }

/-- A copy engine walks through the block of the die it sits beside, Heartwood and a peer access through CD0's (R248). -/
def Agent.engine (e : Nat) : Agent := { die := if e < 16 then e / 4 else 0, view := none }

/-- Its number in the translation caches. -/
def Agent.cache (a : Agent) : Nat := match a.view with
  | some d => d
  | none => 4 + a.die

/-- A leaf as a walk finds it (R250). -/
structure Leaf where
  word  : Word
  level : Nat
  at_   : Nat
  deriving DecidableEq, Repr

def Leaf.key (l : Leaf) : Nat := bits l.word 63 52
def Leaf.versioned (l : Leaf) : Bool := bit l.word 2
def Leaf.published (l : Leaf) : Bool := bit l.word 3
def Leaf.resident (l : Leaf) : Bool := bit l.word 7
def Leaf.record (l : Leaf) : Nat := bits l.word 51 8 * 256
def Leaf.frame (l : Leaf) : Nat := bits l.word 51 16 * 65536
def Leaf.policy (l : Leaf) : Nat := if l.versioned then 0 else bits l.word 9 8
/-- The bytes of the page less one (R249). -/
def Leaf.mask (l : Leaf) : Nat := if l.level = 0 then 0xFFFF else if l.level = 1 then 0x1FFFFF else 0x3FFFFFFF

/-- What the access needs (R251). -/
inductive Need where
  | read | write | fetch
  deriving DecidableEq, Repr

/-- Reserved fields of a table entry and the place of the next table (R250, R251). -/
def tableOk (e : Word) (lvl : Nat) : Bool :=
  bits e 63 52 == 0 && bits e 7 2 == 0 && isDevice (bits e 51 8 * 256) && (lvl == 1 || bits e 11 8 == 0)

/-- The frames a plain leaf may name (R219, R225, R251). -/
def State.frameOk (s : State) (f policy : Nat) : Bool :=
  (isDevice f || isHost f || (isPeer f && !(bit (s.reg (Off.fb 0)) 10 && f / 2 ^ 40 % 1024 == bits (s.reg (Off.fb 0)) 9 0))) &&
  (policy != 2 || isHost f)

/-- The checks of a leaf met at a level (R250, R251). -/
def State.leafOk (s : State) (e : Word) (lvl : Nat) : Bool :=
  if bit e 2 then lvl == 0 && isDevice (bits e 51 8 * 256)
  else decide (lvl ≤ 2) && bits e 15 10 == 0 && !bit e 3 && bits e 9 8 != 3 &&
    (lvl != 1 || bits e 20 16 == 0) && (lvl != 2 || bits e 29 16 == 0) &&
    s.frameOk (bits e 51 16 * 65536) (bits e 9 8)

/-- The index of a level (R249). -/
def levelIndex (va lvl : Nat) : Nat := if lvl = 0 then va / 2 ^ 16 % 32 else va / 2 ^ (12 + 9 * lvl) % 512

/-- The first address that an entry of a level translates, with which va shares it: level 5 is the root word (R248, R249). -/
def pteBase (va lvl : Nat) : Nat := if lvl = 5 then 0 else if lvl = 0 then va / 2 ^ 16 * 2 ^ 16 else va / 2 ^ (12 + 9 * lvl) * 2 ^ (12 + 9 * lvl)

/-- The entry that a walk reads at a: memory's, a coherent read at .pkg (R249), or an older one that the agent holds while no
invalidation has covered it; which of the two is free (R252; notes/assumptions/11). -/
def State.pteAt (s : State) (ag : Agent) (ctx va lvl a : Nat) : Word :=
  let w := s.readPa none 0 a 8
  match s.ptes.find? fun (e : PteEnt) => e.agent == ag.cache && e.ctx == ctx && e.level == lvl && e.base == pteBase va lvl with
  | none => w
  | some e => if e.word = w then w else if s.pick (2 ^ 60 + 8 * (va / 65536) + lvl) % 2 = 0 then w else e.word

/-- A table entry that leads on: the place of the next table (R250, R251). -/
def tableNext (e : Word) (lvl : Nat) : Option Nat :=
  if bits e 1 0 = 1 ∧ tableOk e lvl = true ∧ lvl ≠ 0 then some (bits e 51 8 * 256) else none

/-- A root word that leads on: the place of the first table (R248). -/
def rootNext (e : Word) : Option Nat :=
  if bit e 0 && bits e 63 52 == 0 && bits e 11 1 == 0 && isDevice (bits e 51 12 * 4096) then some (bits e 51 12 * 4096) else none

/-- The walk from a table down the levels that remain. none is XLATE (R251). -/
def State.walkFrom (s : State) (ag : Agent) (ctx va : Nat) (base : Nat) : List Nat → Option Leaf
  | [] => none
  | lvl :: rest =>
    let a := base + 8 * levelIndex va lvl
    let e := s.pteAt ag ctx va lvl a
    match tableNext e lvl with
    | some b => s.walkFrom ag ctx va b rest
    | none => if bits e 1 0 = 2 ∧ s.leafOk e lvl = true then some { word := e, level := lvl, at_ := a } else none

/-- The place of a context's root word (R248). -/
def State.rootAt (s : State) (ag : Agent) (ctx : Nat) : Nat := (s.reg (Off.xl ag.die 0)).toNat + 8 * ctx

/-- The walk of context ctx (R248, R249). -/
def State.walk (s : State) (ag : Agent) (ctx va : Nat) : Option Leaf :=
  (rootNext (s.pteAt ag ctx va 5 (s.rootAt ag ctx))).bind fun b => s.walkFrom ag ctx va b [4, 3, 2, 1, 0]

/-- The table entries that a walk from a table goes through. -/
def State.pathFrom (s : State) (ag : Agent) (ctx va : Nat) (base : Nat) : List Nat → List PteEnt
  | [] => []
  | lvl :: rest =>
    let e := s.pteAt ag ctx va lvl (base + 8 * levelIndex va lvl)
    match tableNext e lvl with
    | some b => { agent := ag.cache, ctx := ctx, level := lvl, base := pteBase va lvl, word := e } :: s.pathFrom ag ctx va b rest
    | none => []

/-- The root word and the table entries of a walk, which the agent may hold from then on (R252). -/
def State.path (s : State) (ag : Agent) (ctx va : Nat) : List PteEnt :=
  let e := s.pteAt ag ctx va 5 (s.rootAt ag ctx)
  match rootNext e with
  | some b => { agent := ag.cache, ctx := ctx, level := 5, base := 0, word := e } :: s.pathFrom ag ctx va b [4, 3, 2, 1, 0]
  | none => []

/-- The places of the entries that a walk goes through from a table on, with their levels. -/
def State.walkAt (s : State) (ag : Agent) (ctx va : Nat) (base : Nat) : List Nat → List (Nat × Nat)
  | [] => []
  | lvl :: rest =>
    let a := base + 8 * levelIndex va lvl
    (lvl, a) :: (match tableNext (s.pteAt ag ctx va lvl a) lvl with
      | some b => s.walkAt ag ctx va b rest
      | none => [])

/-- The places that a walk reads in memory: none where the agent holds the leaf, and none for an entry that it holds (R249, R252). -/
def State.walkReads (s : State) (ag : Agent) (ctx va : Nat) : List Nat :=
  if s.tlb.any (fun e => e.agent == ag.cache && e.ctx == ctx && decide (e.vpage = va / 2 ^ 16)) then [] else
  let root := s.rootAt ag ctx
  (((5, root) :: ((rootNext (s.pteAt ag ctx va 5 root)).elim [] fun b => s.walkAt ag ctx va b [4, 3, 2, 1, 0])).filter fun x =>
    !s.ptes.any fun (e : PteEnt) => e.agent == ag.cache && e.ctx == ctx && e.level == x.1 && e.base == pteBase va x.1).map (·.2)

/-- The entries of a walk enter the agent's cache, where it holds none for their place (R252). -/
def State.cachePath (s : State) (ag : Agent) (ctx va : Nat) : State :=
  { s with ptes := s.ptes ++ (s.path ag ctx va).filter fun (p : PteEnt) => !s.ptes.any fun (e : PteEnt) =>
      e.agent == p.agent && e.ctx == p.ctx && e.level == p.level && e.base == p.base }

/-- The cached leaf of a page, if one is held (R252). -/
def State.cached (s : State) (ag : Agent) (ctx va : Nat) : Option TlbEnt :=
  s.tlb.find? fun e => e.agent == ag.cache && e.ctx == ctx && decide (e.vpage = va / 2 ^ 16)

/-- The leaf an access uses: the walk's, or a cached older one while no invalidation has covered it; which of the two is
free (R252; notes/assumptions/11). -/
def State.leafOf (s : State) (ag : Agent) (ctx va : Nat) : Option Leaf :=
  let w := s.walk ag ctx va
  match s.cached ag ctx va with
  | none => w
  | some c =>
    let l : Leaf := { word := c.leaf, level := c.level, at_ := match w with
      | some x => x.at_
      | none => 0 }
    if w = some l then w else if s.pick (va / 65536) % 2 = 0 then w else some l

/-! ## Versioned pages (R255-R259) -/

/-- A region's W and O as an agent holds them: a die's applied values, or the descriptor's (R259). -/
def State.regionWO (s : State) (die : Option Nat) (region : Nat) : Nat × Nat :=
  match die with
  | some d =>
    match s.regions.find? (fun r => r.die == d && r.region == region) with
    | some r => (r.w, r.o)
    | none => (bits (s.hwRead region) 31 0, bits (s.hwRead (region + 8)) 31 0)
  | none => (bits (s.hwRead region) 31 0, bits (s.hwRead (region + 8)) 31 0)

/-- The step that a published view shows at W: W − 1, modulo 2^32 (R259, R354). -/
def stepBefore (w : Nat) : Nat := (w + (2 ^ 32 - 1)) % 2 ^ 32

/-- The checks of a descriptor that hold while it is active (R255, R256). -/
def State.regionActive (s : State) (region : Nat) : Bool :=
  let h := fun i => s.hwRead (region + 8 * i)
  region % 64 == 0 && isDevice region && bits (h 0) 63 37 == 0 && bit (h 0) 36 && decide (1 ≤ bits (h 0) 35 32) &&
  decide (bits (h 0) 35 32 ≤ 8) && bits (h 1) 63 32 == 0 && bits (h 3) 63 32 == 0 && decide (1 ≤ bits (h 3) 31 0) &&
  decide (bits (h 5) 31 0 ≤ bits (h 5) 63 32) && bits (h 6) 63 32 == 0 && h 7 == 0 && bits (h 4) 2 0 == 0

/-- The checks Heartwood makes of a descriptor: at its first use O must be W as well (R256). -/
def State.regionOk (s : State) (region : Nat) : Bool :=
  s.regionActive region && (s.regSeen.contains region || bits (s.hwRead region) 31 0 == bits (s.hwRead (region + 8)) 31 0)

/-- The region has been used (R256). -/
def State.useRegion (s : State) (region : Nat) : State := { s with regSeen := Addrs.add s.regSeen region }

/-- The valid chain slots of a page record as (slot, first, frame) (R257). -/
def State.slots (s : State) (rec_ : Nat) : List (Nat × Nat × Nat) :=
  (List.range 8).filterMap fun j =>
    let g := s.hwRead (rec_ + 8 * (4 + j))
    if bit g 0 then some (j, bits (s.hwRead (rec_ + 8 * (12 + j))) 31 0, bits g 51 16 * 65536) else none

/-- The working frame and its step (R257). -/
def State.wframe (s : State) (rec_ : Nat) : Nat := bits (s.hwRead rec_) 51 16 * 65536
def State.wstep (s : State) (rec_ : Nat) : Nat := bits (s.hwRead (rec_ + 8)) 31 0
def State.copying (s : State) (rec_ : Nat) : Bool := bit (s.hwRead (rec_ + 8)) 32
def State.regionOf (s : State) (rec_ : Nat) : Nat := (s.hwRead (rec_ + 16)).toNat

/-- The member with the largest first step. -/
def newest : List (Nat × Nat) → Option (Nat × Nat)
  | [] => none
  | c :: t => match newest t with
    | none => some c
    | some d => if d.1 ≤ c.1 then some c else some d

/-- The caches after an access used leaf l: the table entries and a resident leaf may be held (R252), and its region is in use
(R256). -/
def State.cacheLeaf (s0 : State) (ag : Agent) (ctx va : Nat) (l : Leaf) : State :=
  let s := s0.cachePath ag ctx va
  let s1 := if l.versioned then s.useRegion (s.regionOf l.record) else s
  if l.resident && (s.cached ag ctx va).isNone then
    { s1 with tlb := { agent := ag.cache, ctx := ctx, vpage := va / 2 ^ 16, leaf := l.word, level := l.level } :: s.tlb
              hostKinds := if !l.versioned && isHost l.frame then s.hostKinds.put ((l.frame + va % (l.mask + 1)) / 65536) (l.policy == 2) else s.hostKinds }
  else s1

/-- Resolve(rec, s) of R258: the frame that serves step st. -/
def State.resolve (s : State) (rec_ st : Nat) : Option Nat :=
  (newest (((s.slots rec_).filterMap fun x => if x.2.1 ≤ st then some (x.2.1, x.2.2) else none) ++
    (if s.wstep rec_ ≤ st then [(s.wstep rec_, s.wframe rec_)] else []))).map (·.2)

/-- Why an access cannot go on: a cause, or the page is not resident. -/
inductive AccErr where
  | fault (c : Cause)
  | away
  deriving DecidableEq, Repr

/-- Permission (R251): loads need r, writes need w and the working view, fetches x. -/
def Leaf.allows (l : Leaf) : Need → Bool
  | .read => bit l.word 4
  | .write => bit l.word 5 && !(l.versioned && l.published)
  | .fetch => bit l.word 6

/-- The frame that a versioned leaf's view gives: the working frame, or that of the newest published step, if any (R251,
R259). -/
def State.viewFrame (s : State) (ag : Agent) (l : Leaf) : Option Nat :=
  if l.published then
    let wo := s.regionWO ag.view (s.regionOf l.record)
    if wo.1 ≤ wo.2 then none else s.resolve l.record (wo.1 - 1)
  else some (s.wframe l.record)

/-- Steps 1 to 3 of R136 but for alignment: the address form, the walk and the permission. A versioned page's frame is looked at
whether or not the page is resident (R251); a leaf that is not resident enters no cache and meets no MAPCONFLICT (R227, R252);
MAPCONFLICT comes before PERM (notes/assumptions/60). -/
def State.leafFor (s : State) (ag : Agent) (ctx : Nat) (va : Word) (need : Need) : Except Cause Leaf :=
  if bits va 63 57 ≠ 0 then .error .badaddr else
  match s.leafOf ag ctx va.toNat with
  | none => .error .xlate
  | some l =>
    if l.versioned && (!s.regionOk (s.regionOf l.record) || (s.viewFrame ag l).any fun f => !isDevice f) then .error .xlate
    else if l.resident && !l.versioned && isHost l.frame && (s.hostKinds.find ((l.frame + va.toNat % (l.mask + 1)) / 65536)).any (fun k => k != (l.policy == 2)) then .error .mapconflict
    else if l.allows need then .ok l else .error .perm

/-- The physical address of a resident leaf's byte: the page's frame, the working frame, or the newest published step's
(R249, R259). A page that is not resident is away also where its published view has no retained step (notes/assumptions/60). -/
def State.place (s : State) (ag : Agent) (ctx : Nat) (va : Word) (size : Nat) (l : Leaf) : Except AccErr Access :=
  if !l.resident then .error .away else
  if l.versioned then
    let reg := s.regionOf l.record
    if l.published then
      let wo := s.regionWO ag.view reg
      if wo.1 ≤ wo.2 then .error (.fault .vretired) else
      match s.resolve l.record (wo.1 - 1) with
      | some f => if isDevice f then .ok { ctx := ctx, va := va.toNat, pa := f + va.toNat % 65536, size := size, key := l.key, policy := 0 }
                  else .error (.fault .xlate)
      | none => .error (.fault .vretired)
    else if isDevice (s.wframe l.record) then
      .ok { ctx := ctx, va := va.toNat, pa := s.wframe l.record + va.toNat % 65536, size := size, key := l.key, policy := 0, vrec := some l.record }
    else .error (.fault .xlate)
  else .ok { ctx := ctx, va := va.toNat, pa := l.frame + va.toNat % (l.mask + 1), size := size, key := l.key, policy := l.policy }

/-- An agent's whole check of one access: address, alignment, walk, permission, residency (R136 without the
watchpoints, which only threads meet). -/
def State.accessFor (s : State) (ag : Agent) (ctx : Nat) (va : Word) (size : Nat) (need : Need) : Except AccErr Access :=
  if bits va 63 57 ≠ 0 then .error (.fault .badaddr)
  else if va.toNat % size ≠ 0 then .error (.fault .misalign)
  else match s.leafFor ag ctx va need with
    | .error c => .error (.fault c)
    | .ok l => s.place ag ctx va size l

/-- A read of a word of a context's structure by an agent (R442). -/
def State.readVa (s : State) (ag : Agent) (ctx : Nat) (va : Word) : Except AccErr Word :=
  match s.accessFor ag ctx va 8 .read with
  | .error e => .error e
  | .ok a => .ok (s.readPa ag.view a.key a.pa 8)

/-- n words of a structure from va on. -/
def State.readVas (s : State) (ag : Agent) (ctx : Nat) (va : Word) : Nat → Except AccErr (List Word)
  | 0 => .ok []
  | n + 1 =>
    match s.readVa ag ctx va, s.readVas ag ctx (va + 8) n with
    | .ok v, .ok vs => .ok (v :: vs)
    | .error e, _ => .error e
    | _, .error e => .error e

end Sys2Proof.Machine
end

