-- ==== Sys2Proof/Machine/Operands.lean ====
section
/-! DEFINITION. Operands: how a gang issues an instruction (guard, register range, uniform bit, marks), the landing of
its results, and the checks of a thread's memory operand (spec/02_one_thread.md R20-R36, 07_isa_memory_access.md R135,
R136, 08_parallel_work.md R159-R162, 21_faults_and_preemption.md R352-R357, 22_debug_and_trace.md R381-R383). -/

namespace Sys2Proof.Machine

/-- The control fields that decide how an instruction issues (R65-R67). -/
structure Issue where
  len     : Nat
  guard   : Nat
  neg     : Bool
  flag    : Option Nat
  stall   : Nat
  uniform : Bool
  deriving DecidableEq, Repr

/-- C16: no guard, no flag, stall 0 or 3 (R65). -/
def issue16 (st : Bool) : Issue := { len := 2, guard := 7, neg := false, flag := none, stall := if st then 3 else 0, uniform := false }

/-- I32: no guard and no flag (R66). -/
def issue32 (k : Ctl32) : Issue := { len := 4, guard := 7, neg := false, flag := none, stall := k.stall.toNat, uniform := k.uniform }

/-- I64 (R67). -/
def issue64 (c : Ctl) : Issue :=
  { len := 8, guard := c.guard.toNat, neg := c.neg, flag := if c.set.toNat < 12 then some c.set.toNat else none,
    stall := c.stall.toNat, uniform := c.uniform }

/-- The guard of a thread (R21, R34). -/
def Issue.holds (q : Issue) (t : Thread) : Bool := t.pred q.guard != q.neg

/-- The thread of a key, or an empty one; every key of a gang names a thread. -/
def State.thr (s : State) (k : Nat) : Thread :=
  (s.threads.find k).getD { blk := 0, tid := 0, bslot := 0, pc := 0, n := 0, regs := [], preds := [], flags := [], hw := [], depth := 0, tba := 0, tlsbase := 0 }

/-- The lane mask of some threads (R353). -/
def laneMask (ks : List Nat) : Nat := ks.foldl (fun m k => m ||| 2 ^ laneOf k) 0

/-- The fault of the lowest marked register that the instruction reads (R357). -/
def asyncFault (t : Thread) (reads : List Nat) : Option FaultInfo :=
  match (List.range 64).find? (fun r => reads.contains r && (t.marks.find r).isSome) with
  | none => none
  | some r => (t.marks.find r).map fun m =>
    { cause := if m.source = 20 then .uncorr else .async, addr := m.addr, source := m.source, tokenReg := r, code := m.code, step := m.step, issuePc := m.issuePc }

/-- Faults of one issue are raised together: every record's mask lists all members that faulted, unless the fault names
its own (R353, R161, R162). A WATCH sets the bits of the comparators that matched (R382); a reported mark is cleared in the member
that read the register (R161, R357). -/
def State.raiseAll (s : State) (fs : List (Nat × Pc × FaultInfo)) : State :=
  fs.foldl (fun s f =>
      let s1 := if f.2.2.hits = 0 then s else
        s.setReg (Off.dbg (coreOf f.1) 0x60) (s.reg (Off.dbg (coreOf f.1) 0x60) ||| BitVec.ofNat 64 f.2.2.hits)
      let s2 := if f.2.2.reader = some f.1 then
          s1.updThread f.1 fun t => { t with marks := t.marks.del f.2.2.tokenReg }
        else s1
      s2.takeFault f.1 f.2.1 s.inst (laneMask (fs.map (·.1))) f.2.2) s

/-- An issue that takes place: the next instruction may issue after the stall and its fetch (R30, R67), the named flag
rises at the end of the clk when the guard is true (R33), and the PC moves on unless the instruction set it (R22).
A thread held at acceptance has not issued (R271). -/
def State.issued (s : State) (q : Issue) (k seq : Nat) (guardTrue adv : Bool) : State :=
  s.updThread k fun t =>
    let t1 := { t with readyAt := s.clk + 1 + q.stall + Config.fetchDelay s.draws, since := 0, skipWatch := false
                       pc := if adv then t.pc + BitVec.ofNat 57 q.len else t.pc }
    let t2 := match t.status with
      | .sync _ => t1
      | .form _ _ _ _ _ => t1
      | _ => t1.succeeded
    match t.status, guardTrue, q.flag with
    | .held _ _, _, _ => t
    | _, true, some f => t2.queue { landClk := s.clk, seq := seq, what := .flagUp f }
    | _, _, _ => t2

/-- What one execution does: from the state, the executing member and the members that receive its results. -/
abbrev Body := State → Nat → List Nat → Except FaultInfo State

/-- One execution after another; those that fault leave the state as it was and are collected. -/
def runGroups (q : Issue) (reads : List Nat) (adv : Bool) (body : Body) :
    List (Nat × List Nat) → State → List (Nat × Pc × FaultInfo) → State × List (Nat × Pc × FaultInfo)
  | [], s, fs => (s, fs)
  | (l, recv) :: rest, s, fs =>
    let out := match asyncFault (s.thr l) reads with
      | some f => Except.error { f with reader := some l }
      | none => body s l recv
    match out with
    | .ok s1 => runGroups q reads adv body rest (recv.foldl (fun x k => x.issued q k s.nextSeq true adv) s1) fs
    | .error f => runGroups q reads adv body rest s (fs ++ recv.map fun k => (k, (s.thr k).pc, f))

/-- The executions of an issue over the members with a true guard: one for the gang under the uniform bit, else one for
each member (R159, R161). -/
def groupsOf (q : Issue) (ts : List Nat) : List (Nat × List Nat) :=
  if q.uniform then
    match ts with
    | [] => []
    | l :: _ => [(l, ts)]
  else ts.map fun k => (k, [k])

/-- The members whose register operands differ from the executing member's (R162). -/
def differing (s : State) (ts : List Nat) (reads : List Nat) : List Nat :=
  match ts with
  | [] => []
  | l :: _ => ts.filter fun k => reads.any fun r => (s.thr k).reg r != (s.thr l).reg r

/-- THE ISSUE of one instruction by the gang (R20, R34, R73, R159-R162): register range, guard, uniform check, then the
executions; members whose guard is false only move on. adv says that the PC moves past the instruction. -/
def State.runGang (s : State) (q : Issue) (named reads : List Nat) (adv : Bool) (body : Body) : State :=
  let bad := s.gang.filter fun k => named.any fun r => decide ((s.thr k).n ≤ r)
  if bad.isEmpty then
    let ts := s.gang.filter fun k => q.holds (s.thr k)
    let fs := s.gang.filter fun k => !q.holds (s.thr k)
    let diff := if q.uniform && ts.any (fun k => bit (s.c0Of (s.thr k)) 1) then differing s ts reads else []
    let s1 := fs.foldl (fun x k => x.issued q k s.nextSeq false true) s
    if diff.isEmpty then
      let r := runGroups q reads adv body (groupsOf q ts) s1 []
      r.1.raiseAll r.2
    else s1.raiseAll (ts.map fun k => (k, (s.thr k).pc, { cause := .uniform, lanes := some (laneMask diff) }))
  else s.raiseAll (s.gang.map fun k => (k, (s.thr k).pc, { cause := .regrange }))

/-- A refused TOUCH whose flag has fallen (R144). -/
def Thread.touchDue (t : Thread) : Option (Word × Pc × Nat) :=
  t.touchErr.find? fun e => !t.writes.any fun w => w.seq == e.2.2 && (match w.what with
    | .flagDown _ => true
    | .reg _ _ _ | .pred _ _ | .flagUp _ | .tba _ | .unsync => false)

/-- A fault is due before the thread's next instruction (R144, R316). -/
def Thread.faultDue (t : Thread) : Bool := t.touchDue.isSome || !t.mxErr.isEmpty

/-! ## Results -/

/-- A fixed-latency result: it lands at the end of clk t + L − 1, and the named flag falls then (R31, R33). -/
def State.fixed (s : State) (q : Issue) (lat : Nat) (recv : List Nat) (l : List Landing) : State :=
  { recv.foldl (fun x k => x.landIn k s.nextSeq (s.clk + lat - 1) (l ++ (match q.flag with
      | some f => [Landing.flagDown f]
      | none => []))) s with nextSeq := s.nextSeq + 1 }

/-- An instruction of class I2 (lat 2) or F4 (lat 4) whose landings are a function of the executing member. -/
def State.fixedOp (s : State) (q : Issue) (lat : Nat) (named reads : List Nat) (f : Thread → List Landing) : State :=
  s.runGang q named reads true fun s l recv => .ok (s.fixed q lat recv (f (s.thr l)))

/-- A fixed-latency instruction of one destination and two sources. -/
def State.rrr (s : State) (q : Issue) (lat vd va vb : Nat) (f : Word → Word → Word) : State :=
  s.fixedOp q lat [vd, va, vb] [va, vb] fun t => [.reg vd (f (t.reg va) (t.reg vb)) none]

/-- A fixed-latency instruction of one destination and one source. -/
def State.rr (s : State) (q : Issue) (lat vd va : Nat) (f : Word → Word) : State :=
  s.fixedOp q lat [vd, va] [va] fun t => [.reg vd (f (t.reg va)) none]

/-- A fixed-latency compare of two registers into a predicate. -/
def State.prr (s : State) (q : Issue) (lat pd va vb : Nat) (f : Word → Word → Bool) : State :=
  s.fixedOp q lat [va, vb] [va, vb] fun t => [.pred pd (f (t.reg va) (t.reg vb))]

/-- An operation outstanding for the members that receive it; without a flag each of them is held until it lands when
the instruction is synchronous (R33, R35). A latency of L clk counted from issue lands at the end of clk t + L − 1, as R31
counts it (notes/assumptions/13). -/
def State.startOp (s : State) (q : Issue) (sync : Bool) (ord : Order) (l : Nat) (recv : List Nat) (lat : Nat × Option Nat) (k : OpKind) (also : List Landing := []) : State :=
  let s1 := s.addOp { thr := l, recv := recv, pc := (s.thr l).pc, word := s.inst, issueClk := s.clk, earliest := s.clk + lat.1 - 1, latest := lat.2.map (s.clk + · - 1),
                      flag := q.flag, sync := sync, ord := ord, also := also, kind := k }
  if sync then recv.foldl (fun x k => x.updThread k fun t => { t with status := .sync s.nextSeq }) s1 else s1

/-- The latency between lo and hi clk of a class V instruction, known by a number, on operand bits (R94, R124). -/
def latencyOf (id lo hi a b : Nat) : Nat := lo + Config.latency id a b % (hi - lo + 1)

/-- A class V instruction whose result and latency are known at issue. -/
def State.resultOp (s : State) (q : Issue) (lat : Thread → Nat) (named reads : List Nat) (f : Thread → List Landing) : State :=
  s.runGang q named reads true fun s l recv =>
    .ok (s.startOp q q.flag.isNone {} l recv (lat (s.thr l), some (lat (s.thr l))) (.result (f (s.thr l))))

/-! ## Memory operands -/

/-- a := Reg(va) + SignExt(offset), 64 bits (R135). -/
def Thread.ea (t : Thread) (va : Nat) (off : BitVec 12) : Word := t.reg va + off.signExtend 64

/-- The comparators of the thread's core that match an access (R381). -/
def State.watchHits (s : State) (k : Nat) (t : Thread) (a : Word) (size : Nat) (rd wr : Bool) : Nat :=
  (List.range 4).foldl (fun m w =>
    let r := fun o => s.reg (Off.dbg (coreOf k) (0x18 * w + o))
    let c := r 0x10
    if bit c 0 && ((bit c 1 && rd) || (bit c 2 && wr)) && !(bit c 3 && bit t.frec.w7 0) &&
       (!bit c 14 || bits c 13 4 == s.ctxOf t) && decide (a.toNat ≤ (r 8).toNat) && decide ((r 0).toNat ≤ a.toNat + size - 1) && decide ((r 0).toNat ≤ (r 8).toNat)
    then m ||| 2 ^ w else m) 0

/-- Steps 1 to 4 of R136 for thread k: address, alignment, translation and permission, watchpoints; the leaf found. -/
def State.check4 (s : State) (k : Nat) (t : Thread) (a : Word) (align size : Nat) (need : Need) (rd wr : Bool) (kind : Kind) : Except FaultInfo Leaf :=
  if bits a 63 57 ≠ 0 then .error { cause := .badaddr, kind := kind, addr := a }
  else if a.toNat % align ≠ 0 then .error { cause := .misalign, kind := kind, addr := a }
  else match s.leafFor (Agent.core k) (s.ctxOf t) a need with
    | .error c => .error { cause := c, kind := kind, addr := a }
    | .ok l =>
      let h := if t.skipWatch then 0 else s.watchHits k t a size rd wr
      if h ≠ 0 then .error { cause := .watch, kind := kind, addr := a, hits := h } else .ok l

/-- Steps 1 to 5 for an access without a residency predicate: a page that is away raises NONRES (R137). -/
def State.check5 (s : State) (k : Nat) (t : Thread) (a : Word) (align size : Nat) (need : Need) (rd wr : Bool) (kind : Kind) : Except FaultInfo Access :=
  match s.check4 k t a align size need rd wr kind with
  | .error f => .error f
  | .ok l =>
    match s.place (Agent.core k) (s.ctxOf t) a size l with
    | .error (.fault c) => .error { cause := c, kind := kind, addr := a, step := stepBefore (s.regionWO (some (dieOf k)) (s.regionOf l.record)).1 }
    | .error .away => .error { cause := .nonres, kind := kind, addr := a }
    | .ok x => .ok x

/-! ## Frame classes (R221, R222) -/

/-- The tenant of a context, by its entry (R172, R402). -/
def State.tenantOf (s : State) (ctx : Nat) : Nat := (s.tenants.find ctx).getD 0

/-- The frame's class lets die d go on without reclassification (R222). -/
def State.classOk (s : State) (d pa : Nat) (write : Bool) : Bool :=
  if isDevice pa then
    match ((s.frames.find (pa / 65536)).getD {}).cls with
    | .unseen => true
    | .priv e => e == d
    | .readonly => !write
    | .shared => true
  else true

/-- The class and tenant field after an access of die d that was served (R222, R402). -/
def State.classTouch (s : State) (d ctx pa : Nat) : State :=
  if isDevice pa then
    let f := (s.frames.find (pa / 65536)).getD {}
    let t := s.tenantOf ctx + 1
    let cls := match f.cls with
      | .unseen => FClass.priv d
      | c => c
    let ten := if f.tenant = 0 then t else if f.tenant = t then t else 1025
    { s with frames := s.frames.put (pa / 65536) { cls := cls, tenant := ten } }
  else s

/-- A frame whose class holds the access is reclassified within the access (R222). -/
def State.classServe (s : State) (d pa : Nat) (write : Bool) : State :=
  if s.classOk d pa write then s
  else { s.dropCopies (pa / 65536) with frames := s.frames.put (pa / 65536) { (s.frames.find (pa / 65536)).getD {} with cls := .shared } }

/-- The frames of the tables that a walk of thread k's core reads: each read is one of its die (R222, R249). -/
def State.walked (s : State) (k ctx va : Nat) : State :=
  (s.walkReads (Agent.core k) ctx va).foldl (fun x pa => (x.classServe (dieOf k) pa false).classTouch (dieOf k) ctx pa) s

/-- The caches after thread k used the leaf of a, and the classes of the frames that its walk has read (R222, R249, R252). -/
def State.used (s : State) (k : Nat) (t : Thread) (a : Word) : State :=
  match s.leafOf (Agent.core k) (s.ctxOf t) a.toNat with
  | some l => (s.walked k (s.ctxOf t) a.toNat).cacheLeaf (Agent.core k) (s.ctxOf t) a.toNat l
  | none => s

end Sys2Proof.Machine
end

