-- ==== Sys2Proof/Machine/Flags.lean ====
section
/-! DEFINITION. What integer, predicate and compare instructions compute: results at a width, their extension, and the
conditions that compares write into predicates, which are this machine's flags
(spec/05_isa_integer_control.md R84-R101). -/

namespace Sys2Proof.Machine

/-- The width in bits (R84). -/
def widthBits : Width → Nat
  | .w64 => 64 | .w32 => 32 | .w16 => 16 | .w8 => 8

/-- The two's complement value of the low w bits (R85). -/
def sval (w : Nat) (v : Word) : Int := Int.bmod v.toNat (2 ^ w)

/-- The unsigned value of the low w bits (R85). -/
def nval (w : Nat) (v : Word) : Int := (v.toNat % 2 ^ w : Nat)

/-- The low w bits of an exact result, sign- or zero-extended to 64 (R85). -/
def narrow (w : Nat) (sx : Bool) (res : Int) : Word :=
  BitVec.ofInt 64 (if sx then Int.bmod res (2 ^ w) else res % (2 ^ w : Nat))

/-- Which bits of a number below 2^w are set, as a number. -/
def bitsWhere (w : Nat) (f : Nat → Bool) : Nat := (List.range w).foldl (fun m i => if f i then m + 2 ^ i else m) 0

/-- The number of leading positions, from bit w − 1 down, where f is false (R89). -/
def leadZeros (f : Nat → Bool) : Nat → Nat
  | 0 => 0
  | w + 1 => if f w then 0 else leadZeros f w + 1

/-- The two-operand and one-operand operations (R87-R89). -/
inductive IOp where
  | add | sub | mul | mulhS | mulhN | minS | minN | maxS | maxN | abs | neg | and | andn | or | xor | not
  | shl | shr | sar | rot | popc | clz | ctz | brev
  deriving DecidableEq, Repr

/-- Op(a, b) of R87 to R89 at width w, exact, on the values R85 reads. A shift takes its amount from bits [5:0] of b. -/
def IOp.eval (o : IOp) (w : Nat) (a b : Word) : Int :=
  let n := b.toNat % 64
  let u := a.toNat % 2 ^ w
  match o with
  | .add => nval w a + nval w b
  | .sub => nval w a - nval w b
  | .mul => nval w a * nval w b
  | .mulhS => (sval w a * sval w b) / (2 ^ w : Nat)
  | .mulhN => (nval w a * nval w b) / (2 ^ w : Nat)
  | .minS => if sval w b < sval w a then sval w b else sval w a
  | .minN => if nval w b < nval w a then nval w b else nval w a
  | .maxS => if sval w a < sval w b then sval w b else sval w a
  | .maxN => if nval w a < nval w b then nval w b else nval w a
  | .abs => if sval w a < 0 then -sval w a else sval w a
  | .neg => -nval w a
  | .and => ((a &&& b).toNat : Nat)
  | .andn => ((a &&& ~~~b).toNat : Nat)
  | .or => ((a ||| b).toNat : Nat)
  | .xor => ((a ^^^ b).toNat : Nat)
  | .not => ((~~~a).toNat : Nat)
  | .shl => if n < w then (u * 2 ^ n : Nat) else 0
  | .shr => if n < w then (u / 2 ^ n : Nat) else 0
  | .sar => if n < w then sval w a / (2 ^ n : Nat) else if sval w a < 0 then -1 else 0
  | .rot => (u * 2 ^ (n % w) + u / 2 ^ (w - n % w) : Nat)
  | .popc => ((List.range w).foldl (fun c i => if u.testBit i then c + 1 else c) 0 : Nat)
  | .clz => (leadZeros (fun i => u.testBit i) w : Nat)
  | .ctz => (leadZeros (fun i => u.testBit (w - 1 - i)) w : Nat)
  | .brev => (bitsWhere w (fun i => u.testBit (w - 1 - i)) : Nat)

/-- A widened form's result (R85). -/
def IOp.result (o : IOp) (w : Nat) (sx : Bool) (a b : Word) : Word := narrow w sx (o.eval w a b)

/-- Conditions of SETP (R98). -/
def ICond.holds (c : ICond) (w : Nat) (a b : Word) : Bool :=
  match c with
  | .eq => nval w a == nval w b
  | .ne => nval w a != nval w b
  | .ltS => decide (sval w a < sval w b)
  | .leS => decide (sval w a ≤ sval w b)
  | .ltN => decide (nval w a < nval w b)
  | .leN => decide (nval w a ≤ nval w b)

/-- DIV and REM: the quotient truncates toward zero, the remainder has the dividend's sign; division by zero gives all
ones and the dividend (R94). -/
def divRem (w : Nat) (sg isDiv : Bool) (a b : Word) : Word :=
  let x := if sg then sval w a else nval w a
  let y := if sg then sval w b else nval w b
  narrow w sg (if isDiv then (if y = 0 then -1 else Int.tdiv x y) else (if y = 0 then x else Int.tmod x y))

/-- BFX (R92). -/
def bfxResult (pos len : Nat) (sx : Bool) (a : Word) : Word := narrow len sx (a.toNat / 2 ^ pos : Nat)

/-- The mask of len bits from pos. -/
def fieldMask (pos len : Nat) : Word := BitVec.ofNat 64 ((2 ^ len - 1) * 2 ^ pos)

/-- BFI (R93). -/
def bfiResult (pos len : Nat) (d a : Word) : Word := (d &&& ~~~fieldMask pos len) ||| ((a <<< pos) &&& fieldMask pos len)

/-- The predicates as a byte, bit 7 being p7 (R100). -/
def predByte (t : Thread) : Word := BitVec.ofNat 64 (bitsWhere 8 t.pred)

end Sys2Proof.Machine
end

