-- ==== Sys2Proof/Machine/Formats.lean ====
section
/-! DEFINITION. The floating formats, rounding of exact results, NaN rules, conversions and the approximating functions
(spec/03_number_formats.md R41-R62, spec/06_isa_floating_point.md R115-R134). -/

namespace Sys2Proof.Machine

/-- A floating format (R44): exponent and fraction widths, bias, and whether it has a sign and an infinity. -/
structure Fmt where
  e      : Nat
  f      : Nat
  bias   : Int
  signed : Bool := true
  inf    : Bool := true
  deriving DecidableEq, Repr

def Fmt.d : Fmt := { e := 11, f := 52, bias := 1023 }
def Fmt.s : Fmt := { e := 8, f := 23, bias := 127 }
def Fmt.h : Fmt := { e := 5, f := 10, bias := 15 }
def Fmt.bf : Fmt := { e := 8, f := 7, bias := 127 }
def Fmt.e5m2 : Fmt := { e := 5, f := 2, bias := 15 }
def Fmt.e4m3 : Fmt := { e := 4, f := 3, bias := 7, inf := false }
def Fmt.e2m1 : Fmt := { e := 2, f := 1, bias := 1, inf := false }
def Fmt.e3m5 : Fmt := { e := 3, f := 5, bias := 3, signed := false, inf := false }

/-- The format of an arithmetic type (R113). -/
def FTy.fmt : FTy → Fmt
  | .d => Fmt.d
  | .f => Fmt.s

/-- The format of a floating type code (R43). -/
def TyCode.fmt : TyCode → Fmt
  | .f => Fmt.s | .h => Fmt.h | .bf => Fmt.bf | .e4m3 => Fmt.e4m3 | .e5m2 => Fmt.e5m2 | .e2m1 => Fmt.e2m1
  | .e3m5 => Fmt.e3m5
  | .d | .s8 | .s16 | .s32 | .s64 | .n8 | .n16 | .n32 | .n64 => Fmt.d

/-- Width and signedness of an integer type code (R41). -/
def TyCode.intW : TyCode → Nat × Bool
  | .s8 => (8, true) | .s16 => (16, true) | .s32 => (32, true) | .s64 => (64, true)
  | .n8 => (8, false) | .n16 => (16, false) | .n32 => (32, false) | .n64 => (64, false)
  | .d | .f | .h | .bf | .e4m3 | .e5m2 | .e2m1 | .e3m5 => (64, false)

/-- Bits of an item (R41, R44). -/
def TyCode.width : TyCode → Nat
  | .s8 | .n8 | .e4m3 | .e5m2 | .e3m5 => 8
  | .s16 | .n16 | .h | .bf => 16
  | .s32 | .n32 | .f => 32
  | .s64 | .n64 | .d => 64
  | .e2m1 => 4

def Fmt.emin (m : Fmt) : Int := 1 - m.bias
def Fmt.width (m : Fmt) : Nat := m.e + m.f + (if m.signed then 1 else 0)
/-- The sign bit's weight as a field, zero for .e3m5. -/
def Fmt.signBit (m : Fmt) (neg : Bool) : Nat := if neg && m.signed then 2 ^ (m.e + m.f) else 0
/-- The encoding of the maximum finite magnitude (R44). -/
def Fmt.maxCode (m : Fmt) : Nat :=
  if m.inf then 2 ^ (m.e + m.f) - 2 ^ m.f - 1
  else if m.f = 1 then 2 ^ (m.e + m.f) - 1 else 2 ^ (m.e + m.f) - 2
def Fmt.infCode (m : Fmt) : Nat := 2 ^ (m.e + m.f) - 2 ^ m.f
/-- The default NaN (R46); .e2m1 has none and an invalid result gives +0 (R52). -/
def Fmt.nanCode (m : Fmt) : Nat :=
  if m.inf then m.infCode + 2 ^ (m.f - 1) else if m.f = 1 then 0 else 2 ^ (m.e + m.f) - 1

/-- A value: a NaN with sign, fraction and the fraction's width, an infinity, or a signed magnitude. -/
inductive FVal where
  | nan (neg : Bool) (frac width : Nat)
  | inf (neg : Bool)
  | fin (neg : Bool) (mag : Rat)
  deriving DecidableEq, Repr

/-- x · 2^k. -/
def scale2 (x : Rat) (k : Int) : Rat := if 0 ≤ k then x * (2 ^ k.toNat : Nat) else x / (2 ^ (-k).toNat : Nat)

/-- The value of an encoding (R45, R46). -/
def Fmt.value (m : Fmt) (bits_ : Nat) : FVal :=
  let neg := m.signed && bits_.testBit (m.e + m.f)
  let ef := bits_ / 2 ^ m.f % 2 ^ m.e
  let fr := bits_ % 2 ^ m.f
  if m.inf && ef == 2 ^ m.e - 1 then (if fr = 0 then .inf neg else .nan neg fr m.f)
  else if !m.inf && m.f != 1 && ef == 2 ^ m.e - 1 && fr == 2 ^ m.f - 1 then .nan neg fr m.f
  else if ef = 0 then .fin neg (scale2 (fr : Nat) (m.emin - m.f))
  else .fin neg (scale2 ((2 ^ m.f + fr : Nat) : Rat) ((ef : Int) - m.bias - m.f))

/-- floor(log2 x) of a positive rational. -/
def floorLog2 (x : Rat) : Int :=
  let k : Int := (Nat.log2 x.num.natAbs : Int) - (Nat.log2 x.den : Int)
  if scale2 1 k ≤ x then k else k - 1

/-- RoundInt of a magnitude under a mode and sign (R47). -/
def roundInt (rm : Rm) (neg : Bool) (n : Rat) : Nat :=
  let fl := n.num.natAbs / n.den
  let r2 := 2 * (n.num.natAbs % n.den)
  match rm with
  | .rne => if n.den < r2 ∨ (r2 = n.den ∧ fl % 2 = 1) then fl + 1 else fl
  | .rz => fl
  | .rup => if neg || r2 == 0 then fl else fl + 1
  | .rdn => if !neg || r2 == 0 then fl else fl + 1
  | .rna => if n.den ≤ r2 then fl + 1 else fl

/-- Overflow (R49). -/
def Fmt.overflow (m : Fmt) (sat : Bool) (rm : Rm) (neg : Bool) : Nat :=
  let big := m.signBit neg + m.maxCode
  if !m.inf || sat then big else
  match rm with
  | .rz => big
  | .rup => if neg then big else m.infCode
  | .rdn => if neg then m.signBit neg + m.infCode else big
  | .rne | .rna => m.signBit neg + m.infCode

/-- The encoding of m2 · 2^q, where the significand is at most 2^p and q is the quantum (R45). -/
def Fmt.encodeFin (m : Fmt) (neg : Bool) (m2 : Nat) (q : Int) : Nat :=
  let m3 := if m2 = 2 ^ (m.f + 1) then 2 ^ m.f else m2
  let q3 := if m2 = 2 ^ (m.f + 1) then q + 1 else q
  m.signBit neg + (if m3 < 2 ^ m.f then m3 else (q3 + m.f + m.bias).toNat * 2 ^ m.f + (m3 - 2 ^ m.f))

/-- RoundTo of a magnitude with its sign (R48, R49); a zero magnitude gives the zero of that sign. -/
def Fmt.roundMag (m : Fmt) (sat : Bool) (rm : Rm) (neg : Bool) (x : Rat) : Nat :=
  if neg && !m.signed then 0
  else if x = 0 then m.signBit neg
  else
    let q := max (floorLog2 x) m.emin - m.f
    let n := roundInt rm neg (scale2 x (-q))
    let top := match m.value m.maxCode with
      | .fin _ v => v
      | .inf _ | .nan _ _ _ => 0
    if top < scale2 (n : Nat) q then m.overflow sat rm neg else m.encodeFin neg n q

/-- RoundTo of a nonzero exact value; a zero takes the given sign (R48, R50). -/
def Fmt.round (m : Fmt) (sat : Bool) (rm : Rm) (zeroNeg : Bool) (x : Rat) : Nat :=
  if x = 0 then m.roundMag sat rm zeroNeg 0 else m.roundMag sat rm (decide (x < 0)) |x|

/-- A NaN in a format, quieted (R53, R54). -/
def Fmt.nan (m : Fmt) (neg : Bool) (frac width : Nat) : Nat :=
  if m.inf then
    let fr := if width ≤ m.f then frac * 2 ^ (m.f - width) else frac / 2 ^ (width - m.f)
    m.signBit neg + m.infCode + (fr ||| 2 ^ (m.f - 1))
  else if m.f = 1 then 0 else m.signBit neg + m.nanCode

/-- A conversion between floating formats (R54). -/
def Fmt.convert (m : Fmt) (sat : Bool) (rm : Rm) : FVal → Nat
  | .nan n fr w => m.nan n fr w
  | .inf n => if neg' n then 0 else if m.inf && !sat then m.signBit n + m.infCode else m.signBit n + m.maxCode
  | .fin n x => m.roundMag sat rm n x
where
  /-- .e3m5 holds nothing below zero. -/
  neg' (n : Bool) : Bool := n && !m.signed

def FVal.isNan : FVal → Bool
  | .nan _ _ _ => true
  | .inf _ | .fin _ _ => false

def FVal.neg : FVal → FVal
  | .nan n f w => .nan (!n) f w
  | .inf n => .inf (!n)
  | .fin n x => .fin (!n) x

/-- The signed value of a finite one. -/
def FVal.real : FVal → Rat
  | .fin n x => if n then -x else x
  | .inf _ | .nan _ _ _ => 0

/-- The exact product; none is the invalid 0 × ∞ (R50, R52). -/
def FVal.mul : FVal → FVal → Option FVal
  | .fin a x, .fin b y => some (.fin (a != b) (x * y))
  | .inf a, .inf b => some (.inf (a != b))
  | .inf a, .fin b y => if y = 0 then none else some (.inf (a != b))
  | .fin a x, .inf b => if x = 0 then none else some (.inf (a != b))
  | .nan n f w, _ => some (.nan n f w)
  | _, .nan n f w => some (.nan n f w)

/-- The first NaN of some operands, quieted in a format (R53). -/
def firstNan (m : Fmt) : List FVal → Option Nat
  | [] => none
  | .nan n f w :: _ => some (m.nan n f w)
  | .inf _ :: t => firstNan m t
  | .fin _ _ :: t => firstNan m t

/-- The sign of an exact zero sum: that of the addends when all are zeros of one sign, else + or, under rdn, − (R50). -/
def zeroSign (rm : Rm) (l : List FVal) : Bool :=
  if l.all (fun v => v == .fin true 0) then true
  else if l.all (fun v => v == .fin false 0) then false else rm == .rdn

/-- The rounded exact sum of non-NaN addends (R49, R50, R52, R59). -/
def sumRound (m : Fmt) (rm : Rm) (l : List FVal) : Nat :=
  if l.contains (.inf true) then (if l.contains (.inf false) then m.nanCode else m.signBit true + m.infCode)
  else if l.contains (.inf false) then m.infCode
  else m.round false rm (zeroSign rm l) (l.foldl (fun a v => a + v.real) 0)

/-- A result below 2^w in a register, upper bits zero (R42). -/
def fword (n : Nat) : Word := BitVec.ofNat 64 n

/-- The value an arithmetic operand holds; .f reads bits [31:0] (R113). -/
def FTy.val (t : FTy) (w : Word) : FVal := (FTy.fmt t).value (w.toNat % 2 ^ (FTy.fmt t).width)

/-- FADD (R115). -/
def fadd (t : FTy) (rm : Rm) (a b : FVal) : Nat := (firstNan (FTy.fmt t) [a, b]).getD (sumRound (FTy.fmt t) rm [a, b])

/-- FMUL (R115). -/
def fmul (t : FTy) (rm : Rm) (a b : FVal) : Nat :=
  (firstNan (FTy.fmt t) [a, b]).getD (match FVal.mul a b with
    | none => (FTy.fmt t).nanCode
    | some v => (FTy.fmt t).convert false rm v)

/-- FFMA (R115). -/
def fma (t : FTy) (rm : Rm) (a b c : FVal) : Nat :=
  (firstNan (FTy.fmt t) [a, b, c]).getD (match FVal.mul a b with
    | none => (FTy.fmt t).nanCode
    | some v => sumRound (FTy.fmt t) rm [v, c])

/-- a orders below b in the order of FMIN and FMAX, where −0 is below +0 (R116). -/
def fless : FVal → FVal → Bool
  | .inf a, .inf b => a && !b
  | .inf a, .fin _ _ => a
  | .fin _ _, .inf b => !b
  | .fin a x, .fin b y => if x = 0 ∧ y = 0 then a && !b else decide ((FVal.fin a x).real < (FVal.fin b y).real)
  | .nan _ _ _, _ => false
  | _, .nan _ _ _ => false

/-- FMIN and FMAX on operand bits (R116). -/
def fminmax (t : FTy) (isMax : Bool) (a b : Nat) : Nat :=
  let x := (FTy.fmt t).value a
  let y := (FTy.fmt t).value b
  match x, y with
  | .nan n f w, .nan _ _ _ => (FTy.fmt t).nan n f w
  | .nan _ _ _, _ => b
  | _, .nan _ _ _ => a
  | _, _ => if (if isMax then fless x y else fless y x) then b else a

/-- FSETP (R118). -/
def fcmp (c : FCond) (a b : FVal) : Bool :=
  let un := a.isNan || b.isNan
  let eq := a == b || (match a, b with
    | .fin _ x, .fin _ y => x == 0 && y == 0
    | _, _ => false)
  match c with
  | .eq => !un && eq
  | .ne => un || !eq
  | .lt => !un && !eq && fless a b
  | .le => !un && (eq || fless a b)
  | .un => un

/-- FCLASS (R119). -/
def fclass (m : Fmt) (w : Nat) : Nat :=
  match m.value w with
  | .inf true => 1
  | .inf false => 2 ^ 7
  | .nan _ fr wd => if fr.testBit (wd - 1) then 2 ^ 9 else 2 ^ 8
  | .fin n x =>
    if x = 0 then (if n then 2 ^ 3 else 2 ^ 4)
    else if x < scale2 1 m.emin then (if n then 2 ^ 2 else 2 ^ 5)
    else if n then 2 ^ 1 else 2 ^ 6

/-- FGETEXP (R120). -/
def fgetexp (v : FVal) : Word :=
  match v with
  | .fin _ x => if x = 0 then BitVec.ofNat 64 (2 ^ 63) else BitVec.ofInt 64 (floorLog2 x)
  | .inf _ => BitVec.ofNat 64 (2 ^ 63 - 1)
  | .nan _ _ _ => BitVec.ofNat 64 (2 ^ 63 - 2)

/-- FGETMAN (R121). -/
def fgetman (m : Fmt) (w : Nat) : Nat :=
  match m.value w with
  | .fin n x => if x = 0 then w else m.roundMag false .rne n (scale2 x (-(floorLog2 x)))
  | .inf _ => w
  | .nan n fr wd => m.nan n fr wd

/-- FSCALE (R122); an exponent beyond ±10,000 gives what that one gives. -/
def fscaleR (t : FTy) (rm : Rm) (a : Nat) (n : Int) : Nat :=
  match (FTy.fmt t).value a with
  | .nan s fr wd => (FTy.fmt t).nan s fr wd
  | .inf _ => a
  | .fin s x => if x = 0 then a else (FTy.fmt t).roundMag false rm s (scale2 x (max (-10000) (min 10000 n)))

/-- FDIV (R123). -/
def fdivR (t : FTy) (rm : Rm) (a b : FVal) : Nat :=
  let m := FTy.fmt t
  (firstNan m [a, b]).getD (match a, b with
    | .fin s x, .fin u y => if y = 0 then (if x = 0 then m.nanCode else m.signBit (s != u) + m.infCode) else m.roundMag false rm (s != u) (x / y)
    | .inf s, .fin u _ => m.signBit (s != u) + m.infCode
    | .fin s _, .inf u => m.signBit (s != u)
    | _, _ => m.nanCode)

/-- floor(√n) by binary digits. -/
def isqrt : Nat → Nat → Nat
  | 0, _ => 0
  | k + 1, n =>
    if n = 0 then 0 else
    let r := 2 * isqrt k (n / 4)
    if (r + 1) * (r + 1) ≤ n then r + 1 else r

/-- √x when it is rational at 100 bits, else a value strictly between the two 100-bit neighbours: every rounding of the
formats at hand is the same as that of √x. -/
def sqrtMag (x : Rat) : Rat :=
  let k := 100 - floorLog2 x / 2
  let y := scale2 x (2 * k)
  let n := y.num.natAbs / y.den
  let r := isqrt (Nat.log2 n + 1) n
  if ((r * r : Nat) : Rat) = y then scale2 (r : Nat) (-k) else scale2 ((2 * r + 1 : Nat) : Rat) (-k - 1)

/-- FSQRT (R123). -/
def fsqrtR (t : FTy) (rm : Rm) (a : Nat) : Nat :=
  let m := FTy.fmt t
  match m.value a with
  | .nan n fr w => m.nan n fr w
  | .inf n => if n then m.nanCode else a
  | .fin n x => if x = 0 then a else if n then m.nanCode else m.roundMag false rm false (sqrtMag x)

/-- FRND (R127). -/
def frndR (t : FTy) (rm : Rm) (a : Nat) : Nat :=
  let m := FTy.fmt t
  match m.value a with
  | .nan n fr w => m.nan n fr w
  | .inf _ => a
  | .fin n x => if x = 0 then a else m.roundMag false .rne n (roundInt rm n x : Nat)

/-- F2I (R55). -/
def f2i (w : Nat) (sg : Bool) (rm : Rm) (v : FVal) : Word :=
  let hi : Int := if sg then 2 ^ (w - 1) - 1 else 2 ^ w - 1
  let lo : Int := if sg then -(2 ^ (w - 1)) else 0
  match v with
  | .nan _ _ _ => 0
  | .inf n => BitVec.ofInt 64 (if n then lo else hi)
  | .fin n x =>
    let r : Int := if n then -(roundInt rm n x : Int) else roundInt rm n x
    BitVec.ofInt 64 (max lo (min hi r))

/-- I2F (R55). Of an integer 0 it is +0 under every mode (notes/assumptions/64). -/
def i2f (m : Fmt) (sat : Bool) (rm : Rm) (v : Int) : Nat := m.round sat rm false v

/-! ## Approximations (R125, R126) -/

/-- The fixed-point precision of the reference values. -/
def fixP : Nat := 4600

/-- Terms of atan(1/n) with alternating signs, each a fixed-point number. -/
def atanTerms (n : Nat) : Nat → Nat → Nat → Bool → Int
  | 0, _, _, _ => 0
  | k + 1, pow, d, plus => (if plus then ((pow / d : Nat) : Int) else -((pow / d : Nat) : Int)) + atanTerms n k (pow / (n * n)) (d + 2) (!plus)

/-- π in fixed point (Machin). -/
def fixPi : Int := 16 * atanTerms 5 1000 (2 ^ fixP / 5) 1 true - 4 * atanTerms 239 300 (2 ^ fixP / 239) 1 true

/-- Σ of a Taylor series: the term is multiplied by x·x / ((d+1)(d+2)) with a sign. -/
def taylorSC (x : Int) : Nat → Int → Int → Int
  | 0, _, _ => 0
  | k + 1, term, d => term + taylorSC x k (-(term * x / 2 ^ fixP * x / 2 ^ fixP / ((d + 1) * (d + 2)))) (d + 2)

/-- exp of a small fixed-point x. -/
def taylorExp (x : Int) : Nat → Int → Int → Int
  | 0, _, _ => 0
  | k + 1, term, d => term + taylorExp x k (term * x / 2 ^ fixP / d) (d + 1)

/-- 2·atanh(z)'s series, for ln. -/
def atanhTerms (z2 : Int) : Nat → Int → Int → Int
  | 0, _, _ => 0
  | k + 1, pow, d => pow / d + atanhTerms z2 k (pow * z2 / 2 ^ fixP) (d + 2)

/-- ln of a rational in [1, 2], fixed point. -/
def fixLn (m : Rat) : Int :=
  let z := (m - 1) / (m + 1)
  let zf := (z.num * 2 ^ fixP) / z.den
  2 * atanhTerms (zf * zf / 2 ^ fixP) 1500 zf 1

/-- A fixed-point number as a rational. -/
def unfix (x : Int) : Rat := (x : Rat) / ((2 ^ fixP : Nat) : Rat)

/-- The approximated functions (R125). -/
inductive ApproxFn where
  | rsq | exp2 | log2 | sin | cos
  deriving DecidableEq, Repr

def ApproxFn.code : ApproxFn → Nat
  | .rsq => 0 | .exp2 => 1 | .log2 => 2 | .sin => 3 | .cos => 4

/-- The reference value of a function at a finite nonzero argument (R125): FRSQ's to some hundred bits; FEXP2 below 2⁻¹²⁰⁰ gives
2⁻¹²⁰¹, whatever the result; the others in error by less than 2⁻³⁴⁰⁰. -/
def ApproxFn.refer (fn : ApproxFn) (x : Rat) : Rat :=
  match fn with
  | .rsq => 1 / sqrtMag x
  | .exp2 =>
    if 1100 < x then scale2 1 1100 else if x < -1200 then scale2 1 (-1201) else
    let i := x.floor
    let f := x - i
    let y := f.num * fixLn 2 / f.den
    scale2 (unfix (taylorExp y 600 (2 ^ fixP) 1)) i
  | .log2 =>
    let e := floorLog2 x
    (e : Rat) + ((fixLn (scale2 x (-e)) : Int) : Rat) / ((fixLn 2 : Int) : Rat)
  | .sin | .cos =>
    let a := x.num * 2 ^ fixP / x.den
    let r0 := a % (2 * fixPi)
    let r := if fixPi < r0 then r0 - 2 * fixPi else r0
    unfix (if fn = .sin then taylorSC r 400 r 1 else taylorSC r 400 (2 ^ fixP) 0)

/-- The error that R125 allows at argument a with exact result x: k ulp, or the absolute bound of FLOG2 in [0.5, 2]. -/
def ApproxFn.bound (fn : ApproxFn) (m : Fmt) (a x : Rat) : Rat :=
  let ulp := scale2 1 ((if x = 0 then m.emin else max (floorLog2 |x|) m.emin) - m.f)
  match fn with
  | .rsq | .exp2 => ulp
  | .log2 => if 1 / 2 ≤ a ∧ a ≤ 2 then scale2 1 (-((m.f : Int) + 1)) else ulp
  | .sin | .cos => 2 * ulp

/-- y lies within the error bound of R125 for a function at argument a. FRSQ's is tested exactly on squares, its result's exponent
being half that of 1/a; the others against the reference, whose own error is a hair of 2⁻³⁴⁰⁰: a result of theirs is no nearer than that to
its bound's edge unless it lies on it. -/
def ApproxFn.admits (fn : ApproxFn) (m : Fmt) (a y : Rat) : Bool :=
  match fn with
  | .rsq =>
    let u := scale2 1 (max (floorLog2 (1 / a) / 2) m.emin - m.f)
    (decide (y - u ≤ 0) || decide ((y - u) * (y - u) * a ≤ 1)) && decide (0 < y + u) && decide (1 ≤ (y + u) * (y + u) * a)
  | .exp2 | .log2 | .sin | .cos => decide (|y - fn.refer a| ≤ fn.bound m a (fn.refer a) + scale2 1 (-3400))

/-- The exact cases of R125: a result that the table fixes. -/
def ApproxFn.exact (fn : ApproxFn) (a : Rat) : Option Rat :=
  match fn with
  | .rsq => if a = scale2 1 (floorLog2 a) ∧ floorLog2 a % 2 = 0 then some (scale2 1 (-(floorLog2 a / 2))) else none
  | .exp2 => if a.den = 1 then (if 1100 < a then some (scale2 1 1100) else if a < -1200 then some (scale2 1 (-1200)) else some (scale2 1 a.num)) else none
  | .log2 => if a = scale2 1 (floorLog2 a) then some (floorLog2 a : Int) else none
  | .sin | .cos => none

/-- The special results of R126 and the approximation of a finite nonzero operand: the part's own value where it lies in
the bound, a value the model leaves free; RoundTo of the reference otherwise (notes/assumptions/4). -/
def approxR (fn : ApproxFn) (t : FTy) (a : Nat) : Nat :=
  let m := FTy.fmt t
  match m.value a with
  | .nan n fr w => m.nan n fr w
  | .inf n =>
    match fn with
    | .rsq => if n then m.nanCode else 0
    | .exp2 => if n then 0 else m.infCode
    | .log2 => if n then m.nanCode else m.infCode
    | .sin | .cos => m.nanCode
  | .fin n x =>
    if x = 0 then
      (match fn with
        | .rsq => m.signBit n + m.infCode
        | .exp2 | .cos => m.round false .rne false 1
        | .log2 => m.signBit true + m.infCode
        | .sin => a)
    else if n && (fn == .rsq || fn == .log2) then m.nanCode
    else
      let r := (FVal.fin n x).real
      match fn.exact r with
      | some y => m.round false .rne false y
      | none =>
        let y := fn.refer r
        let raw := Config.approx (fn.code * 2 + (if t = .f then 1 else 0)) a 0 % 2 ^ m.width
        match m.value raw with
        | .fin u v => if fn.admits m r (FVal.fin u v).real then raw else m.round false .rne false y
        | .inf _ => m.round false .rne false y
        | .nan _ _ _ => m.round false .rne false y

/-! ## Block-scaled FP4 (R56, R133, R134) -/

/-- The value of an element under its block scale and band scale (R56): a NaN scale is the result; an invalid product is
the default NaN. The element is multiplied by the block scale first: under block scale 0x00 and an infinite band scale a nonzero element gives the
default NaN (0 × ∞ of R52), where R56 also says that an infinite band scale makes nonzero elements infinite (notes/assumptions/54). -/
def blockValue (elem scale band : Nat) : FVal :=
  let g := Fmt.bf.value band
  let s := Fmt.e3m5.value scale
  let v := Fmt.e2m1.value elem
  if s.isNan then s
  else if g.isNan then g
  else match FVal.mul v s with
    | none => .nan false 1 1
    | some p => (FVal.mul p g).getD (.nan false 1 1)

/-- FPACK of kind e2m1: block scale and elements (R133). An element whose x is exactly zero while s is not takes the sign of x with that of g:
R50 speaks of sums and products only, so the sign is the model's choice (notes/assumptions/64). -/
def packFp4 (rm : Rm) (g : FVal) (xs : List FVal) : Nat :=
  match g with
  | .fin gn gm =>
    if gm = 0 || xs.any FVal.isNan then 0xFF * 2 ^ 32 else
    let scale := if xs.any (fun v => v == .inf true || v == .inf false) then 0xFE
      else Fmt.e3m5.roundMag false .rup false ((xs.foldl (fun a v => max a |v.real|) 0) / (6 * gm))
    let s := (Fmt.e3m5.value scale).real
    let elem := fun v => match v with
      | .fin n x => if s = 0 then Fmt.e2m1.signBit (n != gn) else Fmt.e2m1.roundMag true rm (n != gn) (x / (s * gm))
      | .inf n => Fmt.e2m1.signBit (n != gn) + Fmt.e2m1.maxCode
      | .nan _ _ _ => 0
    scale * 2 ^ 32 + ofDigits 16 (xs.map elem)
  | .inf _ | .nan _ _ _ => 0xFF * 2 ^ 32
where
  /-- The number whose digits, lowest first, are given. -/
  ofDigits (b : Nat) : List Nat → Nat
    | [] => 0
    | d :: t => d + b * ofDigits b t

/-- Items per packed register (R131). -/
def PackKind.count : PackKind → Nat
  | .e2m1 | .e4m3 | .e5m2 => 8
  | .bf => 4

def PackKind.fmt : PackKind → Fmt
  | .e2m1 => Fmt.e2m1 | .e4m3 => Fmt.e4m3 | .e5m2 => Fmt.e5m2 | .bf => Fmt.bf

/-- FPACK (R133). -/
def fpackR (k : PackKind) (t : FTy) (rm : Rm) (xs : List Word) (vb : Word) : Word :=
  match k with
  | .e2m1 => fword (packFp4 rm (Fmt.bf.value (vb.toNat % 65536)) (xs.map (FTy.val t)))
  | .e4m3 | .e5m2 | .bf => fword (packFp4.ofDigits (2 ^ (PackKind.fmt k).width) (xs.map fun x => (PackKind.fmt k).convert true rm (FTy.val t x)))

/-- FUNPACK item i (R134). -/
def funpackR (k : PackKind) (t : FTy) (rm : Rm) (va vb : Word) (i : Nat) : Word :=
  match k with
  | .e2m1 =>
    fword ((FTy.fmt t).convert false rm (blockValue (va.toNat / 2 ^ (4 * i) % 16) (va.toNat / 2 ^ 32 % 256) (vb.toNat % 65536)))
  | .e4m3 | .e5m2 | .bf =>
    let m := PackKind.fmt k
    fword ((FTy.fmt t).convert false rm (m.value (va.toNat / 2 ^ (m.width * i) % 2 ^ m.width)))

/-- FCVT (R129): a scalar of type src into dst; the same type returns it with a NaN quieted. -/
def fcvtR (dst src : TyCode) (rm : Rm) (sat : Bool) (a : Word) : Word :=
  let m := TyCode.fmt src
  let v := m.value (a.toNat % 2 ^ m.width)
  if dst = src then
    match v with
    | .nan n fr w => fword (m.nan n fr w)
    | .inf _ | .fin _ _ => fword (a.toNat % 2 ^ m.width)
  else fword ((TyCode.fmt dst).convert sat rm v)

end Sys2Proof.Machine
end

