-- ==== Sys2Proof/Machine/Float.lean ====
section
/-! DEFINITION. The meanings of the floating-point and conversion instructions in their C16, I32 and I64 forms
(spec/06_isa_floating_point.md R112-R134). -/

namespace Sys2Proof.Machine

/-- A two-source floating instruction of class F4 (R112, R113). -/
def State.frrr (s : State) (q : Issue) (t : FTy) (vd va vb : Nat) (f : FVal → FVal → Nat) : State :=
  s.rrr q 4 vd va vb fun a b => fword (f (FTy.val t a) (FTy.val t b))

/-- A one-source floating instruction on operand bits, of class latency lat. -/
def State.frr (s : State) (q : Issue) (lat : Nat) (t : FTy) (vd va : Nat) (f : Nat → Nat) : State :=
  s.rr q lat vd va fun a => fword (f (a.toNat % 2 ^ (FTy.fmt t).width))

/-- FMIN or FMAX on operand bits (R116). -/
def State.fmm (s : State) (q : Issue) (t : FTy) (isMax : Bool) (vd va vb : Nat) : State :=
  s.rrr q 4 vd va vb fun a b => fword (fminmax t isMax (a.toNat % 2 ^ (FTy.fmt t).width) (b.toNat % 2 ^ (FTy.fmt t).width))

/-- The latency of a class V floating instruction by its opcode, bounds by type, and its operands' bits at the type (R124). -/
def fvarLatency (op : Nat) (lf ld : Nat × Nat) (t : FTy) (a b : Word) : Nat :=
  let n := (FTy.fmt t).width
  match t with
  | .f => latencyOf op lf.1 lf.2 (a.toNat % 2 ^ n) (b.toNat % 2 ^ n)
  | .d => latencyOf (op + 256) ld.1 ld.2 (a.toNat % 2 ^ n) (b.toNat % 2 ^ n)

/-- A class V floating instruction on one or two sources (R124). -/
def State.fvar (s : State) (q : Issue) (op : Nat) (lf ld : Nat × Nat) (t : FTy) (vd : Nat) (srcs : List Nat) (f : Thread → Nat) : State :=
  s.resultOp q (fun th => fvarLatency op lf ld t (srcs[0]?.elim 0 th.reg) (srcs[1]?.elim 0 th.reg)) (vd :: srcs) srcs
    fun th => [.reg vd (fword (f th)) none]

/-- C16 FADD.d (R102, R115). -/
def execC16FaddD (st : Bool) (vd vb : BitVec 5) (s : State) : Out :=
  .next (s.frrr (issue16 st) .d vd.toNat vd.toNat vb.toNat (fadd .d .rne))

/-- C16 FSUB.d (R102, R115). -/
def execC16FsubD (st : Bool) (vd vb : BitVec 5) (s : State) : Out :=
  .next (s.frrr (issue16 st) .d vd.toNat vd.toNat vb.toNat (fun a b => fadd .d .rne a b.neg))

/-- C16 FMUL.d (R102, R115). -/
def execC16FmulD (st : Bool) (vd vb : BitVec 5) (s : State) : Out :=
  .next (s.frrr (issue16 st) .d vd.toNat vd.toNat vb.toNat (fmul .d .rne))

/-- C16 FMIN.d (R102, R116). -/
def execC16FminD (st : Bool) (vd vb : BitVec 5) (s : State) : Out :=
  .next (s.fmm (issue16 st) .d false vd.toNat vd.toNat vb.toNat)

/-- C16 FMAX.d (R102, R116). -/
def execC16FmaxD (st : Bool) (vd vb : BitVec 5) (s : State) : Out :=
  .next (s.fmm (issue16 st) .d true vd.toNat vd.toNat vb.toNat)

/-- I32 FADD.d with rne (R115). -/
def execI32FaddD (k : Ctl32) (vd va vb : Reg) (s : State) : Out :=
  .next (s.frrr (issue32 k) .d vd.toNat va.toNat vb.toNat (fadd .d .rne))

/-- I32 FSUB.d with rne (R115). -/
def execI32FsubD (k : Ctl32) (vd va vb : Reg) (s : State) : Out :=
  .next (s.frrr (issue32 k) .d vd.toNat va.toNat vb.toNat (fun a b => fadd .d .rne a b.neg))

/-- I32 FMUL.d with rne (R115). -/
def execI32FmulD (k : Ctl32) (vd va vb : Reg) (s : State) : Out :=
  .next (s.frrr (issue32 k) .d vd.toNat va.toNat vb.toNat (fmul .d .rne))

/-- I32 FMIN.d (R116). -/
def execI32FminD (k : Ctl32) (vd va vb : Reg) (s : State) : Out :=
  .next (s.fmm (issue32 k) .d false vd.toNat va.toNat vb.toNat)

/-- I32 FMAX.d (R116). -/
def execI32FmaxD (k : Ctl32) (vd va vb : Reg) (s : State) : Out :=
  .next (s.fmm (issue32 k) .d true vd.toNat va.toNat vb.toNat)

/-- FABS.d: the sign bit cleared (R117). -/
def execI32FabsD (k : Ctl32) (vd va : Reg) (s : State) : Out :=
  .next (s.frr (issue32 k) 2 .d vd.toNat va.toNat fun a => a % 2 ^ 63)

/-- FNEG.d: the sign bit inverted (R117). -/
def execI32FnegD (k : Ctl32) (vd va : Reg) (s : State) : Out :=
  .next (s.frr (issue32 k) 2 .d vd.toNat va.toNat fun a => (a + 2 ^ 63) % 2 ^ 64)

/-- FCLASS.d (R119). -/
def execI32FclassD (k : Ctl32) (vd va : Reg) (s : State) : Out :=
  .next (s.frr (issue32 k) 4 .d vd.toNat va.toNat (fclass Fmt.d))

/-- FGETEXP.d (R120). -/
def execI32FgetexpD (k : Ctl32) (vd va : Reg) (s : State) : Out :=
  .next (s.rr (issue32 k) 4 vd.toNat va.toNat fun a => fgetexp (FTy.val .d a))

/-- FGETMAN.d (R121). -/
def execI32FgetmanD (k : Ctl32) (vd va : Reg) (s : State) : Out :=
  .next (s.frr (issue32 k) 4 .d vd.toNat va.toNat (fgetman Fmt.d))

/-- I32 FSETP.eq.d (R118). -/
def execI32FsetpEqD (k : Ctl32) (pd : PReg) (va vb : Reg) (s : State) : Out :=
  .next (s.prr (issue32 k) 4 pd.toNat va.toNat vb.toNat fun a b => fcmp .eq (FTy.val .d a) (FTy.val .d b))

/-- I32 FSETP.ne.d (R118). -/
def execI32FsetpNeD (k : Ctl32) (pd : PReg) (va vb : Reg) (s : State) : Out :=
  .next (s.prr (issue32 k) 4 pd.toNat va.toNat vb.toNat fun a b => fcmp .ne (FTy.val .d a) (FTy.val .d b))

/-- I32 FSETP.lt.d (R118). -/
def execI32FsetpLtD (k : Ctl32) (pd : PReg) (va vb : Reg) (s : State) : Out :=
  .next (s.prr (issue32 k) 4 pd.toNat va.toNat vb.toNat fun a b => fcmp .lt (FTy.val .d a) (FTy.val .d b))

/-- I32 FSETP.le.d (R118). -/
def execI32FsetpLeD (k : Ctl32) (pd : PReg) (va vb : Reg) (s : State) : Out :=
  .next (s.prr (issue32 k) 4 pd.toNat va.toNat vb.toNat fun a b => fcmp .le (FTy.val .d a) (FTy.val .d b))

/-- I32 FSETP.un.d (R118). -/
def execI32FsetpUnD (k : Ctl32) (pd : PReg) (va vb : Reg) (s : State) : Out :=
  .next (s.prr (issue32 k) 4 pd.toNat va.toNat vb.toNat fun a b => fcmp .un (FTy.val .d a) (FTy.val .d b))

/-- I32 FADD.f with rne (R115). -/
def execI32FaddF (k : Ctl32) (vd va vb : Reg) (s : State) : Out :=
  .next (s.frrr (issue32 k) .f vd.toNat va.toNat vb.toNat (fadd .f .rne))

/-- I32 FSUB.f with rne (R115). -/
def execI32FsubF (k : Ctl32) (vd va vb : Reg) (s : State) : Out :=
  .next (s.frrr (issue32 k) .f vd.toNat va.toNat vb.toNat (fun a b => fadd .f .rne a b.neg))

/-- I32 FMUL.f with rne (R115). -/
def execI32FmulF (k : Ctl32) (vd va vb : Reg) (s : State) : Out :=
  .next (s.frrr (issue32 k) .f vd.toNat va.toNat vb.toNat (fmul .f .rne))

/-- I32 FMIN.f (R116). -/
def execI32FminF (k : Ctl32) (vd va vb : Reg) (s : State) : Out :=
  .next (s.fmm (issue32 k) .f false vd.toNat va.toNat vb.toNat)

/-- I32 FMAX.f (R116). -/
def execI32FmaxF (k : Ctl32) (vd va vb : Reg) (s : State) : Out :=
  .next (s.fmm (issue32 k) .f true vd.toNat va.toNat vb.toNat)

/-- FABS.f: the sign bit cleared (R117). -/
def execI32FabsF (k : Ctl32) (vd va : Reg) (s : State) : Out :=
  .next (s.frr (issue32 k) 2 .f vd.toNat va.toNat fun a => a % 2 ^ 31)

/-- FNEG.f: the sign bit inverted (R117). -/
def execI32FnegF (k : Ctl32) (vd va : Reg) (s : State) : Out :=
  .next (s.frr (issue32 k) 2 .f vd.toNat va.toNat fun a => (a + 2 ^ 31) % 2 ^ 32)

/-- FCLASS.f (R119). -/
def execI32FclassF (k : Ctl32) (vd va : Reg) (s : State) : Out :=
  .next (s.frr (issue32 k) 4 .f vd.toNat va.toNat (fclass Fmt.s))

/-- FGETEXP.f (R120). -/
def execI32FgetexpF (k : Ctl32) (vd va : Reg) (s : State) : Out :=
  .next (s.rr (issue32 k) 4 vd.toNat va.toNat fun a => fgetexp (FTy.val .f a))

/-- FGETMAN.f (R121). -/
def execI32FgetmanF (k : Ctl32) (vd va : Reg) (s : State) : Out :=
  .next (s.frr (issue32 k) 4 .f vd.toNat va.toNat (fgetman Fmt.s))

/-- I32 FSETP.eq.f (R118). -/
def execI32FsetpEqF (k : Ctl32) (pd : PReg) (va vb : Reg) (s : State) : Out :=
  .next (s.prr (issue32 k) 4 pd.toNat va.toNat vb.toNat fun a b => fcmp .eq (FTy.val .f a) (FTy.val .f b))

/-- I32 FSETP.ne.f (R118). -/
def execI32FsetpNeF (k : Ctl32) (pd : PReg) (va vb : Reg) (s : State) : Out :=
  .next (s.prr (issue32 k) 4 pd.toNat va.toNat vb.toNat fun a b => fcmp .ne (FTy.val .f a) (FTy.val .f b))

/-- I32 FSETP.lt.f (R118). -/
def execI32FsetpLtF (k : Ctl32) (pd : PReg) (va vb : Reg) (s : State) : Out :=
  .next (s.prr (issue32 k) 4 pd.toNat va.toNat vb.toNat fun a b => fcmp .lt (FTy.val .f a) (FTy.val .f b))

/-- I32 FSETP.le.f (R118). -/
def execI32FsetpLeF (k : Ctl32) (pd : PReg) (va vb : Reg) (s : State) : Out :=
  .next (s.prr (issue32 k) 4 pd.toNat va.toNat vb.toNat fun a b => fcmp .le (FTy.val .f a) (FTy.val .f b))

/-- I32 FSETP.un.f (R118). -/
def execI32FsetpUnF (k : Ctl32) (pd : PReg) (va vb : Reg) (s : State) : Out :=
  .next (s.prr (issue32 k) 4 pd.toNat va.toNat vb.toNat fun a b => fcmp .un (FTy.val .f a) (FTy.val .f b))

/-- I32 FCVT.d.f (R130). -/
def execI32FcvtDF (k : Ctl32) (vd va : Reg) (s : State) : Out :=
  .next (s.rr (issue32 k) 4 vd.toNat va.toNat (fcvtR .d .f .rne false))

/-- I32 FCVT.f.d (R130). -/
def execI32FcvtFD (k : Ctl32) (vd va : Reg) (s : State) : Out :=
  .next (s.rr (issue32 k) 4 vd.toNat va.toNat (fcvtR .f .d .rne false))

/-- I32 I2F.d.s64 (R130). -/
def execI32I2fDS64 (k : Ctl32) (vd va : Reg) (s : State) : Out :=
  .next (s.rr (issue32 k) 4 vd.toNat va.toNat fun a => fword (i2f Fmt.d false .rne (sval 64 a)))

/-- I32 I2F.d.n64 (R130). -/
def execI32I2fDN64 (k : Ctl32) (vd va : Reg) (s : State) : Out :=
  .next (s.rr (issue32 k) 4 vd.toNat va.toNat fun a => fword (i2f Fmt.d false .rne (nval 64 a)))

/-- I32 F2I.s64.d (R130). -/
def execI32F2iS64D (k : Ctl32) (vd va : Reg) (s : State) : Out :=
  .next (s.rr (issue32 k) 4 vd.toNat va.toNat fun a => f2i 64 true .rne (FTy.val .d a))

/-- I32 F2I.n64.d (R130). -/
def execI32F2iN64D (k : Ctl32) (vd va : Reg) (s : State) : Out :=
  .next (s.rr (issue32 k) 4 vd.toNat va.toNat fun a => f2i 64 false .rne (FTy.val .d a))

/-- I64 FADD under a mode (R115). -/
def execI64Fadd (c : Ctl) (rm : Rm) (ty : FTy) (vd va vb : Reg) (s : State) : Out :=
  .next (s.frrr (issue64 c) ty vd.toNat va.toNat vb.toNat (fadd ty rm))

/-- I64 FSUB under a mode (R115). -/
def execI64Fsub (c : Ctl) (rm : Rm) (ty : FTy) (vd va vb : Reg) (s : State) : Out :=
  .next (s.frrr (issue64 c) ty vd.toNat va.toNat vb.toNat (fun a b => fadd ty rm a b.neg))

/-- I64 FMUL under a mode (R115). -/
def execI64Fmul (c : Ctl) (rm : Rm) (ty : FTy) (vd va vb : Reg) (s : State) : Out :=
  .next (s.frrr (issue64 c) ty vd.toNat va.toNat vb.toNat (fmul ty rm))

/-- FFMA: one rounding of a × b + c (R57, R115). -/
def execFfma (c : Ctl) (rm : Rm) (ty : FTy) (vd va vb vc : Reg) (s : State) : Out :=
  .next (s.fixedOp (issue64 c) 4 [vd.toNat, va.toNat, vb.toNat, vc.toNat] [va.toNat, vb.toNat, vc.toNat] fun t =>
    [.reg vd.toNat (fword (fma ty rm (FTy.val ty (t.reg va.toNat)) (FTy.val ty (t.reg vb.toNat)) (FTy.val ty (t.reg vc.toNat)))) none])

/-- I64 FMIN (R116). -/
def execI64Fmin (c : Ctl) (ty : FTy) (vd va vb : Reg) (s : State) : Out :=
  .next (s.fmm (issue64 c) ty false vd.toNat va.toNat vb.toNat)

/-- I64 FMAX (R116). -/
def execI64Fmax (c : Ctl) (ty : FTy) (vd va vb : Reg) (s : State) : Out :=
  .next (s.fmm (issue64 c) ty true vd.toNat va.toNat vb.toNat)

/-- I64 FSETP (R118). -/
def execI64Fsetp (c : Ctl) (cond : FCond) (ty : FTy) (pd : PReg) (va vb : Reg) (s : State) : Out :=
  .next (s.prr (issue64 c) 4 pd.toNat va.toNat vb.toNat fun a b => fcmp cond (FTy.val ty a) (FTy.val ty b))

/-- FSCALE: vb is read as .s64 (R122). -/
def execFscale (c : Ctl) (rm : Rm) (ty : FTy) (vd va vb : Reg) (s : State) : Out :=
  .next (s.rrr (issue64 c) 4 vd.toNat va.toNat vb.toNat fun a b => fword (fscaleR ty rm (a.toNat % 2 ^ (FTy.fmt ty).width) (sval 64 b)))

/-- FDIV (R123, R124). -/
def execFdiv (c : Ctl) (rm : Rm) (ty : FTy) (vd va vb : Reg) (s : State) : Out :=
  .next (s.fvar (issue64 c) 48 (10, 14) (14, 22) ty vd.toNat [va.toNat, vb.toNat] fun t => fdivR ty rm (FTy.val ty (t.reg va.toNat)) (FTy.val ty (t.reg vb.toNat)))

/-- FSQRT (R123, R124). -/
def execFsqrt (c : Ctl) (rm : Rm) (ty : FTy) (vd va : Reg) (s : State) : Out :=
  .next (s.fvar (issue64 c) 49 (10, 14) (14, 24) ty vd.toNat [va.toNat] fun t => fsqrtR ty rm ((t.reg va.toNat).toNat % 2 ^ (FTy.fmt ty).width))

/-- FRCP: FDIV of 1.0 (R123, R124). -/
def execFrcp (c : Ctl) (rm : Rm) (ty : FTy) (vd va : Reg) (s : State) : Out :=
  .next (s.fvar (issue64 c) 50 (10, 14) (14, 22) ty vd.toNat [va.toNat] fun t => fdivR ty rm (.fin false 1) (FTy.val ty (t.reg va.toNat)))

/-- FRSQ (R124-R126). -/
def execFrsq (c : Ctl) (ty : FTy) (vd va : Reg) (s : State) : Out :=
  .next (s.fvar (issue64 c) 51 (8, 12) (12, 20) ty vd.toNat [va.toNat] fun t => approxR .rsq ty ((t.reg va.toNat).toNat % 2 ^ (FTy.fmt ty).width))

/-- FEXP2 (R124-R126). -/
def execFexp2 (c : Ctl) (ty : FTy) (vd va : Reg) (s : State) : Out :=
  .next (s.fvar (issue64 c) 52 (8, 12) (12, 20) ty vd.toNat [va.toNat] fun t => approxR .exp2 ty ((t.reg va.toNat).toNat % 2 ^ (FTy.fmt ty).width))

/-- FLOG2 (R124-R126). -/
def execFlog2 (c : Ctl) (ty : FTy) (vd va : Reg) (s : State) : Out :=
  .next (s.fvar (issue64 c) 53 (8, 12) (12, 20) ty vd.toNat [va.toNat] fun t => approxR .log2 ty ((t.reg va.toNat).toNat % 2 ^ (FTy.fmt ty).width))

/-- FSIN (R124-R126). -/
def execFsin (c : Ctl) (ty : FTy) (vd va : Reg) (s : State) : Out :=
  .next (s.fvar (issue64 c) 54 (12, 24) (16, 40) ty vd.toNat [va.toNat] fun t => approxR .sin ty ((t.reg va.toNat).toNat % 2 ^ (FTy.fmt ty).width))

/-- FCOS (R124-R126). -/
def execFcos (c : Ctl) (ty : FTy) (vd va : Reg) (s : State) : Out :=
  .next (s.fvar (issue64 c) 55 (12, 24) (16, 40) ty vd.toNat [va.toNat] fun t => approxR .cos ty ((t.reg va.toNat).toNat % 2 ^ (FTy.fmt ty).width))

/-- FCVT (R128, R129). -/
def execI64Fcvt (c : Ctl) (dst src : TyCode) (rm : Rm) (sat : Bool) (vd va : Reg) (s : State) : Out :=
  .next (s.rr (issue64 c) 4 vd.toNat va.toNat (fcvtR dst src rm sat))

/-- I2F (R128, R129). -/
def execI64I2f (c : Ctl) (dst src : TyCode) (rm : Rm) (sat : Bool) (vd va : Reg) (s : State) : Out :=
  .next (s.rr (issue64 c) 4 vd.toNat va.toNat fun a =>
    fword (i2f (TyCode.fmt dst) sat rm (if (TyCode.intW src).2 then sval (TyCode.intW src).1 a else nval (TyCode.intW src).1 a)))

/-- F2I (R128, R129). -/
def execI64F2i (c : Ctl) (dst src : TyCode) (rm : Rm) (vd va : Reg) (s : State) : Out :=
  .next (s.rr (issue64 c) 4 vd.toNat va.toNat fun a =>
    f2i (TyCode.intW dst).1 (TyCode.intW dst).2 rm ((TyCode.fmt src).value (a.toNat % 2 ^ (TyCode.fmt src).width)))

/-- FRND (R127). -/
def execFrnd (c : Ctl) (rm : Rm) (ty : FTy) (vd va : Reg) (s : State) : Out :=
  .next (s.frr (issue64 c) 4 ty vd.toNat va.toNat (frndR ty rm))

/-- FPACK (R131-R133): the run starts at va; vb is read for kind e2m1 only. -/
def execFpack (c : Ctl) (kind : PackKind) (ty : FTy) (rm : Rm) (vd va vb : Reg) (s : State) : Out :=
  .next (let run := (List.range (PackKind.count kind)).map (va.toNat + ·)
    let extra := if kind = .e2m1 then [vb.toNat] else []
    s.fixedOp (issue64 c) 4 (vd.toNat :: run ++ extra) (run ++ extra) fun t =>
      [.reg vd.toNat (fpackR kind ty rm (run.map t.reg) (t.reg vb.toNat)) none])

/-- FUNPACK (R131, R132, R134): the run starts at vd and lands together. -/
def execFunpack (c : Ctl) (kind : PackKind) (ty : FTy) (rm : Rm) (vd va vb : Reg) (s : State) : Out :=
  .next (let run := (List.range (PackKind.count kind)).map (vd.toNat + ·)
    let extra := if kind = .e2m1 then [vb.toNat] else []
    s.fixedOp (issue64 c) 4 (run ++ va.toNat :: extra) (va.toNat :: extra) fun t =>
      (List.range (PackKind.count kind)).map fun i => .reg (vd.toNat + i) (funpackR kind ty rm (t.reg va.toNat) (t.reg vb.toNat) i) none)

end Sys2Proof.Machine
end

