-- ==== Sys2Proof/Machine/Access.lean ====
section
/-! DEFINITION. What holds an outstanding access back, and how it reads and writes when nothing does: order within a
thread, frame classes, versions, migration, leases and die orders (spec/12_memory_hierarchy.md R221-R227,
spec/13_consistency_model.md R229-R241, spec/14_translation_and_versions.md R262-R266,
spec/26_fabric_and_checkpoint.md R411-R414). -/

namespace Sys2Proof.Machine

/-- The place of an access now: a working page's frame may have moved since issue (R243, R262). -/
def State.paNow (s : State) (a : Access) : Nat :=
  match a.vrec with
  | some r => s.wframe r + a.va % 65536
  | none => a.pa

/-- The access that an operation makes to memory, whether it reads and whether it writes. -/
def OpKind.access : OpKind → Option (Access × Bool × Bool)
  | .load a _ _ _ => some (a, true, false)
  | .store a _ => some (a, false, true)
  | .atomic a _ _ => some (a, true, true)
  | .feform a o _ _ _ => some (a, true, o == .ldc || o == .stf || o == .stx || o == .purge)
  | .signal a _ _ => some (a, false, true)
  | .launch a _ => some (a, true, true)
  | .spill a _ => some (a, false, true)
  | .fill a => some (a, true, false)
  | .unit u => u.u.want.map fun x => (x.1, true, false)
  | .graft g => g.u.want.map fun x => (x.1, !x.2, x.2)
  | .callt c => some (c.want, true, false)
  | .result _ | .lds _ _ _ _ _ | .sts _ _ _ _ | .atoms _ _ _ _ _ | .touch _ _ _ _ | .cctl _ _ | .fence _ _ | .barw _ _ _ | .barEv _ _
  | .vretire _ _ | .accz _ _ | .accrd _ _ _ | .accwr _ _ _ | .permt _ _ _ | .frameout _ _ _ _ => none

/-- Every access that an operation makes to memory, with whether it writes: a LAUNCH reads its record as well (R208). -/
def OpKind.accesses (k : OpKind) : List (Access × Bool) :=
  (match k.access with
    | some (a, _, w) => [(a, w)]
    | none => []) ++ (match k with
    | .launch _ b => [(b, false)]
    | _ => [])

/-- The record that a LAUNCH reads. -/
def OpKind.source : OpKind → Option Access
  | .launch _ b => some b
  | _ => none

/-- A plain store, which a later load of its thread reads before it is performed (R39). -/
def OpKind.plainStore : OpKind → Bool
  | .store _ _ | .spill _ _ => true
  | _ => false

/-- A plain load. -/
def OpKind.plainLoad : OpKind → Bool
  | .load _ _ _ _ | .fill _ | .callt _ => true
  | _ => false

/-- What a unit's instruction keeps while it is under way, changed (R329). -/
def OpKind.withUnit (f : UnitSt → UnitSt) : OpKind → OpKind
  | .unit u => .unit { u with u := f u.u }
  | .graft g => .graft { g with u := f g.u }
  | k => k

/-- Every access of an operation changed. -/
def OpKind.mapAccess (f : Access → Access) : OpKind → OpKind
  | .load a g d p => .load (f a) g d p
  | .store a v => .store (f a) v
  | .atomic a h m => .atomic (f a) h m
  | .feform a o v d p => .feform (f a) o v d p
  | .signal a h v => .signal (f a) h v
  | .launch a b => .launch (f a) (f b)
  | .spill a v => .spill (f a) v
  | .fill a => .fill (f a)
  | .callt c => .callt { c with want := f c.want }
  | k => k.withUnit fun u => { u with want := u.want.map fun x => (f x.1, x.2) }

def OpKind.unitSt : OpKind → UnitSt
  | .unit u => u.u
  | .graft g => g.u
  | _ => {}

/-- A query of the traversal unit, which reads memory until it completes (R329). -/
def OpKind.isUnit : OpKind → Bool
  | .unit _ => true
  | _ => false

/-- The scratchpad bytes of an operation: block, offset, size, reads, writes (R143, R229). -/
def OpKind.spad : OpKind → Option (Nat × Nat × Nat × Bool × Bool)
  | .lds b o n _ _ => some (b, o, n, true, false)
  | .sts b o n _ => some (b, o, n, false, true)
  | .atoms b o n _ _ => some (b, o, n, true, true)
  | .permt b o n => some (b, o, 2 * n, true, false)
  | .frameout b o _ _ => some (b, o, 16384, true, false)
  | _ => none

/-- The 16 KiB pages of a scratchpad that n bytes from off on touch (R215). -/
def spadPages (off n : Nat) : List Nat := (List.range ((off + max n 1 - 1) / 16384 - off / 16384 + 1)).map (off / 16384 + ·)

/-- Two ranges of bytes meet. -/
def meets (a n b m : Nat) : Bool := decide (a < b + m) && decide (b < a + n)

/-- A GRAFT, which reads and writes memory until it stops (R338). -/
def OpKind.isGraft : OpKind → Bool
  | .graft _ => true
  | _ => false

/-- The operation touches memory or the scratchpad. -/
def OpKind.touches (k : OpKind) : Bool := k.access.isSome || k.spad.isSome || k.isGraft || k.isUnit

/-- The operation reads; it writes (R229): a full/empty form that changes its word does both. -/
def OpKind.reads (k : OpKind) : Bool :=
  k.isGraft || k.isUnit || (match k.access with
    | some (_, r, _) => r
    | none => false) || (match k.spad with
    | some (_, _, _, r, _) => r
    | none => false)

def OpKind.writes (k : OpKind) : Bool :=
  k.isGraft || (match k.access with
    | some (_, _, w) => w
    | none => false) || (match k.spad with
    | some (_, _, _, _, w) => w
    | none => false)

/-! ## Scopes and happens-before (R232-R237) -/

/-- Scopes from .die on, and from .pkg on. -/
def wideScope : Scope → Bool
  | .blk | .grv => false
  | .die | .pkg | .fab | .sys => true

def pkgScope : Scope → Bool
  | .blk | .grv | .die => false
  | .pkg | .fab | .sys => true

def State.groveOf (s : State) (k : Nat) : Nat :=
  (((s.threads.find k).bind fun t => s.blocks.find t.blk).map (·.grove)).getD 0

/-- The author that thread k is. -/
def State.authorOf (s : State) (k : Nat) : Author := .thread k (((s.threads.find k).map (·.blk)).getD 0) (s.groveOf k)

/-- A release of author x at scope sr and an acquire of thread k at scope sa are each in the other's instance (R232, R234). -/
def State.meetsAt (s : State) (x : Author) (sr : Scope) (k : Nat) (sa : Scope) : Bool :=
  match x with
  | .thread j b g =>
    let inst := fun (sc : Scope) => match sc with
      | .blk => some b == (s.threads.find k).map (·.blk)
      | .grv => g == s.groveOf k
      | .die => dieOf j == dieOf k
      | .pkg | .fab | .sys => true
    inst sr && inst sa
  | .engine => pkgScope sa
  | .host => sa == .sys
  | .peer => (sr == .fab || sr == .sys) && (sa == .fab || sa == .sys)

def State.hbOf (s : State) (k : Nat) : Hb := (s.hbs.find k).getD {}

def State.setHb (s : State) (k : Nat) (h : Hb) : State := { s with hbs := s.hbs.put k h }

/-- The writes on their way from which a read of n bytes takes its value, with the word's bit when it reads that (R231,
R234): as die d has applied them, or the coherence order's end. -/
def State.readFrom (s : State) (die : Option Nat) (pa n : Nat) (fe : Bool) : List (Nat × Inflight) :=
  let es := s.inflight.filter fun e => die.elim true fun d => !e.2.dies.contains d
  ((List.range n).filterMap (fun i => (es.filter fun e => e.2.old.any fun c => c.1 == pa + i).getLast?) ++
    (if fe then ((es.filter fun e => e.2.oldFe.any fun c => c.1 == pa / 8 * 8).getLast?).toList else [])).dedup

/-- The releases that thread k meets in those writes, with the write each was read from. -/
def State.metIn (s : State) (k : Nat) (sc : Scope) (es : List (Nat × Inflight)) : List (Nat × RelHead) :=
  es.flatMap fun e => (e.2.heads.filter fun h => s.meetsAt h.by_ h.scope k sc).map fun h => (e.1, h)

/-- The writes on their way that happen-before what follows an acquire that met these releases (R235). -/
def State.brought (s : State) (m : List (Nat × RelHead)) : List Nat :=
  (s.inflight.filter fun e => m.any fun x => x.1 == e.1 || x.2.past.contains e.1 || (e.2.op.map x.2.pend.contains).getD false).map (·.1)

/-- An acquire at .die or wider, or an acquire fence, of thread k has ended: it stands between earlier accesses still
outstanding and later ones (R236). -/
def State.markAcquire (s : State) (k seq : Nat) (fence : Bool) : State :=
  let early := fun (z : Nat) => s.ops.any fun e => decide (e.1 < z) && e.1 != seq && e.2.recv.contains k && e.2.kind.reads
  let h := s.hbOf k
  if early seq || !h.acqs.isEmpty then s.setHb k { h with acqs := ((seq, fence) :: h.acqs).filter fun z => early z.1 } else s

/-- An acquire of operation o is over: its threads see what the releases met cover (R234, R235). -/
def State.acquired (s : State) (seq : Nat) (o : Op) (es : List (Nat × Inflight)) : State :=
  if !o.ord.acq then s else
  o.recv.foldl (fun x k =>
    let y := x.see k (x.brought (x.metIn k o.ord.scope es))
    if wideScope o.ord.scope then y.markAcquire k seq false else y) s

/-- A read of operation o is performed: an acquire meets its releases; every read is remembered for a later FENCE.acq
(R234). -/
def State.afterRead (s : State) (seq : Nat) (o : Op) (pa n : Nat) (fe : Bool) : State :=
  let es := (s.readFrom (some (dieOf o.thr)) pa n fe).filter fun e => !e.2.heads.isEmpty
  let s1 := s.acquired seq o es
  if es.isEmpty then s1 else
  o.recv.foldl (fun x k =>
    let h := x.hbOf k
    x.setHb k { h with read := ((h.read ++ es.map (·.1)).filter fun i => (x.inflight.find i).isSome).dedup }) s1

/-- The operations of a release's author that it went ahead of are over. -/
def State.pendOver (s : State) (h : RelHead) : Bool := h.pend.all fun q => (s.ops.find q).isNone

/-- What an acquire would meet is complete: a release at .blk or .grv may have gone ahead of earlier accesses of its thread,
and only those outside its instance may see that (R232, R234). -/
def State.acqReady (s : State) (o : Op) (pa n : Nat) (fe : Bool) : Bool :=
  !o.ord.acq || o.recv.all fun k => (s.metIn k o.ord.scope (s.readFrom (some (dieOf k)) pa n fe)).all fun x => s.pendOver x.2

/-- The writes on their way that happen-before the next write of some threads (R235): their own from earlier operations, and
what their acquires brought. -/
def State.hbPast (s : State) (ks : List Nat) (op : Option Nat) : List Nat :=
  ((s.inflight.filter fun e => e.2.thrs.any ks.contains && (match e.2.op, op with
    | some a, some b => decide (a < b)
    | _, _ => true)).map (·.1) ++ ks.flatMap fun k => (s.hbOf k).seen).dedup

/-- Earlier accesses of some threads that are still outstanding. -/
def State.pendOf (s : State) (ks : List Nat) (op : Option Nat) : List Nat :=
  (s.ops.filter fun e => (op.elim true fun q => decide (e.1 < q)) && e.2.recv.any ks.contains && e.2.kind.touches).map (·.1)

/-- The writer that thread k's write is, made for the threads ks by an operation: a release carries its die's clock from .pkg
on (R237), a write after a FENCE.rel or FENCE.full carries what that covers (R234), and an atomic step continues the release
sequence of the write it reads. -/
def State.writerOf (s : State) (k : Nat) (ks : List Nat) (op : Option Nat) (rel : Bool) (sc : Scope) (seqOf : List RelHead) : Writer :=
  let rels := ks.flatMap fun j => (s.hbOf j).rels
  let past := (s.hbPast ks op ++ (if rel && pkgScope sc then s.clock (dieOf k) else []) ++ rels.flatMap (·.2)).dedup
  let me := s.authorOf k
  { thrs := ks, core := some (coreOf k), die := some (dieOf k), op := op, by_ := me, past := past
    heads := (if rel then [{ by_ := me, scope := sc, past := past, pend := if wideScope sc then [] else s.pendOf ks op }] else []) ++
      (rels.map fun r => { by_ := me, scope := r.1, past := past }) ++ seqOf }

/-- A thread's plain write: it enters its die's order (R236). -/
def State.threadWriter (s : State) (k : Nat) : Writer := s.writerOf k [k] none false .pkg []

/-! ## Order within a thread -/

/-- The page of a working view is OWNED: its frame is the working step's own (R257, R262). -/
def State.owned? (s : State) (r : Nat) : Bool := s.wstep r == (s.regionWO none (s.regionOf r)).1

/-- A store through b goes to the frame that a read through a sees: a write to a working page that is not OWNED belongs to a frame and a
step that only reads through the working view see (R242, R262). -/
def State.reaches (s : State) (b a : Access) : Bool := b.vrec == a.vrec || b.vrec.all s.owned?

/-- An earlier store of thread k, not performed yet, that covers byte pa of access a, under the key of the reader's leaf or not
(R254). -/
def State.ownStore (s : State) (seq k pa : Nat) (a : Access) (key : Nat → Bool) : Bool :=
  s.ops.any fun e => decide (e.1 < seq) && e.2.recv.contains k && (match e.2.kind with
    | .store b _ | .spill b _ => decide (s.paNow b ≤ pa) && decide (pa < s.paNow b + b.size) && s.reaches b a && key b.key
    | _ => false)

/-- Every byte of the access lies in an earlier store of the thread that is not performed yet, and in none under another key: what
such a store leaves can be read through memory only (R39, R254). -/
def State.ownBytes (s : State) (seq k : Nat) (a : Access) : Bool :=
  (List.range a.size).all fun i => s.ownStore seq k (s.paNow a + i) a (· == a.key) && !s.ownStore seq k (s.paNow a + i) a (· != a.key)

/-- Accesses x and then y of one thread to the same sector keep program order, but for a load that finds all its bytes in
own stores (R39, R231); a query of the traversal unit has read a sector at the latest when a later access of its thread is performed
there (State.snapUnits). -/
def State.sameSector (s : State) (seq : Nat) (x y : Op) : Bool :=
  !x.kind.isUnit && x.kind.accesses.any fun a => y.kind.accesses.any fun b =>
    decide (s.paNow a.1 / 64 = s.paNow b.1 / 64) && (!a.2 || s.reaches a.1 b.1) && !(y.kind.plainLoad && x.kind.plainStore && s.ownBytes seq y.thr b.1)

/-- Scratchpad accesses that share an aligned 8-byte item keep program order (R229, R231). -/
def sameItem (x y : Op) : Bool :=
  match x.kind.spad, y.kind.spad with
  | some (b1, o1, n1, _, _), some (b2, o2, n2, _, _) => b1 == b2 && decide (o1 / 8 ≤ (o2 + n2 - 1) / 8) && decide (o2 / 8 ≤ (o1 + n1 - 1) / 8)
  | _, _ => false

/-- A CAS whose compare fails now (R202). -/
def State.casFails (s : State) (o : Op) : Bool :=
  match o.kind with
  | .atomic a .cas ms => ms.all fun m => (s.readPa (some (dieOf o.thr)) a.key (s.paNow a) a.size).toNat != m.x.toNat % 2 ^ (8 * a.size)
  | _ => false

/-- The operation acts as a release now. -/
def State.releases (s : State) (o : Op) : Bool := o.ord.rel && !s.casFails o

/-- The CCTLs that invalidate instruction lines come after the thread's earlier stores and acquires (R147). -/
def OpKind.dropsCode : OpKind → Bool
  | .cctl .iinv _ | .cctl .iinvall _ => true
  | _ => false

/-- A store into a core's write-combining buffer (R225). -/
def OpKind.combines : OpKind → Bool
  | .store a _ => a.policy == 2
  | _ => false

/-- An operation that a release at a scope comes after: a buffered store reaches the host before a release at .sys only
(R225, R236). -/
def OpKind.before (k : OpKind) (sc : Scope) : Bool := k.touches && (!k.combines || sc == .sys)

/-- Earlier operation x of the same thread holds operation y back (R39, R229-R236): a release waits for every earlier access,
but one of memory at .blk or .grv goes ahead of them where only others see it; every later access waits for an acquire;
accesses to one place keep program order; and reads with an ended acquire between them do. A GRAFT releases at .pkg when it claims
(R339), and what it reads and writes is known only as it goes on, so that later accesses of its thread wait for its end (R231;
notes/assumptions/33). -/
def State.holds (s : State) (n : Nat) (x : Op) (m : Nat) (y : Op) : Bool :=
  (s.releases y && x.kind.before y.ord.scope && (wideScope y.ord.scope || y.kind.access.isNone)) ||
  (y.kind.isGraft && x.kind.before .pkg) || (x.kind.isGraft && (y.kind.access.isSome || y.kind.isUnit)) || (x.ord.acq && (y.kind.touches || y.ord.rel || y.kind.dropsCode)) || (y.kind.dropsCode && x.kind.writes) ||
  s.sameSector m x y || sameItem x y ||
  (x.kind.reads && y.recv.any fun k => x.recv.contains k && (s.hbOf k).acqs.any fun z =>
    decide (n < z.1) && decide (z.1 < m) && (y.kind.reads || (z.2 && y.kind.touches)))

/-- No earlier operation of a thread of the operation holds it back. -/
def State.orderOk (s : State) (seq : Nat) (o : Op) : Bool :=
  s.ops.all fun e => !(decide (e.1 < seq) && e.2.recv.any (o.recv.contains ·) && s.holds e.1 e.2 seq o)

/-! ## Classes, leases and caches -/

/-- The page is frozen by a migration (R266). -/
def State.frozen (s : State) (pa : Nat) : Bool :=
  match s.migration with
  | some m => m.frozen && m.src == pa / 65536 * 65536
  | none => false

/-- Every earlier write to the sector has reached die d (R231, R236): what exclusive ownership gives. -/
def State.sectorCurrent (s : State) (d pa : Nat) : Bool :=
  s.inflight.all fun e => !(e.2.dies.contains d && (e.2.old.any (fun c => c.1 / 64 == pa / 64) || e.2.oldFe.any (fun c => c.1 / 64 == pa / 64)))

/-- An access to the working view: reads wait while the page is COPYING, writes until it is OWNED (R262). -/
def State.versionOk (s : State) (a : Access) (write : Bool) : Bool :=
  match a.vrec with
  | none => true
  | some r => !s.copying r && (!write || s.wstep r == (s.regionWO none (s.regionOf r)).1)

/-- A WB access is performed in the L1 once that holds the sector as needed; NC, WC and peer accesses and those under .na or
.byp do not allocate there (R141, R217, R225, R412). -/
def Access.viaL1 (a : Access) : Bool := a.policy == 0 && !isPeer a.pa && a.hint != 2 && a.hint != 3

/-- An access under .na or .byp uses its line in the L1 where it finds it there (R142). -/
def State.usesL1 (s : State) (core : Nat) (a : Access) : Bool :=
  a.viaL1 || (a.policy == 0 && !isPeer a.pa && s.l1.any fun (l : L1Line) => l.core == core && l.line == s.paNow a / 256)

/-! Die-scope states (R395): 0 I, 1 S, 2 EX, 3 O. -/

def State.dieState (s : State) (sector d : Nat) : Nat := ((s.taproot.find sector).getD []).getD d 0

/-- The class record of a sector's frame. -/
def State.frameOf (s : State) (sector : Nat) : Frame := (s.frames.find (sector / 1024)).getD {}

/-- Taproot tracks the sectors of SHARED frames and of host memory (R221, R407). -/
def State.tracked (s : State) (sector : Nat) : Bool :=
  isHost (64 * sector) || (isDevice (64 * sector) && (s.frameOf sector).cls == .shared)

/-- The die holds what a core of it needs: its state at Taproot, or its frame's class (R222, R399). -/
def State.dieHas (s : State) (d sector : Nat) (write : Bool) : Bool :=
  if s.tracked sector then (if write then s.dieState sector d == 2 else s.dieState sector d != 0)
  else s.classOk d (64 * sector) write

def State.setDies (s : State) (sector : Nat) (f : Nat → Nat) : State :=
  let st := [0, 1, 2, 3].map f
  { s with taproot := if st.all (· == 0) then s.taproot.del sector else s.taproot.put sector st }

def State.setDie (s : State) (sector d v : Nat) : State := s.setDies sector fun e => if e = d then v else s.dieState sector e

/-- The die may hand out E: it holds the sector EX, or owns the frame (R399). -/
def State.dieExclusive (s : State) (d sector : Nat) : Bool :=
  if s.tracked sector then s.dieState sector d == 2
  else match (s.frameOf sector).cls with
    | .unseen => true
    | .priv e => e == d
    | .readonly | .shared => false

/-- An access that skips the L1 but needs its die to hold the sector: under .na, which allocates in the L2, and under .byp, which uses a
line that it finds there and leaves none (R141, R142). -/
def State.needsL2 (s : State) (core : Nat) (a : Access) : Bool :=
  a.policy == 0 && !isPeer a.pa && !s.usesL1 core a && (a.hint == 2 || a.hint == 3)

/-- The die's L2 holds the line. -/
def State.inL2 (s : State) (d line : Nat) : Bool := s.l2.any fun (l : L2Ent) => l.die == d && l.line == line

/-- Die d lost its copy of the sector to a write that it has not applied yet: its cores may still read what that write
replaced (R236, R237). -/
def State.stale (s : State) (d pa : Nat) : Bool := s.late.contains (d, pa / 64) && !s.sectorCurrent d pa

/-- The writes on their way that happen-before what thread k does next (R235). -/
def State.owed (s : State) (k : Nat) : List Nat :=
  s.inflight.foldr (fun e ids => if ids.contains e.1 then ids ++ e.2.past else ids) (s.hbOf k).seen

/-- Thread k may still read what its die holds of an older copy: no write to the sector that the die has yet to apply
happens-before the read (R231, R236). -/
def State.oldCopy (s : State) (k pa : Nat) : Bool :=
  s.stale (dieOf k) pa && !(s.inflight.any fun e => e.2.dies.contains (dieOf k) && (e.2.old.any (fun c => c.1 / 64 == pa / 64) ||
    e.2.oldFe.any (fun c => c.1 / 64 == pa / 64)) && (s.owed k).contains e.1)

/-- Nobody owns a sector of a READONLY frame: a form that only reads needs no more there than a copy (R222). -/
def State.exclusive (s : State) (pa : Nat) (excl : Bool) : Bool := excl && (s.frameOf (pa / 64)).cls != .readonly

/-- An L2 line with its directory entry, empty where the die holds none. -/
def State.l2Ent (s : State) (d line : Nat) : L2Ent :=
  (s.l2.find? fun (l : L2Ent) => l.die == d && l.line == line).getD { die := d, line := line }

/-- No core but c may hold the line. -/
def L2Ent.aloneFor (x : L2Ent) (c : Nat) : Bool := if x.coarse then x.groups.isEmpty else x.ptrs.all (· == c)

/-- Core c becomes a sharer (R399). -/
def L2Ent.join (x : L2Ent) (c : Nat) : L2Ent :=
  if x.coarse then { x with groups := (c % 512 / 8 :: x.groups).dedup }
  else if x.ptrs.contains c then x
  else if x.ptrs.length < 4 then { x with ptrs := x.ptrs ++ [c] }
  else { x with coarse := true, ptrs := [], groups := ((c :: x.ptrs).map fun k => k % 512 / 8).dedup }

/-- The L2 serves a core past its L1: the die holds the sector as needed, and no other core owns it, or for a write may hold it
(R141, R399, R400). -/
def State.l2Ready (s : State) (core pa : Nat) (excl : Bool) : Bool :=
  let x := s.l2Ent (core / 512) (pa / 256)
  s.dieHas (core / 512) (pa / 64) excl && (if excl then x.aloneFor core else x.owners.all fun o => o.1 != pa / 64 % 4 || o.2 == core)

/-- The caches hold the sector as the access needs it (R141, R217, R399, R400). -/
def State.cacheReady (s : State) (k : Nat) (a : Access) (want : Bool) : Bool :=
  let pa := s.paNow a
  let excl := s.exclusive pa want
  if s.usesL1 (coreOf k) a then decide ((if excl then 2 else 1) ≤ s.l1State (coreOf k) pa) || (!excl && s.oldCopy k pa)
  else !s.needsL2 (coreOf k) a || s.l2Ready (coreOf k) pa excl

/-- Every L1 copy of a line in the package is written back to its die's L2 and invalidated (R225). -/
def State.l1Out (s : State) (line : Nat) : State :=
  let ds := fun (d : Nat) => (s.l1.filter fun (l : L1Line) => l.line == line && l.core / 512 == d).flatMap fun (l : L1Line) =>
    (List.range 4).filter fun i => l.states.getD i 0 == 3
  { s with l1 := s.l1.filter fun (l : L1Line) => l.line != line
           coreMarks := s.coreMarks.filter fun m => m.2 / 4 != line
           l2 := s.l2.map fun (x : L2Ent) => if x.line = line then
             { x with dirty := (x.dirty ++ ds x.die).dedup, coarse := false, ptrs := [], groups := [], owners := [] } else x }

/-- The L2 slice of a line (R218). -/
def l2Slice (line : Nat) : Nat := line % 2 ^ 32 % 48

/-- Lines of one slice: 4 MiB of 256 bytes (R213). -/
def l2Lines : Nat := 16384

/-- An L2 serves a line one transaction at a time (R394). -/
def State.l2Busy (s : State) (d line : Nat) : Bool := s.txns.any fun e => e.2.die == some d && e.2.sector / 4 == line

/-- Die d holds a sector dirty: it answers M (R395, R396). -/
def State.dieDirty (s : State) (d sector : Nat) : Bool :=
  (s.l2Ent d (sector / 4)).dirty.contains (sector % 4) || s.l1.any fun (l : L1Line) => l.core / 512 == d && l.line == sector / 4 && l.states.getD (sector % 4) 0 == 3

/-- A home or an L2 serves a sector, or a line, one request at a time (R394, R397). -/
def State.homeBusy (s : State) (sector : Nat) : Bool :=
  s.txns.any fun e => e.2.die.isNone && (e.2.sector == sector || (e.2.kind == .recall && e.2.sector / 4 == sector / 4))

/-- A die that has applied every write to a sector and takes a copy anew holds no older one (R236, R237). -/
def State.fresh (s : State) (d sector : Nat) : State :=
  if s.sectorCurrent d (64 * sector) then { s with late := s.late.filter (· != (d, sector)) } else s

/-- The line a full set gives up: one marked evict-first, else the least recently used unmarked one, else one marked
keep. -/
def State.l1Victim (s : State) (core line : Nat) : Option Nat :=
  let set := s.l1.filter fun (l : L1Line) => l.core == core && l.line % 64 == line % 64
  if set.length < 16 then none else
  let last := fun m => (set.filter fun (l : L1Line) => l.mark == m).getLast?
  ((last 1).orElse fun _ => (last 0).orElse fun _ => last 2).map (·.line)

/-- A sector enters a core's L1 in a state. -/
def State.l1Put (s : State) (core sector v : Nat) : State :=
  let line := sector / 4
  match s.l1.find? (fun (l : L1Line) => l.core == core && l.line == line) with
  | some l => { s with l1 := { l with states := l.states.set (sector % 4) v } :: s.l1.erase l }
  | none =>
    let s1 := (s.l1Victim core line).elim s fun v => s.evictLine core v
    { s1 with l1 := { core := core, line := line, states := [0, 0, 0, 0].set (sector % 4) v } :: s1.l1 }

/-- A line leaves a die's L2: the die's L1s give it up first, dirty sectors are written back, and the die's states of its
sectors end (R218, R396). A probe of Taproot that the eviction crosses is answered with what the die held (R401). -/
def State.l2Evict (s : State) (d line : Nat) : State :=
  { s with probes := s.probes.mapVals fun _ (p : Probe) =>
             if p.die = d ∧ p.core = none ∧ p.sector / 4 = line ∧ p.answered = false then { p with dirty := p.dirty || s.dieDirty d p.sector } else p
           l1 := s.l1.filter fun (l : L1Line) => !(l.core / 512 == d && l.line == line)
           coreMarks := s.coreMarks.filter fun m => !(m.1 / 512 == d && m.2 / 4 == line)
           l2 := s.l2.filter fun (x : L2Ent) => !(x.die == d && x.line == line)
           taproot := s.taproot.filterMap fun e => if e.1 / 4 = line then
             (if (e.2.set d 0).all (· == 0) then none else some (e.1, e.2.set d 0)) else some e }

/-- The line that a full slice gives up: one marked evict-first, else an unmarked one, else a kept one; which of them is free (R141, R142,
R218; notes/assumptions/24). One that a transaction or a notice is about stays (R394, R401). -/
def State.l2Victim (s : State) (d line : Nat) : Option Nat :=
  let all := s.l2.filter fun (x : L2Ent) => x.die == d && l2Slice x.line == l2Slice line
  if all.length < l2Lines then none else
  let set := all.filter fun (x : L2Ent) => !s.l2Busy d x.line && !s.notices.any fun n => n.core / 512 == d && n.line == x.line
  let first := set.filter fun (x : L2Ent) => x.mark == 1
  let free := set.filter fun (x : L2Ent) => x.mark != 2
  let from_ := if !first.isEmpty then first else if free.isEmpty then set else free
  (from_[s.pick 12 % from_.length]?).map (·.line)

/-- A line's entry in its die's L2, which makes room for a new one. -/
def State.setL2 (s : State) (x : L2Ent) : State :=
  let s1 := if s.l2.any (fun (l : L2Ent) => l.die == x.die && l.line == x.line) then s
    else (s.l2Victim x.die x.line).elim s fun v => s.l2Evict x.die v
  { s1 with l2 := x :: s1.l2.filter fun (l : L2Ent) => !(l.die == x.die && l.line == x.line) }

/-- The line is in the die's L2 (R141, R145). -/
def State.l2Alloc (s : State) (d pa : Nat) : State := s.setL2 (s.l2Ent d (pa / 256))

/-- The caches after an access of a core was performed: in the L1 the line is the newest of its set, with the mark of its hint
(R141, R217); under .na or .byp a store marks a dirty line evict-first and a load changes no mark (R142); one that goes through
the L2 finds or allocates its line there, dirty after a store (R141, R218), but one under .byp allocates none, and its store marks the line
that it merges into evict-first (R142); an NC access has taken the line out of every L1 (R225, R226). -/
def State.l1Use (s : State) (core : Nat) (a : Access) (write : Bool) : State :=
  let line := s.paNow a / 256
  if a.policy = 1 then s.l1Out line else
  if a.policy = 2 ∨ isPeer a.pa = true then s else
  match s.l1.find? (fun (l : L1Line) => l.core == core && l.line == line) with
  | none =>
    if s.needsL2 core a && (a.hint != 3 || s.inL2 (core / 512) line) then
      let x := s.l2Ent (core / 512) line
      s.setL2 (if write then { x with dirty := (x.dirty ++ [s.paNow a / 64 % 4]).dedup, mark := if a.hint = 3 then 1 else x.mark } else x)
    else s
  | some l =>
    let m := if a.hint = 1 ∨ (write = true ∧ (a.hint = 2 ∨ a.hint = 3) ∧ l.states.any (· == 3)) then 1 else if a.hint = 4 then 2 else l.mark
    { s with l1 := { l with mark := m } :: s.l1.erase l }

/-- The access goes on outside the thread's die, where it may fault at its own PC: a write to a working page that still needs a
copy-on-write, or a peer that must accept it; the thread is held until it is performed (R30, R262, R411). -/
def State.slow (s : State) (a : Access) (write : Bool) : Bool := (write && a.vrec.any fun r => !s.owned? r) || isPeer a.pa

/-- An access that a switch held is over. -/
def State.replayGone (s : State) (q : Nat) : Bool :=
  (s.ops.find q).isNone && (s.cmds.find q).all (·.done) && !s.heldWr.any fun (h : HeldWr) => h.id == q

/-- Accesses held until the switch of a copy-on-write or a migration go before every later access to the new frame, in the order
of their issue (R262, R263, R266). -/
def State.replayOk (s : State) (seq pa : Nat) : Bool :=
  s.replay.all fun (r : Replay) => decide (r.frame ≠ pa / 65536 * 65536) ||
    (if r.ops.contains seq then r.ops.takeWhile (· != seq) else if r.limit ≤ seq then r.ops else []).all s.replayGone

/-- None of the accesses held until the switch of a page stands before one of an agent: those before its own, where it is one of them, or
all of them (R262, R266). -/
def State.replayFreeFor (s : State) (id pa : Nat) : Bool :=
  s.replay.all fun (r : Replay) => decide (r.frame ≠ pa / 65536 * 65536) ||
    (if r.ops.contains id then r.ops.takeWhile (· != id) else r.ops).all s.replayGone

def State.replayFree (s : State) (pa : Nat) : Bool := s.replayFreeFor s.nextSeq pa

/-- An access to a page under a switch has come, and waits for it (R262, R266). -/
def State.queueOn (s : State) (id pa : Nat) : State :=
  if s.queued.contains (pa / 65536 * 65536, id) then s else { s with queued := s.queued ++ [(pa / 65536 * 65536, id)] }

/-- A home works on a sector that an agent's access touches: the access waits there (R394). -/
def State.homeFree (s : State) (pa n : Nat) : Bool := (sectorsOf pa n).all fun sec => !s.homeBusy sec

/-- An NC access of an agent takes its line out of every L1 first (R225, R226). -/
def State.ncOut (s : State) (a : Access) : State := if a.policy = 1 then s.l1Out (s.paNow a / 256) else s

/-- The die has applied every write that happens-before the next write of some threads, so that this one enters the die's order
after them (R236, R237). -/
def State.pastHere (s : State) (d : Nat) (ks : List Nat) (op : Option Nat) : Bool :=
  (s.hbPast ks op).all fun i => (s.inflight.find i).all fun e => !e.dies.contains d

/-- Nothing holds the access of a thread's operation back: a read needs every write of its sector applied by its die, but for
a die that had a copy (R222, R236, R396). -/
def State.accessOk (s : State) (seq k : Nat) (a : Access) (write excl : Bool) : Bool :=
  let pa := s.paNow a
  s.cacheReady k a (write || excl) && s.versionOk a write && !s.frozen pa && s.classOk (dieOf k) pa write && (!write || s.leaseFreeFor (some seq) pa) &&
  (s.sectorCurrent (dieOf k) pa || (!(write || excl) && s.usesL1 (coreOf k) a && s.oldCopy k pa))

/-! ## Peers (R408-R415) -/

/-- The peer package of an address and whether it is marked down (R408). -/
def State.peerDown (s : State) (f : Nat) : Bool := bit (s.reg (Off.fb (0x100 + 8 * (f / 64)))) (f % 64)

/-- The estimate of the PTP offset is within FB_SKEW (R415). -/
def State.skewOk (s : State) : Bool := decide ((s.reg (Off.fb 0x30)).toInt.natAbs ≤ bits (s.reg (Off.fb 0x10)) 31 0)

/-- A valid copy of a peer line under a lease (R412, R415). -/
def State.leaseValid (s : State) (pa : Nat) : Bool :=
  s.skewOk && s.leases.any fun l => l.line == pa / 256 && decide (s.ptp + bits (s.reg (Off.fb 0x10)) 31 0 < l.expiry)

/-- A lease is kept with the line that a WB load brings, when the offset estimate and the home's room allow (R412,
R415). -/
def State.leaseTake (s : State) (pa expiry : Nat) : State :=
  if !s.skewOk then s
  else { s with leases := { line := pa / 256, expiry := expiry } :: s.leases.filter (fun l => l.line != pa / 256) }

/-- The storing package drops its copy of a peer line when a write to it is issued (R413). -/
def State.dropPeerCopy (s : State) (pa : Nat) : State :=
  if isPeer pa then { s with leases := s.leases.filter fun l => l.line != pa / 256 } else s

/-! ## Reading and writing -/

/-- What the host stored to its own memory, or a peer to its own, since this package last read it there: a free choice writes
free bytes before a read that goes to the owner (R231, R245, R246; notes/assumptions/22); a peer stores to no line while a lease of it is
valid here (R412, R414). -/
def State.outsideStore (s : State) (pa n : Nat) : State :=
  if (isHost pa || (isPeer pa && !s.leaseValid pa)) && s.pick 15 % 2 == 1 then
    s.writePa { by_ := if isHost pa then .host else .peer, now := true
                heads := [{ by_ := if isHost pa then .host else .peer, scope := if isHost pa then .sys else .fab, past := [] }] } 0 pa
      ((List.range n).map fun i => (Config.unstated s.draws (2 ^ 20 + pa + i)).setWidth 8) none
  else s

/-- No die holds a sector of host memory: a read of it goes to the host (R245, R407). -/
def State.fromHost (s : State) (pa : Nat) : Bool :=
  isHost pa && (s.taproot.find (pa / 64)).isNone && !s.l1.any fun (l : L1Line) => l.line == pa / 256

/-- An agent's read of n bytes: of host memory that no die holds, as the host may have left it (R223, R245). -/
def State.agentRead (s : State) (pa n : Nat) : State :=
  let s1 := if s.fromHost pa then s.outsideStore pa n else s
  (sectorsOf pa n).foldl State.shareSector s1

/-- The bytes a thread's load reads: memory as its die sees it, under its own earlier stores (R39, R236); a store under another
key is seen through memory only (R254). -/
def State.forward (s : State) (seq k : Nat) (r : Access) (pa : Nat) (b : Byte) : Byte :=
  s.ops.foldl (fun b e =>
    if e.1 < seq && e.2.recv.contains k then
      match e.2.kind with
      | .store a v | .spill a v =>
        let p := s.paNow a
        if p ≤ pa ∧ pa < p + a.size ∧ a.key = r.key ∧ s.reaches a r = true then BitVec.ofNat 8 (v.toNat / 256 ^ (pa - p)) else b
      | _ => b
    else b) b

def State.loadBytes (s : State) (seq k : Nat) (a : Access) (pa : Nat) : Nat → List Byte
  | 0 => []
  | n + 1 => s.forward seq k a pa (s.byteAt (some (dieOf k)) a.key pa) :: s.loadBytes seq k a (pa + 1) n

/-- The value an access of thread k loads. -/
def State.loadValue (s : State) (seq k : Nat) (a : Access) : Word :=
  BitVec.ofNat 64 (ofLe (s.loadBytes seq k a (s.paNow a) a.size))

/-- What a core's L1 and its die's directory hold after a read was granted: E where the die may hand it out and no other core holds the
line, else S; what the grant gave (R399). -/
def State.joinL1 (s : State) (core sector : Nat) : State × Bool :=
  let d := core / 512
  let x := s.l2Ent d (sector / 4)
  let own := x.owners.filter fun o => o.1 != sector % 4
  let excl := s.dieExclusive d sector && x.aloneFor core
  ((((s.fresh d sector).setL2 { x.join core with owners := if excl then own ++ [(sector % 4, core)] else own }).l1Put core sector (if excl then 2 else 1)), excl)

/-- Zero or sign extension of an item of n bytes (R139). -/
def extend (n : Nat) (sgn : Bool) (v : Word) : Word := narrow (8 * n) sgn v.toNat

/-- The mark of a load whose data hold an uncorrectable error (R357, R439). -/
def State.loadMark (s : State) (o : Op) (a : Access) : Option Mark :=
  if s.badMem.contains (s.paNow a / 64) then some { issuePc := o.pc.setWidth 64, source := 20, code := 0, addr := BitVec.ofNat 64 a.va } else none

/-- The HBM stack of a device-memory address (R220). -/
def hbmStack (pa : Nat) : Nat := (pa / 2 ^ 12 % 16) ^^^ (pa / 2 ^ 20 % 16)

/-- Its offset in the stack (R220). -/
def hbmOffset (pa : Nat) : Nat := pa / 2 ^ 16 % 2 ^ 24 * 4096 + pa % 4096

/-- The die that a stack sits beside: stacks HS4d to HS4d+3 sit beside CDd (R9, R220). -/
def stackDie (st : Nat) : Nat := st / 4

/-- The memory level at which an access of thread k is found, as the caches stand (R388; notes/assumptions/37): the core's L1, its die's L2,
another die's that holds the sector exclusively or dirty, else memory, which answers from the stack of R220. -/
def State.heldLevel (s : State) (k : Nat) (a : Access) : Nat :=
  let pa := s.paNow a
  let d := dieOf k
  if s.usesL1 (coreOf k) a && s.l1State (coreOf k) pa != 0 then 1
  else if a.policy == 0 && s.l2.any (fun (l : L2Ent) => l.die == d && l.line == pa / 256) then 2
  else if [0, 1, 2, 3].any (fun e => e != d && decide (2 ≤ s.dieState (pa / 64) e)) then 3
  else if isHost pa then 6 else if isPeer pa then 7 else if stackDie (hbmStack pa) = d then 4 else 5

/-- The sectors that an operation reads or writes have been read by every earlier query of its threads that the traversal unit still
runs: the query's later read of such a sector finds it as it stood then (R231, R329). -/
def State.snapUnits (s : State) (seq : Nat) (ks : List Nat) (a : Access) : State :=
  let sec := s.paNow a / 64
  if s.ops.any fun e => e.2.kind.isUnit then
    { s with ops := s.ops.mapVals fun n o =>
        if n < seq ∧ o.recv.any ks.contains = true ∧ (o.kind.unitSt.snap.any fun x => x.1 == sec && x.2.1 == a.key) = false then
          { o with kind := o.kind.withUnit fun u => if o.kind.isUnit then { u with snap := u.snap ++ [(sec, a.key, s.bytesAt (some (dieOf o.thr)) a.key (64 * sec) 64)] } else u }
        else o }
  else s

/-- A served access of thread k: class, tenant, caches and the store itself. -/
def State.storeNow (s : State) (k : Nat) (w : Writer) (a : Access) (bs : List Byte) : State :=
  (((w.op.elim s fun q => s.snapUnits q w.thrs a).l1Use (coreOf k) a true).classTouch (dieOf k) a.ctx (s.paNow a)).writePa w a.key (s.paNow a) bs none

/-- A write of thread k that sets the word's bit, waking its waiters (R149). -/
def State.storeFe (s : State) (k : Nat) (w : Writer) (a : Access) (v : Option Word) (b : Bool) : State :=
  (((w.op.elim s fun q => s.snapUnits q w.thrs a).l1Use (coreOf k) a true).classTouch (dieOf k) a.ctx (s.paNow a)).writeWordFe w a.key (s.paNow a) v b

/-- A served read of an operation of thread k: class, tenant and caches. -/
def State.readNow (s : State) (seq : Nat) (o : Op) (a : Access) : State :=
  ((s.snapUnits seq o.recv a).l1Use (coreOf o.thr) a false).classTouch (dieOf o.thr) a.ctx (s.paNow a)

/-- The writer of an operation's write: a release, or a plain write; an atomic step reads the write before it (R231, R234). -/
def State.opWriter (s : State) (seq : Nat) (o : Op) (ks : List Nat) (rmw : Option Access) : Writer :=
  s.writerOf o.thr ks (some seq) (s.releases o) o.ord.scope
    (match rmw with
      | some a => (s.readFrom none (s.paNow a) a.size true).flatMap (·.2.heads)
      | none => [])

end Sys2Proof.Machine
end

