-- ==== Sys2Proof/Machine/Memory.lean ====
section
/-! DEFINITION. The meanings of the load, store, scratchpad, residency, cache-control and full/empty instructions and of
the atomics (spec/07_isa_memory_access.md R135-R153, spec/10_isa_synchronisation.md R201-R204,
spec/14_translation_and_versions.md R264, R265, spec/13_consistency_model.md R239). -/

namespace Sys2Proof.Machine

/-- The step that a published view shows a die: W − 1 (R259). -/
def State.shownStep (s : State) (die record : Nat) : Nat := stepBefore (s.regionWO (some die) (s.regionOf record)).1

/-- A page that is away, under a residency predicate: p7 faults, another predicate completes with zeros (R137); a form without a
result completes at once (R138). step: the step that an LDV names (R354). -/
def State.awayOp (s : State) (q : Issue) (l : Nat) (recv : List Nat) (pr : Nat) (kind : Kind) (a : Word) (zeros : List Landing) (step : Nat := 0) : Except FaultInfo State :=
  if pr = 7 then .error { cause := .nonres, kind := kind, addr := a, step := step }
  else .ok (s.startOp q q.flag.isNone {} l recv (0, if zeros.isEmpty then some 1 else none) (.result (zeros ++ [.pred pr false])))

/-- LD of n bytes (R136, R137, R139). -/
def State.execLoad (s : State) (c : Ctl) (off : BitVec 12) (pr : PReg) (hint : Nat) (n : Nat) (sgn : Bool) (vd va : Reg) : State :=
  s.runGang (issue64 c) [vd.toNat, va.toNat] [va.toNat] true fun s l recv =>
    let t := s.thr l
    let a := t.ea va.toNat off
    match s.check4 l t a n n .read true false .load with
    | .error f => .error f
    | .ok lf =>
      match s.place (Agent.core l) (s.ctxOf t) a n lf with
      | .error .away => s.awayOp (issue64 c) l recv pr.toNat .load a [.reg vd.toNat 0 none]
      | .error (.fault cs) => .error { cause := cs, kind := .load, addr := a, step := s.shownStep (dieOf l) lf.record }
      | .ok x => .ok ((s.used l t a).startOp (issue64 c) ((issue64 c).flag.isNone || s.slow x false) {} l recv (0, none) (.load { x with hint := hint } sgn vd.toNat pr.toNat))

/-- ST of n bytes: it completes when performed, and the thread waits only on its flag (R138, R140). -/
def State.execStore (s : State) (c : Ctl) (off : BitVec 12) (hint : Nat) (n : Nat) (src va : Reg) : State :=
  s.runGang (issue64 c) [src.toNat, va.toNat] [src.toNat, va.toNat] true fun s l recv =>
    let t := s.thr l
    let a := t.ea va.toNat off
    match s.check5 l t a n n .write false true .store with
    | .error f => .error f
    | .ok x => .ok (((s.used l t a).dropPeerCopy x.pa).startOp (issue64 c) (s.slow x true) {} l recv (0, none) (.store { x with hint := hint } (t.reg src.toNat)))

/-- The scratchpad checks (R143): alignment, then the bound of the block's allocation. -/
def State.spadCheck (s : State) (t : Thread) (o : Word) (n : Nat) (kind : Kind) : Except FaultInfo Nat :=
  if o.toNat % n ≠ 0 then .error { cause := .misalign, kind := kind, addr := o }
  else match s.blocks.find t.blk with
    | some b => if b.scratchBytes < o.toNat + n then .error { cause := .spbound, kind := kind, addr := o } else .ok o.toNat
    | none => .error { cause := .spbound, kind := kind, addr := o }

/-- LDS (R143). -/
def State.execLds (s : State) (c : Ctl) (off : BitVec 12) (n : Nat) (sgn : Bool) (vd va : Reg) : State :=
  s.runGang (issue64 c) [vd.toNat, va.toNat] [va.toNat] true fun s l recv =>
    let t := s.thr l
    match s.spadCheck t (t.ea va.toNat off) n .scratch with
    | .error f => .error f
    | .ok o => .ok (s.startOp (issue64 c) (issue64 c).flag.isNone {} l recv (0, none) (.lds t.blk o n sgn vd.toNat))

/-- STS (R143). -/
def State.execSts (s : State) (c : Ctl) (off : BitVec 12) (n : Nat) (src va : Reg) : State :=
  s.runGang (issue64 c) [src.toNat, va.toNat] [src.toNat, va.toNat] true fun s l recv =>
    let t := s.thr l
    match s.spadCheck t (t.ea va.toNat off) n .scratch with
    | .error f => .error f
    | .ok o => .ok (s.startOp (issue64 c) false {} l recv (0, none) (.sts t.blk o n (t.reg src.toNat)))

/-- A region closes at its block's first event that R168 names. -/
def State.closeIdem (s : State) (k : Nat) : State := s.updBlock (s.thr k).blk fun b => { b with idemOpen := false }

/-- The full/empty forms (R148): kind of effect, waiting or not, orders at the scope, and what the vd field holds. A form that may
wait closes its block's idempotent region when it issues, also where it then parks: R168 leaves that open
(notes/assumptions/16). -/
def State.execFe (s : State) (c : Ctl) (off : BitVec 12) (pr : PReg) (o : FeOp) (named reads : List Nat) (need : Need) (rd wr waits : Bool)
    (ord : Order) (src : Option Nat) (dst : Nat) (zeros : List Landing) (va : Reg) : State :=
  s.runGang (issue64 c) (va.toNat :: named) (va.toNat :: reads) true fun s l recv =>
    let t := s.thr l
    let a := t.ea va.toNat off
    match s.check4 l t a 8 8 need rd wr .fe with
    | .error f => .error f
    | .ok lf =>
      let away := s.awayOp (issue64 c) l recv pr.toNat .fe a zeros
      match s.place (Agent.core l) (s.ctxOf t) a 8 lf with
      | .error .away => away
      | .error (.fault cs) => .error { cause := cs, kind := .fe, addr := a, step := s.shownStep (dieOf l) lf.record }
      | .ok x =>
        if isDevice x.pa then
          let s1 := if o = .ldw ∨ o = .feq then s else recv.foldl (fun s k => s.closeIdem k) s
          .ok ((s1.used l t a).startOp (issue64 c) ((issue64 c).flag.isNone || waits || s.slow x wr) ord l recv (0, none)
            (.feform x o (match src with
              | some r => t.reg r
              | none => 0) dst pr.toNat))
        else if isHost x.pa && (s.tagPages.find (x.pa / 65536)).isSome then away
        else .error { cause := .fenotag, kind := .fe, addr := a }

/-- The extension of an atomic's old value (R201, R113). -/
def atomExt (ty : AtomTy) (n : Nat) (v : Nat) : Word :=
  match ty with
  | .s => narrow (8 * n) true v
  | .n | .d | .f => fword' v
where
  fword' (v : Nat) : Word := BitVec.ofNat 64 v

/-- Bytes of an atomic's item. -/
def atomSize (four : Bool) : Nat := if four then 4 else 8

/-- Does an order hold acquire, release (R201). -/
def AOrder.acq : AOrder → Bool
  | .acqRel | .acquire => true
  | .release | .relaxed => false
def AOrder.rel : AOrder → Bool
  | .acqRel | .release => true
  | .acquire | .relaxed => false

/-- Members of a gang that name the same item form one atomic step, in ascending lane order (R204): the members are
appended to the operation of this issue on that item. -/
def joinAtomic (gang : List Nat) (first : Nat) (a : Access) (fn : AtomFn) (m : AtomMember) (flag : Option Nat) : Tbl Op → Option Nat
  | [] => none
  | (seq, o) :: t =>
    match o.kind with
    | .atomic b g _ => if first ≤ seq ∧ b.pa = a.pa ∧ b.size = a.size ∧ g = fn ∧ o.flag = flag ∧ m.thr ≠ o.thr ∧ o.thr ∈ gang then some seq else joinAtomic gang first a fn m flag t
    | _ => joinAtomic gang first a fn m flag t

/-- An operation takes one more member. -/
def Op.addMember (o : Op) (m : AtomMember) (recv : List Nat) : Op :=
  { o with recv := o.recv ++ recv
           kind := match o.kind with
             | .atomic a fn ms => .atomic a fn (ms ++ [m])
             | .atoms b off n fn ms => .atoms b off n fn (ms ++ [m])
             | k => k }

/-- ATOM, RED and CAS (R201-R204): checks with write permission; a non-resident page raises NONRES, a WC page NOATOM. -/
def State.execAtomic (s : State) (c : Ctl) (four : Bool) (fn : AtomFn) (ord : Order) (named reads : List Nat) (va : Nat) (vx : Nat) (vy : Option Nat)
    (vd : Option Nat) : State :=
  let first := s.nextSeq
  s.runGang (issue64 c) (va :: named) (va :: reads) true fun s l recv =>
    let t := s.thr l
    let a := t.reg va
    let n := atomSize four
    match s.check5 l t a n n .write true true .atomic with
    | .error f => .error f
    | .ok x =>
      if x.policy = 2 then .error { cause := .noatom, kind := .atomic, addr := a } else
      let y := match vy with
        | some r => t.reg r
        | none => 0
      let m : AtomMember := { thr := l, x := t.reg vx, y := y, dst := vd, num := s.nextSeq }
      let s1 := ((recv.foldl (fun s k => s.closeIdem k) s).used l t a).dropPeerCopy x.pa
      let sync := (issue64 c).flag.isNone || s.slow x true
      match joinAtomic s.gang first x fn m (issue64 c).flag s1.ops with
      | some seq =>
        let s2 := { s1 with ops := s1.ops.upd seq fun o => o.addMember m recv, nextSeq := s1.nextSeq + 1 }
        .ok (if sync then recv.foldl (fun x k => x.updThread k fun t => { t with status := .sync seq }) s2 else s2)
      | none => .ok (s1.startOp (issue64 c) sync ord l recv (0, none) (.atomic x fn [m]))

/-- TOUCH completes at once on a resident page, else when the service answers (R144). -/
def State.touchStart (s : State) (c : Ctl) (l : Nat) (recv : List Nat) (pr : Nat) (a : Word) (lf : Leaf) : State :=
  let ctx := s.ctxOf (s.thr l)
  if lf.resident then s.startOp (issue64 c) (issue64 c).flag.isNone {} l recv (0, some 1) (.result [.pred pr true])
  else
    let s1 := s.startOp (issue64 c) (issue64 c).flag.isNone {} l recv (0, none) (.touch a.toNat ctx pr none)
    let s2 := { s1 with resReqs := s1.resReqs ++ [{ ctx := ctx, va := a.toNat, op := some s.nextSeq }] }
    if bit (s.c0Of (s.thr l)) 24 then s2.service 1 ctx a 0 else s2

/-- LD.b8; a hint changes no value (R139, R141). -/
def execLdB8 (c : Ctl) (off : BitVec 12) (pr : PReg) (hint : Hint) (vd va : Reg) (s : State) : Out :=
  .next (s.execLoad c off pr hint.toCode.toNat 1 false vd va)

/-- LD.b16; a hint changes no value (R139, R141). -/
def execLdB16 (c : Ctl) (off : BitVec 12) (pr : PReg) (hint : Hint) (vd va : Reg) (s : State) : Out :=
  .next (s.execLoad c off pr hint.toCode.toNat 2 false vd va)

/-- LD.b32; a hint changes no value (R139, R141). -/
def execLdB32 (c : Ctl) (off : BitVec 12) (pr : PReg) (hint : Hint) (vd va : Reg) (s : State) : Out :=
  .next (s.execLoad c off pr hint.toCode.toNat 4 false vd va)

/-- LD.b64; a hint changes no value (R139, R141). -/
def execLdB64 (c : Ctl) (off : BitVec 12) (pr : PReg) (hint : Hint) (vd va : Reg) (s : State) : Out :=
  .next (s.execLoad c off pr hint.toCode.toNat 8 false vd va)

/-- LD.s8; a hint changes no value (R139, R141). -/
def execLdS8 (c : Ctl) (off : BitVec 12) (pr : PReg) (hint : Hint) (vd va : Reg) (s : State) : Out :=
  .next (s.execLoad c off pr hint.toCode.toNat 1 true vd va)

/-- LD.s16; a hint changes no value (R139, R141). -/
def execLdS16 (c : Ctl) (off : BitVec 12) (pr : PReg) (hint : Hint) (vd va : Reg) (s : State) : Out :=
  .next (s.execLoad c off pr hint.toCode.toNat 2 true vd va)

/-- LD.s32; a hint changes no value (R139, R141). -/
def execLdS32 (c : Ctl) (off : BitVec 12) (pr : PReg) (hint : Hint) (vd va : Reg) (s : State) : Out :=
  .next (s.execLoad c off pr hint.toCode.toNat 4 true vd va)

/-- ST.b8 (R140, R141). -/
def execStB8 (c : Ctl) (off : BitVec 12) (hint : Hint) (src va : Reg) (s : State) : Out :=
  .next (s.execStore c off hint.toCode.toNat 1 src va)

/-- ST.b16 (R140, R141). -/
def execStB16 (c : Ctl) (off : BitVec 12) (hint : Hint) (src va : Reg) (s : State) : Out :=
  .next (s.execStore c off hint.toCode.toNat 2 src va)

/-- ST.b32 (R140, R141). -/
def execStB32 (c : Ctl) (off : BitVec 12) (hint : Hint) (src va : Reg) (s : State) : Out :=
  .next (s.execStore c off hint.toCode.toNat 4 src va)

/-- ST.b64 (R140, R141). -/
def execStB64 (c : Ctl) (off : BitVec 12) (hint : Hint) (src va : Reg) (s : State) : Out :=
  .next (s.execStore c off hint.toCode.toNat 8 src va)

/-- LDS.b8 (R143). -/
def execLdsB8 (c : Ctl) (off : BitVec 12) (vd va : Reg) (s : State) : Out :=
  .next (s.execLds c off 1 false vd va)

/-- LDS.b16 (R143). -/
def execLdsB16 (c : Ctl) (off : BitVec 12) (vd va : Reg) (s : State) : Out :=
  .next (s.execLds c off 2 false vd va)

/-- LDS.b32 (R143). -/
def execLdsB32 (c : Ctl) (off : BitVec 12) (vd va : Reg) (s : State) : Out :=
  .next (s.execLds c off 4 false vd va)

/-- LDS.b64 (R143). -/
def execLdsB64 (c : Ctl) (off : BitVec 12) (vd va : Reg) (s : State) : Out :=
  .next (s.execLds c off 8 false vd va)

/-- LDS.s8 (R143). -/
def execLdsS8 (c : Ctl) (off : BitVec 12) (vd va : Reg) (s : State) : Out :=
  .next (s.execLds c off 1 true vd va)

/-- LDS.s16 (R143). -/
def execLdsS16 (c : Ctl) (off : BitVec 12) (vd va : Reg) (s : State) : Out :=
  .next (s.execLds c off 2 true vd va)

/-- LDS.s32 (R143). -/
def execLdsS32 (c : Ctl) (off : BitVec 12) (vd va : Reg) (s : State) : Out :=
  .next (s.execLds c off 4 true vd va)

/-- STS.b8 (R143). -/
def execStsB8 (c : Ctl) (off : BitVec 12) (src va : Reg) (s : State) : Out :=
  .next (s.execSts c off 1 src va)

/-- STS.b16 (R143). -/
def execStsB16 (c : Ctl) (off : BitVec 12) (src va : Reg) (s : State) : Out :=
  .next (s.execSts c off 2 src va)

/-- STS.b32 (R143). -/
def execStsB32 (c : Ctl) (off : BitVec 12) (src va : Reg) (s : State) : Out :=
  .next (s.execSts c off 4 src va)

/-- STS.b64 (R143). -/
def execStsB64 (c : Ctl) (off : BitVec 12) (src va : Reg) (s : State) : Out :=
  .next (s.execSts c off 8 src va)

/-- Bytes and extension of an LDV size (R264). -/
def ldvSize : LdSize → Nat × Bool
  | .b8 => (1, false) | .b16 => (2, false) | .b32 => (4, false) | .b64 => (8, false)
  | .s8 => (1, true) | .s16 => (2, true) | .s32 => (4, true)

/-- LDV: the version checks, and that the step's frame exists, come before residency; W and O are the values its die has applied
(R251, R264). Every fault of its own carries the step it names (R354). -/
def execLdv (c : Ctl) (size : LdSize) (pr : PReg) (vd va vb : Reg) (s : State) : Out :=
  .next (s.runGang (issue64 c) [vd.toNat, va.toNat, vb.toNat] [va.toNat, vb.toNat] true fun s l recv =>
    let t := s.thr l
    let a := t.reg va.toNat
    let st := (t.reg vb.toNat).toNat % 2 ^ 32
    let n := (ldvSize size).1
    match s.check4 l t a n n .read true false .versioned with
    | .error f => .error { f with step := st }
    | .ok lf =>
      let err := fun cs => Except.error (ε := FaultInfo) (α := State) { cause := cs, kind := .versioned, addr := a, step := st }
      if !lf.versioned then err .vnone else
      let wo := s.regionWO (some (dieOf l)) (s.regionOf lf.record)
      if wo.1 < st then err .vfuture
      else if st = wo.1 then err .workingread
      else if st < wo.2 then err .vretired
      else match s.resolve lf.record st with
        | none => err .vretired
        | some f =>
          if !isDevice f then err .xlate
          else if !lf.resident then s.awayOp (issue64 c) l recv pr.toNat .versioned a [.reg vd.toNat 0 none] st
          else .ok ((s.used l t a).startOp (issue64 c) (issue64 c).flag.isNone {} l recv (0, none)
            (.load { ctx := s.ctxOf t, va := a.toNat, pa := f + a.toNat % 65536, size := n, key := lf.key, policy := 0 } (ldvSize size).2 vd.toNat pr.toNat)))

/-- TOUCH (R144). -/
def execTouch (c : Ctl) (off : BitVec 12) (pr : PReg) (va : Reg) (s : State) : Out :=
  .next (s.runGang (issue64 c) [va.toNat] [va.toNat] true fun s l recv =>
    let a := (s.thr l).ea va.toNat off
    match s.check4 l (s.thr l) a 1 1 .read true false .load with
    | .error f => .error f
    | .ok lf => .ok (s.touchStart c l recv pr.toNat a lf))

/-- A WB line of a peer asked for by a prefetch: its owner may grant a lease, and a refusal drops the prefetch (R145, R412). -/
def State.prefetchPeer (s : State) (x : Access) : State :=
  let ans := Config.peerAnswer s.draws
  if bit (s.reg (Off.fb (0x100 + 8 * (x.pa / 2 ^ 40 % 1024 / 64)))) (x.pa / 2 ^ 40 % 64) ∨ 2 ≤ ans % 4 ∨ ans / 4 % 2 = 1 then s
  else s.leaseTake x.pa (s.ptp + ans / 8)

/-- A line asked for in the core's L1 or the die's L2, checked with read permission and as a read of one byte, .x too: R145 names neither, and the
model chooses (notes/assumptions/65); one that fails a check, or is away, is dropped, and so are the sectors that the
L1 already holds as asked for (R145). An L2 line is there at once where the die needs nothing from Taproot. -/
def State.prefetch (s : State) (k : Nat) (a : Word) (l2 excl : Bool) : State :=
  match s.check5 k (s.thr k) a 1 1 .read true false .load with
  | .error _ => s
  | .ok x =>
    if x.policy ≠ 0 then s else
    let s1 := s.used k (s.thr k) a
    if isPeer x.pa then s1.prefetchPeer x else
    let secs := ((List.range 4).map (4 * (x.pa / 256) + ·)).filter fun sec => l2 || decide (s1.l1State (coreOf k) (64 * sec) < if excl then 2 else 1)
    if l2 && secs.all fun sec => s1.dieHas (dieOf k) sec excl then (s1.classTouch (dieOf k) x.ctx x.pa).l2Alloc (dieOf k) x.pa
    else { s1 with prefs := s1.prefs ++ secs.map fun sec => { core := coreOf k, sector := sec, l2 := l2, excl := excl } }

/-- PREF changes no value and raises no fault of its own: it completes in its issue clk (R145). -/
def execPref (c : Ctl) (off : BitVec 12) (l2 excl : Bool) (va : Reg) (s : State) : Out :=
  .next (s.runGang (issue64 c) [va.toNat] [va.toNat] true fun s l recv =>
    .ok ((s.prefetch l ((s.thr l).ea va.toNat off) l2 excl).fixed (issue64 c) 1 recv []))

/-- The checks of iinvall: address and watchpoints, without a translation (R136, R146). -/
def State.checkUntranslated (s : State) (k : Nat) (t : Thread) (a : Word) : Option FaultInfo :=
  let h := if t.skipWatch then 0 else s.watchHits k t a 1 true false
  if bits a 63 57 ≠ 0 then some { cause := .badaddr, kind := .load, addr := a }
  else if h ≠ 0 then some { cause := .watch, kind := .load, addr := a, hits := h } else none

/-- The line that a CCTL acts on is in the cache it acts on; the instruction lines are looked for when it acts. -/
def State.cctlMeets (s : State) (core : Nat) (op : CctlOp) (pa : Nat) : Bool :=
  match op with
  | .wbl1 | .invl1 => s.l1.any fun (l : L1Line) => l.core == core && l.line == pa / 256
  | .wbl2 | .invl2 => s.l2.any fun (l : L2Ent) => l.die == core / 512 && l.line == pa / 256
  | .iinv | .iinvall => true

/-- CCTL; iinvall does not translate. On an absent line or an away page it completes at once (R146, R147). Through a published view
without a retained step it raises VRETIRED (notes/assumptions/60). -/
def execCctl (c : Ctl) (off : BitVec 12) (op : CctlOp) (va : Reg) (s : State) : Out :=
  .next (s.runGang (issue64 c) [va.toNat] [va.toNat] true fun s l recv =>
    let t := s.thr l
    let a := t.ea va.toNat off
    let start := fun (s : State) lat k => Except.ok (ε := FaultInfo) (s.startOp (issue64 c) (issue64 c).flag.isNone {} l recv (0, lat) k)
    let go := fun (s : State) pa => if s.cctlMeets (coreOf l) op pa then start s none (.cctl op pa) else start s (some 1) (.result [])
    if op = .iinvall then
      match s.checkUntranslated l t a with
      | some f => .error f
      | none => go s 0
    else
    match s.check4 l t a 1 1 .read true false .load with
    | .error f => .error f
    | .ok lf =>
      match s.place (Agent.core l) (s.ctxOf t) a 1 lf with
      | .ok x => go (s.used l t a) x.pa
      | .error (.fault cs) => .error { cause := cs, kind := .load, addr := a, step := s.shownStep (dieOf l) lf.record }
      | .error .away => start s (some 1) (.result []))

/-- LDW (R148-R150). -/
def execLdw (c : Ctl) (off : BitVec 12) (pr : PReg) (sc : Scope) (vd va : Reg) (s : State) : Out :=
  .next (s.execFe c off pr .ldw [vd.toNat] [] .write true false true { acq := true, rel := false, scope := sc } none vd.toNat [.reg vd.toNat 0 none] va)

/-- LDC (R148-R150). -/
def execLdc (c : Ctl) (off : BitVec 12) (pr : PReg) (sc : Scope) (vd va : Reg) (s : State) : Out :=
  .next (s.execFe c off pr .ldc [vd.toNat] [] .write true true true { acq := true, rel := true, scope := sc } none vd.toNat [.reg vd.toNat 0 none] va)

/-- STF (R148-R150). -/
def execStf (c : Ctl) (off : BitVec 12) (pr : PReg) (sc : Scope) (src va : Reg) (s : State) : Out :=
  .next (s.execFe c off pr .stf [src.toNat] [src.toNat] .write false true true { acq := true, rel := true, scope := sc } (some src.toNat) 0 [] va)

/-- STX (R148, R149). -/
def execStx (c : Ctl) (off : BitVec 12) (pr : PReg) (sc : Scope) (src va : Reg) (s : State) : Out :=
  .next (s.execFe c off pr .stx [src.toNat] [src.toNat] .write false true false { acq := false, rel := true, scope := sc } (some src.toNat) 0 [] va)

/-- PURGE (R148, R149). -/
def execPurge (c : Ctl) (off : BitVec 12) (pr : PReg) (sc : Scope) (va : Reg) (s : State) : Out :=
  .next (s.execFe c off pr .purge [] [] .write false true false { acq := false, rel := true, scope := sc } none 0 [] va)

/-- FEQ reads the bit only (R148, R149). -/
def execFeq (c : Ctl) (off : BitVec 12) (pr : PReg) (sc : Scope) (pd : PReg) (va : Reg) (s : State) : Out :=
  .next (s.execFe c off pr .feq [] [] .read true false false { acq := true, rel := false, scope := sc } none pd.toNat [.pred pd.toNat false] va)

/-- ATOM (R201, R203, R204). -/
def execAtom (c : Ctl) (op : AtomOp) (ty : AtomTy) (four : Bool) (ord : AOrder) (sc : Scope) (vd va vb : Reg) (s : State) : Out :=
  .next (s.execAtomic c four (.op op ty) { acq := AOrder.acq ord, rel := AOrder.rel ord, scope := sc } [vd.toNat, vb.toNat] [vb.toNat] va.toNat vb.toNat none (some vd.toNat))

/-- RED: an atomic without a result, and no acquire (R201, R233). -/
def execRed (c : Ctl) (op : AtomOp) (ty : AtomTy) (four : Bool) (ord : AOrder) (sc : Scope) (va vb : Reg) (s : State) : Out :=
  .next (s.execAtomic c four (.op op ty) { acq := false, rel := AOrder.rel ord, scope := sc } [vb.toNat] [vb.toNat] va.toNat vb.toNat none none)

/-- CAS (R202). -/
def execCas (c : Ctl) (four : Bool) (ord : AOrder) (sc : Scope) (vd va vb vc : Reg) (s : State) : Out :=
  .next (s.execAtomic c four .cas { acq := AOrder.acq ord, rel := AOrder.rel ord, scope := sc } [vd.toNat, vb.toNat, vc.toNat] [vb.toNat, vc.toNat] va.toNat vb.toNat (some vc.toNat) (some vd.toNat))

/-- ATOMS: MISALIGN then SPBOUND; members on one item form one step; its order applies at .blk (R201, R203, R204, R229). -/
def execAtoms (c : Ctl) (op : AtomOp) (ty : AtomTy) (four : Bool) (ord : AOrder) (vd va vb : Reg) (s : State) : Out :=
  let first := s.nextSeq
  .next (s.runGang (issue64 c) [vd.toNat, va.toNat, vb.toNat] [va.toNat, vb.toNat] true fun s l recv =>
    let t := s.thr l
    let n := atomSize four
    match s.spadCheck t (t.reg va.toNat) n .scratch with
    | .error f => .error f
    | .ok o =>
      let m : AtomMember := { thr := l, x := t.reg vb.toNat, dst := some vd.toNat, num := s.nextSeq }
      let s1 := recv.foldl (fun s k => s.closeIdem k) s
      let sync := (issue64 c).flag.isNone
      match s1.ops.find? (fun e => match e.2.kind with
          | .atoms b o2 n2 _ _ => decide (first ≤ e.1) && b == t.blk && o2 == o && n2 == n && e.2.thr != l && s.gang.contains e.2.thr
          | _ => false) with
      | some e =>
        let s2 := { s1 with ops := s1.ops.upd e.1 fun x => x.addMember m recv, nextSeq := s1.nextSeq + 1 }
        .ok (if sync then recv.foldl (fun x k => x.updThread k fun t => { t with status := .sync e.1 }) s2 else s2)
      | none => .ok (s1.startOp (issue64 c) sync { acq := AOrder.acq ord, rel := AOrder.rel ord, scope := .blk } l recv (0, none) (.atoms t.blk o n (.op op ty) [m])))

/-- FENCE: its thread issues nothing further until it completes, whatever its set field holds (R239). -/
def execFence (c : Ctl) (kind : FenceKind) (sc : Scope) (s : State) : Out :=
  .next (s.runGang (issue64 c) [] [] true fun s l recv => .ok (s.startOp (issue64 c) true {} l recv (0, none) (.fence kind sc)))

/-- VRETIRE: by the W and O its die has applied, VFUTURE at or above W and nothing at or below O, else it enters the region's commands
at Heartwood (R259, R265, R282). -/
def execVretire (c : Ctl) (va vb : Reg) (s : State) : Out :=
  .next (s.runGang (issue64 c) [va.toNat, vb.toNat] [va.toNat, vb.toNat] true fun s l recv =>
    let t := s.thr l
    let a := t.reg va.toNat
    let st := (t.reg vb.toNat).toNat % 2 ^ 32
    match s.check4 l t a 1 1 .write false false .versioned with
    | .error f => .error { f with step := st }
    | .ok lf =>
      if !lf.versioned then .error { cause := .vnone, kind := .versioned, addr := a, step := st } else
      let reg := s.regionOf lf.record
      let wo := s.regionWO (some (dieOf l)) reg
      if wo.1 ≤ st then .error { cause := .vfuture, kind := .versioned, addr := a, step := st }
      else if st ≤ wo.2 then .ok (s.startOp (issue64 c) (issue64 c).flag.isNone {} l recv (0, none) (.result []))
      else
        let s1 := (s.used l t a).startOp (issue64 c) (issue64 c).flag.isNone {} l recv (0, none) (.vretire reg st)
        .ok { s1 with regCmds := s1.regCmds.put s.nextSeq { region := reg, w := wo.1, o := st, acks := [] } })

end Sys2Proof.Machine
end

