-- ==== Sys2Proof/Machine/Wait.lean ====
section
/-! DEFINITION. The full/empty waiting protocol: wait tables, waiter arrays, park areas and the release of waiters
(spec/10_isa_synchronisation.md R205-R207, spec/25_die_coherence.md R393, R405, R406). -/

namespace Sys2Proof.Machine

/-- The home slice of a line (R393). -/
def homeSlice (pa : Nat) : Nat := (pa / 2 ^ 8 % 64) ^^^ (pa / 2 ^ 14 % 64) ^^^ (pa / 2 ^ 20 % 64)

/-- The line that a full set of 16 ways gives up for a new one: the least recently used. A slice has 131,072 lines in 8,192 sets; which
set a line stands in is the part's (R397; notes/assumptions/61). -/
def State.recallVictim (s : State) (sector : Nat) : Option Nat :=
  if s.taproot.any (fun e => e.1 / 4 == sector / 4) then none else
  let lines := ((s.taproot.map fun e => e.1 / 4).dedup).filter fun l => homeSlice (256 * l) == homeSlice (64 * sector) &&
    Config.homeSet l % 8192 == Config.homeSet (sector / 4) % 8192
  if lines.length < 16 then none else ((s.tapUse.filter lines.contains).getLast?).orElse fun _ => lines.head?

/-- A line has been used at its home (R397). -/
def State.tapTouch (s : State) (line : Nat) : State :=
  { s with tapUse := line :: s.tapUse.filter fun l => l != line && s.taproot.any fun e => e.1 / 4 == l }

/-- A line that becomes tracked as a die writes it: its home makes room first, by a recall within the step, and has used it (R397;
notes/assumptions/33). -/
def State.homeRoom (s : State) (line : Nat) : State :=
  (((s.recallVictim (4 * line)).elim s fun v => [0, 1, 2, 3].foldl (fun x d => x.l2Evict d v) s)).tapTouch line

/-- The die a slice sits beside (R393). -/
def sliceDie (h : Nat) : Nat := h / 16

/-- A thread identifier (R206). -/
def waiterIdent (k : Nat) (wantsFull launch : Bool) : Nat :=
  k + (if wantsFull then 2 ^ 24 else 0) + (if launch then 2 ^ 25 else 0)

def identThread (i : Nat) : Nat := i % 2 ^ 24
def identWants (i : Nat) : Bool := i.testBit 24

/-- The park area of a context: base and entries, by its own die's table (R172, R206). -/
def State.ctxEntryAt (s : State) (die ctx : Nat) : Nat := (s.reg (Off.qe die 0)).toNat + 128 * ctx

def State.ctxWord (s : State) (die ctx i : Nat) : Word := s.hwRead (s.ctxEntryAt die ctx + 8 * i)

/-- The physical place of a park entry: it must translate, be writable, resident, plain and in device memory (R206). -/
def State.parkPlace (s : State) (die ctx i : Nat) : Option Access :=
  let va := s.ctxWord die ctx 3 + BitVec.ofNat 64 (64 * i)
  match s.accessFor { die := die, view := none } ctx va 8 .write with
  | .ok a => if isDevice a.pa && a.vrec.isNone then some a else none
  | .error _ => none

/-- The candidate entries of a word, in order; an area of fewer than eight entries repeats none (R206). -/
def State.parkCands (s : State) (die ctx pa : Nat) : List Nat :=
  let n := (s.ctxWord die ctx 4).toNat / 64
  if n = 0 then [] else ((List.range 8).map fun i => (pa / 8 + i) % n).dedup

/-- A park entry's words, where its place is usable. -/
def State.parkEntry (s : State) (die ctx i : Nat) : Option (Access × List Word) :=
  (s.parkPlace die ctx i).map fun a => (a, (List.range 8).map fun j => s.readPa none a.key (a.pa + 8 * j) 8)

/-- The valid entries of a word as (place, words), by order, oldest first (R206). -/
def State.parkOf (s : State) (die ctx pa : Nat) : List (Access × List Word) :=
  let es := (s.parkCands die ctx pa).filterMap fun i => match s.parkEntry die ctx i with
    | some e => if bit (wordAt e.2 0) 63 && bits (wordAt e.2 0) 51 3 == pa / 8 then some e else none
    | none => none
  (List.range 8).flatMap fun o => es.filter fun e => bits (wordAt e.2 1) 2 0 == o

/-- The words of a park entry written by the slice, after what happens-before the request that it serves; its write makes a READONLY
frame SHARED (R223, R237, R442). -/
def State.parkWrite (s : State) (past : List Nat) (a : Access) : List Word → Nat → State
  | [], _ => s
  | v :: vs, j => (((s.ncOut a).classAgentWrite a.pa).writePa { past := past } a.key (a.pa + 8 * j) (toLe 8 v.toNat) none).parkWrite past a vs (j + 1)

/-- The waiters of a park entry: at most six, whatever count a stray write has left there (R206). -/
def parkCount (w : Word) : Nat := min 6 (bits w 62 59)

/-- A park area's page is frozen or has held accesses before it, or a lease of one of a word's candidate entries may be valid: the slice's accesses wait (R266, R414,
R442). -/
def State.parkHeld (s : State) (ctx pa : Nat) : Bool :=
  let die := sliceDie (homeSlice pa)
  (s.parkCands die ctx pa).any fun i => (s.parkPlace die ctx i).any fun a => s.frozen a.pa || !s.leaseFree a.pa || !s.replayFree a.pa

/-- A new waiter joins the newest entry when it has room, else takes the first invalid candidate; none is PARKFULL
(R206). -/
def State.parkAdd (s : State) (past : List Nat) (die ctx pa ident : Nat) : Option State :=
  let es := s.parkOf die ctx pa
  let fresh := fun order =>
    ((s.parkCands die ctx pa).filterMap (fun i => s.parkEntry die ctx i)).find? (fun e => !bit (wordAt e.2 0) 63) |>.map fun e =>
      s.parkWrite past e.1 [pack [(1, 63), (1, 59), (pa / 8, 3)], BitVec.ofNat 64 order, BitVec.ofNat 64 ident, 0, 0, 0, 0, 0] 0
  match es.getLast? with
  | some (a, ws) =>
    let c := bits (wordAt ws 0) 62 59
    if c < 6 then some (s.parkWrite past a ((ws.set 0 (pack [(1, 63), (c + 1, 59), (pa / 8, 3)])).set (2 + c) (BitVec.ofNat 64 ident)) 0)
    else fresh es.length
  | none => fresh 0

/-- A word's park entries rewritten with the waiters that stay: emptied entries become invalid and later ones move up
(R206). -/
def State.parkKeep (s : State) (past : List Nat) (die ctx pa : Nat) (stay : Nat → Bool) : State :=
  let es := s.parkOf die ctx pa
  (es.foldl (fun (acc : State × Nat) e =>
    let ids := ((List.range (parkCount (wordAt e.2 0))).map fun i => (wordAt e.2 (2 + i)).toNat).filter stay
    if ids.isEmpty then (acc.1.parkWrite past e.1 [0, 0, 0, 0, 0, 0, 0, 0] 0, acc.2)
    else (acc.1.parkWrite past e.1 (pack [(1, 63), (ids.length, 59), (pa / 8, 3)] :: BitVec.ofNat 64 acc.2 ::
      (ids.map (BitVec.ofNat 64) ++ List.replicate (6 - ids.length) 0)) 0, acc.2 + 1)) (s, 0)).1

/-- The waiters of a word in its park entries, oldest first. -/
def State.parkIds (s : State) (die ctx pa : Nat) : List Nat :=
  (s.parkOf die ctx pa).flatMap fun e => (List.range (parkCount (wordAt e.2 0))).map fun i => (wordAt e.2 (2 + i)).toNat

/-- The contexts whose threads wait on a form. -/
def State.waitCtxs (s : State) : List Nat :=
  ((s.threads.filterMap fun e => match e.2.status with
    | .form _ _ _ _ _ => some (s.ctxOf e.2)
    | _ => none) ++ (s.ops.filterMap fun e => match e.2.kind with
    | .graft _ => some (s.ctxOf (s.thr e.2.thr))
    | _ => none)).dedup

/-- Is any waiter of the sector left in the table or a park area (R205). -/
def State.sectorWaited (s : State) (sec : Nat) : Bool :=
  s.waitTab.any (fun w => w.word / 64 == sec) ||
  s.waitCtxs.any fun c => (List.range 8).any fun i => !(s.parkIds (sliceDie (homeSlice (sec * 64))) c (sec * 64 + 8 * i)).isEmpty

/-- The waiter bit falls with the sector's last waiter (R405). -/
def State.sectorTrim (s : State) (sec : Nat) : State :=
  if s.sectorWaited sec then s else { s with sectors := s.sectors.filter (· != sec), coreMarks := s.coreMarks.filter (fun m => m.2 != sec) }

/-- A thread waits on a word, by a form or a GRAFT, and no release has reached it yet. -/
def State.waitsOn (s : State) (k word : Nat) : Bool :=
  (match (s.thr k).status with
    | .form w _ _ _ released => w == word && !released
    | _ => false) || s.ops.any fun e => e.2.thr == k && (match e.2.kind with
    | .graft g => g.wait == some word && !g.released
    | _ => false)

/-- A waiter released to retry (R207); an identifier that a stray write left, whose thread does not wait there or has been released already, releases
nobody (R206). -/
def State.release (s : State) (word ident : Nat) : State :=
  if !s.waitsOn (identThread ident) word then s else
  { s.updThread (identThread ident) (fun t => match t.status with
      | .form w f l _ _ => if w = word then { t with status := .form w f l true true } else t
      | _ => t) with
    retries := s.retries ++ [(word, identThread ident)]
    ops := s.ops.mapVals fun _ o => match o.kind with
      | .graft g => if o.thr = identThread ident ∧ g.wait = some word then { o with kind := .graft { g with recorded := true, released := true } } else o
      | _ => o }

/-- A word's state became full or empty: its waiters for that state are released, table waiters first, then park-area
waiters by entry and position (R207). Of waiters in the park areas of several contexts R207 orders none: the model takes the contexts in the
order of their threads, which is its own choice (notes/assumptions/65). -/
def State.releaseWord (s : State) (word : Nat) (full : Bool) : State :=
  let die := sliceDie (homeSlice word)
  let past := (s.readFrom none word 8 true).map (·.1)
  let tab := s.waitTab.filter fun w => w.word == word && identWants w.ident == full
  let s1 := { s with waitTab := s.waitTab.filter fun w => !(w.word == word && identWants w.ident == full) }
  let s2 := tab.foldl (fun s w => s.release word w.ident) s1
  let s3 := s.waitCtxs.foldl (fun s c =>
    let out := (s.parkIds die c word).filter fun i => identWants i == full
    (out.foldl (fun s i => s.release word i) s).parkKeep past die c word fun i => identWants i != full) s2
  s3.sectorTrim (word / 64)

/-- The waiter record of a thread's GRAFT is removed (R207, R339). -/
def State.dropGraft (s : State) (k : Nat) : State :=
  s.ops.foldl (fun s e => match e.2.kind with
    | .graft g =>
      (match g.wait with
        | some w =>
          if e.2.thr = k then
            let s1 := { s with waitTab := s.waitTab.filter (fun x => !(x.word == w && identThread x.ident == k)), retries := s.retries.filter (fun x => x != (w, k)) }
            let s2 := (s1.parkKeep (s.hbPast [k] none) (sliceDie (homeSlice w)) (s.ctxOf (s.thr k)) w (fun i => identThread i != k)).sectorTrim (w / 64)
            { s2 with ops := s2.ops.put e.1 { e.2 with kind := .graft { g with recorded := false, released := false, going := false } } }
          else s
        | none => s)
    | _ => s) s

/-- A thread that is saved or killed has its waiter record removed (R207, R369). -/
def State.dropForm (s : State) (k : Nat) : State :=
  match (s.thr k).status with
  | .form w _ _ true _ =>
    let s1 := { s with waitTab := s.waitTab.filter (fun x => identThread x.ident != k), retries := s.retries.filter (fun x => x.2 != k) }
    (s1.parkKeep (s.hbPast [k] none) (sliceDie (homeSlice w)) (s.ctxOf (s.thr k)) w (fun i => identThread i != k)).sectorTrim (w / 64)
  | _ => { s with retries := s.retries.filter (fun x => x.2 != k) }

def State.dropWaiter (s : State) (k : Nat) : State := (s.dropGraft k).dropForm k

/-- The home cannot remove the waiter record of thread k yet: a park area that may hold it cannot be reached (R266, R414, R442). -/
def State.waiterHeld (s : State) (k : Nat) : Bool :=
  let c := s.ctxOf (s.thr k)
  (match (s.thr k).status with
    | .form w _ _ true _ => s.parkHeld c w
    | _ => false) || s.ops.any fun e => e.2.thr == k && (match e.2.kind with
    | .graft g => g.wait.any fun w => s.parkHeld c w
    | _ => false)

/-- A waiter record enters its home: the table when it has room and the word waits nowhere in the park area, else the
park area; none when it cannot be held (R205, R206, R405). The park area looked into is that of the waiter's own context: whether a waiter in
another context's keeps the record out of the table R205 does not say (notes/assumptions/65). -/
def State.holdWaiter (s : State) (ctx word ident : Nat) : Option State :=
  let h := homeSlice word
  let die := sliceDie h
  let known := s.sectors.contains (word / 64)
  if !known && decide (4096 ≤ (s.sectors.filter fun x => homeSlice (x * 64) == h).length) then none
  else
    let s1 := if known then s else { s with sectors := s.sectors ++ [word / 64] }
    if decide ((s1.waitTab.filter fun w => homeSlice w.word == h).length < 64) && (s1.parkIds die ctx word).isEmpty then
      some { s1 with waitTab := s1.waitTab ++ [{ word := word, ident := ident }] }
    else s1.parkAdd (s.hbPast [identThread ident] none) die ctx word ident

/-- A word of frame old, in frame new. -/
def movedWord (old new w : Nat) : Nat := if w / 65536 * 65536 = old then new + w % 65536 else w

/-- The words of a frame that something waits on. -/
def State.waitWords (s : State) (frame : Nat) : List Nat :=
  ((s.waitTab.map (·.word) ++ s.threads.filterMap (fun e => match e.2.status with
      | .form w _ _ _ _ => some w
      | _ => none) ++ s.ops.filterMap (fun e => match e.2.kind with
      | .graft g => g.wait
      | _ => none)).filter fun w => decide (w / 65536 * 65536 = frame)).dedup

/-- The waiters held for a word, oldest first: table, then park areas, each with the context it is held under (R205-R207). -/
def State.heldFor (s : State) (w : Nat) : List (Nat × Nat × Nat) :=
  (s.waitTab.filter (·.word == w)).map (fun x => (w, s.ctxOf (s.thr (identThread x.ident)), x.ident)) ++
  s.waitCtxs.flatMap fun c => (s.parkIds (sliceDie (homeSlice w)) c w).map fun i => (w, c, i)

/-- Every wait on a word of a moved frame goes to its word of the new one: recorded or still to be sent, released, woken. -/
def State.rekeyWords (s : State) (old new : Nat) : State :=
  { s with
    threads := s.threads.mapVals fun _ t => match t.status with
      | .form w f l r x => { t with status := .form (movedWord old new w) f l r x }
      | _ => t
    ops := s.ops.mapVals fun _ o => match o.kind with
      | .graft g => { o with kind := .graft { g with wait := g.wait.map (movedWord old new) } }
      | _ => o
    retries := s.retries.map fun r => (movedWord old new r.1, r.2)
    wakes := s.wakes.map fun (w : Nat × Bool) => (movedWord old new w.1, w.2)
    wnotes := s.wnotes.map fun n => (n.1, movedWord old new n.2.1, n.2.2) }

/-- Waiter records of a moved frame go to the words of its new frame, in the order of each word; one that cannot be held there is
released as by a wake (R207, R262, R266, R405). -/
def State.rekeyFrame (s : State) (past : List Nat) (old new : Nat) : State :=
  let ws := s.waitWords old
  let held := ws.flatMap s.heldFor
  let s1 := { s with waitTab := s.waitTab.filter fun (x : Waiter) => decide (x.word / 65536 * 65536 ≠ old) }
  let s2 := ws.foldl (fun (x : State) w => (x.waitCtxs.foldl (fun (y : State) c =>
    if (y.parkIds (sliceDie (homeSlice w)) c w).isEmpty then y else y.parkKeep past (sliceDie (homeSlice w)) c w fun _ => false) x)) s1
  let s3 := (ws.map (· / 64)).dedup.foldl State.sectorTrim (s2.rekeyWords old new)
  held.foldl (fun (x : State) h => (x.holdWaiter h.2.1 (movedWord old new h.1) h.2.2).getD (x.release (movedWord old new h.1) h.2.2)) s3

/-- The waiters of a frame's words cannot be re-keyed yet: a park area that holds or will hold one cannot be reached (R266, R414, R442). -/
def State.rekeyHeld (s : State) (old new : Nat) : Bool :=
  (s.waitWords old).any fun w => s.waitCtxs.any fun c => s.parkHeld c w || s.parkHeld c (movedWord old new w)

end Sys2Proof.Machine
end

