-- ==== Sys2Proof/Machine/Version.lean ====
section
/-! DEFINITION. Versioned regions: copy-on-write, the sweep, PUBLISH's broadcast and VRETIRE's end, and the copying of
frames with their bits and keys (spec/14_translation_and_versions.md R255-R265, spec/27_host_security_startup.md R429). -/

namespace Sys2Proof.Machine

/-! ## Waiting forms (R148, R208) -/

/-- The wanted state of a waiting form. -/
def FeOp.wants : FeOp → Option Bool
  | .ldw | .ldc => some true
  | .stf => some false
  | .stx | .purge | .feq => none

/-- The first slot word that is FULL, as the thread's die sees it. -/
def State.firstFull (s : State) (d pa : Nat) : Option Nat := (List.range 8).find? fun i => s.fullAt (some d) (pa + 8 * i)

/-- The word a waiting operation waits on, and the state it wants, when it cannot go on now. -/
def State.mustWait (s : State) (o : Op) : Option (Nat × Bool) :=
  match o.kind with
  | .feform a f _ _ _ =>
    match f.wants with
    | some w => if s.fullAt (some (dieOf o.thr)) (s.paNow a) = w then none else some (s.paNow a / 8 * 8, w)
    | none => none
  | .launch a _ => (s.firstFull (dieOf o.thr) (s.paNow a)).map fun i => (s.paNow a + 8 * i, false)
  | _ => none

/-! ## Frames -/

/-- len bytes from src copied to dst, with full/empty bits and what some die has not yet applied: every sector is decrypted
under generation g and stands encrypted under it at its new place (R228, R243, R254). -/
def State.copyRange (s : State) (g src dst len : Nat) : State :=
  let into := fun a => decide (dst ≤ a) && decide (a < dst + len)
  let from_ := fun a => decide (src ≤ a) && decide (a < src + len)
  let turned := fun (w : Option Nat) => w.any (· != g)
  let at_ := fun (e : Inflight) (a : Nat) => (Tbl.find e.old a).getD (Mem.read s.mem a)
  let old := fun (e : Inflight) (c : Nat × Byte) =>
    match (Tbl.find e.gens (c.1 / 64)).getD none with
    | some w => if w = g then c.2 else Config.recrypt w g (c.1 / 16) ((List.range 16).map fun i => at_ e (c.1 / 16 * 16 + i)) (c.1 % 16)
    | none => c.2
  let dull := (s.keyTags.filter fun c => from_ (c.1 * 64) && turned (some c.2)).flatMap fun c =>
    (List.range 64).map fun i => (c.1 * 64 + i, s.plain g (c.1 * 64 + i))
  let secs := if isDevice dst then (List.range (len / 64)).map fun i => (dst / 64 + i, g) else []
  { s with
    mem := dull.foldl (fun m c => Mem.write m (c.1 - src + dst) c.2)
      ((s.mem.filter fun c => from_ c.1).foldl (fun m c => Mem.write m (c.1 - src + dst) c.2) (s.mem.filter fun c => !into c.1))
    empties := (s.empties.filter from_).foldl (fun m a => Addrs.add m (a - src + dst)) (s.empties.filter fun a => !into a)
    keyTags := (s.keyTags.filter fun c => decide (c.1 * 64 < dst)) ++ secs ++ s.keyTags.filter fun c => decide (dst + len ≤ c.1 * 64)
    inflight := s.inflight.mapVals fun _ e =>
      { e with old := e.old ++ (e.old.filter fun c => from_ c.1).map (fun c => (c.1 - src + dst, old e c))
               oldFe := e.oldFe ++ (e.oldFe.filter fun c => from_ c.1).map (fun c => (c.1 - src + dst, c.2))
               gens := e.gens ++ (e.gens.filter fun c => from_ (64 * c.1)).map fun c => (c.1 - src / 64 + dst / 64, c.2.map fun _ => g) } }

/-- A frame becomes UNSEEN: every copy is invalidated (R222). -/
def State.unseen (s : State) (frame : Nat) : State :=
  { s.dropCopies (frame / 65536) with frames := s.frames.del (frame / 65536) }

/-- A frame becomes READONLY: its copies are written back, stay as clean ones, and Taproot tracks them no more (R221, R222,
R260); an older copy that a die still held is none of the step's data, and no read uses it any more (R242, R264). -/
def State.readonly (s : State) (frame : Nat) : State :=
  let f := frame / 65536
  { s with frames := s.frames.put f { (s.frames.find f).getD {} with cls := .readonly }
           late := s.late.filter fun x => x.2 / 1024 != f
           l1 := s.l1.map fun (l : L1Line) => if l.line / 256 = f then { l with states := l.states.map (min 1) } else l
           l2 := s.l2.map fun (l : L2Ent) => if l.line / 256 = f then { l with owners := [], dirty := [] } else l
           taproot := s.taproot.filter fun e => e.1 / 1024 != f }

/-- A frame onto the pool (R429, R431); false when it is full. -/
def State.poolPush (s : State) (frame : Nat) : Option State :=
  let n := (s.reg (Off.sv 0x50)).toNat
  if n < (s.reg (Off.sv 0x48)).toNat then
    some ((s.hwWrite ((s.reg (Off.sv 0x40)).toNat + 8 * n) (BitVec.ofNat 64 frame)).setReg (Off.sv 0x50) (BitVec.ofNat 64 (n + 1)))
  else none

/-- The newest frame of the pool. -/
def State.poolPop (s : State) : Option (Nat × State) :=
  let n := (s.reg (Off.sv 0x50)).toNat
  if n = 0 then none else
  some (bits (s.hwRead ((s.reg (Off.sv 0x40)).toNat + 8 * (n - 1))) 51 16 * 65536, s.setReg (Off.sv 0x50) (BitVec.ofNat 64 (n - 1)))

def State.resCount (s : State) (reg : Nat) : Nat := bits (s.hwRead (reg + 40)) 31 0
def State.resCap (s : State) (reg : Nat) : Nat := bits (s.hwRead (reg + 40)) 63 32
def State.setResCount (s : State) (reg n : Nat) : State := s.hwWrite (reg + 40) (pack [(s.resCap reg, 32), (n, 0)])

/-- A returned frame goes onto the reserve, or as surplus to the pool or the service ring (R261, R429). -/
def State.returnFrame (s : State) (reg ctx frame : Nat) : State :=
  let s1 := s.unseen frame
  let n := s1.resCount reg
  if n < s1.resCap reg then (s1.hwWrite ((s1.hwRead (reg + 32)).toNat + 8 * n) (BitVec.ofNat 64 frame)).setResCount reg (n + 1)
  else if bit (s1.ctxWord 0 ctx 0) 25 then s1.service 3 ctx (BitVec.ofNat 64 frame) 0
  else (s1.poolPush frame).getD (s1.service 3 ctx (BitVec.ofNat 64 frame) 0)

/-- Frames moved from the pool until the reserve is full or the pool is empty (R429). -/
def State.refill (s : State) (reg : Nat) : Nat → State
  | 0 => s
  | fuel + 1 =>
    if s.resCount reg < s.resCap reg then
      match s.poolPop with
      | some (f, s1) =>
        ((s1.hwWrite ((s1.hwRead (reg + 32)).toNat + 8 * s1.resCount reg) (BitVec.ofNat 64 f)).setResCount reg (s1.resCount reg + 1)).refill reg fuel
      | none => s
    else s

/-- No lease holds back what Heartwood writes of a region, its reserve, one of its page records and the pool (R414). -/
def State.metaFree (s : State) (reg rec_ : Nat) : Bool :=
  s.leaseFree reg && s.rangeFree rec_ 256 && s.rangeFree (s.hwRead (reg + 32)).toNat (8 * s.resCap reg) &&
  s.rangeFree (s.reg (Off.sv 0x40)).toNat (8 * (s.reg (Off.sv 0x48)).toNat)

/-- A copy-on-write starts: the newest reserve frame is taken and the page is COPYING; none when the reserve is empty; Heartwood's
reads of the descriptor and the record probe their copies (R223, R262). -/
def State.cowStart (s : State) (rec_ key op : Nat) : Option State :=
  let reg := s.regionOf rec_
  let n := s.resCount reg
  if n = 0 then none else
  let f := bits (s.hwRead ((s.hwRead (reg + 32)).toNat + 8 * (n - 1))) 51 16 * 65536
  let s1 := (s.setResCount reg (n - 1)).hwWrite (rec_ + 8) (pack [(1, 32), (s.wstep rec_, 0)])
  some { (s1.hwProbe reg 64).hwProbe rec_ 256 with cows := s1.cows ++ [{ page := rec_, region := reg, frame := f, byOp := op, key := key }] }

/-- The first step of the next newer member after a slot (R258, R261). -/
def State.nextFirst (s : State) (rec_ first : Nat) : Nat :=
  (((s.slots rec_).map (·.2.1)).filter (fun f => first < f)).foldl min (s.wstep rec_)

/-- The stale slots of a page under oldest step o are returned (R261). -/
def State.dropSlots (s : State) (rec_ o ctx : Nat) : State :=
  (s.slots rec_).foldl (fun x e =>
    if s.nextFirst rec_ e.2.1 ≤ o then (x.hwWrite (rec_ + 8 * (4 + e.1)) 0).returnFrame (s.regionOf rec_) ctx e.2.2 else x) s

/-- The slot a displaced working frame takes: a free one, or the valid one with the lowest first (R262). -/
def State.freeSlot (s : State) (rec_ : Nat) : Nat :=
  match (List.range 8).find? (fun j => !bit (s.hwRead (rec_ + 8 * (4 + j))) 0) with
  | some j => j
  | none => (((s.slots rec_).foldl (fun (b : Nat × Nat) e => if e.2.1 < b.2 then (e.1, e.2.1) else b) (0, 2 ^ 32)).1)

/-- The context of the thread behind an operation. -/
def State.opCtx (s : State) (op : Nat) : Nat :=
  match s.ops.find op with
  | some o => s.ctxOf (s.thr o.thr)
  | none => match s.cmds.find op with
    | some c => c.ctx
    | none => op - 2 ^ 60

/-- The oldest step that any die, or Heartwood, still holds as a region's O: no slot that it resolves to is returned (R259, R261). -/
def State.oldest (s : State) (reg : Nat) : Nat := [0, 1, 2, 3].foldl (fun o d => min o (s.regionWO (some d) reg).2) (s.regionWO none reg).2

/-- What happens-before the write that an operation or a command asks of Heartwood (R235, R237). -/
def State.askPast (s : State) (op : Nat) : List Nat :=
  match s.ops.find op with
  | some o => s.hbPast o.recv (some op)
  | none => (s.cmds.find op).elim [] (·.past)

/-- Two lists in one, each in its order; which members of the second stand before each of the first is picked. -/
def riffle (pick : Nat → Nat) : List Nat → List Nat → List Nat
  | [], cs => cs
  | o :: os, cs =>
    let n := pick o % (cs.length + 1)
    cs.take n ++ o :: riffle pick os (cs.drop n)

/-- The accesses to a page that have come to it and wait for its switch: the threads' in order of issue, and the commands' and the held writes
in the order in which they came, with the one that asked for the switch; in which order a thread's and one of those came is free (R262, R266;
notes/assumptions/66). -/
def State.arrived (s : State) (at_ : Access → Bool) (frame op : Nat) : List Nat :=
  let cs := ((s.queued.filter fun x => x.1 == frame).map (·.2) ++ [op]).dedup.filter fun c => ((s.cmds.find c).any fun x => !x.done) || s.heldWr.any fun (h : HeldWr) => h.id == c
  riffle (fun o => s.pick (2 ^ 61 + o))
    ((s.ops.filter fun e => e.2.kind.accesses.any (fun x => at_ x.1) && s.orderOk e.1 e.2 && (s.mustWait e.2).isNone).map (·.1)) cs

/-- After the switch of a page to a frame the accesses held go first (R262, R263, R266). -/
def State.replayFrom (s : State) (frame : Nat) (ops : List Nat) : State :=
  let open_ := fun (r : Replay) => r.frame != frame && !r.ops.all s.replayGone
  { s with queued := s.queued.filter fun x => x.1 != frame
           replay := s.replay.filter open_ ++ (if ops.isEmpty then [] else [{ frame := frame, limit := s.nextSeq, ops := ops }]) }

/-- The switch of a copy-on-write (R262, R263): the page's data and bits are in the new frame, which is UNSEEN (R221), the old frame
takes a slot with its step, the working step is the region's, waiters are re-keyed, the accesses held go on first, and the reserve
may be refilled. A migration that waited for it moves the page's new frame (R266). -/
def State.cowSwitch (s : State) (c : Cow) : State :=
  let old := s.wframe c.page
  let wo := s.regionWO none c.region
  let ctx := s.opCtx c.byOp
  let past := s.askPast c.byOp
  let now := s.arrived (fun a => a.vrec == some c.page) old c.byOp
  let s1 := (s.copyRange (s.keyGen c.key) old c.frame 65536).dropSlots c.page (s.oldest c.region) ctx
  let j := s1.freeSlot c.page
  let s2 := (s1.hwWriteBy past (c.page + 8 * (4 + j)) (BitVec.ofNat 64 (old + 1))).hwWriteBy past (c.page + 8 * (12 + j)) (BitVec.ofNat 64 (s.wstep c.page))
  let s3 := ((s2.hwWriteBy past c.page (BitVec.ofNat 64 c.frame)).hwWriteBy past (c.page + 8) (BitVec.ofNat 64 wo.1)).rekeyFrame past old c.frame
  let s4 := { s3 with cows := s3.cows.filter (· != c), queued := s3.queued.filter (fun x => x.1 != old), frames := s3.frames.del (c.frame / 65536)
                      migration := s3.migration.map fun (m : Migration) => if m.pass = 0 ∧ m.src = old then { m with src := c.frame } else m
                    }.replayFrom c.frame now
  if 2 * s4.resCount c.region < s4.resCap c.region then
    if bit (s4.ctxWord 0 ctx 0) 25 then
      { s4.service 2 ctx (BitVec.ofNat 64 c.region) 0 with resReqs := s4.resReqs ++ [{ ctx := ctx, va := c.region, op := none, refill := true }] }
    else s4.refill c.region (s4.resCap c.region)
  else s4

/-- The access kind a fault on an operation reports (R355). -/
def OpKind.kind : OpKind → Kind
  | .load _ _ _ _ => .load
  | .store _ _ | .signal _ _ _ => .store
  | .atomic _ _ _ => .atomic
  | .feform _ _ _ _ _ => .fe
  | .launch _ _ => .fe
  | .spill _ _ | .fill _ => .retstack
  | .vretire _ _ => .versioned
  | .lds _ _ _ _ _ | .sts _ _ _ _ | .atoms _ _ _ _ _ => .scratch
  | .result _ | .touch _ _ _ _ | .cctl _ _ | .fence _ _ | .barw _ _ _ | .barEv _ _ | .accz _ _ | .accrd _ _ _ | .accwr _ _ _
  | .permt _ _ _ | .frameout _ _ _ _ => .none
  | .graft _ | .unit _ => .traversal
  | .callt _ => .shtable

/-- The frames of the slots of a page that no retained step resolves to under oldest step o (R258, R261). -/
def State.staleFrames (s : State) (rec_ o : Nat) : List Nat :=
  (s.slots rec_).filterMap fun e => if s.nextFirst rec_ e.2.1 ≤ o then some e.2.2 else none

/-- A read that resolved to one of these frames, of a load or any other operation, has yet to be performed (R259, R261). -/
def State.ldvOut (s : State) (frames : List Nat) : Bool :=
  s.ops.any fun e => e.2.kind.accesses.any fun x => !x.2 && x.1.vrec.isNone && frames.contains (x.1.pa / 65536 * 65536)

/-- The switch of a copy-on-write may be made: the loads that read a slot it returns are over, a slot is free or becomes so, though some die may
still have to apply the O that frees it, and nothing holds what the switch writes (R259, R261, R262, R414, R442). -/
def State.cowReady (s : State) (c : Cow) : Bool :=
  let stale := s.staleFrames c.page (s.oldest c.region)
  !s.ldvOut stale && (decide ((s.slots c.page).length < 8 + stale.length) || (s.staleFrames c.page (s.regionWO none c.region).2).length == stale.length) &&
  s.metaFree c.region c.page && !s.rekeyHeld (s.wframe c.page) c.frame

/-- COW_COPY_DONE (R262): the switch waits for the loads that read a slot it returns (R261); with no copy of that page under way
it has no effect (R5). -/
def execCowCopyDone (rec : Nat) (s : State) : Out :=
  match s.cows.find? (fun c => c.page == rec) with
  | some c => if s.cowReady c then .next (s.cowSwitch c) else .next s
  | none => .next s

/-- COW_COPY_ERROR: the frame goes back, the page is SHARED again and the triggering write receives UNCORR under its own kind (R262, R355), once
no lease holds back what is written (R414). -/
def execCowCopyError (rec : Nat) (s : State) : Out :=
  match s.cows.find? (fun c => c.page == rec) with
  | none => .next s
  | some c =>
    if !s.metaFree c.region c.page then .next s else
    let s1 := ({ s with cows := s.cows.filter (· != c) }.hwWrite (rec + 8) (BitVec.ofNat 64 (s.wstep rec))).returnFrame c.region (s.opCtx c.byOp) c.frame
    match s1.ops.find c.byOp with
    | some o => .next (s1.faultOp c.byOp o { cause := .uncorr, kind := o.kind.kind, addr := BitVec.ofNat 64 ((o.kind.access.map (·.1.va)).getD 0), step := (s.regionWO none c.region).1 })
    | none => .next { s1 with cmds := s1.cmds.upd c.byOp fun x => { x with err := 0x13 } }

/-- COW_RESERVE_RETRY: a write held on a SHARED page, and no form that parks, takes a reserve frame; with the reserve still empty once no sweep
of the region runs, VNOFRAME (R262). -/
def execCowReserveRetry (op : Nat) (s : State) : Out :=
  match s.ops.find op with
  | none => .next s
  | some o =>
    match o.kind.access with
    | some (a, _, true) =>
      match a.vrec with
      | none => .next s
      | some r =>
        if (s.mustWait o).isSome || s.copying r || s.wstep r == (s.regionWO none (s.regionOf r)).1 || !s.metaFree (s.regionOf r) r then .next s else
        match s.cowStart r a.key op with
        | some s1 => .next s1
        | none =>
          if s.sweeps.contains (s.regionOf r) then .next s
          else .next (s.faultOp op o { cause := .vnoframe, kind := o.kind.kind, addr := BitVec.ofNat 64 a.va, step := (s.regionWO none (s.regionOf r)).1 })
    | _ => .next s

/-- The page records of a region (R255). -/
def State.records (s : State) (reg : Nat) : List Nat :=
  (List.range (bits (s.hwRead (reg + 24)) 31 0)).map fun i => (s.hwRead (reg + 16)).toNat + 256 * i

/-- An access that a switch held on a page of the region is still outstanding (R262, R263). -/
def State.replayOut (s : State) (reg : Nat) : Bool :=
  s.replay.any fun (r : Replay) => (s.records reg).any (fun p => s.wframe p == r.frame) &&
    r.ops.any fun q => (s.ops.find q).isSome || (s.cmds.find q).any fun c => !c.done

/-- SWEEP: slots that no retained step resolves to are returned once no load that resolved to them is outstanding, and
the new O is written to swept (R261); what it returns goes as the context's functions say whose command started it (R429). A step is retained while a die still holds an O that does not lie above it (R259). -/
def execSweep (region : Nat) (s : State) : Out :=
  if s.sweeps.contains region then
    let o := s.oldest region
    if s.ldvOut ((s.records region).flatMap fun r => s.staleFrames r o) || !(s.records region).all (s.metaFree region) then .next s
    else
      let s1 := (s.records region).foldl (fun x r => (x.hwProbe r 256).dropSlots r o ((s.sweepCtx.find region).getD 0)) s
      .next { s1.hwWrite (region + 48) (BitVec.ofNat 64 o) with sweeps := s1.sweeps.filter (· != region), sweepCtx := s1.sweepCtx.del region }
  else .next s

/-- The values a die holds for a region. -/
def State.setRegion (s : State) (die region w o : Nat) : State :=
  { s with regions := { die := die, region := region, w := w, o := o } :: s.regions.filter (fun r => !(r.die == die && r.region == region)) }

/-- Every die that has not yet a value of its own keeps the old one until it applies the broadcast (R242, R259). -/
def State.pinRegion (s : State) (region : Nat) : State :=
  [0, 1, 2, 3].foldl (fun x d => if x.regions.any (fun r => r.die == d && r.region == region) then x
    else x.setRegion d region (s.regionWO none region).1 (s.regionWO none region).2) s

/-- O may not rise above the step that a running checkpoint streams (R419). -/
def State.retain (s : State) (region : Nat) : Option Nat :=
  if bit (s.reg (Off.ck 0x10)) 0 && s.ck.regions.contains region then some (bits (wordAt s.ck.desc 2) 31 0) else none

/-- Register i of a command's operand block (R295). -/
def Cmd.a (c : Cmd) (i : Nat) : Word := wordAt c.regs i

/-- The region of a PUBLISH, or its error: a versioned leaf is none of a descriptor, whatever its region and its view (R255, R300). -/
def State.publishRegion (s : State) (c : Cmd) : Except Nat Nat :=
  if bits (c.a 0) 63 57 ≠ 0 then .error 3
  else if (s.leafOf (Agent.engine 17) c.ctx (c.a 0).toNat).any (·.versioned) then .error 0x12 else
  match s.leafFor (Agent.engine 17) c.ctx (c.a 0) .write with
  | .error .perm => .error 4
  | .error _ => .error 3
  | .ok l =>
    match s.place (Agent.engine 17) c.ctx (c.a 0) 8 l with
    | .error .away => .error 5
    | .error (.fault _) => .error 3
    | .ok a =>
      if isDevice a.pa && s.badMem.contains (a.pa / 64) then .error 0x13
      else if !isDevice a.pa || !s.regionOk a.pa then .error 0x12
      else if bits (s.hwRead a.pa) 31 0 = 2 ^ 32 - 1 then .error 0x11 else .ok a.pa

/-- No command of the region that came to Heartwood before command id is still to be done (R260, R282). -/
def State.regionHead (s : State) (reg id : Nat) : Bool :=
  !(s.regCmds.any fun e => decide (e.1 < id) && e.2.region == reg) &&
  !(s.cmds.any fun e => e.2.engine == 17 && decide (e.1 < id) && !e.2.started && !e.2.done &&
      (match s.publishRegion e.2 with
        | .ok r => r == reg
        | .error _ => false))

/-- The sweep of a region starts, unless it runs (R261); it is its command's context's (R429; notes/assumptions/67). -/
def State.startSweep (s : State) (reg ctx : Nat) : State :=
  { s with sweeps := if s.sweeps.contains reg then s.sweeps else s.sweeps ++ [reg]
           sweepCtx := s.sweepCtx.put reg ctx }

/-- VRETIRE_COMPLETE: in its turn among the region's commands, O rises at Heartwood and at every die, which completes the command
(R260, R265), but not above the step of a running checkpoint (R419); its sweep follows. -/
def execVretireComplete (op : Nat) (s : State) : Out :=
  match s.regCmds.find op, s.ops.find op with
  | some c, some o =>
    if !s.regionHead c.region op || !s.leaseFree c.region then .next s else
    let wo := s.regionWO none c.region
    let o2 := match s.retain c.region with
      | some st => max wo.2 (min c.o st)
      | none => max wo.2 c.o
    let s1 := s.hwWriteBy (s.hbPast o.recv (some op)) (c.region + 8) (BitVec.ofNat 64 o2)
    let s2 := [0, 1, 2, 3].foldl (fun x d => x.setRegion d c.region (s.regionWO (some d) c.region).1 o2) s1
    .next (({ s2 with regCmds := s2.regCmds.del op }.startSweep c.region (s.ctxOf (s.thr o.thr))).finishOp op o [])
  | _, _ => .next s

end Sys2Proof.Machine
end

