-- ==== Sys2Proof/Machine/Perform.lean ====
section
/-! DEFINITION. How outstanding operations are performed and land, the full/empty waiting steps, frame reclassification,
and the application of writes by other dies (spec/02_one_thread.md R31-R40, spec/07_isa_memory_access.md R138-R153,
spec/10_isa_synchronisation.md R204-R207, spec/12_memory_hierarchy.md R221-R224, spec/13_consistency_model.md R236-R240,
spec/26_fabric_and_checkpoint.md R409-R413). -/

namespace Sys2Proof.Machine

/-! ## Atomic steps (R201, R202, R204) -/

/-- The floating type of an atomic item. -/
def AtomTy.fty : AtomTy → Option FTy
  | .d => some .d
  | .f => some .f
  | .s | .n => none

/-- The new value of an item of n bytes (R201). -/
def atomNew (o : AtomOp) (t : AtomTy) (n old x : Nat) : Nat :=
  let w := 8 * n
  let int := fun (i : IOp) => ((i.result w false (BitVec.ofNat 64 old) (BitVec.ofNat 64 x)).toNat) % 2 ^ w
  match o, AtomTy.fty t with
  | .exch, _ => x % 2 ^ w
  | .add, some ty => fadd ty .rne ((FTy.fmt ty).value old) ((FTy.fmt ty).value x)
  | .min, some ty => fminmax ty false old x
  | .max, some ty => fminmax ty true old x
  | .add, none => int .add
  | .min, none => int (if t = .s then .minS else .minN)
  | .max, none => int (if t = .s then .maxS else .maxN)
  | .and, _ => int .and
  | .or, _ => int .or
  | .xor, _ => int .xor

/-- Members one after another: the value each receives, the last value, and whether anything was written. -/
def atomSeq (step : AtomMember → Nat → Option Nat) : List AtomMember → Nat → List Nat × Nat × Bool
  | [], v => ([], v, false)
  | m :: t, v =>
    match step m v with
    | some w => let r := atomSeq step t w
                (v :: r.1, r.2.1, true)
    | none => let r := atomSeq step t v
              (v :: r.1, r.2.1, r.2.2)

/-- Floating add of a gang (R61, R204): member k receives old plus the partial sum before it, memory the whole sum. -/
def atomFsum (ty : FTy) (old : Nat) : Option Nat → List Nat → List Nat × Nat
  | acc, [] => ([], match acc with
      | some a => fadd ty .rne ((FTy.fmt ty).value old) ((FTy.fmt ty).value a)
      | none => old)
  | acc, c :: t =>
    let got := match acc with
      | some a => fadd ty .rne ((FTy.fmt ty).value old) ((FTy.fmt ty).value a)
      | none => old
    let acc2 := match acc with
      | some a => fadd ty .rne ((FTy.fmt ty).value a) ((FTy.fmt ty).value c)
      | none => c
    let r := atomFsum ty old (some acc2) t
    (got :: r.1, r.2)

/-- One atomic step of a gang on one item of n bytes: the members' old values, the new value, and whether it is written
(R202, R204). -/
def atomStep (fn : AtomFn) (n old : Nat) (ms : List AtomMember) : List Nat × Nat × Bool :=
  let w := 2 ^ (8 * n)
  match fn with
  | .cas => atomSeq (fun m v => if v = m.x.toNat % w then some (m.y.toNat % w) else none) ms old
  | .op .add t =>
    match AtomTy.fty t with
    | some ty => let r := atomFsum ty old none (ms.map fun m => m.x.toNat % w)
                 (r.1, r.2, true)
    | none => atomSeq (fun m v => some (atomNew .add t n v (m.x.toNat % w))) ms old
  | .op o t => atomSeq (fun m v => some (atomNew o t n v (m.x.toNat % w))) ms old

/-- How an old value reaches its register (R201, R202). -/
def AtomFn.ext (fn : AtomFn) (n v : Nat) : Word :=
  match fn with
  | .op _ t => atomExt t n v
  | .cas => BitVec.ofNat 64 v

/-- The end of an atomic: each member gets its old value; under the uniform bit the one result goes to every receiver.
Each member's results land under the number of its own instruction, after its flag's rise (R33). -/
def State.finishAtomic (s : State) (seq : Nat) (o : Op) (vals : List (AtomMember × Word)) : State :=
  let land := fun (m : AtomMember) (v : Word) => match m.dst with
    | some r => [Landing.reg r v none]
    | none => []
  match vals with
  | [(m, v)] => s.finishOp seq o (land m v)
  | _ => vals.foldl (fun s x => s.landIn x.1.thr x.1.num s.clk (o.ending (land x.1 x.2))) { s with ops := s.ops.del seq }

/-- Overlapping items of one gang at different addresses or sizes are served in ascending lane order (R204). -/
def State.laneOrderOk (s : State) (seq : Nat) (o : Op) : Bool :=
  match o.kind with
  | .atomic a _ _ => s.ops.all fun e => match e.2.kind with
      | .atomic b _ _ => !(decide (e.1 < seq) && e.2.issueClk == o.issueClk && e.2.pc == o.pc && coreOf e.2.thr == coreOf o.thr && meets a.pa a.size b.pa b.size)
      | _ => true
  | _ => true

/-! ## Scratchpad (R143, R215) -/

def State.blockOf (s : State) (b : Nat) : Option Block := s.blocks.find b

/-- The scratchpad pages of an access are in SRAM (R215). -/
def State.spadReady (s : State) (o : Op) : Bool :=
  match o.kind.spad with
  | none => true
  | some (b, off, n, _, _) =>
    match s.blocks.find b with
    | none => true
    | some x => (spadPages off n).all fun p => x.pages[p]? != some .absent

def Block.spad (b : Block) (off n : Nat) : Nat := ofLe (Mem.readN b.scratch off n)

def State.spadWrite (s : State) (b off n v : Nat) : State :=
  s.updBlock b fun x => { x with scratch := Mem.writeN x.scratch off (toLe n v) }

/-! ## Peers (R409-R413) -/

/-- What came of an access to a peer: accepted, to be sent again, or answered with a fault (R410, R411). -/
inductive PeerAns where
  | yes (s : State)
  | wait (s : State)
  | bad (s : State) (c : Cause)

/-- A refusal of an operation's access: one more, and a wait of the hint's microseconds; the one that reaches FB_RETRY_MAX
is NONRES (R411). -/
def State.peerRefused (s : State) (seq hint : Nat) : PeerAns :=
  let n := ((s.peerWaits.find? fun w => w.op == seq).map (·.refusals)).getD 0 + 1
  let rest := s.peerWaits.filter fun w => w.op != seq
  let lim := bits (s.reg (Off.fb 0x18)) 15 0
  if lim ≠ 0 ∧ lim ≤ n then .bad { s with peerWaits := rest } .nonres
  else .wait { s with peerWaits := { op := seq, refusals := n, notBefore := s.ptp + 1000 * hint } :: rest }

/-- The peer's answer to an operation's request (R409-R411); a load under WB may bring its line under a lease (R412). -/
def State.peerAsk (s : State) (seq : Nat) (o : Op) (a : Access) : PeerAns :=
  if s.peerDown (a.pa / 2 ^ 40 % 1024) then s.peerRefused seq 1000 else
  let ans := Config.peerAnswer s.draws
  let s1 := { s with peerWaits := s.peerWaits.filter fun w => w.op != seq }
  match ans % 4 with
  | 2 => s.peerRefused seq (1 + ans / 4 % 4095)
  | 3 => .bad s1 (if ans / 4 % 2 = 0 then .xlate else .perm)
  | _ => .yes (if (o.kind.plainLoad || o.kind.isUnit) ∧ a.policy = 0 ∧ ans / 4 % 2 = 0 then s1.leaseTake a.pa (s.ptp + ans / 8) else s1)

/-- A read that goes to the memory of another package or of the host finds what its owner has stored there: of a WB peer line, which a
lease may keep whole, in all its 256 bytes (R245, R246, R412). -/
def State.fromOwner (s : State) (o : Op) (a : Access) : State :=
  if !o.kind.reads then s
  else if isPeer a.pa then (if a.policy = 0 then s.outsideStore (a.pa / 256 * 256) 256 else s.outsideStore a.pa a.size)
  else if s.fromHost (s.paNow a) then s.outsideStore (s.paNow a) a.size else s

/-- A load of a peer line that is served from a valid copy asks nobody (R412). -/
def State.copied (s : State) (o : Op) (a : Access) : Bool := (o.kind.plainLoad || o.kind.isUnit) && a.policy == 0 && s.leaseValid a.pa

/-- A read or write once its memory's owner has accepted it: at once but for a peer (R411, R412). -/
def State.askOwner (s : State) (seq : Nat) (o : Op) (a : Access) : PeerAns :=
  if !isPeer a.pa then .yes (s.fromOwner o a) else if s.copied o a then .yes s else (s.fromOwner o a).peerAsk seq o a

/-- A thread's access goes on once its owner has accepted it; an answer that is a fault is raised precisely (R411). -/
def State.viaPeer (s : State) (seq : Nat) (o : Op) (a : Access) (go : State → State) : State :=
  match s.askOwner seq o a with
  | .yes s1 => go s1
  | .wait s1 => s1
  | .bad s1 c => s1.faultOp seq o { cause := c, kind := o.kind.kind, addr := BitVec.ofNat 64 a.va }

/-! ## What may be performed now -/

/-- A refilled page serves the accesses that found it ABSENT in issue order (R216). -/
def State.refillOrder (s : State) (seq : Nat) (o : Op) : Bool :=
  match o.kind.spad with
  | none => true
  | some (b, off, n, _, _) =>
    (s.blocks.find b).elim true fun x => (spadPages off n).all fun p =>
      !x.waited.contains (p, seq) || ((x.waited.filter fun w => w.1 == p && decide (w.2 < seq)).all fun w => (s.ops.find w.2).isNone)

/-- What a read of the operation would meet is complete (R234). -/
def State.acqOk (s : State) (o : Op) : Bool :=
  match o.kind, o.kind.access with
  | .feform _ _ _ _ _, some (a, _, _) => s.acqReady o (s.paNow a) 8 true
  | _, some (a, _, _) => s.acqReady o (s.paNow a) a.size false
  | _, none => true

/-- Nothing but the caches and classes holds the operation back: its bounds, the orders it stands in, the residency of the
scratchpad, and the switches of its page. -/
def State.canPerformBut (s : State) (seq : Nat) (o : Op) (write : Bool) : Bool :=
  decide (o.earliest ≤ s.clk) && s.orderOk seq o && s.laneOrderOk seq o && s.spadReady o && s.refillOrder seq o && s.acqOk o &&
  (!write || s.pastHere (dieOf o.thr) o.recv (some seq)) && o.kind.accesses.all fun x => s.replayOk seq (s.paNow x.1)

/-- Nothing holds the operation back, with the access it makes taken as a write or a read. -/
def State.canPerformAs (s : State) (seq : Nat) (o : Op) (write excl : Bool) : Bool :=
  s.canPerformBut seq o write &&
  (match o.kind.access with
    | some (a, _, _) => s.accessOk seq o.thr a write excl
    | none => true)

/-- Nothing holds the operation back: its bounds, order, residency of the scratchpad, and the rules of its accesses; a LAUNCH that
goes on reads its record as well (R208). -/
def State.canPerform (s : State) (seq : Nat) (o : Op) (excl : Bool) : Bool :=
  s.canPerformAs seq o (o.kind.access.any fun x => x.2.2) excl && ((o.kind.accesses.drop 1).all fun x => s.accessOk seq o.thr x.1 false false)

/-! ## The full/empty forms (R148-R150) -/

def OpKind.isLaunch : OpKind → Bool
  | .launch _ _ => true
  | _ => false

/-- The members of a form leave it: each is held by its operation until the landing (R35, R150). -/
def State.leaveForm (s : State) (o : Op) (seq : Nat) : State :=
  o.recv.foldl (fun x k => x.updThread k fun t => match t.status with
    | .form _ _ _ _ _ => { t with status := .sync seq, releases := 0 }
    | _ => t) s

/-- Every member that a form's operation holds stands at the form; the executing member's record is the one held (R150,
R161). -/
def State.parkAt (s : State) (o : Op) (w : Nat) (want recorded released : Bool) (n : Nat) : State :=
  o.recv.foldl (fun x k => x.updThread k fun t => { t with status := .form w want o.kind.isLaunch recorded released, releases := n }) s

/-- The form's step on a word in the right state (R148, R149). A FEQ whose pd is its residency predicate too keeps the latter, 1: the model's
choice of the two (notes/assumptions/65). -/
def State.feStep (s : State) (seq : Nat) (o : Op) (a : Access) (f : FeOp) (v : Word) (dst pr : Nat) : State :=
  let s0 := s.leaveForm o seq
  let got := s.loadValue seq o.thr a
  let ok := [Landing.pred pr true]
  let s1 := s0.afterRead seq o (s.paNow a) 8 true
  let w := s1.opWriter seq o o.recv (some a)
  match f with
  | .ldw => (s1.readNow seq o a).finishOp seq o (.reg dst got (s.loadMark o a) :: ok)
  | .ldc => (s1.storeFe o.thr w a none false).finishOp seq o (.reg dst got (s.loadMark o a) :: ok)
  | .stf | .stx => (s1.storeFe o.thr w a (some v) true).finishOp seq o ok
  | .purge => (s1.storeFe o.thr w a none false).finishOp seq o ok
  | .feq => (s1.readNow seq o a).finishOp seq o (.pred dst (s.fullAt (some (dieOf o.thr)) (s.paNow a)) :: ok)

/-- LAUNCH on an empty slot: the record fills the eight words as one write, which every die sees whole (R208, R244). -/
def State.launchStep (s : State) (seq : Nat) (o : Op) (slot src : Access) : State :=
  let s0 := (s.leaveForm o seq).snapUnits seq o.recv slot
  let ws := (List.range 8).map fun i => s.loadValue seq o.thr { src with va := src.va + 8 * i, pa := src.pa + 8 * i, size := 8 }
  let pa := s.paNow slot
  ((((s0.readNow seq o src).l1Use (coreOf o.thr) slot true).classTouch (dieOf o.thr) slot.ctx pa).writeWords (s.opWriter seq o o.recv (some slot)) slot.key pa
    (ws.flatMap fun w => toLe 8 w.toNat) ((List.range 8).map fun i => pa + 8 * i) true).finishOp seq o []

/-- The operation's step, once it may go on; the record of a LAUNCH is as its owner left it, and a peer must accept its read (R245, R411). -/
def State.waitingStep (s : State) (seq : Nat) (o : Op) : State :=
  match o.kind with
  | .feform a f v dst pr => s.feStep seq o a f v dst pr
  | .launch a b => (s.leaveForm o seq).viaPeer seq o b fun s => s.launchStep seq o a b
  | _ => s

/-- The form's word has moved to host memory: the page counts as away, for a form that names a flag and has issued too (R137, R152, R267;
notes/assumptions/60). -/
def State.formAway (s : State) (seq : Nat) (o : Op) : Option State :=
  let lost := fun (a : Access) => s.faultOp seq o { cause := .nonres, kind := .fe, addr := BitVec.ofNat 64 a.va }
  match o.kind with
  | .feform a f _ dst pr =>
    if isDevice (s.paNow a) then none
    else if pr = 7 then some (lost a)
    else some ((s.leaveForm o seq).finishOp seq o ((match f with
      | .ldw | .ldc => [Landing.reg dst 0 none]
      | .feq => [Landing.pred dst false]
      | .stf | .stx | .purge => []) ++ [.pred pr false]))
  | .launch a _ => if isDevice (s.paNow a) then none else some (lost a)
  | _ => none

/-- A first try of a form: it takes its step, or its thread parks. A form that must wait writes nothing, so it needs its word
only to be read: a SHARED page stays SHARED (R150, R205, R262). -/
def State.formTry (s : State) (seq : Nat) (o : Op) : State :=
  match s.formAway seq o with
  | some s1 => s1
  | none =>
  match s.mustWait o with
  | none => if s.canPerform seq o true then s.waitingStep seq o else s
  | some (w, want) => s.parkAt o w want false false (s.thr o.thr).releases

/-- The thread's waiting operation. -/
def State.formOp (s : State) (k : Nat) : Option (Nat × Op) :=
  s.ops.find? fun e => e.2.thr == k && (match e.2.kind with
    | .feform _ _ _ _ _ => true
    | .launch _ _ => true
    | _ => false)

/-- WAKE (R207): the oldest wake of the word releases its waiters for the new state, once the slice can reach its park areas (R442). -/
def execWake (word : Nat) (s : State) : Out :=
  match s.wakes.find? (fun w => w.1 == word) with
  | some w => if s.waitCtxs.any fun c => s.parkHeld c word then .next s else .next ({ s with wakes := s.wakes.erase w }.releaseWord word w.2)
  | none => .next s

/-! ## Loads, stores and the others -/

/-- A load lands: it reads memory as its die sees it, under the thread's own stores (R39, R139, R236). -/
def State.landLoad (s : State) (seq : Nat) (o : Op) (a : Access) (sgn : Bool) (dst pr : Nat) : State :=
  ((s.afterRead seq o (s.paNow a) a.size false).readNow seq o a).finishOp seq o
    [.reg dst (extend a.size sgn (s.loadValue seq o.thr a)) (s.loadMark o a), .pred pr true]

/-- A store is performed (R140). -/
def State.doStore (s : State) (seq : Nat) (o : Op) (a : Access) (v : Word) : State :=
  (s.storeNow o.thr (s.opWriter seq o o.recv none) a (toLe a.size v.toNat)).finishOp seq o []

/-- An atomic's step (R203, R204). -/
def State.doAtomic (s : State) (seq : Nat) (o : Op) (a : Access) (fn : AtomFn) (ms : List AtomMember) : State :=
  let r := atomStep fn a.size (s.loadValue seq o.thr a).toNat ms
  let s0 := s.afterRead seq o (s.paNow a) a.size false
  let s1 := if r.2.2 then s0.storeNow o.thr (s0.opWriter seq o o.recv (some a)) a (toLe a.size r.2.1) else s0.readNow seq o a
  s1.finishAtomic seq o (ms.zip (r.1.map (fn.ext a.size)))

/-- SIGNAL: the store, with the fill on device memory (R209). -/
def State.doSignal (s : State) (seq : Nat) (o : Op) (a : Access) (fill : Bool) (v : Word) : State :=
  let w := s.opWriter seq o o.recv none
  (if fill && isDevice (s.paNow a) then s.storeFe o.thr w a (some v) true else s.storeNow o.thr w a (toLe 8 v.toNat)).finishOp seq o []

/-- What the last release that a scratchpad item holds covers (R203, R229). -/
def State.spadHeld (s : State) (b off : Nat) : List Nat := ((s.blocks.find b).bind fun x => x.spadRel.find (off / 8)).getD []

/-- What a fence of the threads before covers, which the write of a scratchpad item then heads: none where no thread of them has
released by a fence (R229, R234). -/
def State.fenced (s : State) (ks : List Nat) (op : Nat) : Option (List Nat) :=
  let rels := ks.flatMap fun k => (s.hbOf k).rels
  if rels.isEmpty then none else some ((s.hbPast ks (some op) ++ rels.flatMap (·.2)).dedup)

/-- A read of a scratchpad item is remembered for a later FENCE.acq of its threads (R229, R234). -/
def State.spadRead (s : State) (o : Op) (b off : Nat) : State :=
  let ids := s.spadHeld b off
  if ids.isEmpty then s else
  o.recv.foldl (fun x k => x.setHb k { x.hbOf k with spad := (((x.hbOf k).spad ++ ids).filter fun i => (x.inflight.find i).isSome).dedup }) s

/-- LDS lands (R143, R229). -/
def State.landLds (s : State) (seq : Nat) (o : Op) (b off n : Nat) (sgn : Bool) (dst : Nat) : State :=
  let v := match s.blocks.find b with
    | some x => x.spad off n
    | none => 0
  let m : Option Mark := if s.badSpad.contains (b, off / 8) then some { issuePc := o.pc.setWidth 64, source := 20, code := 0, addr := BitVec.ofNat 64 off } else none
  (s.spadRead o b off).finishOp seq o [.reg dst (extend n sgn (BitVec.ofNat 64 v)) m]

/-- STS is performed (R143): a write after a fence that releases heads a release sequence, any other ends the item's (R229, R234). -/
def State.doSts (s : State) (seq : Nat) (o : Op) (b off n : Nat) (v : Word) : State :=
  ((s.spadWrite b off n v.toNat).updBlock b fun x => { x with spadRel := match s.fenced o.recv seq with
    | some ids => x.spadRel.put (off / 8) ids
    | none => x.spadRel.del (off / 8) }).finishOp seq o []

/-- The order of an ATOMS at .blk (R203, R229, R233): an acquire sees what the item's last release covers, another read leaves it to a
later FENCE.acq; a release, or a write after a fence that releases, leaves what its thread's own past is; another write to the
item ends the sequence only when it is no atomic step. -/
def State.orderAtoms (s : State) (seq : Nat) (o : Op) (b off : Nat) : State :=
  let held := s.spadHeld b off
  let s1 := (if o.ord.acq then o.recv.foldl (fun x k => x.see k held) s else s).spadRead o b off
  match (if o.ord.rel then some (s1.hbPast o.recv (some seq)) else none), s1.fenced o.recv seq with
  | none, none => s1
  | r, f => s1.updBlock b fun x => { x with spadRel := x.spadRel.put (off / 8) ((r.getD [] ++ f.getD [] ++ held).dedup) }

/-- ATOMS (R203, R204). -/
def State.doAtoms (s : State) (seq : Nat) (o : Op) (b off n : Nat) (fn : AtomFn) (ms : List AtomMember) : State :=
  let old := match s.blocks.find b with
    | some x => x.spad off n
    | none => 0
  let r := atomStep fn n old ms
  let s1 := s.orderAtoms seq o b off
  (if r.2.2 then s1.spadWrite b off n r.2.1 else s1).finishAtomic seq o (ms.zip (r.1.map (fn.ext n)))

/-- The dirty sectors of a line in a core's L1 are written to its die's L2; the line stays, clean (R146). -/
def State.cleanL1 (s : State) (core line : Nat) : State :=
  let ds := (List.range 4).filter fun i => s.l1State core (256 * line + 64 * i) == 3
  { s with l1 := s.l1.map fun (l : L1Line) => if l.core = core ∧ l.line = line then { l with states := l.states.map fun x => if x = 3 then 2 else x } else l
           l2 := s.l2.map fun (l : L2Ent) => if l.die = core / 512 ∧ l.line = line then { l with dirty := (l.dirty ++ ds).dedup } else l }

/-- A CCTL may act: one on the die's L2 waits for a transaction of the line and for notices on their way to it (R394,
R401); one that drops instruction lines until its die has applied every store that happens-before it (R147). -/
def State.cctlReady (s : State) (o : Op) (op : CctlOp) (pa : Nat) : Bool :=
  match op with
  | .wbl2 | .invl2 => !s.l2Busy (dieOf o.thr) (pa / 256) && !s.notices.any fun n => n.core / 512 == dieOf o.thr && n.line == pa / 256
  | .iinv | .iinvall => o.recv.all fun k => (s.owed k).all fun i => (s.inflight.find i).all fun e => !e.dies.contains (dieOf o.thr)
  | .wbl1 | .invl1 => true

/-- CCTL (R146, R147): write-backs and invalidations move copies only, of the copies there are; one that writes back is a write of
its die (R222). iinv and iinvall drop instruction lines. -/
def State.doCctl (s : State) (seq : Nat) (o : Op) (op : CctlOp) (pa : Nat) : State :=
  let core := coreOf o.thr
  let die := dieOf o.thr
  let line := pa / 256
  let ds := (List.range 4).filter fun i => s.l1State core (256 * line + 64 * i) == 3
  let back := fun (s : State) => s.classTouch die (s.ctxOf (s.thr o.thr)) pa
  let s1 := match op with
    | .iinvall => { s with icache := s.icache.filter fun e => e.1 != core }
    | .iinv => { s with icache := s.icache.filter fun e => !(e.1 == core && e.2.1 == line) }
    | .wbl1 => if ds.isEmpty then s else (back s).cleanL1 core line
    | .invl1 => (if ds.isEmpty then s else (back s).cleanL1 core line).evictLine core line
    | .wbl2 => if (s.l2Ent die line).dirty.isEmpty then s else
      { back s with l2 := s.l2.map (fun (l : L2Ent) => if l.die = die ∧ l.line = line then { l with dirty := [] } else l)
                    taproot := s.taproot.map fun (e : Nat × List Nat) => if e.1 / 4 = line ∧ e.2.getD die 0 = 3 then (e.1, e.2.set die 1) else e }
    | .invl2 => (if (s.l2Ent die line).dirty.isEmpty ∧ (s.l1.any fun (l : L1Line) => l.core / 512 == die && l.line == line && l.states.any (· == 3)) = false
        then s else back s).l2Evict die line
  s1.finishOp seq o []

/-- A load, whose landing a FENCE waits for (R239): atomics and the forms that change a word count as writes. -/
def OpKind.isLoad : OpKind → Bool
  | .load _ _ _ _ | .fill _ | .lds _ _ _ _ _ | .unit _ | .callt _ => true
  | .feform _ f _ _ _ => f == .ldw || f == .feq
  | _ => false

/-- What a FENCE waits for (R239, R240): for acq earlier loads landed; for rel and full every earlier access performed to the
whole instance of the scope: from .pkg on, applied by every die. An acquire fence also waits until what its thread's reads
met is complete (R234). -/
def State.fenceOk (s : State) (seq : Nat) (o : Op) (kind : FenceKind) (sc : Scope) : Bool :=
  let mine := s.ops.filter fun e => decide (e.1 < seq) && e.2.recv.any (o.recv.contains ·)
  mine.all (fun e => !e.2.kind.isLoad) &&
  (kind == .acquire ||
    (mine.all (fun e => !e.2.kind.before sc) &&
      (!pkgScope sc || s.inflight.all fun e => e.2.dies.isEmpty || !(o.recv.any e.2.thrs.contains)))) &&
  (kind == .release || o.recv.all fun k =>
    (s.metIn k sc (s.inflight.filter fun e => (s.hbOf k).read.contains e.1)).all fun x => s.pendOver x.2)

/-- A FENCE completes (R234, R236, R239): rel and full cover what their thread has done, with its die's clock from .pkg on; acq
and full meet the releases that its earlier reads read from, and stand, at every scope, between those reads and later accesses: one
still outstanding, as an atomic may be, may yet meet a release (R234). -/
def State.doFence (s : State) (seq : Nat) (o : Op) (kind : FenceKind) (sc : Scope) : State :=
  (o.recv.foldl (fun x k =>
    let y := if kind == .release then x else
      (x.see k (x.brought (x.metIn k sc (x.inflight.filter fun e => (x.hbOf k).read.contains e.1)) ++ (x.hbOf k).spad)).markAcquire k seq true
    if kind == .acquire then y else
      let h := y.hbOf k
      let past := (y.hbPast [k] (some seq) ++ (if pkgScope sc then y.clock (dieOf k) else [])).dedup
      y.setHb k { h with rels := (sc, past) :: h.rels.filter fun r => r.1 != sc }) s).finishOp seq o []

/-! ## The return stack in memory (R24-R26) -/

/-- The operation's access to a peer has been refused and waits for its hint (R411). -/
def State.peerWaiting (s : State) (seq : Nat) : Bool := s.peerWaits.any fun w => w.op == seq

/-- RETURN_STACK_SPILL: the ordinary store of the oldest entry is performed and its thread goes on (R24, R25). -/
def execReturnStackSpill (thr : Nat) (s : State) : Out :=
  match s.ops.find? (fun e => e.2.thr == thr && (match e.2.kind with
      | .spill _ _ => true
      | _ => false)) with
  | some (seq, o) =>
    match o.kind with
    | .spill a v => if s.canPerform seq o false && !s.peerWaiting seq then .next (s.viaPeer seq o a fun s => s.doStore seq o a v) else .next s
    | _ => .next s
  | none => .next s

/-- The fill is performed, and the thread's PC is the entry it read. A fill has no destination register for R357 to mark: where
its sector holds an uncorrectable error the value is used as it stands (R24, R25, R107; notes/assumptions/47). -/
def State.doFill (s : State) (seq : Nat) (o : Op) (a : Access) : State :=
  let e := s.loadValue seq o.thr a
  let s1 := o.recv.foldl (fun x k => x.updThread k fun t => { t with pc := (e &&& ~~~1).setWidth 57 }) s
  ((s1.afterRead seq o (s.paNow a) a.size false).readNow seq o a).finishOp seq o []

/-- RETURN_STACK_FILL: the ordinary load of the newest spilled entry lands in the PC (R24-R26). -/
def execReturnStackFill (thr : Nat) (s : State) : Out :=
  match s.ops.find? (fun e => e.2.thr == thr && (match e.2.kind with
      | .fill _ => true
      | _ => false)) with
  | some (seq, o) =>
    match o.kind with
    | .fill a => if s.canPerform seq o false && !s.peerWaiting seq then .next (s.viaPeer seq o a fun s => s.doFill seq o a) else .next s
    | _ => .next s
  | none => .next s

/-! ## Waits that end (R110, R111) -/

/-- WAIT_EXPIRY: the count or the time has passed; WAIT completes (R110). -/
def execWaitExpiry (thr : Nat) (s : State) : Out :=
  match (s.thr thr).status with
  | .wait time d f =>
    if d ≤ (if time then s.ptp else s.clk) then
      .next ((s.updThread thr fun t => { t with status := .run, readyAt := max t.readyAt (s.clk + 1), since := 0 }).landIn thr s.nextSeq s.clk
        (match f with
          | some f => [.flagDown f]
          | none => []))
    else .next s
  | _ => .next s

/-- YIELD_EXPIRY: 32 clk after the YIELD the thread may issue again, and counts as ready from when R30 lets it (R111). -/
def execYieldExpiry (thr : Nat) (s : State) : Out :=
  match (s.thr thr).status with
  | .yield d => if d ≤ s.clk then .next (s.updThread thr fun t => { t with status := .run, since := 0 }) else .next s
  | _ => .next s

/-! ## Reclassification and remote writes -/

/-- The frames outside thread k's die's reach that its next fetch may read (R222). -/
def State.fetchFrames (s : State) (k : Nat) : List Nat :=
  if (s.thr k).status ≠ .run then [] else
  [(s.thr k).pc, (s.thr k).pc + 6].filterMap fun p =>
    match s.accessFor (Agent.core k) (s.ctxOf (s.thr k)) (p.setWidth 64) 2 .fetch with
    | .ok a => if s.classOk (dieOf k) (s.paNow a) false then none else some (s.paNow a / 65536)
    | .error _ => none

/-- An access that has come to its frame's home, a fetch or a prefetch, waits for the frame's reclassification; a form that must wait
changes no word yet, and a write to a working page that is not OWNED goes to a frame of its own (R222, R224, R262). -/
def State.heldByClass (s : State) (frame : Nat) : Bool :=
  (s.ops.any fun e => (if (s.mustWait e.2).isSome then e.2.kind.accesses.take 1 else e.2.kind.accesses).any fun x => s.paNow x.1 / 65536 == frame && s.versionOk x.1 x.2 &&
    !s.classOk (dieOf e.2.thr) (s.paNow x.1) (x.2 && (s.mustWait e.2).isNone) && s.orderOk e.1 e.2) ||
  (s.threads.any fun e => (s.fetchFrames e.1).contains frame) ||
  s.prefs.any fun p => p.sector / 1024 == frame && !s.classOk (p.core / 512) (64 * p.sector) p.excl

/-- Every write to the frame has reached every die: what a reclassification's write-back gives the access it serves (R222). -/
def State.frameCurrent (s : State) (frame : Nat) : Bool :=
  s.inflight.all fun e => e.2.dies.isEmpty || !(e.2.old.any (fun c => c.1 / 65536 == frame) || e.2.oldFe.any (fun c => c.1 / 65536 == frame))

/-- RECLASSIFY_COMPLETE: the copies of the frame are written back and invalidated, and the frame is SHARED (R222). -/
def execReclassifyComplete (frame : Nat) (s : State) : Out :=
  if s.heldByClass frame && s.frameCurrent frame then
    .next { s.dropCopies frame with frames := s.frames.put frame { (s.frames.find frame).getD {} with cls := .shared } }
  else .next s

/-- The sectors that a write on its way touches. -/
def Inflight.sectors (e : Inflight) : List Nat := (e.old.map fun c => c.1 / 64) ++ (e.oldFe.map fun c => c.1 / 64)

/-- A write that every die has applied is forgotten once no operation is left that its release went ahead of; the bytes it
wrote are no earlier write's any more (R234, R236). -/
def State.tidyWrites (s : State) : State :=
  let spent := fun (e : Nat × Inflight) => e.2.dies.isEmpty && e.2.heads.all s.pendOver
  let gone := s.inflight.filter spent
  if gone.isEmpty then s else
  { s with inflight := (s.inflight.filter fun e => !spent e).map fun e =>
      if e.2.dies.isEmpty then
        (e.1, { e.2 with old := e.2.old.filter fun c => !(gone.any fun g => decide (e.1 < g.1) && g.2.old.any fun x => x.1 == c.1)
                         oldFe := e.2.oldFe.filter fun c => !(gone.any fun g => decide (e.1 < g.1) && g.2.oldFe.any fun x => x.1 == c.1) })
      else e }

/-- REMOTE_WRITE_APPLY: a die applies a received write once it has applied every write that its clock names, in the
coherence order of its sector (R236, R237). -/
def execRemoteWriteApply (die msg : Nat) (s : State) : Out :=
  match s.inflight.find msg with
  | none => .next s
  | some e =>
    let waits := s.inflight.any fun x => x.2.dies.contains die &&
      (e.past.contains x.1 || (decide (x.1 < msg) && x.2.sectors.any (e.sectors.contains ·)))
    if e.dies.contains die && !waits then
      let s1 := { s with inflight := s.inflight.put msg { e with dies := e.dies.filter (· != die) } }
      .next { s1.tidyWrites with late := s.late.filter fun x => !(x.1 == die && e.sectors.contains x.2) }
    else .next s

end Sys2Proof.Machine
end

