-- ==== Sys2Proof/Machine/Control.lean ====
section
/-! DEFINITION. The control instructions (spec/05_isa_integer_control.md R103-R111, spec/04_encoding_and_assembly.md R72,
spec/19_traversal_and_render.md R337) with the return stack's push and pop (spec/02_one_thread.md R24, R25). -/

namespace Sys2Proof.Machine

/-- A jump target in a register (R72). -/
def targetOk (a : Word) : Bool := bits a 63 57 == 0 && !bit a 0

/-- Push of R24: the return address enters the hardware part; a full one spills its oldest entry, and the thread is held
until the spill is performed, which is when also lands what also names (R25, R106). -/
def State.push (s : State) (q : Issue) (k : Nat) (ret : Pc) (also : List Landing) : Except FaultInfo State :=
  let t := s.thr k
  if t.hw.length < 8 then .ok (s.updThread k fun t => { t with hw := t.hw ++ [ret] })
  else if t.depth = 512 then .error { cause := .rsover, kind := .retstack }
  else
    let a := t.tlsbase + BitVec.ofNat 64 (8 * t.depth)
    match s.check5 k t a 8 8 .write false true .retstack with
    | .error f => .error f
    | .ok x =>
      .ok ((((s.used k t a).dropPeerCopy x.pa).startOp q true {} k [k] (0, none) (.spill x ((t.hw.headD 0).setWidth 64)) also).updThread k fun t =>
        { t with hw := t.hw.drop 1 ++ [ret], depth := t.depth + 1 })

/-- A named flag of a class C instruction rises and falls in its issue clk (R103). -/
def State.classC (s : State) (q : Issue) (k : Nat) : State := s.fixed q 1 [k] []

def State.setPc (s : State) (k : Nat) (pc : Pc) : State := s.updThread k fun t => { t with pc := pc }

/-- The target of BRA and CALL. The spec names no fault and no modulus for a target below 0 or from 2^57 on; it wraps modulo
2^57, as the PC's advance does (R22, R72; notes/assumptions/48). -/
def branchTarget (pc : Pc) (off : BitVec 24) : Pc := pc + (2 * off.signExtend 64).setWidth 57

/-- A call: the push, then the new PC (R105); a push that spills holds its flag, and what else the call writes, until the
spill is done. -/
def State.callTo (s : State) (c : Ctl) (k : Nat) (pc : Pc) (l : List Landing) : Except FaultInfo State :=
  let full := decide ((s.thr k).hw.length = 8)
  match s.push (issue64 c) k ((s.thr k).pc + 8) l with
  | .error f => .error f
  | .ok s1 => .ok ((if full then s1 else s1.fixed (issue64 c) 1 [k] l).setPc k pc)

/-- BRA (R104). -/
def execBra (c : Ctl) (off : BitVec 24) (s : State) : Out :=
  .next (s.runGang (issue64 c) [] [] false fun s l _ => .ok ((s.classC (issue64 c) l).setPc l (branchTarget (s.thr l).pc off)))

/-- JMP (R104, R72). -/
def execJmp (c : Ctl) (va : Reg) (s : State) : Out :=
  .next (s.runGang (issue64 c) [va.toNat] [va.toNat] false fun s l _ =>
    let a := (s.thr l).reg va.toNat
    if targetOk a then .ok ((s.classC (issue64 c) l).setPc l (a.setWidth 57)) else .error { cause := .badaddr, addr := a })

/-- CALL (R105). -/
def execCall (c : Ctl) (off : BitVec 24) (s : State) : Out :=
  .next (s.runGang (issue64 c) [] [] false fun s l _ => s.callTo c l (branchTarget (s.thr l).pc off) [])

/-- CALLR (R105). -/
def execCallr (c : Ctl) (va : Reg) (s : State) : Out :=
  .next (s.runGang (issue64 c) [va.toNat] [va.toNat] false fun s l _ =>
    let a := (s.thr l).reg va.toNat
    if targetOk a then s.callTo c l (a.setWidth 57) [] else .error { cause := .badaddr, addr := a })

/-- The shader-table entry of index i: SHTRANGE, or the record's address (R337). -/
def shaderIndex (h i : Word) : Option Nat :=
  if bits i 31 0 < bits h 31 0 then some (bits i 31 0)
  else if bit h 32 && bits h 31 0 != 0 then some 0 else none

/-- CALLT issues with its load of the table's header: the thread issues nothing further until it ends (R337). -/
def execCallt (c : Ctl) (pd : PReg) (vd va vb : Reg) (s : State) : Out :=
  .next (s.runGang (issue64 c) [vd.toNat, va.toNat, vb.toNat] [va.toNat, vb.toNat] false fun s l _ =>
    let t := s.thr l
    let base := t.reg va.toNat
    match s.check5 l t base 64 8 .read true false .shtable with
    | .error f => .error f
    | .ok x => .ok ((s.used l t base).startOp (issue64 c) true {} l [l] (0, none)
        (.callt { vd := vd.toNat, pd := pd.toNat, base := base, index := t.reg vb.toNat, want := x })))

/-- The call of a CALLT whose record holds a target (R106, R337): the push, which may spill its oldest entry first (R25), then the new PC. -/
def State.calltCall (s : State) (seq : Nat) (o : Op) (target : Pc) (l : List Landing) : State :=
  let k := o.thr
  let t := s.thr k
  let ret := o.pc + 8
  if t.hw.length < 8 then (s.updThread k fun t => { t with hw := t.hw ++ [ret], pc := target }).finishOp seq o l
  else if t.depth = 512 then s.faultOp seq o { cause := .rsover, kind := .retstack }
  else
    let a := t.tlsbase + BitVec.ofNat 64 (8 * t.depth)
    match s.check5 k t a 8 8 .write false true .retstack with
    | .error f => s.faultOp seq o f
    | .ok x =>
      let s1 := ((s.used k t a).dropPeerCopy x.pa).updThread k fun t => { t with hw := t.hw.drop 1 ++ [ret], depth := t.depth + 1, pc := target }
      { s1 with ops := s1.ops.put seq { o with also := l, kind := .spill x ((t.hw.headD 0).setWidth 64) } }

/-- A load of a CALLT is performed (R153, R337): the header gives the record's address, whose checks and load follow; the record's word
gives the call, a null record, or a target that is no address. Every fault is precise at the CALLT. The loads have no
destination register for R357 to mark: of a sector that holds an uncorrectable error the value is used as it stands (R106;
notes/assumptions/47). -/
def State.calltStep (s : State) (seq : Nat) (o : Op) (c : CalltOp) : State :=
  let v := s.loadValue seq o.thr c.want
  let s1 := (s.afterRead seq o (s.paNow c.want) c.want.size false).readNow seq o c.want
  let t := s1.thr o.thr
  match c.entry with
  | none =>
    (match shaderIndex v c.index with
      | none => s1.faultOp seq o { cause := .shtrange, kind := .shtable, addr := c.base }
      | some i =>
        let e := c.base + 64 + BitVec.ofNat 64 (64 * i)
        match s1.check5 o.thr t e 8 8 .read true false .shtable with
        | .error f => s1.faultOp seq o f
        | .ok x => let s2 := s1.used o.thr t e
                   { s2 with ops := s2.ops.put seq { o with kind := .callt { c with entry := some e, want := x } } })
  | some e =>
    if v = 0 then (s1.updThread o.thr fun t => { t with pc := o.pc + 8 }).finishOp seq o [.pred c.pd false]
    else if !targetOk v then s1.faultOp seq o { cause := .badaddr, kind := .shtable, addr := v }
    else s1.calltCall seq o (v.setWidth 57) [.reg c.vd e none, .pred c.pd true]

/-- RET (R24, R107): from the hardware part at once; from the spill area when the fill lands. -/
def execRet (c : Ctl) (s : State) : Out :=
  .next (s.runGang (issue64 c) [] [] false fun s l _ =>
    let t := s.thr l
    match t.hw.getLast? with
    | some e => .ok (((s.classC (issue64 c) l).updThread l fun t => { t with hw := t.hw.dropLast }).setPc l e)
    | none =>
      if t.depth = 0 then .error { cause := .rsunder, kind := .retstack }
      else
        let a := t.tlsbase + BitVec.ofNat 64 (8 * (t.depth - 1))
        match s.check5 l t a 8 8 .read true false .retstack with
        | .error f => .error f
        | .ok x => .ok (((s.used l t a).startOp (issue64 c) true {} l [l] (0, none) (.fill x)).updThread l fun t => { t with depth := t.depth - 1 }))

/-- EXIT: the thread issues nothing further (R108). -/
def execExit (c : Ctl) (s : State) : Out :=
  .next (s.runGang (issue64 c) [] [] false fun s l _ => .ok ((s.classC (issue64 c) l).updThread l fun t => { t with status := .exited }))

/-- NOP (R109). -/
def execNop (c : Ctl) (s : State) : Out :=
  .next (s.runGang (issue64 c) [] [] true fun s l _ => .ok (s.classC (issue64 c) l))

/-- WAIT: by count or until a time; a time that has passed makes it a NOP (R110). -/
def execWait (c : Ctl) (time : Bool) (va : Reg) (s : State) : Out :=
  .next (s.runGang (issue64 c) [va.toNat] [va.toNat] true fun s l _ =>
    let v := (s.thr l).reg va.toNat
    if time && decide (v.toNat ≤ s.ptp) then .ok (s.classC (issue64 c) l)
    else .ok (s.updThread l fun t => { t with status := .wait time (if time then v.toNat else s.clk + bits v 31 0) (issue64 c).flag }))

/-- YIELD: the next instruction issues 32 clk later at the earliest (R111). -/
def execYield (c : Ctl) (s : State) : Out :=
  .next (s.runGang (issue64 c) [] [] true fun s l _ =>
    .ok ((s.classC (issue64 c) l).updThread l fun t => { t with status := .yield (s.clk + 32) }))

end Sys2Proof.Machine
end

