-- ==== Sys2Proof/Machine/Sync.lean ====
section
/-! DEFINITION. Barriers, bundle-wide instructions, LAUNCH, SIGNAL and IDEMEND, and what reaches a barrier from engines
(spec/10_isa_synchronisation.md R191-R200, R208-R210; spec/08_parallel_work.md R163). -/

namespace Sys2Proof.Machine

/-- The barrier a thread names; a span barrier without SPAN names none (R192). -/
def State.barHome (s : State) (t : Thread) (b : BarRef) : Option BarHome :=
  match s.blocks.find t.blk with
  | none => none
  | some x =>
    match b.level with
    | .block => some (.block t.blk b.index.toNat)
    | .grove => some (.grove x.grove b.index.toNat)
    | .span =>
      match s.launches.find x.launch with
      | some l => if bit (wordAt l.words 5) 56 then some (.span x.launch b.index.toNat) else none
      | none => none

/-- The scope of a barrier (R192). -/
def BarHome.scope : BarHome → Scope
  | .block _ _ => .blk
  | .grove _ _ => .grv
  | .span _ _ => .pkg

/-- What the releases of a barrier's completed phases cover happens-before what an answer's threads do next (R197). -/
def State.barSeen (s : State) (h : BarHome) (recv : List Nat) : State :=
  (s.barGet h).elim s fun b => recv.foldl (fun x k => x.see k b.done) s

/-- A barrier instruction: NOBAR at issue, else an operation at the barrier, whose arrival and post are releases and whose
answers are acquires at the barrier's scope (R192, R196, R197). -/
def State.barOp (s : State) (c : Ctl) (bar : BarRef) (named reads : List Nat) (held acq rel : Bool) (k : Thread → BarHome → OpKind) : State :=
  s.runGang (issue64 c) named reads true fun s l recv =>
    match s.barHome (s.thr l) bar with
    | none => .error { cause := .nobar }
    | some h =>
      let kind := k (s.thr l) h
      let s1 := match kind with
        | .result _ => s.barSeen h recv
        | _ => s
      .ok (s1.startOp (issue64 c) (held || (issue64 c).flag.isNone) { acq := acq, rel := rel, scope := h.scope } l recv (0, some h.bound) kind)

/-- BARA: one arrival (R196). -/
def execBara (c : Ctl) (bar : BarRef) (vd : Reg) (s : State) : Out :=
  .next (s.barOp c bar [vd.toNat] [] false false true fun _ h => .barEv h (.arrive vd.toNat))

/-- BARW: waits for the phase that its register names; a completed one answers at once (R196). -/
def execBarw (c : Ctl) (bar : BarRef) (vd va : Reg) (s : State) : Out :=
  .next (s.barOp c bar [vd.toNat, va.toNat] [va.toNat] false true false fun t h =>
    let p := bits (t.reg va.toNat) 31 0
    match s.barGet h with
    | some b => if phaseDone b p then .result [.reg vd.toNat (statusWord p (phaseStatus b p)) none] else .barw h p vd.toNat
    | none => .barw h p vd.toNat)

/-- BARS: a post; BARBAL is precise, so the thread goes no further until the post is recorded (R195, R352). -/
def execBars (c : Ctl) (bar : BarRef) (va : Reg) (s : State) : Out :=
  .next (s.barOp c bar [va.toNat] [va.toNat] true false true fun t h => .barEv h (.post (sval 32 (t.reg va.toNat))))

/-- BARE: an arrival, then the wait for its phase (R196). -/
def execBare (c : Ctl) (bar : BarRef) (vd : Reg) (s : State) : Out :=
  .next (s.barOp c bar [vd.toNat] [] false true true fun _ h => .barEv h (.arriveWait vd.toNat))

/-- BART: a test without waiting (R196). -/
def execBart (c : Ctl) (bar : BarRef) (pd : PReg) (va : Reg) (s : State) : Out :=
  .next (s.barOp c bar [va.toNat] [va.toNat] false true false fun t h => .barEv h (.test (bits (t.reg va.toNat) 31 0) pd.toNat))

/-- The writes on their way that an arrival or a post covers: what its threads have done and seen, and at a span barrier,
whose scope is .pkg, the clock of its die (R192, R197, R237). -/
def State.barPast (s : State) (seq : Nat) (o : Op) (h : BarHome) : List Nat :=
  s.hbPast o.recv (some seq) ++ (if pkgScope h.scope then s.clock (dieOf o.thr) else [])

/-- The barrier records the event of an operation (R193-R197): an arrival and a post as releases, a test that finds the phase
completed as an acquire. -/
def State.doBar (s : State) (seq : Nat) (o : Op) (h : BarHome) (e : BarEv) : State :=
  match s.barGet h with
  | none => s.finishOp seq o []
  | some b =>
    let covered : Barrier := { b with past := (b.past ++ s.barPast seq o h).dedup }
    let arrived : Barrier := { covered with arrivals := b.arrivals + 1, arrived := if b.arrived.contains o.thr then b.arrived else b.arrived ++ [o.thr] }
    match e with
    | .arrive dst => (s.barPut h arrived).finishOp seq o [.reg dst (BitVec.ofNat 64 b.phase) none]
    | .arriveWait dst => { s with ops := s.ops.put seq { o with ord := { o.ord with rel := false }, kind := .barw h b.phase dst } }.barPut h arrived
    | .post n =>
      if balanceFits (b.balance + n) then (s.barPut h { covered with balance := b.balance + n }).finishOp seq o []
      else s.faultOp seq o { cause := .barbal, kind := .barrier }
    | .test p pd =>
      if phaseDone b p then ((s.barSeen h o.recv).acquired seq o []).finishOp seq o [.pred pd true]
      else s.finishOp seq o [.pred pd false]

/-! ## What engines and matrix operations send (R193, R195) -/

/-- The mark that a command's own writes carry among the writes on their way. -/
def cmdTag (cmd : Nat) : Nat := 2 ^ 40 + cmd

/-- What a command's completion releases: its writes that some die has not applied, those before its issue, and what the completions
of the earlier commands of an ORDERED one's sequences cover (R197, R241, R279). -/
def State.cmdWrites (s : State) (cmd : Nat) : List Nat :=
  (s.inflight.filter fun e => !e.2.dies.isEmpty && (e.2.thrs.contains (cmdTag cmd) || (s.cmds.find cmd).any fun c => c.past.contains e.1 || c.orderPast.contains e.1)).map (·.1)

/-- A credit covers its command's writes (R197, R241). -/
def State.creditPast (s : State) (m : Msg) (b : Barrier) : List Nat := (b.past ++ (m.cmd.map s.cmdWrites).getD []).dedup

/-- The message's command may go on to its token; code tells that the credit was refused. -/
def State.creditDone (s : State) (m : Msg) (code : Nat) : State :=
  match m.cmd with
  | some c => { s with cmds := s.cmds.upd c fun x => { x with stage := 3, err := if code = 0 then x.err else code } }
  | none => s

/-- ENGINE_CREDIT: the balance falls by the command's bytes; one that would leave the range is not applied, and the
command completes with code BARBAL (R193, R195, R294). -/
def execEngineCredit (msg : Nat) (s : State) : Out :=
  match s.msgs.find msg with
  | none => .next s
  | some m =>
    if m.abort || s.levelSaved m.bar then .next s else
    let s1 := { s with msgs := s.msgs.del msg }
    match s1.barGet m.bar with
    | none => .next (s1.creditDone m 0)
    | some b =>
      if balanceFits (b.balance - m.n) then .next ((s1.barPut m.bar { b with balance := b.balance - m.n, past := s.creditPast m b }).creditDone m 0)
      else .next (s1.creditDone m 0x09)

/-- ABORT_DELIVERY: as a credit, and the phase ends with ABORT; out of range it changes nothing and the command keeps its
code (R193, R195). -/
def execAbortDelivery (msg : Nat) (s : State) : Out :=
  match s.msgs.find msg with
  | none => .next s
  | some m =>
    if !m.abort || s.levelSaved m.bar then .next s else
    let s1 := { s with msgs := s.msgs.del msg }
    match s1.barGet m.bar with
    | none => .next (s1.creditDone m 0)
    | some b =>
      if balanceFits (b.balance - m.n) then .next ((s1.barPut m.bar { b with balance := b.balance - m.n, abort := true }).creditDone m 0)
      else .next (s1.creditDone m 0)

/-! ## Bundle-wide instructions (R163, R198-R200) -/

/-- The participants of member k: the members of its bundle in the gang whose guard is true (R191). -/
def State.partners (s : State) (q : Issue) (k : Nat) : List Nat := s.gang.filter fun j => j / 32 == k / 32 && q.holds (s.thr j)

/-- The source lane of SHFL (R198). -/
def shflSource (m : ShflMode) (lane : Nat) (vb : Word) : Option Nat :=
  match m with
  | .idx => some (vb.toNat % 32)
  | .up => if vb.toNat % 64 ≤ lane then some (lane - vb.toNat % 64) else none
  | .down => if lane + vb.toNat % 64 ≤ 31 then some (lane + vb.toNat % 64) else none
  | .xor => some (lane ^^^ (vb.toNat % 32))

/-- The participant that a member's SHFL reads. -/
def State.shflFrom (s : State) (q : Issue) (m : ShflMode) (k vb : Nat) : Option Nat :=
  match shflSource m (laneOf k) ((s.thr k).reg vb) with
  | some l => (s.partners q k).find? fun j => laneOf j == l
  | none => none

/-- SHFL (R198). -/
def execShfl (c : Ctl) (mode : ShflMode) (pv : PReg) (vd va vb : Reg) (s : State) : Out :=
  let q := issue64 c
  .next (s.runGang q [vd.toNat, va.toNat, vb.toNat] [va.toNat, vb.toNat] true fun x l recv =>
    .ok (x.startOp q q.flag.isNone {} l recv (0, some 16) (.result
      (match s.shflFrom q mode l vb.toNat with
        | some j => [.reg vd.toNat ((s.thr j).reg va.toNat) none, .pred pv.toNat true]
        | none => [.reg vd.toNat ((s.thr l).reg va.toNat) none, .pred pv.toNat false]))))

/-- What VOTE writes, from the participants (R199). -/
def State.voteResult (s : State) (ps : List Nat) : VoteOp → Landing
  | .any inv pd pa => .pred pd.toNat (ps.any fun k => (s.thr k).pred pa.toNat != inv)
  | .all inv pd pa => .pred pd.toNat (ps.all fun k => (s.thr k).pred pa.toNat != inv)
  | .ballot inv vd pa => .reg vd.toNat (BitVec.ofNat 64 (laneMask (ps.filter fun k => (s.thr k).pred pa.toNat != inv))) none
  | .eq pd va => .pred pd.toNat (ps.all fun k => (s.thr k).reg va.toNat == (s.thr (ps.headD 0)).reg va.toNat)

/-- The registers that a VOTE names, and those it reads (R199). -/
def voteNamed : VoteOp → List Nat
  | .any _ _ _ | .all _ _ _ => []
  | .ballot _ vd _ => [vd.toNat]
  | .eq _ va => [va.toNat]
def voteReads : VoteOp → List Nat
  | .any _ _ _ | .all _ _ _ | .ballot _ _ _ => []
  | .eq _ va => [va.toNat]

/-- VOTE (R199). -/
def execVote (c : Ctl) (v : VoteOp) (s : State) : Out :=
  let q := issue64 c
  .next (s.runGang q (voteNamed v) (voteReads v) true fun x l recv =>
    .ok (x.startOp q q.flag.isNone {} l recv (0, some 16) (.result [s.voteResult (s.partners q l) v])))

/-- Floating type of a REDB. -/
def RedTy.fty : RedTy → Option FTy
  | .d => some .d
  | .f => some .f
  | .s64 | .n64 => none

/-- One step of REDB's fold (R60, R200). -/
def redStep (o : RedOp) (t : RedTy) (a b : Word) : Word :=
  match RedTy.fty t with
  | some ty =>
    let w := (FTy.fmt ty).width
    match o with
    | .min => BitVec.ofNat 64 (fminmax ty false (a.toNat % 2 ^ w) (b.toNat % 2 ^ w))
    | .max => BitVec.ofNat 64 (fminmax ty true (a.toNat % 2 ^ w) (b.toNat % 2 ^ w))
    | _ => BitVec.ofNat 64 (fadd ty .rne (FTy.val ty a) (FTy.val ty b))
  | none =>
    let sg := t == .s64
    (match o with
      | .add => IOp.add
      | .min => if sg then IOp.minS else IOp.minN
      | .max => if sg then IOp.maxS else IOp.maxN
      | .and => IOp.and
      | .or => IOp.or
      | .xor => IOp.xor).result 64 false a b

/-- The reduction over the participants, in ascending lane order (R200); one participant gives its own value at the
type's width. -/
def redAll (o : RedOp) (t : RedTy) : List Word → Word
  | [] => 0
  | x :: xs =>
    let x0 := match RedTy.fty t with
      | some ty => BitVec.ofNat 64 (x.toNat % 2 ^ (FTy.fmt ty).width)
      | none => x
    xs.foldl (redStep o t) x0

/-- REDB (R200). -/
def execRedb (c : Ctl) (op : RedOp) (ty : RedTy) (vd va : Reg) (s : State) : Out :=
  let q := issue64 c
  let bound := if (RedTy.fty ty).isSome then 160 else 24
  .next (s.runGang q [vd.toNat, va.toNat] [va.toNat] true fun x l recv =>
    .ok (x.startOp q q.flag.isNone {} l recv (0, some bound)
      (.result [.reg vd.toNat (redAll op ty ((s.partners q l).map fun k => (s.thr k).reg va.toNat)) none])))

/-! ## LAUNCH, SIGNAL, IDEMEND (R208-R210) -/

/-- The checks of LAUNCH: addresses, alignment, both walks, the watchpoints of both accesses together, both pages, then the place of the
slot (R208, R382). -/
def State.launchCheck (s : State) (l : Nat) (slot src : Word) : Except FaultInfo (Access × Access) :=
  let t := s.thr l
  let err := fun c (a : Word) => Except.error (ε := FaultInfo) (α := Access × Access) { cause := c, kind := .fe, addr := a }
  if bits src 63 57 ≠ 0 then err .badaddr src
  else if bits slot 63 57 ≠ 0 then err .badaddr slot
  else if src.toNat % 64 ≠ 0 then err .misalign src
  else if slot.toNat % 64 ≠ 0 then err .misalign slot
  else match s.leafFor (Agent.core l) (s.ctxOf t) src .read, s.leafFor (Agent.core l) (s.ctxOf t) slot .write with
    | .error c, _ => err c src
    | _, .error c => err c slot
    | .ok _, .ok _ =>
      let h := if t.skipWatch then (0, 0) else (s.watchHits l t src 64 true false, s.watchHits l t slot 64 false true)
      if h.1 ≠ 0 ∨ h.2 ≠ 0 then .error { cause := .watch, kind := .fe, addr := if h.1 ≠ 0 then src else slot, hits := h.1 ||| h.2 } else
      match s.check5 l t src 64 64 .read true false .fe, s.check5 l t slot 64 64 .write false true .fe with
      | .error f, _ => .error f
      | _, .error f => .error f
      | .ok a, .ok b => if isDevice b.pa then .ok (b, a) else err .fenotag slot

/-- LAUNCH: a release at its scope (R208). -/
def execLaunch (c : Ctl) (sc : Scope) (va vb : Reg) (s : State) : Out :=
  .next (s.runGang (issue64 c) [va.toNat, vb.toNat] [va.toNat, vb.toNat] true fun s l recv =>
    let t := s.thr l
    match s.launchCheck l (t.reg va.toNat) (t.reg vb.toNat) with
    | .error f => .error f
    | .ok (slot, src) =>
      let s1 := (recv.foldl (fun s k => s.closeIdem k) s).used l t (t.reg vb.toNat)
      .ok ((s1.used l t (t.reg va.toNat)).startOp (issue64 c) true { rel := true, scope := sc } l recv (0, none) (.launch slot src)))

/-- SIGNAL: a release store at its scope (R209). -/
def execSignal (c : Ctl) (sc : Scope) (fill : Bool) (va vb : Reg) (s : State) : Out :=
  .next (s.runGang (issue64 c) [va.toNat, vb.toNat] [va.toNat, vb.toNat] true fun s l recv =>
    let t := s.thr l
    let a := t.reg va.toNat
    match s.check5 l t a 8 8 .write false true .store with
    | .error f => .error f
    | .ok x =>
      let s1 := ((recv.foldl (fun s k => s.closeIdem k) s).used l t a).dropPeerCopy x.pa
      .ok (s1.startOp (issue64 c) ((issue64 c).flag.isNone || s.slow x true) { rel := true, scope := sc } l recv (0, none) (.signal x fill (t.reg vb.toNat))))

/-- IDEMEND (R210). -/
def execIdemend (c : Ctl) (s : State) : Out :=
  .next (s.runGang (issue64 c) [] [] true fun s _ recv => .ok ((recv.foldl (fun s k => s.closeIdem k) s).fixed (issue64 c) 1 recv []))

end Sys2Proof.Machine
end

