-- ==== Sys2Proof/Machine/Schedule.lean ====
section
/-! DEFINITION. From queue to issue slot: context and record checks, the queue engines, placement, core queues, work-graph
nodes, the retirement of threads, the end of levels and completion (spec/08_parallel_work.md R155-R170,
spec/09_scheduling_hardware.md R172-R190, R442). -/

namespace Sys2Proof.Machine

/-! ## Words of a context's structures (R442) -/

/-- The agent that a queue engine of die d walks as. -/
def qeAgent (d : Nat) : Agent := { die := d, view := none }

/-- The mark of a context as the owner of a copy-on-write that no thread asked for. -/
def ctxMark (ctx : Nat) : Nat := 2 ^ 60 + ctx

/-- An access's page is frozen by a migration, or COPYING (R262, R266). -/
def State.pageHeld (s : State) (a : Access) : Bool := s.frozen (s.paNow a) || a.vrec.any s.copying

/-- An agent's access waits: its page is frozen or COPYING, accesses that a switch held still stand before it, or a home works on its
sectors (R262, R266, R394). -/
def State.agentHeld (s : State) (a : Access) : Bool := s.pageHeld a || !s.replayFree (s.paNow a) || !s.homeFree (s.paNow a) a.size

/-- One of n words that an agent reads from va on must wait. -/
def State.heldRead (s : State) (ag : Agent) (ctx : Nat) (va : Word) (n : Nat) : Bool :=
  (List.range n).any fun i => match s.accessFor ag ctx (va + BitVec.ofNat 64 (8 * i)) 8 .read with
    | .ok a => s.agentHeld a
    | .error _ => false

/-- What making a page OWNED came to (R262). -/
inductive Own where
  | ok (s : State)
  | wait
  | noFrame

/-- A working page becomes OWNED by the engine that writes it, within that write: it waits while the page is COPYING, while a
sweep of the region may still fill an empty reserve, and for the loads that a returned slot serves (R261, R262, R442). -/
def State.ownNow (s : State) (ctx : Nat) (a : Access) : Own :=
  match a.vrec with
  | none => .ok s
  | some r =>
    if s.copying r then .wait
    else if s.owned? r then .ok s
    else if !s.metaFree (s.regionOf r) r then .wait
    else match s.cowStart r a.key (ctxMark ctx) with
      | none => if s.sweeps.contains (s.regionOf r) then .wait else .noFrame
      | some s1 => match s1.cows.find? (fun c => c.page == r) with
        | some c => if s1.cowReady c then .ok (s1.cowSwitch c) else .wait
        | none => .ok s1

/-- The host's writer: its message carries the host writes that the controller received before it, and a release at .sys covers
them (R237, R245). -/
def State.hostWriter (s : State) (rel : Bool) : Writer :=
  let past := (s.inflight.filter fun e => e.2.by_ == .host).map (·.1)
  { by_ := .host, past := past, heads := if rel then [{ by_ := .host, scope := .sys, past := past }] else [] }

/-- A release store of a queue engine at a scope, after the writes named (R177, R187, R190). -/
def agentRelease (past : List Nat) (sc : Scope) : Writer :=
  { by_ := .engine, past := past, heads := [{ by_ := .engine, scope := sc, past := past }] }

/-- A hardware agent's write may be made now: no lease covers the line, its page is not frozen, no access that a switch held stands before it,
and no earlier host write waits before one of the host's (R245, R266, R414). -/
def State.agentFreeFor (s : State) (who : Option Nat) (by_ : Author) (pa : Nat) : Bool :=
  s.leaseFreeFor who pa && !s.frozen pa && s.replayFreeFor (who.getD s.nextSeq) pa && !(by_ == .host && s.heldWr.any fun (h : HeldWr) => h.by_ == .host)

def State.agentFree (s : State) (by_ : Author) (pa : Nat) : Bool := s.agentFreeFor none by_ pa

/-- A write of a hardware agent, a new one or the held one of a number; it may fill its word (R149). It takes the package's copy of a
peer line with it (R413), and waits while it may not be made, in its place among the writes that a lease holds (R414). -/
def State.agentPutAs (s : State) (who : Option Nat) (w : Writer) (key pa : Nat) (bs : List Byte) (fill : Option Bool) : State :=
  let s0 := s.dropPeerCopy pa
  if s0.agentFreeFor who w.by_ pa then
    match fill with
    | some b => (s0.classAgentWrite pa).writeWordFe w key pa (some (BitVec.ofNat 64 (ofLe bs))) b
    | none => (s0.classAgentWrite pa).writePa w key pa bs none
  else { (if s0.frozen pa then s0.queueOn (who.getD s0.nextSeq) pa else s0.holdWrite (who.getD s0.nextSeq) pa) with
         nextSeq := if who.isNone then s0.nextSeq + 1 else s0.nextSeq
         heldWr := s0.heldWr ++ [{ id := who.getD s0.nextSeq, key := key, pa := pa, bytes := bs, fill := fill, by_ := w.by_, thrs := w.thrs, past := w.past,
                                           rel := (w.heads.head?).map (·.scope) }] }

def State.agentPut (s : State) (w : Writer) (key pa : Nat) (bs : List Byte) (fill : Option Bool) : State := s.agentPutAs none w key pa bs fill

/-- The writer of a held write; a host write comes after the host's writes before it, held ones too (R245). -/
def State.heldWriter (s : State) (h : HeldWr) : Writer :=
  if h.by_ == .host then s.hostWriter h.rel.isSome else
  { thrs := h.thrs, by_ := h.by_, past := h.past, heads := h.rel.toList.map fun sc => { by_ := h.by_, scope := sc, past := h.past } }

/-- Held writes that may be made now, in order of arrival; the others stay held (R245, R266, R414). -/
def State.performHeld (s : State) : List HeldWr → State
  | [] => s
  | h :: t => (s.agentPutAs (some h.id) (s.heldWriter h) h.key h.pa h.bytes h.fill).performHeld t

def State.drainHeld (s : State) : State := { s with heldWr := [] }.performHeld s.heldWr

/-- What an agent's write came to: made, to be tried again, or not allowed by the translation. -/
inductive Put where
  | done (s : State)
  /-- with the address, where a lease holds the write -/
  | wait (pa : Option Nat)
  | lost

def Put.get? : Put → Option State
  | .done s => some s
  | .wait _ | .lost => none

/-- The lease that holds a write of the hardware of die d counts it (R414; notes/assumptions/68). -/
def State.putWaits (s : State) (d : Nat) (pa : Option Nat) : State := pa.elim s (s.holdWrite (hwId d))

/-- The state that a write of the hardware of die d leaves: s where it must be tried again, or may not be made. -/
def Put.from_ (p : Put) (s : State) (d : Nat) : State :=
  match p with
  | .done t => t
  | .wait h => s.putWaits d h
  | .lost => s

/-- A peer does not take a write of a hardware agent: the package is down, or the target misses, forbids or has not the page
resident (R190, R278, R289, R408). -/
def State.peerLost (s : State) (pa : Nat) : Bool := isPeer pa && (s.peerDown (pa / 2 ^ 40 % 1024) || decide (2 ≤ Config.peerAnswer s.draws % 4))

/-- A word written by a queue engine at a virtual address of the context, with a new bit for device memory where asked
(R190, R262, R442). -/
def State.vaWrite (s : State) (d ctx : Nat) (va v : Word) (fill : Option Bool) (w : Writer) : Put :=
  match s.accessFor (qeAgent d) ctx va 8 .write with
  | .error _ => .lost
  | .ok a =>
    if s.agentHeld a then .wait none else
    match s.ownNow ctx a with
    | .wait => .wait none
    | .noFrame => .lost
    | .ok s1 =>
      let pa := s1.paNow a
      if s.peerLost pa then .lost
      else if !s1.agentFree w.by_ pa then .wait (if s1.leaseFree pa then none else some pa)
      else .done ((s1.ncOut a).agentPut w a.key pa (toLe 8 v.toNat) (fill.bind fun b => if isDevice pa then some b else none))

/-! ## Contexts (R172-R174) -/

/-- The checks of a context entry (R173), of which there is none before QE_CTX_TABLE has been written (R437). -/
def State.ctxOk (s : State) (d ctx : Nat) : Bool :=
  let c := fun i => s.ctxWord d ctx i
  s.ctxTabs.contains d && bit (c 0) 0 && bits (c 0) 63 30 == 0 && bits (c 0) 15 14 == 0 && bits (c 0) 3 2 == 0 &&
  ((List.range 7).all fun i => c (9 + i) == 0) &&
  (c 1).toNat % 64 == 0 && bits (c 2) 63 6 == 0 && bits (c 2) 5 0 != 0 && decide (bits (c 2) 5 0 ≤ 32) &&
  (c 3).toNat % 64 == 0 && (c 4).toNat % 64 == 0 && (c 5).toNat % 4096 == 0 && c 6 != 0 && (c 6).toNat % 4096 == 0 &&
  !bit (c 7) 0 && bits (c 7) 63 57 == 0

def State.ctxSt (s : State) (ctx : Nat) : CtxSt := (s.ctxs.find ctx).getD {}

def State.setCtx (s : State) (ctx : Nat) (f : CtxSt → CtxSt) : State := { s with ctxs := s.ctxs.put ctx (f (s.ctxSt ctx)) }

/-- The die whose context table and translation block serve a context where no core asks, for the pre-emption block and the save area: the
lowest with a valid entry, which is the model's choice (notes/assumptions/65). -/
def State.ctxDie (s : State) (ctx : Nat) : Nat := ([0, 1, 2, 3].find? fun d => s.ctxOk d ctx).getD 0

/-- A word of the context's save area (R172, R372). -/
def State.imgRead (s : State) (ctx : Nat) (off : Nat) : Option Word :=
  let d := s.ctxDie ctx
  match s.readVa (qeAgent d) ctx (s.ctxWord d ctx 8 + BitVec.ofNat 64 off) with
  | .ok v => some v
  | .error _ => none

/-- The pre-emption block waits: a page of the context's save area is COPYING or frozen, its header cannot be written yet, or the waiter record
of one of the context's threads not be removed (R262, R266, R414, R442). -/
def State.areaHeld (s : State) (ctx : Nat) : Bool :=
  let d := s.ctxDie ctx
  let base := (s.ctxWord d ctx 8).toNat
  (match s.vaWrite d ctx (s.ctxWord d ctx 8) 0 none {} with
    | .wait _ => true
    | .done _ | .lost => false) ||
  (s.threads.any fun e => s.ctxOf e.2 == ctx && s.waiterHeld e.1) ||
  s.heldRead (qeAgent d) ctx (s.ctxWord d ctx 8) 1 || (s.imgRead ctx 32).any fun n =>
    (List.range ((base % 65536 + n.toNat % 2 ^ 40 + 65535) / 65536)).any fun i => s.heldRead (qeAgent d) ctx (BitVec.ofNat 64 (base / 65536 * 65536 + 65536 * i)) 1

/-- The context's records are neither taken nor placed: the pre-emption block works on it, or its save image stands in
state SAVING or SAVED (R369), or cannot be read while its page is COPYING or frozen (R262, R266, R442). A context with save_base 0
has no image. -/
def State.onHold (s : State) (ctx : Nat) : Bool :=
  (s.pe.stage != .idle && s.pe.ctx == ctx) ||
  (s.ctxWord (s.ctxDie ctx) ctx 8 != 0 && s.heldRead (qeAgent (s.ctxDie ctx)) ctx (s.ctxWord (s.ctxDie ctx) ctx 8) 1) ||
  (s.ctxWord (s.ctxDie ctx) ctx 8 != 0 && (s.imgRead ctx 0).any fun h => bits h 1 0 == 1 || bits h 1 0 == 2)

/-- A check of a context's entry: a finding is recorded when the check before it passed (R173). -/
def State.ctxCheck (s : State) (d ctx : Nat) : State × Bool :=
  if s.ctxOk d ctx then
    ((s.setCtx ctx fun c => { c with badAt := c.badAt.filter (· != d) }), true)
  else if (s.ctxSt ctx).badAt.contains d then (s, false)
  else
    let r := s.reg (Off.qe d 0x20)
    ((s.setCtx ctx fun c => { c with badAt := d :: c.badAt }).setReg (Off.qe d 0x20) (pack [((bits r 63 32 + 1) % 2 ^ 32, 32), (ctx, 0)]), false)

/-- The core of a key 512 × die + physical index. -/
def State.core (s : State) (c : Nat) : Core := (s.cores.find c).getD {}

def State.updCore (s : State) (c : Nat) (f : Core → Core) : State := { s with cores := s.cores.put c (f (s.core c)) }

/-- The blocks on a core. -/
def State.blocksOn (s : State) (c : Nat) : Tbl Block := s.blocks.filter fun e => 512 * e.2.die + e.2.core == c

/-- The cores of a die that a context owns, by die-local index; a core that awaits a new owner takes no new block
(R174). -/
def State.owned (s : State) (d ctx : Nat) (gauss : Bool) : List Nat :=
  ((Config.enabledCores d).filter fun p => (s.core (512 * d + p)).owner == some ctx && (s.core (512 * d + p)).nextOwner.isNone &&
    (!gauss || Config.gaussCapable p)).map fun p => 512 * d + p

/-- A core changes its owner: what its last owner asked to be fetched is asked for no more, and with another tenant its L1 caches are
written back and invalidated (R145, R174, R404). -/
def State.changeOwner (s : State) (c : Nat) (o : Option Nat) : State :=
  let ten := fun (x : Option Nat) => x.map fun ctx => bits (s.ctxWord (c / 512) ctx 0) 13 4
  let s1 := { s.updCore c fun x => { x with owner := o, nextOwner := none } with prefs := s.prefs.filter fun p => p.core != c }
  if ten (s.core c).owner = ten o then s1
  else
    let lines := (s.l1.filter fun (l : L1Line) => l.core == c).map (·.line)
    { (lines.foldl (fun (x : State) l => x.evictLine c l) s1) with icache := s.icache.filter (fun e => e.1 != c) }

/-- A core is free of another context's blocks, and of what their threads left outstanding, which still uses its caches (R404). -/
def State.coreIdle (s : State) (c : Nat) (o : Option Nat) : Bool :=
  (s.core c).owner == o || ((s.blocksOn c).isEmpty && (s.core c).queue.isEmpty && !s.ops.any fun e => coreOf e.2.thr == c)

/-- QE_CORE_CTX write: the owner changes when no block of another context is left (R174). -/
def execQeCoreCtxWrite (die idx : Nat) (val : Word) (s : State) : Out :=
  if die < 4 ∧ idx < 280 then
    let s1 := s.writeReg (Off.qe die (0x400 + 8 * idx)) val
    let c := 512 * die + Config.physOf die idx
    let o := if bit val 10 then some (bits val 9 0) else none
    .next (if s1.coreIdle c o then s1.changeOwner c o else s1.updCore c fun x => { x with nextOwner := some o })
  else .next s

/-- CORE_OWNER_CHANGE (R174, R404). -/
def execCoreOwnerChange (core : Nat) (s : State) : Out :=
  match (s.core core).nextOwner with
  | some o => if s.coreIdle core o then .next (s.changeOwner core o) else .next s
  | none => .next s

/-! ## The launch record (R166-R170) -/

def lEntry (w : List Word) : Word := wordAt w 0
def lGroves (w : List Word) : Nat := bits (wordAt w 5) 31 0
def lBlocks (w : List Word) : Nat := bits (wordAt w 5) 36 32
def lThreads (w : List Word) : Nat := bits (wordAt w 5) 47 37
def lRegs (w : List Word) : Nat := 16 * (bits (wordAt w 5) 49 48 + 1)
def lPriority (w : List Word) : Nat := bits (wordAt w 5) 55 50
def lSpan (w : List Word) : Bool := bit (wordAt w 5) 56
def lIdem (w : List Word) : Bool := bit (wordAt w 5) 57
def lGauss (w : List Word) : Bool := bit (wordAt w 5) 58
def lOrdered (w : List Word) : Bool := bit (wordAt w 5) 59
def lDeadline (w : List Word) : Nat := (wordAt w 4).toNat
def lSeq (w : List Word) : Nat := bits (wordAt w 3) 47 0
def lBundles (w : List Word) : Nat := (lThreads w + 31) / 32
def lRb (w : List Word) : Nat := 8 * lRegs w * 32 * lBundles w
def lScratch (w : List Word) : Nat := bits (wordAt w 6) 22 0
def lSb (w : List Word) : Nat := (lScratch w + 16383) / 16384 * 16384
def lRegGran (w : List Word) : Nat := bits (wordAt w 6) 30 24
def lScratchGran (w : List Word) : Nat := bits (wordAt w 6) 38 32
def lAccGran (w : List Word) : Nat := bits (wordAt w 6) 44 40
def lGranules (w : List Word) : Nat := lRegGran w + lScratchGran w + lAccGran w

/-- The partition word is valid (R169). -/
def partitionOk (w : List Word) : Bool :=
  bits (wordAt w 6) 63 45 == 0 && !bit (wordAt w 6) 39 && !bit (wordAt w 6) 31 && !bit (wordAt w 6) 23 &&
  decide (lScratch w ≤ 6291456) && decide (lGranules w ≤ 96) && decide (lAccGran w ≤ 16) && decide (1 ≤ lRegGran w) &&
  decide (lRb w ≤ lRegGran w * 65536) && decide (lSb w ≤ lScratchGran w * 65536)

/-- Has the context an enabled Gaussian-capable core, one that awaits a new owner among them: it is the context's until then (R167,
R174). -/
def State.hasGauss (s : State) (ctx : Nat) : Bool :=
  [0, 1, 2, 3].any fun d => (Config.enabledCores d).any fun p => Config.gaussCapable p && (s.core (512 * d + p)).owner == some ctx

/-- The checks of a record that give BADREC, its grove count apart (R167, R188). -/
def State.recordOk (s : State) (ctx : Nat) (w : List Word) : Bool :=
  bits (wordAt w 0) 63 57 == 0 && bits (wordAt w 2) 63 61 == 0 && bits (wordAt w 3) 63 48 == 0 && bits (wordAt w 5) 63 60 == 0 &&
  bits (wordAt w 7) 63 10 == 0 && !bit (wordAt w 0) 0 && bits (wordAt w 2) 2 0 == 0 && decide (bits (wordAt w 2) 59 57 < 6) &&
  lBlocks w != 0 && lThreads w != 0 && decide (lBlocks w ≤ 16) && decide (lThreads w ≤ 1024) && partitionOk w &&
  (!lGauss w || s.hasGauss ctx) && bits (wordAt w 7) 9 0 == ctx

/-- B of R170: the blocks of a launch that a core may hold. -/
def blocksPerCore (w : List Word) : Nat :=
  min (min 32 (256 / lBundles w)) (min (lRegGran w * 65536 / lRb w) (if lSb w = 0 then 32 else lScratchGran w * 65536 / lSb w))

/-- One grove of the record could be placed on the context's cores when they are empty (R155, R167, R188). -/
def State.couldFitGrove (s : State) (ctx : Nat) (w : List Word) : Bool :=
  [0, 1, 2, 3].any fun d => decide (1 ≤ (s.owned d ctx (lGauss w)).length * blocksPerCore w / lBlocks w)

/-- The record could be placed on the context's cores when they are empty (R155, R167). -/
def State.couldFit (s : State) (ctx : Nat) (w : List Word) : Bool :=
  let cap := fun d => (s.owned d ctx (lGauss w)).length * blocksPerCore w / lBlocks w
  if lSpan w then decide (lGroves w ≤ cap 0 + cap 1 + cap 2 + cap 3) else s.couldFitGrove ctx w

/-- RECORD_CHECK: 0 for a record that may run, 1 BADREC, 2 NOFIT (R167). -/
def State.recordCheck (s : State) (ctx : Nat) (w : List Word) : Nat :=
  if !(s.recordOk ctx w && lGroves w != 0) then 1 else if s.couldFit ctx w then 0 else 2

/-! ## Placement (R155-R157, R181) -/

/-- The lowest free bundle slot from partition p on, counting upward modulo 4 (R156). -/
def bundleHome (used : List Nat) (p : Nat) : Nat → Option Nat
  | 0 => none
  | n + 1 =>
    match (List.range 64).find? (fun j => !used.contains (64 * (p % 4) + j)) with
    | some j => some (64 * (p % 4) + j)
    | none => bundleHome used (p + 1) n

/-- Homes of the bundles of a block in block slot s (R156). -/
def bundleHomes (used : List Nat) (slot : Nat) : List Nat → Option (List Nat)
  | [] => some []
  | j :: t =>
    match bundleHome used (slot + j) 4 with
    | none => none
    | some h => (bundleHomes (h :: used) slot t).map (h :: ·)

/-- What a launch takes on a core with its first block there: its partition word, and above it the registers of one of its blocks
(R169, R170). -/
def partitionKey (w : List Word) : Nat := (wordAt w 6).toNat + 2 ^ 64 * lRb w

/-- The granules that a launch took on a core at its first block there (R170). -/
def State.granted? (s : State) (c lid : Nat) : Nat :=
  match (s.core c).taken.find lid with
  | some v => lGranules [0, 0, 0, 0, 0, 0, BitVec.ofNat 64 v]
  | none => ((s.launches.find lid).map fun l => lGranules l.words).getD 0

/-- The granules of a core allow a block of a launch: the launch took them with its first block, or they are free, 96 of them with
16 at most for accumulators (R13, R170). A node's batch whose template names another partition word, or other registers, waits until the launch's last
block has left the core (notes/assumptions/62). -/
def State.granulesFor (s : State) (c lid : Nat) (w : List Word) : Bool :=
  let grants := (s.core c).grants
  match grants.find? fun g => g.1 == lid with
  | some g => g.2 == lAccGran w * 65536 && ((s.core c).taken.find lid).all (· == partitionKey w)
  | none => decide (grants.foldl (fun n g => n + s.granted? c g.1) 0 + lGranules w ≤ 96) &&
      decide (grants.foldl (fun n g => n + g.2 / 65536) 0 + lAccGran w ≤ 16)

/-- The room that a core has for a block of a launch: its block slot and its bundles' homes, and its granules (R13, R156, R170). A block that
has ended holds nothing but its scratchpad (R165, R315). -/
def State.roomOn (s : State) (c lid : Nat) (w : List Word) : Option (Nat × List Nat) :=
  let all := s.blocksOn c
  let bs := all.filter fun e => !e.2.spent
  let mine := (bs.filter fun e => e.2.launch == lid).length
  if mine < blocksPerCore w ∧ (lSb w = 0 ∨ (all.filter fun e => e.2.launch == lid).length < lScratchGran w * 65536 / lSb w) ∧ s.granulesFor c lid w ∧ bs.length < 32 then
    let used := bs.flatMap fun e => e.2.homes
    match (List.range 32).find? (fun i => !bs.any fun e => e.2.slot == i) with
    | none => none
    | some slot => (bundleHomes used slot (List.range (lBundles w))).map fun h => (slot, h)
  else none

/-- The logical rank of a core in a launch: its own, or the lowest that no resident grove of the launch holds (R157). -/
def State.rankOf (s : State) (lid c : Nat) : Nat :=
  let rs := (s.groves.filter fun e => e.2.launch == lid).flatMap fun e => e.2.ranks
  match rs.find? (fun r => r.1 == c) with
  | some r => r.2
  | none => ((List.range (rs.length + 1)).find? fun r => !rs.any fun e => e.2 == r).getD 0

/-- A thread at its start (R19, R27). -/
def threadStart (w : List Word) (blk tid slot : Nat) (tba tls : Word) (clk : Nat) : Thread where
  blk := blk
  tid := tid
  bslot := slot
  pc := (lEntry w).setWidth 57
  n := lRegs w
  regs := wordAt w 1 :: List.replicate (lRegs w - 1) 0
  preds := List.replicate 8 false
  flags := List.replicate 12 0
  hw := []
  depth := 0
  tba := tba
  tlsbase := tls
  readyAt := clk + 1
  since := clk + 1

/-- Barriers of a level with n members (R193). -/
def newBars (count n : Nat) : List Barrier := List.replicate count { expected := n }

/-- A span's barriers at its start (R193). -/
def spanBars (w : List Word) : List Barrier := if lSpan w then newBars 4 (lGroves w * lBlocks w * lThreads w) else []

/-- THREAD_START: a block takes its place on a core under a name and its threads start, after what the take of their record
brought (R19, R156, R157, R177); the storage it takes shows nothing of an earlier owner (R214); sr.tba holds only the bits that R27 gives it. Words c0 and c3 are read here (notes/assumptions/46). -/
def State.placeBlockAs (s : State) (bid lid : Nat) (l : Launch) (gid idx c : Nat) : Option State :=
  match s.roomOn c lid l.words with
  | none => none
  | some (slot, homes) =>
    let d := c / 512
    let w := l.words
    let cw := fun i => s.ctxWord d l.ctx i
    let b : Block :=
      { launch := lid, grove := gid, idx := idx, die := d, core := c % 512, slot := slot, rank := s.rankOf lid c, threads := lThreads w
        bars := newBars 16 (lThreads w), homes := homes, scratchBytes := lScratch w, pages := List.replicate (lSb w / 16384) .pinned
        idemOpen := lIdem w, c0 := cw 0, park := cw 3 }
    let keys := (List.range (lThreads w)).map fun t => (t, keyOf d (c % 512) (32 * homes.getD (t / 32) 0 + t % 32))
    let start := fun (m : Tbl Thread) (x : Nat × Nat) =>
      m.put x.2 (threadStart w bid x.1 slot (cw 7 &&& field 56 1) (cw 5 + cw 6 * BitVec.ofNat 64 (slotOf x.2 + 8192 * Config.dieLocal d (c % 512) + 2293760 * d)) s.clk)
    let seen := l.past.filter fun i => (s.inflight.find i).isSome
    let s1 := { s with blocks := s.blocks.put bid b, ended := s.ended.filter (fun e => 512 * e.2.1.die + e.2.1.core != c), threads := keys.foldl start s.threads, nextSeq := s.nextSeq + 1,
                       groves := s.groves.upd gid fun g => { g with ranks := (c, b.rank) :: g.ranks.filter fun r => r.2 != b.rank }
                       hbs := if seen.isEmpty then s.hbs else keys.foldl (fun (m : Tbl Hb) (x : Nat × Nat) => m.put x.2 { seen := seen }) s.hbs
                       tenants := s.tenants.put l.ctx (bits (cw 0) 13 4) }
    some (s1.updCore c fun x => if x.grants.any (fun g => g.1 == lid) then x else
      { x with grants := x.grants ++ [(lid, lAccGran w * 65536)], taken := x.taken.put lid (partitionKey w), perm := []
               acc := x.acc.filter fun a => x.grants.any fun g => g.1 == a.1 / 2 ^ 24 })

/-- A block of a grove under a new name. -/
def State.placeBlock (s : State) (lid : Nat) (l : Launch) (gid idx c : Nat) : Option State := s.placeBlockAs s.nextSeq lid l gid idx c

/-- Blocks of a grove, each to the lowest core with room (R181). -/
def State.placeBlocks (s : State) (lid : Nat) (l : Launch) (gid : Nat) (cores : List Nat) : List Nat → Option State
  | [] => some s
  | i :: t =>
    match firstSome cores (fun c => s.placeBlock lid l gid i c) with
    | none => none
    | some s1 => s1.placeBlocks lid l gid cores t

/-- A grove on a die whose own table holds a valid entry of the context: all its blocks or none (R155, R173, R175, R181). -/
def State.placeGroveOn (s : State) (lid : Nat) (l : Launch) (gidx d : Nat) : Option State :=
  if !s.ctxOk d l.ctx then none else
  let g : Grove :=
    { launch := lid, index := gidx, die := d, bars := newBars 8 (lBlocks l.words * lThreads l.words)
      retire := if l.node then some (wordAt l.words 13, bits (wordAt l.words 10) 21 11) else none }
  { s with groves := s.groves.put s.nextSeq g, nextSeq := s.nextSeq + 1 }.placeBlocks lid l s.nextSeq (s.owned d l.ctx (lGauss l.words))
    (List.range (lBlocks l.words))

/-- The dies by free block slots on the context's cores, most first; a tie goes to the lower die. A core that awaits a new owner
takes no block (R174), and its slots are not counted; R181 does not say (notes/assumptions/49). -/
def State.dieOrder (s : State) (l : Launch) : List Nat :=
  let free := fun d => (s.owned d l.ctx (lGauss l.words)).foldl (fun n c => n + (32 - (s.blocksOn c).length)) 0
  let ins := fun (acc : List Nat) d => acc.filter (fun e => decide (free d ≤ free e)) ++ d :: acc.filter (fun e => decide (free e < free d))
  [0, 1, 2, 3].foldl ins []

def State.placeGrove (s : State) (lid : Nat) (l : Launch) (gidx : Nat) : Option State :=
  firstSome (s.dieOrder l) fun d => s.placeGroveOn lid l gidx d

/-- Groves of a span from one on, all in one step: one die is filled before the next (R155, R181). -/
def State.placeSpan (s : State) (lid : Nat) (l : Launch) (order : List Nat) (gidx : Nat) : Nat → Option State
  | 0 => some s
  | n + 1 =>
    match firstSome order (fun d => s.placeGroveOn lid l gidx d) with
    | none => none
    | some s1 => s1.placeSpan lid l order (gidx + 1) n

def State.updLaunch (s : State) (lid : Nat) (f : Launch → Launch) : State := { s with launches := s.launches.upd lid f }

/-- A record's first block is placed: a deadline that has passed is counted once (R179). -/
def State.startedNow (s : State) (lid : Nat) (l : Launch) : State :=
  if l.started then s else
  let s1 := s.updLaunch lid fun x => { x with started := true }
  if lDeadline l.words ≠ 0 ∧ lDeadline l.words < s.ptp then s1.bumpReg (Off.qe l.die 0x10) else s1

/-- A single-block grove of a sweep that has found no room may wait on a core (R182): the first owned core with fewer than 16 blocks
waiting, of a die whose own table holds a valid entry (R173, R175). -/
def State.enqueueGrove (s : State) (lid : Nat) (l : Launch) : Option State :=
  if l.node = true ∨ lBlocks l.words ≠ 1 ∨ lSpan l.words = true ∨ s.pick 7 % 2 = 0 then none else
  ((((s.dieOrder l).filter fun d => s.ctxOk d l.ctx).flatMap fun d => s.owned d l.ctx (lGauss l.words)).find? fun c => decide ((s.core c).queue.length < 16)).map fun c =>
    s.updCore c fun x => { x with queue := x.queue ++ [(lid, l.nextGrove)] }

/-- The groves that a launch may have placed by now: those of its record, or the batches its node has dispatched (R187). -/
def Launch.due (l : Launch) : Nat := if l.node then l.batches else lGroves l.words

/-- The launch as its next grove is placed: a node's under the template and descriptor of its batch's dispatch. -/
def Launch.forGrove (l : Launch) : Launch := { l with words := (l.tmpls.find l.nextGrove).getD l.words }

/-- One more grove has been placed. -/
def Launch.placed (l : Launch) : Launch :=
  { l with words := (l.tmpls.find l.nextGrove).getD l.words, tmpls := l.tmpls.del l.nextGrove, nextGrove := l.nextGrove + 1 }

/-- The remaining groves of a sweep, as capacity allows (R180). -/
def State.placeSweep (s : State) (lid : Nat) : Nat → State
  | 0 => s
  | n + 1 =>
    match s.launches.find lid with
    | none => s
    | some l0 =>
      if l0.due ≤ l0.nextGrove then s else
      let l := l0.forGrove
      match s.placeGrove lid l l.nextGrove with
      | some s1 => ((s1.startedNow lid l).updLaunch lid Launch.placed).placeSweep lid n
      | none =>
        match s.enqueueGrove lid l with
        | some s1 => (s1.updLaunch lid Launch.placed).placeSweep lid n
        | none => s

/-- Record a goes before record b (R179). -/
def before (a b : Launch) : Bool :=
  let dl := fun (l : Launch) => if lDeadline l.words = 0 then 2 ^ 64 else lDeadline l.words
  if lPriority a.words ≠ lPriority b.words then decide (lPriority b.words < lPriority a.words)
  else if dl a ≠ dl b then decide (dl a < dl b) else decide (a.order < b.order)

/-- The pending list of a context at an engine, in key order (R179); a node's next batch has the key of the template it was
dispatched under (R187). -/
def State.pending (s : State) (d ctx : Nat) : List (Nat × Launch) :=
  (s.launches.filter fun e => e.2.ctx == ctx && e.2.die == d && !e.2.saved && e.2.refused == 0 && decide (e.2.nextGrove < e.2.due)).foldl
    (fun acc e => let x := (e.1, e.2.forGrove)
      acc.filter (fun y => before y.2 x.2) ++ x :: acc.filter (fun y => !before y.2 x.2)) []

/-- The records in key order; a span that does not fit and stands first of its priority stops everything of its priority
or below in its engine's list (R180; notes/assumptions/62). A node's template gives one grove for each batch, with or without SPAN
(R186, R187). prio is the priority of the last record passed that is still pending. -/
def State.placeList (s : State) : List (Nat × Launch) → Option Nat → State
  | [], _ => s
  | (lid, l) :: t, prio =>
    if lSpan l.words && !l.node then
      match s.placeSpan lid l (s.dieOrder l) 0 (lGroves l.words) with
      | some s1 => ((s1.startedNow lid l).updLaunch lid fun x => { x with nextGrove := lGroves l.words }).placeList t prio
      | none => if prio = some (lPriority l.words) then s.placeList t prio else s
    else
      let s1 := s.placeSweep lid 40000
      s1.placeList t (if (s1.launches.find lid).any fun x => decide (x.nextGrove < x.due) then some (lPriority l.words) else prio)

/-- The check of a context's entry at every die on whose cores it may place blocks (R173, R175). -/
def State.ctxChecks (s : State) (ctx : Nat) : State :=
  [0, 1, 2, 3].foldl (fun x d => if (x.owned d ctx false).isEmpty then x else (x.ctxCheck d ctx).1) s

/-- The pending records of a context are tried in key order (R180). -/
def State.placePending (s : State) (d ctx : Nat) : State :=
  let r := (s.ctxChecks ctx).ctxCheck d ctx
  if r.2 then r.1.placeList (r.1.pending d ctx) none else r.1

/-- PLACEMENT_ATTEMPT: the serving die's own check holds all its placements back; a die whose table names no valid entry takes no
block (R173, R175, R180, R181). -/
def execPlacementAttempt (die ctx : Nat) (s : State) : Out :=
  if (s.pending die ctx).isEmpty || s.onHold ctx then .next s else .next (s.placePending die ctx)

/-- CORE_QUEUE_START: the block at the head of a core's queue starts when there is room, unless its die's check of the context's
entry fails (R173, R182). A record whose first block waited here has its deadline looked at now, not when the block was queued: the model's
choice (R179; notes/assumptions/65). -/
def execCoreQueueStart (core : Nat) (s0 : State) : Out :=
  match (s0.core core).queue with
  | [] => .next s0
  | (lid, g) :: t =>
    match s0.launches.find lid with
    | none => .next (s0.updCore core fun x => { x with queue := t })
    | some l =>
      let ck := s0.ctxCheck (core / 512) l.ctx
      let s := ck.1
      if !ck.2 then .next s else
      let gr : Grove := { launch := lid, index := g, die := core / 512, bars := newBars 8 (lThreads l.words) }
      match { s with groves := s.groves.put s.nextSeq gr, nextSeq := s.nextSeq + 1 }.placeBlock lid l s.nextSeq 0 core with
      | some s1 => .next ((s1.startedNow lid l).updCore core fun x => { x with queue := t })
      | none => .next s

/-- A queued block may run on a core: GAUSS keeps it on Gaussian-capable ones (R168, R181). -/
def State.mayRun (s : State) (c : Nat) (q : Nat × Nat) : Bool :=
  Config.gaussCapable (c % 512) || !((s.launches.find q.1).any fun l => lGauss l.words)

/-- One exchange of a pair of cores: a core that awaits a new owner takes none (R174), and of the tail that R183 moves a block
that GAUSS keeps off the other core stays (R181; notes/assumptions/49). -/
def State.balancePair (s : State) (thresh a b : Nat) : State :=
  let qa := (s.core a).queue
  let qb := (s.core b).queue
  if (s.core a).owner != (s.core b).owner then s else
  let move := fun (x y : Nat) (qx : List (Nat × Nat)) (d : Nat) =>
    if (s.core y).nextOwner.isSome then s else
    let n := qx.length - d / 2
    (s.updCore x fun c => { c with queue := qx.take n ++ (qx.drop n).filter fun q => !s.mayRun y q }).updCore y fun c =>
      { c with queue := c.queue ++ (qx.drop n).filter (s.mayRun y) }
  if thresh < qa.length - qb.length then move a b qa (qa.length - qb.length)
  else if thresh < qb.length - qa.length then move b a qb (qb.length - qa.length)
  else s

/-- BALANCE_INTERVAL: every 256 clk, even and odd pairs of the die's ring in turn (R183). -/
def execBalanceInterval (die : Nat) (s : State) : Out :=
  let n := s.clk / 256
  if 4 ≤ die ∨ s.clk % 256 ≠ 0 ∨ n < (s.balanced.find die).getD 0 then .next s else
  let s1 := { s with balanced := s.balanced.put die (n + 1) }
  let r := s.reg (Off.qe die 8)
  if bit r 8 then .next s1 else
  let ring := (Config.enabledCores die).map fun p => 512 * die + p
  .next ((List.range 140).foldl (fun x m =>
    let i := if n % 2 = 0 then 2 * m else 2 * m + 1
    x.balancePair (bits r 7 0) (ring.getD i 0) (ring.getD ((i + 1) % 280) 0)) s1)

/-! ## The queue engine (R176, R177) -/

/-- Descriptor words of queue q of a context, as the engine of die d walks them (R176, R442). One whose translation fails is
skipped, with no finding in QE_Q_BAD, which R177 gives for slot and head words only (notes/assumptions/50). -/
def State.queueDesc (s : State) (d ctx q : Nat) : Option (List Word) :=
  if bits (s.ctxWord d ctx 2) 5 0 ≤ q || s.heldRead (qeAgent d) ctx (s.ctxWord d ctx 1 + BitVec.ofNat 64 (32 * q)) 4 then none else
  match s.readVas (qeAgent d) ctx (s.ctxWord d ctx 1 + BitVec.ofNat 64 (32 * q)) 4 with
  | .ok ws => some ws
  | .error _ => none

/-- The engine uses the descriptor (R176). -/
def queueOk (w : List Word) : Bool :=
  bits (wordAt w 0) 63 57 == 0 && bits (wordAt w 1) 63 9 == 0 && bits (wordAt w 2) 63 57 == 0 && (bit (wordAt w 1) 8 || wordAt w 3 == 0) &&
  decide (4 ≤ bits (wordAt w 1) 4 0) && decide (bits (wordAt w 1) 4 0 ≤ 16) && bits (wordAt w 0) 5 0 == 0 && bits (wordAt w 2) 2 0 == 0

/-- Each die's engine has its own record of a queue (R175). -/
def queueKey (d ctx q : Nat) : Nat := 32 * (1024 * d + ctx) + q

def State.queue (s : State) (d ctx q : Nat) : QueueSt := (s.queues.find (queueKey d ctx q)).getD {}

def State.setQueue (s : State) (d ctx q : Nat) (f : QueueSt → QueueSt) : State :=
  { s with queues := s.queues.put (queueKey d ctx q) (f (s.queue d ctx q)) }

/-- The engine's look at a queue's enable bit: enabled anew, it starts from zero (R177, R188), and a node starts a new sweep: what the
last one dispatched runs to its end (R188). A die that becomes the home starts its own record (notes/assumptions/62), and the next check that
fails counts as a first one, though none passed in between (R177; notes/assumptions/65). -/
def State.seeEnable (s : State) (d ctx q : Nat) (on : Bool) : State :=
  let st := s.queue d ctx q
  if on && !st.enabled then s.setQueue d ctx q fun x => { x with taken := 0, enabled := true, held := false, nodeBad := false, nextBatch := 0, claimAt := [], short := none, marked := false, launch := none }
  else if !on && st.enabled then s.setQueue d ctx q fun x => { x with enabled := false }
  else s

/-- Die d's engine serves the queue: its table holds a valid entry, and the descriptor it walks names it the home (R173,
R175, R176). -/
def State.serves (s : State) (d ctx q : Nat) : Option (Nat × List Word) :=
  if !s.ctxOk d ctx then none else
  (s.queueDesc d ctx q).bind fun w => if queueOk w && bits (wordAt w 1) 6 5 == d then some (d, w) else none

/-- The copies that an engine's read of n bytes at a virtual address meets are probed (R223). -/
def State.vaProbe (s : State) (d ctx : Nat) (va : Word) (n : Nat) : State :=
  match s.accessFor (qeAgent d) ctx va n .read with
  | .ok a => s.hwProbe a.pa n
  | .error _ => s

/-- The engine that looks at a queue, with every die's check of the context's entry recorded: R173 leaves open which dies look,
and of several that serve it under tables that differ one is chosen freely (R173, R175; notes/assumptions/51). Its reads probe the
copies of the entry and of the queue's (R223). -/
def State.servedBy (s : State) (ctx q : Nat) : State × Option (Nat × List Word) :=
  let s1 := [0, 1, 2, 3].foldl (fun x d => (((x.ctxCheck d ctx).1).hwProbe (x.ctxEntryAt d ctx) 128).vaProbe d ctx (x.ctxWord d ctx 1 + BitVec.ofNat 64 (32 * q)) 32) s
  let ds := [0, 1, 2, 3].filterMap fun d => s1.serves d ctx q
  (s1, ds[s.pick 13 % ds.length]?)

/-- The eight words of a slot are reachable, in device memory, and so is the head word (R177). -/
def State.slotCheck (s : State) (d ctx : Nat) (slot head : Word) : Option (List Access) :=
  let one := fun i =>
    match s.accessFor (qeAgent d) ctx (slot + BitVec.ofNat 64 (8 * i)) 8 .read, s.accessFor (qeAgent d) ctx (slot + BitVec.ofNat 64 (8 * i)) 8 .write with
    | .ok _, .ok a => if isDevice a.pa then some a else none
    | _, _ => none
  let as := (List.range 8).filterMap one
  match s.accessFor (qeAgent d) ctx head 8 .read, s.accessFor (qeAgent d) ctx head 8 .write with
  | .ok _, .ok _ => if as.length = 8 then some as else none
  | _, _ => none

/-- The releases that an agent of the package, whose every narrow instance is .pkg, meets in the writes it reads, with acquire at
.sys (R177, R232, R234). -/
def metByAgent (es : List (Nat × Inflight)) : List (Nat × RelHead) :=
  es.flatMap fun e => (e.2.heads.filter fun h => match h.by_ with
    | .thread _ _ _ => pkgScope h.scope
    | .engine | .host => true
    | .peer => h.scope == .fab || h.scope == .sys).map fun h => (e.1, h)

/-- Every page of some accesses is made OWNED (R262). -/
def State.ownAll (s : State) (ctx : Nat) : List Access → Own
  | [] => .ok s
  | a :: t => match s.ownNow ctx a with
    | .ok s1 => s1.ownAll ctx t
    | o => o

/-- How many records a die's engine has taken, and one more (R179). -/
def State.takeCount (s : State) (d : Nat) : Nat := (s.takes.find d).getD 0

def State.countTake (s : State) (d : Nat) : State := { s with takes := s.takes.put d ((s.takeCount d + 1) % 2 ^ 64) }

/-- The take of a slot whose words are FULL: one atomic step reads and empties them, and the count goes to the head word with a
release; none while one of the writes must wait (R177, R244, R262, R266, R414), or where a copy-on-write that they need finds no
frame (notes/assumptions/62). -/
def State.takeSlot (s : State) (d ctx q : Nat) (as : List Access) (head : Word) : Option State :=
  match s.ownAll ctx as, as with
  | .ok s3, a :: _ =>
    let pa := s3.paNow a
    if !s3.agentFree .engine pa then none else
    let es := s3.readFrom none pa 64 true
    let past := s3.brought (metByAgent es)
    let ws := (List.range 8).map fun i => s3.readPa none a.key (pa + 8 * i) 8
    let s4 := ((s3.agentRead pa 64).classAgentWrite pa).writeWords { past := past, heads := es.flatMap (·.2.heads) } a.key pa []
      ((List.range 8).map fun i => pa + 8 * i) false
    let n := (s.queue d ctx q).taken
    (s4.vaWrite d ctx head (BitVec.ofNat 64 (n + 1)) none (agentRelease (past ++ [s3.nextSeq]) .sys)).get?.map fun s5 =>
      let l : Launch := { words := ws, ctx := ctx, queue := q, die := d, order := s5.takeCount d, refused := s5.recordCheck ctx ws, past := past
                          bars := spanBars ws }
      { s5.countTake d with launches := s5.launches.put s5.nextSeq l, nextSeq := s5.nextSeq + 1 }.setQueue d ctx q fun x => { x with taken := (x.taken + 1) % 2 ^ 64 }
  | _, _ => none

/-- QUEUE_TAKE: a ready slot is read and emptied in one action, the count rises and is stored at the head word; then the
record is checked (R167, R173, R177). -/
def execQueueTake (ctx q : Nat) (s : State) : Out :=
  match s.servedBy ctx q with
  | (s0, none) => .next s0
  | (s0, some (d, w)) =>
    let s1 := s0.seeEnable d ctx q (bit (wordAt w 1) 7)
    if !bit (wordAt w 1) 7 || bit (wordAt w 1) 8 || s1.onHold ctx then .next s1 else
    let st := s1.queue d ctx q
    let slot := wordAt w 0 + BitVec.ofNat 64 (64 * (st.taken % 2 ^ bits (wordAt w 1) 4 0))
    if s1.heldRead (qeAgent d) ctx slot 8 || s1.heldRead (qeAgent d) ctx (wordAt w 2) 1 then .next s1 else
    match s1.slotCheck d ctx slot (wordAt w 2) with
    | none =>
      if st.held then .next s1 else
      let r := s1.reg (Off.qe d 0x28)
      .next ((s1.setQueue d ctx q fun x => { x with held := true }).setReg (Off.qe d 0x28) (pack [((bits r 63 32 + 1) % 2 ^ 32, 32), (q, 10), (ctx, 0)]))
    | some as =>
      let s2 := s1.setQueue d ctx q fun x => { x with held := false }
      if as.all (fun a => s2.full (s2.paNow a)) then
        .next ((s2.takeSlot d ctx q as (wordAt w 2)).getD (as.foldl (fun x a => if x.leaseFree (x.paNow a) then x else x.holdWrite (hwId d) (x.paNow a)) s2))
      else .next s2

/-! ## Completion (R167, R189, R190) -/

/-- A completion store that cannot be made is counted and reported (R167, R190). -/
def State.compDropped (s : State) (d ctx : Nat) (addr : Word) (seq : Nat) : State :=
  (s.bumpReg (Off.qe d 0x18)).service 4 ctx addr (BitVec.ofNat 64 seq)

/-- The completion or refusal word of a record, a release store at its scope after the writes named; never lost: one that cannot be made is
counted (R167, R189, R190, R262). -/
def State.completion (s : State) (d ctx : Nat) (w : List Word) (status : Nat) (past : List Nat) : Put :=
  let addr := BitVec.ofNat 64 (bits (wordAt w 2) 56 0)
  let drop := s.compDropped d ctx addr (lSeq w)
  match Scope.ofCode (BitVec.ofNat 3 (bits (wordAt w 2) 59 57)) with
  | none => .done drop
  | some sc =>
    if bits (wordAt w 2) 2 0 ≠ 0 then .done drop else
    match s.vaWrite d ctx addr (pack [(status, 48), (lSeq w, 0)]) (if bit (wordAt w 2) 60 then some true else none) (agentRelease past sc) with
    | .done s1 => .done s1
    | .lost => .done drop
    | .wait h => .wait h

/-- The key under which a retired thread of a launch is known to what it left outstanding (R108). -/
def ghostKey (lid k : Nat) : Nat := k + 2 ^ 24 * (lid + 1)

/-- A store or another operation of a retired thread of the launch is outstanding (R108, R165). -/
def State.ghostsLeft (s : State) (lid : Nat) : Bool := s.ops.any fun e => e.2.recv.any fun k => k / 2 ^ 24 == lid + 1

/-- The writes on their way that the launch's end comes after (R165, R235). -/
def State.launchPast (s : State) (lid : Nat) (l : Launch) : List Nat :=
  (l.past ++ (s.inflight.filter fun e => e.2.thrs.any fun k => k / 2 ^ 24 == lid + 1).map (·.1)).dedup

/-- The launch has ended: all its groves placed and ended, its engine commands and matrix operations complete, and what its
threads left outstanding performed (R108, R165). -/
def State.launchOver (s : State) (lid : Nat) (l : Launch) : Bool :=
  l.refused != 0 || (!l.saved && decide (lGroves l.words ≤ l.nextGrove) && decide (lGroves l.words ≤ l.ended) && !s.cmds.any (fun e => e.2.launch == lid) &&
    !s.ghostsLeft lid)

/-- Under ORDERED every earlier record of the queue has had its completion store (R168). -/
def State.orderFree (s : State) (lid : Nat) (l : Launch) : Bool :=
  !lOrdered l.words || !s.launches.any fun e => e.1 != lid && e.2.ctx == l.ctx && e.2.queue == l.queue && e.2.die == l.die && !e.2.node && decide (e.2.order < l.order)

/-- A node's sweep is over when its queue is disabled, or has been since and enabled anew, and every dispatched grove has ended
(R189). -/
def State.nodeOver (s : State) (lid : Nat) (l : Launch) : Bool :=
  !l.saved && decide (l.ended = l.batches) && !s.retires.any (fun r => r.1 == lid) && !s.cmds.any (fun e => e.2.launch == lid) && !s.ghostsLeft lid &&
  ((s.queue l.die l.ctx l.queue).launch != some lid || match s.queueDesc l.die l.ctx l.queue with
    | some w => !bit (wordAt w 1) 7
    | none => false)

/-- LAUNCH_COMPLETION (R165, R167, R168, R189, R190), and the LOST that a forced reset could not store yet (R370); the engine that ends a
node's sweep has looked at its enable bit (R188, R189). -/
def execLaunchCompletion (launch : Nat) (s : State) : Out :=
  match s.launches.find launch with
  | none => .next s
  | some l =>
    let s1 := { s with launches := s.launches.del launch, hbs := s.hbs.filter fun h => h.1 / 2 ^ 24 != launch + 1 }
    if l.node && l.refused == 0 then
      if s.nodeOver launch l then
        let s2 := (s.queueDesc l.die l.ctx l.queue).elim s1 fun w => s1.seeEnable l.die l.ctx l.queue (bit (wordAt w 1) 7)
        .next (((s2.setQueue l.die l.ctx l.queue fun x => { x with launch := x.launch.filter (· != launch) }).completion l.die l.ctx l.words 0 (s.launchPast launch l)).from_ s l.die)
      else .next s
    else if s.launchOver launch l && s.orderFree launch l then
      .next ((s1.completion l.die l.ctx l.words l.refused (s.launchPast launch l)).from_ s l.die)
    else .next s

/-! ## Work-graph nodes (R186-R188) -/

/-- A node as its engine sees it: the engine's die, the descriptor n0-n7 and the template, where it can be read. -/
structure NodeView where
  die  : Nat
  desc : List Word
  tmpl : Option (List Word)
  deriving DecidableEq, Repr

def NodeView.recWords (v : NodeView) : Nat := bits (wordAt v.desc 2) 10 5
def NodeView.cap (v : NodeView) : Nat := 2 ^ bits (wordAt v.desc 2) 4 0
def NodeView.batch (v : NodeView) : Nat := bits (wordAt v.desc 2) 21 11
/-- The address of word i of the slot of record index k. -/
def NodeView.slot (v : NodeView) (k i : Nat) : Word := wordAt v.desc 1 + BitVec.ofNat 64 (8 * v.recWords * (k % v.cap) + 8 * i)
/-- The words of a launch of the node: the template's, then the descriptor's. -/
def NodeView.words (v : NodeView) : List Word := v.tmpl.getD [] ++ v.desc

/-- A word of a node's structures in device memory, if it is reachable. -/
def State.nodeWord (s : State) (d ctx : Nat) (va : Word) : Option Access :=
  match s.accessFor (qeAgent d) ctx va 8 .read with
  | .ok a => if isDevice a.pa then some a else none
  | .error _ => none

/-- The checks of a node's descriptor and template (R188). -/
def State.nodeOk (s : State) (ctx : Nat) (v : NodeView) : Bool :=
  let n := wordAt v.desc
  bits (n 2) 63 22 == 0 && n 6 == 0 && n 7 == 0 && decide (1 ≤ v.recWords) && decide (v.recWords ≤ 32) &&
  decide (4 ≤ bits (n 2) 4 0) && decide (bits (n 2) 4 0 ≤ 20) && decide (1 ≤ v.batch) && decide (v.batch ≤ min 1024 v.cap) &&
  (s.nodeWord v.die ctx (n 1)).isSome && (s.nodeWord v.die ctx (n 3)).isSome && (s.nodeWord v.die ctx (n 5)).isSome &&
  v.tmpl.any fun t => s.recordOk ctx t && lBlocks t == 1 && s.couldFitGrove ctx t

/-- The node that an enabled node queue's descriptor names. A descriptor that cannot be read names no template to report with,
and is skipped (R185, R186; notes/assumptions/50). -/
def State.viewOf (s : State) (d ctx : Nat) (w : List Word) : Option NodeView :=
  if !bit (wordAt w 1) 7 || !bit (wordAt w 1) 8 || s.onHold ctx || s.heldRead (qeAgent d) ctx (wordAt w 3) 8 then none else
  match s.readVas (qeAgent d) ctx (wordAt w 3) 8 with
  | .error _ => none
  | .ok desc =>
    if s.heldRead (qeAgent d) ctx (wordAt desc 0) 8 then none
    else some { die := d, desc := desc, tmpl := (s.readVas (qeAgent d) ctx (wordAt desc 0) 8).toOption }

/-- The node of an enabled node queue, with the die's look at its enable bit (R185, R186). -/
def State.nodeView (s : State) (ctx q : Nat) : State × Option NodeView :=
  match s.servedBy ctx q with
  | (s0, none) => (s0, none)
  | (s0, some (d, w)) =>
    let s1 := s0.seeEnable d ctx q (bit (wordAt w 1) 7)
    (s1, s1.viewOf d ctx w)

/-- The sweep of a node as a launch, made when its engine first finds the node good (R187, R189): it takes its place in the order of taking
then, and counts as a take, which is the model's choice (R179; notes/assumptions/65). One made anew for a queue that a forced reset took its
launch from goes on with the next batch (R187, R370). -/
def State.nodeLaunch (s : State) (ctx q : Nat) (v : NodeView) : State × Nat :=
  match (s.queue v.die ctx q).launch with
  | some lid => (s, lid)
  | none =>
    let n := (s.queue v.die ctx q).nextBatch
    let l : Launch := { words := v.words, ctx := ctx, queue := q, die := v.die, order := s.takeCount v.die, node := true, nextGrove := n, ended := n, batches := n }
    ({ s.countTake v.die with launches := s.launches.put s.nextSeq l, nextSeq := s.nextSeq + 1 }.setQueue v.die ctx q fun x => { x with launch := some s.nextSeq }, s.nextSeq)

/-- What the acquire at .sys of a queue's entry brings: the releases read with its four words (R177, R234, R349). -/
def State.queuePast (s : State) (d ctx q : Nat) : List Nat :=
  ((List.range 4).flatMap fun i => match s.accessFor (qeAgent d) ctx (s.ctxWord d ctx 1 + BitVec.ofNat 64 (32 * q + 8 * i)) 8 .read with
    | .ok a => s.brought (metByAgent (s.readFrom none (s.paNow a) 8 false))
    | .error _ => []).dedup

/-- The word that tells of a bad node: BADREC at the template's completion word, where there is a template, after what the look at the
queue's entry brought; else a count, with a service entry of address and seq 0, which is the model's choice (R188, R349;
notes/assumptions/65). -/
def State.nodeRefused (s : State) (ctx q : Nat) (v : NodeView) : Put :=
  match v.tmpl with
  | some t => s.completion v.die ctx t 1 (s.queuePast v.die ctx q)
  | none => .done (s.compDropped v.die ctx 0 0)

/-- A look at a node: its first failing check stores BADREC or counts the loss, and stops it (R188); a good one has its
launch. -/
def State.nodeCheck (s : State) (ctx q : Nat) : State × Option NodeView :=
  match s.nodeView ctx q with
  | (s1, none) => (s1, none)
  | (s1, some v) =>
    if (s1.queue v.die ctx q).nodeBad then (s1, none)
    else if s1.nodeOk ctx v then ((s1.nodeLaunch ctx q v).1, some v)
    else (match s1.nodeRefused ctx q v with
      | .done s2 => s2.setQueue v.die ctx q fun x => { x with nodeBad := true }
      | p => p.from_ s1 v.die, none)

/-- A word of a slot reads FULL. -/
def State.slotFull (s : State) (v : NodeView) (ctx k i : Nat) : Bool :=
  match s.nodeWord v.die ctx (v.slot k i) with
  | some a => !s.agentHeld a && s.full (s.paNow a)
  | none => false

/-- A sweep that the queue's node had before it was enabled anew still runs: its batches hold the same slots (R187, R188). -/
def State.oldSweep (s : State) (v : NodeView) (lid : Option Nat) : Bool :=
  (lid.bind s.launches.find).any fun me => s.launches.any fun e =>
    some e.1 != lid && e.2.node && e.2.ctx == me.ctx && e.2.queue == me.queue && e.2.die == v.die && decide (e.2.ended < e.2.batches)

/-- An earlier batch that holds a slot of batch g is still to be placed or runs (R187). -/
def State.nodeBusy (s : State) (v : NodeView) (lid : Option Nat) (g : Nat) : Bool :=
  let shares := fun (h : Nat) => decide (h < g) && (List.range v.batch).any fun i => (List.range v.batch).any fun j =>
    (g * v.batch + i) % v.cap == (h * v.batch + j) % v.cap
  (s.groves.any fun e => some e.2.launch == lid && !e.2.spent && shares e.2.index) ||
  (lid.bind s.launches.find).any (fun l => l.tmpls.any fun t => shares t.1) || s.oldSweep v lid

/-- Batch g becomes grove g of the node's sweep, to be placed in its turn under the words it is dispatched under, after what the
engine's look at the queue's entry brought (R187, R349). -/
def Launch.dispatch (l : Launch) (g : Nat) (words : List Word) (past : List Nat) : Launch :=
  { l with batches := l.batches + 1, tmpls := l.tmpls.put g words, past := (l.past ++ past).dedup }

/-- NODE_BATCH_DISPATCH: a full batch, or one whose end mark is written, joins the pending list with the template's priority and
deadline, which is then tried in its order (R179, R180, R187). -/
def execNodeBatchDispatch (ctx q : Nat) (s : State) : Out :=
  match s.nodeCheck ctx q with
  | (s1, none) => .next s1
  | (s1, some v) =>
    let st := s1.queue v.die ctx q
    let g := st.nextBatch
    if s1.nodeBusy v st.launch g then .next s1
    else if st.marked || (List.range v.batch).all (fun i => s1.slotFull v ctx (g * v.batch + i) 0) then
      let r := s1.nodeLaunch ctx q v
      .next (((r.1.updLaunch r.2 fun x => x.dispatch g v.words (s1.queuePast v.die ctx q)).setQueue v.die ctx q fun x =>
        { x with nextBatch := g + 1, claimAt := x.claimAt.del g, short := none, marked := false }).placePending v.die ctx)
    else .next s1

/-- The value of a node's claim counter. -/
def State.claimCount (s : State) (v : NodeView) (ctx : Nat) : Nat :=
  match s.nodeWord v.die ctx (wordAt v.desc 3) with
  | some a => (s.readPa none a.key (s.paNow a) 8).toNat
  | none => 0

/-- The claims made in batch g. -/
def State.claims (s : State) (v : NodeView) (ctx g : Nat) : Nat := s.claimCount v ctx - g * v.batch

/-- The engine of a node sees in which clk the first record of each batch still to be dispatched is claimed (R186, R187). -/
def State.watchNode (s : State) (d ctx q : Nat) : State :=
  match (s.serves d ctx q).bind fun w => s.viewOf d ctx w.2 with
  | none => s
  | some v =>
    let n := (s.queue d ctx q).nextBatch
    if v.batch = 0 ∨ s.claims v ctx n = 0 then s else
    let gs := (List.range ((s.claims v ctx n + v.batch - 1) / v.batch)).map (n + ·)
    s.setQueue d ctx q fun x => { x with claimAt := gs.foldl (fun m g => if (m.find g).isSome then m else m.put g s.ptp) x.claimAt }

/-- Every enabled queue's node is watched in every clk. -/
def State.watchNodes (s : State) : State :=
  s.queues.foldl (fun x e => if e.2.enabled then x.watchNode (e.1 / 32768) (e.1 / 32 % 1024) (e.1 % 32) else x) s

/-- NODE_BATCH_TIMEOUT: the timeout has passed since the claim of the batch's first record, and the engine raises the claim
counter to the batch's end (R186, R187). -/
def execNodeBatchTimeout (ctx q : Nat) (s : State) : Out :=
  match s.nodeCheck ctx q with
  | (s1, none) => .next s1
  | (s1, some v) =>
    let st := s1.queue v.die ctx q
    let g := st.nextBatch
    let c := s1.claims v ctx g
    if s1.nodeBusy v st.launch g || st.short.isSome || c = 0 then .next s1 else
    match st.claimAt.find g with
    | none => .next (s1.watchNode v.die ctx q)
    | some t =>
      if wordAt v.desc 4 ≠ 0 ∧ t + (wordAt v.desc 4).toNat ≤ s1.ptp ∧ c < v.batch then
        match s1.vaWrite v.die ctx (wordAt v.desc 3) (BitVec.ofNat 64 (g * v.batch + v.batch)) none { past := s1.queuePast v.die ctx q } with
        | .done s2 => .next (s2.setQueue v.die ctx q fun x => { x with short := some c })
        | .wait h => .next (s1.putWaits v.die h)
        | .lost => .next s1
      else .next s1

/-- NODE_END_MARK: once the claimed slots are full, the end mark fills the first word behind them (R187). -/
def execNodeEndMark (ctx q : Nat) (s : State) : Out :=
  match s.nodeCheck ctx q with
  | (s1, none) => .next s1
  | (s1, some v) =>
    let st := s1.queue v.die ctx q
    match st.short with
    | none => .next s1
    | some c =>
      if st.marked then .next s1
      else if (List.range c).all (fun i => (List.range v.recWords).all fun j => s1.slotFull v ctx (st.nextBatch * v.batch + i) j) then
        match s1.vaWrite v.die ctx (v.slot (st.nextBatch * v.batch + c) 0) (BitVec.allOnes 64) (some true) (agentRelease (s1.queuePast v.die ctx q) .pkg) with
        | .done s2 => .next (s2.setQueue v.die ctx q fun x => { x with marked := true })
        | .wait h => .next (s1.putWaits v.die h)
        | .lost => .next s1
      else .next s1

/-! ## Retirement and the end of levels (R108, R165, R194, R342, R358) -/

def Render.add (a b : Render) : Render :=
  { rays := a.rays + b.rays, nodes := a.nodes + b.nodes, tests := a.tests + b.tests, hits := a.hits + b.hits, pairs := a.pairs + b.pairs }

/-- RENDER_STATS_ADD: a block's pending counts go to its context's counters of its die (R342). -/
def State.statsAdd (s : State) (ctx die : Nat) (r : Render) : State :=
  s.setCtx ctx fun c =>
    c.setRender die ((c.render die).add r)

/-- RETIRED_MARK_REPORT: report entries for the marks left in a thread that retires (R358). -/
def State.markReports (s : State) (k : Nat) (t : Thread) : State :=
  t.marks.foldl (fun s m =>
    let f : FaultInfo := { cause := if m.2.source = 20 then .uncorr else .async, addr := m.2.addr, source := m.2.source, tokenReg := m.1, code := m.2.code, step := m.2.step, issuePc := m.2.issuePc }
    s.report (dieOf k) (reportWords { f.toRec t.pc 0 (2 ^ laneOf k) with w6 := 0 } (s.ctxOf t) k)) s

/-- b is added to the retire counters of the ended node groves with a release at .pkg; a counter that must wait is written later, and one that
cannot be read or written is dropped uncounted, the model's choice: a claim counter or an end mark is tried again (R187, R262;
notes/assumptions/65). -/
def State.retireDrain (s : State) : State :=
  s.retires.foldl (fun x r =>
    match x.launches.find r.1 with
    | none => x
    | some l =>
      match x.readVa (qeAgent l.die) l.ctx r.2.1 with
      | .error _ => x
      | .ok v =>
        match (x.vaProbe l.die l.ctx r.2.1 8).vaWrite l.die l.ctx r.2.1 (v + BitVec.ofNat 64 r.2.2) none (agentRelease (x.launchPast r.1 l) .pkg) with
        | .done y => y
        | .lost => x
        | .wait h => { x.putWaits l.die h with retires := x.retires ++ [r] }) { s with retires := [] }

/-- A block of shares that have not ended keeps its scratchpad and its granules (R315). -/
def State.sharesOn (s : State) (b : Nat) : Bool := s.mxOps.any fun e => e.2.shares.any fun x => x.blk == b && x.state != .ended

/-- A block that has ended leaves its core, without being cleared, and its launch's granules there with the last one (R165, R170, R214). -/
def State.blockFree (s : State) (bid : Nat) : State :=
  match s.blocks.find bid with
  | none => s
  | some b =>
    let s1 := { s with blocks := s.blocks.del bid, ended := s.ended ++ ((s.groves.find b.grove).toList.map fun g => (bid, b, g)) }
    let c := 512 * b.die + b.core
    let s2 := if (s1.blocksOn c).any (fun e => e.2.launch == b.launch) then s1
      else s1.updCore c fun x => { x with grants := x.grants.filter (fun g => g.1 != b.launch), taken := x.taken.del b.launch }
    if s2.blocks.any (fun e => e.2.grove == b.grove) then s2 else { s2 with groves := s2.groves.del b.grove }

/-- A grove ends with its last block: its launch counts it, and a node's batch adds to its retire counter (R165, R187). -/
def State.groveEnd (s : State) (gid lid : Nat) : State :=
  match s.groves.find gid with
  | none => s
  | some g =>
    if g.spent || s.blocks.any (fun e => e.2.grove == gid && !e.2.spent) then s else
    ({ s with groves := s.groves.upd gid (fun x => { x with spent := true })
              retires := s.retires ++ g.retire.toList.map fun (r : Word × Nat) => (lid, r.1, r.2) }.updLaunch lid fun x => { x with ended := x.ended + 1 }).retireDrain

/-- LEVEL_END: the block's last thread has retired: its barriers, its slot and its registers are free, and with it its grove may end; its
scratchpad and its launch's granules are free once no share holds them (R165, R315). -/
def State.blockEnd (s : State) (bid : Nat) (b : Block) : State :=
  match s.launches.find b.launch with
  | none => { s with blocks := s.blocks.del bid }
  | some l =>
    let s1 := ((s.updBlock bid fun x => { x with spent := true }).statsAdd l.ctx b.die b.render).groveEnd b.grove b.launch
    if s1.sharesOn bid then s1 else s1.blockFree bid

/-- The operations that a gone thread leaves behind go on under a key of their own. -/
def ghost (k g : Nat) (o : Op) : Op :=
  if o.recv.contains k then { o with recv := o.recv.map fun j => if j = k then g else j } else o

/-- What a gone thread's accesses have done and what it has seen come before its launch's end (R165, R235); what it left
outstanding keeps its past under the key it goes on with, and a token that its commands and matrix operations still owe it reaches no
thread that takes its place (R284). -/
def State.leavePast (s : State) (k lid : Nat) : State :=
  let g := ghostKey lid k
  { s.updLaunch lid fun l => { l with past := ((l.past ++ s.hbPast [k] none).filter fun i => (s.inflight.find i).isSome).dedup } with
    ops := s.ops.mapVals fun _ o => ghost k g o
    mxOps := s.mxOps.mapVals fun _ o => if o.recv.contains k || o.issuer == k then { o with issuer := if o.issuer = k then g else o.issuer, recv := o.recv.map fun j => if j = k then g else j } else o
    cmds := s.cmds.mapVals fun _ c => if c.recv.contains k then { c with recv := c.recv.map fun j => if j = k then g else j } else c
    inflight := s.inflight.mapVals fun _ e => if e.thrs.contains k then { e with thrs := e.thrs.map fun j => if j = k then g else j } else e
    hbs := match s.hbs.find k with
      | some h => (s.hbs.del k).put g h
      | none => s.hbs }

/-- A thread is gone: barriers, its place, its block (R165, R194). -/
def State.threadGone (s : State) (k : Nat) : State :=
  let t := s.thr k
  let s1 := (s.barsOf t).foldl (fun s h => s.memberGone k h) s
  let lid := ((s.blocks.find t.blk).map (·.launch)).getD 0
  let s2 := { s1.leavePast k lid with threads := s1.threads.del k }.updBlock t.blk fun b => { b with gone := b.gone.put t.tid (t.frec, t.frecPrev) }
  if s2.threads.any (fun e => e.2.blk == t.blk) then s2
  else match s2.blocks.find t.blk with
    | some b => s2.blockEnd t.blk b
    | none => s2

/-- THREAD_RETIRE: an exited thread whose flags read zero retires (R108). -/
def execThreadRetire (thr : Nat) (s : State) : Out :=
  match s.thread? thr with
  | some t => if t.status = .exited ∧ t.flags.all (· == 0) ∧ t.writes.isEmpty then .next ((s.markReports thr t).threadGone thr) else .next s
  | none => .next s

/-! ## The block table (R158) -/

/-- The entries of a partition's block table: block and PC of the threads that hold one. -/
def State.tableEntries (s : State) (core part : Nat) : List (Nat × Pc) :=
  (s.threads.filterMap fun e => if coreOf e.1 = core ∧ partOf e.1 = part ∧ e.2.tabled = .held then some (e.2.blk, e.2.pc) else none).dedup

/-- The thread that has waited longest for an entry; a tie goes to the lower bundle slot, then the lower lane. -/
def longestWait : List (Nat × Nat) → Option (Nat × Nat)
  | [] => none
  | x :: t => match longestWait t with
    | none => some x
    | some y => if y.2 < x.2 then some y else some x

/-- BLOCK_TABLE_ENTRY_GRANT: a freed entry goes to the thread that has waited longest, and to every thread that waits at
its block and PC; each counts as ready from when it may issue (R158, R184). -/
def execBlockTableEntryGrant (core part : Nat) (s : State) : Out :=
  let ws := s.threads.filterMap fun e => match e.2.tabled with
    | .waits c => if coreOf e.1 = core ∧ partOf e.1 = part then some (e.1, c) else none
    | _ => none
  match longestWait ws with
  | none => .next s
  | some (k, _) =>
    if 128 ≤ (s.tableEntries core part).length then .next s else
    let t := s.thr k
    let join := fun (j : Nat) (u : Thread) =>
      if coreOf j = core ∧ partOf j = part ∧ u.blk = t.blk ∧ u.pc = t.pc then
        (match u.tabled with
          | .waits _ => { u with tabled := Tabled.held, since := 0 }
          | _ => u)
      else u
    .next { s with threads := s.threads.mapVals join }

end Sys2Proof.Machine
end

