-- ==== Sys2Proof/Machine/Matrix.lean ====
section
/-! DEFINITION. The matrix array: ganged operations, their steps, commit and abort, the energy budget, accumulator access
and the permutation table (spec/18_matrix_engine.md R305-R322, R441; spec/03_number_formats.md R56-R59). -/

namespace Sys2Proof.Machine

/-! ## Scratchpad pages (R215, R216) -/

/-- Where the backing frame of a page stands (R215, R375). -/
def State.backingOf (s : State) (b : Block) (p : Nat) : Option Access :=
  match s.launches.find b.launch with
  | none => none
  | some l =>
    match s.accessFor (qeAgent b.die) l.ctx (BitVec.ofNat 64 (b.backing + 16384 * p)) 16384 .read with
    | .ok a => some a
    | .error _ => none

/-- The outstanding accesses to a scratchpad page of a block. -/
def State.pageOps (s : State) (bid p : Nat) : List Nat :=
  s.ops.filterMap fun e => match e.2.kind.spad with
    | some (b, off, n, _, _) => if b = bid ∧ off / 16384 ≤ p ∧ p ≤ (off + n - 1) / 16384 then some e.1 else none
    | none => none

/-- An ABSENT page is refilled from its backing frame, for the accesses that wait for it in issue order; a sector with an
uncorrectable error leaves its words marked (R215, R216). -/
def State.refillPage (s : State) (bid p : Nat) : State :=
  match s.blocks.find bid with
  | none => s
  | some b =>
    if b.pages[p]? != some .absent then s else
    match s.backingOf b p with
    | none => s.updBlock bid fun x => { x with pages := x.pages.set p .pinned, waited := (s.pageOps bid p).map fun q => (p, q) }
    | some a =>
      let bad := (s.badMem.filter fun e => a.pa / 64 ≤ e ∧ e < a.pa / 64 + 256).flatMap fun e => (List.range 8).map fun i => (bid, (16384 * p + (e * 64 - a.pa)) / 8 + i)
      { s.updBlock bid fun x => { x with pages := x.pages.set p .pinned
                                         waited := (x.waited.filter fun w => (s.ops.find w.2).isSome) ++ (s.pageOps bid p).map fun q => (p, q)
                                         scratch := Mem.writeN x.scratch (16384 * p) (s.bytesAt none a.key a.pa 16384) }
          with badSpad := s.badSpad ++ bad }

/-- SCRATCH_REFILL: a page that an access waits for (R216). -/
def execScratchRefill (block page : Nat) (s : State) : Out := .next (s.refillPage block page)

/-- Every page of a block in SRAM, as a matrix operation needs it (R313). -/
def State.pinAll (s : State) (bid : Nat) : State :=
  match s.blocks.find bid with
  | none => s
  | some b => (List.range b.pages.length).foldl (fun x p => x.refillPage bid p) s

/-! ## Geometry of shares (R305-R311) -/

/-- K-depth of a format (R15, R305). -/
def kDepth : TyCode → Nat
  | .d => 1
  | .f => 2
  | .h | .bf => 16
  | .e4m3 | .e5m2 => 32
  | .e2m1 => 64
  | .s8 | .s16 | .s32 | .s64 | .n8 | .n16 | .n32 | .n64 | .e3m5 => 1

def up (m n : Nat) : Nat := (n + m - 1) / m * m

def MxOp.m (o : MxOp) : Nat := bits o.a2 9 0 + 1
def MxOp.n (o : MxOp) : Nat := bits o.a2 19 10 + 1
def MxOp.k (o : MxOp) : Nat := bits o.a2 35 20 + 1
def MxOp.split (o : MxOp) : Bool := bit o.a2 36
def MxOp.mask (o : MxOp) : Nat := bits o.a2 52 37
def MxOp.aOff (o : MxOp) : Nat := bits o.a0 22 0
def MxOp.bOff (o : MxOp) : Nat := bits o.a0 45 23
def MxOp.accOff (o : MxOp) : Nat := bits o.a1 43 24
def MxOp.idxOff (o : MxOp) : Nat := bits o.a1 22 0
def MxOp.accumulate (o : MxOp) : Bool := bit o.a1 23
def MxOp.kp (o : MxOp) : Nat := up (kDepth o.fmt) o.k
def MxOp.ks (o : MxOp) : Nat := o.kp / kDepth o.fmt
/-- Bytes of an accumulator element (R308). -/
def MxOp.ae (o : MxOp) : Nat := if o.fmt = .d then 8 else 4
/-- Bytes of K elements of the format. -/
def MxOp.rowBytes (o : MxOp) (k : Nat) : Nat := k * (TyCode.fmt o.fmt).width / 8
def Share.msp (x : Share) : Nat := up 16 x.ms
def Share.nsp (x : Share) : Nat := up 32 x.ns
/-- Steps of a share (R306). -/
def MxOp.stepsOf (o : MxOp) (x : Share) : Nat := x.msp / 16 * (x.nsp / 32) * o.ks
/-- Result bytes of a share, as its credit counts them (R314). -/
def MxOp.shareBytes (o : MxOp) (x : Share) : Nat := x.ms * x.ns * o.ae

/-- The grove ranks that a mask names. -/
def maskRanks (mask : Nat) : List Nat := (List.range 16).filter fun j => mask.testBit j

/-- Rows or columns of partner i of p: from total, in groups of g (R311). -/
def shareSpan (total g p i : Nat) : Nat :=
  let groups := (total + g - 1) / g
  min total ((i + 1) * groups / p * g) - min total (i * groups / p * g)

/-- The shares of an operation over the blocks of a grove (R311). -/
def sharesOf (m n : Nat) (split : Bool) (blocks : List (Nat × Nat)) : List Share :=
  blocks.zipIdx.map fun x =>
    { rank := x.1.1, blk := x.1.2
      ms := if split then m else shareSpan m 16 blocks.length x.2
      ns := if split then shareSpan n 32 blocks.length x.2 else n }

/-- The block of a grove with a rank. -/
def State.groveBlock (s : State) (grove rank : Nat) : Option (Nat × Block) := s.blocks.find? fun e => e.2.grove == grove && e.2.idx == rank

/-- A block whose threads have all retired has ended (R165). -/
def State.blockLive (s : State) (bid : Nat) : Bool := s.threads.any fun e => e.2.blk == bid

/-- The live blocks of a grove that a mask names, as (rank, block). -/
def State.maskBlocks (s : State) (grove mask : Nat) : List (Nat × Nat) :=
  (maskRanks mask).filterMap fun r => match s.groveBlock grove r with
    | some (b, _) => if s.blockLive b then some (r, b) else none
    | none => none

/-- The core of a block. -/
def State.coreOfBlock (s : State) (b : Nat) : Nat :=
  match s.blocks.find b with
  | some x => 512 * x.die + x.core
  | none => 0

/-! ## Credits, tokens and the end of an operation (R314-R316) -/

/-- The barrier of a share: its own block's, or the issuer's grove's or span's (R315). -/
def State.shareBar (s : State) (o : MxOp) (x : Share) : Option BarHome :=
  match o.bar with
  | none => none
  | some b =>
    match b.level with
    | .block => some (.block x.blk b.index.toNat)
    | .grove => some (.grove o.grove b.index.toNat)
    | .span => (s.groves.find o.grove).map fun g => .span g.launch b.index.toNat

/-- A credit, a release of what happens-before the operation's issue, or an ABORT delivery of n bytes: the state after it and whether it
was applied (R193, R195, R197, R319). -/
def State.barCredit (s : State) (h : Option BarHome) (n : Nat) (abort : Bool) (past : List Nat) : State × Bool :=
  match h with
  | none => (s, true)
  | some h =>
    match s.barGet h with
    | none => (s, true)
    | some b =>
      if balanceFits (b.balance - n) then (s.barPut h { b with balance := b.balance - n, abort := b.abort || abort, past := (b.past ++ past).dedup }, true) else (s, false)

/-- A token that lands for a saved thread goes into its register slot, mark and shadow in the image, and the saved count of
its flag falls (R376, R377). -/
def State.savedToken (s : State) (v : SavedThr) (reg : Nat) (tok : Word) (m : Mark) (flag : Option Nat) : State :=
  let d := s.ctxDie v.ctx
  let rd := fun (x : State) (off : Nat) => match x.readVa (qeAgent d) v.ctx (BitVec.ofNat 64 (v.va + off)) with
    | .ok w => w
    | .error _ => 0
  let wr := fun (x : State) (off : Nat) (w : Word) => (x.vaWrite d v.ctx (BitVec.ofNat 64 (v.va + off)) w none {}).get?.getD x
  let err := bit tok 63
  let one := BitVec.ofNat 64 (2 ^ reg)
  let s1 := wr s (256 + 8 * reg) tok
  let s2 := wr s1 40 (if err then rd s1 40 ||| one else rd s1 40 &&& ~~~one)
  let s3 := wr s2 (256 + 8 * v.n + 16 * reg) (if err then m.issuePc else 0)
  let s4 := wr s3 (256 + 8 * v.n + 16 * reg + 8) (if err then pack [(m.source, 32), (m.code, 16)] else 0)
  match flag with
  | none => s4
  | some f => wr s4 (16 + f / 6 * 8) (rd s4 (16 + f / 6 * 8) - BitVec.ofNat 64 (2 ^ (6 * (f % 6))))

/-- The record of a saved thread cannot be written now: its page is COPYING or frozen or waits to become OWNED, or a line of it is leased
(R262, R266, R377, R414). -/
def State.savedHeld (s : State) (recv : List Nat) : Bool :=
  recv.any fun k => (s.saved.find k).any fun v => (List.range (32 + 3 * v.n)).any fun i =>
    match s.vaWrite (s.ctxDie v.ctx) v.ctx (BitVec.ofNat 64 (v.va + 8 * i)) 0 none {} with
    | .wait _ => true
    | .done _ | .lost => false

/-- A token word reaches the register of every receiver, marked when it has err; the flag falls and the hold ends (R275,
R276, R316, R33). -/
def State.landToken (s : State) (seq : Nat) (recv : List Nat) (reg : Nat) (tok : Word) (m : Mark) (flag : Option Nat) (sync : Bool) : State :=
  recv.foldl (fun x k => match x.saved.find k with
    | some v => { x.savedToken v reg tok m flag with saved := if (x.cmds.any fun e => e.1 != seq && e.2.recv.contains k) || (x.mxOps.any fun e => e.1 != seq && e.2.recv.contains k) then x.saved else x.saved.del k }
    | none => x.landIn k seq x.clk ([Landing.reg reg tok (if bit tok 63 then some m else none)] ++
      (match flag with
        | some f => [Landing.flagDown f]
        | none => []) ++ (if sync then [Landing.unsync] else []))) s

/-- The token of a matrix operation (R316). -/
def MxOp.tokenWord (o : MxOp) : Word :=
  match o.abort, o.barbal with
  | some (c, r, st), _ => pack [(1, 63), (c, 48), (r, 44), (st, 0)]
  | none, some r => pack [(1, 63), (7, 48), (r, 44), (o.steps, 0)]
  | none, none => pack [(o.steps, 0)]

/-- The offset that an aborted operation's record names: the first failing access (R354). -/
def MxOp.failAddr (o : MxOp) : Nat :=
  match o.abort with
  | some (_, r, _) => ((o.shares.find? (fun x => x.rank == r)).bind (·.fail)).elim 0 (·.2.2)
  | none => 0

/-- Once every partner has ENDED the token lands and the operation is gone; what blocks that have ended still held is free (R315, R316). -/
def State.mxEnd (s : State) (id : Nat) : State :=
  match s.mxOps.find id with
  | none => s
  | some o =>
    if o.shares.any (fun x => x.state != .ended) then s else
    let s1 := { s with mxOps := s.mxOps.del id }
    let s2 := match o.token with
      | some r => s1.landToken id o.recv r o.tokenWord
          { issuePc := o.pc.setWidth 64, source := 18, code := bits o.tokenWord 55 48, addr := BitVec.ofNat 64 o.failAddr, step := bits o.tokenWord 31 0 } o.flag o.sync
      | none => s1
    o.shares.foldl (fun x sh => if x.blockLive sh.blk || x.sharesOn sh.blk then x else match x.blocks.find sh.blk with
      | some b => if b.spent then x.blockFree sh.blk else x.blockEnd sh.blk b
      | none => x) s2

def State.updMx (s : State) (id : Nat) (f : MxOp → MxOp) : State := { s with mxOps := s.mxOps.upd id f }

def MxOp.updShare (o : MxOp) (rank : Nat) (f : Share → Share) : MxOp := { o with shares := o.shares.map fun x => if x.rank = rank then f x else x }

def State.updShare (s : State) (id rank : Nat) (f : Share → Share) : State := s.updMx id fun o => o.updShare rank f

def State.share (s : State) (id rank : Nat) : Option (MxOp × Share) :=
  (s.mxOps.find id).bind fun o => (o.shares.find? fun x => x.rank == rank).map fun x => (o, x)

/-! ## Acceptance (R309, R314, R441) -/

/-- The lowest grove rank of a mask that names no live block; none when every one does (R441). -/
def State.badRank (s : State) (grove mask : Nat) : Option Nat :=
  if mask = 0 then some 0 else (maskRanks mask).find? fun r => !(s.maskBlocks grove mask).any fun x => x.1 == r

/-- A refused operation: NOPART at once, and an ABORT delivery for each named block that lives (R441). -/
def State.mxRefuse (s : State) (id : Nat) (o : MxOp) (rank : Nat) : State :=
  let p := (maskRanks o.mask).length
  let shares := (maskRanks o.mask).zipIdx.filterMap fun x =>
    match s.groveBlock o.grove x.1 with
    | some (b, _) => if s.blockLive b then
        some ({ rank := x.1, blk := b, ms := if o.split then o.m else shareSpan o.m 16 p x.2, ns := if o.split then shareSpan o.n 32 p x.2 else o.n } : Share) else none
    | none => none
  let s1 := shares.foldl (fun x sh => (x.barCredit (x.shareBar o sh) (o.shareBytes sh) true []).1) s
  match o.token with
  | some r => s1.landToken id o.recv r (pack [(1, 63), (2, 48), (rank, 44)]) { issuePc := o.pc.setWidth 64, source := 18, code := 2 } o.flag o.sync
  | none => s1

/-- Every partner's array has a free entry (R305, R314). -/
def State.arraysFree (s : State) (blocks : List (Nat × Nat)) : Bool :=
  blocks.all fun b => decide ((s.core (s.coreOfBlock b.2)).array.length < 8)

/-- An operation that is accepted enters every partner's array queue (R311, R314). -/
def State.mxAccept (s : State) (id : Nat) (o : MxOp) : State :=
  let bs := s.maskBlocks o.grove o.mask
  let s1 := { s with mxOps := s.mxOps.put id { o with shares := sharesOf o.m o.n o.split bs } }
  bs.foldl (fun x b => x.updCore (x.coreOfBlock b.2) fun c => { c with array := c.array ++ [.share id b.1] }) s1

/-- The thread holds at an instruction that is not accepted; it has issued nothing (R271, R314, R371). -/
def State.holdAt (s : State) (recv : List Nat) : State := recv.foldl (fun x k => x.updThread k fun t => { t with status := .held s.inst recv }) s

def State.syncOn (s : State) (recv : List Nat) (sync : Bool) (id : Nat) : State :=
  if sync then recv.foldl (fun x k => x.updThread k fun t => { t with status := .sync id }) s else s

/-- A thread's block in its grove, and its thread ID. -/
def State.placeOf (s : State) (k : Nat) : Nat × Nat := (((s.blocks.find (s.thr k).blk).elim 0 (·.idx)), (s.thr k).tid)

/-- A matrix instruction issues (R309, R310, R319, R441). -/
def State.execMatrix (s : State) (c : Ctl) (en : BitVec 2) (fmt : TyCode) (gather perm : Bool) (bar : Option BarRef) (vd va : Reg) : State :=
  let blk := [va.toNat, va.toNat + 1, va.toNat + 2]
  s.runGang (issue64 c) (vd.toNat :: blk) blk true fun s l recv =>
    let t := s.thr l
    if bar.any (fun b => (s.barHome t b).isNone) then .error { cause := .nobar } else
    let grove := match s.blocks.find t.blk with
      | some b => b.grove
      | none => 0
    let sync := (issue64 c).flag.isNone
    let o : MxOp :=
      { issuer := l, recv := recv, grove := grove, pc := t.pc, word := s.inst, fmt := fmt, gather := gather, perm := perm, energy := en.toNat
        a0 := t.reg va.toNat, a1 := t.reg (va.toNat + 1), a2 := t.reg (va.toNat + 2), bar := bar, token := some vd.toNat, past := s.hbPast recv (some s.nextSeq)
        place := s.placeOf l
        flag := (issue64 c).flag, sync := sync, shares := [] }
    let id := s.nextSeq
    match s.badRank grove o.mask with
    | some r =>
      let s0 := recv.foldl (fun (x : State) k => x.closeIdem k) s
      let s1 := ({ s0 with nextSeq := id + 1 } : State).syncOn recv sync id
      .ok (s1.mxRefuse id o r)
    | none =>
      if s.arraysFree (s.maskBlocks grove o.mask) then
        let s0 := recv.foldl (fun (x : State) k => x.closeIdem k) s
        let s1 := ({ s0 with nextSeq := id + 1 } : State).syncOn recv sync id
        .ok (s1.mxAccept id o)
      else .ok (s.holdAt recv)

/-- MMA (R309). -/
def execMma (c : Ctl) (en : BitVec 2) (fmt : TyCode) (bar : Option BarRef) (vd va : Reg) (s : State) : Out :=
  .next (s.execMatrix c en fmt false false bar vd va)

/-- MMAG (R309). -/
def execMmag (c : Ctl) (en : BitVec 2) (fmt : TyCode) (bar : Option BarRef) (vd va : Reg) (s : State) : Out :=
  .next (s.execMatrix c en fmt true false bar vd va)

/-- MMAQ (R309). -/
def execMmaq (c : Ctl) (en : BitVec 2) (fmt : TyCode) (bar : Option BarRef) (vd va : Reg) (s : State) : Out :=
  .next (s.execMatrix c en fmt false true bar vd va)

/-! ## Running a share (R312-R314) -/

/-- The issue is a release: the array reads after the accesses that the issuing threads made before, and after what their earlier
acquires bring (R319). For the matrix command of a CPYM the copy has waited for those of its own issue (R284). -/
def State.mxReady (s : State) (id : Nat) (o : MxOp) : Bool :=
  o.handed || s.ops.all fun e => !(decide (e.1 < id) && e.2.recv.any (fun k => k == o.issuer || o.recv.contains k) && (e.2.kind.touches || e.2.ord.acq))

/-- The writes on their way that happen-before the operation's issue, once the accesses that it waits for are over (R235, R319). -/
def State.mxPast (s : State) (id : Nat) (o : MxOp) : List Nat :=
  ((o.past ++ (if o.handed then [] else s.hbPast (o.issuer :: o.recv) (some id))).filter fun i => (s.inflight.find i).isSome).dedup

/-- The permutation table entry (R322). -/
def Core.permAt (c : Core) (k : Nat) : Nat := c.perm.getD k 0

/-- The operand regions' ends, which SPBOUND checks (R307, R313). -/
def MxOp.regionEnds (o : MxOp) (x : Share) : List Nat :=
  let ends := fun (off rows : Nat) =>
    if o.fmt = .e2m1 then off + rows * o.kp / 2 + rows * o.kp / 8 + 2 * ((rows + 63) / 64) else off + rows * o.rowBytes o.kp
  (if o.gather then [o.idxOff + 4 * x.ms] else [ends o.aOff x.msp]) ++ [ends o.bOff x.nsp]

/-- The checks of R313, in order: the code of the first that fails. -/
def State.shareCheck (s : State) (o : MxOp) (x : Share) : Option Nat :=
  let c := s.core (s.coreOfBlock x.blk)
  let groups := if o.split then (o.n + 31) / 32 else (o.m + 15) / 16
  let lid := match s.blocks.find x.blk with
    | some b => b.launch
    | none => 0
  let accBytes := ((c.grants.find? fun g => g.1 == lid).map (·.2)).getD 0
  let spad := match s.blocks.find x.blk with
    | some b => b.scratchBytes
    | none => 0
  if bits o.a0 63 46 ≠ 0 ∨ bits o.a1 63 44 ≠ 0 ∨ bits o.a2 63 53 ≠ 0 ∨ (!o.gather && o.idxOff != 0) ∨ o.accOff % 8 ≠ 0 ∨ (o.gather && o.idxOff % 4 != 0) then some 6
  else if 512 < o.m ∨ 512 < o.n ∨ groups < o.shares.length ∨ (o.perm && (decide (c.perm.length < o.k) || c.perm.any fun e => decide (o.kp ≤ e))) then some 1
  else if !decide ((o.shares.map fun y => s.coreOfBlock y.blk).Nodup) then some 2
  else if accBytes < o.accOff + x.msp * x.nsp * o.ae then some 3
  else if (o.regionEnds x).any (fun e => decide (spad < e)) then some 4
  else none

/-- The share at the head of a core's array. -/
def State.headShare (s : State) (core : Nat) : Option (Nat × MxOp × Share) :=
  match (s.core core).array with
  | .share id rank :: _ => (s.share id rank).map fun x => (id, x)
  | _ => none

/-- SHARE_START: at the head of its queue a share is checked and its scratchpad pinned, or it aborts (R313, R314). -/
def execShareStart (core : Nat) (s : State) : Out :=
  match s.headShare core with
  | some (id, o, x) =>
    if x.state = .queued ∧ !o.stop ∧ s.mxReady id o then
      match s.shareCheck o x with
      | some c => .next (s.updShare id x.rank fun y => { y with state := .aborting, fail := some (c, 0, 0) })
      | none => .next (((s.pinAll x.blk).updShare id x.rank fun y => { y with state := .running }).updMx id fun p => { p with past := s.mxPast id p })
    else .next s
  | none => .next s

/-- n bytes of a block's scratchpad. -/
def State.spadAt (s : State) (b off n : Nat) : Nat :=
  match s.blocks.find b with
  | some x => x.spad off n
  | none => 0

/-- The scratchpad items, as (offset, bytes), of element c of row r of an operand in canonical layout: the element, and with
.e2m1 its block scale and its band scale (R307, R56). -/
def MxOp.items (o : MxOp) (off rows r c : Nat) : List (Nat × Nat) :=
  if o.fmt = .e2m1 then
    [(off + r * o.kp / 2 + c / 2, 1), (off + rows * o.kp / 2 + r * o.kp / 8 + c / 8, 1), (off + rows * o.kp / 2 + rows * o.kp / 8 + 2 * (r / 64), 2)]
  else [(off + o.rowBytes (r * o.kp + c), o.rowBytes 1)]

/-- The value of that element. -/
def State.operand (s : State) (o : MxOp) (b off rows r c : Nat) : FVal :=
  let v := (o.items off rows r c).map fun i => s.spadAt b i.1 i.2
  let e := v.getD 0 0
  if o.fmt = .e2m1 then blockValue (if c % 2 = 0 then e % 16 else e / 16) (v.getD 1 0) (v.getD 2 0) else (TyCode.fmt o.fmt).value e

/-- One step's sum into an accumulator element (R58, R59). -/
def stepSum (fmt : TyCode) (acc : Nat) (ps : List (FVal × FVal)) : Nat :=
  if fmt = .d then ps.foldl (fun a p => fma .d .rne p.1 p.2 (Fmt.d.value a)) acc
  else
    let prods := ps.map fun p => FVal.mul p.1 p.2
    let a := Fmt.s.value acc
    if a.isNan || prods.any (fun p => p.elim true FVal.isNan) then 0x7FC00000
    else sumRound Fmt.s .rne (a :: prods.map fun p => p.getD (.fin false 0))

/-- The index of output row m as the scratchpad holds it (R309). -/
def State.idxAt (s : State) (o : MxOp) (x : Share) (m : Nat) : Nat := s.spadAt x.blk (o.idxOff + 4 * m) 4

/-- The share with the indices of a row group, read at the group's first step (R313), or anew after a restore, whose image does not
hold them (R374). -/
def State.withRows (s : State) (o : MxOp) (x : Share) (gr : Nat) (first : Bool) : Share :=
  if o.gather && (first || x.rows.isEmpty) then { x with rows := (List.range 16).map fun i => s.idxAt o x (16 * gr + i) } else x

/-- The A row of output row m (R309, R312). -/
def MxOp.aRow (o : MxOp) (x : Share) (m : Nat) : Nat := if o.gather then x.rows.getD (m % 16) 0 else m

/-- Position of logical channel k in the stored rows (R309, R312). -/
def State.channel (s : State) (o : MxOp) (x : Share) (k : Nat) : Nat := if o.perm then (s.core (s.coreOfBlock x.blk)).permAt k else k

/-- The logical channels of step slice ks (R312). -/
def MxOp.slice (o : MxOp) (ks : Nat) : List Nat := (List.range (min o.k (kDepth o.fmt * (ks + 1)) - kDepth o.fmt * ks)).map (kDepth o.fmt * ks + ·)

/-- The accumulator bytes of a launch on a core. -/
def accBase (lid : Nat) : Nat := lid * 2 ^ 24

/-- The launch of a block. -/
def State.launchIdOf (s : State) (b : Nat) : Nat :=
  match s.blocks.find b with
  | some x => x.launch
  | none => 0

/-- The value of an output element before step slice ks (R312). -/
def State.accBefore (s : State) (o : MxOp) (x : Share) (m n ks : Nat) : Nat :=
  if ks = 0 then
    (if o.accumulate then ofLe (Mem.readN (s.core (s.coreOfBlock x.blk)).acc (accBase (s.launchIdOf x.blk) + o.accOff + (m * x.nsp + n) * o.ae) o.ae) else 0)
  else ofLe (Mem.readN x.result ((m * x.nsp + n) * o.ae) o.ae)

/-- Output element (m, n) after slice ks (R312). -/
def State.elementStep (s : State) (o : MxOp) (x : Share) (m n ks : Nat) : Nat :=
  stepSum o.fmt (s.accBefore o x m n ks) ((o.slice ks).map fun k =>
    (s.operand o x.blk o.aOff x.msp (o.aRow x m) (s.channel o x k), s.operand o x.blk o.bOff x.nsp n (s.channel o x k)))

/-- The first row of a row group whose gathered A row ends beyond the scratchpad (R313). -/
def State.gatherBad (s : State) (o : MxOp) (x : Share) (gr : Nat) : Option Nat :=
  let limit := match s.blocks.find x.blk with
    | some b => b.scratchBytes
    | none => 0
  if o.gather then
    ((List.range 16).map (16 * gr + ·)).find? fun m => decide (m < x.ms) && decide (limit < o.aOff + (s.idxAt o x m + 1) * o.rowBytes o.kp)
  else none

/-- The output rows and columns that a step covers (R306). -/
def Share.stepRows (x : Share) (gr : Nat) : List Nat := ((List.range 16).map (16 * gr + ·)).filter (· < x.ms)
def Share.stepCols (x : Share) (gc : Nat) : List Nat := ((List.range 32).map (32 * gc + ·)).filter (· < x.ns)

/-- The first scratchpad item that a step reads and that holds an uncorrectable error: the indices that the row group's first step
reads, then the rows of A, then those of B (R316; notes/assumptions/59). -/
def State.stepUncorr (s : State) (o : MxOp) (x : Share) (gr gc ks : Nat) : Option Nat :=
  let y := s.withRows o x gr (ks == 0 && gc == 0)
  let idx := if o.gather && ks == 0 && gc == 0 then (x.stepRows gr).map fun m => (o.idxOff + 4 * m, 4) else []
  let row := fun (off rows r : Nat) => (o.slice ks).flatMap fun k => o.items off rows r (s.channel o x k)
  let items := idx ++ (x.stepRows gr).flatMap (fun m => row o.aOff x.msp (o.aRow y m)) ++ (x.stepCols gc).flatMap fun n => row o.bOff x.nsp n
  (items.find? fun (i : Nat × Nat) => s.badSpad.any fun w => w.1 == x.blk && decide (i.1 / 8 ≤ w.2) && decide (w.2 ≤ (i.1 + i.2 - 1) / 8)).map (·.1)

/-- The context that pays for an operation. -/
def State.mxCtx (s : State) (o : MxOp) : Nat :=
  match s.groves.find o.grove with
  | some g => (s.launches.find g.launch).elim 0 (·.ctx)
  | none => 0

/-- A share that pre-emption stops stands at an interrupt point: before a step whose index is a multiple of 64, other than
step 0 (R318). -/
def MxOp.halts (o : MxOp) (x : Share) : Bool := o.stop && x.step % 64 == 0 && x.step != 0

/-- MATRIX_STEP: the running share at the head of an array does its next step, one in a clk, when the budget covers it (R305, R306,
R312-R314, R317). An error in the result buffer ends it as one of the scratchpad does, at an offset that no rule states
(notes/assumptions/59). -/
def execMatrixStep (core : Nat) (s : State) : Out :=
  match s.headShare core with
  | none => .next s
  | some (id, o, x) =>
    let ctx := s.mxCtx o
    let cost := 2 ^ o.energy
    if x.state ≠ .running ∨ o.halts x ∨ (s.ctxSt ctx).ebud < cost ∨ s.clk < (s.core core).mxClk then .next s else
    let cb := x.nsp / 32
    let ks := x.step % o.ks
    let gc := x.step / o.ks % cb
    let gr := x.step / o.ks / cb
    let paid := (s.setCtx ctx fun c => { c with ebud := c.ebud - cost }).updCore core fun c => { c with mxClk := s.clk + 1 }
    let fail := fun (code addr : Nat) => paid.updShare id x.rank fun y => { y with state := .aborting, fail := some (code, x.step, addr), inStep := true }
    match (if ks = 0 ∧ gc = 0 then s.gatherBad o x gr else none) with
    | some m => .next (fail 4 (o.idxOff + 4 * m))
    | none =>
      match (if x.bad then some ((Config.unstated s.draws 316).toNat % 2 ^ 23) else s.stepUncorr o x gr gc ks) with
      | some a => .next (fail 5 a)
      | none =>
        let x1 := s.withRows o x gr (ks == 0 && gc == 0)
        let cells := (x.stepRows gr).flatMap fun m => (x.stepCols gc).map fun n => (m, n)
        let res := cells.foldl (fun r c => Mem.writeN r ((c.1 * x.nsp + c.2) * o.ae) (toLe o.ae (s.elementStep o x1 c.1 c.2 ks))) x.result
        let done := decide (x.step + 1 = o.stepsOf x)
        .next ((paid.updMx id fun p => { p with steps := p.steps + 1 }).updShare id x.rank fun y =>
          { y with result := res, rows := x1.rows, step := x.step + 1, state := if done then .ready else .running })

/-- SHARE_READY: the coordinator learns that a share is ready (R314). -/
def execShareReady (mx rank : Nat) (s : State) : Out :=
  match s.share mx rank with
  | some (_, x) => if x.state = .ready ∧ !x.sent then .next (s.updShare mx rank fun y => { y with sent := true }) else .next s
  | none => .next s

/-- SHARE_ABORT: a partner's abort reaches the coordinator; the first one is the operation's (R314, R316). -/
def execShareAbort (mx rank : Nat) (s : State) : Out :=
  match s.share mx rank with
  | some (_, x) =>
    match x.fail with
    | some (c, st, _) =>
      if x.state = .aborting ∧ !x.sent then
        .next ((s.updShare mx rank fun y => { y with sent := true }).updMx mx fun o => if o.abort.isSome then o else { o with abort := some (c, rank, st) })
      else .next s
    | none => .next s
  | none => .next s

/-- The share leaves its array's queue. -/
def State.leaveArray (s : State) (blk id rank : Nat) : State :=
  s.updCore (s.coreOfBlock blk) fun c => { c with array := c.array.filter (· != .share id rank) }

/-- COMMIT_NOTICE: the result reaches the accumulators as one action, the credit follows, and the token lands with the
last partner (R314-R316); it comes once the token's place can be written (R377). -/
def execCommitNotice (mx rank : Nat) (s : State) : Out :=
  match s.share mx rank with
  | none => .next s
  | some (o, x) =>
    if !s.savedHeld o.recv ∧ x.state = .ready ∧ o.abort.isNone ∧ o.shares.all (fun y => y.sent || y.state == .ended) then
      let base := accBase (s.launchIdOf x.blk) + o.accOff
      let cells := (List.range x.ms).flatMap fun m => (List.range x.ns).map fun n => (m * x.nsp + n) * o.ae
      let s1 := s.updCore (s.coreOfBlock x.blk) fun c => { c with acc := cells.foldl (fun a off => Mem.writeN a (base + off) (Mem.readN x.result off o.ae)) c.acc }
      let r := (s1.leaveArray x.blk mx rank).barCredit (s.shareBar o x) (o.shareBytes x) false o.past
      let s2 := (r.1.updShare mx rank fun y => { y with state := .ended }).updMx mx fun p =>
        if r.2 then p else { p with barbal := some (min rank (p.barbal.getD rank)) }
      .next (s2.mxEnd mx)
    else .next s

/-- A thread held at acceptance gives its hold up: its gang, which has issued nothing, forms again. -/
def State.unhold (s : State) (k : Nat) : State :=
  match (s.thr k).status with
  | .held _ g => g.foldl (fun x j => x.updThread j fun t => { t with status := .run }) s
  | _ => s

/-- The partner's lowest-indexed live thread is stopped by an index check or an uncorrectable error (R316). -/
def State.partnerFault (s : State) (x : Share) : State :=
  match x.fail with
  | some (c, st, a) =>
    if x.inStep then
      let ts := s.threads.filter fun e => e.2.blk == x.blk && e.2.status != .exited
      let low := ts.foldl (fun (m : Option (Nat × Thread)) e => match m with
        | some b => if e.2.tid < b.2.tid then some e else m
        | none => some e) none
      match low with
      | some (k, _) => s.updThread k fun t => { t with mxErr := t.mxErr ++ [{ cause := if c = 4 then .spbound else .uncorr, kind := .matrix, source := 18, addr := BitVec.ofNat 64 a, step := st, lanes := some (2 ^ laneOf k) }] }
      | none => s
    else s
  | none => s

/-- ABORT_NOTICE: a partner stops, delivers ABORT for its bytes and has ENDED (R314-R316), once the token's place can be written
(R377). -/
def execAbortNotice (mx rank : Nat) (s : State) : Out :=
  match s.share mx rank with
  | none => .next s
  | some (o, x) =>
    if !s.savedHeld o.recv ∧ o.abort.isSome ∧ x.state ≠ .ended then
      let s1 := ((s.leaveArray x.blk mx rank).barCredit (s.shareBar o x) (o.shareBytes x) true []).1
      .next (((s1.partnerFault x).updShare mx rank fun y => { y with state := .ended }).mxEnd mx)
    else .next s

/-! ## Accumulators and the permutation table (R321, R322) -/

/-- Accumulator bytes of the thread's launch on its core. -/
def State.accBytes (s : State) (k : Nat) : Nat :=
  (((s.core (coreOf k)).grants.find? fun g => g.1 == s.launchIdOf (s.thr k).blk).map (·.2)).getD 0

/-- An operation for the thread's array: it holds while the queue is full (R305, R320). -/
def State.arrayOp (s : State) (q : Issue) (l : Nat) (recv : List Nat) (k : OpKind) : State :=
  if 8 ≤ (s.core (coreOf l)).array.length then s.holdAt recv
  else (s.startOp q q.flag.isNone {} l recv (0, none) k).updCore (coreOf l) fun c => { c with array := c.array ++ [.op s.nextSeq] }

/-- The checks of R321. -/
def State.accCheck (s : State) (k off n align : Nat) : Option FaultInfo :=
  let kind := Kind.matrix
  if off % align ≠ 0 then some { cause := .misalign, kind := kind, addr := BitVec.ofNat 64 off }
  else if n ≠ 0 ∧ s.accBytes k < off + n then some { cause := .accbound, kind := kind, addr := BitVec.ofNat 64 off }
  else none

/-- ACCZ (R321). -/
def execAccz (c : Ctl) (va vb : Reg) (s : State) : Out :=
  .next (s.runGang (issue64 c) [va.toNat, vb.toNat] [va.toNat, vb.toNat] true fun s l recv =>
    let off := bits ((s.thr l).reg va.toNat) 19 0
    let n := bits ((s.thr l).reg vb.toNat) 20 0
    if n % 8 ≠ 0 then .error { cause := .misalign, kind := .matrix, addr := BitVec.ofNat 64 off } else
    match s.accCheck l off n 8 with
    | some f => .error f
    | none => .ok (s.arrayOp (issue64 c) l recv (.accz off n)))

/-- ACCRD (R321). -/
def execAccrd (c : Ctl) (four : Bool) (vd va : Reg) (s : State) : Out :=
  .next (s.runGang (issue64 c) [vd.toNat, va.toNat] [va.toNat] true fun s l recv =>
    let off := bits ((s.thr l).reg va.toNat) 19 0
    let n := atomSize four
    match s.accCheck l off n n with
    | some f => .error f
    | none => .ok (s.arrayOp (issue64 c) l recv (.accrd off n vd.toNat)))

/-- ACCWR (R321). -/
def execAccwr (c : Ctl) (four : Bool) (va vb : Reg) (s : State) : Out :=
  .next (s.runGang (issue64 c) [va.toNat, vb.toNat] [va.toNat, vb.toNat] true fun s l recv =>
    let off := bits ((s.thr l).reg va.toNat) 19 0
    let n := atomSize four
    match s.accCheck l off n n with
    | some f => .error f
    | none => .ok (s.arrayOp (issue64 c) l recv (.accwr off n ((s.thr l).reg vb.toNat))))

/-- PERMT (R322). -/
def execPermt (c : Ctl) (va vb : Reg) (s : State) : Out :=
  .next (s.runGang (issue64 c) [va.toNat, vb.toNat] [va.toNat, vb.toNat] true fun s l recv =>
    let t := s.thr l
    let off := bits (t.reg va.toNat) 22 0
    let n := bits (t.reg vb.toNat) 14 0
    let limit := match s.blocks.find t.blk with
      | some b => b.scratchBytes
      | none => 0
    let err := fun cs => Except.error (ε := FaultInfo) (α := State) { cause := cs, kind := .matrix, addr := BitVec.ofNat 64 off }
    if off % 2 ≠ 0 then err .misalign
    else if 16384 < n then err .mxrange
    else if limit < off + 2 * n then err .spbound
    else .ok (s.arrayOp (issue64 c) l recv (.permt t.blk off n)))

/-- The operation stands at the head of its core's array (R305). -/
def State.atHead (s : State) (seq : Nat) (o : Op) : Bool :=
  match (s.core (coreOf o.thr)).array with
  | .op q :: _ => q == seq
  | _ => false

/-- An accumulator or table operation is performed at its array (R305, R321, R322). -/
def State.arrayStep (s : State) (seq : Nat) (o : Op) : State :=
  let c := coreOf o.thr
  let base := accBase (s.launchIdOf (s.thr o.thr).blk)
  let s1 := s.updCore c fun x => { x with array := x.array.drop 1 }
  match o.kind with
  | .accz off n => (s1.updCore c fun x => { x with acc := Mem.writeN x.acc (base + off) (List.replicate n 0) }).finishOp seq o []
  | .accrd off n dst => s1.finishOp seq o [.reg dst (BitVec.ofNat 64 (ofLe (Mem.readN (s.core c).acc (base + off) n))) none]
  | .accwr off n v => (s1.updCore c fun x => { x with acc := Mem.writeN x.acc (base + off) (toLe n v.toNat) }).finishOp seq o []
  | .permt b off n => (s1.updCore c fun x => { x with perm := (List.range n).map fun i => s.spadAt b (off + 2 * i) 2 }).finishOp seq o []
  | _ => s

/-- The partition forms gangs for the thread: it is not stopped for debug (R385), nor its context stopped for a save (R369). -/
def State.mayIssue (s : State) (k : Nat) (t : Thread) : Bool :=
  !(s.core (coreOf k)).stopped.contains (partOf k) && !(s.pe.stage == .save && s.pe.ctx == s.ctxOf t)

/-- What a held thread holds, its gang running again: the state and the instruction (R271, R314). None while a member's partition issues
nothing (R369, R385), or a fault is due before its next instruction (R144, R316). -/
def State.heldBy (s : State) (thr : Nat) : Option (State × Instr) :=
  match (s.thr thr).status with
  | .held w g =>
    if g.all fun k => s.mayIssue k (s.thr k) && !(s.thr k).faultDue then
      (decodeTableWord 64 w.toNat).map fun i => ({ s.unhold thr with gang := g, inst := w }, i)
    else none
  | _ => none

/-- A held gang with a due fault holds no longer: the fault comes before its instruction (R144, R316). -/
def State.heldDue (s : State) (thr : Nat) : State :=
  match (s.thr thr).status with
  | .held _ g => if g.any fun k => (s.thr k).faultDue then s.unhold thr else s
  | _ => s

/-- MATRIX_ACCEPT: a held matrix instruction is issued once every partner's array has an entry (R314). -/
def execMatrixAccept (thr : Nat) (s : State) : Out :=
  match s.heldBy thr with
  | some (s1, .mma c en fmt bar vd va) => execMma c en fmt bar vd va s1
  | some (s1, .mmag c en fmt bar vd va) => execMmag c en fmt bar vd va s1
  | some (s1, .mmaq c en fmt bar vd va) => execMmaq c en fmt bar vd va s1
  | some (s1, .accz c va vb) => execAccz c va vb s1
  | some (s1, .accrd c four vd va) => execAccrd c four vd va s1
  | some (s1, .accwr c four va vb) => execAccwr c four va vb s1
  | some (s1, .permt c va vb) => execPermt c va vb s1
  | _ => .next (s.heldDue thr)

end Sys2Proof.Machine
end

