-- ==== Sys2Proof/Machine/Migrate.lean ====
section
/-! DEFINITION. Moving a page to another frame, the tag pages of host frames, and page residency in hardware mode
(spec/14_translation_and_versions.md R252, R266, R267; spec/27_host_security_startup.md R430, R433). -/

namespace Sys2Proof.Machine

/-! ## The leaves of the package's tables -/

/-- 64 KiB pages that an entry of a level translates (R249). -/
def levelPages (lvl : Nat) : Nat := if lvl = 0 then 1 else 32 * 512 ^ (lvl - 1)

/-- The leaves below a table whose first entry is number `pre` of its level, each with its place, its level and the first page that it
translates. -/
def State.leavesBelow (s : State) (base pre : Nat) : List Nat → List (Nat × Nat × Nat)
  | [] => []
  | lvl :: rest =>
    (List.range (if lvl = 0 then 32 else 512)).flatMap fun i =>
      let a := base + 8 * i
      let e := s.readPa none 0 a 8
      if bits e 1 0 = 1 ∧ tableOk e lvl ∧ lvl ≠ 0 then s.leavesBelow (bits e 51 8 * 256) ((pre + i) * (if lvl = 1 then 32 else 512)) rest
      else if bits e 1 0 = 2 ∧ s.leafOk e lvl then [(a, lvl, (pre + i) * levelPages lvl)] else []

/-- Every leaf of every context, under every die's root table, with its context and the first page that it translates. -/
def State.leafPlaces (s : State) : List (Leaf × Nat × Nat) :=
  (([0, 1, 2, 3].map fun d => (s.reg (Off.xl d 0)).toNat).dedup.flatMap fun tab => (List.range 1024).flatMap fun c =>
    let root := s.readPa none 0 (tab + 8 * c) 8
    if bit root 0 then (s.leavesBelow (bits root 51 12 * 4096) 0 [4, 3, 2, 1, 0]).map fun x =>
      (({ word := s.readPa none 0 x.1 8, level := x.2.1, at_ := x.1 } : Leaf), c, x.2.2)
    else []).dedup

def State.leaves (s : State) : List Leaf := s.leafPlaces.map (·.1)

/-- A plain leaf covers a frame (R249). -/
def Leaf.covers (l : Leaf) (f : Nat) : Bool := !l.versioned && decide (l.frame ≤ f) && decide (f ≤ l.frame + l.mask)

/-- A page record names a frame as its working frame, or as a published one (R257). -/
def State.recWorks (s : State) (l : Leaf) (f : Nat) : Bool := l.versioned && s.wframe l.record == f
def State.recServes (s : State) (l : Leaf) (f : Nat) : Bool := l.versioned && (s.slots l.record).any fun x => x.2.2 == f

/-- The page records of the regions that a command or an access has met, whether a leaf maps them or not (R255, R256). -/
def State.knownRecords (s : State) : List Nat := ((s.regSeen ++ s.regions.map (·.region)).dedup.flatMap s.records).dedup

/-- Such a record names a frame as a published one. -/
def State.knownServes (s : State) (f : Nat) : Bool := s.knownRecords.any fun r => (s.slots r).any fun x => x.2.2 == f

/-- A valid leaf or a page record names the frame (R433). -/
def State.inUse (s : State) (f : Nat) : Bool :=
  s.leaves.any (fun l => l.covers f || s.recWorks l f || s.recServes l f) || (s.cows.any fun c => c.frame == f) ||
  s.knownServes f || s.knownRecords.any fun r => s.wframe r == f

/-! ## Tag pages (R228, R267) -/

/-- The 1,024 tag bytes of a frame: bit j for the word at offset 8j (R228). -/
def State.tagBytes (s : State) (frame : Nat) : List Byte :=
  (List.range 1024).map fun i => BitVec.ofNat 8 ((List.range 8).foldl (fun v j => if s.full (frame + 8 * (8 * i + j)) then v + 2 ^ j else v) 0)

/-- The bits of a frame taken from tag bytes. -/
def State.putTags (s : State) (frame : Nat) (tags : List Byte) : State :=
  let out := s.empties.filter fun a => !(decide (frame ≤ a) && decide (a < frame + 65536))
  let es := (List.range 8192).filter fun w => !(tags.getD (w / 8) 0).toNat.testBit (w % 8)
  { s with empties := es.foldl (fun m w => Addrs.add m (frame + 8 * w)) out }

/-! ## The move itself (R266, R267) -/

/-- An access to the moved page is performed on its new frame. -/
def Access.moved (src dst : Nat) (a : Access) : Access := if a.pa / 65536 * 65536 = src then { a with pa := dst + a.pa % 65536 } else a

def OpKind.moved (src dst : Nat) : OpKind → OpKind
  | .cctl op pa => .cctl op (if pa / 65536 * 65536 = src then dst + pa % 65536 else pa)
  | k => (k.mapAccess (Access.moved src dst)).withUnit fun u =>
      { u with snap := u.snap.map fun x => if x.1 / 1024 * 65536 = src then (dst / 64 + x.1 % 1024, x.2) else x }

/-- The kinds of the host frames that some translation cache still holds an entry of (R227). -/
def heldKinds (tlb : List TlbEnt) (kinds : Tbl Bool) : Tbl Bool :=
  kinds.filter fun f => tlb.any fun (e : TlbEnt) => !bit e.leaf 2 &&
    decide (bits e.leaf 51 16 + e.vpage % (({ word := e.leaf, level := e.level, at_ := 0 } : Leaf).mask / 65536 + 1) = f.1)

/-- Translations of a frame leave every cache of the package, and with its last one the record of a host frame's kind ends (R227,
R252). -/
def State.dropFrame (s : State) (frame : Nat) : State :=
  let tlb := s.tlb.filter fun (e : TlbEnt) => bit e.leaf 2 || bits e.leaf 51 16 * 65536 != frame
  { s with tlb := tlb, hostKinds := heldKinds tlb s.hostKinds
           icache := s.icache.filter fun e => e.2.1 / 256 != frame / 65536 }

/-- The entry leads to a page. -/
def PteEnt.leads (e : PteEnt) (ctx page : Nat) : Bool :=
  e.ctx == ctx && decide (e.base / 65536 ≤ page) && decide (page < e.base / 65536 + if e.level = 5 then 2 ^ 41 else 2 ^ (9 * e.level - 4))

/-- The translations of a page of a context, older ones too, leave every cache of the package (R252). -/
def State.dropPage (s : State) (ctx page : Nat) : State :=
  let tlb := s.tlb.filter fun (e : TlbEnt) => !(e.ctx == ctx && e.vpage == page)
  { s with tlb := tlb, hostKinds := heldKinds tlb s.hostKinds, ptes := s.ptes.filter fun (e : PteEnt) => !e.leads ctx page }

/-- A leaf with its frame replaced. -/
def Leaf.withFrame (l : Leaf) (f : Nat) : Word := (l.word &&& ~~~(field 51 16)) ||| BitVec.ofNat 64 f

/-- The data of a frame, as key reads it, moved to another frame whose sectors are then of that key; a host frame holds it
without a key and without bits (R152, R254). -/
def State.moveData (s : State) (key src dst : Nat) : State :=
  let s1 := s.copyRange (s.keyGen key) src dst 65536
  if isDevice dst then s1 else { s1 with empties := s1.empties.filter fun a => !(decide (dst ≤ a) && decide (a < dst + 65536)) }

/-- The threads whose form or GRAFT waits on a word of a frame, their records held or still to be sent, with the identifier of
the record. -/
def State.waitersOf (s : State) (frame : Nat) : List (Nat × Nat × Nat) :=
  (s.threads.filterMap fun e => match e.2.status with
    | .form w f la _ false => if w / 65536 * 65536 = frame then some (e.1, w, waiterIdent e.1 f la) else none
    | _ => none) ++
  s.ops.filterMap fun e => match e.2.kind with
    | .graft g => g.wait.bind fun w => if w / 65536 * 65536 = frame ∧ g.released = false then some (e.2.thr, w, waiterIdent e.2.thr false false) else none
    | _ => none

/-- Every waiter of a page's words is released as the page moves to host memory: its retry finds the page away (R267). -/
def State.releaseFrame (s : State) (frame : Nat) : State :=
  (s.waitersOf frame).foldl (fun x k => (x.dropWaiter k.1).release k.2.1 k.2.2) s

/-- The leaves of a frame's page, with their contexts and pages: they map the frame, or the record whose working frame it is. -/
def State.placesOf (s : State) (f : Nat) : List (Leaf × Nat × Nat) := s.leafPlaces.filter fun x => (x.1.covers f && x.1.level == 0) || s.recWorks x.1 f

/-- What Taproot writes at a switch must still wait: a lease covers a leaf, a record or the tag page, or a waiter's park area cannot be reached
(R266, R405, R414, R442). -/
def State.moveHeld (s : State) (src dst tag : Nat) : Bool :=
  (s.placesOf src).any (fun x => !s.leaseFree (if x.1.versioned then x.1.record else x.1.at_)) ||
  (if isDevice dst then s.rekeyHeld src dst
   else !((List.range 4).all fun i => s.leaseFree (tag + 256 * i)) || (s.waitersOf src).any fun w => s.waiterHeld w.1)

/-- THE SWITCH of a move from src to dst, after what happens-before the request that asked for it (R237, R266, R267): data and bits, the
leaves or the page record, translations, waiters, leases, and outstanding accesses, of which those that waited for it go on first; the
source becomes UNSEEN. -/
def State.moveSwitch (s : State) (past : List Nat) (src dst tag : Nat) (resident : Bool) : State :=
  let ls := s.leaves
  let key := match ls.find? (fun l => l.covers src || s.recWorks l src) with
    | some l => l.key
    | none => 0
  let tags := s.tagBytes src
  let s1 := s.moveData key src dst
  let s2 := if isDevice dst then s1 else { (s1.writePa { past := past } 0 tag tags none) with tagPages := s1.tagPages.put (dst / 65536) tag }
  let s3 := if isHost src && isDevice dst then
      match s.tagPages.find (src / 65536) with
      | some t => { (s2.putTags dst (s.bytesAt none 0 t 1024)) with tagPages := s2.tagPages.del (src / 65536) }
      | none => s2
    else s2
  let s4 := ls.foldl (fun (x : State) l =>
    if l.covers src && l.level == 0 then x.hwWriteLeaf l.at_ (l.withFrame dst ||| (if resident then BitVec.ofNat 64 128 else 0))
    else if s.recWorks l src then x.hwWriteBy past l.record (BitVec.ofNat 64 dst) else x) s3
  let s5 := if isDevice src && !isDevice dst then s4.releaseFrame src else s4.rekeyFrame past src dst
  let cls := (s5.frames.find (src / 65536)).getD {}
  let s6 := (s.placesOf src).foldl (fun (x : State) p => x.dropPage p.2.1 p.2.2) ((s5.unseen src).dropFrame src)
  let s7 := if isDevice dst then { s6 with frames := if isDevice src then s6.frames.put (dst / 65536) cls else s6.frames.del (dst / 65536) } else s6
  let line := fun (l : Nat) => if l / 256 * 65536 = src then dst / 256 + l % 256 else l
  { s7.replayFrom dst (s.arrived (fun a => s.paNow a / 65536 * 65536 == src) src (2 ^ 63)) with
            queued := s7.queued.filter fun x => x.1 != src
            ops := s7.ops.mapVals fun _ o => { o with kind := o.kind.moved src dst }
            granted := s7.granted.map fun (l : Lease) => { l with line := line l.line }
            heldWr := s7.heldWr.map fun (h : HeldWr) => if h.pa / 65536 * 65536 = src then { h with pa := dst + h.pa % 65536 } else h }

/-! ## Page residency in hardware mode (R430) -/

/-- A residency request served by the hardware, after what happens-before it: a page in host memory moves to a pool frame and becomes resident;
in every other case, or with an empty pool, it is refused. A leaf above level 0 maps more than the page that one frame holds: its request
is refused, which is the model's choice (notes/assumptions/65). -/
def State.hwResidency (s : State) (past : List Nat) (die ctx va : Nat) : State × Bool :=
  match s.walk (qeAgent die) ctx va with
  | none => (s, false)
  | some l =>
    if l.resident then (s, true)
    else if l.versioned || l.level != 0 || !isHost l.frame then (s, false)
    else match s.poolPop with
      | none => (s, false)
      | some (f, s1) => (s1.moveSwitch past l.frame f 0 true, true)

/-- A request of an engine or a remote access for a page that is away (R144, R430, R431): served at once in hardware mode,
else a RESIDENCY entry. -/
def State.residency (s : State) (past : List Nat) (die ctx va : Nat) : State :=
  if bit (s.ctxWord die ctx 0) 24 then { s.service 1 ctx (BitVec.ofNat 64 va) 0 with resReqs := s.resReqs ++ [{ ctx := ctx, va := va, op := none }] }
  else (s.hwResidency past die ctx va).1

end Sys2Proof.Machine
end

