-- ==== Sys2Proof/Machine/Engine.lean ====
section
/-! DEFINITION. The copy engines and Heartwood: acceptance, checks, the accesses of CPY, CPYX and CPYM, collectives, halos,
PUBLISH, and completion (spec/16_engines_model.md R271-R290, spec/17_isa_engine_commands.md R291-R304,
spec/14_translation_and_versions.md R259-R262, spec/26_fabric_and_checkpoint.md R416). -/

namespace Sys2Proof.Machine

/-! ## Choice of an engine (R271, R304) -/

/-- Commands queued or running on an engine. -/
def State.engDepth (s : State) (e : Nat) : Nat := (s.cmds.filter fun c => c.2.engine == e).length

/-- The engine that "local" means on a die: the least deep of its four, a tie to the lower number. -/
def State.nearEngine (s : State) (d : Nat) : Nat :=
  [1, 2, 3].foldl (fun b i => if s.engDepth (4 * d + i) < s.engDepth b then 4 * d + i else b) (4 * d)

def State.pickEngine (s : State) (d : Nat) : EngSel → Nat
  | .ce n => n.toNat
  | .near => s.nearEngine d

/-- Commands that an engine accepts (R271). -/
def engLimit (e : Nat) : Nat := if e = 17 then 128 else 64

def State.updCmd (s : State) (id : Nat) (f : Cmd → Cmd) : State := { s with cmds := s.cmds.upd id f }

/-- CE_QDEPTH follows the commands in the engine (R290). -/
def State.depthReg (s : State) (e : Nat) : State := if e < 16 then s.setReg (Off.ce e 8) (BitVec.ofNat 64 (s.engDepth e)) else s

/-! ## Fields of the operand blocks (R295-R303) -/

/-- The completion word register (R295). -/
def Cmd.comp (c : Cmd) : Word :=
  match c.kind with
  | .cpy | .cpyx | .cpym _ _ _ _ _ => c.a 7
  | .publish _ => c.a 1
  | .coll => c.a 5
  | .halo => c.a 8

/-- The command moves as a CPYX (R298, R299). -/
def Cmd.tile (c : Cmd) : Bool :=
  match c.kind with
  | .cpyx => true
  | .cpym _ _ _ _ _ => bit (c.a 2) 63
  | .cpy | .publish _ | .coll | .halo => false

/-- CPY block (R297). -/
def Cmd.dims (c : Cmd) : Nat := bits (c.a 2) 57 56
def Cmd.xBytes (c : Cmd) : Nat := bits (c.a 2) 23 0 + 1
def Cmd.yCount (c : Cmd) : Nat := bits (c.a 2) 39 24 + 1
def Cmd.zCount (c : Cmd) : Nat := bits (c.a 2) 55 40 + 1
def Cmd.feMode (c : Cmd) : Nat := if c.tile then 0 else bits (c.a 2) 59 58
def Cmd.srcScratch (c : Cmd) : Bool := !c.tile && bit (c.a 2) 60
def Cmd.dstScratch (c : Cmd) : Bool := c.tile || bit (c.a 2) 61
/-- A stride of a used dimension; 0 else. -/
def Cmd.stride (c : Cmd) (i dim : Nat) : Int := if dim ≤ c.dims then (c.a i).toInt else 0

/-- CPYX block (R298). -/
def Cmd.layout (c : Cmd) : Nat := bits (c.a 2) 39 36
def Cmd.ty (c : Cmd) : TyCode := (TyCode.ofCode (BitVec.ofNat 4 (bits (c.a 2) 35 32))).getD .s8
def Cmd.cols (c : Cmd) : Nat := bits (c.a 2) 26 16
def Cmd.rows (c : Cmd) : Nat := bits (c.a 2) 10 0
/-- Rows of the step shape that a tile is padded to: 16 for an operand A, 32 for B. The matrix command of a CPYM says which it copies;
for any other tile it is free (R283, R306; notes/assumptions/25). -/
def Cmd.rowStep (c : Cmd) : Nat :=
  let free := if Config.tileOperand (c.a 1) (c.a 2) = 0 then 16 else 32
  match c.kind with
  | .cpym _ a0 _ _ _ => if bits (c.a 1) 22 0 = bits a0 45 23 then 32 else if bits (c.a 1) 22 0 = bits a0 22 0 then 16 else free
  | .cpy | .cpyx | .publish _ | .coll | .halo => free
/-- The padded tile: rows up to the step shape, columns up to the K-depth (R283). -/
def Cmd.rowsP (c : Cmd) : Nat := up c.rowStep c.rows
def Cmd.colsP (c : Cmd) : Nat := up (kDepth c.ty) c.cols
def Cmd.rowLen (c : Cmd) : Nat := c.colsP * (TyCode.width c.ty) / 8
def Cmd.elemLen (c : Cmd) : Nat := c.rowsP * c.rowLen
def Cmd.scaleLen (c : Cmd) : Nat := if c.layout = 3 then c.rowsP * c.colsP / 8 else 0
def Cmd.bandLen (c : Cmd) : Nat := if c.layout = 3 then 2 * ((c.rowsP + 63) / 64) else 0

/-- COLL block (R301). -/
def Cmd.rank (c : Cmd) : Nat := bits (c.a 2) 55 40
def Cmd.cOp (c : Cmd) : Nat := bits (c.a 2) 39 38
def Cmd.cKind (c : Cmd) : Nat := bits (c.a 2) 37 36
def Cmd.cTy (c : Cmd) : TyCode := (TyCode.ofCode (BitVec.ofNat 4 (bits (c.a 2) 35 32))).getD .s8
def Cmd.count (c : Cmd) : Nat := bits (c.a 2) 31 0
def Cmd.eBytes (c : Cmd) : Nat := (TyCode.width c.cTy) / 8
/-- Bytes of n elements, nibble types packed (R42). -/
def Cmd.eSpan (c : Cmd) (n : Nat) : Nat := (n * TyCode.width c.cTy + 7) / 8
def Cmd.groupVa (c : Cmd) : Word := match c.kind with
  | .halo => c.a 2
  | _ => c.a 3
def Cmd.instNo (c : Cmd) : Nat := match c.kind with
  | .halo => bits (c.a 3) 31 0
  | _ => bits (c.a 4) 31 0

/-- HALO block (R303). -/
def Cmd.hAcc (c : Cmd) : Bool := bit (c.a 1) 54
def Cmd.hTy (c : Cmd) : Nat := bits (c.a 1) 63 60
def Cmd.h (c : Cmd) : Nat := bits (c.a 1) 53 50
def Cmd.hSize (c : Cmd) : Nat := 2 ^ bits (c.a 1) 49 48
/-- Interior extent of dimension 0 (x), 1 (y) or 2 (z). -/
def Cmd.ext (c : Cmd) (d : Nat) : Nat := bits (c.a 1) (16 * d + 15) (16 * d)
/-- The neighbour of face f: 0 −x, 1 +x, 2 −y, 3 +y, 4 −z, 5 +z; none for 0xFFFFFFFF. -/
def Cmd.face (c : Cmd) (f : Nat) : Option Nat :=
  let v := bits (c.a (4 + f / 2)) (32 * (f % 2) + 31) (32 * (f % 2))
  if v = 0xFFFFFFFF then none else some v

/-! ## The group descriptor (R302) -/

/-- The ranks and the packages of a ring that a descriptor's words announce; none for a bad one (R302). -/
def groupCounts (d : List Word) : Option (Nat × Nat) :=
  if bits (wordAt d 0) 15 0 = 0 ∨ bits (wordAt d 0) 63 26 ≠ 0 ∨ (d.drop 3).any (· != 0) then none
  else some (bits (wordAt d 0) 15 0, bits (wordAt d 0) 25 16 + 1)

/-- The group that a rank table and a ring table give; none for a bad one (R302). -/
def groupOf (rt gt : List Word) : Option GroupView :=
  let ids := rt.map fun w => bits w 9 0
  let ring := gt.map fun w => bits w 9 0
  if (rt ++ gt).any (fun w => bits w 63 10 != 0) || !decide (ring.Nodup) || ids.any (fun i => !ring.contains i) || ring.any (fun i => !ids.contains i) then none
  else some { ranks := ids, ring := ring }

/-- The copies of what an engine accesses: under NC every L1 gives the line up (R225), and a read shares it (R223). -/
def State.engCaches (s : State) (a : Access) (n : Nat) (wr : Bool) : State :=
  let s1 := if a.policy = 1 then s.l1Out (s.paNow a / 256) else s
  if wr then s1 else s1.agentRead (s.paNow a) n

/-- This package's fabric ID (R408). -/
def State.fabricId (s : State) : Nat := bits (s.reg (Off.fb 0)) 9 0

/-! ## Byte counts -/

/-- The rank count of a collective's group: as it was read, or, of a command that ended before that, as its descriptor holds it; free where
that cannot be read (R277, R302; notes/assumptions/69). -/
def State.rankCount (s : State) (c : Cmd) : Nat :=
  let free := (Config.unstated s.draws 277).toNat % 65535 + 1
  match c.grp with
  | some g => g.ranks.length
  | none =>
    match s.accessFor (Agent.engine c.engine) c.ctx c.groupVa 8 .read with
    | .ok a => if bits (s.readPa none a.key (s.paNow a) 8) 15 0 = 0 then free else bits (s.readPa none a.key (s.paNow a) 8) 15 0
    | .error _ => free

/-- Cells of a dimension that a slab of a later one covers: the interior, and the ghost layers behind faces that have a neighbour (R288,
R303). -/
def Cmd.cover (c : Cmd) (d : Nat) : List Nat :=
  (if (c.face (2 * d)).isSome then List.range c.h else []) ++ (List.range (c.ext d)).map (c.h + ·) ++
    if (c.face (2 * d + 1)).isSome then (List.range c.h).map (c.ext d + c.h + ·) else []

/-- Bytes that the command is to write: what its ABORT delivery counts (R277). -/
def State.cmdBytes (s : State) (c : Cmd) : Nat :=
  match c.kind with
  | .publish _ => 0
  | .coll =>
    (match c.cKind with
      | 0 => c.eSpan c.count
      | 1 => c.eSpan (c.count / s.rankCount c)
      | 2 => c.eSpan (s.rankCount c * c.count)
      | _ => 0)
  | .halo =>
    let n := fun f => if (c.face f).isSome then 1 else 0
    c.hSize * c.h * ((n 0 + n 1) * c.ext 1 * c.ext 2 + (n 2 + n 3) * (c.cover 0).length * c.ext 2 + (n 4 + n 5) * (c.cover 0).length * (c.cover 1).length)
  | .cpy | .cpyx | .cpym _ _ _ _ _ =>
    if c.tile then c.elemLen + c.scaleLen + c.bandLen else c.xBytes * c.yCount * c.zCount

/-! ## Checks at acceptance (R294) -/

/-- Reserved bits of a scratchpad endpoint (R296). -/
def endpointBad (w : Word) : Bool := bits w 63 36 != 0 || bits w 31 23 != 0

/-- A stride lies in its range. -/
def strideOk (w : Word) : Bool := decide (-(2 ^ 39) ≤ w.toInt) && decide (w.toInt ≤ 2 ^ 39 - 1)

def Cmd.reservedBad (c : Cmd) : Bool :=
  bits c.comp 63 61 != 0 ||
  (match c.kind with
    | .cpy | .cpyx | .cpym _ _ _ _ _ =>
      (match c.kind with
        | .cpym _ _ _ _ _ => false
        | _ => bit (c.a 2) 63) ||
      (if c.tile then bits (c.a 2) 62 40 != 0 || bits (c.a 2) 31 27 != 0 || bits (c.a 2) 15 11 != 0 || endpointBad (c.a 1) ||
          (c.layout != 3 && (c.a 4 != 0 || c.a 5 != 0 || c.a 6 != 0))
       else bit (c.a 2) 62 || (c.srcScratch && endpointBad (c.a 0)) || (c.dstScratch && endpointBad (c.a 1)))
    | .publish _ => false
    | .coll => bits (c.a 2) 63 56 != 0 || bits (c.a 4) 63 32 != 0
    | .halo => bits (c.a 1) 59 55 != 0 || bits (c.a 3) 63 32 != 0 || c.a 7 != 0)

def Cmd.shapeBad (c : Cmd) : Bool :=
  match c.kind with
  | .cpy | .cpyx | .cpym _ _ _ _ _ =>
    if c.tile then c.rows == 0 || c.cols == 0 || decide (1024 < c.rows) || decide (1024 < c.cols) || !strideOk (c.a 3) || (c.layout == 3 && !strideOk (c.a 6))
    else c.dims == 0 || (c.dims != 3 && c.zCount != 1) || (c.dims == 1 && c.yCount != 1) ||
      (decide (2 ≤ c.dims) && (!strideOk (c.a 3) || !strideOk (c.a 5))) || (decide (3 ≤ c.dims) && (!strideOk (c.a 4) || !strideOk (c.a 6))) ||
      decide (2 ^ 47 ≤ c.xBytes * c.yCount * c.zCount) ||
      (match c.kind with
        | .cpym _ _ _ _ _ => !c.dstScratch
        | _ => false)
  | .publish _ => false
  | .coll => c.count == 0
  | .halo => c.h == 0 || decide (8 < c.h) || [0, 1, 2].any (fun d => c.ext d == 0 || decide (c.ext d < c.h)) || (c.a 0).toNat % c.hSize != 0

/-- Type codes that a reduction takes (R301, R303). -/
def reduceTy (ty : TyCode) : Bool := ty == .s64 || ty == .n64 || ty == .d || ty == .f

def Cmd.formatBad (c : Cmd) : Bool :=
  match c.kind with
  | .cpy | .cpyx | .cpym _ _ _ _ _ => c.tile && (decide (4 ≤ c.layout) || (c.layout == 3 && c.ty != .e2m1))
  | .publish _ => false
  | .coll =>
    c.cOp == 3 || c.cKind == 3 ||
    (if c.cKind = 2 then c.cOp != 0 else !reduceTy c.cTy || (c.cOp != 0 && c.cTy != .d && c.cTy != .f))
  | .halo =>
    if c.hAcc then
      match TyCode.ofCode (BitVec.ofNat 4 c.hTy) with
      | some ty => !reduceTy ty || TyCode.width ty != 8 * c.hSize
      | none => true
    else c.hTy != 0

/-- A full/empty mode that alignment or endpoints do not allow (R280). -/
def Cmd.modeBad (c : Cmd) : Bool :=
  match c.kind with
  | .cpy | .cpyx | .cpym _ _ _ _ _ =>
    c.feMode != 0 &&
    (c.dstScratch || (c.a 1).toNat % 8 != 0 || c.xBytes % 8 != 0 || c.stride 5 2 % 8 != 0 || c.stride 6 3 % 8 != 0 ||
      (c.feMode == 1 && (c.srcScratch || (c.a 0).toNat % 8 != 0 || c.stride 3 2 % 8 != 0 || c.stride 4 3 % 8 != 0)))
  | .publish _ | .coll | .halo => false

/-- The matrix image is refused (R299). -/
def Cmd.imageBad (c : Cmd) : Bool :=
  match c.kind with
  | .cpym _ _ _ _ bad => bad
  | _ => false

/-- The code for a descriptor address that is not a multiple of 64, a field limit of PUBLISH, COLL and HALO; 0 for a good one (R300-R303). -/
def Cmd.descCode (c : Cmd) : Nat :=
  match c.kind with
  | .publish _ => if (c.a 0).toNat % 64 = 0 then 0 else 0x12
  | .coll | .halo => if c.groupVa.toNat % 64 = 0 then 0 else 0x0F
  | .cpy | .cpyx | .cpym _ _ _ _ _ => 0

/-- The checks at acceptance in the order of R294: the code of the first that fails, else 0. -/
def Cmd.check (c : Cmd) : Nat :=
  if c.reservedBad then 0x14
  else if c.shapeBad then 2
  else if c.descCode ≠ 0 then c.descCode
  else if c.formatBad then 1
  else if c.imageBad then 0x10
  else if c.modeBad then 7
  else if c.creditBad then 8
  else if bits c.comp 2 0 ≠ 0 ∨ 6 ≤ bits c.comp 59 57 then 0x14
  else 0

/-! ## Acceptance (R271, R279, R293) -/

/-- The instance of a collective or halo command: its group's address in its context, and its number (R302). -/
def Cmd.instKey (c : Cmd) : Nat := c.groupVa.toNat * 1024 + c.ctx

/-- A command ends with an error code at an address. -/
def Cmd.fail (c : Cmd) (code : Nat) (va : Word) : Cmd := { c with done := true, err := code, errAddr := va }

/-- The command is a HALO. -/
def Cmd.isHalo (c : Cmd) : Bool :=
  match c.kind with
  | .halo => true
  | .cpy | .cpyx | .cpym _ _ _ _ _ | .publish _ | .coll => false

/-- The slots of a command's instance: an instance is of one kind (R285, R302). -/
def State.slotsOf (s : State) (c : Cmd) : List CollSlot :=
  s.colls.filter fun x => x.group == c.instKey && x.inst == c.instNo && x.halo == c.isHalo

/-- The ranks of a group on this package. -/
def State.localRanks (s : State) (g : GroupView) : List Nat := (List.range g.ranks.length).filter fun j => g.ranks.getD j 1024 == s.fabricId

/-- A command fails at acceptance: it stores no completion word (R294). -/
def Cmd.refuse (c : Cmd) (code : Nat) : Cmd := { c.fail code 0 with stage := 1 }

/-- The error with which the instance of a command has ended (R287). -/
def State.instErr (s : State) (c : Cmd) : Nat := ((s.slotsOf c).find? fun x => x.err != 0).elim 0 (·.err)

/-- A rank's command takes its slot in its instance. -/
def State.takeRank (s : State) (id : Nat) (c : Cmd) (rank : Option Nat) (err : Nat) : State :=
  { s with colls := s.colls ++ [{ group := c.instKey, inst := c.instNo, halo := c.isHalo, rank := rank, cmd := id, err := err }] }

/-- The instance of a command ends with a code: at every rank that has issued, and at every rank that does later (R287). -/
def State.breakInst (s : State) (c : Cmd) (code : Nat) : State :=
  let mine := s.slotsOf c
  let s1 := { s with colls := s.colls.map fun x => if mine.contains x then { x with err := if x.err = 0 then code else x.err } else x }
  (mine.map (·.cmd)).foldl (fun (x : State) j => x.updCmd j fun d => if d.done then d else d.fail code 0) s1

/-- A COLL takes its rank's slot; a rank out of range or given twice, or a disagreement, ends the instance's commands, and so does a rank
that comes after that; a HALO takes one of the slots of this package's ranks (R287, R302; notes/assumptions/26, 27). -/
def State.enrol (s : State) (id : Nat) (c : Cmd) (g : GroupView) : State :=
  let mine := s.slotsOf c
  if c.isHalo then
    if (s.localRanks g).length ≤ mine.length then s.updCmd id fun d => d.refuse 0x0E else s.takeRank id c none 0
  else
    let clash := fun (x : CollSlot) => (s.cmds.find x.cmd).any fun d =>
      d.cKind != c.cKind || d.cTy != c.cTy || d.cOp != c.cOp || d.count != c.count || d.grp.map (·.ranks.length) != some g.ranks.length
    if g.ranks.length ≤ c.rank then ((s.breakInst c 0x0E).takeRank id c none 0x0E).updCmd id fun d => d.refuse 0x0E
    else if mine.any (fun x => x.rank == some c.rank) then (s.breakInst c 0x0E).updCmd id fun d => d.refuse 0x0E
    else if s.instErr c ≠ 0 then (s.takeRank id c (some c.rank) (s.instErr c)).updCmd id fun d => d.refuse (s.instErr c)
    else if mine.any clash then ((s.breakInst c 0x0D).takeRank id c (some c.rank) 0x0D).updCmd id fun d => d.refuse 0x0D
    else s.takeRank id c (some c.rank) 0

/-- The command hands a matrix command over (R284). -/
def CmdKind.handsOver : CmdKind → Bool
  | .cpym _ _ _ _ _ => true
  | .cpy | .cpyx | .publish _ | .coll | .halo => false

/-- The command is of a group, whose descriptor its engine reads first (R302). -/
def CmdKind.grouped : CmdKind → Bool
  | .coll | .halo => true
  | .cpy | .cpyx | .cpym _ _ _ _ _ | .publish _ => false

/-- The engine takes the command and checks it (R294). -/
def State.accept (s : State) (id : Nat) (c : Cmd) : State :=
  let s0 := c.recv.foldl (fun (x : State) k => x.closeIdem k) s
  let c1 := if c.check = 0 then c else c.refuse c.check
  (({ s0 with cmds := s0.cmds.put id c1, nextSeq := id + 1 } : State).depthReg c.engine).syncOn c.recv c.sync id

/-- The issue is a release: the command reads after its issuer's earlier accesses, and after what its issuer's earlier acquires bring
(R241, R293). -/
def State.issuerDone (s : State) (id : Nat) (c : Cmd) : Bool :=
  s.ops.all fun e => !(decide (e.1 < id) && e.2.recv.any (c.recv.contains ·) && (e.2.kind.touches || e.2.ord.acq))

/-- The writes on their way that a command's issue covers: it is a release at .sys (R237, R241). -/
def State.issuePast (s : State) (k : Nat) (recv : List Nat) : List Nat := (s.hbPast recv (some s.nextSeq) ++ s.clock (dieOf k)).dedup

/-- The issue of a command (R271, R291-R293): held while its engine is full. The registers `reads` are compared and looked at for
marks here; CPYM sees to its own. -/
def State.command (s : State) (c : Ctl) (ord : Bool) (eng : EngSel) (hwd : Bool) (credit : Option BarRef) (n vd va : Nat) (extra reads : List Nat)
    (kind : Thread → List Nat → Except FaultInfo CmdKind) : State :=
  let blk := (List.range n).map (va + ·)
  s.runGang (issue64 c) (vd :: (extra ++ blk)) reads true fun s l recv =>
    let t := s.thr l
    match kind t recv with
    | .error f => .error f
    | .ok k =>
      let e := if hwd then 17 else s.pickEngine (dieOf l) eng
      let b := s.blocks.find t.blk
      let home := credit.bind fun r => s.barHome t r
      let cmd : Cmd :=
        { engine := e, kind := k, thr := l, recv := recv, ctx := s.ctxOf t, die := dieOf l, launch := b.elim 0 (·.launch), grove := b.elim 0 (·.grove), blkId := t.blk
          pc := t.pc, regs := blk.map t.reg, credit := home, creditBad := credit.isSome && home.isNone, token := vd, flag := (issue64 c).flag
          sync := (issue64 c).flag.isNone, ordered := ord
          past := s.issuePast l recv, handed := !k.handsOver
          after := if ord then (s.cmds.filter fun x => x.2.recv.any (recv.contains ·)).map (·.1) else [] }
      .ok (if engLimit e ≤ s.engDepth e then s.holdAt recv else s.accept s.nextSeq cmd)

/-- A run of n registers from va on. -/
def regRun (va : Reg) (n : Nat) : List Nat := (List.range n).map (va.toNat + ·)

/-- CPY (R297). -/
def execCpy (c : Ctl) (ord : Bool) (eng : EngSel) (credit : Option BarRef) (vd va : Reg) (s : State) : Out :=
  .next (s.command c ord eng false credit 8 vd.toNat va.toNat [] (regRun va 8) fun _ _ => .ok .cpy)

/-- CPYX (R298). -/
def execCpyx (c : Ctl) (ord : Bool) (eng : EngSel) (credit : Option BarRef) (vd va : Reg) (s : State) : Out :=
  .next (s.command c ord eng false credit 8 vd.toNat va.toNat [] (regRun va 8) fun _ _ => .ok .cpyx)

/-- The fields of a matrix image: control, format, gather, perm, energy, barrier, token register, operand block; none for
any other word (R299). -/
def matrixImage (w : Word) : Option (Ctl × TyCode × Bool × Bool × Nat × Option BarRef × Nat × Nat) :=
  match decodeTableWord 64 w.toNat with
  | some (.mma c en fmt bar vd va) => some (c, fmt, false, false, en.toNat, bar, vd.toNat, va.toNat)
  | some (.mmag c en fmt bar vd va) => some (c, fmt, true, false, en.toNat, bar, vd.toNat, va.toNat)
  | some (.mmaq c en fmt bar vd va) => some (c, fmt, false, true, en.toNat, bar, vd.toNat, va.toNat)
  | _ => none

/-- The image's conditions (R299). -/
def State.imageOk (s : State) (t : Thread) (w : Word) : Bool :=
  match matrixImage w with
  | none => false
  | some (c, _, _, _, _, bar, vd, va) =>
    c.wait == 0 && c.set == 15 && c.guard == 7 && !c.neg && c.stall == 0 && !c.uniform && decide (vd < t.n) && decide (va + 2 < t.n) &&
    !bar.any fun b => (s.barHome t b).isNone

/-- CPYM: the image and the registers that it names are read at issue with the block: all of them are compared under UCHECK, and the
lowest marked one is reported (R162, R299, R357). -/
def execCpym (c : Ctl) (ord : Bool) (eng : EngSel) (credit : Option BarRef) (vd va vb : Reg) (s : State) : Out :=
  .next (s.command c ord eng false credit 8 vd.toNat va.toNat [vb.toNat] [] fun t recv =>
    let w := t.reg vb.toNat
    let named := (matrixImage w).elim [] fun m => [m.2.2.2.2.2.2.2, m.2.2.2.2.2.2.2 + 1, m.2.2.2.2.2.2.2 + 2]
    let reads := vb.toNat :: (regRun va 8 ++ named)
    let diff := if c.uniform && recv.any (fun k => bit (s.c0Of (s.thr k)) 1) then differing s recv reads else []
    if !diff.isEmpty then .error { cause := .uniform, lanes := some (laneMask diff) } else
    match asyncFault t reads with
    | some f => .error { f with reader := recv.head? }
    | none =>
      let img := fun i => (named[i]?).elim 0 t.reg
      .ok (.cpym w (img 0) (img 1) (img 2) (!s.imageOk t w)))

/-- PUBLISH (R300). -/
def execPublish (c : Ctl) (ord : Bool) (sys : Bool) (credit : Option BarRef) (vd va : Reg) (s : State) : Out :=
  .next (s.command c ord .near true credit 2 vd.toNat va.toNat [] (regRun va 2) fun _ _ => .ok (.publish sys))

/-- COLL (R301). -/
def execColl (c : Ctl) (ord : Bool) (eng : EngSel) (credit : Option BarRef) (vd va : Reg) (s : State) : Out :=
  .next (s.command c ord eng false credit 6 vd.toNat va.toNat [] (regRun va 6) fun _ _ => .ok .coll)

/-- HALO (R303). -/
def execHalo (c : Ctl) (ord : Bool) (eng : EngSel) (credit : Option BarRef) (vd va : Reg) (s : State) : Out :=
  .next (s.command c ord eng false credit 9 vd.toNat va.toNat [] (regRun va 9) fun _ _ => .ok .halo)

/-- EQRY: a snapshot of an engine's depth (R304). -/
def execEqry (c : Ctl) (eng : QrySel) (vd : Reg) (s : State) : Out :=
  let q := issue64 c
  .next (s.runGang q [vd.toNat] [] true fun s l recv =>
    let e := match eng with
      | .ce n => n.toNat
      | .near => s.nearEngine (dieOf l)
      | .heartwood => 17
    .ok (s.startOp q q.flag.isNone {} l recv (0, some 32) (.result [.reg vd.toNat (pack [(e, 8), (s.engDepth e, 0)]) none])))

/-- ENGINE_ACCEPT: a held command issues once its engine has a free entry (R271). -/
def execEngineAccept (thr : Nat) (s : State) : Out :=
  match s.heldBy thr with
  | some (s1, .cpy c ord eng credit vd va) => execCpy c ord eng credit vd va s1
  | some (s1, .cpyx c ord eng credit vd va) => execCpyx c ord eng credit vd va s1
  | some (s1, .cpym c ord eng credit vd va vb) => execCpym c ord eng credit vd va vb s1
  | some (s1, .publish c ord sys credit vd va) => execPublish c ord sys credit vd va s1
  | some (s1, .coll c ord eng credit vd va) => execColl c ord eng credit vd va s1
  | some (s1, .halo c ord eng credit vd va) => execHalo c ord eng credit vd va s1
  | _ => .next (s.heldDue thr)

/-! ## The accesses of an engine (R274, R280, R289) -/

/-- What one access of an engine came to: it goes on, it ends the command with a code, or it must be tried again. -/
inductive Eng (α : Type) where
  | ok (s : State) (v : α)
  | err (s : State) (code : Nat) (va : Word)
  | wait (s : State)

def Eng.bind {α β : Type} (x : Eng α) (f : State → α → Eng β) : Eng β :=
  match x with
  | .ok s v => f s v
  | .err s c va => .err s c va
  | .wait s => .wait s

/-- One by one over a list: an error stops it, and one that must wait leaves the others to go on (R289). -/
def engAll {α β : Type} (f : State → α → Eng β) : State → List α → Eng (List β)
  | s, [] => .ok s []
  | s, x :: t =>
    match f s x with
    | .ok s1 v => (engAll f s1 t).bind fun s2 vs => .ok s2 (v :: vs)
    | .err s1 c va => .err s1 c va
    | .wait s1 =>
      match engAll f s1 t with
      | .ok s2 _ => .wait s2
      | .err s2 c va => .err s2 c va
      | .wait s2 => .wait s2

/-- The record of a refused access of the command, or of the checkpoint block (R289, R410). -/
def State.refusal (s : State) (id key : Nat) : Option (Nat × Nat) :=
  if id = ckId then s.ck.refused.find key else (s.cmds.find id).bind fun c => c.refused.find key

/-- A change of those records. -/
def State.setRefused (s : State) (id : Nat) (f : Tbl (Nat × Nat) → Tbl (Nat × Nat)) : State :=
  if id = ckId then { s with ck := { s.ck with refused := f s.ck.refused } } else s.updCmd id fun x => { x with refused := f x.refused }

/-- A refused access of the command waits for its hint. -/
def State.hintLeft (s : State) (id key : Nat) : Bool := (s.refusal id key).any fun r => decide (s.ptp < r.2)

/-- A peer's refusal of an engine access: counted, re-sent after the hint, and an error at CE_RETRY_MAX; the command's other
accesses go on (R289, R290). -/
def State.engRefused {α : Type} (s : State) (id : Nat) (c : Cmd) (key : Nat) (va : Word) (hint : Nat) : Eng α :=
  let s1 := s.bumpReg (Off.ce c.engine 0x20)
  let lim := bits (s.reg (Off.ce c.engine 0)) 15 0
  let n := (s.refusal id key).elim 1 (·.1 + 1)
  if lim ≠ 0 ∧ lim ≤ n then .err s1 0x0C va
  else .wait (s1.setRefused id fun t => t.put key (n, s.ptp + 1000 * hint))

/-- One access that an engine sends to package f: a package that is down refuses it, and one that is up accepts it, refuses it with its hint, or
answers with a fault of its own translation; `ans` is the target's (R289, R410, R416; notes/assumptions/7). -/
def State.peerSend (s : State) (id : Nat) (c : Cmd) (key : Nat) (va : Word) (f ans : Nat) : Eng Unit :=
  if s.hintLeft id key then .wait s
  else if s.peerDown f then s.engRefused id c key va 1000
  else match ans % 4 with
    | 2 => s.engRefused id c key va (1 + ans / 4 % 4095)
    | 3 => .err s (if ans / 4 % 2 = 0 then 3 else 4) va
    | _ => .ok (s.setRefused id fun t => t.del key) ()

/-- What a peer answers to an engine's access. -/
def State.peerAns (s : State) (key : Nat) : Nat := Config.peerPart s.draws (2 ^ 20) key

/-- A command that a switch held on a page has made its access there (R262, R266). -/
def State.replayed (s : State) (id pa : Nat) : State :=
  { s with replay := s.replay.map fun (r : Replay) => if r.frame = pa / 65536 * 65536 then { r with ops := r.ops.erase id } else r }

/-- A write through the working view makes its page OWNED: by the copy that Heartwood runs, or, for a step that is one
action, at once (R262). -/
def State.engOwn (s : State) (id : Nat) (c : Cmd) (a : Access) (whole : Bool) (va : Word) : Eng Access :=
  match a.vrec with
  | none => .ok s a
  | some r =>
    if whole then (match s.ownNow c.ctx a with
      | .ok s1 => .ok s1 a
      | .wait => .wait s
      | .noFrame => .err s 0x0B va)
    else if s.owned? r then .ok s a
    else if !s.metaFree (s.regionOf r) r then .wait s
    else match s.cowStart r a.key id with
      | some s1 => .wait s1
      | none => if s.sweeps.contains (s.regionOf r) then .wait s else .err s 0x0B va

/-- One access of a command, of n bytes within an aligned word, at a virtual address; fe says that the mode needs device memory.
A write to a peer takes the package's copy of its line with it when it is sent, and a read finds what the peer has stored there (R246, R274,
R280, R289, R413, R414). -/
def State.engAccess (s : State) (id : Nat) (c : Cmd) (va : Word) (n : Nat) (need : Need) (fe whole : Bool) : Eng Access :=
  let wr := decide (need = .write)
  match s.accessFor (Agent.engine c.engine) c.ctx va 1 need with
  | .error (.fault .perm) => .err s 4 va
  | .error .away => .err (s.residency c.past (Agent.engine c.engine).die c.ctx va.toNat) 5 va
  | .error (.fault _) => .err s 3 va
  | .ok a =>
    let pa := s.paNow a
    if fe && !isDevice pa then .err s 7 va
    else if s.pageHeld a then .wait (s.queueOn id pa)
    else if !s.replayFreeFor id pa || !s.homeFree pa n then .wait s
    else if isPeer pa then
      ((if wr then s.dropPeerCopy pa else s).peerSend id c va.toNat va (pa / 2 ^ 40 % 1024) (s.peerAns va.toNat)).bind fun s1 _ => .ok (if wr then s1 else s1.outsideStore pa n) a
    else if wr && !s.leaseFreeFor (some id) pa then .wait (s.holdWrite id pa)
    else if wr then (s.engOwn id c a whole va).bind fun s1 b => .ok ((s1.engCaches b n true).replayed id (s1.paNow b)) b
    else if s.badMem.contains (pa / 64) then .err s 0x13 va
    else .ok ((s.engCaches a n false).replayed id pa) a

/-- The pieces of n bytes from address a on that lie within one aligned word each, as offset and length. -/
def chunks (a n : Nat) : List (Nat × Nat) :=
  if n = 0 then [] else (List.range ((a + n - 1) / 8 - a / 8 + 1)).map fun i =>
    (max a (8 * (a / 8 + i)) - a, min (a + n) (8 * (a / 8 + i + 1)) - max a (8 * (a / 8 + i)))

/-- n bytes read at a virtual address, each aligned word of them once (R280). -/
def State.engRead (s : State) (id : Nat) (c : Cmd) (va : Word) (fe : Bool) (n : Nat) : Eng (List Byte) :=
  (engAll (fun s x => (s.engAccess id c (va + BitVec.ofNat 64 x.1) x.2 .read fe false).bind fun s1 a => .ok s1 (s1.bytesAt none a.key (s1.paNow a) x.2))
    s (chunks va.toNat n)).bind fun s1 bs => .ok s1 bs.flatten

/-- The writer of a command's writes (R237, R241). -/
def cmdWriter (id : Nat) (c : Cmd) : Writer := { thrs := [cmdTag id], past := c.past }

/-- Bytes within one aligned word written at a virtual address as one write, under a full/empty mode; sbit is the source word's
bit (R280). -/
def State.engWrite (s : State) (id : Nat) (c : Cmd) (va : Word) (bs : List Byte) (mode : Nat) (sbit : Bool) (whole : Bool) : Eng Unit :=
  (s.engAccess id c va bs.length .write (mode != 0) whole).bind fun s1 a =>
    let pa := s1.paNow a
    if mode = 0 then .ok ((s1.classAgentWrite pa).writePa (cmdWriter id c) a.key pa bs none) ()
    else .ok ((s1.classAgentWrite pa).writeWordFe (cmdWriter id c) a.key pa (some (BitVec.ofNat 64 (ofLe bs)))
      (if mode = 1 then sbit else mode == 2)) ()

/-- The bit of the source word, which COPY moves (R280). -/
def State.engBit (s : State) (id : Nat) (c : Cmd) (va : Word) : Eng Bool :=
  (s.engAccess id c va 8 .read true false).bind fun s1 a => .ok s1 (s1.full (s1.paNow a))

/-- The command's grove stands in a save image. -/
def State.groveSaved (s : State) (c : Cmd) : Bool := s.levelSaved (.grove c.grove 0)

/-- The block of a scratchpad endpoint, with the page of the access refilled when it is ABSENT (R215, R274). The access to a
saved block's scratchpad waits for its restore (R215, R290). -/
def State.engSpad (s : State) (c : Cmd) (w : Word) (off : Int) (n : Nat) : Eng (Nat × Nat) :=
  if s.groveSaved c then .wait s else
  match s.groveBlock c.grove (bits w 35 32) with
  | none => .err s 6 (BitVec.ofInt 64 off)
  | some (b, x) =>
    if !s.blockLive b || decide (off < 0) || decide ((x.scratchBytes : Int) < off + n) then .err s 6 (BitVec.ofInt 64 off)
    else .ok ((s.refillPage b (off.toNat / 16384)).refillPage b ((off.toNat + n - 1) / 16384)) (b, off.toNat)

/-- n bytes read from an endpoint: a scratchpad or memory. -/
def State.endRead (s : State) (id : Nat) (c : Cmd) (scratch : Bool) (w : Word) (off : Int) (n : Nat) : Eng (List Byte) :=
  if scratch then
    (s.engSpad c w ((bits w 22 0 : Nat) + off) n).bind fun s1 x =>
      if (List.range n).any (fun i => s1.badSpad.contains (x.1, (x.2 + i) / 8)) then .err s1 0x13 (BitVec.ofNat 64 x.2)
      else .ok s1 (toLe n (s1.spadAt x.1 x.2 n))
  else s.engRead id c (w + BitVec.ofInt 64 off) (c.feMode == 1) n

/-- Where byte u of a CPY stands from its source and from its destination: row by row, plane by plane (R273). -/
def Cmd.place (c : Cmd) (u sy sz : Nat) : Int :=
  ((u / c.xBytes % c.yCount : Nat) : Int) * c.stride sy 2 + ((u / c.xBytes / c.yCount : Nat) : Int) * c.stride sz 3 + ((u % c.xBytes : Nat) : Int)

/-- The bytes of one aligned word around position x of a run of n that stands at address a: where they begin, and how many. -/
def wordSpan (x n a : Nat) : Nat × Nat :=
  (x - min x (a % 8), min (n - (x - min x (a % 8))) (8 - (a - min x (a % 8)) % 8))

/-- The address of a place at an endpoint. -/
def endAddr (scratch : Bool) (w : Word) (off : Int) : Nat :=
  if scratch then (((bits w 22 0 : Nat) : Int) + off).toNat else (w + BitVec.ofInt 64 off).toNat

/-- The bytes of a CPY that one word of its source holds with byte u. -/
def Cmd.srcSpan (c : Cmd) (u : Nat) : Nat × Nat :=
  let g := wordSpan (u % c.xBytes) c.xBytes (endAddr c.srcScratch (c.a 0) (c.place u 3 4))
  (u - u % c.xBytes + g.1, g.2)

/-- The bytes of a copy that one word of its destination takes with byte u: of a row, or of the canonical tile (R280, R283). -/
def Cmd.dstSpan (c : Cmd) (u total : Nat) : Nat × Nat :=
  if c.tile then wordSpan u total (bits (c.a 1) 22 0 + u)
  else
    let g := wordSpan (u % c.xBytes) c.xBytes (endAddr c.dstScratch (c.a 1) (c.place u 5 6))
    (u - u % c.xBytes + g.1, g.2)

/-- What the command, or the checkpoint block, has read already under a key. -/
def State.held? (s : State) (id key : Nat) : Option (List Byte × Bool) :=
  if id = ckId then s.ck.got.find key else (s.cmds.find id).bind fun c => c.got.find key

/-- What the command reads is kept until it is written. -/
def State.keep (s : State) (id key : Nat) (v : List Byte × Bool) : State :=
  if id = ckId then { s with ck := { s.ck with got := s.ck.got.put key v } } else s.updCmd id fun x => { x with got := x.got.put key v }

/-- The source word of byte u of a CPY, read whole and once, with its bit under COPY (R280). -/
def State.cpySource (s : State) (id : Nat) (c : Cmd) (u : Nat) : Eng (List Byte × Bool) :=
  let g := c.srcSpan u
  match s.held? id g.1 with
  | some v => .ok s v
  | none =>
    (s.endRead id c c.srcScratch (c.a 0) (c.place g.1 3 4) g.2).bind fun s1 bs =>
    ((if c.feMode = 1 then s1.engBit id c (c.a 0 + BitVec.ofInt 64 (c.place g.1 3 4)) else .ok s1 false).bind fun s2 b =>
      .ok (s2.keep id g.1 (bs, b)) (bs, b))

/-- Byte u of a CPY. -/
def State.cpyByte (s : State) (id : Nat) (c : Cmd) (u : Nat) : Eng Byte :=
  (s.cpySource id c u).bind fun s1 v => .ok s1 (v.1.getD (u - (c.srcSpan u).1) 0)

/-- The bit address of element (r, k) in the source layout, and the element's place (R283). -/
def Cmd.elemBit (c : Cmd) (r k : Nat) : Int :=
  let w : Int := (TyCode.width c.ty : Nat)
  let st := (c.a 3).toInt
  match c.layout with
  | 1 => 8 * (st * k) + (r : Int) * w
  | 2 => 8 * (st * (r / 16 : Nat)) + ((k / 16 : Nat) : Int) * 256 * w + ((16 * (r % 16) + k % 16 : Nat) : Int) * w
  | _ => 8 * (st * r) + (k : Int) * w

/-- A part of a canonical byte: the run of its source (a row, a column or a block), the source byte's address, its lowest bit there,
its width, and its lowest bit here. -/
structure TilePart where
  run   : Nat
  addr  : Word
  from_ : Nat
  width : Nat
  into  : Nat
  deriving DecidableEq, Repr

/-- The source parts of element (r, k)'s byte j; none beyond the tile, where padding is zero (R283). -/
def Cmd.elemParts (c : Cmd) (r k j into : Nat) : List TilePart :=
  if c.rows ≤ r ∨ c.cols ≤ k then [] else
  let w := min 8 (TyCode.width c.ty)
  let b := c.elemBit r k
  [{ run := if c.layout = 1 then k else if c.layout = 2 then 64 * (r / 16) + k / 16 else r
     addr := c.a 0 + BitVec.ofInt 64 (b / 8 + j), from_ := (b % 8).toNat, width := w, into := into }]

/-- The source parts of canonical byte u: of elements, of block scales, of band scales (R283, R307). -/
def Cmd.tileParts (c : Cmd) (u : Nat) : List TilePart :=
  if u < c.elemLen then
    let r := u / c.rowLen
    if c.ty = .e2m1 then c.elemParts r (2 * (u % c.rowLen)) 0 0 ++ c.elemParts r (2 * (u % c.rowLen) + 1) 0 4
    else
      let eb := TyCode.width c.ty / 8
      c.elemParts r (u % c.rowLen / eb) (u % c.rowLen % eb) 0
  else if u < c.elemLen + c.scaleLen then
    let i := u - c.elemLen
    let r := i / (c.colsP / 8)
    let k := i % (c.colsP / 8)
    if c.rows ≤ r ∨ c.cols ≤ 8 * k then [] else
      [{ run := 2048 + r, addr := c.a 4 + BitVec.ofInt 64 ((c.a 6).toInt * r + k), from_ := 0, width := 8, into := 0 }]
  else
    let i := u - c.elemLen - c.scaleLen
    if c.rows ≤ 64 * (i / 2) then [] else [{ run := 4096, addr := c.a 5 + BitVec.ofNat 64 i, from_ := 0, width := 8, into := 0 }]

/-- The source byte of a part: its aligned word is read whole and once (R280). -/
def State.tilePart (s : State) (id : Nat) (c : Cmd) (p : TilePart) : Eng Nat :=
  let key := 2 ^ 48 + p.run * 2 ^ 64 + p.addr.toNat / 8
  let part := fun (v : List Byte × Bool) => (v.1.getD (p.addr.toNat % 8) 0).toNat / 2 ^ p.from_ % 2 ^ p.width * 2 ^ p.into
  match s.held? id key with
  | some v => .ok s (part v)
  | none => (s.engAccess id c p.addr 8 .read false false).bind fun s1 a =>
      let v := (s1.bytesAt none a.key (s1.paNow a / 8 * 8) 8, false)
      .ok (s1.keep id key v) (part v)

/-- Canonical byte u of a tile. -/
def State.tileByte (s : State) (id : Nat) (c : Cmd) (u : Nat) : Eng Byte :=
  (engAll (fun s p => s.tilePart id c p) s (c.tileParts u)).bind fun s1 vs => .ok s1 (BitVec.ofNat 8 (vs.foldl (· + ·) 0))

/-- Byte u of a copy. -/
def State.copyByte (s : State) (id : Nat) (c : Cmd) (u : Nat) : Eng Byte := if c.tile then s.tileByte id c u else s.cpyByte id c u

/-- One word of the destination of a copy: what is not yet read of it is read, and it is written as one write (R273, R280, R298). -/
def State.copyWord (s : State) (id : Nat) (c : Cmd) (g : Nat × Nat) : Eng Unit :=
  (engAll (fun s i => s.copyByte id c (g.1 + i)) s (List.range g.2)).bind fun s1 bs =>
    if c.dstScratch then
      (s1.engSpad c (c.a 1) (((bits (c.a 1) 22 0 : Nat) : Int) + (if c.tile then ((g.1 : Nat) : Int) else c.place g.1 5 6)) g.2).bind fun s2 x =>
        .ok (s2.spadWrite x.1 x.2 g.2 (ofLe bs)) ()
    else s1.engWrite id c (c.a 1 + BitVec.ofInt 64 (c.place g.1 5 6)) bs c.feMode (c.feMode == 1 && ((s1.held? id (c.srcSpan g.1).1).map (·.2)).getD false) false

/-- The bytes below `unit` grow over the words that have been written. -/
def Cmd.settle (c : Cmd) : Nat → Cmd
  | 0 => c
  | n + 1 => match c.wrote.find c.unit with
    | some k => { c with unit := c.unit + k, wrote := c.wrote.del c.unit }.settle n
    | none => c

/-- A word has been written; what was read for bytes that all are written is forgotten. -/
def Cmd.advance (c : Cmd) (g : Nat × Nat) : Cmd :=
  let c1 := { c with wrote := c.wrote.put g.1 g.2, bytes := c.bytes + g.2 }.settle (c.wrote.length + 1)
  { c1 with got := c1.got.filter fun e => decide (c1.unit < e.1 + 8) }

/-- The row of the destination that byte u of a copy lies in: where it begins, and its bytes. Of a canonical tile the rows are those of its
elements and of its block scales, and its band scales together (R273, R283). -/
def Cmd.rowAt (c : Cmd) (u : Nat) : Nat × Nat :=
  let row := fun (base n : Nat) => (base + (u - base) / n * n, n)
  if !c.tile then row 0 c.xBytes
  else if u < c.elemLen then row 0 c.rowLen
  else if u < c.elemLen + c.scaleLen then row c.elemLen (c.colsP / 8)
  else (c.elemLen + c.scaleLen, c.bandLen)

/-- How many of the n bytes from a on a copy has written. -/
def Cmd.written (c : Cmd) (a n : Nat) : Nat :=
  (min c.unit (a + n) - a) + c.wrote.foldl (fun m x => m + (min (x.1 + x.2) (a + n) - max x.1 a)) 0

/-- The bytes of a copy that stand neither in a whole row nor in a whole word: an error's count leaves them out (R275). -/
def Cmd.partBytes (c : Cmd) (total : Nat) : Nat :=
  let head := c.dstSpan (c.rowAt c.unit).1 total
  let parts := (c.wrote.filter fun x => decide (x.2 < 8)) ++ if head.1 + head.2 ≤ c.unit ∧ head.2 < 8 then [head] else []
  parts.foldl (fun m x => m + ((List.range x.2).filter fun i => decide (c.written (c.rowAt (x.1 + i)).1 (c.rowAt (x.1 + i)).2 < (c.rowAt (x.1 + i)).2)).length) 0

/-- A copy ends with an error, its count in whole rows and words (R275). -/
def State.failCopy (s : State) (id code : Nat) (va : Word) : State :=
  s.updCmd id fun x => { x.fail code va with bytes := x.bytes - x.partBytes (s.cmdBytes x) }

/-- The word of the destination that a copy takes next: its accesses are unordered among themselves, so which is free (R241). -/
def State.nextWord (s : State) (c : Cmd) (total i : Nat) : Nat × Nat :=
  let g := c.dstSpan (c.unit + s.pick (64 + i) % (total - c.unit)) total
  if (c.wrote.find g.1).isSome then c.dstSpan c.unit total else g

/-- Words of a copy, one after another, until they run out or an access ends it; one that must wait leaves the others to go on. -/
def State.pieces (s : State) (id : Nat) : Nat → State
  | 0 => s
  | n + 1 =>
    match s.cmds.find id with
    | none => s
    | some c =>
      if c.done then s
      else if c.err ≠ 0 ∨ s.cmdBytes c ≤ c.unit then s.updCmd id fun x => { x with done := true, got := [], wrote := [] }
      else
        let g := s.nextWord c (s.cmdBytes c) n
        match s.copyWord id c g with
        | .ok s1 _ => (s1.updCmd id fun x => x.advance g).pieces id n
        | .err s1 code va => s1.failCopy id code va
        | .wait s1 => s1.pieces id n

/-- Source words that a copy reads before it writes them (R241). -/
def State.readAhead (s : State) (id : Nat) : Nat → State
  | 0 => s
  | n + 1 =>
    match s.cmds.find id with
    | none => s
    | some c =>
      if c.done || decide (s.cmdBytes c ≤ c.unit) then s else
      match s.copyByte id c (c.unit + s.pick (8192 + n) % (s.cmdBytes c - c.unit)) with
      | .ok s1 _ => s1.readAhead id n
      | .err s1 code va => s1.failCopy id code va
      | .wait s1 => s1.readAhead id n

/-! ## Collectives (R285-R287, R416) -/

/-- One step of a reduction (R286). -/
def Cmd.reduce (c : Cmd) (a b : Nat) : Nat :=
  match c.cTy with
  | .d => if c.cOp = 0 then fadd .d .rne (Fmt.d.value a) (Fmt.d.value b) else fminmax .d (c.cOp == 2) a b
  | .f => if c.cOp = 0 then fadd .f .rne (Fmt.s.value a) (Fmt.s.value b) else fminmax .f (c.cOp == 2) a b
  | _ => (a + b) % 2 ^ 64

/-- Bytes to be written from a virtual address on, word by word (R280). -/
def wordsAt (va : Word) (bs : List Byte) : List (Word × List Byte) :=
  (chunks va.toNat bs.length).map fun x => (va + BitVec.ofNat 64 x.1, (bs.drop x.1).take x.2)

/-- The members of a collective's or a halo's instance that have started and not ended, by rank. -/
def State.collMembers (s : State) (c : Cmd) : List (Nat × Nat × Cmd) :=
  (s.slotsOf c).filterMap fun x => (s.cmds.find x.cmd).bind fun d => if d.started && !d.done then some (x.rank.getD 65536, x.cmd, d) else none

/-- Items of a buffer of n elements of eb bytes. -/
def items (eb n : Nat) (bs : List Byte) : List Nat := (List.range n).map fun i => ofLe ((bs.drop (i * eb)).take eb)

/-- The reduced elements: the local ranks in ascending order, then the packages in ring order (R62, R286). -/
def State.reduced (s : State) (c : Cmd) (g : GroupView) (bufs : List (List Byte)) : List Nat :=
  let eb := c.eBytes
  let vals := bufs.map fun b => items eb c.count b
  (List.range c.count).map fun e =>
    let own := match vals with
      | [] => 0
      | v :: vs => vs.foldl (fun a w => c.reduce a (w.getD e 0)) (v.getD e 0)
    let parts := g.ring.map fun f => if f = s.fabricId then own else Config.peerPart s.draws f e % 2 ^ (8 * eb)
    match parts with
    | [] => own
    | p :: ps => ps.foldl c.reduce p

/-- The nibbles of some bytes, and bytes of nibbles, two in each; the half of the last byte that no item fills is free (R42;
notes/assumptions/28). -/
def nibblesOf (bs : List Byte) : List Nat := bs.flatMap fun b => [b.toNat % 16, b.toNat / 16]

def pairNibbles (rest : Nat) : List Nat → List Byte
  | [] => []
  | [a] => [BitVec.ofNat 8 (a + 16 * (rest % 16))]
  | a :: b :: t => BitVec.ofNat 8 (a + 16 * b) :: pairNibbles rest t

/-- The bytes that a rank receives: of a nibble type, item by item, two in a byte (R42, R285). -/
def State.collResult (s : State) (c : Cmd) (g : GroupView) (ms : List (Nat × Nat × Cmd)) (bufs : List (List Byte)) (rank : Nat) : List Byte :=
  let eb := c.eBytes
  match c.cKind with
  | 2 =>
    let part := fun j => match (ms.zip bufs).find? (fun x => x.1.1 == j) with
      | some x => x.2
      | none => (List.range (c.eSpan c.count)).map fun i => BitVec.ofNat 8 (Config.peerPart s.draws (1024 + j) i)
    if c.cTy = .e2m1 then
      pairNibbles (BitVec.toNat (Config.unstated s.draws 300)) ((List.range g.ranks.length).flatMap fun j => (nibblesOf (part j)).take c.count)
    else (List.range g.ranks.length).flatMap part
  | 1 => ((s.reduced c g bufs).drop (rank * (c.count / g.ranks.length))).take (c.count / g.ranks.length) |>.flatMap (toLe eb)
  | _ => (s.reduced c g bufs).flatMap (toLe eb)

/-- Where a receive buffer overlaps its send buffer the bytes are free (R301; notes/assumptions/28). -/
def State.freeOverlap (s : State) (c : Cmd) (bs : List Byte) : List Byte :=
  bs.zipIdx.map fun x => if (c.a 1 + BitVec.ofNat 64 x.2 - c.a 0).toNat < c.eSpan c.count then
    (Config.unstated s.draws (2 ^ 40 * (1 + c.rank) + x.2)).setWidth 8 else x.1

/-- A member ends with a code, its count in whole words, and of a round or a result that is written whole all of it (R275). -/
def Cmd.failOuts (c : Cmd) (code : Nat) (va : Word) : Cmd := { c.fail code va with bytes := c.bytes - (if c.outs.isEmpty then 0 else c.part) }

/-- The members end with a code (R287; notes/assumptions/26). -/
def State.endAll (s : State) (ms : List (Nat × Nat × Cmd)) (code : Nat) (va : Word) : State :=
  ms.foldl (fun x m => x.updCmd m.2.1 fun d => d.failOuts code va) s

/-- One access of a member's steps with another package, by package and the address of what is sent: its name among the member's own. -/
def stepKey (f : Nat) (va : Word) : Nat := (f + 1) * 2 ^ 64 + va.toNat

/-- The accesses of a member's steps with other packages, each asked of its package until that accepts it: an access that is refused is sent
again after its hint while the others go on, and it alone is counted (R289, R410, R416; notes/assumptions/7). -/
def State.peerSteps (s : State) (id : Nat) (c : Cmd) (l : List (Nat × Word)) : Eng Unit :=
  (engAll (fun s (x : Nat × Word) =>
    match s.held? id (stepKey x.1 x.2) with
    | some _ => .ok s ()
    | none => (s.peerSend id c (stepKey x.1 x.2) x.2 x.1 (s.peerAns (stepKey x.1 x.2))).bind fun s1 _ => .ok (s1.keep id (stepKey x.1 x.2) ([], false)) ()) s l).bind fun s1 _ => .ok s1 ()

/-- The target has accepted them all. -/
def State.stepsTaken (s : State) (id : Nat) (l : List (Nat × Word)) : Bool := l.all fun x => (s.held? id (stepKey x.1 x.2)).isSome

/-- A member ends alone with the code of an access of its steps with other packages; the rest of its instance ends with that code once its own
are taken (R289, R416; notes/assumptions/26). -/
def State.endMember (s : State) (id : Nat) (c : Cmd) (code : Nat) (va : Word) : State :=
  { s.updCmd id (fun d => d.failOuts code va) with colls := s.colls.map fun x => if x.cmd = id ∨ (x.group == c.instKey && x.inst == c.instNo && x.halo == c.isHalo && !c.isHalo) then { x with err := if x.err = 0 then code else x.err } else x }

/-- n bytes that a member reads for its round: each of its accesses is made once, and kept until the round is computed (R280, R289). -/
def State.partRead (s : State) (id : Nat) (c : Cmd) (va : Word) (n : Nat) : Eng (List Byte) :=
  (engAll (fun s x =>
    let at_ := va + BitVec.ofNat 64 x.1
    match s.held? id at_.toNat with
    | some v => .ok s v.1
    | none => (s.engAccess id c at_ x.2 .read false false).bind fun s1 a =>
      let bs := s1.bytesAt none a.key (s1.paNow a) x.2
      .ok (s1.keep id at_.toNat (bs, false)) bs) s (chunks va.toNat n)).bind fun s1 bs => .ok s1 bs.flatten

/-- Some face of a halo names a rank that p holds of. -/
def Cmd.names (c : Cmd) (p : Nat → Bool) : Bool := (List.range 6).any fun f => (c.face f).any p

/-- The members of an instance that a member exchanges with, directly or through others. -/
def haloReach (l : List (Nat × Nat × Cmd)) : Nat → List (Nat × Nat × Cmd) → List (Nat × Nat × Cmd)
  | 0, near => near
  | n + 1, near => haloReach l n (l.filter fun m => near.any fun x => x.2.1 == m.2.1 || x.2.2.names (· == m.1))

/-- The members that a member runs with: a collective's all, and of a halo those that it exchanges with. -/
def State.memberParty (s : State) (id : Nat) (c : Cmd) : List (Nat × Nat × Cmd) :=
  let all := s.collMembers c
  if c.isHalo then haloReach all all.length (all.filter fun m => m.2.1 == id) else all

/-- Words still to be written by a member of an instance, in any order; an error stops it and ends the instance with the bytes
written before (R241, R275, R287). -/
def State.writeOuts (s : State) (id : Nat) : Nat → State
  | 0 => s
  | n + 1 =>
    match s.cmds.find id with
    | none => s
    | some c =>
      match c.outs[s.pick (64 + n) % c.outs.length]? with
      | none => s
      | some o =>
        match s.engWrite id c o.1 o.2 0 false false with
        | .ok s1 _ => (s1.updCmd id fun x => { x with outs := x.outs.erase o, bytes := x.bytes + o.2.length, part := if x.outs.length ≤ 1 then 0 else x.part + o.2.length % 8 }).writeOuts id n
        | .err s1 code va => s1.endAll (s1.memberParty id c) code va
        | .wait s1 => s1.writeOuts id n

/-- What a collective's member sends to each other package of its group: the words of its send buffer (R285, R416). -/
def State.collSends (s : State) (c : Cmd) (g : GroupView) : List (Nat × Word) :=
  (g.ring.filter (· != s.fabricId)).flatMap fun f => (chunks (c.a 0).toNat (c.eSpan c.count)).map fun x => (f, c.a 0 + BitVec.ofNat 64 x.1)

/-- Whether the commands on the group's other packages agree with those here: 0, or the code with which the instance ends (R287;
notes/assumptions/7). -/
def State.remoteCode (s : State) (remote : Bool) : Nat :=
  if !remote then 0 else match Config.peerPart s.draws (2 ^ 21) 0 % 3 with
    | 1 => 0x0D
    | 2 => 0x0E
    | _ => 0

/-- The instance of a collective runs when every local rank's command has started, each with its steps to other packages taken: every send
buffer is read, and each rank has its result to write. An instance that has ended with an error ends for each member once its own
steps are taken (R285-R287, R289, R416). -/
def State.collRun (s : State) (id : Nat) (c : Cmd) : State :=
  match c.grp with
  | none => s
  | some g =>
    let ms := (s.localRanks g).filterMap fun r => (s.collMembers c).find? fun m => m.1 == r
    match s.peerSteps id c (s.collSends c g) with
    | .err s1 code va => s1.endMember id c code va
    | .wait s0 => (match s0.partRead id c (c.a 0) (c.eSpan c.count) with
      | .ok s1 _ => s1
      | .wait s1 => s1
      | .err s1 code va => s1.endAll ms code va)
    | .ok s0 _ =>
      if s.instErr c ≠ 0 then s0.updCmd id fun d => d.failOuts (s.instErr c) 0
      else match engAll (fun s (m : Nat × Nat × Cmd) => s.partRead m.2.1 m.2.2 (m.2.2.a 0) (c.eSpan c.count)) s0 ms with
        | .wait s1 => s1
        | .err s1 code va => s1.endAll ms code va
        | .ok s1 bufs =>
          if ms.length ≠ (s.localRanks g).length ∨ (ms.all fun m => s1.stepsTaken m.2.1 (s.collSends m.2.2 g)) = false then s1
          else if s.remoteCode (g.ring.any (· != s.fabricId)) ≠ 0 then s1.endAll ms (s.remoteCode true) 0
          else ms.foldl (fun x m => x.updCmd m.2.1 fun d =>
            { d with unit := 1, got := [], outs := wordsAt (m.2.2.a 1) (s.freeOverlap m.2.2 (s.collResult c g ms bufs m.1)) }) s1

/-! ## Halos (R288, R303) -/

/-- The opposite face. -/
def opposite (f : Nat) : Nat := if f % 2 = 0 then f + 1 else f - 1

/-- Every way to give the commands of an instance different local ranks. -/
def labellings : List (Nat × Cmd) → List Nat → List (List (Nat × Nat × Cmd))
  | [], _ => [[]]
  | (id, c) :: t, rs => rs.flatMap fun r => (labellings t (rs.filter (· != r))).map fun l => (r, id, c) :: l

/-- The commands match as their faces say: the named local neighbours name them back, with equal extents on the shared face
and equal mode (R303). -/
def haloMatch (loc : List Nat) (l : List (Nat × Nat × Cmd)) : Bool :=
  l.all fun m => (List.range 6).all fun f =>
    match m.2.2.face f with
    | none => true
    | some j =>
      if loc.contains j then
        match l.find? (fun x => x.1 == j) with
        | none => false
        | some x => x.2.2.face (opposite f) == some m.1 && x.2.2.h == m.2.2.h && x.2.2.hSize == m.2.2.hSize && x.2.2.hAcc == m.2.2.hAcc && x.2.2.hTy == m.2.2.hTy &&
            [0, 1, 2].all fun d => d == f / 2 || x.2.2.ext d == m.2.2.ext d
      else true

/-- Cells of the slab of thickness h that starts at a position of a dimension, over the interior of later dimensions and, of earlier ones,
what `cov` says (R288). -/
def Cmd.slab (c : Cmd) (cov : Nat → List Nat) (d start : Nat) : List (Nat × Nat × Nat) :=
  let range := fun e => if e = d then (List.range c.h).map (start + ·) else if e < d then cov e else (List.range (c.ext e)).map (c.h + ·)
  (range 2).flatMap fun z => (range 1).flatMap fun y => (range 0).map fun x => (x, y, z)

/-- The address of a cell. -/
def Cmd.cell (c : Cmd) (p : Nat × Nat × Nat) : Word :=
  c.a 0 + BitVec.ofNat 64 (c.hSize * (p.1 + (c.ext 0 + 2 * c.h) * (p.2.1 + (c.ext 1 + 2 * c.h) * p.2.2)))

/-- Of the ghost layers of an earlier dimension those that both neighbours have filled: a sender has no others to send, and a face that names none
keeps its own (R288, R303). -/
def Cmd.meet (c x : Cmd) (e : Nat) : List Nat := (c.cover e).filter (x.cover e).contains

/-- The slab that is sent through face f, and the ghost layer behind it. -/
def Cmd.sends (c : Cmd) (cov : Nat → List Nat) (f : Nat) : List (Nat × Nat × Nat) := c.slab cov (f / 2) (if f % 2 = 0 then c.h else c.ext (f / 2))
def Cmd.ghosts (c : Cmd) (cov : Nat → List Nat) (f : Nat) : List (Nat × Nat × Nat) := c.slab cov (f / 2) (if f % 2 = 0 then 0 else c.ext (f / 2) + c.h)

/-- The command behind a face, where it runs on this package. -/
def Cmd.behind (c : Cmd) (l : List (Nat × Nat × Cmd)) (f : Nat) : Option (Nat × Nat × Cmd) := (c.face f).bind fun j => l.find? fun x => x.1 == j

/-- The ghost layers that face f brings along; of a neighbour on another package its own faces tell (notes/assumptions/27). -/
def Cmd.faceCover (c : Cmd) (l : List (Nat × Nat × Cmd)) (f : Nat) : Nat → List Nat := (c.behind l f).elim c.cover fun x => c.meet x.2.2

/-- A cell after a neighbour's value: the value, or the sum in accumulate mode (R288). -/
def Cmd.haloValue (c : Cmd) (own got : Nat) : Nat :=
  if !c.hAcc then got
  else match TyCode.ofCode (BitVec.ofNat 4 c.hTy) with
    | some .d => fadd .d .rne (Fmt.d.value own) (Fmt.d.value got)
    | some .f => fadd .f .rne (Fmt.s.value own) (Fmt.s.value got)
    | _ => (own + got) % 2 ^ 64

/-- What arrives for a face: the neighbour's slab, or another package's. -/
def State.haloIn (s : State) (l : List (Nat × Nat × Cmd)) (m : Nat × Nat × Cmd) (f : Nat) : Eng (List Nat) :=
  let c := m.2.2
  match c.behind l f with
  | some x => engAll (fun s p => (s.partRead x.2.1 x.2.2 (x.2.2.cell p) c.hSize).bind fun s1 bs => .ok s1 (ofLe bs)) s (x.2.2.sends (c.meet x.2.2) (opposite f))
  | none => .ok s ((List.range (c.ghosts c.cover f).length).map fun i => Config.peerPart s.draws (2048 + 6 * m.1 + f) i % 2 ^ (8 * c.hSize))

/-- Cells side by side within an aligned word are written as one (R280). -/
def joinWords : List (Word × List Byte) → List (Word × List Byte)
  | [] => []
  | (a, bs) :: t =>
    match joinWords t with
    | (b, cs) :: u => if b = a + BitVec.ofNat 64 bs.length ∧ b.toNat % 8 ≠ 0 then (a, bs ++ cs) :: u else (a, bs) :: (b, cs) :: u
    | [] => [(a, bs)]

/-- The words that ghost cells of a face take from what arrived; only a sum reads them first (R288). -/
def State.haloOut (s : State) (l : List (Nat × Nat × Cmd)) (m : Nat × Nat × Cmd) (f : Nat) (vals : List Nat) : Eng (List (Word × List Byte)) :=
  let c := m.2.2
  (engAll (fun s (x : (Nat × Nat × Nat) × Nat) =>
    (if c.hAcc then s.partRead m.2.1 c (c.cell x.1) c.hSize else .ok s []).bind fun s1 bs =>
      .ok s1 (c.cell x.1, toLe c.hSize (c.haloValue (ofLe bs) x.2))) s ((c.ghosts (c.faceCover l f) f).zip vals)).bind fun s1 ws => .ok s1 (joinWords ws)

/-- One face of one member in one round: what arrived, as words to write. -/
def State.haloFace (s : State) (l : List (Nat × Nat × Cmd)) (m : Nat × Nat × Cmd) (f : Nat) : Eng (List (Word × List Byte)) :=
  if (m.2.2.face f).isNone then .ok s [] else (s.haloIn l m f).bind fun s1 vals => s1.haloOut l m f vals

/-- One round: everything of dimension d is read, and each member has its words to write (R288). -/
def State.haloRound (s : State) (l : List (Nat × Nat × Cmd)) (d : Nat) : Eng (List (List (Word × List Byte))) :=
  engAll (fun s m => (s.haloFace l m (2 * d)).bind fun s1 lo => (s1.haloFace l m (2 * d + 1)).bind fun s2 hi => .ok s2 (lo ++ hi)) s l

/-- A rank has been found for a halo: its command and its slot keep it. -/
def State.setLabel (s : State) (m : Nat × Nat) : State :=
  { s with cmds := s.cmds.upd m.2 fun d => { d with label := some m.1 }
           colls := s.colls.map fun x => if x.cmd = m.2 then { x with rank := some m.1 } else x }

/-- A started halo gets its rank as the faces of the others say, with those that it needs: out of the ranks that no other has. One that
names no rank of this package needs none. When every command of this package has started or ended and none of it matches, its match has
failed: it ends, and with it the command that has each rank it names, or, where none has been found for that rank, one of those without a
rank (R303; notes/assumptions/27). -/
def State.haloLabel (s : State) (id : Nat) (c : Cmd) (loc : List Nat) : State :=
  if !c.names loc.contains then s.setLabel (65536, id) else
  let slots := s.slotsOf c
  let free := loc.filter fun j => !slots.any fun x => x.rank == some j
  let ms := ((s.collMembers c).map (·.2)).filter fun m => m.2.label.isNone && m.2.names loc.contains
  let ways := (ms.sublists.filter fun l => l.any fun m => m.1 == id).flatMap fun l => (labellings l free).filter (haloMatch loc)
  match ways[s.pick 3 % max 1 ways.length]? with
  | some l => l.foldl (fun x m => x.setLabel (m.1, m.2.1)) s
  | none =>
    if slots.length < loc.length ∨ slots.any (fun x => (s.cmds.find x.cmd).any fun d => !d.started && !d.done) then s
    else
      let rest := (s.collMembers c).filter fun m => m.2.1 != id
      let bare := rest.filter fun m => m.2.2.label.all (· == 65536)
      let partner := fun j => match rest.find? fun m => m.2.2.label == some j with
        | some m => some m.2.1
        | none => (bare[s.pick (5 + j) % max 1 bare.length]?).map (·.2.1)
      ((loc.filter fun j => c.names (· == j)).filterMap partner).foldl (fun x j => x.endMember j c 0x0D c.groupVa) (s.endMember id c 0x0D c.groupVa)

/-- What a halo's member sends to other packages in a round: the words of its slabs behind the faces that name ranks there (R288, R416). -/
def Cmd.haloSends (c : Cmd) (g : GroupView) (loc : List Nat) (d : Nat) : List (Nat × Word) :=
  [2 * d, 2 * d + 1].flatMap fun f => match c.face f with
    | some j => if loc.contains j then [] else (c.sends c.cover f).map fun p => (g.ranks.getD j 0, c.cell p)
    | none => []

/-- A neighbour's command on this package has ended with an error: its code. -/
def State.neighbourErr (s : State) (c : Cmd) : Nat :=
  ((s.slotsOf c).find? fun x => x.err != 0 && x.rank.any fun j => c.names (· == j)).elim 0 (·.err)

/-- The members of a halo's instance that exchange with each other run round by round once they match: a round begins when each of them
has written what the round before brought it, and when its own steps to other packages are taken (R288, R289, R303, R416). A face that names a rank
outside the group matches none; whether one on another package matches is free (notes/assumptions/7). -/
def State.haloRun (s : State) (id : Nat) (c : Cmd) : State :=
  match c.grp with
  | none => s
  | some g =>
    let loc := s.localRanks g
    if c.names (fun j => decide (g.ranks.length ≤ j)) then s.endMember id c 0x0D c.groupVa
    else if c.label.isNone then s.haloLabel id c loc else
    let l := s.memberParty id c
    let mid := l.any fun m => !m.2.2.outs.isEmpty || m.2.2.unit != c.unit
    match s.peerSteps id c (c.haloSends g loc c.unit) with
    | .err s1 code va => s1.endMember id c code va
    | .wait s0 => if mid then s0 else (match s0.haloRound l c.unit with
      | .ok s1 _ => s1
      | .wait s1 => s1
      | .err s1 code va => s1.endAll l code va)
    | .ok s0 _ =>
      if s.neighbourErr c ≠ 0 then s0.endMember id c (s.neighbourErr c) c.groupVa
      else if mid then s0
      else match s0.haloRound l c.unit with
        | .wait s1 => s1
        | .err s1 code va => s1.endAll l code va
        | .ok s1 outs =>
          if (l.all fun m => s1.stepsTaken m.2.1 (m.2.2.haloSends g loc c.unit)) = false then s1
          else if s.remoteCode ((c.haloSends g loc c.unit).length != 0) ≠ 0 then s1.endMember id c 0x0D c.groupVa
          else (l.zip outs).foldl (fun x m => x.updCmd m.1.2.1 fun d => { d with unit := c.unit + 1, got := [], outs := m.2 }) s1

/-! ## The group of a command (R302) -/

/-- A command's engine reads its group: the descriptor, which must lie in device memory, and its two tables (R302). -/
def State.groupRead (s : State) (id : Nat) (c : Cmd) : Eng GroupView :=
  let words := fun (bs : List Byte) => (List.range (bs.length / 8)).map fun i => BitVec.ofNat 64 (ofLe ((bs.drop (8 * i)).take 8))
  if (s.accessFor (Agent.engine c.engine) c.ctx c.groupVa 8 .read).toOption.any (fun a => !isDevice (s.paNow a)) then .err s 0x0F c.groupVa else
  (s.partRead id c c.groupVa 64).bind fun s1 bs =>
    match groupCounts (words bs) with
    | none => .err s1 0x0F c.groupVa
    | some n =>
      (s1.partRead id c (wordAt (words bs) 1) (8 * n.1)).bind fun s2 rt =>
      (s2.partRead id c (wordAt (words bs) 2) (8 * n.2)).bind fun s3 gt =>
        match groupOf (words rt) (words gt) with
        | none => .err s3 0x0F c.groupVa
        | some g => .ok s3 g

/-- The command has its group, and its place in its instance; a bad group, or one whose access fails, refuses it as at acceptance, and so
does a count that its ranks do not divide (R287, R294, R301, R302; notes/assumptions/26). -/
def State.groupStep (s : State) (id : Nat) (c : Cmd) : State :=
  match s.groupRead id c with
  | .wait s1 => s1
  | .err s1 code va => s1.updCmd id fun x => { x.refuse code with errAddr := va, got := [] }
  | .ok s1 g =>
    let s2 := s1.updCmd id fun x => { x with grp := some g, got := [] }
    if c.isHalo = false ∧ c.cKind = 1 ∧ c.count % g.ranks.length ≠ 0 then s2.updCmd id fun x => x.refuse 2
    else s2.enrol id { c with grp := some g } g

/-- One step of a member of an instance: it writes what it has to write, has ended, or its instance goes on (R285, R288). -/
def State.memberRun (s : State) (id : Nat) (c : Cmd) (last : Nat) (run : State → Nat → Cmd → State) : State :=
  if c.err ≠ 0 then s.updCmd id fun x => { x with done := true }
  else if !c.outs.isEmpty then s.writeOuts id (1 + s.pick 11 % 4096)
  else if last ≤ c.unit then s.updCmd id fun x => { x with done := true }
  else run s id c

/-! ## Starting and running (R241, R272) -/

/-- The command as it starts, with the writes of its issuer's earlier accesses that were outstanding at its issue (R241). -/
def State.begun (s : State) (id : Nat) (c : Cmd) : Cmd :=
  { c with started := true, past := ((c.past ++ s.hbPast c.recv (some id)).filter fun i => (s.inflight.find i).isSome).dedup }

/-- The command is the next that its engine starts, and the engine runs fewer than eight (R272). -/
def State.startable (s : State) (id : Nat) (c : Cmd) : Bool :=
  (s.cmds.filter fun e => e.2.engine == c.engine && e.2.started && !e.2.done).length < 8 &&
  s.cmds.all fun e => !(e.2.engine == c.engine && decide (e.1 < id) && !e.2.started && !e.2.done)

/-- A run of a started command by kind: a free number of words, or its part of an instance. -/
def State.runCmd (s : State) (id : Nat) (c : Cmd) : State :=
  match c.kind with
  | .cpy | .cpyx | .cpym _ _ _ _ _ => (s.pieces id (1 + s.pick 11 % 4096)).readAhead id (s.pick 15 % 4096)
  | .coll => s.memberRun id c 1 State.collRun
  | .halo => s.memberRun id c 3 State.haloRun
  | .publish _ => s

/-- The first accesses of a command: a copy may read before it writes. -/
def State.beginCmd (s : State) (id : Nat) (c : Cmd) : State :=
  match c.kind with
  | .cpy | .cpyx | .cpym _ _ _ _ _ => s.readAhead id (s.pick 15 % 4096)
  | .coll | .halo | .publish _ => s

/-- A step of a copy engine's command: it reads its group, starts, or goes on (R241, R272, R302). -/
def State.engineStep (s : State) (cmd : Nat) (c : Cmd) : State :=
  if c.done || c.engine == 17 then s
  else if c.started then s.runCmd cmd c
  else if !s.issuerDone cmd c then s
  else if c.kind.grouped && c.grp.isNone then s.groupStep cmd c
  else if s.startable cmd c then (s.updCmd cmd fun _ => s.begun cmd c).beginCmd cmd c
  else s

/-- ENGINE_COMMAND_START: the command starts, or goes on, interleaved with the others (R272-R274, R280). -/
def execEngineCommandStart (cmd : Nat) (s : State) : Out := .next ((s.cmds.find cmd).elim s (s.engineStep cmd))

/-- ENGINE_RESEND: a refused access is sent again once its hint has passed (R289, R416). -/
def execEngineResend (cmd : Nat) (s : State) : Out :=
  match s.cmds.find cmd with
  | none => .next s
  | some c => if c.refused.any (fun r => decide (r.2.2 ≤ s.ptp)) then .next (s.engineStep cmd c) else .next s

/-! ## PUBLISH (R242, R260, R300, R419) -/

/-- The values that a PUBLISH gives its region: W rises, and O with it when the region keeps its depth, but not above the step that a
running checkpoint streams (R260, R419). -/
def State.published (s : State) (reg : Nat) : Nat × Nat :=
  let w := bits (s.hwRead reg) 31 0
  let o := bits (s.hwRead (reg + 8)) 31 0
  let d := bits (s.hwRead reg) 35 32
  let o1 := if d < w + 1 - o then w + 1 - d else o
  (w + 1, match s.retain reg with
    | some st => max o (min o1 st)
    | none => o1)

/-- PUBLISH_BROADCAST: after the drain and in the region's order of arrival the new W and O go to the descriptor, as a release at
.pkg or .sys, and to the dies, and the frames of step W become READONLY (R242, R260, R282). -/
def execPublishBroadcast (cmd : Nat) (s : State) : Out :=
  match s.cmds.find cmd with
  | none => .next s
  | some c =>
    if c.engine ≠ 17 || c.started || c.done || !s.issuerDone cmd c then .next s else
    match s.publishRegion c with
    | .error e => .next (s.updCmd cmd fun x => { x.fail e (c.a 0) with started := true })
    | .ok reg =>
      if !s.regionHead reg cmd || s.replayOut reg || !s.leaseFree reg then .next s else
      let c1 := s.begun cmd c
      let wo := s.published reg
      let sc := match c.kind with
        | .publish true => Scope.sys
        | _ => .pkg
      let put := fun (x : State) (at_ : Nat) (v : Word) =>
        x.writePa { thrs := [cmdTag cmd], past := c1.past, heads := [{ by_ := .engine, scope := sc, past := c1.past }] } 0 at_ (toLe 8 v.toNat) none
      let s1 := ((s.useRegion reg).pinRegion reg).hwProbe reg 64
      let s2 := put (put s1 reg (pack [(bits (s.hwRead reg) 63 32, 32), (wo.1, 0)])) (reg + 8) (BitVec.ofNat 64 wo.2)
      let s3 := (s.records reg).foldl (fun (x : State) r => x.readonly (s.wframe r)) s2
      .next ({ s3 with regCmds := s3.regCmds.put cmd { region := reg, w := wo.1, o := wo.2, acks := [] } }.updCmd cmd fun _ => c1)

/-- The steps below its O that a region still holds are swept after the command that raised it (R261). -/
def State.sweepAfter (s : State) (reg o ctx : Nat) : State := if bits (s.hwRead (reg + 48)) 31 0 < o then s.startSweep reg ctx else s

/-- PUBLISH_COMPLETE: one more die applies the broadcast, once it has applied the writes that the publish covers; with the
fourth the command has done its work, and its sweep follows (R242, R259-R261). -/
def execPublishComplete (cmd : Nat) (s : State) : Out :=
  match s.cmds.find cmd, s.regCmds.find cmd with
  | some c, some r =>
    let ready := [0, 1, 2, 3].filter fun d => !r.acks.contains d && s.inflight.all fun e => !(c.past.contains e.1 && e.2.dies.contains d)
    match ready[s.pick 5 % max 1 ready.length]? with
    | none => .next s
    | some d =>
      let s1 := s.setRegion d r.region r.w r.o
      if 3 ≤ r.acks.length then .next (({ s1 with regCmds := s1.regCmds.del cmd }.sweepAfter r.region r.o c.ctx).updCmd cmd fun x => { x with done := true })
      else .next { s1 with regCmds := s1.regCmds.put cmd { r with acks := r.acks ++ [d] } }
  | _, _ => .next s

/-! ## Completion (R275-R279, R284) -/

/-- The token word of a command (R275). -/
def Cmd.tokenWord (c : Cmd) : Word := pack [(if c.err = 0 then 0 else 1, 63), (c.err, 48), (c.bytes % 2 ^ 48, 0)]

/-- The completion word cannot be stored (R278). -/
def State.compLost (s : State) (id : Nat) (c : Cmd) : State :=
  (s.updCmd id fun x => { x with stage := 1, err := if x.err = 0 then 0x0A else x.err }).service 4 c.ctx (BitVec.ofNat 64 (bits c.comp 56 0)) 0

/-- The writer of a completion word: a release of the command's writes at comp_scope (R241, R278). -/
def State.compWriter (s : State) (id : Nat) (c : Cmd) : Writer :=
  let past := (c.past ++ s.cmdWrites id).dedup
  { thrs := [cmdTag id], past := past
    heads := (Scope.ofCode (BitVec.ofNat 3 (bits c.comp 59 57))).toList.map fun sc => { by_ := .engine, scope := sc, past := past } }

/-- The completion word store: a release of the token word; it waits for a lease, a migration or a copy of its page, and one that a peer refuses
is sent again after the hint, up to CE_RETRY_MAX (R262, R278, R289, R414). -/
def State.compStore (s : State) (id : Nat) (c : Cmd) : State :=
  if bits c.comp 56 0 = 0 then s.updCmd id fun x => { x with stage := 1 } else
  match s.accessFor (Agent.engine c.engine) c.ctx (BitVec.ofNat 64 (bits c.comp 56 0)) 8 .write with
  | .error _ => s.compLost id c
  | .ok a =>
    if s.agentHeld a then s else
    match s.ownNow c.ctx a with
    | .wait => s
    | .noFrame => s.compLost id c
    | .ok s1 =>
      let pa := s1.paNow a
      let va := BitVec.ofNat 64 (bits c.comp 56 0)
      match (if isPeer pa then (s1.dropPeerCopy pa).peerSend id c (2 ^ 80 + va.toNat) va (pa / 2 ^ 40 % 1024) (s.peerAns (2 ^ 80 + va.toNat)) else .ok s1 ()) with
      | .wait s2 => s2
      | .err s2 _ _ => s2.compLost id c
      | .ok s1 _ =>
      if !s1.leaseFreeFor (some id) pa then s.holdWrite id pa
      else ((s1.ncOut a).agentPutAs (some id) (s.compWriter id c) a.key pa (toLe 8 c.tokenWord.toNat) (if bit c.comp 60 && isDevice pa then some true else none)).updCmd id fun x => { x with stage := 1 }

/-- The credit, or the ABORT delivery of what the command would have written, goes to its barrier (R277). -/
def State.compCredit (s : State) (id : Nat) (c : Cmd) : State :=
  match c.credit with
  | none => s.updCmd id fun x => { x with stage := 3 }
  | some h =>
    let aborts := c.err != 0 && c.err != 0x0A
    { s with msgs := s.msgs.put s.nextSeq { bar := h, n := if aborts then s.cmdBytes c else c.bytes, abort := aborts, cmd := some id }
             nextSeq := s.nextSeq + 1 }.updCmd id fun x => { x with stage := 2 }

/-- The copy itself ended with an error: a lost completion word or a refused credit is none of it (R284). -/
def Cmd.copyErr (c : Cmd) : Bool := c.err != 0 && c.err != 0x0A && c.err != 0x09

/-- CPYM_MATRIX_HANDOFF: after the last write of a copy that ended well the matrix command goes to its array with the operands of the
issue; none while the arrays are full, and while the context is saved or its threads are stopped for that (R284, R318, R369). -/
def State.handoff (s : State) (id : Nat) (c : Cmd) : Option State :=
  match c.kind with
  | .cpym image a0 a1 a2 _ =>
    if c.copyErr then some s else if s.groveSaved c || s.savedHeld c.recv || (s.pe.stage == .save && s.pe.ctx == c.ctx) then none else
    match matrixImage image with
    | none => some s
    | some (_, fmt, gather, perm, en, bar, vd, _) =>
      let o : MxOp :=
        { issuer := c.thr, recv := c.recv, grove := c.grove, pc := c.pc, word := image, fmt := fmt, gather := gather, perm := perm, energy := en
          a0 := a0, a1 := a1, a2 := a2, bar := bar, token := some vd, flag := none, sync := false, shares := [], handed := true
          past := s.cmdWrites id, place := s.placeOf c.thr }
      let s1 := { s with nextSeq := s.nextSeq + 1 }
      (match s.badRank c.grove o.mask with
        | some r => some (s1.mxRefuse s.nextSeq o r)
        | none => if s.arraysFree (s.maskBlocks c.grove o.mask) then some (s1.mxAccept s.nextSeq o) else none)
  | _ => some s

/-- The slots that are left when a command ends: an instance's go together, once every rank on this package has completed (R302). -/
def State.slotsAfter (s : State) (id : Nat) (c : Cmd) : List CollSlot :=
  let mine := s.slotsOf c
  let n := c.grp.elim 0 fun g => (s.localRanks g).length
  let taken := (mine.filter fun x => x.halo || c.grp.any fun g => x.rank.any (s.localRanks g).contains).length
  if mine.any (·.cmd == id) && decide (n ≤ taken) && mine.all fun x => x.cmd == id || (s.cmds.find x.cmd).isNone then s.colls.filter fun x => !mine.contains x else s.colls

/-- The later commands of its sequences that are ORDERED carry what its completion covers (R241, R279). -/
def State.orderOn (s : State) (id : Nat) : State :=
  { s with cmds := s.cmds.mapVals fun _ (x : Cmd) => if x.after.contains id then { x with orderPast := (x.orderPast ++ s.cmdWrites id).dedup } else x }

/-- The token lands and the command is gone (R275, R276, R290). -/
def State.tokenEnd (s0 : State) (id : Nat) (c : Cmd) : State :=
  let s := s0.orderOn id
  let m : Mark := { issuePc := c.pc.setWidth 64, source := c.engine, code := c.err, addr := c.errAddr }
  let s1 := ({ s with cmds := s.cmds.del id, colls := s.slotsAfter id c }.depthReg c.engine).landToken id c.recv c.token c.tokenWord m c.flag c.sync
  if c.engine < 16 then s1.bumpReg (Off.ce c.engine (if c.err = 0 then 0x10 else 0x18)) else s1

/-- The matrix command of an ended CPYM is handed over as soon as it can be. -/
def State.handed (s : State) (id : Nat) (c : Cmd) : State × Cmd :=
  if c.handed then (s, c) else
  match s.handoff id c with
  | some s1 => (s1.updCmd id fun x => { x with handed := true }, { c with handed := true })
  | none => (s, c)

/-- The issuer's die has applied the command's writes, its completion word among them (R241, R276). -/
def State.cmdSeen (s : State) (id : Nat) (c : Cmd) : Bool := s.inflight.all fun e => !(e.2.thrs.contains (cmdTag id) && e.2.dies.contains c.die)

/-- ENGINE_COMMAND_COMPLETE: the matrix command of a CPYM, then the completion actions in their order: word, credit, token, which
brings what the command wrote, once its place can be written (R241, R276-R279, R284, R377). -/
def execEngineCommandComplete (cmd : Nat) (s : State) : Out :=
  match s.cmds.find cmd with
  | none => .next s
  | some c =>
    if !c.done then .next s else
    let s1 := (s.handed cmd c).1
    let c1 := (s.handed cmd c).2
    if c.after.any (fun j => (s.cmds.find j).isSome) then .next s1 else
    match c.stage with
    | 0 => .next (s1.compStore cmd c1)
    | 1 => .next (s1.compCredit cmd c1)
    | 2 => .next s1
    | _ =>
      if c1.handed && s1.cmdSeen cmd c1 && !s1.savedHeld c.recv then .next ((c.recv.foldl (fun x k => x.see k (s1.cmdWrites cmd)) s1).tokenEnd cmd c1)
      else .next s1

end Sys2Proof.Machine
end

