-- ==== Sys2Proof/Machine/Fabric.lean ====
section
/-! DEFINITION. The fabric: peers that go down and come back, ports, incoming accesses, leases and the held writes, the PTP
offset (spec/26_fabric_and_checkpoint.md R408-R415). -/

namespace Sys2Proof.Machine

/-! ## Peers and ports (R408) -/

/-- The bit of FB_DOWN for package f, set or cleared. -/
def State.setDown (s : State) (f : Nat) (b : Bool) : State :=
  let off := Off.fb (0x100 + 8 * (f / 64))
  let m := BitVec.ofNat 64 (2 ^ (f % 64))
  s.setReg off (if b then s.reg off ||| m else s.reg off &&& ~~~m)

/-- PEER_DOWN: heartbeat silence longer than FB_DEAD marks the package down (R408, R425). -/
def execPeerDown (peer : Nat) (s : State) : Out :=
  if peer < 1024 ∧ bits (s.reg (Off.fb 0x38)) 31 0 < s.ptp - (s.heard.find peer).getD 0 then .next (s.setDown peer true) else .next s

/-- HEARTBEAT: the package is heard, and its FB_DOWN bit clears (R408). -/
def execHeartbeat (peer : Nat) (s : State) : Out :=
  if peer < 1024 then .next ({ s with heard := s.heard.put peer s.ptp }.setDown peer false) else .next s

/-- PORT_UP: one of the 16 ports comes up; FB_ID takes no write from now on (R408). -/
def execPortUp (port : Nat) (s : State) : Out :=
  if port < 16 then .next { s with portsUp := Addrs.add s.portsUp port } else .next s

/-- PORT_DOWN (R408). -/
def execPortDown (port : Nat) (s : State) : Out := .next { s with portsUp := Addrs.del s.portsUp port }

/-- PTP_REFRESH: the new estimate; above FB_SKEW every peer copy is dropped (R415). -/
def execPtpRefresh (offset : Word) (s : State) : Out :=
  let s1 := s.setReg (Off.fb 0x30) offset
  if bits (s.reg (Off.fb 0x10)) 31 0 < offset.toInt.natAbs then .next { s1 with leases := [] } else .next s1

/-! ## Leases at the owner (R412, R414) -/

/-- FB_LEASE: lengths out of range read as 20,000 (R408). -/
def State.leaseLen (s : State) : Nat :=
  let v := bits (s.reg (Off.fb 8)) 31 0
  if 1000 ≤ v ∧ v ≤ 1000000 then v else 20000

/-- An outstanding operation whose write has reached the line and is held there. -/
def State.opHeld (s : State) (line seq : Nat) (o : Op) : Bool :=
  (match o.kind.access with
    | some (a, _, w) => w && s.paNow a / 256 == line
    | none => false) && decide (o.earliest ≤ s.clk) && s.orderOk seq o

/-- The writes that the lease of a line holds (R414). -/
def Lease.waiting (l : Lease) (s : State) : List Nat := l.held.filter fun q => s.writeWaits q || decide (2 ^ 63 ≤ q)

def State.heldOn (s : State) (line : Nat) : Nat := ((s.granted.find? fun (l : Lease) => l.line == line).elim [] (·.waiting s)).length

/-- A lease granted on a line: Emax rises. -/
def State.grant (s : State) (line : Nat) : State :=
  { s with granted := { line := line, expiry := max ((s.emax line).getD 0) (s.ptp + s.leaseLen) } :: s.granted.filter fun (l : Lease) => l.line != line }

/-- The writes of threads that have come to a leased line take their places among those that it holds, in order of issue (R414). -/
def State.holdOps (s : State) : State :=
  { s with granted := s.granted.map fun (l : Lease) => if l.expiry = 0 ∨ s.leaseOver l = true then l else
      { l with held := l.held ++ (s.ops.filter fun e => !l.held.contains e.1 && s.opHeld l.line e.1 e.2).map (·.1) } }

/-- Leases that hold no write and have passed are forgotten. -/
def State.leaseTidy (s : State) : State :=
  { s with granted := s.granted.filter fun (l : Lease) => !(s.leaseOver l && (l.waiting s).isEmpty) }

/-- LEASE_HOLD_EXPIRY: the lease of the line is over: each write that it holds is counted in FB_LEASE_WAIT, and they go on in order of
arrival; a write of the hardware's own is tried again (R414; notes/assumptions/68). -/
def execLeaseHoldExpiry (line : Nat) (s : State) : Out :=
  match s.granted.find? fun (l : Lease) => l.line == line with
  | none => .next s
  | some l =>
    if !s.leaseOver l then .next s
    else if l.expiry = 0 then .next s.drainHeld.leaseTidy
    else
      let s1 := { s with granted := s.granted.map fun (x : Lease) => if x.line = line then { x with expiry := 0, held := (x.waiting s).filter (decide <| · < 2 ^ 63) } else x }
      .next (s1.setReg (Off.fb 0x40) (s1.reg (Off.fb 0x40) + BitVec.ofNat 64 (s.heldOn line))).drainHeld.leaseTidy

/-! ## Incoming accesses (R409, R410) -/

/-- The access of an incoming request: accepted at its place in device memory, or refused or answered with a fault, of which
nothing remains here but a residency request (R409, R410). -/
def State.incoming (s : State) (off n : Nat) (need : Need) : Except State Access :=
  let w := s.reg (Off.fb 0x20)
  if !bit w 10 || n == 0 || decide (65536 < off % 65536 + n) || decide (2 ^ 40 ≤ off) then .error s else
  let va := s.reg (Off.fb 0x28) + BitVec.ofNat 64 off
  match s.accessFor (Agent.engine 17) (bits w 9 0) va 1 need with
  | .error .away => .error (s.residency [] 0 (bits w 9 0) va.toNat)
  | .error (.fault _) => .error s
  | .ok a => if isDevice (s.paNow a) then .ok a else .error s

/-- An incoming access waits for its page or the homes of its sectors: the package takes it later (R262, R266, R394). -/
def State.incomingHeld (s : State) (off n : Nat) (need : Need) : Bool :=
  match s.incoming off n need with
  | .error _ => false
  | .ok a => s.agentHeld a || !s.homeFree (s.paNow a) n || (decide (need = .write) && (match s.ownNow a.ctx a with
    | .wait => true
    | .ok _ | .noFrame => false))

/-- Bytes written by an agent, sector after sector; n bounds the sectors. -/
def State.agentBytes (s : State) (w : Writer) (key pa : Nat) (bs : List Byte) : Nat → State
  | 0 => s
  | n + 1 =>
    if bs.isEmpty then s else
    let k := 64 - pa % 64
    (s.agentPut w key pa (bs.take k) none).agentBytes w key (pa + k) (bs.drop k) n

/-- An uncorrectable error met by an agent that no token or thread reports: an UNCORR service entry (R431, R439). -/
def State.uncorrEntry (s : State) (ctx pa n : Nat) : State :=
  if (List.range n).any fun i => s.badMem.contains ((pa + i) / 64) then s.service 5 ctx (BitVec.ofNat 64 pa) 0 else s

/-- PEER_READ: an incoming read is served; a read of a WB line is granted a lease unless a write to the line is held, and an NC one takes the line
out of every L1 (R223, R225, R409, R412, R414), but not while it must wait for its page or its home. -/
def execPeerRead (_peer off size : Nat) (s : State) : Out :=
  match s.incoming off size .read with
  | .error s1 => .next s1
  | .ok a =>
    if s.incomingHeld off size .read then .next s else
    let line := s.paNow a / 256
    let s1 := ((s.uncorrEntry a.ctx (s.paNow a) size).ncOut a).agentRead (s.paNow a) size
    let s2 := { s1 with reply := (s1.bytesAt none a.key (s1.paNow a) size).map BitVec.toNat }
    .next (if a.policy = 0 ∧ s.heldOn line = 0 then s2.grant line else s2)

/-- PEER_WRITE: an incoming write is performed, or held while a lease of its line may be valid (R409, R414), but not while it
must wait for its page. -/
def execPeerWrite (_peer off : Nat) (bytes : List Byte) (s : State) : Out :=
  match s.incoming off bytes.length .write with
  | .error s1 => .next s1
  | .ok a =>
    if s.incomingHeld off bytes.length .write then .next s else
    match s.ownNow a.ctx a with
    | .wait | .noFrame => .next s
    | .ok s1 => .next ((s1.ncOut a).agentBytes { by_ := .peer } a.key (s1.paNow a) bytes bytes.length)

end Sys2Proof.Machine
end

