-- ==== Sys2Proof/Machine/System.lean ====
section
/-! DEFINITION. Special registers, TRAP, RFT and BKPT, the fault-report block's commands, partition stops, watchpoint hits and
sampling (spec/02_one_thread.md R27, R28; spec/21_faults_and_preemption.md R361-R366; spec/22_debug_and_trace.md
R380-R388). -/

namespace Sys2Proof.Machine

/-! ## Special registers (R27, R28) -/

/-- sr.clock of a core (R27). -/
def State.coreClock (s : State) (c : Nat) : Word := Config.clockBase c + BitVec.ofNat 64 s.clk

/-- Word i of a fault record (R354). -/
def FRec.word (r : FRec) (i : Nat) : Word := wordAt [r.w0, r.w1, r.w2, r.w3, r.w4, r.w5, r.w6, r.w7] i

/-- The value of a special register for thread k (R27). -/
def State.special (s : State) (k : Nat) (r : SReg) : Word :=
  let t := s.thr k
  let b := s.blocks.find t.blk
  let n := fun (v : Nat) => BitVec.ofNat 64 v
  match r with
  | .tid => n t.tid
  | .lane => n (t.tid % 32)
  | .bundle => n (t.tid / 32)
  | .blk => n (b.elim 0 (·.idx))
  | .grove => n ((b.bind fun x => s.groves.find x.grove).elim 0 (·.index))
  | .span => n ((s.launchOf t).elim 0 fun l => if lSpan l.words then lGroves l.words else 0)
  | .core => pack [(dieOf k, 26), (coreOf k % 512, 16), (b.elim 0 (·.rank), 0)]
  | .clock => s.coreClock (coreOf k)
  | .time => n s.ptp
  | .ebud => n ((s.ctxSt (s.ctxOf t)).ebud) &&& low 32
  | .tba => t.tba
  | .tlsbase => t.tlsbase
  | .park => b.elim 0 (·.park)
  | .uctl => n (if bit (s.c0Of t) 1 then 1 else 0)
  | .frec w => t.frec.word w.toNat
  | .frecPrev w => t.frecPrev.word w.toNat

/-- SRD (R28). -/
def execSrd (c : Ctl) (sr : SReg) (vd : Reg) (s : State) : Out :=
  .next (s.runGang (issue64 c) [vd.toNat] [] true fun s l recv => .ok (s.fixed (issue64 c) 2 recv [.reg vd.toNat (s.special l sr) none]))

/-- SWR of sr.tba: bit 0 and bits [63:57] are cleared (R28). -/
def execSwr (c : Ctl) (va : Reg) (s : State) : Out :=
  .next (s.fixedOp (issue64 c) 2 [va.toNat] [va.toNat] fun t => [.tba (t.reg va.toNat &&& field 56 1)])

/-! ## TRAP, RFT, BKPT (R364-R366) -/

/-- TRAP raises its own cause with its code (R364). -/
def execTrap (c : Ctl) (code : BitVec 18) (s : State) : Out :=
  .next (s.runGang (issue64 c) [] [] true fun _ _ _ => .error { cause := .trap, trapCode := code.toNat })

/-- BKPT (R366). -/
def execBkpt (c : Ctl) (s : State) : Out :=
  .next (s.runGang (issue64 c) [] [] true fun _ _ _ => .error { cause := .bkpt })

/-- The record names an instruction that may not be skipped: kind fetch, or an issue PC (R363, R365). -/
def FRec.unskippable (r : FRec) : Bool := bits r.w1 15 12 == Kind.fetch.code || r.w5 != 0

/-- The length of the record's instruction (R64). -/
def FRec.len (r : FRec) : Nat := lengthOf (r.w6.setWidth 16)

/-- RFT and RFT.skip (R365, R383). -/
def execRft (c : Ctl) (skip : Bool) (s : State) : Out :=
  let s1 := s.runGang (issue64 c) [] [] false fun s l _ =>
    let r := (s.thr l).frec
    if !bit r.w7 0 || (skip && r.unskippable) then .error { cause := .illegal }
    else .ok ((s.classC (issue64 c) l).updThread l fun t => t.returnFromFault r.len skip)
  .next (s.gang.foldl (fun (x : State) k =>
    if !skip && (issue64 c).holds (s.thr k) && bit (s.thr k).frec.w7 0 && bits (s.thr k).frec.w1 7 0 == 0x1D && !bit (x.thr k).frec.w7 0 then x.updThread k fun t => { t with skipWatch := true }
    else x) s1)

/-! ## The fault-report block (R361-R363) -/

/-- A command that is ignored is counted by the block that received it (R363). -/
def State.frIgnore (s : State) (die : Nat) : State := s.bumpReg (Off.fr (die % 4) 0x30)

/-- The thread is stopped on a fault and belongs to the context the command names (R363); a command that comes after the stop of a save
names nobody (R379). -/
def State.frNames (s : State) (thr ctx : Nat) : Option Thread :=
  if s.pe.stage == .save && s.pe.ctx == ctx then none else
  (s.thread? thr).bind fun t => if t.status = .fault ∧ s.ctxOf t = ctx then some t else none

/-- A stopped thread issues again (R30). -/
def State.resume (s : State) (thr : Nat) (f : Thread → Thread) : State :=
  s.updThread thr fun t => { f t with status := .run, readyAt := s.clk + 1 + Config.fetchDelay s.draws, since := 0, reported := false }

/-- FR_CMD retry (R363, R383). -/
def execFrCmdRetry (die thr ctx : Nat) (s : State) : Out :=
  match s.frNames thr ctx with
  | some _ => .next (s.resume thr fun t => { t with skipWatch := bits t.frec.w1 7 0 == 0x1D })
  | none => .next (s.frIgnore die)

/-- FR_CMD skip (R363). -/
def execFrCmdSkip (die thr ctx : Nat) (s : State) : Out :=
  match s.frNames thr ctx with
  | some t => if t.frec.unskippable then .next (s.frIgnore die) else .next (s.resume thr fun t => { t with pc := t.pc + BitVec.ofNat 57 t.frec.len, skipWatch := false })
  | none => .next (s.frIgnore die)

/-- FR_CMD kill: the thread retires as after EXIT (R363). -/
def execFrCmdKill (die thr ctx : Nat) (s : State) : Out :=
  match s.frNames thr ctx with
  | some _ => .next (s.updThread thr fun t => { t with status := .exited, reported := false })
  | none => .next (s.frIgnore die)

/-- FR_CMD with action 3 (R363). -/
def execFrCmdIgnored (die : Nat) (s : State) : Out := .next (s.frIgnore die)

/-- FR_PEND: the oldest report that waits is written once the ring has room (R361). -/
def execFrPend (die : Nat) (s : State) : Out :=
  match s.frQueue.find? (fun e => e.1 == die) with
  | none => .next s
  | some e =>
    match s.frWrite die e.2 with
    | none => .next s
    | some s1 => .next ({ s1 with frQueue := s1.frQueue.erase e }.frCount die)

/-! ## Watchpoint hits and partition stops (R380, R384-R386) -/

/-- WP_HIT is cleared where a written bit is 1 (R380). -/
def execWpHitWrite (core : Nat) (val : Word) (s : State) : Out := .next (s.writeReg (Off.dbg core 0x60) val)

/-- The state a dump entry shows (R386). -/
def TStatus.dump (t : TStatus) : Nat :=
  match t with
  | .run | .yield _ | .held _ _ => 1
  | .form _ _ _ _ _ => 2
  | .fault => 3
  | .wait _ _ _ => 4
  | .sync _ => 5
  | .exited => 6

/-- Six flags from f on, packed. -/
def flagWord (fs : List Nat) (f : Nat) : Word := pack ((List.range 6).map fun i => (fs.getD (f + i) 0, 6 * i))

/-- One dump entry: the slot's thread as it stands at the end of the stop clk (R386). -/
def State.dumpEntry (s : State) (k : Nat) : List Word :=
  match s.thread? k with
  | none => [0, 0, 0, 0]
  | some t0 =>
    let t := t0.landAll s.clk
    [pack [(TStatus.dump t.status, 61), (t.pc.toNat, 0)], flagWord t.flags 0, flagWord t.flags 6,
     pack [(laneOf k, 25), (t.tid, 15), (t.bslot, 10), (s.ctxOf t, 0)]]

/-- Partition bits of DBG_STATUS. -/
def State.dbgStatus (s : State) (core : Nat) (f : Word → Word) : State := s.setReg (Off.dbg core 0x88) (f (s.reg (Off.dbg core 0x88)))

/-- DBG_CMD_STOP: the partition forms no gang from the end of this clk, and its 2,048 slots are dumped (R384-R386). -/
def execDbgCmdStop (core part : Nat) (s : State) : Out :=
  if s.debugLocked || (s.core core).stopped.contains part || decide (4 ≤ part) then .next (s.bumpReg (Off.dbg core 0x98))
  else
    let base := (s.reg (Off.dbg core 0x90)).toNat + 65536 * part
    let s1 := (List.range 2048).foldl (fun (x : State) i =>
      x.hwWriteAll (base + 32 * i) (s.dumpEntry (8192 * core + 2048 * part + i))) (s.updCore core fun c => { c with stopped := c.stopped ++ [part] })
    .next (s1.dbgStatus core fun w => w ||| BitVec.ofNat 64 (2 ^ part + 2 ^ (4 + part)))

/-- The partition leaves its stop. -/
def State.unstop (s : State) (core part : Nat) : State :=
  (s.updCore core fun c => { c with stopped := c.stopped.filter (· != part) }).dbgStatus core fun w => w &&& ~~~(BitVec.ofNat 64 (2 ^ part + 2 ^ (4 + part)))

/-- DBG_CMD_RESUME (R384, R385). Stopped clks do not count for the bound of R185. -/
def execDbgCmdResume (core part : Nat) (s : State) : Out :=
  if s.debugLocked || !(s.core core).stopped.contains part then .next (s.bumpReg (Off.dbg core 0x98))
  else .next (s.unstop core part)

/-! ## Sampling (R387, R388) -/

/-- The interval of a partition: drawn from 1 to twice the mean (R388). -/
def State.sampleDraw (s : State) (core part : Nat) : Nat :=
  1 + s.pick (7 + part) % (2 * max 256 (bits (s.reg (Off.dbg core 0xA0)) 20 1))

/-- SAMPLE_TAG: an interval ends, the next gang of the partition is tagged, and a new interval starts (R388). -/
def execSampleTag (core part : Nat) (s : State) : Out :=
  match (s.core core).sampleAt.find part with
  | none => .next s
  | some t =>
    if bit (s.reg (Off.dbg core 0xA0)) 0 && decide (t ≤ s.clk) then
      .next (s.updCore core fun c => { c with armed := if c.armed.contains part then c.armed else c.armed ++ [part]
                                              sampleAt := c.sampleAt.put part (s.clk + s.sampleDraw core part) })
    else .next s

/-- The memory level of an operation, as the caches stand at its issue (R388; notes/assumptions/37); one that makes several accesses
tells it when it ends. -/
def State.sampleLevel (s : State) (o : Op) : Nat :=
  if o.kind.spad.isSome then 8 else
  match o.kind.access with
  | none => 0
  | some (a, _, _) => s.heldLevel o.thr a

/-- A gang of an armed partition issues: the record follows its lowest member, whose fault at the issue is the instruction's (R388). before is the state before the issue;
the stages inside the pipeline are free values. -/
def State.tagIssue (s before : State) : State :=
  match before.gang with
  | [] => s
  | k :: _ =>
    let c := coreOf k
    let p := partOf k
    if !(s.core c).armed.contains p then s else
    let t := before.thr k
    match (s.thr k).status with
    | .held _ _ => s
    | _ =>
    let stage := fun i => bits (Config.unstated s.draws (16 + i)) 15 0
    let level := (s.ops.find? fun e => decide (before.nextSeq ≤ e.1) && e.2.recv.contains k).elim 0 fun e => s.sampleLevel e.2
    let ws := [pack [(p, 60), (t.pc.toNat, 0)], before.inst, pack [(stage 2, 48), (stage 1, 32), (min 65535 (before.clk - t.since), 16), (stage 0, 0)],
               pack [(stage 3, 0)], pack [(before.ctxOf t, 32), (laneMask before.gang, 0)], before.coreClock c]
    s.updCore c fun x => { x with armed := x.armed.filter (· != p)
                                  samples := x.samples ++ [{ part := p, member := k, lo := before.nextSeq, hi := s.nextSeq, words := ws, level := level
                                                             fault := if t.faults < (s.thr k).faults then some (bits (s.thr k).frec.w1 7 0) else none }] }

/-- The sampled instruction is complete: its operations have ended and its results have landed. -/
def State.sampleDone (s : State) (x : Sample) : Bool :=
  x.saved || (!s.ops.any (fun e => decide (x.lo ≤ e.1) && decide (e.1 < x.hi) && e.2.recv.contains x.member) &&
    !(match s.thread? x.member with
      | some t => t.writes.any fun w => decide (x.lo ≤ w.seq) && decide (w.seq < x.hi) && decide (s.clk < w.landClk)
      | none => false))

/-- The record's words at completion: outcome, cause and level (R388). -/
def State.sampleWords (x : Sample) : List Word :=
  let w := wordAt x.words
  let out := if x.saved then 2 else if x.fault.isSome then 1 else 0
  [w 0 ||| pack [(out, 62)], w 1, w 2, w 3 ||| pack [(if x.saved then 0 else x.fault.getD 0, 20), (x.level, 16)], w 4, w 5, 0, 0]

/-- SAMPLE_RECORD: the record, a release at .sys, goes into the core's ring, once no lease holds it back, or is dropped and counted (R387,
R388, R414). -/
def execSampleRecord (core part : Nat) (s : State) : Out :=
  match (s.core core).samples.find? (fun x => x.part == part && s.sampleDone x) with
  | none => .next s
  | some x =>
    let s1 := s.updCore core fun c => { c with samples := c.samples.erase x }
    let r := fun o => s.reg (Off.dbg core o)
    let size := (r 0xB0).toNat
    let at_ := (r 0xA8).toNat + 64 * ((r 0xB8).toNat % size)
    if ringOpen size 64 65536 && decide ((r 0xB8 - r 0xC0).toNat < size) then
      if !s.leaseFree at_ then .next (s.ringWaits (core / 512) at_) else
      .next ((s1.hwRelease s1.hwPast at_ (State.sampleWords x)).bumpReg (Off.dbg core 0xB8))
    else .next (s1.bumpReg (Off.dbg core 0xC8))

end Sys2Proof.Machine
end

