-- ==== Sys2Proof/Machine/Fetch.lean ====
section
/-! DEFINITION. Instruction fetch with the instruction caches, and the deferred faults that a thread meets before its next
instruction (spec/02_one_thread.md R22, R23; spec/07_isa_memory_access.md R144; spec/18_matrix_engine.md R316;
spec/21_faults_and_preemption.md R352). -/

namespace Sys2Proof.Machine

/-- The machine after an instruction line is read from memory: one of the host that no die holds, or of a peer, is as its owner may
have left it (R245, R246; notes/assumptions/22). -/
def State.lineOwner (s : State) (line : Nat) : State :=
  if isPeer (256 * line) || (List.range 4).all fun i => s.fromHost (256 * line + 64 * i) then s.outsideStore (256 * line) 256 else s

/-- The bytes of an instruction line as its die sees memory. -/
def State.lineBytes (s : State) (k key line : Nat) : List Byte := (s.lineOwner line).bytesAt (some (dieOf k)) key (256 * line) 256

/-- The cached bytes of an instruction line of a core, decrypted under the key of the fetch (R23, R254). -/
def State.icLine (s : State) (core key line : Nat) : Option (List Byte) :=
  (s.icache.find? fun e => e.1 == core && e.2.1 == line && e.2.2.1 == s.keyGen key).map (·.2.2.2)

/-- The line is read from memory: no cached one is there, or memory's is taken where its frame's class lets the die read it (R23,
R222; notes/assumptions/12). -/
def State.fromMemory (s : State) (k key line : Nat) : Bool :=
  (s.icLine (coreOf k) key line).isNone || (s.pick (1024 + line) % 2 == 0 && s.classOk (dieOf k) (256 * line) false)

/-- The line as it may be executed: the cached bytes, or memory's (R23; notes/assumptions/12). -/
def State.fetchLine (s : State) (k key line : Nat) : List Byte :=
  match s.icLine (coreOf k) key line with
  | some old => if s.fromMemory k key line then s.lineBytes k key line else old
  | none => s.lineBytes k key line

/-- The access of thread k's fetch at a PC: translation, execute permission and residency are checked at every fetch (R22). -/
def State.fetchAt (s : State) (k : Nat) (pc : Pc) : Except FaultInfo Access :=
  let a := pc.setWidth 64
  let err := fun c => Except.error (ε := FaultInfo) (α := Access) { cause := c, kind := .fetch, addr := a }
  match s.leafFor (Agent.core k) (s.ctxOf (s.thr k)) a .fetch with
  | .error c => err c
  | .ok l =>
    match s.place (Agent.core k) (s.ctxOf (s.thr k)) a 2 l with
    | .error (.fault c) => .error { cause := c, kind := .fetch, addr := a, step := stepBefore (s.regionWO (some (dieOf k)) (s.regionOf l.record)).1 }
    | .error .away => err .nonres
    | .ok x => .ok x

/-- The parcel at a PC of thread k. -/
def State.fetchParcel (s : State) (k : Nat) (pc : Pc) : Except FaultInfo Nat :=
  match s.fetchAt k pc with
  | .error f => .error f
  | .ok x =>
    let l := s.fetchLine k x.key (x.pa / 256)
    .ok ((l.getD (x.pa % 256) 0).toNat + 256 * (l.getD (x.pa % 256 + 1) 0).toNat)

/-- Lines of a core's instruction cache: 128 KiB of 256 bytes (R13, R213). -/
def icLines : Nat := 512

/-- The instruction caches with room for one more line of a core; which line gives way is free (R213; notes/assumptions/12). -/
def State.icRoom (s : State) (core : Nat) : List (Nat × Nat × Nat × List Byte) :=
  let own := s.icache.filter fun e => e.1 == core
  if own.length < icLines then s.icache
  else (own[s.pick 16 % own.length]?).elim s.icache s.icache.erase

/-- The caches after the fetch of the parcel that s finds at a PC: the line executed is the cached one (R23, R252), and one read from
memory is an access of its die to its frame (R222). -/
def State.fetched (s now : State) (k : Nat) (pc : Pc) : State :=
  match s.fetchAt k pc with
  | .error _ => now
  | .ok x =>
    let line := x.pa / 256
    let n0 := now.used k (s.thr k) (pc.setWidth 64)
    let n := if s.fromMemory k x.key line then ((n0.ncOut x).lineOwner line).classTouch (dieOf k) x.ctx x.pa else n0
    let m := { n with icache := n.icache.filter fun e => !(e.1 == coreOf k && e.2.1 == line && e.2.2.1 == s.keyGen x.key) }
    { m with icache := (coreOf k, line, s.keyGen x.key, s.fetchLine k x.key line) :: m.icRoom (coreOf k) }

/-- n parcels from a PC on, the first lowest; the one behind the end of the 57-bit space is the one at address 0
(notes/assumptions/48). -/
def State.fetchParcels (s : State) (k : Nat) (pc : Pc) : Nat → Except FaultInfo Nat
  | 0 => .ok 0
  | n + 1 =>
    match s.fetchParcel k pc with
    | .error f => .error f
    | .ok p =>
      match s.fetchParcels k (pc + 2) n with
      | .error f => .error f
      | .ok q => .ok (p + 65536 * q)

/-- The parcels of the instruction at a PC, zero-extended, by the length its first parcel gives (R64). -/
def State.fetchInst (s : State) (k : Nat) (pc : Pc) : Except FaultInfo (Word × State) :=
  match s.fetchParcel k pc with
  | .error f => .error f
  | .ok p =>
    let n := lengthOf (BitVec.ofNat 16 p) / 2
    match s.fetchParcels k pc n with
    | .error f => .error f
    | .ok w => .ok (BitVec.ofNat 64 w, (List.range n).foldl (fun x i => s.fetched x k (pc + BitVec.ofNat 57 (2 * i))) s)

/-- The fetch of thread k's next instruction waits: a page that it touches is frozen or COPYING (R262, R266), or a line to be read
from memory lies in a frame that is another die's (R222). -/
def State.fetchHeld (s : State) (k : Nat) (pc : Pc) : Bool :=
  (List.range 4).any fun i =>
    decide (2 * i < (match s.fetchParcel k pc with
      | .ok p => lengthOf (BitVec.ofNat 16 p)
      | .error _ => 2)) &&
    (match s.fetchAt k (pc + BitVec.ofNat 57 (2 * i)) with
      | .ok x => s.agentHeld x || ((s.icLine (coreOf k) x.key (x.pa / 256)).isNone && !s.classOk (dieOf k) x.pa false)
      | .error _ => false)

/-- The parcels that a record of a fault at a PC names; zero when they cannot be fetched. -/
def State.instAt (s : State) (k : Nat) : Word :=
  match s.fetchInst k (s.thr k).pc with
  | .ok (w, _) => w
  | .error _ => 0

/-- The fault that thread k meets before its next instruction: a refused TOUCH once its flag has fallen (R144), then what an array
left for it (R316): which of the two comes first is the model's choice (notes/assumptions/65); with the state that has it off the thread's list, and the parcels its record names. -/
def State.pendingOf (s : State) (k : Nat) : Option (State × Word × FaultInfo) :=
  let t := s.thr k
  match t.touchDue, t.mxErr with
  | some e, _ => some (s.updThread k fun t => { t with touchErr := t.touchErr.erase e }, 0,
      { cause := .nonres, kind := .load, addr := e.1, issuePc := e.2.1.setWidth 64 })
  | none, f :: _ => some (s.updThread k fun t => { t with mxErr := t.mxErr.drop 1 }, s.instAt k, f)
  | none, [] => none

/-- The members of a gang meet the faults that are due before their next instruction: every record's mask lists all of them (R353). -/
def State.raiseDue (s : State) (g : List Nat) : State :=
  g.foldl (fun x k => match x.pendingOf k with
    | some y => y.1.takeFault k (x.thr k).pc y.2.1 (laneMask g) y.2.2
    | none => x) s

/-- The due fault of thread k alone. -/
def State.raisePending (s : State) (k : Nat) : Option State := if (s.pendingOf k).isSome then some (s.raiseDue [k]) else none

end Sys2Proof.Machine
end

