-- ==== Sys2Proof/Machine/Geometry.lean ====
section
/-! DEFINITION. Exact geometry of the traversal unit: rational and quadratic numbers, boxes, bilinear patches, voxel
bricks, Gaussians and the march through a grid (spec/19_traversal_and_render.md R325, R326, R330-R335, R338). -/

namespace Sys2Proof.Machine

/-! ## Extended rationals: box bounds and ray ends may be infinite -/

inductive Ext where
  | low
  | fin (q : Rat)
  | high
  deriving DecidableEq, Repr

def Ext.le : Ext → Ext → Bool
  | .low, _ => true
  | _, .high => true
  | .fin a, .fin b => decide (a ≤ b)
  | .high, _ => false
  | .fin _, .low => false

def Ext.lt (a b : Ext) : Bool := a.le b && a != b
def Ext.max (a b : Ext) : Ext := if a.le b then b else a
def Ext.min (a b : Ext) : Ext := if a.le b then a else b

/-- The value of an FP32 encoding; none for NaN. -/
def ext32 (b : Nat) : Option Ext :=
  match Fmt.s.value b with
  | .nan _ _ _ => none
  | .inf true => some .low
  | .inf false => some .high
  | .fin n m => some (.fin (if n then -m else m))

/-- The value of a finite FP32 encoding. -/
def real32 (b : Nat) : Option Rat :=
  match ext32 b with
  | some (.fin q) => some q
  | _ => none

/-! ## Numbers x + y√d (R326) -/

structure Alg where
  x : Rat
  y : Rat := 0
  d : Rat := 0
  deriving DecidableEq, Repr

def ratSign (q : Rat) : Int := if q < 0 then -1 else if q = 0 then 0 else 1

def Alg.sign (a : Alg) : Int :=
  if a.y = 0 ∨ a.d = 0 then ratSign a.x
  else if 0 ≤ a.x ∧ 0 < a.y then 1
  else if a.x ≤ 0 ∧ a.y < 0 then -1
  else if 0 < a.x then ratSign (a.x * a.x - a.y * a.y * a.d)
  else ratSign (a.y * a.y * a.d - a.x * a.x)

/-- The square root both of two numbers of one field are over. -/
def Alg.root (a b : Alg) : Rat := if a.y = 0 then b.d else a.d
def Alg.add (a b : Alg) : Alg := { x := a.x + b.x, y := a.y + b.y, d := a.root b }
def Alg.mul (a b : Alg) : Alg := { x := a.x * b.x + a.y * b.y * a.root b, y := a.x * b.y + a.y * b.x, d := a.root b }
def Alg.scale (q : Rat) (a : Alg) : Alg := { x := q * a.x, y := q * a.y, d := a.d }
def Alg.div (a b : Alg) : Alg :=
  (a.mul { x := b.x, y := -b.y, d := b.d }).scale (1 / (b.x * b.x - b.y * b.y * b.d))

/-- The order of two numbers, of any fields: the sign of a − b. -/
def Alg.cmp (a b : Alg) : Int :=
  let l : Alg := { x := a.x - b.x, y := a.y, d := a.d }
  let r : Alg := { x := 0, y := b.y, d := b.d }
  let sl := l.sign
  let sr := r.sign
  if sl ≠ sr then (if sr < sl then 1 else -1)
  else if sl = 0 then 0
  else sl * (Alg.sign { x := l.x * l.x + l.y * l.y * l.d - r.y * r.y * r.d, y := 2 * l.x * l.y, d := l.d })

/-- The integer part. -/
def Alg.floor (a : Alg) : Int :=
  let z := a.y * a.y * a.d
  let r : Int := (isqrt 2000 z.floor.toNat : Nat)
  let m := a.x.floor + (if 0 ≤ a.y then r else -r - 1)
  if 0 ≤ Alg.sign { a with x := a.x - (m + 1 : Int) } then m + 1 else m

/-- A rational that rounds to FP32 as the number does: 2^-200 is finer than every boundary. -/
def Alg.near (a : Alg) : Rat :=
  let k : Rat := (2 ^ 200 : Nat)
  let m := (a.scale k).floor
  if Alg.sign { a.scale k with x := (a.scale k).x - m } = 0 then (m : Rat) / k else ((m : Rat) + 1 / 2) / k

def Alg.round32 (a : Alg) : Nat := Fmt.s.round false .rne false a.near

/-! ## Roots -/

/-- The root of a rational square. -/
def ratSqrt (q : Rat) : Option Rat :=
  let n := isqrt 2000 q.num.toNat
  let e := isqrt 2000 q.den
  if n * n = q.num.toNat ∧ e * e = q.den then some ((n : Rat) / (e : Rat)) else none

/-- The roots of a u² + b u + c, which is not the zero polynomial. -/
def quadRoots (a b c : Rat) : List Alg :=
  if a = 0 then (if b = 0 then [] else [{ x := -c / b }])
  else
    let disc := b * b - 4 * a * c
    if disc < 0 then [] else
    match ratSqrt disc with
    | some r => [{ x := (-b - r) / (2 * a) }, { x := (-b + r) / (2 * a) }]
    | none => [{ x := -b / (2 * a), y := -1 / (2 * a), d := disc }, { x := -b / (2 * a), y := 1 / (2 * a), d := disc }]

/-! ## Bilinear functions c + u·cu + v·cv + uv·cuv -/

structure Bil where
  c   : Rat
  cu  : Rat
  cv  : Rat
  cuv : Rat
  deriving DecidableEq, Repr

def Bil.eval (f : Bil) (u v : Alg) : Alg :=
  ((Alg.add { x := f.c } (u.scale f.cu)).add (v.scale f.cv)).add ((u.mul v).scale f.cuv)

def Bil.isZero (f : Bil) : Bool := f.c == 0 && f.cu == 0 && f.cv == 0 && f.cuv == 0

/-- A sum of bilinear functions with weights. -/
def Bil.comb (a : Rat) (f : Bil) (b : Rat) (g : Bil) : Bil :=
  { c := a * f.c + b * g.c, cu := a * f.cu + b * g.cu, cv := a * f.cv + b * g.cv, cuv := a * f.cuv + b * g.cuv }

/-- Points of the line u = u0 that an optimum of T at or above the bound can take: its ends and the bound. -/
def lineAtU (t : Option Bil) (u : Alg) : List (Alg × Alg) :=
  [(u, { x := 0 }), (u, { x := 1 })] ++
  (match t with
    | none => []
    | some g =>
      let b := Alg.add { x := g.cv } (u.scale g.cuv)
      if b.sign = 0 then [] else [(u, ((Alg.add { x := g.c } (u.scale g.cu)).div b).scale (-1))])

/-- The common zeros of two bilinear functions, when they are finitely many lines and points; g is the function that the
bound sets to zero (none: no bound). -/
def solvePair (bound : Option Bil) (f g : Bil) : List (Alg × Alg) :=
  let a := f.cu * g.cuv - g.cu * f.cuv
  let b := f.c * g.cuv + f.cu * g.cv - g.c * f.cuv - g.cu * f.cv
  let c := f.c * g.cv - g.c * f.cv
  if a = 0 ∧ b = 0 ∧ c = 0 then [] else
  (quadRoots a b c).flatMap fun u =>
    let bf := Alg.add { x := f.cv } (u.scale f.cuv)
    let bg := Alg.add { x := g.cv } (u.scale g.cuv)
    if bf.sign ≠ 0 then [(u, ((Alg.add { x := f.c } (u.scale f.cu)).div bf).scale (-1))]
    else if bg.sign ≠ 0 then [(u, ((Alg.add { x := g.c } (u.scale g.cu)).div bg).scale (-1))]
    else lineAtU bound u

/-- The zeros of a bilinear function on the four edges of the unit square; an edge of zeros gives its ends. -/
def edgeZeros (f : Bil) : List (Alg × Alg) :=
  let z := fun (c0 c1 : Rat) => if c1 = 0 then (if c0 = 0 then [(0 : Rat), 1] else []) else [-c0 / c1]
  (z f.c f.cv).map (fun v => ({ x := 0 }, { x := v })) ++ (z (f.c + f.cu) (f.cv + f.cuv)).map (fun v => ({ x := 1 }, { x := v })) ++
  (z f.c f.cu).map (fun u => ({ x := u }, { x := 0 })) ++ (z (f.c + f.cv) (f.cu + f.cuv)).map (fun u => ({ x := u }, { x := 1 }))

/-- Where the gradients of two bilinear functions are parallel: a linear function of (u, v). -/
def Bil.jacobian (t f : Bil) : Bil :=
  { c := t.cu * f.cv - t.cv * f.cu, cu := t.cu * f.cuv - t.cuv * f.cu, cv := t.cuv * f.cv - t.cv * f.cuv, cuv := 0 }

/-- The curve that f and g share when their zeros are more than points and lines of constant u. -/
def sharedCurve (f g : Bil) : Bil :=
  if f.isZero then g else if g.isZero then f
  else if f.c * g.cu = f.cu * g.c ∧ f.c * g.cv = f.cv * g.c ∧ f.c * g.cuv = f.cuv * g.c ∧ f.cu * g.cv = f.cv * g.cu ∧ f.cu * g.cuv = f.cuv * g.cu ∧ f.cv * g.cuv = f.cuv * g.cv then f
  else if f.c ≠ 0 ∨ f.cv ≠ 0 then { c := f.c, cu := 0, cv := f.cv, cuv := 0 } else { c := f.cu, cu := 0, cv := f.cuv, cuv := 0 }

def corners : List (Alg × Alg) := [({ x := 0 }, { x := 0 }), ({ x := 0 }, { x := 1 }), ({ x := 1 }, { x := 0 }), ({ x := 1 }, { x := 1 })]

/-- A finite set of points of the unit square that holds the least (t, u, v) of the zeros of f and g with t at or above the
bound. -/
def leastCandidates (f g t : Bil) (bound : Option Rat) : List (Alg × Alg) :=
  let tb := bound.map fun b => { t with c := t.c - b }
  if f.isZero ∧ g.isZero then corners ++ (match tb with
      | some h => edgeZeros h
      | none => [])
  else
    let h := sharedCurve f g
    solvePair tb f g ++ edgeZeros h ++ solvePair tb h (t.jacobian h) ++ (match tb with
      | some k => solvePair tb h k
      | none => [])

/-! ## Rays (R330) -/

structure Ray where
  o    : List Rat
  d    : List Rat
  tmin : Ext
  tmax : Ext
  deriving DecidableEq, Repr

/-- The least of a list under an order that tells whether its first argument goes before its second. -/
def leastBy {α : Type} (lt : α → α → Bool) : List α → Option α
  | [] => none
  | x :: t => match leastBy lt t with
    | none => some x
    | some y => if lt y x then some y else some x

def at3 (l : List Rat) (i : Nat) : Rat := l.getD i 0

/-! ## Patches (R325, R331, R332) -/

/-- A hit: exact t, u and v. -/
structure PatchHit where
  t : Alg
  u : Alg
  v : Alg
  deriving DecidableEq, Repr

def PatchHit.before (a b : PatchHit) : Bool :=
  let c := a.t.cmp b.t
  let d := a.u.cmp b.u
  c < 0 || (c == 0 && (d < 0 || (d == 0 && a.v.cmp b.v < 0)))

/-- Coordinate i of the surface, from the twelve vertex coordinates. -/
def patchCoord (p : List Rat) (i : Nat) : Bil :=
  let q := fun k => at3 p (3 * k + i)
  { c := q 0, cu := q 1 - q 0, cv := q 2 - q 0, cuv := q 3 - q 1 - q 2 + q 0 }

/-- Two directions across the ray's. -/
def across (d : List Rat) : List (List Rat) :=
  if at3 d 0 ≠ 0 then [[-at3 d 1, at3 d 0, 0], [-at3 d 2, 0, at3 d 0]]
  else if at3 d 1 ≠ 0 then [[1, 0, 0], [0, -at3 d 2, at3 d 1]]
  else [[1, 0, 0], [0, 1, 0]]

/-- The surface minus the origin, along a direction. -/
def patchAlong (p o w : List Rat) : Bil :=
  let c := fun i => { patchCoord p i with c := (patchCoord p i).c - at3 o i }
  Bil.comb 1 (Bil.comb (at3 w 0) (c 0) (at3 w 1) (c 1)) (at3 w 2) (c 2)

def Alg.unit (a : Alg) : Bool := decide (0 ≤ a.sign) && decide (a.cmp { x := 1 } ≤ 0)

/-- The ray's hit of a patch with the least (t, u, v) (R331). -/
def patchHit (r : Ray) (p : List Rat) : Option PatchHit :=
  let ws := across r.d
  let f := patchAlong p r.o (ws.getD 0 [])
  let g := patchAlong p r.o (ws.getD 1 [])
  let dd := at3 r.d 0 * at3 r.d 0 + at3 r.d 1 * at3 r.d 1 + at3 r.d 2 * at3 r.d 2
  let t := Bil.comb (1 / dd) (patchAlong p r.o r.d) 0 f
  let lo := match r.tmin with
    | .fin q => some q
    | _ => none
  let ok := fun (h : PatchHit) => h.u.unit && h.v.unit && (f.eval h.u h.v).sign == 0 && (g.eval h.u h.v).sign == 0 &&
    (match r.tmin with
      | .low => true
      | .fin q => decide (0 ≤ h.t.cmp { x := q })
      | .high => false) &&
    (match r.tmax with
      | .high => true
      | .fin q => decide (h.t.cmp { x := q } ≤ 0)
      | .low => false)
  leastBy PatchHit.before ((((leastCandidates f g t lo).map fun c => ({ t := t.eval c.1 c.2, u := c.1, v := c.2 } : PatchHit))).filter ok)

/-- The normal Pu × Pv at (u, v) (R332). -/
def patchNormal (p : List Rat) (u v : Rat) : List Rat :=
  let q := fun k i => at3 p (3 * k + i)
  let pu := fun i => (1 - v) * (q 1 i - q 0 i) + v * (q 3 i - q 2 i)
  let pv := fun i => (1 - u) * (q 2 i - q 0 i) + u * (q 3 i - q 1 i)
  [pu 1 * pv 2 - pu 2 * pv 1, pu 2 * pv 0 - pu 0 * pv 2, pu 0 * pv 1 - pu 1 * pv 0]

/-! ## Boxes (R324, R331, R338) -/

/-- The range of t in which coordinate i of the ray lies in [lo, hi]. -/
def slabRange (o d : Rat) (lo hi : Ext) : Ext × Ext :=
  if d = 0 then (if lo.le (.fin o) && Ext.le (.fin o) hi then (.low, .high) else (.high, .low))
  else
    let f := fun (e : Ext) => match e with
      | .fin q => Ext.fin ((q - o) / d)
      | .low => if 0 < d then .low else .high
      | .high => if 0 < d then .high else .low
    if 0 < d then (f lo, f hi) else (f hi, f lo)

/-- The range of t of the ray's points in a box of six bounds, min first. -/
def boxRange (r : Ray) (b : List Ext) : Ext × Ext :=
  let g := fun i => b.getD i .low
  (List.range 3).foldl (fun acc i =>
    let s := slabRange (at3 r.o i) (at3 r.d i) (g i) (g (i + 3))
    (acc.1.max s.1, acc.2.min s.2)) (r.tmin, r.tmax)

/-- A range holds a real number. -/
def rangeMeets (x : Ext × Ext) : Bool := x.1.le x.2 && x.1 != .high && x.2 != .low

/-- A child's box is one that can be entered: no NaN, no min above max (R324). -/
def boxOf (words : List Nat) : Option (List Ext) :=
  let es := words.filterMap ext32
  if es.length = 6 ∧ ((List.range 3).all fun i => (es.getD i .low).le (es.getD (i + 3) .low)) then some es else none

/-- Two closed boxes meet. -/
def boxesMeet (a b : List Ext) : Bool :=
  (List.range 3).all fun i => (a.getD i .low).le (b.getD (i + 3) .low) && (b.getD i .low).le (a.getD (i + 3) .low)

/-! ## Bricks (R325, R331) -/

/-- A brick: its corner and cell size, and its occupied cells. -/
structure Brick where
  corner : List Rat
  size   : Rat
  occ    : List Bool
  deriving DecidableEq, Repr

def cellXyz (j : Nat) : List Nat := [j % 8, j / 8 % 8, j / 64]

def Brick.cellBox (b : Brick) (j : Nat) : List Ext :=
  let lo := (List.range 3).map fun i => at3 b.corner i + b.size * ((cellXyz j).getD i 0 : Nat)
  lo.map Ext.fin ++ lo.map fun q => Ext.fin (q + b.size)

/-- The first cell that the ray meets: its t and its index (R331). -/
def brickHit (r : Ray) (b : Brick) : Option (Rat × Nat) :=
  leastBy (fun x y => decide (x.1 < y.1) || (x.1 == y.1 && decide (x.2 < y.2))) ((List.range 512).filterMap fun j =>
    if b.occ.getD j false then
      let s := boxRange r (b.cellBox j)
      if rangeMeets s then (match s.1 with
        | .fin q => some (q, j)
        | _ => none) else none
    else none)

/-- The face of a cell on which the ray's point at t lies: the lowest number, 6 in the interior (R331). -/
def brickFace (r : Ray) (b : Brick) (t : Rat) (j : Nat) : Nat :=
  ((List.range 6).find? fun f =>
    let i := f / 2
    at3 r.o i + t * at3 r.d i == at3 b.corner i + b.size * (((cellXyz j).getD i 0 + f % 2 : Nat) : Rat)).getD 6

/-! ## Gaussians (R333) -/

/-- The quadratic form of six entries xx, xy, xz, yy, yz, zz. -/
def form (m : List Rat) (a b : List Rat) : Rat :=
  at3 a 0 * (at3 m 0 * at3 b 0 + at3 m 1 * at3 b 1 + at3 m 2 * at3 b 2) +
  at3 a 1 * (at3 m 1 * at3 b 0 + at3 m 3 * at3 b 1 + at3 m 4 * at3 b 2) +
  at3 a 2 * (at3 m 2 * at3 b 0 + at3 m 4 * at3 b 1 + at3 m 5 * at3 b 2)

/-- The exact t at which a Gaussian of positive extent along the ray is hit (R333): mean, inverse covariance. -/
def gaussAt (r : Ray) (mu m : List Rat) : Rat := form m (List.zipWith (· - ·) mu r.o) r.d / form m r.d r.d

/-- The rounded t of a Gaussian's hit (R333): mean, inverse covariance, opacity. -/
def gaussHit (r : Ray) (mu m : List Rat) (alpha : Ext) : Option Nat :=
  if form m r.d r.d ≤ 0 ∨ alpha.le (.fin 0) then none else
  let tg := gaussAt r mu m
  let off := (List.range 3).map fun i => at3 r.o i + tg * at3 r.d i - at3 mu i
  let tr := Fmt.s.round false .rne false tg
  match ext32 tr with
  | some e => if form m off off ≤ 9 ∧ r.tmin.le e ∧ e.le r.tmax then some tr else none
  | none => none

/-! ## The march (R335) -/

/-- A grid: origin, cell size, cells along x, y and z. -/
structure Grid where
  o : List Rat
  c : Rat
  n : List Nat
  deriving DecidableEq, Repr

/-- The cell coordinate of axis i just after t (notes/assumptions/29). -/
def Grid.coord (g : Grid) (r : Ray) (t : Rat) (i : Nat) : Int :=
  let x := (at3 r.o i + t * at3 r.d i - at3 g.o i) / g.c
  if at3 r.d i < 0 then x.ceil - 1
  else if at3 r.d i = 0 ∧ x = ((g.n.getD i 0 : Nat) : Rat) then x.floor - 1 else x.floor

/-- The t at which the ray leaves cell coordinate k of axis i. -/
def Grid.leave (g : Grid) (r : Ray) (k : Int) (i : Nat) : Ext :=
  if at3 r.d i = 0 then .high
  else .fin ((at3 g.o i + g.c * (if 0 < at3 r.d i then k + 1 else k : Int) - at3 r.o i) / at3 r.d i)

def Grid.holds (g : Grid) (c : List Int) : Bool :=
  (List.range 3).all fun i => decide (0 ≤ c.getD i (-1)) && decide (c.getD i (-1) < (g.n.getD i 0 : Nat))

/-- Cells from one on: each with its exit t; and whether the march ended within the count. -/
def Grid.cells (g : Grid) (r : Ray) (c : List Int) : Nat → List (List Int × Rat) × Bool
  | 0 => ([], !g.holds c)
  | k + 1 =>
    if !g.holds c then ([], true) else
    let ex := (List.range 3).map fun i => g.leave r (c.getD i 0) i
    match ex.foldl Ext.min .high with
    | .fin t =>
      if r.tmax.le (.fin t) then ([(c, t)], true)
      else
        let next := (List.range 3).map fun i => if ex.getD i .high = .fin t then (if 0 < at3 r.d i then c.getD i 0 + 1 else c.getD i 0 - 1) else c.getD i 0
        let rest := g.cells r next k
        ((c, t) :: rest.1, rest.2)
    | _ => ([], true)

/-- The march: up to four cells with the exit t of the last, and whether it ended. -/
def Grid.march (g : Grid) (r : Ray) : List (List Int) × Option Rat × Bool :=
  let lo := (List.range 3).map fun i => Ext.fin (at3 g.o i)
  let hi := (List.range 3).map fun i => Ext.fin (at3 g.o i + g.c * ((g.n.getD i 0 : Nat) : Rat))
  let s := boxRange r (lo ++ hi)
  match rangeMeets s, s.1 with
  | true, .fin t0 =>
    if r.tmax.le (.fin t0) then ([], none, true)
    else
      let cs := g.cells r ((List.range 3).map (g.coord r t0)) 4
      (cs.1.map (·.1), cs.1.getLast?.map (·.2), cs.2)
  | _, _ => ([], none, true)

end Sys2Proof.Machine
end

