-- ==== Sys2Proof/Machine/Traverse.lean ====
section
/-! DEFINITION. The traversal unit: its reads, hierarchies, TRACE, TRACEK, MARCH and HITATTR
(spec/19_traversal_and_render.md R323-R335, R342). -/

namespace Sys2Proof.Machine

/-! ## The unit's reads (R328, R329) -/

/-- What the unit has done: the state, and a value or an error code with the address it concerns. -/
abbrev TM (α : Type) := State × Except (Nat × Word) α

def TM.bind {α β : Type} (x : TM α) (f : State → α → TM β) : TM β :=
  match x with
  | (s, .ok v) => f s v
  | (s, .error e) => (s, .error e)

/-- The code of a translation that fails (R328). -/
def unitCode : AccErr → Nat
  | .away => 0x05
  | .fault .perm => 0x04
  | .fault .vretired => 0x11
  | .fault _ => 0x03

/-- The thread of an operation. -/
def State.opThr (s : State) (q : Nat) : Nat := ((s.ops.find q).map (·.thr)).getD 0

/-- What operation q keeps of its accesses, changed. -/
def State.unitUpd (s : State) (q : Nat) (f : UnitSt → UnitSt) : State :=
  { s with ops := s.ops.upd q fun o => { o with kind := o.kind.withUnit f } }

def State.unitOf (s : State) (q : Nat) : UnitSt := ((s.ops.find q).map (·.kind.unitSt)).getD {}

/-- The code of an answer of a peer that is a fault (R328, R411). -/
def peerCode : Cause → Nat
  | .nonres => 0x05
  | .perm => 0x04
  | _ => 0x03

/-- AN ACCESS OF OPERATION q, which goes on once nothing holds it: program order, its frame's class, its page, its place in the caches
and, of a peer, the owner's acceptance (R217, R222, R231, R262, R266, R329, R411, R414). Code 0 says that it waits: the operation then asks for
it as any access of its core does. -/
def State.unitAccess {α : Type} (s : State) (q : Nat) (a : Access) (write : Bool) (go : State → Op → TM α) : TM α :=
  let s1 := s.unitUpd q fun u => { u with want := some (a, write), level := if u.want = some (a, write) then u.level else s.heldLevel (s.opThr q) a }
  match s1.ops.find q with
  | none => (s, .error (0, BitVec.ofNat 64 a.va))
  | some o =>
    if !s1.canPerform q o false || (isPeer a.pa && s1.peerWaits.any fun w => w.op == q && decide (s1.ptp < w.notBefore)) then (s1, .error (0, BitVec.ofNat 64 a.va)) else
    match s1.askOwner q o a with
    | .wait s2 => (s2, .error (0, BitVec.ofNat 64 a.va))
    | .bad s2 c => (s2, .error (peerCode c, BitVec.ofNat 64 a.va))
    | .yes s2 => go (s2.unitUpd q fun u => { u with want := none }) o

/-- What a read of an operation of the unit finds: its sector as a later access of the thread met it, else memory as its die sees it
(R231, R236, R329). -/
def State.unitValue (s : State) (q : Nat) (o : Op) (a : Access) : Word :=
  match (s.unitOf q).snap.find? fun x => x.1 == s.paNow a / 64 && x.2.1 == a.key with
  | some x => BitVec.ofNat 64 (ofLe ((x.2.2.drop (s.paNow a % 64)).take a.size))
  | none => s.loadValue q o.thr a

/-- One aligned item of n bytes read by the unit for operation q, a plain read of its thread's context through the core's caches; an
item that the operation has read stays as it was read (R217, R329). -/
def State.unitRead (s : State) (q : Nat) (va : Word) (n : Nat) : TM Word :=
  match (s.unitOf q).got.find (16 * va.toNat + n) with
  | some w => (s, .ok w)
  | none =>
    let k := s.opThr q
    match s.accessFor (Agent.core k) (s.ctxOf (s.thr k)) va n .read with
    | .error e => (s, .error (unitCode e, va))
    | .ok a =>
      (s.used k (s.thr k) va).unitAccess q a false fun s1 o =>
        if s1.badMem.contains (s1.paNow a / 64) then (s1, .error (0x0B, va)) else
        let w := s1.unitValue q o a
        ((s1.readNow q o a).unitUpd q fun u => { u with got := u.got.put (16 * va.toNat + n) w }, .ok w)

/-- n words from va on. -/
def State.unitWords (s : State) (k : Nat) (va : Word) : Nat → TM (List Word)
  | 0 => (s, .ok [])
  | n + 1 => (s.unitRead k va 8).bind fun s1 w => (s1.unitWords k (va + 8) n).bind fun s2 ws => (s2, .ok (w :: ws))

/-- The address lies in the package's device memory, as far as it translates; one that does not gives its own code when it is used
(R328). -/
def State.unitDevice (s : State) (k : Nat) (va : Word) (need : Need) : Bool :=
  match s.accessFor (Agent.core (s.opThr k)) (s.ctxOf (s.thr (s.opThr k))) va 1 need with
  | .ok a => isDevice (s.paNow a)
  | .error _ => true

/-- FP32 item i of words. -/
def f32At (ws : List Word) (i : Nat) : Nat := bits (wordAt ws (i / 2)) (32 * (i % 2) + 31) (32 * (i % 2))

/-- A count of an operation rises, which its block's counts take in when the operation comes so far (R342). -/
def State.countUp (s : State) (k : Nat) (f : Render → Render) : State := s.unitUpd k fun u => { u with count := f u.count }

/-- An operation of the unit has come to a place that it does not go back behind: its counts are its block's, and what it reads from here
on it reads anew (R329, R342). -/
def State.unitPoint (s : State) (q : Nat) : State :=
  (s.updBlock (s.thr (s.opThr q)).blk fun b => { b with render := b.render.add (s.unitOf q).count }).unitUpd q fun u => { u with got := [], count := {} }

/-! ## Hierarchies (R323, R324) -/

/-- The descriptor at va (R323). -/
def State.readHier (s : State) (k : Nat) (va : Word) : TM Hier :=
  if va.toNat % 64 ≠ 0 then (s, .error (0x07, va)) else
  (s.unitWords k va 8).bind fun s1 h =>
    let w := wordAt h
    if !s1.unitDevice k va .read || bits (w 0) 63 57 != 0 || bits (w 1) 63 57 != 0 || bits (w 2) 63 57 != 0 || bits (w 3) 63 34 != 0 || bits (w 4) 63 32 != 0 ||
       (h.drop 5).any (· != 0) || (w 0).toNat % 128 != 0 || (w 1).toNat % 16 != 0 || (w 2).toNat % 4 != 0 || bits (w 3) 33 32 == 3 || bits (w 3) 31 0 == 0 then
      (s1, .error (0x07, va))
    else (s1, .ok { root := w 0, prims := w 1, refs := w 2, kind := bits (w 3) 33 32, nprim := bits (w 3) 31 0, nref := bits (w 4) 31 0 })

/-- A child of a node: its box as bits and its word. -/
structure Child where
  box  : List Nat
  word : Word
  deriving DecidableEq, Repr

def Child.kind (c : Child) : Nat := bits c.word 63 62
def Child.target (c : Child) : Word := BitVec.ofNat 64 (bits c.word 56 0)
def Child.first (c : Child) : Nat := bits c.word 31 0
def Child.count (c : Child) : Nat := bits c.word 61 58 + 1

/-- The child may be entered at all: not empty, and its box is one (R324). -/
def Child.live (c : Child) : Bool := c.kind != 0 && (boxOf c.box).isSome

/-- A malformed child word (R324). -/
def Child.bad (c : Child) : Bool :=
  c.kind == 3 || (c.kind == 1 && (bits c.word 61 57 != 0 || c.target.toNat % 128 != 0)) || (c.kind == 2 && bits c.word 57 32 != 0)

/-- The children of the node at va: one malformed child word makes the node malformed (R324). -/
def State.readNode (s : State) (k : Nat) (va : Word) : TM (List Child) :=
  if va.toNat % 128 ≠ 0 then (s, .error (0x06, va)) else
  ((s.countUp k fun r => { r with nodes := r.nodes + 1 }).unitWords k va 16).bind fun s1 ws =>
    let cs := (List.range 4).map fun c => ({ box := (List.range 6).map fun i => f32At ws (6 * c + i), word := wordAt ws (12 + c) } : Child)
    (s1, if cs.any Child.bad then .error (0x06, va) else .ok cs)

/-- Reference i of a leaf: the primitive's ID (R324). -/
def State.readRef (s : State) (k : Nat) (h : Hier) (i : Nat) : TM Nat :=
  if h.nref ≤ i then (s, .error (0x06, h.refs)) else
  (s.unitRead k (h.refs + BitVec.ofNat 64 (4 * i)) 4).bind fun s1 w => if h.nprim ≤ w.toNat then (s1, .error (0x06, h.refs)) else (s1, .ok w.toNat)

/-- Depth first from a node, children in ascending slot order, references in leaf order; enter tells which boxes are
entered and with what part of the ray, prim tests one reference on that part, stop ends the walk (R326, R331). fuel is the depth
that is left (R328). -/
def State.walkTree {α β : Type} (k : Nat) (h : Hier) (enter : β → List Ext → Option β) (stop : α → Bool) (prim : β → State → Nat → α → TM α) :
    Nat → β → State → Word → α → TM α
  | 0, _, s, va, _ => (s, .error (0x08, va))
  | fuel + 1, r, s, va, acc =>
    (s.readNode k va).bind fun s1 cs =>
      cs.foldl (fun (m : TM α) c => m.bind fun x a =>
        if stop a || !c.live then (x, .ok a) else
        match (boxOf c.box).bind (enter r) with
        | none => (x, .ok a)
        | some r1 =>
          if c.kind = 1 then State.walkTree k h enter stop prim fuel r1 x c.target a
          else (List.range c.count).foldl (fun (q : TM α) i => q.bind fun y b =>
            if stop b then (y, .ok b) else (y.readRef k h (c.first + i)).bind fun z id => prim r1 z id b) (x, .ok a)) (s1, .ok acc)

/-! ## Primitives (R325) -/

/-- Words of primitive id, of the hierarchy's stride. -/
def State.readPrim (s : State) (k : Nat) (h : Hier) (id : Nat) : TM (List Word) :=
  let stride := if h.kind = 1 then 96 else 48
  s.unitWords k (h.prims + BitVec.ofNat 64 (stride * id)) (stride / 8)

/-- The twelve coordinates of a patch; none when one is not finite (R325). -/
def patchOf (ws : List Word) : Option (List Rat) :=
  let l := (List.range 12).filterMap fun i => real32 (f32At ws i)
  if l.length = 12 then some l else none

/-- A brick with its material; none when it is malformed (R325). -/
def brickOf (ws : List Word) : Option (Brick × Nat) :=
  match real32 (f32At ws 16), real32 (f32At ws 17), real32 (f32At ws 18), real32 (f32At ws 19) with
  | some x, some y, some z, some c =>
    if c ≤ 0 ∨ bits (wordAt ws 10) 63 32 ≠ 0 ∨ wordAt ws 11 ≠ 0 then none
    else some ({ corner := [x, y, z], size := c, occ := (List.range 512).map fun j => bit (wordAt ws (j / 64)) (j % 64) }, f32At ws 20)
  | _, _, _, _ => none

/-- A Gaussian's mean, inverse covariance and opacity; none when one of its numbers is not finite
(notes/assumptions/29). -/
def gaussOf (ws : List Word) : Option (List Rat × List Rat × Ext) :=
  let l := (List.range 9).filterMap fun i => real32 (f32At ws i)
  match ext32 (f32At ws 9) with
  | some a => if l.length = 9 then some (l.take 3, l.drop 3, a) else none
  | none => none

/-! ## Rays (R330) -/

/-- The ray of four operand registers; none is BADRAY (R330). -/
def rayOf (a : Nat → Word) : Option Ray :=
  let lo := fun i => bits (a i) 31 0
  let hi := fun i => bits (a i) 63 32
  match real32 (lo 0), real32 (hi 0), real32 (lo 1), real32 (lo 2), real32 (hi 2), real32 (lo 3), ext32 (hi 1), ext32 (hi 3) with
  | some ox, some oy, some oz, some dx, some dy, some dz, some t0, some t1 =>
    if dx = 0 ∧ dy = 0 ∧ dz = 0 then none else some { o := [ox, oy, oz], d := [dx, dy, dz], tmin := t0, tmax := t1 }
  | _, _, _, _, _, _, _, _ => none

/-! ## Results (R327, R328) -/

/-- Landings of a result block: the status word at index st of the words; an error gives zeros and a marked status. -/
def traverseOut (pc : Pc) (vd st m : Nat) : Except (Nat × Word) (List Word) → List Landing
  | .ok ws => (List.range m).map fun i => .reg (vd + i) (wordAt ws i) none
  | .error (c, va) => (List.range m).map fun i => .reg (vd + i) (if i = st then pack [(1, 63), (c, 48)] else 0)
      (if i = st then some { issuePc := pc.setWidth 64, source := 19, code := c, addr := va } else none)

/-- An instruction of the unit issues: an operand block of n registers at va, m results from vd (R327). -/
def State.traverse (s : State) (c : Ctl) (n vd va m : Nat) (extra : List Nat) (pre : Nat → Option FaultInfo) (query : Thread → UnitQ) : State :=
  let blk := extra ++ (List.range n).map (va + ·)
  s.runGang (issue64 c) (blk ++ (List.range m).map (vd + ·)) blk true fun s l recv =>
    match pre l with
    | some f => .error f
    | none =>
      let t := s.thr l
      .ok (s.startOp (issue64 c) (issue64 c).flag.isNone {} l recv (0, none) (.unit { q := query t, vd := vd, a := (List.range n).map fun i => t.reg (va + i) }))

/-! ## TRACE (R331) -/

/-- A chosen candidate. -/
structure Hit where
  t    : Alg
  id   : Nat
  u    : Alg := { x := 0 }
  v    : Alg := { x := 0 }
  cell : Nat := 0
  face : Nat := 0
  mat  : Nat := 0
  deriving DecidableEq, Repr

/-- The order of closest-hit: t, then the ID (R331). -/
def Hit.before (a b : Hit) : Bool := decide (a.t.cmp b.t < 0) || (decide (a.t.cmp b.t = 0) && decide (a.id < b.id))

/-- The part of a ray inside a box, where it has one: what lies in the box's subtree is found only within it (R326). -/
def Ray.within (r : Ray) (b : List Ext) : Option Ray :=
  let x := boxRange r b
  if rangeMeets x then some { r with tmin := x.1, tmax := x.2 } else none

/-- A primitive's test by the part of a ray inside the boxes above it (R326, R331). -/
def State.tracePrim (k : Nat) (h : Hier) (r : Ray) (s : State) (id : Nat) (best : Option Hit) : TM (Option Hit) :=
  ((s.countUp k fun c => { c with tests := c.tests + 1 }).readPrim k h id).bind fun s1 ws =>
    let found : Option (Option Hit) :=
      if h.kind = 0 then (patchOf ws).map fun p => (patchHit r p).map fun x => { t := x.t, id := id, u := x.u, v := x.v }
      else (brickOf ws).map fun b => (brickHit r b.1).map fun x => { t := { x := x.1 }, id := id, cell := x.2, face := brickFace r b.1 x.1 x.2, mat := b.2 }
    match found with
    | none => (s1, .error (0x06, h.prims))
    | some none => (s1, .ok best)
    | some (some x) => (s1, .ok (match best with
        | none => some x
        | some y => if x.before y then some x else some y))

/-- The result words of a TRACE (R331). -/
def hitWords (h : Hier) (base : Nat) : Option Hit → List Word
  | none => [0, 0, 0]
  | some x =>
    [pack [(if h.kind = 0 then 1 else 2, 32), (x.id, 0)], pack [((base + (if h.kind = 0 then x.id else x.mat)) % 2 ^ 32, 32), (x.t.round32, 0)],
     if h.kind = 0 then pack [(x.v.round32, 32), (x.u.round32, 0)] else pack [(x.face, 9), (x.cell, 0)]]

/-- The query of a TRACE. -/
def State.doTrace (s : State) (k : Nat) (anyHit : Bool) (a : Nat → Word) : TM (List Word) :=
  let s0 := s.countUp k fun r => { r with rays := r.rays + 1 }
  match rayOf a with
  | none => (s0, .error (0x01, 0))
  | some r =>
    (s0.readHier k (a 4)).bind fun s1 h =>
      if h.kind = 2 then (s1, .error (0x02, a 4)) else
      (State.walkTree k h Ray.within (fun (x : Option Hit) => anyHit && x.isSome) (State.tracePrim k h) 64 r s1 h.root none).bind fun s2 x =>
        (s2.countUp k fun c => if x.isSome then { c with hits := c.hits + 1 } else c, .ok (hitWords h (bits (a 5) 63 32) x))

/-- TRACE (R327, R331). -/
def execTrace (c : Ctl) (anyHit : Bool) (vd va : Reg) (s : State) : Out :=
  .next (s.traverse c 6 vd.toNat va.toNat 3 [] (fun _ => none) fun _ => .trace anyHit)

/-! ## HITATTR (R332) -/

/-- Round to FP32, nearest even. -/
def round32 (q : Rat) : Nat := Fmt.s.round false .rne false q

/-- The normal's two words; the status word with Nz is the second. -/
def normalWords (n : List Rat) : List Word := [pack [(round32 (at3 n 1), 32), (round32 (at3 n 0), 0)], pack [(round32 (at3 n 2), 0)]]

/-- The outward normal of a brick's face. -/
def faceNormal (f : Nat) : List Rat := (List.range 3).map fun i => if f / 2 = i ∧ f < 6 then (if f % 2 = 0 then -1 else 1) else 0

/-- The normal at a TRACE result; a u or v that is no number gives an unstated value (notes/assumptions/28). -/
def State.doHitattr (s : State) (k : Nat) (a : Nat → Word) (desc : Word) : TM (List Word) :=
  let kind := bits (a 0) 39 32
  let id := bits (a 0) 31 0
  if kind = 0 then (s, .ok [0, 0]) else
  if 2 < kind then (s, .error (0x02, desc)) else
  (s.readHier k desc).bind fun s1 h =>
    if h.kind + 1 ≠ kind then (s1, .error (0x02, desc)) else
    if h.nprim ≤ id then (s1, .error (0x06, h.prims)) else
    (s1.readPrim k h id).bind fun s2 ws =>
      if kind = 1 then
        match patchOf ws, real32 (bits (a 2) 31 0), real32 (bits (a 2) 63 32) with
        | none, _, _ => (s2, .error (0x06, h.prims))
        | some p, some u, some v => (s2, .ok (normalWords (patchNormal p u v)))
        | some _, _, _ => (s2, .ok [Config.unstated s.draws 0, BitVec.ofNat 64 (bits (Config.unstated s.draws 1) 31 0)])
      else
        match brickOf ws with
        | none => (s2, .error (0x06, h.prims))
        | some _ =>
          if bits (a 2) 11 9 = 7 then (s2, .ok [Config.unstated s.draws 0, BitVec.ofNat 64 (bits (Config.unstated s.draws 1) 31 0)])
          else (s2, .ok (normalWords (faceNormal (bits (a 2) 11 9))))

/-- HITATTR (R332). -/
def execHitattr (c : Ctl) (vd va vb : Reg) (s : State) : Out :=
  .next (s.traverse c 3 vd.toNat va.toNat 2 [vb.toNat] (fun _ => none) fun t => .hitattr (t.reg vb.toNat))

/-! ## TRACEK (R333, R334) -/

/-- A key: the rounded t and the ID. -/
def keyBefore (a b : Nat × Nat) : Bool :=
  match ext32 a.1, ext32 b.1 with
  | some x, some y => x.lt y || (x.le y && y.le x && decide (a.2 < b.2))
  | _, _ => false

/-- Keys in order, each once. -/
def insertKey (k : Nat × Nat) : List (Nat × Nat) → List (Nat × Nat)
  | [] => [k]
  | x :: t => if k = x then x :: t else if keyBefore k x then k :: x :: t else x :: insertKey k t

/-- Rounding of R333 on a bound of a range. -/
def Ext.rounded : Ext → Ext
  | .fin q => (ext32 (round32 q)).getD .low
  | .low => .low
  | .high => .high

/-- The part of a ray's whole line inside a box, where a key of the ray's range may lie: a key's t is rounded, so the bounds are compared
rounded, and no key is skipped between rounds (R326, R333). -/
def Ray.keyed (r : Ray) (x : Ext × Ext) (b : List Ext) : Option (Ext × Ext) :=
  let y := boxRange { r with tmin := x.1, tmax := x.2 } b
  if rangeMeets y && r.tmin.le y.2.rounded && y.1.rounded.le r.tmax then some y else none

/-- The round of a TRACEK of k keys: a Gaussian is found within the boxes above it (R326, R333). -/
def State.doTracek (s : State) (thr k : Nat) (a : Nat → Word) : TM (List Word) :=
  let s0 := s.countUp thr fun r => { r with rays := r.rays + 1 }
  match rayOf a with
  | none => (s0, .error (0x01, 0))
  | some r =>
    let cursor := (bits (a 1) 63 32, bits (a 5) 31 0)
    let after := fun (key : Nat × Nat) => !bit (a 5) 32 || keyBefore cursor key
    (s0.readHier thr (a 4)).bind fun s1 h =>
      if h.kind ≠ 2 then (s1, .error (0x02, a 4)) else
      let test := fun (x : Ext × Ext) (s : State) (id : Nat) (ks : List (Nat × Nat)) =>
        ((s.countUp thr fun c => { c with tests := c.tests + 1 }).readPrim thr h id).bind fun s2 ws =>
          match (gaussOf ws).bind fun g => if x.1.le (.fin (gaussAt r g.1 g.2.1)) && Ext.le (.fin (gaussAt r g.1 g.2.1)) x.2 then gaussHit r g.1 g.2.1 g.2.2 else none with
          | some tr => (s2, .ok (if after (tr, id) then insertKey (tr, id) ks else ks))
          | none => (s2, Except.ok (ε := Nat × Word) ks)
      (State.walkTree thr h r.keyed (fun _ => false) test 64 (.low, .high) s1 h.root []).bind fun s2 ks =>
        let out := ks.take k
        (s2.countUp thr fun c => { c with hits := c.hits + out.length },
          .ok (pack [(if k < ks.length then 1 else 0, 4), (out.length, 0)] :: ((List.range k).map fun i => match out[i]? with
            | some key => pack [(key.1, 32), (key.2, 0)]
            | none => 0)))

/-- TRACEK: GAUSSCAP on a core that is not Gaussian-capable (R334). -/
def execTracek (c : Ctl) (km1 : BitVec 3) (vd va : Reg) (s : State) : Out :=
  .next (s.traverse c 6 vd.toNat va.toNat (km1.toNat + 2) []
    (fun k => if Config.gaussCapable (coreOf k % 512) then none else some { cause := .gausscap }) fun _ => .tracek (km1.toNat + 1))

/-! ## MARCH (R335) -/

/-- The grid of a descriptor, with a brick's occupancy (R335). -/
def State.readGrid (s : State) (k : Nat) (va : Word) : TM (Grid × Option Brick) :=
  if va.toNat % 64 ≠ 0 then (s, .error (0x07, va)) else
  (s.unitWords k va 8).bind fun s1 d =>
    let w := wordAt d
    let n := [bits (w 0) 15 0, bits (w 0) 31 16, bits (w 0) 47 32]
    let bad : TM (Grid × Option Brick) := (s1, .error (0x07, va))
    if bits (w 0) 63 50 ≠ 0 ∨ 2 ≤ bits (w 0) 49 48 ∨ (d.drop 3).any (· != 0) then bad
    else if bits (w 0) 49 48 = 0 then
      match real32 (bits (w 1) 31 0), real32 (bits (w 1) 63 32), real32 (bits (w 2) 31 0), real32 (bits (w 2) 63 32) with
      | some x, some y, some z, some c => if c ≤ 0 ∨ n.any (· == 0) then bad else (s1, .ok ({ o := [x, y, z], c := c, n := n }, none))
      | _, _, _, _ => bad
    else if n ≠ [8, 8, 8] ∨ w 2 ≠ 0 ∨ (w 1).toNat % 16 ≠ 0 then bad
    else (s1.unitWords k (w 1) 12).bind fun s2 ws =>
      match brickOf ws with
      | none => (s2, .error (0x06, w 1))
      | some (b, _) => (s2, .ok ({ o := b.corner, c := b.size, n := n }, some b))

/-- The march (R335); without a listed cell t_next is unstated (notes/assumptions/28). -/
def State.doMarch (s : State) (k : Nat) (a : Nat → Word) : TM (List Word) :=
  let s0 := s.countUp k fun r => { r with rays := r.rays + 1 }
  match rayOf a with
  | none => (s0, .error (0x01, 0))
  | some r =>
    (s0.readGrid k (a 4)).bind fun s1 g =>
      let m := g.1.march r
      let next := match m.2.1 with
        | some t => Fmt.s.round false .rup false t
        | none => bits (Config.unstated s.draws 2) 31 0
      let cell := fun (c : List Int) =>
        let i := fun j => (c.getD j 0).toNat
        pack [(match g.2 with
          | some b => if b.occ.getD (i 0 + 8 * i 1 + 64 * i 2) false then 1 else 0
          | none => 0, 48), (i 2, 32), (i 1, 16), (i 0, 0)]
      (s1, .ok (pack [(if m.2.2 then 1 else 0, 35), (m.1.length, 32), (next, 0)] :: ((List.range 4).map fun i => match m.1[i]? with
        | some c => cell c
        | none => 0)))

/-- MARCH (R335). -/
def execMarch (c : Ctl) (vd va : Reg) (s : State) : Out :=
  .next (s.traverse c 5 vd.toNat va.toNat 5 [] (fun _ => none) fun _ => .march)

/-! ## The queries under way (R327, R329) -/

/-- The query of an operation, by its operand block. -/
def State.unitQuery (s : State) (q : Nat) (u : UnitOp) : TM (List Word) :=
  match u.q with
  | .trace anyHit => s.doTrace q anyHit (wordAt u.a)
  | .tracek k => s.doTracek q k (wordAt u.a)
  | .march => s.doMarch q (wordAt u.a)
  | .hitattr desc => s.doHitattr q (wordAt u.a) desc

/-- How many registers its result block has, and which of them holds the status word (R327, R332). -/
def UnitQ.results : UnitQ → Nat × Nat
  | .trace _ => (3, 0)
  | .tracek k => (k + 1, 0)
  | .march => (5, 0)
  | .hitattr _ => (2, 1)

/-- A query goes on as far as its reads do: one that waits asks for its sector; one that has read everything lands its results (R327-R329). -/
def State.unitRun (s : State) (seq : Nat) (o : Op) (u : UnitOp) : State :=
  match (s.unitUpd seq fun x => { x with count := {} }).unitQuery seq u with
  | (s1, .error (0, _)) => s1
  | (s1, r) => ((s1.unitPoint seq).sampleUpd seq fun x => { x with level := (s1.unitOf seq).level }).finishOp seq o (traverseOut o.pc u.vd u.q.results.2 u.q.results.1 r)

end Sys2Proof.Machine
end

