-- ==== Sys2Proof/Machine/Graft.lean ====
section
/-! DEFINITION. GRAFT: the descent of two hierarchies, its state block, the claiming and writing of records, and the waiting
forms of threads and of GRAFT: the record at the home and the retry (spec/19_traversal_and_render.md R338-R341,
spec/10_isa_synchronisation.md R150, R205-R207). -/

namespace Sys2Proof.Machine

/-! ## Writes of the unit -/

/-- The writer of the unit's stores for operation q: a word that it fills is a release at .pkg (R233, R339), the state block takes
plain stores (R341). -/
def State.unitWriter (s : State) (q : Nat) (rel : Bool) : Writer := s.writerOf (s.opThr q) [s.opThr q] none rel .pkg []

/-- One item written by the unit for operation q, a plain store or one that fills its word: an access as any store's, which takes its
sector exclusively first (R217, R339, R341, R400). -/
def State.unitWrite (s : State) (q : Nat) (va : Word) (n : Nat) (v : Word) (fill : Bool) : TM Unit :=
  let k := s.opThr q
  match s.accessFor (Agent.core k) (s.ctxOf (s.thr k)) va n .write with
  | .error e => (s, .error (unitCode e, va))
  | .ok a =>
    if fill && !isDevice (s.paNow a) then (s, .error (0x0A, va)) else
    ((s.used k (s.thr k) va).dropPeerCopy a.pa).unitAccess q a true fun s1 _ =>
      (if fill then s1.storeFe k (s1.unitWriter q true) a (some v) true else s1.storeNow k (s1.unitWriter q false) a (toLe n v.toNat), .ok ())

/-! ## The state block (R340) -/

/-- The eight words of an entry (R340). -/
def GEntry.words (e : GEntry) : List Word :=
  let w := fun (b : List Nat) i => pack [(b.getD (2 * i + 1) 0, 32), (b.getD (2 * i) 0, 0)]
  [w e.bx 0, w e.bx 1, w e.bx 2, w e.by_ 0, w e.by_ 1, w e.by_ 2, e.wx, e.wy]

def entryOf (ws : List Word) (lx ly : Nat) : GEntry :=
  { bx := (List.range 6).map fun i => f32At ws i, by_ := (List.range 6).map fun i => f32At ws (6 + i), wx := wordAt ws 6, wy := wordAt ws 7, lx := lx, ly := ly }

/-- The block as it stands in memory: its state, and the traversal that a SUSPENDED one holds; BADSTATE for state 3, a reserved field or
a depth in any state, and what a SUSPENDED one alone holds (R340). -/
def State.readGraft (s : State) (k : Nat) (g : GraftOp) : TM (Nat × GState) :=
  if g.a3.toNat % 64 ≠ 0 then (s, .error (0x09, g.a3)) else
  (s.unitWords k g.a3 8).bind fun s1 st =>
    let w := wordAt st
    let depth := bits (w 0) 10 2
    if bits (w 0) 1 0 = 3 ∨ bits (w 0) 63 13 ≠ 0 ∨ bits (w 2) 63 48 ≠ 0 ∨ w 6 ≠ 0 ∨ w 7 ≠ 0 ∨ 256 < depth then (s1, .error (0x09, g.a3))
    else if bits (w 0) 1 0 = 0 then (s1, .ok (0, {}))
    else if bits (w 0) 1 0 = 2 then (s1, .ok (2, {}))
    else if w 3 ≠ g.a0 ∨ w 4 ≠ g.a1 then (s1, .error (0x09, g.a3))
    else
      (s1.unitWords k (g.a3 + 64) 8).bind fun s2 le =>
      (s2.unitWords k (g.a3 + 128) (8 * depth)).bind fun s3 es =>
      (s3.unitWords k (g.a3 + 16512) ((depth + 3) / 4)).bind fun s4 ls =>
        let lev := fun e => bits (wordAt ls (e / 4)) (16 * (e % 4) + 15) (16 * (e % 4))
        let leaf := if bit (w 0) 11 then some (entryOf le (bits (w 2) 39 32) (bits (w 2) 47 40)) else none
        let i := bits (w 2) 15 0
        let j := bits (w 2) 31 16
        let cnt := fun (x : Word) => bits x 61 58 + 1
        if leaf.any fun e => decide (cnt e.wx ≤ i) || decide (cnt e.wy ≤ j) then (s4, .error (0x09, g.a3))
        else (s4, .ok (1, { stack := (List.range depth).map fun e => entryOf (es.drop (8 * e) |>.take 8) (lev e % 256) (lev e / 256), leaf := leaf, i := i, j := j,
                            claim := if bit (w 0) 12 then some (w 5).toNat else none, emitted := (w 1).toNat }))

/-- The words of the block that a stop writes, with their addresses (R340, R341). -/
def GraftOp.block (g : GraftOp) (state : Nat) (x : GState) : List (Word × Word) :=
  let n := x.stack.length
  let st0 := pack [(if x.claim.isSome then 1 else 0, 12), (if x.leaf.isSome then 1 else 0, 11), (n, 2), (state, 0)]
  let lv := match x.leaf with
    | some e => pack [(e.ly, 40), (e.lx, 32), (x.j, 16), (x.i, 0)]
    | none => pack [(x.j, 16), (x.i, 0)]
  let head := [st0, BitVec.ofNat 64 x.emitted, lv, g.a0, g.a1, BitVec.ofNat 64 (x.claim.getD 0), 0, 0] ++ (match x.leaf with
    | some e => e.words
    | none => [])
  let lev := (List.range ((n + 3) / 4)).map fun q => pack ((List.range 4).map fun r => match x.stack[4 * q + r]? with
    | some e => (e.lx + 256 * e.ly, 16 * r)
    | none => (0, 16 * r))
  let from_ := fun (a : Word) (ws : List Word) => ws.zipIdx.map fun w => (a + BitVec.ofNat 64 (8 * w.2), w.1)
  from_ g.a3 head ++ from_ (g.a3 + 128) (x.stack.flatMap GEntry.words) ++ from_ (g.a3 + 16512) lev

/-! ## The node queue (R186, R339) -/

/-- The node descriptor at a2: BADQUEUE where a check of R188 on the descriptor fails; an address of it that does not translate gives
its own code when the descent comes to use it (R328, R339, R341). -/
def State.readGQueue (s : State) (k : Nat) (va : Word) : TM GQueue :=
  (s.unitWords k va 8).bind fun s1 d =>
    let w := wordAt d
    let cap := 2 ^ bits (w 2) 4 0
    let recw := bits (w 2) 10 5
    let b := bits (w 2) 21 11
    let dev := fun (a : Word) (need : Need) => a.toNat % 8 == 0 && s1.unitDevice k a need
    if bits (w 2) 63 22 ≠ 0 ∨ w 6 ≠ 0 ∨ w 7 ≠ 0 ∨ recw = 0 ∨ 32 < recw ∨ bits (w 2) 4 0 < 4 ∨ 20 < bits (w 2) 4 0 ∨ b = 0 ∨ min 1024 cap < b ∨
       !dev (w 1) .write ∨ !dev (w 3) .write ∨ !dev (w 5) .read then (s1, .error (0x0A, va))
    else (s1, .ok { base := w 1, rec_ := recw, cap := cap, claim := w 3, retire := w 5 })

/-- Why a traversal stops (R341). -/
inductive GStop where
  | done
  | overflow
  | err (code : Nat) (va : Word)
  /-- the record's STF waits on a word -/
  | wait (word : Nat)

/-- The traversal so far, going on or stopped. -/
structure GRun where
  s     : State
  x     : GState
  count : Nat
  stop  : Option GStop := none

def GRun.fail (r : GRun) (e : Nat × Word) : GRun := { r with stop := some (.err e.1 e.2) }

/-- The words behind the first of a slot, each written once: n of them, of which the operation has written its count already (R339). -/
def State.slotRest (s : State) (q : Nat) (slot : Word) (n : Nat) : TM Unit :=
  (List.range n).foldl (fun (y : TM Unit) i => y.bind fun s _ =>
    if i < (s.unitOf q).put then (s, .ok ()) else
    (s.unitWrite q (slot + BitVec.ofNat 64 (8 * (i + 1))) 8 0 true).bind fun s1 _ => (s1.unitUpd q fun u => { u with put := i + 1 }, .ok ())) (s, .ok ())

/-- The claimed record is written into its slot: the words behind with STX, the first with STF (R339). -/
def GRun.write (r : GRun) (k : Nat) (q : GQueue) (idx : Nat) (word : Word) : GRun :=
  let slot := q.base + BitVec.ofNat 64 (8 * q.rec_ * (idx % q.cap))
  match r.s.slotRest k slot (q.rec_ - 1) with
  | (s1, .error e) => ({ r with s := s1 } : GRun).fail e
  | (s1, .ok ()) =>
    match s1.accessFor (Agent.core (s1.opThr k)) (s1.ctxOf (s1.thr (s1.opThr k))) slot 8 .write with
    | .error e => ({ r with s := s1 } : GRun).fail (unitCode e, slot)
    | .ok a =>
      if !isDevice (s1.paNow a) then ({ r with s := s1 } : GRun).fail (0x0A, slot)
      else if s1.fullAt (some (dieOf (s1.opThr k))) (s1.paNow a) then { r with s := s1, stop := some (.wait (s1.paNow a / 8 * 8)) }
      else match s1.unitWrite k slot 8 word true with
        | (s2, .error e) => ({ r with s := s2 } : GRun).fail e
        | (s2, .ok ()) =>
          { r with s := (s2.countUp k fun c => { c with pairs := c.pairs + 1 }).unitUpd k fun u => { u with put := 0 }
                   x := { r.x with claim := none, emitted := r.x.emitted + 1 }, count := r.count + 1 }

/-- What an acquire of operation q at .pkg meets in a word is complete (R234). -/
def State.unitMeets (s : State) (q : Nat) (o : Op) (a : Access) : Bool :=
  s.acqReady { o with ord := { acq := true, scope := .pkg }, recv := [s.opThr q] } (s.paNow a) 8 false

/-- The releases that an acquire of operation q at .pkg reads from cover what happens-before what the unit does next (R234, R339). -/
def State.unitSees (s : State) (q : Nat) (a : Access) : State :=
  let k := s.opThr q
  s.see k (s.brought (s.metIn k .pkg (s.readFrom (some (dieOf k)) (s.paNow a) 8 false)))

/-- A counter of the queue as the unit reads it with acquire at .pkg (R234, R339). -/
def State.unitAcquire (s : State) (k : Nat) (va : Word) : TM Word :=
  if (s.unitOf k).got.any fun e => e.1 == 16 * va.toNat + 8 then s.unitRead k va 8 else
  match s.accessFor (Agent.core (s.opThr k)) (s.ctxOf (s.thr (s.opThr k))) va 8 .read with
  | .error e => (s, .error (unitCode e, va))
  | .ok a =>
    if !isDevice (s.paNow a) then (s, .error (0x0A, va))
    else if (s.ops.find k).any fun o => !s.unitMeets k o a then (s, .error (0, va))
    else (s.unitSees k a).unitRead k va 8

/-- The claim counter goes from c to c + 1: a CAS with acquire and release at .pkg, which continues the release sequence it reads; one
that fails has the counters read again (R234, R339). -/
def State.unitClaim (s : State) (k : Nat) (va retire : Word) (c : Word) : TM Unit :=
  let thr := s.opThr k
  match s.accessFor (Agent.core thr) (s.ctxOf (s.thr thr)) va 8 .write with
  | .error e => (s, .error (unitCode e, va))
  | .ok a =>
    (s.used thr (s.thr thr) va).unitAccess k a true fun s1 o =>
      let again := fun (x : State) => (x.unitUpd k fun u => { u with got := u.got.filter fun e => e.1 != 16 * va.toNat + 8 && e.1 != 16 * retire.toNat + 8 }, Except.error (ε := Nat × Word) (α := Unit) (0, va))
      if !s1.unitMeets k o a then (s1, .error (0, va))
      else if s1.loadValue k thr a ≠ c then again (s1.unitSees k a)
      else
        let s2 := s1.unitSees k a
        (s2.storeNow thr (s2.writerOf thr [thr] none true .pkg ((s2.readFrom none (s2.paNow a) 8 false).flatMap (·.2.heads))) a (toLe 8 (c + 1).toNat), .ok ())

/-- Emit's claim: OVERFLOW when the queue is full, else index k is claimed (R339). -/
def GRun.claimOne (r : GRun) (k : Nat) (q : GQueue) : GRun :=
  match (r.s.unitAcquire k q.retire).bind fun s1 ret => (s1.unitAcquire k q.claim).bind fun s2 c => (s2, .ok (ret, c)) with
  | (s1, .error e) => ({ r with s := s1 } : GRun).fail e
  | (s1, .ok (ret, c)) =>
    if q.cap ≤ (c - ret).toNat then { r with s := s1, stop := some .overflow }
    else match s1.unitClaim k q.claim q.retire c with
      | (s2, .error e) => ({ r with s := s2 } : GRun).fail e
      | (s2, .ok ()) => { r with s := s2.unitUpd k fun u => { u with put := 0 }, x := { r.x with claim := some c.toNat } }

/-! ## The descent (R338) -/

/-- The box of a primitive: of its four vertices, or of the brick; none when it is malformed (R325, R338). -/
def primBox (kind : Nat) (ws : List Word) : Option (List Rat) :=
  if kind = 0 then (patchOf ws).map fun p =>
    let c := fun i => (List.range 4).map fun v => at3 p (3 * v + i)
    ((List.range 3).map fun i => (c i).foldl min (at3 p i)) ++ ((List.range 3).map fun i => (c i).foldl max (at3 p i))
  else (brickOf ws).map fun b => b.1.corner ++ b.1.corner.map fun q => q + 8 * b.1.size

/-- The largest bound of each axis over the root's entered children (R338). -/
def topBounds (cs : List Child) : List Ext :=
  (List.range 3).map fun i => (cs.filterMap fun c => if c.live then (boxOf c.box).map fun b => b.getD (i + 3) .low else none).foldl Ext.max .low

/-- Owns(x, pnt) for a leaf's box (R338). -/
def owns (top box : List Ext) (p : List Rat) : Bool :=
  (List.range 3).all fun i =>
    let hi := box.getD (i + 3) .low
    (box.getD i .high).le (.fin (at3 p i)) && (Ext.lt (.fin (at3 p i)) hi || (hi == top.getD i .low && Ext.le (.fin (at3 p i)) hi))

/-- Two closed rational boxes meet. -/
def ratBoxesMeet (a b : List Rat) : Bool := (List.range 3).all fun i => decide (at3 a i ≤ at3 b (i + 3)) && decide (at3 b i ≤ at3 a (i + 3))

/-- The largest bounds of both hierarchies' roots. -/
def State.graftTops (s : State) (k : Nat) (d : GSides) : TM (List Ext × List Ext) :=
  (s.readNode k d.ha.root).bind fun s1 ca => (s1.readNode k d.hb.root).bind fun s2 cb => (s2, .ok (topBounds ca, topBounds cb))

/-- One reference pair of the current leaf pair, then the next (R338). -/
def GRun.pairStep (r : GRun) (k : Nat) (d : GSides) (e : GEntry) : GRun :=
  let cx : Child := { box := e.bx, word := e.wx }
  let cy : Child := { box := e.by_, word := e.wy }
  let next := fun (r : GRun) =>
    if r.x.j + 1 < cy.count then { r with x := { r.x with j := r.x.j + 1 } }
    else if r.x.i + 1 < cx.count then { r with x := { r.x with i := r.x.i + 1, j := 0 } }
    else { r with x := { r.x with leaf := none, i := 0, j := 0 } }
  match (r.s.readRef k d.ha (cx.first + r.x.i)).bind fun s1 a => (s1.readRef k d.hb (cy.first + r.x.j)).bind fun s2 b => (s2, .ok (a, b)) with
  | (s1, .error e) => ({ r with s := s1 } : GRun).fail e
  | (s1, .ok (a, b)) =>
    let write := fun (r : GRun) (idx : Nat) => r.write k d.q idx (pack [(b, 32), (a, 0)])
    match r.x.claim with
    | some idx => let r1 := write { r with s := s1 } idx
                  if r1.stop.isSome then r1 else next r1
    | none =>
      if d.self && decide (b ≤ a) then next { r with s := s1 } else
      match ((s1.countUp k fun c => { c with tests := c.tests + 1 }).readPrim k d.ha a).bind fun s2 wa => (s2.readPrim k d.hb b).bind fun s3 wb => (s3, .ok (wa, wb)) with
      | (s2, .error e) => ({ r with s := s2 } : GRun).fail e
      | (s2, .ok (wa, wb)) =>
        match primBox d.ha.kind wa, primBox d.hb.kind wb with
        | some ba, some bb =>
          let p := (List.range 3).map fun i => max (at3 ba i) (at3 bb i)
          if !ratBoxesMeet ba bb then next { r with s := s2 } else
          match s2.graftTops k d with
          | (s3, .error e) => ({ r with s := s3 } : GRun).fail e
          | (s3, .ok (ta, tb)) =>
            if owns ta ((boxOf e.bx).getD []) p && owns tb ((boxOf e.by_).getD []) p then
              let r1 := ({ r with s := s3 } : GRun).claimOne k d.q
              if r1.stop.isSome then r1 else
              match r1.x.claim with
              | some idx => let r2 := write r1 idx
                            if r2.stop.isSome then r2 else next r2
              | none => r1
            else next { r with s := s3 }
        | _, _ => ({ r with s := s2 } : GRun).fail (0x06, d.ha.prims)

/-- The children of a node that go onto the stack above, slot 3 pushed first; DEEP leaves the pair where it was (R338,
R340). -/
def GRun.expand (r : GRun) (k : Nat) (e : GEntry) (rest : List GEntry) (left : Bool) : GRun :=
  let node := if left then e.wx else e.wy
  let other := (boxOf (if left then e.by_ else e.bx)).getD []
  match r.s.readNode k (BitVec.ofNat 64 (bits node 56 0)) with
  | (s1, .error x) => ({ r with s := s1 } : GRun).fail x
  | (s1, .ok cs) =>
    let meets := [3, 2, 1, 0].filterMap fun i => (cs[i]?).bind fun c => if c.live && ((boxOf c.box).elim false fun b => boxesMeet b other) then some c else none
    let lev := if left then e.lx + 1 else e.ly + 1
    let mk := fun (c : Child) => if left then { e with bx := c.box, wx := c.word, lx := lev } else { e with by_ := c.box, wy := c.word, ly := lev }
    if meets.any Child.bad then ({ r with s := s1 } : GRun).fail (0x06, BitVec.ofNat 64 (bits node 56 0))
    else if !meets.isEmpty ∧ (64 < lev ∨ 256 < rest.length + meets.length) then ({ r with s := s1 } : GRun).fail (0x08, BitVec.ofNat 64 (bits node 56 0))
    else { r with s := s1, x := { r.x with stack := rest ++ meets.map mk } }

/-- One turn of the loop (R338). -/
def GRun.turn (r : GRun) (k : Nat) (d : GSides) : GRun :=
  match r.x.leaf with
  | some e => r.pairStep k d e
  | none =>
    match r.x.stack.getLast? with
    | none => { r with stop := some .done }
    | some e =>
      let rest := r.x.stack.dropLast
      if bits e.wx 63 62 = 2 ∧ bits e.wy 63 62 = 2 then { r with x := { r.x with stack := rest, leaf := some e, i := 0, j := 0 } }
      else r.expand k e rest (bits e.wx 63 62 = 1)

/-- The loop until it stops, waits or has written a record more than n0; a turn that is done is not gone back behind: 4^130 turns are more
than two hierarchies of 64 levels have. -/
def GRun.loop (k : Nat) (d : GSides) (n0 : Nat) : Nat → GRun → GRun
  | 0, r => r
  | n + 1, r =>
    if r.stop.isSome || decide (n0 < r.count) then r else
    let r1 := r.turn k d
    GRun.loop k d n0 n (if r1.stop.isSome then r1 else { r1 with s := r1.s.unitPoint k })

/-- The unbounded box of a root. -/
def rootBox : List Nat := [0xFF800000, 0xFF800000, 0xFF800000, 0x7F800000, 0x7F800000, 0x7F800000]

/-- What precedes the first pair: both hierarchies, the queue and the state block, all of which must be writable (R341). -/
def State.graftOpen (s : State) (k : Nat) (g : GraftOp) : TM (GSides × Nat × GState) :=
  (s.readHier k g.a0).bind fun s1 ha => (s1.readHier k g.a1).bind fun s2 hb =>
    if ha.kind = 2 ∨ hb.kind = 2 then (s2, .error (0x02, g.a0)) else
    (s2.readGQueue k g.a2).bind fun s3 q => (s3.readGraft k g).bind fun s4 st =>
      let may := fun (a : Word) => s4.accessFor (Agent.core (s4.opThr k)) (s4.ctxOf (s4.thr (s4.opThr k))) a 8 .write
      match may g.a3, may (g.a3 + 17016) with
      | .error e, _ => (s4, .error (unitCode e, g.a3))
      | .ok _, .error e => (s4, .error (unitCode e, g.a3 + 17016))
      | .ok _, .ok _ =>
        let root := fun (h : Hier) => pack [(1, 62), (h.root.toNat, 0)]
        let st1 := if st.1 = 0 then { stack := [{ bx := rootBox, by_ := rootBox, wx := root ha, wy := root hb, lx := 1, ly := 1 }] } else st.2
        (s4, .ok ({ ha := ha, hb := hb, self := g.a0 == g.a1, q := q }, st.1, st1))

/-- The end of a GRAFT: the status word lands (R341). -/
def State.graftEnd (s : State) (seq : Nat) (o : Op) (g : GraftOp) (r : Except (Nat × Word) Word) : State :=
  (s.sampleUpd seq fun x => { x with level := (s.unitOf seq).level }).finishOp seq o (traverseOut o.pc g.vd 0 1 (r.map fun w => [w]))

/-- A GRAFT's record, changed. -/
def State.setGraft (s : State) (seq : Nat) (f : GraftOp → GraftOp) : State :=
  { s with ops := s.ops.upd seq fun o => match o.kind with
      | .graft g => { o with kind := .graft (f g) }
      | _ => o }

/-- The retry of a GRAFT's word is over (R207). -/
def State.retryOver (s : State) (seq : Nat) (g : GraftOp) : State :=
  { s with retries := s.retries.filter fun r => !(g.wait == some r.1 && r.2 == s.opThr seq) }

/-- A GRAFT stops: its state block is to be written, and then it ends so (R341). -/
def State.graftStop (s : State) (seq : Nat) (g : GraftOp) (state : Nat) (x : GState) (e : GraftEnd) : State :=
  ((s.retryOver seq g).unitPoint seq).setGraft seq fun g =>
    { g with run := g.run.map fun r => (r.1, x), wait := none, recorded := false, released := false, going := false, out := some (g.block state x, e)
             u := { g.u with put := 0, want := none } }

/-- A GRAFT that has stopped writes the words of its state block that are left, and ends (R341). -/
def State.graftOut (s : State) (seq : Nat) (o : Op) (g : GraftOp) (ws : List (Word × Word)) (e : GraftEnd) : State :=
  let r := ws.foldl (fun (m : TM Nat) w => m.bind fun x n => (x.unitWrite seq w.1 8 w.2 false).bind fun y _ =>
    ((y.setGraft seq fun g => { g with out := some (ws.drop (n + 1), e) }), .ok (n + 1))) (s, .ok 0)
  match r with
  | (s1, .error (0, _)) => s1
  | (s1, .error x) => s1.graftEnd seq o g (.error x)
  | (s1, .ok _) =>
    match e with
    | .word w => s1.graftEnd seq o g (.ok w)
    | .err c va => s1.graftEnd seq o g (.error (c, va))
    | .off => s1.setGraft seq fun g => { vd := g.vd, a0 := g.a0, a1 := g.a1, a2 := g.a2, a3 := g.a3 }

/-- A GRAFT goes on to its next record, wait or stop (R338-R341). -/
def State.graftGo (s : State) (seq : Nat) (g : GraftOp) (d : GSides) (x : GState) : State :=
  let r := GRun.loop seq d g.count (4 ^ 130) { s := s.unitUpd seq fun u => { u with count := {} }, x := x, count := g.count }
  let at_ := r.s.setGraft seq fun g => { g with run := some (d, r.x), count := r.count }
  let on := fun (w : Option Nat) => (at_.retryOver seq g).setGraft seq fun g =>
    { g with wait := w, recorded := false, released := false, going := false, releases := if w.isSome then g.releases else 0 }
  match r.stop with
  | some .done => at_.graftStop seq g 2 r.x (.word (pack [(r.count, 0)]))
  | some .overflow => at_.graftStop seq g 1 r.x (.word (pack [(1, 46), (r.count, 0)]))
  | some (.err 0 _) => at_
  | some (.err c va) => at_.graftStop seq g 1 r.x (.err c va)
  | some (.wait w) => on (some w)
  | none => on none

/-- A GRAFT opens its hierarchies, its queue and its state block, goes on with its traversal, or writes its state block out (R338-R341). -/
def State.graftRun (s : State) (seq : Nat) (o : Op) (g : GraftOp) : State :=
  match g.out, g.run with
  | some (ws, e), _ => s.graftOut seq o g ws e
  | none, some (d, x) => s.graftGo seq g d x
  | none, none =>
    match (s.unitUpd seq fun u => { u with count := {} }).graftOpen seq g with
    | (s1, .error (0, _)) => s1
    | (s1, .error e) => (s1.unitPoint seq).graftEnd seq o g (.error e)
    | (s1, .ok (d, st, x)) =>
      if st = 2 then (s1.unitPoint seq).graftEnd seq o g (.ok 0)
      else (s1.unitPoint seq).setGraft seq fun g => { g with run := some (d, x) }

/-- A GRAFT that a pre-emption stops: its state block is to be written SUSPENDED, its result register is not, and it opens anew when it
is issued again (R341). -/
def State.graftSuspend (s : State) (seq : Nat) (g : GraftOp) : State :=
  match g.out, g.run with
  | some _, _ => s
  | none, some (_, x) => s.graftStop seq g 1 x .off
  | none, none => s.setGraft seq fun g => { vd := g.vd, a0 := g.a0, a1 := g.a1, a2 := g.a2, a3 := g.a3 }

/-- A GRAFT under way that has still to write for a pre-emption: opened, or writing its state block. -/
def GraftOp.open_ (g : GraftOp) : Bool := g.run.isSome || g.out.isSome

/-- GRAFT issues; it closes the block's idempotent region (R327, R329). -/
def execGraft (c : Ctl) (vd va : Reg) (s : State) : Out :=
  let blk := (List.range 4).map (va.toNat + ·)
  .next (s.runGang (issue64 c) (vd.toNat :: blk) blk true fun s l recv =>
    let t := s.thr l
    let a := fun i => t.reg (va.toNat + i)
    .ok ((recv.foldl (fun (x : State) k => x.closeIdem k) s).startOp (issue64 c) (issue64 c).flag.isNone {} l recv (0, none)
      (.graft { vd := vd.toNat, a0 := a 0, a1 := a 1, a2 := a 2, a3 := a 3 })))

/-! ## Waiting forms at their home (R150, R205-R207) -/

/-- The thread's GRAFT that waits. -/
def State.graftOf (s : State) (k : Nat) : Option (Nat × Op × GraftOp) :=
  firstSome s.ops fun e => match e.2.kind with
    | .graft g => if e.2.thr = k ∧ g.wait.isSome then some (e.1, e.2, g) else none
    | _ => none

/-- The core that holds a word's sector as E or M (R406). -/
def State.exclusiveHolder (s : State) (w : Nat) : Option Nat :=
  (s.l1.find? fun (l : L1Line) => l.line == w / 256 && decide (2 ≤ l.states.getD (w / 64 % 4) 0)).map (·.core)

/-- A waiter record held at its home: the core that holds the sector exclusively is told, and the check of R205 waits for its answer
(R406). -/
def State.noticeTo (s : State) (w thr : Nat) : State :=
  match s.exclusiveHolder w with
  | some c => { s with wnotes := s.wnotes ++ [(c, w, thr)] }
  | none => s

/-- A thread's form sends its record: released at once when the wanted state holds, else held in the table or the park
area, else PARKFULL (R150, R205, R206); where a core holds the word's sector exclusively it is that core's answer which says
whether the state holds (R406). -/
def State.formRecord (s : State) (thr : Nat) : Option State :=
  match (s.thr thr).status, s.formOp thr with
  | .form w want l false _, some (seq, o) =>
    if s.full w = want ∧ s.exclusiveHolder w = none then some ((s.updThread thr fun t => { t with status := .form w want l true false }).release w (waiterIdent thr want l))
    else match (s.updThread thr fun t => { t with status := .form w want l true false }).holdWaiter (s.ctxOf (s.thr thr)) w (waiterIdent thr want l) with
      | some s1 => some (s1.noticeTo w thr)
      | none => some (s.faultOp seq o { cause := .parkfull, kind := .fe, addr := match o.kind.access with
          | some a => BitVec.ofNat 64 a.1.va
          | none => 0 })
  | _, _ => none

/-- A GRAFT's record for its STF, likewise; PARKFULL stops the GRAFT with its claim recorded (R339, R341). -/
def State.graftRecord (s : State) (thr : Nat) : Option State :=
  match s.graftOf thr with
  | some (seq, o, g) =>
    let w := g.wait.getD 0
    if g.recorded then none
    else if !s.full w && (s.exclusiveHolder w).isNone then some { s with ops := s.ops.put seq { o with kind := .graft { g with recorded := true, released := true } }, retries := s.retries ++ [(w, thr)] }
    else match s.holdWaiter (s.ctxOf (s.thr thr)) w (waiterIdent thr false false) with
      | some s1 => some ({ s1 with ops := s1.ops.put seq { o with kind := .graft { g with recorded := true } } }.noticeTo w thr)
      | none => some (s.graftStop seq g 1 ((g.run.map (·.2)).getD {}) (.err 0x12 (BitVec.ofNat 64 w)))
  | none => none

/-- The slice cannot reach the park area of a thread's word now (R266, R414, R442). -/
def State.recordHeld (s : State) (thr : Nat) : Bool :=
  (match (s.thr thr).status with
    | .form w _ _ _ _ => s.parkHeld (s.ctxOf (s.thr thr)) w
    | _ => false) || (s.graftOf thr).any fun x => x.2.2.wait.any fun w => s.parkHeld (s.ctxOf (s.thr thr)) w

/-- The answer to a waiter notice reaches the home: where the word's state is what the new waiter wants, it is released (R205, R406). -/
def State.lateArrival (s : State) (word thr : Nat) : State :=
  match (s.thr thr).status, s.graftOf thr with
  | .form w want l true false, _ => if w = word ∧ s.full w = want then (s.dropForm thr).release word (waiterIdent thr want l) else s
  | _, some (_, _, g) =>
    if g.wait = some word ∧ g.recorded = true ∧ g.released = false ∧ s.full word = false then (s.dropGraft thr).release word (waiterIdent thr false false) else s
  | _, none => s

/-- WAITER_RECORD (R205, R206, R339). -/
def execWaiterRecord (thr : Nat) (s : State) : Out :=
  if s.recordHeld thr then .next s else
  match s.formRecord thr with
  | some s1 => .next s1
  | none => .next ((s.graftRecord thr).getD s)

/-- A released form checks its word again with exclusive ownership; one that fails sends its new record at once, so that
failing forms park again in the order of their retries, or raises FEBUDGET at its last release (R150, R205, R207). -/
def State.formAgain (s : State) (r : Nat × Nat) (thr : Nat) : Option State :=
  match (s.thr thr).status, s.formOp thr with
  | .form w0 _ _ _ true, some (seq, o) =>
    if w0 ≠ r.1 ∨ (s.retries.find? fun x => x.1 == r.1) ≠ some r ∨ !s.canPerformAs seq o false true then none else
    let s1 := { s with retries := s.retries.erase r }
    match s1.formAway seq o with
    | some s2 => some s2
    | none =>
    match s1.mustWait o with
    | none => if s1.canPerform seq o true then some (s1.waitingStep seq o) else none
    | some (w, want) =>
      let n := (s1.thr thr).releases + 1
      if feRetry (s1.c0Of (s1.thr thr)) ≤ n then
        some (s1.faultOp seq o { cause := .febudget, kind := .fe, addr := match o.kind.access with
          | some a => BitVec.ofNat 64 a.1.va
          | none => 0 })
      else
        let s2 := s1.parkAt o w want false false n
        some ((s2.formRecord thr).getD s2)
  | _, _ => none

/-- A released GRAFT goes on with its claimed record, or counts the release and sends a new record (R207, R339, R341). -/
def State.graftAgain (s : State) (r : Nat × Nat) (thr : Nat) : Option State :=
  match s.graftOf thr with
  | some (seq, o, g) =>
    if g.wait ≠ some r.1 ∨ !g.released ∨ g.going ∨ (s.retries.find? fun x => x.1 == r.1) ≠ some r ∨ !s.sectorCurrent (dieOf thr) r.1 then none else
    if isDevice r.1 && s.full r.1 then
      let s1 := { s with retries := s.retries.erase r }
      if feRetry (s1.c0Of (s1.thr thr)) ≤ g.releases + 1 then some (s1.graftStop seq g 1 ((g.run.map (·.2)).getD {}) (.err 0x13 (BitVec.ofNat 64 r.1)))
      else
        let s2 := { s1 with ops := s1.ops.put seq { o with kind := .graft { g with recorded := false, released := false, releases := g.releases + 1 } } }
        some ((s2.graftRecord thr).getD s2)
    else some (s.setGraft seq fun g => { g with going := true, releases := g.releases + 1 })
  | none => none

/-- FORM_RETRY (R150, R207, R339): the first released waiter of its word; a thread of a stopped partition retries nothing (R385), and a
new record waits for the park area. -/
def execFormRetry (thr : Nat) (s : State) : Out :=
  if s.recordHeld thr || (s.core (coreOf thr)).stopped.contains (partOf thr) then .next s else .next ((firstSome (s.retries.filter fun r => r.2 == thr) fun r => match s.formAgain r thr with
    | some s1 => some s1
    | none => s.graftAgain r thr).getD s)

end Sys2Proof.Machine
end

