-- ==== Sys2Proof/Machine/Save.lean ====
section
/-! DEFINITION. What pre-emption takes off the cores: the pre-emption block's status, pinning, discard, forced reset, and the
save image (spec/21_faults_and_preemption.md R367-R377; spec/12_memory_hierarchy.md R215; spec/18_matrix_engine.md R318). -/

namespace Sys2Proof.Machine

/-! ## The block's status (R367) and the save area (R372) -/

def PeStage.code : PeStage → Nat
  | .idle => 0 | .drain => 1 | .save => 2 | .restore => 3

/-- The block enters a stage for a context, with the result of a command that ended (R367, R368). -/
def State.peTo (s : State) (st : PeStage) (ctx : Nat) (result : Option Nat) : State :=
  { s with pe := { s.pe with stage := st, ctx := ctx } }.setReg (Off.pe 8)
    (pack [(if st == PeStage.idle then 0 else 1, 0), (PeStage.code st, 1), (ctx, 4), (result.getD (bits (s.reg (Off.pe 8)) 23 16), 16)])

/-- The address of an offset in the context's save area. -/
def State.saveVa (s : State) (ctx off : Nat) : Word := s.ctxWord (s.ctxDie ctx) ctx 8 + BitVec.ofNat 64 off

def State.imgWrite (s : State) (ctx off : Nat) (v : Word) : Put := s.vaWrite (s.ctxDie ctx) ctx (s.saveVa ctx off) v none {}

/-- The words of an image, one after another; all of them wait while one must, and are lost with one that cannot be written. -/
def State.imgWriteAll (s : State) (ctx : Nat) : List (Nat × Word) → Put
  | [] => .done s
  | (off, v) :: t => match s.imgWrite ctx off v with
    | .done s1 => s1.imgWriteAll ctx t
    | .wait h => .wait h
    | .lost => .lost

/-- The header's state field (R372). -/
def State.setHeader (s : State) (ctx st : Nat) : State :=
  match s.imgRead ctx 0 with
  | none => s
  | some h => (s.imgWrite ctx 0 ((h &&& field 63 2) ||| BitVec.ofNat 64 st)).get?.getD s

/-- PE_CMD pin: every page of the area is mapped, writable and resident (R368, R372). -/
def State.pinArea (s : State) (ctx : Nat) : State × Bool :=
  let base := (s.saveVa ctx 0).toNat
  match s.imgRead ctx 32 with
  | none => (s, false)
  | some n =>
    let pages := (base % 65536 + max 4096 n.toNat + 65535) / 65536
    let ok := (List.range pages).all fun i =>
      match s.accessFor (qeAgent (s.ctxDie ctx)) ctx (BitVec.ofNat 64 (base / 65536 * 65536 + 65536 * i)) 8 .write with
      | .ok _ => true
      | .error _ => false
    (if ok then s.setCtx ctx fun c => { c with pinned := true } else s, ok)

/-! ## Levels of a context -/

def State.launchesOf (s : State) (ctx : Nat) : Tbl Launch := s.launches.filter fun e => e.2.ctx == ctx
def State.blocksOf (s : State) (ctx : Nat) : Tbl Block := s.blocks.filter fun e => (s.launches.find e.2.launch).any fun l => l.ctx == ctx
def State.keysOf (s : State) (ctx : Nat) : List Nat := (s.threads.filter fun e => s.ctxOf e.2 == ctx).map (·.1)

/-- A launch with a resident, saved or pending grove (R370). -/
def State.launchOpen (s : State) (lid : Nat) (l : Launch) : Bool :=
  l.refused == 0 && (l.saved || !l.back.isEmpty || s.blocks.any (fun e => e.2.launch == lid) || (!l.node && decide (l.nextGrove < lGroves l.words)))

/-- A launch that a forced reset ends: an open one, one whose groves wait in core queues, and a node with batches still to be placed
(R182, R187, R370). -/
def State.launchLost (s : State) (lid : Nat) (l : Launch) : Bool :=
  s.launchOpen lid l || (l.refused == 0 && (s.cores.any (fun e => e.2.queue.any fun q => q.1 == lid) || decide (l.nextGrove < l.due)))

/-- Groves that no core has started yet go back by lowering the next index, as far as they are the last ones (R369). -/
def Launch.takeBack (l : Launch) : Nat → Launch
  | 0 => l
  | n + 1 =>
    match l.back.find? fun b => b.2.isEmpty && b.1 + 1 == l.nextGrove with
    | some b => { l with back := l.back.erase b, nextGrove := l.nextGrove - 1 }.takeBack n
    | none => l

/-- Blocks that wait unstarted in core queues go back to their launches (R369). -/
def State.returnQueues (s : State) (ctx : Nat) : State :=
  let mine := fun (q : Nat × Nat) => (s.launches.find q.1).any fun l => l.ctx == ctx
  let qs : List (Nat × Nat) := s.cores.flatMap fun e => e.2.queue.filter mine
  { s with cores := s.cores.mapVals fun _ c => { c with queue := c.queue.filter fun q => !mine q }
           launches := s.launches.mapVals fun lid l => { l with back := l.back ++ ((qs.filter fun (q : Nat × Nat) => q.1 == lid).map fun (q : Nat × Nat) => (q.2, ([] : List Nat))) }.takeBack qs.length }

/-! ## Taking threads and blocks away -/

/-- A thread leaves without retiring: its waiter record and its operations are gone, and no write on its way is its any more. -/
def State.dropThread (s : State) (k : Nat) : State :=
  let s1 := s.dropWaiter k
  let gone := (s1.ops.filter fun e => e.2.recv.contains k).map (·.1)
  { s1 with threads := s1.threads.del k
            hbs := s1.hbs.del k
            inflight := s1.inflight.mapVals fun _ e => { e with thrs := e.thrs.filter (· != k) }
            ops := s1.ops.filter fun e => !gone.contains e.1
            cores := s1.cores.mapVals fun _ c => { c with array := c.array.filter fun a => match a with
              | .op q => !gone.contains q
              | .share _ _ => true }
            peerWaits := s1.peerWaits.filter fun w => (s1.ops.find w.op).any fun o => o.thr != k }

/-- A partition that holds no thread leaves its stop (R385). -/
def State.unstopEmpty (s : State) : State :=
  s.cores.foldl (fun (x : State) e => e.2.stopped.foldl (fun (y : State) p =>
    if y.threads.any (fun t => coreOf t.1 == e.1 && partOf t.1 == p) then y else y.unstop e.1 p) x) s

/-- A block leaves its core with all that is its own: threads, barriers, scratchpad, and the launch's granules when no other
block of the launch is left there (R170, R369, R370). -/
def State.dropBlock (s : State) (bid : Nat) : State :=
  match s.blocks.find bid with
  | none => s
  | some b =>
    let s1 := (s.threads.filter fun e => e.2.blk == bid).foldl (fun (x : State) e => x.dropThread e.1) s
    let s2 := { s1 with blocks := s1.blocks.del bid, badSpad := s1.badSpad.filter fun w => w.1 != bid }
    let c := 512 * b.die + b.core
    let s3 := if (s2.blocksOn c).any (fun e => e.2.launch == b.launch) then s2
      else s2.updCore c fun x => { x with grants := x.grants.filter (fun g => g.1 != b.launch), taken := x.taken.del b.launch, acc := x.acc.filter (fun a => a.1 / 2 ^ 24 != b.launch) }
    if s3.blocks.any (fun e => e.2.grove == b.grove) then s3 else { s3 with groves := s3.groves.del b.grove }

/-- The blocks of a grove in the order of their indices. -/
def State.groveBlocks (s : State) (gid : Nat) : List (Nat × Block) :=
  (List.range 16).filterMap fun i => s.groveBlock gid i

/-- Every block of the grove is resident and inside its idempotent region (R168, R369). -/
def State.groveOpen (s : State) (gid : Nat) (l : Launch) : Bool :=
  lIdem l.words && (s.groveBlocks gid).length == lBlocks l.words && (s.groveBlocks gid).all fun b => b.2.idemOpen

/-- A discarded grove will start afresh, and a discarded span with fresh barriers; its pending render counts go with it (R342, R369). -/
def State.discardGrove (s : State) (gid : Nat) (g : Grove) : State :=
  let bs := s.groveBlocks gid
  (bs.foldl (fun (x : State) b => x.dropBlock b.1) s).updLaunch g.launch fun l =>
    { l with back := l.back ++ [(g.index, bs.map fun b => b.2.rank)], bars := spanBars l.words }

/-- The groves that the stop discards: each for itself, those of a span all or none (R369). -/
def State.discards (s : State) (ctx : Nat) : Tbl Grove :=
  s.groves.filter fun e => match s.launches.find e.2.launch with
    | none => false
    | some l => l.ctx == ctx && (if lSpan l.words && !l.node then
        (let gs := s.groves.filter fun x => x.2.launch == e.2.launch
         gs.length == lGroves l.words && gs.all fun x => s.groveOpen x.1 l)
      else s.groveOpen e.1 l)

/-! ## Forced reset (R370) -/

/-- Commands and their tokens outlive a forced reset; nobody receives the tokens. -/
def State.orphan (s : State) (ctx : Nat) : State :=
  let mine := s.keysOf ctx ++ ((s.saved.filter fun e => e.2.ctx == ctx).map (·.1))
  { s with cmds := s.cmds.mapVals fun _ c => { c with recv := c.recv.filter fun k => !mine.contains k }
           saved := s.saved.filter fun e => e.2.ctx != ctx }

/-- Matrix operations leave the arrays. -/
def State.takeMx (s : State) (gone : List Nat) : State :=
  { s with mxOps := s.mxOps.filter fun e => !gone.contains e.1
           cores := s.cores.mapVals fun _ c => { c with array := c.array.filter fun a => match a with
             | .share id _ => !gone.contains id
             | .op _ => true } }

/-- The matrix operations of a context. -/
def State.mxOf (s : State) (ctx : Nat) : List Nat := (s.mxOps.filter fun e => s.mxCtx e.2 == ctx).map (·.1)

/-- LOST for a launch that a forced reset ends: at once, or, while ORDERED keeps it behind an earlier record or the word cannot
be written yet, by a later LAUNCH_COMPLETION (R168, R262, R370). -/
def State.loseLaunch (s : State) (ctx lid : Nat) (l : Launch) (past : List Nat) : State :=
  let s1 := { s with cores := s.cores.mapVals fun _ c => { c with queue := c.queue.filter fun q => q.1 != lid } }
  let s2 := if l.node then s1.setQueue l.die ctx l.queue fun q => { q with launch := none } else s1
  let now := if s2.orderFree lid l then { s2 with launches := s2.launches.del lid }.completion l.die ctx l.words 3 past else .wait none
  now.from_ (s2.updLaunch lid fun x => { x with refused := 3, saved := false, back := [], past := past }) l.die

/-- What a launch's end comes after when its threads are killed (R165, R235). -/
def State.killPast (s : State) (lid : Nat) (l : Launch) : List Nat :=
  (s.launchPast lid l ++ s.hbPast (((s.threads.filter fun e => (s.blocks.find e.2.blk).any fun b => b.launch == lid)).map (·.1)) none).dedup

/-- FORCED_RESET (R370). -/
def State.forcedReset (s : State) (ctx : Nat) : State :=
  let open_ := ((s.launchesOf ctx).filter fun e => s.launchLost e.1 e.2).mergeSort fun a b => decide (a.2.order ≤ b.2.order)
  let s1 := (s.orphan ctx).takeMx (s.mxOf ctx)
  let s2 := (s1.blocksOf ctx).foldl (fun (x : State) e => x.dropBlock e.1) s1
  let s3 := s2.setCtx ctx fun c => { c with kept := [], keptMx := [] }
  let s4 := open_.foldl (fun (x : State) e => x.loseLaunch ctx e.1 e.2 (s.killPast e.1 e.2)) s3
  (s4.unstopEmpty.setHeader ctx 0).peTo .idle ctx (some 2)

/-! ## The stop of matrix shares (R318) -/

/-- Steps that a share still has to run. -/
def MxOp.left (o : MxOp) (x : Share) : Nat := o.stepsOf x - x.step

/-- What stands before an operation in some array: the operations whose shares are ahead of its own. -/
def State.aheadOf (s : State) (id : Nat) : List Nat :=
  s.cores.flatMap fun e =>
    if e.2.array.any (fun a => match a with
      | .share j _ => j == id
      | .op _ => false) then
      (e.2.array.takeWhile fun a => match a with
        | .share j _ => j != id
        | .op _ => true).filterMap fun a => match a with
          | .share j _ => some j
          | .op _ => none
    else []

/-- Operations with an accumulator or table operation behind a share of theirs: those run on, since the issued instruction
behind them completes (R37, R371). -/
def State.mustRun (s : State) : List Nat :=
  s.cores.flatMap fun e => (e.2.array.zipIdx.filter fun a => (e.2.array.drop (a.2 + 1)).any fun b => match b with
      | .op _ => true
      | .share _ _ => false).filterMap fun a => match a.1 with
        | .share j _ => some j
        | .op _ => none

/-- A set of operations with all that is ahead of them. -/
def State.closeAhead (s : State) : Nat → List Nat → List Nat
  | 0, l => l
  | n + 1, l => s.closeAhead n (l ++ l.flatMap s.aheadOf).dedup

/-- A set of operations with all that is behind them. -/
def State.closeBehind (s : State) : Nat → List Nat → List Nat
  | 0, l => l
  | n + 1, l => s.closeBehind n (l ++ ((s.mxOps.map (·.1)).filter fun id => !l.contains id && (s.aheadOf id).any (l.contains ·)))

/-- Finish or Stop, for every operation of the context: one with more than 4,096 steps left at a partner stops, and so does
one behind it (R318; notes/assumptions/38). One that aborts runs no further step: its queued shares leave their queues where they
stand (R314). -/
def State.markStops (s : State) (ctx : Nat) : State :=
  let n := s.mxOps.length
  let run := s.closeAhead n s.mustRun ++ (s.mxOps.filter fun e => e.2.abort.isSome || e.2.shares.any fun x => x.fail.isSome).map (·.1)
  let big := (s.mxOps.filter fun e => s.mxCtx e.2 == ctx && !run.contains e.1 && e.2.shares.any fun x => decide (4096 < e.2.left x)).map (·.1)
  let stop := s.closeBehind n big
  { s with mxOps := s.mxOps.mapVals fun id o => { o with stop := stop.contains id && !run.contains id } }

/-- An operation of the context may be saved as it stands (R318). -/
def MxOp.quiet (o : MxOp) : Bool :=
  o.stop && o.abort.isNone && o.shares.all fun x => x.fail.isNone && (x.state == .queued || x.state == .ready || (x.state == .running && o.halts x))

/-! ## Quiet threads (R37, R371) -/

/-- An operation that need not end before its thread is saved. -/
def State.mayStand (s : State) (o : Op) : Bool :=
  match o.kind with
  | .barw _ _ _ => true
  | .feform _ _ _ _ _ | .launch _ _ => (match (s.thr o.thr).status with
    | .form _ _ _ _ _ => true
    | _ => false)
  | .graft _ => true
  | _ => false

/-- Every die has applied the thread's writes and what happens-before its next access, which no save image has room for. -/
def State.settled (s : State) (k : Nat) : Bool :=
  s.inflight.all fun e => !(e.2.thrs.contains k || (s.hbOf k).seen.contains e.1 || (s.hbOf k).rels.any fun r => r.2.contains e.1)

/-- Everything that the context's threads issued has completed, but for what is saved as it stands (R371). -/
def State.quiet (s : State) (ctx : Nat) : Bool :=
  let ks := s.keysOf ctx
  ks.all (fun k => (s.thr k).writes.isEmpty) && ks.all (fun k => s.settled k) &&
  s.ops.all (fun e => !(e.2.recv.any (ks.contains ·)) || s.mayStand e.2) &&
  s.mxOps.all fun e => s.mxCtx e.2 != ctx || e.2.quiet

/-! ## The image's records (R372-R376) -/

/-- A barrier in the layout of R373. -/
def barWords (b : Barrier) : List Word :=
  [pack [(b.phase % 2 ^ 32, 0), ((b.balance % 2 ^ 32).toNat, 32)], BitVec.ofNat 64 b.expected, BitVec.ofNat 64 b.arrivals,
   pack [(if b.abort then 1 else 0, 0), (b.last, 1)]]

/-- Words of a run of bytes. -/
def wordsOf (bs : List Byte) : Nat → List Word
  | 0 => []
  | n + 1 => BitVec.ofNat 64 (ofLe (bs.take 8)) :: wordsOf (bs.drop 8) n

/-- A list of words at its place: zeros to its length, then cut there. -/
def padTo (n : Nat) (l : List Word) : List Word := (l ++ List.replicate (n - l.length) 0).take n

/-- A barrier's code in six bits (R192). -/
def BarHome.code : BarHome → Nat
  | .block _ i => i
  | .grove _ i => 16 + i
  | .span _ i => 32 + i

def lowerFlag (fs : List Nat) : Option Nat → List Nat
  | some f => fs.set f (fs.getD f 0 - 1)
  | none => fs

/-- A waiting full/empty form or LAUNCH (R150). -/
def OpKind.isForm : OpKind → Bool
  | .feform _ _ _ _ _ => true
  | .launch _ _ => true
  | _ => false

/-- The state, PC, detail word and flags under which a thread is saved; every member that stands at a form is stopped at it, with
the flag of its issue lowered (R150, R371, R376). -/
def State.savedView (s : State) (k : Nat) (t : Thread) : Nat × Pc × Word × List Nat :=
  match t.status with
  | .run | .yield _ | .held _ _ => (0, t.pc, 0, t.flags)
  | .form _ _ _ _ _ => match s.ops.find? fun e => e.2.recv.contains k && e.2.kind.isForm with
    | some (_, o) => (1, o.pc, 0, lowerFlag t.flags o.flag)
    | none => (1, t.pc, 0, t.flags)
  | .fault => (2, t.pc, 0, t.flags)
  | .wait time d _ => (3, t.pc, if time then pack [(1, 63), (d, 0)] else BitVec.ofNat 64 (d - s.clk), t.flags)
  | .exited => (6, t.pc, 0, t.flags)
  | .sync id => match s.ops.find id with
    | some o => match o.kind with
      | .barw h p dst => (4, t.pc, pack [(p, 0), (h.code, 32), (dst, 38)], t.flags)
      | _ => (0, o.pc, 0, t.flags)
    | none => match s.cmds.find id, s.mxOps.find id with
      | some c, _ => (5, t.pc, BitVec.ofNat 64 c.token, t.flags)
      | none, some o => (5, t.pc, BitVec.ofNat 64 (o.token.getD 0), t.flags)
      | none, none => (0, t.pc, 0, t.flags)

/-- A thread record of 32 + 3n words (R376). -/
def State.threadWords (s : State) (n : Nat) (kt : Option (Nat × Thread)) : List Word :=
  match kt with
  | none => padTo (32 + 3 * n) [0, 7]
  | some (k, t) =>
    let v := s.savedView k t
    let preds := (List.range 7).map fun i => (if t.pred i then 1 else 0, 3 + i)
    let marked := t.marks.map (·.1)
    padTo 8 [v.2.1.setWidth 64, pack ([(v.1, 0), (t.hw.length, 10), (t.depth, 14)] ++ preds), flagWord v.2.2.2 0, flagWord v.2.2.2 6, v.2.2.1,
      marked.foldl (fun m r => m ||| BitVec.ofNat 64 (2 ^ r)) 0, t.tba] ++
    padTo 8 (t.hw.map fun p => p.setWidth 64) ++ (List.range 8).map t.frec.word ++ (List.range 8).map t.frecPrev.word ++ padTo n t.regs ++
    (List.range n).flatMap fun i => match t.marks.find i with
      | some m => [m.issuePc, pack [(m.source, 32), (m.code, 16)]]
      | none => [0, 0]

/-- A block to be written: its launch entry, grove index, and what it holds; none for a block that starts afresh. -/
structure ImgBlock where
  entry : Nat
  grove : Nat
  idx   : Nat
  rank  : Nat
  words : List Word
  held  : Option (Nat × Block)
  deriving DecidableEq, Repr

/-- The launches that the image holds, in the order of their entries. -/
def State.imageLaunches (s : State) (ctx : Nat) : Tbl Launch := (s.launchesOf ctx).filter fun e => s.launchOpen e.1 e.2

/-- The block records of a launch: its resident blocks, then those of groves that start afresh, on ranks of their own where
they have none yet. -/
def State.imageBlocks (s : State) (entry lid : Nat) (l : Launch) : List ImgBlock :=
  let held := (s.blocks.filter fun e => e.2.launch == lid).map fun e =>
    ({ entry := entry, grove := (s.groves.find e.2.grove).elim 0 (·.index), idx := e.2.idx, rank := e.2.rank, words := l.words, held := some e } : ImgBlock)
  let top := held.foldl (fun m b => max m (b.rank + 1)) 0
  held ++ l.back.zipIdx.flatMap fun b => (List.range (lBlocks l.words)).map fun i =>
    { entry := entry, grove := b.1.1, idx := i, rank := b.1.2.getD i (top + b.2), words := l.words, held := none }

/-- The header of a block record: 128 words (R375). Every record of a grove holds the grove's barriers. -/
def State.blockHead (s : State) (next : Nat) (b : ImgBlock) : List Word :=
  let t := lThreads b.words
  let live := match b.held with
    | some (bid, _) => (s.threads.filter fun e => e.2.blk == bid).length
    | none => t
  let gbars := match b.held with
    | some (_, x) => (s.groves.find x.grove).elim [] (·.bars)
    | none => newBars 8 (lBlocks b.words * t)
  let bbars := match b.held with
    | some (_, x) => x.bars
    | none => newBars 16 t
  let rs := match b.held with
    | some (_, x) => [x.render.rays, x.render.nodes, x.render.tests, x.render.hits, x.render.pairs]
    | none => []
  let opened := match b.held with
    | some (_, x) => x.idemOpen
    | none => lIdem b.words
  padTo 16 ([BitVec.ofNat 64 next, pack [(b.entry, 0), (b.idx, 16), (b.grove, 32)],
    pack [(b.rank, 0), (t, 16), (live, 27), (if opened then 1 else 0, 38)], 0] ++ rs.map (BitVec.ofNat 64)) ++
  padTo 64 (bbars.flatMap barWords) ++ padTo 48 (gbars.flatMap barWords)

/-- A thread of a fresh block as its record says (R19, R27). -/
def freshThread (w : List Word) (tba : Word) : Thread := threadStart w 0 0 0 tba 0 0

/-- The thread records of a block (R376). -/
def State.blockThreads (s : State) (ctx : Nat) (b : ImgBlock) : List Word :=
  (List.range (lThreads b.words)).flatMap fun i =>
    s.threadWords (lRegs b.words) (match b.held with
      | some (bid, _) => s.threads.find? fun e => e.2.blk == bid && e.2.tid == i
      | none => some (0, freshThread b.words (s.ctxWord (s.ctxDie ctx) ctx 7 &&& field 56 1)))

/-- Bytes to the next multiple of n of an address in the area: records are aligned as addresses. -/
def State.alignAt (s : State) (ctx n off : Nat) : Nat := off + (n - ((s.saveVa ctx 0).toNat + off) % n) % n

/-- Where the scratchpad pages of a block record at an offset begin (R375). -/
def State.pagesAt (s : State) (ctx off : Nat) (w : List Word) : Nat := s.alignAt ctx 16384 (off + 1024 + lThreads w * (256 + 24 * lRegs w))

/-- The block records from an offset on: the place of each, and the end. -/
def State.placeRecords (s : State) (ctx : Nat) : Nat → List ImgBlock → List (Nat × ImgBlock) × Nat
  | off, [] => ([], off)
  | off, b :: t =>
    let o := s.alignAt ctx 16384 off
    let r := s.placeRecords ctx (s.pagesAt ctx o b.words + lSb b.words) t
    ((o, b) :: r.1, r.2)

def State.blockWords (s : State) (ctx off next : Nat) (b : ImgBlock) : List (Nat × Word) :=
  let at_ := fun (o : Nat) (l : List Word) => l.zipIdx.map fun x => (o + 8 * x.2, x.1)
  let page := match b.held with
    | some (_, x) => wordsOf (Mem.readN x.scratch 0 (lSb b.words)) (lSb b.words / 8)
    | none => List.replicate (lSb b.words / 8) 0
  at_ off (s.blockHead next b) ++ at_ (off + 1024) (s.blockThreads ctx b) ++ at_ (s.pagesAt ctx off b.words) page

/-- The cores that hold a launch's granules: (entry, launch, core). -/
def State.imageCores (s : State) (ls : Tbl Launch) : List (Nat × Nat × Nat) :=
  ls.zipIdx.flatMap fun e => s.cores.filterMap fun c => if c.2.grants.any (fun g => g.1 == e.1.1) then some (e.2, e.1.1, c.1) else none

/-- The shares of a launch in a core's array queue. -/
def State.sharesAt (s : State) (lid c : Nat) : List (Nat × MxOp × Share) :=
  (s.core c).array.filterMap fun a => match a with
    | .share id rank => match s.share id rank with
      | some (o, x) => if s.launchIdOf x.blk = lid then some (id, o, x) else none
      | none => none
    | .op _ => none

/-- Bytes of a share's result buffer, 4 KiB aligned. -/
def MxOp.resultLen (o : MxOp) (x : Share) : Nat := up 4096 (x.msp * x.nsp * o.ae)

/-- The bytes of a core record (R374). -/
def State.coreLen (s : State) (lid c : Nat) (l : Launch) : Nat :=
  36864 + lAccGran l.words * 65536 + (s.sharesAt lid c).foldl (fun n x => n + x.2.1.resultLen x.2.2) 0

def State.placeCores (s : State) (ctx : Nat) : Nat → List (Nat × Nat × Nat) → List (Nat × Nat × Nat × Nat) × Nat
  | off, [] => ([], off)
  | off, c :: t =>
    let o := s.alignAt ctx 4096 off
    let r := s.placeCores ctx (o + (match s.launches.find c.2.1 with
      | some l => s.coreLen c.2.1 c.2.2 l
      | none => 0)) t
    ((o, c) :: r.1, r.2)

/-- The share at place i of a core record: its eight words and its result bytes (R374). -/
def State.shareWords (s : State) (res : Nat) (o : MxOp) (x : Share) : List Word :=
  let st := match x.state with
    | .running => 1
    | .ready => 2
    | _ => 0
  [pack [(st, 0), (x.step, 32)], o.a0, o.a1, o.a2, o.word,
   pack [((s.groves.find o.grove).elim 0 (·.index), 0), (o.place.1, 32), (o.place.2, 36)], BitVec.ofNat 64 res, 0]

/-- The shares of a core record with the places of their results. -/
def resultPlaces : Nat → List (Nat × MxOp × Share) → List (Nat × MxOp × Share)
  | _, [] => []
  | off, x :: t => (off, x.2) :: resultPlaces (off + x.2.1.resultLen x.2.2) t

def State.coreWords (s : State) (off next entry lid c : Nat) (l : Launch) : List (Nat × Word) :=
  let at_ := fun (o : Nat) (ws : List Word) => ws.zipIdx.map fun x => (o + 8 * x.2, x.1)
  let rank := ((s.blocks.find? fun e => e.2.launch == lid && 512 * e.2.die + e.2.core == c).map (·.2.rank)).getD 0
  let core := s.core c
  let n := lAccGran l.words * 65536
  let sh := resultPlaces (36864 + n) (s.sharesAt lid c)
  at_ off (padTo 512 ([BitVec.ofNat 64 next, pack [(rank, 0), (entry, 16), (lAccGran l.words, 32), (core.perm.length, 37)], BitVec.ofNat 64 sh.length, 0, 0, 0, 0, 0] ++
    sh.flatMap fun x => s.shareWords x.1 x.2.1 x.2.2)) ++
  at_ (off + 4096) (wordsOf ((core.perm ++ List.replicate (16384 - core.perm.length) 0).flatMap fun e => toLe 2 e) 4096) ++
  at_ (off + 36864) (wordsOf (Mem.readN core.acc (accBase lid) n) (n / 8)) ++
  sh.flatMap fun x => at_ (off + x.1) (wordsOf (Mem.readN x.2.2.result 0 (x.2.1.resultLen x.2.2)) (x.2.1.resultLen x.2.2 / 8))

/-- A launch entry of 32 words (R373). -/
def launchWords (l : Launch) : List Word :=
  padTo 32 (padTo 8 l.words ++ [BitVec.ofNat 64 l.nextGrove, BitVec.ofNat 64 l.order] ++ padTo 16 (l.bars.flatMap barWords))

/-- The offsets of the next records of a chain. -/
def nexts (l : List Nat) : List Nat := l.drop 1 ++ [0]

/-- The whole image: its words by offset, and its length in bytes; blocks with their record places (R372-R376). -/
structure Image where
  words  : List (Nat × Word)
  len    : Nat
  blocks : List (Nat × ImgBlock)
  deriving DecidableEq, Repr

def State.image (s : State) (ctx : Nat) : Image :=
  let ls := s.imageLaunches ctx
  let bs := ls.zipIdx.flatMap fun e => s.imageBlocks e.2 e.1.1 e.1.2
  let cores := s.placeCores ctx (4096 + 256 * ls.length) (s.imageCores ls)
  let recs := s.placeRecords ctx cores.2 bs
  let seq := match s.imgRead ctx 0 with
    | some h => (bits h 63 32 + 1) % 2 ^ 32
    | none => 0
  let head := [(0, pack [(1, 0), (seq, 32)]), (8, BitVec.ofNat 64 ls.length), (16, BitVec.ofNat 64 ((cores.1.map (·.1)).headD 0)), (24, BitVec.ofNat 64 ((recs.1.map (·.1)).headD 0))] ++
    (List.range 507).map fun i => (40 + 8 * i, (0 : Word))
  let entries := ls.zipIdx.flatMap fun e => (launchWords e.1.2).zipIdx.map fun x => (4096 + 256 * e.2 + 8 * x.2, x.1)
  let cw := (cores.1.zip (nexts (cores.1.map (·.1)))).flatMap fun c => match s.launches.find c.1.2.2.1 with
    | some l => s.coreWords c.1.1 c.2 c.1.2.1 c.1.2.2.1 c.1.2.2.2 l
    | none => []
  let bw := (recs.1.zip (nexts (recs.1.map (·.1)))).flatMap fun b => s.blockWords ctx b.1.1 b.2 b.1.2
  { words := head ++ entries ++ cw ++ bw, len := recs.2, blocks := recs.1 }

/-! ## Writing the image and leaving the cores (R368, R371, R372, R377) -/

/-- Every page of the context's blocks in SRAM, since the backing frames that hold ABSENT pages may be written over. -/
def State.pinBlocks (s : State) (ctx : Nat) : State := (s.blocksOf ctx).foldl (fun (x : State) e => x.pinAll e.1) s

/-- A GRAFT of the context's threads is open: it has still to write its state block (R341). -/
def State.graftsOpen (s : State) (ctx : Nat) : Bool :=
  s.ops.any fun e => (s.keysOf ctx).contains e.2.thr && (match e.2.kind with
    | .graft g => g.open_
    | _ => false)

/-- The GRAFTs of the context's threads stop, with their state blocks to be written (R341, R371). -/
def State.suspendGrafts (s : State) (ctx : Nat) : State :=
  (s.keysOf ctx).foldl (fun (x : State) k => (x.dropGraft k).ops.foldl (fun (y : State) e => match e.2.kind with
    | .graft g => if e.2.thr = k then y.graftSuspend e.1 g else y
    | _ => y) (x.dropGraft k)) s

/-- Deferred faults are raised before their threads are saved (R144, R316, R352). -/
def State.raiseAllPending (s : State) (ctx : Nat) : State :=
  (s.keysOf ctx).foldl (fun (x : State) k => match (x.thr k).status with
    | .run | .yield _ | .held _ _ => (x.raisePending k).getD x
    | _ => x) s

/-- Outstanding tokens and waits of a saved thread go on under a number of its own (R290, R377); so does a GRAFT that names a flag, whose
thread has gone on: it is issued again where the thread is restored (R341; notes/assumptions/39). -/
def State.renameThread (s : State) (k id : Nat) : State :=
  let swap := fun (l : List Nat) => l.map fun j => if j = k then id else j
  { s with cmds := s.cmds.mapVals fun _ c => { c with recv := swap c.recv }
           mxOps := s.mxOps.mapVals fun _ o => { o with recv := swap o.recv }
           ops := s.ops.mapVals fun _ o => match o.kind with
             | .barw _ _ _ => { o with recv := if o.flag.isSome then swap o.recv else o.recv }
             | .graft _ => if o.flag.isSome then { o with recv := swap o.recv, thr := if o.thr = k then id else o.thr } else o
             | _ => o }

/-- The number by which the package knows saved thread number n. -/
def savedId (n : Nat) : Nat := 2 ^ 32 + n

/-- The lines of a saved block's backing frames stay in its die's L2 marked keep; writing them there is an access of the die to the
frame (R215, R221, R222). -/
def State.keepLines (s : State) (ctx off : Nat) (b : Block) : State :=
  (List.range b.pages.length).foldl (fun (x : State) p =>
    match x.accessFor (qeAgent b.die) ctx (x.saveVa ctx (off + 16384 * p)) 16384 .read with
    | .error _ => x
    | .ok a =>
      if a.policy != 0 || !isDevice a.pa then x else
      (List.range 64).foldl (fun (y : State) i =>
        let line := a.pa / 256 + i
        let y1 := if (List.range 4).any fun j => y.tracked (4 * line + j) then y.homeRoom line else y
        let z := y1.setL2 { y1.l2Ent b.die line with mark := 2, dirty := [0, 1, 2, 3] }
        (List.range 4).foldl (fun (w : State) j => if w.tracked (4 * line + j) then
          { w with taproot := w.taproot.put (4 * line + j) ((List.replicate 4 0).set b.die 2) } else w) z) ((x.classServe b.die a.pa true).classTouch b.die ctx a.pa)) s

/-- One block leaves its core into the image: its threads' records are known by number, its names are kept, and its scratchpad
pages are UNPINNED (R215). -/
def State.keepBlock (s : State) (ctx off bid : Nat) (b : Block) : State :=
  let ts := s.threads.filter fun e => e.2.blk == bid
  let g := (s.groves.find b.grove).getD { launch := b.launch, index := 0, die := b.die, bars := [] }
  let s1 := ts.foldl (fun (x : State) e =>
    let id := savedId x.nextSeq
    let va := (x.saveVa ctx (off + 1024 + e.2.tid * (256 + 24 * e.2.n))).toNat
    { x.renameThread e.1 id with saved := x.saved.put id { ctx := ctx, va := va, n := e.2.n }, nextSeq := x.nextSeq + 1
                                 cores := x.cores.mapVals fun _ c => { c with samples := c.samples.map fun y => if y.member = e.1 then { y with saved := true } else y } }) s
  let s2 := s1.setCtx ctx fun c => { c with kept := c.kept ++ [{ bid := bid, block := { b with scratch := [], pages := b.pages.map fun _ => .unpinned }, grove := g, threads := ts }] }
  (s2.keepLines ctx (s.pagesAt ctx off ((s.launches.find b.launch).elim [] (·.words))) b).dropBlock bid

/-- Those of the image are kept with their names. -/
def State.keepMx (s : State) (ctx : Nat) (ids : List Nat) : State :=
  (s.setCtx ctx fun c => { c with keptMx := s.mxOps.filter fun e => ids.contains e.1 }).takeMx ids

/-- The levels of the context leave the cores once the image is written. -/
def State.leaveCores (s : State) (ctx : Nat) (img : Image) : State :=
  let ids := (s.imageLaunches ctx).map (·.1)
  let s1 := { s with launches := s.launches.mapVals fun lid l => if ids.contains lid then { l with saved := true } else l }
  let s2 := img.blocks.foldl (fun (x : State) b => match b.2.held with
    | some (bid, y) => x.keepBlock ctx b.1 bid y
    | none => x) s1
  { (s2.keepMx ctx (s.mxOf ctx)) with launches := s2.launches.mapVals fun lid l => if ids.contains lid then { l with back := [] } else l }.unstopEmpty

/-- The image is written and the header becomes SAVED, or the save fails and the context is reset: an error in a scratchpad or in a result
buffer is met as the image is written; while one of its words must wait, all of it does (R262, R368, R372). -/
def State.writeImage (s : State) (ctx : Nat) : State :=
  if s.graftsOpen ctx then s.suspendGrafts ctx else
  let s0 := ((s.raiseAllPending ctx).suspendGrafts ctx).pinBlocks ctx
  let s1 := { s0 with threads := s0.threads.mapVals fun _ t => if s0.ctxOf t = ctx then t.landAll s0.clk else t }
  let img := s1.image ctx
  let room := match s1.imgRead ctx 32 with
    | some n => decide (img.len ≤ n.toNat)
    | none => false
  let bad := (s1.blocksOf ctx).any (fun e => s1.badSpad.any fun w => w.1 == e.1) || s1.mxOps.any fun e => s1.mxCtx e.2 == ctx && e.2.shares.any (·.bad)
  if (s1.ctxSt ctx).pinned && room && !bad then
    match s1.imgWriteAll ctx img.words with
    | .wait h => s.putWaits (s.ctxDie ctx) h
    | .lost => s.forcedReset ctx
    | .done s2 => (((s2.leaveCores ctx img).setHeader ctx 2).setReg (Off.pe 0x18) (BitVec.ofNat 64 img.len)).peTo .idle ctx (some 1)
  else s.forcedReset ctx

end Sys2Proof.Machine
end

