-- ==== Sys2Proof/Machine/Restore.lean ====
section
/-! DEFINITION. RESTORE: reading a save image, checking it, placing its levels and resuming its threads
(spec/21_faults_and_preemption.md R372-R379; spec/18_matrix_engine.md R318; spec/12_memory_hierarchy.md R215). -/

namespace Sys2Proof.Machine

/-! ## Reading (R372-R376) -/

/-- n words of the save area from an offset on. -/
def State.imgWords (s : State) (ctx : Nat) (off : Nat) : Nat → Option (List Word)
  | 0 => some []
  | n + 1 =>
    match s.imgRead ctx off, s.imgWords ctx (off + 8) n with
    | some v, some vs => some (v :: vs)
    | _, _ => none

/-- The offsets of a chain of records. -/
def State.imgChain (s : State) (ctx : Nat) : Nat → Nat → Option (List Nat)
  | 0, _ => none
  | n + 1, off =>
    if off = 0 then some [] else
    match s.imgRead ctx off with
    | none => none
    | some v => (s.imgChain ctx n v.toNat).map (off :: ·)

/-- Every item of a list, or none. -/
def allSome {α β : Type} (f : α → Option β) : List α → Option (List β)
  | [] => some []
  | a :: t =>
    match f a, allSome f t with
    | some b, some bs => some (b :: bs)
    | _, _ => none

/-- A barrier from its four words (R373). -/
def barOf (w : List Word) : Option Barrier :=
  if bits (wordAt w 3) 63 2 = 0 then
    some { phase := bits (wordAt w 0) 31 0, balance := Int.bmod (bits (wordAt w 0) 63 32) (2 ^ 32), expected := (wordAt w 1).toNat, arrivals := (wordAt w 2).toNat
           abort := bit (wordAt w 3) 0, last := bits (wordAt w 3) 2 1 }
  else none

/-- n barriers from a list of words. -/
def barsFrom (w : List Word) (n : Nat) : Option (List Barrier) := allSome (fun i => barOf (w.drop (4 * i))) (List.range n)

/-- A launch entry (R373). -/
structure ImgLaunch where
  words : List Word
  next  : Nat
  order : Nat
  bars  : List Barrier
  deriving DecidableEq, Repr

/-- Entry i of n is that of a node's sweep, as the launches say that this package saved: its template's groves field bounds nothing (R186). -/
def State.nodeEntry (s : State) (ctx n i : Nat) : Bool :=
  let mine := (s.launchesOf ctx).filter fun e => e.2.saved
  mine.length == n && (mine[i]?).any fun e => e.2.node

/-- Launch entry i of n; GAUSS alone is no matter of its values: a package without the cores has no room for it (R167, R373, R378). -/
def State.imgLaunch (s : State) (ctx n i : Nat) : Option ImgLaunch :=
  match s.imgWords ctx (4096 + 256 * i) 32 with
  | none => none
  | some w =>
    let r := w.take 8
    let plain := r.set 5 (wordAt r 5 &&& ~~~(BitVec.ofNat 64 (2 ^ 58)))
    if bits (wordAt w 8) 63 32 = 0 ∧ (w.drop 26).all (· == 0) ∧ s.recordOk ctx plain ∧ (s.nodeEntry ctx n i = true ∨ bits (wordAt w 8) 31 0 ≤ lGroves r) then
      (barsFrom (w.drop 10) 4).map fun b => { words := r, next := bits (wordAt w 8) 31 0, order := (wordAt w 9).toNat, bars := b }
    else none

/-- A core record (R374). -/
structure ImgCore where
  off    : Nat
  entry  : Nat
  rank   : Nat
  perm   : List Nat
  acc    : List Byte
  shares : List (List Word)
  deriving DecidableEq, Repr

/-- Bytes of words. -/
def bytesOf (ws : List Word) : List Byte := ws.flatMap fun w => toLe 8 w.toNat

/-- Items of two bytes. -/
def pairsOf (bs : List Byte) : Nat → List Nat
  | 0 => []
  | n + 1 => ofLe (bs.take 2) :: pairsOf (bs.drop 2) n

def State.imgCore (s : State) (ctx : Nat) (ls : List ImgLaunch) (off : Nat) : Option ImgCore :=
  match s.imgWords ctx off 512 with
  | none => none
  | some w =>
    let entry := bits (wordAt w 1) 31 16
    let n := bits (wordAt w 1) 51 37
    let k := bits (wordAt w 2) 3 0
    match ls[entry]? with
    | none => none
    | some l =>
      let gran := bits (wordAt w 1) 36 32
      if bits (wordAt w 1) 63 52 ≠ 0 ∨ bits (wordAt w 2) 63 4 ≠ 0 ∨ ((w.drop 3).take 5).any (· != 0) ∨ (w.drop (8 + 8 * k)).any (· != 0) ∨ 8 < k ∨ 16384 < n ∨ gran ≠ lAccGran l.words then none else
      match s.imgWords ctx (off + 4096) ((n + 3) / 4), s.imgWords ctx (off + 36864) (gran * 8192) with
      | some p, some a => some { off := off, entry := entry, rank := bits (wordAt w 1) 15 0, perm := pairsOf (bytesOf p) n, acc := bytesOf a
                                 shares := (List.range k).map fun i => (w.drop (8 + 8 * i)).take 8 }
      | _, _ => none

/-- A block record (R375) with its thread records. -/
structure ImgRec where
  off     : Nat
  entry   : Nat
  grove   : Nat
  idx     : Nat
  rank    : Nat
  opened  : Bool
  render  : Render
  bars    : List Barrier
  gbars   : List Barrier
  threads : List (List Word)
  pages   : Nat
  deriving DecidableEq, Repr

/-- An address in code: 57 bits, bit 0 clear (R18). -/
def codeOk (w : Word) : Bool := bits w 63 57 == 0 && !bit w 0

/-- A source that R355 lists, but for those never written. -/
def sourceOk (n : Nat) : Bool := (decide (n < 21) && n != 16) || n == 31

/-- A fault record's reserved fields are zero, its PCs are addresses of code, and its cause, kind and source are written ones (R351,
R354, R355). -/
def recOk (w : List Word) : Bool :=
  codeOk (wordAt w 0) && codeOk (wordAt w 5) && decide (bits (wordAt w 1) 7 0 ≤ 0x20) && decide (bits (wordAt w 1) 15 12 ≤ 13) && sourceOk (bits (wordAt w 1) 36 32) &&
  bits (wordAt w 1) 63 37 == 0 && bits (wordAt w 1) 31 30 == 0 && bits (wordAt w 1) 11 8 == 0 && bits (wordAt w 3) 63 50 == 0 &&
  bits (wordAt w 4) 63 32 == 0 && bits (wordAt w 7) 63 1 == 0

/-- A barrier's code in six bits names one of the sixteen of a block, the eight of a grove or the four of a span (R192, R193). -/
def barCodeOk (c : Nat) : Bool := decide (c < 24) || (decide (32 ≤ c) && decide (c < 36))

/-- The fields of a thread record lie in their ranges (R376). -/
def threadOk (n : Nat) (w : List Word) : Bool :=
  let d := wordAt w 4
  let k := bits (wordAt w 1) 13 10
  codeOk (wordAt w 0) && bits (wordAt w 1) 63 24 == 0 && decide (k ≤ 8) && decide (bits (wordAt w 1) 23 14 ≤ 512) &&
  codeOk (wordAt w 6) && ((w.drop 8).take k).all codeOk && recOk (w.drop 16) && recOk (w.drop 24) &&
  bits (wordAt w 2) 63 36 == 0 && bits (wordAt w 3) 63 36 == 0 && decide ((wordAt w 5).toNat < 2 ^ n) && wordAt w 7 == 0 &&
  (match bits (wordAt w 1) 2 0 with
    | 3 => bit d 63 || bits d 62 32 == 0
    | 4 => bits d 63 44 == 0 && barCodeOk (bits d 37 32) && decide (bits d 43 38 < n)
    | 5 => decide (d.toNat < n)
    | _ => d == 0) &&
  ((List.range n).all fun i =>
    let a := wordAt w (32 + n + 2 * i)
    let b := wordAt w (33 + n + 2 * i)
    if bit (wordAt w 5) i then codeOk a && sourceOk (bits b 36 32) && bits b 63 37 == 0 && bits b 31 24 == 0 && bits b 15 0 == 0 else a == 0 && b == 0)

def State.imgRec (s : State) (ctx : Nat) (ls : List ImgLaunch) (off : Nat) : Option ImgRec :=
  match s.imgWords ctx off 128 with
  | none => none
  | some w =>
    match ls[bits (wordAt w 1) 15 0]? with
    | none => none
    | some l =>
      let t := lThreads l.words
      let n := lRegs l.words
      let idx := bits (wordAt w 1) 19 16
      let grove := bits (wordAt w 1) 63 32
      if bits (wordAt w 1) 31 20 ≠ 0 ∨ bits (wordAt w 2) 63 39 ≠ 0 ∨ wordAt w 3 ≠ 0 ∨ ((w.drop 9).take 7).any (· != 0) ∨ ((w.drop 112).take 16).any (· != 0) ∨ bits (wordAt w 2) 26 16 ≠ t ∨
        lBlocks l.words ≤ idx ∨ l.next ≤ grove then none else
      match barsFrom (w.drop 16) 16, barsFrom (w.drop 80) 8, allSome (fun i => s.imgWords ctx (off + 1024 + i * (256 + 24 * n)) (32 + 3 * n)) (List.range t) with
      | some b, some g, some ts =>
        let live := (ts.filter fun x => bits (wordAt x 1) 2 0 != 7).length
        if ts.all (threadOk n) && live == bits (wordAt w 2) 37 27 then
          some { off := off, entry := bits (wordAt w 1) 15 0, grove := grove, idx := idx, rank := bits (wordAt w 2) 15 0, opened := bit (wordAt w 2) 38
                 render := { rays := (wordAt w 4).toNat, nodes := (wordAt w 5).toNat, tests := (wordAt w 6).toNat, hits := (wordAt w 7).toNat, pairs := (wordAt w 8).toNat }
                 bars := b, gbars := g, threads := ts, pages := s.pagesAt ctx off l.words }
        else none
      | _, _, _ => none

/-- A whole image as read (R372). -/
structure ImgView where
  launches : List ImgLaunch
  cores    : List ImgCore
  recs     : List ImgRec
  deriving DecidableEq, Repr

/-- A matrix operation as the words of a saved share give it, over the blocks of its grove, with every partner QUEUED (R374). -/
def wordsOp (w : List Word) (block : Nat → Option Nat) : Option MxOp :=
  (matrixImage (wordAt w 4)).map fun (c, fmt, gather, perm, en, bar, vd, _) =>
    let o : MxOp :=
      { issuer := 0, recv := [], grove := 0, pc := 0, word := wordAt w 4, fmt := fmt, gather := gather, perm := perm, energy := en
        a0 := wordAt w 1, a1 := wordAt w 2, a2 := wordAt w 3, bar := bar, token := some vd, flag := (issue64 c).flag, sync := (issue64 c).flag.isNone, shares := []
        place := (bits (wordAt w 5) 35 32, bits (wordAt w 5) 45 36) }
    { o with shares := sharesOf o.m o.n o.split ((maskRanks o.mask).filterMap fun r => (block r).map fun b => (r, b)) }

/-- A partner of the share's operation stands on the record's core, and the share has not run more steps than that partner has (R306, R374). -/
def stepOk (rs : List ImgRec) (c : ImgCore) (w : List Word) : Bool :=
  (wordsOp w some).any fun o => o.shares.any fun x => decide (bits (wordAt w 0) 63 32 ≤ o.stepsOf x) &&
    rs.any fun r => r.entry == c.entry && r.grove == bits (wordAt w 5) 31 0 && r.idx == x.rank && r.rank == c.rank

/-- The words of a saved share: no reserved field set, a state, a step and a place of its result in range, a matrix instruction, and an issuer
in a grove of the image (R374). -/
def shareOk (ls : List ImgLaunch) (rs : List ImgRec) (c : ImgCore) (w : List Word) : Bool :=
  let l := (ls[c.entry]?).elim [] (·.words)
  let at_ := (wordAt w 6).toNat
  bits (wordAt w 0) 31 2 == 0 && decide (bits (wordAt w 0) 1 0 < 3) && bits (wordAt w 5) 63 46 == 0 && wordAt w 7 == 0 &&
  at_ % 4096 == 0 && decide (36864 + lAccGran l * 65536 ≤ at_) && stepOk rs c w &&
  decide (bits (wordAt w 5) 35 32 < lBlocks l) && decide (bits (wordAt w 5) 45 36 < lThreads l) && rs.any fun r => r.entry == c.entry && r.grove == bits (wordAt w 5) 31 0

/-- The image of a context; none when it is not SAVED, or a reserved field or a value out of range stands in it (R378). -/
def State.imgView (s : State) (ctx : Nat) : Option ImgView :=
  match s.imgWords ctx 0 512 with
  | none => none
  | some h =>
    let n := bits (wordAt h 1) 31 0
    if bits (wordAt h 0) 31 0 ≠ 2 ∨ bits (wordAt h 1) 63 32 ≠ 0 ∨ (h.drop 5).any (· != 0) ∨ (wordAt h 4).toNat < 4096 + 256 * n then none else
    match allSome (s.imgLaunch ctx n) (List.range n) with
    | none => none
    | some ls =>
      match s.imgChain ctx 65536 (wordAt h 2).toNat, s.imgChain ctx 65536 (wordAt h 3).toNat with
      | some cs, some bs =>
        (match allSome (s.imgCore ctx ls) cs, allSome (s.imgRec ctx ls) bs with
          | some c, some b =>
            if decide ((b.map fun x => (x.entry, x.grove, x.idx)).Nodup) && decide ((c.map fun x => (x.entry, x.rank)).Nodup) && c.all (fun x => x.shares.all (shareOk ls b x)) then
              some { launches := ls, cores := c, recs := b }
            else none
          | _, _ => none)
      | _, _ => none

/-! ## Launches back in the pending lists (R378) -/

/-- The launches of the image's entries: those that this package saved, when they are as many, else new ones. -/
def State.imgLids (s : State) (ctx : Nat) (v : ImgView) : List Nat × State :=
  let mine := ((s.launchesOf ctx).filter fun e => e.2.saved).map (·.1)
  if mine.length = v.launches.length then (mine, s)
  else
    let s1 := { s with launches := s.launches.filter fun e => !mine.contains e.1 }.setCtx ctx fun c => { c with kept := [], keptMx := [] }
    ((List.range v.launches.length).map (s.nextSeq + ·), { s1 with nextSeq := s.nextSeq + v.launches.length })

/-- Groves of an entry that have not ended: some record of theirs holds a thread that has not retired (R165, R375). -/
def ImgView.live (v : ImgView) (e : Nat) : List Nat :=
  ((v.recs.filter fun r => r.entry == e && r.threads.any fun x => bits (wordAt x 1) 2 0 != 7).map (·.grove)).dedup

/-- Groves of an entry that have records. -/
def ImgView.groves (v : ImgView) (e : Nat) : List Nat := ((v.recs.filter fun r => r.entry == e).map (·.grove)).dedup.mergeSort (fun a b => decide (a ≤ b))

def State.putLaunch (s : State) (ctx lid : Nat) (e : Nat) (v : ImgView) (l : ImgLaunch) : State :=
  let old := s.launches.find lid
  let base : Launch := old.getD { words := l.words, ctx := ctx, queue := 1024, die := s.ctxDie ctx, order := l.order, started := true }
  let tail := base.words.drop 8
  { s with launches := s.launches.put lid { base with words := l.words ++ tail, nextGrove := l.next, order := l.order, bars := if lSpan l.words then l.bars else base.bars
                                                      ended := l.next - (v.live e).length, saved := false, back := [] } }

/-! ## Placement (R378, R181) -/

/-- Where ranks have gone: (entry, rank, core). -/
abbrev RankMap := List (Nat × Nat × Nat)

def RankMap.core (m : RankMap) (e r : Nat) : Option Nat := (m.find? fun x => x.1 == e && x.2.1 == r).map (·.2.2)

/-- The name that a block of the image had here, with its grove's name. -/
def State.keptOf (s : State) (ctx lid grove idx : Nat) : Option Kept :=
  (s.ctxSt ctx).kept.find? fun k => k.block.launch == lid && k.grove.index == grove && k.block.idx == idx

/-- The cores that a block may take on a die: its rank's own, or those that no other rank of its launch has. -/
def State.rankCores (s : State) (ctx d : Nat) (m : RankMap) (r : ImgRec) (w : List Word) : List Nat :=
  match RankMap.core m r.entry r.rank with
  | some c => if c / 512 = d then [c] else []
  | none => (s.owned d ctx (lGauss w)).filter fun c => !m.any fun x => x.1 == r.entry && x.2.2 == c

/-- A block keeps the rank of its image, and its grove holds it for its core (R157, R378). -/
def State.rankAs (s : State) (bid gid rank c : Nat) : State :=
  { s.updBlock bid fun b => { b with rank := rank } with
    groves := s.groves.upd gid fun g => { g with ranks := (c, rank) :: g.ranks.filter fun r => r.1 != c } }

/-- The blocks of a grove onto a die, each to the first core with room; none when one does not fit. -/
def State.placeRecs (s : State) (ctx d lid gid : Nat) (l : Launch) (m : RankMap) : List ImgRec → Option (State × RankMap)
  | [] => some (s, m)
  | r :: t =>
    let bid := ((s.keptOf ctx lid r.grove r.idx).map (·.bid)).getD s.nextSeq
    match firstSome (s.rankCores ctx d m r l.words) fun c => (s.placeBlockAs bid lid l gid r.idx c).map fun x => (x.rankAs bid gid r.rank c, c) with
    | none => none
    | some (s1, c) => s1.placeRecs ctx d lid gid l (if (RankMap.core m r.entry r.rank).isSome then m else (r.entry, r.rank, c) :: m) t

/-- A grove of the image onto one die with a valid entry of the context, whole (R155, R173, R378). -/
def State.placeImgGrove (s : State) (ctx lid e : Nat) (v : ImgView) (m : RankMap) (g : Nat) : Option (State × RankMap) :=
  match s.launches.find lid with
  | none => none
  | some l =>
    let rs := v.recs.filter fun r => r.entry == e && r.grove == g
    let gid := (firstSome rs fun r => (s.keptOf ctx lid g r.idx).map fun k => k.block.grove).getD s.nextSeq
    let low := rs.foldl (fun (b : Option ImgRec) r => match b with
      | some x => if r.idx < x.idx then some r else b
      | none => some r) none
    let bars := low.elim [] (·.gbars)
    let retire := match firstSome rs fun r => s.keptOf ctx lid g r.idx with
      | some k => k.grove.retire
      | none => if l.node then some (wordAt l.words 13, bits (wordAt l.words 10) 21 11) else none
    firstSome ((s.dieOrder l).filter fun d => s.ctxOk d ctx) fun d =>
      { s with groves := s.groves.put gid { launch := lid, index := g, die := d, bars := bars, retire := retire }, nextSeq := s.nextSeq + 1 }.placeRecs ctx d lid gid l m rs

def State.placeImgGroves (s : State) (ctx lid e : Nat) (v : ImgView) (m : RankMap) : List Nat → Option (State × RankMap)
  | [] => some (s, m)
  | g :: t =>
    match s.placeImgGrove ctx lid e v m g with
    | none => none
    | some (s1, m1) => s1.placeImgGroves ctx lid e v m1 t

/-- Every level of the image, entry by entry. -/
def State.placeImage (s : State) (ctx : Nat) (v : ImgView) (m : RankMap) : List (Nat × Nat) → Option (State × RankMap)
  | [] => some (s, m)
  | (lid, e) :: t =>
    match s.placeImgGroves ctx lid e v m (v.groves e) with
    | none => none
    | some (s1, m1) => s1.placeImage ctx v m1 t

/-! ## Contents (R374-R377) -/

/-- The block that a record became. -/
def State.recBlock (s : State) (lids : List Nat) (r : ImgRec) : Option (Nat × Block) :=
  s.blocks.find? fun e => e.2.launch == lids.getD r.entry 0 && e.2.idx == r.idx && (s.groves.find e.2.grove).any fun g => g.index == r.grove

def State.keyIn (s : State) (bid tid : Nat) : Option Nat := (s.threads.find? fun e => e.2.blk == bid && e.2.tid == tid).map (·.1)

/-- Barriers as saved; what the image has no room for is as it was here: the coming fall, the arrivals' names, and what its
releases cover (R194, R197). -/
def State.joinBars (s : State) (kept new : List Barrier) (old : List (Nat × Nat × Nat)) : List Barrier :=
  new.zipIdx.map fun x => match kept[x.2]? with
    | some k => { x.1 with fall := k.fall, past := k.past, done := k.done, arrived := k.arrived.filterMap fun j => match old.find? fun o => o.1 == j with
      | some o => s.keyIn o.2.1 o.2.2
      | none => none }
    | none => x.1

/-- The threads that the kept blocks held, by their old keys: block and index. -/
def State.oldKeys (s : State) (ctx : Nat) : List (Nat × Nat × Nat) :=
  (s.ctxSt ctx).kept.flatMap fun k => k.threads.map fun t => (t.1, k.bid, t.2.tid)

/-- A block's own values (R375): its pages stand in their backing frames (R215). -/
def State.fillBlock (s : State) (ctx : Nat) (lids : List Nat) (r : ImgRec) : State :=
  match s.recBlock lids r with
  | none => s
  | some (bid, b) =>
    let k := s.keptOf ctx (lids.getD r.entry 0) r.grove r.idx
    let old := s.oldKeys ctx
    let s1 := s.updBlock bid fun x => { x with bars := s.joinBars (k.elim [] fun y => y.block.bars) r.bars old, idemOpen := r.opened, render := r.render
                                               backing := (s.saveVa ctx r.pages).toNat, pages := x.pages.map fun _ => .absent }
    { s1 with groves := s1.groves.upd b.grove fun g => { g with bars := s.joinBars (k.elim [] fun y => y.grove.bars) g.bars old } }

/-- Outstanding tokens and waits of a saved thread go to its new place (R377). -/
def State.claimSaved (s : State) (ctx va key : Nat) : State :=
  match s.saved.find? fun e => e.2.ctx == ctx && e.2.va == va with
  | none => s
  | some (id, _) =>
    let swap := fun (l : List Nat) => l.map fun j => if j = id then key else j
    { s with cmds := s.cmds.mapVals fun _ c => { c with recv := swap c.recv }
             ops := s.ops.mapVals fun _ o => if o.recv.contains id then { o with recv := swap o.recv, thr := key } else o
             saved := s.saved.del id
             ctxs := s.ctxs.upd ctx fun c => { c with keptMx := c.keptMx.mapVals fun _ o => { o with recv := swap o.recv } } }

def flagsOf (a b : Word) : List Nat := (List.range 6).map (fun i => bits a (6 * i + 5) (6 * i)) ++ (List.range 6).map fun i => bits b (6 * i + 5) (6 * i)

def recOf (w : List Word) : FRec :=
  { w0 := wordAt w 0, w1 := wordAt w 1, w2 := wordAt w 2, w3 := wordAt w 3, w4 := wordAt w 4, w5 := wordAt w 5, w6 := wordAt w 6, w7 := wordAt w 7 }

/-- A thread as its record says, at its new place, with the thread-local area of its new slot (R172, R376); PCs and sr.tba hold only the
bits that they have (R18, R27). What its marks name beyond the record, and the faults it has still to meet, are as they were here
(R144, R316, R352; notes/assumptions/53). -/
def threadFrom (t : Thread) (k : Option Thread) (w : List Word) : Thread :=
  let n := t.n
  let mark := fun i =>
    let a := wordAt w (32 + n + 2 * i)
    let b := wordAt w (33 + n + 2 * i)
    let km := k.bind fun x => x.marks.find i
    ({ issuePc := a, source := bits b 36 32, code := bits b 23 16, addr := km.elim 0 (·.addr),
       step := if bits b 36 32 = 18 then bits (wordAt w (32 + i)) 31 0 else 0 } : Mark)
  { t with pc := (wordAt w 0).setWidth 57 &&& ~~~1, regs := (w.drop 32).take n
           preds := (List.range 7).map (fun i => bit (wordAt w 1) (3 + i)) ++ [false]
           flags := flagsOf (wordAt w 2) (wordAt w 3), tba := wordAt w 6 &&& field 56 1
           hw := ((w.drop 8).take (bits (wordAt w 1) 13 10)).map fun p => p.setWidth 57 &&& ~~~1, depth := bits (wordAt w 1) 23 14
           frec := recOf (w.drop 16), frecPrev := recOf (w.drop 24)
           marks := ((List.range n).filter fun i => bit (wordAt w 5) i).map fun i => (i, mark i)
           touchErr := (k.map (·.touchErr)).getD [], mxErr := (k.map (·.mxErr)).getD [] }

/-- A barrier by its code in six bits (R192). -/
def State.homeOf (s : State) (bid : Nat) (code : Nat) : BarHome :=
  match s.blocks.find bid with
  | none => .block bid (code % 16)
  | some b => if code / 16 = 0 then .block bid (code % 16) else if code / 16 = 1 then .grove b.grove (code % 16) else .span b.launch (code % 16)

/-- THREAD_RESUME (R379). Of a WAIT the record holds no flag: the kept thread's is lowered, and none is for a thread that another
package saved (notes/assumptions/53). -/
def State.resumeThread (s : State) (key bid : Nat) (kt : Option Thread) (w : List Word) : State :=
  let t := s.thr key
  let d := wordAt w 4
  match bits (wordAt w 1) 2 0 with
  | 2 =>
    let r := t.frec
    if bits r.w1 36 32 = 31 ∧ bits r.w1 7 0 < 0x1D then s.updThread key fun t => { t with reissue := true }
    else (s.updThread key fun t => { t with status := .fault, reported := true }).report (dieOf key) (reportWords r (s.ctxOf t) key)
  | 3 =>
    let f := match kt.map (·.status) with
      | some (.wait _ _ f) => f
      | _ => none
    s.updThread key fun t => { t with status := .wait (bit d 63) (if bit d 63 then bits d 62 0 else s.clk + bits d 31 0) f }
  | 4 =>
    let h := s.homeOf bid (bits d 37 32)
    let p := bits d 31 0
    let dst := bits d 43 38
    let kind := match s.barGet h with
      | some b => if phaseDone b p then .result [.reg dst (statusWord p (phaseStatus b p)) none] else OpKind.barw h p dst
      | none => OpKind.barw h p dst
    (s.addOp { thr := key, recv := [key], pc := t.pc - 8, word := 0, issueClk := s.clk, flag := none, sync := true, ord := { acq := true, scope := h.scope }, kind := kind }).updThread key
      fun t => { t with status := .sync s.nextSeq }
  | 5 =>
    let reg := bits d 5 0
    match s.cmds.find? fun e => e.2.sync && e.2.token == reg && e.2.recv.contains key, s.mxOps.find? fun e => e.2.sync && e.2.token == some reg && e.2.recv.contains key with
    | some e, _ => s.updThread key fun t => { t with status := .sync e.1 }
    | none, some e => s.updThread key fun t => { t with status := .sync e.1 }
    | none, none => s
  | 6 => s.updThread key fun t => { t with status := .exited }
  | _ => s

/-- The threads of a block record take their values; those that had retired are gone. -/
def State.fillThreads (s : State) (ctx : Nat) (lids : List Nat) (r : ImgRec) : State :=
  match s.recBlock lids r with
  | none => s
  | some (bid, _) =>
    let k := s.keptOf ctx (lids.getD r.entry 0) r.grove r.idx
    r.threads.zipIdx.foldl (fun (x : State) w => match x.keyIn bid w.2 with
      | none => x
      | some key =>
        if bits (wordAt w.1 1) 2 0 = 7 then { x with threads := x.threads.del key }
        else
          let kt := (k.bind fun y => y.threads.find? fun t => t.2.tid == w.2).map (·.2)
          let va := (x.saveVa ctx (r.off + 1024 + w.2 * (256 + 24 * (x.thr key).n))).toNat
          (x.updThread key fun t => threadFrom t kt w.1).claimSaved ctx va key) s

/-- Blocks of the image whose threads had all retired have ended but for their shares, and so have groves of no other block (R165, R315). -/
def State.markSpent (s : State) (ctx : Nat) : State :=
  let bs := (s.blocksOf ctx).filter fun e => !s.threads.any fun t => t.2.blk == e.1
  let s1 := bs.foldl (fun (x : State) e => x.updBlock e.1 fun b => { b with spent := true }) s
  { s1 with groves := s1.groves.mapVals fun gid g => if (bs.any fun e => e.2.grove == gid) && !s1.blocks.any fun e => e.2.grove == gid && !e.2.spent then { g with spent := true } else g }

def State.resumeThreads (s : State) (ctx : Nat) (lids : List Nat) (r : ImgRec) : State :=
  match s.recBlock lids r with
  | none => s
  | some (bid, _) =>
    let k := s.keptOf ctx (lids.getD r.entry 0) r.grove r.idx
    r.threads.zipIdx.foldl (fun (x : State) w => match x.keyIn bid w.2 with
      | none => x
      | some key => x.resumeThread key bid ((k.bind fun y => y.threads.find? fun t => t.2.tid == w.2).map (·.2)) w.1) s

/-- The span barriers' coming falls and arrivals' names, once their threads are placed (R194). -/
def State.fillSpans (s : State) (ctx : Nat) (was : Tbl Launch) (lids : List Nat) : State :=
  lids.foldl (fun (x : State) lid => x.updLaunch lid fun l => { l with bars := x.joinBars ((was.find lid).elim [] (·.bars)) l.bars (s.oldKeys ctx) }) s

/-! ## Matrix shares (R318, R374) -/

/-- The operation that a saved share belongs to, with its grove and its issuer here. -/
def State.shareOp (s : State) (lid : Nat) (w : List Word) : Option MxOp :=
  let x5 := wordAt w 5
  match s.groves.find? fun g => g.2.launch == lid && g.2.index == bits x5 31 0 with
  | none => none
  | some (gid, _) =>
    let issuer := ((s.groveBlock gid (bits x5 35 32)).bind fun b => s.keyIn b.1 (bits x5 45 36)).getD (2 ^ 24)
    (wordsOp w fun r => (s.groveBlock gid r).map (·.1)).map fun o => { o with issuer := issuer, recv := [issuer], grove := gid, pc := (s.thr issuer).pc - 8 }

/-- Two shares belong to one operation. -/
def MxOp.same (a b : MxOp) : Bool := a.grove == b.grove && a.place == b.place && a.word == b.word && a.a0 == b.a0 && a.a1 == b.a1 && a.a2 == b.a2

/-- The operations found so far, with the partners whose shares have been read. -/
abbrev MxFound := List (Nat × MxOp × List Nat)

/-- A share joins the first operation of its kind that misses it on this core; a new one takes its name from what was kept. -/
def State.joinShare (s : State) (ctx lid core : Nat) (w : List Word) (res : List Byte) (acc : State × MxFound) : State × MxFound :=
  match s.shareOp lid w with
  | none => acc
  | some o =>
    let here := fun (p : MxOp) => (p.shares.filter fun x => s.coreOfBlock x.blk == core).map (·.rank)
    let fill := fun (p : MxOp) (r : Nat) => p.updShare r fun x =>
      { x with state := if bits (wordAt w 0) 1 0 = 1 then .running else if bits (wordAt w 0) 1 0 = 2 then .ready else .queued
               step := bits (wordAt w 0) 63 32, result := Mem.writeN [] 0 res }
    let queue := fun (x : State) (id r : Nat) => x.updCore core fun c => { c with array := c.array ++ [.share id r] }
    match firstSome acc.2 fun f => if f.2.1.same o then ((here f.2.1).find? fun r => !f.2.2.contains r).map fun r => (f, r) else none with
    | some (f, r) => (queue acc.1 f.1 r, acc.2.map fun g => if g.1 = f.1 then (g.1, fill g.2.1 r, r :: g.2.2) else g)
    | none =>
      match here o with
      | [] => acc
      | r :: _ =>
        let kept := (s.ctxSt ctx).keptMx.find? fun e => e.2.grove == o.grove && e.2.word == o.word && e.2.a0 == o.a0 && e.2.a1 == o.a1 && e.2.a2 == o.a2 &&
          e.2.place == o.place && !acc.2.any fun f => f.1 == e.1
        let o1 := match kept with
          | some (_, k) => { o with recv := k.recv, pc := k.pc, token := k.token, flag := k.flag, sync := k.sync, past := k.past }
          | none => o
        let id := (kept.map (·.1)).getD acc.1.nextSeq
        (queue { acc.1 with nextSeq := acc.1.nextSeq + 1 } id r, acc.2 ++ [(id, fill o1 r, [r])])

/-- The accumulators, the table and the shares of a core record go to the core of its rank (R374). -/
def State.fillCore (s : State) (ctx : Nat) (lids : List Nat) (m : RankMap) (found : MxFound) (c : ImgCore) : State × MxFound :=
  match RankMap.core m c.entry c.rank with
  | none => (s, found)
  | some core =>
    let lid := lids.getD c.entry 0
    let s1 := s.updCore core fun x => { x with acc := Mem.writeN x.acc (accBase lid) c.acc, perm := c.perm }
    c.shares.foldl (fun acc w =>
      let len := match s1.shareOp lid w with
        | some o => (((o.shares.filter fun x => s1.coreOfBlock x.blk == core).head?).map fun x => x.msp * x.nsp * o.ae).getD 0
        | none => 0
      let res := match s1.imgWords ctx (c.off + (wordAt w 6).toNat) ((len + 7) / 8) with
        | some ws => (bytesOf ws).take len
        | none => []
      s1.joinShare ctx lid core w res acc) (s1, found)

/-- Running shares pin their scratchpads again (R318). -/
def State.pinRunning (s : State) (found : MxFound) : State :=
  found.foldl (fun (x : State) f => f.2.1.shares.foldl (fun (y : State) sh => if sh.state = .running then y.pinAll sh.blk else y) x) s

/-! ## RESTORE (R378) -/

/-- The image's levels on the cores of the context: the state, or the code of the result that refuses it. -/
def State.restoreImage (s : State) (ctx : Nat) : Except Nat State :=
  match s.imgView ctx with
  | none => .error 7
  | some v =>
    let r := s.imgLids ctx v
    let lids := r.1
    let s1 := (lids.zip v.launches).zipIdx.foldl (fun (x : State) e => x.putLaunch ctx e.1.1 e.2 v e.1.2) r.2
    match s1.placeImage ctx v [] lids.zipIdx with
    | none => .error 4
    | some (s2, m) =>
      let s3 := (v.recs.foldl (fun (x : State) b => (x.fillBlock ctx lids b).fillThreads ctx lids b) (s2.fillSpans ctx s.launches lids)).markSpent ctx
      let c := v.cores.foldl (fun acc k => acc.1.fillCore ctx lids m acc.2 k) (s3, ([] : MxFound))
      let total := fun (o : MxOp) => { o with steps := o.shares.foldl (fun n x => n + x.step) 0 }
      let s4 := { c.1 with mxOps := c.2.foldl (fun (t : Tbl MxOp) (f : Nat × MxOp × List Nat) => t.put f.1 (total f.2.1)) c.1.mxOps }
      let s5 := v.recs.foldl (fun (x : State) b => x.resumeThreads ctx lids b) (s4.pinRunning c.2)
      .ok (s5.setCtx ctx fun k => { k with kept := [], keptMx := [] })

end Sys2Proof.Machine
end

