-- ==== Sys2Proof/Machine/Preempt.lean ====
section
/-! DEFINITION. The pre-emption block's commands and its own steps (spec/21_faults_and_preemption.md R367-R372, R378). -/

namespace Sys2Proof.Machine

/-- The state field of a context's image; EMPTY where the area cannot be read. -/
def State.imageState (s : State) (ctx : Nat) : Nat := (s.imgRead ctx 0).elim 0 fun h => bits h 1 0

/-- The drain begins: nothing more of the context is placed, and blocks that wait in core queues go back (R368, R369). -/
def State.startDrain (s : State) (ctx : Nat) : State :=
  let s1 := (s.returnQueues ctx).peTo .drain ctx none
  { s1 with pe := { s1.pe with deadline := s.ptp + (s.reg (Off.pe 0x10)).toNat } }

/-- PE_CMD pre-empt. In hardware mode an unpinned area is pinned first, and one that cannot be pinned ends in LOST (R368,
R429); an image in another state is no event of the table (R5). -/
def execPeCmdPreempt (ctx : Nat) (s : State) : Out :=
  if s.pe.stage ≠ .idle then .next s
  else if s.imageState ctx = 2 then .next (s.peTo .idle ctx (some 1))
  else if s.imageState ctx ≠ 0 then .next s
  else if !bit (s.ctxWord (s.ctxDie ctx) ctx 0) 27 && !(s.ctxSt ctx).pinned then
    let r := s.pinArea ctx
    .next (if r.2 then r.1.startDrain ctx else r.1.forcedReset ctx)
  else .next (s.startDrain ctx)

/-- PE_CMD kill, which the block also takes for the context that it drains (R368, R370). -/
def execPeCmdKill (ctx : Nat) (s : State) : Out :=
  if s.pe.stage = .idle ∨ (s.pe.stage = .drain ∧ s.pe.ctx = ctx) then .next (s.forcedReset ctx) else .next s

/-- PE_CMD pin (R368, R372). -/
def execPeCmdPin (ctx : Nat) (s : State) : Out :=
  if s.pe.stage ≠ .idle then .next s else
  let r := s.pinArea ctx
  .next (r.1.peTo .idle ctx (some (if r.2 then 5 else 6)))

/-- PE_CMD restore: every level is placed and the header becomes EMPTY, or nothing is placed and the image stays SAVED
(R368, R378). -/
def execPeCmdRestore (ctx : Nat) (s : State) : Out :=
  if s.pe.stage ≠ .idle then .next s else
  match s.restoreImage ctx with
  | .ok s1 => .next ((s1.setHeader ctx 0).peTo .idle ctx (some 3))
  | .error c => .next (s.peTo .idle ctx (some c))

/-- PE_DRAIN_DONE: the last resident block has ended; launch entries are written (R368). -/
def execPeDrainDone (s : State) : Out :=
  if s.pe.stage = .drain ∧ (s.blocksOf s.pe.ctx).isEmpty ∧ !s.areaHeld s.pe.ctx then .next (s.writeImage s.pe.ctx) else .next s

/-- PE_DRAIN_TIMEOUT: the context's threads stop issuing, idempotent levels are discarded, shares are told to finish or to
stop, and the save begins (R318, R368, R369). -/
def execPeDrainTimeout (s : State) : Out :=
  let ctx := s.pe.ctx
  if s.pe.stage = .drain ∧ s.pe.deadline ≤ s.ptp ∧ !(s.blocksOf ctx).isEmpty ∧ !s.areaHeld ctx then
    let s1 := (s.discards ctx).foldl (fun (x : State) g => x.discardGrove g.1 g.2) s
    .next (((s1.markStops ctx).setHeader ctx 1).peTo .save ctx none)
  else .next s

/-- PE_SAVE_DONE: with everything issued complete, the image is written and the context leaves its cores, or the save fails
(R368, R371, R372). -/
def execPeSaveDone (s : State) : Out :=
  if s.pe.stage = .save ∧ s.quiet s.pe.ctx ∧ !s.areaHeld s.pe.ctx then .next (s.writeImage s.pe.ctx) else .next s

end Sys2Proof.Machine
end

