-- ==== Sys2Proof/Machine/Picker.lean ====
section
/-! DEFINITION. What a thread stands at, when it may issue, the block table, the picker with the gang it forms, and the end
of a clk (spec/02_one_thread.md R30-R33, spec/08_parallel_work.md R158, R159, R163, spec/09_scheduling_hardware.md R184,
spec/18_matrix_engine.md R317). -/

namespace Sys2Proof.Machine

/-- What a thread stands at: a fault it meets before its next instruction, a fetch that faults, parcels that are no
instruction, or an instruction. -/
inductive Front where
  | pending
  | bad (f : FaultInfo)
  | ill (w : Word)
  | inst (w : Word) (i : Instr)
  deriving DecidableEq, Repr

/-- What thread k stands at, with the state after the fetch (R22, R64, R73). -/
def State.front (s : State) (k : Nat) : Front × State :=
  if (s.pendingOf k).isSome then (.pending, s) else
  match s.fetchInst k (s.thr k).pc with
  | .error f => (.bad f, s)
  | .ok (w, s1) =>
    match decodeWord w with
    | .ok i => (.inst w i, s1)
    | .error _ => (.ill w, s1)

/-! ## Readiness (R30) -/

/-- The flags named by the wait mask read zero, and the one the instruction sets has room; only I64 has the fields (R30,
R67). -/
def flagsOk (t : Thread) (w : Word) : Bool :=
  bits w 1 0 != 3 ||
  ((List.range 12).all (fun i => !bit w (6 + i) || t.flags.getD i 0 == 0) &&
    (decide (12 ≤ bits w 21 18) || decide (t.flags.getD (bits w 21 18) 0 < 63)))

/-- R30 lets the thread issue in this clk; a fetch from a page that accesses wait for is held (R262, R266). -/
def State.canIssue (s : State) (k : Nat) (t : Thread) : Bool :=
  t.status == .run && decide (t.readyAt ≤ s.clk) && s.mayIssue k t &&
  (match (s.front k).1 with
    | .pending => true
    | .bad _ => !s.fetchHeld k t.pc
    | .ill w => !s.fetchHeld k t.pc && flagsOk t w
    | .inst w _ => !s.fetchHeld k t.pc && flagsOk t w)

/-! ## The block table (R158) -/

/-- A thread that takes an entry: it is ready or waits out its stall or its wait mask. -/
def Thread.takesEntry (t : Thread) : Bool := t.status == .run

/-- Some thread of the partition waits for an entry, which is for it then. -/
def State.entryQueued (s : State) (core part : Nat) : Bool :=
  s.threads.any fun e => coreOf e.1 == core && partOf e.1 == part && (match e.2.tabled with
    | .waits _ => true
    | .out | .held => false)

/-- A thread without an entry takes one, or waits for one behind those that wait already. -/
def State.tableIn (s : State) (k : Nat) : State :=
  let t := s.thr k
  let es := s.tableEntries (coreOf k) (partOf k)
  if !t.takesEntry then (if t.tabled = .out then s else s.updThread k fun t => { t with tabled := .out })
  else if t.tabled ≠ .out then s
  else if es.contains (t.blk, t.pc) || (decide (es.length < 128) && !s.entryQueued (coreOf k) (partOf k)) then s.updThread k fun t => { t with tabled := .held }
  else s.updThread k fun t => { t with tabled := .waits s.clk }

/-- The block tables after a step. -/
def State.settle (s : State) : State := (s.threads.map (·.1)).foldl State.tableIn s

/-! ## The picker (R159, R163, R184) -/

/-- SHFL, VOTE and REDB (R163). -/
def bundleWide : Instr → Bool
  | .shfl _ _ _ _ _ _ => true
  | .vote _ _ => true
  | .redb _ _ _ _ _ => true
  | _ => false

/-- The instructions that issue matrix operations (R184, R317). -/
def matrixIssue : Instr → Bool
  | .mma _ _ _ _ _ _ => true
  | .mmag _ _ _ _ _ _ => true
  | .mmaq _ _ _ _ _ _ => true
  | _ => false

/-- A thread ready in its entry. -/
def State.ready (s : State) (k : Nat) (t : Thread) : Bool := t.tabled == .held && s.canIssue k t

/-- A fault that an earlier instruction left is due before the thread's next one (R144, R316). -/
def State.due (s : State) (k : Nat) : Bool := (s.pendingOf k).isSome

/-- Every live member of the thread's bundle is ready at its PC, with no fault due before the instruction (R163). -/
def State.bundleMet (s : State) (k : Nat) (t : Thread) : Bool :=
  s.threads.all fun e => e.1 / 32 != k / 32 || e.2.status == .exited || (e.2.pc == t.pc && s.ready e.1 e.2 && !s.due e.1)

/-- What the picker weighs of a ready thread. -/
structure Cand where
  key   : Nat
  blk   : Nat
  pc    : Pc
  prio  : Nat
  since : Nat
  slot  : Nat
  wide  : Bool
  /-- a fault is due before the instruction -/
  due   : Bool
  deriving DecidableEq, Repr

/-- A thread as the picker counts it: ready, its bundle met where the instruction asks for that, and not at a matrix
instruction while EBUD reads 0 (R163, R184, R317). -/
def State.cand (s : State) (k : Nat) (t : Thread) : Option Cand :=
  if !s.ready k t then none else
  let wide := match (s.front k).1 with
    | .inst _ i => bundleWide i
    | _ => false
  let barred := match (s.front k).1 with
    | .inst _ i => matrixIssue i && (s.ctxSt (s.ctxOf t)).ebud == 0
    | _ => false
  if barred || (wide && !s.bundleMet k t) then none else
  some { key := k, blk := t.blk, pc := t.pc, prio := (s.launchOf t).elim 0 fun l => lPriority l.words, since := t.since
         slot := (s.blocks.find t.blk).elim 0 (·.slot), wide := wide, due := s.due k }

/-- Numbers compared one after another. -/
def lexLt : List Nat → List Nat → Bool
  | a :: x, b :: y => decide (a < b) || (a == b && lexLt x y)
  | _, _ => false

/-- The first of the list that no later one precedes. -/
def firstBy (f : Cand → List Nat) : List Cand → Option Cand
  | [] => none
  | c :: t => match firstBy f t with
    | none => some c
    | some d => if lexLt (f d) (f c) then some d else some c

/-- The entry chosen (R184): highest priority, earliest ready thread, lower block slot, lower PC; the thread that makes it
first, by bundle slot and lane. -/
def bestCand (cs : List Cand) : Option Cand :=
  firstBy (fun c => [63 - c.prio, c.since, c.slot, c.pc.toNat, c.key]) cs

/-- The gang of the entry that c stands in (R159): on each lane the thread ready first, then the lower bundle slot; a
bundle-wide instruction takes its whole bundle (R163). The entry's threads with a fault due meet theirs as one gang, and the
others' instruction goes on without them (R159, R160, R353). -/
def gangOf (c : Cand) (cs : List Cand) : List Nat :=
  let entry := cs.filter fun d => d.blk == c.blk && d.pc == c.pc && d.due == c.due
  if c.wide && !c.due then (List.range 32).filterMap fun l => (entry.find? fun d => d.key / 32 == c.key / 32 && laneOf d.key == l).map (·.key)
  else (List.range 32).filterMap fun l => (firstBy (fun d => [d.since, d.key]) (entry.filter fun d => laneOf d.key == l)).map (·.key)

/-- The partitions that hold threads, as the keys of their threads divided by 2,048. -/
def State.partitions (s : State) : List Nat := (s.threads.map fun e => e.1 / 2048).dedup

/-- The gang that the picker of a partition forms in this clk, if any. -/
def State.pickGang (s : State) (p : Nat) : Option (List Nat) :=
  if (s.core (p / 4)).issued.contains (p % 4) then none else
  let cs := (s.threads.filter fun e => e.1 / 2048 == p).filterMap fun e => s.cand e.1 e.2
  (bestCand cs).map fun c => gangOf c cs

/-- The gangs still to issue in this clk. -/
def State.gangs (s : State) : List (List Nat) := s.partitions.filterMap s.pickGang

/-! ## The end of a clk -/

/-- The clk in which a thread became ready, for the aging rule (R184). -/
def State.aged (s : State) (k : Nat) (t : Thread) : Thread :=
  if t.since = 0 ∧ s.ready k t then { t with since := s.clk } else t

/-- PTP nanoseconds that pass with clk c: a clk of 940 MHz is 50/47 ns (R14; notes/assumptions/3). -/
def clkNs (c : Nat) : Nat := 50 * (c + 1) / 47 - 50 * c / 47

/-- Every thread that is ready now counts from this clk (R184). -/
def State.ageAll (s : State) : State := { s with threads := s.threads.mapVals s.aged }

/-- ERRORS (R439; notes/assumptions/23): at the end of a clk one may have come up, as the part pleases: corrected, and counted; or uncorrectable, of a
sector in memory or a cache, of a scratchpad word, of a result buffer, of an engine's buffer, whose command ends with UNCORR (R298), or of a
directory, a wait table, a link or an encoder's buffer, of which the service ring tells. -/
def State.strike (s : State) : State :=
  let n := (Config.unstated s.draws 400).toNat
  match s.pick 40 % 8 with
  | 1 => { s with corrected := s.corrected + 1 }
  | 2 => { s with badMem := if s.badMem.contains (n % 2 ^ 34) then s.badMem else s.badMem ++ [n % 2 ^ 34] }
  | 3 => (s.blocks[n % s.blocks.length]?).elim s fun b => { s with badSpad := s.badSpad ++ [(b.1, n / 65536 % max 1 (b.2.scratchBytes / 8))] }
  | 4 => (s.mxOps[n % s.mxOps.length]?).elim s fun o => s.updMx o.1 fun x => { x with shares := x.shares.zipIdx.map fun y => if y.2 = n / 65536 % x.shares.length then { y.1 with bad := true } else y.1 }
  | 5 => (s.cmds[n % s.cmds.length]?).elim s fun c =>
      if c.2.started && !c.2.done && decide (c.2.engine < 17) then (if c.2.kind.grouped then s.endMember c.1 c.2 0x13 0 else s.failCopy c.1 0x13 0) else s
  | 6 => s.service 5 0 (BitVec.ofNat 64 n) 0
  | _ => s

/-- The end of a clk: what is due lands (R31-R33), then the next clk and its PTP time (R14); the queue engines look at their nodes'
counters and write the retire counters that waited (R187); held writes that may be made now are made (R266, R414); leases that hold nothing
and have passed, and writes that every die has applied, are forgotten (R236, R414); an error may come up (R439); and the free choices of the new clk are counted from
here (R164, R389). -/
def State.tick (s : State) : State :=
  let s1 := { s with threads := s.threads.mapVals (fun _ t => t.landAll s.clk)
                     cores := s.cores.mapVals (fun _ c => { c with issued := [] })
                     clk := s.clk + 1
                     clkDraws := s.draws
                     ptp := s.ptp + clkNs s.clk }
  s1.drainHeld.leaseTidy.tidyWrites.watchNodes.retireDrain.strike.settle.ageAll

end Sys2Proof.Machine
end

