-- ==== Sys2Proof/Machine/Load.lean ====
section
/-! DEFINITION. A program of one instruction loaded from outside the machine: page tables, a launch and a thread that stands
at it (spec/14_translation_and_versions.md R248-R251, spec/02_one_thread.md R19; notes/assumptions/41). -/

namespace Sys2Proof.Machine

/-- The longest instruction's bytes of a word, lowest first (R2, R64). -/
def fetchBytes (w : Nat) : List Byte := toLe 8 w

/-- The bytes placed where thread k fetches next, when its PC translates. -/
def State.pokeFetch (s : State) (k w : Nat) : State :=
  match s.accessFor (Agent.core k) (s.ctxOf (s.thr k)) ((s.thr k).pc.setWidth 64) 2 .fetch with
  | .ok a => { s with mem := Mem.writeN s.mem a.pa (fetchBytes w), icache := s.icache.filter fun e => e.2.1 != a.pa / 256 && e.2.1 != (a.pa + 7) / 256 }
  | .error _ => s

/-- The tables of context 0 that map one 64 KiB page of code at 0x10000, readable, writable and executable, and the code. -/
def codePage (w : Nat) (m : List Host.Cell) : List Host.Cell :=
  let put := fun (m : List Host.Cell) (a v : Nat) => Mem.writeN m a (toLe 8 v)
  let m1 := put (put (put (put (put m 0x100000 0x102001) 0x102000 0x103001) 0x103000 0x104001) 0x104000 0x105001) 0x105000 0x106001
  Mem.writeN (put m1 0x106008 0x2000F2) 0x200000 (fetchBytes w)

/-- The launch record of one grove of one block of one thread with 64 registers at 0x10000 (R166). -/
def oneRecord : List Word := [0x10000, 0, 0, 0, 0, pack [(1, 0), (1, 32), (1, 37), (3, 48)], pack [(1, 24), (1, 32), (1, 40)], 0]

/-- One thread of context 0 on core 0 of die CD0, ready in its block table at the code page, with a scratchpad of 64 KiB. -/
def State.loadOne (s : State) (w : Nat) : State :=
  let lid := s.nextSeq
  let l : Launch := { words := oneRecord, ctx := 0, queue := 0, die := 0, order := lid, nextGrove := 1, started := true }
  let b : Block :=
    { launch := lid, grove := lid + 1, idx := 0, die := 0, core := 0, slot := 0, rank := 0, threads := 1, bars := newBars 16 1, homes := [0]
      scratchBytes := 65536, pages := List.replicate 4 .pinned }
  let t : Thread := { threadStart oneRecord (lid + 2) 0 0 0 0 s.clk with readyAt := s.clk, since := s.clk, tabled := .held }
  { s.setReg (Off.xl 0 0) 0x100000 with
    mem := codePage w s.mem
    launches := s.launches.put lid l
    groves := s.groves.put (lid + 1) { launch := lid, index := 0, die := 0, bars := newBars 8 1 }
    blocks := s.blocks.put (lid + 2) b
    threads := s.threads.put 0 t
    cores := s.cores.put 0 { s.core 0 with owner := some 0, grants := [(lid, 65536)] }
    nextSeq := lid + 3 }

end Sys2Proof.Machine
end

