-- ==== Sys2Proof/Machine/Checkpoint.lean ====
section
/-! DEFINITION. Checkpoints: SHA-256, the shard of a job, saving it and restoring it
(spec/26_fabric_and_checkpoint.md R417-R424). -/

namespace Sys2Proof.Machine

/-! ## SHA-256 (R419) -/

abbrev W32 := BitVec 32

/-- The largest number whose e-th power is at most x, found bit by bit from bit n − 1 down. -/
def rootOf (e x : Nat) : Nat → Nat → Nat
  | 0, r => r
  | n + 1, r => rootOf e x n (if (r + 2 ^ n) ^ e ≤ x then r + 2 ^ n else r)

/-- The primes below n, in order. -/
def primesBelow (n : Nat) : List Nat :=
  (List.range n).filter fun p => decide (2 ≤ p) && (List.range p).all fun d => decide (d < 2) || p % d != 0

/-- The standard's constant of a prime: the first 32 bits behind the point of its e-th root. -/
def rootBits (e p : Nat) : W32 := BitVec.ofNat 32 (rootOf e (p * 2 ^ (32 * e)) 40 0)

/-- The exclusive or of a word under some rotations. -/
def spin (x : W32) (ns : List Nat) : W32 := ns.foldl (fun y n => y ^^^ x.rotateRight n) 0

/-- The chaining value and the working words. -/
structure Sha where
  a : W32
  b : W32
  c : W32
  d : W32
  e : W32
  f : W32
  g : W32
  h : W32
  deriving DecidableEq, Repr

def Sha.start : Sha :=
  let r := fun i => rootBits 2 ((primesBelow 20).getD i 0)
  { a := r 0, b := r 1, c := r 2, d := r 3, e := r 4, f := r 5, g := r 6, h := r 7 }

/-- One round, with a message word and its constant added. -/
def Sha.round (v : Sha) (x : W32) : Sha :=
  let t := x + v.h + spin v.e [6, 11, 25] + (v.g ^^^ v.e &&& (v.f ^^^ v.g))
  { a := t + spin v.a [2, 13, 22] + (v.a &&& v.b ||| v.c &&& (v.a ||| v.b)), b := v.a, c := v.b, d := v.c, e := v.d + t, f := v.e, g := v.f, h := v.g }

def Sha.join (v w : Sha) : Sha :=
  { a := v.a + w.a, b := v.b + w.b, c := v.c + w.c, d := v.d + w.d, e := v.e + w.e, f := v.f + w.f, g := v.g + w.g, h := v.h + w.h }

/-- The rounds of a block over its window of sixteen message words: each uses the window's first, which the word after the window
replaces. -/
def Sha.rounds : List W32 → List W32 → Sha → Sha
  | [], _, v => v
  | k :: ks, win, v =>
    let m := fun i => win.getD i 0
    let next := spin (m 14) [17, 19] ^^^ (m 14 >>> 10)
    Sha.rounds ks (win.drop 1 ++ [next + m 9 + (spin (m 1) [7, 18] ^^^ (m 1 >>> 3)) + m 0]) (v.round (k + m 0))

/-- A big-endian number. -/
def ofBe (bs : List Byte) : Nat := bs.foldl (fun n b => 256 * n + b.toNat) 0

/-- A block of 64 bytes, under the round constants. -/
def Sha.block (ks : List W32) (v : Sha) (blk : List Byte) : Sha :=
  v.join (Sha.rounds ks ((List.range 16).map fun i => BitVec.ofNat 32 (ofBe ((blk.drop (4 * i)).take 4))) v)

/-- SHA-256: the digest's 32 bytes. -/
def sha256 (m : List Byte) : List Byte :=
  let fill := List.replicate ((119 - m.length % 64) % 64) (0 : Byte)
  let text := m ++ [0x80] ++ fill ++ (toLe 8 (8 * m.length)).reverse
  let v := ((List.range (text.length / 64)).map fun i => (text.drop (64 * i)).take 64).foldl (Sha.block ((primesBelow 312).map (rootBits 3))) Sha.start
  [v.a, v.b, v.c, v.d, v.e, v.f, v.g, v.h].flatMap fun w => (toLe 4 w.toNat).reverse

/-! ## The job (R417, R418, R422) -/

/-- The context whose tables translate a job's addresses, through CD0: the fabric window's (notes/assumptions/40). -/
def State.ckCtx (s : State) : Nat := bits (s.reg (Off.fb 0x20)) 9 0

/-- The engine that acts for the checkpoint block, with a group's address. -/
def State.ckCmd (s : State) (group : Word) : Cmd :=
  { engine := 0, kind := .coll, thr := 0, recv := [], ctx := s.ckCtx, die := 0, launch := 0, grove := 0, blkId := 0, pc := 0
    regs := [0, 0, 0, group, 0, 0], credit := none, token := 0, flag := none, sync := false, ordered := false }

/-- CK_STATUS (R417): stage 0 idle, 1 hash, 2 exchange, 3 write, 4 manifest, 5 select, 6 read. -/
def State.ckTo (s : State) (stage : Nat) (status : Option Nat) : State :=
  { s with ck := { s.ck with stage := stage } }.setReg (Off.ck 0x10)
    (pack [(if stage = 0 then 0 else 1, 0), (stage, 1), (status.getD (bits (s.reg (Off.ck 0x10)) 15 8), 8)])

/-- n words at a virtual address, as the engines read them, each once (R289). -/
def State.ckWords (s : State) (va : Word) (n : Nat) : Eng (List Word) :=
  (s.partRead ckId (s.ckCmd 0) va (8 * n)).bind fun s1 bs =>
    .ok s1 ((List.range n).map fun i => BitVec.ofNat 64 (ofLe ((bs.drop (8 * i)).take 8)))

/-- The job's writes on their way. -/
def State.ckWrites (s : State) : List Nat := (s.inflight.filter fun e => e.2.thrs.contains (cmdTag ckId)).map (·.1)

/-- A word written as a release at .sys of the job's writes (R420). -/
def State.ckRelease (s : State) (va v : Word) : Eng Unit :=
  (s.engAccess ckId (s.ckCmd 0) va 8 .write false true).bind fun s1 a =>
    let w := { agentRelease s1.ckWrites .sys with thrs := [cmdTag ckId] }
    .ok ((s1.classAgentWrite (s1.paNow a)).writePa w a.key (s1.paNow a) (toLe 8 v.toNat) none) ()

/-- The completion word of a job may be used (R295, R422). -/
def completionOk (w : Word) : Bool := bits w 63 61 == 0 && bits w 2 0 == 0 && decide (bits w 59 57 < 6)

/-- The job's completion word, a release of its writes at comp_scope, where the descriptor asks for one: sent again when a peer refuses it,
waiting for a lease or a page as an engine's does (R278, R289, R414, R420, R422). -/
def State.ckComp (s : State) (status : Nat) : Eng Unit :=
  let w := wordAt s.ck.desc 7
  let past := s.ckWrites
  let heads := (Scope.ofCode (BitVec.ofNat 3 (bits w 59 57))).toList.map fun sc => ({ by_ := .engine, scope := sc, past := past } : RelHead)
  if s.ck.desc.length = 8 ∧ completionOk w = true ∧ bits w 56 0 ≠ 0 then
    (s.engAccess ckId (s.ckCmd 0) (BitVec.ofNat 64 (bits w 56 0)) 8 .write false true).bind fun s1 a =>
      .ok (s1.agentPutAs (some ckId) { thrs := [cmdTag ckId], past := past, heads := heads } a.key (s1.paNow a) (toLe 8 status)
        (if bit w 60 && isDevice (s1.paNow a) then some true else none)) ()
  else .ok s ()

/-- The job is over, with its status. -/
def State.ckOver (s : State) (status : Nat) : State := { (s.ckTo 0 (some status)) with ck := {} }

/-- The job ends with its completion word, or a COMPLOST entry for a lost one (R278, R422). While that word must wait, the job stays busy. -/
def State.ckEnd (s : State) (status : Nat) : State :=
  match s.ckComp status with
  | .ok s1 _ => s1.ckOver status
  | .err s1 _ _ => (s1.service 4 s.ckCtx (BitVec.ofNat 64 (bits (wordAt s.ck.desc 7) 56 0)) 0).ckOver status
  | .wait s1 => { s1 with ck := { s1.ck with final := some status } }

/-- The status that an engine's error stands for. -/
def ckCode (code : Nat) : Nat := if code = 0x13 then 5 else 2

/-- The job's step goes on, or ends it; an access that must wait leaves the stage, in which what has been read already is not read again
(R289, R410). -/
def ckStep {α : Type} (x : Eng α) (k : State → α → State) : State :=
  match x with
  | .ok s1 v => k s1 v
  | .err s1 c _ => s1.ckEnd (ckCode c)
  | .wait s1 => s1

/-- The job's descriptor; one that cannot be read is a bad one, unless its data are in error (R418, R422, R423). -/
def State.ckDesc (s : State) (k : State → List Word → State) : State :=
  match s.ckWords (s.reg (Off.ck 0)) 8 with
  | .ok s1 d => k { s1 with ck := { s1.ck with desc := d } } d
  | .err s1 c _ => s1.ckEnd (if c = 0x13 then 5 else 3)
  | .wait s1 => s1

/-! ## Regions and the shard (R419) -/

/-- The physical address of a region descriptor that a plain leaf maps (R255, R440). -/
def State.ckRegion (s : State) (va : Word) : Option Nat :=
  match s.leafFor (qeAgent 0) s.ckCtx va .read with
  | .error _ => none
  | .ok l =>
    if l.versioned || va.toNat % 64 != 0 then none else
    match s.place (qeAgent 0) s.ckCtx va 8 l with
    | .ok a => if isDevice a.pa then some a.pa else none
    | .error _ => none

/-- The key under which a page's frames are read: that of a leaf that maps its record, else key 0 (notes/assumptions/40). -/
def State.pageKey (s : State) (r : Nat) : Nat := ((s.leaves.find? fun l => l.versioned && l.record == r).map Leaf.key).getD 0

/-- The frames of a region's pages at a step, with their keys; none when a page does not hold it. -/
def State.pagesOf (s : State) (reg step : Nat) : Option (List (Nat × Nat)) :=
  (s.records reg).foldr (fun r acc => match acc, s.resolve r step with
    | some l, some f => some ((f, s.pageKey r) :: l)
    | _, _ => none) (some [])

/-- The stream of a page: its bytes, then its tag bytes (R228). -/
def State.pageStream (s : State) (f : Nat × Nat) : List Byte := s.bytesAt none f.2 f.1 65536 ++ s.tagBytes f.1

def chunkLen : Nat := 2 ^ 22

/-- A stream cut into chunks (R419). -/
def shardChunks : Nat → List Byte → List (List Byte)
  | 0, _ => []
  | n + 1, bs => if bs.isEmpty then [] else bs.take chunkLen :: shardChunks n (bs.drop chunkLen)

/-- The shard of some regions at a step, in chunks. -/
def State.shard (s : State) (regs : List Nat) (step : Nat) : Option (List (List Byte)) :=
  let ps := regs.foldr (fun r acc => match acc, s.pagesOf r step with
    | some l, some p => some (p ++ l)
    | _, _ => none) (some [])
  ps.map fun l => shardChunks (l.length + 1) (l.flatMap s.pageStream)

/-- Data of the shard's frames hold an uncorrectable error. -/
def State.shardUncorr (s : State) (regs : List Nat) (step : Nat) : Bool :=
  regs.any fun r => ((s.pagesOf r step).getD []).any fun f => s.badMem.any fun e => decide (f.1 ≤ e * 64) && decide (e * 64 < f.1 + 65536)

/-- Some regions hold a step: O to W − 1 of each (R258, R422). -/
def State.holdStep (s : State) (regs : List Nat) (step : Nat) : Bool :=
  regs.all fun r => decide ((s.regionWO none r).2 ≤ step) && decide (step < (s.regionWO none r).1)

/-! ## Saving (R418-R421) -/

/-- Fields of a save descriptor in range (R418). -/
def saveDescOk (d : List Word) : Bool :=
  let n := bits (wordAt d 1) 15 0
  bits (wordAt d 1) 63 32 == 0 && decide (1 ≤ n) && decide (n ≤ 256) && bits (wordAt d 2) 63 32 == 0 && (wordAt d 5).toNat % chunkLen == 0 &&
  (wordAt d 6).toNat % 64 == 0 && completionOk (wordAt d 7)

/-- The host carries out the stages of a context in host-assisted mode (R417, R429). -/
def State.ckHost (s : State) : Bool := bit (s.ctxWord 0 s.ckCtx 0) 28

/-- The regions of a job, all valid and in the state wanted. -/
def State.ckRegions (s : State) (vas : List Word) (ok : Nat → Bool) : Option (List Nat) :=
  vas.foldr (fun va acc => match acc, s.ckRegion va with
    | some l, some r => if ok r then some (r :: l) else none
    | _, _ => none) (some [])

/-- The step that a save's descriptor names. -/
def State.ckSaved (s : State) : Nat := bits (wordAt s.ck.desc 2) 31 0

/-- Hash: the descriptor is checked, and the copy engines read and hash every chunk (R418-R420). -/
def State.ckHash (s : State) : State :=
  s.ckDesc fun s2 d =>
    if !saveDescOk d then s2.ckEnd 3 else
    ckStep (s2.ckWords (wordAt d 0) (bits (wordAt d 1) 15 0)) fun s3 vas =>
      match s3.ckRegions vas s3.regionOk with
      | none => s3.ckEnd 3
      | some regs =>
        if !s3.holdStep regs s3.ckSaved then s3.ckEnd 1
        else if s3.shardUncorr regs s3.ckSaved then s3.ckEnd 5
        else match s3.shard regs s3.ckSaved with
          | none => s3.ckEnd 1
          | some cs => { s3 with ck := { s3.ck with regions := regs, hashes := cs.map sha256, got := [] } }.ckTo 2 none

/-- The packages of lower fabric ID in the job's group. -/
def State.lowerPeers (s : State) (g : GroupView) : List Nat := (List.range s.fabricId).filter fun f => g.ranks.contains f

/-- Which of them, if any, has listed a chunk's hash, and under which chunk index: it is theirs to say (R420;
notes/assumptions/7). -/
def State.peerChunk (s : State) (peers : List Nat) (i : Nat) : Option (Nat × Nat) :=
  (peers.find? fun f => Config.peerPart s.draws (2 ^ 20 + f) i % 2 == 1).map fun f => (f, Config.peerPart s.draws (2 ^ 20 + f) i / 2)

/-- Who writes a chunk: a lower package of the group, or this one at the first chunk of that hash (R420). -/
def State.chunkWriter (s : State) (peers : List Nat) (hs : List (List Byte)) (i : Nat) : Nat × Nat :=
  match s.peerChunk peers (hs.findIdx (· == hs.getD i [])) with
  | some p => p
  | none => (s.fabricId, hs.findIdx (· == hs.getD i []))

/-- The digest as four words. -/
def digestWords (h : List Byte) : List Word := (List.range 4).map fun i => BitVec.ofNat 64 (ofLe ((h.drop (8 * i)).take 8))

/-- The manifest: its header up to m5, then its entries (R421). -/
def State.manifest (s : State) (peers : List Nat) (d : List Word) (cs : List (List Byte)) : List Word × List Word :=
  let bytes := cs.foldl (fun n c => n + c.length) 0
  ([1, BitVec.ofNat 64 (bits (wordAt d 2) 31 0), wordAt d 3, pack [(bits (wordAt d 1) 31 16, 0), (s.fabricId, 16)], BitVec.ofNat 64 cs.length, BitVec.ofNat 64 bytes],
   cs.zipIdx.flatMap fun c =>
     let w := s.chunkWriter peers s.ck.hashes c.2
     digestWords (s.ck.hashes.getD c.2 []) ++ [BitVec.ofNat 64 w.1, BitVec.ofNat 64 w.2, BitVec.ofNat 64 c.1.length, 0])

/-- Words of a chunk, the last one filled with zeros. -/
def chunkWords (c : List Byte) : List Word := (List.range ((c.length + 7) / 8)).map fun i => BitVec.ofNat 64 (ofLe ((c.drop (8 * i)).take 8))

/-- Words from an address on, as writes. -/
def wordsFrom (va : Word) (ws : List Word) : List (Word × List Byte) := ws.zipIdx.map fun x => (va + BitVec.ofNat 64 (8 * x.2), toLe 8 x.1.toNat)

/-- The writes of the chunks that are this package's (R420). -/
def State.chunkOuts (s : State) (peers : List Nat) (cs : List (List Byte)) : List (Word × List Byte) :=
  (cs.zipIdx.filter fun c => s.chunkWriter peers s.ck.hashes c.2 == (s.fabricId, c.2)).flatMap fun c =>
    wordsFrom (wordAt s.ck.desc 5 + BitVec.ofNat 64 (chunkLen * c.2)) (chunkWords c.1)

/-- The writes of the manifest but for m6: its entries, its header, and m7, which is zero (R421). -/
def State.manifestOuts (s : State) (peers : List Nat) (cs : List (List Byte)) : List (Word × List Byte) :=
  let m := s.manifest peers s.ck.desc cs
  let at_ := wordAt s.ck.desc 6
  wordsFrom (at_ + 64) m.2 ++ wordsFrom at_ m.1 ++ wordsFrom (at_ + 56) [0]

/-- The group of the job; no group is one without other packages (R418, R420). -/
def State.ckGroup (s : State) : Eng GroupView :=
  if wordAt s.ck.desc 4 = 0 then .ok s { ranks := [], ring := [] } else s.groupRead ckId (s.ckCmd (wordAt s.ck.desc 4))

/-- The job's accesses of the exchange: its list goes to every other package of the group, hash by hash (R416, R420). -/
def State.exchange (s : State) (g : GroupView) : Eng Unit :=
  s.peerSteps ckId (s.ckCmd (wordAt s.ck.desc 4)) ((g.ranks.filter (· != s.fabricId)).dedup.flatMap fun f =>
    (List.range s.ck.hashes.length).map fun i => (f, wordAt s.ck.desc 4 + BitVec.ofNat 64 (64 * i)))

/-- Exchange: with the group's lists together it is settled which chunks this package writes, and what its manifest says (R420, R421). -/
def State.ckExchange (s : State) : State :=
  match s.ckGroup with
  | .err s1 e _ => s1.ckEnd (if e = 0x0F then 3 else ckCode e)
  | .wait s1 => s1
  | .ok s0 g =>
    ckStep (s0.exchange g) fun s1 _ =>
      let peers := s1.lowerPeers g
      if s1.shardUncorr s1.ck.regions s1.ckSaved then s1.ckEnd 5 else
      match s1.shard s1.ck.regions s1.ckSaved with
      | none => s1.ckEnd 1
      | some cs => { s1 with ck := { s1.ck with outs := s1.chunkOuts peers cs, entries := s1.manifestOuts peers cs, got := [] } }.ckTo 3 none

/-- One of the job's writes is made; which comes next is free (R241). -/
def State.ckPut (s : State) (k : State → State) : State :=
  match s.ck.outs[s.pick 64 % s.ck.outs.length]? with
  | none => k s
  | some o => ckStep (s.engWrite ckId (s.ckCmd 0) o.1 o.2 0 false true) fun s1 _ => { s1 with ck := { s1.ck with outs := s1.ck.outs.erase o } }

/-- Write: the chunks of this package go to the target; then the manifest is next (R420). -/
def State.ckChunks (s : State) : State := s.ckPut fun s1 => { s1 with ck := { s1.ck with outs := s1.ck.entries, entries := [] } }.ckTo 4 none

/-- Manifest: every entry and the header first, then m6, then the completion word (R420). -/
def State.ckManifest (s : State) : State := s.ckPut fun s1 => ckStep (s1.ckRelease (wordAt s1.ck.desc 6 + 48) 1) fun s2 _ => s2.ckEnd 0

/-- CK_CMD save: the job starts with its first stage (R417, R420). -/
def execCkCmdSave (s : State) : Out := .next (if s.ck.stage ≠ 0 ∨ s.ckHost then s else s.ckTo 1 none)

/-! ## Restoring (R423, R424) -/

/-- Fields of a restore descriptor in range (R423). -/
def restoreDescOk (d : List Word) : Bool :=
  let n := bits (wordAt d 5) 15 0
  bits (wordAt d 5) 63 16 == 0 && wordAt d 6 == 0 && decide (1 ≤ n) && decide (n ≤ 256) && bits (wordAt d 1) 47 32 != 0 &&
  decide (bits (wordAt d 1) 63 48 < bits (wordAt d 1) 47 32) && completionOk (wordAt d 7)

/-- A region that may be restored: valid but for being inactive, with a working frame for each page (R423). -/
def State.restorable (s : State) (r : Nat) : Bool :=
  let h := fun i => s.hwRead (r + 8 * i)
  bits (h 0) 63 36 == 0 && decide (1 ≤ bits (h 0) 35 32) && decide (bits (h 0) 35 32 ≤ 8) && bits (h 1) 63 32 == 0 && bits (h 3) 63 32 == 0 &&
  decide (1 ≤ bits (h 3) 31 0) && decide (bits (h 5) 31 0 ≤ bits (h 5) 63 32) && bits (h 6) 63 32 == 0 && h 7 == 0 &&
  (s.records r).all fun p => s.wframe p != 0 && isDevice (s.wframe p)

/-- A manifest's address with its header (R421). -/
abbrev Manifest := Word × List Word

def State.readManifests (s : State) : List Word → Eng (List Manifest)
  | [] => .ok s []
  | a :: t => (s.ckWords a 8).bind fun s1 h => (s1.readManifests t).bind fun s2 l => .ok s2 ((a, h) :: l)

/-- The steps that every rank has, largest first (R424). -/
def commonSteps (ms : List Manifest) (ranks : Nat) : List Nat :=
  let of := fun r => (ms.filter fun m => bits (wordAt m.2 3) 15 0 == r).map fun m => bits (wordAt m.2 1) 31 0
  (((of 0).filter fun st => (List.range ranks).all fun r => (of r).contains st).dedup).mergeSort fun a b => decide (b ≤ a)

/-- Groups of eight words. -/
def entriesOf (ws : List Word) : Nat → List (List Word)
  | 0 => []
  | n + 1 => ws.take 8 :: entriesOf (ws.drop 8) n

/-- A page of the shard goes into the working frame of its record (R424). -/
def State.putPage (s : State) (r step : Nat) (bs : List Byte) : State :=
  let f := s.wframe r
  let s1 := ((s.classAgentWrite f).writePa { thrs := [cmdTag ckId] } (s.pageKey r) f (bs.take 65536) none).putTags f (bs.drop 65536)
  let s2 := s1.hwWrite (r + 8) (BitVec.ofNat 64 step)
  (List.range 8).foldl (fun (x : State) j => x.hwWrite (r + 8 * (4 + j)) 0) s2

def State.putPages (s : State) (step : Nat) : List Nat → List Byte → State
  | [], _ => s
  | r :: t, bs => (s.putPage r step (bs.take 66560)).putPages step t (bs.drop 66560)

/-- A restored region: W, O and swept, then active with a release at .sys; its O below W is Heartwood's own doing, and no finding
of a first use (R256, R424). -/
def State.activate (s : State) (step r : Nat) : State :=
  let h0 := s.hwRead r
  let s1 := (s.hwWrite (r + 8) (BitVec.ofNat 64 step)).hwWrite (r + 48) (BitVec.ofNat 64 step)
  let s2 := s1.writePa (agentRelease (s1.inflight.map (·.1)) .sys) 0 r (toLe 8 (pack [(bits h0 35 32, 32), (1, 36), ((step + 1) % 2 ^ 32, 0)]).toNat) none
  { s2 with regions := s2.regions.filter fun v => v.region != r, sweeps := s2.sweeps.filter (· != r) }.useRegion r

/-- What the job has in hand for a restore: the recovered regions, the counting manifests and the target table (R423, R424). -/
def State.ckInputs (s : State) (k : State → List Nat → List Manifest → List Word → State) : State :=
  s.ckDesc fun s2 d =>
    if !restoreDescOk d then s2.ckEnd 3 else
    ckStep (s2.ckWords (wordAt d 4) (bits (wordAt d 5) 15 0)) fun s3 vas =>
    match s3.ckRegions vas s3.restorable with
    | none => s3.ckEnd 3
    | some regs =>
      ckStep (s3.ckWords (wordAt d 0) (bits (wordAt d 1) 31 0)) fun s4 as =>
      ckStep (s4.readManifests as) fun s5 all =>
      ckStep (s5.ckWords (wordAt d 3) 1024) fun s6 table =>
        k s6 regs (all.filter fun m => bit (wordAt m.2 6) 0 && wordAt m.2 2 == wordAt d 2) table

/-- The bytes of a shard of some regions. -/
def State.shardLen (s : State) (regs : List Nat) : Nat := 66560 * (regs.flatMap s.records).length

/-- Select: the largest step that every rank has and that is not excluded yet; the chunks of this rank's manifest of it are to be read (R424).
A manifest of another length than the regions' shard excludes its step. -/
def State.ckSelect (s : State) : State :=
  s.ckInputs fun s1 regs ms _ =>
    let d := s1.ck.desc
    let steps := commonSteps ms (bits (wordAt d 1) 47 32)
    match s1.ck.cands.getD steps with
    | [] => s1.ckEnd (if steps.isEmpty then 1 else 4)
    | st :: t =>
      let skip := { s1 with ck := { s1.ck with cands := some t } }
      match ms.find? fun m => bits (wordAt m.2 3) 15 0 == bits (wordAt d 1) 63 48 && bits (wordAt m.2 1) 31 0 == st with
      | none => skip
      | some m =>
        if (wordAt m.2 5).toNat ≠ s1.shardLen regs then skip else
        let n := (wordAt m.2 4).toNat
        ckStep (s1.ckWords (m.1 + 64) (8 * n)) fun s2 ws =>
          { s2 with ck := { s2.ck with cands := some (st :: t), todo := entriesOf ws n, data := [] } }.ckTo 6 none

/-- No lease and no copy holds back what a restore writes of a page (R262, R266, R414). -/
def State.pageFree (s : State) (r : Nat) : Bool :=
  s.metaFree (s.regionOf r) r && !s.frozen (s.wframe r) && (List.range 256).all fun i => s.leaseFree (s.wframe r + 256 * i)

/-- The step is excluded, and selection runs again (R424). -/
def State.ckExclude (s : State) : State :=
  { s with ck := { s.ck with cands := s.ck.cands.map (List.drop 1), todo := [], data := [] } }.ckTo 5 none

/-- Read: the chunks of the selected step, each from its writer's target, one after another; one whose digest differs excludes the step.
With all of them verified the regions hold the step (R424). -/
def State.ckRead (s : State) : State :=
  s.ckInputs fun s1 regs _ table =>
    match s1.ck.todo with
    | e :: t =>
      ckStep (s1.partRead ckId (s1.ckCmd 0) (wordAt table (bits (wordAt e 4) 9 0) + BitVec.ofNat 64 (chunkLen * (wordAt e 5).toNat)) (bits (wordAt e 6) 22 0)) fun s2 bs =>
        if digestWords (sha256 bs) = e.take 4 then { s2 with ck := { s2.ck with todo := t, data := s2.ck.data ++ bs } } else s2.ckExclude
    | [] =>
      let recs := regs.flatMap s1.records
      let st := (s1.ck.cands.getD []).headD 0
      if s1.ck.data.length ≠ s1.shardLen regs then s1.ckExclude
      else if !recs.all s1.pageFree then s1
      else (regs.foldl (fun (x : State) g => x.activate st g) (s1.putPages st recs s1.ck.data)).ckEnd 0

/-- CK_CMD restore: the job starts with the selection (R417, R424). -/
def execCkCmdRestore (s : State) : Out := .next (if s.ck.stage ≠ 0 ∨ s.ckHost then s else s.ckTo 5 none)

/-! ## The stages (R417) -/

/-- CK_EXCHANGE_DONE: the exchange of the group's lists ends, and writing begins (R420); the other stages of a job, for which the opcode
table has no event, go on through this one too (notes/assumptions/33). -/
def execCkExchangeDone (s : State) : Out :=
  .next (match s.ck.final with
    | some st => if s.ck.stage = 0 then s else s.ckEnd st
    | none => match s.ck.stage with
      | 0 => s
      | 1 => s.ckHash
      | 2 => s.ckExchange
      | 3 => s.ckChunks
      | 4 => s.ckManifest
      | 5 => s.ckSelect
      | _ => s.ckRead)

/-- The spare that takes a failed package's place in hardware mode: of the live packages that hold no valid context, as the fabric tells, the one of
lowest fabric ID (R425, R429). -/
def State.spare (s : State) (idle : Nat → Bool) : Option Nat := (List.range 1024).find? fun f => !s.peerDown f && idle f

end Sys2Proof.Machine
end

