-- ==== Sys2Proof/Machine/Coherence.lean ====
section
/-! DEFINITION. Coherence across the four dies: Taproot's die-scope states, the on-die directories, probes, acknowledgements,
eviction notices, recalls, host snoops and waiter notices (spec/25_die_coherence.md R393-R407, spec/12_memory_hierarchy.md
R217, R218, R222). Data stand in one memory; these tables say which copies may be used. -/

namespace Sys2Proof.Machine

/-! ## On-die directory entries (R398-R400) -/

/-- The cores that the entry's sharers may be: the pointed ones, or every core of the marked groups that is enabled and that
the frame's tenant admits (R400, R403, R407). -/
def State.admits (s : State) (sector core : Nat) : Bool :=
  isHost (64 * sector) || (match (s.frameOf sector).tenant with
    | 0 | 1025 => true
    | t => match (s.core core).owner with
      | some ctx => bits (s.ctxWord (core / 512) ctx 0) 13 4 + 1 == t
      | none => false)

def State.sharers (s : State) (x : L2Ent) : List Nat :=
  if x.coarse then
    ((List.range 288).filter fun p => x.groups.contains (p / 8) && Config.coreEnabled x.die p && s.admits (4 * x.line) (512 * x.die + p)).map (512 * x.die + ·)
  else x.ptrs

/-! ## What a grant carries -/

/-- An exclusive grant carries the waiter bit (R406). -/
def State.carryMark (s : State) (core sector : Nat) : State :=
  if s.sectors.contains sector && !s.coreMarks.contains (core, sector) then { s with coreMarks := s.coreMarks ++ [(core, sector)] } else s

/-- Prefetches that a core's sector now serves are done. -/
def State.prefDone (s : State) (core sector v : Nat) : State :=
  { s with prefs := s.prefs.filter fun p => !(p.core == core && p.sector == sector && !p.l2 && (!p.excl || decide (2 ≤ v))) }

/-- The dirty sectors of a core's line are written back to the L2 (R400). -/
def State.writeBack (s : State) (core line : Nat) : State :=
  let ds := (List.range 4).filter fun i => s.l1State core (256 * line + 64 * i) == 3
  if ds.isEmpty then s else
  let x := s.l2Ent (core / 512) line
  s.setL2 { x with dirty := (x.dirty ++ ds).dedup }

/-! ## What outstanding accesses ask for -/

/-- A form stands released for its retry, which asks for exclusive ownership (R207). -/
def State.retries? (s : State) (o : Op) : Bool :=
  match (s.thr o.thr).status with
  | .form _ _ _ _ r => r
  | _ => false

/-- The operation needs its sector exclusively: writes, atomics and full/empty forms do, but a form that must wait only reads its
word until its retry (R149, R150, R207, R217); the record of a LAUNCH is only read. -/
def State.opExcl (s : State) (o : Op) (a : Access) (write : Bool) : Bool :=
  o.kind.source != some a && s.exclusive (s.paNow a) ((write || !(o.kind.plainLoad || o.kind.isUnit || o.kind.isGraft)) && ((s.mustWait o).isNone || s.retries? o))

/-- An operation needs the sector in its core's L1, or from the L2 past it, and needs it exclusively (R141, R142, R399, R400). -/
def State.opNeeds (s : State) (o : Op) (sector : Nat) : Option (Bool × Nat) :=
  firstSome o.kind.accesses fun x =>
    let c := coreOf o.thr
    if s.paNow x.1 / 64 == sector && (s.usesL1 c x.1 || (s.needsL2 c x.1 && !s.l2Ready c (s.paNow x.1) (s.opExcl o x.1 x.2)))
    then some (s.opExcl o x.1 x.2, x.1.ctx) else none

/-- An operation needs the sector in its die, and needs it exclusively (R141). -/
def State.opNeedsDie (s : State) (o : Op) (sector : Nat) : Option (Bool × Nat) :=
  firstSome o.kind.accesses fun x =>
    let c := coreOf o.thr
    if s.paNow x.1 / 64 == sector && (s.usesL1 c x.1 || s.needsL2 c x.1) then some (s.opExcl o x.1 x.2, x.1.ctx) else none

/-- Something asks for the sector in the core's L1: where only accesses that skip the L1 want it, a grant goes to the L2 alone
(R141). -/
def State.intoL1 (s : State) (core sector : Nat) : Bool :=
  (s.ops.any fun e => coreOf e.2.thr == core && e.2.kind.accesses.any fun x => s.paNow x.1 / 64 == sector && s.usesL1 core x.1) ||
  s.prefs.any fun p => p.core == core && p.sector == sector && !p.l2

/-- A grant of the sector leaves its line in the die's L2: it is there, or something other than a .byp access wants it (R141, R142). -/
def State.intoL2 (s : State) (core sector : Nat) : Bool :=
  s.inL2 (core / 512) (sector / 4) || (s.ops.any fun e => coreOf e.2.thr == core && e.2.kind.accesses.any fun x =>
    s.paNow x.1 / 64 == sector && s.needsL2 core x.1 && x.1.hint != 3) || s.prefs.any fun p => p.core / 512 == core / 512 && p.sector == sector

/-- Some access or prefetch of the core wants the sector, exclusively if asked so; the context it belongs to. -/
def State.wanted (s : State) (core sector : Nat) (excl : Bool) : Option Nat :=
  match firstSome s.ops fun e => if coreOf e.2.thr = core then (match s.opNeeds e.2 sector with
      | some (x, c) => if x || !excl then some c else none
      | none => none) else none with
  | some c => some c
  | none => if s.prefs.any (fun p => p.core == core && p.sector == sector && !p.l2 && (p.excl || !excl)) then (s.core core).owner else none

/-- Some core of the die wants it. -/
def State.dieWants (s : State) (d sector : Nat) (excl : Bool) : Bool :=
  (s.ops.any fun e => dieOf e.2.thr == d && (match s.opNeedsDie e.2 sector with
    | some (x, _) => x || !excl
    | none => false)) || s.prefs.any fun p => p.core / 512 == d && p.sector == sector && (p.excl || !excl)

/-! ## Transactions and probes -/

/-- A transaction starts with a probe to each target (R396, R400). -/
def State.startTxn (s : State) (t : Txn) (inval : Bool) (targets : List (Nat × Option Nat)) (sectors : List Nat) : State :=
  let id := s.nextSeq
  let ps := targets.flatMap fun x => sectors.map fun sec => ({ txn := id, die := x.1, core := x.2, sector := sec, inval := inval } : Probe)
  let s1 := { s with txns := s.txns.put id { t with wait := ps.length }, nextSeq := s.nextSeq + 1 }
  ps.foldl (fun (x : State) p => { x with probes := x.probes.put x.nextSeq p, nextSeq := x.nextSeq + 1 }) s1

/-- The grant of a read to a core, or to an access that skips its L1 (R399). -/
def State.grantRead (s : State) (core sector : Nat) : State :=
  let d := core / 512
  if !s.dieHas d sector false then s else
  let x := s.l2Ent d (sector / 4)
  if !s.intoL1 core sector then
    (if s.intoL2 core sector then (s.fresh d sector).setL2 { x with owners := x.owners.filter fun o => o.1 != sector % 4 } else s.fresh d sector) else
  let r := s.joinL1 core sector
  let s1 := r.1.prefDone core sector (if r.2 then 2 else 1)
  if r.2 then s1.carryMark core sector else s1

/-- The grant of a write to a core: the entry is in pointer mode with the core as sharer and owner, or with none where the L1 is skipped
(R400). -/
def State.grantWrite (s : State) (core sector : Nat) : State :=
  let d := core / 512
  if !s.dieHas d sector true then s else
  let x := s.l2Ent d (sector / 4)
  if !s.intoL1 core sector then
    (if s.intoL2 core sector then (s.fresh d sector).setL2 { x with coarse := false, ptrs := [], groups := [], owners := [] } else s.fresh d sector) else
  let own := (x.owners.filter fun o => o.1 != sector % 4 && o.2 == core) ++ [(sector % 4, core)]
  (((s.fresh d sector).setL2 { x with coarse := false, ptrs := [core], groups := [], owners := own }).l1Put core sector 3).prefDone core sector 3 |>.carryMark core sector

/-- The answer of a die to a probe, once its cores have answered: from then on it holds the sector as the probe leaves it, and its
cores are granted no more than that (R395, R396). A die that loses its copy may have read from it what the write to come replaces,
until it applies that write (R236, R237). -/
def State.dieAnswer (s : State) (id : Nat) (p : Probe) : State :=
  let m := s.dieDirty p.die p.sector || p.dirty
  let was := s.dieState p.sector p.die
  let x := s.l2Ent p.die (p.sector / 4)
  let s1 := if p.inval then
      s.setL2 { x with dirty := x.dirty.filter (· != p.sector % 4), owners := x.owners.filter fun o => o.1 != p.sector % 4 }
    else s
  { s1.setDie p.sector p.die (if p.inval then 0 else if was = 2 then (if m then 3 else 1) else was) with
            probes := s1.probes.put id { p with answered := true, dirty := m }
            late := if p.inval && !s1.late.contains (p.die, p.sector) then s1.late ++ [(p.die, p.sector)] else s1.late }

/-- A prefetch into the L2 is done once the die holds the sector as it asks, and the line is in its L2: an access of the core's context
(R145, R402). -/
def State.l2PrefDone (s : State) (d sector : Nat) : State :=
  let mine := fun (p : Prefetch) => p.core / 512 == d && p.sector == sector && p.l2 && s.dieHas d sector p.excl
  if s.prefs.any mine then
    let s1 := (s.prefs.filter mine).foldl (fun x p => ((s.core p.core).owner).elim x fun ctx => x.classTouch d ctx (64 * sector)) s
    { s1.l2Alloc d (64 * sector) with prefs := s.prefs.filter fun p => !mine p }
  else s

/-- Data that an M or O holder gave up came with the grant: the die holds the sector dirty, and memory is not current (R395,
R396). -/
def State.dirtyAt (s : State) (d sector : Nat) : State :=
  let x := s.l2Ent d (sector / 4)
  s.setL2 { x with dirty := (x.dirty ++ [sector % 4]).dedup }

/-- What a transaction does when its last acknowledgement is in (R396, R397, R399, R400). -/
def State.finishTxn (s : State) (t : Txn) : State :=
  match t.kind, t.die, t.core with
  | .read, some _, some c => s.grantRead c t.sector
  | .write, some _, some c => s.grantWrite c t.sector
  | .answer p, some d, _ =>
    (match s.probes.find p with
      | some x =>
        let y := s.l2Ent d (t.sector / 4)
        (if x.inval then s.setL2 { y with coarse := false, ptrs := [], groups := [], owners := [] } else s).dieAnswer p x
      | none => s)
  | .read, none, _ =>
    let hold := fun e => s.dieState t.sector e
    let s1 := s.setDies t.sector fun e => if t.reqDie = some e then 1 else if hold e = 2 then (if t.dirty then 3 else 1) else hold e
    t.reqDie.elim s1 fun d => s1.l2PrefDone d t.sector
  | .write, none, _ =>
    let s1 := s.setDies t.sector fun e => if t.reqDie = some e then 2 else 0
    t.reqDie.elim s1 fun d => (if t.dirty then s1.dirtyAt d t.sector else s1).l2PrefDone d t.sector
  | .recall, none, _ => (List.range 4).foldl (fun (x : State) i => x.setDies (t.sector / 4 * 4 + i) fun _ => 0) s
  | _, _, _ => s

/-- An acknowledgement is counted (R400, R401). -/
def State.countAck (s : State) (id : Nat) (p : Probe) : State :=
  let s1 := { s with probes := s.probes.del id }
  match s1.txns.find p.txn with
  | none => s1
  | some t =>
    let t1 := { t with wait := t.wait - 1, dirty := t.dirty || p.dirty }
    if t1.wait = 0 then { s1 with txns := s1.txns.del p.txn }.finishTxn t1 else { s1 with txns := s1.txns.put p.txn t1 }

/-! ## Requests of cores at their L2 (R399, R400) -/

/-- L1_READ_MISS (R399): with an owner the grant waits for its downgrade; a die that lacks the sector asks Taproot first. -/
def execL1ReadMiss (core sector : Nat) (s : State) : Out :=
  let d := core / 512
  match s.wanted core sector false with
  | none => .next s
  | some ctx =>
    if s.l1State core (64 * sector) ≠ 0 ∨ s.l2Busy d (sector / 4) ∨ s.notices.any (fun n => n.core == core && n.line == sector / 4) ∨ !s.dieHas d sector false then .next s
    else
      let s1 := s.classTouch d ctx (64 * sector)
      match (s1.l2Ent d (sector / 4)).owners.find? (fun o => o.1 == sector % 4 && o.2 != core) with
      | some o => .next (s1.startTxn { die := some d, sector := sector, kind := .read, reqDie := some d, core := some core, wait := 0 } false [(d, some o.2)] [sector])
      | none => .next (s1.grantRead core sector)

/-- L1_WRITE_UPGRADE (R400): one invalidate probe to every other sharer, and the grant after the last acknowledgement. -/
def execL1WriteUpgrade (core sector : Nat) (s : State) : Out :=
  let d := core / 512
  match s.wanted core sector true with
  | none => .next s
  | some ctx =>
    if 2 ≤ s.l1State core (64 * sector) ∨ s.l2Busy d (sector / 4) ∨ s.notices.any (fun n => n.core == core && n.line == sector / 4) ∨ !s.dieHas d sector true then .next s
    else
      let s1 := s.classTouch d ctx (64 * sector)
      let ts := (s1.sharers (s1.l2Ent d (sector / 4))).filter (· != core)
      if ts.isEmpty then .next (s1.grantWrite core sector)
      else .next (s1.startTxn { die := some d, sector := sector, kind := .write, reqDie := some d, core := some core, wait := 0 } true (ts.map fun c => (d, some c)) [sector])

/-- EVICTION_NOTICE (R401): the directory entry forgets the core, and a probe for the line that the notice crossed counts as
answered. -/
def execEvictionNotice (core line : Nat) (s : State) : Out :=
  match s.notices.find? (fun n => n.core == core && n.line == line) with
  | none => .next s
  | some n =>
    let d := core / 512
    let x := s.l2Ent d line
    let s1 := { s with notices := s.notices.erase n }
    let s2 := if s1.l2.any (fun (l : L2Ent) => l.die == d && l.line == line) then
        s1.setL2 { x with ptrs := x.ptrs.filter (· != core), owners := x.owners.filter (fun o => o.2 != core), dirty := (x.dirty ++ n.dirty).dedup }
      else s1
    match s2.probes.find? (fun e => e.2.core == some core && e.2.sector / 4 == line && !e.2.answered) with
    | some e => .next (s2.countAck e.1 e.2)
    | none => .next s2

/-! ## Probes (R396, R400, R401) -/

/-- A probe reaches a core: its own notice on the way stands for the answer, else the copy is given up or downgraded. -/
def State.coreProbe (s : State) (id : Nat) (p : Probe) (c : Nat) : State :=
  let line := p.sector / 4
  if s.notices.any fun n => n.core == c && n.line == line then { s with probes := s.probes.put id { p with dropped := true } }
  else
    let s1 := s.writeBack c line
    let s2 := if p.inval then
        { s1 with l1 := s1.l1.filter (fun (l : L1Line) => !(l.core == c && l.line == line)), coreMarks := s1.coreMarks.filter fun m => !(m.1 == c && m.2 / 4 == line) }
      else
        { s1 with l1 := s1.l1.map (fun (l : L1Line) => if l.core = c ∧ l.line = line then
                    { l with states := l.states.set (p.sector % 4) (min 1 (l.states.getD (p.sector % 4) 0)) } else l)
                  coreMarks := s1.coreMarks.filter (· != (c, p.sector)) }
    let x := s2.l2Ent p.die line
    let s3 := if p.inval then s2 else s2.setL2 { x with owners := x.owners.filter fun o => o.1 != p.sector % 4 }
    { s3 with probes := s3.probes.put id { p with answered := true } }

/-- A probe reaches a die: its cores concerned are probed first (R396). -/
def State.dieProbe (s : State) (id : Nat) (p : Probe) : State :=
  let line := p.sector / 4
  if s.l2Busy p.die line then s else
  let x := s.l2Ent p.die line
  let ts := if p.inval then s.sharers x else (x.owners.filter fun o => o.1 == p.sector % 4).map (·.2)
  if ts.isEmpty then s.dieAnswer id p
  else s.startTxn { die := some p.die, sector := p.sector, kind := .answer id, wait := 0 } p.inval (ts.map fun c => (p.die, some c)) [p.sector]

/-- A probe of a kind reaches its target, once. -/
def State.probeArrives (s : State) (id : Nat) (inval : Bool) : State :=
  match s.probes.find id with
  | none => s
  | some p =>
    if p.inval ≠ inval ∨ p.answered ∨ p.dropped ∨ s.txns.any (fun e => e.2.kind == .answer id) then s else
    match p.core with
    | some c => s.coreProbe id p c
    | none => s.dieProbe id p

/-- DOWNGRADE_PROBE (R396, R399). -/
def execDowngradeProbe (probe : Nat) (s : State) : Out := .next (s.probeArrives probe false)

/-- INVALIDATE_PROBE (R396, R400). -/
def execInvalidateProbe (probe : Nat) (s : State) : Out := .next (s.probeArrives probe true)

/-- PROBE_ACK (R396, R400, R401). -/
def execProbeAck (probe : Nat) (s : State) : Out :=
  match s.probes.find probe with
  | some p => .next (if p.answered then s.countAck probe p else s)
  | none => .next s

/-! ## Requests of dies at Taproot (R394-R397) -/

/-- The dies that hold a sector. -/
def State.holders (s : State) (sector : Nat) : List Nat := [0, 1, 2, 3].filter fun d => s.dieState sector d != 0

/-- A request of a die is still open: it wants the sector and does not hold it so. -/
def State.stillAsks (s : State) (r : Nat × Nat × Bool) : Bool :=
  s.dieWants r.1 r.2.1 r.2.2 && (if r.2.2 then s.dieState r.2.1 r.1 != 2 else s.dieState r.2.1 r.1 == 0)

/-- A line's recall (R397). -/
def State.recall (s : State) (line : Nat) : State :=
  let ts := (List.range 4).flatMap fun i => (s.holders (4 * line + i)).map fun d => (d, 4 * line + i)
  let id := s.nextSeq
  let s1 := { s with txns := s.txns.put id { die := none, sector := 4 * line, kind := .recall, wait := ts.length }, nextSeq := s.nextSeq + 1 }
  ts.foldl (fun (x : State) p => { x with probes := x.probes.put x.nextSeq { txn := id, die := p.1, core := none, sector := p.2, inval := true }, nextSeq := x.nextSeq + 1 }) s1

/-- What the host stored to a sector that no die holds comes with it (R245, R407). -/
def State.hostFill (s : State) (sector : Nat) : State := if s.fromHost (64 * sector) then s.outsideStore (64 * sector) 64 else s

/-- A request at the home: while the home is busy with the sector it is held, in order of arrival (R394); served, it first makes
room for its line (R397). -/
def State.atHome (s : State) (die sector : Nat) (write : Bool) (go : State → State) : State :=
  let me := (die, sector, write)
  if !s.tracked sector || decide (4 ≤ die) then s else
  if s.homeBusy sector then (if s.homeQ.contains me then s else { s with homeQ := s.homeQ.filter s.stillAsks ++ [me] }) else
  if (s.homeQ.find? fun r => r.2.1 == sector && s.stillAsks r).any (· != me) then s else
  match s.recallVictim sector with
  | some l => if (List.range 4).any fun i => s.homeBusy (4 * l + i) then s else s.recall l
  | none => go (({ s with homeQ := s.homeQ.filter (· != me) }.hostFill sector).tapTouch (sector / 4))

/-- TAPROOT_RD (R396); a prefetch that its die already serves is done (R145). -/
def execTaprootRd (die sector : Nat) (s0 : State) : Out :=
  let s := s0.l2PrefDone die sector
  if s.dieState sector die ≠ 0 ∨ !s.dieWants die sector false then .next s else
  .next (s.atHome die sector false fun s =>
    let t : Txn := { die := none, sector := sector, kind := .read, reqDie := some die, wait := 0 }
    match (s.holders sector).find? (fun e => s.dieState sector e == 2) with
    | some e => s.startTxn t false [(e, none)] [sector]
    | none => (s.setDie sector die (if (s.holders sector).isEmpty then 2 else 1)).l2PrefDone die sector)

/-- Exclusive ownership for a die: every other holder is invalidated first (R396). -/
def State.takeExclusive (s : State) (die sector : Nat) : State :=
  let ts := (s.holders sector).filter (· != die)
  if ts.isEmpty then (s.setDie sector die 2).l2PrefDone die sector
  else s.startTxn { die := none, sector := sector, kind := .write, reqDie := some die, wait := 0 } true (ts.map fun e => (e, none)) [sector]

/-- TAPROOT_RDX: a write request without a copy (R396). -/
def execTaprootRdx (die sector : Nat) (s : State) : Out :=
  if s.dieState sector die ≠ 0 ∨ !s.dieWants die sector true then .next s else .next (s.atHome die sector true fun s => s.takeExclusive die sector)

/-- TAPROOT_UP: an upgrade from S or O (R396). -/
def execTaprootUp (die sector : Nat) (s : State) : Out :=
  if !(s.dieState sector die == 1 || s.dieState sector die == 3) || !s.dieWants die sector true then .next s
  else .next (s.atHome die sector true fun s => s.takeExclusive die sector)

/-- TAPROOT_EV: a die evicts a sector of a line that its L1s no longer hold, clean or dirty, once no core's notice of the line is on
its way; a probe that the eviction crosses
is answered by it (R218, R396, R401). -/
def execTaprootEv (die sector : Nat) (dirty : Bool) (s : State) : Out :=
  let m := s.dieDirty die sector || s.dieState sector die == 3
  if 4 ≤ die ∨ s.dieState sector die = 0 ∨ m ≠ dirty ∨ s.l2Busy die (sector / 4) ∨
    s.notices.any (fun n => n.core / 512 == die && n.line == sector / 4) then .next s else
  let gone := (s.l1.filter fun (l : L1Line) => l.core / 512 == die && l.line == sector / 4).map fun (l : L1Line) => l.core
  let s1 := gone.foldl (fun (x : State) c => x.writeBack c (sector / 4)) s
  let x := s1.l2Ent die (sector / 4)
  let s2 := { s1 with l1 := s1.l1.filter (fun (l : L1Line) => !(l.core / 512 == die && l.line == sector / 4))
                      coreMarks := s1.coreMarks.filter fun k => !(k.1 / 512 == die && k.2 / 4 == sector / 4) }
  let y := { x with coarse := false, ptrs := [], groups := [], owners := [], dirty := x.dirty.filter (· != sector % 4) }
  let s3 := if s2.l2.any (fun (l : L2Ent) => l.die == die && l.line == sector / 4) then s2.setL2 y else s2
  let s4 := s3.setDie sector die 0
  match s4.probes.find? (fun e => e.2.die == die && e.2.core.isNone && e.2.sector == sector && !e.2.answered) with
  | some e => .next (s4.countAck e.1 { e.2 with dirty := dirty })
  | none => .next s4

/-! ## The host and the waiter bit (R406, R407) -/

/-- A snoop comes after what the home works on for the sector, and after the requests of dies held there (R394). -/
def State.snoopHeld (s : State) (sector : Nat) : Bool := s.homeBusy sector || s.homeQ.any fun r => r.2.1 == sector && s.stillAsks r

/-- HOST_SNOOP: a snoop of a host line becomes a probe with the host as the requester (R407); one that would find the home busy with
the sector, or requests of dies held there, comes after them (R394). -/
def execHostSnoop (addr : Nat) (inval : Bool) (s : State) : Out :=
  let sector := (2 ^ 51 + addr % 2 ^ 51) / 64
  if s.snoopHeld sector then .next s else
  let ts := if inval then s.holders sector else (s.holders sector).filter fun e => s.dieState sector e == 2
  if ts.isEmpty then .next s
  else .next (s.startTxn { die := none, sector := sector, kind := if inval then .write else .read, wait := 0 } inval (ts.map fun e => (e, none)) [sector])

/-- WAITER_NOTICE: the core that holds the sector exclusively marks its copy and answers with the word's bit; a core that has lost
the sector leaves the answer to the home (R406). -/
def execWaiterNotice (core word : Nat) (s : State) : Out :=
  match s.wnotes.find? fun n => n.1 == core && n.2.1 == word with
  | none => .next s
  | some n =>
    if s.recordHeld n.2.2 then .next s else
    let s1 := { s with wnotes := s.wnotes.erase n }
    .next ((if 2 ≤ s1.l1State core word then s1.carryMark core (word / 64) else s1).lateArrival word n.2.2)

end Sys2Proof.Machine
end

