-- ==== Sys2Proof/Machine/Frame.lean ====
section
/-! DEFINITION. FRAMEOUT and the encode streams (spec/19_traversal_and_render.md R327-R329, R344-R347). -/

namespace Sys2Proof.Machine

/-- A tile: column, row, pixel bytes. -/
abbrev Tile := Nat × Nat × List Byte

def State.stream (s : State) (st : Nat) : Stream := (s.streams.find st).getD {}
def State.setStream (s : State) (st : Nat) (x : Stream) : State := { s with streams := s.streams.put st x }

/-- Width and height of a stream in pixels (R345). -/
def State.foWidth (s : State) (st : Nat) : Nat := bits (s.reg (Off.fo st 8)) 12 0
def State.foHeight (s : State) (st : Nat) : Nat := bits (s.reg (Off.fo st 8)) 28 16
def State.foOn (s : State) (st : Nat) : Bool := bit (s.reg (Off.fo st 0)) 0

/-- Tiles of a frame by column and by row. -/
def State.foCols (s : State) (st : Nat) : Nat := (s.foWidth st + 63) / 64
def State.foRows (s : State) (st : Nat) : Nat := (s.foHeight st + 63) / 64

/-- The registers of a stream lie inside their stated limits (R345). -/
def State.foConfigOk (s : State) (st : Nat) (ctl : Word) : Bool :=
  let r := fun o => s.reg (Off.fo st o)
  let w := s.foWidth st
  let h := s.foHeight st
  w % 8 == 0 && h % 8 == 0 && decide (64 ≤ w) && decide (w ≤ 7680) && decide (64 ≤ h) && decide (h ≤ 4320) &&
  bits (r 0x18) 63 57 == 0 && bits ctl 63 3 == 0 &&
  bits (r 0x10) 31 0 != 0 && bits (r 0x10) 39 32 != 0 && decide (bits (r 0x10) 39 32 ≤ 60) &&
  (r 0x18).toNat % 4096 == 0 && (r 0x20).toNat % 4096 == 0 && decide (2 ^ 20 ≤ (r 0x20).toNat)

/-- FO_CTL_WRITE (R345, R347): enable opens frame 0 after its check; clearing it discards the held tiles. -/
def execFoCtlWrite (stream : Nat) (val : Word) (s : State) : Out :=
  if 8 ≤ stream then .next s else
  let was := s.foOn stream
  if bit val 0 then
    if was then .next (s.setReg (Off.fo stream 0) (pack [(bits val 1 1, 1), (1, 0)]))
    else if s.foConfigOk stream val then
      .next (((s.setReg (Off.fo stream 0) (pack [(bits val 1 1, 1), (1, 0)])).setReg (Off.fo stream 0x28) 0 |>.setReg (Off.fo stream 0x38) 0).setStream stream {})
    else .next (s.setReg (Off.fo stream 0) (pack [(1, 2), (bits val 1 1, 1)]))
  else .next { s.setReg (Off.fo stream 0) (pack [(bits val 1 1, 1)]) with streams := s.streams.del stream }

/-- Every tile of the frame is held. -/
def State.foFull (s : State) (st : Nat) (ts : List Tile) : Bool := decide (s.foCols st * s.foRows st ≤ ts.length)

/-- A tile reaches its stream: 0, BADTILE or FRAMEBUSY (R347). ENCODE names no tile among its events, so there it changes nothing
and no code is given (R5; notes/assumptions/52). -/
def State.tileIn (s : State) (st : Nat) (x : Stream) (frame : Nat) (t : Tile) (closes : Bool) : Nat × State :=
  let ahead := (frame + 65536 - x.frame % 65536) % 65536
  let outside := decide (s.foCols st ≤ t.1) || decide (s.foRows st ≤ t.2.1)
  let held := fun (ts : List Tile) => ts.any fun e => e.1 == t.1 && e.2.1 == t.2.1
  if x.encode then (0, s)
  else if ahead = 0 then
    if outside ∨ held x.tiles then (0x0E, s)
    else
      let ts := x.tiles ++ [t]
      (0, s.setStream st { x with tiles := ts, encode := closes || s.foFull st ts })
  else if ahead = 1 then
    if outside ∨ held x.next then (0x0E, s)
    else (0, s.setStream st { x with next := x.next ++ [t], nextEnd := x.nextEnd || closes })
  else if ahead < 32768 then (0x0F, s) else (0x0E, s)

/-- A tile word with a nonzero reserved field (R346). -/
def tileReserved (w : Word) : Bool := bits w 63 48 != 0 || bits w 31 24 != 0 || bit w 15 || bits w 7 3 != 0

/-- FRAMEOUT's end: the tile is read and sent, and the status lands (R346, R347). -/
def State.frameoutRun (s : State) (seq : Nat) (o : Op) (blk off : Nat) (tile : Word) (vd : Nat) : State :=
  let st := bits tile 2 0
  let fin := fun (s : State) (c : Nat) => s.finishOp seq o (traverseOut o.pc vd 0 1 (if c = 0 then .ok [0] else .error (c, 0)))
  if tileReserved tile then fin s 0x0E else
  match s.blocks.find blk with
  | none => fin s 0x0C
  | some b =>
    if b.scratchBytes < off + 16384 then fin s 0x0C
    else if !s.foOn st then fin s 0x0D
    else if s.badSpad.any fun e => e.1 == blk && decide (off / 8 ≤ e.2) && decide (e.2 ≤ (off + 16383) / 8) then fin s 0x0B
    else
      let r := s.tileIn st (s.stream st) (bits tile 47 32) (bits tile 14 8, bits tile 22 16, Mem.readN b.scratch off 16384) (bit tile 23)
      fin r.2 r.1

/-- FRAMEOUT issues; it closes the block's idempotent region (R327, R329). -/
def execFrameout (c : Ctl) (vd va vb : Reg) (s : State) : Out :=
  .next (s.runGang (issue64 c) [vd.toNat, va.toNat, vb.toNat] [va.toNat, vb.toNat] true fun s l recv =>
    let t := s.thr l
    .ok ((recv.foldl (fun (x : State) k => x.closeIdem k) s).startOp (issue64 c) (issue64 c).flag.isNone {} l recv (0, none)
      (.frameout t.blk (bits (t.reg va.toNat) 22 0) (t.reg vb.toNat) vd.toNat)))

/-- Red, green and blue of the frame at a pixel: of the tile that covers it, of the frame before where that tile is missing, else black
(R346, R347). -/
def Stream.rgb (x : Stream) (px py : Nat) : Nat × Nat × Nat :=
  let at_ := fun (ts : List Tile) => ts.find? fun t => t.1 == px / 64 && t.2.1 == py / 64
  match (at_ x.tiles).orElse fun _ => at_ x.prev with
  | none => (0, 0, 0)
  | some t =>
    let b := fun i => (t.2.2.getD (4 * (64 * (py % 64) + px % 64) + i) 0).toNat
    (b 0, b 1, b 2)

/-- BT.709 luma of a pixel, times 10,000. -/
def luma709 (p : Nat × Nat × Nat) : Int := 2126 * p.1 + 7152 * p.2.1 + 722 * p.2.2

/-- The quotient rounded to the nearest integer, a tie upwards (notes/assumptions/63). -/
def nearest (a b : Int) : Int := (2 * a + b) / (2 * b)

/-- The luma byte of a pixel, in limited range (R344). -/
def lumaByte (p : Nat × Nat × Nat) : Byte := BitVec.ofInt 8 (16 + nearest (219 * luma709 p) (255 * 10000))

/-- A chroma byte: the rounded mean of the four pixels of a block, Cb of their blue or Cr of their red, in limited range (R344). -/
def chromaByte (red : Bool) (ps : List (Nat × Nat × Nat)) : Byte :=
  let d := ps.map fun p => 10000 * ((if red then p.1 else p.2.2 : Nat) : Int) - luma709 p
  BitVec.ofInt 8 (128 + nearest (224 * d.foldl (· + ·) 0) (4 * 255 * (if red then 15748 else 18556)))

/-- The planes of the closed frame, 4:2:0: luma row by row, then Cb, then Cr. Only pixels inside the frame count, and alpha not at all
(R344, R346). -/
def State.planes (s : State) (st : Nat) (x : Stream) : List Byte :=
  let w := s.foWidth st
  let h := s.foHeight st
  let block := fun i => [(0, 0), (1, 0), (0, 1), (1, 1)].map fun d => x.rgb (2 * (i % (w / 2)) + d.1) (2 * (i / (w / 2)) + d.2)
  (List.range (w * h)).map (fun i => lumaByte (x.rgb (i % w) (i / w))) ++
  [false, true].flatMap fun red => (List.range (w / 2 * (h / 2))).map fun i => chromaByte red (block i)

/-- The registers that the encoding depends on. -/
def State.foRegs (s : State) (st : Nat) : List Word := [8, 0x10].map fun o => s.reg (Off.fo st o)

/-- The open frame is a key frame: the first, and one at each key-frame interval (R344, R345). -/
def State.foKey (s : State) (st : Nat) (x : Stream) : Bool :=
  let n := bits (s.reg (Off.fo st 0x10)) 47 40
  x.frame == 0 || (n != 0 && x.frame % n == 0)

/-- A length in the format's own coding, seven bits in a byte. -/
def leb128 : Nat → Nat → List Byte
  | 0, _ => []
  | k + 1, n => if n < 128 then [BitVec.ofNat 8 n] else BitVec.ofNat 8 (n % 128 + 128) :: leb128 k (n / 128)

/-- One unit of the bitstream: its type, its length and its payload (notes/assumptions/63). -/
def streamUnit (ty : Nat) (bs : List Byte) : List Byte := BitVec.ofNat 8 (8 * ty + 2) :: (leb128 8 bs.length ++ bs)

/-- The encoded bytes of the closed frame: one temporal unit, with a sequence header before a key frame. They depend on the stream's
registers, its tiles and those of the frames before alone (R344; the payloads, notes/assumptions/8). -/
def State.encoded (s : State) (st : Nat) (x : Stream) : List Byte :=
  let key := s.foKey st x
  streamUnit 2 [] ++ (if key then streamUnit 1 (Config.av1Seq (s.foRegs st)) else []) ++ streamUnit 6 (Config.av1 x.enc (s.foRegs st) key (s.planes st x))

/-- The place of ring byte n (R345). -/
def State.foByte (s : State) (st n : Nat) : Nat :=
  let a := bits (s.reg (Off.fo st 0x18)) 56 0 + n % max 1 (s.reg (Off.fo st 0x20)).toNat
  if bit (s.reg (Off.fo st 0)) 1 then 2 ^ 51 + a % 2 ^ 51 else a

/-- The tiles a frame leaves for the repeat of the next one. -/
def Stream.shown (x : Stream) : List Tile := x.tiles ++ x.prev.filter fun t => !x.tiles.any fun e => e.1 == t.1 && e.2.1 == t.2.1

/-- Encoded bytes into the ring from byte n on, each a release at .sys of those before it (R345). -/
def State.foPut (s : State) (st n : Nat) (past : List Nat) : List Byte → State
  | [] => s
  | b :: t => (s.agentPut (agentRelease past .sys) 0 (s.foByte st n) [b] none).foPut st (n + 1) (past ++ [s.nextSeq]) t

/-- FRAME_ENCODED: bytes go into the ring while it has room; with the last of them the frame is done and the next one opens
with its buffered tiles (R344, R345, R347); the encoder waits for a line that a lease or a migration holds (R266, R414). -/
def execFrameEncoded (stream : Nat) (s : State) : Out :=
  let x := s.stream stream
  if s.foOn stream && x.encode then
    let bs := x.left.getD (s.encoded stream x)
    let wr := s.reg (Off.fo stream 0x28)
    let room := (s.reg (Off.fo stream 0x20)).toNat - (wr - s.reg (Off.fo stream 0x30)).toNat
    let now := bs.take room
    if (List.range now.length).any fun i => !s.agentFree .engine (s.foByte stream (wr.toNat + i)) then .next s else
    let s1 := (s.foPut stream wr.toNat [] now).setReg (Off.fo stream 0x28) (wr + BitVec.ofNat 64 now.length)
    if room < bs.length then .next (s1.setStream stream { x with left := some (bs.drop room) })
    else .next ((s1.setReg (Off.fo stream 0x38) (BitVec.ofNat 64 ((s.reg (Off.fo stream 0x38)).toNat + 1) &&& low 32)).setStream stream
      { frame := x.frame + 1, tiles := x.next, encode := x.nextEnd || (!x.next.isEmpty && s.foFull stream x.next), prev := x.shown
        enc := Config.av1Next x.enc (s.foRegs stream) (s.foKey stream x) (s.planes stream x) })
  else .next s

end Sys2Proof.Machine
end

