-- ==== Sys2Proof/Machine/Integer.lean ====
section
/-! DEFINITION. The meanings of the integer, predicate, move and constant instructions in their C16, I32 and I64 forms
(spec/05_isa_integer_control.md R83-R102). -/

namespace Sys2Proof.Machine

/-- C16 MOV (R95, R102). -/
def execC16Mov (st : Bool) (vd vb : BitVec 5) (s : State) : Out :=
  .next (s.rr (issue16 st) 2 vd.toNat vb.toNat id)

/-- C16 MOVI (R95). -/
def execC16Movi (st : Bool) (vd : BitVec 5) (imm : BitVec 5) (s : State) : Out :=
  .next (s.fixedOp (issue16 st) 2 [vd.toNat] [] fun _ => [.reg vd.toNat (imm.signExtend 64) none])

/-- C16 ADD (R87, R102). -/
def execC16Add (st : Bool) (vd vb : BitVec 5) (s : State) : Out :=
  .next (s.rrr (issue16 st) 2 vd.toNat vd.toNat vb.toNat (IOp.result .add 64 false))

/-- C16 SUB (R87, R102). -/
def execC16Sub (st : Bool) (vd vb : BitVec 5) (s : State) : Out :=
  .next (s.rrr (issue16 st) 2 vd.toNat vd.toNat vb.toNat (IOp.result .sub 64 false))

/-- C16 AND (R87, R102). -/
def execC16And (st : Bool) (vd vb : BitVec 5) (s : State) : Out :=
  .next (s.rrr (issue16 st) 2 vd.toNat vd.toNat vb.toNat (IOp.result .and 64 false))

/-- C16 OR (R87, R102). -/
def execC16Or (st : Bool) (vd vb : BitVec 5) (s : State) : Out :=
  .next (s.rrr (issue16 st) 2 vd.toNat vd.toNat vb.toNat (IOp.result .or 64 false))

/-- C16 XOR (R87, R102). -/
def execC16Xor (st : Bool) (vd vb : BitVec 5) (s : State) : Out :=
  .next (s.rrr (issue16 st) 2 vd.toNat vd.toNat vb.toNat (IOp.result .xor 64 false))

/-- C16 ADDI (R65, R87). -/
def execC16Addi (st : Bool) (vd : BitVec 5) (imm : BitVec 5) (s : State) : Out :=
  .next (s.rr (issue16 st) 2 vd.toNat vd.toNat fun a => IOp.result .add 64 false a (imm.signExtend 64))

/-- C16 SHLI (R88). -/
def execC16Shli (st : Bool) (vd : BitVec 5) (imm : BitVec 5) (s : State) : Out :=
  .next (s.rr (issue16 st) 2 vd.toNat vd.toNat fun a => IOp.result .shl 64 false a (imm.setWidth 64))

/-- C16 SHRI (R88). -/
def execC16Shri (st : Bool) (vd : BitVec 5) (imm : BitVec 5) (s : State) : Out :=
  .next (s.rr (issue16 st) 2 vd.toNat vd.toNat fun a => IOp.result .shr 64 false a (imm.setWidth 64))

/-- C16 SARI (R88). -/
def execC16Sari (st : Bool) (vd : BitVec 5) (imm : BitVec 5) (s : State) : Out :=
  .next (s.rr (issue16 st) 2 vd.toNat vd.toNat fun a => IOp.result .sar 64 false a (imm.setWidth 64))

/-- I32 ADD (R87). -/
def execI32Add (k : Ctl32) (vd va vb : Reg) (s : State) : Out :=
  .next (s.rrr (issue32 k) 2 vd.toNat va.toNat vb.toNat (IOp.result .add 64 false))

/-- I32 SUB (R87). -/
def execI32Sub (k : Ctl32) (vd va vb : Reg) (s : State) : Out :=
  .next (s.rrr (issue32 k) 2 vd.toNat va.toNat vb.toNat (IOp.result .sub 64 false))

/-- I32 MUL (R87). -/
def execI32Mul (k : Ctl32) (vd va vb : Reg) (s : State) : Out :=
  .next (s.rrr (issue32 k) 2 vd.toNat va.toNat vb.toNat (IOp.result .mul 64 false))

/-- I32 MULHS (R87). -/
def execI32MulhS64 (k : Ctl32) (vd va vb : Reg) (s : State) : Out :=
  .next (s.rrr (issue32 k) 2 vd.toNat va.toNat vb.toNat (IOp.result .mulhS 64 false))

/-- I32 MULHN (R87). -/
def execI32MulhN64 (k : Ctl32) (vd va vb : Reg) (s : State) : Out :=
  .next (s.rrr (issue32 k) 2 vd.toNat va.toNat vb.toNat (IOp.result .mulhN 64 false))

/-- I32 MINS (R87). -/
def execI32MinS64 (k : Ctl32) (vd va vb : Reg) (s : State) : Out :=
  .next (s.rrr (issue32 k) 2 vd.toNat va.toNat vb.toNat (IOp.result .minS 64 false))

/-- I32 MINN (R87). -/
def execI32MinN64 (k : Ctl32) (vd va vb : Reg) (s : State) : Out :=
  .next (s.rrr (issue32 k) 2 vd.toNat va.toNat vb.toNat (IOp.result .minN 64 false))

/-- I32 MAXS (R87). -/
def execI32MaxS64 (k : Ctl32) (vd va vb : Reg) (s : State) : Out :=
  .next (s.rrr (issue32 k) 2 vd.toNat va.toNat vb.toNat (IOp.result .maxS 64 false))

/-- I32 MAXN (R87). -/
def execI32MaxN64 (k : Ctl32) (vd va vb : Reg) (s : State) : Out :=
  .next (s.rrr (issue32 k) 2 vd.toNat va.toNat vb.toNat (IOp.result .maxN 64 false))

/-- I32 AND (R87). -/
def execI32And (k : Ctl32) (vd va vb : Reg) (s : State) : Out :=
  .next (s.rrr (issue32 k) 2 vd.toNat va.toNat vb.toNat (IOp.result .and 64 false))

/-- I32 ANDN (R87). -/
def execI32Andn (k : Ctl32) (vd va vb : Reg) (s : State) : Out :=
  .next (s.rrr (issue32 k) 2 vd.toNat va.toNat vb.toNat (IOp.result .andn 64 false))

/-- I32 OR (R87). -/
def execI32Or (k : Ctl32) (vd va vb : Reg) (s : State) : Out :=
  .next (s.rrr (issue32 k) 2 vd.toNat va.toNat vb.toNat (IOp.result .or 64 false))

/-- I32 XOR (R87). -/
def execI32Xor (k : Ctl32) (vd va vb : Reg) (s : State) : Out :=
  .next (s.rrr (issue32 k) 2 vd.toNat va.toNat vb.toNat (IOp.result .xor 64 false))

/-- I32 SHL (R88). -/
def execI32Shl (k : Ctl32) (vd va vb : Reg) (s : State) : Out :=
  .next (s.rrr (issue32 k) 2 vd.toNat va.toNat vb.toNat (IOp.result .shl 64 false))

/-- I32 SHR (R88). -/
def execI32Shr (k : Ctl32) (vd va vb : Reg) (s : State) : Out :=
  .next (s.rrr (issue32 k) 2 vd.toNat va.toNat vb.toNat (IOp.result .shr 64 false))

/-- I32 SAR (R88). -/
def execI32Sar (k : Ctl32) (vd va vb : Reg) (s : State) : Out :=
  .next (s.rrr (issue32 k) 2 vd.toNat va.toNat vb.toNat (IOp.result .sar 64 false))

/-- I32 ROT (R88). -/
def execI32Rot (k : Ctl32) (vd va vb : Reg) (s : State) : Out :=
  .next (s.rrr (issue32 k) 2 vd.toNat va.toNat vb.toNat (IOp.result .rot 64 false))

/-- I32 ABS (R87). -/
def execI32AbsS64 (k : Ctl32) (vd va : Reg) (s : State) : Out :=
  .next (s.rr (issue32 k) 2 vd.toNat va.toNat fun a => IOp.result .abs 64 false a 0)

/-- I32 NEG (R87). -/
def execI32Neg (k : Ctl32) (vd va : Reg) (s : State) : Out :=
  .next (s.rr (issue32 k) 2 vd.toNat va.toNat fun a => IOp.result .neg 64 false a 0)

/-- I32 NOT (R87). -/
def execI32Not (k : Ctl32) (vd va : Reg) (s : State) : Out :=
  .next (s.rr (issue32 k) 2 vd.toNat va.toNat fun a => IOp.result .not 64 false a 0)

/-- I32 POPC (R89). -/
def execI32Popc (k : Ctl32) (vd va : Reg) (s : State) : Out :=
  .next (s.rr (issue32 k) 2 vd.toNat va.toNat fun a => IOp.result .popc 64 false a 0)

/-- I32 CLZ (R89). -/
def execI32Clz (k : Ctl32) (vd va : Reg) (s : State) : Out :=
  .next (s.rr (issue32 k) 2 vd.toNat va.toNat fun a => IOp.result .clz 64 false a 0)

/-- I32 CTZ (R89). -/
def execI32Ctz (k : Ctl32) (vd va : Reg) (s : State) : Out :=
  .next (s.rr (issue32 k) 2 vd.toNat va.toNat fun a => IOp.result .ctz 64 false a 0)

/-- I32 BREV (R89). -/
def execI32Brev (k : Ctl32) (vd va : Reg) (s : State) : Out :=
  .next (s.rr (issue32 k) 2 vd.toNat va.toNat fun a => IOp.result .brev 64 false a 0)

/-- I32 SHLI (R88). -/
def execI32Shli (k : Ctl32) (vd va : Reg) (imm : BitVec 6) (s : State) : Out :=
  .next (s.rr (issue32 k) 2 vd.toNat va.toNat fun a => IOp.result .shl 64 false a (imm.setWidth 64))

/-- I32 SHRI (R88). -/
def execI32Shri (k : Ctl32) (vd va : Reg) (imm : BitVec 6) (s : State) : Out :=
  .next (s.rr (issue32 k) 2 vd.toNat va.toNat fun a => IOp.result .shr 64 false a (imm.setWidth 64))

/-- I32 SARI (R88). -/
def execI32Sari (k : Ctl32) (vd va : Reg) (imm : BitVec 6) (s : State) : Out :=
  .next (s.rr (issue32 k) 2 vd.toNat va.toNat fun a => IOp.result .sar 64 false a (imm.setWidth 64))

/-- I32 ADDI (R87). -/
def execI32Addi (k : Ctl32) (vd va : Reg) (imm : BitVec 6) (s : State) : Out :=
  .next (s.rr (issue32 k) 2 vd.toNat va.toNat fun a => IOp.result .add 64 false a (imm.signExtend 64))

/-- I32 SETP.eq (R98). -/
def execI32SetpEq (k : Ctl32) (pd : PReg) (va vb : Reg) (s : State) : Out :=
  .next (s.prr (issue32 k) 2 pd.toNat va.toNat vb.toNat (ICond.holds .eq 64))

/-- I32 SETP.ne (R98). -/
def execI32SetpNe (k : Ctl32) (pd : PReg) (va vb : Reg) (s : State) : Out :=
  .next (s.prr (issue32 k) 2 pd.toNat va.toNat vb.toNat (ICond.holds .ne 64))

/-- I32 SETP.ltS (R98). -/
def execI32SetpLtS64 (k : Ctl32) (pd : PReg) (va vb : Reg) (s : State) : Out :=
  .next (s.prr (issue32 k) 2 pd.toNat va.toNat vb.toNat (ICond.holds .ltS 64))

/-- I32 SETP.leS (R98). -/
def execI32SetpLeS64 (k : Ctl32) (pd : PReg) (va vb : Reg) (s : State) : Out :=
  .next (s.prr (issue32 k) 2 pd.toNat va.toNat vb.toNat (ICond.holds .leS 64))

/-- I32 SETP.ltN (R98). -/
def execI32SetpLtN64 (k : Ctl32) (pd : PReg) (va vb : Reg) (s : State) : Out :=
  .next (s.prr (issue32 k) 2 pd.toNat va.toNat vb.toNat (ICond.holds .ltN 64))

/-- I32 SETP.leN (R98). -/
def execI32SetpLeN64 (k : Ctl32) (pd : PReg) (va vb : Reg) (s : State) : Out :=
  .next (s.prr (issue32 k) 2 pd.toNat va.toNat vb.toNat (ICond.holds .leN 64))

/-- PAND (R99). -/
def execPand (k : Ctl32) (pd pa pb : PReg) (s : State) : Out :=
  .next (s.fixedOp (issue32 k) 2 [] [] fun t => [.pred pd.toNat (t.pred pa.toNat && t.pred pb.toNat)])

/-- POR (R99). -/
def execPor (k : Ctl32) (pd pa pb : PReg) (s : State) : Out :=
  .next (s.fixedOp (issue32 k) 2 [] [] fun t => [.pred pd.toNat (t.pred pa.toNat || t.pred pb.toNat)])

/-- PXOR (R99). -/
def execPxor (k : Ctl32) (pd pa pb : PReg) (s : State) : Out :=
  .next (s.fixedOp (issue32 k) 2 [] [] fun t => [.pred pd.toNat (t.pred pa.toNat != t.pred pb.toNat)])

/-- PNOT (R99). -/
def execPnot (k : Ctl32) (pd pa : PReg) (s : State) : Out :=
  .next (s.fixedOp (issue32 k) 2 [] [] fun t => [.pred pd.toNat (!t.pred pa.toNat)])

/-- P2V (R100). -/
def execP2v (k : Ctl32) (vd : Reg) (s : State) : Out :=
  .next (s.fixedOp (issue32 k) 2 [vd.toNat] [] fun t => [.reg vd.toNat (predByte t) none])

/-- V2P: all seven predicates land together (R100). -/
def execV2p (k : Ctl32) (va : Reg) (s : State) : Out :=
  .next (s.fixedOp (issue32 k) 2 [va.toNat] [va.toNat] fun t => (List.range 7).map fun i => .pred i (bit (t.reg va.toNat) i))

/-- I32 MOV (R95). -/
def execI32Mov (k : Ctl32) (vd va : Reg) (s : State) : Out :=
  .next (s.rr (issue32 k) 2 vd.toNat va.toNat id)

/-- I32 MOVI (R95). -/
def execI32Movi (k : Ctl32) (vd : Reg) (imm : BitVec 12) (s : State) : Out :=
  .next (s.fixedOp (issue32 k) 2 [vd.toNat] [] fun _ => [.reg vd.toNat (imm.signExtend 64) none])

/-- I64 ADD at a width (R85, R87). -/
def execI64Add (c : Ctl) (w : Width) (sx : Bool) (vd va vb : Reg) (s : State) : Out :=
  .next (s.rrr (issue64 c) 2 vd.toNat va.toNat vb.toNat (IOp.result .add (widthBits w) sx))

/-- I64 SUB at a width (R85, R87). -/
def execI64Sub (c : Ctl) (w : Width) (sx : Bool) (vd va vb : Reg) (s : State) : Out :=
  .next (s.rrr (issue64 c) 2 vd.toNat va.toNat vb.toNat (IOp.result .sub (widthBits w) sx))

/-- I64 MUL at a width (R85, R87). -/
def execI64Mul (c : Ctl) (w : Width) (sx : Bool) (vd va vb : Reg) (s : State) : Out :=
  .next (s.rrr (issue64 c) 2 vd.toNat va.toNat vb.toNat (IOp.result .mul (widthBits w) sx))

/-- I64 MULHS at a width (R85, R87). -/
def execI64MulhS (c : Ctl) (w : Width) (sx : Bool) (vd va vb : Reg) (s : State) : Out :=
  .next (s.rrr (issue64 c) 2 vd.toNat va.toNat vb.toNat (IOp.result .mulhS (widthBits w) sx))

/-- I64 MULHN at a width (R85, R87). -/
def execI64MulhN (c : Ctl) (w : Width) (sx : Bool) (vd va vb : Reg) (s : State) : Out :=
  .next (s.rrr (issue64 c) 2 vd.toNat va.toNat vb.toNat (IOp.result .mulhN (widthBits w) sx))

/-- I64 MINS at a width (R85, R87). -/
def execI64MinS (c : Ctl) (w : Width) (sx : Bool) (vd va vb : Reg) (s : State) : Out :=
  .next (s.rrr (issue64 c) 2 vd.toNat va.toNat vb.toNat (IOp.result .minS (widthBits w) sx))

/-- I64 MINN at a width (R85, R87). -/
def execI64MinN (c : Ctl) (w : Width) (sx : Bool) (vd va vb : Reg) (s : State) : Out :=
  .next (s.rrr (issue64 c) 2 vd.toNat va.toNat vb.toNat (IOp.result .minN (widthBits w) sx))

/-- I64 MAXS at a width (R85, R87). -/
def execI64MaxS (c : Ctl) (w : Width) (sx : Bool) (vd va vb : Reg) (s : State) : Out :=
  .next (s.rrr (issue64 c) 2 vd.toNat va.toNat vb.toNat (IOp.result .maxS (widthBits w) sx))

/-- I64 MAXN at a width (R85, R87). -/
def execI64MaxN (c : Ctl) (w : Width) (sx : Bool) (vd va vb : Reg) (s : State) : Out :=
  .next (s.rrr (issue64 c) 2 vd.toNat va.toNat vb.toNat (IOp.result .maxN (widthBits w) sx))

/-- I64 AND at a width (R85, R87). -/
def execI64And (c : Ctl) (w : Width) (sx : Bool) (vd va vb : Reg) (s : State) : Out :=
  .next (s.rrr (issue64 c) 2 vd.toNat va.toNat vb.toNat (IOp.result .and (widthBits w) sx))

/-- I64 ANDN at a width (R85, R87). -/
def execI64Andn (c : Ctl) (w : Width) (sx : Bool) (vd va vb : Reg) (s : State) : Out :=
  .next (s.rrr (issue64 c) 2 vd.toNat va.toNat vb.toNat (IOp.result .andn (widthBits w) sx))

/-- I64 OR at a width (R85, R87). -/
def execI64Or (c : Ctl) (w : Width) (sx : Bool) (vd va vb : Reg) (s : State) : Out :=
  .next (s.rrr (issue64 c) 2 vd.toNat va.toNat vb.toNat (IOp.result .or (widthBits w) sx))

/-- I64 XOR at a width (R85, R87). -/
def execI64Xor (c : Ctl) (w : Width) (sx : Bool) (vd va vb : Reg) (s : State) : Out :=
  .next (s.rrr (issue64 c) 2 vd.toNat va.toNat vb.toNat (IOp.result .xor (widthBits w) sx))

/-- I64 SHL at a width (R85, R88). -/
def execI64Shl (c : Ctl) (w : Width) (sx : Bool) (vd va vb : Reg) (s : State) : Out :=
  .next (s.rrr (issue64 c) 2 vd.toNat va.toNat vb.toNat (IOp.result .shl (widthBits w) sx))

/-- I64 SHR at a width (R85, R88). -/
def execI64Shr (c : Ctl) (w : Width) (sx : Bool) (vd va vb : Reg) (s : State) : Out :=
  .next (s.rrr (issue64 c) 2 vd.toNat va.toNat vb.toNat (IOp.result .shr (widthBits w) sx))

/-- I64 SAR at a width (R85, R88). -/
def execI64Sar (c : Ctl) (w : Width) (sx : Bool) (vd va vb : Reg) (s : State) : Out :=
  .next (s.rrr (issue64 c) 2 vd.toNat va.toNat vb.toNat (IOp.result .sar (widthBits w) sx))

/-- I64 ROT at a width (R85, R88). -/
def execI64Rot (c : Ctl) (w : Width) (sx : Bool) (vd va vb : Reg) (s : State) : Out :=
  .next (s.rrr (issue64 c) 2 vd.toNat va.toNat vb.toNat (IOp.result .rot (widthBits w) sx))

/-- I64 ABS at a width (R85, R87). -/
def execI64Abs (c : Ctl) (w : Width) (sx : Bool) (vd va : Reg) (s : State) : Out :=
  .next (s.rr (issue64 c) 2 vd.toNat va.toNat fun a => IOp.result .abs (widthBits w) sx a 0)

/-- I64 NEG at a width (R85, R87). -/
def execI64Neg (c : Ctl) (w : Width) (sx : Bool) (vd va : Reg) (s : State) : Out :=
  .next (s.rr (issue64 c) 2 vd.toNat va.toNat fun a => IOp.result .neg (widthBits w) sx a 0)

/-- I64 NOT at a width (R85, R87). -/
def execI64Not (c : Ctl) (w : Width) (sx : Bool) (vd va : Reg) (s : State) : Out :=
  .next (s.rr (issue64 c) 2 vd.toNat va.toNat fun a => IOp.result .not (widthBits w) sx a 0)

/-- I64 POPC at a width (R85, R89). -/
def execI64Popc (c : Ctl) (w : Width) (sx : Bool) (vd va : Reg) (s : State) : Out :=
  .next (s.rr (issue64 c) 2 vd.toNat va.toNat fun a => IOp.result .popc (widthBits w) sx a 0)

/-- I64 CLZ at a width (R85, R89). -/
def execI64Clz (c : Ctl) (w : Width) (sx : Bool) (vd va : Reg) (s : State) : Out :=
  .next (s.rr (issue64 c) 2 vd.toNat va.toNat fun a => IOp.result .clz (widthBits w) sx a 0)

/-- I64 CTZ at a width (R85, R89). -/
def execI64Ctz (c : Ctl) (w : Width) (sx : Bool) (vd va : Reg) (s : State) : Out :=
  .next (s.rr (issue64 c) 2 vd.toNat va.toNat fun a => IOp.result .ctz (widthBits w) sx a 0)

/-- I64 BREV at a width (R85, R89). -/
def execI64Brev (c : Ctl) (w : Width) (sx : Bool) (vd va : Reg) (s : State) : Out :=
  .next (s.rr (issue64 c) 2 vd.toNat va.toNat fun a => IOp.result .brev (widthBits w) sx a 0)

/-- I64 SHLI (R88). -/
def execI64Shli (c : Ctl) (w : Width) (amt : BitVec 6) (vd va : Reg) (s : State) : Out :=
  .next (s.rr (issue64 c) 2 vd.toNat va.toNat fun a => IOp.result .shl (widthBits w) false a (amt.setWidth 64))

/-- I64 SHRI (R88). -/
def execI64Shri (c : Ctl) (w : Width) (amt : BitVec 6) (vd va : Reg) (s : State) : Out :=
  .next (s.rr (issue64 c) 2 vd.toNat va.toNat fun a => IOp.result .shr (widthBits w) false a (amt.setWidth 64))

/-- I64 SARI (R88). -/
def execI64Sari (c : Ctl) (w : Width) (amt : BitVec 6) (vd va : Reg) (s : State) : Out :=
  .next (s.rr (issue64 c) 2 vd.toNat va.toNat fun a => IOp.result .sar (widthBits w) true a (amt.setWidth 64))

/-- I64 ADDI (R87). -/
def execI64Addi (c : Ctl) (imm : BitVec 18) (vd va : Reg) (s : State) : Out :=
  .next (s.rr (issue64 c) 2 vd.toNat va.toNat fun a => IOp.result .add 64 false a (imm.signExtend 64))

/-- MAD: a × b + c at a width (R90). -/
def execMad (c : Ctl) (w : Width) (sx : Bool) (vd va vb vc : Reg) (s : State) : Out :=
  .next (s.fixedOp (issue64 c) 2 [vd.toNat, va.toNat, vb.toNat, vc.toNat] [va.toNat, vb.toNat, vc.toNat] fun t =>
    [.reg vd.toNat (narrow (widthBits w) sx (nval (widthBits w) (t.reg va.toNat) * nval (widthBits w) (t.reg vb.toNat) + nval (widthBits w) (t.reg vc.toNat))) none])

/-- LEA (R91). -/
def execLea (c : Ctl) (sh : BitVec 3) (vd va vb : Reg) (s : State) : Out :=
  .next (s.rrr (issue64 c) 2 vd.toNat va.toNat vb.toNat fun a b => a + (b <<< sh.toNat))

/-- BFX (R92). -/
def execBfx (c : Ctl) (pos : BitVec 6) (len : BitVec 7) (sx : Bool) (vd va : Reg) (s : State) : Out :=
  .next (s.rr (issue64 c) 2 vd.toNat va.toNat (bfxResult pos.toNat len.toNat sx))

/-- BFI, which reads its destination (R93). -/
def execBfi (c : Ctl) (pos : BitVec 6) (len : BitVec 7) (vd va : Reg) (s : State) : Out :=
  .next (s.rrr (issue64 c) 2 vd.toNat vd.toNat va.toNat (bfiResult pos.toNat len.toNat))

/-- SEL (R101). -/
def execSel (c : Ctl) (p : PReg) (neg : Bool) (vd va vb : Reg) (s : State) : Out :=
  .next (s.fixedOp (issue64 c) 2 [vd.toNat, va.toNat, vb.toNat] [va.toNat, vb.toNat] fun t =>
    [.reg vd.toNat (if t.pred p.toNat != neg then t.reg va.toNat else t.reg vb.toNat) none])

/-- I64 SETP (R98). -/
def execI64Setp (c : Ctl) (cond : ICond) (w : Width) (pd : PReg) (va vb : Reg) (s : State) : Out :=
  .next (s.prr (issue64 c) 2 pd.toNat va.toNat vb.toNat (ICond.holds cond (widthBits w)))

/-- MOVL (R96). -/
def execMovl (c : Ctl) (imm : BitVec 24) (vd : Reg) (s : State) : Out :=
  .next (s.fixedOp (issue64 c) 2 [vd.toNat] [] fun _ => [.reg vd.toNat (imm.signExtend 64) none])

/-- MOVK, which reads its destination (R97). -/
def execMovk (c : Ctl) (val : BitVec 16) (pos : BitVec 2) (vd : Reg) (s : State) : Out :=
  .next (s.rr (issue64 c) 2 vd.toNat vd.toNat fun d => bfiResult (16 * pos.toNat) 16 d (val.setWidth 64))

/-- The latency of DIV and REM: 6 to 40 clk, by width, signedness and the operands at that width (R94). -/
def divLatency (op : Nat) (w : Width) (sg : Bool) (a b : Word) : Nat :=
  latencyOf (op + 256 * widthBits w + (if sg then 65536 else 0)) 6 40 (a.toNat % 2 ^ widthBits w) (b.toNat % 2 ^ widthBits w)

/-- DIV: lands 6 to 40 clk after issue (R94). -/
def execDiv (c : Ctl) (w : Width) (sg : Bool) (vd va vb : Reg) (s : State) : Out :=
  .next (s.resultOp (issue64 c) (fun t => divLatency 36 w sg (t.reg va.toNat) (t.reg vb.toNat)) [vd.toNat, va.toNat, vb.toNat] [va.toNat, vb.toNat] fun t =>
    [.reg vd.toNat (divRem (widthBits w) sg true (t.reg va.toNat) (t.reg vb.toNat)) none])

/-- REM: lands 6 to 40 clk after issue (R94). -/
def execRem (c : Ctl) (w : Width) (sg : Bool) (vd va vb : Reg) (s : State) : Out :=
  .next (s.resultOp (issue64 c) (fun t => divLatency 37 w sg (t.reg va.toNat) (t.reg vb.toNat)) [vd.toNat, va.toNat, vb.toNat] [va.toNat, vb.toNat] fun t =>
    [.reg vd.toNat (divRem (widthBits w) sg false (t.reg va.toNat) (t.reg vb.toNat)) none])

end Sys2Proof.Machine
end

