-- ==== Sys2Proof/Machine/Security.lean ====
section
/-! DEFINITION. The security complex and the management controller: keys, firmware, the debug unlock, start-up, power and
cooling (spec/27_host_security_startup.md R434-R438). -/

namespace Sys2Proof.Machine

/-! ## Keys (R434) -/

/-- Every cached copy of the sectors that p picks is written back and invalidated: the L1s give up the lines that hold one, each with its
notice (R401), and no die, L2 or core keeps the sector (R434). -/
def State.flushSectors (s : State) (p : Nat → Bool) : State :=
  let s1 := { s with
    l1 := s.l1.map fun (l : L1Line) => { l with states := (List.range 4).map fun i => if p (4 * l.line + i) then 0 else l.states.getD i 0 }
    coreMarks := s.coreMarks.filter fun m => !p m.2
    l2 := s.l2.map fun (l : L2Ent) => { l with owners := l.owners.filter (fun o => !p (4 * l.line + o.1)), dirty := l.dirty.filter fun i => !p (4 * l.line + i) }
    taproot := s.taproot.filter fun e => !p e.1 }
  (s.l1.filter fun (l : L1Line) => (List.range 4).any fun i => p (4 * l.line + i) && l.states.getD i 0 != 0).foldl (fun x l => x.evictLine l.core l.line) s1

/-- The sector was written under the key of slot k. -/
def State.sectorOfKey (s : State) (k sec : Nat) : Bool := s.keyTags.find sec == some (s.keyGen k)

/-- A home or an L2 works on a sector of the slot. -/
def State.keyBusy (s : State) (k : Nat) : Bool := s.txns.any fun e => (List.range 4).any fun i => s.sectorOfKey k (e.2.sector / 4 * 4 + i)

/-- Every slot gets a fresh random key. -/
def State.freshKeys (s : State) : State := { s with keyEpoch := s.keyEpoch + 1, keyGens := [(4096, s.keyEpoch + 1)] }

/-- What has begun under the key in slot k goes on under that key (R434): outstanding accesses, writes that wait, copy-on-writes, and what
the traversal unit has read. -/
def State.pinKey (s : State) (k : Nat) : State :=
  let name := fun (j : Nat) => if j = k then oldKey (s.keyGen k) else j
  { s with
    ops := s.ops.mapVals fun _ o => { o with kind := (o.kind.mapAccess fun a => { a with key := name a.key }).withUnit fun u =>
      { u with snap := u.snap.map fun x => (x.1, name x.2.1, x.2.2) } }
    heldWr := s.heldWr.map fun (h : HeldWr) => { h with key := name h.key }
    cows := s.cows.map fun (c : Cow) => { c with key := name c.key } }

/-- KEY_LOAD: a key of a tenant enters a slot once the sectors cached under the slot are written back and invalidated: what starts from then
on uses it, what began earlier the old one (R434); in TEST none is loadable, in DECOMMISSIONED none usable (R435). -/
def execKeyLoad (k : KeyInput) (s : State) : Out :=
  match s.lifecycle with
  | .test | .decommissioned => .next s
  | .prod | .prodUnlocked =>
    if k.slot < 4096 then
      let s1 := (s.flushSectors (s.sectorOfKey k.slot)).pinKey k.slot
      .next { s1 with keyEpoch := s1.keyEpoch + 1, keyGens := s1.keyGens.put k.slot (loadedKey k.material) }
    else .next s

/-- ZEROISE (R434). -/
def execZeroise (s : State) : Out := .next s.freshKeys

/-! ## Firmware, measurements and the debug unlock (R435, R436) -/

/-- The image passes both signatures and the rollback counter (R435). -/
def State.firmwareOk (s : State) (img : FwImage) : Bool := Config.imageVerifies img.ident && decide (s.rollback ≤ img.version)

/-- The firmware check of a start (R435, R437): a stored image that fails, like the end of the part's life, holds the device in ROM. -/
def State.bootHold (s : State) : Bool := s.lifecycle == .decommissioned || !s.firmware.all s.firmwareOk

/-- FIRMWARE_IMAGE: an accepted image runs, and ends ROM recovery; one that fails keeps the previous image, or, stored for a start, holds the
device in ROM recovery (R435). -/
def execFirmwareImage (img : FwImage) (s : State) : Out :=
  if s.firmwareOk img then
    .next { s with firmware := some img, romHold := s.lifecycle == .decommissioned, linkUp := s.powered && s.lifecycle != .decommissioned }
  else if s.linkUp then .next s
  else .next { s with firmware := some img, romHold := true }

/-- NONCE_REQUEST: the host gets a nonce of 32 bytes, which stays outstanding until a token uses it (R436). -/
def execNonceRequest (s : State) : Out :=
  let n := Config.nonce s.nonceSeq % 2 ^ 256
  .next { s with nonces := s.nonces ++ [n], nonceSeq := s.nonceSeq + 1, reply := [n] }

/-- The four parts of an unlock token, whose nonce none has used before (R436). -/
def State.tokenOk (s : State) (t : UnlockToken) : Bool :=
  s.lifecycle == .prod && t.uid == Config.devUid && t.lifecycle == 1 && s.nonces.contains t.nonce && !s.usedNonces.contains t.nonce &&
  Config.tokenVerifies t.signature t.uid t.lifecycle t.nonce

/-- DEBUG_UNLOCK: a token that verifies zeroises the keys and sets PROD_UNLOCKED, which clears the locked bits and extends
measurement 3; any other changes nothing (R436). -/
def execDebugUnlock (tok : UnlockToken) (s : State) : Out :=
  if s.tokenOk tok then
    .next { s.freshKeys with nonces := s.nonces.filter (fun n => n != tok.nonce), usedNonces := tok.nonce :: s.usedNonces, lifecycle := .prodUnlocked, meas3 := s.meas3 + 1 }
  else .next s

/-- The value of the lifecycle fuse with its volatile state (R435). -/
def Lifecycle.value : Lifecycle → Nat
  | .test => 0
  | .prod => 1
  | .prodUnlocked => 2
  | .decommissioned => 3

/-- Measurement block i, a SHA-384 digest: 1 the ROM, 2 the firmware, 3 the lifecycle and debug state with its extensions, 4 the
core-enable fuses of R17 (R435, R436; notes/assumptions/8). -/
def State.measurement (s : State) (i : Nat) : Nat :=
  Config.sha384 (match i with
    | 1 => [1, Config.rom]
    | 2 => 2 :: s.firmware.elim [] fun f => [f.ident, f.version]
    | 3 => [3, s.lifecycle.value, if s.debugLocked then 1 else 0, s.meas3]
    | _ => i :: (List.range 4).flatMap fun d => (List.range 5).map fun w => (coreEnWord d w).toNat) % 2 ^ 384

/-- SPDM_MEASUREMENTS: the request gets the four blocks; nothing else changes (R435). -/
def execSpdmMeasurements (s : State) : Out := .next { s with reply := [1, 2, 3, 4].map s.measurement }

/-! ## Start-up (R437) -/

/-- Registers at their reset values, no context, no copy, no lease, the firmware checked: what both starts have in common. What lies outside
the device stays: host and peer memory, time, the outside's moves, fuses, and what the management controller keeps. -/
def State.restarted (s : State) : State :=
  { State.reset with
    ptp := s.ptp, draws := s.draws, clkDraws := s.draws, inputs := s.inputs, nextSeq := s.nextSeq
    mem := s.mem, empties := s.empties, keyTags := s.keyTags, keyGens := s.keyGens, keyEpoch := s.keyEpoch
    badMem := s.badMem, tagPages := s.tagPages, lifecycle := s.lifecycle
    nonceSeq := s.nonceSeq, usedNonces := s.usedNonces, rollback := s.rollback, firmware := s.firmware, meas3 := s.meas3
    romHold := s.bootHold, hbmTrained := true, scrubEpoch := s.scrubEpoch
    linkUp := !s.bootHold
    heard := s.heard, refilled := s.ptp / 1000 }

/-- The scrub: every device-memory word zero and FULL, the checks written (R437). -/
def State.scrubbed (s : State) : State :=
  { s with mem := s.mem.filter (fun c => !isDevice c.1), empties := [], keyTags := [], badMem := [], tagPages := [], scrubEpoch := s.keyEpoch }

/-- A cold start (R437): the unlocked state ends, the memory is scrubbed, and then the keys are made random, which changes the key set
since that scrub. -/
def State.coldStarted (s : State) : State :=
  { s.restarted.scrubbed with lifecycle := if s.lifecycle = Lifecycle.prodUnlocked then Lifecycle.prod else s.lifecycle, meas3 := 0 }.freshKeys

/-- COLD_START (R437). -/
def execColdStart (s : State) : Out := .next s.coldStarted

/-- WARM_START: keys are kept, and memory with its bits unless the key set has changed since the last scrub; after a thermal
trip the next start is cold (R437, R438). -/
def execWarmStart (s : State) : Out :=
  if !s.powered then .next s.coldStarted
  else if s.scrubEpoch = s.keyEpoch then .next s.restarted
  else .next s.restarted.scrubbed

/-! ## Power and cooling (R438) -/

/-- THERMAL_TRIP: once 115 °C has been reached the core rails go, and all state is lost (R438). -/
def execThermalTrip (s : State) : Out :=
  if s.powered ∧ (s.tripped = true ∨ 115 ≤ bits (s.reg (Off.pwr 0x18)) 7 0) then
    .next { (s.coldStarted) with powered := false, linkUp := false }
  else .next s

/-- What a context's EBUD gains in a µs (R438). -/
def State.ebudRate (s : State) (ctx : Nat) : Nat :=
  let r := bits (s.reg (Off.pwr 8)) 31 0 * bits (s.reg (Off.pwr (0x800 + 8 * ctx))) 15 0 / 65536
  if bits (s.reg (Off.pwr 0x10)) 15 0 ≤ bits (s.readReg (Off.pwr 0)) 15 0 ∧ bits (s.reg (Off.pwr 0x18)) 7 0 ≤ 105 then r else r / 2

/-- The contexts whose EBUD can be other than zero after a refill. -/
def State.ebudCtxs (s : State) : List Nat :=
  (s.ctxs.map (·.1) ++ (s.mmio.filter fun e => Off.pwr 0x800 ≤ e.1 ∧ e.1 < Off.pwr 0x2800).map fun e => (e.1 - Off.pwr 0x800) / 8).dedup

/-- EBUD_REFILL: at a µs boundary of PTP time each context's EBUD takes min(EBUD + r, 4r), after the power and the temperature
were measured; 115 °C once reached is remembered (R438; notes/assumptions/9). -/
def execEbudRefill (s : State) : Out :=
  if s.powered ∧ s.refilled < s.ptp / 1000 then
    let s1 := (s.setReg (Off.pwr 0x10) (BitVec.ofNat 64 (Config.power s.draws % 65536))).setReg (Off.pwr 0x18) (BitVec.ofNat 64 (Config.temperature s.draws % 256))
    let s2 := s1.ebudCtxs.foldl (fun (x : State) c => x.setCtx c fun v => { v with ebud := min (v.ebud + s1.ebudRate c) (4 * s1.ebudRate c) }) s1
    .next { s2 with refilled := s2.refilled + 1, tripped := s2.tripped || decide (115 ≤ bits (s2.reg (Off.pwr 0x18)) 7 0) }
  else .next s

end Sys2Proof.Machine
end

