-- ==== Sys2Proof/Machine/Registers.lean ====
section
/-! DEFINITION. What the host and the management block do through BAR0 and the HDM windows: plain register writes, the
commands of the translation, service and Taproot blocks with the migration they start, the fill alias
(spec/14_translation_and_versions.md R248, R252, R266, R267; spec/27_host_security_startup.md R426-R433). -/

namespace Sys2Proof.Machine

/-! ## Register writes (R4, R427) -/

/-- The registers whose write is an event of its own. -/
def ownEvent (off : Nat) : Bool :=
  (decide (0x10400 ≤ off) && decide (off < 0x14000) && decide (0x400 ≤ off % 0x1000)) ||
  (decide (0x20000 ≤ off) && decide (off < 0x24000) && off % 0x1000 == 0x18) ||
  (decide (0x50000 ≤ off) && decide (off < 0x50800) && off % 0x100 == 0) ||
  (decide (0x60000 ≤ off) && decide (off < 0x60400) && off % 0x100 == 0x28) ||
  off == Off.pe 0 || off == Off.ck 8 || off == Off.sv 0x38 || off == Off.tp 0x18 ||
  (decide (0x100000 ≤ off) && (off % 0x100 == 0x60 || off % 0x100 == 0x80))

/-- The core of a debug block's offset: 512 × die + physical index. -/
def dbgCore (off : Nat) : Nat := (off - 0x100000) / 0x100 / 288 * 512 + (off - 0x100000) / 0x100 % 288

/-- SMP_CTL: with enable set each partition draws its interval (R388). -/
def State.smpCtl (s : State) (c : Nat) : State :=
  if bit (s.reg (Off.dbg c 0xA0)) 0 then
    s.updCore c fun x => { x with sampleAt := (List.range 4).map fun p => (p, s.clk + s.sampleDraw c p) }
  else s.updCore c fun x => { x with sampleAt := [], armed := [] }

/-- REGISTER_WRITE: the fields are set (R3, R4), by an access of 8 aligned bytes only (R427); FB_ID takes none while a port is up (R408); the
registers of an enabled stream take none but FO_RD's (R345); an FB_SKEW below the estimate of the PTP offset drops every peer copy
(R415); and with QE_CTX_TABLE written a die's contexts may exist (R437). -/
def execRegisterWrite (off : Nat) (val : RegData) (s : State) : Out :=
  if val.width ≠ 8 ∨ off % 8 ≠ 0 ∨ ownEvent off = true ∨ s.powered = false then .next s
  else if off = Off.fb 0x10 then
    let s1 := s.writeReg off val.word
    .next (if s1.skewOk then s1 else { s1 with leases := [] })
  else if 0x10000 ≤ off ∧ off < 0x14000 ∧ off % 0x1000 = 0 then
    .next { s.writeReg off val.word with ctxTabs := Addrs.add s.ctxTabs ((off - 0x10000) / 0x1000) }
  else if off = Off.fb 0 then .next (if s.portsUp.isEmpty then s.writeReg off val.word else s)
  else if 0x50000 ≤ off ∧ off < 0x50800 then
    .next (if s.foOn ((off - 0x50000) / 0x100) && off % 0x100 != 0x30 then s else s.writeReg off val.word)
  else if 0x100000 ≤ off ∧ off % 0x100 = 0xA0 ∧ (regSpec off).acc = .rw then .next ((s.writeReg off val.word).smpCtl (dbgCore off))
  else .next (s.writeReg off val.word)

/-! ## Host memory accesses (R426, R428) -/

/-- The key of host accesses (R432). -/
def State.hostKey (s : State) : Nat := (s.reg (Off.sv 0x58)).toNat

/-- The bytes that an access takes. -/
def hdmLen : HdmOp → Nat
  | .read n | .aliasRead n => n
  | .write bs => bs.length

/-- The host reads n bytes under its key: the read probes the copies it meets (R223, R426). -/
def State.hostRead (s : State) (off n : Nat) : State :=
  let s1 := (s.uncorrEntry 0 off n).agentRead off n
  { s1 with reply := (s1.bytesAt none s1.hostKey off n).map BitVec.toNat }

/-- HDM_ACCESS: a physical access to device memory through decoder 0, under the key of SV_HOST_KEY, which probes the copies it meets (R223,
R426), or a read through decoder 1, which returns what decoder 0 would and leaves the bit (R428); before the link is up it completes with
an error (R437). -/
def execHdmAccess (off : Nat) (acc : HdmOp) (s : State) : Out :=
  if !s.linkUp then .next s else
  match acc with
  | .read n | .aliasRead n => if off + n ≤ 2 ^ 40 then .next (s.hostRead off n) else .next s
  | .write bs => if off + bs.length ≤ 2 ^ 40 then .next (s.agentBytes (s.hostWriter false) s.hostKey off bs bs.length) else .next s

/-- The whole words of a fill write from word address w on, in ascending order (R428): each is written and set FULL and its
waiters are woken; each word is a release at .sys of the host's writes before it. -/
def State.fillWords (s : State) (key w : Nat) (bs : List Byte) : Nat → State
  | 0 => s
  | n + 1 => (s.agentPut (s.hostWriter true) key w (bs.take 8) (some true)).fillWords key (w + 8) (bs.drop 8) n

/-- FILL_ALIAS_WRITE: a write through decoder 1 (R428): whole words are filled, the bytes of partial ones dropped and
counted. -/
def execFillAliasWrite (off : Nat) (bytes : List Byte) (s : State) : Out :=
  if !s.linkUp || decide (2 ^ 40 < off + bytes.length) || bytes.isEmpty then .next s else
  let fin := off + bytes.length
  let lo := (off + 7) / 8
  let n := fin / 8 - lo
  let covered := (fin + 7) / 8 - off / 8
  let s1 := s.fillWords s.hostKey (8 * lo) (bytes.drop (8 * lo - off)) n
  .next (if covered = n then s1 else s1.setReg (Off.sv 0x60) (s1.reg (Off.sv 0x60) + BitVec.ofNat 64 (covered - n)))

/-! ## Translation invalidations (R248, R252) -/

/-- XL_INV_CMD: go starts an invalidation of the range that the block's registers give; it is ignored while one runs
(R248). -/
def execXlInvCmd (die : Nat) (val : Word) (s : State) : Out :=
  if die < 4 ∧ bit val 10 ∧ !bit (s.reg (Off.xl die 0x20)) 0 then
    .next { (s.setReg (Off.xl die 0x20) 1) with
      invals := s.invals ++ [(die, bits val 9 0, (s.reg (Off.xl die 8)).toNat / 65536, (s.reg (Off.xl die 0x10)).toNat, s.nextSeq)] }
  else .next s

/-- The invalidation covers a virtual page of a context; a length of 0 covers all of them (R248). -/
def invCovers (i : Nat × Nat × Nat × Nat × Nat) (ctx vpage : Nat) : Bool :=
  i.2.1 == ctx && (i.2.2.2.1 == 0 || (decide (i.2.2.1 ≤ vpage) && decide (vpage < i.2.2.1 + i.2.2.2.1)))

/-- The invalidation covers a table entry or root word when it covers a page that the entry leads to (R252; notes/assumptions/11). -/
def invMeets (i : Nat × Nat × Nat × Nat × Nat) (e : PteEnt) : Bool :=
  let n := if e.level = 5 then 2 ^ 41 else 2 ^ (9 * e.level - 4)
  i.2.1 == e.ctx && (i.2.2.2.1 == 0 || (decide (i.2.2.1 < e.base / 65536 + n) && decide (e.base / 65536 < i.2.2.1 + i.2.2.2.1)))

/-- An outstanding access, a parked form's or a LAUNCH's record among them, was translated through a covered entry, a peer's write that a lease holds
may have been, or a write begun before the command, which may be to the entry itself, has not reached every die's walks
(R252). -/
def State.invBusy (s : State) (i : Nat × Nat × Nat × Nat × Nat) : Bool :=
  (s.ops.any fun e => e.2.kind.accesses.any fun x => invCovers i x.1.ctx (x.1.va / 65536)) ||
  (s.heldWr.any fun (h : HeldWr) => h.by_ == .peer) || s.inflight.any fun e => decide (e.1 < i.2.2.2.2) && !e.2.dies.isEmpty

/-- XL_INVALIDATION_DONE: no cache holds a covered entry, every access translated through one has been performed, and busy
clears (R252); the record of a host frame that no entry holds ends (R227). -/
def execXlInvalidationDone (die : Nat) (s : State) : Out :=
  match s.invals.find? (fun i => i.1 == die) with
  | none => .next s
  | some i =>
    if s.invBusy i then .next s else
    let tlb := s.tlb.filter fun (e : TlbEnt) => !invCovers i e.ctx e.vpage
    .next { (s.setReg (Off.xl die 0x20) 0) with tlb := tlb, ptes := s.ptes.filter fun (e : PteEnt) => !invMeets i e, invals := s.invals.erase i, hostKinds := heldKinds tlb s.hostKinds }

/-! ## The service block (R431) -/

/-- The waiting request that a command names. -/
def State.svMatch (s : State) : Option ResReq :=
  s.resReqs.find? fun (r : ResReq) => !r.refill && r.ctx == bits (s.reg (Off.sv 0x28)) 9 0 && r.va == (s.reg (Off.sv 0x30)).toNat

/-- A request is answered; a TOUCH behind it may now complete (R144). -/
def State.answer (s : State) (r : ResReq) (ok : Bool) : State :=
  let s1 := { s with resReqs := s.resReqs.erase r }
  match r.op with
  | none => s1
  | some q => { s1 with ops := s1.ops.upd q fun o => match o.kind with
      | .touch va ctx pr _ => { o with kind := .touch va ctx pr (some ok) }
      | _ => o }

/-- SV_CMD grant: the address is walked again, and the request completes when the leaf is then resident; otherwise as refuse
(R431). -/
def execSvCmdGrant (s : State) : Out :=
  match s.svMatch with
  | none => .next s
  | some r => .next (s.answer r ((s.walk (qeAgent 0) r.ctx r.va).any fun l => l.resident))

/-- SV_CMD refuse (R431). -/
def execSvCmdRefuse (s : State) : Out :=
  match s.svMatch with
  | none => .next s
  | some r => .next (s.answer r false)

/-- A lease holds back what a give-frame writes: the command is taken once it is over (R414). -/
def State.giveHeld (s : State) : Bool :=
  (s.resReqs.find? fun (r : ResReq) => r.refill && r.ctx == bits (s.reg (Off.sv 0x28)) 9 0).any fun r => !s.metaFree r.va r.va

/-- SV_CMD give-frame: SV_ARG1 goes onto the reserve of the region whose REFILL request waits, or onto the pool when that is
full; the request ends when the reserve is full (R431). -/
def execSvCmdGiveFrame (s : State) : Out :=
  match s.resReqs.find? (fun (r : ResReq) => r.refill && r.ctx == bits (s.reg (Off.sv 0x28)) 9 0) with
  | none => .next s
  | some r =>
    let f := bits (s.reg (Off.sv 0x30)) 51 16 * 65536
    let n := s.resCount r.va
    let s1 := if n < s.resCap r.va then (s.hwWrite ((s.hwRead (r.va + 32)).toNat + 8 * n) (BitVec.ofNat 64 f)).setResCount r.va (n + 1)
      else (s.poolPush f).getD (s.service 3 r.ctx (BitVec.ofNat 64 f) 0)
    .next { s1 with resReqs := if n + 1 < s.resCap r.va then s1.resReqs else s1.resReqs.filter fun (x : ResReq) => !(x.refill && x.va == r.va) }

/-- SV_CMD with op 3 (R431). -/
def execSvCmdIgnored (s : State) : Out := .next s

/-- SV_PEND: the oldest waiting entry is written once there is room (R431). -/
def execSvPend (s : State) : Out :=
  match s.svQueue with
  | [] => .next s
  | e :: t =>
    match s.svWrite e with
    | none => .next s
    | some s1 => .next ({ s1 with svQueue := t }.setReg (Off.sv 0x20) (BitVec.ofNat 64 t.length))

/-! ## Taproot commands and migration (R266, R267, R433) -/

def State.tpSrc (s : State) : Nat := (s.reg (Off.tp 0)).toNat
def State.tpDst (s : State) : Nat := (s.reg (Off.tp 8)).toNat
def State.tpTag (s : State) : Nat := (s.reg (Off.tp 0x10)).toNat
def State.tpBusy (s : State) : Bool := bit (s.reg (Off.tp 0x20)) 0

/-- TP_STATUS with a result: 1 DONE, 2 INUSE, 3 BADFRAME. -/
def State.tpEnd (s : State) (r : Nat) : State := s.setReg (Off.tp 0x20) (BitVec.ofNat 64 (256 * r))

/-- A frame address: aligned, in device or host memory. -/
def frameAddr (f : Nat) : Bool := f % 65536 == 0 && (isDevice f || (isHost f && decide (f < 2 ^ 52)))

/-- TP_CMD release: a frame that nothing names becomes UNSEEN (R222, R433). -/
def execTpCmdRelease (s : State) : Out :=
  if s.tpBusy then .next s
  else if s.tpSrc % 65536 ≠ 0 ∨ !isDevice s.tpSrc then .next (s.tpEnd 3)
  else if s.inUse s.tpSrc then .next (s.tpEnd 2)
  else .next ((s.unseen s.tpSrc).tpEnd 1)

/-- The check of a migrate: 0 it may run, 2 INUSE, 3 BADFRAME (R267, R433). -/
def State.tpCheck (s : State) (src dst tag : Nat) : Nat :=
  if !frameAddr src || !frameAddr dst || (!isDevice src && !isDevice dst) ||
     (!isDevice dst && (tag % 1024 != 0 || decide (2 ^ 52 ≤ tag) || isPeer tag)) then 3
  else
    let ls := s.leaves
    if (ls.any fun l => s.recServes l src) || s.knownServes src then 2
    else if ls.any fun l => (s.recWorks l src && !(isDevice src && isDevice dst)) || (l.covers src && l.level != 0) then 3
    else 0

/-- The page is COPYING under a copy-on-write (R262, R266). -/
def State.pageCopying (s : State) (f : Nat) : Bool := s.cows.any fun c => s.wframe c.page == f

/-- A migration starts: every line marked, copy pass 1, which reads each line and clears its mark (R266); behind a copy-on-write it
waits. -/
def State.migrationStart (s : State) (src dst tag : Nat) : State :=
  let m : Migration := { src := src, dst := dst, tag := tag, marked := [], pass := if s.pageCopying src then 0 else 1, frozen := false, todo := List.range 256 }
  { s.setReg (Off.tp 0x20) 1 with migration := some m }

/-- TP_CMD migrate (R266, R433). -/
def execTpCmdMigrate (s : State) : Out :=
  if s.tpBusy then .next s else
  match s.tpCheck s.tpSrc s.tpDst s.tpTag with
  | 0 => .next (s.migrationStart s.tpSrc s.tpDst s.tpTag)
  | r => .next (s.tpEnd r)

/-- TP_CMD with op 2 or 3 (R433). -/
def execTpCmdIgnored (s : State) : Out := .next s

/-- MIGRATION_PASS_END: with fewer than 16 marked lines, or after pass 9, the page freezes; otherwise the next pass copies the
marked lines (R266). -/
def execMigrationPassEnd (s : State) : Out :=
  match s.migration with
  | none => .next s
  | some m =>
    if m.frozen then .next s
    else if m.pass = 0 then
      (if s.pageCopying m.src then .next s else
        match s.tpCheck m.src m.dst m.tag with
        | 0 => .next { s with migration := some { m with pass := 1, marked := [], todo := List.range 256 } }
        | r => .next ({ s with migration := none }.tpEnd r))
    else if m.marked.length < 16 ∨ m.pass = 9 then .next { s with migration := some { m with frozen := true } }
    else .next { s with migration := some { m with marked := [], pass := m.pass + 1, todo := m.marked } }

/-- FREEZE_COPY_END: the page switches to its new frame; the accesses that waited go on there (R266, R267). A copy-on-write of the
page that began before the freeze ends first, and a page that may no longer move ends the migration with its result (R262,
R433). -/
def execFreezeCopyEnd (s : State) : Out :=
  match s.migration with
  | none => .next s
  | some m =>
    if !m.frozen || s.pageCopying m.src || s.moveHeld m.src m.dst m.tag then .next s else
    let s1 := { s with migration := none }
    match s.tpCheck m.src m.dst m.tag with
    | 0 => .next ((s1.moveSwitch (s.hostWriter false).past m.src m.dst m.tag false).tpEnd 1).drainHeld
    | r => .next (s1.tpEnd r).drainHeld

end Sys2Proof.Machine
end

