-- ==== Sys2Proof/Machine/Lands.lean ====
section
/-! DEFINITION. The landing of variable-latency results, the performing of stores, the end of TOUCH, and the threads'
accesses to peers sent again (spec/02_one_thread.md R31-R35, spec/07_isa_memory_access.md R138-R144,
spec/26_fabric_and_checkpoint.md R411). -/

namespace Sys2Proof.Machine

/-- The access that an operation makes to a peer, where it makes one. -/
def OpKind.peerAccess (k : OpKind) : Option Access := (k.accesses.find? fun x => isPeer x.1.pa).map (·.1)

/-- What an operation with a result does when it is performed and lands (R138-R143, R148, R196, R201, R208, R239, R305, R321,
R327-R346); stores and the others that have events of their own are not among them. -/
def State.landNow (s : State) (seq : Nat) (o : Op) : State :=
  match o.kind with
  | .result l => if decide (o.earliest ≤ s.clk) then (s.acquired seq o []).finishOp seq o l else s
  | .load a g d p => if s.canPerform seq o false then s.viaPeer seq o a fun s => s.landLoad seq o a g d p else s
  | .atomic a fn ms => if s.canPerform seq o false then s.viaPeer seq o a fun s => s.doAtomic seq o a fn ms else s
  | .signal a f v => if s.canPerform seq o false then s.viaPeer seq o a fun s => s.doSignal seq o a f v else s
  | .lds b off n g d => if s.canPerform seq o false then s.landLds seq o b off n g d else s
  | .atoms b off n fn ms => if s.canPerform seq o false then s.doAtoms seq o b off n fn ms else s
  | .cctl op pa => if s.canPerform seq o false && s.cctlReady o op pa then s.doCctl seq o op pa else s
  | .fence k sc => if s.canPerform seq o false && s.fenceOk seq o k sc then s.doFence seq o k sc else s
  | .barEv h e => if s.canPerform seq o false then s.doBar seq o h e else s
  | .feform _ _ _ _ _ | .launch _ _ =>
    (match (s.thr o.thr).status with
      | .form _ _ _ _ _ => s
      | _ => if s.canPerformAs seq o false false then s.formTry seq o else s)
  | .accz _ _ | .accrd _ _ _ | .accwr _ _ _ | .permt _ _ _ => if s.canPerform seq o false && s.atHead seq o then s.arrayStep seq o else s
  | .frameout b off w vd => if s.canPerform seq o false then s.frameoutRun seq o b off w vd else s
  | .graft g => if s.canPerform seq o false && (g.wait.isNone || g.going) && !(s.pe.stage == .save && s.ctxOf (s.thr o.thr) == s.pe.ctx && !g.open_) && (s.thread? o.thr).isSome then s.graftRun seq o g else s
  | .unit u => if s.canPerform seq o false then s.unitRun seq o u else s
  | .callt c => if s.canPerform seq o false then s.viaPeer seq o c.want fun s => s.calltStep seq o c else s
  | .store _ _ | .sts _ _ _ _ | .touch _ _ _ _ | .barw _ _ _ | .vretire _ _ | .spill _ _ | .fill _ => s

/-- CLASS_V_RESULT_LANDS (R33): the operation is performed, and its result lands with its flag's fall. A refused access to a
peer goes on by PEER_RESEND only (R411). -/
def execClassVResultLands (op : Nat) (s : State) : Out :=
  match s.ops.find op with
  | none => .next s
  | some o => .next (if o.kind.peerAccess.isSome && s.peerWaiting op then s else s.landNow op o)

/-! ## The write-combining buffer (R225) -/

/-- The entries of a core's buffer that still hold stores. -/
def State.wcLive (s : State) (core : Nat) : List WcEnt :=
  ((s.core core).wc.map fun e => { e with ops := e.ops.filter fun q => (s.ops.find q).isSome }).filter fun e => !e.ops.isEmpty

def State.setWc (s : State) (core : Nat) (es : List WcEnt) : State := s.updCore core fun c => { c with wc := es }

/-- An entry's stores reach the host, in the order in which they were combined. -/
def State.wcDrain (s : State) (core : Nat) (e : WcEnt) : State :=
  let s1 := e.ops.foldl (fun (x : State) q => match x.ops.find q with
    | some o => (match o.kind with
      | .store a v => if x.canPerform q o false then x.doStore q o a v else x
      | _ => x)
    | none => x) s
  s1.setWc core (s1.wcLive core)

/-- A WC store combines in its line's entry, or takes one of four, the oldest giving way to a fifth line; one that is in the
buffer reaches the host with its entry. -/
def State.wcStore (s : State) (seq : Nat) (o : Op) (a : Access) : State :=
  let core := coreOf o.thr
  let line := a.pa / 256
  let live := s.wcLive core
  match live.find? (fun e => e.ops.contains seq) with
  | some e => s.wcDrain core e
  | none =>
    if live.any fun e => e.line == line then
      s.setWc core (live.map fun e => if e.line = line then { e with ops := e.ops ++ [seq] } else e)
    else
      let s1 := match live with
        | e :: _ => if live.length < 4 then s else s.wcDrain core e
        | [] => s
      let left := s1.wcLive core
      if left.length < 4 then s1.setWc core (left ++ [{ line := line, ops := [seq] }]) else s1

/-- A store performed, to memory, to the buffer of WC stores, or to the scratchpad (R140, R143, R225). -/
def State.performNow (s : State) (seq : Nat) (o : Op) : State :=
  match o.kind with
  | .store a v =>
    if s.canPerform seq o false then (if a.policy = 2 then s.wcStore seq o a else s.viaPeer seq o a fun s => s.doStore seq o a v) else s
  | .sts b off n v => if s.canPerform seq o false then s.doSts seq o b off n v else s
  | _ => s

/-- STORE_PERFORMED (R140). -/
def execStorePerformed (op : Nat) (s : State) : Out :=
  match s.ops.find op with
  | none => .next s
  | some o => .next (if o.kind.peerAccess.isSome && s.peerWaiting op then s else s.performNow op o)

/-- PEER_RESEND: no earlier than the hint after its refusal, the access is sent again (R411). -/
def execPeerResend (op : Nat) (s : State) : Out :=
  match s.ops.find op with
  | none => .next s
  | some o =>
    match s.peerWaits.find? (fun w => w.op == op) with
    | none => .next s
    | some w =>
      if o.kind.peerAccess.isNone || decide (s.ptp < w.notBefore) then .next s
      else match o.kind with
        | .store _ _ => .next (s.performNow op o)
        | .spill a v => if s.canPerform op o false then .next (s.viaPeer op o a fun s => s.doStore op o a v) else .next s
        | .fill a => if s.canPerform op o false then .next (s.viaPeer op o a fun s => s.doFill op o a) else .next s
        | _ => .next (s.landNow op o)

/-- TOUCH's request answered: it ends with its predicate, or a refusal under p7 raises NONRES, at once when synchronous and else
before the next instruction (R144). -/
def State.touchEnd (s : State) (seq : Nat) (o : Op) (va pr : Nat) (ok : Bool) : State :=
  if ok then s.finishOp seq o [.pred pr true]
  else if pr ≠ 7 then s.finishOp seq o [.pred pr false]
  else if o.sync then s.faultOp seq o { cause := .nonres, kind := .load, addr := BitVec.ofNat 64 va }
  else o.recv.foldl (fun x k => x.updThread k fun t => { t with touchErr := t.touchErr ++ [(BitVec.ofNat 64 va, o.pc, seq)] }) (s.finishOp seq o [])

/-- TOUCH_COMPLETE (R144, R430): the request was answered, the page has become resident, or the hardware serves it. -/
def execTouchComplete (op : Nat) (s : State) : Out :=
  match s.ops.find op with
  | none => .next s
  | some o =>
    match o.kind with
    | .touch va ctx pr ans =>
      let drop := fun (x : State) => { x with resReqs := x.resReqs.filter fun (r : ResReq) => r.op != some op }
      match ans with
      | some b => .next ((drop s).touchEnd op o va pr b)
      | none =>
        if (s.walk (Agent.core o.thr) ctx va).any fun l => l.resident then .next ((drop s).touchEnd op o va pr true)
        else if bit (s.c0Of (s.thr o.thr)) 24 then .next s
        else if (s.walk (qeAgent (dieOf o.thr)) ctx va).any fun l => !s.leaseFree l.at_ then .next s
        else
          let r := s.hwResidency (s.hbPast o.recv (some op)) (dieOf o.thr) ctx va
          .next ((drop r.1).touchEnd op o va pr r.2)
    | _ => .next s

end Sys2Proof.Machine
end

