-- ==== Sys2Proof/Machine/Dispatch.lean ====
section
/-! DEFINITION. One arm for each row of spec/opcode_table.json: the call of its meaning. -/

namespace Sys2Proof.Machine

def exec (i : Instr) (s : State) : Host.Outcome State Fault Refusal :=
  match i with
  | .c16Mov st vd vb => Sys2Proof.Machine.execC16Mov st vd vb s
  | .c16Movi st vd imm => Sys2Proof.Machine.execC16Movi st vd imm s
  | .c16Add st vd vb => Sys2Proof.Machine.execC16Add st vd vb s
  | .c16Sub st vd vb => Sys2Proof.Machine.execC16Sub st vd vb s
  | .c16Addi st vd imm => Sys2Proof.Machine.execC16Addi st vd imm s
  | .c16And st vd vb => Sys2Proof.Machine.execC16And st vd vb s
  | .c16Or st vd vb => Sys2Proof.Machine.execC16Or st vd vb s
  | .c16Xor st vd vb => Sys2Proof.Machine.execC16Xor st vd vb s
  | .c16Shli st vd imm => Sys2Proof.Machine.execC16Shli st vd imm s
  | .c16Shri st vd imm => Sys2Proof.Machine.execC16Shri st vd imm s
  | .c16Sari st vd imm => Sys2Proof.Machine.execC16Sari st vd imm s
  | .c16FaddD st vd vb => Sys2Proof.Machine.execC16FaddD st vd vb s
  | .c16FsubD st vd vb => Sys2Proof.Machine.execC16FsubD st vd vb s
  | .c16FmulD st vd vb => Sys2Proof.Machine.execC16FmulD st vd vb s
  | .c16FminD st vd vb => Sys2Proof.Machine.execC16FminD st vd vb s
  | .c16FmaxD st vd vb => Sys2Proof.Machine.execC16FmaxD st vd vb s
  | .i32Add k vd va vb => Sys2Proof.Machine.execI32Add k vd va vb s
  | .i32Sub k vd va vb => Sys2Proof.Machine.execI32Sub k vd va vb s
  | .i32Mul k vd va vb => Sys2Proof.Machine.execI32Mul k vd va vb s
  | .i32MulhS64 k vd va vb => Sys2Proof.Machine.execI32MulhS64 k vd va vb s
  | .i32MulhN64 k vd va vb => Sys2Proof.Machine.execI32MulhN64 k vd va vb s
  | .i32MinS64 k vd va vb => Sys2Proof.Machine.execI32MinS64 k vd va vb s
  | .i32MinN64 k vd va vb => Sys2Proof.Machine.execI32MinN64 k vd va vb s
  | .i32MaxS64 k vd va vb => Sys2Proof.Machine.execI32MaxS64 k vd va vb s
  | .i32MaxN64 k vd va vb => Sys2Proof.Machine.execI32MaxN64 k vd va vb s
  | .i32AbsS64 k vd va => Sys2Proof.Machine.execI32AbsS64 k vd va s
  | .i32Neg k vd va => Sys2Proof.Machine.execI32Neg k vd va s
  | .i32And k vd va vb => Sys2Proof.Machine.execI32And k vd va vb s
  | .i32Andn k vd va vb => Sys2Proof.Machine.execI32Andn k vd va vb s
  | .i32Or k vd va vb => Sys2Proof.Machine.execI32Or k vd va vb s
  | .i32Xor k vd va vb => Sys2Proof.Machine.execI32Xor k vd va vb s
  | .i32Not k vd va => Sys2Proof.Machine.execI32Not k vd va s
  | .i32Shl k vd va vb => Sys2Proof.Machine.execI32Shl k vd va vb s
  | .i32Shr k vd va vb => Sys2Proof.Machine.execI32Shr k vd va vb s
  | .i32Sar k vd va vb => Sys2Proof.Machine.execI32Sar k vd va vb s
  | .i32Rot k vd va vb => Sys2Proof.Machine.execI32Rot k vd va vb s
  | .i32Shli k vd va imm => Sys2Proof.Machine.execI32Shli k vd va imm s
  | .i32Shri k vd va imm => Sys2Proof.Machine.execI32Shri k vd va imm s
  | .i32Sari k vd va imm => Sys2Proof.Machine.execI32Sari k vd va imm s
  | .i32Popc k vd va => Sys2Proof.Machine.execI32Popc k vd va s
  | .i32Clz k vd va => Sys2Proof.Machine.execI32Clz k vd va s
  | .i32Ctz k vd va => Sys2Proof.Machine.execI32Ctz k vd va s
  | .i32Brev k vd va => Sys2Proof.Machine.execI32Brev k vd va s
  | .i32Addi k vd va imm => Sys2Proof.Machine.execI32Addi k vd va imm s
  | .i32FaddD k vd va vb => Sys2Proof.Machine.execI32FaddD k vd va vb s
  | .i32FsubD k vd va vb => Sys2Proof.Machine.execI32FsubD k vd va vb s
  | .i32FmulD k vd va vb => Sys2Proof.Machine.execI32FmulD k vd va vb s
  | .i32FminD k vd va vb => Sys2Proof.Machine.execI32FminD k vd va vb s
  | .i32FmaxD k vd va vb => Sys2Proof.Machine.execI32FmaxD k vd va vb s
  | .i32FabsD k vd va => Sys2Proof.Machine.execI32FabsD k vd va s
  | .i32FnegD k vd va => Sys2Proof.Machine.execI32FnegD k vd va s
  | .i32FaddF k vd va vb => Sys2Proof.Machine.execI32FaddF k vd va vb s
  | .i32FsubF k vd va vb => Sys2Proof.Machine.execI32FsubF k vd va vb s
  | .i32FmulF k vd va vb => Sys2Proof.Machine.execI32FmulF k vd va vb s
  | .i32FminF k vd va vb => Sys2Proof.Machine.execI32FminF k vd va vb s
  | .i32FmaxF k vd va vb => Sys2Proof.Machine.execI32FmaxF k vd va vb s
  | .i32FabsF k vd va => Sys2Proof.Machine.execI32FabsF k vd va s
  | .i32FnegF k vd va => Sys2Proof.Machine.execI32FnegF k vd va s
  | .i32FclassD k vd va => Sys2Proof.Machine.execI32FclassD k vd va s
  | .i32FgetexpD k vd va => Sys2Proof.Machine.execI32FgetexpD k vd va s
  | .i32FgetmanD k vd va => Sys2Proof.Machine.execI32FgetmanD k vd va s
  | .i32FclassF k vd va => Sys2Proof.Machine.execI32FclassF k vd va s
  | .i32FgetexpF k vd va => Sys2Proof.Machine.execI32FgetexpF k vd va s
  | .i32FgetmanF k vd va => Sys2Proof.Machine.execI32FgetmanF k vd va s
  | .i32SetpEq k pd va vb => Sys2Proof.Machine.execI32SetpEq k pd va vb s
  | .i32SetpNe k pd va vb => Sys2Proof.Machine.execI32SetpNe k pd va vb s
  | .i32SetpLtS64 k pd va vb => Sys2Proof.Machine.execI32SetpLtS64 k pd va vb s
  | .i32SetpLeS64 k pd va vb => Sys2Proof.Machine.execI32SetpLeS64 k pd va vb s
  | .i32SetpLtN64 k pd va vb => Sys2Proof.Machine.execI32SetpLtN64 k pd va vb s
  | .i32SetpLeN64 k pd va vb => Sys2Proof.Machine.execI32SetpLeN64 k pd va vb s
  | .i32FsetpEqD k pd va vb => Sys2Proof.Machine.execI32FsetpEqD k pd va vb s
  | .i32FsetpNeD k pd va vb => Sys2Proof.Machine.execI32FsetpNeD k pd va vb s
  | .i32FsetpLtD k pd va vb => Sys2Proof.Machine.execI32FsetpLtD k pd va vb s
  | .i32FsetpLeD k pd va vb => Sys2Proof.Machine.execI32FsetpLeD k pd va vb s
  | .i32FsetpUnD k pd va vb => Sys2Proof.Machine.execI32FsetpUnD k pd va vb s
  | .i32FsetpEqF k pd va vb => Sys2Proof.Machine.execI32FsetpEqF k pd va vb s
  | .i32FsetpNeF k pd va vb => Sys2Proof.Machine.execI32FsetpNeF k pd va vb s
  | .i32FsetpLtF k pd va vb => Sys2Proof.Machine.execI32FsetpLtF k pd va vb s
  | .i32FsetpLeF k pd va vb => Sys2Proof.Machine.execI32FsetpLeF k pd va vb s
  | .i32FsetpUnF k pd va vb => Sys2Proof.Machine.execI32FsetpUnF k pd va vb s
  | .pand k pd pa pb => Sys2Proof.Machine.execPand k pd pa pb s
  | .por k pd pa pb => Sys2Proof.Machine.execPor k pd pa pb s
  | .pxor k pd pa pb => Sys2Proof.Machine.execPxor k pd pa pb s
  | .pnot k pd pa => Sys2Proof.Machine.execPnot k pd pa s
  | .p2v k vd => Sys2Proof.Machine.execP2v k vd s
  | .v2p k va => Sys2Proof.Machine.execV2p k va s
  | .i32Mov k vd va => Sys2Proof.Machine.execI32Mov k vd va s
  | .i32Movi k vd imm => Sys2Proof.Machine.execI32Movi k vd imm s
  | .i32FcvtDF k vd va => Sys2Proof.Machine.execI32FcvtDF k vd va s
  | .i32FcvtFD k vd va => Sys2Proof.Machine.execI32FcvtFD k vd va s
  | .i32I2fDS64 k vd va => Sys2Proof.Machine.execI32I2fDS64 k vd va s
  | .i32I2fDN64 k vd va => Sys2Proof.Machine.execI32I2fDN64 k vd va s
  | .i32F2iS64D k vd va => Sys2Proof.Machine.execI32F2iS64D k vd va s
  | .i32F2iN64D k vd va => Sys2Proof.Machine.execI32F2iN64D k vd va s
  | .i64Add c w sx vd va vb => Sys2Proof.Machine.execI64Add c w sx vd va vb s
  | .i64Sub c w sx vd va vb => Sys2Proof.Machine.execI64Sub c w sx vd va vb s
  | .i64Mul c w sx vd va vb => Sys2Proof.Machine.execI64Mul c w sx vd va vb s
  | .i64MulhS c w sx vd va vb => Sys2Proof.Machine.execI64MulhS c w sx vd va vb s
  | .i64MulhN c w sx vd va vb => Sys2Proof.Machine.execI64MulhN c w sx vd va vb s
  | .i64MinS c w sx vd va vb => Sys2Proof.Machine.execI64MinS c w sx vd va vb s
  | .i64MinN c w sx vd va vb => Sys2Proof.Machine.execI64MinN c w sx vd va vb s
  | .i64MaxS c w sx vd va vb => Sys2Proof.Machine.execI64MaxS c w sx vd va vb s
  | .i64MaxN c w sx vd va vb => Sys2Proof.Machine.execI64MaxN c w sx vd va vb s
  | .i64Abs c w sx vd va => Sys2Proof.Machine.execI64Abs c w sx vd va s
  | .i64Neg c w sx vd va => Sys2Proof.Machine.execI64Neg c w sx vd va s
  | .i64And c w sx vd va vb => Sys2Proof.Machine.execI64And c w sx vd va vb s
  | .i64Andn c w sx vd va vb => Sys2Proof.Machine.execI64Andn c w sx vd va vb s
  | .i64Or c w sx vd va vb => Sys2Proof.Machine.execI64Or c w sx vd va vb s
  | .i64Xor c w sx vd va vb => Sys2Proof.Machine.execI64Xor c w sx vd va vb s
  | .i64Not c w sx vd va => Sys2Proof.Machine.execI64Not c w sx vd va s
  | .i64Shl c w sx vd va vb => Sys2Proof.Machine.execI64Shl c w sx vd va vb s
  | .i64Shr c w sx vd va vb => Sys2Proof.Machine.execI64Shr c w sx vd va vb s
  | .i64Sar c w sx vd va vb => Sys2Proof.Machine.execI64Sar c w sx vd va vb s
  | .i64Rot c w sx vd va vb => Sys2Proof.Machine.execI64Rot c w sx vd va vb s
  | .i64Popc c w sx vd va => Sys2Proof.Machine.execI64Popc c w sx vd va s
  | .i64Clz c w sx vd va => Sys2Proof.Machine.execI64Clz c w sx vd va s
  | .i64Ctz c w sx vd va => Sys2Proof.Machine.execI64Ctz c w sx vd va s
  | .i64Brev c w sx vd va => Sys2Proof.Machine.execI64Brev c w sx vd va s
  | .i64Shli c w amt vd va => Sys2Proof.Machine.execI64Shli c w amt vd va s
  | .i64Shri c w amt vd va => Sys2Proof.Machine.execI64Shri c w amt vd va s
  | .i64Sari c w amt vd va => Sys2Proof.Machine.execI64Sari c w amt vd va s
  | .i64Addi c imm vd va => Sys2Proof.Machine.execI64Addi c imm vd va s
  | .mad c w sx vd va vb vc => Sys2Proof.Machine.execMad c w sx vd va vb vc s
  | .lea c sh vd va vb => Sys2Proof.Machine.execLea c sh vd va vb s
  | .bfx c pos len sx vd va => Sys2Proof.Machine.execBfx c pos len sx vd va s
  | .bfi c pos len vd va => Sys2Proof.Machine.execBfi c pos len vd va s
  | .sel c p neg vd va vb => Sys2Proof.Machine.execSel c p neg vd va vb s
  | .i64Setp c cond w pd va vb => Sys2Proof.Machine.execI64Setp c cond w pd va vb s
  | .movl c imm vd => Sys2Proof.Machine.execMovl c imm vd s
  | .movk c val pos vd => Sys2Proof.Machine.execMovk c val pos vd s
  | .div c w sg vd va vb => Sys2Proof.Machine.execDiv c w sg vd va vb s
  | .rem c w sg vd va vb => Sys2Proof.Machine.execRem c w sg vd va vb s
  | .i64Fadd c rm ty vd va vb => Sys2Proof.Machine.execI64Fadd c rm ty vd va vb s
  | .i64Fsub c rm ty vd va vb => Sys2Proof.Machine.execI64Fsub c rm ty vd va vb s
  | .i64Fmul c rm ty vd va vb => Sys2Proof.Machine.execI64Fmul c rm ty vd va vb s
  | .ffma c rm ty vd va vb vc => Sys2Proof.Machine.execFfma c rm ty vd va vb vc s
  | .i64Fmin c ty vd va vb => Sys2Proof.Machine.execI64Fmin c ty vd va vb s
  | .i64Fmax c ty vd va vb => Sys2Proof.Machine.execI64Fmax c ty vd va vb s
  | .i64Fsetp c cond ty pd va vb => Sys2Proof.Machine.execI64Fsetp c cond ty pd va vb s
  | .fscale c rm ty vd va vb => Sys2Proof.Machine.execFscale c rm ty vd va vb s
  | .fdiv c rm ty vd va vb => Sys2Proof.Machine.execFdiv c rm ty vd va vb s
  | .fsqrt c rm ty vd va => Sys2Proof.Machine.execFsqrt c rm ty vd va s
  | .frcp c rm ty vd va => Sys2Proof.Machine.execFrcp c rm ty vd va s
  | .frsq c ty vd va => Sys2Proof.Machine.execFrsq c ty vd va s
  | .fexp2 c ty vd va => Sys2Proof.Machine.execFexp2 c ty vd va s
  | .flog2 c ty vd va => Sys2Proof.Machine.execFlog2 c ty vd va s
  | .fsin c ty vd va => Sys2Proof.Machine.execFsin c ty vd va s
  | .fcos c ty vd va => Sys2Proof.Machine.execFcos c ty vd va s
  | .i64Fcvt c dst src rm sat vd va => Sys2Proof.Machine.execI64Fcvt c dst src rm sat vd va s
  | .i64I2f c dst src rm sat vd va => Sys2Proof.Machine.execI64I2f c dst src rm sat vd va s
  | .i64F2i c dst src rm vd va => Sys2Proof.Machine.execI64F2i c dst src rm vd va s
  | .frnd c rm ty vd va => Sys2Proof.Machine.execFrnd c rm ty vd va s
  | .fpack c kind ty rm vd va vb => Sys2Proof.Machine.execFpack c kind ty rm vd va vb s
  | .funpack c kind ty rm vd va vb => Sys2Proof.Machine.execFunpack c kind ty rm vd va vb s
  | .ldB8 c off pr hint vd va => Sys2Proof.Machine.execLdB8 c off pr hint vd va s
  | .ldB16 c off pr hint vd va => Sys2Proof.Machine.execLdB16 c off pr hint vd va s
  | .ldB32 c off pr hint vd va => Sys2Proof.Machine.execLdB32 c off pr hint vd va s
  | .ldB64 c off pr hint vd va => Sys2Proof.Machine.execLdB64 c off pr hint vd va s
  | .ldS8 c off pr hint vd va => Sys2Proof.Machine.execLdS8 c off pr hint vd va s
  | .ldS16 c off pr hint vd va => Sys2Proof.Machine.execLdS16 c off pr hint vd va s
  | .ldS32 c off pr hint vd va => Sys2Proof.Machine.execLdS32 c off pr hint vd va s
  | .ldv c size pr vd va vb => Sys2Proof.Machine.execLdv c size pr vd va vb s
  | .stB8 c off hint src va => Sys2Proof.Machine.execStB8 c off hint src va s
  | .stB16 c off hint src va => Sys2Proof.Machine.execStB16 c off hint src va s
  | .stB32 c off hint src va => Sys2Proof.Machine.execStB32 c off hint src va s
  | .stB64 c off hint src va => Sys2Proof.Machine.execStB64 c off hint src va s
  | .ldsB8 c off vd va => Sys2Proof.Machine.execLdsB8 c off vd va s
  | .ldsB16 c off vd va => Sys2Proof.Machine.execLdsB16 c off vd va s
  | .ldsB32 c off vd va => Sys2Proof.Machine.execLdsB32 c off vd va s
  | .ldsB64 c off vd va => Sys2Proof.Machine.execLdsB64 c off vd va s
  | .ldsS8 c off vd va => Sys2Proof.Machine.execLdsS8 c off vd va s
  | .ldsS16 c off vd va => Sys2Proof.Machine.execLdsS16 c off vd va s
  | .ldsS32 c off vd va => Sys2Proof.Machine.execLdsS32 c off vd va s
  | .stsB8 c off src va => Sys2Proof.Machine.execStsB8 c off src va s
  | .stsB16 c off src va => Sys2Proof.Machine.execStsB16 c off src va s
  | .stsB32 c off src va => Sys2Proof.Machine.execStsB32 c off src va s
  | .stsB64 c off src va => Sys2Proof.Machine.execStsB64 c off src va s
  | .touch c off pr va => Sys2Proof.Machine.execTouch c off pr va s
  | .pref c off l2 excl va => Sys2Proof.Machine.execPref c off l2 excl va s
  | .cctl c off op va => Sys2Proof.Machine.execCctl c off op va s
  | .ldw c off pr sc vd va => Sys2Proof.Machine.execLdw c off pr sc vd va s
  | .ldc c off pr sc vd va => Sys2Proof.Machine.execLdc c off pr sc vd va s
  | .stf c off pr sc src va => Sys2Proof.Machine.execStf c off pr sc src va s
  | .stx c off pr sc src va => Sys2Proof.Machine.execStx c off pr sc src va s
  | .purge c off pr sc va => Sys2Proof.Machine.execPurge c off pr sc va s
  | .feq c off pr sc pd va => Sys2Proof.Machine.execFeq c off pr sc pd va s
  | .atom c op ty four ord sc vd va vb => Sys2Proof.Machine.execAtom c op ty four ord sc vd va vb s
  | .atoms c op ty four ord vd va vb => Sys2Proof.Machine.execAtoms c op ty four ord vd va vb s
  | .red c op ty four ord sc va vb => Sys2Proof.Machine.execRed c op ty four ord sc va vb s
  | .cas c four ord sc vd va vb vc => Sys2Proof.Machine.execCas c four ord sc vd va vb vc s
  | .vretire c va vb => Sys2Proof.Machine.execVretire c va vb s
  | .fence c kind sc => Sys2Proof.Machine.execFence c kind sc s
  | .bra c off => Sys2Proof.Machine.execBra c off s
  | .jmp c va => Sys2Proof.Machine.execJmp c va s
  | .call c off => Sys2Proof.Machine.execCall c off s
  | .callr c va => Sys2Proof.Machine.execCallr c va s
  | .callt c pd vd va vb => Sys2Proof.Machine.execCallt c pd vd va vb s
  | .ret c => Sys2Proof.Machine.execRet c s
  | .exit c => Sys2Proof.Machine.execExit c s
  | .nop c => Sys2Proof.Machine.execNop c s
  | .wait c time va => Sys2Proof.Machine.execWait c time va s
  | .yield c => Sys2Proof.Machine.execYield c s
  | .bara c bar vd => Sys2Proof.Machine.execBara c bar vd s
  | .barw c bar vd va => Sys2Proof.Machine.execBarw c bar vd va s
  | .bars c bar va => Sys2Proof.Machine.execBars c bar va s
  | .bare c bar vd => Sys2Proof.Machine.execBare c bar vd s
  | .bart c bar pd va => Sys2Proof.Machine.execBart c bar pd va s
  | .shfl c mode pv vd va vb => Sys2Proof.Machine.execShfl c mode pv vd va vb s
  | .vote c v => Sys2Proof.Machine.execVote c v s
  | .redb c op ty vd va => Sys2Proof.Machine.execRedb c op ty vd va s
  | .launch c sc va vb => Sys2Proof.Machine.execLaunch c sc va vb s
  | .signal c sc fill va vb => Sys2Proof.Machine.execSignal c sc fill va vb s
  | .idemend c => Sys2Proof.Machine.execIdemend c s
  | .cpy c ord eng credit vd va => Sys2Proof.Machine.execCpy c ord eng credit vd va s
  | .cpyx c ord eng credit vd va => Sys2Proof.Machine.execCpyx c ord eng credit vd va s
  | .cpym c ord eng credit vd va vb => Sys2Proof.Machine.execCpym c ord eng credit vd va vb s
  | .publish c ord sys credit vd va => Sys2Proof.Machine.execPublish c ord sys credit vd va s
  | .coll c ord eng credit vd va => Sys2Proof.Machine.execColl c ord eng credit vd va s
  | .halo c ord eng credit vd va => Sys2Proof.Machine.execHalo c ord eng credit vd va s
  | .eqry c eng vd => Sys2Proof.Machine.execEqry c eng vd s
  | .mma c en fmt bar vd va => Sys2Proof.Machine.execMma c en fmt bar vd va s
  | .mmag c en fmt bar vd va => Sys2Proof.Machine.execMmag c en fmt bar vd va s
  | .mmaq c en fmt bar vd va => Sys2Proof.Machine.execMmaq c en fmt bar vd va s
  | .accz c va vb => Sys2Proof.Machine.execAccz c va vb s
  | .accrd c four vd va => Sys2Proof.Machine.execAccrd c four vd va s
  | .accwr c four va vb => Sys2Proof.Machine.execAccwr c four va vb s
  | .permt c va vb => Sys2Proof.Machine.execPermt c va vb s
  | .trace c anyHit vd va => Sys2Proof.Machine.execTrace c anyHit vd va s
  | .tracek c km1 vd va => Sys2Proof.Machine.execTracek c km1 vd va s
  | .march c vd va => Sys2Proof.Machine.execMarch c vd va s
  | .graft c vd va => Sys2Proof.Machine.execGraft c vd va s
  | .hitattr c vd va vb => Sys2Proof.Machine.execHitattr c vd va vb s
  | .frameout c vd va vb => Sys2Proof.Machine.execFrameout c vd va vb s
  | .srd c sr vd => Sys2Proof.Machine.execSrd c sr vd s
  | .swr c va => Sys2Proof.Machine.execSwr c va s
  | .trap c code => Sys2Proof.Machine.execTrap c code s
  | .rft c skip => Sys2Proof.Machine.execRft c skip s
  | .bkpt c => Sys2Proof.Machine.execBkpt c s
  | .classVResultLands op => Sys2Proof.Machine.execClassVResultLands op s
  | .storePerformed op => Sys2Proof.Machine.execStorePerformed op s
  | .returnStackSpill thr => Sys2Proof.Machine.execReturnStackSpill thr s
  | .returnStackFill thr => Sys2Proof.Machine.execReturnStackFill thr s
  | .waitExpiry thr => Sys2Proof.Machine.execWaitExpiry thr s
  | .yieldExpiry thr => Sys2Proof.Machine.execYieldExpiry thr s
  | .touchComplete op => Sys2Proof.Machine.execTouchComplete op s
  | .threadRetire thr => Sys2Proof.Machine.execThreadRetire thr s
  | .blockTableEntryGrant core part => Sys2Proof.Machine.execBlockTableEntryGrant core part s
  | .waiterRecord thr => Sys2Proof.Machine.execWaiterRecord thr s
  | .wake word => Sys2Proof.Machine.execWake word s
  | .formRetry thr => Sys2Proof.Machine.execFormRetry thr s
  | .waiterNotice core word => Sys2Proof.Machine.execWaiterNotice core word s
  | .engineCredit msg => Sys2Proof.Machine.execEngineCredit msg s
  | .abortDelivery msg => Sys2Proof.Machine.execAbortDelivery msg s
  | .queueTake ctx q => Sys2Proof.Machine.execQueueTake ctx q s
  | .placementAttempt die ctx => Sys2Proof.Machine.execPlacementAttempt die ctx s
  | .coreQueueStart core => Sys2Proof.Machine.execCoreQueueStart core s
  | .balanceInterval die => Sys2Proof.Machine.execBalanceInterval die s
  | .nodeBatchDispatch ctx q => Sys2Proof.Machine.execNodeBatchDispatch ctx q s
  | .nodeBatchTimeout ctx q => Sys2Proof.Machine.execNodeBatchTimeout ctx q s
  | .nodeEndMark ctx q => Sys2Proof.Machine.execNodeEndMark ctx q s
  | .launchCompletion launch => Sys2Proof.Machine.execLaunchCompletion launch s
  | .qeCoreCtxWrite die idx val => Sys2Proof.Machine.execQeCoreCtxWrite die idx val s
  | .coreOwnerChange core => Sys2Proof.Machine.execCoreOwnerChange core s
  | .xlInvCmd die val => Sys2Proof.Machine.execXlInvCmd die val s
  | .xlInvalidationDone die => Sys2Proof.Machine.execXlInvalidationDone die s
  | .frCmdRetry die thr ctx => Sys2Proof.Machine.execFrCmdRetry die thr ctx s
  | .frCmdSkip die thr ctx => Sys2Proof.Machine.execFrCmdSkip die thr ctx s
  | .frCmdKill die thr ctx => Sys2Proof.Machine.execFrCmdKill die thr ctx s
  | .frCmdIgnored die => Sys2Proof.Machine.execFrCmdIgnored die s
  | .frPend die => Sys2Proof.Machine.execFrPend die s
  | .peCmdPreempt ctx => Sys2Proof.Machine.execPeCmdPreempt ctx s
  | .peCmdKill ctx => Sys2Proof.Machine.execPeCmdKill ctx s
  | .peCmdPin ctx => Sys2Proof.Machine.execPeCmdPin ctx s
  | .peCmdRestore ctx => Sys2Proof.Machine.execPeCmdRestore ctx s
  | .peDrainDone => Sys2Proof.Machine.execPeDrainDone s
  | .peDrainTimeout => Sys2Proof.Machine.execPeDrainTimeout s
  | .peSaveDone => Sys2Proof.Machine.execPeSaveDone s
  | .ckCmdSave => Sys2Proof.Machine.execCkCmdSave s
  | .ckExchangeDone => Sys2Proof.Machine.execCkExchangeDone s
  | .ckCmdRestore => Sys2Proof.Machine.execCkCmdRestore s
  | .dbgCmdStop core part => Sys2Proof.Machine.execDbgCmdStop core part s
  | .dbgCmdResume core part => Sys2Proof.Machine.execDbgCmdResume core part s
  | .wpHitWrite core val => Sys2Proof.Machine.execWpHitWrite core val s
  | .sampleTag core part => Sys2Proof.Machine.execSampleTag core part s
  | .sampleRecord core part => Sys2Proof.Machine.execSampleRecord core part s
  | .svCmdGrant => Sys2Proof.Machine.execSvCmdGrant s
  | .svCmdRefuse => Sys2Proof.Machine.execSvCmdRefuse s
  | .svCmdGiveFrame => Sys2Proof.Machine.execSvCmdGiveFrame s
  | .svCmdIgnored => Sys2Proof.Machine.execSvCmdIgnored s
  | .svPend => Sys2Proof.Machine.execSvPend s
  | .tpCmdRelease => Sys2Proof.Machine.execTpCmdRelease s
  | .tpCmdMigrate => Sys2Proof.Machine.execTpCmdMigrate s
  | .tpCmdIgnored => Sys2Proof.Machine.execTpCmdIgnored s
  | .migrationPassEnd => Sys2Proof.Machine.execMigrationPassEnd s
  | .freezeCopyEnd => Sys2Proof.Machine.execFreezeCopyEnd s
  | .foCtlWrite stream val => Sys2Proof.Machine.execFoCtlWrite stream val s
  | .frameEncoded stream => Sys2Proof.Machine.execFrameEncoded stream s
  | .ebudRefill => Sys2Proof.Machine.execEbudRefill s
  | .thermalTrip => Sys2Proof.Machine.execThermalTrip s
  | .registerWrite off val => Sys2Proof.Machine.execRegisterWrite off val s
  | .peerDown peer => Sys2Proof.Machine.execPeerDown peer s
  | .peerRead peer off size => Sys2Proof.Machine.execPeerRead peer off size s
  | .peerWrite peer off bytes => Sys2Proof.Machine.execPeerWrite peer off bytes s
  | .leaseHoldExpiry line => Sys2Proof.Machine.execLeaseHoldExpiry line s
  | .peerResend op => Sys2Proof.Machine.execPeerResend op s
  | .engineResend cmd => Sys2Proof.Machine.execEngineResend cmd s
  | .ptpRefresh offset => Sys2Proof.Machine.execPtpRefresh offset s
  | .fillAliasWrite off bytes => Sys2Proof.Machine.execFillAliasWrite off bytes s
  | .hdmAccess off acc => Sys2Proof.Machine.execHdmAccess off acc s
  | .hostSnoop addr inval => Sys2Proof.Machine.execHostSnoop addr inval s
  | .taprootRd die sector => Sys2Proof.Machine.execTaprootRd die sector s
  | .taprootRdx die sector => Sys2Proof.Machine.execTaprootRdx die sector s
  | .taprootUp die sector => Sys2Proof.Machine.execTaprootUp die sector s
  | .taprootEv die sector dirty => Sys2Proof.Machine.execTaprootEv die sector dirty s
  | .downgradeProbe probe => Sys2Proof.Machine.execDowngradeProbe probe s
  | .invalidateProbe probe => Sys2Proof.Machine.execInvalidateProbe probe s
  | .probeAck probe => Sys2Proof.Machine.execProbeAck probe s
  | .evictionNotice core line => Sys2Proof.Machine.execEvictionNotice core line s
  | .l1ReadMiss core sector => Sys2Proof.Machine.execL1ReadMiss core sector s
  | .l1WriteUpgrade core sector => Sys2Proof.Machine.execL1WriteUpgrade core sector s
  | .reclassifyComplete frame => Sys2Proof.Machine.execReclassifyComplete frame s
  | .remoteWriteApply die msg => Sys2Proof.Machine.execRemoteWriteApply die msg s
  | .scratchRefill block page => Sys2Proof.Machine.execScratchRefill block page s
  | .cowCopyDone rec => Sys2Proof.Machine.execCowCopyDone rec s
  | .cowCopyError rec => Sys2Proof.Machine.execCowCopyError rec s
  | .cowReserveRetry op => Sys2Proof.Machine.execCowReserveRetry op s
  | .publishBroadcast cmd => Sys2Proof.Machine.execPublishBroadcast cmd s
  | .publishComplete cmd => Sys2Proof.Machine.execPublishComplete cmd s
  | .vretireComplete op => Sys2Proof.Machine.execVretireComplete op s
  | .sweep region => Sys2Proof.Machine.execSweep region s
  | .engineAccept thr => Sys2Proof.Machine.execEngineAccept thr s
  | .engineCommandStart cmd => Sys2Proof.Machine.execEngineCommandStart cmd s
  | .engineCommandComplete cmd => Sys2Proof.Machine.execEngineCommandComplete cmd s
  | .matrixAccept thr => Sys2Proof.Machine.execMatrixAccept thr s
  | .shareStart core => Sys2Proof.Machine.execShareStart core s
  | .matrixStep core => Sys2Proof.Machine.execMatrixStep core s
  | .shareReady mx rank => Sys2Proof.Machine.execShareReady mx rank s
  | .shareAbort mx rank => Sys2Proof.Machine.execShareAbort mx rank s
  | .commitNotice mx rank => Sys2Proof.Machine.execCommitNotice mx rank s
  | .abortNotice mx rank => Sys2Proof.Machine.execAbortNotice mx rank s
  | .keyLoad slot => Sys2Proof.Machine.execKeyLoad slot s
  | .zeroise => Sys2Proof.Machine.execZeroise s
  | .firmwareImage img => Sys2Proof.Machine.execFirmwareImage img s
  | .nonceRequest => Sys2Proof.Machine.execNonceRequest s
  | .debugUnlock tok => Sys2Proof.Machine.execDebugUnlock tok s
  | .spdmMeasurements => Sys2Proof.Machine.execSpdmMeasurements s
  | .coldStart => Sys2Proof.Machine.execColdStart s
  | .warmStart => Sys2Proof.Machine.execWarmStart s
  | .heartbeat peer => Sys2Proof.Machine.execHeartbeat peer s
  | .portUp port => Sys2Proof.Machine.execPortUp port s
  | .portDown port => Sys2Proof.Machine.execPortDown port s

end Sys2Proof.Machine
end

