-- ==== Sys2Proof/Machine/Moves.lean ====
section
/-! DEFINITION. One step of the machine: which moves are open (the gangs that the pickers form, the events of the units,
what the outside does, the end of the clk), and what one move does (spec/02_one_thread.md R30-R36,
spec/09_scheduling_hardware.md R183-R185, spec/95_what_each_step_holds.md; notes/assumptions/1). -/

namespace Sys2Proof.Machine

/-! ## The events that may be open -/

/-- An event of a unit: the meaning that exec gives its constructor, with its operands. -/
abbrev Event := State → Out

/-- Events of threads. -/
def State.threadEvents (s : State) : List Event :=
  s.threads.flatMap fun e =>
    (match e.2.status with
      | .wait _ _ _ => [execWaitExpiry e.1]
      | .yield _ => [execYieldExpiry e.1]
      | .exited => [execThreadRetire e.1]
      | .form _ _ _ _ _ => [execWaiterRecord e.1, execFormRetry e.1]
      | .held _ _ => [execEngineAccept e.1, execMatrixAccept e.1]
      | .run => (s.fetchFrames e.1).map fun f => execReclassifyComplete f
      | .fault | .sync _ => []) ++
    (match e.2.tabled with
      | .waits _ => [execBlockTableEntryGrant (coreOf e.1) (partOf e.1)]
      | .out | .held => [])

/-- Coherence requests for a sector that a core wants. -/
def sectorEvents (core sec : Nat) : List Event :=
  [execL1ReadMiss core sec, execL1WriteUpgrade core sec, execTaprootRd (core / 512) sec, execTaprootRdx (core / 512) sec, execTaprootUp (core / 512) sec]

/-- Coherence requests for the sector of an access that goes through the caches. -/
def State.accessEvents (s : State) (core : Nat) (a : Access) : List Event :=
  if s.usesL1 core a || s.needsL2 core a then sectorEvents core (s.paNow a / 64) else []

/-- The ends of outstanding operations. -/
def State.opLandings (s : State) : List Event :=
  s.ops.flatMap fun e => match e.2.kind with
    | .store _ _ | .sts _ _ _ _ => [execStorePerformed e.1]
    | .spill _ _ => [execReturnStackSpill e.2.thr]
    | .fill _ => [execReturnStackFill e.2.thr]
    | .touch _ _ _ _ => [execTouchComplete e.1]
    | .vretire _ _ => [execVretireComplete e.1]
    | .graft _ => [execClassVResultLands e.1, execWaiterRecord e.2.thr, execFormRetry e.2.thr]
    | .barw _ _ _ => []
    | _ => [execClassVResultLands e.1]

/-- What outstanding operations may wait for at a peer, a page, a frame's class or a scratchpad page. -/
def State.opWaits (s : State) : List Event :=
  s.ops.flatMap fun e =>
    (e.2.kind.accesses.flatMap fun x => [execPeerResend e.1, execCowReserveRetry e.1, execReclassifyComplete (s.paNow x.1 / 65536)]) ++
    (match e.2.kind with
      | .cctl _ pa => [execReclassifyComplete (pa / 65536)]
      | _ => []) ++
    (match e.2.kind.spad with
      | some (b, off, n, _, _) => (spadPages off n).map fun p => execScratchRefill b p
      | none => [])

/-- Events of outstanding operations. -/
def State.opEvents (s : State) : List Event :=
  s.opLandings ++ s.opWaits ++ s.ops.flatMap fun e => e.2.kind.accesses.flatMap fun x => s.accessEvents (coreOf e.2.thr) x.1

/-- The contexts whose entries some die's table holds. -/
def State.polled (s : State) : List Nat :=
  ([0, 1, 2, 3].flatMap fun d =>
    let b := (s.reg (Off.qe d 0)).toNat
    s.mem.filterMap fun c => if b ≤ c.1 ∧ c.1 < b + 131072 then some ((c.1 - b) / 128) else none).dedup

/-- Events of the queue engines, the placement and the arrays. -/
def State.workEvents (s : State) : List Event :=
  (s.polled.flatMap fun c => (List.range 32).flatMap fun q => [execQueueTake c q, execNodeBatchDispatch c q, execNodeBatchTimeout c q, execNodeEndMark c q]) ++
  (s.launches.flatMap fun e =>
    (if e.2.nextGrove < e.2.due ∧ e.2.refused = 0 then [execPlacementAttempt e.2.die e.2.ctx] else []) ++
    (if s.launchOver e.1 e.2 || e.2.node then [execLaunchCompletion e.1] else [])) ++
  (s.cores.flatMap fun e =>
    (if e.2.queue.isEmpty then [] else [execCoreQueueStart e.1]) ++
    (if e.2.nextOwner.isSome then [execCoreOwnerChange e.1] else []) ++
    (if e.2.array.isEmpty then [] else [execShareStart e.1, execMatrixStep e.1]))

/-- Events of the sampling (R388). -/
def State.sampleEvents (s : State) : List Event :=
  s.cores.flatMap fun e => (e.2.sampleAt.map fun x => execSampleTag e.1 x.1) ++ (e.2.samples.map fun x => execSampleRecord e.1 x.part)

/-- Events of messages, wakes, engines and matrix operations. -/
def State.unitEvents (s : State) : List Event :=
  (s.msgs.flatMap fun e => [execEngineCredit e.1, execAbortDelivery e.1]) ++
  (s.wakes.map fun w => execWake w.1) ++
  (s.cmds.flatMap fun e => [execEngineCommandStart e.1, execEngineResend e.1, execPublishBroadcast e.1, execPublishComplete e.1, execEngineCommandComplete e.1]) ++
  (s.mxOps.flatMap fun e => e.2.shares.flatMap fun x =>
    [execShareReady e.1 x.rank, execShareAbort e.1 x.rank, execCommitNotice e.1 x.rank, execAbortNotice e.1 x.rank]) ++
  (s.cows.flatMap fun c => [execCowCopyDone c.page, execCowCopyError c.page]) ++
  (s.sweeps.map fun r => execSweep r) ++
  (s.inflight.flatMap fun e => e.2.dies.map fun d => execRemoteWriteApply d e.1)

/-- Events of the coherence protocol. -/
def State.coherenceEvents (s : State) : List Event :=
  (s.prefs.flatMap fun p => execReclassifyComplete (p.sector / 1024) :: sectorEvents p.core p.sector) ++
  (s.probes.flatMap fun e => [execDowngradeProbe e.1, execInvalidateProbe e.1, execProbeAck e.1]) ++
  (s.notices.map fun n => execEvictionNotice n.core n.line) ++
  (s.taproot.flatMap fun e => [0, 1, 2, 3].flatMap fun d => [execTaprootEv d e.1 false, execTaprootEv d e.1 true]) ++
  (s.wnotes.map fun n => execWaiterNotice n.1 n.2.1)

/-- Events of the blocks in BAR0, of the fabric and of power. -/
def State.blockEvents (s : State) : List Event :=
  (s.invals.map fun i => execXlInvalidationDone i.1) ++
  (s.frQueue.map fun e => execFrPend e.1) ++ (if s.svQueue.isEmpty then [] else [execSvPend]) ++
  (if s.pe.stage = .idle then [] else [execPeDrainDone, execPeDrainTimeout, execPeSaveDone]) ++
  (if s.ck.stage = 0 then [] else [execCkExchangeDone]) ++
  (if s.migration.isSome then [execMigrationPassEnd, execFreezeCopyEnd] else []) ++
  (s.streams.map fun e => execFrameEncoded e.1) ++
  (if s.tripped || decide (115 ≤ bits (s.reg (Off.pwr 0x18)) 7 0) then [execThermalTrip] else []) ++
  (s.granted.map fun (l : Lease) => execLeaseHoldExpiry l.line) ++
  (if bits (s.reg (Off.fb 0x38)) 31 0 < s.ptp then (List.range 1024).map (fun p => execPeerDown p) else [])

/-- Every event that some unit of the package might take now. -/
def State.events (s : State) : List Event :=
  s.threadEvents ++ s.opEvents ++ s.workEvents ++ s.sampleEvents ++ s.unitEvents ++ s.coherenceEvents ++ s.blockEvents

/-- An event with an effect now (R5). -/
def State.effective (s : State) (e : Event) : Bool :=
  match e s with
  | .next t => t != s
  | .fault _ | .refused _ => true

/-- Nothing but the caches holds the operation back. -/
def State.readyBut (s : State) (seq : Nat) (o : Op) : Bool :=
  s.canPerformBut seq o (o.kind.accesses.any (·.2) && (s.mustWait o).isNone) && o.kind.accesses.all fun x =>
    s.versionOk x.1 x.2 && !s.frozen (s.paNow x.1) && s.classOk (dieOf o.thr) (s.paNow x.1) x.2 && (!x.2 || s.leaseFree (s.paNow x.1))

/-- The requests of the coherence protocol that must be served: of the operations that nothing else holds back, and those that stand at
a home already (R394). -/
def State.dueRequests (s : State) : List Event :=
  (s.ops.flatMap fun e => if s.readyBut e.1 e.2 then e.2.kind.accesses.flatMap fun x => s.accessEvents (coreOf e.2.thr) x.1 else []) ++
  s.homeQ.flatMap fun r => [execTaprootRd r.1 r.2.1, execTaprootRdx r.1 r.2.1, execTaprootUp r.1 r.2.1]

/-- What another thread's action sets going, what is on its way already, and the work of every unit up to a launch's end: what ends an
operation comes first, and the requests that could take a sector away again come last. None of it starts more of its kind without end. -/
def State.promised (s : State) : List Event :=
  (s.inflight.flatMap fun e => e.2.dies.map fun d => execRemoteWriteApply d e.1) ++
  s.threadEvents ++ s.opLandings ++ s.unitEvents ++
  (s.probes.flatMap fun e => [execDowngradeProbe e.1, execInvalidateProbe e.1, execProbeAck e.1]) ++
  (s.notices.map fun n => execEvictionNotice n.core n.line) ++ (s.wnotes.map fun n => execWaiterNotice n.1 n.2.1) ++
  (s.invals.map fun i => execXlInvalidationDone i.1) ++ (if s.migration.isSome then [execMigrationPassEnd, execFreezeCopyEnd] else []) ++
  (s.granted.map fun (l : Lease) => execLeaseHoldExpiry l.line) ++ (if s.ck.stage = 0 ∨ s.ck.stage = 2 then [] else [execCkExchangeDone]) ++ s.workEvents ++ s.opWaits ++ s.dueRequests

/-- In some clk, as far apart as the part pleases, that work is done before the clk ends: so a wait on a co-resident thread goes on
once that thread has acted, and what the units have taken on ends (R164, R389; notes/assumptions/43). -/
def State.promisedNow (s : State) : List Event :=
  if s.clk = 0 then [] else if s.clk % (Config.patience + 1) = 0 then s.promised else []

/-- Events that this clk does not end without: waits that have passed (R110, R111), a freed table entry (R158), the
balancing (R183), the end of a sampling interval (R388), the refill at a microsecond and the rails' end a millisecond after a trip at the latest (R438), results at the bound of their latency,
TOUCHes whose page is there or whose request was answered (R144), and what R164 promises. -/
def State.urgent (s : State) : List Event :=
  (s.threads.filterMap fun e => match e.2.status with
    | .wait _ _ _ => some (execWaitExpiry e.1)
    | .yield _ => some (execYieldExpiry e.1)
    | _ => none) ++
  (s.threads.filterMap fun e => match e.2.tabled with
    | .waits _ => some (execBlockTableEntryGrant (coreOf e.1) (partOf e.1))
    | _ => none) ++
  (if s.clk % 256 = 0 ∧ s.cores.any (fun e => !e.2.queue.isEmpty) then [execBalanceInterval 0, execBalanceInterval 1, execBalanceInterval 2, execBalanceInterval 3] else []) ++
  (if s.refilled < s.ptp / 1000 then [execEbudRefill] else []) ++
  (if s.tripped && decide (s.refilled % 1000 = 0) then [execThermalTrip] else []) ++
  (s.cores.flatMap fun e => e.2.sampleAt.map fun x => execSampleTag e.1 x.1) ++
  (s.ops.filterMap fun e => match e.2.latest with
    | some c => if c ≤ s.clk then some (execClassVResultLands e.1) else none
    | none => none) ++
  (s.ops.filterMap fun e => match e.2.kind with
    | .touch va ctx _ ans => if ans.isSome || (s.walk (Agent.core e.2.thr) ctx va).any (·.resident) then some (execTouchComplete e.1) else none
    | _ => none) ++ s.promisedNow

/-! ## Moves -/

/-- What the outside world can do to the package. -/
def outside : Instr → Bool
  | .heartbeat _ | .portUp _ | .portDown _ | .peerRead _ _ _ | .peerWrite _ _ _ | .ptpRefresh _ => true
  | .hdmAccess _ _ | .fillAliasWrite _ _ | .hostSnoop _ _ | .registerWrite _ _ | .qeCoreCtxWrite _ _ _ | .xlInvCmd _ _ => true
  | .frCmdRetry _ _ _ | .frCmdSkip _ _ _ | .frCmdKill _ _ _ | .frCmdIgnored _ => true
  | .peCmdPreempt _ | .peCmdKill _ | .peCmdPin _ | .peCmdRestore _ | .ckCmdSave | .ckCmdRestore => true
  | .dbgCmdStop _ _ | .dbgCmdResume _ _ | .wpHitWrite _ _ | .foCtlWrite _ _ => true
  | .svCmdGrant | .svCmdRefuse | .svCmdGiveFrame | .svCmdIgnored | .tpCmdRelease | .tpCmdMigrate | .tpCmdIgnored => true
  | .keyLoad _ | .zeroise | .firmwareImage _ | .nonceRequest | .debugUnlock _ | .spdmMeasurements | .coldStart | .warmStart => true
  | _ => false

/-- What a package whose rails are gone answers to (R438). -/
def starts : Instr → Bool
  | .coldStart | .warmStart | .firmwareImage _ => true
  | _ => false

/-- A debug stop and a resume act at the end of a clk (R385). -/
def endsClk : Instr → Bool
  | .dbgCmdStop _ _ => true
  | .dbgCmdResume _ _ => true
  | _ => false

/-- One move. -/
inductive Move where
  | issue (gang : List Nat)
  | event (run : Event)
  | input (e : Instr)
  | tick

/-- An access from a peer waits for a page that is COPYING or frozen (R262, R266), one of a peer or the host for the homes of its sectors, a
snoop behind the requests held there (R394, R407), a loaded key until no home works on a sector of its slot (R434), and a command of the pre-emption block for the pages of the save area that it reads (R442). -/
def State.inputHeld (s : State) : Instr → Bool
  | .peerRead _ off size => s.incomingHeld off size .read
  | .peerWrite _ off bytes => s.incomingHeld off bytes.length .write
  | .hdmAccess off k => !s.homeFree off (hdmLen k)
  | .fillAliasWrite off bytes => !s.homeFree off bytes.length
  | .keyLoad k => s.keyBusy k.slot
  | .svCmdGiveFrame => s.giveHeld
  | .hostSnoop addr _ => s.snoopHeld ((2 ^ 51 + addr % 2 ^ 51) / 64)
  | .peCmdPreempt ctx | .peCmdKill ctx | .peCmdPin ctx | .peCmdRestore ctx => s.areaHeld ctx
  | _ => false

/-- The head of the outside's moves, if it may come now. -/
def State.inputMove (s : State) (busy : Bool) : List Move :=
  match s.inputs with
  | [] => []
  | e :: _ => if (endsClk e && busy) || (s.powered && s.inputHeld e) then [] else [.input e]

/-- The clk has had its moves: besides what it may not end without, only gangs and the outside move now. No unit's work of one clk goes on
for ever, as two requests that take a sector from each other would (R164, R389; notes/assumptions/43). -/
def State.clkSpent (s : State) : Bool := decide (s.clkDraws + Config.clkMoves ≤ s.draws)

/-- Every move that is open: while a gang waits to issue the clk does not end. -/
def State.moves (s : State) : List Move :=
  if !s.powered then s.inputMove false ++ [.tick] else
  match s.urgent.find? s.effective with
  | some e => [.event e]
  | none =>
    let gs := s.gangs
    let es := s.events.filter s.effective
    gs.map Move.issue ++ (if es.isEmpty || s.clkSpent then [] else es.map Move.event) ++ s.inputMove (!gs.isEmpty) ++ (if gs.isEmpty then [.tick] else [])

/-- The move taken: the open one, or a free choice among them (notes/assumptions/1). -/
def State.nextMove (s : State) : Move :=
  match s.moves with
  | [] => .tick
  | [m] => m
  | m :: t => (m :: t).getD (s.pick 0 % (t.length + 1)) m

/-! ## What a move does -/

/-- After a gang's turn: its partition has formed its gang, and its members leave their table entries (R158, R159). -/
def State.turnDone (s : State) (g : List Nat) : State :=
  match g with
  | [] => s
  | k :: _ => g.foldl (fun x j => x.updThread j fun t => { t with tabled := .out }) (s.updCore (coreOf k) fun c => { c with issued := c.issued ++ [partOf k] })

/-- After a gang's issue: a tagged instruction is followed (R388). -/
def State.afterIssue (before s : State) : State := (s.tagIssue before).turnDone before.gang

/-- An engine command or matrix instruction whose acceptance held it has issued: a tagged partition follows it from there (R271, R314, R388). -/
def State.tagAccepted (s before : State) : State :=
  before.threads.foldl (fun x e => match e.2.status, (s.thr e.1).status with
    | .held _ _, .held _ _ => x
    | .held w g, _ =>
      if g.head? = some e.1 ∧ (s.thread? e.1).any (fun t => t.pc != e.2.pc || decide (e.2.faults < t.faults)) = true then x.tagIssue { before with gang := g, inst := w } else x
    | _, _ => x) s

/-- THE ISSUE of a gang (R159): its members meet a fault before the instruction, a fault of the fetch or ILLEGAL, or exec
runs the instruction. -/
def State.issueGang (s : State) (g : List Nat) : Out :=
  match g with
  | [] => .next s
  | k :: _ =>
    let r := s.front k
    let at_ := fun (w : Word) => { r.2 with gang := g, inst := w }
    let all := fun (w : Word) (f : FaultInfo) => (at_ w).raiseAll (g.map fun j => (j, (s.thr j).pc, f))
    match r.1 with
    | .pending => .next ((s.raiseDue g).turnDone g)
    | .bad f => .next ((at_ 0).afterIssue (all 0 f))
    | .ill w => .next ((at_ w).afterIssue (all w { cause := .illegal }))
    | .inst w i =>
      match exec i (at_ w) with
      | .next t => .next ((at_ w).afterIssue t)
      | .fault x => .fault x
      | .refused x => .refused x

/-- After every move: the block tables, the clk from which a thread counts as ready, the stores that a lease holds (R414), and the next number
of the free choices. -/
def State.moved (s : State) : State := { s.settle.ageAll.holdOps with draws := s.draws + 1, gang := [] }

/-- An outside move's own effect; one that the package cannot take now is lost. -/
def State.takeInput (s : State) (e : Instr) : Out :=
  let s1 := { s with inputs := s.inputs.drop 1 }
  if outside e && (s.powered || starts e) then
    match exec e s1 with
    | .next t => .next (if endsClk e then t.tick else t)
    | .fault x => .fault x
    | .refused x => .refused x
  else .next s1

/-- What a move does. -/
def State.act (s : State) (m : Move) : Out :=
  let r := match m with
    | .issue g => s.issueGang g
    | .event run => (match run s with
      | .next t => .next (t.tagAccepted s)
      | r => r)
    | .input e => s.takeInput e
    | .tick => .next s.tick
  match r with
  | .next t => .next t.moved
  | .fault x => .fault x
  | .refused x => .refused x

end Sys2Proof.Machine
end

