-- ==== Sys2Proof/Machine/Step.lean ====
section
/-! DEFINITION. The step of the machine, and a state whose next step runs a given instruction. -/

namespace Sys2Proof.Machine

/-- One step: the move that is open, or a free choice among the open ones (R5; notes/assumptions/1). -/
def step (s : State) : Host.Outcome State Fault Refusal := s.act s.nextMove

/-- The state s with an instruction's bits where step fetches its next instruction (notes/assumptions/41). -/
def State.withFetchWord (s : State) (_nbits w : Nat) : State :=
  match s.nextMove with
  | .issue (k :: _) => s.pokeFetch k w
  | .issue [] | .event _ | .input _ | .tick => s.loadOne w

end Sys2Proof.Machine
end

