-- ==== Sys2Proof/Safety.lean ====
section
/-! DEFINITION. The terms in which claims are stated: a gang of one thread, an instruction that executes, what a thread and the
state are after the kinds of instruction, the values that rules give, and what an invariant asks (spec/02_one_thread.md
R20-R40, spec/05_isa_integer_control.md R84-R101, spec/08_parallel_work.md R158). -/

namespace Sys2Proof.Machine

/-! ## The gang and the issue -/

/-- The gang is thread k alone, which stands as t. -/
structure State.Alone (s : State) (k : Nat) (t : Thread) : Prop where
  gang : s.gang = [k]
  here : s.threads.find k = some t

/-- An instruction with issue fields q executes in t: every register it names is below the thread's count (R20), its guard
is true (R34), no register it reads is marked (R276, R357), and the thread is running. -/
structure Issue.Executes (q : Issue) (t : Thread) (named reads : List Nat) : Prop where
  range : ∀ r ∈ named, r < t.n
  guard : q.holds t = true
  clean : ∀ r ∈ reads, t.marks.find r = none
  runs  : t.status = .run

/-- The flag an instruction names, as the landing of its fall (R33). -/
def Issue.falls (q : Issue) : List Landing :=
  match q.flag with
  | some f => [.flagDown f]
  | none => []

/-- A thread whose instruction has issued and goes on at pc: the next one issues after the stall and its fetch (R30, R67), and
the named flag rises at the end of the clk (R33). -/
def Thread.wentOn (t : Thread) (s : State) (q : Issue) (pc : Pc) : Thread :=
  let u := { t with readyAt := s.clk + 1 + q.stall + Config.fetchDelay s.draws, since := 0, skipWatch := false, pc := pc }
  match q.flag with
  | some f => u.queue { landClk := s.clk, seq := s.nextSeq, what := .flagUp f }
  | none => u

/-- Landings queued for a clk. -/
def Thread.queueAll (t : Thread) (seq clk : Nat) (l : List Landing) : Thread :=
  l.foldl (fun t x => t.queue { landClk := clk, seq := seq, what := x }) t

/-- The PC past an instruction (R22). -/
def Thread.past (t : Thread) (q : Issue) : Pc := t.pc + BitVec.ofNat 57 q.len

/-- THE ANSWER of exec to instruction i: a next state that is s1 but for its threads, of which thread k is u and every other one
stands as in s1. -/
def State.Gives (s : State) (i : Instr) (k : Nat) (u : Thread) (s1 : State) : Prop :=
  ∃ ts, exec i s = .next { s1 with threads := ts } ∧ Tbl.find ts k = some u ∧ ∀ j, j ≠ k → Tbl.find ts j = s1.threads.find j

/-- The thread after a fixed-latency instruction: its results, and the fall of its flag, land at the end of clk t + L − 1 (R31,
R33), and it goes on. -/
def Thread.afterFixed (t : Thread) (s : State) (q : Issue) (lat : Nat) (l : List Landing) : Thread :=
  ((t.queueAll s.nextSeq (s.clk + lat - 1) (l ++ q.falls)).succeeded).wentOn s q (t.past q)

/-- The state but for its threads after an instruction that takes one issue number. -/
def State.numbered (s : State) : State := { s with nextSeq := s.nextSeq + 1 }

/-- What an instruction of variable latency leaves outstanding. -/
structure Pending where
  kind : OpKind
  sync : Bool
  ord  : Order := {}
  lat  : Nat × Option Nat := (0, none)
  also : List Landing := []

/-- The operation that thread k, standing as t, leaves outstanding. -/
def Pending.op (p : Pending) (s : State) (q : Issue) (k : Nat) (t : Thread) : Op :=
  { thr := k, recv := [k], pc := t.pc, word := s.inst, issueClk := s.clk, earliest := s.clk + p.lat.1 - 1, latest := p.lat.2.map (s.clk + · - 1)
    flag := q.flag, sync := p.sync, ord := p.ord, also := p.also, kind := p.kind }

/-- The state but for its threads once the operation stands under the next issue number. -/
def State.withOp (s : State) (q : Issue) (k : Nat) (t : Thread) (p : Pending) : State :=
  { s with ops := s.ops.put s.nextSeq (p.op s q k t), nextSeq := s.nextSeq + 1 }

/-- The thread after an instruction that leaves an operation outstanding: a synchronous one holds it (R35), and it goes on. -/
def Thread.afterOp (t : Thread) (s : State) (q : Issue) (p : Pending) : Thread :=
  (if p.sync then { t with status := .sync s.nextSeq } else t.succeeded).wentOn s q (t.past q)

/-- The thread that a control instruction makes of u: its flag, if it names one, rises and falls in the issue clk (R103), and it
goes on at the PC of u. -/
def Thread.afterControl (u : Thread) (s : State) (q : Issue) : Thread :=
  ((u.queueAll s.nextSeq s.clk q.falls).succeeded).wentOn s q u.pc

/-- The thread that an instruction holds while it does not issue past itself: u, held by operation n, going on at the PC of u. -/
def Thread.heldOn (u : Thread) (n : Nat) (s : State) (q : Issue) : Thread := ({ u with status := .sync n }).wentOn s q u.pc

/-- A gang whose members are different threads, all running, each of whom the instruction may execute in (R20, R276); the
instruction has no uniform bit. -/
structure State.Together (s : State) (q : Issue) (named reads : List Nat) : Prop where
  nodup : s.gang.Nodup
  apart : q.uniform = false
  here  : ∀ k ∈ s.gang, ∃ t, s.threads.find k = some t ∧ t.status = .run ∧ (∀ r ∈ named, r < t.n) ∧ ∀ r ∈ reads, t.marks.find r = none

/-- The members of the gang with a true guard (R191). -/
def State.takers (s : State) (q : Issue) : List Nat := s.gang.filter fun k => q.holds (s.thr k)

/-- Two threads stand in one bundle (R191). -/
def sameBundle (j k : Nat) : Bool := j / 32 == k / 32

/-- THE ANSWER of exec to a bundle-wide instruction: every taker k, the n-th of them, has its operation p k outstanding under its own
issue number and goes on (R163, R191). -/
def State.GivesEach (s : State) (i : Instr) (q : Issue) (p : Nat → Pending) : Prop :=
  ∃ s1, exec i s = .next s1 ∧ s1.mem = s.mem ∧ ∀ n k, (s.takers q)[n]? = some k →
    s1.ops.find (s.nextSeq + n) = some ((p k).op s q k (s.thr k)) ∧
    s1.threads.find k = some ((s.thr k).afterOp { s with nextSeq := s.nextSeq + n } q (p k))

/-- The thread after an instruction that some unit has taken under the next issue number: held until that is done when it is
synchronous, and going on (R35). -/
def Thread.handedOver (t : Thread) (s : State) (q : Issue) (sync : Bool) : Thread := t.afterOp s q { kind := .result [], sync := sync }

/-- The command that thread k, standing as t, hands to engine e: its operand block, token register, flag and credit barrier, and for
an ordered one the commands that it comes after, and the writes that its issue covers (R237, R273, R279, R291). -/
def State.asks (s : State) (c : Ctl) (ord : Bool) (e : Nat) (credit : Option BarRef) (kind : CmdKind) (n : Nat) (vd va : Reg) (k : Nat) (t : Thread) : Cmd :=
  let b := s.blocks.find t.blk
  { engine := e, kind := kind, thr := k, recv := [k], ctx := s.ctxOf t, die := dieOf k, launch := b.elim 0 (·.launch), grove := b.elim 0 (·.grove)
    blkId := t.blk, pc := t.pc, regs := (List.range n).map fun i => t.reg (va.toNat + i), credit := credit.bind (s.barHome t)
    creditBad := credit.any fun r => (s.barHome t r).isNone, token := vd.toNat, flag := (issue64 c).flag, sync := (issue64 c).flag.isNone, ordered := ord
    past := s.issuePast k [k], handed := !kind.handsOver, after := if ord then (s.cmds.filter fun x => x.2.recv.contains k).map (·.1) else [] }

/-- The matrix operation that thread k, standing as t, asks for (R309, R310). -/
def State.asksMatrix (s : State) (c : Ctl) (en : BitVec 2) (fmt : TyCode) (gather perm : Bool) (bar : Option BarRef) (vd va : Reg) (k : Nat) (t : Thread) : MxOp :=
  { issuer := k, recv := [k], grove := (s.blocks.find t.blk).elim 0 (·.grove), pc := t.pc, word := s.inst, fmt := fmt, gather := gather, perm := perm
    energy := en.toNat, a0 := t.reg va.toNat, a1 := t.reg (va.toNat + 1), a2 := t.reg (va.toNat + 2), bar := bar, token := some vd.toNat
    flag := (issue64 c).flag, sync := (issue64 c).flag.isNone, shares := [], past := s.hbPast [k] (some s.nextSeq), place := s.placeOf k }

/-- Thread k of h, alone in its gang, is held at instruction i with the word w of it, its partition issues, no fault is due before that
instruction, and s is h with the thread on its way again at it (R144, R271, R314, R316, R369, R385). -/
structure State.Holds (h : State) (k : Nat) (i : Instr) (w : Word) (s : State) : Prop where
  held : (h.thr k).status = .held w [k]
  word : decodeTableWord 64 w.toNat = some i
  free : h.mayIssue k (h.thr k) = true ∧ (h.thr k).faultDue = false
  goes : s = { h with threads := h.threads.upd k fun t => { t with status := .run }, gang := [k], inst := w }

/-- A core's array holds one command more. -/
def State.withArray (s : State) (core : Nat) (a : ArrayCmd) : State := s.updCore core fun c => { c with array := c.array ++ [a] }

/-- Operation op of thread k has ended with landings l: it is gone, they stand to land in its thread at the end of this clk with its
flag's fall and the end of its hold (R31, R33, R35), and every other thread is as it was. -/
structure State.Landed (s s2 : State) (op : Nat) (o : Op) (k : Nat) (l : List Landing) : Prop where
  gone   : s2.ops.find op = none
  thread : s2.threads.find k = (s.threads.find k).map fun t => t.queueAll op s.clk (o.ending l)
  others : ∀ j, j ≠ k → s2.threads.find j = s.threads.find j

/-- Operation op stands outstanding for thread k alone, not with a peer, and nothing holds it back (R39, R204, R215, R222, R229-R239). -/
structure State.Free (s : State) (op : Nat) (o : Op) (k : Nat) (excl : Bool) : Prop where
  stands : s.ops.find op = some o
  mine   : o.recv = [k] ∧ o.thr = k
  home   : o.kind.peerAccess = none
  free   : s.canPerform op o excl = true
  thread : ∃ t, s.threads.find k = some t ∧ (t.status = .run ∨ ∃ n, t.status = .sync n)

/-- The bytes of an access lie in one sector of memory in canonical form, whose data stand under the access's key or under none
(R254). -/
structure State.Plain (s : State) (a : Access) : Prop where
  wf     : Mem.wf s.mem = true
  sector : ∀ i, i < a.size → (s.paNow a + i) / 64 = s.paNow a / 64
  key    : s.keyTags.find (s.paNow a / 64) = none ∨ s.keyTags.find (s.paNow a / 64) = some (s.keyGen a.key)

/-- Memory of s2 is that of s but for n bytes from pa on, which hold the low bytes of v in little-endian order (R2). -/
def State.Wrote (s s2 : State) (pa n : Nat) (v : Word) : Prop :=
  ∀ x, Mem.read s2.mem x = if pa ≤ x ∧ x < pa + n then v.extractLsb' (8 * (x - pa)) 8 else Mem.read s.mem x

/-- A barrier once what has reached it is counted: with every arrival in and a balance of zero the phase completes (R193, R194). -/
def Barrier.settled (b : Barrier) : Barrier :=
  if b.arrivals = b.expected ∧ b.balance = 0 then
    { phase := (b.phase + 1) % 2 ^ 32, expected := b.expected - b.fall, arrivals := 0, balance := 0, abort := false, last := if b.abort then 1 else 0, fall := 0, arrived := [] }
  else b

/-- A barrier but for the writes that its releases cover. -/
def Barrier.counts (b : Barrier) : Barrier := { b with past := [], done := [] }

/-- A barrier that thread k has arrived at (R193). -/
def Barrier.withArrival (b : Barrier) (k : Nat) : Barrier :=
  { b with arrivals := b.arrivals + 1, arrived := if k ∈ b.arrived then b.arrived else b.arrived ++ [k] }

/-- The state that an answer gives, or else s. -/
def Out.orElse (o : Out) (s : State) : State :=
  match o with
  | .next t => t
  | .fault _ | .refused _ => s

/-- exec answers a next state to instruction i, and ok holds of it. -/
def State.Leads (s : State) (i : Instr) (ok : State → Prop) : Prop := ∃ s2, exec i s = .next s2 ∧ ok s2

/-- The items that wait in the queues of the cores (R182). -/
def State.inQueue (s : State) (x : Nat × Nat) : Prop := ∃ c, x ∈ (s.core c).queue

/-- One member of the gang after another, each as if it were the gang. -/
def State.oneByOne (s : State) (i : Instr) (g : List Nat) : State :=
  { g.foldl (fun x k => Out.orElse (exec i { x with gang := [k] }) x) s with gang := s.gang }

/-! ## The fields of an instruction -/

/-- n registers from r on. -/
def run (r : Reg) (n : Nat) : List Nat := (List.range n).map (r.toNat + ·)

/-- How an instruction issues and the registers that its fields name, with the blocks and runs that its entry gives (R20, R65-R67);
an event has neither. -/
def Instr.fields : Instr → Option (Issue × List Nat)
  | .c16Mov st vd vb => some (issue16 st, [vd.toNat, vb.toNat])
  | .c16Movi st vd _ => some (issue16 st, [vd.toNat])
  | .c16Add st vd vb => some (issue16 st, [vd.toNat, vb.toNat])
  | .c16Sub st vd vb => some (issue16 st, [vd.toNat, vb.toNat])
  | .c16Addi st vd _ => some (issue16 st, [vd.toNat])
  | .c16And st vd vb => some (issue16 st, [vd.toNat, vb.toNat])
  | .c16Or st vd vb => some (issue16 st, [vd.toNat, vb.toNat])
  | .c16Xor st vd vb => some (issue16 st, [vd.toNat, vb.toNat])
  | .c16Shli st vd _ => some (issue16 st, [vd.toNat])
  | .c16Shri st vd _ => some (issue16 st, [vd.toNat])
  | .c16Sari st vd _ => some (issue16 st, [vd.toNat])
  | .c16FaddD st vd vb => some (issue16 st, [vd.toNat, vb.toNat])
  | .c16FsubD st vd vb => some (issue16 st, [vd.toNat, vb.toNat])
  | .c16FmulD st vd vb => some (issue16 st, [vd.toNat, vb.toNat])
  | .c16FminD st vd vb => some (issue16 st, [vd.toNat, vb.toNat])
  | .c16FmaxD st vd vb => some (issue16 st, [vd.toNat, vb.toNat])
  | .i32Add k vd va vb => some (issue32 k, [vd.toNat, va.toNat, vb.toNat])
  | .i32Sub k vd va vb => some (issue32 k, [vd.toNat, va.toNat, vb.toNat])
  | .i32Mul k vd va vb => some (issue32 k, [vd.toNat, va.toNat, vb.toNat])
  | .i32MulhS64 k vd va vb => some (issue32 k, [vd.toNat, va.toNat, vb.toNat])
  | .i32MulhN64 k vd va vb => some (issue32 k, [vd.toNat, va.toNat, vb.toNat])
  | .i32MinS64 k vd va vb => some (issue32 k, [vd.toNat, va.toNat, vb.toNat])
  | .i32MinN64 k vd va vb => some (issue32 k, [vd.toNat, va.toNat, vb.toNat])
  | .i32MaxS64 k vd va vb => some (issue32 k, [vd.toNat, va.toNat, vb.toNat])
  | .i32MaxN64 k vd va vb => some (issue32 k, [vd.toNat, va.toNat, vb.toNat])
  | .i32AbsS64 k vd va => some (issue32 k, [vd.toNat, va.toNat])
  | .i32Neg k vd va => some (issue32 k, [vd.toNat, va.toNat])
  | .i32And k vd va vb => some (issue32 k, [vd.toNat, va.toNat, vb.toNat])
  | .i32Andn k vd va vb => some (issue32 k, [vd.toNat, va.toNat, vb.toNat])
  | .i32Or k vd va vb => some (issue32 k, [vd.toNat, va.toNat, vb.toNat])
  | .i32Xor k vd va vb => some (issue32 k, [vd.toNat, va.toNat, vb.toNat])
  | .i32Not k vd va => some (issue32 k, [vd.toNat, va.toNat])
  | .i32Shl k vd va vb => some (issue32 k, [vd.toNat, va.toNat, vb.toNat])
  | .i32Shr k vd va vb => some (issue32 k, [vd.toNat, va.toNat, vb.toNat])
  | .i32Sar k vd va vb => some (issue32 k, [vd.toNat, va.toNat, vb.toNat])
  | .i32Rot k vd va vb => some (issue32 k, [vd.toNat, va.toNat, vb.toNat])
  | .i32Shli k vd va _ => some (issue32 k, [vd.toNat, va.toNat])
  | .i32Shri k vd va _ => some (issue32 k, [vd.toNat, va.toNat])
  | .i32Sari k vd va _ => some (issue32 k, [vd.toNat, va.toNat])
  | .i32Popc k vd va => some (issue32 k, [vd.toNat, va.toNat])
  | .i32Clz k vd va => some (issue32 k, [vd.toNat, va.toNat])
  | .i32Ctz k vd va => some (issue32 k, [vd.toNat, va.toNat])
  | .i32Brev k vd va => some (issue32 k, [vd.toNat, va.toNat])
  | .i32Addi k vd va _ => some (issue32 k, [vd.toNat, va.toNat])
  | .i32FaddD k vd va vb => some (issue32 k, [vd.toNat, va.toNat, vb.toNat])
  | .i32FsubD k vd va vb => some (issue32 k, [vd.toNat, va.toNat, vb.toNat])
  | .i32FmulD k vd va vb => some (issue32 k, [vd.toNat, va.toNat, vb.toNat])
  | .i32FminD k vd va vb => some (issue32 k, [vd.toNat, va.toNat, vb.toNat])
  | .i32FmaxD k vd va vb => some (issue32 k, [vd.toNat, va.toNat, vb.toNat])
  | .i32FabsD k vd va => some (issue32 k, [vd.toNat, va.toNat])
  | .i32FnegD k vd va => some (issue32 k, [vd.toNat, va.toNat])
  | .i32FaddF k vd va vb => some (issue32 k, [vd.toNat, va.toNat, vb.toNat])
  | .i32FsubF k vd va vb => some (issue32 k, [vd.toNat, va.toNat, vb.toNat])
  | .i32FmulF k vd va vb => some (issue32 k, [vd.toNat, va.toNat, vb.toNat])
  | .i32FminF k vd va vb => some (issue32 k, [vd.toNat, va.toNat, vb.toNat])
  | .i32FmaxF k vd va vb => some (issue32 k, [vd.toNat, va.toNat, vb.toNat])
  | .i32FabsF k vd va => some (issue32 k, [vd.toNat, va.toNat])
  | .i32FnegF k vd va => some (issue32 k, [vd.toNat, va.toNat])
  | .i32FclassD k vd va => some (issue32 k, [vd.toNat, va.toNat])
  | .i32FgetexpD k vd va => some (issue32 k, [vd.toNat, va.toNat])
  | .i32FgetmanD k vd va => some (issue32 k, [vd.toNat, va.toNat])
  | .i32FclassF k vd va => some (issue32 k, [vd.toNat, va.toNat])
  | .i32FgetexpF k vd va => some (issue32 k, [vd.toNat, va.toNat])
  | .i32FgetmanF k vd va => some (issue32 k, [vd.toNat, va.toNat])
  | .i32SetpEq k _ va vb => some (issue32 k, [va.toNat, vb.toNat])
  | .i32SetpNe k _ va vb => some (issue32 k, [va.toNat, vb.toNat])
  | .i32SetpLtS64 k _ va vb => some (issue32 k, [va.toNat, vb.toNat])
  | .i32SetpLeS64 k _ va vb => some (issue32 k, [va.toNat, vb.toNat])
  | .i32SetpLtN64 k _ va vb => some (issue32 k, [va.toNat, vb.toNat])
  | .i32SetpLeN64 k _ va vb => some (issue32 k, [va.toNat, vb.toNat])
  | .i32FsetpEqD k _ va vb => some (issue32 k, [va.toNat, vb.toNat])
  | .i32FsetpNeD k _ va vb => some (issue32 k, [va.toNat, vb.toNat])
  | .i32FsetpLtD k _ va vb => some (issue32 k, [va.toNat, vb.toNat])
  | .i32FsetpLeD k _ va vb => some (issue32 k, [va.toNat, vb.toNat])
  | .i32FsetpUnD k _ va vb => some (issue32 k, [va.toNat, vb.toNat])
  | .i32FsetpEqF k _ va vb => some (issue32 k, [va.toNat, vb.toNat])
  | .i32FsetpNeF k _ va vb => some (issue32 k, [va.toNat, vb.toNat])
  | .i32FsetpLtF k _ va vb => some (issue32 k, [va.toNat, vb.toNat])
  | .i32FsetpLeF k _ va vb => some (issue32 k, [va.toNat, vb.toNat])
  | .i32FsetpUnF k _ va vb => some (issue32 k, [va.toNat, vb.toNat])
  | .pand k _ _ _ => some (issue32 k, [])
  | .por k _ _ _ => some (issue32 k, [])
  | .pxor k _ _ _ => some (issue32 k, [])
  | .pnot k _ _ => some (issue32 k, [])
  | .p2v k vd => some (issue32 k, [vd.toNat])
  | .v2p k va => some (issue32 k, [va.toNat])
  | .i32Mov k vd va => some (issue32 k, [vd.toNat, va.toNat])
  | .i32Movi k vd _ => some (issue32 k, [vd.toNat])
  | .i32FcvtDF k vd va => some (issue32 k, [vd.toNat, va.toNat])
  | .i32FcvtFD k vd va => some (issue32 k, [vd.toNat, va.toNat])
  | .i32I2fDS64 k vd va => some (issue32 k, [vd.toNat, va.toNat])
  | .i32I2fDN64 k vd va => some (issue32 k, [vd.toNat, va.toNat])
  | .i32F2iS64D k vd va => some (issue32 k, [vd.toNat, va.toNat])
  | .i32F2iN64D k vd va => some (issue32 k, [vd.toNat, va.toNat])
  | .i64Add c _ _ vd va vb => some (issue64 c, [vd.toNat, va.toNat, vb.toNat])
  | .i64Sub c _ _ vd va vb => some (issue64 c, [vd.toNat, va.toNat, vb.toNat])
  | .i64Mul c _ _ vd va vb => some (issue64 c, [vd.toNat, va.toNat, vb.toNat])
  | .i64MulhS c _ _ vd va vb => some (issue64 c, [vd.toNat, va.toNat, vb.toNat])
  | .i64MulhN c _ _ vd va vb => some (issue64 c, [vd.toNat, va.toNat, vb.toNat])
  | .i64MinS c _ _ vd va vb => some (issue64 c, [vd.toNat, va.toNat, vb.toNat])
  | .i64MinN c _ _ vd va vb => some (issue64 c, [vd.toNat, va.toNat, vb.toNat])
  | .i64MaxS c _ _ vd va vb => some (issue64 c, [vd.toNat, va.toNat, vb.toNat])
  | .i64MaxN c _ _ vd va vb => some (issue64 c, [vd.toNat, va.toNat, vb.toNat])
  | .i64Abs c _ _ vd va => some (issue64 c, [vd.toNat, va.toNat])
  | .i64Neg c _ _ vd va => some (issue64 c, [vd.toNat, va.toNat])
  | .i64And c _ _ vd va vb => some (issue64 c, [vd.toNat, va.toNat, vb.toNat])
  | .i64Andn c _ _ vd va vb => some (issue64 c, [vd.toNat, va.toNat, vb.toNat])
  | .i64Or c _ _ vd va vb => some (issue64 c, [vd.toNat, va.toNat, vb.toNat])
  | .i64Xor c _ _ vd va vb => some (issue64 c, [vd.toNat, va.toNat, vb.toNat])
  | .i64Not c _ _ vd va => some (issue64 c, [vd.toNat, va.toNat])
  | .i64Shl c _ _ vd va vb => some (issue64 c, [vd.toNat, va.toNat, vb.toNat])
  | .i64Shr c _ _ vd va vb => some (issue64 c, [vd.toNat, va.toNat, vb.toNat])
  | .i64Sar c _ _ vd va vb => some (issue64 c, [vd.toNat, va.toNat, vb.toNat])
  | .i64Rot c _ _ vd va vb => some (issue64 c, [vd.toNat, va.toNat, vb.toNat])
  | .i64Popc c _ _ vd va => some (issue64 c, [vd.toNat, va.toNat])
  | .i64Clz c _ _ vd va => some (issue64 c, [vd.toNat, va.toNat])
  | .i64Ctz c _ _ vd va => some (issue64 c, [vd.toNat, va.toNat])
  | .i64Brev c _ _ vd va => some (issue64 c, [vd.toNat, va.toNat])
  | .i64Shli c _ _ vd va => some (issue64 c, [vd.toNat, va.toNat])
  | .i64Shri c _ _ vd va => some (issue64 c, [vd.toNat, va.toNat])
  | .i64Sari c _ _ vd va => some (issue64 c, [vd.toNat, va.toNat])
  | .i64Addi c _ vd va => some (issue64 c, [vd.toNat, va.toNat])
  | .mad c _ _ vd va vb vc => some (issue64 c, [vd.toNat, va.toNat, vb.toNat, vc.toNat])
  | .lea c _ vd va vb => some (issue64 c, [vd.toNat, va.toNat, vb.toNat])
  | .bfx c _ _ _ vd va => some (issue64 c, [vd.toNat, va.toNat])
  | .bfi c _ _ vd va => some (issue64 c, [vd.toNat, va.toNat])
  | .sel c _ _ vd va vb => some (issue64 c, [vd.toNat, va.toNat, vb.toNat])
  | .i64Setp c _ _ _ va vb => some (issue64 c, [va.toNat, vb.toNat])
  | .movl c _ vd => some (issue64 c, [vd.toNat])
  | .movk c _ _ vd => some (issue64 c, [vd.toNat])
  | .div c _ _ vd va vb => some (issue64 c, [vd.toNat, va.toNat, vb.toNat])
  | .rem c _ _ vd va vb => some (issue64 c, [vd.toNat, va.toNat, vb.toNat])
  | .i64Fadd c _ _ vd va vb => some (issue64 c, [vd.toNat, va.toNat, vb.toNat])
  | .i64Fsub c _ _ vd va vb => some (issue64 c, [vd.toNat, va.toNat, vb.toNat])
  | .i64Fmul c _ _ vd va vb => some (issue64 c, [vd.toNat, va.toNat, vb.toNat])
  | .ffma c _ _ vd va vb vc => some (issue64 c, [vd.toNat, va.toNat, vb.toNat, vc.toNat])
  | .i64Fmin c _ vd va vb => some (issue64 c, [vd.toNat, va.toNat, vb.toNat])
  | .i64Fmax c _ vd va vb => some (issue64 c, [vd.toNat, va.toNat, vb.toNat])
  | .i64Fsetp c _ _ _ va vb => some (issue64 c, [va.toNat, vb.toNat])
  | .fscale c _ _ vd va vb => some (issue64 c, [vd.toNat, va.toNat, vb.toNat])
  | .fdiv c _ _ vd va vb => some (issue64 c, [vd.toNat, va.toNat, vb.toNat])
  | .fsqrt c _ _ vd va => some (issue64 c, [vd.toNat, va.toNat])
  | .frcp c _ _ vd va => some (issue64 c, [vd.toNat, va.toNat])
  | .frsq c _ vd va => some (issue64 c, [vd.toNat, va.toNat])
  | .fexp2 c _ vd va => some (issue64 c, [vd.toNat, va.toNat])
  | .flog2 c _ vd va => some (issue64 c, [vd.toNat, va.toNat])
  | .fsin c _ vd va => some (issue64 c, [vd.toNat, va.toNat])
  | .fcos c _ vd va => some (issue64 c, [vd.toNat, va.toNat])
  | .i64Fcvt c _ _ _ _ vd va => some (issue64 c, [vd.toNat, va.toNat])
  | .i64I2f c _ _ _ _ vd va => some (issue64 c, [vd.toNat, va.toNat])
  | .i64F2i c _ _ _ vd va => some (issue64 c, [vd.toNat, va.toNat])
  | .frnd c _ _ vd va => some (issue64 c, [vd.toNat, va.toNat])
  | .fpack c kind _ _ vd va vb => some (issue64 c, [vd.toNat] ++ run va (PackKind.count kind) ++ (if kind = .e2m1 then [vb.toNat] else []))
  | .funpack c kind _ _ vd va vb => some (issue64 c, run vd (PackKind.count kind) ++ [va.toNat] ++ (if kind = .e2m1 then [vb.toNat] else []))
  | .ldB8 c _ _ _ vd va => some (issue64 c, [vd.toNat, va.toNat])
  | .ldB16 c _ _ _ vd va => some (issue64 c, [vd.toNat, va.toNat])
  | .ldB32 c _ _ _ vd va => some (issue64 c, [vd.toNat, va.toNat])
  | .ldB64 c _ _ _ vd va => some (issue64 c, [vd.toNat, va.toNat])
  | .ldS8 c _ _ _ vd va => some (issue64 c, [vd.toNat, va.toNat])
  | .ldS16 c _ _ _ vd va => some (issue64 c, [vd.toNat, va.toNat])
  | .ldS32 c _ _ _ vd va => some (issue64 c, [vd.toNat, va.toNat])
  | .ldv c _ _ vd va vb => some (issue64 c, [vd.toNat, va.toNat, vb.toNat])
  | .stB8 c _ _ src va => some (issue64 c, [src.toNat, va.toNat])
  | .stB16 c _ _ src va => some (issue64 c, [src.toNat, va.toNat])
  | .stB32 c _ _ src va => some (issue64 c, [src.toNat, va.toNat])
  | .stB64 c _ _ src va => some (issue64 c, [src.toNat, va.toNat])
  | .ldsB8 c _ vd va => some (issue64 c, [vd.toNat, va.toNat])
  | .ldsB16 c _ vd va => some (issue64 c, [vd.toNat, va.toNat])
  | .ldsB32 c _ vd va => some (issue64 c, [vd.toNat, va.toNat])
  | .ldsB64 c _ vd va => some (issue64 c, [vd.toNat, va.toNat])
  | .ldsS8 c _ vd va => some (issue64 c, [vd.toNat, va.toNat])
  | .ldsS16 c _ vd va => some (issue64 c, [vd.toNat, va.toNat])
  | .ldsS32 c _ vd va => some (issue64 c, [vd.toNat, va.toNat])
  | .stsB8 c _ src va => some (issue64 c, [src.toNat, va.toNat])
  | .stsB16 c _ src va => some (issue64 c, [src.toNat, va.toNat])
  | .stsB32 c _ src va => some (issue64 c, [src.toNat, va.toNat])
  | .stsB64 c _ src va => some (issue64 c, [src.toNat, va.toNat])
  | .touch c _ _ va => some (issue64 c, [va.toNat])
  | .pref c _ _ _ va => some (issue64 c, [va.toNat])
  | .cctl c _ _ va => some (issue64 c, [va.toNat])
  | .ldw c _ _ _ vd va => some (issue64 c, [vd.toNat, va.toNat])
  | .ldc c _ _ _ vd va => some (issue64 c, [vd.toNat, va.toNat])
  | .stf c _ _ _ src va => some (issue64 c, [src.toNat, va.toNat])
  | .stx c _ _ _ src va => some (issue64 c, [src.toNat, va.toNat])
  | .purge c _ _ _ va => some (issue64 c, [va.toNat])
  | .feq c _ _ _ _ va => some (issue64 c, [va.toNat])
  | .atom c _ _ _ _ _ vd va vb => some (issue64 c, [vd.toNat, va.toNat, vb.toNat])
  | .atoms c _ _ _ _ vd va vb => some (issue64 c, [vd.toNat, va.toNat, vb.toNat])
  | .red c _ _ _ _ _ va vb => some (issue64 c, [va.toNat, vb.toNat])
  | .cas c _ _ _ vd va vb vc => some (issue64 c, [vd.toNat, va.toNat, vb.toNat, vc.toNat])
  | .vretire c va vb => some (issue64 c, [va.toNat, vb.toNat])
  | .fence c _ _ => some (issue64 c, [])
  | .bra c _ => some (issue64 c, [])
  | .jmp c va => some (issue64 c, [va.toNat])
  | .call c _ => some (issue64 c, [])
  | .callr c va => some (issue64 c, [va.toNat])
  | .callt c _ vd va vb => some (issue64 c, [vd.toNat, va.toNat, vb.toNat])
  | .ret c => some (issue64 c, [])
  | .exit c => some (issue64 c, [])
  | .nop c => some (issue64 c, [])
  | .wait c _ va => some (issue64 c, [va.toNat])
  | .yield c => some (issue64 c, [])
  | .bara c _ vd => some (issue64 c, [vd.toNat])
  | .barw c _ vd va => some (issue64 c, [vd.toNat, va.toNat])
  | .bars c _ va => some (issue64 c, [va.toNat])
  | .bare c _ vd => some (issue64 c, [vd.toNat])
  | .bart c _ _ va => some (issue64 c, [va.toNat])
  | .shfl c _ _ vd va vb => some (issue64 c, [vd.toNat, va.toNat, vb.toNat])
  | .vote c v => some (issue64 c, voteNamed v)
  | .redb c _ _ vd va => some (issue64 c, [vd.toNat, va.toNat])
  | .launch c _ va vb => some (issue64 c, [va.toNat, vb.toNat])
  | .signal c _ _ va vb => some (issue64 c, [va.toNat, vb.toNat])
  | .idemend c => some (issue64 c, [])
  | .cpy c _ _ _ vd va => some (issue64 c, vd.toNat :: run va 8)
  | .cpyx c _ _ _ vd va => some (issue64 c, vd.toNat :: run va 8)
  | .cpym c _ _ _ vd va vb => some (issue64 c, vd.toNat :: vb.toNat :: run va 8)
  | .publish c _ _ _ vd va => some (issue64 c, vd.toNat :: run va 2)
  | .coll c _ _ _ vd va => some (issue64 c, vd.toNat :: run va 6)
  | .halo c _ _ _ vd va => some (issue64 c, vd.toNat :: run va 9)
  | .eqry c _ vd => some (issue64 c, [vd.toNat])
  | .mma c _ _ _ vd va => some (issue64 c, vd.toNat :: run va 3)
  | .mmag c _ _ _ vd va => some (issue64 c, vd.toNat :: run va 3)
  | .mmaq c _ _ _ vd va => some (issue64 c, vd.toNat :: run va 3)
  | .accz c va vb => some (issue64 c, [va.toNat, vb.toNat])
  | .accrd c _ vd va => some (issue64 c, [vd.toNat, va.toNat])
  | .accwr c _ va vb => some (issue64 c, [va.toNat, vb.toNat])
  | .permt c va vb => some (issue64 c, [va.toNat, vb.toNat])
  | .trace c _ vd va => some (issue64 c, run vd 3 ++ run va 6)
  | .tracek c km1 vd va => some (issue64 c, run vd (km1.toNat + 2) ++ run va 6)
  | .march c vd va => some (issue64 c, run vd 5 ++ run va 5)
  | .graft c vd va => some (issue64 c, vd.toNat :: run va 4)
  | .hitattr c vd va vb => some (issue64 c, run vd 2 ++ run va 3 ++ [vb.toNat])
  | .frameout c vd va vb => some (issue64 c, [vd.toNat, va.toNat, vb.toNat])
  | .srd c _ vd => some (issue64 c, [vd.toNat])
  | .swr c va => some (issue64 c, [va.toNat])
  | .trap c _ => some (issue64 c, [])
  | .rft c _ => some (issue64 c, [])
  | .bkpt c => some (issue64 c, [])
  | _ => none

/-- The registers that an instruction reads in thread t: those that its fields name but for its destination, both where it reads what it
writes, and for CPYM the operands that its matrix image names too (R276, R299, R357). -/
def Instr.reads (t : Thread) (i : Instr) : List Nat :=
  let named := (Instr.fields i).elim [] (·.2)
  match i with
  | .c16Add .. | .c16Sub .. | .c16Addi .. | .c16And .. | .c16Or .. | .c16Xor .. | .c16Shli .. | .c16Shri .. | .c16Sari ..
  | .c16FaddD .. | .c16FsubD .. | .c16FmulD .. | .c16FminD .. | .c16FmaxD .. | .bfi .. | .movk ..
  | .i32SetpEq .. | .i32SetpNe .. | .i32SetpLtS64 .. | .i32SetpLeS64 .. | .i32SetpLtN64 .. | .i32SetpLeN64 .. | .i64Setp ..
  | .i32FsetpEqD .. | .i32FsetpNeD .. | .i32FsetpLtD .. | .i32FsetpLeD .. | .i32FsetpUnD ..
  | .i32FsetpEqF .. | .i32FsetpNeF .. | .i32FsetpLtF .. | .i32FsetpLeF .. | .i32FsetpUnF .. | .i64Fsetp .. | .v2p ..
  | .stB8 .. | .stB16 .. | .stB32 .. | .stB64 .. | .stsB8 .. | .stsB16 .. | .stsB32 .. | .stsB64 .. | .touch .. | .pref .. | .cctl ..
  | .stf .. | .stx .. | .purge .. | .feq .. | .red .. | .vretire .. | .jmp .. | .callr .. | .wait .. | .bars .. | .bart ..
  | .launch .. | .signal .. | .accz .. | .accwr .. | .permt .. | .swr .. => named
  | .funpack _ kind _ _ _ va vb => va.toNat :: (if kind = .e2m1 then [vb.toNat] else [])
  | .trace _ _ _ va | .tracek _ _ _ va => run va 6
  | .march _ _ va => run va 5
  | .hitattr _ _ va vb => vb.toNat :: run va 3
  | .vote _ v => voteReads v
  | .cpym _ _ _ _ _ va vb => vb.toNat :: run va 8 ++ (matrixImage (t.reg vb.toNat)).elim [] fun m => (List.range 3).map (m.2.2.2.2.2.2.2 + ·)
  | _ => named.drop 1

/-- The instructions of classes I2 and F4, which compute from a thread's own registers and predicates at a fixed latency (R31). -/
def Instr.isFixed : Instr → Bool
  | .c16Mov .. | .c16Movi .. | .c16Add .. | .c16Sub .. | .c16Addi .. | .c16And .. | .c16Or .. | .c16Xor .. | .c16Shli .. | .c16Shri .. | .c16Sari ..
  | .c16FaddD .. | .c16FsubD .. | .c16FmulD .. | .c16FminD .. | .c16FmaxD ..
  | .i32Add .. | .i32Sub .. | .i32Mul .. | .i32MulhS64 .. | .i32MulhN64 .. | .i32MinS64 .. | .i32MinN64 .. | .i32MaxS64 .. | .i32MaxN64 ..
  | .i32AbsS64 .. | .i32Neg .. | .i32And .. | .i32Andn .. | .i32Or .. | .i32Xor .. | .i32Not .. | .i32Shl .. | .i32Shr .. | .i32Sar .. | .i32Rot ..
  | .i32Shli .. | .i32Shri .. | .i32Sari .. | .i32Popc .. | .i32Clz .. | .i32Ctz .. | .i32Brev .. | .i32Addi .. | .i32Mov .. | .i32Movi ..
  | .i32SetpEq .. | .i32SetpNe .. | .i32SetpLtS64 .. | .i32SetpLeS64 .. | .i32SetpLtN64 .. | .i32SetpLeN64 ..
  | .pand .. | .por .. | .pxor .. | .pnot .. | .p2v .. | .v2p ..
  | .i32FaddD .. | .i32FsubD .. | .i32FmulD .. | .i32FminD .. | .i32FmaxD .. | .i32FaddF .. | .i32FsubF .. | .i32FmulF .. | .i32FminF .. | .i32FmaxF ..
  | .i32FabsD .. | .i32FnegD .. | .i32FabsF .. | .i32FnegF .. | .i32FclassD .. | .i32FclassF .. | .i32FgetexpD .. | .i32FgetexpF ..
  | .i32FgetmanD .. | .i32FgetmanF .. | .i32FsetpEqD .. | .i32FsetpNeD .. | .i32FsetpLtD .. | .i32FsetpLeD .. | .i32FsetpUnD ..
  | .i32FsetpEqF .. | .i32FsetpNeF .. | .i32FsetpLtF .. | .i32FsetpLeF .. | .i32FsetpUnF ..
  | .i32FcvtDF .. | .i32FcvtFD .. | .i32I2fDS64 .. | .i32I2fDN64 .. | .i32F2iS64D .. | .i32F2iN64D ..
  | .i64Add .. | .i64Sub .. | .i64Mul .. | .i64MulhS .. | .i64MulhN .. | .i64MinS .. | .i64MinN .. | .i64MaxS .. | .i64MaxN .. | .i64Abs .. | .i64Neg ..
  | .i64And .. | .i64Andn .. | .i64Or .. | .i64Xor .. | .i64Not .. | .i64Shl .. | .i64Shr .. | .i64Sar .. | .i64Rot .. | .i64Popc .. | .i64Clz ..
  | .i64Ctz .. | .i64Brev .. | .i64Shli .. | .i64Shri .. | .i64Sari .. | .i64Addi .. | .mad .. | .lea .. | .bfx .. | .bfi .. | .sel .. | .i64Setp ..
  | .movl .. | .movk .. | .i64Fadd .. | .i64Fsub .. | .i64Fmul .. | .ffma .. | .i64Fmin .. | .i64Fmax .. | .i64Fsetp .. | .fscale ..
  | .i64Fcvt .. | .i64I2f .. | .i64F2i .. | .frnd .. | .fpack .. | .funpack .. | .swr .. => true
  | _ => false

/-! ## Values of floating encodings, and rounding (R44-R50) -/

/-- The fields of an encoding in a format that has a sign (R44, R45). -/
def Fmt.signOf (m : Fmt) (r : Nat) : Bool := r.testBit (m.e + m.f)
def Fmt.expOf (m : Fmt) (r : Nat) : Nat := r / 2 ^ m.f % 2 ^ m.e
def Fmt.fracOf (m : Fmt) (r : Nat) : Nat := r % 2 ^ m.f

/-- A NaN and an infinity in a format that has both (R46), and a zero. -/
abbrev Fmt.isNan (m : Fmt) (r : Nat) : Prop := m.expOf r = 2 ^ m.e - 1 ∧ m.fracOf r ≠ 0
abbrev Fmt.isInf (m : Fmt) (r : Nat) : Prop := m.expOf r = 2 ^ m.e - 1 ∧ m.fracOf r = 0
abbrev Fmt.isZero (m : Fmt) (r : Nat) : Prop := m.expOf r = 0 ∧ m.fracOf r = 0

/-- The magnitude and the real value of a finite encoding (R45). -/
def Fmt.magOf (m : Fmt) (r : Nat) : ℚ :=
  if m.expOf r = 0 then (m.fracOf r : ℚ) / 2 ^ m.f * (2 : ℚ) ^ (1 - m.bias)
  else (1 + (m.fracOf r : ℚ) / 2 ^ m.f) * (2 : ℚ) ^ ((m.expOf r : ℤ) - m.bias)
def Fmt.realOf (m : Fmt) (r : Nat) : ℚ := if m.signOf r then -m.magOf r else m.magOf r

/-- A sign in its place (R44). -/
def Fmt.withSign (m : Fmt) (neg : Bool) (r : Nat) : Nat := (if neg then 2 ^ (m.e + m.f) else 0) + r

/-- The mode chooses n units u for a magnitude x of the sign neg (R47). -/
def Rm.chooses (rm : Rm) (neg : Bool) (x u : ℚ) (n : Nat) : Prop :=
  let y := (n : ℚ) * u
  let down := y ≤ x ∧ x < y + u
  let up := x ≤ y ∧ y < x + u
  match rm with
  | .rne => 2 * |x - y| ≤ u ∧ (2 * |x - y| = u → n % 2 = 0)
  | .rna => 2 * |x - y| ≤ u ∧ (2 * |x - y| = u → x < y)
  | .rz => down
  | .rup => if neg then down else up
  | .rdn => if neg then up else down

/-- The largest finite magnitude (R44). -/
def Fmt.maxMag (m : Fmt) : ℚ := (2 - 1 / 2 ^ m.f) * (2 : ℚ) ^ m.bias

/-- What a result beyond the largest finite one becomes, in a format with infinities and without saturation (R49). -/
def Fmt.overflows (m : Fmt) (rm : Rm) (neg : Bool) : Nat :=
  let inf := (2 ^ m.e - 1) * 2 ^ m.f
  m.withSign neg (match rm with
    | .rne | .rna => inf
    | .rz => inf - 1
    | .rup => if neg then inf - 1 else inf
    | .rdn => if neg then inf else inf - 1)

/-- r IS RoundTo OF THE NONZERO x (R48, R49): with e the binary exponent of x and the quantum u that it gives in the format, the mode chooses
n quanta; r has the sign of x and that magnitude, or is what an overflow gives. -/
def Fmt.roundsTo (m : Fmt) (rm : Rm) (x : ℚ) (r : Nat) : Prop :=
  ∃ (e : ℤ) (n : Nat), (2 : ℚ) ^ e ≤ |x| ∧ |x| < (2 : ℚ) ^ (e + 1) ∧
    let u := (2 : ℚ) ^ (max e (1 - m.bias) - m.f)
    Rm.chooses rm (decide (x < 0)) |x| u n ∧
    (if n * u ≤ m.maxMag then r < 2 ^ m.width ∧ m.expOf r ≠ 2 ^ m.e - 1 ∧ m.signOf r = decide (x < 0) ∧ m.magOf r = n * u
     else r = m.overflows rm (decide (x < 0)))

/-- r is the exact result x rounded, a zero result having the sign that R50 gives it. -/
def Fmt.givesExact (m : Fmt) (rm : Rm) (x : ℚ) (zeroNeg : Bool) (r : Nat) : Prop :=
  if x = 0 then r = m.withSign zeroNeg 0 else m.roundsTo rm x r

/-! ## Values (R84-R93) -/

/-- A w-bit result extended to 64 bits (R85). -/
def extended (sx : Bool) {w : Nat} (x : BitVec w) : Word := if sx then x.signExtend 64 else x.setWidth 64

/-- The number of leading members that fail a test. -/
def leadFalse (l : List Bool) : Nat := (l.takeWhile fun b => !b).length

/-- What R87 to R89 say of w-bit operands; the shifts take their amount apart. -/
def IOp.spec (o : IOp) {w : Nat} (x y : BitVec w) (amount : Nat) : BitVec w :=
  match o with
  | .add => x + y
  | .sub => x - y
  | .mul => x * y
  | .mulhS => ((x.signExtend (2 * w) * y.signExtend (2 * w)).extractLsb' w w)
  | .mulhN => ((x.setWidth (2 * w) * y.setWidth (2 * w)).extractLsb' w w)
  | .minS => if y.slt x then y else x
  | .minN => if y.ult x then y else x
  | .maxS => if x.slt y then y else x
  | .maxN => if x.ult y then y else x
  | .abs => if x.msb then -x else x
  | .neg => -x
  | .and => x &&& y
  | .andn => x &&& ~~~y
  | .or => x ||| y
  | .xor => x ^^^ y
  | .not => ~~~x
  | .shl => x <<< amount
  | .shr => x >>> amount
  | .sar => x.sshiftRight amount
  | .rot => x.rotateLeft amount
  | .popc => BitVec.ofNat w (((List.range w).filter fun i => x.getLsbD i).length)
  | .clz => BitVec.ofNat w (leadFalse ((List.range w).map fun i => x.getLsbD (w - 1 - i)))
  | .ctz => BitVec.ofNat w (leadFalse ((List.range w).map fun i => x.getLsbD i))
  | .brev => BitVec.ofNat w ((List.range w).foldl (fun m i => if x.getLsbD (w - 1 - i) then m + 2 ^ i else m) 0)

/-- The value of an integer instruction at a width, from whole registers (R84-R89). -/
def IOp.value (o : IOp) (w : Width) (sx : Bool) (a b : Word) : Word :=
  extended sx (o.spec (a.setWidth (widthBits w)) (b.setWidth (widthBits w)) (b.toNat % 64))

/-- A condition of SETP on w-bit operands (R98). -/
def ICond.spec (c : ICond) {w : Nat} (x y : BitVec w) : Bool :=
  match c with
  | .eq => x == y
  | .ne => x != y
  | .ltS => x.slt y
  | .leS => x.sle y
  | .ltN => x.ult y
  | .leN => x.ule y

/-! ## What no step may break -/

/-- A thread that can issue nothing holds no entry of a block table and waits for none (R158). -/
def State.tableOk (s : State) : Prop :=
  ∀ k t, s.threads.find k = some t → t.takesEntry = false → t.tabled = .out

/-- Memory is in canonical form: addresses strictly rising, and none listed with what an unlisted one reads as. -/
def State.memOk (s : State) : Prop := Mem.wf s.mem = true

/-- A state that steps lead to from s. -/
inductive Reaches : State → State → Prop where
  | start (s : State) : Reaches s s
  | more (s t u : State) : Reaches s t → step t = .next u → Reaches s u

end Sys2Proof.Machine
end

