-- ==== Sys2Proof/Certificates/Slice0/Obligations.lean ====
section
/-! DEFINITION. The statements for the provers. Each names the rules of spec/ that it formalises; OBLIGATIONS.json lists them. -/

open Sys2Proof Sys2Proof.Machine

/-! ## Integer, predicate and move instructions -/

/-- The C16 integer forms and moves (R65, R84-R88, R95, R102): what each leaves for its destination, at the end of clk t + 1;
every other register, flag, predicate and byte of memory is as it was. -/
def Obligations.C16Integer : Prop :=
  ∀ (s : State) (k : Nat) (t : Thread) (st : Bool) (vd vb imm : BitVec 5), s.Alone k t →
    let q := issue16 st
    let a := t.reg vd.toNat
    let b := t.reg vb.toNat
    let gives := fun (i : Instr) (named reads : List Nat) (v : Word) =>
      q.Executes t named reads → s.Gives i k (t.afterFixed s q 2 [.reg vd.toNat v none]) s.numbered
    let two := fun (i : Instr) (v : Word) => gives i [vd.toNat, vd.toNat, vb.toNat] [vd.toNat, vb.toNat] v
    let one := fun (i : Instr) (v : Word) => gives i [vd.toNat, vd.toNat] [vd.toNat] v
    gives (.c16Mov st vd vb) [vd.toNat, vb.toNat] [vb.toNat] b ∧
    gives (.c16Movi st vd imm) [vd.toNat] [] (imm.signExtend 64) ∧
    two (.c16Add st vd vb) (a + b) ∧ two (.c16Sub st vd vb) (a - b) ∧
    one (.c16Addi st vd imm) (a + imm.signExtend 64) ∧
    two (.c16And st vd vb) (a &&& b) ∧ two (.c16Or st vd vb) (a ||| b) ∧ two (.c16Xor st vd vb) (a ^^^ b) ∧
    one (.c16Shli st vd imm) (a <<< imm.toNat) ∧ one (.c16Shri st vd imm) (a >>> imm.toNat) ∧ one (.c16Sari st vd imm) (a.sshiftRight imm.toNat)

/-- The I32 integer forms and moves (R66, R84, R85, R87-R89, R95). -/
def Obligations.I32Integer : Prop :=
  ∀ (s : State) (k : Nat) (t : Thread) (c : Ctl32) (vd va vb : Reg) (imm : BitVec 6) (imm12 : BitVec 12), s.Alone k t →
    let q := issue32 c
    let a := t.reg va.toNat
    let b := t.reg vb.toNat
    let gives := fun (i : Instr) (named reads : List Nat) (v : Word) =>
      q.Executes t named reads → s.Gives i k (t.afterFixed s q 2 [.reg vd.toNat v none]) s.numbered
    let two := fun (i : Instr) (o : IOp) => gives i [vd.toNat, va.toNat, vb.toNat] [va.toNat, vb.toNat] (o.value .w64 false a b)
    let one := fun (i : Instr) (v : Word) => gives i [vd.toNat, va.toNat] [va.toNat] v
    two (.i32Add c vd va vb) .add ∧ two (.i32Sub c vd va vb) .sub ∧ two (.i32Mul c vd va vb) .mul ∧
    two (.i32MulhS64 c vd va vb) .mulhS ∧ two (.i32MulhN64 c vd va vb) .mulhN ∧
    two (.i32MinS64 c vd va vb) .minS ∧ two (.i32MinN64 c vd va vb) .minN ∧ two (.i32MaxS64 c vd va vb) .maxS ∧ two (.i32MaxN64 c vd va vb) .maxN ∧
    one (.i32AbsS64 c vd va) (IOp.value .abs .w64 false a 0) ∧ one (.i32Neg c vd va) (-a) ∧
    two (.i32And c vd va vb) .and ∧ two (.i32Andn c vd va vb) .andn ∧ two (.i32Or c vd va vb) .or ∧ two (.i32Xor c vd va vb) .xor ∧
    one (.i32Not c vd va) (~~~a) ∧
    two (.i32Shl c vd va vb) .shl ∧ two (.i32Shr c vd va vb) .shr ∧ two (.i32Sar c vd va vb) .sar ∧ two (.i32Rot c vd va vb) .rot ∧
    one (.i32Shli c vd va imm) (a <<< imm.toNat) ∧ one (.i32Shri c vd va imm) (a >>> imm.toNat) ∧ one (.i32Sari c vd va imm) (a.sshiftRight imm.toNat) ∧
    one (.i32Popc c vd va) (IOp.value .popc .w64 false a 0) ∧ one (.i32Clz c vd va) (IOp.value .clz .w64 false a 0) ∧
    one (.i32Ctz c vd va) (IOp.value .ctz .w64 false a 0) ∧ one (.i32Brev c vd va) (IOp.value .brev .w64 false a 0) ∧
    one (.i32Addi c vd va imm) (a + imm.signExtend 64) ∧ one (.i32Mov c vd va) a ∧
    gives (.i32Movi c vd imm12) [vd.toNat] [] (imm12.signExtend 64)

/-- The I64 integer forms at every width with either extension (R67, R84, R85, R87-R90, R95). -/
def Obligations.I64Integer : Prop :=
  ∀ (s : State) (k : Nat) (t : Thread) (c : Ctl) (w : Width) (sx : Bool) (vd va vb vc : Reg) (amt : BitVec 6) (imm : BitVec 18), s.Alone k t →
    let q := issue64 c
    let a := t.reg va.toNat
    let b := t.reg vb.toNat
    let low := fun (x : Word) => x.setWidth (widthBits w)
    let gives := fun (i : Instr) (named reads : List Nat) (v : Word) =>
      q.Executes t named reads → s.Gives i k (t.afterFixed s q 2 [.reg vd.toNat v none]) s.numbered
    let two := fun (i : Instr) (o : IOp) => gives i [vd.toNat, va.toNat, vb.toNat] [va.toNat, vb.toNat] (o.value w sx a b)
    let one := fun (i : Instr) (v : Word) => gives i [vd.toNat, va.toNat] [va.toNat] v
    two (.i64Add c w sx vd va vb) .add ∧ two (.i64Sub c w sx vd va vb) .sub ∧ two (.i64Mul c w sx vd va vb) .mul ∧
    two (.i64MulhS c w sx vd va vb) .mulhS ∧ two (.i64MulhN c w sx vd va vb) .mulhN ∧
    two (.i64MinS c w sx vd va vb) .minS ∧ two (.i64MinN c w sx vd va vb) .minN ∧ two (.i64MaxS c w sx vd va vb) .maxS ∧ two (.i64MaxN c w sx vd va vb) .maxN ∧
    one (.i64Abs c w sx vd va) (IOp.value .abs w sx a 0) ∧ one (.i64Neg c w sx vd va) (IOp.value .neg w sx a 0) ∧
    two (.i64And c w sx vd va vb) .and ∧ two (.i64Andn c w sx vd va vb) .andn ∧ two (.i64Or c w sx vd va vb) .or ∧ two (.i64Xor c w sx vd va vb) .xor ∧
    one (.i64Not c w sx vd va) (IOp.value .not w sx a 0) ∧
    two (.i64Shl c w sx vd va vb) .shl ∧ two (.i64Shr c w sx vd va vb) .shr ∧ two (.i64Sar c w sx vd va vb) .sar ∧ two (.i64Rot c w sx vd va vb) .rot ∧
    one (.i64Popc c w sx vd va) (IOp.value .popc w sx a 0) ∧ one (.i64Clz c w sx vd va) (IOp.value .clz w sx a 0) ∧
    one (.i64Ctz c w sx vd va) (IOp.value .ctz w sx a 0) ∧ one (.i64Brev c w sx vd va) (IOp.value .brev w sx a 0) ∧
    one (.i64Shli c w amt vd va) (extended false (low a <<< amt.toNat)) ∧ one (.i64Shri c w amt vd va) (extended false (low a >>> amt.toNat)) ∧
    one (.i64Sari c w amt vd va) (extended true ((low a).sshiftRight amt.toNat)) ∧
    one (.i64Addi c imm vd va) (a + imm.signExtend 64) ∧
    gives (.mad c w sx vd va vb vc) [vd.toNat, va.toNat, vb.toNat, vc.toNat] [va.toNat, vb.toNat, vc.toNat]
      (extended sx (low a * low b + low (t.reg vc.toNat)))

/-- LEA, BFX, BFI, SEL, MOVL and MOVK (R91-R93, R96, R97, R101), bit by bit where the rule names bits. -/
def Obligations.AddressAndFields : Prop :=
  ∀ (s : State) (k : Nat) (t : Thread) (c : Ctl) (vd va vb : Reg), s.Alone k t →
    let q := issue64 c
    let a := t.reg va.toNat
    let b := t.reg vb.toNat
    let d := t.reg vd.toNat
    let gives := fun (i : Instr) (named reads : List Nat) (v : Word) =>
      q.Executes t named reads → s.Gives i k (t.afterFixed s q 2 [.reg vd.toNat v none]) s.numbered
    (∀ sh : BitVec 3, gives (.lea c sh vd va vb) [vd.toNat, va.toNat, vb.toNat] [va.toNat, vb.toNat] (a + (b <<< sh.toNat))) ∧
    (∀ (p : PReg) (neg : Bool), gives (.sel c p neg vd va vb) [vd.toNat, va.toNat, vb.toNat] [va.toNat, vb.toNat]
      (if (t.pred p.toNat).xor neg then a else b)) ∧
    (∀ imm : BitVec 24, gives (.movl c imm vd) [vd.toNat] [] (imm.signExtend 64)) ∧
    (∀ (val : BitVec 16) (pos : BitVec 2), ∃ v : Word, gives (.movk c val pos vd) [vd.toNat, vd.toNat] [vd.toNat] v ∧
      ∀ i, i < 64 → v.getLsbD i = if i / 16 = pos.toNat then val.getLsbD (i % 16) else d.getLsbD i) ∧
    (∀ (pos : BitVec 6) (len : BitVec 7) (sx : Bool), 1 ≤ len.toNat → pos.toNat + len.toNat ≤ 64 →
      ∃ v : Word, gives (.bfx c pos len sx vd va) [vd.toNat, va.toNat] [va.toNat] v ∧
        ∀ i, i < 64 → v.getLsbD i = if i < len.toNat then a.getLsbD (pos.toNat + i) else sx && a.getLsbD (pos.toNat + len.toNat - 1)) ∧
    (∀ (pos : BitVec 6) (len : BitVec 7), 1 ≤ len.toNat → pos.toNat + len.toNat ≤ 64 →
      ∃ v : Word, gives (.bfi c pos len vd va) [vd.toNat, vd.toNat, va.toNat] [vd.toNat, va.toNat] v ∧
        ∀ i, i < 64 → v.getLsbD i = if pos.toNat ≤ i ∧ i < pos.toNat + len.toNat then a.getLsbD (i - pos.toNat) else d.getLsbD i)

/-- Compares and the predicate instructions (R98-R100): the predicates they write at the end of clk t + 1; registers, flags and
memory are as they were. And the seventh predicate (R21): a write is discarded, every read gives 1, the guard @p7 holds, and whatever the
instruction under @!p7 it has no effect, the thread going on past it. -/
def Obligations.Predicates : Prop :=
  (∀ (t : Thread) (b : Bool) (q : Issue), q.guard = 7 → t.apply (.pred 7 b) = t ∧ t.pred 7 = true ∧ q.holds t = !q.neg) ∧
  (∀ (i : Instr) (q : Issue) (named : List Nat) (s : State) (k : Nat) (t : Thread), Instr.fields i = some (q, named) → s.Alone k t →
    t.status = .run → q.guard = 7 → q.neg = true → (∀ r ∈ named, r < t.n) → s.Gives i k (t.succeeded.wentOn s { q with flag := none } (t.past q)) s) ∧
  ∀ (s : State) (k : Nat) (t : Thread) (c : Ctl32) (c2 : Ctl) (w : Width) (cond : ICond) (pd pa pb : PReg) (vd va vb : Reg), s.Alone k t →
    let q := issue32 c
    let a := t.reg va.toNat
    let b := t.reg vb.toNat
    let sets := fun (i : Instr) (named : List Nat) (x : Bool) =>
      q.Executes t named named → s.Gives i k (t.afterFixed s q 2 [.pred pd.toNat x]) s.numbered
    let cmp := fun (i : Instr) (o : ICond) => sets i [va.toNat, vb.toNat] (ICond.spec o a b)
    cmp (.i32SetpEq c pd va vb) .eq ∧ cmp (.i32SetpNe c pd va vb) .ne ∧ cmp (.i32SetpLtS64 c pd va vb) .ltS ∧ cmp (.i32SetpLeS64 c pd va vb) .leS ∧
    cmp (.i32SetpLtN64 c pd va vb) .ltN ∧ cmp (.i32SetpLeN64 c pd va vb) .leN ∧
    sets (.pand c pd pa pb) [] (t.pred pa.toNat && t.pred pb.toNat) ∧ sets (.por c pd pa pb) [] (t.pred pa.toNat || t.pred pb.toNat) ∧
    sets (.pxor c pd pa pb) [] ((t.pred pa.toNat).xor (t.pred pb.toNat)) ∧ sets (.pnot c pd pa) [] (!t.pred pa.toNat) ∧
    ((issue64 c2).Executes t [va.toNat, vb.toNat] [va.toNat, vb.toNat] →
      s.Gives (.i64Setp c2 cond w pd va vb) k
        (t.afterFixed s (issue64 c2) 2 [.pred pd.toNat (ICond.spec cond (a.setWidth (widthBits w)) (b.setWidth (widthBits w)))]) s.numbered) ∧
    (∃ v : Word, (∀ i, i < 64 → v.getLsbD i = (decide (i < 8) && t.pred i)) ∧
      (q.Executes t [vd.toNat] [] → s.Gives (.p2v c vd) k (t.afterFixed s q 2 [.reg vd.toNat v none]) s.numbered)) ∧
    (q.Executes t [va.toNat] [va.toNat] →
      s.Gives (.v2p c va) k (t.afterFixed s q 2 ((List.range 7).map fun i => .pred i (a.getLsbD i))) s.numbered)

/-! ## Floating point -/

/-- The binary floating instructions of class F4 in their three formats (R57, R102, R112-R118, R122): the rounded result, by the model's fadd, fmul,
fma, fminmax, fcmp and fscaleR, lands at the end of clk t + 3, zero-extended. What fadd, fmul and fma give is FloatRounding's. -/
def Obligations.FloatTwoSource : Prop :=
  ∀ (s : State) (k : Nat) (t : Thread) (st : Bool) (c32 : Ctl32) (c : Ctl) (rm : Rm) (ty : FTy) (x5 y5 : BitVec 5) (pd : PReg) (vd va vb vc : Reg)
    (cond : FCond), s.Alone k t →
    let gives := fun (q : Issue) (i : Instr) (d : Nat) (srcs : List Nat) (v : Nat) =>
      q.Executes t (d :: srcs) srcs → s.Gives i k (t.afterFixed s q 4 [.reg d (BitVec.ofNat 64 v) none]) s.numbered
    let sets := fun (q : Issue) (i : Instr) (v : Bool) =>
      q.Executes t [va.toNat, vb.toNat] [va.toNat, vb.toNat] → s.Gives i k (t.afterFixed s q 4 [.pred pd.toNat v]) s.numbered
    let val := fun (y : FTy) (r : Nat) => FTy.val y (t.reg r)
    let raw := fun (y : FTy) (r : Nat) => (t.reg r).toNat % 2 ^ (FTy.fmt y).width
    let add := fun (y : FTy) (m : Rm) (a b : Nat) => fadd y m (val y a) (val y b)
    let sub := fun (y : FTy) (m : Rm) (a b : Nat) => fadd y m (val y a) (val y b).neg
    let mul := fun (y : FTy) (m : Rm) (a b : Nat) => fmul y m (val y a) (val y b)
    let pick := fun (y : FTy) (mx : Bool) (a b : Nat) => fminmax y mx (raw y a) (raw y b)
    let c16 := fun (i : Instr) (v : Nat → Nat → Nat) => gives (issue16 st) i x5.toNat [x5.toNat, y5.toNat] (v x5.toNat y5.toNat)
    let i32 := fun (i : Instr) (v : Nat → Nat → Nat) => gives (issue32 c32) i vd.toNat [va.toNat, vb.toNat] (v va.toNat vb.toNat)
    let i64 := fun (i : Instr) (v : Nat → Nat → Nat) => gives (issue64 c) i vd.toNat [va.toNat, vb.toNat] (v va.toNat vb.toNat)
    let p32 := fun (i : Instr) (y : FTy) (o : FCond) => sets (issue32 c32) i (fcmp o (val y va.toNat) (val y vb.toNat))
    c16 (.c16FaddD st x5 y5) (add .d .rne) ∧ c16 (.c16FsubD st x5 y5) (sub .d .rne) ∧ c16 (.c16FmulD st x5 y5) (mul .d .rne) ∧
    c16 (.c16FminD st x5 y5) (pick .d false) ∧ c16 (.c16FmaxD st x5 y5) (pick .d true) ∧
    i32 (.i32FaddD c32 vd va vb) (add .d .rne) ∧ i32 (.i32FsubD c32 vd va vb) (sub .d .rne) ∧ i32 (.i32FmulD c32 vd va vb) (mul .d .rne) ∧
    i32 (.i32FminD c32 vd va vb) (pick .d false) ∧ i32 (.i32FmaxD c32 vd va vb) (pick .d true) ∧
    i32 (.i32FaddF c32 vd va vb) (add .f .rne) ∧ i32 (.i32FsubF c32 vd va vb) (sub .f .rne) ∧ i32 (.i32FmulF c32 vd va vb) (mul .f .rne) ∧
    i32 (.i32FminF c32 vd va vb) (pick .f false) ∧ i32 (.i32FmaxF c32 vd va vb) (pick .f true) ∧
    p32 (.i32FsetpEqD c32 pd va vb) .d .eq ∧ p32 (.i32FsetpNeD c32 pd va vb) .d .ne ∧ p32 (.i32FsetpLtD c32 pd va vb) .d .lt ∧
    p32 (.i32FsetpLeD c32 pd va vb) .d .le ∧ p32 (.i32FsetpUnD c32 pd va vb) .d .un ∧
    p32 (.i32FsetpEqF c32 pd va vb) .f .eq ∧ p32 (.i32FsetpNeF c32 pd va vb) .f .ne ∧ p32 (.i32FsetpLtF c32 pd va vb) .f .lt ∧
    p32 (.i32FsetpLeF c32 pd va vb) .f .le ∧ p32 (.i32FsetpUnF c32 pd va vb) .f .un ∧
    i64 (.i64Fadd c rm ty vd va vb) (add ty rm) ∧ i64 (.i64Fsub c rm ty vd va vb) (sub ty rm) ∧ i64 (.i64Fmul c rm ty vd va vb) (mul ty rm) ∧
    i64 (.i64Fmin c ty vd va vb) (pick ty false) ∧ i64 (.i64Fmax c ty vd va vb) (pick ty true) ∧
    sets (issue64 c) (.i64Fsetp c cond ty pd va vb) (fcmp cond (val ty va.toNat) (val ty vb.toNat)) ∧
    gives (issue64 c) (.ffma c rm ty vd va vb vc) vd.toNat [va.toNat, vb.toNat, vc.toNat] (fma ty rm (val ty va.toNat) (val ty vb.toNat) (val ty vc.toNat)) ∧
    gives (issue64 c) (.fscale c rm ty vd va vb) vd.toNat [va.toNat, vb.toNat] (fscaleR ty rm (raw ty va.toNat) (t.reg vb.toNat).toInt)

/-- The one-source floating instructions and conversions of fixed latency (R117, R119-R121, R127-R134): sign changes land at the end of clk t + 1, the
others at the end of clk t + 3. I2F of 0 gives +0 in every rounding mode, which is the model's choice (notes/assumptions/64). -/
def Obligations.FloatOneSource : Prop :=
  ∀ (s : State) (k : Nat) (t : Thread) (c32 : Ctl32) (c : Ctl) (rm : Rm) (ty : FTy) (dst src : TyCode) (sat : Bool) (vd va vb : Reg), s.Alone k t →
    let gives := fun (q : Issue) (i : Instr) (lat : Nat) (v : Word) =>
      q.Executes t [vd.toNat, va.toNat] [va.toNat] → s.Gives i k (t.afterFixed s q lat [.reg vd.toNat v none]) s.numbered
    let a := t.reg va.toNat
    let lo := a.setWidth 32
    let i32 := fun (i : Instr) (lat : Nat) (v : Word) => gives (issue32 c32) i lat v
    i32 (.i32FabsD c32 vd va) 2 (a &&& ~~~(1#64 <<< 63)) ∧ i32 (.i32FnegD c32 vd va) 2 (a ^^^ (1#64 <<< 63)) ∧
    i32 (.i32FabsF c32 vd va) 2 ((lo &&& ~~~(1#32 <<< 31)).setWidth 64) ∧ i32 (.i32FnegF c32 vd va) 2 ((lo ^^^ (1#32 <<< 31)).setWidth 64) ∧
    i32 (.i32FclassD c32 vd va) 4 (fword (fclass Fmt.d a.toNat)) ∧ i32 (.i32FclassF c32 vd va) 4 (fword (fclass Fmt.s lo.toNat)) ∧
    i32 (.i32FgetexpD c32 vd va) 4 (fgetexp (Fmt.d.value a.toNat)) ∧ i32 (.i32FgetexpF c32 vd va) 4 (fgetexp (Fmt.s.value lo.toNat)) ∧
    i32 (.i32FgetmanD c32 vd va) 4 (fword (fgetman Fmt.d a.toNat)) ∧ i32 (.i32FgetmanF c32 vd va) 4 (fword (fgetman Fmt.s lo.toNat)) ∧
    i32 (.i32FcvtDF c32 vd va) 4 (fword (Fmt.d.convert false .rne (Fmt.s.value lo.toNat))) ∧
    i32 (.i32FcvtFD c32 vd va) 4 (fword (Fmt.s.convert false .rne (Fmt.d.value a.toNat))) ∧
    i32 (.i32I2fDS64 c32 vd va) 4 (fword (i2f Fmt.d false .rne a.toInt)) ∧ i32 (.i32I2fDN64 c32 vd va) 4 (fword (i2f Fmt.d false .rne a.toNat)) ∧
    i32 (.i32F2iS64D c32 vd va) 4 (f2i 64 true .rne (Fmt.d.value a.toNat)) ∧ i32 (.i32F2iN64D c32 vd va) 4 (f2i 64 false .rne (Fmt.d.value a.toNat)) ∧
    gives (issue64 c) (.frnd c rm ty vd va) 4 (fword (frndR ty rm (a.toNat % 2 ^ (FTy.fmt ty).width))) ∧
    gives (issue64 c) (.i64Fcvt c dst src rm sat vd va) 4 (fcvtR dst src rm sat a) ∧
    gives (issue64 c) (.i64I2f c dst src rm sat vd va) 4
      (fword (i2f (TyCode.fmt dst) sat rm (if (TyCode.intW src).2 then sval (TyCode.intW src).1 a else nval (TyCode.intW src).1 a))) ∧
    gives (issue64 c) (.i64F2i c dst src rm vd va) 4
      (f2i (TyCode.intW dst).1 (TyCode.intW dst).2 rm ((TyCode.fmt src).value (a.toNat % 2 ^ (TyCode.fmt src).width))) ∧
    (∀ kind : PackKind,
      let n := PackKind.count kind
      let extra := if kind = .e2m1 then [vb.toNat] else []
      ((issue64 c).Executes t (vd.toNat :: ((List.range n).map (va.toNat + ·) ++ extra)) ((List.range n).map (va.toNat + ·) ++ extra) →
        s.Gives (.fpack c kind ty rm vd va vb) k
          (t.afterFixed s (issue64 c) 4 [.reg vd.toNat (fpackR kind ty rm ((List.range n).map fun j => t.reg (va.toNat + j)) (t.reg vb.toNat)) none]) s.numbered) ∧
      ((issue64 c).Executes t ((List.range n).map (vd.toNat + ·) ++ va.toNat :: extra) (va.toNat :: extra) →
        s.Gives (.funpack c kind ty rm vd va vb) k
          (t.afterFixed s (issue64 c) 4 ((List.range n).map fun j => .reg (vd.toNat + j) (funpackR kind ty rm a (t.reg vb.toNat) j) none)) s.numbered))

/-- The instructions of class V whose results are known at issue (R94, R123-R126): the result stands outstanding, to land between the bounds of the
instruction counted from issue, its latency one number for the operands' bits at the type or width; without a flag the thread is held until then
(R35). And the values of division (R94): the quotient truncates toward zero, the remainder has the dividend's sign, division by zero gives all ones
and the dividend, and the one overflow the most negative number and 0. Model's choices: the value of an approximation within its error bound is free
(notes/assumptions/4), a latency within its range is a free function of the operands, and one of L clk lands at the end of clk t + L - 1
(notes/assumptions/13); the statement holds for every such function. -/
def Obligations.VariableLatency : Prop :=
  (∀ (w : Width) (a b : Word),
    let n := widthBits w
    let x := a.setWidth n
    let y := b.setWidth n
    (y = 0 → ∀ sg, divRem n sg true a b = extended sg (BitVec.allOnes n) ∧ divRem n sg false a b = extended sg x) ∧
    (y ≠ 0 →
      divRem n false true a b = extended false (x / y) ∧ divRem n false false a b = extended false (x % y) ∧
      divRem n true true a b = extended true (x.sdiv y) ∧ divRem n true false a b = extended true (x.srem y)) ∧
    (x = BitVec.intMin n → y = BitVec.allOnes n → divRem n true true a b = extended true (BitVec.intMin n) ∧ divRem n true false a b = 0)) ∧
  ∃ (div rem : Width → Bool → Nat → Nat → Nat) (fl : Nat → FTy → Nat → Nat → Nat),
  ∀ (s : State) (k : Nat) (t : Thread) (c : Ctl) (w : Width) (sg : Bool) (rm : Rm) (ty : FTy) (vd va vb : Reg), s.Alone k t →
    let q := issue64 c
    let a := t.reg va.toNat
    let b := t.reg vb.toNat
    let gives := fun (i : Instr) (srcs : List Nat) (lo hi n : Nat) (v : Word) =>
      let p : Pending := { kind := .result [.reg vd.toNat v none], sync := q.flag.isNone, lat := (n, some n) }
      lo ≤ n ∧ n ≤ hi ∧ (q.Executes t (vd.toNat :: srcs) srcs → s.Gives i k (t.afterOp s q p) (s.withOp q k t p))
    let x := FTy.val ty a
    let raw := a.toNat % 2 ^ (FTy.fmt ty).width
    let lo := fun (x y : Nat) => if ty = .f then x else y
    let low := fun (n : Nat) (y : Word) => y.toNat % 2 ^ n
    let one := fun (j : Nat) (i : Instr) (f1 f2 d1 d2 : Nat) (v : Nat) => gives i [va.toNat] (lo f1 d1) (lo f2 d2) (fl j ty raw 0) (fword v)
    gives (.div c w sg vd va vb) [va.toNat, vb.toNat] 6 40 (div w sg (low (widthBits w) a) (low (widthBits w) b)) (divRem (widthBits w) sg true a b) ∧
    gives (.rem c w sg vd va vb) [va.toNat, vb.toNat] 6 40 (rem w sg (low (widthBits w) a) (low (widthBits w) b)) (divRem (widthBits w) sg false a b) ∧
    gives (.fdiv c rm ty vd va vb) [va.toNat, vb.toNat] (lo 10 14) (lo 14 22) (fl 0 ty raw (low (FTy.fmt ty).width b)) (fword (fdivR ty rm x (FTy.val ty b))) ∧
    one 1 (.fsqrt c rm ty vd va) 10 14 14 24 (fsqrtR ty rm raw) ∧
    one 2 (.frcp c rm ty vd va) 10 14 14 22 (fdivR ty rm (.fin false 1) x) ∧
    one 3 (.frsq c ty vd va) 8 12 12 20 (approxR .rsq ty raw) ∧ one 4 (.fexp2 c ty vd va) 8 12 12 20 (approxR .exp2 ty raw) ∧
    one 5 (.flog2 c ty vd va) 8 12 12 20 (approxR .log2 ty raw) ∧
    one 6 (.fsin c ty vd va) 12 24 16 40 (approxR .sin ty raw) ∧ one 7 (.fcos c ty vd va) 12 24 16 40 (approxR .cos ty raw)

/-- What the floating instructions compute (R44-R55, R115, R117, R123, R129; spec/06): for operands of any bits, by their encoded fields, the first NaN
quieted; the default NaN of an invalid operation; infinities; every other result rounded once, within its mode, from the exact one, with the sign
of a zero and what an overflow gives. A difference inverts its second operand's sign; a conversion keeps NaN and sign; a conversion to an integer
rounds, then saturates, and one from an integer rounds. That the integer 0 becomes +0 in every mode is the model's choice
(notes/assumptions/64). -/
def Obligations.FloatRounding : Prop :=
  ∀ (t : FTy) (rm : Rm) (a b c : Word),
    let m := FTy.fmt t
    let raw := fun (w : Word) => w.toNat % 2 ^ m.width
    let val := fun (w : Word) => FTy.val t w
    let nan := fun (w : Word) => m.isNan (raw w)
    let inf := fun (w : Word) => m.isInf (raw w)
    let zero := fun (w : Word) => m.isZero (raw w)
    let neg := fun (w : Word) => m.signOf (raw w)
    let real := fun (w : Word) => m.realOf (raw w)
    let quiet := fun (w : Word) => raw w ||| 2 ^ (m.f - 1)
    let infinity := (2 ^ m.e - 1) * 2 ^ m.f
    let defaultNan := infinity + 2 ^ (m.f - 1)
    let apart := (neg a).xor (neg b)
    let sum := fadd t rm (val a) (val b)
    let product := fmul t rm (val a) (val b)
    let fused := fma t rm (val a) (val b) (val c)
    let quotient := fdivR t rm (val a) (val b)
    (nan a → sum = quiet a ∧ product = quiet a ∧ fused = quiet a ∧ quotient = quiet a) ∧
    (¬nan a → nan b → sum = quiet b ∧ product = quiet b ∧ fused = quiet b ∧ quotient = quiet b) ∧
    (¬nan a → ¬nan b → nan c → fused = quiet c) ∧
    (¬nan a → ¬nan b →
      (inf a → inf b → apart = true → sum = defaultNan) ∧
      (inf a → (inf b → apart = false) → sum = raw a) ∧
      (¬inf a → inf b → sum = raw b) ∧
      (¬inf a → ¬inf b →
        m.givesExact rm (real a + real b) (if raw a % 2 ^ (m.e + m.f) = 0 ∧ raw b % 2 ^ (m.e + m.f) = 0 ∧ neg a = neg b then neg a else decide (rm = .rdn)) sum) ∧
      ((inf a ∧ zero b) ∨ (zero a ∧ inf b) → product = defaultNan ∧ (¬nan c → fused = defaultNan)) ∧
      ((inf a ∧ ¬zero b) ∨ (¬zero a ∧ inf b) → product = m.withSign apart infinity ∧
        (¬nan c → fused = if raw c = m.withSign (!apart) infinity then defaultNan else m.withSign apart infinity)) ∧
      (¬inf a → ¬inf b → m.givesExact rm (real a * real b) apart product ∧ (inf c → fused = raw c) ∧
        (¬nan c → ¬inf c →
          m.givesExact rm (real a * real b + real c) (if real a * real b = 0 ∧ raw c % 2 ^ (m.e + m.f) = 0 ∧ apart = neg c then apart else decide (rm = .rdn)) fused)) ∧
      ((inf a ∧ inf b) ∨ (zero a ∧ zero b) → quotient = defaultNan) ∧
      ((inf a ∧ ¬inf b) ∨ (¬zero a ∧ ¬inf a ∧ zero b) → quotient = m.withSign apart infinity) ∧
      (¬inf a → inf b → quotient = m.withSign apart 0) ∧
      (¬inf a → ¬inf b → ¬zero b → m.givesExact rm (real a / real b) apart quotient)) ∧
    (val b).neg = val (b ^^^ BitVec.ofNat 64 (2 ^ (m.e + m.f))) ∧
    (∀ u : FTy,
      let n := FTy.fmt u
      let r := n.convert false rm (val a)
      let frac := if m.f ≤ n.f then m.fracOf (raw a) * 2 ^ (n.f - m.f) else m.fracOf (raw a) / 2 ^ (m.f - n.f)
      (nan a → r = n.withSign (neg a) ((2 ^ n.e - 1) * 2 ^ n.f + (frac ||| 2 ^ (n.f - 1)))) ∧
      (inf a → r = n.withSign (neg a) ((2 ^ n.e - 1) * 2 ^ n.f)) ∧
      (¬nan a → ¬inf a → n.givesExact rm (real a) (neg a) r)) ∧
    (∀ (w : Nat) (sg : Bool), 1 ≤ w → w ≤ 64 →
      let hi : Int := if sg then 2 ^ (w - 1) - 1 else 2 ^ w - 1
      let lo : Int := if sg then -2 ^ (w - 1) else 0
      let r := f2i w sg rm (val a)
      (nan a → r = 0) ∧ (inf a → r = BitVec.ofInt 64 (if neg a then lo else hi)) ∧
      (¬nan a → ¬inf a → ∃ n : Nat, Rm.chooses rm (neg a) |real a| 1 n ∧ r = BitVec.ofInt 64 (max lo (min hi (if neg a then -(n : Int) else n))))) ∧
    (∀ v : Int, m.givesExact rm v false (i2f m false rm v))

/-! ## Memory -/

/-- The loads LD and LDV that pass their checks (R135-R141, R264): a load of the translated place stands outstanding, for its register and residency
predicate; a page that is away under a predicate other than p7 gives zero and a false predicate; memory is unchanged. The bytes are read when the load
is performed. Model's choice: an access to a peer holds its thread until it is performed (notes/assumptions/14). -/
def Obligations.Loads : Prop :=
  ∀ (s : State) (k : Nat) (t : Thread) (c : Ctl) (off : BitVec 12) (pr : PReg) (hint : Hint) (vd va vb : Reg), s.Alone k t →
    let q := issue64 c
    let a := t.reg va.toNat + off.signExtend 64
    let ctx := s.ctxOf t
    let away : Pending := { kind := .result [.reg vd.toNat 0 none, .pred pr.toNat false], sync := q.flag.isNone }
    let load := fun (i : Instr) (n : Nat) (sgn : Bool) =>
      ∀ lf, q.Executes t [vd.toNat, va.toNat] [va.toNat] → s.check4 k t a n n .read true false .load = .ok lf →
        (∀ x, s.place (Agent.core k) ctx a n lf = .ok x →
          let p : Pending := { kind := .load { x with hint := hint.toCode.toNat } sgn vd.toNat pr.toNat, sync := q.flag.isNone || s.slow x false }
          s.Gives i k (t.afterOp s q p) ((s.used k t a).withOp q k t p)) ∧
        (s.place (Agent.core k) ctx a n lf = .error .away → pr.toNat ≠ 7 → s.Gives i k (t.afterOp s q away) (s.withOp q k t away))
    load (.ldB8 c off pr hint vd va) 1 false ∧ load (.ldB16 c off pr hint vd va) 2 false ∧ load (.ldB32 c off pr hint vd va) 4 false ∧
    load (.ldB64 c off pr hint vd va) 8 false ∧ load (.ldS8 c off pr hint vd va) 1 true ∧ load (.ldS16 c off pr hint vd va) 2 true ∧
    load (.ldS32 c off pr hint vd va) 4 true ∧
    (∀ (size : LdSize) (lf : Leaf) (f : Nat),
      let b := t.reg va.toNat
      let n := (ldvSize size).1
      let st := (t.reg vb.toNat).toNat % 2 ^ 32
      let wo := s.regionWO (some (dieOf k)) (s.regionOf lf.record)
      q.Executes t [vd.toNat, va.toNat, vb.toNat] [va.toNat, vb.toNat] → s.check4 k t b n n .read true false .versioned = .ok lf →
        lf.versioned = true → wo.2 ≤ st → st < wo.1 → lf.resident = true → s.resolve lf.record st = some f → isDevice f = true →
        let p : Pending :=
          { kind := .load { ctx := ctx, va := b.toNat, pa := f + b.toNat % 65536, size := n, key := lf.key, policy := 0 } (ldvSize size).2 vd.toNat pr.toNat
            sync := q.flag.isNone }
        s.Gives (.ldv c size pr vd va vb) k (t.afterOp s q p) ((s.used k t b).withOp q k t p))

/-- The stores ST and SIGNAL that pass their checks (R138, R140, R209): the store stands outstanding with its value; memory changes only when it is
performed. A store to a peer's line drops this package's copy of it (R413); SIGNAL, a release at its scope, closes its block's idempotent region.
Model's choice: a store to a page that is not OWNED yet and one to a peer hold their thread (notes/assumptions/14). -/
def Obligations.Stores : Prop :=
  ∀ (s : State) (k : Nat) (t : Thread) (c : Ctl) (off : BitVec 12) (hint : Hint) (sc : Scope) (fill : Bool) (src va vb : Reg), s.Alone k t →
    let q := issue64 c
    let a := t.reg va.toNat + off.signExtend 64
    let b := t.reg va.toNat
    let store := fun (i : Instr) (n : Nat) =>
      ∀ x, q.Executes t [src.toNat, va.toNat] [src.toNat, va.toNat] → s.check5 k t a n n .write false true .store = .ok x →
        let p : Pending := { kind := .store { x with hint := hint.toCode.toNat } (t.reg src.toNat), sync := s.slow x true }
        s.Gives i k (t.afterOp s q p) (((s.used k t a).dropPeerCopy x.pa).withOp q k t p)
    store (.stB8 c off hint src va) 1 ∧ store (.stB16 c off hint src va) 2 ∧ store (.stB32 c off hint src va) 4 ∧ store (.stB64 c off hint src va) 8 ∧
    (∀ x, q.Executes t [va.toNat, vb.toNat] [va.toNat, vb.toNat] → s.check5 k t b 8 8 .write false true .store = .ok x →
      let p : Pending := { kind := .signal x fill (t.reg vb.toNat), sync := q.flag.isNone || s.slow x true, ord := { rel := true, scope := sc } }
      s.Gives (.signal c sc fill va vb) k (t.afterOp s q p) ((((s.closeIdem k).used k t b).dropPeerCopy x.pa).withOp q k t p))

/-- The scratchpad accesses inside the block's allocation (R143, R203): LDS, STS and ATOMS stand outstanding on the block's bytes; ATOMS keeps its
order, at .blk. -/
def Obligations.Scratchpad : Prop :=
  ∀ (s : State) (k : Nat) (t : Thread) (b : Block) (c : Ctl) (off : BitVec 12) (vd va vb : Reg), s.Alone k t → s.blocks.find t.blk = some b →
    let q := issue64 c
    let o := t.reg va.toNat + off.signExtend 64
    let fits := fun (x : Word) (n : Nat) => x.toNat % n = 0 ∧ x.toNat + n ≤ b.scratchBytes
    let lds := fun (i : Instr) (n : Nat) (sgn : Bool) =>
      let p : Pending := { kind := .lds t.blk o.toNat n sgn vd.toNat, sync := q.flag.isNone }
      q.Executes t [vd.toNat, va.toNat] [va.toNat] → fits o n → s.Gives i k (t.afterOp s q p) (s.withOp q k t p)
    let sts := fun (i : Instr) (n : Nat) =>
      let p : Pending := { kind := .sts t.blk o.toNat n (t.reg vd.toNat), sync := false }
      q.Executes t [vd.toNat, va.toNat] [vd.toNat, va.toNat] → fits o n → s.Gives i k (t.afterOp s q p) (s.withOp q k t p)
    lds (.ldsB8 c off vd va) 1 false ∧ lds (.ldsB16 c off vd va) 2 false ∧ lds (.ldsB32 c off vd va) 4 false ∧ lds (.ldsB64 c off vd va) 8 false ∧
    lds (.ldsS8 c off vd va) 1 true ∧ lds (.ldsS16 c off vd va) 2 true ∧ lds (.ldsS32 c off vd va) 4 true ∧
    sts (.stsB8 c off vd va) 1 ∧ sts (.stsB16 c off vd va) 2 ∧ sts (.stsB32 c off vd va) 4 ∧ sts (.stsB64 c off vd va) 8 ∧
    (∀ (op : AtomOp) (ty : AtomTy) (four : Bool) (ord : AOrder),
      let x := t.reg va.toNat
      let n := if four then 4 else 8
      let p : Pending := { kind := .atoms t.blk x.toNat n (.op op ty) [{ thr := k, x := t.reg vb.toNat, dst := some vd.toNat, num := s.nextSeq }], sync := q.flag.isNone
                           ord := { acq := AOrder.acq ord, rel := AOrder.rel ord, scope := .blk } }
      q.Executes t [vd.toNat, va.toNat, vb.toNat] [va.toNat, vb.toNat] → fits x n →
        s.Gives (.atoms c op ty four ord vd va vb) k (t.afterOp s q p) ((s.closeIdem k).withOp q k t p))

/-- The full/empty forms on a resident word of device memory that pass their checks (R148-R150): each stands outstanding with its value, register and
residency predicate and its order at its scope; only LDW and FEQ leave the block's idempotent region open. Model's choices: a flagged form on a page
that is not OWNED yet, or to a peer, holds its thread until it is performed (notes/assumptions/14); the region closes at the form's issue, and PURGE
closes it (notes/assumptions/16). -/
def Obligations.FullEmptyForms : Prop :=
  ∀ (s : State) (k : Nat) (t : Thread) (c : Ctl) (off : BitVec 12) (pr pd : PReg) (sc : Scope) (vd va : Reg), s.Alone k t →
    let q := issue64 c
    let a := t.reg va.toNat + off.signExtend 64
    let form := fun (i : Instr) (o : FeOp) (named reads : List Nat) (need : Need) (rd wr waits acq rel closes : Bool) (v : Word) (dst : Nat) =>
      ∀ lf x, q.Executes t (va.toNat :: named) (va.toNat :: reads) → s.check4 k t a 8 8 need rd wr .fe = .ok lf →
        s.place (Agent.core k) (s.ctxOf t) a 8 lf = .ok x → isDevice x.pa = true →
        let p : Pending := { kind := .feform x o v dst pr.toNat, sync := q.flag.isNone || waits || s.slow x wr, ord := { acq := acq, rel := rel, scope := sc } }
        s.Gives i k (t.afterOp s q p) (((if closes then s.closeIdem k else s).used k t a).withOp q k t p)
    form (.ldw c off pr sc vd va) .ldw [vd.toNat] [] .write true false true true false false 0 vd.toNat ∧
    form (.ldc c off pr sc vd va) .ldc [vd.toNat] [] .write true true true true true true 0 vd.toNat ∧
    form (.stf c off pr sc vd va) .stf [vd.toNat] [vd.toNat] .write false true true true true true (t.reg vd.toNat) 0 ∧
    form (.stx c off pr sc vd va) .stx [vd.toNat] [vd.toNat] .write false true false false true true (t.reg vd.toNat) 0 ∧
    form (.purge c off pr sc va) .purge [] [] .write false true false false true true 0 0 ∧
    form (.feq c off pr sc pd va) .feq [] [] .read true false false true false false 0 pd.toNat

/-- The atomics on memory that pass their checks on a page other than WC (R201-R204): one atomic step of one member stands outstanding with its
operands and its order at its scope, RED as a release only; a peer's line is dropped from this package (R413); and the block's idempotent region
closes. Model's choice: a flagged atomic on a page that is not OWNED yet, or to a peer, holds its thread until it is performed (notes/assumptions/14). -/
def Obligations.Atomics : Prop :=
  ∀ (s : State) (k : Nat) (t : Thread) (c : Ctl) (four : Bool) (ord : AOrder) (sc : Scope) (vd va vb vc : Reg), s.Alone k t →
    let q := issue64 c
    let a := t.reg va.toNat
    let n := if four then 4 else 8
    let atomic := fun (i : Instr) (acq : Bool) (fn : AtomFn) (named reads : List Nat) (m : AtomMember) =>
      ∀ x, q.Executes t (va.toNat :: named) (va.toNat :: reads) → s.check5 k t a n n .write true true .atomic = .ok x → x.policy ≠ 2 →
        let p : Pending :=
          { kind := .atomic x fn [m], sync := q.flag.isNone || s.slow x true
            ord := { acq := acq && (ord == .acqRel || ord == .acquire), rel := ord == .acqRel || ord == .release, scope := sc } }
        s.Gives i k (t.afterOp s q p) ((((s.closeIdem k).used k t a).dropPeerCopy x.pa).withOp q k t p)
    (∀ (op : AtomOp) (ty : AtomTy),
      atomic (.atom c op ty four ord sc vd va vb) true (.op op ty) [vd.toNat, vb.toNat] [vb.toNat] { thr := k, x := t.reg vb.toNat, dst := some vd.toNat, num := s.nextSeq } ∧
      atomic (.red c op ty four ord sc va vb) false (.op op ty) [vb.toNat] [vb.toNat] { thr := k, x := t.reg vb.toNat, dst := none, num := s.nextSeq }) ∧
    atomic (.cas c four ord sc vd va vb vc) true .cas [vd.toNat, vb.toNat, vc.toNat] [vb.toNat, vc.toNat]
      { thr := k, x := t.reg vb.toNat, y := t.reg vc.toNat, dst := some vd.toNat, num := s.nextSeq }

/-- TOUCH, PREF, CCTL, FENCE and VRETIRE (R144-R147, R239, R265): what each leaves outstanding; a TOUCH of a resident page, a CCTL on a line that its
cache does not hold or on an away page, and a VRETIRE at or below O as its die has applied it, have their answer already, the first two at once; CCTL
iinvall passes the address check and the watchpoints and is not translated; PREF is done in its issue clk. -/
def Obligations.CacheAndOrder : Prop :=
  ∀ (s : State) (k : Nat) (t : Thread) (c : Ctl) (off : BitVec 12) (pr : PReg) (va vb : Reg), s.Alone k t →
    let q := issue64 c
    let a := t.reg va.toNat + off.signExtend 64
    let one := q.Executes t [va.toNat] [va.toNat]
    (∀ lf, one → s.check4 k t a 1 1 .read true false .load = .ok lf → lf.resident = true →
      let p : Pending := { kind := .result [.pred pr.toNat true], sync := q.flag.isNone, lat := (0, some 1) }
      s.Gives (.touch c off pr va) k (t.afterOp s q p) (s.withOp q k t p)) ∧
    (∀ lf, one → s.check4 k t a 1 1 .read true false .load = .ok lf → lf.resident = false → bit (s.c0Of t) 24 = false →
      let p : Pending := { kind := .touch a.toNat (s.ctxOf t) pr.toNat none, sync := q.flag.isNone }
      s.Gives (.touch c off pr va) k (t.afterOp s q p)
        { s.withOp q k t p with resReqs := s.resReqs ++ [{ ctx := s.ctxOf t, va := a.toNat, op := some s.nextSeq }] }) ∧
    (∀ l2 excl : Bool, one → s.Gives (.pref c off l2 excl va) k (t.afterFixed s q 1 []) (s.prefetch k a l2 excl).numbered) ∧
    (∀ op : CctlOp, op ≠ .iinvall → ∀ lf x, one → s.check4 k t a 1 1 .read true false .load = .ok lf →
      s.place (Agent.core k) (s.ctxOf t) a 1 lf = .ok x →
      let used := s.used k t a
      let p : Pending := if used.cctlMeets (coreOf k) op x.pa then { kind := .cctl op x.pa, sync := q.flag.isNone }
        else { kind := .result [], sync := q.flag.isNone, lat := (0, some 1) }
      s.Gives (.cctl c off op va) k (t.afterOp s q p) (used.withOp q k t p)) ∧
    (∀ op : CctlOp, op ≠ .iinvall → ∀ lf, one → s.check4 k t a 1 1 .read true false .load = .ok lf → lf.resident = false →
      let p : Pending := { kind := .result [], sync := q.flag.isNone, lat := (0, some 1) }
      s.Gives (.cctl c off op va) k (t.afterOp s q p) (s.withOp q k t p)) ∧
    (one → a.extractLsb' 57 7 = 0 → (t.skipWatch = true ∨ s.watchHits k t a 1 true false = 0) →
      let p : Pending := { kind := .cctl .iinvall 0, sync := q.flag.isNone }
      s.Gives (.cctl c off .iinvall va) k (t.afterOp s q p) (s.withOp q k t p)) ∧
    (∀ (kind : FenceKind) (sc : Scope), q.Executes t [] [] →
      let p : Pending := { kind := .fence kind sc, sync := true }
      s.Gives (.fence c kind sc) k (t.afterOp s q p) (s.withOp q k t p)) ∧
    (∀ lf, q.Executes t [va.toNat, vb.toNat] [va.toNat, vb.toNat] → s.check4 k t (t.reg va.toNat) 1 1 .write false false .versioned = .ok lf →
      lf.versioned = true →
      let st := (t.reg vb.toNat).toNat % 2 ^ 32
      let reg := s.regionOf lf.record
      let wo := s.regionWO (some (dieOf k)) reg
      (st < wo.1 → st ≤ wo.2 →
        let p : Pending := { kind := .result [], sync := q.flag.isNone }
        s.Gives (.vretire c va vb) k (t.afterOp s q p) (s.withOp q k t p)) ∧
      (st < wo.1 → wo.2 < st →
        let p : Pending := { kind := .vretire reg st, sync := q.flag.isNone }
        s.Gives (.vretire c va vb) k (t.afterOp s q p)
          { (s.used k t (t.reg va.toNat)).withOp q k t p with regCmds := s.regCmds.put s.nextSeq { region := reg, w := wo.1, o := st, acks := [] } }))

/-! ## Control -/

/-- BRA, JMP, NOP, WAIT, YIELD, EXIT and IDEMEND (R72, R103, R104, R108-R111, R210): the PC that each leaves and what the thread does
then; a flag named by one of them rises and falls in its issue clk, but a WAIT that waits keeps it up. -/
def Obligations.ControlInstructions : Prop :=
  ∀ (s : State) (k : Nat) (t : Thread) (c : Ctl) (off : BitVec 24) (va : Reg), s.Alone k t →
    let q := issue64 c
    let a := t.reg va.toNat
    let done := fun (i : Instr) (regs : List Nat) (u : Thread) => q.Executes t regs regs → s.Gives i k (u.afterControl s q) s.numbered
    let waits := fun (time : Bool) (d : Nat) =>
      q.Executes t [va.toNat] [va.toNat] →
        s.Gives (.wait c time va) k ((({ t with status := .wait time d q.flag } : Thread).succeeded).wentOn s q (t.past q)) s
    done (.bra c off) [] { t with pc := t.pc + 2 * off.signExtend 57 } ∧
    (a.extractLsb' 57 7 = 0 → a.getLsbD 0 = false → done (.jmp c va) [va.toNat] { t with pc := a.setWidth 57 }) ∧
    done (.nop c) [] { t with pc := t.pc + 8 } ∧
    done (.exit c) [] { t with status := .exited } ∧
    done (.yield c) [] { t with status := .yield (s.clk + 32), pc := t.pc + 8 } ∧
    waits false (s.clk + (a.setWidth 32).toNat) ∧
    (s.ptp < a.toNat → waits true a.toNat) ∧
    (a.toNat ≤ s.ptp → done (.wait c true va) [va.toNat] { t with pc := t.pc + 8 }) ∧
    (q.Executes t [] [] → s.Gives (.idemend c) k (({ t with pc := t.pc + 8 } : Thread).afterControl s q) (s.closeIdem k).numbered)

/-- CALL, CALLR and RET with the return stack and its spills and fills, and CALLT with its table (R24, R25, R104-R107, R337): what each pushes or
pops, where it goes, and the access that it leaves outstanding. A CALLT leaves the load of its table's header outstanding, which, performed, leaves
that of the record, which gives the call or says that there is none; one whose push spills writes its record and predicate when the spill is
done. A table in host memory that no die holds is read as the host has left it, which is the model's choice (R245; notes/assumptions/22), as is
that a sector with an uncorrectable error is used as it stands (notes/assumptions/47). -/
def Obligations.CallsAndReturns : Prop :=
  (∀ (s : State) (k : Nat) (t : Thread) (c : Ctl) (off : BitVec 24) (va : Reg), s.Alone k t →
     let q := issue64 c
     let a := t.reg va.toNat
     let top := t.tlsbase + BitVec.ofNat 64 (8 * t.depth)
     let under := t.tlsbase + BitVec.ofNat 64 (8 * (t.depth - 1))
     let calls := fun (i : Instr) (regs : List Nat) (target : Pc) =>
       q.Executes t regs regs →
         (t.hw.length < 8 → s.Gives i k (({ t with hw := t.hw ++ [t.pc + 8], pc := target } : Thread).afterControl s q) s.numbered) ∧
         (∀ x, t.hw.length = 8 → t.depth < 512 → s.check5 k t top 8 8 .write false true .retstack = .ok x →
           let p : Pending := { kind := .spill x ((t.hw.headD 0).setWidth 64), sync := true }
           s.Gives i k (({ t with hw := t.hw.drop 1 ++ [t.pc + 8], depth := t.depth + 1, pc := target } : Thread).heldOn s.nextSeq s q)
             (((s.used k t top).dropPeerCopy x.pa).withOp q k t p))
     calls (.call c off) [] (t.pc + 2 * off.signExtend 57) ∧
     (a.extractLsb' 57 7 = 0 → a.getLsbD 0 = false → calls (.callr c va) [va.toNat] (a.setWidth 57)) ∧
     (q.Executes t [] [] →
       (∀ l e, t.hw = l ++ [e] → s.Gives (.ret c) k (({ t with hw := l, pc := e } : Thread).afterControl s q) s.numbered) ∧
       (∀ x, t.hw = [] → 0 < t.depth → s.check5 k t under 8 8 .read true false .retstack = .ok x →
         let p : Pending := { kind := .fill x, sync := true }
         s.Gives (.ret c) k (({ t with depth := t.depth - 1 } : Thread).heldOn s.nextSeq s q) ((s.used k t under).withOp q k t p)))) ∧
  (∀ (s : State) (k : Nat) (t : Thread) (c : Ctl) (pd : PReg) (vd va vb : Reg) (x : Access), s.Alone k t →
     let q := issue64 c
     let base := t.reg va.toNat
     q.Executes t [vd.toNat, va.toNat, vb.toNat] [va.toNat, vb.toNat] → s.check5 k t base 64 8 .read true false .shtable = .ok x →
       let p : Pending := { kind := .callt { vd := vd.toNat, pd := pd.toNat, base := base, index := t.reg vb.toNat, want := x }, sync := true }
       s.Gives (.callt c pd vd va vb) k (t.heldOn s.nextSeq s q) ((s.used k t base).withOp q k t p)) ∧
  (∀ (s : State) (op k : Nat) (o : Op) (c : CalltOp) (t : Thread), s.Free op o k false → o.kind = .callt c → s.threads.find k = some t →
     let s0 := s.fromOwner o c.want
     let v := s0.loadValue op k c.want
     let s1 := (s0.afterRead op o (s0.paNow c.want) c.want.size false).readNow op o c.want
     let leaves := fun (p : Op) (u : Thread) =>
       ∃ s2, exec (.classVResultLands op) s = .next s2 ∧ s2.ops.find op = some p ∧ s2.mem = s0.mem ∧ s2.threads.find k = some u
     let ends := fun (u : Thread) (l : List Landing) =>
       ∃ s2, exec (.classVResultLands op) s = .next s2 ∧ s2.ops.find op = none ∧ s2.mem = s0.mem ∧ s2.threads.find k = some (u.queueAll op s.clk (o.ending l))
     (∀ n x, c.entry = none →
       (if (c.index.setWidth 32).toNat < (v.setWidth 32).toNat then n = (c.index.setWidth 32).toNat else n = 0 ∧ v.getLsbD 32 = true ∧ 0 < (v.setWidth 32).toNat) →
       let e := c.base + 64 + BitVec.ofNat 64 (64 * n)
       s1.check5 k t e 8 8 .read true false .shtable = .ok x → leaves { o with kind := .callt { c with entry := some e, want := x } } t) ∧
     (∀ e, c.entry = some e →
       (v = 0 → ends { t with pc := o.pc + 8 } [.pred c.pd false]) ∧
       (v ≠ 0 → v.extractLsb' 57 7 = 0 → v.getLsbD 0 = false →
         let found : List Landing := [.reg c.vd e none, .pred c.pd true]
         let top := t.tlsbase + BitVec.ofNat 64 (8 * t.depth)
         (t.hw.length < 8 → ends { t with hw := t.hw ++ [o.pc + 8], pc := v.setWidth 57 } found) ∧
         (∀ x, t.hw.length = 8 → t.depth < 512 → s1.check5 k t top 8 8 .write false true .retstack = .ok x →
           leaves { o with also := found, kind := .spill x ((t.hw.headD 0).setWidth 64) }
             { t with hw := t.hw.drop 1 ++ [o.pc + 8], depth := t.depth + 1, pc := v.setWidth 57 }))))

/-! ## Barriers, bundle-wide instructions, LAUNCH -/

/-- The barrier instructions on a barrier of the thread's levels (R191, R192, R196): each leaves its event at the barrier, to be answered within its
level's bound; a BARW on a completed phase has its answer already. Each carries its order at its level's scope. Model's choices: an arrival reaches
its barrier as an event within its bound, and BARS holds its thread (notes/assumptions/17). -/
def Obligations.BarrierInstructions : Prop :=
  ∀ (s : State) (k : Nat) (t : Thread) (c : Ctl) (bar : BarRef) (h : BarHome) (b : Barrier) (pd : PReg) (vd va : Reg), s.Alone k t →
    s.barHome t bar = some h → s.barGet h = some b →
    let q := issue64 c
    let a := t.reg va.toNat
    let ph := (a.setWidth 32).toNat
    let lat : Nat × Option Nat := (0, some (match h with
      | .block _ _ => 64
      | .grove _ _ => 256
      | .span _ _ => 1024))
    let gives := fun (i : Instr) (named reads : List Nat) (p : Pending) =>
      q.Executes t named reads → s.Gives i k (t.afterOp s q p) (s.withOp q k t p)
    let ord := fun (acq rel : Bool) => ({ acq := acq, rel := rel, scope := (match h with
      | .block _ _ => .blk
      | .grove _ _ => .grv
      | .span _ _ => .pkg) } : Order)
    gives (.bara c bar vd) [vd.toNat] [] { kind := .barEv h (.arrive vd.toNat), sync := q.flag.isNone, ord := ord false true, lat := lat } ∧
    gives (.bars c bar va) [va.toNat] [va.toNat] { kind := .barEv h (.post (a.setWidth 32).toInt), sync := true, ord := ord false true, lat := lat } ∧
    gives (.bare c bar vd) [vd.toNat] [] { kind := .barEv h (.arriveWait vd.toNat), sync := q.flag.isNone, ord := ord true true, lat := lat } ∧
    gives (.bart c bar pd va) [va.toNat] [va.toNat] { kind := .barEv h (.test ph pd.toNat), sync := q.flag.isNone, ord := ord true false, lat := lat } ∧
    (phaseDone b ph = false →
      gives (.barw c bar vd va) [vd.toNat, va.toNat] [va.toNat] { kind := .barw h ph vd.toNat, sync := q.flag.isNone, ord := ord true false, lat := lat }) ∧
    (phaseDone b ph = true →
      let p : Pending :=
        { kind := .result [.reg vd.toNat (statusWord ph (phaseStatus b ph)) none], sync := q.flag.isNone, ord := ord true false, lat := lat }
      q.Executes t [vd.toNat, va.toNat] [va.toNat] → s.Gives (.barw c bar vd va) k (t.afterOp s q p) ((s.see k b.done).withOp q k t p))

/-- SHFL, VOTE and REDB (R163, R198-R200) in a gang of any size: each taker's result comes from the takers of its own bundle. -/
def Obligations.BundleWide : Prop :=
  ∀ (s : State) (c : Ctl) (mode : ShflMode) (pv : PReg) (v : VoteOp) (op : RedOp) (ty : RedTy) (vd va vb : Reg),
    let q := issue64 c
    let mates := fun (k : Nat) => (s.takers q).filter fun j => sameBundle j k
    let val := fun (j : Nat) (r : Reg) => (s.thr j).reg r.toNat
    (s.Together q [vd.toNat, va.toNat, vb.toNat] [va.toNat, vb.toNat] →
      ∃ from_ : Nat → Option Nat,
        (∀ k, ∀ j, from_ k = some j → j ∈ mates k ∧ some (laneOf j) = shflSource mode (laneOf k) (val k vb)) ∧
        (∀ k, from_ k = none → ∀ j ∈ mates k, some (laneOf j) ≠ shflSource mode (laneOf k) (val k vb)) ∧
        s.GivesEach (.shfl c mode pv vd va vb) q fun k =>
          { kind := .result [.reg vd.toNat (val ((from_ k).getD k) va) none, .pred pv.toNat (from_ k).isSome], sync := q.flag.isNone, lat := (0, some 16) }) ∧
    (s.Together q (voteNamed v) (voteReads v) →
      ∃ out : Nat → Landing,
        (∀ k, match v with
          | .any inv pd pa => ∃ b : Bool, out k = .pred pd.toNat b ∧ (b = true ↔ ∃ j ∈ mates k, (s.thr j).pred pa.toNat ≠ inv)
          | .all inv pd pa => ∃ b : Bool, out k = .pred pd.toNat b ∧ (b = true ↔ ∀ j ∈ mates k, (s.thr j).pred pa.toNat ≠ inv)
          | .ballot inv vd pa => ∃ w : Word, out k = .reg vd.toNat w none ∧
              ∀ i, w.getLsbD i = true ↔ ∃ j ∈ mates k, laneOf j = i ∧ (s.thr j).pred pa.toNat ≠ inv
          | .eq pd va => ∃ b : Bool, out k = .pred pd.toNat b ∧ (b = true ↔ ∀ i ∈ mates k, ∀ j ∈ mates k, val i va = val j va)) ∧
        s.GivesEach (.vote c v) q fun k => { kind := .result [out k], sync := q.flag.isNone, lat := (0, some 16) }) ∧
    (s.Together q [vd.toNat, va.toNat] [va.toNat] →
      s.GivesEach (.redb c op ty vd va) q fun k =>
        { kind := .result [.reg vd.toNat (redAll op ty ((mates k).map fun j => val j va)) none], sync := q.flag.isNone
          lat := (0, some (if ty = .d ∨ ty = .f then 160 else 24)) })

/-- LAUNCH that passes its checks (R208): the record and its slot stand outstanding, the thread is held until both have been served, and
its block's idempotent region closes. -/
def Obligations.LaunchInstruction : Prop :=
  ∀ (s : State) (k : Nat) (t : Thread) (c : Ctl) (sc : Scope) (va vb : Reg) (slot src : Access), s.Alone k t →
    let q := issue64 c
    q.Executes t [va.toNat, vb.toNat] [va.toNat, vb.toNat] → s.launchCheck k (t.reg va.toNat) (t.reg vb.toNat) = .ok (slot, src) →
    let p : Pending := { kind := .launch slot src, sync := true, ord := { rel := true, scope := sc } }
    s.Gives (.launch c sc va vb) k (t.afterOp s q p) ((((s.closeIdem k).used k t (t.reg vb.toNat)).used k t (t.reg va.toNat)).withOp q k t p)

/-! ## Engines and the matrix array -/

/-- The engine commands (R271, R273, R279, R291-R294, R297-R304). One that its engine has room for and that passes its checks stands there with what
its thread read at issue; one that fails a check stands there ended, with its code; one whose engine is full issues nothing, and its thread is held.
ENGINE_ACCEPT issues the command that a thread is held at, once its engine has room, and gives what the issue gives (R271). EQRY reads a depth. Which
engine is named or the least deep of the die's four. A command of a group reads its descriptor after its acceptance, which is the model's choice
(notes/assumptions/26). -/
def Obligations.EngineCommands : Prop :=
  ∀ (s : State) (k : Nat) (t : Thread) (c : Ctl) (ord sys : Bool) (eng : EngSel) (credit : Option BarRef) (vd va vb : Reg) (e : Nat), s.Alone k t →
    let q := issue64 c
    let blk := fun (n : Nat) => (List.range n).map (va.toNat + ·)
    let named := fun (n : EngSel) => match n with
      | .ce n => e = n.toNat
      | .near => e / 4 = dieOf k ∧ ∀ j, j / 4 = dieOf k → s.engDepth e ≤ s.engDepth j ∧ (s.engDepth j = s.engDepth e → e ≤ j)
    let asks := fun (i : Instr) (e limit n : Nat) (extra : List Nat) (kind : CmdKind) =>
      let cmd := s.asks c ord e credit kind n vd va k t
      let code := cmd.check
      q.Executes t (vd.toNat :: (extra ++ blk n)) (extra ++ blk n) →
        (limit ≤ s.engDepth e → s.Gives i k { t with status := .held s.inst [k] } s) ∧
        (s.engDepth e < limit →
          let entered := fun (s1 : State) => s1.threads.find k = some (t.handedOver s q q.flag.isNone) ∧ s1.mem = s.mem ∧
            s1.cmds.find s.nextSeq = some (if code = 0 then cmd else { cmd with done := true, err := code, errAddr := 0, stage := 1 })
          (∃ s1, exec i s = .next s1 ∧ entered s1) ∧
          (∀ (h : State) (w : Word), h.Holds k i w s → ∃ s1, exec (.engineAccept k) h = .next s1 ∧ entered s1))
    (named eng →
      asks (.cpy c ord eng credit vd va) e 64 8 [] .cpy ∧
      asks (.cpyx c ord eng credit vd va) e 64 8 [] .cpyx ∧
      asks (.coll c ord eng credit vd va) e 64 6 [] .coll ∧
      asks (.halo c ord eng credit vd va) e 64 9 [] .halo ∧
      (matrixImage (t.reg vb.toNat) = none → asks (.cpym c ord eng credit vd va vb) e 64 8 [vb.toNat] (.cpym (t.reg vb.toNat) 0 0 0 true)) ∧
      (∀ ic fmt ga pe en bar tok a, matrixImage (t.reg vb.toNat) = some (ic, fmt, ga, pe, en, bar, tok, a) →
        t.marks.find a = none → t.marks.find (a + 1) = none → t.marks.find (a + 2) = none →
          asks (.cpym c ord eng credit vd va vb) e 64 8 [vb.toNat]
            (.cpym (t.reg vb.toNat) (t.reg a) (t.reg (a + 1)) (t.reg (a + 2)) (!s.imageOk t (t.reg vb.toNat))))) ∧
    asks (.publish c ord sys credit vd va) 17 128 2 [] (.publish sys) ∧
    (∀ sel : QrySel, (match sel with
        | .ce n => e = n.toNat
        | .near => named .near
        | .heartwood => e = 17) →
      s.engDepth e < 256 →
      let p : Pending := { kind := .result [.reg vd.toNat (BitVec.ofNat 64 (256 * e + s.engDepth e)) none], sync := q.flag.isNone, lat := (0, some 32) }
      q.Executes t [vd.toNat] [] → s.Gives (.eqry c sel vd) k (t.afterOp s q p) (s.withOp q k t p))

/-- The matrix instructions (R309, R310, R314, R319). With a free entry in every partner's array the operation stands with its operands of the
issue, one queued share for each block it names; while an array is full the thread is held and nothing else happens. MATRIX_ACCEPT issues the
operation that a thread is held at, once the arrays have room, and gives what the issue gives (R314). -/
def Obligations.MatrixInstructions : Prop :=
  ∀ (s : State) (k : Nat) (t : Thread) (c : Ctl) (en : BitVec 2) (fmt : TyCode) (bar : Option BarRef) (vd va : Reg), s.Alone k t →
    let q := issue64 c
    let blk := [va.toNat, va.toNat + 1, va.toNat + 2]
    let asks := fun (i : Instr) (gather perm : Bool) =>
      let o := s.asksMatrix c en fmt gather perm bar vd va k t
      let bs := s.maskBlocks o.grove o.mask
      q.Executes t (vd.toNat :: blk) blk → (∀ b, bar = some b → (s.barHome t b).isSome = true) → s.badRank o.grove o.mask = none →
        (s.arraysFree bs = false → s.Gives i k { t with status := .held s.inst [k] } s) ∧
        (s.arraysFree bs = true →
          let entered := fun (s1 : State) (shares : List Share) => s1.threads.find k = some (t.handedOver s q q.flag.isNone) ∧ s1.mem = s.mem ∧
            s1.mxOps.find s.nextSeq = some { o with shares := shares } ∧
            shares.map (fun x => (x.rank, x.blk)) = bs ∧
            ∀ x ∈ shares, x.state = .queued ∧ x.step = 0 ∧ x.result = [] ∧
              .share s.nextSeq x.rank ∈ (s1.core (s1.coreOfBlock x.blk)).array
          (∃ s1 shares, exec i s = .next s1 ∧ entered s1 shares) ∧
          (∀ (h : State) (w : Word), h.Holds k i w s → ∃ s1 shares, exec (.matrixAccept k) h = .next s1 ∧ entered s1 shares))
    asks (.mma c en fmt bar vd va) false false ∧ asks (.mmag c en fmt bar vd va) true false ∧ asks (.mmaq c en fmt bar vd va) false true

/-- The shares of an operation split its rows or columns without loss (R311): spans of whole groups but for the last row or column, their
sum the total, and none empty while there are as many groups as partners. -/
def Obligations.SharesCoverTheOperation : Prop :=
  ∀ (total g p : Nat), 0 < g → 0 < p →
    ((List.range p).map (shareSpan total g p)).sum = total ∧
    (p ≤ (total + g - 1) / g → ∀ i, i < p → 0 < shareSpan total g p i) ∧
    ∀ i, i + 1 < p → g ∣ ((List.range (i + 1)).map (shareSpan total g p)).sum ∨ ((List.range (i + 1)).map (shareSpan total g p)).sum = total

/-- ACCZ, ACCRD, ACCWR and PERMT inside their limits (R305, R320-R322): each enters its core's array behind what stands there, and is
outstanding; with a full array the thread is held. -/
def Obligations.AccumulatorInstructions : Prop :=
  ∀ (s : State) (k : Nat) (t : Thread) (b : Block) (c : Ctl) (four : Bool) (vd va vb : Reg), s.Alone k t → s.blocks.find t.blk = some b →
    let q := issue64 c
    let low := fun (r : Reg) (n : Nat) => (t.reg r.toNat).toNat % 2 ^ n
    let n4 := if four then 4 else 8
    let array := fun (i : Instr) (named reads : List Nat) (kind : OpKind) =>
      let p : Pending := { kind := kind, sync := q.flag.isNone }
      q.Executes t named reads →
        ((s.core (coreOf k)).array.length < 8 → s.Gives i k (t.afterOp s q p) ((s.withOp q k t p).withArray (coreOf k) (.op s.nextSeq))) ∧
        (8 ≤ (s.core (coreOf k)).array.length → s.Gives i k { t with status := .held s.inst [k] } s)
    (low va 20 % 8 = 0 → low vb 21 % 8 = 0 → low va 20 + low vb 21 ≤ s.accBytes k →
      array (.accz c va vb) [va.toNat, vb.toNat] [va.toNat, vb.toNat] (.accz (low va 20) (low vb 21))) ∧
    (low va 20 % n4 = 0 → low va 20 + n4 ≤ s.accBytes k →
      array (.accrd c four vd va) [vd.toNat, va.toNat] [va.toNat] (.accrd (low va 20) n4 vd.toNat) ∧
      array (.accwr c four va vb) [va.toNat, vb.toNat] [va.toNat, vb.toNat] (.accwr (low va 20) n4 (t.reg vb.toNat))) ∧
    (low va 23 % 2 = 0 → low vb 15 ≤ 16384 → low va 23 + 2 * low vb 15 ≤ b.scratchBytes →
      array (.permt c va vb) [va.toNat, vb.toNat] [va.toNat, vb.toNat] (.permt t.blk (low va 23) (low vb 15)))

/-! ## The traversal unit -/

/-- TRACE, TRACEK, MARCH and HITATTR (R327, R328, R331-R335): each stands outstanding with its operand block of the issue. Its query goes on as its
reads are performed; once it has what it needs its answer stands to land in its result registers, and an answer that is an error gives a status word
with its code, zeros beside it, and a mark with the address. A ray that is none is such an error. Model's choices: where the spec leaves a value of an
answer open it is a free value (notes/assumptions/28), and what a ray on a boundary or a Gaussian without numbers meets (notes/assumptions/29). -/
def Obligations.TraversalInstructions : Prop :=
  (∀ (s : State) (k : Nat) (t : Thread) (c : Ctl) (anyHit : Bool) (km1 : BitVec 3) (vd va vb : Reg), s.Alone k t →
    let q := issue64 c
    let begins := fun (i : Instr) (reads : List Nat) (n m : Nat) (query : UnitQ) =>
      let p : Pending := { kind := .unit { q := query, vd := vd.toNat, a := (List.range n).map fun j => t.reg (va.toNat + j) }, sync := q.flag.isNone }
      q.Executes t (reads ++ run vd m) reads → s.Gives i k (t.afterOp s q p) (s.withOp q k t p)
    begins (.trace c anyHit vd va) (run va 6) 6 3 (.trace anyHit) ∧
    (Config.gaussCapable (coreOf k % 512) = true → begins (.tracek c km1 vd va) (run va 6) 6 (km1.toNat + 2) (.tracek (km1.toNat + 1))) ∧
    begins (.march c vd va) (run va 5) 5 5 .march ∧ begins (.hitattr c vd va vb) (vb.toNat :: run va 3) 3 2 (.hitattr (t.reg vb.toNat))) ∧
  (∀ (s : State) (op k : Nat) (o : Op) (u : UnitOp), s.Free op o k false → o.kind = .unit u →
    let r := (s.unitUpd op fun x => { x with count := {} }).unitQuery op u
    let lands := fun (l : List Landing) => ∃ s2, exec (.classVResultLands op) s = .next s2 ∧ r.1.Landed s2 op o k l ∧ s2.mem = r.1.mem
    (∀ ws, r.2 = .ok ws → lands ((List.range u.q.results.1).map fun j => .reg (u.vd + j) (ws.getD j 0) none)) ∧
    (∀ code at_, r.2 = .error (code, at_) → code ≠ 0 → lands ((List.range u.q.results.1).map fun j =>
      if j = u.q.results.2 then
        .reg (u.vd + j) (BitVec.ofNat 64 (2 ^ 63) ||| BitVec.ofNat 64 (code * 2 ^ 48)) (some { issuePc := o.pc.setWidth 64, source := 19, code := code, addr := at_ })
      else .reg (u.vd + j) 0 none)) ∧
    (∀ at_, r.2 = .error (0, at_) → exec (.classVResultLands op) s = .next r.1) ∧
    (∀ anyHit, u.q = .trace anyHit → rayOf (fun j => u.a.getD j 0) = none → r.2 = .error (1, 0)))

/-- GRAFT and FRAMEOUT (R327, R336, R338, R344, R346): each is outstanding with what it read at issue, and closes its block's idempotent region.
Model's choice: a GRAFT goes on one record, or up to one wait, at a move (notes/assumptions/33). -/
def Obligations.GraftAndFrameout : Prop :=
  ∀ (s : State) (k : Nat) (t : Thread) (c : Ctl) (vd va vb : Reg), s.Alone k t →
    let q := issue64 c
    let a := fun i => t.reg (va.toNat + i)
    let blk := (List.range 4).map (va.toNat + ·)
    let gives := fun (i : Instr) (named reads : List Nat) (kind : OpKind) =>
      let p : Pending := { kind := kind, sync := q.flag.isNone }
      q.Executes t named reads → s.Gives i k (t.afterOp s q p) ((s.closeIdem k).withOp q k t p)
    gives (.graft c vd va) (vd.toNat :: blk) blk (.graft { vd := vd.toNat, a0 := a 0, a1 := a 1, a2 := a 2, a3 := a 3 }) ∧
    gives (.frameout c vd va vb) [vd.toNat, va.toNat, vb.toNat] [va.toNat, vb.toNat]
      (.frameout t.blk ((a 0).toNat % 2 ^ 23) (t.reg vb.toNat) vd.toNat)

/-! ## Special registers and faults -/

/-- SRD and SWR (R27, R28): the value of every special register at issue, and the handler address with its low bit and its top bits cleared; both land
at the end of clk t + 1. Model's choices: the clock counts from a free value of each core (notes/assumptions/30), and sr.park is c3 as it stood at
placement (notes/assumptions/46). -/
def Obligations.SpecialRegisters : Prop :=
  ∀ (s : State) (k : Nat) (t : Thread) (b : Block) (g : Grove) (l : Launch) (c : Ctl) (sr : SReg) (vd va : Reg), s.Alone k t →
    s.blocks.find t.blk = some b → s.groves.find b.grove = some g → s.launches.find b.launch = some l →
    let q := issue64 c
    let n := fun (v : Nat) => BitVec.ofNat 64 v
    let value : Word := match sr with
      | .tid => n t.tid
      | .lane => n (t.tid % 32)
      | .bundle => n (t.tid / 32)
      | .blk => n b.idx
      | .grove => n g.index
      | .span => if bit (l.words.getD 5 0) 56 then n ((l.words.getD 5 0).toNat % 2 ^ 32) else 0
      | .core => n b.rank ||| (n (coreOf k % 512) <<< 16) ||| (n (dieOf k) <<< 26)
      | .clock => Config.clockBase (coreOf k) + n s.clk
      | .time => n s.ptp
      | .ebud => n ((s.ctxSt l.ctx).ebud % 2 ^ 32)
      | .tba => t.tba
      | .tlsbase => t.tlsbase
      | .park => b.park
      | .uctl => if b.c0.getLsbD 1 then 1 else 0
      | .frec w => [t.frec.w0, t.frec.w1, t.frec.w2, t.frec.w3, t.frec.w4, t.frec.w5, t.frec.w6, t.frec.w7].getD w.toNat 0
      | .frecPrev w => [t.frecPrev.w0, t.frecPrev.w1, t.frecPrev.w2, t.frecPrev.w3, t.frecPrev.w4, t.frecPrev.w5, t.frecPrev.w6, t.frecPrev.w7].getD w.toNat 0
    (q.Executes t [vd.toNat] [] → s.Gives (.srd c sr vd) k (t.afterFixed s q 2 [.reg vd.toNat value none]) s.numbered) ∧
    (q.Executes t [va.toNat] [va.toNat] →
      s.Gives (.swr c va) k (t.afterFixed s q 2 [.tba (((t.reg va.toNat).extractLsb' 1 56).setWidth 64 <<< 1)]) s.numbered)

/-- TRAP and BKPT take their faults (R354, R356, R359-R361, R364, R366): the old record moves over, the new one holds the PC, the cause, the lane
and the parcels, and in hardware mode the handler runs with the record active; else, and always for BKPT, the thread stays stopped and
a report goes to its die's ring. -/
def Obligations.TrapAndBreakpoint : Prop :=
  ∀ (s : State) (k : Nat) (t : Thread) (b : Block) (c : Ctl) (code : BitVec 18), s.Alone k t → s.blocks.find t.blk = some b →
    (issue64 c).Executes t [] [] →
    let hardware := b.c0.getLsbD 26 = false
    let entry : FRec → Thread := fun r => { t with frecPrev := t.frec, frec := r, reissue := false, since := 0, releases := 0, tabled := .out, skipWatch := false, faults := t.faults + 1 }
    let record := fun (cause w3 active : Word) =>
      ({ w0 := t.pc.setWidth 64, w1 := BitVec.ofNat 64 (31 * 2 ^ 32) ||| cause, w2 := 0, w3 := w3, w4 := BitVec.ofNat 64 (2 ^ laneOf k), w5 := 0
         w6 := s.inst, w7 := active } : FRec)
    let trap := record 0x1F (BitVec.ofNat 64 (code.toNat * 2 ^ 32))
    let stops := fun (i : Instr) (r : FRec) =>
      s.Gives i k { entry r with status := .fault, reported := true }
        (s.report (dieOf k) [r.w0, r.w1, r.w2, r.w3, r.w4, r.w5, r.w6, BitVec.ofNat 64 (s.ctxOf t * 2 ^ 32) ||| BitVec.ofNat 64 k])
    (hardware → t.frec.w7.getLsbD 0 = false → t.tba ≠ 0 →
      s.Gives (.trap c code) k { entry (trap 1) with pc := t.tba.setWidth 57, status := .run, readyAt := s.clk + 1 + Config.fetchDelay s.draws } s) ∧
    (hardware → t.frec.w7.getLsbD 0 = true ∨ t.tba = 0 → stops (.trap c code) (trap 1)) ∧
    (¬hardware → stops (.trap c code) (trap 0)) ∧
    stops (.bkpt c) (record 0x1E 0 0)

/-- RFT and RFT.skip with an active record (R64, R365, R383): the record is no longer active and the thread goes on at its PC, or past its
instruction; a retry of a WATCH stop passes the watchpoints once. With no active record, or a skip of what may not be skipped, ILLEGAL. -/
def Obligations.ReturnFromFault : Prop :=
  ∀ (s : State) (k : Nat) (t : Thread) (c : Ctl) (skip : Bool), s.Alone k t → (issue64 c).Executes t [] [] → t.reissue = false →
    let q := issue64 c
    let r := t.frec
    let active := r.w7.getLsbD 0 = true
    let skippable := r.w1.toNat / 2 ^ 12 % 16 ≠ 1 ∧ r.w5 = 0
    let len : Pc := if r.w6.getLsbD 0 = false then 2 else if r.w6.getLsbD 1 = false then 4 else 8
    let pc := r.w0.setWidth 57 + if skip then len else 0
    (active → (skip = true → skippable) →
      s.Gives (.rft c skip) k { ({ t with frec := { r with w7 := 0 }, pc := pc } : Thread).afterControl s q with
        skipWatch := !skip && decide (r.w1.toNat % 256 = 0x1D) } s.numbered) ∧
    (¬active ∨ (skip = true ∧ ¬skippable) → exec (.rft c skip) s = .next (s.takeFault k t.pc s.inst (2 ^ laneOf k) { cause := .illegal }))

/-! ## Rules of every instruction -/

/-- A false guard (R34): whatever the instruction, the thread issues it, obeys its stall and goes on past it; nothing else changes, and only
a register out of range still faults. -/
def Obligations.FalseGuardHasNoEffect : Prop :=
  ∀ (i : Instr) (q : Issue) (named : List Nat) (s : State) (k : Nat) (t : Thread), Instr.fields i = some (q, named) → s.Alone k t →
    t.status = .run → q.holds t = false →
    ((∀ r ∈ named, r < t.n) → s.Gives i k (t.succeeded.wentOn s { q with flag := none } (t.past q)) s) ∧
    ((∃ r ∈ named, t.n ≤ r) → exec i s = .next (s.takeFault k t.pc s.inst (2 ^ laneOf k) { cause := .regrange }))

/-- A register at or above the thread's count (R20), whatever the instruction: REGRANGE at its PC, before the guard counts and before
any effect. -/
def Obligations.RegisterRange : Prop :=
  ∀ (i : Instr) (q : Issue) (named : List Nat) (s : State) (k : Nat) (t : Thread), Instr.fields i = some (q, named) → s.Alone k t →
    (∃ r ∈ named, t.n ≤ r) → exec i s = .next (s.takeFault k t.pc s.inst (2 ^ laneOf k) { cause := .regrange })

/-- MEMORY KEEPS ITS CANONICAL FORM (R2, R4): whatever the step, an instruction's issue or an event's, memory that lists its bytes in rising order of
address, and none with what an unlisted one reads as, does so after it. -/
def Obligations.MemoryInvariant : Prop :=
  ∀ s t : State, s.memOk → step s = .next t → t.memOk

/-- A marked register that an instruction reads (R276, R357), whatever the instruction: the thread faults with what the mark holds, on the lowest such
register, whose mark alone is cleared, and the instruction has no effect. -/
def Obligations.MarkedRegister : Prop :=
  ∀ (i : Instr) (q : Issue) (named : List Nat) (s : State) (k : Nat) (t : Thread) (r : Nat) (m : Mark), Instr.fields i = some (q, named) → s.Alone k t →
    q.holds t = true → (∀ x ∈ named, x < t.n) → r < 64 → r ∈ Instr.reads t i → t.marks.find r = some m → (∀ x ∈ Instr.reads t i, x < r → t.marks.find x = none) →
    exec i s = .next ((s.updThread k fun u => { u with marks := u.marks.del r }).takeFault k t.pc s.inst (2 ^ laneOf k)
      { cause := if m.source = 20 then .uncorr else .async, addr := m.addr, source := m.source, tokenReg := r, code := m.code, step := m.step
        issuePc := m.issuePc })

/-- The order of a memory instruction's checks (R38, R135-R138, R264, R265, R382), for every instruction that names an address of memory or spills or fills
the return stack, LAUNCH apart: an address with high bits, a misaligned one, a walk that fails and a watchpoint each fault in that order, with the
instruction's kind and address and the step that it names; and then a page that is away, where no residency predicate takes it. IINVALL is not
translated, CCTL and TOUCH do not fault on a page that is away, and LDV's version checks stand before it. -/
def Obligations.MemoryCheckOrder : Prop :=
  ∀ (s : State) (k : Nat) (t : Thread) (c : Ctl) (off : BitVec 12) (pr pd : PReg) (hint : Hint) (sc : Scope) (fill : Bool) (vd va vb vc : Reg), s.Alone k t →
    let q := issue64 c
    let ea := t.reg va.toNat + off.signExtend 64
    let base := t.reg va.toNat
    let faults := fun (i : Instr) (cause : Cause) (kind : Kind) (a : Word) (step : Nat) =>
      exec i s = .next (s.takeFault k t.pc s.inst (2 ^ laneOf k) { cause := cause, kind := kind, addr := a, step := step })
    let watched := fun (i : Instr) (kind : Kind) (a : Word) (step hits : Nat) =>
      exec i s = .next ((s.setReg (Off.dbg (coreOf k) 0x60) (s.reg (Off.dbg (coreOf k) 0x60) ||| BitVec.ofNat 64 hits)).takeFault k t.pc s.inst (2 ^ laneOf k)
        { cause := .watch, kind := kind, addr := a, step := step, hits := hits })
    let checks := fun (i : Instr) (a : Word) (align n : Nat) (need : Need) (rd wr : Bool) (kind : Kind) (step : Nat) =>
      let high := a.extractLsb' 57 7 ≠ 0
      let walk := s.leafFor (Agent.core k) (s.ctxOf t) a need
      (high → faults i .badaddr kind a step) ∧
      (¬high → a.toNat % align ≠ 0 → faults i .misalign kind a step) ∧
      (∀ e, ¬high → a.toNat % align = 0 → walk = .error e → faults i e kind a step) ∧
      (∀ l, ¬high → a.toNat % align = 0 → walk = .ok l → t.skipWatch = false → s.watchHits k t a n rd wr ≠ 0 → watched i kind a step (s.watchHits k t a n rd wr))
    let order := fun (i : Instr) (a : Word) (align n : Nat) (need : Need) (rd wr : Bool) (kind : Kind) (taken : Prop) =>
      checks i a align n need rd wr kind 0 ∧
      ∀ l, a.extractLsb' 57 7 = 0 → a.toNat % align = 0 → s.leafFor (Agent.core k) (s.ctxOf t) a need = .ok l → (t.skipWatch = true ∨ s.watchHits k t a n rd wr = 0) →
        s.place (Agent.core k) (s.ctxOf t) a n l = .error .away → taken → faults i .nonres kind a 0
    let two := [va.toNat, vb.toNat]
    let three := [vd.toNat, va.toNat, vb.toNat]
    (q.Executes t [vd.toNat, va.toNat] [va.toNat] →
      let load := fun (i : Instr) (n : Nat) => order i ea n n .read true false .load (pr = 7)
      load (.ldB8 c off pr hint vd va) 1 ∧ load (.ldB16 c off pr hint vd va) 2 ∧ load (.ldB32 c off pr hint vd va) 4 ∧ load (.ldB64 c off pr hint vd va) 8 ∧
      load (.ldS8 c off pr hint vd va) 1 ∧ load (.ldS16 c off pr hint vd va) 2 ∧ load (.ldS32 c off pr hint vd va) 4 ∧
      order (.ldw c off pr sc vd va) ea 8 8 .write true false .fe (pr = 7) ∧ order (.ldc c off pr sc vd va) ea 8 8 .write true true .fe (pr = 7)) ∧
    (q.Executes t [vd.toNat, va.toNat] [vd.toNat, va.toNat] →
      let store := fun (i : Instr) (n : Nat) => order i ea n n .write false true .store True
      store (.stB8 c off hint vd va) 1 ∧ store (.stB16 c off hint vd va) 2 ∧ store (.stB32 c off hint vd va) 4 ∧ store (.stB64 c off hint vd va) 8 ∧
      order (.stf c off pr sc vd va) ea 8 8 .write false true .fe (pr = 7) ∧ order (.stx c off pr sc vd va) ea 8 8 .write false true .fe (pr = 7)) ∧
    (q.Executes t [va.toNat] [va.toNat] →
      order (.purge c off pr sc va) ea 8 8 .write false true .fe (pr = 7) ∧ order (.feq c off pr sc pd va) ea 8 8 .read true false .fe (pr = 7) ∧
      checks (.touch c off pr va) ea 1 1 .read true false .load 0 ∧
      (∀ op, op ≠ .iinvall → checks (.cctl c off op va) ea 1 1 .read true false .load 0) ∧
      (ea.extractLsb' 57 7 ≠ 0 → faults (.cctl c off .iinvall va) .badaddr .load ea 0)) ∧
    (∀ size : LdSize, q.Executes t three two →
      let n := (ldvSize size).1
      let st := (t.reg vb.toNat).toNat % 2 ^ 32
      let i := Instr.ldv c size pr vd va vb
      checks i base n n .read true false .versioned st ∧
      (∀ l, s.check4 k t base n n .read true false .versioned = .ok l →
        let wo := s.regionWO (some (dieOf k)) (s.regionOf l.record)
        (l.versioned = false → faults i .vnone .versioned base st) ∧
        (l.versioned = true → wo.1 < st → faults i .vfuture .versioned base st) ∧
        (l.versioned = true → st = wo.1 → faults i .workingread .versioned base st) ∧
        (l.versioned = true → st < wo.1 → st < wo.2 → faults i .vretired .versioned base st) ∧
        (∀ f, l.versioned = true → st < wo.1 → wo.2 ≤ st → s.resolve l.record st = some f → isDevice f = true → l.resident = false → pr = 7 →
          faults i .nonres .versioned base st))) ∧
    (q.Executes t two two →
      order (.signal c sc fill va vb) base 8 8 .write false true .store True ∧
      checks (.vretire c va vb) base 1 1 .write false false .versioned ((t.reg vb.toNat).toNat % 2 ^ 32)) ∧
    (∀ (op : AtomOp) (ty : AtomTy) (four : Bool) (ord : AOrder),
      let n := if four then 4 else 8
      let atomic := fun (i : Instr) (named reads : List Nat) => q.Executes t named reads → order i base n n .write true true .atomic True
      atomic (.atom c op ty four ord sc vd va vb) three two ∧ atomic (.red c op ty four ord sc va vb) two two ∧
      atomic (.cas c four ord sc vd va vb vc) [vd.toNat, va.toNat, vb.toNat, vc.toNat] [va.toNat, vb.toNat, vc.toNat]) ∧
    (q.Executes t three two → order (.callt c pd vd va vb) base 64 8 .read true false .shtable True) ∧
    (let top := t.tlsbase + BitVec.ofNat 64 (8 * t.depth)
     let under := t.tlsbase + BitVec.ofNat 64 (8 * (t.depth - 1))
     (∀ d : BitVec 24, q.Executes t [] [] → t.hw.length = 8 → t.depth ≠ 512 → order (.call c d) top 8 8 .write false true .retstack True) ∧
     (q.Executes t [va.toNat] [va.toNat] → base.extractLsb' 57 7 = 0 → base.getLsbD 0 = false → t.hw.length = 8 → t.depth ≠ 512 →
       order (.callr c va) top 8 8 .write false true .retstack True) ∧
     (q.Executes t [] [] → t.hw = [] → t.depth ≠ 0 → order (.ret c) under 8 8 .read true false .retstack True))

/-- THE GANG LAW (R159, R161): a gang's instruction of class I2 or F4 without the uniform bit is exactly its members issuing it alone, one after
another; nothing that one of them does is seen by another. -/
def Obligations.GangIsItsMembers : Prop :=
  ∀ (i : Instr) (q : Issue) (named : List Nat) (s : State), Instr.fields i = some (q, named) → Instr.isFixed i = true → q.uniform = false → s.gang.Nodup →
    (∀ k ∈ s.gang, ∃ t, s.threads.find k = some t ∧ t.marks = [] ∧ t.status = .run ∧ ∀ r ∈ named, r < t.n) →
    exec i s = .next (s.oneByOne i s.gang)

/-- WHAT LANDS LAST STAYS (R32): at the end of a clk a register or predicate holds the value of the due write of the latest-issued
instruction, and what no due write names is unchanged, whatever landed there before. -/
def Obligations.LatestIssueLandsLast : Prop :=
  ∀ (t : Thread) (clk : Nat), t.writes.Pairwise (fun x y => x.seq ≤ y.seq) →
    let due := t.writes.filter fun w => decide (w.landClk ≤ clk)
    (∀ (r : Nat) (v : Word) (m : Option Mark) (w : PendingWrite), r < t.regs.length → w ∈ due → w.what = .reg r v m →
      (∀ x ∈ due, (∃ v' m', x.what = .reg r v' m') → x.seq < w.seq ∨ x = w) → (t.landAll clk).reg r = v) ∧
    (∀ r : Nat, (∀ x ∈ due, ∀ v m, x.what ≠ .reg r v m) → (t.landAll clk).reg r = t.reg r) ∧
    (∀ (p : Nat) (b : Bool) (w : PendingWrite), p < 7 → p < t.preds.length → w ∈ due → w.what = .pred p b →
      (∀ x ∈ due, (∃ b', x.what = .pred p b') → x.seq < w.seq ∨ x = w) → (t.landAll clk).pred p = b) ∧
    (∀ p : Nat, (∀ x ∈ due, ∀ b, x.what ≠ .pred p b) → (t.landAll clk).pred p = t.pred p) ∧
    (∀ w : PendingWrite, (t.queue w).writes.Pairwise (fun x y => x.seq ≤ y.seq)) ∧
    (t.landAll clk).writes = t.writes.filter fun w => decide (clk < w.landClk)

/-- A THREAD STARTS (R19): every thread that a placement adds stands at the entry address with the parameter in its first register, zeros
in the others, predicates and flags clear and an empty return stack. -/
def Obligations.ThreadStarts : Prop :=
  ∀ (s s1 : State) (bid lid : Nat) (l : Launch) (gid idx c : Nat), s.placeBlockAs bid lid l gid idx c = some s1 →
    ∀ k t, s1.threads.find k = some t → s.threads.find k ≠ some t →
      t.pc = ((l.words.getD 0 0).extractLsb' 0 57) ∧ t.n = 16 * ((l.words.getD 5 0).toNat / 2 ^ 48 % 4 + 1) ∧ t.regs.length = t.n ∧
      t.reg 0 = l.words.getD 1 0 ∧ (∀ r, 0 < r → t.reg r = 0) ∧ (∀ p, p < 7 → t.pred p = false) ∧
      (∀ i, t.flags.getD i 0 = 0) ∧ t.hw = [] ∧ t.depth = 0 ∧ t.status = .run ∧ t.marks = [] ∧ t.writes = []

/-! ## Operations end -/

/-- CLASS_V_RESULT_LANDS (R33, R39, R138-R147, R239, R305, R321, R322): an outstanding operation that nothing holds back is performed, its results
stand to land in its thread, and memory is unchanged where it only reads. A load by itself, of memory where nothing is on its way, brings the bytes of
memory from its place on, lowest first, extended by zeros or the sign (R39, R139). A load of host memory that no die holds finds it as the host has
left it (R245). Model's choices: what that is, is a free value (notes/assumptions/22), and which of the open events comes first is free
(notes/assumptions/1). -/
def Obligations.ResultsLand : Prop :=
  ∀ (s : State) (op k : Nat) (o : Op), s.Free op o k false →
    let ends := fun (ok : State → Prop) (l : List Landing) =>
      ∃ s2, exec (.classVResultLands op) s = .next s2 ∧ s.Landed s2 op o k l ∧ s2.mem = s.mem ∧ s2.empties = s.empties ∧ ok s2
    let any := fun (_ : State) => True
    let acc := fun (s : State) => (s.core (coreOf k)).acc
    let base := accBase (s.launchIdOf (s.thr k).blk)
    (∀ l, o.kind = .result l → ends any l) ∧
    (∀ a g d p, o.kind = .load a g d p →
      let s0 := s.fromOwner o a
      (isHost (s.paNow a) = false → s0 = s) ∧
      ∃ s2, exec (.classVResultLands op) s = .next s2 ∧ s.Landed s2 op o k [.reg d (extend a.size g (s0.loadValue op k a)) (s0.loadMark o a), .pred p true] ∧
        s2.mem = s0.mem ∧ s2.empties = s.empties) ∧
    (∀ a g d p, o.kind = .load a g d p → s.ops = [(op, o)] → isHost (s.paNow a) = false → 1 ≤ a.size → a.size ≤ 8 → s.Plain a →
      (∀ e ∈ s.inflight, ∀ i, i < a.size → Tbl.find e.2.old (s.paNow a + i) = none) →
      ∃ v : Word, ends any [.reg d v (s.loadMark o a), .pred p true] ∧
        (∀ i, i < a.size → v.extractLsb' (8 * i) 8 = Mem.read s.mem (s.paNow a + i)) ∧
        ∀ j, 8 * a.size ≤ j → j < 64 → v.getLsbD j = (g && v.getLsbD (8 * a.size - 1))) ∧
    (∀ b x off n g d, o.kind = .lds b off n g d → s.blocks.find b = some x → (b, off / 8) ∉ s.badSpad →
      ends any [.reg d (extend n g (BitVec.ofNat 64 (ofLe (Mem.readN x.scratch off n)))) none]) ∧
    (∀ f sc, o.kind = .fence f sc → s.fenceOk op o f sc = true → ends any []) ∧
    (∀ c pa, o.kind = .cctl c pa → s.cctlReady o c pa = true → ends (fun s2 => c = .iinvall → ∀ e ∈ s2.icache, e.1 ≠ coreOf k) []) ∧
    (s.atHead op o = true →
      (∀ off n, o.kind = .accz off n → Mem.wf (acc s) = true →
        ends (fun s2 => ∀ x, Mem.read (acc s2) x = if base + off ≤ x ∧ x < base + off + n then 0 else Mem.read (acc s) x) []) ∧
      (∀ off n d, o.kind = .accrd off n d → ends (fun s2 => acc s2 = acc s) [.reg d (BitVec.ofNat 64 (ofLe (Mem.readN (acc s) (base + off) n))) none]) ∧
      (∀ off n v, o.kind = .accwr off n v → n ≤ 8 → Mem.wf (acc s) = true →
        ends (fun s2 => ∀ x, Mem.read (acc s2) x =
          if base + off ≤ x ∧ x < base + off + n then v.extractLsb' (8 * (x - (base + off))) 8 else Mem.read (acc s) x) []) ∧
      (∀ b off n, o.kind = .permt b off n → ends (fun s2 => (s2.core (coreOf k)).perm = (List.range n).map fun i => s.spadAt b (off + 2 * i) 2) []))

/-- STORE_PERFORMED and SIGNAL's store (R140, R143, R209, R225, R231): the bytes that the access covers hold the value and every other byte of memory
is unchanged; a filling SIGNAL makes its word FULL; a WC store enters its core's buffer first, and reaches memory with its entry; STS writes its
block's scratchpad and no memory. Model's choice: which stores combine in the WC buffer (notes/assumptions/57). -/
def Obligations.StoresPerform : Prop :=
  ∀ (s : State) (op k : Nat) (o : Op), s.Free op o k false →
    let ends := fun (i : Instr) (ok : State → Prop) => ∃ s2, exec i s = .next s2 ∧ s.Landed s2 op o k [] ∧ ok s2
    (∀ a v, o.kind = .store a v → a.policy ≠ 2 → a.size ≤ 8 → s.Plain a →
      ends (.storePerformed op) fun s2 => s.Wrote s2 (s.paNow a) a.size v ∧ s2.empties = s.empties) ∧
    (∀ a v, o.kind = .store a v → a.policy = 2 →
      let entry : WcEnt := { line := a.pa / 256, ops := [op] }
      ((s.core (coreOf k)).wc = [] →
        ∃ s2, exec (.storePerformed op) s = .next s2 ∧ (s2.core (coreOf k)).wc = [entry] ∧ s2.mem = s.mem ∧ s2.ops = s.ops ∧ s2.threads = s.threads) ∧
      ((s.core (coreOf k)).wc = [entry] → a.size ≤ 8 → s.Plain a →
        ends (.storePerformed op) fun s2 => s.Wrote s2 (s.paNow a) a.size v ∧ (s2.core (coreOf k)).wc = [])) ∧
    (∀ a f v, o.kind = .signal a f v → a.size = 8 → s.Plain a →
      ends (.classVResultLands op) fun s2 => s.Wrote s2 (s.paNow a) 8 v ∧
        ∀ x, s2.full x = if x / 8 = s.paNow a / 8 ∧ f = true ∧ isDevice (s.paNow a) = true then true else s.full x) ∧
    (∀ b x off n v, o.kind = .sts b off n v → s.blocks.find b = some x → Mem.wf x.scratch = true → n ≤ 8 →
      ends (.storePerformed op) fun s2 => s2.mem = s.mem ∧ ∃ y, s2.blocks.find b = some y ∧
        ∀ i, Mem.read y.scratch i = if off ≤ i ∧ i < off + n then v.extractLsb' (8 * (i - off)) 8 else Mem.read x.scratch i)

/-- WHO SEES A STORE (R39, R231, R236, R237, R254): its own die reads the new bytes at once; a die that has not applied it reads the old ones,
whatever it asks; and a thread reads its own store before that is performed, under the key that it stored with, but for a store to a working
page whose frame is still the step's before, which only the working view sees (R242). -/
def Obligations.WhoSeesAStore : Prop :=
  ∀ (s : State) (k pa g : Nat) (b : Byte), Mem.wf s.mem = true → s.keyTags.find (pa / 64) = none ∨ s.keyTags.find (pa / 64) = some (s.keyGen g) →
    s.inflight.find s.nextSeq = none →
    let s2 := s.writePa (s.threadWriter k) g pa [b] none
    (∀ d x, d < 4 → (∀ e ∈ s.inflight, Tbl.find e.2.old x = none) →
      s2.byteAt (some d) g x = if x = pa ∧ d = dieOf k then b else s.byteAt (some d) g x) ∧
    (∀ x, s2.byteAt none g x = if x = pa then b else s.byteAt none g x) ∧
    (∀ (n j : Nat) (o : Op) (a r : Access) (v : Word) (e : Byte), s.ops = [(n, o)] → o.recv = [k] → o.kind = .store a v → n < j →
      s.forward j k r pa e = if s.paNow a ≤ pa ∧ pa < s.paNow a + a.size ∧ a.key = r.key ∧ (a.vrec = r.vrec ∨ ∀ w, a.vrec = some w → s.owned? w = true)
        then v.extractLsb' (8 * (pa - s.paNow a)) 8 else e)

/-- The full/empty forms at their word (R148-R150): a form whose word has the state it wants takes its step in one action; the others wait, and
a waiting form has neither read nor written anything. -/
def Obligations.FullEmptySteps : Prop :=
  ∀ (s : State) (op k : Nat) (o : Op) (a : Access) (f : FeOp) (v : Word) (dst pr : Nat) (t : Thread),
    s.Free op o k true → o.kind = .feform a f v dst pr → s.threads.find k = some t → isDevice (s.paNow a) = true → a.size = 8 → s.Plain a →
    let pa := s.paNow a
    let is := s.fullAt (some (dieOf k)) pa
    let got := s.loadValue op k a
    let ends := fun (l : List Landing) (state : Option Bool) (write : Bool) =>
      ∃ s2, exec (.classVResultLands op) s = .next s2 ∧ s.Landed s2 op o k (l ++ [.pred pr true]) ∧
        (∀ x, s2.full x = match state with
          | some b => if x / 8 = pa / 8 then b else s.full x
          | none => s.full x) ∧
        (if write then s.Wrote s2 pa 8 v else s2.mem = s.mem)
    let waits := fun (want : Bool) =>
      ∃ s2, exec (.classVResultLands op) s = .next s2 ∧ s2.mem = s.mem ∧ s2.empties = s.empties ∧ s2.ops = s.ops ∧
        s2.threads.find k = some { t with status := .form (pa / 8 * 8) want false false false }
    match f with
    | .ldw => if is = true then ends [.reg dst got (s.loadMark o a)] none false else waits true
    | .ldc => if is = true then ends [.reg dst got (s.loadMark o a)] (some false) false else waits true
    | .stf => if is = false then ends [] (some true) true else waits false
    | .stx => ends [] (some true) true
    | .purge => ends [] (some false) false
    | .feq => ends [.pred dst is] none false

/-- The atomic step of one member (R200-R204): its register receives the old item, extended by its type; the item becomes what the operation gives and
no other byte changes; CAS writes only when the item equals its comparand. An item in host memory that no die holds is as the host has left it (R245),
which is a free value, the model's choice (notes/assumptions/22). -/
def Obligations.AtomicSteps : Prop :=
  ∀ (s : State) (op k : Nat) (o : Op) (a : Access) (fn : AtomFn) (m : AtomMember), s.Free op o k false → o.kind = .atomic a fn [m] → m.thr = k →
    let s0 := s.fromOwner o a
    (a.size = 4 ∨ a.size = 8) → s0.Plain a →
    let w := 8 * a.size
    let pa := s.paNow a
    let old := s0.loadValue op k a
    let x := m.x.setWidth w
    let y := m.y.setWidth w
    let e := old.setWidth w
    let gives := fun (ext : Word) (new : Option (BitVec w)) =>
      ∃ s2, exec (.classVResultLands op) s = .next s2 ∧
        s.Landed s2 op o k (match m.dst with
          | some r => [.reg r ext none]
          | none => []) ∧
        match new with
        | some n => s0.Wrote s2 pa a.size (n.setWidth 64)
        | none => s2.mem = s0.mem
    (isHost pa = false → s0 = s) ∧
    (fn = .op .add .s → gives (e.signExtend 64) (some (e + x))) ∧ (fn = .op .add .n → gives (e.setWidth 64) (some (e + x))) ∧
    (fn = .op .min .s → gives (e.signExtend 64) (some (if x.slt e then x else e))) ∧ (fn = .op .min .n → gives (e.setWidth 64) (some (if x.ult e then x else e))) ∧
    (fn = .op .max .s → gives (e.signExtend 64) (some (if e.slt x then x else e))) ∧ (fn = .op .max .n → gives (e.setWidth 64) (some (if e.ult x then x else e))) ∧
    (fn = .op .and .n → gives (e.setWidth 64) (some (e &&& x))) ∧ (fn = .op .or .n → gives (e.setWidth 64) (some (e ||| x))) ∧
    (fn = .op .xor .n → gives (e.setWidth 64) (some (e ^^^ x))) ∧ (fn = .op .exch .n → gives (e.setWidth 64) (some x)) ∧
    (fn = .cas → gives (e.setWidth 64) (if e = x then some y else none))

/-- Waits that end and threads that leave (R24, R25, R108, R110, R111, R144, R158): WAIT_EXPIRY, YIELD_EXPIRY, THREAD_RETIRE, BLOCK_TABLE_ENTRY_GRANT,
RETURN_STACK_SPILL, RETURN_STACK_FILL and TOUCH_COMPLETE. A fill of host memory that no die holds finds it as the host has left it (R245). Model's
choices: what that is, is a free value (notes/assumptions/22), and a fill uses what a sector with an uncorrectable error holds, with no mark and no
fault (notes/assumptions/47). -/
def Obligations.ThreadEvents : Prop :=
  ∀ (s : State) (k : Nat) (t : Thread), s.threads.find k = some t →
    let thread := fun (i : Instr) (u : Thread) => ∃ s2, exec i s = .next s2 ∧ s2.threads.find k = some u ∧ s2.mem = s.mem
    (∀ time d f, t.status = .wait time d f → d ≤ (if time then s.ptp else s.clk) →
      thread (.waitExpiry k) (({ t with status := .run, readyAt := max t.readyAt (s.clk + 1), since := 0 } : Thread).queueAll s.nextSeq s.clk
        (match f with
          | some f => [.flagDown f]
          | none => []))) ∧
    (∀ d, t.status = .yield d → d ≤ s.clk → thread (.yieldExpiry k) { t with status := .run, since := 0 }) ∧
    (t.status = .exited → (∀ n ∈ t.flags, n = 0) → t.writes = [] →
      ∃ s2, exec (.threadRetire k) s = .next s2 ∧ s2.threads.find k = none) ∧
    (∀ c, t.tabled = .waits c → (s.tableEntries (coreOf k) (partOf k)).length < 128 →
      (∀ j u d, (j, u) ∈ s.threads → u.tabled = .waits d → coreOf j = coreOf k → partOf j = partOf k → c < d ∨ (d = c ∧ k ≤ j)) →
      thread (.blockTableEntryGrant (coreOf k) (partOf k)) { t with tabled := .held, since := 0 }) ∧
    (∀ op o a v, s.ops = [(op, o)] → s.Free op o k false → s.peerWaiting op = false → o.kind = .spill a v → a.size = 8 → s.Plain a →
      ∃ s2, exec (.returnStackSpill k) s = .next s2 ∧ s.Landed s2 op o k [] ∧ s.Wrote s2 (s.paNow a) 8 v) ∧
    (∀ op o a, s.ops = [(op, o)] → s.Free op o k false → s.peerWaiting op = false → o.kind = .fill a →
      let s0 := s.fromOwner o a
      ∃ s2, exec (.returnStackFill k) s = .next s2 ∧ s2.ops.find op = none ∧ s2.mem = s0.mem ∧
        s2.threads.find k = some (({ t with pc := ((s0.loadValue op k a).setWidth 57) &&& ~~~1 } : Thread).queueAll op s.clk (o.ending []))) ∧
    (∀ op o va ctx pr ok, s.ops.find op = some o → o.recv = [k] → o.kind = .touch va ctx pr (some ok) → ok = true ∨ pr ≠ 7 →
      ∃ s2, exec (.touchComplete op) s = .next s2 ∧ s.Landed s2 op o k [.pred pr ok] ∧ s2.mem = s.mem ∧ ∀ r ∈ s2.resReqs, r.op ≠ some op)

/-- A form waits and wakes (R150, R205-R207, R406): WAITER_RECORD holds its record at the home while the state it wants is not there, and releases it
at once when it is and no core holds the word's sector exclusively; such a core is sent a notice; WAITER_NOTICE marks its copy, and its answer
releases the waiter whose state is there; WAKE takes the waiters of the new state out of the table; FORM_RETRY takes the step of a form whose word now
has the state. All of it where the home can reach the word's park area (R442). Model's choice: park areas are searched in the contexts with a waiting
thread or GRAFT (notes/assumptions/31). -/
def Obligations.WaitingEvents : Prop :=
  ∀ (s : State) (k w : Nat) (want l : Bool) (t : Thread) (op : Nat) (o : Op), s.threads.find k = some t →
    let ident := k + (if want then 2 ^ 24 else 0) + (if l then 2 ^ 25 else 0)
    (t.status = .form w want l false false → s.ops = [(op, o)] → s.formOp k = some (op, o) → k < 2 ^ 24 → s.recordHeld k = false →
      (s.full w = want → s.exclusiveHolder w = none →
        ∃ s2, exec (.waiterRecord k) s = .next s2 ∧ s2.threads.find k = some { t with status := .form w want l true true } ∧ (w, k) ∈ s2.retries) ∧
      (s.full w ≠ want ∨ s.exclusiveHolder w ≠ none → w / 64 ∈ s.sectors →
        ((s.waitTab.filter fun x => homeSlice x.word == homeSlice w).length < 64) → s.parkIds (sliceDie (homeSlice w)) (s.ctxOf t) w = [] →
        ∃ s2, exec (.waiterRecord k) s = .next s2 ∧ s2.threads.find k = some { t with status := .form w want l true false } ∧
          s2.waitTab = s.waitTab ++ [{ word := w, ident := ident }] ∧ s2.wnotes = s.wnotes ++ (s.exclusiveHolder w).toList.map fun c => (c, w, k))) ∧
    (∀ now, s.wakes.find? (fun x => x.1 == w) = some (w, now) → (∀ c ∈ s.waitCtxs, s.parkHeld c w = false) →
      ∃ s2, exec (.wake w) s = .next s2 ∧ s2.wakes = s.wakes.erase (w, now) ∧
        ∀ x ∈ s2.waitTab, x ∈ s.waitTab ∧ ¬(x.word = w ∧ x.ident.testBit 24 = now)) ∧
    (∀ core, s.wnotes.find? (fun n => n.1 == core && n.2.1 == w) = some (core, w, k) → s.recordHeld k = false → t.status = .form w want l true false →
      k < 2 ^ 24 →
      (s.full w = want →
        ∃ s2, exec (.waiterNotice core w) s = .next s2 ∧ s2.threads.find k = some { t with status := .form w want l true true } ∧ (w, k) ∈ s2.retries) ∧
      (s.full w ≠ want →
        ∃ s2, exec (.waiterNotice core w) s = .next s2 ∧ s2.mem = s.mem ∧ s2.threads = s.threads ∧ s2.wnotes = s.wnotes.erase (core, w, k) ∧
          (2 ≤ s.l1State core w → w / 64 ∈ s.sectors → (core, w / 64) ∈ s2.coreMarks))) ∧
    (∀ a v dst pr, s.recordHeld k = false → (s.core (coreOf k)).stopped.contains (partOf k) = false → t.status = .form w true false true true → s.ops = [(op, o)] → o.kind = .feform a .ldw v dst pr → o.recv = [k] → o.thr = k →
      s.canPerform op o true = true → isDevice (s.paNow a) = true → s.fullAt (some (dieOf k)) (s.paNow a) = true → s.retries = [(w, k)] →
      ∃ s2, exec (.formRetry k) s = .next s2 ∧ s2.ops.find op = none ∧ s2.retries = [] ∧ s2.mem = s.mem ∧
        s2.threads.find k = some (({ t with status := .sync op, releases := 0 } : Thread).queueAll op s.clk
          (o.ending [.reg dst (s.loadValue op k a) (s.loadMark o a), .pred pr true])))

/-- Barriers (R193-R197): an arrival, a post, a credit and an abort reach their barrier, which completes its phase when every member has arrived
and the balance is zero, and answers those that wait for the phase; balances outside their range are not applied. -/
def Obligations.BarrierEvents : Prop :=
  ∀ (s : State) (h : BarHome) (b : Barrier), s.barGet h = some b →
    (∀ op k o, s.Free op o k false →
      (∀ dst, o.kind = .barEv h (.arrive dst) →
        ∃ s2, exec (.classVResultLands op) s = .next s2 ∧ s.Landed s2 op o k [.reg dst (BitVec.ofNat 64 b.phase) none] ∧
          (s2.barGet h).map Barrier.counts = some (b.withArrival k).settled.counts ∧
          ∀ n w p d, n ≠ op → s.ops.find n = some w → w.kind = .barw h p d → ∃ x, s2.ops.find n = some x ∧
            x.kind = if b.arrivals + 1 = b.expected ∧ b.balance = 0 ∧ p = b.phase then
              .result [.reg d (BitVec.ofNat 64 (p * 2 ^ 32) ||| (if b.abort then 1 else 0)) none] else .barw h p d) ∧
      (∀ n, o.kind = .barEv h (.post n) → -(2 ^ 31) ≤ b.balance + n → b.balance + n < 2 ^ 31 →
        ∃ s2, exec (.classVResultLands op) s = .next s2 ∧ s.Landed s2 op o k [] ∧
          (s2.barGet h).map Barrier.counts = some ({ b with balance := b.balance + n } : Barrier).settled.counts) ∧
      (∀ p pd, o.kind = .barEv h (.test p pd) →
        ∃ s2, exec (.classVResultLands op) s = .next s2 ∧ s.Landed s2 op o k [.pred pd (phaseDone b p)] ∧ s2.barGet h = some b)) ∧
    (∀ msg m id c, s.msgs.find msg = some m → m.bar = h → m.cmd = some id → s.cmds.find id = some c → s.levelSaved h = false →
      let fits := -(2 ^ 31) ≤ b.balance - m.n ∧ b.balance - m.n < 2 ^ 31
      let gone := fun (i : Instr) (b2 : Barrier) (err : Nat) =>
        ∃ s2, exec i s = .next s2 ∧ s2.msgs.find msg = none ∧ (s2.barGet h).map Barrier.counts = some b2.counts ∧
          s2.cmds.find id = some { c with stage := 3, err := err } ∧ s2.mem = s.mem
      (m.abort = false →
        (fits → gone (.engineCredit msg) ({ b with balance := b.balance - m.n } : Barrier).settled c.err) ∧
        (¬fits → gone (.engineCredit msg) b 9)) ∧
      (m.abort = true →
        (fits → gone (.abortDelivery msg) ({ b with balance := b.balance - m.n, abort := true } : Barrier).settled c.err) ∧
        (¬fits → gone (.abortDelivery msg) b c.err)))

/-! ## From queue to issue slot -/

/-- QUEUE_TAKE, PLACEMENT_ATTEMPT, CORE_QUEUE_START and BALANCE_INTERVAL (R170, R173, R177, R179-R183, R244): a slot is taken when all its words are
FULL, in one write that empties the eight of them, and its count stands at the head word; a span or a grove is placed whole or not at all; a queued
block starts when there is room and its die's table names a valid entry; balancing loses and invents no queued block. Model's choices: which open
event comes next is free (notes/assumptions/1), a queue's waiting groves (notes/assumptions/35), the slots of cores that await an owner
(notes/assumptions/49), which engine looks (notes/assumptions/51), and a take that finds no frame in the reserve (notes/assumptions/62). -/
def Obligations.QueuesAndPlacement : Prop :=
  ∀ (s : State),
    (∀ ctx q d w as, s.servedBy ctx q = (s, some (d, w)) → bit (wordAt w 1) 7 = true → bit (wordAt w 1) 8 = false → (s.queue d ctx q).enabled = true →
      s.onHold ctx = false →
      let n := (s.queue d ctx q).taken
      let slot := wordAt w 0 + BitVec.ofNat 64 (64 * (n % 2 ^ bits (wordAt w 1) 4 0))
      s.heldRead (qeAgent d) ctx slot 8 = false → s.heldRead (qeAgent d) ctx (wordAt w 2) 1 = false → s.slotCheck d ctx slot (wordAt w 2) = some as →
      let s0 := s.setQueue d ctx q fun x => { x with held := false }
      ((∃ a ∈ as, s0.full (s0.paNow a) = false) →
        s.Leads (.queueTake ctx q) fun s2 => s2.launches = s.launches ∧ s2.mem = s.mem ∧ s2.empties = s.empties ∧ (s2.queue d ctx q).taken = n) ∧
      (∀ a rest s5, as = a :: rest → (∀ x ∈ as, s0.full (s0.paNow x) = true ∧ x.vrec = none) → s0.agentFree .engine a.pa = true →
        let es := s0.readFrom none a.pa 64 true
        let past := s0.brought (metByAgent es)
        (((s0.agentRead a.pa 64).classAgentWrite a.pa).writeWords { past := past, heads := es.flatMap (·.2.heads) } a.key a.pa []
            ((List.range 8).map fun i => a.pa + 8 * i) false).vaWrite d ctx (wordAt w 2) (BitVec.ofNat 64 (n + 1)) none
          (agentRelease (past ++ [s0.nextSeq]) .sys) = .done s5 →
        s.Leads (.queueTake ctx q) fun s2 => s2.mem = s5.mem ∧ s2.empties = s5.empties ∧ (s2.queue d ctx q).taken = (n + 1) % 2 ^ 64 ∧
          ∃ l, s2.launches.find s5.nextSeq = some l ∧ l.words = ((List.range 8).map fun i => s0.readPa none a.key (a.pa + 8 * i) 8) ∧ l.ctx = ctx ∧ l.queue = q ∧
            l.die = d ∧ l.nextGrove = 0)) ∧
    (∀ die ctx c lid l, s.onHold ctx = false → s.pending die ctx ≠ [] → (s.ctxChecks ctx).ctxCheck die ctx = (c, true) → c.pending die ctx = [(lid, l.forGrove)] →
      c.launches.find lid = some l →
      let f := l.forGrove
      let span := (lSpan f.words && !l.node) = true
      (span → c.placeSpan lid f (c.dieOrder f) 0 (lGroves f.words) = none → exec (.placementAttempt die ctx) s = .next c) ∧
      (∀ s1, span → c.placeSpan lid f (c.dieOrder f) 0 (lGroves f.words) = some s1 →
        s.Leads (.placementAttempt die ctx) fun s2 => s2.threads = s1.threads ∧ s2.blocks = s1.blocks) ∧
      (¬span → l.nextGrove < l.due → c.placeGrove lid f l.nextGrove = none → c.enqueueGrove lid f = none →
        exec (.placementAttempt die ctx) s = .next c) ∧
      (∀ s1, ¬span → l.due = l.nextGrove + 1 → f.due = l.due → c.placeGrove lid f l.nextGrove = some s1 → s1.launches.find lid = some l →
        s.Leads (.placementAttempt die ctx) fun s2 => s2.threads = s1.threads ∧ s2.blocks = s1.blocks ∧ (s2.launches.find lid).map (·.nextGrove) = some (l.nextGrove + 1))) ∧
    (∀ core lid g t l, (s.core core).queue = (lid, g) :: t → s.launches.find lid = some l →
      let gr : Grove := { launch := lid, index := g, die := core / 512, bars := newBars 8 (lThreads l.words) }
      let c := (s.ctxCheck (core / 512) l.ctx).1
      let ok := (s.ctxCheck (core / 512) l.ctx).2
      let s0 : State := { c with groves := c.groves.put c.nextSeq gr, nextSeq := c.nextSeq + 1 }
      (ok = false ∨ s0.placeBlock lid l c.nextSeq 0 core = none → exec (.coreQueueStart core) s = .next c) ∧
      (∀ s1, ok = true → s0.placeBlock lid l c.nextSeq 0 core = some s1 →
        s.Leads (.coreQueueStart core) fun s2 => s2.threads = s1.threads ∧ (s2.core core).queue = t)) ∧
    (∀ die, s.Leads (.balanceInterval die) fun s2 => (∀ x, s2.inQueue x ↔ s.inQueue x) ∧ s2.mem = s.mem ∧ s2.threads = s.threads)

/-- The nodes, completion and the owners of cores (R165, R167, R174, R187, R189, R190): NODE_BATCH_DISPATCH, NODE_BATCH_TIMEOUT, NODE_END_MARK,
LAUNCH_COMPLETION, QE_CORE_CTX and CORE_OWNER_CHANGE. A dispatched batch joins its node's sweep as a pending grove, under the words of its dispatch;
the time of a batch's first claim is that at which its engine sees it; a completion word is a release at its scope, and one whose page must wait is
tried again. Model's choices: a node that cannot be read is skipped (notes/assumptions/50), the clk in which a claim is seen (notes/assumptions/58),
and a node enabled anew waits for its old sweep (notes/assumptions/62). -/
def Obligations.NodesAndCompletion : Prop :=
  ∀ (s : State),
    (∀ ctx q s1 v, s.nodeCheck ctx q = (s1, some v) →
      let d := v.die
      let st := s1.queue d ctx q
      let g := st.nextBatch
      let ready := (List.range v.batch).all (fun i => s1.slotFull v ctx (g * v.batch + i) 0)
      let c := s1.claims v ctx g
      (s1.nodeBusy v st.launch g = true ∨ (st.marked = false ∧ ready = false) → exec (.nodeBatchDispatch ctx q) s = .next s1) ∧
      (∀ s2 lid l, s1.nodeBusy v st.launch g = false → st.marked = true ∨ ready = true → s1.nodeLaunch ctx q v = (s2, lid) → s2.launches.find lid = some l →
        ∃ s3 : State, s3.launches.find lid = some { l with batches := l.batches + 1, tmpls := l.tmpls.put g (v.tmpl.getD [] ++ v.desc),
                                                             past := (l.past ++ s1.queuePast d ctx q).dedup } ∧ s3.threads = s2.threads ∧
          s3.mem = s2.mem ∧ (s3.queue d ctx q).nextBatch = g + 1 ∧ (s3.queue d ctx q).marked = false ∧ (s3.queue d ctx q).short = none ∧
          exec (.nodeBatchDispatch ctx q) s = .next (s3.placePending d ctx)) ∧
      (s1.nodeBusy v st.launch g = false → st.short = none → c ≠ 0 →
        (st.claimAt.find g = none → exec (.nodeBatchTimeout ctx q) s = .next (s1.watchNode d ctx q)) ∧
        (∀ t s2, st.claimAt.find g = some t → wordAt v.desc 4 ≠ 0 → t + (wordAt v.desc 4).toNat ≤ s1.ptp → c < v.batch →
          s1.vaWrite d ctx (wordAt v.desc 3) (BitVec.ofNat 64 (g * v.batch + v.batch)) none { past := s1.queuePast d ctx q } = .done s2 →
          s.Leads (.nodeBatchTimeout ctx q) fun s3 => s3.mem = s2.mem ∧ (s3.queue d ctx q).short = some c)) ∧
      (∀ n s2, st.short = some n → st.marked = false →
        ((List.range n).all fun i => (List.range v.recWords).all fun j => s1.slotFull v ctx (g * v.batch + i) j) = true →
        s1.vaWrite d ctx (v.slot (g * v.batch + n) 0) (BitVec.allOnes 64) (some true) (agentRelease (s1.queuePast d ctx q) .pkg) = .done s2 →
        s.Leads (.nodeEndMark ctx q) fun s3 => s3.mem = s2.mem ∧ s3.empties = s2.empties ∧ (s3.queue d ctx q).marked = true)) ∧
    (∀ d ctx q w v, s.serves d ctx q = some (d, w) → s.viewOf d ctx w = some v → v.batch ≠ 0 →
      let n := (s.queue d ctx q).nextBatch
      let s2 := s.watchNode d ctx q
      (s.claims v ctx n ≠ 0 → (s2.queue d ctx q).claimAt.find n = some (((s.queue d ctx q).claimAt.find n).getD s.ptp)) ∧
      (s.claims v ctx n = 0 → s2 = s) ∧ s2.mem = s.mem ∧ s2.threads = s.threads) ∧
    (∀ n l, s.launches.find n = some l → l.node = false → s.launchOver n l = true → s.orderFree n l = true → bits (wordAt l.words 2) 2 0 = 0 →
      ∀ sc, Scope.ofCode (BitVec.ofNat 3 (bits (wordAt l.words 2) 59 57)) = some sc →
      let s0 : State := { s with launches := s.launches.del n, hbs := s.hbs.filter fun h => h.1 / 2 ^ 24 != n + 1 }
      let done := s0.vaWrite l.die l.ctx (BitVec.ofNat 64 (bits (wordAt l.words 2) 56 0)) (BitVec.ofNat 64 (l.refused * 2 ^ 48 + lSeq l.words))
        (if bit (wordAt l.words 2) 60 then some true else none) (agentRelease (s.launchPast n l) sc)
      (∀ s1, done = .done s1 → exec (.launchCompletion n) s = .next s1) ∧
      (∀ h, done = .wait h → exec (.launchCompletion n) s = .next (s.putWaits l.die h)) ∧
      (done = .lost → l.die < 4 → s.Leads (.launchCompletion n) fun s2 => s2.launches.find n = none ∧ s2.reg (Off.qe l.die 0x18) = s.reg (Off.qe l.die 0x18) + 1)) ∧
    (∀ die idx val, die < 4 → idx < 280 →
      let c := 512 * die + Config.physOf die idx
      let o := if bit val 10 then some (bits val 9 0) else none
      s.Leads (.qeCoreCtxWrite die idx val) fun s2 =>
        ((s.writeReg (Off.qe die (0x400 + 8 * idx)) val).coreIdle c o = true → (s2.core c).owner = o ∧ (s2.core c).nextOwner = none) ∧
        ((s.writeReg (Off.qe die (0x400 + 8 * idx)) val).coreIdle c o = false → (s2.core c).owner = (s.core c).owner ∧ (s2.core c).nextOwner = some o)) ∧
    (∀ c o, (s.core c).nextOwner = some o →
      s.Leads (.coreOwnerChange c) fun s2 =>
        (s.coreIdle c o = true → (s2.core c).owner = o ∧ (s2.core c).nextOwner = none) ∧ (s.coreIdle c o = false → s2 = s))

/-! ## The control blocks -/

/-- The fault-report block and the core debug blocks (R30, R361, R363, R380, R383-R388). FR_CMD names a thread stopped on a fault and its context:
retry issues the instruction again, past a watchpoint once; skip goes past it; kill retires the thread; any other command, or one to a context whose
save has stopped its threads, is counted and changes nothing else; FR_PEND writes the oldest waiting entry. WP_HIT clears the bits written as 1; a
stop sets its partition's two status bits and forms no gang there, a resume clears them; with the debug port closed both are counted; a sample
interval tags the partition's next gang and starts anew; a record goes into the ring or is counted as dropped. Model's choices: a stop's dump is
complete in the same step as the stop (notes/assumptions/36), a sampling interval is free within its bounds (notes/assumptions/37), and a command to a
context whose save has stopped its threads is counted (notes/assumptions/70). -/
def Obligations.FaultReportAndDebug : Prop :=
  (∀ (s : State) (die k ctx : Nat),
     let ignored := fun (i : Instr) => s.Leads i fun s2 => s2 = s.bumpReg (Off.fr (die % 4) 0x30)
     let thread := fun (i : Instr) (u : Thread) => s.Leads i fun s2 => s2.threads.find k = some u ∧ s2.mem = s.mem ∧ ∀ j, j ≠ k → s2.threads.find j = s.threads.find j
     let again := fun (t : Thread) => { t with status := .run, readyAt := s.clk + 1 + Config.fetchDelay s.draws, since := 0, reported := false }
     (∀ t, s.threads.find k = some t → t.status = .fault → s.ctxOf t = ctx → ¬(s.pe.stage = .save ∧ s.pe.ctx = ctx) →
       thread (.frCmdRetry die k ctx) { again t with skipWatch := bits t.frec.w1 7 0 == 0x1D } ∧
       (t.frec.unskippable = false → thread (.frCmdSkip die k ctx) { again t with pc := t.pc + BitVec.ofNat 57 t.frec.len, skipWatch := false }) ∧
       (t.frec.unskippable = true → ignored (.frCmdSkip die k ctx)) ∧
       thread (.frCmdKill die k ctx) { t with status := .exited, reported := false }) ∧
     ((∀ t, s.threads.find k = some t → t.status ≠ .fault ∨ s.ctxOf t ≠ ctx) ∨ (s.pe.stage = .save ∧ s.pe.ctx = ctx) →
       ignored (.frCmdRetry die k ctx) ∧ ignored (.frCmdSkip die k ctx) ∧ ignored (.frCmdKill die k ctx)) ∧
     ignored (.frCmdIgnored die) ∧
     (∀ e s1, s.frQueue.find? (fun e => e.1 == die) = some e →
       (s.frWrite die e.2 = none → exec (.frPend die) s = .next s) ∧
       (s.frWrite die e.2 = some s1 → die < 4 → s.Leads (.frPend die) fun s2 =>
         s2.mem = s1.mem ∧ s2.frQueue = s.frQueue.erase e ∧ s2.reg (Off.fr die 0x10) = s.reg (Off.fr die 0x10) + 1))) ∧
  (∀ (s : State) (core part : Nat), core % 512 < 288 → core / 512 < 4 →
     let counted := fun (i : Instr) => s.Leads i fun s2 => s2 = s.bumpReg (Off.dbg core 0x98)
     let bitsOf : Word := BitVec.ofNat 64 (2 ^ part + 2 ^ (4 + part))
     (∀ val, s.Leads (.wpHitWrite core val) fun s2 =>
       s2.reg (Off.dbg core 0x60) = s.reg (Off.dbg core 0x60) &&& ~~~(val &&& (regSpec (Off.dbg core 0x60)).mask) ∧ s2.mem = s.mem ∧ s2.threads = s.threads) ∧
     (s.debugLocked = true ∨ (s.core core).stopped.contains part = true → counted (.dbgCmdStop core part)) ∧
     (s.debugLocked = false → (s.core core).stopped.contains part = false → part < 4 → s.Leads (.dbgCmdStop core part) fun s2 =>
       part ∈ (s2.core core).stopped ∧ s2.reg (Off.dbg core 0x88) = s.reg (Off.dbg core 0x88) ||| bitsOf ∧ s2.threads = s.threads) ∧
     (s.debugLocked = true ∨ (s.core core).stopped.contains part = false → counted (.dbgCmdResume core part)) ∧
     (s.debugLocked = false → (s.core core).stopped.contains part = true → s.Leads (.dbgCmdResume core part) fun s2 =>
       part ∉ (s2.core core).stopped ∧ s2.reg (Off.dbg core 0x88) = s.reg (Off.dbg core 0x88) &&& ~~~bitsOf ∧ s2.threads = s.threads ∧ s2.mem = s.mem) ∧
     (∀ c, (s.core core).sampleAt.find part = some c → bit (s.reg (Off.dbg core 0xA0)) 0 = true → c ≤ s.clk → s.Leads (.sampleTag core part) fun s2 =>
       part ∈ (s2.core core).armed ∧ s2.threads = s.threads ∧ s2.mem = s.mem ∧
         ∃ n, (s2.core core).sampleAt.find part = some (s.clk + n) ∧ 1 ≤ n ∧ n ≤ 2 * max 256 (bits (s.reg (Off.dbg core 0xA0)) 20 1)) ∧
     (∀ x, (s.core core).samples.find? (fun x => x.part == part && s.sampleDone x) = some x →
       let size := (s.reg (Off.dbg core 0xB0)).toNat
       let room := ringOpen size 64 65536 && decide ((s.reg (Off.dbg core 0xB8) - s.reg (Off.dbg core 0xC0)).toNat < size)
       let at_ := (s.reg (Off.dbg core 0xA8)).toNat + 64 * ((s.reg (Off.dbg core 0xB8)).toNat % size)
       (room = true → s.leaseFree at_ = false → s.Leads (.sampleRecord core part) fun s2 => (s2.core core).samples = (s.core core).samples ∧ s2.mem = s.mem ∧ s2.mmio = s.mmio) ∧
       (room = false ∨ s.leaseFree at_ = true → s.Leads (.sampleRecord core part) fun s2 => (s2.core core).samples = (s.core core).samples.erase x ∧
         (room = true → s2.reg (Off.dbg core 0xB8) = s.reg (Off.dbg core 0xB8) + 1) ∧
         (room = false → s2.reg (Off.dbg core 0xC8) = s.reg (Off.dbg core 0xC8) + 1 ∧ s2.mem = s.mem))))

/-- Pre-emption and checkpoints (R367-R372, R378, R417-R424): a command to a busy block has no effect, nor a pre-empt over an image that is neither
EMPTY nor SAVED; a drain sets its deadline; a drain without resident blocks writes the image at once; a time-out begins the save, which writes the
image when the context is quiet; a pin answers PINNED or UNPINNABLE; what reads or writes the save area waits for its frozen and COPYING pages (R442);
a restore that cannot be places nothing. A checkpoint command starts its job's first stage; CK_EXCHANGE_DONE carries on the stage that a job is in: a
bad descriptor ends the job with BADDESC and an uncorrectable one with UNCORR; a save hashes its chunks, exchanges its list, writes the chunks and
then the manifest, and last m6 and the completion word; a restore selects the largest step that every rank has, reads and verifies the chunks of it,
and fills the pages of the regions that it activates; a digest that differs excludes the step. An access that must wait leaves the stage, and so does
a completion word (R262, R289, R414). Model's choices: that event carries on the stages that have none of their own (notes/assumptions/33), which
matrix operations finish (notes/assumptions/38), whose tables a job uses (notes/assumptions/40), what stands in an image beyond the rules' words
(notes/assumptions/53) and the order of a job's accesses (notes/assumptions/55). -/
def Obligations.PreemptionAndCheckpoint : Prop :=
  ∀ (s : State) (ctx : Nat), ctx < 1024 →
    let stays := fun (i : Instr) => exec i s = .next s
    let status := fun (s2 : State) => bits (s2.reg (Off.pe 8)) 23 16
    let next := fun (s1 : State) => exec .ckExchangeDone s = .next s1
    let goes := fun (ok : State → Prop) => s.Leads .ckExchangeDone fun s2 => bit (s2.reg (Off.ck 0x10)) 0 = true ∧ bits (s2.reg (Off.ck 0x10)) 3 1 = s2.ck.stage ∧ ok s2
    let ended := fun (x : State) (n : Nat) =>
      let fin := fun (y : State) => bits (y.reg (Off.ck 0x10)) 15 8 = n ∧ bit (y.reg (Off.ck 0x10)) 0 = false ∧ y.ck = {} ∧ y.blocks = x.blocks
      next (x.ckEnd n) ∧ (∀ y u, x.ckComp n = .ok y u → fin (x.ckEnd n)) ∧ (∀ y c a, x.ckComp n = .err y c a → fin (x.ckEnd n)) ∧
      (∀ y, x.ckComp n = .wait y → (x.ckEnd n).ck.final = some n)
    (s.pe.stage ≠ .idle → stays (.peCmdPreempt ctx) ∧ stays (.peCmdPin ctx) ∧ stays (.peCmdRestore ctx) ∧
      (s.pe.stage ≠ .drain ∨ s.pe.ctx ≠ ctx → stays (.peCmdKill ctx))) ∧
    (s.pe.stage = .idle →
      (s.imageState ctx = 2 → s.Leads (.peCmdPreempt ctx) fun s2 => status s2 = 1 ∧ s2.pe.stage = .idle ∧ s2.threads = s.threads ∧ s2.mem = s.mem) ∧
      (s.imageState ctx ≠ 0 → s.imageState ctx ≠ 2 → stays (.peCmdPreempt ctx)) ∧
      (s.imageState ctx = 0 → bit (s.ctxWord (s.ctxDie ctx) ctx 0) 27 = true ∨ (s.ctxSt ctx).pinned = true → s.Leads (.peCmdPreempt ctx) fun s2 =>
        s2.pe.stage = .drain ∧ s2.pe.ctx = ctx ∧ s2.pe.deadline = s.ptp + (s.reg (Off.pe 0x10)).toNat ∧ s2.threads = s.threads ∧
          ∀ c, ∀ x ∈ (s2.core c).queue, x ∈ (s.core c).queue ∧ ∀ l, s.launches.find x.1 = some l → l.ctx ≠ ctx) ∧
      (∀ b, (s.pinArea ctx).2 = b → s.Leads (.peCmdPin ctx) fun s2 => status s2 = (if b then 5 else 6) ∧ s2.mem = s.mem ∧ (b = true → (s2.ctxSt ctx).pinned = true)) ∧
      (∀ s1, s.restoreImage ctx = .ok s1 → s.Leads (.peCmdRestore ctx) fun s2 => status s2 = 3 ∧ s2.pe.stage = .idle ∧ s2.blocks = s1.blocks) ∧
      (∀ n, n < 256 → s.restoreImage ctx = .error n → s.Leads (.peCmdRestore ctx) fun s2 => status s2 = n ∧ s2.threads = s.threads ∧ s2.blocks = s.blocks ∧ s2.mem = s.mem)) ∧
    (s.pe.stage = .idle ∨ (s.pe.stage = .drain ∧ s.pe.ctx = ctx) → s.Leads (.peCmdKill ctx) fun s2 => s2 = s.forcedReset ctx ∧ status s2 = 2 ∧ s2.pe.stage = .idle) ∧
    let held := s.areaHeld s.pe.ctx = true
    (s.pe.stage = .drain → (s.blocksOf s.pe.ctx = [] → ¬held → exec .peDrainDone s = .next (s.writeImage s.pe.ctx)) ∧
      (s.blocksOf s.pe.ctx ≠ [] ∨ held → stays .peDrainDone)) ∧
    (s.pe.stage = .drain → s.blocksOf s.pe.ctx ≠ [] →
      (s.ptp < s.pe.deadline ∨ held → stays .peDrainTimeout) ∧
      (s.pe.deadline ≤ s.ptp → ¬held → s.Leads .peDrainTimeout fun s2 => s2.pe.stage = .save ∧ s2.pe.ctx = s.pe.ctx)) ∧
    (s.pe.stage = .save → (s.quiet s.pe.ctx = true → ¬held → exec .peSaveDone s = .next (s.writeImage s.pe.ctx)) ∧
      (s.quiet s.pe.ctx = false ∨ held → stays .peSaveDone)) ∧
    (s.ck.stage ≠ 0 ∨ s.ckHost = true → stays .ckCmdSave ∧ stays .ckCmdRestore) ∧
    (s.ck.stage = 0 → s.ckHost = false →
      let starts := fun (i : Instr) (n : Nat) => s.Leads i fun s2 => s2.ck = { s.ck with stage := n } ∧ bit (s2.reg (Off.ck 0x10)) 0 = true ∧
        bits (s2.reg (Off.ck 0x10)) 3 1 = n ∧ s2.mem = s.mem ∧ s2.threads = s.threads
      starts .ckCmdSave 1 ∧ starts .ckCmdRestore 5) ∧
    (s.ck.stage = 0 → stays .ckExchangeDone) ∧
    (∀ n, s.ck.final = some n → s.ck.stage ≠ 0 → ended s n) ∧
    (s.ck.final = none → s.ck.stage = 1 ∨ s.ck.stage = 5 →
      (∀ s1 c a, s.ckWords (s.reg (Off.ck 0)) 8 = .err s1 c a → ended s1 (if c = 0x13 then 5 else 3)) ∧
      (∀ s1, s.ckWords (s.reg (Off.ck 0)) 8 = .wait s1 → next s1)) ∧
    (s.ck.final = none → ∀ s1 d, s.ckWords (s.reg (Off.ck 0)) 8 = .ok s1 d →
      let s2 : State := { s1 with ck := { s1.ck with desc := d } }
      (s.ck.stage = 1 →
        (saveDescOk d = false → ended s2 3) ∧
        (∀ s3 vas regs cs, saveDescOk d = true → s2.ckWords (wordAt d 0) (bits (wordAt d 1) 15 0) = .ok s3 vas → s3.ckRegions vas s3.regionOk = some regs →
          s3.holdStep regs s3.ckSaved = true → s3.shardUncorr regs s3.ckSaved = false → s3.shard regs s3.ckSaved = some cs →
          goes fun s4 => s4.ck.stage = 2 ∧ s4.ck.regions = regs ∧ s4.ck.hashes = cs.map sha256 ∧ s4.mem = s3.mem)) ∧
      (s.ck.stage = 5 ∨ s.ck.stage = 6 → restoreDescOk d = false → ended s2 3) ∧
      (∀ s3 vas regs s4 as s5 all s6 table, restoreDescOk d = true → s2.ckWords (wordAt d 4) (bits (wordAt d 5) 15 0) = .ok s3 vas →
        s3.ckRegions vas s3.restorable = some regs → s3.ckWords (wordAt d 0) (bits (wordAt d 1) 31 0) = .ok s4 as → s4.readManifests as = .ok s5 all →
        s5.ckWords (wordAt d 3) 1024 = .ok s6 table → s6.ck.desc = d →
        let ms := all.filter fun m => bit (wordAt m.2 6) 0 && wordAt m.2 2 == wordAt d 2
        let steps := commonSteps ms (bits (wordAt d 1) 47 32)
        let mine := fun (st : Nat) => ms.find? fun m => bits (wordAt m.2 3) 15 0 == bits (wordAt d 1) 63 48 && bits (wordAt m.2 1) 31 0 == st
        (s.ck.stage = 5 →
          (s6.ck.cands.getD steps = [] → ended s6 (if steps = [] then 1 else 4)) ∧
          (∀ st l m s7 ws, s6.ck.cands.getD steps = st :: l → mine st = some m → (wordAt m.2 5).toNat = s6.shardLen regs →
            s6.ckWords (m.1 + 64) (8 * (wordAt m.2 4).toNat) = .ok s7 ws →
            goes fun s8 => s8.ck.stage = 6 ∧ s8.ck.cands = some (st :: l) ∧ s8.ck.todo = entriesOf ws (wordAt m.2 4).toNat ∧ s8.ck.data = [] ∧ s8.mem = s7.mem)) ∧
        (s.ck.stage = 6 →
          (∀ e l s7 bs, s6.ck.todo = e :: l →
            s6.partRead ckId (s6.ckCmd 0) (wordAt table (bits (wordAt e 4) 9 0) + BitVec.ofNat 64 (chunkLen * (wordAt e 5).toNat)) (bits (wordAt e 6) 22 0) = .ok s7 bs →
            (digestWords (sha256 bs) = e.take 4 → s.Leads .ckExchangeDone fun s8 => s8.ck.todo = l ∧ s8.ck.data = s7.ck.data ++ bs ∧ s8.mem = s7.mem) ∧
            (digestWords (sha256 bs) ≠ e.take 4 → goes fun s8 => s8.ck.stage = 5 ∧ s8.ck.cands = s7.ck.cands.map (List.drop 1) ∧ s8.mem = s7.mem)) ∧
          (s6.ck.todo = [] → s6.ck.data.length = s6.shardLen regs → (regs.flatMap s6.records).all s6.pageFree = true →
            let st := (s6.ck.cands.getD []).headD 0
            ended (regs.foldl (fun (x : State) g => x.activate st g) (s6.putPages st (regs.flatMap s6.records) s6.ck.data)) 0)))) ∧
    (s.ck.final = none → s.ck.stage = 2 →
      (∀ s1, s.ckGroup = .wait s1 → next s1) ∧
      (∀ s1 g, s.ckGroup = .ok s1 g →
        (∀ s2, s1.exchange g = .wait s2 → next s2) ∧
        (∀ s2 cs, s1.exchange g = .ok s2 () → s2.shardUncorr s2.ck.regions s2.ckSaved = false → s2.shard s2.ck.regions s2.ckSaved = some cs →
          goes fun s3 => s3.ck.stage = 3 ∧ s3.ck.outs = s2.chunkOuts (s2.lowerPeers g) cs ∧ s3.ck.entries = s2.manifestOuts (s2.lowerPeers g) cs ∧ s3.mem = s2.mem))) ∧
    (s.ck.final = none → s.ck.stage = 3 ∨ s.ck.stage = 4 →
      (∀ o s1, s.ck.outs[s.pick 64 % s.ck.outs.length]? = some o → s.engWrite ckId (s.ckCmd 0) o.1 o.2 0 false true = .ok s1 () →
        s.Leads .ckExchangeDone fun s2 => s2.mem = s1.mem ∧ s2.ck = { s1.ck with outs := s1.ck.outs.erase o }) ∧
      (s.ck.stage = 3 → s.ck.outs = [] → goes fun s2 => s2.ck = { s.ck with stage := 4, outs := s.ck.entries, entries := [] } ∧ s2.mem = s.mem) ∧
      (∀ s1, s.ck.stage = 4 → s.ck.outs = [] → s.ckRelease (wordAt s.ck.desc 6 + 48) 1 = .ok s1 () → ended s1 0))

/-- The service block, Taproot's commands and the registers (R3, R4, R248, R252, R266, R267, R345, R408, R427-R433, R438): a grant or a refusal
answers the request that it names; a given frame goes onto the reserve; a release makes an unused frame UNSEEN; a migration goes pass by pass to its
frozen copy and its switch, behind a copy-on-write of its page; plain registers take their writable bits from an aligned write of 8 bytes and nothing
from another access, a render count the value written, and a register without a writable field nothing; an invalidation ends when no covered
translation or table entry is left; an encoded frame goes into its ring once no lease or migration holds a byte of it; budgets refill at a
microsecond. Model's choices: when power and temperature are measured (notes/assumptions/9), the leaves that a switch rewrites (notes/assumptions/32),
and registers whose whole word is an address (notes/assumptions/42). -/
def Obligations.ServiceAndRegisters : Prop :=
  ∀ (s : State),
    let stays := fun (i : Instr) => exec i s = .next s
    let ends := fun (i : Instr) (n : Nat) => s.Leads i fun s2 => s2.reg (Off.tp 0x20) = BitVec.ofNat 64 (256 * n) ∧ s2.mem = s.mem
    (∀ r q o va ctx pr, s.svMatch = some r → r.op = some q → s.ops.find q = some o → o.kind = .touch va ctx pr none →
      let answers := fun (i : Instr) (b : Bool) => s.Leads i fun s2 => s2.resReqs = s.resReqs.erase r ∧
        s2.ops.find q = some { o with kind := .touch va ctx pr (some b) } ∧ s2.mem = s.mem
      answers .svCmdRefuse false ∧ answers .svCmdGrant ((s.walk (qeAgent 0) r.ctx r.va).any fun l => l.resident)) ∧
    (∀ r, s.resReqs.find? (fun r => r.refill && r.ctx == bits (s.reg (Off.sv 0x28)) 9 0) = some r →
      let n := s.resCount r.va
      let full := n + 1 = s.resCap r.va
      s.keyTags = [] → s.resCap r.va < 2 ^ 32 → n < s.resCap r.va →
      (s.hwRead (r.va + 32)).toNat + 8 * n + 8 ≤ r.va ∨ r.va + 64 ≤ (s.hwRead (r.va + 32)).toNat + 8 * n →
      Mem.wf s.mem = true → s.Leads .svCmdGiveFrame fun s2 =>
        s2.resCount r.va = n + 1 ∧ s2.hwRead ((s.hwRead (r.va + 32)).toNat + 8 * n) = BitVec.ofNat 64 (bits (s.reg (Off.sv 0x30)) 51 16 * 65536) ∧
        (full → ∀ x ∈ s2.resReqs, ¬(x.refill = true ∧ x.va = r.va)) ∧ (¬full → s2.resReqs = s.resReqs)) ∧
    stays .svCmdIgnored ∧
    (∀ e l s1, s.svQueue = e :: l → s.svWrite e = some s1 → s.Leads .svPend fun s2 =>
      s2.svQueue = l ∧ s2.mem = s1.mem ∧ s2.reg (Off.sv 0x10) = s.reg (Off.sv 0x10) + 1 ∧ s2.reg (Off.sv 0x20) = BitVec.ofNat 64 l.length) ∧
    stays .tpCmdIgnored ∧
    (s.tpBusy = true → stays .tpCmdRelease ∧ stays .tpCmdMigrate) ∧
    (s.tpBusy = false →
      (s.tpSrc % 65536 ≠ 0 ∨ isDevice s.tpSrc = false → ends .tpCmdRelease 3) ∧
      (s.tpSrc % 65536 = 0 → isDevice s.tpSrc = true →
        (s.inUse s.tpSrc = true → ends .tpCmdRelease 2) ∧
        (s.inUse s.tpSrc = false → ends .tpCmdRelease 1 ∧ s.Leads .tpCmdRelease fun s2 => s2.frames.find (s.tpSrc / 65536) = none)) ∧
      (∀ n, s.tpCheck s.tpSrc s.tpDst s.tpTag = n → n ≠ 0 → ends .tpCmdMigrate n) ∧
      (s.tpCheck s.tpSrc s.tpDst s.tpTag = 0 → s.Leads .tpCmdMigrate fun s2 => s2.tpBusy = true ∧ s2.mem = s.mem ∧
        ∃ m, s2.migration = some m ∧ m.src = s.tpSrc ∧ m.dst = s.tpDst ∧ m.frozen = false)) ∧
    (∀ m, s.migration = some m →
      (m.frozen = false → m.pass ≠ 0 → s.Leads .migrationPassEnd fun s2 => s2.mem = s.mem ∧
        s2.migration = some (if m.marked.length < 16 ∨ m.pass = 9 then { m with frozen := true } else { m with marked := [], pass := m.pass + 1, todo := m.marked })) ∧
      (m.frozen = false → m.pass = 0 → s.pageCopying m.src = true → stays .migrationPassEnd) ∧
      (m.frozen = true → s.pageCopying m.src = true ∨ s.moveHeld m.src m.dst m.tag = true → stays .freezeCopyEnd) ∧
      (m.frozen = true → s.pageCopying m.src = false → s.moveHeld m.src m.dst m.tag = false → s.Leads .freezeCopyEnd fun s2 => s2.migration = none ∧
        s2.reg (Off.tp 0x20) = BitVec.ofNat 64 (256 * (if s.tpCheck m.src m.dst m.tag = 0 then 1 else s.tpCheck m.src m.dst m.tag)))) ∧
    (∀ off (v : Word), ownEvent off = false → s.powered = true → (regSpec off).acc = .rw → off ≠ Off.fb 0 → rsCount off = none →
      (0x50000 ≤ off → off < 0x50800 → s.foOn ((off - 0x50000) / 0x100) = false ∨ off % 0x100 = 0x30) → s.Leads (.registerWrite off { width := 8, word := v }) fun s2 =>
        s2.reg off = (s.reg off &&& ~~~(regSpec off).mask) ||| (v &&& (regSpec off).mask) ∧ (∀ o, o ≠ off → s2.reg o = s.reg o) ∧ s2.mem = s.mem ∧
        s2.leases = (if off = Off.fb 0x10 ∧ s2.skewOk = false then [] else s.leases)) ∧
    (∀ off (val : RegData), val.width ≠ 8 ∨ off % 8 ≠ 0 → stays (.registerWrite off val) ∧ s.barRead off val.width = 2 ^ (8 * val.width) - 1) ∧
    (∀ off, off % 8 = 0 → rsCount off = none → (regSpec off).acc = .wo ∨ (regSpec off).acc = .absent → s.barRead off 8 = 0) ∧
    (∀ off val, ownEvent off = false → (regSpec off).acc = .ro ∨ (regSpec off).acc = .wo ∨ (regSpec off).acc = .absent → stays (.registerWrite off val)) ∧
    (∀ off d n (v : Word), s.powered = true → rsCount off = some (d, n) → s.Leads (.registerWrite off { width := 8, word := v }) fun s2 =>
      s2.readReg off = v ∧ ((s2.ctxSt (s.rsSel d)).render d).count n = v.toNat ∧ s2.mem = s.mem ∧ s2.mmio = s.mmio) ∧
    (∀ off val, 0x50000 ≤ off → off < 0x50800 → s.foOn ((off - 0x50000) / 0x100) = true → off % 0x100 ≠ 0x30 → stays (.registerWrite off val)) ∧
    (∀ val, s.portsUp ≠ [] → stays (.registerWrite (Off.fb 0) val)) ∧
    (∀ die val, die < 4 → bit val 10 = true → bit (s.reg (Off.xl die 0x20)) 0 = false → s.Leads (.xlInvCmd die val) fun s2 =>
      s2.reg (Off.xl die 0x20) = 1 ∧ s2.invals = s.invals ++ [(die, bits val 9 0, (s.reg (Off.xl die 8)).toNat / 65536, (s.reg (Off.xl die 0x10)).toNat, s.nextSeq)]) ∧
    (∀ die i, s.invals.find? (fun i => i.1 == die) = some i →
      (s.invBusy i = true → stays (.xlInvalidationDone die)) ∧
      (s.invBusy i = false → s.Leads (.xlInvalidationDone die) fun s2 => s2.reg (Off.xl die 0x20) = 0 ∧ s2.invals = s.invals.erase i ∧
        (∀ e ∈ s2.tlb, e ∈ s.tlb ∧ invCovers i e.ctx e.vpage = false) ∧ ∀ e ∈ s2.ptes, e ∈ s.ptes ∧ invMeets i e = false)) ∧
    (∀ st val, st < 8 →
      (bit val 0 = false → s.Leads (.foCtlWrite st val) fun s2 => s2.foOn st = false ∧ s2.streams.find st = none ∧ s2.mem = s.mem) ∧
      (bit val 0 = true → s.foOn st = false → s.Leads (.foCtlWrite st val) fun s2 => s2.mem = s.mem ∧ s2.foOn st = s.foConfigOk st val ∧
        bit (s2.reg (Off.fo st 0)) 2 = !s.foConfigOk st val)) ∧
    (∀ st, st < 8 → s.foOn st = true → (s.stream st).encode = true →
      let bs := (s.stream st).left.getD (s.encoded st (s.stream st))
      let room := (s.reg (Off.fo st 0x20)).toNat - (s.reg (Off.fo st 0x28) - s.reg (Off.fo st 0x30)).toNat
      let held := fun (n : Nat) => s.agentFree .engine (s.foByte st ((s.reg (Off.fo st 0x28)).toNat + n)) = false
      (∀ n, n < min room bs.length → held n → stays (.frameEncoded st)) ∧
      ((∀ n, n < min room bs.length → ¬held n) → s.Leads (.frameEncoded st) fun s2 =>
        s2.reg (Off.fo st 0x28) = s.reg (Off.fo st 0x28) + BitVec.ofNat 64 (min room bs.length) ∧
        (bs.length ≤ room → (s2.stream st).frame = (s.stream st).frame + 1 ∧ (s2.stream st).left = none) ∧
        (room < bs.length → (s2.stream st).left = some (bs.drop room)))) ∧
    (s.powered = true → s.refilled < s.ptp / 1000 → s.Leads .ebudRefill fun s2 => s2.refilled = s.refilled + 1 ∧ s2.mem = s.mem ∧
      ∀ c ∈ s2.ebudCtxs, (s2.ctxSt c).ebud = min ((s.ctxSt c).ebud + s2.ebudRate c) (4 * s2.ebudRate c)) ∧
    (s.powered = true → s.tripped = true ∨ 115 ≤ bits (s.reg (Off.pwr 0x18)) 7 0 → s.Leads .thermalTrip fun s2 => s2.powered = false ∧ s2.linkUp = false ∧ s2.threads = [] ∧
      ∀ a, isDevice a = true → Mem.read s2.mem a = 0 ∧ s2.full a = true)

/-- The fabric and the host's accesses to device memory (R289, R408, R409, R411, R412, R414-R416, R426, R428): silence marks a package down and a
heartbeat clears it; a port that is up is listed; a read of a WB line leaves a lease; a write under a lease is held, and performed with its line's
others, in order of arrival, when the lease is over; a refused access goes again after its hint; a host read returns the bytes under the host's key,
through either decoder; a fill write fills whole words only. Model's choices: peers' answers are free (notes/assumptions/7), the owners' own stores
are free values where the package reads (notes/assumptions/22), and which held writes are counted, and in what order (notes/assumptions/57, 68). -/
def Obligations.FabricEvents : Prop :=
  ∀ (s : State),
    let stays := fun (i : Instr) => exec i s = .next s
    let down := fun (s : State) (f : Nat) => (s.reg (Off.fb (0x100 + 8 * (f / 64)))).getLsbD (f % 64)
    (∀ f, f < 1024 →
      (bits (s.reg (Off.fb 0x38)) 31 0 < s.ptp - (s.heard.find f).getD 0 → s.Leads (.peerDown f) fun s2 =>
        ∀ g, g < 1024 → down s2 g = (decide (g = f) || down s g)) ∧
      (s.ptp - (s.heard.find f).getD 0 ≤ bits (s.reg (Off.fb 0x38)) 31 0 → stays (.peerDown f)) ∧
      s.Leads (.heartbeat f) fun s2 => s2.heard.find f = some s.ptp ∧ ∀ g, g < 1024 → down s2 g = (decide (g ≠ f) && down s g)) ∧
    (∀ n, n < 16 → s.Leads (.portUp n) fun s2 => (n ∈ s2.portsUp ∧ ∀ m ∈ s.portsUp, m ∈ s2.portsUp) ∧ s2.mem = s.mem) ∧
    (∀ n, s.Leads (.portDown n) fun s2 => n ∉ s2.portsUp ∧ s2.mem = s.mem) ∧
    (∀ off, s.Leads (.ptpRefresh off) fun s2 => s2.reg (Off.fb 0x30) = off ∧ s2.mem = s.mem ∧
      s2.leases = if bits (s.reg (Off.fb 0x10)) 31 0 < off.toInt.natAbs then [] else s.leases) ∧
    (∀ peer off n need a, s.incoming off n need = .ok a → s.incomingHeld off n need = true →
      (need = .read → stays (.peerRead peer off n)) ∧ (∀ bs : List Byte, need = .write → bs.length = n → stays (.peerWrite peer off bs))) ∧
    (∀ peer off n a, s.incoming off n .read = .ok a → s.incomingHeld off n .read = false → (∀ i, i < n → (s.paNow a + i) / 64 ∉ s.badMem) →
      s.Leads (.peerRead peer off n) fun s2 => s2.mem = s.mem ∧ s2.threads = s.threads ∧ s2.reply = (s.bytesAt none a.key (s.paNow a) n).map BitVec.toNat ∧
        (a.policy = 0 → s.heldOn (s.paNow a / 256) = 0 → ∃ e, s2.emax (s.paNow a / 256) = some e ∧ s.ptp + s.leaseLen ≤ e) ∧
        (a.policy ≠ 0 ∨ s.heldOn (s.paNow a / 256) ≠ 0 → s2.granted = s.granted)) ∧
    (∀ peer off b a, s.incoming off 1 .write = .ok a → s.incomingHeld off 1 .write = false → a.vrec = none →
      (s.leaseFree (s.paNow a) = false → s.Leads (.peerWrite peer off [b]) fun s2 => s2.mem = s.mem ∧
        s2.heldWr = s.heldWr ++ [{ id := s.nextSeq, key := a.key, pa := s.paNow a, bytes := [b], by_ := .peer }]) ∧
      (s.leaseFree (s.paNow a) = true → Mem.wf s.mem = true →
        s.keyTags.find (s.paNow a / 64) = none ∨ s.keyTags.find (s.paNow a / 64) = some (s.keyGen a.key) →
        s.Leads (.peerWrite peer off [b]) fun s2 => s.Wrote s2 (s.paNow a) 1 (b.setWidth 64))) ∧
    (∀ line, (s.granted.find? fun l => l.line == line) = none → stays (.leaseHoldExpiry line)) ∧
    (∀ line l, (s.granted.find? fun l => l.line == line) = some l → (∀ x ∈ s.granted, x.line = line → x = l) →
      (s.leaseOver l = false → stays (.leaseHoldExpiry line)) ∧
      (s.leaseOver l = true → s.heldWr = [] →
        (l.expiry = 0 → s.Leads (.leaseHoldExpiry line) fun s2 => s2.mem = s.mem ∧ s2.reg (Off.fb 0x40) = s.reg (Off.fb 0x40)) ∧
        (l.expiry ≠ 0 → s.Leads (.leaseHoldExpiry line) fun s2 => s2.mem = s.mem ∧ s2.reg (Off.fb 0x40) = s.reg (Off.fb 0x40) + BitVec.ofNat 64 (s.heldOn line) ∧
          (s.heldOn line = 0 → s2.emax line = none ∧ s2.leaseFree (256 * line) = true) ∧
          ∀ q rest, (l.waiting s).filter (decide <| · < 2 ^ 63) = q :: rest → ∀ r, s2.leaseFreeFor (some r) (256 * line) = decide (r = q)))) ∧
    (∀ op o a v w, s.ops.find op = some o → o.kind = .store a v → isPeer a.pa = true → a.policy ≠ 2 → s.canPerform op o false = true →
      s.peerWaits.find? (fun w => w.op == op) = some w →
      (s.ptp < w.notBefore → stays (.peerResend op)) ∧
      (w.notBefore ≤ s.ptp →
        (∀ s1, s.askOwner op o a = .yes s1 → exec (.peerResend op) s = .next (s1.doStore op o a v)) ∧
        (∀ s1, s.askOwner op o a = .wait s1 → exec (.peerResend op) s = .next s1) ∧
        (∀ s1 c, s.askOwner op o a = .bad s1 c →
          exec (.peerResend op) s = .next (s1.faultOp op o { cause := c, kind := .store, addr := BitVec.ofNat 64 a.va })))) ∧
    (∀ id c, s.cmds.find id = some c → c.done = false →
      ((∀ r ∈ c.refused, s.ptp < r.2.2) → stays (.engineResend id)) ∧
      (∀ r ∈ c.refused, r.2.2 ≤ s.ptp → exec (.engineResend id) s = exec (.engineCommandStart id) s)) ∧
    (s.linkUp = true →
      (∀ off n, off + n ≤ 2 ^ 40 → (∀ i, i < n → (off + i) / 64 ∉ s.badMem) →
        let reads := fun (s2 : State) => s2.reply = (s.bytesAt none s.hostKey off n).map BitVec.toNat ∧ s2.mem = s.mem ∧ s2.empties = s.empties ∧ s2.threads = s.threads
        s.Leads (.hdmAccess off (.read n)) reads ∧ s.Leads (.hdmAccess off (.aliasRead n)) reads) ∧
      (∀ off b, off < 2 ^ 40 → s.agentFree .host off = true → Mem.wf s.mem = true →
        s.keyTags.find (off / 64) = none ∨ s.keyTags.find (off / 64) = some (s.keyGen s.hostKey) →
        s.Leads (.hdmAccess off (.write [b])) fun s2 => s.Wrote s2 off 1 (b.setWidth 64)) ∧
      (∀ off (v : Word), off % 8 = 0 → off < 2 ^ 40 → s.agentFree .host off = true → Mem.wf s.mem = true →
        s.keyTags.find (off / 64) = none ∨ s.keyTags.find (off / 64) = some (s.keyGen s.hostKey) →
        s.Leads (.fillAliasWrite off (toLe 8 v.toNat)) fun s2 => s.Wrote s2 off 8 v ∧ s2.full off = true ∧ s2.reg (Off.sv 0x60) = s.reg (Off.sv 0x60)) ∧
      (∀ off b, off < 2 ^ 40 → s.Leads (.fillAliasWrite off [b]) fun s2 => s2.mem = s.mem ∧ s2.reg (Off.sv 0x60) = s.reg (Off.sv 0x60) + 1))

/-- Coherence across the dies (R218, R222, R236, R394-R401, R407): what a home grants, probes and forgets, and what it holds while it is busy; a
core's miss is granted once its die holds the sector and no other core owns it, into its L1 where an access that uses it asks; probes take copies
away, and the last acknowledgement ends its transaction; a remote die applies a write after those that its clock names; a frame changes its class once
every write to it has reached every die. Data stand in one memory, which none of these changes, but that a home that serves a host line no die holds
finds what the host has left there (R245). Model's choices: the order in which the dies apply writes that nothing orders (notes/assumptions/15), what
the host has left (notes/assumptions/22), which line a full L2 slice gives up (notes/assumptions/24) and the set of a home's line
(notes/assumptions/61) are free. -/
def Obligations.CoherenceEvents : Prop :=
  ∀ (s : State),
    let moves := fun (i : Instr) (ok : State → Prop) => s.Leads i fun s2 => s2.mem = s.mem ∧ s2.empties = s.empties ∧ s2.threads = s.threads ∧ ok s2
    (∀ d sec, d < 4 → s.tracked sec = true → s.homeBusy sec = true → s.dieState sec d = 0 → s.dieWants d sec false = true → (d, sec, false) ∉ s.homeQ →
      moves (.taprootRd d sec) fun s2 => s2.homeQ = s.homeQ.filter s.stillAsks ++ [(d, sec, false)]) ∧
    (∀ d sec, d < 4 → s.tracked sec = true → s.homeBusy sec = false → s.recallVictim sec = none →
      let first := fun (w : Bool) => ∀ r, s.homeQ.find? (fun r => r.2.1 == sec && s.stillAsks r) = some r → r = (d, sec, w)
      let s0 := s.hostFill sec
      let moves := fun (i : Instr) (ok : State → Prop) => s.Leads i fun s2 => s2.mem = s0.mem ∧ s2.empties = s.empties ∧ s2.threads = s.threads ∧ ok s2
      (s.fromHost (64 * sec) = false → s0 = s) ∧
      (s.dieState sec d = 0 → s.dieWants d sec false = true → ¬first false → exec (.taprootRd d sec) s = .next s) ∧
      (s.dieState sec d = 0 → s.dieWants d sec false = true → first false →
        (∀ e, (s.holders sec).find? (fun e => s.dieState sec e == 2) = some e → moves (.taprootRd d sec) fun s2 =>
          s2.homeBusy sec = true ∧ ∃ n p, s2.probes.find n = some p ∧ p.die = e ∧ p.sector = sec ∧ p.inval = false ∧ p.core = none) ∧
        ((∀ e ∈ s.holders sec, s.dieState sec e ≠ 2) → moves (.taprootRd d sec) fun s2 =>
          s2.dieState sec d = (if s.holders sec = [] then 2 else 1) ∧ ∀ e, e < 4 → e ≠ d → s2.dieState sec e = s.dieState sec e)) ∧
      (s.dieWants d sec true = true → first true →
        let alone := ∀ e ∈ s.holders sec, e = d
        let gets := fun (i : Instr) =>
          (alone → moves i fun s2 => s2.dieState sec d = 2) ∧
          (¬alone → moves i fun s2 => s2.homeBusy sec = true ∧ ∀ e ∈ s.holders sec, e ≠ d → ∃ n p, s2.probes.find n = some p ∧ p.die = e ∧ p.sector = sec ∧ p.inval = true)
        (s.dieState sec d = 0 → gets (.taprootRdx d sec)) ∧ (s.dieState sec d = 1 ∨ s.dieState sec d = 3 → gets (.taprootUp d sec)))) ∧
    (∀ d sec m, d < 4 → s.dieState sec d ≠ 0 → (s.dieDirty d sec || s.dieState sec d == 3) = m → s.l2Busy d (sec / 4) = false → s.probes = [] →
      (∀ n ∈ s.notices, ¬(n.core / 512 = d ∧ n.line = sec / 4)) → moves (.taprootEv d sec m) fun s2 => s2.dieState sec d = 0 ∧ (∀ e, e < 4 → e ≠ d → s2.dieState sec e = s.dieState sec e) ∧
        ∀ l ∈ s2.l1, l.core / 512 = d → l.line ≠ sec / 4) ∧
    (∀ addr inval, let sec := (2 ^ 51 + addr % 2 ^ 51) / 64
      (s.snoopHeld sec = true → exec (.hostSnoop addr inval) s = .next s) ∧ (s.snoopHeld sec = false →
      ((s.holders sec = [] ∨ (inval = false ∧ ∀ e ∈ s.holders sec, s.dieState sec e ≠ 2)) → exec (.hostSnoop addr inval) s = .next s) ∧
      (∀ e ∈ s.holders sec, inval = true ∨ s.dieState sec e = 2 → moves (.hostSnoop addr inval) fun s2 => s2.homeBusy sec = true ∧
        ∃ n p, s2.probes.find n = some p ∧ p.die = e ∧ p.sector = sec ∧ p.inval = inval))) ∧
    (∀ core sec ctx, s.l2Busy (core / 512) (sec / 4) = false → (s.notices.any fun n => n.core == core && n.line == sec / 4) = false →
      (∀ l ∈ s.l1, l.states.length = 4) →
      (s.wanted core sec false = some ctx → s.l1State core (64 * sec) = 0 → s.dieHas (core / 512) sec false = true →
        let s1 := s.classTouch (core / 512) ctx (64 * sec)
        let owner := (s1.l2Ent (core / 512) (sec / 4)).owners.find? fun o => o.1 == sec % 4 && o.2 != core
        (owner = none → s1.dieHas (core / 512) sec false = true →
          (s.intoL1 core sec = true → moves (.l1ReadMiss core sec) fun s2 => s2.l1State core (64 * sec) ≠ 0) ∧
          (s.intoL1 core sec = false → moves (.l1ReadMiss core sec) fun s2 => (∀ l ∈ s2.l1, l ∈ s.l1) ∧ (s1.inL2 (core / 512) (sec / 4) = true → s2.l1 = s1.l1))) ∧
        (∀ o, owner = some o → moves (.l1ReadMiss core sec) fun s2 => s2.l1 = s.l1 ∧ s2.l2Busy (core / 512) (sec / 4) = true)) ∧
      (s.wanted core sec true = some ctx → s.l1State core (64 * sec) < 2 → s.dieHas (core / 512) sec true = true →
        let s1 := s.classTouch (core / 512) ctx (64 * sec)
        let others := (s1.sharers (s1.l2Ent (core / 512) (sec / 4))).filter (· != core)
        (others = [] → s1.dieHas (core / 512) sec true = true →
          (s.intoL1 core sec = true → moves (.l1WriteUpgrade core sec) fun s2 => s2.l1State core (64 * sec) = 3) ∧
          (s.intoL1 core sec = false → moves (.l1WriteUpgrade core sec) fun s2 => (∀ l ∈ s2.l1, l ∈ s.l1) ∧ (s1.inL2 (core / 512) (sec / 4) = true → s2.l1 = s1.l1) ∧ (s2.l2Ent (core / 512) (sec / 4)).ptrs = [])) ∧
        (∀ c ∈ others, moves (.l1WriteUpgrade core sec) fun s2 => s2.l1 = s.l1 ∧ ∃ n p, s2.probes.find n = some p ∧ p.core = some c ∧ p.inval = true))) ∧
    (∀ core line n, s.notices.find? (fun n => n.core == core && n.line == line) = some n → s.probes = [] →
      moves (.evictionNotice core line) fun s2 => s2.notices = s.notices.erase n ∧ core ∉ (s2.l2Ent (core / 512) line).ptrs) ∧
    (∀ id p c, s.probes.find id = some p → p.answered = false → p.dropped = false → (s.txns.any fun e => e.2.kind == .answer id) = false →
      p.core = some c → (s.notices.any fun n => n.core == c && n.line == p.sector / 4) = false →
      (p.inval = true → moves (.invalidateProbe id) fun s2 => (∀ l ∈ s2.l1, ¬(l.core = c ∧ l.line = p.sector / 4)) ∧ (s2.probes.find id).map (·.answered) = some true) ∧
      (p.inval = false → moves (.downgradeProbe id) fun s2 => s2.l1State c (64 * p.sector) ≤ 1 ∧ (s2.probes.find id).map (·.answered) = some true)) ∧
    (∀ id p t, s.probes.find id = some p → s.txns.find p.txn = some t →
      (p.answered = false → exec (.probeAck id) s = .next s) ∧
      (p.answered = true → 1 < t.wait → moves (.probeAck id) fun s2 => s2.probes.find id = none ∧
        s2.txns.find p.txn = some { t with wait := t.wait - 1, dirty := t.dirty || p.dirty }) ∧
      (p.answered = true → t.wait = 1 → t.kind ≠ .answer id → moves (.probeAck id) fun s2 => s2.probes.find id = none ∧ s2.txns.find p.txn = none)) ∧
    (∀ frame, s.heldByClass frame = false ∨ s.frameCurrent frame = false → exec (.reclassifyComplete frame) s = .next s) ∧
    (∀ frame, s.heldByClass frame = true → s.frameCurrent frame = true → moves (.reclassifyComplete frame) fun s2 => (s2.frames.find frame).map (·.cls) = some .shared ∧
      ∀ l ∈ s2.l1, l.line / 256 ≠ frame) ∧
    (∀ d msg e, s.inflight.find msg = some e → d ∈ e.dies →
      let waits := s.inflight.any fun x => x.2.dies.contains d && (e.past.contains x.1 || (decide (x.1 < msg) && x.2.sectors.any (e.sectors.contains ·)))
      (waits = true → exec (.remoteWriteApply d msg) s = .next s) ∧
      (waits = false → moves (.remoteWriteApply d msg) fun s2 => ∀ x, s2.inflight.find msg = some x → d ∉ x.dies))

/-- Versioned regions and the copy engines (R215, R216, R242, R259-R262, R265, R271-R279, R282): a copy-on-write ends OWNED or with its frame given
back; without a frame it waits for the sweep and then raises VNOFRAME; PUBLISH raises W and ends when every die has applied it; a sweep and a VRETIRE
end; a command starts after what its issue covers, a copy moves its bytes, the matrix command of a copy is handed over, and completion is word, credit
and token in that order; a command of a group reads its group first. PUBLISH and VRETIRE of one region run one at a time, in the order in which they
came. Model's choices: the padding of a tile (notes/assumptions/25), what moves in one step (notes/assumptions/33), the class of a switched frame and
the order of held accesses (notes/assumptions/34), agents' reads (notes/assumptions/55), and a region's first use (notes/assumptions/56). -/
def Obligations.VersionsAndEngines : Prop :=
  ∀ (s : State),
    let stays := fun (i : Instr) => exec i s = .next s
    (∀ bid p b a, s.blocks.find bid = some b → b.pages[p]? = some .absent → s.backingOf b p = some a → Mem.wf b.scratch = true →
      s.Leads (.scratchRefill bid p) fun s2 => s2.mem = s.mem ∧ ∃ y, s2.blocks.find bid = some y ∧ y.pages[p]? = some .pinned ∧
        ∀ i, i < 16384 → Mem.read y.scratch (16384 * p + i) = (s.bytesAt none a.key a.pa 16384).getD i 0) ∧
    (∀ page c, s.cows.find? (fun c => c.page == page) = some c →
      (s.cowReady c = false → stays (.cowCopyDone page)) ∧
      (s.cowReady c = true → s.Leads (.cowCopyDone page) fun s2 => (∀ x ∈ s2.cows, x ∈ s.cows ∧ x ≠ c) ∧ s2.frames.find (c.frame / 65536) = none) ∧
      (s.metaFree c.region c.page = false → stays (.cowCopyError page)) ∧
      (∀ x, s.ops.find c.byOp = none → s.cmds.find c.byOp = some x → s.metaFree c.region c.page = true → s.Leads (.cowCopyError page) fun s2 =>
        s2.cmds.find c.byOp = some { x with err := 0x13 } ∧ ∀ x ∈ s2.cows, x ∈ s.cows ∧ x ≠ c)) ∧
    (∀ op o a g r, s.ops.find op = some o → o.kind.access = some (a, g, true) → a.vrec = some r →
      ((s.mustWait o).isSome = true → stays (.cowReserveRetry op)) ∧ (s.copying r = true → stays (.cowReserveRetry op)) ∧
      (s.metaFree (s.regionOf r) r = false → stays (.cowReserveRetry op))) ∧
    (∀ op o a g r, s.ops.find op = some o → o.kind.access = some (a, g, true) → a.vrec = some r → s.mustWait o = none → s.copying r = false →
      s.wstep r ≠ (s.regionWO none (s.regionOf r)).1 → s.metaFree (s.regionOf r) r = true →
      (∀ s1, s.cowStart r a.key op = some s1 → exec (.cowReserveRetry op) s = .next s1) ∧
      (s.cowStart r a.key op = none → s.sweeps.contains (s.regionOf r) = true → stays (.cowReserveRetry op)) ∧
      (s.cowStart r a.key op = none → s.sweeps.contains (s.regionOf r) = false → s.Leads (.cowReserveRetry op) fun s2 => s2.ops.find op = none ∧
        s2 = s.faultOp op o { cause := .vnoframe, kind := o.kind.kind, addr := BitVec.ofNat 64 a.va, step := (s.regionWO none (s.regionOf r)).1 })) ∧
    (∀ cmd c, s.cmds.find cmd = some c → c.engine = 17 → c.started = false → c.done = false →
      (s.issuerDone cmd c = false → stays (.publishBroadcast cmd)) ∧
      (s.issuerDone cmd c = true →
        (∀ e, s.publishRegion c = .error e → s.Leads (.publishBroadcast cmd) fun s2 => s2.mem = s.mem ∧
          s2.cmds.find cmd = some { c with started := true, done := true, err := e, errAddr := c.a 0 }) ∧
        (∀ reg, s.publishRegion c = .ok reg → s.regionHead reg cmd = false ∨ s.replayOut reg = true ∨ s.leaseFree reg = false → stays (.publishBroadcast cmd)) ∧
        (∀ reg, s.publishRegion c = .ok reg → s.regionHead reg cmd = true → s.replayOut reg = false → s.leaseFree reg = true → s.Leads (.publishBroadcast cmd) fun s2 =>
          (s2.cmds.find cmd).map (·.started) = some true ∧ ∃ r, s2.regCmds.find cmd = some r ∧ r.region = reg ∧ r.w = bits (s.hwRead reg) 31 0 + 1 ∧
            bits (s.hwRead (reg + 8)) 31 0 ≤ r.o ∧ r.acks = []))) ∧
    (∀ cmd c r d, s.cmds.find cmd = some c → s.regCmds.find cmd = some r →
      ([0, 1, 2, 3].filter fun d => !r.acks.contains d && s.inflight.all fun e => !(c.past.contains e.1 && e.2.dies.contains d)) = [d] →
      s.Leads (.publishComplete cmd) fun s2 => s2.regionWO (some d) r.region = (r.w, r.o) ∧ s2.mem = s.mem ∧
        (3 ≤ r.acks.length → s2.regCmds.find cmd = none ∧ s2.cmds.find cmd = some { c with done := true }) ∧
        (r.acks.length < 3 → s2.regCmds.find cmd = some { r with acks := r.acks ++ [d] })) ∧
    (∀ op c o, s.regCmds.find op = some c → s.ops.find op = some o → s.regionHead c.region op = false ∨ s.leaseFree c.region = false → stays (.vretireComplete op)) ∧
    (∀ op c o k, s.regCmds.find op = some c → s.ops.find op = some o → o.recv = [k] → s.regionHead c.region op = true → s.leaseFree c.region = true → s.Leads (.vretireComplete op) fun s2 =>
      s2.regCmds.find op = none ∧ c.region ∈ s2.sweeps ∧ s.Landed s2 op o k [] ∧ ∀ d, d < 4 → (s2.regionWO (some d) c.region).2 =
        match s.retain c.region with
        | some st => max (s.regionWO none c.region).2 (min c.o st)
        | none => max (s.regionWO none c.region).2 c.o) ∧
    (∀ reg, s.sweeps.contains reg = true → s.ops = [] → (s.records reg).all (s.metaFree reg) = true → s.Leads (.sweep reg) fun s2 => reg ∉ s2.sweeps) ∧
    (∀ cmd c, s.cmds.find cmd = some c → c.done = false → c.engine ≠ 17 →
      (c.started = true → exec (.engineCommandStart cmd) s = .next (s.runCmd cmd c)) ∧
      (c.started = false → s.issuerDone cmd c = true → c.kind.grouped = true → c.grp = none →
        (∀ s1 g x, s.groupRead cmd c = .ok s1 g → s1.cmds.find cmd = some x → s.Leads (.engineCommandStart cmd) fun s2 => (s2.cmds.find cmd).map (·.grp) = some (some g)) ∧
        (∀ s1 code va x, s.groupRead cmd c = .err s1 code va → s1.cmds.find cmd = some x → s.Leads (.engineCommandStart cmd) fun s2 =>
          s2.cmds.find cmd = some { x with done := true, err := code, errAddr := va, stage := 1, got := [] }) ∧
        (∀ s1, s.groupRead cmd c = .wait s1 → exec (.engineCommandStart cmd) s = .next s1)) ∧
      (c.started = false → s.startable cmd c = true → s.issuerDone cmd c = true → (c.kind.grouped && c.grp.isNone) = false →
        exec (.engineCommandStart cmd) s = .next ((s.updCmd cmd fun _ => s.begun cmd c).beginCmd cmd c) ∧ (s.begun cmd c).started = true ∧
          ∀ i ∈ (s.begun cmd c).past, i ∈ c.past ∨ i ∈ s.hbPast c.recv (some cmd)) ∧
      (c.started = true → c.kind = .cpy → s.cmdBytes c ≤ c.unit → s.Leads (.engineCommandStart cmd) fun s2 => s2.cmds.find cmd = some { c with done := true, got := [], wrote := [] } ∧
        s2.mem = s.mem) ∧
      (∀ a b, c.started = true → c.kind = .cpy → s.cmdBytes c = 1 → c.unit = 0 → c.got = [] → c.wrote = [] → c.refused = [] → c.err = 0 → c.feMode = 0 →
        c.srcScratch = false → c.dstScratch = false →
        s.accessFor (Agent.engine c.engine) c.ctx (c.a 0) 1 .read = .ok a →
        let s0 := s.engCaches a 1 false
        s0.accessFor (Agent.engine c.engine) c.ctx (c.a 1) 1 .write = .ok b →
        a.vrec = none → b.vrec = none → isPeer (s.paNow a) = false → isPeer (s.paNow b) = false → s.frozen (s.paNow a) = false → s.frozen (s.paNow b) = false →
        s.replay = [] → s.homeFree (s.paNow a) 1 = true → s0.homeFree (s.paNow b) 1 = true → s.paNow a / 64 ∉ s.badMem →
        s0.leaseFreeFor (some cmd) (s.paNow b) = true → b.size = 1 → s0.Plain b → s.Leads (.engineCommandStart cmd) fun s2 => s0.Wrote s2 (s.paNow b) 1 ((s0.byteAt none a.key (s.paNow a)).setWidth 64) ∧
          (s2.cmds.find cmd).map (·.bytes) = some (c.bytes + 1)) ∧
      (c.started = false → ((c.kind.grouped && c.grp.isNone) = false ∧ s.startable cmd c = false) ∨ s.issuerDone cmd c = false → stays (.engineCommandStart cmd))) ∧
    (∀ cmd c x, s.cmds.find cmd = some c → c.done = true → c.after = [] → c.handed = false → c.stage = 0 → bits c.comp 56 0 = 0 →
      (s.handoff cmd c = none → s.Leads (.engineCommandComplete cmd) fun s2 => s2.cmds.find cmd = some { c with stage := 1 }) ∧
      (s.handoff cmd c = some x → exec (.engineCommandComplete cmd) s =
        .next ((x.updCmd cmd fun y => { y with handed := true }).updCmd cmd fun y => { y with stage := 1 }))) ∧
    (∀ cmd c, s.cmds.find cmd = some c → c.done = true → c.after = [] → c.handed = false → c.stage = 3 → s.handoff cmd c = none →
      stays (.engineCommandComplete cmd)) ∧
    (∀ cmd c, s.cmds.find cmd = some c → c.done = true → c.after = [] → c.handed = true →
      (c.stage = 0 → bits c.comp 56 0 = 0 → s.Leads (.engineCommandComplete cmd) fun s2 => s2.mem = s.mem ∧ s2.cmds.find cmd = some { c with stage := 1 }) ∧
      (c.stage = 1 → c.credit = none → s.Leads (.engineCommandComplete cmd) fun s2 => s2.cmds.find cmd = some { c with stage := 3 }) ∧
      (∀ h, c.stage = 1 → c.credit = some h → s.Leads (.engineCommandComplete cmd) fun s2 => s2.cmds.find cmd = some { c with stage := 2 } ∧
        s2.msgs.find s.nextSeq = some { bar := h, n := if c.err ≠ 0 ∧ c.err ≠ 0x0A then s.cmdBytes c else c.bytes
                                        abort := decide (c.err ≠ 0 ∧ c.err ≠ 0x0A), cmd := some cmd }) ∧
      (∀ k t, c.stage = 3 → c.kind = .cpy → c.recv = [k] → s.saved = [] → s.inflight = [] → s.threads.find k = some t → c.err < 2 ^ 15 →
        s.Leads (.engineCommandComplete cmd) fun s2 => s2.cmds.find cmd = none ∧ s2.mem = s.mem ∧
          let token := BitVec.ofNat 64 ((if c.err = 0 then 0 else 2 ^ 63) + c.err * 2 ^ 48 + c.bytes % 2 ^ 48)
          s2.threads.find k = some (t.queueAll cmd s.clk ([.reg c.token token (if c.err = 0 then none else
            some { issuePc := c.pc.setWidth 64, source := c.engine, code := c.err, addr := c.errAddr })] ++
            (match c.flag with
              | some f => [.flagDown f]
              | none => []) ++ if c.sync then [.unsync] else [])))) ∧
    (∀ k s1 i, s.heldBy k = some (s1, i) →
      (match i with
        | .cpy _ _ _ _ _ _ | .cpyx _ _ _ _ _ _ | .cpym _ _ _ _ _ _ _ | .publish _ _ _ _ _ _ | .coll _ _ _ _ _ _ | .halo _ _ _ _ _ _ =>
          exec (.engineAccept k) s = exec i s1
        | .mma _ _ _ _ _ _ | .mmag _ _ _ _ _ _ | .mmaq _ _ _ _ _ _ | .accz _ _ _ | .accrd _ _ _ _ | .accwr _ _ _ _ | .permt _ _ _ =>
          exec (.matrixAccept k) s = exec i s1
        | _ => exec (.engineAccept k) s = .next s ∧ exec (.matrixAccept k) s = .next s))

/-- Matrix shares (R305, R312-R317): a share is checked and starts at the head of its queue; a step, one in a clk, costs its energy and advances it by one; its readiness and
its abort reach the coordinator, where the first abort stands; a commit writes its part of the accumulators, an abort none. -/
def Obligations.MatrixEvents : Prop :=
  ∀ (s : State) (id rank : Nat) (o : MxOp) (x : Share), s.share id rank = some (o, x) →
    let state := fun (s2 : State) (y : Share) => (s2.share id rank).map (·.2) = some y
    let others := ∃ y ∈ o.shares, y.rank ≠ rank ∧ y.state ≠ .ended
    (∀ core r, (s.core core).array = .share id rank :: r →
      (x.state = .queued → o.stop = false → s.mxReady id o = true →
        (s.shareCheck o x = none → s.Leads (.shareStart core) fun s2 => state s2 { x with state := .running } ∧ s2.mem = s.mem) ∧
        (∀ c, s.shareCheck o x = some c → s.Leads (.shareStart core) fun s2 => state s2 { x with state := .aborting, fail := some (c, 0, 0) } ∧ s2.blocks = s.blocks)) ∧
      (x.state = .running → o.halts x = false →
        let cb := x.nsp / 32
        let ks := x.step % o.ks
        let gc := x.step / o.ks % cb
        let gr := x.step / o.ks / cb
        let have_ := (s.ctxSt (s.mxCtx o)).ebud
        (have_ < 2 ^ o.energy ∨ s.clk < (s.core core).mxClk → exec (.matrixStep core) s = .next s) ∧
        (2 ^ o.energy ≤ have_ → (s.core core).mxClk ≤ s.clk → x.bad = false → (ks = 0 ∧ gc = 0 → s.gatherBad o x gr = none) → s.stepUncorr o x gr gc ks = none →
          s.Leads (.matrixStep core) fun s2 => (s2.ctxSt (s.mxCtx o)).ebud = have_ - 2 ^ o.energy ∧ s2.mem = s.mem ∧ (s2.core core).mxClk = s.clk + 1 ∧
            ∃ y, state s2 y ∧ y.step = x.step + 1 ∧ y.state = (if x.step + 1 = o.stepsOf x then .ready else .running)))) ∧
    (x.state = .ready → x.sent = false → s.Leads (.shareReady id rank) fun s2 => state s2 { x with sent := true } ∧ s2.mem = s.mem) ∧
    (∀ c st a, x.fail = some (c, st, a) → x.state = .aborting → x.sent = false → s.Leads (.shareAbort id rank) fun s2 =>
      state s2 { x with sent := true } ∧ s2.mem = s.mem ∧ (s2.mxOps.find id).map (·.abort) = some (if o.abort = none then some (c, rank, st) else o.abort)) ∧
    (s.savedHeld o.recv = false → x.state = .ready → o.abort = none → o.shares.all (fun y => y.sent || y.state == .ended) = true → others → x.ns ≤ x.nsp →
      Mem.wf (s.core (s.coreOfBlock x.blk)).acc = true → s.Leads (.commitNotice id rank) fun s2 => state s2 { x with state := .ended } ∧ s2.mem = s.mem ∧
        .share id rank ∉ (s2.core (s.coreOfBlock x.blk)).array ∧
        ∀ m n i, m < x.ms → n < x.ns → i < o.ae →
          Mem.read (s2.core (s.coreOfBlock x.blk)).acc (accBase (s.launchIdOf x.blk) + o.accOff + (m * x.nsp + n) * o.ae + i) = Mem.read x.result ((m * x.nsp + n) * o.ae + i)) ∧
    (∀ f, s.savedHeld o.recv = false → o.abort = some f → x.state ≠ .ended → others → s.Leads (.abortNotice id rank) fun s2 => state s2 { x with state := .ended } ∧ s2.mem = s.mem ∧
      (s2.core (s.coreOfBlock x.blk)).acc = (s.core (s.coreOfBlock x.blk)).acc ∧ .share id rank ∉ (s2.core (s.coreOfBlock x.blk)).array)

/-! ## Keys, firmware and starts -/

/-- The security complex and the starts (R434-R437): a key loads a slot with the key given, where the lifecycle allows keys, and what waits to be
written goes on under the old one; a zeroising leaves every slot a random key that none had; an accepted image runs, and one that fails a start holds
the device in ROM; nonces do not repeat their number; a token unlocks once; the measurements are those of the four blocks; a start checks the firmware
and leaves no thread, no context and no lease, a cold one zero and FULL device memory and new keys, a warm one the memory and keys it found. Model's
choices: signatures, nonces and digests are free (notes/assumptions/8), what reset leaves where no rule says (notes/assumptions/21), the numbers that
stand for keys (notes/assumptions/44), and nonces and measurements as numbers (notes/assumptions/45). -/
def Obligations.SecurityEvents : Prop :=
  ∀ (s : State),
    let stays := fun (i : Instr) => exec i s = .next s
    let started := fun (s2 : State) => s2.threads = [] ∧ s2.launches = [] ∧ s2.blocks = [] ∧ s2.ops = [] ∧ s2.mmio = [] ∧ s2.leases = [] ∧ s2.granted = [] ∧ s2.tlb = [] ∧
      s2.romHold = s.bootHold ∧ s2.linkUp = !s.bootHold
    let scrubbed := fun (s2 : State) => ∀ a, isDevice a = true → Mem.read s2.mem a = 0 ∧ s2.full a = true
    let newKeys := fun (s2 : State) => s2.keyEpoch = s.keyEpoch + 1 ∧ ∀ k, k < 4096 → s2.keyGen k = randomKey k (s.keyEpoch + 1) ∧
      (∀ j e, j < 4096 → e ≤ s.keyEpoch → s2.keyGen k ≠ randomKey j e) ∧ ∀ m, s2.keyGen k ≠ loadedKey m
    (∀ k m, k < 4096 →
      (s.lifecycle = .prod ∨ s.lifecycle = .prodUnlocked → s.Leads (.keyLoad { slot := k, material := m }) fun s2 =>
        s2.keyGen k = loadedKey m ∧ (∀ j, j < 4096 → j ≠ k → s2.keyGen j = s.keyGen j) ∧ s2.mem = s.mem ∧ s2.keyGen (oldKey (s.keyGen k)) = s.keyGen k ∧
        s2.heldWr = s.heldWr.map fun h => { h with key := if h.key = k then oldKey (s.keyGen k) else h.key }) ∧
      (s.lifecycle = .test ∨ s.lifecycle = .decommissioned → stays (.keyLoad { slot := k, material := m }))) ∧
    (s.Leads .zeroise fun s2 => newKeys s2 ∧ s2.mem = s.mem) ∧
    (∀ img, (Config.imageVerifies img.ident && decide (s.rollback ≤ img.version)) = true → s.Leads (.firmwareImage img) fun s2 => s2.firmware = some img ∧ s2.threads = s.threads ∧
      s2.romHold = decide (s.lifecycle = .decommissioned)) ∧
    (∀ img, (Config.imageVerifies img.ident && decide (s.rollback ≤ img.version)) = false →
      (s.linkUp = true → stays (.firmwareImage img)) ∧
      (s.linkUp = false → s.Leads (.firmwareImage img) fun s2 => s2.firmware = some img ∧ s2.romHold = true ∧ s2.mem = s.mem)) ∧
    (s.Leads .nonceRequest fun s2 => s2.nonces = s.nonces ++ [Config.nonce s.nonceSeq % 2 ^ 256] ∧ s2.reply = [Config.nonce s.nonceSeq % 2 ^ 256] ∧
      s.nonceSeq < s2.nonceSeq ∧ s2.mem = s.mem) ∧
    (∀ tok, (s.tokenOk tok = false → stays (.debugUnlock tok)) ∧ (tok.nonce ∈ s.usedNonces → s.tokenOk tok = false) ∧
      (s.tokenOk tok = true → s.Leads (.debugUnlock tok) fun s2 => s2.lifecycle = .prodUnlocked ∧ tok.nonce ∉ s2.nonces ∧ tok.nonce ∈ s2.usedNonces ∧ newKeys s2 ∧
        s2.debugLocked = false)) ∧
    (s.Leads .spdmMeasurements fun s2 => s2 = { s with reply := [1, 2, 3, 4].map s.measurement }) ∧
    (s.Leads .coldStart fun s2 => started s2 ∧ scrubbed s2 ∧ newKeys s2 ∧ s2.lifecycle ≠ .prodUnlocked ∧
      (Mem.wf s.mem = true → ∀ a, isDevice a = false → Mem.read s2.mem a = Mem.read s.mem a)) ∧
    (s.powered = true → s.Leads .warmStart fun s2 => started s2 ∧ (∀ k, k < 4096 → s2.keyGen k = s.keyGen k) ∧ s2.lifecycle = s.lifecycle ∧
      (s.scrubEpoch = s.keyEpoch → s2.mem = s.mem ∧ s2.empties = s.empties) ∧ (s.scrubEpoch ≠ s.keyEpoch → scrubbed s2))

/-! ## The machine as a whole -/

/-- RESET (R4, R175, R228, R290, R367, R408, R437, R438): every register of BAR0 holds its reset value, every word of memory is zero and FULL, there
is no thread, launch, context, translation or lease, and what no step may break holds. Model's choices: what nothing has written reads as zero in host
and peer memory too (notes/assumptions/10), and the reset values that no rule states (notes/assumptions/21). -/
def Obligations.ResetState : Prop :=
  let s := State.reset
  (∀ off, s.reg off = (regSpec off).reset) ∧ (∀ d, d < 4 → s.reg (Off.qe d 8) = 4 ∧ s.reg (Off.qe d 0) = 0) ∧ (∀ e, e < 16 → s.reg (Off.ce e 0) = 0x40) ∧
  s.reg (Off.pe 0x10) = 0x4E20 ∧ s.reg (Off.fb 8) = 0x4E20 ∧ s.reg (Off.fb 0x10) = 0x3E8 ∧ s.reg (Off.fb 0x18) = 0x40 ∧ s.reg (Off.fb 0x38) = 0x0BEBC200 ∧
  s.reg (Off.pwr 0) = 0x3A98 ∧ s.reg (Off.pwr 8) = 0x100000 ∧
  (∀ a, Mem.read s.mem a = 0 ∧ s.full a = true) ∧ s.threads = [] ∧ s.launches = [] ∧ s.blocks = [] ∧ s.tlb = [] ∧ s.leases = [] ∧ s.cmds = [] ∧
  (∀ d ctx, d < 4 → s.ctxOk d ctx = false) ∧ s.memOk ∧ s.tableOk

/-- A STEP RUNS THE DECODED INSTRUCTION (R22, R64, R73, R158, R159): when a gang issues and the parcels at its first member's PC decode to i, the step
is exec of i with that gang, then the end of the gang's turn and the block tables; the parcels are memory's bytes where no cached line holds them, in
host and peer memory as its owner has left them. Model's choices: which move is next is free (notes/assumptions/1), so the statement is about a step
whose next move is an issue; a cached line may hold older bytes (notes/assumptions/12), and what an owner has left is a free value
(notes/assumptions/22). -/
def Obligations.StepRunsTheDecodedInstruction : Prop :=
  ∀ (s : State) (k : Nat),
    (∀ g w i s1, s.nextMove = .issue (k :: g) → s.pendingOf k = none → s.fetchInst k (s.thr k).pc = .ok (w, s1) → decodeWord w = .ok i →
      let at_ : State := { s1 with gang := k :: g, inst := w }
      (∀ s2, exec i at_ = .next s2 → step s = .next (at_.afterIssue s2).moved) ∧
      (∀ f, exec i at_ = .fault f → step s = .fault f) ∧ (∀ r, exec i at_ = .refused r → step s = .refused r)) ∧
    (∀ g w e s1, s.nextMove = .issue (k :: g) → s.pendingOf k = none → s.fetchInst k (s.thr k).pc = .ok (w, s1) → decodeWord w = .error e →
      let at_ : State := { s1 with gang := k :: g, inst := w }
      step s = .next (at_.afterIssue (at_.raiseAll ((k :: g).map fun j => (j, (s.thr j).pc, { cause := .illegal })))).moved) ∧
    (∀ pc p0, s.fetchParcel k pc = .ok p0 →
      (p0 % 2 = 0 → ∃ s1, s.fetchInst k pc = .ok (BitVec.ofNat 64 p0, s1)) ∧
      (∀ p1, p0 % 4 = 1 → s.fetchParcel k (pc + 2) = .ok p1 → ∃ s1, s.fetchInst k pc = .ok (BitVec.ofNat 64 (p0 + 2 ^ 16 * p1), s1)) ∧
      (∀ p1 p2 p3, p0 % 4 = 3 → s.fetchParcel k (pc + 2) = .ok p1 → s.fetchParcel k (pc + 4) = .ok p2 → s.fetchParcel k (pc + 6) = .ok p3 →
        ∃ s1, s.fetchInst k pc = .ok (BitVec.ofNat 64 (p0 + 2 ^ 16 * p1 + 2 ^ 32 * p2 + 2 ^ 48 * p3), s1))) ∧
    (∀ pc x, s.fetchAt k pc = .ok x → s.icLine (coreOf k) x.key (x.pa / 256) = none → x.pa % 256 + 1 < 256 →
      let so := s.lineOwner (x.pa / 256)
      (isDevice x.pa = true → so = s) ∧
      s.fetchParcel k pc = .ok ((so.byteAt (some (dieOf k)) x.key x.pa).toNat + 256 * (so.byteAt (some (dieOf k)) x.key (x.pa + 1)).toNat))

/-- DECODE AND ENCODE AGREE (R64-R73): every well-formed instruction has bits, which decode to it and to nothing else; and bits that decode are the
encoding of what they decode to, zero above its length. -/
def Obligations.EncodeDecode : Prop :=
  (∀ i, (Instr.fields i).isSome = true → i.wfError = none → ∃ w, encode i = some w ∧ decodeWord w = .ok i) ∧
  (∀ w i, decodeWord w = .ok i → i.wfError = none ∧ ∃ q l, Instr.fields i = some (q, l) ∧ encode i = some (w &&& BitVec.ofNat 64 (2 ^ (8 * q.len) - 1)))

/-- WORDS OF THE SPEC, by family: each of these words, given in its rules, is the instruction that they name, and the last three are none (R64-R73). -/
def Obligations.DecodedWords : Prop :=
  let c : BitVec 4 → PReg → Ctl := fun set guard => { guard := guard, neg := false, set := set, wait := 0, stall := 0, uniform := false }
  decodeWord 0x2916 = .ok (.c16FaddD false 4 5) ∧
  decodeWord 0xF8A8 = .ok (.c16Addi true 2 0x1F) ∧
  decodeWord 0x18206049 = .ok (.i32SetpNe { stall := 1, uniform := false } 1 2 6) ∧
  decodeWord 0xFFFFFC02007C0003 = .ok (.bra (c 15 1) 0xFFFFFC) ∧
  decodeWord 0x14030B2892C80003 = .ok (.div { c 2 3 with neg := true } .w32 true 10 11 12) ∧
  decodeWord 0x04308110ADFC001B = .ok (.ffma { c 15 7 with stall := 3 } .rz .d 4 1 2 3) ∧
  decodeWord 0x440202196DCC0003 = .ok (.ldc (c 3 7) 8 1 .die 6 2) ∧
  decodeWord 0x4800000E4DD00003 = .ok (.bare (c 4 7) { level := .grove, index := 2 } 3) ∧
  decodeWord 0x0002800195FC0003 = .ok (.fence (c 15 7) .release .die) ∧
  decodeWord 0x7C00C2151DC40003 = .ok (.ldv (c 1 7) .b64 7 5 2 3) ∧
  decodeWord 0x4010101A81C40003 = .ok (.cpy (c 1 7) false .near (some { level := .block, index := 1 }) 6 16) ∧
  decodeWord 0x6C20101AA5C40003 = .ok (.mmag (c 1 7) 1 .bf (some { level := .block, index := 2 }) 6 16) ∧
  decodeWord 0x0000102301C80003 = .ok (.trace (c 2 7) false 8 16) ∧
  decodeWord 0x000010270DFC0003 = .ok (.graft (c 15 7) 9 16) ∧
  decodeWord 0x0000001741FC000B = .ok (.srd { c 15 7 with stall := 1 } .tid 5) ∧
  decodeWord 0x0001400349FC0003 = .ok (.trap (c 15 7) 5) ∧
  decodeWord 0x00000017FFFC0003 = .error .opcode ∧
  decodeWord 0x0000001741F8000B = .error (.illFormed .setField) ∧
  decodeWord 0x0000011741FC000B = .error .reserved

/-- THE BLOCK TABLES AT REST (R158): whatever state a step starts from, after it no thread that is parked, stopped, waiting or held holds an entry of a
block table or waits for one, and no gang is left over. -/
def Obligations.TableEntryInvariant : Prop :=
  ∀ s t : State, step s = .next t → t.tableOk ∧ t.gang = []
end

