-- ==== Sys2Proof/Laws/Table.lean ====
section
/-! SUPPORT. Laws of the tables and of memory's cells: what is found after a change, what a read gives after a write, and that
every operation keeps the canonical form (spec/00_scope.md R2, R5). -/

namespace Sys2Proof.Machine

variable {α : Type}

/-! ## Tables -/

@[simp] theorem Tbl.find_nil (k : Nat) : Tbl.find ([] : Tbl α) k = none := rfl

theorem Tbl.find_cons (j k : Nat) (a : α) (t : Tbl α) :
    Tbl.find ((j, a) :: t) k = if j = k then some a else Tbl.find t k := rfl

/-- A changed entry is found changed; the others as they were. -/
theorem Tbl.find_upd (t : Tbl α) (k j : Nat) (f : α → α) :
    Tbl.find (t.upd k f) j = if j = k then (Tbl.find t j).map f else Tbl.find t j := by
  induction t with
  | nil => simp [Tbl.upd, Tbl.find]
  | cons e t ih =>
    obtain ⟨i, a⟩ := e
    simp only [Tbl.upd, List.map_cons] at ih ⊢
    by_cases hij : i = j
    · subst hij
      by_cases hik : i = k <;> simp [Tbl.find_cons, hik]
    · by_cases hik : i = k
      · have hkj : k ≠ j := fun h => hij (hik.trans h)
        simp only [hik, if_true, Tbl.find_cons, hkj, ih, if_false]
      · simp only [hik, if_false, Tbl.find_cons, hij, ih]

@[simp] theorem Tbl.find_upd_same (t : Tbl α) (k : Nat) (f : α → α) : Tbl.find (t.upd k f) k = (Tbl.find t k).map f := by
  simp [Tbl.find_upd]

theorem Tbl.find_upd_other (t : Tbl α) {k j : Nat} (f : α → α) (h : j ≠ k) : Tbl.find (t.upd k f) j = Tbl.find t j := by
  simp [Tbl.find_upd, h]

/-- Two changes of one entry are one. -/
theorem Tbl.upd_upd (t : Tbl α) (k : Nat) (f g : α → α) : (t.upd k f).upd k g = t.upd k (fun x => g (f x)) := by
  simp only [Tbl.upd, List.map_map]
  refine List.map_congr_left fun e _ => ?_
  by_cases h : e.1 = k <;> simp [h]

/-- Changes of two entries commute. -/
theorem Tbl.upd_comm (t : Tbl α) {k j : Nat} (f g : α → α) (h : j ≠ k) : (t.upd k f).upd j g = (t.upd j g).upd k f := by
  simp only [Tbl.upd, List.map_map]
  refine List.map_congr_left fun e _ => ?_
  by_cases h1 : e.1 = k
  · have : e.1 ≠ j := fun h2 => h (h2.symm.trans h1)
    have hkj : k ≠ j := fun h2 => h h2.symm
    simp [h1, hkj]
  · by_cases h2 : e.1 = j <;> simp [h1, h2, h]

theorem Tbl.upd_id (t : Tbl α) (k : Nat) : t.upd k (fun x => x) = t := by
  simp [Tbl.upd]

/-- What is put is found; the others as they were. -/
theorem Tbl.find_put (t : Tbl α) (k j : Nat) (a : α) :
    Tbl.find (t.put k a) j = if j = k then some a else Tbl.find t j := by
  induction t with
  | nil =>
    by_cases h : j = k
    · simp [Tbl.put, Tbl.find, h]
    · simp [Tbl.put, Tbl.find, h, Ne.symm h]
  | cons e t ih =>
    obtain ⟨i, b⟩ := e
    simp only [Tbl.put]
    split
    · rename_i h1
      by_cases h : j = k
      · simp [Tbl.find_cons, h]
      · simp [Tbl.find_cons, h, Ne.symm h]
    · split
      · rename_i h1 h2
        subst h2
        by_cases h : j = k
        · simp [Tbl.find_cons, h]
        · simp [Tbl.find_cons, h, Ne.symm h]
      · rename_i h1 h2
        simp only [Tbl.find_cons, ih]
        by_cases hij : i = j
        · subst hij; simp [Ne.symm h2]
        · simp [hij]

@[simp] theorem Tbl.find_put_same (t : Tbl α) (k : Nat) (a : α) : Tbl.find (t.put k a) k = some a := by simp [Tbl.find_put]

theorem Tbl.find_put_other (t : Tbl α) {k j : Nat} (a : α) (h : j ≠ k) : Tbl.find (t.put k a) j = Tbl.find t j := by
  simp [Tbl.find_put, h]

/-- What is deleted is not found; the others as they were. -/
theorem Tbl.find_del (t : Tbl α) (k j : Nat) : Tbl.find (t.del k) j = if j = k then none else Tbl.find t j := by
  induction t with
  | nil => simp [Tbl.del, Tbl.find]
  | cons e t ih =>
    obtain ⟨i, a⟩ := e
    simp only [Tbl.del, List.filter_cons] at ih ⊢
    by_cases hik : i = k
    · subst hik
      simp only [bne_self_eq_false, Bool.false_eq_true, ↓reduceIte, ih, Tbl.find_cons]
      by_cases h : j = i
      · simp [h]
      · simp [h, Ne.symm h]
    · have : (i != k) = true := by simp [hik]
      simp only [this, ↓reduceIte, Tbl.find_cons, ih]
      by_cases hij : i = j
      · subst hij; simp [hik]
      · simp [hij]

/-- Every entry changed is found changed. -/
theorem Tbl.find_mapVals (t : Tbl α) (f : Nat → α → α) (j : Nat) : Tbl.find (t.mapVals f) j = (Tbl.find t j).map (f j) := by
  induction t with
  | nil => rfl
  | cons e t ih =>
    obtain ⟨i, a⟩ := e
    simp only [Tbl.mapVals, List.map_cons, Tbl.find_cons] at ih ⊢
    by_cases h : i = j
    · subst h; simp
    · simp [h, ih]

/-! ## Memory -/

@[simp] theorem Mem.read_nil (a : Nat) : Mem.read [] a = unlisted := rfl

/-- Every listed address is above n. -/
def Mem.above (n : Nat) (m : List Host.Cell) : Prop := ∀ c ∈ m, n < c.1

theorem Mem.wf_tail {c : Host.Cell} {m : List Host.Cell} (h : Mem.wf (c :: m) = true) : Mem.wf m = true := by
  cases m with
  | nil => rfl
  | cons d m => simp only [Mem.wf, Bool.and_eq_true] at h; exact h.2

theorem Mem.wf_head {c : Host.Cell} {m : List Host.Cell} (h : Mem.wf (c :: m) = true) : c.2 ≠ unlisted := by
  cases m with
  | nil => simpa [Mem.wf] using h
  | cons d m => simp only [Mem.wf, Bool.and_eq_true] at h; simpa using h.1.2

theorem Mem.wf_above {c : Host.Cell} {m : List Host.Cell} (h : Mem.wf (c :: m) = true) : Mem.above c.1 m := by
  induction m generalizing c with
  | nil => intro d hd; cases hd
  | cons d m ih =>
    have h1 : c.1 < d.1 := by simp only [Mem.wf, Bool.and_eq_true, decide_eq_true_eq] at h; exact h.1.1
    intro e he
    cases he with
    | head => exact h1
    | tail _ he => exact h1.trans (ih (Mem.wf_tail h) e he)

theorem Mem.wf_cons {c : Host.Cell} {m : List Host.Cell} (hm : Mem.wf m = true) (hc : c.2 ≠ unlisted) (ha : Mem.above c.1 m) :
    Mem.wf (c :: m) = true := by
  cases m with
  | nil => simpa [Mem.wf] using hc
  | cons d m =>
    have := ha d (List.mem_cons_self ..)
    simp [Mem.wf, hm, hc, this]

/-- Nothing is listed at or below the bound of a memory that lies above it. -/
theorem Mem.read_above {m : List Host.Cell} {n a : Nat} (h : Mem.above n m) (ha : a ≤ n) : Mem.read m a = unlisted := by
  cases m with
  | nil => rfl
  | cons c m =>
    obtain ⟨j, b⟩ := c
    have : n < j := h (j, b) (List.mem_cons_self ..)
    have h1 : j ≠ a := by omega
    have h2 : a < j := by omega
    simp [Mem.read, h1, h2]

/-- A read after a write of a canonical memory (R2): the byte written at its address, the old byte elsewhere. -/
theorem Mem.read_write {m : List Host.Cell} (h : Mem.wf m = true) (a i : Nat) (b : Byte) :
    Mem.read (Mem.write m a b) i = if i = a then b else Mem.read m i := by
  induction m with
  | nil =>
    by_cases hb : b = unlisted
    · by_cases hi : i = a <;> simp [Mem.write, hb, hi]
    · by_cases hi : i = a
      · subst hi; simp [Mem.write, hb, Mem.read]
      · simp [Mem.write, hb, Mem.read, hi, Ne.symm hi]
  | cons c m ih =>
    obtain ⟨j, d⟩ := c
    have hm := Mem.wf_tail h
    have habove : Mem.above j m := Mem.wf_above h
    simp only [Mem.write]
    by_cases h1 : a < j
    · have hja : j ≠ a := by omega
      by_cases hb : b = unlisted
      · by_cases hi : i = a
        · subst hi; simp [h1, hb, Mem.read, hja]
        · simp [h1, hb, hi]
      · by_cases hi : i = a
        · subst hi; simp [h1, hb, Mem.read]
        · by_cases hi2 : i < a
          · have h5 : i < j := by omega
            have h6 : j ≠ i := by omega
            simp [h1, hb, Mem.read, hi, Ne.symm hi, hi2, h5, h6]
          · simp [h1, hb, Mem.read, hi, Ne.symm hi, hi2]
    · by_cases h2 : a = j
      · subst h2
        by_cases hb : b = unlisted
        · by_cases hi : i = a
          · subst hi; simp [hb, Mem.read_above habove (le_refl _)]
          · by_cases hi2 : i < a
            · simp [hb, Mem.read, hi, Ne.symm hi, hi2, Mem.read_above habove (Nat.le_of_lt hi2)]
            · simp [hb, Mem.read, hi, Ne.symm hi, hi2]
        · by_cases hi : i = a
          · subst hi; simp [hb, Mem.read]
          · simp [hb, Mem.read, hi, Ne.symm hi]
      · simp only [h1, h2, ↓reduceIte, Mem.read, ih hm]
        by_cases hi : i = a
        · subst hi; simp [Ne.symm h2]; omega
        · simp [hi]

theorem Mem.above_write {m : List Host.Cell} {n a : Nat} (h : Mem.above n m) (ha : n < a) (b : Byte) : Mem.above n (Mem.write m a b) := by
  induction m with
  | nil =>
    intro c hc
    simp only [Mem.write] at hc
    split at hc
    · cases hc
    · cases hc with
      | head => exact ha
      | tail _ hc => cases hc
  | cons d m ih =>
    obtain ⟨j, e⟩ := d
    have hj : n < j := h (j, e) (List.mem_cons_self ..)
    have hm : Mem.above n m := fun c hc => h c (List.mem_cons_of_mem _ hc)
    intro c hc
    simp only [Mem.write] at hc
    split at hc
    · split at hc
      · exact h c hc
      · cases hc with
        | head => exact ha
        | tail _ hc => exact h c hc
    · split at hc
      · split at hc
        · exact hm c hc
        · cases hc with
          | head => exact ha
          | tail _ hc => exact hm c hc
      · cases hc with
        | head => exact hj
        | tail _ hc => exact ih hm c hc

/-- A write keeps the canonical form. -/
theorem Mem.wf_write {m : List Host.Cell} (h : Mem.wf m = true) (a : Nat) (b : Byte) : Mem.wf (Mem.write m a b) = true := by
  induction m with
  | nil => by_cases hb : b = unlisted <;> simp [Mem.write, hb, Mem.wf]
  | cons c m ih =>
    obtain ⟨j, d⟩ := c
    have hm := Mem.wf_tail h
    have hd := Mem.wf_head h
    have habove : Mem.above j m := Mem.wf_above h
    simp only [Mem.write]
    split
    · rename_i h1
      split
      · exact h
      · rename_i hb
        refine Mem.wf_cons h hb fun e he => ?_
        cases he with
        | head => exact h1
        | tail _ he => exact h1.trans (habove e he)
    · split
      · rename_i h1 h2
        split
        · exact hm
        · rename_i hb; subst h2; exact Mem.wf_cons hm hb habove
      · exact Mem.wf_cons (ih hm) hd (Mem.above_write habove (by omega) b)

/-- Writes of several bytes keep the canonical form. -/
theorem Mem.wf_writeN {m : List Host.Cell} (h : Mem.wf m = true) (a : Nat) (bs : List Byte) : Mem.wf (Mem.writeN m a bs) = true := by
  induction bs generalizing m a with
  | nil => exact h
  | cons b bs ih => exact ih (Mem.wf_write h a b) (a + 1)

/-- A read after a write of several bytes of a canonical memory. -/
theorem Mem.read_writeN {m : List Host.Cell} (h : Mem.wf m = true) (a i : Nat) (bs : List Byte) :
    Mem.read (Mem.writeN m a bs) i = if a ≤ i ∧ i < a + bs.length then bs.getD (i - a) 0 else Mem.read m i := by
  induction bs generalizing m a with
  | nil => simp [Mem.writeN]
  | cons b bs ih =>
    simp only [Mem.writeN, ih (Mem.wf_write h a b), Mem.read_write h, List.length_cons]
    by_cases h1 : i = a
    · subst h1; simp
    · by_cases h2 : a + 1 ≤ i ∧ i < a + 1 + bs.length
      · have h3 : a ≤ i ∧ i < a + (bs.length + 1) := by omega
        obtain ⟨k, hk⟩ : ∃ k, i - a = k + 1 := ⟨i - a - 1, by omega⟩
        have hk2 : i - (a + 1) = k := by omega
        simp [h2, h3, hk, hk2]
      · have h3 : ¬ (a ≤ i ∧ i < a + (bs.length + 1)) := by omega
        rw [if_neg h2, if_neg h1, if_neg h3]

/-- A filtered memory keeps the canonical form. -/
theorem Mem.wf_filter {m : List Host.Cell} (h : Mem.wf m = true) (p : Host.Cell → Bool) : Mem.wf (m.filter p) = true := by
  induction m with
  | nil => rfl
  | cons c m ih =>
    simp only [List.filter_cons]
    split
    · exact Mem.wf_cons (ih (Mem.wf_tail h)) (Mem.wf_head h) fun d hd => Mem.wf_above h d (List.mem_of_mem_filter hd)
    · exact ih (Mem.wf_tail h)

/-- Cells written one after another keep the canonical form. -/
theorem Mem.wf_foldl_write {β : Type} {m : List Host.Cell} (h : Mem.wf m = true) (l : List β) (f : β → Nat) (g : β → Byte) :
    Mem.wf (l.foldl (fun x c => Mem.write x (f c) (g c)) m) = true := by
  induction l generalizing m with
  | nil => exact h
  | cons c l ih => exact ih (Mem.wf_write h (f c) (g c))

theorem Mem.readN_length (m : List Host.Cell) (a n : Nat) : (Mem.readN m a n).length = n := by
  induction n generalizing a with
  | zero => rfl
  | succ n ih => simp [Mem.readN, ih]

theorem toLe_length (n v : Nat) : (toLe n v).length = n := by
  induction n generalizing v with
  | zero => rfl
  | succ n ih => simp [toLe, ih]

/-- The bytes of a number give the number back, modulo its width (R2). -/
theorem ofLe_toLe (n v : Nat) : ofLe (toLe n v) = v % 256 ^ n := by
  induction n generalizing v with
  | zero => simp [toLe, ofLe, Nat.mod_one]
  | succ n ih =>
    simp only [toLe, ofLe, ih, BitVec.toNat_ofNat]
    rw [show (2 : Nat) ^ 8 = 256 from rfl, pow_succ, Nat.mul_comm (256 ^ n) 256, Nat.mod_mul]

end Sys2Proof.Machine
end

