-- ==== Sys2Proof/Laws/Memory.lean ====
section
/-! SUPPORT. Every operation that changes memory keeps its canonical form (spec/00_scope.md R2, spec/12_memory_hierarchy.md R228-R231,
spec/27_host_security_startup.md R434, R437): a write, a hardware write, a copied range, a migrated frame, the scrub. -/

namespace Sys2Proof.Machine

variable {s : State}

theorem State.reset_memOk : State.reset.memOk := rfl

theorem State.memOk_iff : s.memOk ↔ Mem.wf s.mem = true := Iff.rfl

theorem State.rekeySector_memOk (g sec : Nat) (h : s.memOk) : (State.rekeySector g s sec).memOk := by
  rw [State.memOk_iff] at h ⊢
  unfold State.rekeySector
  split
  · exact h
  · split
    · exact h
    · split
      · exact h
      · generalize (List.range 64).map (fun i => s.plain g (sec * 64 + i)) = l
        exact Mem.wf_writeN h _ l

theorem State.rekey_memOk (h : s.memOk) (g pa n : Nat) : (s.rekey g pa n).memOk := by
  unfold State.rekey
  induction sectorsOf pa n generalizing s with
  | nil => exact h
  | cons sec l ih => exact ih (State.rekeySector_memOk g sec h)

theorem State.setFulls_mem (s : State) (fes : List (Nat × Bool)) : (fes.foldl (fun x f => x.setFull f.1 f.2) s).mem = s.mem := by
  induction fes generalizing s with
  | nil => rfl
  | cons f fes ih => exact ih _

/-- ONE WRITE leaves memory in canonical form, whoever writes (R229, R231). -/
theorem State.writeBits_memOk (h : s.memOk) (w : Writer) (key pa : Nat) (bs : List Byte) (fes : List (Nat × Bool)) :
    (s.writeBits w key pa bs fes).memOk := by
  have hw : Mem.wf (Mem.writeN (s.rekey (s.keyGen key) pa bs.length).mem pa bs) = true := Mem.wf_writeN (State.rekey_memOk h _ pa _) pa bs
  rw [State.memOk_iff]
  unfold State.writeBits
  rw [State.setFulls_mem]
  exact hw

/-- Every write of bytes that changes at most its own word's bit (R231). -/
theorem State.writePa_memOk (h : s.memOk) (w : Writer) (key pa : Nat) (bs : List Byte) (fe : Option Bool) : (s.writePa w key pa bs fe).memOk :=
  State.writeBits_memOk h w key pa bs _

/-- The end of a READONLY class changes no memory (R222, R223). -/
@[simp] theorem State.classAgentWrite_mem (s : State) (pa : Nat) : (s.classAgentWrite pa).mem = s.mem := by
  unfold State.classAgentWrite
  split
  · split <;> rfl
  · rfl

theorem State.classAgentWrite_memOk (h : s.memOk) (pa : Nat) : (s.classAgentWrite pa).memOk := by
  rw [State.memOk_iff, State.classAgentWrite_mem]; exact h

theorem State.hwWriteBy_memOk (h : s.memOk) (past : List Nat) (pa : Nat) (v : Word) : (s.hwWriteBy past pa v).memOk :=
  State.writePa_memOk (State.classAgentWrite_memOk h pa) _ _ _ _ _

theorem State.hwWrite_memOk (h : s.memOk) (pa : Nat) (v : Word) : (s.hwWrite pa v).memOk := State.hwWriteBy_memOk h [] pa v

/-- An entry of a ring leaves memory in canonical form (R361, R431). -/
theorem State.hwRelease_memOk (h : s.memOk) (past : List Nat) (pa : Nat) (l : List Word) : (s.hwRelease past pa l).memOk := by
  induction l generalizing s past pa with
  | nil => exact h
  | cons v l ih => exact ih (State.writePa_memOk h _ _ _ _ _) _ _

theorem State.hwWriteLeaf_memOk (h : s.memOk) (pa : Nat) (v : Word) : (s.hwWriteLeaf pa v).memOk := State.writePa_memOk h _ _ _ _ _

theorem State.copyRange_memOk (h : s.memOk) (g src dst len : Nat) : (s.copyRange g src dst len).memOk := by
  unfold State.copyRange State.memOk
  exact Mem.wf_foldl_write (Mem.wf_foldl_write (Mem.wf_filter h _) _ _ _) _ _ _

theorem State.moveData_memOk (h : s.memOk) (key src dst : Nat) : (s.moveData key src dst).memOk := by
  have hc := State.copyRange_memOk h (s.keyGen key) src dst 65536
  unfold State.moveData
  split <;> exact hc

theorem State.scrubbed_memOk (h : s.memOk) : s.scrubbed.memOk := Mem.wf_filter h _

theorem State.pokeFetch_memOk (h : s.memOk) (k w : Nat) : (s.pokeFetch k w).memOk := by
  unfold State.pokeFetch
  split
  · exact Mem.wf_writeN h _ _
  · exact h

end Sys2Proof.Machine
end

