-- ==== Sys2Proof/Laws/State.lean ====
section
/-! SUPPORT. What the named updates of the state leave as it was: one lemma for each field that claims speak of, so that no proof
unfolds a record update (spec/02_one_thread.md R18-R33). -/

namespace Sys2Proof.Machine

variable (s : State)

/-! ## updThread -/

@[simp] theorem State.updThread_clk (k : Nat) (f : Thread → Thread) : (s.updThread k f).clk = s.clk := rfl
@[simp] theorem State.updThread_ptp (k : Nat) (f : Thread → Thread) : (s.updThread k f).ptp = s.ptp := rfl
@[simp] theorem State.updThread_draws (k : Nat) (f : Thread → Thread) : (s.updThread k f).draws = s.draws := rfl
@[simp] theorem State.updThread_inputs (k : Nat) (f : Thread → Thread) : (s.updThread k f).inputs = s.inputs := rfl
@[simp] theorem State.updThread_gang (k : Nat) (f : Thread → Thread) : (s.updThread k f).gang = s.gang := rfl
@[simp] theorem State.updThread_inst (k : Nat) (f : Thread → Thread) : (s.updThread k f).inst = s.inst := rfl
@[simp] theorem State.updThread_nextSeq (k : Nat) (f : Thread → Thread) : (s.updThread k f).nextSeq = s.nextSeq := rfl
@[simp] theorem State.updThread_mem (k : Nat) (f : Thread → Thread) : (s.updThread k f).mem = s.mem := rfl
@[simp] theorem State.updThread_empties (k : Nat) (f : Thread → Thread) : (s.updThread k f).empties = s.empties := rfl
@[simp] theorem State.updThread_keyTags (k : Nat) (f : Thread → Thread) : (s.updThread k f).keyTags = s.keyTags := rfl
@[simp] theorem State.updThread_keyGens (k : Nat) (f : Thread → Thread) : (s.updThread k f).keyGens = s.keyGens := rfl
@[simp] theorem State.updThread_keyEpoch (k : Nat) (f : Thread → Thread) : (s.updThread k f).keyEpoch = s.keyEpoch := rfl
@[simp] theorem State.updThread_inflight (k : Nat) (f : Thread → Thread) : (s.updThread k f).inflight = s.inflight := rfl
@[simp] theorem State.updThread_badMem (k : Nat) (f : Thread → Thread) : (s.updThread k f).badMem = s.badMem := rfl
@[simp] theorem State.updThread_badSpad (k : Nat) (f : Thread → Thread) : (s.updThread k f).badSpad = s.badSpad := rfl
@[simp] theorem State.updThread_tlb (k : Nat) (f : Thread → Thread) : (s.updThread k f).tlb = s.tlb := rfl
@[simp] theorem State.updThread_ptes (k : Nat) (f : Thread → Thread) : (s.updThread k f).ptes = s.ptes := rfl
@[simp] theorem State.updThread_icache (k : Nat) (f : Thread → Thread) : (s.updThread k f).icache = s.icache := rfl
@[simp] theorem State.updThread_hostKinds (k : Nat) (f : Thread → Thread) : (s.updThread k f).hostKinds = s.hostKinds := rfl
@[simp] theorem State.updThread_tagPages (k : Nat) (f : Thread → Thread) : (s.updThread k f).tagPages = s.tagPages := rfl
@[simp] theorem State.updThread_invals (k : Nat) (f : Thread → Thread) : (s.updThread k f).invals = s.invals := rfl
@[simp] theorem State.updThread_blocks (k : Nat) (f : Thread → Thread) : (s.updThread k f).blocks = s.blocks := rfl
@[simp] theorem State.updThread_groves (k : Nat) (f : Thread → Thread) : (s.updThread k f).groves = s.groves := rfl
@[simp] theorem State.updThread_launches (k : Nat) (f : Thread → Thread) : (s.updThread k f).launches = s.launches := rfl
@[simp] theorem State.updThread_ended (k : Nat) (f : Thread → Thread) : (s.updThread k f).ended = s.ended := rfl
@[simp] theorem State.updThread_queues (k : Nat) (f : Thread → Thread) : (s.updThread k f).queues = s.queues := rfl
@[simp] theorem State.updThread_takes (k : Nat) (f : Thread → Thread) : (s.updThread k f).takes = s.takes := rfl
@[simp] theorem State.updThread_cores (k : Nat) (f : Thread → Thread) : (s.updThread k f).cores = s.cores := rfl
@[simp] theorem State.updThread_ctxs (k : Nat) (f : Thread → Thread) : (s.updThread k f).ctxs = s.ctxs := rfl
@[simp] theorem State.updThread_ops (k : Nat) (f : Thread → Thread) : (s.updThread k f).ops = s.ops := rfl
@[simp] theorem State.updThread_hbs (k : Nat) (f : Thread → Thread) : (s.updThread k f).hbs = s.hbs := rfl
@[simp] theorem State.updThread_saved (k : Nat) (f : Thread → Thread) : (s.updThread k f).saved = s.saved := rfl
@[simp] theorem State.updThread_balanced (k : Nat) (f : Thread → Thread) : (s.updThread k f).balanced = s.balanced := rfl
@[simp] theorem State.updThread_retires (k : Nat) (f : Thread → Thread) : (s.updThread k f).retires = s.retires := rfl
@[simp] theorem State.updThread_waitTab (k : Nat) (f : Thread → Thread) : (s.updThread k f).waitTab = s.waitTab := rfl
@[simp] theorem State.updThread_wnotes (k : Nat) (f : Thread → Thread) : (s.updThread k f).wnotes = s.wnotes := rfl
@[simp] theorem State.updThread_sectors (k : Nat) (f : Thread → Thread) : (s.updThread k f).sectors = s.sectors := rfl
@[simp] theorem State.updThread_coreMarks (k : Nat) (f : Thread → Thread) : (s.updThread k f).coreMarks = s.coreMarks := rfl
@[simp] theorem State.updThread_wakes (k : Nat) (f : Thread → Thread) : (s.updThread k f).wakes = s.wakes := rfl
@[simp] theorem State.updThread_retries (k : Nat) (f : Thread → Thread) : (s.updThread k f).retries = s.retries := rfl
@[simp] theorem State.updThread_cmds (k : Nat) (f : Thread → Thread) : (s.updThread k f).cmds = s.cmds := rfl
@[simp] theorem State.updThread_msgs (k : Nat) (f : Thread → Thread) : (s.updThread k f).msgs = s.msgs := rfl
@[simp] theorem State.updThread_colls (k : Nat) (f : Thread → Thread) : (s.updThread k f).colls = s.colls := rfl
@[simp] theorem State.updThread_mxOps (k : Nat) (f : Thread → Thread) : (s.updThread k f).mxOps = s.mxOps := rfl
@[simp] theorem State.updThread_regions (k : Nat) (f : Thread → Thread) : (s.updThread k f).regions = s.regions := rfl
@[simp] theorem State.updThread_regSeen (k : Nat) (f : Thread → Thread) : (s.updThread k f).regSeen = s.regSeen := rfl
@[simp] theorem State.updThread_regCmds (k : Nat) (f : Thread → Thread) : (s.updThread k f).regCmds = s.regCmds := rfl
@[simp] theorem State.updThread_cows (k : Nat) (f : Thread → Thread) : (s.updThread k f).cows = s.cows := rfl
@[simp] theorem State.updThread_replay (k : Nat) (f : Thread → Thread) : (s.updThread k f).replay = s.replay := rfl
@[simp] theorem State.updThread_sweeps (k : Nat) (f : Thread → Thread) : (s.updThread k f).sweeps = s.sweeps := rfl
@[simp] theorem State.updThread_frames (k : Nat) (f : Thread → Thread) : (s.updThread k f).frames = s.frames := rfl
@[simp] theorem State.updThread_taproot (k : Nat) (f : Thread → Thread) : (s.updThread k f).taproot = s.taproot := rfl
@[simp] theorem State.updThread_tapUse (k : Nat) (f : Thread → Thread) : (s.updThread k f).tapUse = s.tapUse := rfl
@[simp] theorem State.updThread_homeQ (k : Nat) (f : Thread → Thread) : (s.updThread k f).homeQ = s.homeQ := rfl
@[simp] theorem State.updThread_l2 (k : Nat) (f : Thread → Thread) : (s.updThread k f).l2 = s.l2 := rfl
@[simp] theorem State.updThread_l1 (k : Nat) (f : Thread → Thread) : (s.updThread k f).l1 = s.l1 := rfl
@[simp] theorem State.updThread_late (k : Nat) (f : Thread → Thread) : (s.updThread k f).late = s.late := rfl
@[simp] theorem State.updThread_probes (k : Nat) (f : Thread → Thread) : (s.updThread k f).probes = s.probes := rfl
@[simp] theorem State.updThread_txns (k : Nat) (f : Thread → Thread) : (s.updThread k f).txns = s.txns := rfl
@[simp] theorem State.updThread_notices (k : Nat) (f : Thread → Thread) : (s.updThread k f).notices = s.notices := rfl
@[simp] theorem State.updThread_prefs (k : Nat) (f : Thread → Thread) : (s.updThread k f).prefs = s.prefs := rfl
@[simp] theorem State.updThread_tenants (k : Nat) (f : Thread → Thread) : (s.updThread k f).tenants = s.tenants := rfl
@[simp] theorem State.updThread_migration (k : Nat) (f : Thread → Thread) : (s.updThread k f).migration = s.migration := rfl
@[simp] theorem State.updThread_mmio (k : Nat) (f : Thread → Thread) : (s.updThread k f).mmio = s.mmio := rfl
@[simp] theorem State.updThread_frQueue (k : Nat) (f : Thread → Thread) : (s.updThread k f).frQueue = s.frQueue := rfl
@[simp] theorem State.updThread_svQueue (k : Nat) (f : Thread → Thread) : (s.updThread k f).svQueue = s.svQueue := rfl
@[simp] theorem State.updThread_resReqs (k : Nat) (f : Thread → Thread) : (s.updThread k f).resReqs = s.resReqs := rfl
@[simp] theorem State.updThread_streams (k : Nat) (f : Thread → Thread) : (s.updThread k f).streams = s.streams := rfl
@[simp] theorem State.updThread_pe (k : Nat) (f : Thread → Thread) : (s.updThread k f).pe = s.pe := rfl
@[simp] theorem State.updThread_ck (k : Nat) (f : Thread → Thread) : (s.updThread k f).ck = s.ck := rfl
@[simp] theorem State.updThread_leases (k : Nat) (f : Thread → Thread) : (s.updThread k f).leases = s.leases := rfl
@[simp] theorem State.updThread_granted (k : Nat) (f : Thread → Thread) : (s.updThread k f).granted = s.granted := rfl
@[simp] theorem State.updThread_heldWr (k : Nat) (f : Thread → Thread) : (s.updThread k f).heldWr = s.heldWr := rfl
@[simp] theorem State.updThread_peerWaits (k : Nat) (f : Thread → Thread) : (s.updThread k f).peerWaits = s.peerWaits := rfl
@[simp] theorem State.updThread_heard (k : Nat) (f : Thread → Thread) : (s.updThread k f).heard = s.heard := rfl
@[simp] theorem State.updThread_portsUp (k : Nat) (f : Thread → Thread) : (s.updThread k f).portsUp = s.portsUp := rfl
@[simp] theorem State.updThread_lifecycle (k : Nat) (f : Thread → Thread) : (s.updThread k f).lifecycle = s.lifecycle := rfl
@[simp] theorem State.updThread_nonces (k : Nat) (f : Thread → Thread) : (s.updThread k f).nonces = s.nonces := rfl
@[simp] theorem State.updThread_nonceSeq (k : Nat) (f : Thread → Thread) : (s.updThread k f).nonceSeq = s.nonceSeq := rfl
@[simp] theorem State.updThread_rollback (k : Nat) (f : Thread → Thread) : (s.updThread k f).rollback = s.rollback := rfl
@[simp] theorem State.updThread_firmware (k : Nat) (f : Thread → Thread) : (s.updThread k f).firmware = s.firmware := rfl
@[simp] theorem State.updThread_meas3 (k : Nat) (f : Thread → Thread) : (s.updThread k f).meas3 = s.meas3 := rfl
@[simp] theorem State.updThread_romHold (k : Nat) (f : Thread → Thread) : (s.updThread k f).romHold = s.romHold := rfl
@[simp] theorem State.updThread_hbmTrained (k : Nat) (f : Thread → Thread) : (s.updThread k f).hbmTrained = s.hbmTrained := rfl
@[simp] theorem State.updThread_scrubEpoch (k : Nat) (f : Thread → Thread) : (s.updThread k f).scrubEpoch = s.scrubEpoch := rfl
@[simp] theorem State.updThread_linkUp (k : Nat) (f : Thread → Thread) : (s.updThread k f).linkUp = s.linkUp := rfl
@[simp] theorem State.updThread_powered (k : Nat) (f : Thread → Thread) : (s.updThread k f).powered = s.powered := rfl
@[simp] theorem State.updThread_refilled (k : Nat) (f : Thread → Thread) : (s.updThread k f).refilled = s.refilled := rfl

/-! ## updBlock -/

@[simp] theorem State.updBlock_clk (b : Nat) (f : Block → Block) : (s.updBlock b f).clk = s.clk := rfl
@[simp] theorem State.updBlock_ptp (b : Nat) (f : Block → Block) : (s.updBlock b f).ptp = s.ptp := rfl
@[simp] theorem State.updBlock_draws (b : Nat) (f : Block → Block) : (s.updBlock b f).draws = s.draws := rfl
@[simp] theorem State.updBlock_inputs (b : Nat) (f : Block → Block) : (s.updBlock b f).inputs = s.inputs := rfl
@[simp] theorem State.updBlock_gang (b : Nat) (f : Block → Block) : (s.updBlock b f).gang = s.gang := rfl
@[simp] theorem State.updBlock_inst (b : Nat) (f : Block → Block) : (s.updBlock b f).inst = s.inst := rfl
@[simp] theorem State.updBlock_nextSeq (b : Nat) (f : Block → Block) : (s.updBlock b f).nextSeq = s.nextSeq := rfl
@[simp] theorem State.updBlock_mem (b : Nat) (f : Block → Block) : (s.updBlock b f).mem = s.mem := rfl
@[simp] theorem State.updBlock_empties (b : Nat) (f : Block → Block) : (s.updBlock b f).empties = s.empties := rfl
@[simp] theorem State.updBlock_keyTags (b : Nat) (f : Block → Block) : (s.updBlock b f).keyTags = s.keyTags := rfl
@[simp] theorem State.updBlock_keyGens (b : Nat) (f : Block → Block) : (s.updBlock b f).keyGens = s.keyGens := rfl
@[simp] theorem State.updBlock_keyEpoch (b : Nat) (f : Block → Block) : (s.updBlock b f).keyEpoch = s.keyEpoch := rfl
@[simp] theorem State.updBlock_inflight (b : Nat) (f : Block → Block) : (s.updBlock b f).inflight = s.inflight := rfl
@[simp] theorem State.updBlock_badMem (b : Nat) (f : Block → Block) : (s.updBlock b f).badMem = s.badMem := rfl
@[simp] theorem State.updBlock_badSpad (b : Nat) (f : Block → Block) : (s.updBlock b f).badSpad = s.badSpad := rfl
@[simp] theorem State.updBlock_tlb (b : Nat) (f : Block → Block) : (s.updBlock b f).tlb = s.tlb := rfl
@[simp] theorem State.updBlock_ptes (b : Nat) (f : Block → Block) : (s.updBlock b f).ptes = s.ptes := rfl
@[simp] theorem State.updBlock_icache (b : Nat) (f : Block → Block) : (s.updBlock b f).icache = s.icache := rfl
@[simp] theorem State.updBlock_hostKinds (b : Nat) (f : Block → Block) : (s.updBlock b f).hostKinds = s.hostKinds := rfl
@[simp] theorem State.updBlock_tagPages (b : Nat) (f : Block → Block) : (s.updBlock b f).tagPages = s.tagPages := rfl
@[simp] theorem State.updBlock_invals (b : Nat) (f : Block → Block) : (s.updBlock b f).invals = s.invals := rfl
@[simp] theorem State.updBlock_threads (b : Nat) (f : Block → Block) : (s.updBlock b f).threads = s.threads := rfl
@[simp] theorem State.updBlock_groves (b : Nat) (f : Block → Block) : (s.updBlock b f).groves = s.groves := rfl
@[simp] theorem State.updBlock_launches (b : Nat) (f : Block → Block) : (s.updBlock b f).launches = s.launches := rfl
@[simp] theorem State.updBlock_ended (b : Nat) (f : Block → Block) : (s.updBlock b f).ended = s.ended := rfl
@[simp] theorem State.updBlock_queues (b : Nat) (f : Block → Block) : (s.updBlock b f).queues = s.queues := rfl
@[simp] theorem State.updBlock_takes (b : Nat) (f : Block → Block) : (s.updBlock b f).takes = s.takes := rfl
@[simp] theorem State.updBlock_cores (b : Nat) (f : Block → Block) : (s.updBlock b f).cores = s.cores := rfl
@[simp] theorem State.updBlock_ctxs (b : Nat) (f : Block → Block) : (s.updBlock b f).ctxs = s.ctxs := rfl
@[simp] theorem State.updBlock_ops (b : Nat) (f : Block → Block) : (s.updBlock b f).ops = s.ops := rfl
@[simp] theorem State.updBlock_hbs (b : Nat) (f : Block → Block) : (s.updBlock b f).hbs = s.hbs := rfl
@[simp] theorem State.updBlock_saved (b : Nat) (f : Block → Block) : (s.updBlock b f).saved = s.saved := rfl
@[simp] theorem State.updBlock_balanced (b : Nat) (f : Block → Block) : (s.updBlock b f).balanced = s.balanced := rfl
@[simp] theorem State.updBlock_retires (b : Nat) (f : Block → Block) : (s.updBlock b f).retires = s.retires := rfl
@[simp] theorem State.updBlock_waitTab (b : Nat) (f : Block → Block) : (s.updBlock b f).waitTab = s.waitTab := rfl
@[simp] theorem State.updBlock_wnotes (b : Nat) (f : Block → Block) : (s.updBlock b f).wnotes = s.wnotes := rfl
@[simp] theorem State.updBlock_sectors (b : Nat) (f : Block → Block) : (s.updBlock b f).sectors = s.sectors := rfl
@[simp] theorem State.updBlock_coreMarks (b : Nat) (f : Block → Block) : (s.updBlock b f).coreMarks = s.coreMarks := rfl
@[simp] theorem State.updBlock_wakes (b : Nat) (f : Block → Block) : (s.updBlock b f).wakes = s.wakes := rfl
@[simp] theorem State.updBlock_retries (b : Nat) (f : Block → Block) : (s.updBlock b f).retries = s.retries := rfl
@[simp] theorem State.updBlock_cmds (b : Nat) (f : Block → Block) : (s.updBlock b f).cmds = s.cmds := rfl
@[simp] theorem State.updBlock_msgs (b : Nat) (f : Block → Block) : (s.updBlock b f).msgs = s.msgs := rfl
@[simp] theorem State.updBlock_colls (b : Nat) (f : Block → Block) : (s.updBlock b f).colls = s.colls := rfl
@[simp] theorem State.updBlock_mxOps (b : Nat) (f : Block → Block) : (s.updBlock b f).mxOps = s.mxOps := rfl
@[simp] theorem State.updBlock_regions (b : Nat) (f : Block → Block) : (s.updBlock b f).regions = s.regions := rfl
@[simp] theorem State.updBlock_regSeen (b : Nat) (f : Block → Block) : (s.updBlock b f).regSeen = s.regSeen := rfl
@[simp] theorem State.updBlock_regCmds (b : Nat) (f : Block → Block) : (s.updBlock b f).regCmds = s.regCmds := rfl
@[simp] theorem State.updBlock_cows (b : Nat) (f : Block → Block) : (s.updBlock b f).cows = s.cows := rfl
@[simp] theorem State.updBlock_replay (b : Nat) (f : Block → Block) : (s.updBlock b f).replay = s.replay := rfl
@[simp] theorem State.updBlock_sweeps (b : Nat) (f : Block → Block) : (s.updBlock b f).sweeps = s.sweeps := rfl
@[simp] theorem State.updBlock_frames (b : Nat) (f : Block → Block) : (s.updBlock b f).frames = s.frames := rfl
@[simp] theorem State.updBlock_taproot (b : Nat) (f : Block → Block) : (s.updBlock b f).taproot = s.taproot := rfl
@[simp] theorem State.updBlock_tapUse (b : Nat) (f : Block → Block) : (s.updBlock b f).tapUse = s.tapUse := rfl
@[simp] theorem State.updBlock_homeQ (b : Nat) (f : Block → Block) : (s.updBlock b f).homeQ = s.homeQ := rfl
@[simp] theorem State.updBlock_l2 (b : Nat) (f : Block → Block) : (s.updBlock b f).l2 = s.l2 := rfl
@[simp] theorem State.updBlock_l1 (b : Nat) (f : Block → Block) : (s.updBlock b f).l1 = s.l1 := rfl
@[simp] theorem State.updBlock_late (b : Nat) (f : Block → Block) : (s.updBlock b f).late = s.late := rfl
@[simp] theorem State.updBlock_probes (b : Nat) (f : Block → Block) : (s.updBlock b f).probes = s.probes := rfl
@[simp] theorem State.updBlock_txns (b : Nat) (f : Block → Block) : (s.updBlock b f).txns = s.txns := rfl
@[simp] theorem State.updBlock_notices (b : Nat) (f : Block → Block) : (s.updBlock b f).notices = s.notices := rfl
@[simp] theorem State.updBlock_prefs (b : Nat) (f : Block → Block) : (s.updBlock b f).prefs = s.prefs := rfl
@[simp] theorem State.updBlock_tenants (b : Nat) (f : Block → Block) : (s.updBlock b f).tenants = s.tenants := rfl
@[simp] theorem State.updBlock_migration (b : Nat) (f : Block → Block) : (s.updBlock b f).migration = s.migration := rfl
@[simp] theorem State.updBlock_mmio (b : Nat) (f : Block → Block) : (s.updBlock b f).mmio = s.mmio := rfl
@[simp] theorem State.updBlock_frQueue (b : Nat) (f : Block → Block) : (s.updBlock b f).frQueue = s.frQueue := rfl
@[simp] theorem State.updBlock_svQueue (b : Nat) (f : Block → Block) : (s.updBlock b f).svQueue = s.svQueue := rfl
@[simp] theorem State.updBlock_resReqs (b : Nat) (f : Block → Block) : (s.updBlock b f).resReqs = s.resReqs := rfl
@[simp] theorem State.updBlock_streams (b : Nat) (f : Block → Block) : (s.updBlock b f).streams = s.streams := rfl
@[simp] theorem State.updBlock_pe (b : Nat) (f : Block → Block) : (s.updBlock b f).pe = s.pe := rfl
@[simp] theorem State.updBlock_ck (b : Nat) (f : Block → Block) : (s.updBlock b f).ck = s.ck := rfl
@[simp] theorem State.updBlock_leases (b : Nat) (f : Block → Block) : (s.updBlock b f).leases = s.leases := rfl
@[simp] theorem State.updBlock_granted (b : Nat) (f : Block → Block) : (s.updBlock b f).granted = s.granted := rfl
@[simp] theorem State.updBlock_heldWr (b : Nat) (f : Block → Block) : (s.updBlock b f).heldWr = s.heldWr := rfl
@[simp] theorem State.updBlock_peerWaits (b : Nat) (f : Block → Block) : (s.updBlock b f).peerWaits = s.peerWaits := rfl
@[simp] theorem State.updBlock_heard (b : Nat) (f : Block → Block) : (s.updBlock b f).heard = s.heard := rfl
@[simp] theorem State.updBlock_portsUp (b : Nat) (f : Block → Block) : (s.updBlock b f).portsUp = s.portsUp := rfl
@[simp] theorem State.updBlock_lifecycle (b : Nat) (f : Block → Block) : (s.updBlock b f).lifecycle = s.lifecycle := rfl
@[simp] theorem State.updBlock_nonces (b : Nat) (f : Block → Block) : (s.updBlock b f).nonces = s.nonces := rfl
@[simp] theorem State.updBlock_nonceSeq (b : Nat) (f : Block → Block) : (s.updBlock b f).nonceSeq = s.nonceSeq := rfl
@[simp] theorem State.updBlock_rollback (b : Nat) (f : Block → Block) : (s.updBlock b f).rollback = s.rollback := rfl
@[simp] theorem State.updBlock_firmware (b : Nat) (f : Block → Block) : (s.updBlock b f).firmware = s.firmware := rfl
@[simp] theorem State.updBlock_meas3 (b : Nat) (f : Block → Block) : (s.updBlock b f).meas3 = s.meas3 := rfl
@[simp] theorem State.updBlock_romHold (b : Nat) (f : Block → Block) : (s.updBlock b f).romHold = s.romHold := rfl
@[simp] theorem State.updBlock_hbmTrained (b : Nat) (f : Block → Block) : (s.updBlock b f).hbmTrained = s.hbmTrained := rfl
@[simp] theorem State.updBlock_scrubEpoch (b : Nat) (f : Block → Block) : (s.updBlock b f).scrubEpoch = s.scrubEpoch := rfl
@[simp] theorem State.updBlock_linkUp (b : Nat) (f : Block → Block) : (s.updBlock b f).linkUp = s.linkUp := rfl
@[simp] theorem State.updBlock_powered (b : Nat) (f : Block → Block) : (s.updBlock b f).powered = s.powered := rfl
@[simp] theorem State.updBlock_refilled (b : Nat) (f : Block → Block) : (s.updBlock b f).refilled = s.refilled := rfl

/-! ## updCore -/

@[simp] theorem State.updCore_clk (c : Nat) (f : Core → Core) : (s.updCore c f).clk = s.clk := rfl
@[simp] theorem State.updCore_ptp (c : Nat) (f : Core → Core) : (s.updCore c f).ptp = s.ptp := rfl
@[simp] theorem State.updCore_draws (c : Nat) (f : Core → Core) : (s.updCore c f).draws = s.draws := rfl
@[simp] theorem State.updCore_inputs (c : Nat) (f : Core → Core) : (s.updCore c f).inputs = s.inputs := rfl
@[simp] theorem State.updCore_gang (c : Nat) (f : Core → Core) : (s.updCore c f).gang = s.gang := rfl
@[simp] theorem State.updCore_inst (c : Nat) (f : Core → Core) : (s.updCore c f).inst = s.inst := rfl
@[simp] theorem State.updCore_nextSeq (c : Nat) (f : Core → Core) : (s.updCore c f).nextSeq = s.nextSeq := rfl
@[simp] theorem State.updCore_mem (c : Nat) (f : Core → Core) : (s.updCore c f).mem = s.mem := rfl
@[simp] theorem State.updCore_empties (c : Nat) (f : Core → Core) : (s.updCore c f).empties = s.empties := rfl
@[simp] theorem State.updCore_keyTags (c : Nat) (f : Core → Core) : (s.updCore c f).keyTags = s.keyTags := rfl
@[simp] theorem State.updCore_keyGens (c : Nat) (f : Core → Core) : (s.updCore c f).keyGens = s.keyGens := rfl
@[simp] theorem State.updCore_keyEpoch (c : Nat) (f : Core → Core) : (s.updCore c f).keyEpoch = s.keyEpoch := rfl
@[simp] theorem State.updCore_inflight (c : Nat) (f : Core → Core) : (s.updCore c f).inflight = s.inflight := rfl
@[simp] theorem State.updCore_badMem (c : Nat) (f : Core → Core) : (s.updCore c f).badMem = s.badMem := rfl
@[simp] theorem State.updCore_badSpad (c : Nat) (f : Core → Core) : (s.updCore c f).badSpad = s.badSpad := rfl
@[simp] theorem State.updCore_tlb (c : Nat) (f : Core → Core) : (s.updCore c f).tlb = s.tlb := rfl
@[simp] theorem State.updCore_ptes (c : Nat) (f : Core → Core) : (s.updCore c f).ptes = s.ptes := rfl
@[simp] theorem State.updCore_icache (c : Nat) (f : Core → Core) : (s.updCore c f).icache = s.icache := rfl
@[simp] theorem State.updCore_hostKinds (c : Nat) (f : Core → Core) : (s.updCore c f).hostKinds = s.hostKinds := rfl
@[simp] theorem State.updCore_tagPages (c : Nat) (f : Core → Core) : (s.updCore c f).tagPages = s.tagPages := rfl
@[simp] theorem State.updCore_invals (c : Nat) (f : Core → Core) : (s.updCore c f).invals = s.invals := rfl
@[simp] theorem State.updCore_threads (c : Nat) (f : Core → Core) : (s.updCore c f).threads = s.threads := rfl
@[simp] theorem State.updCore_blocks (c : Nat) (f : Core → Core) : (s.updCore c f).blocks = s.blocks := rfl
@[simp] theorem State.updCore_groves (c : Nat) (f : Core → Core) : (s.updCore c f).groves = s.groves := rfl
@[simp] theorem State.updCore_launches (c : Nat) (f : Core → Core) : (s.updCore c f).launches = s.launches := rfl
@[simp] theorem State.updCore_ended (c : Nat) (f : Core → Core) : (s.updCore c f).ended = s.ended := rfl
@[simp] theorem State.updCore_queues (c : Nat) (f : Core → Core) : (s.updCore c f).queues = s.queues := rfl
@[simp] theorem State.updCore_takes (c : Nat) (f : Core → Core) : (s.updCore c f).takes = s.takes := rfl
@[simp] theorem State.updCore_ctxs (c : Nat) (f : Core → Core) : (s.updCore c f).ctxs = s.ctxs := rfl
@[simp] theorem State.updCore_ops (c : Nat) (f : Core → Core) : (s.updCore c f).ops = s.ops := rfl
@[simp] theorem State.updCore_hbs (c : Nat) (f : Core → Core) : (s.updCore c f).hbs = s.hbs := rfl
@[simp] theorem State.updCore_saved (c : Nat) (f : Core → Core) : (s.updCore c f).saved = s.saved := rfl
@[simp] theorem State.updCore_balanced (c : Nat) (f : Core → Core) : (s.updCore c f).balanced = s.balanced := rfl
@[simp] theorem State.updCore_retires (c : Nat) (f : Core → Core) : (s.updCore c f).retires = s.retires := rfl
@[simp] theorem State.updCore_waitTab (c : Nat) (f : Core → Core) : (s.updCore c f).waitTab = s.waitTab := rfl
@[simp] theorem State.updCore_wnotes (c : Nat) (f : Core → Core) : (s.updCore c f).wnotes = s.wnotes := rfl
@[simp] theorem State.updCore_sectors (c : Nat) (f : Core → Core) : (s.updCore c f).sectors = s.sectors := rfl
@[simp] theorem State.updCore_coreMarks (c : Nat) (f : Core → Core) : (s.updCore c f).coreMarks = s.coreMarks := rfl
@[simp] theorem State.updCore_wakes (c : Nat) (f : Core → Core) : (s.updCore c f).wakes = s.wakes := rfl
@[simp] theorem State.updCore_retries (c : Nat) (f : Core → Core) : (s.updCore c f).retries = s.retries := rfl
@[simp] theorem State.updCore_cmds (c : Nat) (f : Core → Core) : (s.updCore c f).cmds = s.cmds := rfl
@[simp] theorem State.updCore_msgs (c : Nat) (f : Core → Core) : (s.updCore c f).msgs = s.msgs := rfl
@[simp] theorem State.updCore_colls (c : Nat) (f : Core → Core) : (s.updCore c f).colls = s.colls := rfl
@[simp] theorem State.updCore_mxOps (c : Nat) (f : Core → Core) : (s.updCore c f).mxOps = s.mxOps := rfl
@[simp] theorem State.updCore_regions (c : Nat) (f : Core → Core) : (s.updCore c f).regions = s.regions := rfl
@[simp] theorem State.updCore_regSeen (c : Nat) (f : Core → Core) : (s.updCore c f).regSeen = s.regSeen := rfl
@[simp] theorem State.updCore_regCmds (c : Nat) (f : Core → Core) : (s.updCore c f).regCmds = s.regCmds := rfl
@[simp] theorem State.updCore_cows (c : Nat) (f : Core → Core) : (s.updCore c f).cows = s.cows := rfl
@[simp] theorem State.updCore_replay (c : Nat) (f : Core → Core) : (s.updCore c f).replay = s.replay := rfl
@[simp] theorem State.updCore_sweeps (c : Nat) (f : Core → Core) : (s.updCore c f).sweeps = s.sweeps := rfl
@[simp] theorem State.updCore_frames (c : Nat) (f : Core → Core) : (s.updCore c f).frames = s.frames := rfl
@[simp] theorem State.updCore_taproot (c : Nat) (f : Core → Core) : (s.updCore c f).taproot = s.taproot := rfl
@[simp] theorem State.updCore_tapUse (c : Nat) (f : Core → Core) : (s.updCore c f).tapUse = s.tapUse := rfl
@[simp] theorem State.updCore_homeQ (c : Nat) (f : Core → Core) : (s.updCore c f).homeQ = s.homeQ := rfl
@[simp] theorem State.updCore_l2 (c : Nat) (f : Core → Core) : (s.updCore c f).l2 = s.l2 := rfl
@[simp] theorem State.updCore_l1 (c : Nat) (f : Core → Core) : (s.updCore c f).l1 = s.l1 := rfl
@[simp] theorem State.updCore_late (c : Nat) (f : Core → Core) : (s.updCore c f).late = s.late := rfl
@[simp] theorem State.updCore_probes (c : Nat) (f : Core → Core) : (s.updCore c f).probes = s.probes := rfl
@[simp] theorem State.updCore_txns (c : Nat) (f : Core → Core) : (s.updCore c f).txns = s.txns := rfl
@[simp] theorem State.updCore_notices (c : Nat) (f : Core → Core) : (s.updCore c f).notices = s.notices := rfl
@[simp] theorem State.updCore_prefs (c : Nat) (f : Core → Core) : (s.updCore c f).prefs = s.prefs := rfl
@[simp] theorem State.updCore_tenants (c : Nat) (f : Core → Core) : (s.updCore c f).tenants = s.tenants := rfl
@[simp] theorem State.updCore_migration (c : Nat) (f : Core → Core) : (s.updCore c f).migration = s.migration := rfl
@[simp] theorem State.updCore_mmio (c : Nat) (f : Core → Core) : (s.updCore c f).mmio = s.mmio := rfl
@[simp] theorem State.updCore_frQueue (c : Nat) (f : Core → Core) : (s.updCore c f).frQueue = s.frQueue := rfl
@[simp] theorem State.updCore_svQueue (c : Nat) (f : Core → Core) : (s.updCore c f).svQueue = s.svQueue := rfl
@[simp] theorem State.updCore_resReqs (c : Nat) (f : Core → Core) : (s.updCore c f).resReqs = s.resReqs := rfl
@[simp] theorem State.updCore_streams (c : Nat) (f : Core → Core) : (s.updCore c f).streams = s.streams := rfl
@[simp] theorem State.updCore_pe (c : Nat) (f : Core → Core) : (s.updCore c f).pe = s.pe := rfl
@[simp] theorem State.updCore_ck (c : Nat) (f : Core → Core) : (s.updCore c f).ck = s.ck := rfl
@[simp] theorem State.updCore_leases (c : Nat) (f : Core → Core) : (s.updCore c f).leases = s.leases := rfl
@[simp] theorem State.updCore_granted (c : Nat) (f : Core → Core) : (s.updCore c f).granted = s.granted := rfl
@[simp] theorem State.updCore_heldWr (c : Nat) (f : Core → Core) : (s.updCore c f).heldWr = s.heldWr := rfl
@[simp] theorem State.updCore_peerWaits (c : Nat) (f : Core → Core) : (s.updCore c f).peerWaits = s.peerWaits := rfl
@[simp] theorem State.updCore_heard (c : Nat) (f : Core → Core) : (s.updCore c f).heard = s.heard := rfl
@[simp] theorem State.updCore_portsUp (c : Nat) (f : Core → Core) : (s.updCore c f).portsUp = s.portsUp := rfl
@[simp] theorem State.updCore_lifecycle (c : Nat) (f : Core → Core) : (s.updCore c f).lifecycle = s.lifecycle := rfl
@[simp] theorem State.updCore_nonces (c : Nat) (f : Core → Core) : (s.updCore c f).nonces = s.nonces := rfl
@[simp] theorem State.updCore_nonceSeq (c : Nat) (f : Core → Core) : (s.updCore c f).nonceSeq = s.nonceSeq := rfl
@[simp] theorem State.updCore_rollback (c : Nat) (f : Core → Core) : (s.updCore c f).rollback = s.rollback := rfl
@[simp] theorem State.updCore_firmware (c : Nat) (f : Core → Core) : (s.updCore c f).firmware = s.firmware := rfl
@[simp] theorem State.updCore_meas3 (c : Nat) (f : Core → Core) : (s.updCore c f).meas3 = s.meas3 := rfl
@[simp] theorem State.updCore_romHold (c : Nat) (f : Core → Core) : (s.updCore c f).romHold = s.romHold := rfl
@[simp] theorem State.updCore_hbmTrained (c : Nat) (f : Core → Core) : (s.updCore c f).hbmTrained = s.hbmTrained := rfl
@[simp] theorem State.updCore_scrubEpoch (c : Nat) (f : Core → Core) : (s.updCore c f).scrubEpoch = s.scrubEpoch := rfl
@[simp] theorem State.updCore_linkUp (c : Nat) (f : Core → Core) : (s.updCore c f).linkUp = s.linkUp := rfl
@[simp] theorem State.updCore_powered (c : Nat) (f : Core → Core) : (s.updCore c f).powered = s.powered := rfl
@[simp] theorem State.updCore_refilled (c : Nat) (f : Core → Core) : (s.updCore c f).refilled = s.refilled := rfl

/-! ## addOp -/

@[simp] theorem State.addOp_clk (o : Op) : (s.addOp o).clk = s.clk := rfl
@[simp] theorem State.addOp_ptp (o : Op) : (s.addOp o).ptp = s.ptp := rfl
@[simp] theorem State.addOp_draws (o : Op) : (s.addOp o).draws = s.draws := rfl
@[simp] theorem State.addOp_inputs (o : Op) : (s.addOp o).inputs = s.inputs := rfl
@[simp] theorem State.addOp_gang (o : Op) : (s.addOp o).gang = s.gang := rfl
@[simp] theorem State.addOp_inst (o : Op) : (s.addOp o).inst = s.inst := rfl
@[simp] theorem State.addOp_mem (o : Op) : (s.addOp o).mem = s.mem := rfl
@[simp] theorem State.addOp_empties (o : Op) : (s.addOp o).empties = s.empties := rfl
@[simp] theorem State.addOp_keyTags (o : Op) : (s.addOp o).keyTags = s.keyTags := rfl
@[simp] theorem State.addOp_keyGens (o : Op) : (s.addOp o).keyGens = s.keyGens := rfl
@[simp] theorem State.addOp_keyEpoch (o : Op) : (s.addOp o).keyEpoch = s.keyEpoch := rfl
@[simp] theorem State.addOp_inflight (o : Op) : (s.addOp o).inflight = s.inflight := rfl
@[simp] theorem State.addOp_badMem (o : Op) : (s.addOp o).badMem = s.badMem := rfl
@[simp] theorem State.addOp_badSpad (o : Op) : (s.addOp o).badSpad = s.badSpad := rfl
@[simp] theorem State.addOp_tlb (o : Op) : (s.addOp o).tlb = s.tlb := rfl
@[simp] theorem State.addOp_ptes (o : Op) : (s.addOp o).ptes = s.ptes := rfl
@[simp] theorem State.addOp_icache (o : Op) : (s.addOp o).icache = s.icache := rfl
@[simp] theorem State.addOp_hostKinds (o : Op) : (s.addOp o).hostKinds = s.hostKinds := rfl
@[simp] theorem State.addOp_tagPages (o : Op) : (s.addOp o).tagPages = s.tagPages := rfl
@[simp] theorem State.addOp_invals (o : Op) : (s.addOp o).invals = s.invals := rfl
@[simp] theorem State.addOp_threads (o : Op) : (s.addOp o).threads = s.threads := rfl
@[simp] theorem State.addOp_blocks (o : Op) : (s.addOp o).blocks = s.blocks := rfl
@[simp] theorem State.addOp_groves (o : Op) : (s.addOp o).groves = s.groves := rfl
@[simp] theorem State.addOp_launches (o : Op) : (s.addOp o).launches = s.launches := rfl
@[simp] theorem State.addOp_ended (o : Op) : (s.addOp o).ended = s.ended := rfl
@[simp] theorem State.addOp_queues (o : Op) : (s.addOp o).queues = s.queues := rfl
@[simp] theorem State.addOp_takes (o : Op) : (s.addOp o).takes = s.takes := rfl
@[simp] theorem State.addOp_cores (o : Op) : (s.addOp o).cores = s.cores := rfl
@[simp] theorem State.addOp_ctxs (o : Op) : (s.addOp o).ctxs = s.ctxs := rfl
@[simp] theorem State.addOp_hbs (o : Op) : (s.addOp o).hbs = s.hbs := rfl
@[simp] theorem State.addOp_saved (o : Op) : (s.addOp o).saved = s.saved := rfl
@[simp] theorem State.addOp_balanced (o : Op) : (s.addOp o).balanced = s.balanced := rfl
@[simp] theorem State.addOp_retires (o : Op) : (s.addOp o).retires = s.retires := rfl
@[simp] theorem State.addOp_waitTab (o : Op) : (s.addOp o).waitTab = s.waitTab := rfl
@[simp] theorem State.addOp_wnotes (o : Op) : (s.addOp o).wnotes = s.wnotes := rfl
@[simp] theorem State.addOp_sectors (o : Op) : (s.addOp o).sectors = s.sectors := rfl
@[simp] theorem State.addOp_coreMarks (o : Op) : (s.addOp o).coreMarks = s.coreMarks := rfl
@[simp] theorem State.addOp_wakes (o : Op) : (s.addOp o).wakes = s.wakes := rfl
@[simp] theorem State.addOp_retries (o : Op) : (s.addOp o).retries = s.retries := rfl
@[simp] theorem State.addOp_cmds (o : Op) : (s.addOp o).cmds = s.cmds := rfl
@[simp] theorem State.addOp_msgs (o : Op) : (s.addOp o).msgs = s.msgs := rfl
@[simp] theorem State.addOp_colls (o : Op) : (s.addOp o).colls = s.colls := rfl
@[simp] theorem State.addOp_mxOps (o : Op) : (s.addOp o).mxOps = s.mxOps := rfl
@[simp] theorem State.addOp_regions (o : Op) : (s.addOp o).regions = s.regions := rfl
@[simp] theorem State.addOp_regSeen (o : Op) : (s.addOp o).regSeen = s.regSeen := rfl
@[simp] theorem State.addOp_regCmds (o : Op) : (s.addOp o).regCmds = s.regCmds := rfl
@[simp] theorem State.addOp_cows (o : Op) : (s.addOp o).cows = s.cows := rfl
@[simp] theorem State.addOp_replay (o : Op) : (s.addOp o).replay = s.replay := rfl
@[simp] theorem State.addOp_sweeps (o : Op) : (s.addOp o).sweeps = s.sweeps := rfl
@[simp] theorem State.addOp_frames (o : Op) : (s.addOp o).frames = s.frames := rfl
@[simp] theorem State.addOp_taproot (o : Op) : (s.addOp o).taproot = s.taproot := rfl
@[simp] theorem State.addOp_tapUse (o : Op) : (s.addOp o).tapUse = s.tapUse := rfl
@[simp] theorem State.addOp_homeQ (o : Op) : (s.addOp o).homeQ = s.homeQ := rfl
@[simp] theorem State.addOp_l2 (o : Op) : (s.addOp o).l2 = s.l2 := rfl
@[simp] theorem State.addOp_l1 (o : Op) : (s.addOp o).l1 = s.l1 := rfl
@[simp] theorem State.addOp_late (o : Op) : (s.addOp o).late = s.late := rfl
@[simp] theorem State.addOp_probes (o : Op) : (s.addOp o).probes = s.probes := rfl
@[simp] theorem State.addOp_txns (o : Op) : (s.addOp o).txns = s.txns := rfl
@[simp] theorem State.addOp_notices (o : Op) : (s.addOp o).notices = s.notices := rfl
@[simp] theorem State.addOp_prefs (o : Op) : (s.addOp o).prefs = s.prefs := rfl
@[simp] theorem State.addOp_tenants (o : Op) : (s.addOp o).tenants = s.tenants := rfl
@[simp] theorem State.addOp_migration (o : Op) : (s.addOp o).migration = s.migration := rfl
@[simp] theorem State.addOp_mmio (o : Op) : (s.addOp o).mmio = s.mmio := rfl
@[simp] theorem State.addOp_frQueue (o : Op) : (s.addOp o).frQueue = s.frQueue := rfl
@[simp] theorem State.addOp_svQueue (o : Op) : (s.addOp o).svQueue = s.svQueue := rfl
@[simp] theorem State.addOp_resReqs (o : Op) : (s.addOp o).resReqs = s.resReqs := rfl
@[simp] theorem State.addOp_streams (o : Op) : (s.addOp o).streams = s.streams := rfl
@[simp] theorem State.addOp_pe (o : Op) : (s.addOp o).pe = s.pe := rfl
@[simp] theorem State.addOp_ck (o : Op) : (s.addOp o).ck = s.ck := rfl
@[simp] theorem State.addOp_leases (o : Op) : (s.addOp o).leases = s.leases := rfl
@[simp] theorem State.addOp_granted (o : Op) : (s.addOp o).granted = s.granted := rfl
@[simp] theorem State.addOp_heldWr (o : Op) : (s.addOp o).heldWr = s.heldWr := rfl
@[simp] theorem State.addOp_peerWaits (o : Op) : (s.addOp o).peerWaits = s.peerWaits := rfl
@[simp] theorem State.addOp_heard (o : Op) : (s.addOp o).heard = s.heard := rfl
@[simp] theorem State.addOp_portsUp (o : Op) : (s.addOp o).portsUp = s.portsUp := rfl
@[simp] theorem State.addOp_lifecycle (o : Op) : (s.addOp o).lifecycle = s.lifecycle := rfl
@[simp] theorem State.addOp_nonces (o : Op) : (s.addOp o).nonces = s.nonces := rfl
@[simp] theorem State.addOp_nonceSeq (o : Op) : (s.addOp o).nonceSeq = s.nonceSeq := rfl
@[simp] theorem State.addOp_rollback (o : Op) : (s.addOp o).rollback = s.rollback := rfl
@[simp] theorem State.addOp_firmware (o : Op) : (s.addOp o).firmware = s.firmware := rfl
@[simp] theorem State.addOp_meas3 (o : Op) : (s.addOp o).meas3 = s.meas3 := rfl
@[simp] theorem State.addOp_romHold (o : Op) : (s.addOp o).romHold = s.romHold := rfl
@[simp] theorem State.addOp_hbmTrained (o : Op) : (s.addOp o).hbmTrained = s.hbmTrained := rfl
@[simp] theorem State.addOp_scrubEpoch (o : Op) : (s.addOp o).scrubEpoch = s.scrubEpoch := rfl
@[simp] theorem State.addOp_linkUp (o : Op) : (s.addOp o).linkUp = s.linkUp := rfl
@[simp] theorem State.addOp_powered (o : Op) : (s.addOp o).powered = s.powered := rfl
@[simp] theorem State.addOp_refilled (o : Op) : (s.addOp o).refilled = s.refilled := rfl

/-! ## landIn -/

@[simp] theorem State.landIn_clk (k seq clk : Nat) (l : List Landing) : (s.landIn k seq clk l).clk = s.clk := rfl
@[simp] theorem State.landIn_ptp (k seq clk : Nat) (l : List Landing) : (s.landIn k seq clk l).ptp = s.ptp := rfl
@[simp] theorem State.landIn_draws (k seq clk : Nat) (l : List Landing) : (s.landIn k seq clk l).draws = s.draws := rfl
@[simp] theorem State.landIn_inputs (k seq clk : Nat) (l : List Landing) : (s.landIn k seq clk l).inputs = s.inputs := rfl
@[simp] theorem State.landIn_gang (k seq clk : Nat) (l : List Landing) : (s.landIn k seq clk l).gang = s.gang := rfl
@[simp] theorem State.landIn_inst (k seq clk : Nat) (l : List Landing) : (s.landIn k seq clk l).inst = s.inst := rfl
@[simp] theorem State.landIn_nextSeq (k seq clk : Nat) (l : List Landing) : (s.landIn k seq clk l).nextSeq = s.nextSeq := rfl
@[simp] theorem State.landIn_mem (k seq clk : Nat) (l : List Landing) : (s.landIn k seq clk l).mem = s.mem := rfl
@[simp] theorem State.landIn_empties (k seq clk : Nat) (l : List Landing) : (s.landIn k seq clk l).empties = s.empties := rfl
@[simp] theorem State.landIn_keyTags (k seq clk : Nat) (l : List Landing) : (s.landIn k seq clk l).keyTags = s.keyTags := rfl
@[simp] theorem State.landIn_keyGens (k seq clk : Nat) (l : List Landing) : (s.landIn k seq clk l).keyGens = s.keyGens := rfl
@[simp] theorem State.landIn_keyEpoch (k seq clk : Nat) (l : List Landing) : (s.landIn k seq clk l).keyEpoch = s.keyEpoch := rfl
@[simp] theorem State.landIn_inflight (k seq clk : Nat) (l : List Landing) : (s.landIn k seq clk l).inflight = s.inflight := rfl
@[simp] theorem State.landIn_badMem (k seq clk : Nat) (l : List Landing) : (s.landIn k seq clk l).badMem = s.badMem := rfl
@[simp] theorem State.landIn_badSpad (k seq clk : Nat) (l : List Landing) : (s.landIn k seq clk l).badSpad = s.badSpad := rfl
@[simp] theorem State.landIn_tlb (k seq clk : Nat) (l : List Landing) : (s.landIn k seq clk l).tlb = s.tlb := rfl
@[simp] theorem State.landIn_ptes (k seq clk : Nat) (l : List Landing) : (s.landIn k seq clk l).ptes = s.ptes := rfl
@[simp] theorem State.landIn_icache (k seq clk : Nat) (l : List Landing) : (s.landIn k seq clk l).icache = s.icache := rfl
@[simp] theorem State.landIn_hostKinds (k seq clk : Nat) (l : List Landing) : (s.landIn k seq clk l).hostKinds = s.hostKinds := rfl
@[simp] theorem State.landIn_tagPages (k seq clk : Nat) (l : List Landing) : (s.landIn k seq clk l).tagPages = s.tagPages := rfl
@[simp] theorem State.landIn_invals (k seq clk : Nat) (l : List Landing) : (s.landIn k seq clk l).invals = s.invals := rfl
@[simp] theorem State.landIn_blocks (k seq clk : Nat) (l : List Landing) : (s.landIn k seq clk l).blocks = s.blocks := rfl
@[simp] theorem State.landIn_groves (k seq clk : Nat) (l : List Landing) : (s.landIn k seq clk l).groves = s.groves := rfl
@[simp] theorem State.landIn_launches (k seq clk : Nat) (l : List Landing) : (s.landIn k seq clk l).launches = s.launches := rfl
@[simp] theorem State.landIn_ended (k seq clk : Nat) (l : List Landing) : (s.landIn k seq clk l).ended = s.ended := rfl
@[simp] theorem State.landIn_queues (k seq clk : Nat) (l : List Landing) : (s.landIn k seq clk l).queues = s.queues := rfl
@[simp] theorem State.landIn_takes (k seq clk : Nat) (l : List Landing) : (s.landIn k seq clk l).takes = s.takes := rfl
@[simp] theorem State.landIn_cores (k seq clk : Nat) (l : List Landing) : (s.landIn k seq clk l).cores = s.cores := rfl
@[simp] theorem State.landIn_ctxs (k seq clk : Nat) (l : List Landing) : (s.landIn k seq clk l).ctxs = s.ctxs := rfl
@[simp] theorem State.landIn_ops (k seq clk : Nat) (l : List Landing) : (s.landIn k seq clk l).ops = s.ops := rfl
@[simp] theorem State.landIn_hbs (k seq clk : Nat) (l : List Landing) : (s.landIn k seq clk l).hbs = s.hbs := rfl
@[simp] theorem State.landIn_saved (k seq clk : Nat) (l : List Landing) : (s.landIn k seq clk l).saved = s.saved := rfl
@[simp] theorem State.landIn_balanced (k seq clk : Nat) (l : List Landing) : (s.landIn k seq clk l).balanced = s.balanced := rfl
@[simp] theorem State.landIn_retires (k seq clk : Nat) (l : List Landing) : (s.landIn k seq clk l).retires = s.retires := rfl
@[simp] theorem State.landIn_waitTab (k seq clk : Nat) (l : List Landing) : (s.landIn k seq clk l).waitTab = s.waitTab := rfl
@[simp] theorem State.landIn_wnotes (k seq clk : Nat) (l : List Landing) : (s.landIn k seq clk l).wnotes = s.wnotes := rfl
@[simp] theorem State.landIn_sectors (k seq clk : Nat) (l : List Landing) : (s.landIn k seq clk l).sectors = s.sectors := rfl
@[simp] theorem State.landIn_coreMarks (k seq clk : Nat) (l : List Landing) : (s.landIn k seq clk l).coreMarks = s.coreMarks := rfl
@[simp] theorem State.landIn_wakes (k seq clk : Nat) (l : List Landing) : (s.landIn k seq clk l).wakes = s.wakes := rfl
@[simp] theorem State.landIn_retries (k seq clk : Nat) (l : List Landing) : (s.landIn k seq clk l).retries = s.retries := rfl
@[simp] theorem State.landIn_cmds (k seq clk : Nat) (l : List Landing) : (s.landIn k seq clk l).cmds = s.cmds := rfl
@[simp] theorem State.landIn_msgs (k seq clk : Nat) (l : List Landing) : (s.landIn k seq clk l).msgs = s.msgs := rfl
@[simp] theorem State.landIn_colls (k seq clk : Nat) (l : List Landing) : (s.landIn k seq clk l).colls = s.colls := rfl
@[simp] theorem State.landIn_mxOps (k seq clk : Nat) (l : List Landing) : (s.landIn k seq clk l).mxOps = s.mxOps := rfl
@[simp] theorem State.landIn_regions (k seq clk : Nat) (l : List Landing) : (s.landIn k seq clk l).regions = s.regions := rfl
@[simp] theorem State.landIn_regSeen (k seq clk : Nat) (l : List Landing) : (s.landIn k seq clk l).regSeen = s.regSeen := rfl
@[simp] theorem State.landIn_regCmds (k seq clk : Nat) (l : List Landing) : (s.landIn k seq clk l).regCmds = s.regCmds := rfl
@[simp] theorem State.landIn_cows (k seq clk : Nat) (l : List Landing) : (s.landIn k seq clk l).cows = s.cows := rfl
@[simp] theorem State.landIn_replay (k seq clk : Nat) (l : List Landing) : (s.landIn k seq clk l).replay = s.replay := rfl
@[simp] theorem State.landIn_sweeps (k seq clk : Nat) (l : List Landing) : (s.landIn k seq clk l).sweeps = s.sweeps := rfl
@[simp] theorem State.landIn_frames (k seq clk : Nat) (l : List Landing) : (s.landIn k seq clk l).frames = s.frames := rfl
@[simp] theorem State.landIn_taproot (k seq clk : Nat) (l : List Landing) : (s.landIn k seq clk l).taproot = s.taproot := rfl
@[simp] theorem State.landIn_tapUse (k seq clk : Nat) (l : List Landing) : (s.landIn k seq clk l).tapUse = s.tapUse := rfl
@[simp] theorem State.landIn_homeQ (k seq clk : Nat) (l : List Landing) : (s.landIn k seq clk l).homeQ = s.homeQ := rfl
@[simp] theorem State.landIn_l2 (k seq clk : Nat) (l : List Landing) : (s.landIn k seq clk l).l2 = s.l2 := rfl
@[simp] theorem State.landIn_l1 (k seq clk : Nat) (l : List Landing) : (s.landIn k seq clk l).l1 = s.l1 := rfl
@[simp] theorem State.landIn_late (k seq clk : Nat) (l : List Landing) : (s.landIn k seq clk l).late = s.late := rfl
@[simp] theorem State.landIn_probes (k seq clk : Nat) (l : List Landing) : (s.landIn k seq clk l).probes = s.probes := rfl
@[simp] theorem State.landIn_txns (k seq clk : Nat) (l : List Landing) : (s.landIn k seq clk l).txns = s.txns := rfl
@[simp] theorem State.landIn_notices (k seq clk : Nat) (l : List Landing) : (s.landIn k seq clk l).notices = s.notices := rfl
@[simp] theorem State.landIn_prefs (k seq clk : Nat) (l : List Landing) : (s.landIn k seq clk l).prefs = s.prefs := rfl
@[simp] theorem State.landIn_tenants (k seq clk : Nat) (l : List Landing) : (s.landIn k seq clk l).tenants = s.tenants := rfl
@[simp] theorem State.landIn_migration (k seq clk : Nat) (l : List Landing) : (s.landIn k seq clk l).migration = s.migration := rfl
@[simp] theorem State.landIn_mmio (k seq clk : Nat) (l : List Landing) : (s.landIn k seq clk l).mmio = s.mmio := rfl
@[simp] theorem State.landIn_frQueue (k seq clk : Nat) (l : List Landing) : (s.landIn k seq clk l).frQueue = s.frQueue := rfl
@[simp] theorem State.landIn_svQueue (k seq clk : Nat) (l : List Landing) : (s.landIn k seq clk l).svQueue = s.svQueue := rfl
@[simp] theorem State.landIn_resReqs (k seq clk : Nat) (l : List Landing) : (s.landIn k seq clk l).resReqs = s.resReqs := rfl
@[simp] theorem State.landIn_streams (k seq clk : Nat) (l : List Landing) : (s.landIn k seq clk l).streams = s.streams := rfl
@[simp] theorem State.landIn_pe (k seq clk : Nat) (l : List Landing) : (s.landIn k seq clk l).pe = s.pe := rfl
@[simp] theorem State.landIn_ck (k seq clk : Nat) (l : List Landing) : (s.landIn k seq clk l).ck = s.ck := rfl
@[simp] theorem State.landIn_leases (k seq clk : Nat) (l : List Landing) : (s.landIn k seq clk l).leases = s.leases := rfl
@[simp] theorem State.landIn_granted (k seq clk : Nat) (l : List Landing) : (s.landIn k seq clk l).granted = s.granted := rfl
@[simp] theorem State.landIn_heldWr (k seq clk : Nat) (l : List Landing) : (s.landIn k seq clk l).heldWr = s.heldWr := rfl
@[simp] theorem State.landIn_peerWaits (k seq clk : Nat) (l : List Landing) : (s.landIn k seq clk l).peerWaits = s.peerWaits := rfl
@[simp] theorem State.landIn_heard (k seq clk : Nat) (l : List Landing) : (s.landIn k seq clk l).heard = s.heard := rfl
@[simp] theorem State.landIn_portsUp (k seq clk : Nat) (l : List Landing) : (s.landIn k seq clk l).portsUp = s.portsUp := rfl
@[simp] theorem State.landIn_lifecycle (k seq clk : Nat) (l : List Landing) : (s.landIn k seq clk l).lifecycle = s.lifecycle := rfl
@[simp] theorem State.landIn_nonces (k seq clk : Nat) (l : List Landing) : (s.landIn k seq clk l).nonces = s.nonces := rfl
@[simp] theorem State.landIn_nonceSeq (k seq clk : Nat) (l : List Landing) : (s.landIn k seq clk l).nonceSeq = s.nonceSeq := rfl
@[simp] theorem State.landIn_rollback (k seq clk : Nat) (l : List Landing) : (s.landIn k seq clk l).rollback = s.rollback := rfl
@[simp] theorem State.landIn_firmware (k seq clk : Nat) (l : List Landing) : (s.landIn k seq clk l).firmware = s.firmware := rfl
@[simp] theorem State.landIn_meas3 (k seq clk : Nat) (l : List Landing) : (s.landIn k seq clk l).meas3 = s.meas3 := rfl
@[simp] theorem State.landIn_romHold (k seq clk : Nat) (l : List Landing) : (s.landIn k seq clk l).romHold = s.romHold := rfl
@[simp] theorem State.landIn_hbmTrained (k seq clk : Nat) (l : List Landing) : (s.landIn k seq clk l).hbmTrained = s.hbmTrained := rfl
@[simp] theorem State.landIn_scrubEpoch (k seq clk : Nat) (l : List Landing) : (s.landIn k seq clk l).scrubEpoch = s.scrubEpoch := rfl
@[simp] theorem State.landIn_linkUp (k seq clk : Nat) (l : List Landing) : (s.landIn k seq clk l).linkUp = s.linkUp := rfl
@[simp] theorem State.landIn_powered (k seq clk : Nat) (l : List Landing) : (s.landIn k seq clk l).powered = s.powered := rfl
@[simp] theorem State.landIn_refilled (k seq clk : Nat) (l : List Landing) : (s.landIn k seq clk l).refilled = s.refilled := rfl

/-! ## setFull -/

@[simp] theorem State.setFull_clk (pa : Nat) (b : Bool) : (s.setFull pa b).clk = s.clk := rfl
@[simp] theorem State.setFull_ptp (pa : Nat) (b : Bool) : (s.setFull pa b).ptp = s.ptp := rfl
@[simp] theorem State.setFull_draws (pa : Nat) (b : Bool) : (s.setFull pa b).draws = s.draws := rfl
@[simp] theorem State.setFull_inputs (pa : Nat) (b : Bool) : (s.setFull pa b).inputs = s.inputs := rfl
@[simp] theorem State.setFull_gang (pa : Nat) (b : Bool) : (s.setFull pa b).gang = s.gang := rfl
@[simp] theorem State.setFull_inst (pa : Nat) (b : Bool) : (s.setFull pa b).inst = s.inst := rfl
@[simp] theorem State.setFull_nextSeq (pa : Nat) (b : Bool) : (s.setFull pa b).nextSeq = s.nextSeq := rfl
@[simp] theorem State.setFull_mem (pa : Nat) (b : Bool) : (s.setFull pa b).mem = s.mem := rfl
@[simp] theorem State.setFull_keyTags (pa : Nat) (b : Bool) : (s.setFull pa b).keyTags = s.keyTags := rfl
@[simp] theorem State.setFull_keyGens (pa : Nat) (b : Bool) : (s.setFull pa b).keyGens = s.keyGens := rfl
@[simp] theorem State.setFull_keyEpoch (pa : Nat) (b : Bool) : (s.setFull pa b).keyEpoch = s.keyEpoch := rfl
@[simp] theorem State.setFull_inflight (pa : Nat) (b : Bool) : (s.setFull pa b).inflight = s.inflight := rfl
@[simp] theorem State.setFull_badMem (pa : Nat) (b : Bool) : (s.setFull pa b).badMem = s.badMem := rfl
@[simp] theorem State.setFull_badSpad (pa : Nat) (b : Bool) : (s.setFull pa b).badSpad = s.badSpad := rfl
@[simp] theorem State.setFull_tlb (pa : Nat) (b : Bool) : (s.setFull pa b).tlb = s.tlb := rfl
@[simp] theorem State.setFull_ptes (pa : Nat) (b : Bool) : (s.setFull pa b).ptes = s.ptes := rfl
@[simp] theorem State.setFull_icache (pa : Nat) (b : Bool) : (s.setFull pa b).icache = s.icache := rfl
@[simp] theorem State.setFull_hostKinds (pa : Nat) (b : Bool) : (s.setFull pa b).hostKinds = s.hostKinds := rfl
@[simp] theorem State.setFull_tagPages (pa : Nat) (b : Bool) : (s.setFull pa b).tagPages = s.tagPages := rfl
@[simp] theorem State.setFull_invals (pa : Nat) (b : Bool) : (s.setFull pa b).invals = s.invals := rfl
@[simp] theorem State.setFull_threads (pa : Nat) (b : Bool) : (s.setFull pa b).threads = s.threads := rfl
@[simp] theorem State.setFull_blocks (pa : Nat) (b : Bool) : (s.setFull pa b).blocks = s.blocks := rfl
@[simp] theorem State.setFull_groves (pa : Nat) (b : Bool) : (s.setFull pa b).groves = s.groves := rfl
@[simp] theorem State.setFull_launches (pa : Nat) (b : Bool) : (s.setFull pa b).launches = s.launches := rfl
@[simp] theorem State.setFull_ended (pa : Nat) (b : Bool) : (s.setFull pa b).ended = s.ended := rfl
@[simp] theorem State.setFull_queues (pa : Nat) (b : Bool) : (s.setFull pa b).queues = s.queues := rfl
@[simp] theorem State.setFull_takes (pa : Nat) (b : Bool) : (s.setFull pa b).takes = s.takes := rfl
@[simp] theorem State.setFull_cores (pa : Nat) (b : Bool) : (s.setFull pa b).cores = s.cores := rfl
@[simp] theorem State.setFull_ctxs (pa : Nat) (b : Bool) : (s.setFull pa b).ctxs = s.ctxs := rfl
@[simp] theorem State.setFull_ops (pa : Nat) (b : Bool) : (s.setFull pa b).ops = s.ops := rfl
@[simp] theorem State.setFull_hbs (pa : Nat) (b : Bool) : (s.setFull pa b).hbs = s.hbs := rfl
@[simp] theorem State.setFull_saved (pa : Nat) (b : Bool) : (s.setFull pa b).saved = s.saved := rfl
@[simp] theorem State.setFull_balanced (pa : Nat) (b : Bool) : (s.setFull pa b).balanced = s.balanced := rfl
@[simp] theorem State.setFull_retires (pa : Nat) (b : Bool) : (s.setFull pa b).retires = s.retires := rfl
@[simp] theorem State.setFull_waitTab (pa : Nat) (b : Bool) : (s.setFull pa b).waitTab = s.waitTab := rfl
@[simp] theorem State.setFull_wnotes (pa : Nat) (b : Bool) : (s.setFull pa b).wnotes = s.wnotes := rfl
@[simp] theorem State.setFull_sectors (pa : Nat) (b : Bool) : (s.setFull pa b).sectors = s.sectors := rfl
@[simp] theorem State.setFull_coreMarks (pa : Nat) (b : Bool) : (s.setFull pa b).coreMarks = s.coreMarks := rfl
@[simp] theorem State.setFull_wakes (pa : Nat) (b : Bool) : (s.setFull pa b).wakes = s.wakes := rfl
@[simp] theorem State.setFull_retries (pa : Nat) (b : Bool) : (s.setFull pa b).retries = s.retries := rfl
@[simp] theorem State.setFull_cmds (pa : Nat) (b : Bool) : (s.setFull pa b).cmds = s.cmds := rfl
@[simp] theorem State.setFull_msgs (pa : Nat) (b : Bool) : (s.setFull pa b).msgs = s.msgs := rfl
@[simp] theorem State.setFull_colls (pa : Nat) (b : Bool) : (s.setFull pa b).colls = s.colls := rfl
@[simp] theorem State.setFull_mxOps (pa : Nat) (b : Bool) : (s.setFull pa b).mxOps = s.mxOps := rfl
@[simp] theorem State.setFull_regions (pa : Nat) (b : Bool) : (s.setFull pa b).regions = s.regions := rfl
@[simp] theorem State.setFull_regSeen (pa : Nat) (b : Bool) : (s.setFull pa b).regSeen = s.regSeen := rfl
@[simp] theorem State.setFull_regCmds (pa : Nat) (b : Bool) : (s.setFull pa b).regCmds = s.regCmds := rfl
@[simp] theorem State.setFull_cows (pa : Nat) (b : Bool) : (s.setFull pa b).cows = s.cows := rfl
@[simp] theorem State.setFull_replay (pa : Nat) (b : Bool) : (s.setFull pa b).replay = s.replay := rfl
@[simp] theorem State.setFull_sweeps (pa : Nat) (b : Bool) : (s.setFull pa b).sweeps = s.sweeps := rfl
@[simp] theorem State.setFull_frames (pa : Nat) (b : Bool) : (s.setFull pa b).frames = s.frames := rfl
@[simp] theorem State.setFull_taproot (pa : Nat) (b : Bool) : (s.setFull pa b).taproot = s.taproot := rfl
@[simp] theorem State.setFull_tapUse (pa : Nat) (b : Bool) : (s.setFull pa b).tapUse = s.tapUse := rfl
@[simp] theorem State.setFull_homeQ (pa : Nat) (b : Bool) : (s.setFull pa b).homeQ = s.homeQ := rfl
@[simp] theorem State.setFull_l2 (pa : Nat) (b : Bool) : (s.setFull pa b).l2 = s.l2 := rfl
@[simp] theorem State.setFull_l1 (pa : Nat) (b : Bool) : (s.setFull pa b).l1 = s.l1 := rfl
@[simp] theorem State.setFull_late (pa : Nat) (b : Bool) : (s.setFull pa b).late = s.late := rfl
@[simp] theorem State.setFull_probes (pa : Nat) (b : Bool) : (s.setFull pa b).probes = s.probes := rfl
@[simp] theorem State.setFull_txns (pa : Nat) (b : Bool) : (s.setFull pa b).txns = s.txns := rfl
@[simp] theorem State.setFull_notices (pa : Nat) (b : Bool) : (s.setFull pa b).notices = s.notices := rfl
@[simp] theorem State.setFull_prefs (pa : Nat) (b : Bool) : (s.setFull pa b).prefs = s.prefs := rfl
@[simp] theorem State.setFull_tenants (pa : Nat) (b : Bool) : (s.setFull pa b).tenants = s.tenants := rfl
@[simp] theorem State.setFull_migration (pa : Nat) (b : Bool) : (s.setFull pa b).migration = s.migration := rfl
@[simp] theorem State.setFull_mmio (pa : Nat) (b : Bool) : (s.setFull pa b).mmio = s.mmio := rfl
@[simp] theorem State.setFull_frQueue (pa : Nat) (b : Bool) : (s.setFull pa b).frQueue = s.frQueue := rfl
@[simp] theorem State.setFull_svQueue (pa : Nat) (b : Bool) : (s.setFull pa b).svQueue = s.svQueue := rfl
@[simp] theorem State.setFull_resReqs (pa : Nat) (b : Bool) : (s.setFull pa b).resReqs = s.resReqs := rfl
@[simp] theorem State.setFull_streams (pa : Nat) (b : Bool) : (s.setFull pa b).streams = s.streams := rfl
@[simp] theorem State.setFull_pe (pa : Nat) (b : Bool) : (s.setFull pa b).pe = s.pe := rfl
@[simp] theorem State.setFull_ck (pa : Nat) (b : Bool) : (s.setFull pa b).ck = s.ck := rfl
@[simp] theorem State.setFull_leases (pa : Nat) (b : Bool) : (s.setFull pa b).leases = s.leases := rfl
@[simp] theorem State.setFull_granted (pa : Nat) (b : Bool) : (s.setFull pa b).granted = s.granted := rfl
@[simp] theorem State.setFull_heldWr (pa : Nat) (b : Bool) : (s.setFull pa b).heldWr = s.heldWr := rfl
@[simp] theorem State.setFull_peerWaits (pa : Nat) (b : Bool) : (s.setFull pa b).peerWaits = s.peerWaits := rfl
@[simp] theorem State.setFull_heard (pa : Nat) (b : Bool) : (s.setFull pa b).heard = s.heard := rfl
@[simp] theorem State.setFull_portsUp (pa : Nat) (b : Bool) : (s.setFull pa b).portsUp = s.portsUp := rfl
@[simp] theorem State.setFull_lifecycle (pa : Nat) (b : Bool) : (s.setFull pa b).lifecycle = s.lifecycle := rfl
@[simp] theorem State.setFull_nonces (pa : Nat) (b : Bool) : (s.setFull pa b).nonces = s.nonces := rfl
@[simp] theorem State.setFull_nonceSeq (pa : Nat) (b : Bool) : (s.setFull pa b).nonceSeq = s.nonceSeq := rfl
@[simp] theorem State.setFull_rollback (pa : Nat) (b : Bool) : (s.setFull pa b).rollback = s.rollback := rfl
@[simp] theorem State.setFull_firmware (pa : Nat) (b : Bool) : (s.setFull pa b).firmware = s.firmware := rfl
@[simp] theorem State.setFull_meas3 (pa : Nat) (b : Bool) : (s.setFull pa b).meas3 = s.meas3 := rfl
@[simp] theorem State.setFull_romHold (pa : Nat) (b : Bool) : (s.setFull pa b).romHold = s.romHold := rfl
@[simp] theorem State.setFull_hbmTrained (pa : Nat) (b : Bool) : (s.setFull pa b).hbmTrained = s.hbmTrained := rfl
@[simp] theorem State.setFull_scrubEpoch (pa : Nat) (b : Bool) : (s.setFull pa b).scrubEpoch = s.scrubEpoch := rfl
@[simp] theorem State.setFull_linkUp (pa : Nat) (b : Bool) : (s.setFull pa b).linkUp = s.linkUp := rfl
@[simp] theorem State.setFull_powered (pa : Nat) (b : Bool) : (s.setFull pa b).powered = s.powered := rfl
@[simp] theorem State.setFull_refilled (pa : Nat) (b : Bool) : (s.setFull pa b).refilled = s.refilled := rfl

/-! ## setReg -/

@[simp] theorem State.setReg_clk (off : Nat) (v : Word) : (s.setReg off v).clk = s.clk := rfl
@[simp] theorem State.setReg_ptp (off : Nat) (v : Word) : (s.setReg off v).ptp = s.ptp := rfl
@[simp] theorem State.setReg_draws (off : Nat) (v : Word) : (s.setReg off v).draws = s.draws := rfl
@[simp] theorem State.setReg_inputs (off : Nat) (v : Word) : (s.setReg off v).inputs = s.inputs := rfl
@[simp] theorem State.setReg_gang (off : Nat) (v : Word) : (s.setReg off v).gang = s.gang := rfl
@[simp] theorem State.setReg_inst (off : Nat) (v : Word) : (s.setReg off v).inst = s.inst := rfl
@[simp] theorem State.setReg_nextSeq (off : Nat) (v : Word) : (s.setReg off v).nextSeq = s.nextSeq := rfl
@[simp] theorem State.setReg_mem (off : Nat) (v : Word) : (s.setReg off v).mem = s.mem := rfl
@[simp] theorem State.setReg_empties (off : Nat) (v : Word) : (s.setReg off v).empties = s.empties := rfl
@[simp] theorem State.setReg_keyTags (off : Nat) (v : Word) : (s.setReg off v).keyTags = s.keyTags := rfl
@[simp] theorem State.setReg_keyGens (off : Nat) (v : Word) : (s.setReg off v).keyGens = s.keyGens := rfl
@[simp] theorem State.setReg_keyEpoch (off : Nat) (v : Word) : (s.setReg off v).keyEpoch = s.keyEpoch := rfl
@[simp] theorem State.setReg_inflight (off : Nat) (v : Word) : (s.setReg off v).inflight = s.inflight := rfl
@[simp] theorem State.setReg_badMem (off : Nat) (v : Word) : (s.setReg off v).badMem = s.badMem := rfl
@[simp] theorem State.setReg_badSpad (off : Nat) (v : Word) : (s.setReg off v).badSpad = s.badSpad := rfl
@[simp] theorem State.setReg_tlb (off : Nat) (v : Word) : (s.setReg off v).tlb = s.tlb := rfl
@[simp] theorem State.setReg_ptes (off : Nat) (v : Word) : (s.setReg off v).ptes = s.ptes := rfl
@[simp] theorem State.setReg_icache (off : Nat) (v : Word) : (s.setReg off v).icache = s.icache := rfl
@[simp] theorem State.setReg_hostKinds (off : Nat) (v : Word) : (s.setReg off v).hostKinds = s.hostKinds := rfl
@[simp] theorem State.setReg_tagPages (off : Nat) (v : Word) : (s.setReg off v).tagPages = s.tagPages := rfl
@[simp] theorem State.setReg_invals (off : Nat) (v : Word) : (s.setReg off v).invals = s.invals := rfl
@[simp] theorem State.setReg_threads (off : Nat) (v : Word) : (s.setReg off v).threads = s.threads := rfl
@[simp] theorem State.setReg_blocks (off : Nat) (v : Word) : (s.setReg off v).blocks = s.blocks := rfl
@[simp] theorem State.setReg_groves (off : Nat) (v : Word) : (s.setReg off v).groves = s.groves := rfl
@[simp] theorem State.setReg_launches (off : Nat) (v : Word) : (s.setReg off v).launches = s.launches := rfl
@[simp] theorem State.setReg_ended (off : Nat) (v : Word) : (s.setReg off v).ended = s.ended := rfl
@[simp] theorem State.setReg_queues (off : Nat) (v : Word) : (s.setReg off v).queues = s.queues := rfl
@[simp] theorem State.setReg_takes (off : Nat) (v : Word) : (s.setReg off v).takes = s.takes := rfl
@[simp] theorem State.setReg_cores (off : Nat) (v : Word) : (s.setReg off v).cores = s.cores := rfl
@[simp] theorem State.setReg_ctxs (off : Nat) (v : Word) : (s.setReg off v).ctxs = s.ctxs := rfl
@[simp] theorem State.setReg_ops (off : Nat) (v : Word) : (s.setReg off v).ops = s.ops := rfl
@[simp] theorem State.setReg_hbs (off : Nat) (v : Word) : (s.setReg off v).hbs = s.hbs := rfl
@[simp] theorem State.setReg_saved (off : Nat) (v : Word) : (s.setReg off v).saved = s.saved := rfl
@[simp] theorem State.setReg_balanced (off : Nat) (v : Word) : (s.setReg off v).balanced = s.balanced := rfl
@[simp] theorem State.setReg_retires (off : Nat) (v : Word) : (s.setReg off v).retires = s.retires := rfl
@[simp] theorem State.setReg_waitTab (off : Nat) (v : Word) : (s.setReg off v).waitTab = s.waitTab := rfl
@[simp] theorem State.setReg_wnotes (off : Nat) (v : Word) : (s.setReg off v).wnotes = s.wnotes := rfl
@[simp] theorem State.setReg_sectors (off : Nat) (v : Word) : (s.setReg off v).sectors = s.sectors := rfl
@[simp] theorem State.setReg_coreMarks (off : Nat) (v : Word) : (s.setReg off v).coreMarks = s.coreMarks := rfl
@[simp] theorem State.setReg_wakes (off : Nat) (v : Word) : (s.setReg off v).wakes = s.wakes := rfl
@[simp] theorem State.setReg_retries (off : Nat) (v : Word) : (s.setReg off v).retries = s.retries := rfl
@[simp] theorem State.setReg_cmds (off : Nat) (v : Word) : (s.setReg off v).cmds = s.cmds := rfl
@[simp] theorem State.setReg_msgs (off : Nat) (v : Word) : (s.setReg off v).msgs = s.msgs := rfl
@[simp] theorem State.setReg_colls (off : Nat) (v : Word) : (s.setReg off v).colls = s.colls := rfl
@[simp] theorem State.setReg_mxOps (off : Nat) (v : Word) : (s.setReg off v).mxOps = s.mxOps := rfl
@[simp] theorem State.setReg_regions (off : Nat) (v : Word) : (s.setReg off v).regions = s.regions := rfl
@[simp] theorem State.setReg_regSeen (off : Nat) (v : Word) : (s.setReg off v).regSeen = s.regSeen := rfl
@[simp] theorem State.setReg_regCmds (off : Nat) (v : Word) : (s.setReg off v).regCmds = s.regCmds := rfl
@[simp] theorem State.setReg_cows (off : Nat) (v : Word) : (s.setReg off v).cows = s.cows := rfl
@[simp] theorem State.setReg_replay (off : Nat) (v : Word) : (s.setReg off v).replay = s.replay := rfl
@[simp] theorem State.setReg_sweeps (off : Nat) (v : Word) : (s.setReg off v).sweeps = s.sweeps := rfl
@[simp] theorem State.setReg_frames (off : Nat) (v : Word) : (s.setReg off v).frames = s.frames := rfl
@[simp] theorem State.setReg_taproot (off : Nat) (v : Word) : (s.setReg off v).taproot = s.taproot := rfl
@[simp] theorem State.setReg_tapUse (off : Nat) (v : Word) : (s.setReg off v).tapUse = s.tapUse := rfl
@[simp] theorem State.setReg_homeQ (off : Nat) (v : Word) : (s.setReg off v).homeQ = s.homeQ := rfl
@[simp] theorem State.setReg_l2 (off : Nat) (v : Word) : (s.setReg off v).l2 = s.l2 := rfl
@[simp] theorem State.setReg_l1 (off : Nat) (v : Word) : (s.setReg off v).l1 = s.l1 := rfl
@[simp] theorem State.setReg_late (off : Nat) (v : Word) : (s.setReg off v).late = s.late := rfl
@[simp] theorem State.setReg_probes (off : Nat) (v : Word) : (s.setReg off v).probes = s.probes := rfl
@[simp] theorem State.setReg_txns (off : Nat) (v : Word) : (s.setReg off v).txns = s.txns := rfl
@[simp] theorem State.setReg_notices (off : Nat) (v : Word) : (s.setReg off v).notices = s.notices := rfl
@[simp] theorem State.setReg_prefs (off : Nat) (v : Word) : (s.setReg off v).prefs = s.prefs := rfl
@[simp] theorem State.setReg_tenants (off : Nat) (v : Word) : (s.setReg off v).tenants = s.tenants := rfl
@[simp] theorem State.setReg_migration (off : Nat) (v : Word) : (s.setReg off v).migration = s.migration := rfl
@[simp] theorem State.setReg_frQueue (off : Nat) (v : Word) : (s.setReg off v).frQueue = s.frQueue := rfl
@[simp] theorem State.setReg_svQueue (off : Nat) (v : Word) : (s.setReg off v).svQueue = s.svQueue := rfl
@[simp] theorem State.setReg_resReqs (off : Nat) (v : Word) : (s.setReg off v).resReqs = s.resReqs := rfl
@[simp] theorem State.setReg_streams (off : Nat) (v : Word) : (s.setReg off v).streams = s.streams := rfl
@[simp] theorem State.setReg_pe (off : Nat) (v : Word) : (s.setReg off v).pe = s.pe := rfl
@[simp] theorem State.setReg_ck (off : Nat) (v : Word) : (s.setReg off v).ck = s.ck := rfl
@[simp] theorem State.setReg_leases (off : Nat) (v : Word) : (s.setReg off v).leases = s.leases := rfl
@[simp] theorem State.setReg_granted (off : Nat) (v : Word) : (s.setReg off v).granted = s.granted := rfl
@[simp] theorem State.setReg_heldWr (off : Nat) (v : Word) : (s.setReg off v).heldWr = s.heldWr := rfl
@[simp] theorem State.setReg_peerWaits (off : Nat) (v : Word) : (s.setReg off v).peerWaits = s.peerWaits := rfl
@[simp] theorem State.setReg_heard (off : Nat) (v : Word) : (s.setReg off v).heard = s.heard := rfl
@[simp] theorem State.setReg_portsUp (off : Nat) (v : Word) : (s.setReg off v).portsUp = s.portsUp := rfl
@[simp] theorem State.setReg_lifecycle (off : Nat) (v : Word) : (s.setReg off v).lifecycle = s.lifecycle := rfl
@[simp] theorem State.setReg_nonces (off : Nat) (v : Word) : (s.setReg off v).nonces = s.nonces := rfl
@[simp] theorem State.setReg_nonceSeq (off : Nat) (v : Word) : (s.setReg off v).nonceSeq = s.nonceSeq := rfl
@[simp] theorem State.setReg_rollback (off : Nat) (v : Word) : (s.setReg off v).rollback = s.rollback := rfl
@[simp] theorem State.setReg_firmware (off : Nat) (v : Word) : (s.setReg off v).firmware = s.firmware := rfl
@[simp] theorem State.setReg_meas3 (off : Nat) (v : Word) : (s.setReg off v).meas3 = s.meas3 := rfl
@[simp] theorem State.setReg_romHold (off : Nat) (v : Word) : (s.setReg off v).romHold = s.romHold := rfl
@[simp] theorem State.setReg_hbmTrained (off : Nat) (v : Word) : (s.setReg off v).hbmTrained = s.hbmTrained := rfl
@[simp] theorem State.setReg_scrubEpoch (off : Nat) (v : Word) : (s.setReg off v).scrubEpoch = s.scrubEpoch := rfl
@[simp] theorem State.setReg_linkUp (off : Nat) (v : Word) : (s.setReg off v).linkUp = s.linkUp := rfl
@[simp] theorem State.setReg_powered (off : Nat) (v : Word) : (s.setReg off v).powered = s.powered := rfl
@[simp] theorem State.setReg_refilled (off : Nat) (v : Word) : (s.setReg off v).refilled = s.refilled := rfl

/-! ## setHb -/

@[simp] theorem State.setHb_clk (k : Nat) (h : Hb) : (s.setHb k h).clk = s.clk := rfl
@[simp] theorem State.setHb_ptp (k : Nat) (h : Hb) : (s.setHb k h).ptp = s.ptp := rfl
@[simp] theorem State.setHb_draws (k : Nat) (h : Hb) : (s.setHb k h).draws = s.draws := rfl
@[simp] theorem State.setHb_inputs (k : Nat) (h : Hb) : (s.setHb k h).inputs = s.inputs := rfl
@[simp] theorem State.setHb_gang (k : Nat) (h : Hb) : (s.setHb k h).gang = s.gang := rfl
@[simp] theorem State.setHb_inst (k : Nat) (h : Hb) : (s.setHb k h).inst = s.inst := rfl
@[simp] theorem State.setHb_nextSeq (k : Nat) (h : Hb) : (s.setHb k h).nextSeq = s.nextSeq := rfl
@[simp] theorem State.setHb_mem (k : Nat) (h : Hb) : (s.setHb k h).mem = s.mem := rfl
@[simp] theorem State.setHb_empties (k : Nat) (h : Hb) : (s.setHb k h).empties = s.empties := rfl
@[simp] theorem State.setHb_keyTags (k : Nat) (h : Hb) : (s.setHb k h).keyTags = s.keyTags := rfl
@[simp] theorem State.setHb_keyGens (k : Nat) (h : Hb) : (s.setHb k h).keyGens = s.keyGens := rfl
@[simp] theorem State.setHb_keyEpoch (k : Nat) (h : Hb) : (s.setHb k h).keyEpoch = s.keyEpoch := rfl
@[simp] theorem State.setHb_inflight (k : Nat) (h : Hb) : (s.setHb k h).inflight = s.inflight := rfl
@[simp] theorem State.setHb_badMem (k : Nat) (h : Hb) : (s.setHb k h).badMem = s.badMem := rfl
@[simp] theorem State.setHb_badSpad (k : Nat) (h : Hb) : (s.setHb k h).badSpad = s.badSpad := rfl
@[simp] theorem State.setHb_tlb (k : Nat) (h : Hb) : (s.setHb k h).tlb = s.tlb := rfl
@[simp] theorem State.setHb_ptes (k : Nat) (h : Hb) : (s.setHb k h).ptes = s.ptes := rfl
@[simp] theorem State.setHb_icache (k : Nat) (h : Hb) : (s.setHb k h).icache = s.icache := rfl
@[simp] theorem State.setHb_hostKinds (k : Nat) (h : Hb) : (s.setHb k h).hostKinds = s.hostKinds := rfl
@[simp] theorem State.setHb_tagPages (k : Nat) (h : Hb) : (s.setHb k h).tagPages = s.tagPages := rfl
@[simp] theorem State.setHb_invals (k : Nat) (h : Hb) : (s.setHb k h).invals = s.invals := rfl
@[simp] theorem State.setHb_threads (k : Nat) (h : Hb) : (s.setHb k h).threads = s.threads := rfl
@[simp] theorem State.setHb_blocks (k : Nat) (h : Hb) : (s.setHb k h).blocks = s.blocks := rfl
@[simp] theorem State.setHb_groves (k : Nat) (h : Hb) : (s.setHb k h).groves = s.groves := rfl
@[simp] theorem State.setHb_launches (k : Nat) (h : Hb) : (s.setHb k h).launches = s.launches := rfl
@[simp] theorem State.setHb_ended (k : Nat) (h : Hb) : (s.setHb k h).ended = s.ended := rfl
@[simp] theorem State.setHb_queues (k : Nat) (h : Hb) : (s.setHb k h).queues = s.queues := rfl
@[simp] theorem State.setHb_takes (k : Nat) (h : Hb) : (s.setHb k h).takes = s.takes := rfl
@[simp] theorem State.setHb_cores (k : Nat) (h : Hb) : (s.setHb k h).cores = s.cores := rfl
@[simp] theorem State.setHb_ctxs (k : Nat) (h : Hb) : (s.setHb k h).ctxs = s.ctxs := rfl
@[simp] theorem State.setHb_ops (k : Nat) (h : Hb) : (s.setHb k h).ops = s.ops := rfl
@[simp] theorem State.setHb_saved (k : Nat) (h : Hb) : (s.setHb k h).saved = s.saved := rfl
@[simp] theorem State.setHb_balanced (k : Nat) (h : Hb) : (s.setHb k h).balanced = s.balanced := rfl
@[simp] theorem State.setHb_retires (k : Nat) (h : Hb) : (s.setHb k h).retires = s.retires := rfl
@[simp] theorem State.setHb_waitTab (k : Nat) (h : Hb) : (s.setHb k h).waitTab = s.waitTab := rfl
@[simp] theorem State.setHb_wnotes (k : Nat) (h : Hb) : (s.setHb k h).wnotes = s.wnotes := rfl
@[simp] theorem State.setHb_sectors (k : Nat) (h : Hb) : (s.setHb k h).sectors = s.sectors := rfl
@[simp] theorem State.setHb_coreMarks (k : Nat) (h : Hb) : (s.setHb k h).coreMarks = s.coreMarks := rfl
@[simp] theorem State.setHb_wakes (k : Nat) (h : Hb) : (s.setHb k h).wakes = s.wakes := rfl
@[simp] theorem State.setHb_retries (k : Nat) (h : Hb) : (s.setHb k h).retries = s.retries := rfl
@[simp] theorem State.setHb_cmds (k : Nat) (h : Hb) : (s.setHb k h).cmds = s.cmds := rfl
@[simp] theorem State.setHb_msgs (k : Nat) (h : Hb) : (s.setHb k h).msgs = s.msgs := rfl
@[simp] theorem State.setHb_colls (k : Nat) (h : Hb) : (s.setHb k h).colls = s.colls := rfl
@[simp] theorem State.setHb_mxOps (k : Nat) (h : Hb) : (s.setHb k h).mxOps = s.mxOps := rfl
@[simp] theorem State.setHb_regions (k : Nat) (h : Hb) : (s.setHb k h).regions = s.regions := rfl
@[simp] theorem State.setHb_regSeen (k : Nat) (h : Hb) : (s.setHb k h).regSeen = s.regSeen := rfl
@[simp] theorem State.setHb_regCmds (k : Nat) (h : Hb) : (s.setHb k h).regCmds = s.regCmds := rfl
@[simp] theorem State.setHb_cows (k : Nat) (h : Hb) : (s.setHb k h).cows = s.cows := rfl
@[simp] theorem State.setHb_replay (k : Nat) (h : Hb) : (s.setHb k h).replay = s.replay := rfl
@[simp] theorem State.setHb_sweeps (k : Nat) (h : Hb) : (s.setHb k h).sweeps = s.sweeps := rfl
@[simp] theorem State.setHb_frames (k : Nat) (h : Hb) : (s.setHb k h).frames = s.frames := rfl
@[simp] theorem State.setHb_taproot (k : Nat) (h : Hb) : (s.setHb k h).taproot = s.taproot := rfl
@[simp] theorem State.setHb_tapUse (k : Nat) (h : Hb) : (s.setHb k h).tapUse = s.tapUse := rfl
@[simp] theorem State.setHb_homeQ (k : Nat) (h : Hb) : (s.setHb k h).homeQ = s.homeQ := rfl
@[simp] theorem State.setHb_l2 (k : Nat) (h : Hb) : (s.setHb k h).l2 = s.l2 := rfl
@[simp] theorem State.setHb_l1 (k : Nat) (h : Hb) : (s.setHb k h).l1 = s.l1 := rfl
@[simp] theorem State.setHb_late (k : Nat) (h : Hb) : (s.setHb k h).late = s.late := rfl
@[simp] theorem State.setHb_probes (k : Nat) (h : Hb) : (s.setHb k h).probes = s.probes := rfl
@[simp] theorem State.setHb_txns (k : Nat) (h : Hb) : (s.setHb k h).txns = s.txns := rfl
@[simp] theorem State.setHb_notices (k : Nat) (h : Hb) : (s.setHb k h).notices = s.notices := rfl
@[simp] theorem State.setHb_prefs (k : Nat) (h : Hb) : (s.setHb k h).prefs = s.prefs := rfl
@[simp] theorem State.setHb_tenants (k : Nat) (h : Hb) : (s.setHb k h).tenants = s.tenants := rfl
@[simp] theorem State.setHb_migration (k : Nat) (h : Hb) : (s.setHb k h).migration = s.migration := rfl
@[simp] theorem State.setHb_mmio (k : Nat) (h : Hb) : (s.setHb k h).mmio = s.mmio := rfl
@[simp] theorem State.setHb_frQueue (k : Nat) (h : Hb) : (s.setHb k h).frQueue = s.frQueue := rfl
@[simp] theorem State.setHb_svQueue (k : Nat) (h : Hb) : (s.setHb k h).svQueue = s.svQueue := rfl
@[simp] theorem State.setHb_resReqs (k : Nat) (h : Hb) : (s.setHb k h).resReqs = s.resReqs := rfl
@[simp] theorem State.setHb_streams (k : Nat) (h : Hb) : (s.setHb k h).streams = s.streams := rfl
@[simp] theorem State.setHb_pe (k : Nat) (h : Hb) : (s.setHb k h).pe = s.pe := rfl
@[simp] theorem State.setHb_ck (k : Nat) (h : Hb) : (s.setHb k h).ck = s.ck := rfl
@[simp] theorem State.setHb_leases (k : Nat) (h : Hb) : (s.setHb k h).leases = s.leases := rfl
@[simp] theorem State.setHb_granted (k : Nat) (h : Hb) : (s.setHb k h).granted = s.granted := rfl
@[simp] theorem State.setHb_heldWr (k : Nat) (h : Hb) : (s.setHb k h).heldWr = s.heldWr := rfl
@[simp] theorem State.setHb_peerWaits (k : Nat) (h : Hb) : (s.setHb k h).peerWaits = s.peerWaits := rfl
@[simp] theorem State.setHb_heard (k : Nat) (h : Hb) : (s.setHb k h).heard = s.heard := rfl
@[simp] theorem State.setHb_portsUp (k : Nat) (h : Hb) : (s.setHb k h).portsUp = s.portsUp := rfl
@[simp] theorem State.setHb_lifecycle (k : Nat) (h : Hb) : (s.setHb k h).lifecycle = s.lifecycle := rfl
@[simp] theorem State.setHb_nonces (k : Nat) (h : Hb) : (s.setHb k h).nonces = s.nonces := rfl
@[simp] theorem State.setHb_nonceSeq (k : Nat) (h : Hb) : (s.setHb k h).nonceSeq = s.nonceSeq := rfl
@[simp] theorem State.setHb_rollback (k : Nat) (h : Hb) : (s.setHb k h).rollback = s.rollback := rfl
@[simp] theorem State.setHb_firmware (k : Nat) (h : Hb) : (s.setHb k h).firmware = s.firmware := rfl
@[simp] theorem State.setHb_meas3 (k : Nat) (h : Hb) : (s.setHb k h).meas3 = s.meas3 := rfl
@[simp] theorem State.setHb_romHold (k : Nat) (h : Hb) : (s.setHb k h).romHold = s.romHold := rfl
@[simp] theorem State.setHb_hbmTrained (k : Nat) (h : Hb) : (s.setHb k h).hbmTrained = s.hbmTrained := rfl
@[simp] theorem State.setHb_scrubEpoch (k : Nat) (h : Hb) : (s.setHb k h).scrubEpoch = s.scrubEpoch := rfl
@[simp] theorem State.setHb_linkUp (k : Nat) (h : Hb) : (s.setHb k h).linkUp = s.linkUp := rfl
@[simp] theorem State.setHb_powered (k : Nat) (h : Hb) : (s.setHb k h).powered = s.powered := rfl
@[simp] theorem State.setHb_refilled (k : Nat) (h : Hb) : (s.setHb k h).refilled = s.refilled := rfl

/-! ## The updated fields -/

@[simp] theorem State.updThread_threads (k : Nat) (f : Thread → Thread) : (s.updThread k f).threads = s.threads.upd k f := rfl
@[simp] theorem State.updBlock_blocks (b : Nat) (f : Block → Block) : (s.updBlock b f).blocks = s.blocks.upd b f := rfl
@[simp] theorem State.addOp_ops (o : Op) : (s.addOp o).ops = s.ops.put s.nextSeq o := rfl
@[simp] theorem State.setHb_hbs (k : Nat) (h : Hb) : (s.setHb k h).hbs = s.hbs.put k h := rfl
@[simp] theorem State.addOp_nextSeq (o : Op) : (s.addOp o).nextSeq = s.nextSeq + 1 := rfl

/-! ## Threads -/

@[simp] theorem Thread.queue_status (t : Thread) (w : PendingWrite) : (t.queue w).status = t.status := rfl
@[simp] theorem Thread.queue_regs (t : Thread) (w : PendingWrite) : (t.queue w).regs = t.regs := rfl
@[simp] theorem Thread.queue_preds (t : Thread) (w : PendingWrite) : (t.queue w).preds = t.preds := rfl
@[simp] theorem Thread.queue_flags (t : Thread) (w : PendingWrite) : (t.queue w).flags = t.flags := rfl
@[simp] theorem Thread.queue_marks (t : Thread) (w : PendingWrite) : (t.queue w).marks = t.marks := rfl
@[simp] theorem Thread.queue_pc (t : Thread) (w : PendingWrite) : (t.queue w).pc = t.pc := rfl
@[simp] theorem Thread.queue_n (t : Thread) (w : PendingWrite) : (t.queue w).n = t.n := rfl
@[simp] theorem Thread.queue_frec (t : Thread) (w : PendingWrite) : (t.queue w).frec = t.frec := rfl
@[simp] theorem Thread.queue_reissue (t : Thread) (w : PendingWrite) : (t.queue w).reissue = t.reissue := rfl
@[simp] theorem Thread.queue_hw (t : Thread) (w : PendingWrite) : (t.queue w).hw = t.hw := rfl
@[simp] theorem Thread.queue_depth (t : Thread) (w : PendingWrite) : (t.queue w).depth = t.depth := rfl
@[simp] theorem Thread.queue_blk (t : Thread) (w : PendingWrite) : (t.queue w).blk = t.blk := rfl

end Sys2Proof.Machine
end

