-- ==== Sys2Proof/Laws/Ops.lean ====
section
/-! SUPPORT. What the shared operations can do, said once: the issue of an instruction by a gang of one thread, fixed results, and
operations left outstanding (spec/02_one_thread.md R20-R36, spec/08_parallel_work.md R159-R162). -/

namespace Sys2Proof.Machine

variable {s : State} {k : Nat} {t : Thread} {q : Issue} {named reads : List Nat}

/-! ## Reading the gang -/

theorem State.Alone.thr (h : s.Alone k t) : s.thr k = t := by simp [State.thr, h.here]

theorem State.thr_of_find (h : s.threads.find k = some t) : s.thr k = t := by simp [State.thr, h]

theorem asyncFault_clean (h : ∀ r ∈ reads, t.marks.find r = none) : asyncFault t reads = none := by
  have : (List.range 64).find? (fun r => reads.contains r && (t.marks.find r).isSome) = none := by
    rw [List.find?_eq_none]
    intro r _ hr
    simp only [Bool.and_eq_true, List.contains_iff_mem] at hr
    simp [h r hr.1] at hr
  simp only [asyncFault, this]

/-! ## The issue -/

/-- THE ISSUE by one thread that executes: its body runs once; a result state is issued, a fault is raised for the thread. -/
theorem runGang_alone (h : s.Alone k t) (e : q.Executes t named reads) (adv : Bool) (body : Body) :
    s.runGang q named reads adv body =
      match body s k [k] with
      | .ok s1 => s1.issued q k s.nextSeq true adv
      | .error f => s.raiseAll [(k, t.pc, f)] := by
  have hthr := h.thr
  have hbad : (named.any fun r => decide (t.n ≤ r)) = false := by
    simpa [List.any_eq_false] using fun r hr => e.range r hr
  have hclean := asyncFault_clean e.clean
  have hdiff : differing s [k] reads = [] := by simp [differing]
  have hgr : groupsOf q [k] = [(k, [k])] := by unfold groupsOf; split <;> simp
  simp only [State.runGang, h.gang, List.filter_cons, List.filter_nil, hthr, hbad, e.guard, Bool.false_eq_true, ↓reduceIte,
    List.isEmpty_nil, Bool.not_true, List.foldl_nil, hgr, runGroups, hclean, hdiff]
  simp only [ite_self, List.isEmpty_nil, ↓reduceIte]
  cases body s k [k] with
  | ok s1 => simp [State.raiseAll]
  | error f => simp [State.raiseAll, hthr]

/-- A register at or above the count: REGRANGE, and nothing else happens (R20). -/
theorem runGang_regrange (h : s.Alone k t) {r : Nat} (hr : r ∈ named) (hn : t.n ≤ r) (adv : Bool) (body : Body) :
    s.runGang q named reads adv body = s.raiseAll [(k, t.pc, { cause := .regrange })] := by
  have hbad : (named.any fun r => decide (t.n ≤ r)) = true := by
    simp only [List.any_eq_true, decide_eq_true_eq]; exact ⟨r, hr, hn⟩
  simp [State.runGang, h.gang, h.thr, hbad]

/-- A false guard: the thread only moves on (R21, R34). -/
theorem runGang_skips (h : s.Alone k t) (hr : ∀ r ∈ named, r < t.n) (hg : q.holds t = false) (adv : Bool) (body : Body) :
    s.runGang q named reads adv body = s.issued q k s.nextSeq false true := by
  have hthr := h.thr
  have hbad : (named.any fun r => decide (t.n ≤ r)) = false := by
    simpa [List.any_eq_false] using fun r hm => hr r hm
  have hgr : groupsOf q [] = [] := by unfold groupsOf; split <;> simp
  simp [State.runGang, h.gang, hthr, hbad, hg, hgr, runGroups, State.raiseAll]

/-- A marked register that the instruction reads: ASYNC or UNCORR, and nothing else happens (R276, R357). -/
theorem runGang_async (h : s.Alone k t) (hr : ∀ r ∈ named, r < t.n) (hg : q.holds t = true) {f : FaultInfo}
    (hf : asyncFault t reads = some f) (adv : Bool) (body : Body) :
    s.runGang q named reads adv body = s.raiseAll [(k, t.pc, { f with reader := some k })] := by
  have hthr := h.thr
  have hbad : (named.any fun r => decide (t.n ≤ r)) = false := by
    simpa [List.any_eq_false] using fun r hm => hr r hm
  have hdiff : differing s [k] reads = [] := by simp [differing]
  have hgr : groupsOf q [k] = [(k, [k])] := by unfold groupsOf; split <;> simp
  simp only [State.runGang, h.gang, List.filter_cons, List.filter_nil, hthr, hbad, hg, Bool.false_eq_true, ↓reduceIte,
    List.isEmpty_nil, Bool.not_true, List.foldl_nil, hgr, runGroups, hf, hdiff]
  simp [State.raiseAll, hthr]

/-! ## What an issue leaves of the thread -/

theorem Thread.queueAll_status (t : Thread) (n c : Nat) (l : List Landing) : (t.queueAll n c l).status = t.status := by
  induction l generalizing t with
  | nil => rfl
  | cons x l ih => exact (ih _).trans rfl

theorem Thread.queueAll_pc (t : Thread) (n c : Nat) (l : List Landing) : (t.queueAll n c l).pc = t.pc := by
  induction l generalizing t with
  | nil => rfl
  | cons x l ih => exact (ih _).trans rfl

theorem State.landIn_eq (s : State) (k n c : Nat) (l : List Landing) : s.landIn k n c l = s.updThread k fun t => t.queueAll n c l := rfl

/-- The issue of a running thread. -/
theorem State.issued_run (s1 : State) {u : Thread} (hf : s1.threads.find k = some u) (hs : u.status = .run) (hc : s1.clk = s.clk)
    (hd : s1.draws = s.draws) (adv : Bool) :
    ∃ ts, s1.issued q k s.nextSeq true adv = { s1 with threads := ts } ∧
      Tbl.find ts k = some (u.succeeded.wentOn s q (if adv then u.past q else u.pc)) ∧ ∀ j, j ≠ k → Tbl.find ts j = s1.threads.find j := by
  refine ⟨_, rfl, ?_, fun j hj => Tbl.find_upd_other _ _ hj⟩
  rw [Tbl.find_upd_same, hf, Option.map_some]
  cases u with
  | mk =>
    subst hs
    rename_i reissue _
    cases hfl : q.flag <;> cases adv <;> cases reissue <;> simp [Thread.wentOn, Thread.succeeded, Thread.past, hfl, hc, hd, Thread.queue]

/-- The issue of a thread that its instruction holds. -/
theorem State.issued_sync (s1 : State) {u : Thread} {n : Nat} (hf : s1.threads.find k = some u) (hs : u.status = .sync n) (hc : s1.clk = s.clk)
    (hd : s1.draws = s.draws) :
    ∃ ts, s1.issued q k s.nextSeq true true = { s1 with threads := ts } ∧
      Tbl.find ts k = some (u.wentOn s q (u.past q)) ∧ ∀ j, j ≠ k → Tbl.find ts j = s1.threads.find j := by
  refine ⟨_, rfl, ?_, fun j hj => Tbl.find_upd_other _ _ hj⟩
  rw [Tbl.find_upd_same, hf, Option.map_some]
  cases u with
  | mk =>
    subst hs
    cases hfl : q.flag <;> simp [Thread.wentOn, Thread.past, hfl, hc, hd, Thread.queue]

/-! ## Fixed results -/

/-- A fixed-latency instruction of one thread (R31, R33). -/
theorem fixedOp_alone (h : s.Alone k t) (e : q.Executes t named reads) (lat : Nat) (f : Thread → List Landing) :
    ∃ ts, s.fixedOp q lat named reads f = { s.numbered with threads := ts } ∧ Tbl.find ts k = some (t.afterFixed s q lat (f t)) ∧
      ∀ j, j ≠ k → Tbl.find ts j = s.threads.find j := by
  unfold State.fixedOp
  rw [runGang_alone h e]
  simp only [h.thr]
  have hfind : ((s.fixed q lat [k] (f t)).threads).find k = some (t.queueAll s.nextSeq (s.clk + lat - 1) (f t ++ q.falls)) := by
    simp only [State.fixed, List.foldl_cons, List.foldl_nil, State.landIn_eq, State.updThread, Tbl.find_upd_same, h.here, Option.map_some]
    rfl
  obtain ⟨ts, h1, h2, h3⟩ := State.issued_run (s := s) (q := q) (s.fixed q lat [k] (f t)) hfind
    (by rw [Thread.queueAll_status]; exact e.runs) rfl rfl true
  refine ⟨ts, ?_, ?_, fun j hj => ?_⟩
  · rw [h1]; rfl
  · rw [h2]; simp [Thread.afterFixed, Thread.past, Thread.queueAll_pc]
  · rw [h3 j hj]
    simp only [State.fixed, List.foldl_cons, List.foldl_nil, State.landIn_eq, State.updThread]
    exact Tbl.find_upd_other _ _ hj

/-- An instruction whose meaning is a fixed-latency operation gives the thread its results. -/
theorem gives_fixed {i : Instr} (lat : Nat) (f : Thread → List Landing) (hx : exec i s = .next (s.fixedOp q lat named reads f))
    (h : s.Alone k t) (e : q.Executes t named reads) : s.Gives i k (t.afterFixed s q lat (f t)) s.numbered := by
  obtain ⟨ts, h1, h2, h3⟩ := fixedOp_alone h e lat f
  exact ⟨ts, by rw [hx, h1], h2, h3⟩

/-! ## Operations left outstanding -/

/-- An operation left outstanding by one thread, after changes s1 of the state that leave its thread, clk and numbers (R33, R35). -/
theorem startOp_issued (s1 : State) (p : Pending) (hf : s1.threads.find k = some t) (hrun : t.status = .run)
    (hc : s1.clk = s.clk) (hd : s1.draws = s.draws) (hn : s1.nextSeq = s.nextSeq) (ho : s1.ops = s.ops) (hi : s1.inst = s.inst) :
    ∃ ts, (s1.startOp q p.sync p.ord k [k] p.lat p.kind p.also).issued q k s.nextSeq true true =
        { s1 with threads := ts, ops := s.ops.put s.nextSeq (p.op s q k t), nextSeq := s.nextSeq + 1 } ∧
      Tbl.find ts k = some (t.afterOp s q p) ∧ ∀ j, j ≠ k → Tbl.find ts j = s1.threads.find j := by
  have hthr : s1.thr k = t := State.thr_of_find hf
  cases hsync : p.sync with
  | false =>
    have hfind : (s1.startOp q false p.ord k [k] p.lat p.kind p.also).threads.find k = some t := by
      simpa [State.startOp] using hf
    obtain ⟨ts, h1, h2, h3⟩ := State.issued_run (s := s) (q := q) (s1.startOp q false p.ord k [k] p.lat p.kind p.also) hfind hrun
      (by simpa [State.startOp] using hc) (by simpa [State.startOp] using hd) true
    refine ⟨ts, ?_, ?_, fun j hj => ?_⟩
    · rw [h1]; simp [State.startOp, State.addOp, Pending.op, hthr, hc, hn, ho, hi, hsync]
    · rw [h2]; simp [Thread.afterOp, hsync]
    · rw [h3 j hj]; simp [State.startOp]
  | true =>
    have hfind : (s1.startOp q true p.ord k [k] p.lat p.kind p.also).threads.find k = some { t with status := .sync s.nextSeq } := by
      simp [State.startOp, hf, hn]
    obtain ⟨ts, h1, h2, h3⟩ := State.issued_sync (s := s) (q := q) (s1.startOp q true p.ord k [k] p.lat p.kind p.also) hfind rfl
      (by simpa [State.startOp] using hc) (by simpa [State.startOp] using hd)
    refine ⟨ts, ?_, ?_, fun j hj => ?_⟩
    · rw [h1]; simp [State.startOp, State.addOp, State.updThread, Pending.op, hthr, hc, hn, ho, hi, hsync]
    · rw [h2]; simp [Thread.afterOp, hsync, Thread.past]
    · rw [h3 j hj]; simp [State.startOp, Tbl.find_upd_other _ _ hj]

/-- What an instruction has changed before its operation stands: not the threads, the clk, the numbers or the operations. -/
structure State.Kept (s s1 : State) : Prop where
  threads : s1.threads = s.threads
  clk     : s1.clk = s.clk
  draws   : s1.draws = s.draws
  nextSeq : s1.nextSeq = s.nextSeq
  ops     : s1.ops = s.ops
  inst    : s1.inst = s.inst

theorem State.Kept.refl (s : State) : s.Kept s := ⟨rfl, rfl, rfl, rfl, rfl, rfl⟩

theorem State.Kept.useRegion (s : State) (r : Nat) : s.Kept (s.useRegion r) := ⟨rfl, rfl, rfl, rfl, rfl, rfl⟩

theorem State.Kept.cacheLeaf (s : State) (ag : Agent) (ctx va : Nat) (l : Leaf) : s.Kept (s.cacheLeaf ag ctx va l) := by
  unfold State.cacheLeaf
  dsimp only
  split <;> split <;> exact ⟨rfl, rfl, rfl, rfl, rfl, rfl⟩

theorem State.Kept.trans {a b c : State} (h : a.Kept b) (g : b.Kept c) : a.Kept c :=
  ⟨g.threads.trans h.threads, g.clk.trans h.clk, g.draws.trans h.draws, g.nextSeq.trans h.nextSeq, g.ops.trans h.ops, g.inst.trans h.inst⟩

theorem State.Kept.classTouch (s : State) (d ctx pa : Nat) : s.Kept (s.classTouch d ctx pa) := by
  unfold State.classTouch
  split
  · exact ⟨rfl, rfl, rfl, rfl, rfl, rfl⟩
  · exact State.Kept.refl s

theorem State.Kept.classServe (s : State) (d pa : Nat) (write : Bool) : s.Kept (s.classServe d pa write) := by
  unfold State.classServe
  split
  · exact State.Kept.refl s
  · exact ⟨rfl, rfl, rfl, rfl, rfl, rfl⟩

theorem State.Kept.foldl {β : Type} (f : State → β → State) (hf : ∀ x b, State.Kept x (f x b)) (s : State) (l : List β) : s.Kept (l.foldl f s) := by
  induction l generalizing s with
  | nil => exact State.Kept.refl s
  | cons b l ih => exact (hf s b).trans (ih _)

theorem State.Kept.walked (s : State) (k ctx va : Nat) : s.Kept (s.walked k ctx va) :=
  State.Kept.foldl _ (fun x pa => (State.Kept.classServe x _ pa false).trans (State.Kept.classTouch _ _ _ _)) s _

theorem State.Kept.used (s : State) (k : Nat) (t : Thread) (a : Word) : s.Kept (s.used k t a) := by
  unfold State.used
  split
  · exact (State.Kept.walked s _ _ _).trans (State.Kept.cacheLeaf _ _ _ _ _)
  · exact State.Kept.refl s

theorem State.Kept.dropPeerCopy (s : State) (pa : Nat) : s.Kept (s.dropPeerCopy pa) := by
  unfold State.dropPeerCopy
  split
  · exact ⟨rfl, rfl, rfl, rfl, rfl, rfl⟩
  · exact State.Kept.refl s

theorem State.Kept.closeIdem (s : State) (k : Nat) : s.Kept (s.closeIdem k) := ⟨rfl, rfl, rfl, rfl, rfl, rfl⟩

/-- An instruction whose meaning leaves an operation outstanding, after changes s1. -/
theorem gives_op {i : Instr} {body : Body} (p : Pending) (s1 : State) (hx : exec i s = .next (s.runGang q named reads true body))
    (hb : body s k [k] = .ok (s1.startOp q p.sync p.ord k [k] p.lat p.kind p.also)) (h : s.Alone k t) (e : q.Executes t named reads)
    (hk : s.Kept s1) : s.Gives i k (t.afterOp s q p) (s1.withOp q k t p) := by
  obtain ⟨ts, h1, h2, h3⟩ := startOp_issued (s := s) (q := q) (k := k) (t := t) s1 p (by rw [hk.threads]; exact h.here) e.runs hk.clk hk.draws hk.nextSeq hk.ops hk.inst
  refine ⟨ts, ?_, h2, fun j hj => ?_⟩
  · rw [hx, runGang_alone h e, hb]
    simp only [h1, State.withOp, Pending.op, hk.clk, hk.inst, hk.nextSeq, hk.ops]
  · rw [h3 j hj]; rfl

/-- A thread's own fault at issue, where it sets no watchpoint bit and reports no register's mark: it takes the fault (R356). -/
theorem raiseAll_one (s : State) (k : Nat) (pc : Pc) (f : FaultInfo) (hh : f.hits = 0) (hi : f.reader = none) :
    s.raiseAll [(k, pc, f)] = s.takeFault k pc s.inst (2 ^ laneOf k) f := by
  simp [State.raiseAll, hh, hi, laneMask]

/-! ## Reads of the package's own memory -/

/-- What another owner may have stored changes nothing of device memory (R245, R246). -/
theorem State.outsideStore_own (s : State) {pa : Nat} (n : Nat) (h : isHost pa = false) (p : isPeer pa = false) : s.outsideStore pa n = s := by
  simp [State.outsideStore, h, p]

theorem State.fromOwner_own (s : State) (o : Op) (a : Access) (h : isHost (s.paNow a) = false) (p : isPeer a.pa = false) : s.fromOwner o a = s := by
  simp [State.fromOwner, State.fromHost, h, p]

end Sys2Proof.Machine
end

