-- ==== Sys2Proof/Laws/PerInstr.lean ====
section
/-! SUPPORT. A law made per instruction: an encoding has no bits past the length that its first parcel states (R64). -/

namespace Sys2Proof.Laws.Length

/-- The bits of an encoded instruction end where the length in its first parcel says. -/
def Statement (i : Instr) : Prop := ∀ w, encode i = some w → w.toNat < 2 ^ (8 * lengthOf (w.setWidth 16))

theorem lengthOf_eq (p : BitVec 16) :
    lengthOf p = if p.getLsbD 0 = false then 2 else if p.getLsbD 1 = false then 4 else 8 := by
  have h1 : p.extractLsb' 0 1 = 0#1 ↔ p.getLsbD 0 = false := by
    constructor
    · intro h; have := congrArg (·.getLsbD 0) h; simpa using this
    · intro h; ext i hi; obtain rfl : i = 0 := by omega
      simpa using h
  have h2 : p.getLsbD 0 = true → (p.extractLsb' 0 2 = 1#2 ↔ p.getLsbD 1 = false) := by
    intro h0
    constructor
    · intro h; have := congrArg (·.getLsbD 1) h; simpa using this
    · intro h; ext i hi
      obtain rfl | rfl : i = 0 ∨ i = 1 := by omega
      · simpa using h0
      · simpa using h
  unfold lengthOf
  simp only [beq_iff_eq, h1]
  by_cases h0 : p.getLsbD 0 = false
  · rw [if_pos h0, if_pos h0]
  · rw [if_neg h0, if_neg h0]
    simp only [h2 (by simpa using h0)]

/-- The two lowest bits of a word decide its length. -/
theorem lengthOf_word (w : BitVec 64) :
    lengthOf (w.setWidth 16) = if w.getLsbD 0 = false then 2 else if w.getLsbD 1 = false then 4 else 8 := by
  simp [lengthOf_eq]

/-- A bit of the low part of two parts. -/
theorem low_part {n m : Nat} (x : BitVec n) (y : BitVec m) {i : Nat} (h : i < m) : (x ++ y).getLsbD i = y.getLsbD i := by
  simp [BitVec.getLsbD_append, h]

/-- Two parts are no wider than their widths say. -/
theorem part_lt {n m a : Nat} (x : BitVec n) (y : BitVec m) (h : x.toNat < 2 ^ a) : (x ++ y).toNat < 2 ^ (a + m) := by
  rw [BitVec.toNat_append, Nat.shiftLeft_eq, Nat.mul_comm, ← Nat.two_pow_add_eq_or_of_lt y.isLt, Nat.pow_add]
  have := y.isLt
  nlinarith [Nat.two_pow_pos m]

theorem low16 (op : BitVec 4) (st : Bool) (vd vb : BitVec 5) :
    (enc16 op st vd vb).toNat < 2 ^ (8 * lengthOf ((enc16 op st vd vb).setWidth 16)) := by
  have h : (enc16 op st vd vb).getLsbD 0 = false := low_part _ _ (by omega)
  rw [lengthOf_word, if_pos h]
  exact part_lt (a := 15) _ _ (part_lt (a := 11) _ _ (part_lt (a := 10) _ _ (part_lt (a := 5) _ _ (part_lt (a := 0) _ _ (by simp)))))

theorem low32 (op : BitVec 8) (k : Ctl32) (hi mid lo : BitVec 6) :
    (enc32 op k hi mid lo).toNat < 2 ^ (8 * lengthOf ((enc32 op k hi mid lo).setWidth 16)) := by
  have h0 : (enc32 op k hi mid lo).getLsbD 0 = true := low_part _ _ (by omega)
  have h1 : (enc32 op k hi mid lo).getLsbD 1 = false := low_part _ _ (by omega)
  rw [lengthOf_word, h0, h1]
  exact part_lt (a := 30) _ _ (part_lt (a := 29) _ _ (part_lt (a := 26) _ _ (part_lt (a := 18) _ _
    (part_lt (a := 12) _ _ (part_lt (a := 6) _ _ (part_lt (a := 0) _ _ (by simp)))))))

theorem low64 (op : BitVec 8) (c : Ctl) (p : BitVec 30) :
    (enc64 op c p).toNat < 2 ^ (8 * lengthOf ((enc64 op c p).setWidth 16)) := by
  have h0 : (enc64 op c p).getLsbD 0 = true := low_part _ _ (by omega)
  have h1 : (enc64 op c p).getLsbD 1 = true := low_part _ _ (by omega)
  rw [lengthOf_word, h0, h1]
  exact (enc64 op c p).isLt

/-- An encoding that some format law bounds. -/
theorem of_bound {i : Instr} {x : BitVec 64} (h : encode i = some x) (b : x.toNat < 2 ^ (8 * lengthOf (x.setWidth 16))) : Statement i := by
  intro w hw
  rw [h] at hw
  cases hw
  exact b

/-- What no encoding names has no bits. -/
theorem of_none {i : Instr} (h : encode i = none) : Statement i := fun w hw => by simp [h] at hw

theorem c16Mov (st : Bool) (vd vb : BitVec 5) : Statement (.c16Mov st vd vb) := of_bound rfl (low16 _ _ _ _)
theorem c16Movi (st : Bool) (vd : BitVec 5) (imm : BitVec 5) : Statement (.c16Movi st vd imm) := of_bound rfl (low16 _ _ _ _)
theorem c16Add (st : Bool) (vd vb : BitVec 5) : Statement (.c16Add st vd vb) := of_bound rfl (low16 _ _ _ _)
theorem c16Sub (st : Bool) (vd vb : BitVec 5) : Statement (.c16Sub st vd vb) := of_bound rfl (low16 _ _ _ _)
theorem c16Addi (st : Bool) (vd : BitVec 5) (imm : BitVec 5) : Statement (.c16Addi st vd imm) := of_bound rfl (low16 _ _ _ _)
theorem c16And (st : Bool) (vd vb : BitVec 5) : Statement (.c16And st vd vb) := of_bound rfl (low16 _ _ _ _)
theorem c16Or (st : Bool) (vd vb : BitVec 5) : Statement (.c16Or st vd vb) := of_bound rfl (low16 _ _ _ _)
theorem c16Xor (st : Bool) (vd vb : BitVec 5) : Statement (.c16Xor st vd vb) := of_bound rfl (low16 _ _ _ _)
theorem c16Shli (st : Bool) (vd : BitVec 5) (imm : BitVec 5) : Statement (.c16Shli st vd imm) := of_bound rfl (low16 _ _ _ _)
theorem c16Shri (st : Bool) (vd : BitVec 5) (imm : BitVec 5) : Statement (.c16Shri st vd imm) := of_bound rfl (low16 _ _ _ _)
theorem c16Sari (st : Bool) (vd : BitVec 5) (imm : BitVec 5) : Statement (.c16Sari st vd imm) := of_bound rfl (low16 _ _ _ _)
theorem c16FaddD (st : Bool) (vd vb : BitVec 5) : Statement (.c16FaddD st vd vb) := of_bound rfl (low16 _ _ _ _)
theorem c16FsubD (st : Bool) (vd vb : BitVec 5) : Statement (.c16FsubD st vd vb) := of_bound rfl (low16 _ _ _ _)
theorem c16FmulD (st : Bool) (vd vb : BitVec 5) : Statement (.c16FmulD st vd vb) := of_bound rfl (low16 _ _ _ _)
theorem c16FminD (st : Bool) (vd vb : BitVec 5) : Statement (.c16FminD st vd vb) := of_bound rfl (low16 _ _ _ _)
theorem c16FmaxD (st : Bool) (vd vb : BitVec 5) : Statement (.c16FmaxD st vd vb) := of_bound rfl (low16 _ _ _ _)
theorem i32Add (k : Ctl32) (vd va vb : Reg) : Statement (.i32Add k vd va vb) := of_bound rfl (low32 _ _ _ _ _)
theorem i32Sub (k : Ctl32) (vd va vb : Reg) : Statement (.i32Sub k vd va vb) := of_bound rfl (low32 _ _ _ _ _)
theorem i32Mul (k : Ctl32) (vd va vb : Reg) : Statement (.i32Mul k vd va vb) := of_bound rfl (low32 _ _ _ _ _)
theorem i32MulhS64 (k : Ctl32) (vd va vb : Reg) : Statement (.i32MulhS64 k vd va vb) := of_bound rfl (low32 _ _ _ _ _)
theorem i32MulhN64 (k : Ctl32) (vd va vb : Reg) : Statement (.i32MulhN64 k vd va vb) := of_bound rfl (low32 _ _ _ _ _)
theorem i32MinS64 (k : Ctl32) (vd va vb : Reg) : Statement (.i32MinS64 k vd va vb) := of_bound rfl (low32 _ _ _ _ _)
theorem i32MinN64 (k : Ctl32) (vd va vb : Reg) : Statement (.i32MinN64 k vd va vb) := of_bound rfl (low32 _ _ _ _ _)
theorem i32MaxS64 (k : Ctl32) (vd va vb : Reg) : Statement (.i32MaxS64 k vd va vb) := of_bound rfl (low32 _ _ _ _ _)
theorem i32MaxN64 (k : Ctl32) (vd va vb : Reg) : Statement (.i32MaxN64 k vd va vb) := of_bound rfl (low32 _ _ _ _ _)
theorem i32AbsS64 (k : Ctl32) (vd va : Reg) : Statement (.i32AbsS64 k vd va) := of_bound rfl (low32 _ _ _ _ _)
theorem i32Neg (k : Ctl32) (vd va : Reg) : Statement (.i32Neg k vd va) := of_bound rfl (low32 _ _ _ _ _)
theorem i32And (k : Ctl32) (vd va vb : Reg) : Statement (.i32And k vd va vb) := of_bound rfl (low32 _ _ _ _ _)
theorem i32Andn (k : Ctl32) (vd va vb : Reg) : Statement (.i32Andn k vd va vb) := of_bound rfl (low32 _ _ _ _ _)
theorem i32Or (k : Ctl32) (vd va vb : Reg) : Statement (.i32Or k vd va vb) := of_bound rfl (low32 _ _ _ _ _)
theorem i32Xor (k : Ctl32) (vd va vb : Reg) : Statement (.i32Xor k vd va vb) := of_bound rfl (low32 _ _ _ _ _)
theorem i32Not (k : Ctl32) (vd va : Reg) : Statement (.i32Not k vd va) := of_bound rfl (low32 _ _ _ _ _)
theorem i32Shl (k : Ctl32) (vd va vb : Reg) : Statement (.i32Shl k vd va vb) := of_bound rfl (low32 _ _ _ _ _)
theorem i32Shr (k : Ctl32) (vd va vb : Reg) : Statement (.i32Shr k vd va vb) := of_bound rfl (low32 _ _ _ _ _)
theorem i32Sar (k : Ctl32) (vd va vb : Reg) : Statement (.i32Sar k vd va vb) := of_bound rfl (low32 _ _ _ _ _)
theorem i32Rot (k : Ctl32) (vd va vb : Reg) : Statement (.i32Rot k vd va vb) := of_bound rfl (low32 _ _ _ _ _)
theorem i32Shli (k : Ctl32) (vd va : Reg) (imm : BitVec 6) : Statement (.i32Shli k vd va imm) := of_bound rfl (low32 _ _ _ _ _)
theorem i32Shri (k : Ctl32) (vd va : Reg) (imm : BitVec 6) : Statement (.i32Shri k vd va imm) := of_bound rfl (low32 _ _ _ _ _)
theorem i32Sari (k : Ctl32) (vd va : Reg) (imm : BitVec 6) : Statement (.i32Sari k vd va imm) := of_bound rfl (low32 _ _ _ _ _)
theorem i32Popc (k : Ctl32) (vd va : Reg) : Statement (.i32Popc k vd va) := of_bound rfl (low32 _ _ _ _ _)
theorem i32Clz (k : Ctl32) (vd va : Reg) : Statement (.i32Clz k vd va) := of_bound rfl (low32 _ _ _ _ _)
theorem i32Ctz (k : Ctl32) (vd va : Reg) : Statement (.i32Ctz k vd va) := of_bound rfl (low32 _ _ _ _ _)
theorem i32Brev (k : Ctl32) (vd va : Reg) : Statement (.i32Brev k vd va) := of_bound rfl (low32 _ _ _ _ _)
theorem i32Addi (k : Ctl32) (vd va : Reg) (imm : BitVec 6) : Statement (.i32Addi k vd va imm) := of_bound rfl (low32 _ _ _ _ _)
theorem i32FaddD (k : Ctl32) (vd va vb : Reg) : Statement (.i32FaddD k vd va vb) := of_bound rfl (low32 _ _ _ _ _)
theorem i32FsubD (k : Ctl32) (vd va vb : Reg) : Statement (.i32FsubD k vd va vb) := of_bound rfl (low32 _ _ _ _ _)
theorem i32FmulD (k : Ctl32) (vd va vb : Reg) : Statement (.i32FmulD k vd va vb) := of_bound rfl (low32 _ _ _ _ _)
theorem i32FminD (k : Ctl32) (vd va vb : Reg) : Statement (.i32FminD k vd va vb) := of_bound rfl (low32 _ _ _ _ _)
theorem i32FmaxD (k : Ctl32) (vd va vb : Reg) : Statement (.i32FmaxD k vd va vb) := of_bound rfl (low32 _ _ _ _ _)
theorem i32FabsD (k : Ctl32) (vd va : Reg) : Statement (.i32FabsD k vd va) := of_bound rfl (low32 _ _ _ _ _)
theorem i32FnegD (k : Ctl32) (vd va : Reg) : Statement (.i32FnegD k vd va) := of_bound rfl (low32 _ _ _ _ _)
theorem i32FaddF (k : Ctl32) (vd va vb : Reg) : Statement (.i32FaddF k vd va vb) := of_bound rfl (low32 _ _ _ _ _)
theorem i32FsubF (k : Ctl32) (vd va vb : Reg) : Statement (.i32FsubF k vd va vb) := of_bound rfl (low32 _ _ _ _ _)
theorem i32FmulF (k : Ctl32) (vd va vb : Reg) : Statement (.i32FmulF k vd va vb) := of_bound rfl (low32 _ _ _ _ _)
theorem i32FminF (k : Ctl32) (vd va vb : Reg) : Statement (.i32FminF k vd va vb) := of_bound rfl (low32 _ _ _ _ _)
theorem i32FmaxF (k : Ctl32) (vd va vb : Reg) : Statement (.i32FmaxF k vd va vb) := of_bound rfl (low32 _ _ _ _ _)
theorem i32FabsF (k : Ctl32) (vd va : Reg) : Statement (.i32FabsF k vd va) := of_bound rfl (low32 _ _ _ _ _)
theorem i32FnegF (k : Ctl32) (vd va : Reg) : Statement (.i32FnegF k vd va) := of_bound rfl (low32 _ _ _ _ _)
theorem i32FclassD (k : Ctl32) (vd va : Reg) : Statement (.i32FclassD k vd va) := of_bound rfl (low32 _ _ _ _ _)
theorem i32FgetexpD (k : Ctl32) (vd va : Reg) : Statement (.i32FgetexpD k vd va) := of_bound rfl (low32 _ _ _ _ _)
theorem i32FgetmanD (k : Ctl32) (vd va : Reg) : Statement (.i32FgetmanD k vd va) := of_bound rfl (low32 _ _ _ _ _)
theorem i32FclassF (k : Ctl32) (vd va : Reg) : Statement (.i32FclassF k vd va) := of_bound rfl (low32 _ _ _ _ _)
theorem i32FgetexpF (k : Ctl32) (vd va : Reg) : Statement (.i32FgetexpF k vd va) := of_bound rfl (low32 _ _ _ _ _)
theorem i32FgetmanF (k : Ctl32) (vd va : Reg) : Statement (.i32FgetmanF k vd va) := of_bound rfl (low32 _ _ _ _ _)
theorem i32SetpEq (k : Ctl32) (pd : PReg) (va vb : Reg) : Statement (.i32SetpEq k pd va vb) := of_bound rfl (low32 _ _ _ _ _)
theorem i32SetpNe (k : Ctl32) (pd : PReg) (va vb : Reg) : Statement (.i32SetpNe k pd va vb) := of_bound rfl (low32 _ _ _ _ _)
theorem i32SetpLtS64 (k : Ctl32) (pd : PReg) (va vb : Reg) : Statement (.i32SetpLtS64 k pd va vb) := of_bound rfl (low32 _ _ _ _ _)
theorem i32SetpLeS64 (k : Ctl32) (pd : PReg) (va vb : Reg) : Statement (.i32SetpLeS64 k pd va vb) := of_bound rfl (low32 _ _ _ _ _)
theorem i32SetpLtN64 (k : Ctl32) (pd : PReg) (va vb : Reg) : Statement (.i32SetpLtN64 k pd va vb) := of_bound rfl (low32 _ _ _ _ _)
theorem i32SetpLeN64 (k : Ctl32) (pd : PReg) (va vb : Reg) : Statement (.i32SetpLeN64 k pd va vb) := of_bound rfl (low32 _ _ _ _ _)
theorem i32FsetpEqD (k : Ctl32) (pd : PReg) (va vb : Reg) : Statement (.i32FsetpEqD k pd va vb) := of_bound rfl (low32 _ _ _ _ _)
theorem i32FsetpNeD (k : Ctl32) (pd : PReg) (va vb : Reg) : Statement (.i32FsetpNeD k pd va vb) := of_bound rfl (low32 _ _ _ _ _)
theorem i32FsetpLtD (k : Ctl32) (pd : PReg) (va vb : Reg) : Statement (.i32FsetpLtD k pd va vb) := of_bound rfl (low32 _ _ _ _ _)
theorem i32FsetpLeD (k : Ctl32) (pd : PReg) (va vb : Reg) : Statement (.i32FsetpLeD k pd va vb) := of_bound rfl (low32 _ _ _ _ _)
theorem i32FsetpUnD (k : Ctl32) (pd : PReg) (va vb : Reg) : Statement (.i32FsetpUnD k pd va vb) := of_bound rfl (low32 _ _ _ _ _)
theorem i32FsetpEqF (k : Ctl32) (pd : PReg) (va vb : Reg) : Statement (.i32FsetpEqF k pd va vb) := of_bound rfl (low32 _ _ _ _ _)
theorem i32FsetpNeF (k : Ctl32) (pd : PReg) (va vb : Reg) : Statement (.i32FsetpNeF k pd va vb) := of_bound rfl (low32 _ _ _ _ _)
theorem i32FsetpLtF (k : Ctl32) (pd : PReg) (va vb : Reg) : Statement (.i32FsetpLtF k pd va vb) := of_bound rfl (low32 _ _ _ _ _)
theorem i32FsetpLeF (k : Ctl32) (pd : PReg) (va vb : Reg) : Statement (.i32FsetpLeF k pd va vb) := of_bound rfl (low32 _ _ _ _ _)
theorem i32FsetpUnF (k : Ctl32) (pd : PReg) (va vb : Reg) : Statement (.i32FsetpUnF k pd va vb) := of_bound rfl (low32 _ _ _ _ _)
theorem pand (k : Ctl32) (pd pa pb : PReg) : Statement (.pand k pd pa pb) := of_bound rfl (low32 _ _ _ _ _)
theorem por (k : Ctl32) (pd pa pb : PReg) : Statement (.por k pd pa pb) := of_bound rfl (low32 _ _ _ _ _)
theorem pxor (k : Ctl32) (pd pa pb : PReg) : Statement (.pxor k pd pa pb) := of_bound rfl (low32 _ _ _ _ _)
theorem pnot (k : Ctl32) (pd pa : PReg) : Statement (.pnot k pd pa) := of_bound rfl (low32 _ _ _ _ _)
theorem p2v (k : Ctl32) (vd : Reg) : Statement (.p2v k vd) := of_bound rfl (low32 _ _ _ _ _)
theorem v2p (k : Ctl32) (va : Reg) : Statement (.v2p k va) := of_bound rfl (low32 _ _ _ _ _)
theorem i32Mov (k : Ctl32) (vd va : Reg) : Statement (.i32Mov k vd va) := of_bound rfl (low32 _ _ _ _ _)
theorem i32Movi (k : Ctl32) (vd : Reg) (imm : BitVec 12) : Statement (.i32Movi k vd imm) := of_bound rfl (low32 _ _ _ _ _)
theorem i32FcvtDF (k : Ctl32) (vd va : Reg) : Statement (.i32FcvtDF k vd va) := of_bound rfl (low32 _ _ _ _ _)
theorem i32FcvtFD (k : Ctl32) (vd va : Reg) : Statement (.i32FcvtFD k vd va) := of_bound rfl (low32 _ _ _ _ _)
theorem i32I2fDS64 (k : Ctl32) (vd va : Reg) : Statement (.i32I2fDS64 k vd va) := of_bound rfl (low32 _ _ _ _ _)
theorem i32I2fDN64 (k : Ctl32) (vd va : Reg) : Statement (.i32I2fDN64 k vd va) := of_bound rfl (low32 _ _ _ _ _)
theorem i32F2iS64D (k : Ctl32) (vd va : Reg) : Statement (.i32F2iS64D k vd va) := of_bound rfl (low32 _ _ _ _ _)
theorem i32F2iN64D (k : Ctl32) (vd va : Reg) : Statement (.i32F2iN64D k vd va) := of_bound rfl (low32 _ _ _ _ _)
theorem i64Add (c : Ctl) (w : Width) (sx : Bool) (vd va vb : Reg) : Statement (.i64Add c w sx vd va vb) := of_bound rfl (low64 _ _ _)
theorem i64Sub (c : Ctl) (w : Width) (sx : Bool) (vd va vb : Reg) : Statement (.i64Sub c w sx vd va vb) := of_bound rfl (low64 _ _ _)
theorem i64Mul (c : Ctl) (w : Width) (sx : Bool) (vd va vb : Reg) : Statement (.i64Mul c w sx vd va vb) := of_bound rfl (low64 _ _ _)
theorem i64MulhS (c : Ctl) (w : Width) (sx : Bool) (vd va vb : Reg) : Statement (.i64MulhS c w sx vd va vb) := of_bound rfl (low64 _ _ _)
theorem i64MulhN (c : Ctl) (w : Width) (sx : Bool) (vd va vb : Reg) : Statement (.i64MulhN c w sx vd va vb) := of_bound rfl (low64 _ _ _)
theorem i64MinS (c : Ctl) (w : Width) (sx : Bool) (vd va vb : Reg) : Statement (.i64MinS c w sx vd va vb) := of_bound rfl (low64 _ _ _)
theorem i64MinN (c : Ctl) (w : Width) (sx : Bool) (vd va vb : Reg) : Statement (.i64MinN c w sx vd va vb) := of_bound rfl (low64 _ _ _)
theorem i64MaxS (c : Ctl) (w : Width) (sx : Bool) (vd va vb : Reg) : Statement (.i64MaxS c w sx vd va vb) := of_bound rfl (low64 _ _ _)
theorem i64MaxN (c : Ctl) (w : Width) (sx : Bool) (vd va vb : Reg) : Statement (.i64MaxN c w sx vd va vb) := of_bound rfl (low64 _ _ _)
theorem i64Abs (c : Ctl) (w : Width) (sx : Bool) (vd va : Reg) : Statement (.i64Abs c w sx vd va) := of_bound rfl (low64 _ _ _)
theorem i64Neg (c : Ctl) (w : Width) (sx : Bool) (vd va : Reg) : Statement (.i64Neg c w sx vd va) := of_bound rfl (low64 _ _ _)
theorem i64And (c : Ctl) (w : Width) (sx : Bool) (vd va vb : Reg) : Statement (.i64And c w sx vd va vb) := of_bound rfl (low64 _ _ _)
theorem i64Andn (c : Ctl) (w : Width) (sx : Bool) (vd va vb : Reg) : Statement (.i64Andn c w sx vd va vb) := of_bound rfl (low64 _ _ _)
theorem i64Or (c : Ctl) (w : Width) (sx : Bool) (vd va vb : Reg) : Statement (.i64Or c w sx vd va vb) := of_bound rfl (low64 _ _ _)
theorem i64Xor (c : Ctl) (w : Width) (sx : Bool) (vd va vb : Reg) : Statement (.i64Xor c w sx vd va vb) := of_bound rfl (low64 _ _ _)
theorem i64Not (c : Ctl) (w : Width) (sx : Bool) (vd va : Reg) : Statement (.i64Not c w sx vd va) := of_bound rfl (low64 _ _ _)
theorem i64Shl (c : Ctl) (w : Width) (sx : Bool) (vd va vb : Reg) : Statement (.i64Shl c w sx vd va vb) := of_bound rfl (low64 _ _ _)
theorem i64Shr (c : Ctl) (w : Width) (sx : Bool) (vd va vb : Reg) : Statement (.i64Shr c w sx vd va vb) := of_bound rfl (low64 _ _ _)
theorem i64Sar (c : Ctl) (w : Width) (sx : Bool) (vd va vb : Reg) : Statement (.i64Sar c w sx vd va vb) := of_bound rfl (low64 _ _ _)
theorem i64Rot (c : Ctl) (w : Width) (sx : Bool) (vd va vb : Reg) : Statement (.i64Rot c w sx vd va vb) := of_bound rfl (low64 _ _ _)
theorem i64Popc (c : Ctl) (w : Width) (sx : Bool) (vd va : Reg) : Statement (.i64Popc c w sx vd va) := of_bound rfl (low64 _ _ _)
theorem i64Clz (c : Ctl) (w : Width) (sx : Bool) (vd va : Reg) : Statement (.i64Clz c w sx vd va) := of_bound rfl (low64 _ _ _)
theorem i64Ctz (c : Ctl) (w : Width) (sx : Bool) (vd va : Reg) : Statement (.i64Ctz c w sx vd va) := of_bound rfl (low64 _ _ _)
theorem i64Brev (c : Ctl) (w : Width) (sx : Bool) (vd va : Reg) : Statement (.i64Brev c w sx vd va) := of_bound rfl (low64 _ _ _)
theorem i64Shli (c : Ctl) (w : Width) (amt : BitVec 6) (vd va : Reg) : Statement (.i64Shli c w amt vd va) := of_bound rfl (low64 _ _ _)
theorem i64Shri (c : Ctl) (w : Width) (amt : BitVec 6) (vd va : Reg) : Statement (.i64Shri c w amt vd va) := of_bound rfl (low64 _ _ _)
theorem i64Sari (c : Ctl) (w : Width) (amt : BitVec 6) (vd va : Reg) : Statement (.i64Sari c w amt vd va) := of_bound rfl (low64 _ _ _)
theorem i64Addi (c : Ctl) (imm : BitVec 18) (vd va : Reg) : Statement (.i64Addi c imm vd va) := of_bound rfl (low64 _ _ _)
theorem mad (c : Ctl) (w : Width) (sx : Bool) (vd va vb vc : Reg) : Statement (.mad c w sx vd va vb vc) := of_bound rfl (low64 _ _ _)
theorem lea (c : Ctl) (sh : BitVec 3) (vd va vb : Reg) : Statement (.lea c sh vd va vb) := of_bound rfl (low64 _ _ _)
theorem bfx (c : Ctl) (pos : BitVec 6) (len : BitVec 7) (sx : Bool) (vd va : Reg) : Statement (.bfx c pos len sx vd va) := of_bound rfl (low64 _ _ _)
theorem bfi (c : Ctl) (pos : BitVec 6) (len : BitVec 7) (vd va : Reg) : Statement (.bfi c pos len vd va) := of_bound rfl (low64 _ _ _)
theorem sel (c : Ctl) (p : PReg) (neg : Bool) (vd va vb : Reg) : Statement (.sel c p neg vd va vb) := of_bound rfl (low64 _ _ _)
theorem i64Setp (c : Ctl) (cond : ICond) (w : Width) (pd : PReg) (va vb : Reg) : Statement (.i64Setp c cond w pd va vb) := of_bound rfl (low64 _ _ _)
theorem movl (c : Ctl) (imm : BitVec 24) (vd : Reg) : Statement (.movl c imm vd) := of_bound rfl (low64 _ _ _)
theorem movk (c : Ctl) (val : BitVec 16) (pos : BitVec 2) (vd : Reg) : Statement (.movk c val pos vd) := of_bound rfl (low64 _ _ _)
theorem div (c : Ctl) (w : Width) (sg : Bool) (vd va vb : Reg) : Statement (.div c w sg vd va vb) := of_bound rfl (low64 _ _ _)
theorem rem (c : Ctl) (w : Width) (sg : Bool) (vd va vb : Reg) : Statement (.rem c w sg vd va vb) := of_bound rfl (low64 _ _ _)
theorem i64Fadd (c : Ctl) (rm : Rm) (ty : FTy) (vd va vb : Reg) : Statement (.i64Fadd c rm ty vd va vb) := of_bound rfl (low64 _ _ _)
theorem i64Fsub (c : Ctl) (rm : Rm) (ty : FTy) (vd va vb : Reg) : Statement (.i64Fsub c rm ty vd va vb) := of_bound rfl (low64 _ _ _)
theorem i64Fmul (c : Ctl) (rm : Rm) (ty : FTy) (vd va vb : Reg) : Statement (.i64Fmul c rm ty vd va vb) := of_bound rfl (low64 _ _ _)
theorem ffma (c : Ctl) (rm : Rm) (ty : FTy) (vd va vb vc : Reg) : Statement (.ffma c rm ty vd va vb vc) := of_bound rfl (low64 _ _ _)
theorem i64Fmin (c : Ctl) (ty : FTy) (vd va vb : Reg) : Statement (.i64Fmin c ty vd va vb) := of_bound rfl (low64 _ _ _)
theorem i64Fmax (c : Ctl) (ty : FTy) (vd va vb : Reg) : Statement (.i64Fmax c ty vd va vb) := of_bound rfl (low64 _ _ _)
theorem i64Fsetp (c : Ctl) (cond : FCond) (ty : FTy) (pd : PReg) (va vb : Reg) : Statement (.i64Fsetp c cond ty pd va vb) := of_bound rfl (low64 _ _ _)
theorem fscale (c : Ctl) (rm : Rm) (ty : FTy) (vd va vb : Reg) : Statement (.fscale c rm ty vd va vb) := of_bound rfl (low64 _ _ _)
theorem fdiv (c : Ctl) (rm : Rm) (ty : FTy) (vd va vb : Reg) : Statement (.fdiv c rm ty vd va vb) := of_bound rfl (low64 _ _ _)
theorem fsqrt (c : Ctl) (rm : Rm) (ty : FTy) (vd va : Reg) : Statement (.fsqrt c rm ty vd va) := of_bound rfl (low64 _ _ _)
theorem frcp (c : Ctl) (rm : Rm) (ty : FTy) (vd va : Reg) : Statement (.frcp c rm ty vd va) := of_bound rfl (low64 _ _ _)
theorem frsq (c : Ctl) (ty : FTy) (vd va : Reg) : Statement (.frsq c ty vd va) := of_bound rfl (low64 _ _ _)
theorem fexp2 (c : Ctl) (ty : FTy) (vd va : Reg) : Statement (.fexp2 c ty vd va) := of_bound rfl (low64 _ _ _)
theorem flog2 (c : Ctl) (ty : FTy) (vd va : Reg) : Statement (.flog2 c ty vd va) := of_bound rfl (low64 _ _ _)
theorem fsin (c : Ctl) (ty : FTy) (vd va : Reg) : Statement (.fsin c ty vd va) := of_bound rfl (low64 _ _ _)
theorem fcos (c : Ctl) (ty : FTy) (vd va : Reg) : Statement (.fcos c ty vd va) := of_bound rfl (low64 _ _ _)
theorem i64Fcvt (c : Ctl) (dst src : TyCode) (rm : Rm) (sat : Bool) (vd va : Reg) : Statement (.i64Fcvt c dst src rm sat vd va) := of_bound rfl (low64 _ _ _)
theorem i64I2f (c : Ctl) (dst src : TyCode) (rm : Rm) (sat : Bool) (vd va : Reg) : Statement (.i64I2f c dst src rm sat vd va) := of_bound rfl (low64 _ _ _)
theorem i64F2i (c : Ctl) (dst src : TyCode) (rm : Rm) (vd va : Reg) : Statement (.i64F2i c dst src rm vd va) := of_bound rfl (low64 _ _ _)
theorem frnd (c : Ctl) (rm : Rm) (ty : FTy) (vd va : Reg) : Statement (.frnd c rm ty vd va) := of_bound rfl (low64 _ _ _)
theorem fpack (c : Ctl) (kind : PackKind) (ty : FTy) (rm : Rm) (vd va vb : Reg) : Statement (.fpack c kind ty rm vd va vb) := of_bound rfl (low64 _ _ _)
theorem funpack (c : Ctl) (kind : PackKind) (ty : FTy) (rm : Rm) (vd va vb : Reg) : Statement (.funpack c kind ty rm vd va vb) := of_bound rfl (low64 _ _ _)
theorem ldB8 (c : Ctl) (off : BitVec 12) (pr : PReg) (hint : Hint) (vd va : Reg) : Statement (.ldB8 c off pr hint vd va) := of_bound rfl (low64 _ _ _)
theorem ldB16 (c : Ctl) (off : BitVec 12) (pr : PReg) (hint : Hint) (vd va : Reg) : Statement (.ldB16 c off pr hint vd va) := of_bound rfl (low64 _ _ _)
theorem ldB32 (c : Ctl) (off : BitVec 12) (pr : PReg) (hint : Hint) (vd va : Reg) : Statement (.ldB32 c off pr hint vd va) := of_bound rfl (low64 _ _ _)
theorem ldB64 (c : Ctl) (off : BitVec 12) (pr : PReg) (hint : Hint) (vd va : Reg) : Statement (.ldB64 c off pr hint vd va) := of_bound rfl (low64 _ _ _)
theorem ldS8 (c : Ctl) (off : BitVec 12) (pr : PReg) (hint : Hint) (vd va : Reg) : Statement (.ldS8 c off pr hint vd va) := of_bound rfl (low64 _ _ _)
theorem ldS16 (c : Ctl) (off : BitVec 12) (pr : PReg) (hint : Hint) (vd va : Reg) : Statement (.ldS16 c off pr hint vd va) := of_bound rfl (low64 _ _ _)
theorem ldS32 (c : Ctl) (off : BitVec 12) (pr : PReg) (hint : Hint) (vd va : Reg) : Statement (.ldS32 c off pr hint vd va) := of_bound rfl (low64 _ _ _)
theorem ldv (c : Ctl) (size : LdSize) (pr : PReg) (vd va vb : Reg) : Statement (.ldv c size pr vd va vb) := of_bound rfl (low64 _ _ _)
theorem stB8 (c : Ctl) (off : BitVec 12) (hint : Hint) (src va : Reg) : Statement (.stB8 c off hint src va) := of_bound rfl (low64 _ _ _)
theorem stB16 (c : Ctl) (off : BitVec 12) (hint : Hint) (src va : Reg) : Statement (.stB16 c off hint src va) := of_bound rfl (low64 _ _ _)
theorem stB32 (c : Ctl) (off : BitVec 12) (hint : Hint) (src va : Reg) : Statement (.stB32 c off hint src va) := of_bound rfl (low64 _ _ _)
theorem stB64 (c : Ctl) (off : BitVec 12) (hint : Hint) (src va : Reg) : Statement (.stB64 c off hint src va) := of_bound rfl (low64 _ _ _)
theorem ldsB8 (c : Ctl) (off : BitVec 12) (vd va : Reg) : Statement (.ldsB8 c off vd va) := of_bound rfl (low64 _ _ _)
theorem ldsB16 (c : Ctl) (off : BitVec 12) (vd va : Reg) : Statement (.ldsB16 c off vd va) := of_bound rfl (low64 _ _ _)
theorem ldsB32 (c : Ctl) (off : BitVec 12) (vd va : Reg) : Statement (.ldsB32 c off vd va) := of_bound rfl (low64 _ _ _)
theorem ldsB64 (c : Ctl) (off : BitVec 12) (vd va : Reg) : Statement (.ldsB64 c off vd va) := of_bound rfl (low64 _ _ _)
theorem ldsS8 (c : Ctl) (off : BitVec 12) (vd va : Reg) : Statement (.ldsS8 c off vd va) := of_bound rfl (low64 _ _ _)
theorem ldsS16 (c : Ctl) (off : BitVec 12) (vd va : Reg) : Statement (.ldsS16 c off vd va) := of_bound rfl (low64 _ _ _)
theorem ldsS32 (c : Ctl) (off : BitVec 12) (vd va : Reg) : Statement (.ldsS32 c off vd va) := of_bound rfl (low64 _ _ _)
theorem stsB8 (c : Ctl) (off : BitVec 12) (src va : Reg) : Statement (.stsB8 c off src va) := of_bound rfl (low64 _ _ _)
theorem stsB16 (c : Ctl) (off : BitVec 12) (src va : Reg) : Statement (.stsB16 c off src va) := of_bound rfl (low64 _ _ _)
theorem stsB32 (c : Ctl) (off : BitVec 12) (src va : Reg) : Statement (.stsB32 c off src va) := of_bound rfl (low64 _ _ _)
theorem stsB64 (c : Ctl) (off : BitVec 12) (src va : Reg) : Statement (.stsB64 c off src va) := of_bound rfl (low64 _ _ _)
theorem touch (c : Ctl) (off : BitVec 12) (pr : PReg) (va : Reg) : Statement (.touch c off pr va) := of_bound rfl (low64 _ _ _)
theorem pref (c : Ctl) (off : BitVec 12) (l2 excl : Bool) (va : Reg) : Statement (.pref c off l2 excl va) := of_bound rfl (low64 _ _ _)
theorem cctl (c : Ctl) (off : BitVec 12) (op : CctlOp) (va : Reg) : Statement (.cctl c off op va) := of_bound rfl (low64 _ _ _)
theorem ldw (c : Ctl) (off : BitVec 12) (pr : PReg) (sc : Scope) (vd va : Reg) : Statement (.ldw c off pr sc vd va) := of_bound rfl (low64 _ _ _)
theorem ldc (c : Ctl) (off : BitVec 12) (pr : PReg) (sc : Scope) (vd va : Reg) : Statement (.ldc c off pr sc vd va) := of_bound rfl (low64 _ _ _)
theorem stf (c : Ctl) (off : BitVec 12) (pr : PReg) (sc : Scope) (src va : Reg) : Statement (.stf c off pr sc src va) := of_bound rfl (low64 _ _ _)
theorem stx (c : Ctl) (off : BitVec 12) (pr : PReg) (sc : Scope) (src va : Reg) : Statement (.stx c off pr sc src va) := of_bound rfl (low64 _ _ _)
theorem purge (c : Ctl) (off : BitVec 12) (pr : PReg) (sc : Scope) (va : Reg) : Statement (.purge c off pr sc va) := of_bound rfl (low64 _ _ _)
theorem feq (c : Ctl) (off : BitVec 12) (pr : PReg) (sc : Scope) (pd : PReg) (va : Reg) : Statement (.feq c off pr sc pd va) := of_bound rfl (low64 _ _ _)
theorem atom (c : Ctl) (op : AtomOp) (ty : AtomTy) (four : Bool) (ord : AOrder) (sc : Scope) (vd va vb : Reg) : Statement (.atom c op ty four ord sc vd va vb) := of_bound rfl (low64 _ _ _)
theorem atoms (c : Ctl) (op : AtomOp) (ty : AtomTy) (four : Bool) (ord : AOrder) (vd va vb : Reg) : Statement (.atoms c op ty four ord vd va vb) := of_bound rfl (low64 _ _ _)
theorem red (c : Ctl) (op : AtomOp) (ty : AtomTy) (four : Bool) (ord : AOrder) (sc : Scope) (va vb : Reg) : Statement (.red c op ty four ord sc va vb) := of_bound rfl (low64 _ _ _)
theorem cas (c : Ctl) (four : Bool) (ord : AOrder) (sc : Scope) (vd va vb vc : Reg) : Statement (.cas c four ord sc vd va vb vc) := of_bound rfl (low64 _ _ _)
theorem vretire (c : Ctl) (va vb : Reg) : Statement (.vretire c va vb) := of_bound rfl (low64 _ _ _)
theorem fence (c : Ctl) (kind : FenceKind) (sc : Scope) : Statement (.fence c kind sc) := of_bound rfl (low64 _ _ _)
theorem bra (c : Ctl) (off : BitVec 24) : Statement (.bra c off) := of_bound rfl (low64 _ _ _)
theorem jmp (c : Ctl) (va : Reg) : Statement (.jmp c va) := of_bound rfl (low64 _ _ _)
theorem call (c : Ctl) (off : BitVec 24) : Statement (.call c off) := of_bound rfl (low64 _ _ _)
theorem callr (c : Ctl) (va : Reg) : Statement (.callr c va) := of_bound rfl (low64 _ _ _)
theorem callt (c : Ctl) (pd : PReg) (vd va vb : Reg) : Statement (.callt c pd vd va vb) := of_bound rfl (low64 _ _ _)
theorem ret (c : Ctl) : Statement (.ret c) := of_bound rfl (low64 _ _ _)
theorem exit (c : Ctl) : Statement (.exit c) := of_bound rfl (low64 _ _ _)
theorem nop (c : Ctl) : Statement (.nop c) := of_bound rfl (low64 _ _ _)
theorem wait (c : Ctl) (time : Bool) (va : Reg) : Statement (.wait c time va) := of_bound rfl (low64 _ _ _)
theorem yield (c : Ctl) : Statement (.yield c) := of_bound rfl (low64 _ _ _)
theorem bara (c : Ctl) (bar : BarRef) (vd : Reg) : Statement (.bara c bar vd) := of_bound rfl (low64 _ _ _)
theorem barw (c : Ctl) (bar : BarRef) (vd va : Reg) : Statement (.barw c bar vd va) := of_bound rfl (low64 _ _ _)
theorem bars (c : Ctl) (bar : BarRef) (va : Reg) : Statement (.bars c bar va) := of_bound rfl (low64 _ _ _)
theorem bare (c : Ctl) (bar : BarRef) (vd : Reg) : Statement (.bare c bar vd) := of_bound rfl (low64 _ _ _)
theorem bart (c : Ctl) (bar : BarRef) (pd : PReg) (va : Reg) : Statement (.bart c bar pd va) := of_bound rfl (low64 _ _ _)
theorem shfl (c : Ctl) (mode : ShflMode) (pv : PReg) (vd va vb : Reg) : Statement (.shfl c mode pv vd va vb) := of_bound rfl (low64 _ _ _)
theorem vote (c : Ctl) (v : VoteOp) : Statement (.vote c v) := of_bound rfl (low64 _ _ _)
theorem redb (c : Ctl) (op : RedOp) (ty : RedTy) (vd va : Reg) : Statement (.redb c op ty vd va) := of_bound rfl (low64 _ _ _)
theorem launch (c : Ctl) (sc : Scope) (va vb : Reg) : Statement (.launch c sc va vb) := of_bound rfl (low64 _ _ _)
theorem signal (c : Ctl) (sc : Scope) (fill : Bool) (va vb : Reg) : Statement (.signal c sc fill va vb) := of_bound rfl (low64 _ _ _)
theorem idemend (c : Ctl) : Statement (.idemend c) := of_bound rfl (low64 _ _ _)
theorem cpy (c : Ctl) (ord : Bool) (eng : EngSel) (credit : Option BarRef) (vd va : Reg) : Statement (.cpy c ord eng credit vd va) := of_bound rfl (low64 _ _ _)
theorem cpyx (c : Ctl) (ord : Bool) (eng : EngSel) (credit : Option BarRef) (vd va : Reg) : Statement (.cpyx c ord eng credit vd va) := of_bound rfl (low64 _ _ _)
theorem cpym (c : Ctl) (ord : Bool) (eng : EngSel) (credit : Option BarRef) (vd va vb : Reg) : Statement (.cpym c ord eng credit vd va vb) := of_bound rfl (low64 _ _ _)
theorem publish (c : Ctl) (ord : Bool) (sys : Bool) (credit : Option BarRef) (vd va : Reg) : Statement (.publish c ord sys credit vd va) := of_bound rfl (low64 _ _ _)
theorem coll (c : Ctl) (ord : Bool) (eng : EngSel) (credit : Option BarRef) (vd va : Reg) : Statement (.coll c ord eng credit vd va) := of_bound rfl (low64 _ _ _)
theorem halo (c : Ctl) (ord : Bool) (eng : EngSel) (credit : Option BarRef) (vd va : Reg) : Statement (.halo c ord eng credit vd va) := of_bound rfl (low64 _ _ _)
theorem eqry (c : Ctl) (eng : QrySel) (vd : Reg) : Statement (.eqry c eng vd) := of_bound rfl (low64 _ _ _)
theorem mma (c : Ctl) (en : BitVec 2) (fmt : TyCode) (bar : Option BarRef) (vd va : Reg) : Statement (.mma c en fmt bar vd va) := of_bound rfl (low64 _ _ _)
theorem mmag (c : Ctl) (en : BitVec 2) (fmt : TyCode) (bar : Option BarRef) (vd va : Reg) : Statement (.mmag c en fmt bar vd va) := of_bound rfl (low64 _ _ _)
theorem mmaq (c : Ctl) (en : BitVec 2) (fmt : TyCode) (bar : Option BarRef) (vd va : Reg) : Statement (.mmaq c en fmt bar vd va) := of_bound rfl (low64 _ _ _)
theorem accz (c : Ctl) (va vb : Reg) : Statement (.accz c va vb) := of_bound rfl (low64 _ _ _)
theorem accrd (c : Ctl) (four : Bool) (vd va : Reg) : Statement (.accrd c four vd va) := of_bound rfl (low64 _ _ _)
theorem accwr (c : Ctl) (four : Bool) (va vb : Reg) : Statement (.accwr c four va vb) := of_bound rfl (low64 _ _ _)
theorem permt (c : Ctl) (va vb : Reg) : Statement (.permt c va vb) := of_bound rfl (low64 _ _ _)
theorem trace (c : Ctl) (anyHit : Bool) (vd va : Reg) : Statement (.trace c anyHit vd va) := of_bound rfl (low64 _ _ _)
theorem tracek (c : Ctl) (km1 : BitVec 3) (vd va : Reg) : Statement (.tracek c km1 vd va) := of_bound rfl (low64 _ _ _)
theorem march (c : Ctl) (vd va : Reg) : Statement (.march c vd va) := of_bound rfl (low64 _ _ _)
theorem graft (c : Ctl) (vd va : Reg) : Statement (.graft c vd va) := of_bound rfl (low64 _ _ _)
theorem hitattr (c : Ctl) (vd va vb : Reg) : Statement (.hitattr c vd va vb) := of_bound rfl (low64 _ _ _)
theorem frameout (c : Ctl) (vd va vb : Reg) : Statement (.frameout c vd va vb) := of_bound rfl (low64 _ _ _)
theorem srd (c : Ctl) (sr : SReg) (vd : Reg) : Statement (.srd c sr vd) := of_bound rfl (low64 _ _ _)
theorem swr (c : Ctl) (va : Reg) : Statement (.swr c va) := of_bound rfl (low64 _ _ _)
theorem trap (c : Ctl) (code : BitVec 18) : Statement (.trap c code) := of_bound rfl (low64 _ _ _)
theorem rft (c : Ctl) (skip : Bool) : Statement (.rft c skip) := of_bound rfl (low64 _ _ _)
theorem bkpt (c : Ctl) : Statement (.bkpt c) := of_bound rfl (low64 _ _ _)
theorem classVResultLands (op : Nat) : Statement (.classVResultLands op) := of_none rfl
theorem storePerformed (op : Nat) : Statement (.storePerformed op) := of_none rfl
theorem returnStackSpill (thr : Nat) : Statement (.returnStackSpill thr) := of_none rfl
theorem returnStackFill (thr : Nat) : Statement (.returnStackFill thr) := of_none rfl
theorem waitExpiry (thr : Nat) : Statement (.waitExpiry thr) := of_none rfl
theorem yieldExpiry (thr : Nat) : Statement (.yieldExpiry thr) := of_none rfl
theorem touchComplete (op : Nat) : Statement (.touchComplete op) := of_none rfl
theorem threadRetire (thr : Nat) : Statement (.threadRetire thr) := of_none rfl
theorem blockTableEntryGrant (core part : Nat) : Statement (.blockTableEntryGrant core part) := of_none rfl
theorem waiterRecord (thr : Nat) : Statement (.waiterRecord thr) := of_none rfl
theorem wake (word : Nat) : Statement (.wake word) := of_none rfl
theorem formRetry (thr : Nat) : Statement (.formRetry thr) := of_none rfl
theorem waiterNotice (core word : Nat) : Statement (.waiterNotice core word) := of_none rfl
theorem engineCredit (msg : Nat) : Statement (.engineCredit msg) := of_none rfl
theorem abortDelivery (msg : Nat) : Statement (.abortDelivery msg) := of_none rfl
theorem queueTake (ctx q : Nat) : Statement (.queueTake ctx q) := of_none rfl
theorem placementAttempt (die ctx : Nat) : Statement (.placementAttempt die ctx) := of_none rfl
theorem coreQueueStart (core : Nat) : Statement (.coreQueueStart core) := of_none rfl
theorem balanceInterval (die : Nat) : Statement (.balanceInterval die) := of_none rfl
theorem nodeBatchDispatch (ctx q : Nat) : Statement (.nodeBatchDispatch ctx q) := of_none rfl
theorem nodeBatchTimeout (ctx q : Nat) : Statement (.nodeBatchTimeout ctx q) := of_none rfl
theorem nodeEndMark (ctx q : Nat) : Statement (.nodeEndMark ctx q) := of_none rfl
theorem launchCompletion (launch : Nat) : Statement (.launchCompletion launch) := of_none rfl
theorem qeCoreCtxWrite (die idx : Nat) (val : Word) : Statement (.qeCoreCtxWrite die idx val) := of_none rfl
theorem coreOwnerChange (core : Nat) : Statement (.coreOwnerChange core) := of_none rfl
theorem xlInvCmd (die : Nat) (val : Word) : Statement (.xlInvCmd die val) := of_none rfl
theorem xlInvalidationDone (die : Nat) : Statement (.xlInvalidationDone die) := of_none rfl
theorem frCmdRetry (die thr ctx : Nat) : Statement (.frCmdRetry die thr ctx) := of_none rfl
theorem frCmdSkip (die thr ctx : Nat) : Statement (.frCmdSkip die thr ctx) := of_none rfl
theorem frCmdKill (die thr ctx : Nat) : Statement (.frCmdKill die thr ctx) := of_none rfl
theorem frCmdIgnored (die : Nat) : Statement (.frCmdIgnored die) := of_none rfl
theorem frPend (die : Nat) : Statement (.frPend die) := of_none rfl
theorem peCmdPreempt (ctx : Nat) : Statement (.peCmdPreempt ctx) := of_none rfl
theorem peCmdKill (ctx : Nat) : Statement (.peCmdKill ctx) := of_none rfl
theorem peCmdPin (ctx : Nat) : Statement (.peCmdPin ctx) := of_none rfl
theorem peCmdRestore (ctx : Nat) : Statement (.peCmdRestore ctx) := of_none rfl
theorem peDrainDone : Statement (.peDrainDone) := of_none rfl
theorem peDrainTimeout : Statement (.peDrainTimeout) := of_none rfl
theorem peSaveDone : Statement (.peSaveDone) := of_none rfl
theorem ckCmdSave : Statement (.ckCmdSave) := of_none rfl
theorem ckExchangeDone : Statement (.ckExchangeDone) := of_none rfl
theorem ckCmdRestore : Statement (.ckCmdRestore) := of_none rfl
theorem dbgCmdStop (core part : Nat) : Statement (.dbgCmdStop core part) := of_none rfl
theorem dbgCmdResume (core part : Nat) : Statement (.dbgCmdResume core part) := of_none rfl
theorem wpHitWrite (core : Nat) (val : Word) : Statement (.wpHitWrite core val) := of_none rfl
theorem sampleTag (core part : Nat) : Statement (.sampleTag core part) := of_none rfl
theorem sampleRecord (core part : Nat) : Statement (.sampleRecord core part) := of_none rfl
theorem svCmdGrant : Statement (.svCmdGrant) := of_none rfl
theorem svCmdRefuse : Statement (.svCmdRefuse) := of_none rfl
theorem svCmdGiveFrame : Statement (.svCmdGiveFrame) := of_none rfl
theorem svCmdIgnored : Statement (.svCmdIgnored) := of_none rfl
theorem svPend : Statement (.svPend) := of_none rfl
theorem tpCmdRelease : Statement (.tpCmdRelease) := of_none rfl
theorem tpCmdMigrate : Statement (.tpCmdMigrate) := of_none rfl
theorem tpCmdIgnored : Statement (.tpCmdIgnored) := of_none rfl
theorem migrationPassEnd : Statement (.migrationPassEnd) := of_none rfl
theorem freezeCopyEnd : Statement (.freezeCopyEnd) := of_none rfl
theorem foCtlWrite (stream : Nat) (val : Word) : Statement (.foCtlWrite stream val) := of_none rfl
theorem frameEncoded (stream : Nat) : Statement (.frameEncoded stream) := of_none rfl
theorem ebudRefill : Statement (.ebudRefill) := of_none rfl
theorem thermalTrip : Statement (.thermalTrip) := of_none rfl
theorem registerWrite (off : Nat) (val : RegData) : Statement (.registerWrite off val) := of_none rfl
theorem peerDown (peer : Nat) : Statement (.peerDown peer) := of_none rfl
theorem peerRead (peer off size : Nat) : Statement (.peerRead peer off size) := of_none rfl
theorem peerWrite (peer off : Nat) (bytes : List Byte) : Statement (.peerWrite peer off bytes) := of_none rfl
theorem leaseHoldExpiry (line : Nat) : Statement (.leaseHoldExpiry line) := of_none rfl
theorem peerResend (op : Nat) : Statement (.peerResend op) := of_none rfl
theorem engineResend (cmd : Nat) : Statement (.engineResend cmd) := of_none rfl
theorem ptpRefresh (offset : Word) : Statement (.ptpRefresh offset) := of_none rfl
theorem fillAliasWrite (off : Nat) (bytes : List Byte) : Statement (.fillAliasWrite off bytes) := of_none rfl
theorem hdmAccess (off : Nat) (acc : HdmOp) : Statement (.hdmAccess off acc) := of_none rfl
theorem hostSnoop (addr : Nat) (inval : Bool) : Statement (.hostSnoop addr inval) := of_none rfl
theorem taprootRd (die sector : Nat) : Statement (.taprootRd die sector) := of_none rfl
theorem taprootRdx (die sector : Nat) : Statement (.taprootRdx die sector) := of_none rfl
theorem taprootUp (die sector : Nat) : Statement (.taprootUp die sector) := of_none rfl
theorem taprootEv (die sector : Nat) (dirty : Bool) : Statement (.taprootEv die sector dirty) := of_none rfl
theorem downgradeProbe (probe : Nat) : Statement (.downgradeProbe probe) := of_none rfl
theorem invalidateProbe (probe : Nat) : Statement (.invalidateProbe probe) := of_none rfl
theorem probeAck (probe : Nat) : Statement (.probeAck probe) := of_none rfl
theorem evictionNotice (core line : Nat) : Statement (.evictionNotice core line) := of_none rfl
theorem l1ReadMiss (core sector : Nat) : Statement (.l1ReadMiss core sector) := of_none rfl
theorem l1WriteUpgrade (core sector : Nat) : Statement (.l1WriteUpgrade core sector) := of_none rfl
theorem reclassifyComplete (frame : Nat) : Statement (.reclassifyComplete frame) := of_none rfl
theorem remoteWriteApply (die msg : Nat) : Statement (.remoteWriteApply die msg) := of_none rfl
theorem scratchRefill (block page : Nat) : Statement (.scratchRefill block page) := of_none rfl
theorem cowCopyDone (rec : Nat) : Statement (.cowCopyDone rec) := of_none rfl
theorem cowCopyError (rec : Nat) : Statement (.cowCopyError rec) := of_none rfl
theorem cowReserveRetry (op : Nat) : Statement (.cowReserveRetry op) := of_none rfl
theorem publishBroadcast (cmd : Nat) : Statement (.publishBroadcast cmd) := of_none rfl
theorem publishComplete (cmd : Nat) : Statement (.publishComplete cmd) := of_none rfl
theorem vretireComplete (op : Nat) : Statement (.vretireComplete op) := of_none rfl
theorem sweep (region : Nat) : Statement (.sweep region) := of_none rfl
theorem engineAccept (thr : Nat) : Statement (.engineAccept thr) := of_none rfl
theorem engineCommandStart (cmd : Nat) : Statement (.engineCommandStart cmd) := of_none rfl
theorem engineCommandComplete (cmd : Nat) : Statement (.engineCommandComplete cmd) := of_none rfl
theorem matrixAccept (thr : Nat) : Statement (.matrixAccept thr) := of_none rfl
theorem shareStart (core : Nat) : Statement (.shareStart core) := of_none rfl
theorem matrixStep (core : Nat) : Statement (.matrixStep core) := of_none rfl
theorem shareReady (mx rank : Nat) : Statement (.shareReady mx rank) := of_none rfl
theorem shareAbort (mx rank : Nat) : Statement (.shareAbort mx rank) := of_none rfl
theorem commitNotice (mx rank : Nat) : Statement (.commitNotice mx rank) := of_none rfl
theorem abortNotice (mx rank : Nat) : Statement (.abortNotice mx rank) := of_none rfl
theorem keyLoad (slot : KeyInput) : Statement (.keyLoad slot) := of_none rfl
theorem zeroise : Statement (.zeroise) := of_none rfl
theorem firmwareImage (img : FwImage) : Statement (.firmwareImage img) := of_none rfl
theorem nonceRequest : Statement (.nonceRequest) := of_none rfl
theorem debugUnlock (tok : UnlockToken) : Statement (.debugUnlock tok) := of_none rfl
theorem spdmMeasurements : Statement (.spdmMeasurements) := of_none rfl
theorem coldStart : Statement (.coldStart) := of_none rfl
theorem warmStart : Statement (.warmStart) := of_none rfl
theorem heartbeat (peer : Nat) : Statement (.heartbeat peer) := of_none rfl
theorem portUp (port : Nat) : Statement (.portUp port) := of_none rfl
theorem portDown (port : Nat) : Statement (.portDown port) := of_none rfl

end Sys2Proof.Laws.Length
end

