-- ==== Sys2Proof/Tests/Slice0.lean ====
section
/-! SUPPORT. The package's own tests: ill-formed terms that the checks refuse, words of the spec's encodings, states that meet the
hypotheses of the statements, and values that the spec's examples give. -/

namespace Sys2Proof.Tests

-- Each decide +kernel below waits for the kernel: elaborated at once, they would hold one thread of the compiler each.
set_option Elab.async false

open Sys2Proof Sys2Proof.Machine

/-! ## Well-formedness: one ill-formed term for each check, and a well-formed one beside it -/

/-- No guard, no flag, no stall. -/
def ctl : Ctl := { guard := 7, neg := false, set := 15, wait := 0, stall := 0, uniform := false }
/-- Flag f3 and a stall of 2. -/
def ctl3 : Ctl := { ctl with set := 3, stall := 2 }
def c32 : Ctl32 := { stall := 2, uniform := false }

theorem test_wf_set : (Instr.nop { ctl with set := 13 }).wfError = some .setField ∧ (Instr.nop ctl).wf = true := by decide
theorem test_wf_uniform : (Instr.exit { ctl with uniform := true }).wfError = some .uniformForbidden ∧ (Instr.exit ctl).wf = true := by decide
theorem test_wf_extension : (Instr.i64Add ctl .w64 true 1 2 3).wfError = some .extension ∧ (Instr.i64Add ctl .w32 true 1 2 3).wf = true := by decide
theorem test_wf_bitField :
    (Instr.bfx ctl 63 2 true 1 2).wfError = some .bitField ∧ (Instr.bfi ctl 0 0 1 2).wfError = some .bitField ∧ (Instr.bfx ctl 63 1 true 1 2).wf = true := by
  decide
theorem test_wf_regRun : (Instr.cpy ctl false .near none 1 57).wfError = some .regRun ∧ (Instr.cpy ctl false .near none 1 56).wf = true := by decide
theorem test_wf_bandReg : (Instr.fpack ctl .bf .f .rne 1 2 3).wfError = some .bandReg ∧ (Instr.fpack ctl .e2m1 .f .rne 1 2 3).wf = true := by decide
theorem test_wf_typeCode : (Instr.mmaq ctl 1 .h none 1 2).wfError = some .typeCode ∧ (Instr.mmaq ctl 1 .e2m1 none 1 2).wf = true := by decide
theorem test_wf_opType :
    (Instr.atom ctl .and .s true .relaxed .die 1 2 3).wfError = some .opType ∧ (Instr.atom ctl .and .n true .relaxed .die 1 2 3).wf = true := by decide
theorem test_wf_barIndex :
    (Instr.bara ctl { level := .grove, index := 8 } 1).wfError = some .barIndex ∧ (Instr.bara ctl { level := .grove, index := 7 } 1).wf = true := by decide

/-! ## Words written out from the encodings of the spec (R64-R73 and the entries) -/

/-- Control fields of an encoded I64 instruction with set field and guard. -/
def sg (set : BitVec 4) (guard : PReg) : Ctl := { guard := guard, neg := false, set := set, wait := 0, stall := 0, uniform := false }

/-- C16 and I32: FADD.d v4, v5 and ADDI v2, -1 with the stall bit, SETP.ne with stall 1 (R65, R66). -/
theorem test_decode_short :
    decodeWord 0x2916 = .ok (.c16FaddD false 4 5) ∧ decodeWord 0xF8A8 = .ok (.c16Addi true 2 0x1F) ∧
    decodeWord 0x18206049 = .ok (.i32SetpNe { stall := 1, uniform := false } 1 2 6) := by decide
/-- Integer, floating point and control: the worked words of R94, R115 and R104. -/
theorem test_decode_compute :
    decodeWord 0x14030B2892C80003 = .ok (.div { sg 2 3 with neg := true } .w32 true 10 11 12) ∧
    decodeWord 0x04308110ADFC001B = .ok (.ffma { sg 15 7 with stall := 3 } .rz .d 4 1 2 3) ∧
    decodeWord 0xFFFFFC02007C0003 = .ok (.bra (sg 15 1) 0xFFFFFC) := by decide
/-- Memory: LDC, LDW.blk, FENCE and LDV. -/
theorem test_decode_memory :
    decodeWord 0x440202196DCC0003 = .ok (.ldc (sg 3 7) 8 1 .die 6 2) ∧ decodeWord 0x1C00176169FC0003 = .ok (.ldw (sg 15 7) 0 7 .blk 24 23) ∧
    decodeWord 0x0002800195FC0003 = .ok (.fence (sg 15 7) .release .die) ∧ decodeWord 0x7C00C2151DC40003 = .ok (.ldv (sg 1 7) .b64 7 5 2 3) ∧
    decodeWord 0x7C00C5211DC40003 = .ok (.ldv (sg 1 7) .b64 7 8 5 3) := by decide
/-- Barriers, engines, the matrix array, the traversal unit and special registers. -/
theorem test_decode_units :
    decodeWord 0x4800000E4DD00003 = .ok (.bare (sg 4 7) { level := .grove, index := 2 } 3) ∧
    decodeWord 0x800000764DFC0003 = .ok (.bare (sg 15 7) { level := .span, index := 0 } 29) ∧
    decodeWord 0x0300142A8CBC0003 = .ok (.publish (sg 15 2) false false none 10 20) ∧
    decodeWord 0x2C201C1AA4C400C3 = .ok (.mmag { sg 1 3 with wait := 3 } 0 .bf (some { level := .block, index := 2 }) 6 28) ∧
    decodeWord 0x4010101A81C40003 = .ok (.cpy (sg 1 7) false .near (some { level := .block, index := 1 }) 6 16) ∧
    decodeWord 0x6C20101AA5C40003 = .ok (.mmag (sg 1 7) 1 .bf (some { level := .block, index := 2 }) 6 16) ∧
    decodeWord 0x0000102301C80003 = .ok (.trace (sg 2 7) false 8 16) ∧ decodeWord 0x000010270DFC0003 = .ok (.graft (sg 15 7) 9 16) ∧
    decodeWord 0x0000001741FC000B = .ok (.srd { sg 15 7 with stall := 1 } .tid 5) ∧ decodeWord 0x0001400349FC0003 = .ok (.trap (sg 15 7) 5) := by decide
/-- What is no instruction: an unallocated opcode, a reserved set field, a reserved bit, a cache hint of 5 (R141), missing bytes. -/
theorem test_decode_refused :
    decodeWord 0x00000017FFFC0003 = .error .opcode ∧ decodeWord 0x0000001741F8000B = .error (.illFormed .setField) ∧
    decodeWord 0x0000011741FC000B = .error .reserved ∧ decodeWord 0x1C0002190DFC0003 = .ok (.ldB64 (sg 15 7) 0 7 .none 6 2) ∧
    decodeWord 0xBC0002190DFC0003 = .error .subField ∧ decodeBytes [0x03, 0x00, 0xFC] = .error .short ∧ decodeBytes [0x16] = .error .short := by decide
/-- The encoder gives the words back. -/
theorem test_encode :
    encode (.ffma { sg 15 7 with stall := 3 } .rz .d 4 1 2 3) = some 0x04308110ADFC001B ∧ encode (.c16FaddD false 4 5) = some 0x2916 ∧
    encode (.trap (sg 15 7) 5) = some 0x0001400349FC0003 := by decide

/-! ## States that meet the hypotheses of the statements

The builders change a few fields of the machine that runs one thread on one page (R248, R19). -/

/-- One thread alone in the gang, with some registers set. -/
def one (regs : List (Nat × Word)) : State :=
  ({ State.reset.loadOne 0 with gang := [0] }).updThread 0 fun t => { t with regs := regs.foldl (fun (l : List Word) (e : Nat × Word) => l.set e.1 e.2) t.regs }
def pokeW (s : State) (pa v : Nat) : State := { s with mem := Mem.writeN s.mem pa (toLe 8 v) }
def pokes (s : State) (l : List (Nat × Nat)) : State := l.foldl (fun s (e : Nat × Nat) => pokeW s e.1 e.2) s
def upT (s : State) (f : Thread → Thread) : State := s.updThread 0 f
def okOr {ε α : Type} (x : Except ε α) (d : α) : α :=
  match x with
  | .ok v => v
  | .error _ => d
def isOk {ε α : Type} (x : Except ε α) : Bool :=
  match x with
  | .ok _ => true
  | .error _ => false

theorem eq_okOr {ε α : Type} {x : Except ε α} (d : α) (h : isOk x = true) : x = .ok (okOr x d) := by
  cases x with
  | ok v => rfl
  | error e => simp [isOk] at h
theorem isSome_getD {α : Type} {x : Option α} (d : α) (h : x.isSome = true) : x = some (x.getD d) := by
  cases x with
  | some v => rfl
  | none => simp at h
theorem alone_of {s : State} (g : s.gang = [0]) (h : (s.threads.find 0).isSome = true) : s.Alone 0 (s.thr 0) := by
  refine ⟨g, ?_⟩
  unfold State.thr
  exact isSome_getD _ h
theorem executes_of {t : Thread} {q : Issue} {named reads : List Nat} (h : (t.status = .run ∧ t.marks = []) ∧ q.holds t = true) (hr : ∀ r ∈ named, r < t.n) :
    q.Executes t named reads := ⟨hr, h.2, fun r _ => by rw [h.1.2]; rfl, h.1.1⟩

/-- v1 a scratchpad offset, v2 an address of the page, v3 and v4 numbers. -/
def sM : State := one [(1, 0x40), (2, 0x10100), (3, 7), (4, 9)]
def tM : Thread := sM.thr 0
theorem aloneM : sM.Alone 0 tM := alone_of rfl (by decide +kernel)
theorem runM : (tM.status = .run ∧ tM.marks = []) ∧ (issue64 ctl).holds tM = true := by decide +kernel

/-- Registers alone are asked of C16Integer, I32Integer, I64Integer, AddressAndFields, Predicates, FloatTwoSource, FloatOneSource and
VariableLatency: v31 and v63 are the highest that their fields name, v0 the lowest. -/
theorem test_hyps_registers :
    sM.Alone 0 tM ∧ (issue16 true).Executes tM [31, 31, 0] [31, 0] ∧ (issue32 c32).Executes tM [63, 0, 63] [0, 63] ∧
    (issue64 ctl3).Executes tM [63, 0, 31, 62] [0, 31, 62] ∧ (issue64 ctl).Executes tM (63 :: ((List.range 8).map (56 + ·) ++ [0])) ((List.range 8).map (56 + ·) ++ [0]) :=
  ⟨aloneM, executes_of (by decide +kernel) (by decide +kernel), executes_of (by decide +kernel) (by decide +kernel),
    executes_of (by decide +kernel) (by decide +kernel), executes_of (by decide +kernel) (by decide +kernel)⟩
/-- Bit fields at both ends (AddressAndFields). -/
theorem test_hyps_bitFields : (1 ≤ (1#7).toNat ∧ (63#6).toNat + (1#7).toNat ≤ 64) ∧ 1 ≤ (64#7).toNat ∧ (0#6).toNat + (64#7).toNat ≤ 64 := by decide
/-- VariableLatency, the values of division: a zero divisor, another one, and the overflow at each width. -/
theorem test_hyps_division :
    (0#64).setWidth (widthBits .w8) = 0 ∧ (3#64).setWidth (widthBits .w8) ≠ 0 ∧
    ∀ w ∈ [Width.w8, .w16, .w32, .w64], ∃ a b : Word, a.setWidth (widthBits w) = BitVec.intMin (widthBits w) ∧ b.setWidth (widthBits w) = BitVec.allOnes (widthBits w) := by
  refine ⟨by decide, by decide, fun w _ => ⟨(BitVec.intMin (widthBits w)).setWidth 64, BitVec.allOnes 64, ?_⟩⟩
  cases w <;> decide
/-- FloatRounding: NaNs, infinities, zeros and numbers of each format in the places that its clauses name, and the widths of F2I. -/
theorem test_hyps_FloatRounding :
    (Fmt.d.isNan 0x7FF0000000000001 ∧ Fmt.s.isNan 0xFF800001) ∧ (¬Fmt.d.isNan 0x7FF0000000000000 ∧ Fmt.d.isInf 0xFFF0000000000000 ∧ Fmt.s.isInf 0x7F800000) ∧
    ((Fmt.d.signOf 0xFFF0000000000000).xor (Fmt.d.signOf 0x7FF0000000000000) = true ∧ (Fmt.d.signOf 0x7FF0000000000000).xor (Fmt.d.signOf 0x7FF0000000000000) = false) ∧
    (Fmt.d.isZero 0x8000000000000000 ∧ Fmt.s.isZero 0 ∧ ¬Fmt.d.isZero 1 ∧ ¬Fmt.d.isNan 1 ∧ ¬Fmt.d.isInf 1) ∧ (1 ≤ 1 ∧ 64 ≤ 64) := by decide +kernel
/-- The words of R51 and R49: 2.75 is midway between 2.5 and 3.0 in .e5m2, and rounds to the even field, up, or down. -/
theorem test_roundsTo :
    Fmt.e5m2.roundsTo .rne (11 / 4) 0x42 ∧ Fmt.e5m2.roundsTo .rna (11 / 4) 0x42 ∧ Fmt.e5m2.roundsTo .rz (11 / 4) 0x41 ∧
    Fmt.e5m2.roundsTo .rup (-11 / 4) 0xC1 ∧ Fmt.e5m2.roundsTo .rdn (-11 / 4) 0xC2 ∧ Fmt.e5m2.roundsTo .rne (9 / 4) 0x40 ∧
    Fmt.h.roundsTo .rne 100000 0x7C00 ∧ Fmt.h.roundsTo .rz 100000 0x7BFF := by
  refine ⟨⟨1, 6, ?_⟩, ⟨1, 6, ?_⟩, ⟨1, 5, ?_⟩, ⟨1, 5, ?_⟩, ⟨1, 6, ?_⟩, ⟨1, 4, ?_⟩, ⟨16, 1562, ?_⟩, ⟨16, 1562, ?_⟩⟩ <;>
    norm_num [Rm.chooses, Fmt.maxMag, Fmt.overflows, Fmt.magOf, Fmt.expOf, Fmt.fracOf, Fmt.signOf, Fmt.withSign, Fmt.e5m2, Fmt.h, Fmt.width, abs_of_pos, abs_of_neg, zpow_neg,
      Nat.testBit] <;> decide

/-! ### Memory -/

def lf0 : Leaf := okOr (sM.leafFor (Agent.core 0) 0 0x10100 .read) ⟨0, 0, 0⟩
def ac (n : Nat) (a : Word) : Access := okOr (sM.place (Agent.core 0) 0 a n lf0) ⟨0, 0, 0, 0, 0, 0, none, 0⟩
/-- The page's leaf is not resident. -/
def sAway : State := pokeW sM 0x106008 0x200072
def lfA : Leaf := { lf0 with word := 0x200072 }
/-- A versioned page at 0x20000: record 0x300000, region 0x310000 with W 5 and O 2, one slot from step 3 on. -/
def vers : List (Nat × Nat) :=
  [(0x106010, 0x3000B6), (0x300000, 0x220000), (0x300008, 5), (0x300010, 0x310000), (0x300020, 0x210001), (0x300060, 3),
   (0x310000, 5 + 2 ^ 32 + 2 ^ 36), (0x310008, 2), (0x310010, 0x300000), (0x310018, 1), (0x310020, 0x320000), (0x310028, 4 * 2 ^ 32)]
def sV : State := { pokes (one [(1, 0x40), (2, 0x20100), (3, 4), (4, 2)]) vers with regSeen := [0x310000] }
def lfV : Leaf := okOr (sV.leafFor (Agent.core 0) 0 0x20100 .read) ⟨0, 0, 0⟩
theorem aloneV : sV.Alone 0 (sV.thr 0) := alone_of rfl (by decide +kernel)
theorem aloneA : sAway.Alone 0 (sAway.thr 0) := alone_of rfl (by decide +kernel)

/-- Loads: an aligned address of a resident page, the same with the page away under p3, and a step between O and W. -/
theorem test_hyps_Loads :
    (sM.Alone 0 tM ∧ (issue64 ctl).Executes tM [63, 2] [2] ∧ sM.check4 0 tM 0x10100 8 8 .read true false .load = .ok lf0 ∧
      sM.place (Agent.core 0) (sM.ctxOf tM) 0x10100 8 lf0 = .ok (ac 8 0x10100)) ∧
    (sAway.Alone 0 (sAway.thr 0) ∧ (issue64 ctl).Executes (sAway.thr 0) [63, 2] [2] ∧ sAway.check4 0 (sAway.thr 0) 0x10100 8 8 .read true false .load = .ok lfA ∧
      sAway.place (Agent.core 0) (sAway.ctxOf (sAway.thr 0)) 0x10100 8 lfA = .error .away) ∧
    (sV.Alone 0 (sV.thr 0) ∧ (issue64 ctl).Executes (sV.thr 0) [5, 2, 3] [2, 3] ∧ sV.check4 0 (sV.thr 0) 0x20100 8 8 .read true false .versioned = .ok lfV ∧
      lfV.versioned = true ∧ lfV.resident = true ∧ (sV.regionWO (some (dieOf 0)) (sV.regionOf lfV.record)).2 ≤ 4 ∧
      4 < (sV.regionWO (some (dieOf 0)) (sV.regionOf lfV.record)).1 ∧ sV.resolve lfV.record 4 = some 0x210000 ∧ isDevice 0x210000 = true) :=
  ⟨⟨aloneM, executes_of runM (by decide +kernel), by decide +kernel, by decide +kernel⟩,
    ⟨aloneA, executes_of (by decide +kernel) (by decide +kernel), by decide +kernel, by decide +kernel⟩,
    ⟨aloneV, executes_of (by decide +kernel) (by decide +kernel), by decide +kernel, by decide +kernel, by decide +kernel, by decide +kernel, by decide +kernel,
      by decide +kernel, by decide +kernel⟩⟩
/-- Stores: the last byte and the last word of the page for ST and SIGNAL. -/
theorem test_hyps_Stores :
    sM.Alone 0 tM ∧ (issue64 ctl).Executes tM [63, 2] [63, 2] ∧ isOk (sM.check5 0 tM 0x1FFFF 1 1 .write false true .store) = true ∧
    isOk (sM.check5 0 tM 0x1FFF8 8 8 .write false true .store) = true :=
  ⟨aloneM, executes_of runM (by decide +kernel), by decide +kernel, by decide +kernel⟩
def blkM : Block := (sM.blocks.find tM.blk).getD { launch := 0, grove := 0, idx := 0, die := 0, core := 0, slot := 0, rank := 0, threads := 1, bars := [], scratchBytes := 0 }
/-- Scratchpad: the last word of the allocation, for LDS, STS and ATOMS. -/
theorem test_hyps_Scratchpad :
    sM.Alone 0 tM ∧ sM.blocks.find tM.blk = some blkM ∧ (issue64 ctl).Executes tM [63, 1, 2] [1, 2] ∧
    (65528#64).toNat % 8 = 0 ∧ (65528#64).toNat + 8 ≤ blkM.scratchBytes :=
  ⟨aloneM, by decide +kernel, executes_of runM (by decide +kernel), by decide +kernel, by decide +kernel⟩
/-- FullEmptyForms and Atomics on a word of device memory under every check. -/
theorem test_hyps_FullEmptyForms_Atomics :
    sM.Alone 0 tM ∧ (issue64 ctl).Executes tM [2, 63] [2, 63] ∧ sM.check4 0 tM 0x10100 8 8 .write true true .fe = .ok lf0 ∧
    sM.check4 0 tM 0x10100 8 8 .read true false .fe = .ok lf0 ∧ sM.place (Agent.core 0) (sM.ctxOf tM) 0x10100 8 lf0 = .ok (ac 8 0x10100) ∧
    isDevice (ac 8 0x10100).pa = true ∧ (issue64 ctl).Executes tM [2, 63, 3, 4] [2, 3, 4] ∧
    sM.check5 0 tM 0x10100 8 8 .write true true .atomic = .ok (ac 8 0x10100) ∧ (ac 8 0x10100).policy ≠ 2 :=
  ⟨aloneM, executes_of runM (by decide +kernel), by decide +kernel, by decide +kernel, by decide +kernel, by decide +kernel, executes_of runM (by decide +kernel),
    by decide +kernel, by decide +kernel⟩
/-- CacheAndOrder: TOUCH and CCTL of a resident page and of one that is away, CCTL on a line that is held and on one that is not,
CCTL.iinvall, and VRETIRE at O and above it. -/
theorem test_hyps_CacheAndOrder :
    (sM.Alone 0 tM ∧ (issue64 ctl).Executes tM [2] [2] ∧ sM.check4 0 tM 0x10100 1 1 .read true false .load = .ok lf0 ∧ lf0.resident = true ∧
      sM.place (Agent.core 0) (sM.ctxOf tM) 0x10100 1 lf0 = .ok (ac 1 0x10100)) ∧
    (∀ o ∈ [CctlOp.wbl1, .invl1, .wbl2, .invl2], sM.cctlMeets 0 o 0x200100 = false ∧
      ({ sM with l1 := [{ core := 0, line := 0x2001, states := [1, 0, 0, 0] }], l2 := [{ die := 0, line := 0x2001 }] } : State).cctlMeets 0 o 0x200100 = true) ∧
    (sAway.check4 0 (sAway.thr 0) 0x10100 1 1 .read true false .load = .ok lfA ∧ lfA.resident = false ∧ bit (sAway.c0Of (sAway.thr 0)) 24 = false) ∧
    ((tM.reg 2).extractLsb' 57 7 = 0 ∧ sM.watchHits 0 tM (tM.reg 2) 1 true false = 0) ∧
    (sV.check4 0 (sV.thr 0) 0x20100 1 1 .write false false .versioned = .ok lfV ∧ lfV.versioned = true ∧
      (2 < (sV.regionWO (some (dieOf 0)) (sV.regionOf lfV.record)).1 ∧ 2 ≤ (sV.regionWO (some (dieOf 0)) (sV.regionOf lfV.record)).2) ∧
      4 < (sV.regionWO (some (dieOf 0)) (sV.regionOf lfV.record)).1 ∧ (sV.regionWO (some (dieOf 0)) (sV.regionOf lfV.record)).2 < 4) :=
  ⟨⟨aloneM, executes_of runM (by decide +kernel), by decide +kernel, by decide +kernel, by decide +kernel⟩, by decide +kernel,
    ⟨by decide +kernel, by decide +kernel, by decide +kernel⟩, ⟨by decide +kernel, by decide +kernel⟩,
    ⟨by decide +kernel, by decide +kernel, by decide +kernel, by decide +kernel⟩⟩

/-! ### Control, barriers, bundles, LAUNCH -/

/-- A full hardware return stack over a region at 0x10800, three entries of which are in memory; the same with an empty one; the same
with two entries. -/
def sC : State := upT (one [(2, 0x10100), (3, 0x1F800)]) fun t =>
  { t with tlsbase := 0x10800, hw := [0x2000, 0x2008, 0x2010, 0x2018, 0x2020, 0x2028, 0x2030, 0x2038], depth := 3 }
def sC2 : State := upT sC fun t => { t with hw := [] }
def sC3 : State := upT sC fun t => { t with hw := [0x3000, 0x3010] }
theorem aloneC : sC.Alone 0 (sC.thr 0) := alone_of rfl (by decide +kernel)

/-- ControlInstructions: an aligned JMP target, a deadline ahead in time and one already reached. -/
theorem test_hyps_ControlInstructions :
    sM.Alone 0 tM ∧ (issue64 ctl3).Executes tM [2] [2] ∧ (tM.reg 2).extractLsb' 57 7 = 0 ∧ (tM.reg 2).getLsbD 0 = false ∧ sM.ptp < (tM.reg 2).toNat ∧
    (issue64 ctl3).Executes tM [0] [0] ∧ (tM.reg 0).toNat ≤ sM.ptp :=
  ⟨aloneM, executes_of (by decide +kernel) (by decide +kernel), by decide +kernel, by decide +kernel, by decide +kernel,
    executes_of (by decide +kernel) (by decide +kernel), by decide +kernel⟩
/-- A shader table at 0x10100 with one entry of a code, and a default entry. -/
def shTab (s : State) (code : Nat) : State := pokes s [(0x200100, 1 + 2 ^ 32), (0x200140, code)]
/-- CallsAndReturns: a push with room and one that spills, a pop and one that fills, and a CALLT whose table is there. -/
theorem test_hyps_CallsAndReturns :
    (sC3.thr 0).hw.length < 8 ∧ ((sC.thr 0).hw.length = 8 ∧ (sC.thr 0).depth < 512 ∧ isOk (sC.check5 0 (sC.thr 0) 0x10818 8 8 .write false true .retstack) = true) ∧
    (sC3.thr 0).hw = [0x3000] ++ [0x3010] ∧ ((sC2.thr 0).hw = [] ∧ 0 < (sC2.thr 0).depth ∧ isOk (sC2.check5 0 (sC2.thr 0) 0x10810 8 8 .read true false .retstack) = true) ∧
    (sC.Alone 0 (sC.thr 0) ∧ (issue64 ctl).Executes (sC.thr 0) [2] [2] ∧ (issue64 ctl).Executes (sC.thr 0) [2, 2, 3] [2, 3] ∧
      isOk (sC.check5 0 (sC.thr 0) 0x10100 64 8 .read true false .shtable) = true) :=
  ⟨by decide +kernel, by decide +kernel, by decide +kernel, by decide +kernel,
    aloneC, executes_of (by decide +kernel) (by decide +kernel), executes_of (by decide +kernel) (by decide +kernel), by decide +kernel⟩
def homeM : BarHome := .block tM.blk 4
def barM : Barrier := (sM.barGet homeM).getD {}
/-- BarrierInstructions: a barrier of each level, with its open phase and the phase before it. -/
theorem test_hyps_BarrierInstructions :
    sM.Alone 0 tM ∧ sM.barHome tM { level := .block, index := 4 } = some homeM ∧ sM.barGet homeM = some barM ∧
    (sM.barHome tM { level := .grove, index := 7 }).isSome = true ∧ (issue64 ctl).Executes tM [5, 3] [3] ∧
    phaseDone barM barM.phase = false ∧ phaseDone barM (barM.phase + 2 ^ 32 - 1) = true :=
  ⟨aloneM, by decide +kernel, by decide +kernel, by decide +kernel, executes_of runM (by decide +kernel), by decide +kernel, by decide +kernel⟩
/-- A gang of three threads of one bundle, the middle one with p2 false. -/
def sG : State :=
  { sM with gang := [0, 2, 1]
            threads := (sM.threads.put 1 { tM with tid := 1, regs := tM.regs.set 3 9, preds := tM.preds.set 2 true }).put 2 { tM with tid := 2, regs := tM.regs.set 3 1 } }
theorem sG_member : ∀ k ∈ sG.gang, ∃ t, sG.threads.find k = some t ∧ t.status = .run ∧ t.n = 64 ∧ t.marks = [] := by
  have h : ∀ k ∈ sG.gang, (sG.threads.find k).isSome = true ∧ (sG.thr k).status = .run ∧ (sG.thr k).n = 64 ∧ (sG.thr k).marks = [] := by decide +kernel
  intro k hk
  obtain ⟨h1, h2⟩ := h k hk
  refine ⟨sG.thr k, ?_, h2⟩
  unfold State.thr
  exact isSome_getD _ h1
/-- BundleWide: three members, all taking it, and under @p2 only one. -/
theorem test_hyps_BundleWide :
    sG.Together (issue64 ctl) [63, 0, 3] [0, 3] ∧ sG.takers (issue64 ctl) = [0, 2, 1] ∧ sG.takers (issue64 { ctl with guard := 2 }) = [1] := by
  refine ⟨⟨by decide +kernel, rfl, fun k hk => ?_⟩, by decide +kernel, by decide +kernel⟩
  obtain ⟨t, h1, h2, h3, h4⟩ := sG_member k hk
  exact ⟨t, h1, h2, by rw [h3]; decide, fun r _ => by rw [h4]; rfl⟩
/-- GangIsItsMembers: the same gang, under a guard that only one of it passes. -/
theorem test_hyps_GangIsItsMembers :
    Instr.fields (.i64Add { ctl3 with guard := 2 } .w64 false 63 2 3) = some (issue64 { ctl3 with guard := 2 }, [63, 2, 3]) ∧
    Instr.isFixed (.i64Add { ctl3 with guard := 2 } .w64 false 63 2 3) = true ∧
    (issue64 { ctl3 with guard := 2 }).uniform = false ∧ sG.gang.Nodup ∧
    ∀ k ∈ sG.gang, ∃ t, sG.threads.find k = some t ∧ t.marks = [] ∧ t.status = .run ∧ ∀ r ∈ [63, 2, 3], r < t.n := by
  refine ⟨rfl, rfl, rfl, by decide +kernel, fun k hk => ?_⟩
  obtain ⟨t, h1, h2, h3, h4⟩ := sG_member k hk
  exact ⟨t, h1, h4, h2, by rw [h3]; decide⟩
/-- LaunchInstruction: a record and a slot in the page. -/
theorem test_hyps_LaunchInstruction :
    sM.Alone 0 tM ∧ (issue64 ctl).Executes tM [62, 63] [62, 63] ∧ isOk (sM.launchCheck 0 0x10200 0x1FFC0) = true :=
  ⟨aloneM, executes_of runM (by decide +kernel), by decide +kernel⟩

/-! ### Engines, the matrix array, the traversal unit -/

/-- A copy block in v16 to v23, and the operands of a matrix instruction in v24 to v26 (38 × 41 × 71 on one partner). -/
def sE : State := one [(2, 0x10100), (3, 0x40), (16, 0x10000), (17, 0x11000), (18, 2 ^ 56 + 0x3F), (26, BitVec.ofNat 64 (2 ^ 37 + 37 + 2 ^ 10 * 40 + 2 ^ 20 * 70)),
  (30, 0x10100), (32, 0x3f80000040000000), (33, 0x3f8000003f800000), (34, 0x7f800000), (40, 0x08C0000000000000), (41, 0x6C20101AA5FC0003)]
def tE : Thread := sE.thr 0
theorem aloneE : sE.Alone 0 tE := alone_of rfl (by decide +kernel)
theorem runE : (tE.status = .run ∧ tE.marks = []) ∧ (issue64 ctl).holds tE = true := by decide +kernel
def idleCmd (e : Nat) : Cmd :=
  { engine := e, kind := .cpy, thr := 77, recv := [77], ctx := 0, die := 0, launch := 0, grove := 0, blkId := 0, pc := 0, regs := [], credit := none, token := 0
    flag := none, sync := false, ordered := false }
/-- Engine e with n commands. -/
def busy (e n : Nat) : State := { sE with cmds := (List.range n).map fun i => (1000 + i, idleCmd e) }
/-- EngineCommands: an engine with its last entry free and one that is full, the engine of .near, an image that is a matrix instruction
and one that is not, and EQRY of an engine at its highest depth. -/
theorem test_hyps_EngineCommands :
    (sE.Alone 0 tE ∧ (issue64 ctl).Executes tE (6 :: 63 :: (List.range 8).map (56 + ·)) (63 :: (List.range 8).map (56 + ·))) ∧
    ((busy 1 63).engDepth 1 < 64 ∧ 64 ≤ (busy 1 64).engDepth 1 ∧ (busy 17 127).engDepth 17 < 128 ∧ 128 ≤ (busy 17 128).engDepth 17) ∧
    ((0 : Nat) / 4 = dieOf 0 ∧ ∀ j ∈ [0, 1, 2, 3], sE.engDepth 0 ≤ sE.engDepth j ∧ (sE.engDepth j = sE.engDepth 0 → 0 ≤ j)) ∧
    matrixImage (tE.reg 40) = none ∧ (matrixImage (tE.reg 41)).isSome = true ∧ tE.marks = [] ∧ (busy 17 128).engDepth 17 < 256 ∧
    (∀ kind ∈ [CmdKind.coll, .halo], let c := sE.asks ctl false 1 none kind 8 6 16 0 tE
      c.check ≠ 0) ∧ (sE.asks ctl false 1 none .cpy 8 6 16 0 tE).check = 0 := by
  refine ⟨⟨aloneE, executes_of runE (by decide +kernel)⟩, ?_, ?_, ?_, ?_, ?_, ?_, ?_, ?_⟩ <;> decide +kernel
/-- Thread 0 held at an instruction, and on its way again there. -/
def heldS (w : Word) : State := upT { sE with gang := [] } fun t => { t with status := .held w [0] }
def backS (w : Word) : State := { heldS w with threads := (heldS w).threads.upd 0 fun t => { t with status := .run }, gang := [0], inst := w }
/-- EngineCommands and MatrixInstructions: a thread held at a CPY and at an MMAG, for which there is room now. -/
theorem test_hyps_accepts :
    (∀ x ∈ [((0x4010101A81C40003 : Word), Instr.cpy (sg 1 7) false .near (some { level := .block, index := 1 }) 6 16),
        (0x6C20101AA5C40003, .mmag (sg 1 7) 1 .bf (some { level := .block, index := 2 }) 6 16)],
      (heldS x.1).Holds 0 x.2 x.1 (backS x.1) ∧ (backS x.1).Alone 0 ((backS x.1).thr 0)) ∧
    (let s := backS 0x4010101A81C40003
     let t := s.thr 0
     (issue64 (sg 1 7)).Executes t (6 :: (List.range 8).map (16 + ·)) ((List.range 8).map (16 + ·)) ∧
     s.engDepth 0 < 64 ∧ (s.asks (sg 1 7) false 0 (some { level := .block, index := 1 }) .cpy 8 6 16 0 t).check = 0) ∧
    (let s := backS 0x6C20101AA5C40003
     let o := s.asksMatrix (sg 1 7) 1 .bf true false (some { level := .block, index := 2 }) 6 24 0 (s.thr 0)
     s.badRank o.grove o.mask = none ∧ s.arraysFree (s.maskBlocks o.grove o.mask) = true) := by
  have h : ∀ x ∈ [((0x4010101A81C40003 : Word), Instr.cpy (sg 1 7) false .near (some { level := .block, index := 1 }) 6 16),
        (0x6C20101AA5C40003, .mmag (sg 1 7) 1 .bf (some { level := .block, index := 2 }) 6 16)],
      ((heldS x.1).thr 0).status = .held x.1 [0] ∧ decodeTableWord 64 x.1.toNat = some x.2 ∧
      ((heldS x.1).mayIssue 0 ((heldS x.1).thr 0) = true ∧ ((heldS x.1).thr 0).faultDue = false) ∧ ((backS x.1).threads.find 0).isSome = true := by decide +kernel
  exact ⟨fun x hx => ⟨⟨(h x hx).1, (h x hx).2.1, (h x hx).2.2.1, rfl⟩, alone_of rfl (h x hx).2.2.2⟩, ⟨executes_of (by decide +kernel) (by decide +kernel), by decide +kernel⟩, by decide +kernel⟩
def arr (n : Nat) : State := sE.updCore 0 fun c => { c with array := List.replicate n (.op 99999) }
/-- MatrixInstructions and AccumulatorInstructions: arrays with their last entry free and full ones, the last bytes of the accumulators
and of the scratchpad. -/
theorem test_hyps_arrays :
    (sE.Alone 0 tE ∧ (issue64 ctl).Executes tE [6, 24, 25, 26] [24, 25, 26]) ∧ (sE.barHome tE { level := .block, index := 15 }).isSome = true ∧
    (let o := sE.asksMatrix ctl 2 .bf false false none 6 24 0 tE
     sE.badRank o.grove o.mask = none ∧ (arr 7).arraysFree (sE.maskBlocks o.grove o.mask) = true ∧ (arr 8).arraysFree (sE.maskBlocks o.grove o.mask) = false) ∧
    (65528 % 8 = 0 ∧ 65528 + 8 ≤ sE.accBytes 0) ∧ (65532 % 4 = 0 ∧ 65532 + 4 ≤ sE.accBytes 0) ∧ (32768 % 2 = 0 ∧ 32768 + 2 * 16384 ≤ blkM.scratchBytes) ∧
    ((arr 7).core (coreOf 0)).array.length < 8 ∧ 8 ≤ ((arr 8).core (coreOf 0)).array.length := by
  refine ⟨⟨aloneE, executes_of runE (by decide +kernel)⟩, ?_, ?_, ?_, ?_, ?_, ?_, ?_⟩ <;> decide +kernel
/-- SharesCoverTheOperation: as many groups as partners. -/
theorem test_hyps_SharesCoverTheOperation : 0 < 16 ∧ 0 < 3 ∧ 3 ≤ (38 + 16 - 1) / 16 ∧ (List.range 3).map (shareSpan 38 16 3) = [16, 16, 6] := by decide
/-- TraversalInstructions and GraftAndFrameout: the highest runs, an array of zeros that is no ray, and a core with a TRACEK unit. -/
theorem test_hyps_TraversalInstructions :
    sE.Alone 0 tE ∧ (issue64 ctl).Executes tE ((List.range 6).map (58 + ·) ++ (List.range 9).map (55 + ·)) ((List.range 6).map (58 + ·)) ∧
    rayOf (fun i => tE.reg (50 + i)) = none ∧ (rayOf fun i => tE.reg (30 + i)).isSome = true ∧ Config.gaussCapable (coreOf 0 % 512) = true ∧
    (issue64 ctl).Executes tE (63 :: (List.range 4).map (60 + ·)) ((List.range 4).map (60 + ·)) ∧ (issue64 ctl).Executes tE [63, 0, 62] [0, 62] :=
  ⟨aloneE, executes_of runE (by decide +kernel), by decide +kernel, by decide +kernel, by decide +kernel, executes_of runE (by decide +kernel),
    executes_of runE (by decide +kernel)⟩

/-! ### Special registers, faults, and the rules of every instruction -/

/-- A thread with a handler, a record that is not active and a record before it. -/
def sS : State := upT (one [(2, 0xfedcba9876543213)]) fun t => { t with frec := { w3 := 77 }, frecPrev := { w5 := 99 }, tlsbase := 0x7000, tba := 0x9990 }
def sS2 : State := upT sS fun t => { t with tba := 0 }
/-- Its record is active: of a watchpoint, at an instruction of eight bytes. -/
def sS3 : State := upT sS fun t => { t with frec := { t.frec with w7 := 1, w0 := 0x12340, w6 := 3, w1 := 0x1d } }
def sS4 : State := sS.updBlock 2 fun b => { b with c0 := BitVec.ofNat 64 (2 ^ 26) }
def sS5 : State := upT sS3 fun t => { t with frec := { t.frec with w5 := 5 } }
theorem aloneS : sS.Alone 0 (sS.thr 0) := alone_of rfl (by decide +kernel)
theorem aloneS3 : sS3.Alone 0 (sS3.thr 0) := alone_of rfl (by decide +kernel)
theorem runS : ((sS.thr 0).status = .run ∧ (sS.thr 0).marks = []) ∧ (issue64 ctl).holds (sS.thr 0) = true := by decide +kernel
def groveM : Grove := (sM.groves.find blkM.grove).getD { launch := 0, index := 0, die := 0, bars := [] }
def launchM : Launch := (sM.launches.find blkM.launch).getD { words := [], ctx := 0, queue := 0, die := 0, order := 0 }
/-- SpecialRegisters: a thread with its block, grove and launch on a die and at a rank within their fields. -/
theorem test_hyps_SpecialRegisters :
    sS.Alone 0 (sS.thr 0) ∧ sS.blocks.find (sS.thr 0).blk = some blkM ∧ sS.groves.find blkM.grove = some groveM ∧ sS.launches.find blkM.launch = some launchM ∧
    (issue64 ctl).Executes (sS.thr 0) [63] [63] ∧ dieOf 0 < 4 ∧ blkM.rank < 2 ^ 16 :=
  ⟨aloneS, by decide +kernel, by decide +kernel, by decide +kernel, executes_of runS (by decide +kernel), by decide +kernel, by decide +kernel⟩
/-- TrapAndBreakpoint: hardware mode with a handler and no active record, with an active one, without a handler, and the other mode. -/
theorem test_hyps_TrapAndBreakpoint :
    (sS.Alone 0 (sS.thr 0) ∧ sS.blocks.find (sS.thr 0).blk = some blkM ∧ (issue64 ctl).Executes (sS.thr 0) [] []) ∧
    blkM.c0.getLsbD 26 = false ∧ (sS.thr 0).frec.w7.getLsbD 0 = false ∧ (sS.thr 0).tba ≠ 0 ∧ (sS3.thr 0).frec.w7.getLsbD 0 = true ∧ (sS2.thr 0).tba = 0 ∧
    (sS4.blocks.find (sS4.thr 0).blk).any (fun b => b.c0.getLsbD 26) = true :=
  ⟨⟨aloneS, by decide +kernel, executes_of runS (by decide +kernel)⟩, by decide +kernel, by decide +kernel, by decide +kernel, by decide +kernel,
    by decide +kernel, by decide +kernel⟩
/-- ReturnFromFault: an active record that may be skipped, none, and one that may not be skipped. -/
theorem test_hyps_ReturnFromFault :
    sS3.Alone 0 (sS3.thr 0) ∧ (issue64 ctl).Executes (sS3.thr 0) [] [] ∧ (sS3.thr 0).reissue = false ∧ (sS3.thr 0).frec.w7.getLsbD 0 = true ∧
    ((sS3.thr 0).frec.w1.toNat / 2 ^ 12 % 16 ≠ 1 ∧ (sS3.thr 0).frec.w5 = 0) ∧ (sS2.thr 0).frec.w7.getLsbD 0 = false ∧
    ((sS5.thr 0).frec.w7.getLsbD 0 = true ∧ (sS5.thr 0).frec.w5 ≠ 0) :=
  ⟨aloneS3, executes_of (by decide +kernel) (by decide +kernel), by decide +kernel, by decide +kernel, by decide +kernel, by decide +kernel, by decide +kernel⟩
/-- FalseGuardHasNoEffect, RegisterRange and Predicates: a guard that is false, and runs up to and past the last register. -/
theorem test_hyps_guards :
    let off : Ctl := { ctl3 with neg := true }
    sS.Alone 0 (sS.thr 0) ∧ (sS.thr 0).status = .run ∧ (issue64 off).holds (sS.thr 0) = false ∧ (issue64 off).guard = 7 ∧ (issue64 off).neg = true ∧
    Instr.fields (.halo off false .near none 3 55) = some (issue64 off, 3 :: run 55 9) ∧ (∀ r ∈ 3 :: run 55 9, r < (sS.thr 0).n) ∧
    (∃ r ∈ 3 :: run 56 9, (sS.thr 0).n ≤ r) :=
  ⟨aloneS, by decide +kernel, by decide +kernel, rfl, rfl, rfl, by decide +kernel, ⟨64, by decide +kernel⟩⟩
def markE : Mark := { issuePc := 0x55, source := 17, code := 3, addr := 0x99, step := 4 }
def sK : State := upT sM fun t => { t with marks := [(2, markE), (3, { issuePc := 0x57, source := 20, code := 3 })] }
/-- MarkedRegister: two marked registers; the lower one is read, and the higher one alone. -/
theorem test_hyps_MarkedRegister :
    sK.Alone 0 (sK.thr 0) ∧ (issue64 ctl).holds (sK.thr 0) = true ∧ (sK.thr 0).marks.find 2 = some markE ∧ markE.issuePc ≠ 0 ∧
    (∀ x ∈ [5, 2, 3], x < (sK.thr 0).n) ∧ (∀ x ∈ [2, 3], x < 2 → (sK.thr 0).marks.find x = none) ∧
    (((sK.thr 0).marks.find 3).any fun m => m.issuePc != 0) = true ∧ (∀ x ∈ [3], x < 3 → (sK.thr 0).marks.find x = none) ∧
    (Instr.fields (.i64Add ctl .w64 false 5 2 3) = some (issue64 ctl, [5, 2, 3]) ∧ Instr.reads (sK.thr 0) (.i64Add ctl .w64 false 5 2 3) = [2, 3]) ∧
    Instr.reads (sK.thr 0) (.stB64 ctl 0 .none 3 5) = [3, 5] ∧ Instr.reads ((upT sM fun t => { t with regs := t.regs.set 6 0x6C20101AA5FC0003 }).thr 0) (.cpym ctl false .near none 5 8 6) =
      6 :: run 8 8 ++ run 16 3 :=
  ⟨alone_of rfl (by decide +kernel), by decide +kernel, by decide +kernel, by decide +kernel, by decide +kernel, by decide +kernel, by decide +kernel, by decide +kernel,
    ⟨rfl, rfl⟩, rfl, by decide +kernel⟩
/-- A comparator on the doubleword at 0x10100, for reads and writes; the versioned page away; the pages of a return stack and a table away. -/
def sWt : State := ((sM.setReg (Off.dbg 0 0) 0x10100).setReg (Off.dbg 0 8) 0x10107).setReg (Off.dbg 0 0x10) 7
def sVa : State := pokeW sV 0x106010 0x300036
def sCa : State := pokeW sC 0x106008 0x200072
def sC2a : State := pokeW sC2 0x106008 0x200072
def awayAt (s : State) (a : Word) (n : Nat) (need : Need) (rd wr : Bool) : Bool :=
  (match s.leafFor (Agent.core 0) (s.ctxOf (s.thr 0)) a need with
    | .ok l => l == lfA && (match s.place (Agent.core 0) (s.ctxOf (s.thr 0)) a n l with
      | .error .away => true
      | .error (.fault _) | .ok _ => false)
    | .error _ => false) && decide (s.watchHits 0 (s.thr 0) a n rd wr = 0)
/-- MemoryCheckOrder: a comparator that matches, steps that an LDV may not name, a page without versions, one that is away; stores and atomics, a spill
and a fill on pages that are away. -/
theorem test_hyps_MemoryCheckOrder_forms :
    (sWt.leafFor (Agent.core 0) (sWt.ctxOf tM) 0x10100 .read = .ok lf0 ∧ tM.skipWatch = false ∧ sWt.watchHits 0 tM 0x10100 8 true false ≠ 0 ∧
      sWt.watchHits 0 tM 0x10100 8 false true ≠ 0) ∧
    (sV.check4 0 (sV.thr 0) 0x20100 8 8 .read true false .versioned = .ok lfV ∧ lfV.versioned = true ∧ sV.regionWO (some (dieOf 0)) (sV.regionOf lfV.record) = (5, 2)) ∧
    (sM.check4 0 tM 0x10100 8 8 .read true false .versioned = .ok lf0 ∧ lf0.versioned = false) ∧
    (sVa.check4 0 (sVa.thr 0) 0x20100 8 8 .read true false .versioned = .ok { lfV with word := 0x300036 } ∧ ({ lfV with word := 0x300036 } : Leaf).versioned = true ∧
      sVa.regionWO (some (dieOf 0)) (sVa.regionOf lfV.record) = (5, 2) ∧ sVa.resolve lfV.record 4 = some 0x210000 ∧ ({ lfV with word := 0x300036 } : Leaf).resident = false) ∧
    (awayAt sAway 0x10100 8 .write false true = true ∧ awayAt sAway 0x10100 8 .write true true = true ∧ awayAt sAway 0x10100 8 .read true false = true) ∧
    ((sCa.thr 0).hw.length = 8 ∧ (sCa.thr 0).depth = 3 ∧ (sCa.thr 0).tlsbase = 0x10800 ∧ awayAt sCa 0x10818 8 .write false true = true) ∧
    ((sC2a.thr 0).hw = [] ∧ (sC2a.thr 0).depth = 3 ∧ awayAt sC2a 0x10810 8 .read true false = true) := by
  refine ⟨?_, ?_, ?_, ?_, ?_, ?_, ?_⟩ <;> decide +kernel
/-- MemoryCheckOrder: one address for each of its four faults, the last on the page that is away. -/
theorem test_hyps_MemoryCheckOrder :
    sM.Alone 0 tM ∧ (issue64 ctl).Executes tM [63, 2] [2] ∧ (0x0200000000000000 : Word).extractLsb' 57 7 ≠ 0 ∧
    ((0x01FFFFFFFFFFFFFF : Word).extractLsb' 57 7 = 0 ∧ (0x01FFFFFFFFFFFFFF : Word).toNat % 2 ≠ 0) ∧ isOk (sM.leafFor (Agent.core 0) (sM.ctxOf tM) 0x20000 .read) = false ∧
    (sAway.Alone 0 (sAway.thr 0) ∧ sAway.leafFor (Agent.core 0) (sAway.ctxOf (sAway.thr 0)) 0x10100 .read = .ok lfA ∧
      sAway.watchHits 0 (sAway.thr 0) 0x10100 8 true false = 0 ∧ sAway.place (Agent.core 0) (sAway.ctxOf (sAway.thr 0)) 0x10100 8 lfA = .error .away) :=
  ⟨aloneM, executes_of runM (by decide +kernel), by decide +kernel, by decide +kernel, by decide +kernel, aloneA, by decide +kernel, by decide +kernel, by decide +kernel⟩
/-- LatestIssueLandsLast: three writes of v3 and two of p2, out of order in time, one of them not yet due. -/
def landings : Thread :=
  { tM with writes := [⟨5, 1, .reg 3 7 none⟩, ⟨4, 2, .reg 3 8 none⟩, ⟨5, 2, .pred 2 true⟩, ⟨6, 3, .reg 3 9 none⟩, ⟨5, 3, .pred 2 false⟩] }
theorem test_hyps_LatestIssueLandsLast :
    landings.writes.Pairwise (fun x y => x.seq ≤ y.seq) ∧ 3 < landings.regs.length ∧ 2 < landings.preds.length ∧
    (let due := landings.writes.filter fun w => decide (w.landClk ≤ 5)
     (⟨4, 2, .reg 3 8 none⟩ : PendingWrite) ∈ due ∧ (⟨5, 3, .pred 2 false⟩ : PendingWrite) ∈ due ∧ due.length = 4) ∧
    (landings.landAll 5).reg 3 = 8 ∧ (landings.landAll 5).pred 2 = false ∧ (landings.landAll 6).reg 3 = 9 := by
  refine ⟨?_, ?_, ?_, ?_, ?_, ?_, ?_⟩ <;> decide +kernel
def launchA : Launch :=
  { words := [0x10000, 77, 0, 0, 0, pack [(2, 0), (1, 32), (33, 37), (2, 48)], pack [(40, 24), (1, 32), (1, 40)], 0], ctx := 0, queue := 0, die := 0, order := 9
    nextGrove := 1, started := true }
/-- ThreadStarts: a block of 33 threads of 48 registers is placed on core 0 beside the thread that runs there. -/
theorem test_hyps_ThreadStarts :
    (({ sM with launches := sM.launches.put 9 launchA } : State).placeBlockAs 20 9 launchA 1 0 0).any fun s1 =>
      s1.threads.length == 34 && (s1.thr 2048).n == 48 && (s1.thr 2048).reg 0 == 77 && (sM.threads.find 2048).isNone := by decide +kernel

/-! ### Operations that end, threads that leave, forms that wait, barriers -/

/-- An operation of thread 0. -/
def opOf (kind : OpKind) (sync : Bool) : Op :=
  { thr := 0, recv := [0], pc := 0x10000, word := 0, issueClk := 0, flag := if sync then none else some 3, sync := sync, kind := kind }
def withOp (s : State) (kind : OpKind) (sync : Bool) : State := { s with ops := [(10, opOf kind sync)], nextSeq := 11 }
/-- Core 0 holds the line at 0x200100 modified; a word of memory and a word of the scratchpad are other than zero. -/
def big : State :=
  { (pokeW sM 0x200100 0x1122334455667788).updBlock 2 (fun b => { b with scratch := Mem.writeN [] 0x40 [1, 2, 3, 4, 5, 6, 7, 8] }) with
    gang := [], l1 := [{ core := 0, line := 0x2001, states := [3, 3, 3, 3] }]
    l2 := [{ die := 0, line := 0x2001, owners := [(0, 0), (1, 0), (2, 0), (3, 0)], ptrs := [0] }] }
/-- The accumulators hold eight bytes, and operation 10 stands at the head of the array. -/
def bigC : State := big.updCore 0 fun c => { c with acc := Mem.writeN [] 0x08 [9, 8, 7, 6, 5, 4, 3, 2], array := [.op 10] }
def a8 : Access := ac 8 0x10100
def a4 : Access := ac 4 0x10104
/-- A word of host memory under WC, and its entry in the buffer of core 0. -/
def aW : Access := { a8 with pa := 2 ^ 51 + 0x100, policy := 2 }
def bigW : State := big.updCore 0 fun c => { c with wc := [{ line := aW.pa / 256, ops := [10] }] }
def bigBlock : Block := (big.blocks.find 2).getD blkM
def stands (s : State) (kind : OpKind) (sync excl : Bool) : Bool :=
  decide (s.ops.find 10 = some (opOf kind sync)) && kind.peerAccess.isNone && s.canPerform 10 (opOf kind sync) excl &&
    (s.threads.find 0).isSome && (decide ((s.thr 0).status = .run) || decide ((s.thr 0).status = .sync 10))
theorem free_of {s : State} {kind : OpKind} {sync excl : Bool} (h : stands s kind sync excl = true) : s.Free 10 (opOf kind sync) 0 excl := by
  simp only [stands, Bool.and_eq_true, Bool.or_eq_true, decide_eq_true_eq, Option.isNone_iff_eq_none] at h
  refine ⟨h.1.1.1.1, ⟨rfl, rfl⟩, h.1.1.1.2, h.1.1.2, s.thr 0, ?_, h.2.imp_right fun h => ⟨10, h⟩⟩
  unfold State.thr
  exact isSome_getD _ h.1.2
def plainly (s : State) (a : Access) : Bool :=
  Mem.wf s.mem && (List.range a.size).all (fun i => (s.paNow a + i) / 64 == s.paNow a / 64) && (s.keyTags.find (s.paNow a / 64)).isNone
theorem plain_of {s : State} {a : Access} (h : plainly s a = true) : s.Plain a := by
  simp only [plainly, Bool.and_eq_true, List.all_eq_true, List.mem_range, beq_iff_eq, Option.isNone_iff_eq_none] at h
  exact ⟨h.1.1, h.1.2, .inl h.2⟩

/-- A CALLT at its header, with an index inside the table and one past it, and at its entry. -/
def callt (i : Word) (e : Option Word) (a : Access) : CalltOp := { vd := 5, pd := 2, base := 0x10100, index := i, entry := e, want := a }
/-- The thread's return stack is full, or has room, over a region at 0x10800. -/
def sCt (n : Nat) (code : Nat) (c : CalltOp) : State :=
  withOp (upT (shTab big code) fun t => { t with tlsbase := 0x10800, depth := 3, hw := (List.range n).map fun i => BitVec.ofNat 57 (0x2000 + 8 * i), status := .sync 10 }) (.callt c) true
def ctOk (s : State) (c : CalltOp) : Bool := stands s (.callt c) true false
/-- CallsAndReturns, the loads of a CALLT: both ways to an entry, a null one, and a call with and without a spill. -/
theorem test_hyps_CallsAndReturns_loads :
    ((0#64 |>.setWidth 32).toNat < ((0x100000001#64).setWidth 32).toNat ∧ ¬((7#64).setWidth 32).toNat < ((0x100000001#64).setWidth 32).toNat ∧
      (0x100000001#64).getLsbD 32 = true ∧ 0 < ((0x100000001#64).setWidth 32).toNat) ∧
    (∀ i ∈ [0, 7],
      let c := callt (BitVec.ofNat 64 i) none (ac 64 0x10100)
      let s := sCt 2 0x1C000 c
      let o := opOf (.callt c) true
      let s0 := s.fromOwner o c.want
      let v := s0.loadValue 10 0 c.want
      let s1 := (s0.afterRead 10 o (s0.paNow c.want) c.want.size false).readNow 10 o c.want
      s.Free 10 o 0 false ∧ v = 0x100000001 ∧
        isOk (s1.check5 0 (s.thr 0) 0x10140 8 8 .read true false .shtable) = true) ∧
    (∀ n ∈ [7, 8], ∀ code ∈ [0, 0x1C000],
      let c := callt 0 (some 0x10140) (ac 8 0x10140)
      let s := sCt n code c
      let o := opOf (.callt c) true
      let s0 := s.fromOwner o c.want
      let s1 := (s0.afterRead 10 o (s0.paNow c.want) c.want.size false).readNow 10 o c.want
      s.Free 10 o 0 false ∧ s0.loadValue 10 0 c.want = BitVec.ofNat 64 code ∧ (s.thr 0).hw.length = n ∧ (s.thr 0).depth < 512 ∧
        isOk (s1.check5 0 (s.thr 0) 0x10818 8 8 .write false true .retstack) = true) := by
  have h : ∀ i ∈ [0, 7],
      let c := callt (BitVec.ofNat 64 i) none (ac 64 0x10100)
      let s := sCt 2 0x1C000 c
      let o := opOf (.callt c) true
      let s0 := s.fromOwner o c.want
      let v := s0.loadValue 10 0 c.want
      let s1 := (s0.afterRead 10 o (s0.paNow c.want) c.want.size false).readNow 10 o c.want
      ctOk s c = true ∧ v = 0x100000001 ∧
        isOk (s1.check5 0 (s.thr 0) 0x10140 8 8 .read true false .shtable) = true := by decide +kernel
  have g : ∀ n ∈ [7, 8], ∀ code ∈ [0, 0x1C000],
      let c := callt 0 (some 0x10140) (ac 8 0x10140)
      let s := sCt n code c
      let o := opOf (.callt c) true
      let s0 := s.fromOwner o c.want
      let s1 := (s0.afterRead 10 o (s0.paNow c.want) c.want.size false).readNow 10 o c.want
      ctOk s c = true ∧ s0.loadValue 10 0 c.want = BitVec.ofNat 64 code ∧ (s.thr 0).hw.length = n ∧ (s.thr 0).depth < 512 ∧
        isOk (s1.check5 0 (s.thr 0) 0x10818 8 8 .write false true .retstack) = true := by decide +kernel
  exact ⟨by decide, fun i hi => ⟨free_of (h i hi).1, (h i hi).2⟩, fun n hn c hc => ⟨free_of (g n hn c hc).1, (g n hn c hc).2⟩⟩

/-- A word of host memory under NC. -/
def aH : Access := { a8 with pa := 2 ^ 51 + 0x100, policy := 1 }
/-- ResultsLand: one outstanding operation of each kind that it names. -/
theorem test_hyps_ResultsLand :
    (withOp big (.result [.reg 4 5 none]) true).Free 10 (opOf (.result [.reg 4 5 none]) true) 0 false ∧
    (withOp big (.load a8 true 5 2) false).Free 10 (opOf (.load a8 true 5 2) false) 0 false ∧
    ((withOp big (.lds 2 0x42 4 true 7) false).Free 10 (opOf (.lds 2 0x42 4 true 7) false) 0 false ∧ big.blocks.find 2 = some bigBlock ∧ (2, 0x42 / 8) ∉ big.badSpad) ∧
    ((withOp big (.fence .full .die) true).Free 10 (opOf (.fence .full .die) true) 0 false ∧
      (withOp big (.fence .full .die) true).fenceOk 10 (opOf (.fence .full .die) true) .full .die = true) ∧
    ((withOp big (.load aH true 5 2) false).Free 10 (opOf (.load aH true 5 2) false) 0 false ∧ isHost ((withOp big (.load aH true 5 2) false).paNow aH) = true) ∧
    (isHost ((withOp big (.load a8 true 5 2) false).paNow a8) = false ∧ a8.size = 8 ∧ (withOp big (.load a8 true 5 2) false).Plain a8 ∧
      (withOp big (.load a8 true 5 2) false).inflight = []) ∧
    (∀ c ∈ [CctlOp.wbl1, .invl2, .iinvall],
      (withOp big (.cctl c 0x200100) false).Free 10 (opOf (.cctl c 0x200100) false) 0 false ∧
      (withOp big (.cctl c 0x200100) false).cctlReady (opOf (.cctl c 0x200100) false) c 0x200100 = true) ∧
    (∀ kind ∈ [OpKind.accz 8 4, .accrd 8 4 6, .accwr 12 8 5, .permt 2 0x40 3],
      (withOp bigC kind true).Free 10 (opOf kind true) 0 false ∧ (withOp bigC kind true).atHead 10 (opOf kind true) = true) ∧ Mem.wf (bigC.core 0).acc = true := by
  have h : ∀ kind ∈ [OpKind.accz 8 4, .accrd 8 4 6, .accwr 12 8 5, .permt 2 0x40 3],
      stands (withOp bigC kind true) kind true false = true ∧ (withOp bigC kind true).atHead 10 (opOf kind true) = true := by decide +kernel
  have g : ∀ c ∈ [CctlOp.wbl1, .invl2, .iinvall], stands (withOp big (.cctl c 0x200100) false) (.cctl c 0x200100) false false = true ∧
      (withOp big (.cctl c 0x200100) false).cctlReady (opOf (.cctl c 0x200100) false) c 0x200100 = true := by decide +kernel
  exact ⟨free_of (by decide +kernel), free_of (by decide +kernel), ⟨free_of (by decide +kernel), by decide +kernel, by decide +kernel⟩,
    ⟨free_of (by decide +kernel), by decide +kernel⟩, ⟨free_of (by decide +kernel), by decide +kernel⟩,
    ⟨by decide +kernel, by decide +kernel, plain_of (by decide +kernel), by decide +kernel⟩, fun c hc => ⟨free_of (g c hc).1, (g c hc).2⟩, fun k hk => ⟨free_of (h k hk).1, (h k hk).2⟩, by decide +kernel⟩
/-- StoresPerform: a store, one of a WC page that the buffer does not hold and one that it holds, a filling SIGNAL and an STS. -/
theorem test_hyps_StoresPerform :
    ((withOp big (.store a4 0x99aabbcc) false).Free 10 (opOf (.store a4 0x99aabbcc) false) 0 false ∧ a4.policy ≠ 2 ∧ a4.size ≤ 8 ∧ (withOp big (.store a4 0x99aabbcc) false).Plain a4) ∧
    ((withOp big (.store aW 5) false).Free 10 (opOf (.store aW 5) false) 0 false ∧ aW.policy = 2 ∧ ((withOp big (.store aW 5) false).core (coreOf 0)).wc = []) ∧
    ((withOp bigW (.store aW 5) false).Free 10 (opOf (.store aW 5) false) 0 false ∧ ((withOp bigW (.store aW 5) false).core (coreOf 0)).wc = [{ line := aW.pa / 256, ops := [10] }] ∧
      aW.size ≤ 8 ∧ (withOp bigW (.store aW 5) false).Plain aW) ∧
    ((withOp big (.signal a8 true 5) false).Free 10 (opOf (.signal a8 true 5) false) 0 false ∧ a8.size = 8 ∧ (withOp big (.signal a8 true 5) false).Plain a8) ∧
    ((withOp big (.sts 2 65528 8 5) false).Free 10 (opOf (.sts 2 65528 8 5) false) 0 false ∧ big.blocks.find 2 = some bigBlock ∧ Mem.wf bigBlock.scratch = true) :=
  ⟨⟨free_of (by decide +kernel), by decide +kernel, by decide +kernel, plain_of (by decide +kernel)⟩, ⟨free_of (by decide +kernel), by decide +kernel, by decide +kernel⟩,
    ⟨free_of (by decide +kernel), by decide +kernel, by decide +kernel, plain_of (by decide +kernel)⟩,
    ⟨free_of (by decide +kernel), by decide +kernel, plain_of (by decide +kernel)⟩,
    ⟨free_of (by decide +kernel), by decide +kernel, by decide +kernel⟩⟩
/-- WhoSeesAStore: memory in canonical form, no key tag, nothing on its way, and one store outstanding. -/
theorem test_hyps_WhoSeesAStore :
    Mem.wf big.mem = true ∧ big.keyTags.find (0x200103 / 64) = none ∧ big.inflight.find big.nextSeq = none ∧
    (∀ e ∈ big.inflight, Tbl.find e.2.old 0x200103 = none) ∧ (withOp big (.store a4 5) false).ops = [(10, opOf (.store a4 5) false)] :=
  ⟨by decide +kernel, by decide +kernel, by decide +kernel, by decide +kernel, rfl⟩
def formS (o : FeOp) (e : List Nat) : State := { withOp big (.feform a8 o 0x7788 5 2) false with empties := e }
/-- FullEmptySteps: each form on a FULL and on an EMPTY word. -/
theorem test_hyps_FullEmptySteps :
    ∀ o ∈ [FeOp.ldw, .ldc, .stf, .stx, .purge, .feq], ∀ e ∈ [[], [0x200100]],
      (formS o e).Free 10 (opOf (.feform a8 o 0x7788 5 2) false) 0 true ∧ isDevice ((formS o e).paNow a8) = true ∧ a8.size = 8 ∧ (formS o e).Plain a8 ∧
      (formS o e).fullAt (some (dieOf 0)) ((formS o e).paNow a8) = e.isEmpty := by
  have h : ∀ o ∈ [FeOp.ldw, .ldc, .stf, .stx, .purge, .feq], ∀ e ∈ [[], [0x200100]],
      stands (formS o e) (.feform a8 o 0x7788 5 2) false true = true ∧ isDevice ((formS o e).paNow a8) = true ∧ a8.size = 8 ∧ plainly (formS o e) a8 = true ∧
      (formS o e).fullAt (some (dieOf 0)) ((formS o e).paNow a8) = e.isEmpty := by decide +kernel
  intro o ho e he
  obtain ⟨h1, h2, h3, h4, h5⟩ := h o ho e he
  exact ⟨free_of h1, h2, h3, plain_of h4, h5⟩
def memb : AtomMember := { thr := 0, x := 0x11223344, y := 5, dst := some 7 }
/-- AtomicSteps: each update on four and on eight bytes, CAS with its comparand in memory and not. -/
theorem test_hyps_AtomicSteps :
    (∀ f ∈ [AtomFn.op .add .s, .op .add .n, .op .min .s, .op .min .n, .op .max .s, .op .max .n, .op .and .n, .op .or .n, .op .xor .n, .op .exch .n, .cas], ∀ a ∈ [a4, a8],
      (withOp big (.atomic a f [memb]) true).Free 10 (opOf (.atomic a f [memb]) true) 0 false ∧ memb.thr = 0 ∧ (a.size = 4 ∨ a.size = 8) ∧
      ((withOp big (.atomic a f [memb]) true).fromOwner (opOf (.atomic a f [memb]) true) a).Plain a) ∧
    (big.readPa none 0 0x200104 4).setWidth 32 = memb.x.setWidth 32 ∧ big.readPa none 0 0x200100 8 ≠ memb.x := by
  have h : ∀ f ∈ [AtomFn.op .add .s, .op .add .n, .op .min .s, .op .min .n, .op .max .s, .op .max .n, .op .and .n, .op .or .n, .op .xor .n, .op .exch .n, .cas], ∀ a ∈ [a4, a8],
      stands (withOp big (.atomic a f [memb]) true) (.atomic a f [memb]) true false = true ∧ (a.size = 4 ∨ a.size = 8) ∧
      plainly ((withOp big (.atomic a f [memb]) true).fromOwner (opOf (.atomic a f [memb]) true) a) a = true := by decide +kernel
  refine ⟨fun f hf a ha => ?_, by decide +kernel, by decide +kernel⟩
  obtain ⟨h1, h2, h3⟩ := h f hf a ha
  exact ⟨free_of h1, rfl, h2, plain_of h3⟩
/-- Thread 0 in a status. -/
def wS (st : TStatus) : State := upT big fun t => { t with status := st }
/-- ThreadEvents: a thread whose wait is over, whose YIELD is over, that has left, that waits for a table entry, and one held by a spill, a
fill and an answered TOUCH. -/
theorem test_hyps_ThreadEvents :
    ((wS (.wait false 0 (some 3))).thr 0).status = .wait false 0 (some 3) ∧ 0 ≤ (wS (.wait false 0 (some 3))).clk ∧ 0 ≤ (wS (.wait true 0 none)).ptp ∧
    ((wS (.yield 0)).thr 0).status = .yield 0 ∧ 0 ≤ (wS (.yield 0)).clk ∧ ((wS (.yield 0)).threads.find 0).isSome = true ∧
    ((wS .exited).thr 0).writes = [] ∧ (∀ n ∈ ((wS .exited).thr 0).flags, n = 0) ∧
    ((upT big fun t => { t with tabled := .waits 7 }).tableEntries (coreOf 0) (partOf 0)).length < 128 ∧
    (upT big fun t => { t with tabled := .waits 7 }).threads.all (fun e => e.1 == 0) = true ∧
    ((withOp (wS (.sync 10)) (.spill a8 5) true).Free 10 (opOf (.spill a8 5) true) 0 false ∧ (withOp (wS (.sync 10)) (.spill a8 5) true).Plain a8 ∧
      (withOp (wS (.sync 10)) (.spill a8 5) true).peerWaiting 10 = false) ∧
    ((withOp (wS (.sync 10)) (.fill a8) true).Free 10 (opOf (.fill a8) true) 0 false ∧ (withOp (wS (.sync 10)) (.fill a8) true).peerWaiting 10 = false) ∧
    (withOp big (.touch 0x10100 0 2 (some false)) false).ops.find 10 = some (opOf (.touch 0x10100 0 2 (some false)) false) := by
  refine ⟨?_, ?_, ?_, ?_, ?_, ?_, ?_, ?_, ?_, ?_, ⟨free_of ?_, plain_of ?_, ?_⟩, ⟨free_of ?_, ?_⟩, ?_⟩ <;> decide +kernel
def waitS (st : TStatus) (e sec : List Nat) : State := { withOp (wS st) (.feform a8 .ldw 0 5 2) false with empties := e, sectors := sec }
/-- WaitingEvents: a form whose word has its state, one whose word has not, a word that woke, an exclusive line, a released form. -/
theorem test_hyps_WaitingEvents :
    (let s := waitS (.form 0x200100 true false false false) [] [0x8004]
     (s.threads.find 0).isSome = true ∧ (s.thr 0).status = .form 0x200100 true false false false ∧ s.formOp 0 = some (10, opOf (.feform a8 .ldw 0 5 2) false) ∧ s.full 0x200100 = true ∧
      s.recordHeld 0 = false ∧ s.exclusiveHolder 0x200100 = some 0 ∧ ({ s with l1 := [] } : State).exclusiveHolder 0x200100 = none ∧ ({ s with l1 := [] } : State).recordHeld 0 = false) ∧
    (let s := waitS (.form 0x200100 true false false false) [0x200100] [0x8004]
     s.full 0x200100 ≠ true ∧ s.recordHeld 0 = false ∧ 0x200100 / 64 ∈ s.sectors ∧ ((s.waitTab.filter fun x => homeSlice x.word == homeSlice 0x200100).length < 64) ∧
      s.parkIds (sliceDie (homeSlice 0x200100)) (s.ctxOf (s.thr 0)) 0x200100 = []) ∧
    (let s : State := { waitS (.form 0x200100 true false true false) [] [0x8004] with wakes := [(0x200100, true)] }
     s.wakes.find? (fun x => x.1 == 0x200100) = some (0x200100, true) ∧ s.waitCtxs = [0] ∧ s.parkHeld 0 0x200100 = false) ∧
    (∀ e ∈ [[], [0x200100]],
      let s : State := { waitS (.form 0x200100 true false true false) e [0x8004] with wnotes := [(0, 0x200100, 0)] }
      s.wnotes.find? (fun n => n.1 == 0 && n.2.1 == 0x200100) = some (0, 0x200100, 0) ∧ s.recordHeld 0 = false ∧ (s.thr 0).status = .form 0x200100 true false true false ∧
        s.full 0x200100 = e.isEmpty ∧ 2 ≤ s.l1State 0 0x200100 ∧ 0x200100 / 64 ∈ s.sectors) ∧
    (let s : State := { waitS (.form 0x200100 true false true true) [] [] with retries := [(0x200100, 0)] }
     s.canPerform 10 (opOf (.feform a8 .ldw 0 5 2) false) true = true ∧ isDevice (s.paNow a8) = true ∧ s.fullAt (some (dieOf 0)) (s.paNow a8) = true ∧
      s.recordHeld 0 = false ∧ (s.core (coreOf 0)).stopped.contains (partOf 0) = false) := by
  refine ⟨?_, ?_, ?_, ?_, ?_⟩ <;> decide +kernel
/-- A query outstanding over core 0's line, or with no cache that holds it. -/
def unitS (u : UnitOp) (held : Bool) : State :=
  withOp (if held then big else { big with l1 := [], l2 := [], taproot := [(0x8004, [0, 1, 0, 0])], frames := [(0x20, { cls := .shared, tenant := 1 })] }) (.unit u) true
/-- The code of what a query answers, and the address of an error; none for results. -/
def unitCodes (s : State) (u : UnitOp) : Option (Nat × Word) :=
  match ((s.unitUpd 10 fun x => { x with count := {} }).unitQuery 10 u).2 with
  | .ok _ => none
  | .error e => some e
/-- TraversalInstructions, the answers: results, a ray that is none, a descriptor of another kind, one that is malformed, and a read that waits for
its sector. -/
def unitCases : List (UnitOp × Bool × Option (Nat × Word)) :=
  [(UnitOp.mk (.hitattr 0x10100) 8 [0, 0, 0] {}, true, none), (UnitOp.mk (.trace true) 8 [0, 0, 0, 0, 0, 0] {}, true, some (1, 0)),
        (UnitOp.mk (.hitattr 0x10100) 8 [0x300000000, 0, 0] {}, true, some (2, 0x10100)), (UnitOp.mk (.hitattr 0x10100) 8 [0x100000000, 0, 0] {}, true, some (7, 0x10100)),
        (UnitOp.mk (.hitattr 0x10100) 8 [0x100000000, 0, 0] {}, false, some ((0 : Nat), (0x10100 : Word)))]
theorem test_hyps_TraversalInstructions_answers :
    ∀ x ∈ unitCases, (unitS x.1 x.2.1).Free 10 (opOf (.unit x.1) true) 0 false ∧ unitCodes (unitS x.1 x.2.1) x.1 = x.2.2 := by
  have h : ∀ x ∈ unitCases, stands (unitS x.1 x.2.1) (.unit x.1) true false = true ∧ unitCodes (unitS x.1 x.2.1) x.1 = x.2.2 := by decide +kernel
  exact fun x hx => ⟨free_of (h x hx).1, (h x hx).2⟩
def bar0 : Barrier := { phase := 3, expected := 2, arrivals := 1, balance := 0, arrived := [7] }
def withBar (b : Barrier) : State := big.barSet (.block 2 4) b
def hm : BarHome := .block 2 4
def cmd0 : Cmd := { idleCmd 1 with thr := 0, recv := [0], grove := 1, blkId := 2, credit := some hm, token := 6, started := true, done := true, stage := 2 }
def msgS (n : Int) (ab : Bool) : State := { withBar bar0 with msgs := [(5, { bar := hm, n := n, abort := ab, cmd := some 30 })], cmds := [(30, cmd0)] }
/-- BarrierEvents: an arrival that is the last one, posts at both ends of the range, a test, credits that fit and that do not, an abort. -/
theorem test_hyps_BarrierEvents :
    (withBar bar0).barGet hm = some bar0 ∧
    (∀ ev ∈ [BarEv.arrive 6, .post (-(2 ^ 31)), .post (2 ^ 31 - 1), .test 2 5],
      (withOp (withBar bar0) (.barEv hm ev) false).Free 10 (opOf (.barEv hm ev) false) 0 false) ∧
    (-(2 ^ 31) ≤ bar0.balance + -(2 ^ 31) ∧ bar0.balance + (2 ^ 31 - 1) < 2 ^ 31) ∧
    (∀ n ∈ [((2 : Int) ^ 31), 2 ^ 31 + 1], ∀ ab ∈ [true, false], (msgS n ab).cmds.find 30 = some cmd0 ∧ (msgS n ab).levelSaved hm = false ∧
      ((-(2 ^ 31) ≤ bar0.balance - n ∧ bar0.balance - n < 2 ^ 31) ↔ n = 2 ^ 31)) := by
  have h : ∀ ev ∈ [BarEv.arrive 6, .post (-(2 ^ 31)), .post (2 ^ 31 - 1), .test 2 5],
      stands (withOp (withBar bar0) (.barEv hm ev) false) (.barEv hm ev) false false = true := by decide +kernel
  exact ⟨by decide +kernel, fun e he => free_of (h e he), by decide +kernel, by decide +kernel⟩

/-! ### Queues, placement and nodes -/

/-- Context 0 in the table of die CD0, with a queue at 0x11000 and a node queue beside it, both of which die CD0 serves. -/
def sQ0 : State :=
  let l : List (Nat × Nat) :=
    [(0x400000, 1), (0x400008, 0x11000), (0x400010, 2), (0x400028, 0x18000), (0x400030, 0x1000), (0x201000, 0x12000), (0x201008, 0x84), (0x201010, 0x13000),
     (0x201028, 0x184), (0x201038, 0x14000), (0x204000, 0x15000), (0x204008, 0x16000), (0x204010, 4 + 32 + 2 * 2048), (0x204018, 0x17000), (0x204020, 100),
     (0x204028, 0x17100), (0x205000, 0x10000), (0x205010, 0x13800), (0x205028, 1 + 2 ^ 32 + 2 ^ 37), (0x205030, 2 ^ 24 + 2 ^ 32)]
  let s : State := { (pokes sM l).setReg (Off.qe 0 0) 0x400000 with gang := [], ptp := 500, ctxTabs := [0] }
  (s.setQueue 0 0 0 fun x => { x with enabled := true }).setQueue 0 0 1 fun x => { x with enabled := true }
/-- Every die has looked at the entry and at the queue. -/
def looked (q : Nat) (s : State) : State :=
  [0, 1, 2, 3].foldl (fun x d => (((x.ctxCheck d 0).1).hwProbe (x.ctxEntryAt d 0) 128).vaProbe d 0 (x.ctxWord d 0 1 + BitVec.ofNat 64 (32 * q)) 32) s
def wQ (q : Nat) : List Word := (((looked q sQ0).serves 0 0 q).map (·.2)).getD []
theorem served_of {s s1 : State} {q d : Nat} {w : List Word} (h1 : looked q s = s1) (h2 : ([0, 1, 2, 3].filterMap fun d => s1.serves d 0 q) = [(d, w)]) :
    s.servedBy 0 q = (s1, some (d, w)) := by
  have e : s.servedBy 0 q = (looked q s, ([0, 1, 2, 3].filterMap fun d => (looked q s).serves d 0 q)[s.pick 13 %
      ([0, 1, 2, 3].filterMap fun d => (looked q s).serves d 0 q).length]?) := rfl
  rw [e, h1, h2]
  simp [Nat.mod_one]
/-- What QUEUE_TAKE asks of a queue state but for the words of its slot. -/
def takes (s : State) : Bool :=
  decide (looked 0 s = s) && decide (([0, 1, 2, 3].filterMap fun d => s.serves d 0 0) = [(0, wQ 0)]) && bit (wordAt (wQ 0) 1) 7 && !bit (wordAt (wQ 0) 1) 8 &&
    (s.queue 0 0 0).enabled && !s.onHold 0 && !s.heldRead (qeAgent 0) 0 0x12000 8 && !s.heldRead (qeAgent 0) 0 0x13000 1 && (s.slotCheck 0 0 0x12000 0x13000).isSome
def qa : List Access := ((looked 0 sQ0).slotCheck 0 0 0x12000 0x13000).getD []
/-- A launch in the pending list of a package none of whose cores has an owner, that fits nowhere; without blocks it fits. -/
def sPend (w5 : List (Nat × Nat)) : State :=
  looked 0 { sQ0 with launches := [(9, { launchA with words := [0x10000, 77, 0, 0, 0, pack w5, pack [(40, 24), (1, 32), (1, 40)], 0] })], cores := [] }
theorem no_owner {s : State} (h : s.cores = []) (d ctx : Nat) (g : Bool) : s.owned d ctx g = [] := by
  simp [State.owned, State.core, Tbl.find, h]
theorem dieOrder_no_owner {s : State} (h : s.cores = []) (l : Launch) : s.dieOrder l = [0, 1, 2, 3] := by
  simp [State.dieOrder, no_owner h]
theorem ctxChecks_no_owner {s : State} (h : s.cores = []) (ctx : Nat) : s.ctxChecks ctx = s := by
  simp [State.ctxChecks, no_owner h]
def pends : List (List (Nat × Nat)) :=
  [[(2, 0), (2, 32), (33, 37), (2, 48)], [(9, 0), (1, 32), (33, 37), (2, 48), (1, 56)], [(2, 0), (33, 37), (2, 48)], [(9, 0), (33, 37), (2, 48), (1, 56)]]
def pendL (w5 : List (Nat × Nat)) : Launch := ((((sPend w5).ctxCheck 0 0).1.pending 0 0)[0]?.map (·.2)).getD launchA
/-- What PLACEMENT_ATTEMPT asks, the dies in the order that equal counts of free slots give. -/
def pendOk (w5 : List (Nat × Nat)) : Bool :=
  let s := sPend w5
  let c := (s.ctxCheck 0 0).1
  let l := pendL w5
  !s.onHold 0 && (s.ctxCheck 0 0).2 && decide (c.pending 0 0 = [(9, l)]) && decide (c.launches.find 9 = some l) && decide (l.forGrove = l) &&
    (lBlocks l.words != 0 || (if lSpan l.words then (c.placeSpan 9 l [0, 1, 2, 3] 0 (lGroves l.words)).isSome
      else (firstSome [0, 1, 2, 3] fun d => c.placeGroveOn 9 l l.nextGrove d).isSome && decide (l.due = l.nextGrove + 1) && !l.node))
theorem unplaced {s : State} (h : s.cores = []) (lid : Nat) (l : Launch) (g d : Nat) (b : lBlocks l.words ≠ 0) : s.placeGroveOn lid l g d = none := by
  unfold State.placeGroveOn
  obtain ⟨n, hn⟩ := Nat.exists_eq_succ_of_ne_zero b
  split
  · rfl
  · rw [no_owner h, hn, Nat.succ_eq_add_one, List.range_succ_eq_map]
    rfl
/-- QUEUE_TAKE with a slot that is FULL and one of whose words is EMPTY; the queue is served; a core whose queue has a block. -/
theorem test_hyps_QueuesAndPlacement :
    (∀ e ∈ [[], [0x202008]], takes (looked 0 { sQ0 with empties := e }) = true) ∧
    (∃ a ∈ qa, ({ sQ0 with empties := [0x202008] } : State).full (sQ0.paNow a) = false) ∧
    (let s0 := looked 0 sQ0
     qa.length = 8 ∧ (∀ x ∈ qa, s0.full (s0.paNow x) = true ∧ x.vrec = none) ∧ s0.agentFree .engine 0x202000 = true ∧
       (s0.vaWrite 0 0 0x13000 1 none {}).get?.isSome = true) ∧
    (looked 0 sQ0).servedBy 0 0 = (looked 0 sQ0, some (0, wQ 0)) ∧
    (∀ w5 ∈ pends, pendOk w5 = true ∧ (sPend w5).ctxChecks 0 = sPend w5 ∧ ((sPend w5).ctxCheck 0 0).1.dieOrder (pendL w5) = [0, 1, 2, 3]) ∧
    (∀ w5 ∈ pends, lBlocks (pendL w5).words ≠ 0 → ∀ g d, ((sPend w5).ctxCheck 0 0).1.placeGroveOn 9 (pendL w5) g d = none) := by
  have h : ∀ w5 ∈ pends, pendOk w5 = true ∧ (sPend w5).cores = [] ∧ ((sPend w5).ctxCheck 0 0).1.cores = [] := by decide +kernel
  exact ⟨by decide +kernel, by decide +kernel, by decide +kernel, served_of (by decide +kernel) (by decide +kernel),
    fun w hw => ⟨(h w hw).1, ctxChecks_no_owner (h w hw).2.1 0, dieOrder_no_owner (h w hw).2.2 _⟩, fun w hw hb g d => unplaced (h w hw).2.2 9 _ g d hb⟩

theorem length_keep (d : Nat) : ∀ (k : Nat) (l : List Nat), (Config.keep d k l).length = l.length - k
  | 0, _ => rfl
  | k + 1, l => by
    have h : (l.eraseIdx (Config.fuse d k % l.length)).length = l.length - 1 := by
      cases l with
      | nil => rfl
      | cons x l => rw [List.length_eraseIdx_of_lt (Nat.mod_lt _ (by simp))]
    rw [Config.keep, length_keep d k, h]
    omega
theorem mem_keep {d p : Nat} : ∀ {k : Nat} {l : List Nat}, p ∈ Config.keep d k l → p ∈ l
  | 0, _, h => h
  | _ + 1, _, h => List.mem_of_mem_eraseIdx (mem_keep h)
/-- Whichever of its cores are enabled, a context that owns all of die CD0's has room for a grove of one small block. -/
theorem couldFit_of {s : State} {ctx : Nat} {w : List Word} (h : ∀ p ∈ List.range 288, ((s.core p).owner == some ctx && (s.core p).nextOwner.isNone) = true)
    (hw : lGauss w = false ∧ lBlocks w = 1 ∧ 1 ≤ blocksPerCore w) : s.couldFitGrove ctx w = true := by
  have n : (s.owned 0 ctx false).length = 280 := by
    unfold State.owned
    rw [List.length_map, List.filter_eq_self.2]
    · rw [Config.enabledCores, length_keep, List.length_range]
    · intro p hp
      simpa using h p (mem_keep hp)
  have m : 1 ≤ 280 * blocksPerCore w := by omega
  simp [State.couldFitGrove, hw.1, hw.2.1, n, m]
/-- What NODE_BATCH_DISPATCH asks of a node but for the room of its template. -/
def nodeForm (s : State) (v : NodeView) : Bool :=
  let n := wordAt v.desc
  bits (n 2) 63 22 == 0 && n 6 == 0 && n 7 == 0 && decide (1 ≤ v.recWords) && decide (v.recWords ≤ 32) && decide (4 ≤ bits (n 2) 4 0) && decide (bits (n 2) 4 0 ≤ 20) &&
    decide (1 ≤ v.batch) && decide (v.batch ≤ min 1024 v.cap) && (s.nodeWord v.die 0 (n 1)).isSome && (s.nodeWord v.die 0 (n 3)).isSome && (s.nodeWord v.die 0 (n 5)).isSome
theorem nodeOk_of {s : State} {v : NodeView} {t : List Word} (ht : v.tmpl = some t) (hf : nodeForm s v = true) (hr : s.recordOk 0 t = true)
    (h : ∀ p ∈ List.range 288, ((s.core p).owner == some 0 && (s.core p).nextOwner.isNone) = true) (hw : lGauss t = false ∧ lBlocks t = 1 ∧ 1 ≤ blocksPerCore t) :
    s.nodeOk 0 v = true := by
  simp only [nodeForm] at hf
  simp only [State.nodeOk, hf, ht, Option.any_some, hr, hw.2.1, couldFit_of h hw]
  rfl

/-- The node of queue 1, that node's batch with one of its two records claimed at 300 ns, and with both slots EMPTY. -/
def sN (claimed : Bool) (e : List Nat) : State :=
  let s : State := looked 1 { (if claimed then pokeW sQ0 0x207000 1 else sQ0) with empties := e, cores := (List.range 288).map fun p => (p, { owner := some 0 }) }
  if claimed then s.setQueue 0 0 1 fun x => { x with claimAt := [(0, 300)] } else s
def nodeV (s : State) : NodeView := ((s.seeEnable 0 0 1 true).viewOf 0 0 (wQ 1)).getD ⟨0, [], none⟩
theorem node_of {s s1 : State} {d ctx q : Nat} {w : List Word} {v : NodeView} (hs : s.servedBy ctx q = (s, some (d, w)))
    (h1 : s.seeEnable d ctx q (bit (wordAt w 1) 7) = s1) (hv : s1.viewOf d ctx w = some v) (hb : (s1.queue v.die ctx q).nodeBad = false)
    (ho : s1.nodeOk ctx v = true) : s.nodeCheck ctx q = ((s1.nodeLaunch ctx q v).1, some v) := by
  have h : s.nodeView ctx q = (s1, some v) := by
    unfold State.nodeView
    rw [hs]
    simp only [h1, hv]
  unfold State.nodeCheck
  rw [h]
  simp only [hb, ho, Bool.false_eq_true, ↓reduceIte]
theorem nodeV_eq {s : State} (h : ((s.seeEnable 0 0 1 true).viewOf 0 0 (wQ 1)).isSome = true) :
    (s.seeEnable 0 0 1 true).viewOf 0 0 (wQ 1) = some (nodeV s) := isSome_getD _ h
def nodeS (s : State) : State := ((s.seeEnable 0 0 1 true).nodeLaunch 0 1 (nodeV s)).1
/-- A launch of context 0 that has ended, its completion word at an address, its state a saved one or not. -/
def sEnd (at_ : Nat) : State :=
  { sQ0 with launches := [(9, { launchA with words := [0x10000, 77, BitVec.ofNat 64 at_, 0, 0, pack [(1, 0), (1, 32), (1, 37)], pack [(1, 24), (1, 32)], 0], ended := 1 })] }
/-- NodesAndCompletion: a node with a batch ready, with one of its records claimed and none EMPTY, and with slots EMPTY; a launch whose
word can be written and one whose word cannot; a core that awaits an owner. -/
theorem test_hyps_NodesAndCompletion :
    (∀ x ∈ [(false, []), (true, []), (true, [0x206000, 0x206008])],
      let s := sN x.1 x.2
      let s1 := nodeS s
      let v := nodeV s
      let ready := (List.range v.batch).all fun i => s1.slotFull v 0 i 0
      s.nodeCheck 0 1 = (s1, some v) ∧ s1.nodeBusy v (s1.queue 0 0 1).launch 0 = false ∧ ready = x.2.isEmpty ∧ v.batch = 2 ∧ (s1.claims v 0 0 = if x.1 then 1 else 0)) ∧
    (let s1 := nodeS (sN true [])
     let v := nodeV (sN true [])
     (s1.queue 0 0 1).short = none ∧ wordAt v.desc 4 = 100 ∧ (s1.queue 0 0 1).claimAt.find 0 = some 300 ∧ 300 + 100 ≤ s1.ptp ∧
       (s1.vaWrite 0 0 (wordAt v.desc 3) 2 none {}).get?.isSome = true) ∧
    (∀ a ∈ [0x13800, 0x30000],
      let s := sEnd a
      let l := (s.launches.find 9).getD launchA
      l.node = false ∧ s.launchOver 9 l = true ∧ s.orderFree 9 l = true ∧ bits (wordAt l.words 2) 2 0 = 0 ∧
        (s.vaWrite 0 0 (BitVec.ofNat 64 (bits (wordAt l.words 2) 56 0)) 0 none {}).get?.isSome = (a == 0x13800)) ∧
    (((sM.updCore 5 fun c => { c with nextOwner := some (some 1) }).core 5).nextOwner = some (some 1)) := by
  have h : ∀ x ∈ [(false, ([] : List Nat)), (true, []), (true, [0x206000, 0x206008])],
      let s := sN x.1 x.2
      let s1 := nodeS s
      let v := nodeV s
      let u := s.seeEnable 0 0 1 true
      (looked 1 s = s ∧ ([0, 1, 2, 3].filterMap fun d => s.serves d 0 1) = [(0, wQ 1)] ∧ bit (wordAt (wQ 1) 1) 7 = true ∧ (u.viewOf 0 0 (wQ 1)).isSome = true ∧
        (u.queue v.die 0 1).nodeBad = false) ∧
      (v.tmpl.isSome = true ∧ nodeForm u v = true ∧ u.recordOk 0 (v.tmpl.getD []) = true ∧
        (∀ p ∈ List.range 288, ((u.core p).owner == some 0 && (u.core p).nextOwner.isNone) = true) ∧
        lGauss (v.tmpl.getD []) = false ∧ lBlocks (v.tmpl.getD []) = 1 ∧ 1 ≤ blocksPerCore (v.tmpl.getD [])) ∧
      s1.nodeBusy v (s1.queue 0 0 1).launch 0 = false ∧ ((List.range v.batch).all fun i => s1.slotFull v 0 i 0) = x.2.isEmpty ∧ v.batch = 2 ∧
        (s1.claims v 0 0 = if x.1 then 1 else 0) := by decide +kernel
  refine ⟨fun x hx => ?_, by decide +kernel, by decide +kernel, by decide +kernel⟩
  obtain ⟨⟨h1, h2, h3, h4, h5⟩, ⟨k1, k2, k3, k4, k5⟩, h7⟩ := h x hx
  exact ⟨node_of (served_of h1 h2) (congrArg ((sN x.1 x.2).seeEnable 0 0 1) h3) (nodeV_eq h4) h5 (nodeOk_of (isSome_getD [] k1) k2 k3 k4 k5), h7⟩

/-! ### The control blocks -/

def sF (w5 : Nat) : State := { upT sM (fun t => { t with status := .fault, frec := { t.frec with w5 := BitVec.ofNat 64 w5 } }) with gang := [] }
def sDbg (lc : Lifecycle) (stopped : List Nat) : State :=
  { (sM.setReg (Off.dbg 5 0xA0) 1).updCore 5 (fun c => { c with stopped := stopped, sampleAt := [(2, 0)], samples := [{ part := 2, member := 7, lo := 3, hi := 4, words := [] }] }) with
    lifecycle := lc }
def sRing (size : Nat) : State := { sM.setReg (Off.fr 0 8) (BitVec.ofNat 64 size) with frQueue := [(0, [1])] }
/-- FaultReportAndDebug: a thread stopped on a fault that may be skipped and on one that may not, rings with room and without, the debug
port open and closed, a partition stopped and not, a sample interval that is over and a record that is done. -/
theorem test_hyps_FaultReportAndDebug :
    (∀ w ∈ [0, 1], ((sF w).threads.find 0).isSome = true ∧ ((sF w).thr 0).status = .fault ∧ (sF w).ctxOf ((sF w).thr 0) = 0 ∧
      ((sF w).thr 0).frec.unskippable = decide (w = 1) ∧ (sF w).pe.stage = .idle) ∧ (sF 0).threads.find 1 = none ∧
    (({ sF 0 with pe := { stage := .save, ctx := 0, deadline := 0 } } : State).pe.stage = .save) ∧
    ((sRing 64).frQueue.find? (fun e => e.1 == 0) = some (0, [1]) ∧ ((sRing 64).frWrite 0 [1]).isSome = true ∧ ((sRing 0).frWrite 0 [1]).isSome = false) ∧
    (sDbg .prod []).debugLocked = true ∧ (sDbg .test []).debugLocked = false ∧ ((sDbg .test [2]).core 5).stopped.contains 2 = true ∧
    ((sDbg .test []).core 5).stopped.contains 2 = false ∧ ((sDbg .test []).core 5).sampleAt.find 2 = some 0 ∧ bit ((sDbg .test []).reg (Off.dbg 5 0xA0)) 0 = true ∧
    (((((sDbg .test []).core 5).samples.find? fun x => x.part == 2 && (sDbg .test []).sampleDone x).isSome) = true ∧
      ringOpen 64 64 65536 = true ∧ ringOpen 0 64 65536 = false ∧ (sDbg .test []).leaseFree 0x600000 = true ∧
      ({ sDbg .test [] with granted := [{ line := 0x6000, expiry := 9 }] } : State).leaseFree 0x600000 = false) := by decide +kernel
def sPe (st : PeStage) : State := { sQ0 with pe := { stage := st, ctx := 0, deadline := 500 } }
/-- PreemptionAndCheckpoint: the stages of a pre-emption with blocks resident and none, a deadline reached and ahead, a save area that cannot be
restored, and no checkpoint job. -/
theorem test_hyps_PreemptionAndCheckpoint :
    (∀ st ∈ [PeStage.drain, .save], (sPe st).pe.stage = st ∧ (sPe st).blocksOf 0 ≠ [] ∧ ({ sPe st with blocks := [] } : State).blocksOf 0 = [] ∧ (sPe st).pe.deadline ≤ (sPe st).ptp ∧
      ({ sPe st with ptp := 499 } : State).ptp < (sPe st).pe.deadline) ∧
    (∀ st ∈ [PeStage.drain, .save], (sPe st).areaHeld 0 = false ∧ ({ pokeW (sPe st) 0x400040 0x1C000 with migration := some { src := 0x200000, dst := 0x410000, tag := 0, marked := [], pass := 3, frozen := true } } : State).areaHeld 0 = true) ∧
    ((sPe .save).quiet 0 = true ∧ (upT (sPe .save) fun t => { t with writes := [⟨600, 1, .reg 3 7 none⟩] }).quiet 0 = false) ∧
    (sPe .idle).imageState 0 = 0 ∧ (sPe .idle).restoreImage 0 = .error 7 ∧ bit ((sPe .idle).ctxWord ((sPe .idle).ctxDie 0) 0 0) 27 = false ∧
    ((sPe .idle).setCtx 0 fun c => { c with pinned := true }).ctxSt 0 = { (sPe .idle).ctxSt 0 with pinned := true } ∧
    ((sPe .idle).ck.stage = 0 ∧ (sPe .idle).ckHost = false ∧ (sPe .idle).ck.final = none) := by
  refine ⟨?_, ?_, ?_, ?_, ?_, ?_, ?_, ?_⟩ <;> decide +kernel

/-! ### Checkpoints: what a job has read already stands in its state, so a stage's accesses are answered from there -/

/-- 0 for an answer, 1 and the code for an error, 2¹⁶ for a wait. -/
def engTag {α : Type} (x : Eng α) : Nat :=
  match x with
  | .ok _ _ => 0
  | .err _ c _ => 1 + c
  | .wait _ => 2 ^ 16
def engV {α : Type} (x : Eng α) (d : α) : α :=
  match x with
  | .ok _ v => v
  | .err _ _ _ | .wait _ => d
def engS {α : Type} (x : Eng α) : State :=
  match x with
  | .ok s _ | .err s _ _ | .wait s => s
theorem eng_ok {α : Type} {x : Eng α} (d : α) (h : engTag x = 0) : x = .ok (engS x) (engV x d) := by
  cases x with
  | ok s v => rfl
  | err s c a => simp [engTag] at h
  | wait s => simp [engTag] at h
theorem find_some_of_mem {α : Type} {k : Nat} : ∀ {t : Tbl α}, k ∈ t.map (·.1) → ∃ v, Tbl.find t k = some v
  | (j, a) :: t, h => by
    rw [Tbl.find]
    split
    · exact ⟨a, rfl⟩
    · rename_i n
      rw [List.map_cons, List.mem_cons] at h
      exact find_some_of_mem (h.resolve_left fun e => n e.symm)
theorem engAll_ok {α β : Type} {f : State → α → Eng β} {s : State} : ∀ {l : List α}, (∀ x ∈ l, ∃ v, f s x = .ok s v) → ∃ vs, engAll f s l = .ok s vs
  | [], _ => ⟨[], rfl⟩
  | x :: t, h => by
    obtain ⟨v, hv⟩ := h x (by simp)
    obtain ⟨vs, hs⟩ := engAll_ok fun y hy => h y (List.mem_cons_of_mem x hy)
    exact ⟨v :: vs, by rw [engAll, hv]; simp only [hs]; rfl⟩
/-- What the job holds of n bytes from va on is all of them. -/
def kept (s : State) (va : Word) (n : Nat) : Prop := ∀ x ∈ chunks va.toNat n, (va + BitVec.ofNat 64 x.1).toNat ∈ s.ck.got.map (·.1)
theorem engAll_flat {α : Type} {f : State → α → Eng (List Byte)} {s : State} {l : List α} (h : ∀ x ∈ l, ∃ v, f s x = .ok s v) :
    ∃ bs, ((engAll f s l).bind fun s1 bs => .ok s1 bs.flatten) = .ok s bs := by
  obtain ⟨vs, hs⟩ := engAll_ok h
  exact ⟨vs.flatten, by rw [hs]; rfl⟩
theorem partRead_kept {s : State} {c : Cmd} {va : Word} {n : Nat} (h : kept s va n) : s.partRead ckId c va n = .ok s (engV (s.partRead ckId c va n) []) := by
  have e : ∃ bs, s.partRead ckId c va n = .ok s bs := engAll_flat fun x hx => by
    obtain ⟨v, hv⟩ := find_some_of_mem (h x hx)
    exact ⟨v.1, by simp only [State.held?, ↓reduceIte, hv]⟩
  obtain ⟨bs, h⟩ := e
  rw [h]
  rfl
theorem words_kept {s : State} {va : Word} {n : Nat} (h : kept s va (8 * n)) : s.ckWords va n = .ok s (engV (s.ckWords va n) []) := by
  have e : ∃ ws, s.ckWords va n = .ok s ws := ⟨_, by rw [State.ckWords, partRead_kept h]; rfl⟩
  obtain ⟨ws, h⟩ := e
  rw [h]
  rfl

/-- A job of context 0 with region 0x30000, whose descriptor d is at 0x1F000; a group of this package and package 3 at 0x10C00. -/
def ckS (d : List Nat) (j : CkSt) : State :=
  let l : List (Nat × Nat) := vers ++ [(0x106018, 0x3100F2), (0x200A00, 0x30000), (0x200C00, 2 + 2 ^ 16), (0x200C08, 0x10C40), (0x200C10, 0x10C80), (0x200C48, 3), (0x200C88, 3)] ++
    d.zipIdx.map fun x => (0x20F000 + 8 * x.2, x.1)
  { (pokes sQ0 l).setReg (Off.ck 0) 0x1F000 with ck := j, regSeen := [0x310000] }
def saveD : List Nat := [0x10A00, 1, 3, 0, 0, 0x400000, 0x13000, 0]
/-- A migration has frozen the page. -/
def iced (s : State) : State := { s with migration := some { src := 0x200000, dst := 0x410000, tag := 0, marked := [], pass := 3, frozen := true } }
def ckD (s : State) : Eng (List Word) := s.ckWords (s.reg (Off.ck 0)) 8
def described (s : State) : State := { engS (ckD s) with ck := { (engS (ckD s)).ck with desc := engV (ckD s) [] } }
def listed (s : State) : Eng (List Word) := (described s).ckWords 0x10A00 1
/-- PreemptionAndCheckpoint, a save: descriptors that cannot be read, that are in error, that must wait, that are bad and that are good with a
region that holds the step; a group that must wait, one that is there, one of which a package is down, and none; writes left and made. -/
theorem test_hyps_Checkpoint_save :
    (∀ st ∈ [1, 5], let s := ckS saveD { stage := st }
      engTag (ckD (s.setReg (Off.ck 0) 0x90000)) = 4 ∧ engTag (ckD ({ s with badMem := [0x20F000 / 64] } : State)) = 0x14 ∧ engTag (ckD (iced s)) = 2 ^ 16) ∧
    (let s := ckS (saveD.set 1 0) { stage := 1 }
     engTag (ckD s) = 0 ∧ saveDescOk (engV (ckD s) []) = false) ∧
    (let s := ckS saveD { stage := 1 }
     let s3 := engS (listed s)
     engTag (ckD s) = 0 ∧ saveDescOk (engV (ckD s) []) = true ∧ wordAt (engV (ckD s) []) 0 = 0x10A00 ∧ bits (wordAt (engV (ckD s) []) 1) 15 0 = 1 ∧ engTag (listed s) = 0 ∧
       s3.ckRegions (engV (listed s) []) s3.regionOk = some [0x310000] ∧ s3.holdStep [0x310000] s3.ckSaved = true ∧ s3.shardUncorr [0x310000] s3.ckSaved = false ∧
       (s3.shard [0x310000] s3.ckSaved).isSome = true) ∧
    (∀ g ∈ [0, 0x10C00],
      let s := ckS [] { stage := 2, desc := [0x10A00, 1, 3, 0, BitVec.ofNat 64 g, 0x400000, 0x13000, 0], hashes := [[1]], regions := [0x310000] }
      let s1 := engS s.ckGroup
      let x := s1.exchange (engV s.ckGroup { ranks := [], ring := [] })
      engTag s.ckGroup = 0 ∧
        (g = 0 → engTag x = 0 ∧ (engS x).shardUncorr (engS x).ck.regions (engS x).ckSaved = false ∧ ((engS x).shard (engS x).ck.regions (engS x).ckSaved).isSome = true) ∧
        (g ≠ 0 → engTag (iced s).ckGroup = 2 ^ 16)) ∧
    (let s := (ckS [] { stage := 2, desc := [0x10A00, 1, 3, 0, 0x10C00, 0x400000, 0x13000, 0], hashes := [[1]] }).setReg (Off.fb 0x100) 8
     engTag s.ckGroup = 0 ∧ engTag ((engS s.ckGroup).exchange (engV s.ckGroup { ranks := [], ring := [] })) = 2 ^ 16) ∧
    (∀ st ∈ [3, 4],
      let s := ckS [] { stage := st, desc := saveD.map (BitVec.ofNat 64), outs := [(0x13000, toLe 8 5)] }
      engTag (s.engWrite ckId (s.ckCmd 0) 0x13000 (toLe 8 5) 0 false true) = 0) ∧
    (let s := ckS [] { stage := 4, desc := saveD.map (BitVec.ofNat 64) }
     s.ck.outs = [] ∧ wordAt s.ck.desc 6 = 0x13000 ∧ engTag (s.ckRelease (0x13000 + 48) 1) = 0) ∧
    (let s := ckS [] { stage := 4, final := some 0, desc := (saveD.set 7 0x13800).map (BitVec.ofNat 64) }
     s.ck.final = some 0 ∧ engTag (s.ckComp 0) = 0 ∧ engTag ((iced s).ckComp 0) = 2 ^ 16) ∧
    (∀ (s : State) (o : Word × List Byte), s.ck.outs = [o] → s.ck.outs[s.pick 64 % s.ck.outs.length]? = some o) := by
  refine ⟨?_, ?_, ?_, ?_, ?_, ?_, ?_, ?_, fun s o h => by simp [h, Nat.mod_one]⟩ <;> decide +kernel

def rD : List Word := [0x10B00, 1 + 2 ^ 32, 7, 0x18000, 0x10A00, 1, 0, 0]
/-- The rows that a list of words makes from an address on. -/
def rows (va : Nat) (ws : List Nat) : Tbl (List Byte × Bool) := ws.zipIdx.map fun x => (va + 8 * x.2, (toLe 8 x.1, false))
/-- What a restore has read: a manifest of rank 0 for step 3, complete or not, and an all-zero target table. -/
def ckFew (m6 : Nat) : Tbl (List Byte × Bool) :=
  rows 0x10A00 [0x30000] ++ rows 0x10B00 [0x1A000] ++ rows 0x1A000 [1, 3, 7, 0, 1, 66560, m6, 0, 9, 9, 9, 9, 0, 0, 8, 0] ++ rows 0x1F000 (rD.map BitVec.toNat)
def ckGot (m6 : Nat) : Tbl (List Byte × Bool) := ckFew m6 ++ (List.range 1024).map fun i => (0x18000 + 8 * i, (List.replicate 8 (0 : Byte), false))
/-- A restore of the region, which is not active, with what it has read. -/
def sRs (m6 : Nat) (j : CkSt) : State :=
  { pokes sQ0 (vers ++ [(0x106018, 0x3100F2), (0x310000, 2 ^ 32)]) with mmio := (sQ0.setReg (Off.ck 0) 0x1F000).mmio, ck := { j with desc := rD, got := ckGot m6 } }
theorem kept_few {s : State} {m6 : Nat} {va : Word} {n : Nat} (hg : s.ck.got = ckGot m6)
    (h : ((chunks va.toNat n).all fun x => ((ckFew 0).map (·.1)).contains (va + BitVec.ofNat 64 x.1).toNat) = true) : kept s va n := by
  intro x hx
  rw [hg, ckGot, List.map_append]
  exact List.mem_append_left _ (List.contains_iff_mem.1 (List.all_eq_true.1 h x hx))
theorem kept_table {s : State} {m6 : Nat} (hg : s.ck.got = ckGot m6) : kept s 0x18000 (8 * 1024) := by
  intro x hx
  have h : ∃ i, i < 1024 ∧ x.1 = 8 * i := by
    rw [chunks, if_neg (by decide), List.mem_map] at hx
    obtain ⟨i, hi, rfl⟩ := hx
    have hi : i < 1024 := List.mem_range.1 hi
    refine ⟨i, hi, ?_⟩
    show max 98304 (8 * (98304 / 8 + i)) - 98304 = 8 * i
    omega
  obtain ⟨i, hi, e⟩ := h
  rw [hg, ckGot, List.map_append, List.map_map]
  refine List.mem_append_right _ (List.mem_map.2 ⟨i, List.mem_range.2 hi, ?_⟩)
  rw [e, BitVec.toNat_add, BitVec.toNat_ofNat]
  show 98304 + 8 * i = (98304 + 8 * i % 2 ^ 64) % 2 ^ 64
  omega
def manif (m6 : Nat) : List Word := [1, 3, 7, 0, 1, 66560, BitVec.ofNat 64 m6, 0]
/-- The jobs, each with its manifest complete or not: to select with no step there, with none left and with one; to read a chunk that verifies and one
that does not, and with all read. -/
def jobs : List (Nat × CkSt) :=
  [(0, { stage := 5 }), (1, { stage := 5, cands := some [] }), (1, { stage := 5, cands := some [3] }),
   (1, { stage := 6, cands := some [3], todo := [digestWords (sha256 []) ++ [0, 0, 0, 0]] }), (1, { stage := 6, cands := some [3], todo := [[]] }),
   (1, { stage := 6, cands := some [3], data := List.replicate 66560 0 })]
theorem job_read (m6 : Nat) (j : CkSt) (hd : engV (ckD (sRs m6 j)) [] = rD) (ha : engV ((sRs m6 j).ckWords 0x10A00 1) [] = [0x30000])
    (hb : engV ((sRs m6 j).ckWords 0x10B00 1) [] = [0x1A000]) (hm : engV ((sRs m6 j).ckWords 0x1A000 8) [] = manif m6) (hr : (sRs m6 j).reg (Off.ck 0) = 0x1F000) :
    let s := sRs m6 j
    ckD s = .ok s rD ∧ s.ckWords 0x10A00 1 = .ok s [0x30000] ∧ s.ckWords 0x10B00 1 = .ok s [0x1A000] ∧ s.readManifests [0x1A000] = .ok s [(0x1A000, manif m6)] ∧
      (∃ table, s.ckWords 0x18000 1024 = .ok s table) ∧ (∃ ws, s.ckWords (0x1A000 + 64) 8 = .ok s ws) ∧ ∀ c va, s.partRead ckId c va 0 = .ok s [] := by
  have few : ∀ va n, ((chunks va.toNat n).all fun x => ((ckFew 0).map (·.1)).contains (va + BitVec.ofNat 64 x.1).toNat) = true → kept (sRs m6 j) va n := fun va n h => kept_few rfl h
  have w : (sRs m6 j).ckWords 0x1A000 8 = .ok (sRs m6 j) (manif m6) := hm ▸ words_kept (few _ _ (by decide +kernel))
  refine ⟨?_, ha ▸ words_kept (few _ _ (by decide +kernel)), hb ▸ words_kept (few _ _ (by decide +kernel)), ?_, ⟨_, words_kept (kept_table rfl)⟩,
    ⟨_, words_kept (few _ _ (by decide +kernel))⟩, fun c va => rfl⟩
  · rw [← hd]
    unfold ckD
    rw [hr]
    exact words_kept (few _ _ (by decide +kernel))
  · rw [State.readManifests, w]
    rfl
/-- PreemptionAndCheckpoint, a restore: what its reads answer, a descriptor that is bad, and for each clause a job, its manifests and its steps. -/
theorem test_hyps_Checkpoint_restore :
    (∀ j ∈ jobs,
      let s := sRs j.1 j.2
      (ckD s = .ok s rD ∧ s.ckWords 0x10A00 1 = .ok s [0x30000] ∧ s.ckWords 0x10B00 1 = .ok s [0x1A000] ∧ s.readManifests [0x1A000] = .ok s [(0x1A000, manif j.1)] ∧
        (∃ table, s.ckWords 0x18000 1024 = .ok s table) ∧ (∃ ws, s.ckWords (0x1A000 + 64) 8 = .ok s ws) ∧ ∀ c va, s.partRead ckId c va 0 = .ok s []) ∧
      s.ckRegions [0x30000] s.restorable = some [0x310000] ∧ s.shardLen [0x310000] = 66560 ∧ ([0x310000].flatMap s.records).all s.pageFree = true) ∧
    (restoreDescOk rD = true ∧ restoreDescOk (rD.set 1 (1 + 2 ^ 48)) = false) ∧
    (let ms := fun m6 => [((0x1A000 : Word), manif m6)].filter fun m => bit (wordAt m.2 6) 0 && wordAt m.2 2 == wordAt rD 2
     commonSteps (ms 0) (bits (wordAt rD 1) 47 32) = [] ∧ commonSteps (ms 1) (bits (wordAt rD 1) 47 32) = [3] ∧
       (ms 1).find? (fun m => bits (wordAt m.2 3) 15 0 == bits (wordAt rD 1) 63 48 && bits (wordAt m.2 1) 31 0 == 3) = some (0x1A000, manif 1) ∧
       (wordAt (manif 1) 5).toNat = 66560) ∧
    (digestWords (sha256 []) = (digestWords (sha256 []) ++ [0, 0, 0, 0]).take 4 ∧ digestWords (sha256 []) ≠ ([] : List Word).take 4 ∧
      (List.replicate 66560 (0 : Byte)).length = 66560) := by
  have h : ∀ j ∈ jobs,
      let s := sRs j.1 j.2
      (engV (ckD s) [] = rD ∧ engV (s.ckWords 0x10A00 1) [] = [0x30000] ∧ engV (s.ckWords 0x10B00 1) [] = [0x1A000] ∧ engV (s.ckWords 0x1A000 8) [] = manif j.1 ∧
        s.reg (Off.ck 0) = 0x1F000) ∧
      s.ckRegions [0x30000] s.restorable = some [0x310000] ∧ s.shardLen [0x310000] = 66560 ∧ ([0x310000].flatMap s.records).all s.pageFree = true := by decide +kernel
  refine ⟨fun j hj => ?_, by decide, ⟨?_, ?_, by decide, by decide⟩, rfl, by simp [digestWords], List.length_replicate⟩
  · obtain ⟨⟨h1, h2, h3, h4, h5⟩, h6⟩ := h j hj
    exact ⟨job_read j.1 j.2 h1 h2 h3 h4 h5, h6⟩
  · exact List.mergeSort_nil
  · exact List.mergeSort_singleton 3

/-! ### Service, fabric, coherence, versions, matrix shares, security -/

/-- A TOUCH waits for the service ring's answer, and a region of one empty reserve entry asks for a frame. -/
def sSv : State :=
  let s := pokes (withOp sM (.touch 0x10100 0 2 none) false) [(0x310020, 0x320000), (0x310028, 2 ^ 32)]
  { (s.setReg (Off.sv 0x28) 0).setReg (Off.sv 0x30) 0x10100 with
    resReqs := [{ ctx := 0, va := 0x10100, op := some 10 }, { ctx := 0, va := 0x310000, op := none, refill := true }], svQueue := [[1]] }
/-- Taproot's registers name frames, and a migration of the first stands at a pass, or frozen; a copy-on-write of that page or none. -/
def sTp (src dst : Nat) : State :=
  { (State.reset.setReg (Off.tp 0) (BitVec.ofNat 64 src)).setReg (Off.tp 8) (BitVec.ofNat 64 dst) with cows := [{ page := 0x300000, region := 0x310000, frame := 0x420000, byOp := 10, key := 0 }] }
def mig (pass : Nat) (frozen : Bool) : Migration := { src := 0x400000, dst := 0x410000, tag := 0, marked := [1], pass := pass, frozen := frozen }
def sMig (m : Migration) (copying : Bool) : State :=
  { pokeW sM 0x300000 0x400000 with migration := some m, cows := if copying then [{ page := 0x300000, region := 0x310000, frame := 0x420000, byOp := 10, key := 0 }] else [] }
/-- An encode stream with a ring of 2²⁰ bytes at 0x600000, its frame in ENCODE with bytes left over. -/
def sFo (on : Bool) : State :=
  { (((((sM.setReg (Off.fo 1 8) 0x0040000000400040).setReg (Off.fo 1 0x10) (BitVec.ofNat 64 (2 ^ 32 * 30 + 1000))).setReg (Off.fo 1 0x18) 0x600000).setReg
      (Off.fo 1 0x20) 0x100000).setReg (Off.fo 1 0) (if on then 1 else 0)) with streams := [(1, { encode := true, left := some [1, 2, 3] })] }
def inv0 : Nat × Nat × Nat × Nat × Nat := (0, 0, 1, 1, 5)
/-- ServiceAndRegisters. -/
theorem test_hyps_ServiceAndRegisters :
    (sSv.svMatch = some { ctx := 0, va := 0x10100, op := some 10 } ∧ sSv.resReqs.find? (fun r => r.refill && r.ctx == bits (sSv.reg (Off.sv 0x28)) 9 0) =
        some { ctx := 0, va := 0x310000, op := none, refill := true } ∧ sSv.keyTags = [] ∧ sSv.resCap 0x310000 < 2 ^ 32 ∧ sSv.resCount 0x310000 < sSv.resCap 0x310000 ∧
      0x310000 + 64 ≤ (sSv.hwRead (0x310000 + 32)).toNat + 8 * sSv.resCount 0x310000 ∧ Mem.wf sSv.mem = true) ∧
    (({ sSv with mmio := sSv.mmio.put (Off.sv 8) 64 } : State).svWrite [1]).isSome = true ∧
    ((sTp 3 0).tpBusy = false ∧ (sTp 3 0).tpSrc % 65536 ≠ 0 ∧ (sTp 0x420000 0).inUse 0x420000 = true ∧ (sTp 0x400000 0).inUse 0x400000 = false) ∧
    ((sTp 3 0).tpCheck 3 0 0 = 3 ∧ (sTp 0x400000 0x410000).tpCheck 0x400000 0x410000 0 = 0 ∧ ((sTp 3 0).setReg (Off.tp 0x20) 1).tpBusy = true) ∧
    (∀ b ∈ [false, true], (sMig (mig 0 false) b).pageCopying 0x400000 = b ∧ (sMig (mig 3 true) b).migration = some (mig 3 true)) ∧
    (∀ off ∈ [Off.pe 0x10, Off.fo 1 0x30, Off.fr 0 8], ownEvent off = false ∧ (regSpec off).acc = .rw ∧ off ≠ Off.fb 0 ∧ rsCount off = none ∧
      ((sFo false).foOn ((off - 0x50000) / 0x100) = false ∨ off % 0x100 = 0x30)) ∧
    ((regSpec 0).acc = .ro ∧ (regSpec 4).acc = .absent ∧ rsCount 0x40008 = some (0, 0) ∧ (sFo true).foOn 1 = true ∧ ((sFo true).stream 1).encode = true) ∧
    ((sFo false).foConfigOk 1 1 = true ∧ sM.foConfigOk 1 1 = false) ∧
    (let x := (sFo true).stream 1
     ∀ n ∈ List.range (x.left.getD []).length, (sFo true).agentFree .engine ((sFo true).foByte 1 (((sFo true).reg (Off.fo 1 0x28)).toNat + n)) = true) ∧
    (({ sFo true with granted := [{ line := 0x6000, expiry := 9 }] } : State).agentFree .engine ((sFo true).foByte 1 0) = false) ∧
    (({ sM with invals := [inv0] } : State).invBusy inv0 = false ∧ ({ withOp sM (.load a8 true 5 2) false with invals := [inv0] } : State).invBusy inv0 = true) := by
  refine ⟨?_, ?_, ?_, ?_, ?_, ?_, ?_, ?_, ?_, ?_, ?_⟩ <;> decide +kernel
/-- ServiceAndRegisters: accesses of another width and another address, a trip that has begun and one that begins, and a switch of
a frame that no leaf names, which a lease of its tag page holds back and none. -/
theorem test_hyps_ServiceAndRegisters_more :
    (sSv.powered = true ∧ Off.fb 0x10 ≠ Off.fb 0 ∧ ({ width := 4, word := 0 } : RegData).width ≠ 8 ∧ 0x1004 % 8 ≠ 0) ∧
    (({ sM with tripped := true } : State).tripped = true ∧ 115 ≤ bits ((sM.setReg (Off.pwr 0x18) 115).reg (Off.pwr 0x18)) 7 0) ∧
    State.reset.moveHeld 0x400000 0x410000 0 = false ∧
    ({ State.reset with granted := [{ line := 0, expiry := 9 }] } : State).moveHeld 0x400000 (2 ^ 51) 0 = true := by
  refine ⟨⟨?_, ?_, ?_, ?_⟩, ?_, ?_, ?_⟩ <;> decide +kernel

/-- The window for peers on context 0 at 0x10000; a lease of the line at 0x200100; that lease over. -/
def sFb (l : List Lease) : State := { (sM.setReg (Off.fb 0x20) 0x400).setReg (Off.fb 0x28) 0x10000 with granted := l, ptp := 5000 }
def sFz : State := { sFb [] with migration := some { mig 3 true with src := 0x200000 } }
def fbA : Access := (((sFb []).incoming 0x100 1 .write).toOption).getD a8
/-- A store to a peer's line, refused once: its hint says when it may go again. -/
def aP : Access := { a8 with pa := 2 ^ 50 + 0x100, policy := 1 }
def sRe (t : Nat) : State := { withOp big (.store aP 5) false with peerWaits := [{ op := 10, refusals := 1, notBefore := 700 }], ptp := t }
def cmdR : Cmd := { cmd0 with done := false, refused := [(0x10000, (1, 700))] }
/-- FabricEvents. -/
theorem test_hyps_FabricEvents :
    (bits ((sFb []).reg (Off.fb 0x38)) 31 0 < ({ sFb [] with ptp := 300000000 } : State).ptp - ((sFb []).heard.find 3).getD 0 ∧
      (sFb []).ptp - ((sFb []).heard.find 3).getD 0 ≤ bits ((sFb []).reg (Off.fb 0x38)) 31 0) ∧
    (isOk ((sFb []).incoming 0x100 1 .read) = true ∧ (sFb []).incomingHeld 0x100 1 .read = false ∧ (sFb []).incomingHeld 0x100 1 .write = false ∧
      isOk (sFz.incoming 0x100 1 .read) = true ∧ sFz.incomingHeld 0x100 1 .read = true) ∧
    (fbA.policy = 0 ∧ fbA.vrec = none ∧ (sFb []).heldOn ((sFb []).paNow fbA / 256) = 0 ∧ (sFb []).paNow fbA / 64 ∉ (sFb []).badMem ∧
      (sFb []).leaseFree ((sFb []).paNow fbA) = true ∧ (sFb [{ line := 0x2001, expiry := 4900 }]).leaseFree ((sFb []).paNow fbA) = false ∧
      (sFb [{ line := 0x2001, expiry := 4900, held := [2 ^ 63] }]).heldOn ((sFb []).paNow fbA / 256) = 1 ∧
      (sFb []).keyTags.find ((sFb []).paNow fbA / 64) = none) ∧
    ((sFb []).granted.find? (fun l => l.line == 0x2001) = none ∧
      (∀ l ∈ ([{ line := 0x2001, expiry := 0, held := [2 ^ 63] }, { line := 0x2001, expiry := 9 }, { line := 0x2001, expiry := 9, held := [10, 2 ^ 63] },
            { line := 0x2001, expiry := 4900 }] : List Lease),
        let s : State := { withOp big (.store a4 5) false with granted := [l], ptp := 5000 }
        s.granted.find? (fun l => l.line == 0x2001) = some l ∧ (∀ x ∈ s.granted, x.line = 0x2001 → x = l) ∧ s.leaseOver l = decide (l.expiry ≠ 4900) ∧ s.heldWr = [] ∧
          s.heldOn 0x2001 = l.held.length ∧ (l.waiting s).filter (decide <| · < 2 ^ 63) = (if l.held.length = 2 then [10] else []))) ∧
    (∀ t ∈ [600, 700], (sRe t).ops.find 10 = some (opOf (.store aP 5) false) ∧ isPeer aP.pa = true ∧ aP.policy ≠ 2 ∧
      (sRe t).canPerform 10 (opOf (.store aP 5) false) false = true ∧ (sRe t).peerWaits.find? (fun w => w.op == 10) = some { op := 10, refusals := 1, notBefore := 700 }) ∧
    (({ msgS 0 false with cmds := [(30, cmdR)] } : State).cmds.find 30 = some cmdR ∧ cmdR.done = false ∧ (∀ r ∈ cmdR.refused, 600 < r.2.2 ∧ r.2.2 ≤ 700)) ∧
    ((∀ i ∈ List.range 64, (0x208 + i) / 64 ∉ (sFb []).badMem) ∧ (sFb []).linkUp = true ∧ (sFb []).agentFree .host 0x208 = true ∧ 0x208 % 8 = 0 ∧ (sFb []).keyTags.find (0x208 / 64) = none) := by
  refine ⟨?_, ?_, ?_, ?_, ?_, ?_, ?_⟩ <;> decide +kernel
/-- A load of core 0 waits for a sector of a SHARED frame, held as the dies' states say. -/
def sCo (tap : List Nat) (l1 : List L1Line) (l2 : List L2Ent) (kind : OpKind) : State :=
  { withOp big kind false with frames := [(0x20, { cls := .shared, tenant := 1 })], taproot := [(0x8004, tap)], l1 := l1, l2 := l2 }
def prb : Probe := { txn := 40, die := 0, core := some 0, sector := 0x8004, inval := true }
def txn0 (n : Nat) : Txn := { die := some 0, sector := 0x8004, kind := .write, core := some 1, wait := n }
def sPr (ans : Bool) (n : Nat) : State := { big with probes := [(41, { prb with answered := ans })], txns := [(40, txn0 n)] }
def msg0 (dies past : List Nat) : Inflight := { dies := dies, old := [(0x200100, 0)], oldFe := [], past := past }
/-- A home that is busy with the sector, and requests that wait for it. -/
def sHq (busy : Bool) (q : List (Nat × Nat × Bool)) : State :=
  let s := sCo [0, 1, 0, 0] [] [] (.load a8 true 5 2)
  { s with txns := if busy then [(40, { die := none, sector := 0x8004, kind := .read, wait := 1 })] else [], homeQ := q
           prefs := [{ core := 1024, sector := 0x8004, l2 := true, excl := true }] }
/-- A .na store at a line whose entry marks the group of core 0, of which the frame's tenant has core 0 alone. -/
def sNa : State := sCo [2, 0, 0, 0] [] [{ die := 0, line := 0x2001, coarse := true, groups := [0] }] (.store { a8 with hint := 2 } 5)
theorem no_sharers {s : State} {x : L2Ent} {c : Nat} (hx : x.coarse = true)
    (h : ∀ p ∈ List.range 288, 512 * x.die + p = c ∨ s.admits (4 * x.line) (512 * x.die + p) = false) : (s.sharers x).filter (· != c) = [] := by
  rw [State.sharers, if_pos hx, List.filter_eq_nil_iff]
  intro a ha
  simp only [List.mem_map, List.mem_filter, Bool.and_eq_true] at ha
  obtain ⟨p, ⟨hp, _, hb⟩, rfl⟩ := ha
  rcases h p hp with e | e
  · simp [e]
  · rw [e] at hb
    cases hb
/-- Sectors of the host at two dies. -/
def sHs (tap : List Nat) : State := { big with taproot := [(2 ^ 45 + 4, tap)] }
/-- CoherenceEvents. -/
theorem test_hyps_CoherenceEvents :
    ((sHq true []).homeBusy 0x8004 = true ∧ (sHq true []).tracked 0x8004 = true ∧ (sHq true []).dieState 0x8004 0 = 0 ∧ (sHq true []).dieWants 0 0x8004 false = true ∧
      (sHq false [(2, 0x8004, true)]).homeQ.find? (fun r => r.2.1 == 0x8004 && (sHq false [(2, 0x8004, true)]).stillAsks r) = some (2, 0x8004, true) ∧
      (sHq false []).fromHost (64 * 0x8004) = false) ∧
    ((sHq true []).snoopHeld 0x8004 = true ∧ (sHq false [(2, 0x8004, true)]).snoopHeld 0x8004 = true) ∧
    (∀ tap ∈ [[0, 0, 0, 0], [0, 1, 1, 0], [0, 2, 0, 0]], (sHs tap).snoopHeld (2 ^ 45 + 4) = false ∧ (2 ^ 51 + 0x100 % 2 ^ 51) / 64 = 2 ^ 45 + 4 ∧
      (sHs tap).holders (2 ^ 45 + 4) = (if tap = [0, 0, 0, 0] then [] else if tap = [0, 2, 0, 0] then [1] else [1, 2])) ∧
    (∀ tap ∈ [[0, 2, 0, 0], [0, 1, 1, 0], [0, 0, 0, 0]],
      let s := sCo tap [] [] (.load a8 true 5 2)
      s.tracked 0x8004 = true ∧ s.homeBusy 0x8004 = false ∧ s.recallVictim 0x8004 = none ∧ s.dieState 0x8004 0 = 0 ∧ s.dieWants 0 0x8004 false = true ∧
        (s.holders 0x8004).find? (fun e => s.dieState 0x8004 e == 2) = (if tap = [0, 2, 0, 0] then some 1 else none)) ∧
    (∀ tap ∈ [[0, 1, 0, 0], [1, 1, 0, 0], [1, 0, 0, 0]],
      let s := sCo tap [] [] (.atomic a8 .cas [memb])
      s.dieWants 0 0x8004 true = true ∧ s.homeBusy 0x8004 = false ∧ s.recallVictim 0x8004 = none ∧ s.dieState 0x8004 0 = tap.getD 0 0) ∧
    (let s := sCo [1, 0, 0, 0] [] [] (.load a8 true 5 2)
     s.dieState 0x8004 0 ≠ 0 ∧ (s.dieDirty 0 0x8004 || s.dieState 0x8004 0 == 3) = false ∧ s.l2Busy 0 0x2001 = false ∧ s.probes = [] ∧ s.notices = [] ∧ s.l1 = []) ∧
    ((sCo [1, 0, 0, 0] [] [] (.load a8 true 5 2)).intoL1 0 0x8004 = true ∧ (sCo [2, 0, 0, 0] [] [] (.atomic a8 .cas [memb])).intoL1 0 0x8004 = true ∧
      (let s := sCo [1, 0, 0, 0] [] [] (.store { a8 with hint := 2 } 5)
       s.intoL1 0 0x8004 = false ∧ s.wanted 0 0x8004 false = some 0 ∧ s.dieHas 0 0x8004 false = true ∧ s.inL2 0 0x2001 = false ∧
        ({ s with l2 := [{ die := 0, line := 0x2001 }] } : State).inL2 0 0x2001 = true) ∧
      (sNa.intoL1 0 0x8004 = false ∧ sNa.wanted 0 0x8004 true = some 0 ∧ sNa.dieHas 0 0x8004 true = true) ∧
      (let s1 := sNa.classTouch 0 0 (64 * 0x8004)
       (s1.sharers (s1.l2Ent 0 0x2001)).filter (· != 0) = [])) ∧
    (∀ l2 ∈ [[], [{ die := 0, line := 0x2001, owners := [(0, 5)], ptrs := [5] : L2Ent }]],
      let s := sCo [1, 0, 0, 0] [] l2 (.load a8 true 5 2)
      s.wanted 0 0x8004 false = some 0 ∧ s.l1State 0 (64 * 0x8004) = 0 ∧ s.dieHas 0 0x8004 false = true ∧ s.notices = [] ∧ s.l1 = [] ∧
        (((s.classTouch 0 0 (64 * 0x8004)).l2Ent 0 0x2001).owners.find? fun o => o.1 == 0 && o.2 != 0) = (if l2 = [] then none else some (0, 5))) ∧
    (∀ l2 ∈ [[], [{ die := 0, line := 0x2001, ptrs := [5] : L2Ent }]],
      let s := sCo [2, 0, 0, 0] [] l2 (.atomic a8 .cas [memb])
      let s1 := s.classTouch 0 0 (64 * 0x8004)
      s.wanted 0 0x8004 true = some 0 ∧ s.l1State 0 (64 * 0x8004) < 2 ∧ s.dieHas 0 0x8004 true = true ∧ s1.dieHas 0 0x8004 true = true ∧
        (s1.sharers (s1.l2Ent 0 0x2001)).filter (· != 0) = (if l2 = [] then [] else [5])) ∧
    ((let n : Notice := { core := 0, line := 0x2001, dirty := [] }
      ({ big with notices := [n] } : State).notices.find? (fun n => n.core == 0 && n.line == 0x2001) = some n) ∧ big.probes = []) ∧
    ((sPr false 2).probes.find 41 = some prb ∧ ((sPr false 2).txns.any fun e => e.2.kind == .answer 41) = false ∧ (sPr true 2).txns.find 40 = some (txn0 2) ∧
      (sPr true 1).txns.find 40 = some (txn0 1) ∧ (txn0 1).kind ≠ .answer 41) ∧
    (let s : State := { withOp big (.load a8 true 5 2) false with frames := [(0x20, { cls := .priv 1, tenant := 1 })] }
     s.heldByClass 0x20 = true ∧ s.frameCurrent 0x20 = true ∧ ({ s with inflight := [(7, msg0 [1] [])] } : State).frameCurrent 0x20 = false ∧ s.heldByClass 0x21 = false) ∧
    (∀ past ∈ [[], [7]],
      let s : State := { big with inflight := [(7, { msg0 [1] [] with old := [(0x300000, 0)] }), (8, msg0 [1] past)] }
      s.inflight.find 8 = some (msg0 [1] past) ∧
        (s.inflight.any fun x => x.2.dies.contains 1 && ((msg0 [1] past).past.contains x.1 || (decide (x.1 < 8) && x.2.sectors.any ((msg0 [1] past).sectors.contains ·)))) = (past != [])) := by
  refine ⟨?_, ?_, ?_, ?_, ?_, ?_, ⟨?_, ?_, ?_, ?_, no_sharers ?_ ?_⟩, ?_, ?_, ?_, ?_, ?_, ?_⟩ <;> decide +kernel

def absentB : Block := { bigBlock with pages := [.absent, .pinned], backing := 0x10000 }
def cow0 (op : Nat) : Cow := { page := 0x300000, region := 0x310000, frame := 0x420000, byOp := op, key := 0 }
/-- A store to the published page at 0x20000, and the same with a copy-on-write under way. -/
def aV : Access := { ctx := 0, va := 0x20100, pa := 0x220100, size := 8, key := 0, policy := 0, vrec := some 0x300000 }
def sVw (reserve : Nat) (kind : OpKind) : State := { withOp { pokes sV [(0x300008, 4), (0x310028, reserve + 4 * 2 ^ 32)] with gang := [] } kind false with sweeps := [0x310000] }
/-- A PUBLISH of the region through 0x30000, at the head of its engine or behind a VRETIRE, and one that names a page that does not translate. -/
def pubCmd (va : Word) : Cmd := { idleCmd 17 with kind := .publish false, recv := [], regs := [va, 0] }
def sPub (va : Word) (l : List (Nat × RegCmd)) (kind : Option OpKind) : State :=
  let s : State := { pokeW sV 0x106018 0x3100F2 with gang := [], cmds := [(20, pubCmd va)], regCmds := l }
  match kind with
  | some k => { s with ops := [(10, opOf k false)], cmds := [(20, { pubCmd va with recv := [0] })] }
  | none => s
def cpy0 : Cmd := { idleCmd 1 with recv := [0], thr := 0, regs := [0x10100, 0x10800, 0, 0, 0, 0, 0, 0] }
def sCpy (c : Cmd) : State := { big with cmds := [(20, c)] }
/-- VersionsAndEngines. -/
theorem test_hyps_VersionsAndEngines :
    (let s : State := { big with blocks := big.blocks.put 2 absentB }
     s.blocks.find 2 = some absentB ∧ absentB.pages[0]? = some .absent ∧ (s.backingOf absentB 0).isSome = true ∧ Mem.wf absentB.scratch = true) ∧
    (let s : State := { sV with cows := [cow0 20], cmds := [(20, cmd0)] }
     s.cows.find? (fun c => c.page == 0x300000) = some (cow0 20) ∧ s.cowReady (cow0 20) = true ∧ s.ops.find 20 = none ∧ s.cmds.find 20 = some cmd0) ∧
    (∀ n ∈ [0, 1],
      let s := sVw n (.store aV 7)
      s.mustWait (opOf (.store aV 7) false) = none ∧ s.copying 0x300000 = false ∧ s.wstep 0x300000 ≠ (s.regionWO none (s.regionOf 0x300000)).1 ∧
        (s.cowStart 0x300000 0 10).isSome = (n == 1) ∧ s.sweeps.contains (s.regionOf 0x300000) = true) ∧
    (((sVw 0 (.feform aV .stf 7 5 2)).mustWait (opOf (.feform aV .stf 7 5 2) false)).isSome = true ∧ (pokeW (sVw 0 (.store aV 7)) 0x300008 (4 + 2 ^ 32)).copying 0x300000 = true) ∧
    ((sPub 0x30000 [] none).issuerDone 20 (pubCmd 0x30000) = true ∧ (sPub 0x30000 [] (some (.store a8 5))).issuerDone 20 { pubCmd 0x30000 with recv := [0] } = false ∧
      (sPub 0x30000 [] none).publishRegion (pubCmd 0x30000) = .ok 0x310000 ∧ (sPub 0x90000 [] none).publishRegion (pubCmd 0x90000) = .error 3 ∧
      (sPub 0x30000 [] none).replayOut 0x310000 = false ∧
      ({ sPub 0x30000 [] (some (.store a8 5)) with replay := [{ frame := (sPub 0x30000 [] none).wframe 0x300000, limit := 20, ops := [10] }] } : State).replayOut 0x310000 = true ∧
      (sPub 0x30000 [] none).regionHead 0x310000 20 = true ∧ (sPub 0x30000 [(15, { region := 0x310000, w := 5, o := 4, acks := [] })] none).regionHead 0x310000 20 = false) ∧
    (([0, 1, 2, 3].filter fun d => !([0, 1, 3] : List Nat).contains d) = [2]) ∧
    (let s : State := { withOp sV (.vretire 0x310000 4) false with regCmds := [(10, { region := 0x310000, w := 5, o := 4, acks := [] })] }
     s.ops.find 10 = some (opOf (.vretire 0x310000 4) false) ∧ s.regionHead 0x310000 10 = true ∧
       ({ s with regCmds := s.regCmds.put 5 { region := 0x310000, w := 6, o := 2, acks := [] } } : State).regionHead 0x310000 10 = false) ∧
    ((sCpy cpy0).startable 20 cpy0 = true ∧ (sCpy cpy0).issuerDone 20 cpy0 = true ∧ ({ sCpy cpy0 with ops := [(10, opOf (.store a8 5) false)] } : State).issuerDone 20 cpy0 = false) ∧
    (let c : Cmd := { cpy0 with started := true }
     let s := sCpy c
     ∃ a b, s.cmdBytes c = 1 ∧ (c.unit = 0 ∧ c.got = [] ∧ c.wrote = [] ∧ c.refused = [] ∧ c.err = 0) ∧ s.accessFor (Agent.engine 1) 0 0x10100 1 .read = .ok a ∧
       (s.engCaches a 1 false).accessFor (Agent.engine 1) 0 0x10800 1 .write = .ok b ∧ a.vrec = none ∧ b.vrec = none ∧
       isPeer (s.paNow a) = false ∧ isPeer (s.paNow b) = false ∧ s.frozen (s.paNow a) = false ∧ s.frozen (s.paNow b) = false ∧ s.replay = [] ∧
       s.homeFree (s.paNow a) 1 = true ∧ (s.engCaches a 1 false).homeFree (s.paNow b) 1 = true ∧ s.paNow a / 64 ∉ s.badMem ∧
       (s.engCaches a 1 false).leaseFreeFor (some 20) (s.paNow b) = true ∧ b.size = 1 ∧ (s.engCaches a 1 false).Plain b ∧ c.feMode = 0 ∧ c.srcScratch = false ∧ c.dstScratch = false) ∧
    (∀ st ∈ [0, 1, 2, 3],
      let c : Cmd := { cpy0 with done := true, stage := st }
      (sCpy c).cmds.find 20 = some c ∧ bits c.comp 56 0 = 0 ∧ c.credit = none ∧ cmd0.credit = some hm ∧ c.recv = [0] ∧ (sCpy c).saved = [] ∧ (sCpy c).inflight = []) ∧
    (let c : Cmd := { cpy0 with kind := .cpym 0x6C20101AA5FC0003 0 0 0 false, handed := false, done := true, regs := [0x10100, 0x10800, 0, 0, 0, 0, 0, 0] }
     ((sCpy c).handoff 20 c).isSome = true ∧ (sCpy c).groveSaved c = false) ∧
    (sV.metaFree 0x310000 0x300000 = true ∧ ({ sV with granted := [{ line := 0x3000, expiry := 9 }] } : State).metaFree 0x310000 0x300000 = false ∧
      sV.leaseFree 0x310000 = true ∧ ({ sV with granted := [{ line := 0x3100, expiry := 9 }] } : State).leaseFree 0x310000 = false) ∧
    (∀ g ∈ [0x10C00, 0x90000],
      let c : Cmd := { cpy0 with kind := .coll, regs := [0x10100, 0x10800, 0, BitVec.ofNat 64 g, 0, 0] }
      let s := pokes (sCpy c) [(0x200C00, 2 + 2 ^ 16), (0x200C08, 0x10C40), (0x200C10, 0x10C80), (0x200C48, 3), (0x200C88, 3)]
      s.issuerDone 20 c = true ∧ c.kind.grouped = true ∧ c.grp = none ∧ engTag (s.groupRead 20 c) = (if g = 0x10C00 then 0 else 4) ∧
        engTag ((iced s).groupRead 20 c) = (if g = 0x10C00 then 2 ^ 16 else 4) ∧ ((engS (s.groupRead 20 c)).cmds.find 20).isSome = true) := by
  refine ⟨?_, ?_, ?_, ?_, ?_, ?_, ?_, ?_, ?_, ?_, ?_, ?_, ?_⟩
  case refine_9 =>
    refine ⟨okOr ((sCpy { cpy0 with started := true }).accessFor (Agent.engine 1) 0 0x10100 1 .read) a8, okOr ((sCpy { cpy0 with started := true }).accessFor (Agent.engine 1) 0 0x10800 1 .write) a8,
      ?_, ?_, ?_, ?_, ?_, ?_, ?_, ?_, ?_, ?_, ?_, ?_, ?_, ?_, ?_, ?_, plain_of ?_, ?_⟩ <;> decide +kernel
  all_goals decide +kernel
/-- Two shares of a multiplication of 32 × 32 × 1, the first at the head of its core's array. -/
def shr (r : Nat) (st : ShareState) : Share := { rank := r, blk := r + 2, ms := 16, ns := 32, state := st }
def mx0 (x : Share) (a1 : Word) (ab : Option (Nat × Nat × Nat)) : MxOp :=
  { issuer := 0, recv := [0], grove := 1, pc := 0, word := 0, fmt := .f, gather := false, perm := false, energy := 1, a0 := BitVec.ofNat 64 (2 ^ 23 * 256), a1 := a1
    a2 := 31 + 2 ^ 10 * 31, bar := none, token := some 6, flag := none, sync := false, abort := ab, shares := [x, { shr 1 .queued with sent := true }] }
def sMx (x : Share) (a1 : Word) (ab : Option (Nat × Nat × Nat)) (e : Nat) : State :=
  (({ big with blocks := big.blocks.put 3 { bigBlock with core := 1 }, mxOps := [(50, mx0 x a1 ab)] } : State).setCtx 0 fun c => { c with ebud := e }).updCore 0 fun c =>
    { c with array := [.share 50 0] }
/-- MatrixEvents: a queued share that passes its checks and one that does not, a running one with its energy and without, one that is
ready, one that aborts, and its commit and abort. -/
theorem test_hyps_MatrixEvents :
    (∀ a1 ∈ [(0 : Nat), 2 ^ 24],
      let x := shr 0 .queued
      let o := mx0 x (BitVec.ofNat 64 a1) none
      let s := sMx x (BitVec.ofNat 64 a1) none 2
      s.share 50 0 = some (o, x) ∧ (s.core 0).array = [.share 50 0] ∧ o.stop = false ∧ s.mxReady 50 o = true ∧ (s.shareCheck o x).isSome = (a1 != 0)) ∧
    (∀ e ∈ [1, 2],
      let x := shr 0 .running
      let o := mx0 x 0 none
      let s := sMx x 0 none e
      s.share 50 0 = some (o, x) ∧ o.halts x = false ∧ x.bad = false ∧ (s.core 0).mxClk ≤ s.clk ∧ s.clk < ((s.updCore 0 fun c => { c with mxClk := 9 }).core 0).mxClk ∧ (decide ((s.ctxSt (s.mxCtx o)).ebud < 2 ^ o.energy) = (e == 1)) ∧ s.gatherBad o x 0 = none ∧ s.stepUncorr o x 0 0 0 = none ∧
        o.stepsOf x = 1) ∧
    (let x := shr 0 .ready
     let o := mx0 x 0 none
     let s := sMx x 0 none 2
     s.share 50 0 = some (o, x) ∧ s.savedHeld o.recv = false ∧ (o.shares.all fun y => y.sent || y.state == .ended) = false ∧
       ((mx0 { x with sent := true } 0 none).shares.all fun y => y.sent || y.state == .ended) = true ∧ (∃ y ∈ o.shares, y.rank ≠ 0 ∧ y.state ≠ .ended) ∧ x.ns ≤ x.nsp ∧
       Mem.wf (s.core (s.coreOfBlock x.blk)).acc = true) ∧
    (let x : Share := { shr 0 .aborting with fail := some (4, 0, 8) }
     (sMx x 0 none 2).share 50 0 = some (mx0 x 0 none, x) ∧ (sMx x 0 (some (4, 0, 0)) 2).savedHeld [0] = false ∧ (mx0 x 0 (some (4, 0, 0))).abort = some (4, 0, 0)) := by
  refine ⟨?_, ?_, ?_, ?_⟩ <;> decide +kernel
/-- The machine that runs one thread at one instruction. -/
def sOne (w : Nat) : State := State.reset.loadOne w
/-- MemoryInvariant: memory of a machine that runs, whose step answers a next state when its one open move is an issue. -/
theorem test_hyps_MemoryInvariant : (sOne 0x2916).memOk ∧ (sOne 0x2916).mem ≠ [] := ⟨by unfold State.memOk; decide +kernel, by decide +kernel⟩
/-- StepRunsTheDecodedInstruction: the one open move is the issue of that thread, and its parcels are an instruction, or none. -/
theorem test_hyps_StepRunsTheDecodedInstruction :
    (∀ w ∈ [0x2916, 0x18206049, 0x0001400349FC0003, 0x00000017FFFC0003],
      (match (sOne w).moves with
        | [.issue [0]] => true
        | _ => false) = true ∧ ((sOne w).pendingOf 0).isNone = true ∧ isOk ((sOne w).fetchInst 0 ((sOne w).thr 0).pc) = true) ∧
    isOk (decodeWord (okOr ((sOne 0x2916).fetchInst 0 ((sOne 0x2916).thr 0).pc) (0, sM)).1) = true ∧
    isOk (decodeWord (okOr ((sOne 0x00000017FFFC0003).fetchInst 0 ((sOne 0x00000017FFFC0003).thr 0).pc) (0, sM)).1) = false := by decide +kernel
/-- SecurityEvents: the lifecycles, an image older than the rollback counter with the link up and down, a nonce that was used, and a warm start
after a scrub under the keys in force and not; whether another image or token verifies is the configuration's. -/
theorem test_hyps_SecurityEvents :
    State.reset.lifecycle = .prod ∧ State.reset.powered = true ∧ State.reset.linkUp = true ∧ ({ State.reset with linkUp := false } : State).linkUp = false ∧
    Mem.wf State.reset.mem = true ∧ ({ State.reset with scrubEpoch := State.reset.keyEpoch } : State).scrubEpoch = State.reset.keyEpoch ∧
    State.reset.scrubEpoch ≠ State.reset.keyEpoch ∧ (7 : Nat) ∈ ({ State.reset with usedNonces := [7] } : State).usedNonces ∧
    ({ State.reset with lifecycle := .test } : State).tokenOk ⟨0, 0, 0, 0⟩ = false ∧
    ∀ img : FwImage, img.version = 0 → (Config.imageVerifies img.ident && decide (({ State.reset with rollback := 1 } : State).rollback ≤ img.version)) = false := by
  refine ⟨rfl, rfl, rfl, rfl, by decide +kernel, rfl, by decide +kernel, by simp, by decide +kernel, fun img h => by simp [h]⟩

end Sys2Proof.Tests
end

section
/-! RESET (O56). What the reset state holds, register by register and map by map. -/

set_option Elab.async false
namespace Sys2Proof.Machine

/-- No register is written at reset, so each reads as the register map says. -/
theorem State.reset_reg (off : Nat) : State.reset.reg off = (regSpec off).reset := rfl

theorem State.reset_queueEngine {d : Nat} (hd : d < 4) : State.reset.reg (Off.qe d 8) = 4 ∧ State.reset.reg (Off.qe d 0) = 0 := by
  revert d
  decide

theorem State.reset_copyEngine {e : Nat} (he : e < 16) : State.reset.reg (Off.ce e 0) = 0x40 := by
  revert e
  decide

theorem State.reset_mem_read (a : Nat) : Mem.read State.reset.mem a = 0 := rfl

theorem State.reset_full (a : Nat) : State.reset.full a = true := rfl

theorem State.reset_ctxOk (d ctx : Nat) : State.reset.ctxOk d ctx = false := rfl

theorem State.reset_tableOk : State.reset.tableOk := fun _ _ h => nomatch h

/-- Settles O56: the registers by the register map, the rest because every map of the reset state is empty. -/
theorem resetState : Obligations.ResetState := by
  refine ⟨State.reset_reg, fun _ => State.reset_queueEngine, fun _ => State.reset_copyEngine, ?_⟩
  refine ⟨rfl, rfl, rfl, rfl, rfl, rfl, rfl, fun a => ⟨State.reset_mem_read a, State.reset_full a⟩, ?_⟩
  exact ⟨rfl, rfl, rfl, rfl, rfl, rfl, fun d ctx _ => State.reset_ctxOk d ctx, State.reset_memOk, State.reset_tableOk⟩

end Sys2Proof.Machine
end

section
/-! MEMORY'S CANONICAL FORM (O32). What it means for each outcome that carries a state, and the rules for folds and defaults. -/

set_option Elab.async false
namespace Sys2Proof.Machine

/-- The state that an outcome goes on with has memory in canonical form. -/
def Out.memOk : Out → Prop
  | .next t => t.memOk
  | .fault _ | .refused _ => True

/-- Each state that an engine's access may leave has memory in canonical form. -/
def Eng.memOk {α : Type} : Eng α → Prop
  | .ok s _ | .err s _ _ | .wait s => s.memOk

/-- The state that an owner's answer leaves has memory in canonical form. -/
def PeerAns.memOk : PeerAns → Prop
  | .yes s | .wait s | .bad s _ => s.memOk

/-- The state with a page made OWNED has memory in canonical form. -/
def Own.memOk : Own → Prop
  | .ok s => s.memOk
  | .wait | .noFrame => True

/-- The state after an agent's write has memory in canonical form. -/
def Put.memOk : Put → Prop
  | .done s => s.memOk
  | .wait _ | .lost => True

/-- What one execution of a gang leaves has memory in canonical form. -/
def Body.memOk (b : Body) : Prop := ∀ s l r t, s.memOk → b s l r = .ok t → t.memOk

theorem Put.get?_memOk {p : Put} {t : State} (e : p.get? = some t) (h : p.memOk) : t.memOk := by
  cases p <;> simp_all [Put.get?, Put.memOk]

theorem State.foldl_memOk {β : Type} {s : State} {f : State → β → State} (h : s.memOk) (hf : ∀ x b, x.memOk → (f x b).memOk) (l : List β) :
    (l.foldl f s).memOk := by
  induction l generalizing s with
  | nil => exact h
  | cons b l ih => exact ih (hf s b h)

theorem State.foldl_mem {β : Type} {s : State} {f : State → β → State} (hf : ∀ x b, (f x b).mem = x.mem) (l : List β) :
    (l.foldl f s).mem = s.mem := by
  induction l generalizing s with
  | nil => rfl
  | cons b l ih => exact (ih (s := f s b)).trans (hf s b)

theorem firstSome_spec {α β : Type} {l : List α} {f : α → Option β} {b : β} (e : firstSome l f = some b) : ∃ a ∈ l, f a = some b := by
  induction l with
  | nil => simp [firstSome] at e
  | cons a l ih => grind [firstSome]

theorem State.getD_memOk {o : Option State} {d : State} (hd : d.memOk) (ho : ∀ t, o = some t → t.memOk) : (o.getD d).memOk := by
  cases o with
  | none => exact hd
  | some t => exact ho t rfl

theorem State.getD_mem {o : Option State} {d s : State} (hd : d.mem = s.mem) (ho : ∀ t, o = some t → t.mem = s.mem) : (o.getD d).mem = s.mem := by
  cases o with
  | none => exact hd
  | some t => exact ho t rfl

theorem State.elim_memOk {α : Type} {o : Option α} {d : State} {f : α → State} (hd : d.memOk) (hf : ∀ a, o = some a → (f a).memOk) :
    (o.elim d f).memOk := by
  cases o with
  | none => exact hd
  | some a => exact hf a rfl

theorem State.elim_mem {α : Type} {o : Option α} {d s : State} {f : α → State} (hd : d.mem = s.mem) (hf : ∀ a, o = some a → (f a).mem = s.mem) :
    (o.elim d f).mem = s.mem := by
  cases o with
  | none => exact hd
  | some a => exact hf a rfl

theorem State.foldl_fst_memOk {α β : Type} {p : State × α} {f : State × α → β → State × α} (h : p.1.memOk) (hf : ∀ x b, x.1.memOk → (f x b).1.memOk)
    (l : List β) : (l.foldl f p).1.memOk := by
  induction l generalizing p with
  | nil => exact h
  | cons b l ih => exact ih (hf p b h)

theorem State.foldl_fst_mem {α β : Type} {p : State × α} {f : State × α → β → State × α} (hf : ∀ x b, (f x b).1.mem = x.1.mem) (l : List β) :
    (l.foldl f p).1.mem = p.1.mem := by
  induction l generalizing p with
  | nil => rfl
  | cons b l ih => exact (ih (p := f p b)).trans (hf p b)

theorem State.memOk_of_mem {s t : State} (e : t.mem = s.mem) (h : s.memOk) : t.memOk := by
  rw [State.memOk_iff, e]; exact h

theorem Eng.ok_memOk {α : Type} {x : Eng α} {s : State} {v : α} (e : x = .ok s v) (h : x.memOk) : s.memOk := by subst e; exact h

theorem Eng.err_memOk {α : Type} {x : Eng α} {s : State} {c : Nat} {va : Word} (e : x = .err s c va) (h : x.memOk) : s.memOk := by subst e; exact h

theorem Eng.wait_memOk {α : Type} {x : Eng α} {s : State} (e : x = .wait s) (h : x.memOk) : s.memOk := by subst e; exact h

theorem Own.ok_memOk {x : Own} {s : State} (e : x = .ok s) (h : x.memOk) : s.memOk := by subst e; exact h

theorem Put.done_memOk {x : Put} {s : State} (e : x = .done s) (h : x.memOk) : s.memOk := by subst e; exact h

end Sys2Proof.Machine
end

section
/-! Memory and its canonical form: the register map. -/

set_option Elab.async false
namespace Sys2Proof.Machine

@[simp] theorem State.bumpReg_mem (s : State) (off : Nat) :
    (s.bumpReg off).mem = s.mem := by
  grind [State.bumpReg, State.setReg_mem]

@[simp] theorem State.writeReg_mem (s : State) (off : Nat) (v : Word) :
    (s.writeReg off v).mem = s.mem := by
  grind [State.writeReg, State.setReg_mem]

end Sys2Proof.Machine
end

section
/-! Memory and its canonical form: the shared operations. -/

set_option Elab.async false
namespace Sys2Proof.Machine

@[simp] theorem State.evictLine_mem (s : State) (core line : Nat) :
    (s.evictLine core line).mem = s.mem := by
  grind [State.evictLine]

@[simp] theorem State.dropCopies_mem (s : State) (frame : Nat) :
    (s.dropCopies frame).mem = s.mem := by
  grind [State.dropCopies]

@[simp] theorem State.shareSector_mem (s : State) (sec : Nat) :
    (s.shareSector sec).mem = s.mem := by
  grind [State.shareSector]

@[simp] theorem State.hwProbe_mem (s : State) (pa n : Nat) :
    (s.hwProbe pa n).mem = s.mem := by
  grind [State.hwProbe, State.shareSector_mem, State.foldl_mem]

theorem State.hwWriteAll_memOk {s : State} (h : s.memOk) (pa : Nat) (l : List Word) : (s.hwWriteAll pa l).memOk := by
  induction l generalizing s pa with
  | nil => exact h
  | cons v l ih => exact ih (State.hwWrite_memOk h _ _) _

@[simp] theorem State.wakeWord_mem (s : State) (core : Option Nat) (pa : Nat) (nowFull : Bool) :
    (s.wakeWord core pa nowFull).mem = s.mem := by
  grind [State.wakeWord]

theorem State.writeWords_memOk {s : State} (h : s.memOk) (w : Writer) (key pa : Nat) (bs : List Byte) (ws : List Nat) (b : Bool) :
    (s.writeWords w key pa bs ws b).memOk := by
  grind [State.writeWords, State.wakeWord_mem, State.writeBits_memOk, State.foldl_memOk, State.memOk]

theorem State.writeWordFe_memOk {s : State} (h : s.memOk) (w : Writer) (key pa : Nat) (v : Option Word) (b : Bool) :
    (s.writeWordFe w key pa v b).memOk := by
  unfold State.writeWordFe
  exact State.writeWords_memOk h _ _ _ _ _ _

@[simp] theorem State.holdWrite_mem (s : State) (id pa : Nat) :
    (s.holdWrite id pa).mem = s.mem := by
  grind [State.holdWrite]

@[simp] theorem State.ringWaits_mem (s : State) (d pa : Nat) :
    (s.ringWaits d pa).mem = s.mem := by
  grind [State.ringWaits, State.holdWrite_mem]

theorem State.frWrite_memOk {s t : State} {d : Nat} {ws : List Word} (e : s.frWrite d ws = some t) (h : s.memOk) :
    t.memOk := by
  grind [State.frWrite, State.setReg_mem, State.hwRelease_memOk, State.memOk]

@[simp] theorem State.frCount_mem (s : State) (d : Nat) :
    (s.frCount d).mem = s.mem := by
  grind [State.frCount, State.setReg_mem]

theorem State.report_memOk {s : State} (h : s.memOk) (d : Nat) (e : List Word) :
    (s.report d e).memOk := by
  grind [State.report, → State.frWrite_memOk, State.frCount_mem, State.ringWaits_mem, State.memOk]

theorem State.svWrite_memOk {s t : State} {ws : List Word} (e : s.svWrite ws = some t) (h : s.memOk) :
    t.memOk := by
  grind [State.svWrite, State.setReg_mem, State.hwRelease_memOk, State.memOk]

theorem State.serviceEntry_memOk {s : State} (h : s.memOk) (e : List Word) :
    (s.serviceEntry e).memOk := by
  grind [State.serviceEntry, State.setReg_mem, State.ringWaits_mem, → State.svWrite_memOk, State.getD_memOk, State.memOk]

theorem State.service_memOk {s : State} (h : s.memOk) (kind ctx : Nat) (e1 e2 : Word) :
    (s.service kind ctx e1 e2).memOk := by
  grind [State.service, State.serviceEntry_memOk, State.memOk]

theorem State.takeFault_memOk {s : State} (h : s.memOk) (k : Nat) (pc : Pc) (inst : Word) (lanes : Nat) (f : FaultInfo) :
    (s.takeFault k pc inst lanes f).memOk := by
  grind [State.takeFault, State.updThread_mem, State.report_memOk, State.memOk]

@[simp] theorem State.barSet_mem (s : State) (h : BarHome) (v : Barrier) :
    (s.barSet h v).mem = s.mem := by
  unfold State.barSet
  grind

@[simp] theorem State.see_mem (s : State) (k : Nat) (ids : List Nat) :
    (s.see k ids).mem = s.mem := by
  grind [State.see]

@[simp] theorem State.barPut_mem (s : State) (h : BarHome) (b : Barrier) :
    (s.barPut h b).mem = s.mem := by
  grind [State.barPut, State.barSet_mem, State.see_mem, State.foldl_mem]

@[simp] theorem State.memberGone_mem (s : State) (k : Nat) (h : BarHome) :
    (s.memberGone k h).mem = s.mem := by
  grind [State.memberGone, State.barSet_mem, State.barPut_mem]

@[simp] theorem State.finishOp_mem (s : State) (seq : Nat) (o : Op) (l : List Landing) :
    (s.finishOp seq o l).mem = s.mem := by
  grind [State.finishOp, State.landIn_mem, State.foldl_mem]

@[simp] theorem State.sampleUpd_mem (s : State) (seq : Nat) (f : Sample → Sample) :
    (s.sampleUpd seq f).mem = s.mem := by
  grind [State.sampleUpd]

theorem State.faultOp_memOk {s : State} (h : s.memOk) (seq : Nat) (o : Op) (f : FaultInfo) :
    (s.faultOp seq o f).memOk := by
  grind [State.faultOp, State.sampleUpd_mem, State.takeFault_memOk, State.landIn_mem, State.updThread_mem, State.foldl_memOk, State.memOk]

end Sys2Proof.Machine
end

section
/-! Memory and its canonical form: translation. -/

set_option Elab.async false
namespace Sys2Proof.Machine

@[simp] theorem State.cachePath_mem (s : State) (ag : Agent) (ctx va : Nat) :
    (s.cachePath ag ctx va).mem = s.mem := by
  grind [State.cachePath]

@[simp] theorem State.useRegion_mem (s : State) (region : Nat) :
    (s.useRegion region).mem = s.mem := by
  grind [State.useRegion]

@[simp] theorem State.cacheLeaf_mem (s0 : State) (ag : Agent) (ctx va : Nat) (l : Leaf) :
    (s0.cacheLeaf ag ctx va l).mem = s0.mem := by
  grind [State.cacheLeaf, State.cachePath_mem, State.useRegion_mem]

end Sys2Proof.Machine
end

section
/-! Memory and its canonical form: the issue of a gang and the landing of results. -/

set_option Elab.async false
namespace Sys2Proof.Machine

theorem State.raiseAll_memOk {s : State} (h : s.memOk) (fs : List (Nat × Pc × FaultInfo)) :
    (s.raiseAll fs).memOk := by
  grind [State.raiseAll, State.setReg_mem, State.updThread_mem, State.takeFault_memOk, State.foldl_memOk, State.memOk]

@[simp] theorem State.issued_mem (s : State) (q : Issue) (k seq : Nat) (guardTrue adv : Bool) :
    (s.issued q k seq guardTrue adv).mem = s.mem := by
  grind [State.issued, State.updThread_mem]

theorem runGroups_memOk {body : Body} (hb : Body.memOk body) (q : Issue) (reads : List Nat) (adv : Bool) (gs : List (Nat × List Nat)) {s : State}
    (h : s.memOk)
    (fs : List (Nat × Pc × FaultInfo)) : (runGroups q reads adv body gs s fs).1.memOk := by
  induction gs generalizing s fs with
  | nil => exact h
  | cons g gs ih => grind [runGroups, State.foldl_memOk, State.issued_mem, State.memOk, Body.memOk]

theorem State.runGang_memOk {s : State} (h : s.memOk) (q : Issue) (named reads : List Nat) (adv : Bool) {body : Body} (hb : Body.memOk body) :
    (s.runGang q named reads adv body).memOk := by
  grind [State.runGang, runGroups_memOk, State.foldl_memOk, State.issued_mem, State.memOk, State.raiseAll_memOk]

@[simp] theorem State.fixed_mem (s : State) (q : Issue) (lat : Nat) (recv : List Nat) (l : List Landing) :
    (s.fixed q lat recv l).mem = s.mem := by
  grind [State.fixed, State.landIn_mem, State.foldl_mem]

theorem State.fixedOp_memOk {s : State} (h : s.memOk) (q : Issue) (lat : Nat) (named reads : List Nat) (f : Thread → List Landing) :
    (s.fixedOp q lat named reads f).memOk := by
  grind [State.fixedOp, State.runGang_memOk, State.fixed_mem, Body.memOk, State.memOk]

theorem State.rrr_memOk {s : State} (h : s.memOk) (q : Issue) (lat vd va vb : Nat) (f : Word → Word → Word) :
    (s.rrr q lat vd va vb f).memOk := by
  grind [State.rrr, State.fixedOp_memOk, State.memOk]

theorem State.rr_memOk {s : State} (h : s.memOk) (q : Issue) (lat vd va : Nat) (f : Word → Word) :
    (s.rr q lat vd va f).memOk := by
  grind [State.rr, State.fixedOp_memOk, State.memOk]

theorem State.prr_memOk {s : State} (h : s.memOk) (q : Issue) (lat pd va vb : Nat) (f : Word → Word → Bool) :
    (s.prr q lat pd va vb f).memOk := by
  grind [State.prr, State.fixedOp_memOk, State.memOk]

@[simp] theorem State.startOp_mem (s : State) (q : Issue) (sync : Bool) (ord : Order) (l : Nat) (recv : List Nat) (lat : Nat × Option Nat)
    (k : OpKind) (also : List Landing) :
    (s.startOp q sync ord l recv lat k also).mem = s.mem := by
  grind [State.startOp, State.addOp_mem, State.updThread_mem, State.foldl_mem]

theorem State.resultOp_memOk {s : State} (h : s.memOk) (q : Issue) (lat : Thread → Nat) (named reads : List Nat) (f : Thread → List Landing) :
    (s.resultOp q lat named reads f).memOk := by
  grind [State.resultOp, State.runGang_memOk, State.startOp_mem, Body.memOk, State.memOk]

@[simp] theorem State.classTouch_mem (s : State) (d ctx pa : Nat) :
    (s.classTouch d ctx pa).mem = s.mem := by
  grind [State.classTouch]

@[simp] theorem State.classServe_mem (s : State) (d pa : Nat) (write : Bool) :
    (s.classServe d pa write).mem = s.mem := by
  grind [State.classServe, State.dropCopies_mem]

@[simp] theorem State.walked_mem (s : State) (k ctx va : Nat) :
    (s.walked k ctx va).mem = s.mem := by
  grind [State.walked, State.classTouch_mem, State.classServe_mem, State.foldl_mem]

@[simp] theorem State.used_mem (s : State) (k : Nat) (t : Thread) (a : Word) :
    (s.used k t a).mem = s.mem := by
  grind [State.used, State.cacheLeaf_mem, State.walked_mem]

end Sys2Proof.Machine
end

section
/-! Memory and its canonical form: floating point. -/

set_option Elab.async false
namespace Sys2Proof.Machine

theorem State.frrr_memOk {s : State} (h : s.memOk) (q : Issue) (t : FTy) (vd va vb : Nat) (f : FVal → FVal → Nat) :
    (s.frrr q t vd va vb f).memOk := by
  grind [State.frrr, State.rrr_memOk, State.memOk]

theorem State.frr_memOk {s : State} (h : s.memOk) (q : Issue) (lat : Nat) (t : FTy) (vd va : Nat) (f : Nat → Nat) :
    (s.frr q lat t vd va f).memOk := by
  grind [State.frr, State.rr_memOk, State.memOk]

theorem State.fmm_memOk {s : State} (h : s.memOk) (q : Issue) (t : FTy) (isMax : Bool) (vd va vb : Nat) :
    (s.fmm q t isMax vd va vb).memOk := by
  grind [State.fmm, State.rrr_memOk, State.memOk]

theorem State.fvar_memOk {s : State} (h : s.memOk) (q : Issue) (op : Nat) (lf ld : Nat × Nat) (t : FTy) (vd : Nat) (srcs : List Nat)
    (f : Thread → Nat) :
    (s.fvar q op lf ld t vd srcs f).memOk := by
  grind [State.fvar, State.resultOp_memOk, State.memOk]

theorem execFpack_memOk {s : State} (h : s.memOk) (c : Ctl) (kind : PackKind) (ty : FTy) (rm : Rm) (vd va vb : Reg) :
    (execFpack c kind ty rm vd va vb s).memOk := by
  grind [execFpack, State.fixedOp_memOk, State.memOk, Out.memOk]

theorem execFunpack_memOk {s : State} (h : s.memOk) (c : Ctl) (kind : PackKind) (ty : FTy) (rm : Rm) (vd va vb : Reg) :
    (execFunpack c kind ty rm vd va vb s).memOk := by
  grind [execFunpack, State.fixedOp_memOk, State.memOk, Out.memOk]

end Sys2Proof.Machine
end

section
/-! Memory and its canonical form: outstanding accesses. -/

set_option Elab.async false
namespace Sys2Proof.Machine

@[simp] theorem State.markAcquire_mem (s : State) (k seq : Nat) (fence : Bool) :
    (s.markAcquire k seq fence).mem = s.mem := by
  grind [State.markAcquire, State.setHb_mem]

@[simp] theorem State.acquired_mem (s : State) (seq : Nat) (o : Op) (es : List (Nat × Inflight)) :
    (s.acquired seq o es).mem = s.mem := by
  grind [State.acquired, State.see_mem, State.markAcquire_mem, State.foldl_mem]

@[simp] theorem State.afterRead_mem (s : State) (seq : Nat) (o : Op) (pa n : Nat) (fe : Bool) :
    (s.afterRead seq o pa n fe).mem = s.mem := by
  grind [State.afterRead, State.acquired_mem, State.setHb_mem, State.foldl_mem]

@[simp] theorem State.setDies_mem (s : State) (sector : Nat) (f : Nat → Nat) :
    (s.setDies sector f).mem = s.mem := by
  grind [State.setDies]

@[simp] theorem State.setDie_mem (s : State) (sector d v : Nat) :
    (s.setDie sector d v).mem = s.mem := by
  grind [State.setDie, State.setDies_mem]

@[simp] theorem State.l1Out_mem (s : State) (line : Nat) :
    (s.l1Out line).mem = s.mem := by
  grind [State.l1Out]

@[simp] theorem State.fresh_mem (s : State) (d sector : Nat) :
    (s.fresh d sector).mem = s.mem := by
  grind [State.fresh]

@[simp] theorem State.l1Put_mem (s : State) (core sector v : Nat) :
    (s.l1Put core sector v).mem = s.mem := by
  grind [State.l1Put, State.evictLine_mem, State.elim_mem]

@[simp] theorem State.l2Evict_mem (s : State) (d line : Nat) :
    (s.l2Evict d line).mem = s.mem := by
  grind [State.l2Evict]

@[simp] theorem State.setL2_mem (s : State) (x : L2Ent) :
    (s.setL2 x).mem = s.mem := by
  grind [State.setL2, State.l2Evict_mem, State.elim_mem]

@[simp] theorem State.l2Alloc_mem (s : State) (d pa : Nat) :
    (s.l2Alloc d pa).mem = s.mem := by
  grind [State.l2Alloc, State.setL2_mem]

@[simp] theorem State.l1Use_mem (s : State) (core : Nat) (a : Access) (write : Bool) :
    (s.l1Use core a write).mem = s.mem := by
  grind [State.l1Use, State.l1Out_mem, State.setL2_mem]

@[simp] theorem State.queueOn_mem (s : State) (id pa : Nat) :
    (s.queueOn id pa).mem = s.mem := by
  grind [State.queueOn]

@[simp] theorem State.ncOut_mem (s : State) (a : Access) :
    (s.ncOut a).mem = s.mem := by
  grind [State.ncOut, State.l1Out_mem]

@[simp] theorem State.leaseTake_mem (s : State) (pa expiry : Nat) :
    (s.leaseTake pa expiry).mem = s.mem := by
  grind [State.leaseTake]

@[simp] theorem State.dropPeerCopy_mem (s : State) (pa : Nat) :
    (s.dropPeerCopy pa).mem = s.mem := by
  grind [State.dropPeerCopy]

theorem State.outsideStore_memOk {s : State} (h : s.memOk) (pa n : Nat) :
    (s.outsideStore pa n).memOk := by
  grind [State.outsideStore, State.writePa_memOk, State.memOk]

theorem State.agentRead_memOk {s : State} (h : s.memOk) (pa n : Nat) :
    (s.agentRead pa n).memOk := by
  grind [State.agentRead, State.outsideStore_memOk, State.shareSector_mem, State.foldl_memOk, State.memOk]

@[simp] theorem State.joinL1_mem (s : State) (core sector : Nat) :
    (s.joinL1 core sector).1.mem = s.mem := by
  grind [State.joinL1, State.l1Put_mem, State.setL2_mem, State.fresh_mem]

@[simp] theorem State.snapUnits_mem (s : State) (seq : Nat) (ks : List Nat) (a : Access) :
    (s.snapUnits seq ks a).mem = s.mem := by
  grind [State.snapUnits]

theorem State.storeNow_memOk {s : State} (h : s.memOk) (k : Nat) (w : Writer) (a : Access) (bs : List Byte) :
    (s.storeNow k w a bs).memOk := by
  grind [State.storeNow, State.writePa_memOk, State.classTouch_mem, State.l1Use_mem, State.snapUnits_mem, State.elim_memOk, State.memOk]

theorem State.storeFe_memOk {s : State} (h : s.memOk) (k : Nat) (w : Writer) (a : Access) (v : Option Word) (b : Bool) :
    (s.storeFe k w a v b).memOk := by
  grind [State.storeFe, State.writeWordFe_memOk, State.classTouch_mem, State.l1Use_mem, State.snapUnits_mem, State.elim_memOk, State.memOk]

@[simp] theorem State.readNow_mem (s : State) (seq : Nat) (o : Op) (a : Access) :
    (s.readNow seq o a).mem = s.mem := by
  grind [State.readNow, State.classTouch_mem, State.l1Use_mem, State.snapUnits_mem]

end Sys2Proof.Machine
end

section
/-! Memory and its canonical form: loads, stores and the scratchpad. -/

set_option Elab.async false
namespace Sys2Proof.Machine

theorem State.awayOp_mem {s t : State} {q : Issue} {l : Nat} {recv : List Nat} {pr : Nat} {kind : Kind} {a : Word} {zeros : List Landing}
    {step : Nat} (e : s.awayOp q l recv pr kind a zeros step = .ok t) :
    t.mem = s.mem := by
  grind [State.awayOp, State.startOp_mem]

theorem State.execLoad_memOk {s : State} (h : s.memOk) (c : Ctl) (off : BitVec 12) (pr : PReg) (hint n : Nat) (sgn : Bool) (vd va : Reg) :
    (s.execLoad c off pr hint n sgn vd va).memOk := by
  grind [State.execLoad, State.runGang_memOk, → State.awayOp_mem, State.startOp_mem, State.used_mem, Body.memOk, State.memOk]

theorem State.execStore_memOk {s : State} (h : s.memOk) (c : Ctl) (off : BitVec 12) (hint n : Nat) (src va : Reg) :
    (s.execStore c off hint n src va).memOk := by
  grind [State.execStore, State.runGang_memOk, State.startOp_mem, State.dropPeerCopy_mem, State.used_mem, Body.memOk, State.memOk]

theorem State.execLds_memOk {s : State} (h : s.memOk) (c : Ctl) (off : BitVec 12) (n : Nat) (sgn : Bool) (vd va : Reg) :
    (s.execLds c off n sgn vd va).memOk := by
  grind [State.execLds, State.runGang_memOk, State.startOp_mem, Body.memOk, State.memOk]

theorem State.execSts_memOk {s : State} (h : s.memOk) (c : Ctl) (off : BitVec 12) (n : Nat) (src va : Reg) :
    (s.execSts c off n src va).memOk := by
  grind [State.execSts, State.runGang_memOk, State.startOp_mem, Body.memOk, State.memOk]

@[simp] theorem State.closeIdem_mem (s : State) (k : Nat) :
    (s.closeIdem k).mem = s.mem := by
  grind [State.closeIdem, State.updBlock_mem]

theorem State.execFe_memOk {s : State} (h : s.memOk) (c : Ctl) (off : BitVec 12) (pr : PReg) (o : FeOp) (named reads : List Nat) (need : Need)
    (rd wr waits : Bool) (ord : Order) (src : Option Nat) (dst : Nat) (zeros : List Landing) (va : Reg) :
    (s.execFe c off pr o named reads need rd wr waits ord src dst zeros va).memOk := by
  refine State.runGang_memOk h _ _ _ _ fun s l recv t hs e => ?_
  grind [→ State.awayOp_mem, State.closeIdem_mem, State.startOp_mem, State.used_mem, State.foldl_memOk, State.memOk]

theorem State.execAtomic_memOk {s : State} (h : s.memOk) (c : Ctl) (four : Bool) (fn : AtomFn) (ord : Order) (named reads : List Nat) (va vx : Nat)
    (vy vd : Option Nat) : (s.execAtomic c four fn ord named reads va vx vy vd).memOk := by
  refine State.runGang_memOk h _ _ _ _ fun s l recv t hs e => ?_
  grind [State.dropPeerCopy_mem, State.used_mem, State.closeIdem_mem, State.updThread_mem, State.startOp_mem, State.foldl_memOk, State.memOk]

theorem State.touchStart_memOk {s : State} (h : s.memOk) (c : Ctl) (l : Nat) (recv : List Nat) (pr : Nat) (a : Word) (lf : Leaf) :
    (s.touchStart c l recv pr a lf).memOk := by
  grind [State.touchStart, State.startOp_mem, State.service_memOk, State.memOk]

theorem execLdv_memOk {s : State} (h : s.memOk) (c : Ctl) (size : LdSize) (pr : PReg) (vd va vb : Reg) :
    (execLdv c size pr vd va vb s).memOk := by
  refine State.runGang_memOk h _ _ _ _ fun s l recv t hs e => ?_
  grind [→ State.awayOp_mem, State.startOp_mem, State.used_mem, State.memOk]

theorem execTouch_memOk {s : State} (h : s.memOk) (c : Ctl) (off : BitVec 12) (pr : PReg) (va : Reg) :
    (execTouch c off pr va s).memOk := by
  refine State.runGang_memOk h _ _ _ _ fun s l recv t hs e => ?_
  grind [State.touchStart_memOk, State.memOk]

@[simp] theorem State.prefetchPeer_mem (s : State) (x : Access) :
    (s.prefetchPeer x).mem = s.mem := by
  grind [State.prefetchPeer, State.leaseTake_mem]

@[simp] theorem State.prefetch_mem (s : State) (k : Nat) (a : Word) (l2 excl : Bool) :
    (s.prefetch k a l2 excl).mem = s.mem := by
  grind [State.prefetch, State.used_mem, State.prefetchPeer_mem, State.l2Alloc_mem, State.classTouch_mem]

theorem execPref_memOk {s : State} (h : s.memOk) (c : Ctl) (off : BitVec 12) (l2 excl : Bool) (va : Reg) :
    (execPref c off l2 excl va s).memOk := by
  refine State.runGang_memOk h _ _ _ _ fun s l recv t hs e => ?_
  grind [State.fixed_mem, State.prefetch_mem, State.memOk]

theorem execCctl_memOk {s : State} (h : s.memOk) (c : Ctl) (off : BitVec 12) (op : CctlOp) (va : Reg) :
    (execCctl c off op va s).memOk := by
  refine State.runGang_memOk h _ _ _ _ fun s l recv t hs e => ?_
  grind [State.startOp_mem, State.used_mem, State.memOk]

theorem execAtoms_memOk {s : State} (h : s.memOk) (c : Ctl) (op : AtomOp) (ty : AtomTy) (four : Bool) (ord : AOrder) (vd va vb : Reg) :
    (execAtoms c op ty four ord vd va vb s).memOk := by
  refine State.runGang_memOk h _ _ _ _ fun x l recv t hx e => ?_
  grind [State.closeIdem_mem, State.updThread_mem, State.startOp_mem, State.foldl_memOk, State.memOk]

theorem execFence_memOk {s : State} (h : s.memOk) (c : Ctl) (kind : FenceKind) (sc : Scope) :
    (execFence c kind sc s).memOk := by
  refine State.runGang_memOk h _ _ _ _ fun s l recv t hs e => ?_
  grind [State.startOp_mem, State.memOk]

theorem execVretire_memOk {s : State} (h : s.memOk) (c : Ctl) (va vb : Reg) :
    (execVretire c va vb s).memOk := by
  refine State.runGang_memOk h _ _ _ _ fun s l recv t hs e => ?_
  grind [State.startOp_mem, State.used_mem, State.memOk]

end Sys2Proof.Machine
end

section
/-! Memory and its canonical form: the full/empty waiting protocol. -/

set_option Elab.async false
namespace Sys2Proof.Machine

@[simp] theorem State.tapTouch_mem (s : State) (line : Nat) :
    (s.tapTouch line).mem = s.mem := by
  grind [State.tapTouch]

@[simp] theorem State.homeRoom_mem (s : State) (line : Nat) :
    (s.homeRoom line).mem = s.mem := by
  grind [State.homeRoom, State.tapTouch_mem, State.l2Evict_mem, State.foldl_mem, State.elim_mem]

theorem State.parkWrite_memOk {s : State} (h : s.memOk) (past : List Nat) (a : Access) (ws : List Word) (j : Nat) :
    (s.parkWrite past a ws j).memOk := by
  induction ws generalizing s j with
  | nil => exact h
  | cons v vs ih => grind [State.parkWrite, State.writePa_memOk, State.classAgentWrite_mem, State.ncOut_mem, State.memOk]

theorem State.parkAdd_memOk {s t : State} {past : List Nat} {die ctx pa ident : Nat} (e : s.parkAdd past die ctx pa ident = some t) (h : s.memOk) :
    t.memOk := by
  grind [State.parkAdd, State.parkWrite_memOk, Option.map_eq_some_iff, State.memOk]

theorem State.parkKeep_memOk {s : State} (h : s.memOk) (past : List Nat) (die ctx pa : Nat) (stay : Nat → Bool) :
    (s.parkKeep past die ctx pa stay).memOk := by
  grind [State.parkKeep, State.parkWrite_memOk, State.foldl_memOk, State.foldl_fst_memOk, State.memOk]

@[simp] theorem State.sectorTrim_mem (s : State) (sec : Nat) :
    (s.sectorTrim sec).mem = s.mem := by
  grind [State.sectorTrim]

@[simp] theorem State.release_mem (s : State) (word ident : Nat) :
    (s.release word ident).mem = s.mem := by
  grind [State.release, State.updThread_mem]

theorem State.releaseWord_memOk {s : State} (h : s.memOk) (word : Nat) (full : Bool) :
    (s.releaseWord word full).memOk := by
  grind [State.releaseWord, State.release_mem, State.parkKeep_memOk, State.sectorTrim_mem, State.foldl_memOk, State.memOk]

theorem State.dropGraft_memOk {s : State} (h : s.memOk) (k : Nat) :
    (s.dropGraft k).memOk := by
  grind [State.dropGraft, State.sectorTrim_mem, State.parkKeep_memOk, State.foldl_memOk, State.memOk]

theorem State.dropForm_memOk {s : State} (h : s.memOk) (k : Nat) :
    (s.dropForm k).memOk := by
  grind [State.dropForm, State.sectorTrim_mem, State.parkKeep_memOk, State.memOk]

theorem State.dropWaiter_memOk {s : State} (h : s.memOk) (k : Nat) :
    (s.dropWaiter k).memOk := by
  grind [State.dropWaiter, State.dropForm_memOk, State.dropGraft_memOk, State.memOk]

theorem State.holdWaiter_memOk {s t : State} {ctx word ident : Nat} (e : s.holdWaiter ctx word ident = some t) (h : s.memOk) :
    t.memOk := by
  unfold State.holdWaiter at e
  extract_lets home die known at e
  split at e
  · cases e
  next s1 _ =>
    have h1 : s1.memOk := by unfold s1; split <;> exact h
    split at e
    · cases e; exact h1
    · exact State.parkAdd_memOk e h1

@[simp] theorem State.rekeyWords_mem (s : State) (old new : Nat) :
    (s.rekeyWords old new).mem = s.mem := by
  grind [State.rekeyWords]

theorem State.rekeyFrame_memOk {s : State} (h : s.memOk) (past : List Nat) (old new : Nat) :
    (s.rekeyFrame past old new).memOk := by
  grind [State.rekeyFrame, State.parkKeep_memOk, State.sectorTrim_mem, State.rekeyWords_mem, → State.holdWaiter_memOk, State.release_mem,
    State.foldl_memOk, State.getD_memOk, State.memOk]

end Sys2Proof.Machine
end

section
/-! Memory and its canonical form: versioned regions. -/

set_option Elab.async false
namespace Sys2Proof.Machine

@[simp] theorem State.unseen_mem (s : State) (frame : Nat) :
    (s.unseen frame).mem = s.mem := by
  grind [State.unseen, State.dropCopies_mem]

@[simp] theorem State.readonly_mem (s : State) (frame : Nat) :
    (s.readonly frame).mem = s.mem := by
  grind [State.readonly]

theorem State.poolPush_memOk {s t : State} {frame : Nat} (e : s.poolPush frame = some t) (h : s.memOk) :
    t.memOk := by
  grind [State.poolPush, State.setReg_mem, State.hwWrite_memOk, State.memOk]

theorem State.poolPop_mem {s t : State} {r : Nat} (e : s.poolPop = some (r, t)) :
    t.mem = s.mem := by
  grind [State.poolPop, State.setReg_mem]

theorem State.setResCount_memOk {s : State} (h : s.memOk) (reg n : Nat) :
    (s.setResCount reg n).memOk := by
  grind [State.setResCount, State.hwWrite_memOk, State.memOk]

theorem State.returnFrame_memOk {s : State} (h : s.memOk) (reg ctx frame : Nat) :
    (s.returnFrame reg ctx frame).memOk := by
  grind [State.returnFrame, State.unseen_mem, State.setResCount_memOk, State.hwWrite_memOk, State.service_memOk, → State.poolPush_memOk,
    State.getD_memOk, State.memOk]

theorem State.refill_memOk {s : State} (h : s.memOk) (reg n : Nat) : (s.refill reg n).memOk := by
  induction n generalizing s with
  | zero => exact h
  | succ n ih => grind [State.refill, State.hwWrite_memOk, State.setResCount_memOk, → State.poolPop_mem, State.memOk]

theorem State.cowStart_memOk {s t : State} {rec_ key op : Nat} (e : s.cowStart rec_ key op = some t) (h : s.memOk) :
    t.memOk := by
  grind [State.cowStart, State.hwWrite_memOk, State.setResCount_memOk, State.hwProbe_mem, State.memOk]

theorem State.dropSlots_memOk {s : State} (h : s.memOk) (rec_ o ctx : Nat) :
    (s.dropSlots rec_ o ctx).memOk := by
  grind [State.dropSlots, State.returnFrame_memOk, State.hwWrite_memOk, State.foldl_memOk, State.memOk]

@[simp] theorem State.replayFrom_mem (s : State) (frame : Nat) (ops : List Nat) :
    (s.replayFrom frame ops).mem = s.mem := by
  grind [State.replayFrom]

theorem State.cowSwitch_memOk {s : State} (h : s.memOk) (c : Cow) :
    (s.cowSwitch c).memOk := by
  grind [State.cowSwitch, State.dropSlots_memOk, State.copyRange_memOk, State.hwWriteBy_memOk, State.rekeyFrame_memOk, State.replayFrom_mem,
    State.service_memOk, State.refill_memOk, State.memOk]

theorem execCowCopyDone_memOk {s : State} (h : s.memOk) (rec : Nat) :
    (execCowCopyDone rec s).memOk := by
  grind [execCowCopyDone, State.cowSwitch_memOk, State.memOk, Out.memOk]

theorem execCowCopyError_memOk {s : State} (h : s.memOk) (rec : Nat) :
    (execCowCopyError rec s).memOk := by
  grind [execCowCopyError, State.returnFrame_memOk, State.hwWrite_memOk, State.faultOp_memOk, State.getD_memOk, State.memOk, Out.memOk]

theorem execCowReserveRetry_memOk {s : State} (h : s.memOk) (op : Nat) : (execCowReserveRetry op s).memOk := by
  unfold execCowReserveRetry
  split
  · exact h
  · split <;> grind [→ State.cowStart_memOk, State.faultOp_memOk, Out.memOk]

theorem execSweep_memOk {s : State} (h : s.memOk) (region : Nat) :
    (execSweep region s).memOk := by
  grind [execSweep, State.dropSlots_memOk, State.hwProbe_mem, State.hwWrite_memOk, State.foldl_memOk, State.getD_memOk, State.memOk, Out.memOk]

@[simp] theorem State.setRegion_mem (s : State) (die region w o : Nat) :
    (s.setRegion die region w o).mem = s.mem := by
  grind [State.setRegion]

@[simp] theorem State.pinRegion_mem (s : State) (region : Nat) :
    (s.pinRegion region).mem = s.mem := by
  grind [State.pinRegion, State.setRegion_mem, State.foldl_mem]

@[simp] theorem State.startSweep_mem (s : State) (reg ctx : Nat) :
    (s.startSweep reg ctx).mem = s.mem := by
  grind [State.startSweep]

theorem execVretireComplete_memOk {s : State} (h : s.memOk) (op : Nat) :
    (execVretireComplete op s).memOk := by
  grind [execVretireComplete, State.hwWriteBy_memOk, State.setRegion_mem, State.finishOp_mem, State.startSweep_mem, State.foldl_memOk, State.memOk,
    Out.memOk]

end Sys2Proof.Machine
end

section
/-! Memory and its canonical form: performing and landing. -/

set_option Elab.async false
namespace Sys2Proof.Machine

@[simp] theorem State.finishAtomic_mem (s : State) (seq : Nat) (o : Op) (vals : List (AtomMember × Word)) :
    (s.finishAtomic seq o vals).mem = s.mem := by
  unfold State.finishAtomic
  dsimp only
  split
  · exact s.finishOp_mem _ _ _
  · exact State.foldl_mem (fun x b => x.landIn_mem _ _ _ _) _

@[simp] theorem State.spadWrite_mem (s : State) (b off n v : Nat) :
    (s.spadWrite b off n v).mem = s.mem := by
  grind [State.spadWrite, State.updBlock_mem]

theorem State.peerRefused_memOk {s : State} (h : s.memOk) (seq hint : Nat) :
    (s.peerRefused seq hint).memOk := by
  grind [State.peerRefused, PeerAns.memOk, State.memOk]

theorem State.peerAsk_memOk {s : State} (h : s.memOk) (seq : Nat) (o : Op) (a : Access) :
    (s.peerAsk seq o a).memOk := by
  grind [State.peerAsk, State.peerRefused_memOk, PeerAns.memOk, State.leaseTake_mem, State.memOk]

theorem State.fromOwner_memOk {s : State} (h : s.memOk) (o : Op) (a : Access) :
    (s.fromOwner o a).memOk := by
  grind [State.fromOwner, State.outsideStore_memOk, State.memOk]

theorem State.askOwner_memOk {s : State} (h : s.memOk) (seq : Nat) (o : Op) (a : Access) :
    (s.askOwner seq o a).memOk := by
  grind [State.askOwner, State.fromOwner_memOk, State.peerAsk_memOk, PeerAns.memOk, State.memOk]

theorem State.viaPeer_memOk {s : State} (h : s.memOk) (seq : Nat) (o : Op) (a : Access) {go : State → State} (hg : ∀ x, x.memOk → (go x).memOk) :
    (s.viaPeer seq o a go).memOk := by
  grind [State.viaPeer, State.askOwner_memOk, PeerAns.memOk, State.faultOp_memOk]

@[simp] theorem State.leaveForm_mem (s : State) (o : Op) (seq : Nat) :
    (s.leaveForm o seq).mem = s.mem := by
  grind [State.leaveForm, State.updThread_mem, State.foldl_mem]

@[simp] theorem State.parkAt_mem (s : State) (o : Op) (w : Nat) (want recorded released : Bool) (n : Nat) :
    (s.parkAt o w want recorded released n).mem = s.mem := by
  grind [State.parkAt, State.updThread_mem, State.foldl_mem]

theorem State.feStep_memOk {s : State} (h : s.memOk) (seq : Nat) (o : Op) (a : Access) (f : FeOp) (v : Word) (dst pr : Nat) :
    (s.feStep seq o a f v dst pr).memOk := by
  cases f <;> grind [State.feStep, State.leaveForm_mem, State.afterRead_mem, State.finishOp_mem, State.readNow_mem, State.storeFe_memOk, State.memOk]

theorem State.launchStep_memOk {s : State} (h : s.memOk) (seq : Nat) (o : Op) (slot src : Access) :
    (s.launchStep seq o slot src).memOk := by
  grind [State.launchStep, State.snapUnits_mem, State.leaveForm_mem, State.finishOp_mem, State.writeWords_memOk, State.classTouch_mem,
    State.l1Use_mem, State.readNow_mem, State.memOk]

theorem State.waitingStep_memOk {s : State} (h : s.memOk) (seq : Nat) (o : Op) :
    (s.waitingStep seq o).memOk := by
  grind [State.waitingStep, State.feStep_memOk, State.viaPeer_memOk, State.leaveForm_mem, State.launchStep_memOk, State.memOk]

theorem State.formAway_memOk {s t : State} {seq : Nat} {o : Op} (e : s.formAway seq o = some t) (h : s.memOk) :
    t.memOk := by
  grind [State.formAway, State.faultOp_memOk, State.finishOp_mem, State.leaveForm_mem, State.memOk]

theorem State.formTry_memOk {s : State} (h : s.memOk) (seq : Nat) (o : Op) :
    (s.formTry seq o).memOk := by
  grind [State.formTry, → State.formAway_memOk, State.waitingStep_memOk, State.parkAt_mem, State.memOk]

theorem execWake_memOk {s : State} (h : s.memOk) (word : Nat) :
    (execWake word s).memOk := by
  grind [execWake, State.releaseWord_memOk, State.memOk, Out.memOk]

@[simp] theorem State.landLoad_mem (s : State) (seq : Nat) (o : Op) (a : Access) (sgn : Bool) (dst pr : Nat) :
    (s.landLoad seq o a sgn dst pr).mem = s.mem := by
  grind [State.landLoad, State.finishOp_mem, State.readNow_mem, State.afterRead_mem]

theorem State.doStore_memOk {s : State} (h : s.memOk) (seq : Nat) (o : Op) (a : Access) (v : Word) :
    (s.doStore seq o a v).memOk := by
  grind [State.doStore, State.finishOp_mem, State.storeNow_memOk, State.memOk]

theorem State.doAtomic_memOk {s : State} (h : s.memOk) (seq : Nat) (o : Op) (a : Access) (fn : AtomFn) (ms : List AtomMember) :
    (s.doAtomic seq o a fn ms).memOk := by
  grind [State.doAtomic, State.afterRead_mem, State.storeNow_memOk, State.readNow_mem, State.finishAtomic_mem, State.memOk]

theorem State.doSignal_memOk {s : State} (h : s.memOk) (seq : Nat) (o : Op) (a : Access) (fill : Bool) (v : Word) :
    (s.doSignal seq o a fill v).memOk := by
  grind [State.doSignal, State.finishOp_mem, State.storeFe_memOk, State.storeNow_memOk, State.memOk]

@[simp] theorem State.spadRead_mem (s : State) (o : Op) (b off : Nat) :
    (s.spadRead o b off).mem = s.mem := by
  grind [State.spadRead, State.setHb_mem, State.foldl_mem]

@[simp] theorem State.landLds_mem (s : State) (seq : Nat) (o : Op) (b off n : Nat) (sgn : Bool) (dst : Nat) :
    (s.landLds seq o b off n sgn dst).mem = s.mem := by
  grind [State.landLds, State.finishOp_mem, State.spadRead_mem]

@[simp] theorem State.doSts_mem (s : State) (seq : Nat) (o : Op) (b off n : Nat) (v : Word) :
    (s.doSts seq o b off n v).mem = s.mem := by
  grind [State.doSts, State.finishOp_mem, State.updBlock_mem, State.spadWrite_mem]

@[simp] theorem State.orderAtoms_mem (s : State) (seq : Nat) (o : Op) (b off : Nat) :
    (s.orderAtoms seq o b off).mem = s.mem := by
  grind [State.orderAtoms, State.spadRead_mem, State.see_mem, State.updBlock_mem, State.foldl_mem]

@[simp] theorem State.doAtoms_mem (s : State) (seq : Nat) (o : Op) (b off n : Nat) (fn : AtomFn) (ms : List AtomMember) :
    (s.doAtoms seq o b off n fn ms).mem = s.mem := by
  grind [State.doAtoms, State.orderAtoms_mem, State.finishAtomic_mem, State.spadWrite_mem]

@[simp] theorem State.cleanL1_mem (s : State) (core line : Nat) :
    (s.cleanL1 core line).mem = s.mem := by
  grind [State.cleanL1]

@[simp] theorem State.doCctl_mem (s : State) (seq : Nat) (o : Op) (op : CctlOp) (pa : Nat) : (s.doCctl seq o op pa).mem = s.mem := by
  cases op <;> grind [State.doCctl, State.classTouch_mem, State.cleanL1_mem, State.evictLine_mem, State.l2Evict_mem, State.finishOp_mem]

@[simp] theorem State.doFence_mem (s : State) (seq : Nat) (o : Op) (kind : FenceKind) (sc : Scope) :
    (s.doFence seq o kind sc).mem = s.mem := by
  grind [State.doFence, State.finishOp_mem, State.markAcquire_mem, State.see_mem, State.setHb_mem, State.foldl_mem]

theorem execReturnStackSpill_memOk {s : State} (h : s.memOk) (thr : Nat) :
    (execReturnStackSpill thr s).memOk := by
  grind [execReturnStackSpill, State.viaPeer_memOk, State.doStore_memOk, State.memOk, Out.memOk]

@[simp] theorem State.doFill_mem (s : State) (seq : Nat) (o : Op) (a : Access) :
    (s.doFill seq o a).mem = s.mem := by
  grind [State.doFill, State.updThread_mem, State.finishOp_mem, State.readNow_mem, State.afterRead_mem, State.foldl_mem]

theorem execReturnStackFill_memOk {s : State} (h : s.memOk) (thr : Nat) :
    (execReturnStackFill thr s).memOk := by
  grind [execReturnStackFill, State.viaPeer_memOk, State.doFill_mem, State.memOk, Out.memOk]

theorem execWaitExpiry_memOk {s : State} (h : s.memOk) (thr : Nat) :
    (execWaitExpiry thr s).memOk := by
  grind [execWaitExpiry, State.landIn_mem, State.updThread_mem, State.memOk, Out.memOk]

theorem execYieldExpiry_memOk {s : State} (h : s.memOk) (thr : Nat) :
    (execYieldExpiry thr s).memOk := by
  grind [execYieldExpiry, State.updThread_mem, State.memOk, Out.memOk]

theorem execReclassifyComplete_memOk {s : State} (h : s.memOk) (frame : Nat) :
    (execReclassifyComplete frame s).memOk := by
  grind [execReclassifyComplete, State.dropCopies_mem, State.getD_memOk, State.memOk, Out.memOk]

@[simp] theorem State.tidyWrites_mem (s : State)  :
    s.tidyWrites.mem = s.mem := by
  grind [State.tidyWrites]

theorem execRemoteWriteApply_memOk {s : State} (h : s.memOk) (die msg : Nat) :
    (execRemoteWriteApply die msg s).memOk := by
  grind [execRemoteWriteApply, State.tidyWrites_mem, State.memOk, Out.memOk]

end Sys2Proof.Machine
end

section
/-! Memory and its canonical form: control instructions. -/

set_option Elab.async false
namespace Sys2Proof.Machine

theorem State.push_mem {s t : State} {q : Issue} {k : Nat} {ret : Pc} {also : List Landing} (e : s.push q k ret also = .ok t) :
    t.mem = s.mem := by
  grind [State.push, State.updThread_mem, State.startOp_mem, State.dropPeerCopy_mem, State.used_mem]

@[simp] theorem State.classC_mem (s : State) (q : Issue) (k : Nat) :
    (s.classC q k).mem = s.mem := by
  grind [State.classC, State.fixed_mem]

@[simp] theorem State.setPc_mem (s : State) (k : Nat) (pc : Pc) :
    (s.setPc k pc).mem = s.mem := by
  grind [State.setPc, State.updThread_mem]

theorem State.callTo_mem {s t : State} {c : Ctl} {k : Nat} {pc : Pc} {l : List Landing} (e : s.callTo c k pc l = .ok t) :
    t.mem = s.mem := by
  grind [State.callTo, → State.push_mem, State.setPc_mem, State.fixed_mem]

theorem execBra_memOk {s : State} (h : s.memOk) (c : Ctl) (off : BitVec 24) :
    (execBra c off s).memOk := by
  refine State.runGang_memOk h _ _ _ _ fun s l recv t hs e => ?_
  grind [State.setPc_mem, State.classC_mem, State.memOk]

theorem execJmp_memOk {s : State} (h : s.memOk) (c : Ctl) (va : Reg) :
    (execJmp c va s).memOk := by
  refine State.runGang_memOk h _ _ _ _ fun s l recv t hs e => ?_
  grind [State.setPc_mem, State.classC_mem, State.memOk]

theorem execCall_memOk {s : State} (h : s.memOk) (c : Ctl) (off : BitVec 24) :
    (execCall c off s).memOk := by
  refine State.runGang_memOk h _ _ _ _ fun s l recv t hs e => ?_
  grind [→ State.callTo_mem, State.memOk]

theorem execCallr_memOk {s : State} (h : s.memOk) (c : Ctl) (va : Reg) :
    (execCallr c va s).memOk := by
  refine State.runGang_memOk h _ _ _ _ fun s l recv t hs e => ?_
  grind [→ State.callTo_mem, State.memOk]

theorem execCallt_memOk {s : State} (h : s.memOk) (c : Ctl) (pd : PReg) (vd va vb : Reg) :
    (execCallt c pd vd va vb s).memOk := by
  refine State.runGang_memOk h _ _ _ _ fun s l recv t hs e => ?_
  grind [State.startOp_mem, State.used_mem, State.memOk]

theorem State.calltCall_memOk {s : State} (h : s.memOk) (seq : Nat) (o : Op) (target : Pc) (l : List Landing) :
    (s.calltCall seq o target l).memOk := by
  grind [State.calltCall, State.finishOp_mem, State.updThread_mem, State.faultOp_memOk, State.dropPeerCopy_mem, State.used_mem, State.memOk]

theorem State.calltStep_memOk {s : State} (h : s.memOk) (seq : Nat) (o : Op) (c : CalltOp) :
    (s.calltStep seq o c).memOk := by
  grind [State.calltStep, State.readNow_mem, State.afterRead_mem, State.faultOp_memOk, State.used_mem, State.finishOp_mem, State.updThread_mem,
    State.calltCall_memOk, State.memOk]

theorem execRet_memOk {s : State} (h : s.memOk) (c : Ctl) :
    (execRet c s).memOk := by
  refine State.runGang_memOk h _ _ _ _ fun s l recv t hs e => ?_
  grind [State.setPc_mem, State.updThread_mem, State.classC_mem, State.startOp_mem, State.used_mem, State.memOk]

theorem execExit_memOk {s : State} (h : s.memOk) (c : Ctl) :
    (execExit c s).memOk := by
  refine State.runGang_memOk h _ _ _ _ fun s l recv t hs e => ?_
  grind [State.updThread_mem, State.classC_mem, State.memOk]

theorem execNop_memOk {s : State} (h : s.memOk) (c : Ctl) :
    (execNop c s).memOk := by
  refine State.runGang_memOk h _ _ _ _ fun s l recv t hs e => ?_
  grind [State.classC_mem, State.memOk]

theorem execWait_memOk {s : State} (h : s.memOk) (c : Ctl) (time : Bool) (va : Reg) :
    (execWait c time va s).memOk := by
  refine State.runGang_memOk h _ _ _ _ fun s l recv t hs e => ?_
  grind [State.classC_mem, State.updThread_mem, State.memOk]

theorem execYield_memOk {s : State} (h : s.memOk) (c : Ctl) :
    (execYield c s).memOk := by
  refine State.runGang_memOk h _ _ _ _ fun s l recv t hs e => ?_
  grind [State.updThread_mem, State.classC_mem, State.memOk]

end Sys2Proof.Machine
end

section
/-! Memory and its canonical form: barriers and bundle-wide instructions. -/

set_option Elab.async false
namespace Sys2Proof.Machine

@[simp] theorem State.barSeen_mem (s : State) (h : BarHome) (recv : List Nat) :
    (s.barSeen h recv).mem = s.mem := by
  grind [State.barSeen, State.see_mem, State.foldl_mem, State.elim_mem]

theorem State.barOp_memOk {s : State} (h : s.memOk) (c : Ctl) (bar : BarRef) (named reads : List Nat) (held acq rel : Bool)
    (k : Thread → BarHome → OpKind) :
    (s.barOp c bar named reads held acq rel k).memOk := by
  grind [State.barOp, State.runGang_memOk, State.barSeen_mem, State.startOp_mem, Body.memOk, State.memOk]

theorem State.doBar_memOk {s : State} (h : s.memOk) (seq : Nat) (o : Op) (b : BarHome) (e : BarEv) : (s.doBar seq o b e).memOk := by
  unfold State.doBar
  split
  · exact State.memOk_of_mem (s.finishOp_mem _ _ _) h
  · extract_lets covered arrived
    cases e with
    | arrive dst => exact State.memOk_of_mem (by simp) h
    | arriveWait dst => exact State.memOk_of_mem (by simp) h
    | post n =>
      dsimp only
      split
      · exact State.memOk_of_mem (by simp) h
      · exact State.faultOp_memOk h _ _ _
    | test p pd =>
      dsimp only
      split <;> exact State.memOk_of_mem (by simp) h

@[simp] theorem State.creditDone_mem (s : State) (m : Msg) (code : Nat) :
    (s.creditDone m code).mem = s.mem := by
  grind [State.creditDone]

theorem execEngineCredit_memOk {s : State} (h : s.memOk) (msg : Nat) :
    (execEngineCredit msg s).memOk := by
  grind [execEngineCredit, State.creditDone_mem, State.barPut_mem, State.memOk, Out.memOk]

theorem execAbortDelivery_memOk {s : State} (h : s.memOk) (msg : Nat) :
    (execAbortDelivery msg s).memOk := by
  grind [execAbortDelivery, State.creditDone_mem, State.barPut_mem, State.memOk, Out.memOk]

theorem execShfl_memOk {s : State} (h : s.memOk) (c : Ctl) (mode : ShflMode) (pv : PReg) (vd va vb : Reg) :
    (execShfl c mode pv vd va vb s).memOk := by
  refine State.runGang_memOk h _ _ _ _ fun x l recv t hx e => ?_
  cases e
  exact State.memOk_of_mem (State.startOp_mem _ _ _ _ _ _ _ _ _) hx

theorem execVote_memOk {s : State} (h : s.memOk) (c : Ctl) (v : VoteOp) : (execVote c v s).memOk := by
  refine State.runGang_memOk h _ _ _ _ fun x l recv t hx e => ?_
  cases e
  exact State.memOk_of_mem (State.startOp_mem _ _ _ _ _ _ _ _ _) hx

theorem execRedb_memOk {s : State} (h : s.memOk) (c : Ctl) (op : RedOp) (ty : RedTy) (vd va : Reg) : (execRedb c op ty vd va s).memOk := by
  refine State.runGang_memOk h _ _ _ _ fun x l recv t hx e => ?_
  cases e
  exact State.memOk_of_mem (State.startOp_mem _ _ _ _ _ _ _ _ _) hx

theorem execLaunch_memOk {s : State} (h : s.memOk) (c : Ctl) (sc : Scope) (va vb : Reg) :
    (execLaunch c sc va vb s).memOk := by
  refine State.runGang_memOk h _ _ _ _ fun s l recv t hs e => ?_
  grind [State.used_mem, State.closeIdem_mem, State.startOp_mem, State.foldl_memOk, State.memOk]

theorem execSignal_memOk {s : State} (h : s.memOk) (c : Ctl) (sc : Scope) (fill : Bool) (va vb : Reg) :
    (execSignal c sc fill va vb s).memOk := by
  refine State.runGang_memOk h _ _ _ _ fun s l recv t hs e => ?_
  grind [State.dropPeerCopy_mem, State.used_mem, State.closeIdem_mem, State.startOp_mem, State.foldl_memOk, State.memOk]

theorem execIdemend_memOk {s : State} (h : s.memOk) (c : Ctl) :
    (execIdemend c s).memOk := by
  refine State.runGang_memOk h _ _ _ _ fun s l recv t hs e => ?_
  grind [State.fixed_mem, State.closeIdem_mem, State.foldl_memOk, State.memOk]

end Sys2Proof.Machine
end

section
/-! Memory and its canonical form: scheduling. -/

set_option Elab.async false
namespace Sys2Proof.Machine

theorem State.ownNow_memOk {s : State} (h : s.memOk) (ctx : Nat) (a : Access) : (s.ownNow ctx a).memOk := by
  unfold State.ownNow
  split
  · exact h
  · grind [→ State.cowStart_memOk, State.cowSwitch_memOk, Own.memOk]

theorem State.agentPutAs_memOk {s : State} (h : s.memOk) (who : Option Nat) (w : Writer) (key pa : Nat) (bs : List Byte) (fill : Option Bool) :
    (s.agentPutAs who w key pa bs fill).memOk := by
  have h0 : (s.dropPeerCopy pa).memOk := State.memOk_of_mem (s.dropPeerCopy_mem pa) h
  have h1 := State.classAgentWrite_memOk h0 pa
  unfold State.agentPutAs
  dsimp only
  split
  · split
    · exact State.writeWordFe_memOk h1 _ _ _ _ _
    · exact State.writePa_memOk h1 _ _ _ _ _
  · split <;> grind [State.queueOn_mem, State.holdWrite_mem, State.memOk]

theorem State.agentPut_memOk {s : State} (h : s.memOk) (w : Writer) (key pa : Nat) (bs : List Byte) (fill : Option Bool) :
    (s.agentPut w key pa bs fill).memOk := by
  grind [State.agentPut, State.agentPutAs_memOk, State.memOk]

theorem State.performHeld_memOk {s : State} (h : s.memOk) (l : List HeldWr) : (s.performHeld l).memOk := by
  induction l generalizing s with
  | nil => exact h
  | cons w l ih => exact ih (State.agentPutAs_memOk h _ _ _ _ _ _)

theorem State.drainHeld_memOk {s : State} (h : s.memOk)  :
    s.drainHeld.memOk := by
  grind [State.drainHeld, State.performHeld_memOk, State.memOk]

@[simp] theorem State.putWaits_mem (s : State) (d : Nat) (pa : Option Nat) :
    (s.putWaits d pa).mem = s.mem := by
  grind [State.putWaits, State.holdWrite_mem, State.elim_mem]

theorem Put.stateFrom_memOk {p : Put} (hp : p.memOk) {s : State} (h : s.memOk) (d : Nat) : (p.from_ s d).memOk := by
  cases p with
  | done t => exact hp
  | wait pa => exact State.memOk_of_mem (s.putWaits_mem d pa) h
  | lost => exact h

theorem State.vaWrite_memOk {s : State} (h : s.memOk) (d ctx : Nat) (va v : Word) (fill : Option Bool) (w : Writer) :
    (s.vaWrite d ctx va v fill w).memOk := by
  grind [State.vaWrite, State.ownNow_memOk, Own.memOk, State.agentPut_memOk, State.ncOut_mem, Put.memOk, State.memOk]

@[simp] theorem State.setCtx_mem (s : State) (ctx : Nat) (f : CtxSt → CtxSt) :
    (s.setCtx ctx f).mem = s.mem := by
  grind [State.setCtx]

@[simp] theorem State.ctxCheck_mem (s : State) (d ctx : Nat) :
    (s.ctxCheck d ctx).1.mem = s.mem := by
  grind [State.ctxCheck, State.setCtx_mem, State.setReg_mem]

@[simp] theorem State.changeOwner_mem (s : State) (c : Nat) (o : Option Nat) :
    (s.changeOwner c o).mem = s.mem := by
  grind [State.changeOwner, State.updCore_mem, State.evictLine_mem, State.foldl_mem]

theorem execQeCoreCtxWrite_memOk {s : State} (h : s.memOk) (die idx : Nat) (val : Word) :
    (execQeCoreCtxWrite die idx val s).memOk := by
  grind [execQeCoreCtxWrite, State.writeReg_mem, State.changeOwner_mem, State.updCore_mem, State.memOk, Out.memOk]

theorem execCoreOwnerChange_memOk {s : State} (h : s.memOk) (core : Nat) :
    (execCoreOwnerChange core s).memOk := by
  grind [execCoreOwnerChange, State.changeOwner_mem, State.memOk, Out.memOk]

theorem State.placeBlockAs_mem {s t : State} {bid lid : Nat} {l : Launch} {gid idx c : Nat} (e : s.placeBlockAs bid lid l gid idx c = some t) :
    t.mem = s.mem := by
  grind [State.placeBlockAs, State.updCore_mem, State.foldl_mem]

theorem State.placeBlock_mem {s t : State} {lid : Nat} {l : Launch} {gid idx c : Nat} (e : s.placeBlock lid l gid idx c = some t) :
    t.mem = s.mem := by
  grind [State.placeBlock, → State.placeBlockAs_mem]

theorem State.placeBlocks_mem {s t : State} {lid : Nat} {l : Launch} {gid : Nat} {cores is : List Nat}
    (e : s.placeBlocks lid l gid cores is = some t) :
    t.mem = s.mem := by
  induction is generalizing s with
  | nil => grind [State.placeBlocks]
  | cons i is ih => grind [State.placeBlocks, → State.placeBlock_mem, → firstSome_spec]

theorem State.placeGroveOn_mem {s t : State} {lid : Nat} {l : Launch} {gidx d : Nat} (e : s.placeGroveOn lid l gidx d = some t) :
    t.mem = s.mem := by
  grind [State.placeGroveOn, → State.placeBlocks_mem]

theorem State.placeGrove_mem {s t : State} {lid : Nat} {l : Launch} {gidx : Nat} (e : s.placeGrove lid l gidx = some t) :
    t.mem = s.mem := by
  grind [State.placeGrove, → State.placeGroveOn_mem, → firstSome_spec]

theorem State.placeSpan_mem {s t : State} {lid : Nat} {l : Launch} {order : List Nat} {gidx n : Nat} (e : s.placeSpan lid l order gidx n = some t) :
    t.mem = s.mem := by
  induction n generalizing s gidx with
  | zero => grind [State.placeSpan]
  | succ n ih => grind [State.placeSpan, → State.placeGroveOn_mem, → firstSome_spec]

@[simp] theorem State.updLaunch_mem (s : State) (lid : Nat) (f : Launch → Launch) :
    (s.updLaunch lid f).mem = s.mem := by
  grind [State.updLaunch]

@[simp] theorem State.startedNow_mem (s : State) (lid : Nat) (l : Launch) :
    (s.startedNow lid l).mem = s.mem := by
  grind [State.startedNow, State.updLaunch_mem, State.bumpReg_mem]

theorem State.enqueueGrove_mem {s t : State} {lid : Nat} {l : Launch} (e : s.enqueueGrove lid l = some t) :
    t.mem = s.mem := by
  grind [State.enqueueGrove, State.updCore_mem, Option.map_eq_some_iff]

@[simp] theorem State.placeSweep_mem (s : State) (lid n : Nat) : (s.placeSweep lid n).mem = s.mem := by
  induction n generalizing s with
  | zero => rfl
  | succ n ih => grind [State.placeSweep, → State.placeGrove_mem, → State.enqueueGrove_mem, State.startedNow_mem, State.updLaunch_mem]

@[simp] theorem State.placeList_mem (s : State) (l : List (Nat × Launch)) (prio : Option Nat) : (s.placeList l prio).mem = s.mem := by
  induction l generalizing s prio with
  | nil => rfl
  | cons e l ih => grind [State.placeList, → State.placeSpan_mem, State.startedNow_mem, State.updLaunch_mem, State.placeSweep_mem]

@[simp] theorem State.ctxChecks_mem (s : State) (ctx : Nat) :
    (s.ctxChecks ctx).mem = s.mem := by
  grind [State.ctxChecks, State.ctxCheck_mem, State.foldl_mem]

@[simp] theorem State.placePending_mem (s : State) (d ctx : Nat) :
    (s.placePending d ctx).mem = s.mem := by
  grind [State.placePending, State.ctxCheck_mem, State.ctxChecks_mem, State.placeList_mem]

theorem execPlacementAttempt_memOk {s : State} (h : s.memOk) (die ctx : Nat) :
    (execPlacementAttempt die ctx s).memOk := by
  grind [execPlacementAttempt, State.placePending_mem, State.memOk, Out.memOk]

theorem execCoreQueueStart_memOk {s : State} (h : s.memOk) (core : Nat) : (execCoreQueueStart core s).memOk := by
  have hc : ∀ c, (s.ctxCheck (core / 512) c).1.memOk := fun c => State.memOk_of_mem (s.ctxCheck_mem _ _) h
  unfold execCoreQueueStart
  split
  · exact h
  · split
    · exact h
    · extract_lets ck x
      split
      · exact hc _
      · split
        next s1 e => exact State.memOk_of_mem (s := x) (by simp [State.placeBlock_mem e]) (hc _)
        next => exact hc _

@[simp] theorem State.balancePair_mem (s : State) (thresh a b : Nat) :
    (s.balancePair thresh a b).mem = s.mem := by
  grind [State.balancePair, State.updCore_mem]

theorem execBalanceInterval_memOk {s : State} (h : s.memOk) (die : Nat) :
    (execBalanceInterval die s).memOk := by
  grind [execBalanceInterval, State.balancePair_mem, State.foldl_memOk, State.getD_memOk, State.memOk, Out.memOk]

@[simp] theorem State.setQueue_mem (s : State) (d ctx q : Nat) (f : QueueSt → QueueSt) :
    (s.setQueue d ctx q f).mem = s.mem := by
  grind [State.setQueue]

@[simp] theorem State.seeEnable_mem (s : State) (d ctx q : Nat) (on : Bool) :
    (s.seeEnable d ctx q on).mem = s.mem := by
  grind [State.seeEnable, State.setQueue_mem]

@[simp] theorem State.vaProbe_mem (s : State) (d ctx : Nat) (va : Word) (n : Nat) :
    (s.vaProbe d ctx va n).mem = s.mem := by
  grind [State.vaProbe, State.hwProbe_mem]

@[simp] theorem State.servedBy_mem (s : State) (ctx q : Nat) :
    (s.servedBy ctx q).1.mem = s.mem := by
  grind [State.servedBy, State.vaProbe_mem, State.hwProbe_mem, State.ctxCheck_mem, State.foldl_mem]

theorem State.ownAll_memOk {s : State} (h : s.memOk) (ctx : Nat) (l : List Access) : (s.ownAll ctx l).memOk := by
  induction l generalizing s with
  | nil => exact h
  | cons a l ih => grind [State.ownAll, State.ownNow_memOk, Own.memOk]

@[simp] theorem State.countTake_mem (s : State) (d : Nat) :
    (s.countTake d).mem = s.mem := by
  grind [State.countTake]

theorem State.takeSlot_memOk {s t : State} {d ctx q : Nat} {as : List Access} {head : Word} (e : s.takeSlot d ctx q as head = some t) (h : s.memOk) :
    t.memOk := by
  unfold State.takeSlot at e
  split at e
  next s3 a _ e3 =>
    have h3 : s3.memOk := Own.ok_memOk e3 (State.ownAll_memOk h _ _)
    extract_lets pa es past ws s4 n at e
    have h4 : s4.memOk := State.writeWords_memOk (State.classAgentWrite_memOk (State.agentRead_memOk h3 _ _) _) _ _ _ _ _ _
    split at e
    · cases e
    · obtain ⟨s5, e5, e6⟩ := Option.map_eq_some_iff.mp e
      have h5 : s5.memOk := Put.get?_memOk e5 (State.vaWrite_memOk h4 _ _ _ _ _ _)
      cases e6
      exact State.memOk_of_mem (by simp) h5
  · cases e

theorem execQueueTake_memOk {s : State} (h : s.memOk) (ctx q : Nat) : (execQueueTake ctx q s).memOk := by
  have hs : (s.servedBy ctx q).1.memOk := State.memOk_of_mem (s.servedBy_mem ctx q) h
  unfold execQueueTake
  split
  next s0 e => rw [e] at hs; exact hs
  next s0 d w e =>
    rw [e] at hs
    grind [State.seeEnable_mem, State.setReg_mem, State.setQueue_mem, → State.takeSlot_memOk, State.holdWrite_mem, State.foldl_memOk,
    State.getD_memOk, State.memOk, Out.memOk]

theorem State.compDropped_memOk {s : State} (h : s.memOk) (d ctx : Nat) (addr : Word) (seq : Nat) :
    (s.compDropped d ctx addr seq).memOk := by
  grind [State.compDropped, State.service_memOk, State.bumpReg_mem, State.memOk]

theorem State.completion_memOk {s : State} (h : s.memOk) (d ctx : Nat) (w : List Word) (status : Nat) (past : List Nat) :
    (s.completion d ctx w status past).memOk := by
  grind [State.completion, State.compDropped_memOk, State.vaWrite_memOk, Put.memOk, State.memOk]

theorem execLaunchCompletion_memOk {s : State} (h : s.memOk) (launch : Nat) :
    (execLaunchCompletion launch s).memOk := by
  grind [execLaunchCompletion, State.seeEnable_mem, Put.stateFrom_memOk, State.completion_memOk, Put.memOk, State.setQueue_mem, State.elim_memOk,
    State.memOk, Out.memOk]

@[simp] theorem State.nodeView_mem (s : State) (ctx q : Nat) : (s.nodeView ctx q).1.mem = s.mem := by
  have h := s.servedBy_mem ctx q
  unfold State.nodeView
  split
  · simp_all
  · simp_all

@[simp] theorem State.nodeLaunch_mem (s : State) (ctx q : Nat) (v : NodeView) :
    (s.nodeLaunch ctx q v).1.mem = s.mem := by
  grind [State.nodeLaunch, State.setQueue_mem, State.countTake_mem]

theorem State.nodeRefused_memOk {s : State} (h : s.memOk) (ctx q : Nat) (v : NodeView) :
    (s.nodeRefused ctx q v).memOk := by
  grind [State.nodeRefused, State.completion_memOk, Put.memOk, State.compDropped_memOk, State.memOk]

theorem State.nodeCheck_memOk {s : State} (h : s.memOk) (ctx q : Nat) : (s.nodeCheck ctx q).1.memOk := by
  have hv : (s.nodeView ctx q).1.memOk := State.memOk_of_mem (s.nodeView_mem ctx q) h
  unfold State.nodeCheck
  split
  next s1 e => rw [e] at hv; exact hv
  next s1 v e =>
    rw [e] at hv
    split
    · exact hv
    · split
      · exact State.memOk_of_mem (s1.nodeLaunch_mem ctx q v) hv
      · have hr := State.nodeRefused_memOk hv ctx q v
        dsimp only
        split
        next s2 e2 => rw [e2] at hr; exact State.memOk_of_mem (s2.setQueue_mem _ _ _ _) hr
        next p _ => exact Put.stateFrom_memOk hr hv _

theorem execNodeBatchDispatch_memOk {s : State} (h : s.memOk) (ctx q : Nat) : (execNodeBatchDispatch ctx q s).memOk := by
  have hc := State.nodeCheck_memOk h ctx q
  unfold execNodeBatchDispatch
  split
  next s1 e => rw [e] at hc; exact hc
  next s1 v e =>
    rw [e] at hc
    grind [State.nodeLaunch_mem, State.placePending_mem, State.setQueue_mem, State.updLaunch_mem, State.memOk, Out.memOk]

@[simp] theorem State.watchNode_mem (s : State) (d ctx q : Nat) : (s.watchNode d ctx q).mem = s.mem := by
  unfold State.watchNode
  split
  · rfl
  · dsimp only
    split
    · rfl
    · exact s.setQueue_mem _ _ _ _

@[simp] theorem State.watchNodes_mem (s : State)  :
    s.watchNodes.mem = s.mem := by
  grind [State.watchNodes, State.watchNode_mem, State.foldl_mem]

theorem execNodeBatchTimeout_memOk {s : State} (h : s.memOk) (ctx q : Nat) : (execNodeBatchTimeout ctx q s).memOk := by
  have hc := State.nodeCheck_memOk h ctx q
  unfold execNodeBatchTimeout
  split
  next s1 e => rw [e] at hc; exact hc
  next s1 v e =>
    rw [e] at hc
    grind [State.watchNode_mem, State.vaWrite_memOk, Put.memOk, State.setQueue_mem, State.putWaits_mem, State.memOk, Out.memOk]

theorem execNodeEndMark_memOk {s : State} (h : s.memOk) (ctx q : Nat) : (execNodeEndMark ctx q s).memOk := by
  have hc := State.nodeCheck_memOk h ctx q
  unfold execNodeEndMark
  split
  next s1 e => rw [e] at hc; exact hc
  next s1 v e =>
    rw [e] at hc
    grind [State.vaWrite_memOk, Put.memOk, State.setQueue_mem, State.putWaits_mem, State.memOk, Out.memOk]

@[simp] theorem State.statsAdd_mem (s : State) (ctx die : Nat) (r : Render) :
    (s.statsAdd ctx die r).mem = s.mem := by
  grind [State.statsAdd, State.setCtx_mem]

theorem State.markReports_memOk {s : State} (h : s.memOk) (k : Nat) (t : Thread) :
    (s.markReports k t).memOk := by
  grind [State.markReports, State.report_memOk, State.foldl_memOk, State.memOk]

theorem State.retireDrain_memOk {s : State} (h : s.memOk) : s.retireDrain.memOk := by
  refine State.foldl_memOk (s := { s with retires := [] }) h (fun x r hx => ?_) _
  grind [State.vaWrite_memOk, Put.memOk, State.vaProbe_mem, State.putWaits_mem, State.memOk]

@[simp] theorem State.blockFree_mem (s : State) (bid : Nat) :
    (s.blockFree bid).mem = s.mem := by
  grind [State.blockFree, State.updCore_mem]

theorem State.groveEnd_memOk {s : State} (h : s.memOk) (gid lid : Nat) :
    (s.groveEnd gid lid).memOk := by
  grind [State.groveEnd, State.retireDrain_memOk, State.updLaunch_mem, State.memOk]

theorem State.blockEnd_memOk {s : State} (h : s.memOk) (bid : Nat) (b : Block) :
    (s.blockEnd bid b).memOk := by
  grind [State.blockEnd, State.groveEnd_memOk, State.statsAdd_mem, State.updBlock_mem, State.blockFree_mem, State.memOk]

@[simp] theorem State.leavePast_mem (s : State) (k lid : Nat) :
    (s.leavePast k lid).mem = s.mem := by
  grind [State.leavePast, State.updLaunch_mem]

theorem State.threadGone_memOk {s : State} (h : s.memOk) (k : Nat) :
    (s.threadGone k).memOk := by
  grind [State.threadGone, State.memberGone_mem, State.updBlock_mem, State.leavePast_mem, State.blockEnd_memOk, State.foldl_memOk, State.memOk]

theorem execThreadRetire_memOk {s : State} (h : s.memOk) (thr : Nat) :
    (execThreadRetire thr s).memOk := by
  grind [execThreadRetire, State.threadGone_memOk, State.markReports_memOk, State.memOk, Out.memOk]

theorem execBlockTableEntryGrant_memOk {s : State} (h : s.memOk) (core part : Nat) :
    (execBlockTableEntryGrant core part s).memOk := by
  grind [execBlockTableEntryGrant, State.memOk, Out.memOk]

end Sys2Proof.Machine
end

section
/-! Memory and its canonical form: the matrix array. -/

set_option Elab.async false
namespace Sys2Proof.Machine

@[simp] theorem State.refillPage_mem (s : State) (bid p : Nat) :
    (s.refillPage bid p).mem = s.mem := by
  grind [State.refillPage, State.updBlock_mem]

@[simp] theorem State.pinAll_mem (s : State) (bid : Nat) :
    (s.pinAll bid).mem = s.mem := by
  grind [State.pinAll, State.refillPage_mem, State.foldl_mem]

@[simp] theorem State.barCredit_mem (s : State) (h : Option BarHome) (n : Nat) (abort : Bool) (past : List Nat) :
    (s.barCredit h n abort past).1.mem = s.mem := by
  unfold State.barCredit
  grind [State.barPut_mem]

theorem State.vaWrite_getD_memOk {s : State} (h : s.memOk) (d ctx : Nat) (va v : Word) (fill : Option Bool) (w : Writer) :
    ((s.vaWrite d ctx va v fill w).get?.getD s).memOk := State.getD_memOk h fun _ e => Put.get?_memOk e (State.vaWrite_memOk h d ctx va v fill w)

theorem State.savedToken_memOk {s : State} (h : s.memOk) (v : SavedThr) (reg : Nat) (tok : Word) (m : Mark) (flag : Option Nat) :
    (s.savedToken v reg tok m flag).memOk := by
  unfold State.savedToken
  extract_lets d rd wr err one s1 s2 s3 s4
  have hw : ∀ x off w, x.memOk → (wr x off w).memOk := fun x _ _ hx => State.vaWrite_getD_memOk hx _ _ _ _ _ _
  have h4 : s4.memOk := hw _ _ _ (hw _ _ _ (hw _ _ _ (hw _ _ _ h)))
  split
  · exact h4
  · exact hw _ _ _ h4

theorem State.landToken_memOk {s : State} (h : s.memOk) (seq : Nat) (recv : List Nat) (reg : Nat) (tok : Word) (m : Mark) (flag : Option Nat)
    (sync : Bool) :
    (s.landToken seq recv reg tok m flag sync).memOk := by
  refine State.foldl_memOk h (fun x k hx => ?_) _
  split
  · exact State.memOk_of_mem rfl (State.savedToken_memOk hx _ _ _ _ _)
  · exact State.memOk_of_mem (x.landIn_mem _ _ _ _) hx

theorem State.mxEnd_memOk {s : State} (h : s.memOk) (id : Nat) :
    (s.mxEnd id).memOk := by
  grind [State.mxEnd, State.landToken_memOk, State.blockFree_mem, State.blockEnd_memOk, State.foldl_memOk, State.memOk]

@[simp] theorem State.updMx_mem (s : State) (id : Nat) (f : MxOp → MxOp) :
    (s.updMx id f).mem = s.mem := by
  grind [State.updMx]

@[simp] theorem State.updShare_mem (s : State) (id rank : Nat) (f : Share → Share) :
    (s.updShare id rank f).mem = s.mem := by
  grind [State.updShare, State.updMx_mem]

theorem State.mxRefuse_memOk {s : State} (h : s.memOk) (id : Nat) (o : MxOp) (rank : Nat) :
    (s.mxRefuse id o rank).memOk := by
  grind [State.mxRefuse, State.barCredit_mem, State.landToken_memOk, State.foldl_memOk, State.memOk]

@[simp] theorem State.mxAccept_mem (s : State) (id : Nat) (o : MxOp) :
    (s.mxAccept id o).mem = s.mem := by
  grind [State.mxAccept, State.updCore_mem, State.foldl_mem]

@[simp] theorem State.holdAt_mem (s : State) (recv : List Nat) :
    (s.holdAt recv).mem = s.mem := by
  grind [State.holdAt, State.updThread_mem, State.foldl_mem]

@[simp] theorem State.syncOn_mem (s : State) (recv : List Nat) (sync : Bool) (id : Nat) :
    (s.syncOn recv sync id).mem = s.mem := by
  grind [State.syncOn, State.updThread_mem, State.foldl_mem]

theorem State.execMatrix_memOk {s : State} (h : s.memOk) (c : Ctl) (en : BitVec 2) (fmt : TyCode) (gather perm : Bool) (bar : Option BarRef)
    (vd va : Reg) :
    (s.execMatrix c en fmt gather perm bar vd va).memOk := by
  grind [State.execMatrix, State.runGang_memOk, State.closeIdem_mem, State.syncOn_mem, State.mxRefuse_memOk, State.mxAccept_mem, State.holdAt_mem,
    Body.memOk, State.foldl_memOk, State.memOk]

theorem execShareStart_memOk {s : State} (h : s.memOk) (core : Nat) :
    (execShareStart core s).memOk := by
  grind [execShareStart, State.updShare_mem, State.updMx_mem, State.pinAll_mem, State.memOk, Out.memOk]

theorem execMatrixStep_memOk {s : State} (h : s.memOk) (core : Nat) :
    (execMatrixStep core s).memOk := by
  grind [execMatrixStep, State.updCore_mem, State.setCtx_mem, State.updShare_mem, State.updMx_mem, State.foldl_memOk, State.memOk, Out.memOk]

theorem execShareReady_memOk {s : State} (h : s.memOk) (mx rank : Nat) :
    (execShareReady mx rank s).memOk := by
  grind [execShareReady, State.updShare_mem, State.memOk, Out.memOk]

theorem execShareAbort_memOk {s : State} (h : s.memOk) (mx rank : Nat) :
    (execShareAbort mx rank s).memOk := by
  grind [execShareAbort, State.updMx_mem, State.updShare_mem, State.memOk, Out.memOk]

@[simp] theorem State.leaveArray_mem (s : State) (blk id rank : Nat) :
    (s.leaveArray blk id rank).mem = s.mem := by
  grind [State.leaveArray, State.updCore_mem]

theorem execCommitNotice_memOk {s : State} (h : s.memOk) (mx rank : Nat) :
    (execCommitNotice mx rank s).memOk := by
  grind [execCommitNotice, State.updCore_mem, State.barCredit_mem, State.leaveArray_mem, State.updMx_mem, State.updShare_mem, State.mxEnd_memOk,
    State.vaWrite_memOk, Put.memOk, State.foldl_memOk, State.getD_memOk, State.memOk, Out.memOk]

@[simp] theorem State.unhold_mem (s : State) (k : Nat) :
    (s.unhold k).mem = s.mem := by
  grind [State.unhold, State.updThread_mem, State.foldl_mem]

@[simp] theorem State.partnerFault_mem (s : State) (x : Share) :
    (s.partnerFault x).mem = s.mem := by
  grind [State.partnerFault, State.updThread_mem, State.foldl_mem]

theorem execAbortNotice_memOk {s : State} (h : s.memOk) (mx rank : Nat) :
    (execAbortNotice mx rank s).memOk := by
  grind [execAbortNotice, State.barCredit_mem, State.leaveArray_mem, State.mxEnd_memOk, State.updShare_mem, State.partnerFault_mem,
    State.vaWrite_memOk, Put.memOk, State.memOk, Out.memOk]

@[simp] theorem State.arrayOp_mem (s : State) (q : Issue) (l : Nat) (recv : List Nat) (k : OpKind) :
    (s.arrayOp q l recv k).mem = s.mem := by
  grind [State.arrayOp, State.holdAt_mem, State.updCore_mem, State.startOp_mem]

theorem execAccz_memOk {s : State} (h : s.memOk) (c : Ctl) (va vb : Reg) :
    (execAccz c va vb s).memOk := by
  refine State.runGang_memOk h _ _ _ _ fun s l recv t hs e => ?_
  grind [State.arrayOp_mem, State.memOk]

theorem execAccrd_memOk {s : State} (h : s.memOk) (c : Ctl) (four : Bool) (vd va : Reg) :
    (execAccrd c four vd va s).memOk := by
  refine State.runGang_memOk h _ _ _ _ fun s l recv t hs e => ?_
  grind [State.arrayOp_mem, State.memOk]

theorem execAccwr_memOk {s : State} (h : s.memOk) (c : Ctl) (four : Bool) (va vb : Reg) :
    (execAccwr c four va vb s).memOk := by
  refine State.runGang_memOk h _ _ _ _ fun s l recv t hs e => ?_
  grind [State.arrayOp_mem, State.memOk]

theorem execPermt_memOk {s : State} (h : s.memOk) (c : Ctl) (va vb : Reg) :
    (execPermt c va vb s).memOk := by
  refine State.runGang_memOk h _ _ _ _ fun s l recv t hs e => ?_
  grind [State.arrayOp_mem, State.memOk]

@[simp] theorem State.arrayStep_mem (s : State) (seq : Nat) (o : Op) :
    (s.arrayStep seq o).mem = s.mem := by
  grind [State.arrayStep, State.updCore_mem, State.finishOp_mem]

theorem State.heldBy_mem {s t : State} {thr : Nat} {r : Instr} (e : s.heldBy thr = some (t, r)) :
    t.mem = s.mem := by
  grind [State.heldBy, State.unhold_mem, Option.map_eq_some_iff]

@[simp] theorem State.heldDue_mem (s : State) (thr : Nat) :
    (s.heldDue thr).mem = s.mem := by
  grind [State.heldDue, State.unhold_mem]

theorem execMatrixAccept_memOk {s : State} (h : s.memOk) (thr : Nat) : (execMatrixAccept thr s).memOk := by
  unfold execMatrixAccept
  split
  case h_8 => exact State.memOk_of_mem (s.heldDue_mem thr) h
  case h_4 e => exact execAccz_memOk (State.memOk_of_mem (State.heldBy_mem e) h) _ _ _
  case h_5 e => exact execAccrd_memOk (State.memOk_of_mem (State.heldBy_mem e) h) _ _ _ _
  case h_6 e => exact execAccwr_memOk (State.memOk_of_mem (State.heldBy_mem e) h) _ _ _ _
  case h_7 e => exact execPermt_memOk (State.memOk_of_mem (State.heldBy_mem e) h) _ _ _
  all_goals exact State.execMatrix_memOk (State.memOk_of_mem (State.heldBy_mem ‹_›) h) _ _ _ _ _ _ _ _

end Sys2Proof.Machine
end

section
/-! Memory and its canonical form: migration. -/

set_option Elab.async false
namespace Sys2Proof.Machine

@[simp] theorem State.putTags_mem (s : State) (frame : Nat) (tags : List Byte) :
    (s.putTags frame tags).mem = s.mem := by
  grind [State.putTags, State.foldl_mem]

@[simp] theorem State.dropFrame_mem (s : State) (frame : Nat) :
    (s.dropFrame frame).mem = s.mem := by
  grind [State.dropFrame]

@[simp] theorem State.dropPage_mem (s : State) (ctx page : Nat) :
    (s.dropPage ctx page).mem = s.mem := by
  grind [State.dropPage]

theorem State.releaseFrame_memOk {s : State} (h : s.memOk) (frame : Nat) :
    (s.releaseFrame frame).memOk := by
  grind [State.releaseFrame, State.release_mem, State.dropWaiter_memOk, State.foldl_memOk, State.memOk]

theorem State.moveSwitch_memOk {s : State} (h : s.memOk) (past : List Nat) (src dst tag : Nat) (resident : Bool) :
    (s.moveSwitch past src dst tag resident).memOk := by
  grind [State.moveSwitch, State.moveData_memOk, State.writePa_memOk, State.putTags_mem, State.hwWriteLeaf_memOk, State.hwWriteBy_memOk,
    State.releaseFrame_memOk, State.rekeyFrame_memOk, State.dropPage_mem, State.dropFrame_mem, State.unseen_mem, State.replayFrom_mem,
    State.foldl_memOk, State.memOk]

theorem State.hwResidency_memOk {s : State} (h : s.memOk) (past : List Nat) (die ctx va : Nat) :
    (s.hwResidency past die ctx va).1.memOk := by
  grind [State.hwResidency, → State.poolPop_mem, State.moveSwitch_memOk, State.memOk]

theorem State.residency_memOk {s : State} (h : s.memOk) (past : List Nat) (die ctx va : Nat) :
    (s.residency past die ctx va).memOk := by
  grind [State.residency, State.service_memOk, State.hwResidency_memOk, State.memOk]

end Sys2Proof.Machine
end

section
/-! Memory and its canonical form: the engines. -/

set_option Elab.async false
namespace Sys2Proof.Machine

@[simp] theorem State.updCmd_mem (s : State) (id : Nat) (f : Cmd → Cmd) :
    (s.updCmd id f).mem = s.mem := by
  grind [State.updCmd]

@[simp] theorem State.depthReg_mem (s : State) (e : Nat) :
    (s.depthReg e).mem = s.mem := by
  grind [State.depthReg, State.setReg_mem]

theorem State.engCaches_memOk {s : State} (h : s.memOk) (a : Access) (n : Nat) (wr : Bool) :
    (s.engCaches a n wr).memOk := by
  grind [State.engCaches, State.l1Out_mem, State.agentRead_memOk, State.memOk]

@[simp] theorem State.takeRank_mem (s : State) (id : Nat) (c : Cmd) (rank : Option Nat) (err : Nat) :
    (s.takeRank id c rank err).mem = s.mem := by
  grind [State.takeRank]

@[simp] theorem State.breakInst_mem (s : State) (c : Cmd) (code : Nat) :
    (s.breakInst c code).mem = s.mem := by
  grind [State.breakInst, State.updCmd_mem, State.foldl_mem]

@[simp] theorem State.enrol_mem (s : State) (id : Nat) (c : Cmd) (g : GroupView) :
    (s.enrol id c g).mem = s.mem := by
  grind [State.enrol, State.updCmd_mem, State.takeRank_mem, State.breakInst_mem]

@[simp] theorem State.accept_mem (s : State) (id : Nat) (c : Cmd) :
    (s.accept id c).mem = s.mem := by
  grind [State.accept, State.closeIdem_mem, State.syncOn_mem, State.depthReg_mem, State.foldl_mem]

theorem State.command_memOk {s : State} (h : s.memOk) (c : Ctl) (ord : Bool) (eng : EngSel) (hwd : Bool) (credit : Option BarRef) (n vd va : Nat)
    (extra reads : List Nat) (kind : Thread → List Nat → Except FaultInfo CmdKind) :
    (s.command c ord eng hwd credit n vd va extra reads kind).memOk := by
  refine State.runGang_memOk h _ _ _ _ fun s l recv t hs e => ?_
  grind [State.holdAt_mem, State.accept_mem, State.memOk]

theorem execEqry_memOk {s : State} (h : s.memOk) (c : Ctl) (eng : QrySel) (vd : Reg) : (execEqry c eng vd s).memOk := by
  refine State.runGang_memOk h _ _ _ _ fun x l recv t hx e => ?_
  cases e
  exact State.memOk_of_mem (State.startOp_mem _ _ _ _ _ _ _ _ _) hx

theorem execEngineAccept_memOk {s : State} (h : s.memOk) (thr : Nat) : (execEngineAccept thr s).memOk := by
  unfold execEngineAccept
  split
  case h_7 => exact State.memOk_of_mem (s.heldDue_mem thr) h
  all_goals exact State.command_memOk (State.memOk_of_mem (State.heldBy_mem ‹_›) h) _ _ _ _ _ _ _ _ _ _ _

theorem Eng.bind_memOk {α β : Type} {x : Eng α} (h : x.memOk) {f : State → α → Eng β} (hf : ∀ s a, s.memOk → (f s a).memOk) : (x.bind f).memOk := by
  cases x <;> grind [Eng.bind, Eng.memOk]

theorem engAll_memOk {α β : Type} {f : State → α → Eng β} (hf : ∀ s a, s.memOk → (f s a).memOk) {s : State} (h : s.memOk) (l : List α) :
    (engAll f s l).memOk := by
  induction l generalizing s with
  | nil => exact h
  | cons a l ih => grind [engAll, Eng.memOk, Eng.bind_memOk]

@[simp] theorem State.setRefused_mem (s : State) (id : Nat) (f : Tbl (Nat × Nat) → Tbl (Nat × Nat)) :
    (s.setRefused id f).mem = s.mem := by
  grind [State.setRefused, State.updCmd_mem]

theorem State.engRefused_memOk {s : State} (h : s.memOk) {α : Type} (id : Nat) (c : Cmd) (key : Nat) (va : Word) (hint : Nat) :
    (State.engRefused s id c key va hint : Eng α).memOk := by
  grind [State.engRefused, State.bumpReg_mem, State.setRefused_mem, Eng.memOk, State.memOk]

theorem State.peerSend_memOk {s : State} (h : s.memOk) (id : Nat) (c : Cmd) (key : Nat) (va : Word) (f ans : Nat) :
    (s.peerSend id c key va f ans).memOk := by
  grind [State.peerSend, State.engRefused_memOk, Eng.memOk, State.setRefused_mem, State.memOk]

@[simp] theorem State.replayed_mem (s : State) (id pa : Nat) :
    (s.replayed id pa).mem = s.mem := by
  grind [State.replayed]

theorem State.engOwn_memOk {s : State} (h : s.memOk) (id : Nat) (c : Cmd) (a : Access) (whole : Bool) (va : Word) :
    (s.engOwn id c a whole va).memOk := by
  grind [State.engOwn, State.ownNow_memOk, Own.memOk, → State.cowStart_memOk, Eng.memOk, State.memOk]

theorem State.engAccess_memOk {s : State} (h : s.memOk) (id : Nat) (c : Cmd) (va : Word) (n : Nat) (need : Need) (fe whole : Bool) :
    (s.engAccess id c va n need fe whole).memOk := by
  grind [State.engAccess, State.residency_memOk, State.queueOn_mem, Eng.bind_memOk, Eng.memOk, State.peerSend_memOk, State.dropPeerCopy_mem,
    State.outsideStore_memOk, State.holdWrite_mem, State.engOwn_memOk, State.replayed_mem, State.engCaches_memOk, State.memOk]

theorem State.engRead_memOk {s : State} (h : s.memOk) (id : Nat) (c : Cmd) (va : Word) (fe : Bool) (n : Nat) :
    (s.engRead id c va fe n).memOk := by
  grind [State.engRead, Eng.bind_memOk, Eng.memOk, engAll_memOk, State.engAccess_memOk, State.memOk]

theorem State.engWrite_memOk {s : State} (h : s.memOk) (id : Nat) (c : Cmd) (va : Word) (bs : List Byte) (mode : Nat) (sbit whole : Bool) :
    (s.engWrite id c va bs mode sbit whole).memOk := by
  grind [State.engWrite, Eng.bind_memOk, Eng.memOk, State.engAccess_memOk, State.writePa_memOk, State.classAgentWrite_mem, State.writeWordFe_memOk,
    State.memOk]

theorem State.engBit_memOk {s : State} (h : s.memOk) (id : Nat) (c : Cmd) (va : Word) :
    (s.engBit id c va).memOk := by
  grind [State.engBit, Eng.bind_memOk, Eng.memOk, State.engAccess_memOk, State.memOk]

theorem State.engSpad_memOk {s : State} (h : s.memOk) (c : Cmd) (w : Word) (off : Int) (n : Nat) :
    (s.engSpad c w off n).memOk := by
  grind [State.engSpad, State.refillPage_mem, Eng.memOk, State.memOk]

theorem State.endRead_memOk {s : State} (h : s.memOk) (id : Nat) (c : Cmd) (scratch : Bool) (w : Word) (off : Int) (n : Nat) :
    (s.endRead id c scratch w off n).memOk := by
  grind [State.endRead, Eng.bind_memOk, Eng.memOk, State.engSpad_memOk, State.engRead_memOk, State.memOk]

@[simp] theorem State.keep_mem (s : State) (id key : Nat) (v : List Byte × Bool) :
    (s.keep id key v).mem = s.mem := by
  grind [State.keep, State.updCmd_mem]

theorem State.cpySource_memOk {s : State} (h : s.memOk) (id : Nat) (c : Cmd) (u : Nat) :
    (s.cpySource id c u).memOk := by
  grind [State.cpySource, Eng.bind_memOk, Eng.memOk, State.endRead_memOk, State.engBit_memOk, State.keep_mem, State.memOk]

theorem State.cpyByte_memOk {s : State} (h : s.memOk) (id : Nat) (c : Cmd) (u : Nat) :
    (s.cpyByte id c u).memOk := by
  grind [State.cpyByte, Eng.bind_memOk, Eng.memOk, State.cpySource_memOk, State.memOk]

theorem State.tilePart_memOk {s : State} (h : s.memOk) (id : Nat) (c : Cmd) (p : TilePart) :
    (s.tilePart id c p).memOk := by
  grind [State.tilePart, Eng.bind_memOk, Eng.memOk, State.engAccess_memOk, State.keep_mem, State.memOk]

theorem State.tileByte_memOk {s : State} (h : s.memOk) (id : Nat) (c : Cmd) (u : Nat) :
    (s.tileByte id c u).memOk := by
  grind [State.tileByte, Eng.bind_memOk, Eng.memOk, engAll_memOk, State.tilePart_memOk, State.foldl_memOk, State.memOk]

theorem State.copyByte_memOk {s : State} (h : s.memOk) (id : Nat) (c : Cmd) (u : Nat) :
    (s.copyByte id c u).memOk := by
  grind [State.copyByte, State.tileByte_memOk, Eng.memOk, State.cpyByte_memOk, State.memOk]

theorem State.copyWord_memOk {s : State} (h : s.memOk) (id : Nat) (c : Cmd) (g : Nat × Nat) :
    (s.copyWord id c g).memOk := by
  grind [State.copyWord, Eng.bind_memOk, Eng.memOk, engAll_memOk, State.copyByte_memOk, State.engSpad_memOk, State.spadWrite_mem,
    State.engWrite_memOk, State.memOk]

@[simp] theorem State.failCopy_mem (s : State) (id code : Nat) (va : Word) :
    (s.failCopy id code va).mem = s.mem := by
  grind [State.failCopy, State.updCmd_mem]

theorem State.pieces_memOk {s : State} (h : s.memOk) (id n : Nat) : (s.pieces id n).memOk := by
  induction n generalizing s with
  | zero => exact h
  | succ n ih =>
    unfold State.pieces
    split
    · exact h
    next c _ =>
      split
      · exact h
      · split
        · exact State.memOk_of_mem (s.updCmd_mem _ _) h
        · extract_lets g
          split
          next s1 _ e => exact ih (State.memOk_of_mem (s1.updCmd_mem _ _) (Eng.ok_memOk e (State.copyWord_memOk h _ _ _)))
          next s1 code va e => exact State.memOk_of_mem (s1.failCopy_mem id code va) (Eng.err_memOk e (State.copyWord_memOk h _ _ _))
          next s1 e => exact ih (Eng.wait_memOk e (State.copyWord_memOk h _ _ _))

theorem State.readAhead_memOk {s : State} (h : s.memOk) (id n : Nat) : (s.readAhead id n).memOk := by
  induction n generalizing s with
  | zero => exact h
  | succ n ih =>
    unfold State.readAhead
    split
    · exact h
    next c _ =>
      split
      · exact h
      · split
        next s1 _ e => exact ih (Eng.ok_memOk e (State.copyByte_memOk h _ _ _))
        next s1 code va e => exact State.memOk_of_mem (s1.failCopy_mem id code va) (Eng.err_memOk e (State.copyByte_memOk h _ _ _))
        next s1 e => exact ih (Eng.wait_memOk e (State.copyByte_memOk h _ _ _))

@[simp] theorem State.endAll_mem (s : State) (ms : List (Nat × Nat × Cmd)) (code : Nat) (va : Word) :
    (s.endAll ms code va).mem = s.mem := by
  grind [State.endAll, State.updCmd_mem, State.foldl_mem]

theorem State.peerSteps_memOk {s : State} (h : s.memOk) (id : Nat) (c : Cmd) (l : List (Nat × Word)) :
    (s.peerSteps id c l).memOk := by
  grind [State.peerSteps, Eng.bind_memOk, Eng.memOk, engAll_memOk, State.peerSend_memOk, State.keep_mem, State.memOk]

@[simp] theorem State.endMember_mem (s : State) (id : Nat) (c : Cmd) (code : Nat) (va : Word) :
    (s.endMember id c code va).mem = s.mem := by
  grind [State.endMember, State.updCmd_mem]

theorem State.partRead_memOk {s : State} (h : s.memOk) (id : Nat) (c : Cmd) (va : Word) (n : Nat) :
    (s.partRead id c va n).memOk := by
  grind [State.partRead, Eng.bind_memOk, Eng.memOk, engAll_memOk, State.engAccess_memOk, State.keep_mem, State.memOk]

theorem State.writeOuts_memOk {s : State} (h : s.memOk) (id n : Nat) : (s.writeOuts id n).memOk := by
  induction n generalizing s with
  | zero => exact h
  | succ n ih =>
    unfold State.writeOuts
    split
    · exact h
    next c _ =>
      split
      · exact h
      next o _ =>
        have hw := State.engWrite_memOk h id c o.1 o.2 0 false false
        split
        next s1 _ e => exact ih (State.memOk_of_mem (s1.updCmd_mem _ _) (Eng.ok_memOk e hw))
        next s1 code va e => exact State.memOk_of_mem (s1.endAll_mem _ code va) (Eng.err_memOk e hw)
        next s1 e => exact ih (Eng.wait_memOk e hw)

theorem State.collRun_memOk {s : State} (h : s.memOk) (id : Nat) (c : Cmd) : (s.collRun id c).memOk := by
  have hread : ∀ (x : State) (m : Nat × Nat × Cmd), x.memOk → (x.partRead m.2.1 m.2.2 (m.2.2.a 0)
      (c.eSpan c.count)).memOk := fun x m hx => State.partRead_memOk hx _ _ _ _
  unfold State.collRun
  split
  · exact h
  next g _ =>
    extract_lets ms
    have hp := State.peerSteps_memOk h id c (s.collSends c g)
    split
    next s1 code va e => exact State.memOk_of_mem (s1.endMember_mem _ _ _ _) (Eng.err_memOk e hp)
    next s0 e =>
      have h0 := State.partRead_memOk (Eng.wait_memOk e hp) id c (c.a 0) (c.eSpan c.count)
      split
      next s1 _ e1 => exact Eng.ok_memOk e1 h0
      next s1 e1 => exact Eng.wait_memOk e1 h0
      next s1 code va e1 => exact State.memOk_of_mem (s1.endAll_mem _ _ _) (Eng.err_memOk e1 h0)
    next s0 _ e =>
      have h0 := Eng.ok_memOk e hp
      have ha := engAll_memOk hread h0 ms
      split
      · exact State.memOk_of_mem (s0.updCmd_mem _ _) h0
      · split
        next s1 e1 => exact Eng.wait_memOk e1 ha
        next s1 code va e1 => exact State.memOk_of_mem (s1.endAll_mem _ _ _) (Eng.err_memOk e1 ha)
        next s1 bufs e1 =>
          have h1 := Eng.ok_memOk e1 ha
          split
          · exact h1
          · split
            · exact State.memOk_of_mem (s1.endAll_mem _ _ _) h1
            · exact State.memOk_of_mem (State.foldl_mem (fun x m => x.updCmd_mem _ _) _) h1

theorem State.haloIn_memOk {s : State} (h : s.memOk) (l : List (Nat × Nat × Cmd)) (m : Nat × Nat × Cmd) (f : Nat) :
    (s.haloIn l m f).memOk := by
  grind [State.haloIn, engAll_memOk, Eng.memOk, Eng.bind_memOk, State.partRead_memOk, State.memOk]

theorem State.haloOut_memOk {s : State} (h : s.memOk) (l : List (Nat × Nat × Cmd)) (m : Nat × Nat × Cmd) (f : Nat) (vals : List Nat) :
    (s.haloOut l m f vals).memOk := by
  grind [State.haloOut, Eng.bind_memOk, Eng.memOk, engAll_memOk, State.partRead_memOk, State.memOk]

theorem State.haloFace_memOk {s : State} (h : s.memOk) (l : List (Nat × Nat × Cmd)) (m : Nat × Nat × Cmd) (f : Nat) :
    (s.haloFace l m f).memOk := by
  grind [State.haloFace, Eng.bind_memOk, Eng.memOk, State.haloIn_memOk, State.haloOut_memOk, State.memOk]

theorem State.haloRound_memOk {s : State} (h : s.memOk) (l : List (Nat × Nat × Cmd)) (d : Nat) :
    (s.haloRound l d).memOk := by
  grind [State.haloRound, engAll_memOk, Eng.memOk, Eng.bind_memOk, State.haloFace_memOk, State.memOk]

@[simp] theorem State.setLabel_mem (s : State) (m : Nat × Nat) :
    (s.setLabel m).mem = s.mem := by
  grind [State.setLabel]

@[simp] theorem State.haloLabel_mem (s : State) (id : Nat) (c : Cmd) (loc : List Nat) :
    (s.haloLabel id c loc).mem = s.mem := by
  grind [State.haloLabel, State.setLabel_mem, State.endMember_mem, State.foldl_mem]

theorem State.haloRun_memOk {s : State} (h : s.memOk) (id : Nat) (c : Cmd) : (s.haloRun id c).memOk := by
  unfold State.haloRun
  split
  · exact h
  next g _ =>
    extract_lets loc
    split
    · exact State.memOk_of_mem (s.endMember_mem _ _ _ _) h
    · split
      · exact State.memOk_of_mem (s.haloLabel_mem _ _ _) h
      next l mid _ _ =>
        have hp := State.peerSteps_memOk h id c (c.haloSends g loc c.unit)
        split
        next s1 code va e => exact State.memOk_of_mem (s1.endMember_mem _ _ _ _) (Eng.err_memOk e hp)
        next s0 e =>
          have h0 := Eng.wait_memOk e hp
          have hr := State.haloRound_memOk h0 l c.unit
          split
          · exact h0
          · split
            next s1 _ e1 => exact Eng.ok_memOk e1 hr
            next s1 e1 => exact Eng.wait_memOk e1 hr
            next s1 code va e1 => exact State.memOk_of_mem (s1.endAll_mem _ _ _) (Eng.err_memOk e1 hr)
        next s0 _ e =>
          have h0 := Eng.ok_memOk e hp
          have hr := State.haloRound_memOk h0 l c.unit
          split
          · exact State.memOk_of_mem (s0.endMember_mem _ _ _ _) h0
          · split
            · exact h0
            · split
              next s1 e1 => exact Eng.wait_memOk e1 hr
              next s1 code va e1 => exact State.memOk_of_mem (s1.endAll_mem _ _ _) (Eng.err_memOk e1 hr)
              next s1 outs e1 =>
                have h1 := Eng.ok_memOk e1 hr
                split
                · exact h1
                · split
                  · exact State.memOk_of_mem (s1.endMember_mem _ _ _ _) h1
                  · exact State.memOk_of_mem (State.foldl_mem (fun x m => x.updCmd_mem _ _) _) h1

theorem State.groupRead_memOk {s : State} (h : s.memOk) (id : Nat) (c : Cmd) : (s.groupRead id c).memOk := by
  unfold State.groupRead
  extract_lets words
  split
  · exact h
  · refine Eng.bind_memOk (State.partRead_memOk h _ _ _ _) fun s1 bs h1 => ?_
    split
    · exact h1
    · refine Eng.bind_memOk (State.partRead_memOk h1 _ _ _ _) fun s2 rt h2 => Eng.bind_memOk (State.partRead_memOk h2 _ _ _ _) fun s3 gt h3 => ?_
      split <;> exact h3

theorem State.groupStep_memOk {s : State} (h : s.memOk) (id : Nat) (c : Cmd) :
    (s.groupStep id c).memOk := by
  grind [State.groupStep, State.groupRead_memOk, Eng.memOk, State.updCmd_mem, State.enrol_mem, State.memOk]

theorem State.memberRun_memOk {s : State} (h : s.memOk) (id : Nat) (c : Cmd) (last : Nat) {run : State → Nat → Cmd → State}
    (hr : ∀ x i d, x.memOk → (run x i d).memOk) : (s.memberRun id c last run).memOk := by
  grind [State.memberRun, State.writeOuts_memOk, State.updCmd_mem, State.memOk]

theorem State.runCmd_memOk {s : State} (h : s.memOk) (id : Nat) (c : Cmd) :
    (s.runCmd id c).memOk := by
  grind [State.runCmd, State.readAhead_memOk, State.pieces_memOk, State.memberRun_memOk, State.collRun_memOk, State.haloRun_memOk, State.memOk]

theorem State.beginCmd_memOk {s : State} (h : s.memOk) (id : Nat) (c : Cmd) :
    (s.beginCmd id c).memOk := by
  grind [State.beginCmd, State.readAhead_memOk, State.memOk]

theorem State.engineStep_memOk {s : State} (h : s.memOk) (cmd : Nat) (c : Cmd) :
    (s.engineStep cmd c).memOk := by
  grind [State.engineStep, State.runCmd_memOk, State.groupStep_memOk, State.beginCmd_memOk, State.updCmd_mem, State.memOk]

theorem execEngineCommandStart_memOk {s : State} (h : s.memOk) (cmd : Nat) :
    (execEngineCommandStart cmd s).memOk := by
  grind [execEngineCommandStart, State.engineStep_memOk, State.elim_memOk, State.memOk, Out.memOk]

theorem execEngineResend_memOk {s : State} (h : s.memOk) (cmd : Nat) :
    (execEngineResend cmd s).memOk := by
  grind [execEngineResend, State.engineStep_memOk, State.memOk, Out.memOk]

theorem execPublishBroadcast_memOk {s : State} (h : s.memOk) (cmd : Nat) :
    (execPublishBroadcast cmd s).memOk := by
  grind [execPublishBroadcast, State.updCmd_mem, State.writePa_memOk, State.hwProbe_mem, State.pinRegion_mem, State.useRegion_mem,
    State.readonly_mem, State.foldl_memOk, State.memOk, Out.memOk]

@[simp] theorem State.sweepAfter_mem (s : State) (reg o ctx : Nat) :
    (s.sweepAfter reg o ctx).mem = s.mem := by
  grind [State.sweepAfter, State.startSweep_mem]

theorem execPublishComplete_memOk {s : State} (h : s.memOk) (cmd : Nat) :
    (execPublishComplete cmd s).memOk := by
  grind [execPublishComplete, State.setRegion_mem, State.updCmd_mem, State.sweepAfter_mem, State.memOk, Out.memOk]

theorem State.compLost_memOk {s : State} (h : s.memOk) (id : Nat) (c : Cmd) :
    (s.compLost id c).memOk := by
  grind [State.compLost, State.service_memOk, State.updCmd_mem, State.memOk]

theorem State.compStore_memOk {s : State} (h : s.memOk) (id : Nat) (c : Cmd) : (s.compStore id c).memOk := by
  unfold State.compStore
  split
  · exact State.memOk_of_mem (s.updCmd_mem _ _) h
  · split
    · exact State.compLost_memOk h id c
    next a _ =>
      split
      · exact h
      · split
        · exact h
        · exact State.compLost_memOk h id c
        next s1 e =>
          have h1 : s1.memOk := Own.ok_memOk e (State.ownNow_memOk h _ _)
          extract_lets pa va
          have hp : ∀ key f ans, (if isPeer pa then (s1.dropPeerCopy pa).peerSend id c key va f ans else .ok s1 ()).memOk := fun key f ans => by
            split
            · exact State.peerSend_memOk (State.memOk_of_mem (s1.dropPeerCopy_mem pa) h1) _ _ _ _ _ _
            · exact h1
          split
          next s2 e2 => exact Eng.wait_memOk e2 (hp _ _ _)
          next s2 _ _ e2 => exact State.compLost_memOk (Eng.err_memOk e2 (hp _ _ _)) id c
          next s2 _ e2 =>
            split
            · exact State.memOk_of_mem (s.holdWrite_mem _ _) h
            · exact State.memOk_of_mem (State.updCmd_mem _ _ _) (State.agentPutAs_memOk (State.memOk_of_mem (s2.ncOut_mem a) (Eng.ok_memOk e2
                (hp _ _ _))) _ _ _ _ _ _)

@[simp] theorem State.compCredit_mem (s : State) (id : Nat) (c : Cmd) :
    (s.compCredit id c).mem = s.mem := by
  grind [State.compCredit, State.updCmd_mem]

theorem State.handoff_memOk {s t : State} {id : Nat} {c : Cmd} (e : s.handoff id c = some t) (h : s.memOk) : t.memOk := by
  unfold State.handoff at e
  split at e
  · grind [State.mxRefuse_memOk, State.mxAccept_mem, State.memOk]
  · cases e; exact h

@[simp] theorem State.orderOn_mem (s : State) (id : Nat) :
    (s.orderOn id).mem = s.mem := by
  grind [State.orderOn]

theorem State.tokenEnd_memOk {s0 : State} (h : s0.memOk) (id : Nat) (c : Cmd) :
    (s0.tokenEnd id c).memOk := by
  grind [State.tokenEnd, State.orderOn_mem, State.landToken_memOk, State.depthReg_mem, State.bumpReg_mem, State.memOk]

theorem State.handed_memOk {s : State} (h : s.memOk) (id : Nat) (c : Cmd) :
    (s.handed id c).1.memOk := by
  grind [State.handed, → State.handoff_memOk, State.updCmd_mem, State.memOk]

theorem execEngineCommandComplete_memOk {s : State} (h : s.memOk) (cmd : Nat) :
    (execEngineCommandComplete cmd s).memOk := by
  grind [execEngineCommandComplete, State.handed_memOk, State.compStore_memOk, State.compCredit_mem, State.tokenEnd_memOk, State.see_mem,
    State.vaWrite_memOk, Put.memOk, State.foldl_memOk, State.memOk, Out.memOk]

end Sys2Proof.Machine
end

section
/-! Memory and its canonical form: the fabric. -/

set_option Elab.async false
namespace Sys2Proof.Machine

@[simp] theorem State.setDown_mem (s : State) (f : Nat) (b : Bool) :
    (s.setDown f b).mem = s.mem := by
  grind [State.setDown, State.setReg_mem]

theorem execPeerDown_memOk {s : State} (h : s.memOk) (peer : Nat) :
    (execPeerDown peer s).memOk := by
  grind [execPeerDown, State.setDown_mem, State.getD_memOk, State.memOk, Out.memOk]

theorem execHeartbeat_memOk {s : State} (h : s.memOk) (peer : Nat) :
    (execHeartbeat peer s).memOk := by
  grind [execHeartbeat, State.setDown_mem, State.memOk, Out.memOk]

theorem execPortUp_memOk {s : State} (h : s.memOk) (port : Nat) :
    (execPortUp port s).memOk := by
  grind [execPortUp, State.memOk, Out.memOk]

theorem execPortDown_memOk {s : State} (h : s.memOk) (port : Nat) :
    (execPortDown port s).memOk := by
  grind [execPortDown, State.memOk, Out.memOk]

theorem execPtpRefresh_memOk {s : State} (h : s.memOk) (offset : Word) :
    (execPtpRefresh offset s).memOk := by
  grind [execPtpRefresh, State.setReg_mem, State.memOk, Out.memOk]

@[simp] theorem State.grant_mem (s : State) (line : Nat) :
    (s.grant line).mem = s.mem := by
  grind [State.grant]

@[simp] theorem State.holdOps_mem (s : State)  :
    s.holdOps.mem = s.mem := by
  grind [State.holdOps]

@[simp] theorem State.leaseTidy_mem (s : State)  :
    s.leaseTidy.mem = s.mem := by
  grind [State.leaseTidy]

theorem execLeaseHoldExpiry_memOk {s : State} (h : s.memOk) (line : Nat) :
    (execLeaseHoldExpiry line s).memOk := by
  grind [execLeaseHoldExpiry, State.leaseTidy_mem, State.drainHeld_memOk, State.setReg_mem, State.memOk, Out.memOk]

theorem State.incoming_memOk {s t : State} {off n : Nat} {need : Need} (e : s.incoming off n need = .error t) (h : s.memOk) :
    t.memOk := by
  grind [State.incoming, State.residency_memOk, State.memOk]

theorem State.agentBytes_memOk {s : State} (h : s.memOk) (w : Writer) (key pa : Nat) (bs : List Byte) (n : Nat) :
    (s.agentBytes w key pa bs n).memOk := by
  induction n generalizing s pa bs with
  | zero => exact h
  | succ n ih => grind [State.agentBytes, State.agentPut_memOk]

theorem State.uncorrEntry_memOk {s : State} (h : s.memOk) (ctx pa n : Nat) :
    (s.uncorrEntry ctx pa n).memOk := by
  grind [State.uncorrEntry, State.service_memOk, State.memOk]

theorem execPeerRead_memOk {s : State} (h : s.memOk) (_peer off size : Nat) :
    (execPeerRead _peer off size s).memOk := by
  grind [execPeerRead, → State.incoming_memOk, State.agentRead_memOk, State.ncOut_mem, State.uncorrEntry_memOk, State.grant_mem, State.ownNow_memOk,
    Own.memOk, State.memOk, Out.memOk]

theorem execPeerWrite_memOk {s : State} (h : s.memOk) (_peer off : Nat) (bytes : List Byte) :
    (execPeerWrite _peer off bytes s).memOk := by
  grind [execPeerWrite, → State.incoming_memOk, State.ownNow_memOk, Own.memOk, State.agentBytes_memOk, State.ncOut_mem, State.memOk, Out.memOk]

end Sys2Proof.Machine
end

section
/-! Memory and its canonical form: special registers and the fault-report block. -/

set_option Elab.async false
namespace Sys2Proof.Machine

theorem execSrd_memOk {s : State} (h : s.memOk) (c : Ctl) (sr : SReg) (vd : Reg) :
    (execSrd c sr vd s).memOk := by
  refine State.runGang_memOk h _ _ _ _ fun s l recv t hs e => ?_
  grind [State.fixed_mem, State.memOk]

theorem execTrap_memOk {s : State} (h : s.memOk) (c : Ctl) (code : BitVec 18) :
    (execTrap c code s).memOk := by
  refine State.runGang_memOk h _ _ _ _ fun s l recv t hs e => ?_
  grind [State.memOk]

theorem execBkpt_memOk {s : State} (h : s.memOk) (c : Ctl) :
    (execBkpt c s).memOk := by
  refine State.runGang_memOk h _ _ _ _ fun s l recv t hs e => ?_
  grind [State.memOk]

theorem execRft_memOk {s : State} (h : s.memOk) (c : Ctl) (skip : Bool) : (execRft c skip s).memOk := by
  have h1 := State.runGang_memOk h (issue64 c) [] [] false (body := fun s l _ =>
      let r := (s.thr l).frec
      if !bit r.w7 0 || (skip && r.unskippable) then .error { cause := .illegal }
      else .ok ((s.classC (issue64 c) l).updThread l fun t => t.returnFromFault r.len skip)) fun x l recv t hx e => by
    grind [State.updThread_mem, State.classC_mem, State.memOk]
  refine State.foldl_memOk h1 (fun x k hx => ?_) _
  split
  · exact State.memOk_of_mem (x.updThread_mem _ _) hx
  · exact hx

@[simp] theorem State.frIgnore_mem (s : State) (die : Nat) :
    (s.frIgnore die).mem = s.mem := by
  grind [State.frIgnore, State.bumpReg_mem]

@[simp] theorem State.resume_mem (s : State) (thr : Nat) (f : Thread → Thread) :
    (s.resume thr f).mem = s.mem := by
  grind [State.resume, State.updThread_mem]

theorem execFrCmdRetry_memOk {s : State} (h : s.memOk) (die thr ctx : Nat) :
    (execFrCmdRetry die thr ctx s).memOk := by
  grind [execFrCmdRetry, State.resume_mem, State.frIgnore_mem, State.memOk, Out.memOk]

theorem execFrCmdSkip_memOk {s : State} (h : s.memOk) (die thr ctx : Nat) :
    (execFrCmdSkip die thr ctx s).memOk := by
  grind [execFrCmdSkip, State.frIgnore_mem, State.resume_mem, State.memOk, Out.memOk]

theorem execFrCmdKill_memOk {s : State} (h : s.memOk) (die thr ctx : Nat) :
    (execFrCmdKill die thr ctx s).memOk := by
  grind [execFrCmdKill, State.updThread_mem, State.frIgnore_mem, State.memOk, Out.memOk]

theorem execFrPend_memOk {s : State} (h : s.memOk) (die : Nat) :
    (execFrPend die s).memOk := by
  grind [execFrPend, → State.frWrite_memOk, State.frCount_mem, State.memOk, Out.memOk]

@[simp] theorem State.dbgStatus_mem (s : State) (core : Nat) (f : Word → Word) :
    (s.dbgStatus core f).mem = s.mem := by
  grind [State.dbgStatus, State.setReg_mem]

theorem execDbgCmdStop_memOk {s : State} (h : s.memOk) (core part : Nat) :
    (execDbgCmdStop core part s).memOk := by
  grind [execDbgCmdStop, State.bumpReg_mem, State.hwWriteAll_memOk, State.updCore_mem, State.dbgStatus_mem, State.foldl_memOk, State.memOk, Out.memOk]

@[simp] theorem State.unstop_mem (s : State) (core part : Nat) :
    (s.unstop core part).mem = s.mem := by
  grind [State.unstop, State.dbgStatus_mem, State.updCore_mem]

theorem execDbgCmdResume_memOk {s : State} (h : s.memOk) (core part : Nat) :
    (execDbgCmdResume core part s).memOk := by
  grind [execDbgCmdResume, State.bumpReg_mem, State.unstop_mem, State.memOk, Out.memOk]

theorem execSampleTag_memOk {s : State} (h : s.memOk) (core part : Nat) :
    (execSampleTag core part s).memOk := by
  grind [execSampleTag, State.updCore_mem, State.memOk, Out.memOk]

@[simp] theorem State.tagIssue_mem (s before : State) : (s.tagIssue before).mem = s.mem := by
  grind [State.tagIssue, State.updCore_mem]

theorem execSampleRecord_memOk {s : State} (h : s.memOk) (core part : Nat) :
    (execSampleRecord core part s).memOk := by
  grind [execSampleRecord, State.updCore_mem, State.ringWaits_mem, State.bumpReg_mem, State.hwRelease_memOk, State.memOk, Out.memOk]

end Sys2Proof.Machine
end

section
/-! Memory and its canonical form: instruction fetch. -/

set_option Elab.async false
namespace Sys2Proof.Machine

theorem State.lineOwner_memOk {s : State} (h : s.memOk) (line : Nat) :
    (s.lineOwner line).memOk := by
  grind [State.lineOwner, State.outsideStore_memOk, State.memOk]

theorem State.fetched_memOk {s now : State} (h : now.memOk) (k : Nat) (pc : Pc) : (s.fetched now k pc).memOk := by
  grind [State.fetched, State.memOk, State.used_mem, State.ncOut_mem, State.lineOwner_memOk, State.classTouch_mem]

theorem State.fetchInst_memOk {s t : State} {k : Nat} {pc : Pc} {w : Word} (e : s.fetchInst k pc = .ok (w, t)) (h : s.memOk) :
    t.memOk := by
  grind [State.fetchInst, State.fetched_memOk, State.foldl_memOk, State.memOk]

theorem State.pendingOf_memOk {s t : State} {k : Nat} {r : Word × FaultInfo} (e : s.pendingOf k = some (t, r)) (h : s.memOk) :
    t.memOk := by
  grind [State.pendingOf, State.updThread_mem, → State.fetchInst_memOk, State.memOk]

theorem State.raiseDue_memOk {s : State} (h : s.memOk) (g : List Nat) :
    (s.raiseDue g).memOk := by
  grind [State.raiseDue, → State.pendingOf_memOk, State.takeFault_memOk, State.foldl_memOk, State.memOk]

theorem State.raisePending_memOk {s t : State} {k : Nat} (e : s.raisePending k = some t) (h : s.memOk) :
    t.memOk := by
  grind [State.raisePending, → State.pendingOf_memOk, State.raiseDue_memOk, State.memOk]

end Sys2Proof.Machine
end

section
/-! Memory and its canonical form: the traversal unit. -/

set_option Elab.async false
namespace Sys2Proof.Machine

theorem TM.bind_memOk {α β : Type} {x : TM α} (h : x.1.memOk) {f : State → α → TM β} (hf : ∀ s a, s.memOk → (f s a).1.memOk) :
    (x.bind f).1.memOk := by
  unfold TM.bind
  split
  · exact hf _ _ h
  · exact h

theorem TM.foldl_memOk {α β : Type} {x : TM α} (h : x.1.memOk) {f : TM α → β → TM α} (hf : ∀ y b, y.1.memOk → (f y b).1.memOk) (l : List β) :
    (l.foldl f x).1.memOk := by
  induction l generalizing x with
  | nil => exact h
  | cons b l ih => exact ih (hf x b h)

@[simp] theorem State.unitUpd_mem (s : State) (q : Nat) (f : UnitSt → UnitSt) :
    (s.unitUpd q f).mem = s.mem := by
  grind [State.unitUpd]

theorem State.unitAccess_memOk {α : Type} {s : State} (h : s.memOk) (q : Nat) (a : Access) (write : Bool) {go : State → Op → TM α}
    (hg : ∀ x o, x.memOk → (go x o).1.memOk) : (s.unitAccess q a write go).1.memOk := by
  grind [State.unitAccess, State.askOwner_memOk, PeerAns.memOk, State.unitUpd_mem, State.memOk]

theorem State.unitRead_memOk {s : State} (h : s.memOk) (q : Nat) (va : Word) (n : Nat) :
    (s.unitRead q va n).1.memOk := by
  grind [State.unitRead, State.unitAccess_memOk, State.used_mem, State.unitUpd_mem, State.readNow_mem, State.memOk]

theorem State.unitWords_memOk {s : State} (h : s.memOk) (k : Nat) (va : Word) (n : Nat) : (s.unitWords k va n).1.memOk := by
  induction n generalizing s va with
  | zero => exact h
  | succ n ih => grind [State.unitWords, TM.bind_memOk, State.unitRead_memOk]

@[simp] theorem State.countUp_mem (s : State) (k : Nat) (f : Render → Render) :
    (s.countUp k f).mem = s.mem := by
  grind [State.countUp, State.unitUpd_mem]

@[simp] theorem State.unitPoint_mem (s : State) (q : Nat) :
    (s.unitPoint q).mem = s.mem := by
  grind [State.unitPoint, State.unitUpd_mem, State.updBlock_mem]

theorem State.readHier_memOk {s : State} (h : s.memOk) (k : Nat) (va : Word) :
    (s.readHier k va).1.memOk := by
  grind [State.readHier, TM.bind_memOk, State.unitWords_memOk, State.memOk]

theorem State.readNode_memOk {s : State} (h : s.memOk) (k : Nat) (va : Word) :
    (s.readNode k va).1.memOk := by
  grind [State.readNode, TM.bind_memOk, State.unitWords_memOk, State.countUp_mem, State.memOk]

theorem State.readRef_memOk {s : State} (h : s.memOk) (k : Nat) (hr : Hier) (i : Nat) :
    (s.readRef k hr i).1.memOk := by
  grind [State.readRef, TM.bind_memOk, State.unitRead_memOk, State.memOk]

theorem State.walkTree_memOk {α β : Type} (k : Nat) (hr : Hier) (enter : β → List Ext → Option β) (stop : α → Bool)
    {prim : β → State → Nat → α → TM α}
    (hp : ∀ r x i a, x.memOk → (prim r x i a).1.memOk) (n : Nat) (r : β) {s : State} (h : s.memOk) (va : Word) (acc : α) :
    (State.walkTree k hr enter stop prim n r s va acc).1.memOk := by
  induction n generalizing s r va acc with
  | zero => exact h
  | succ n ih =>
    refine TM.bind_memOk (State.readNode_memOk h k va) fun s1 cs h1 => TM.foldl_memOk h1 (fun y c hy => TM.bind_memOk hy fun x a hx => ?_) _
    split
    · exact hx
    · split
      · exact hx
      · split
        · exact ih _ hx _ _
        · refine TM.foldl_memOk hx (fun q i hq => TM.bind_memOk hq fun z b hz => ?_) _
          split
          · exact hz
          · exact TM.bind_memOk (State.readRef_memOk hz _ _ _) fun w id hw => hp _ _ _ _ hw

theorem State.readPrim_memOk {s : State} (h : s.memOk) (k : Nat) (hr : Hier) (id : Nat) :
    (s.readPrim k hr id).1.memOk := by
  grind [State.readPrim, State.unitWords_memOk, State.memOk]

theorem State.traverse_memOk {s : State} (h : s.memOk) (c : Ctl) (n vd va m : Nat) (extra : List Nat) (pre : Nat → Option FaultInfo)
    (query : Thread → UnitQ) : (s.traverse c n vd va m extra pre query).memOk := by
  refine State.runGang_memOk h _ _ _ _ fun s l recv t hs e => ?_
  grind [State.startOp_mem, State.memOk]

theorem State.tracePrim_memOk {s : State} (h : s.memOk) (k : Nat) (hr : Hier) (r : Ray) (id : Nat) (best : Option Hit) :
    (State.tracePrim k hr r s id best).1.memOk := by
  grind [State.tracePrim, TM.bind_memOk, State.readPrim_memOk, State.countUp_mem, State.memOk]

theorem State.doTrace_memOk {s : State} (h : s.memOk) (k : Nat) (anyHit : Bool) (a : Nat → Word) :
    (s.doTrace k anyHit a).1.memOk := by
  grind [State.doTrace, State.countUp_mem, TM.bind_memOk, State.readHier_memOk, State.walkTree_memOk, State.tracePrim_memOk, State.memOk]

theorem State.doHitattr_memOk {s : State} (h : s.memOk) (k : Nat) (a : Nat → Word) (desc : Word) :
    (s.doHitattr k a desc).1.memOk := by
  grind [State.doHitattr, TM.bind_memOk, State.readHier_memOk, State.readPrim_memOk, State.memOk]

theorem State.doTracek_memOk {s : State} (h : s.memOk) (thr k : Nat) (a : Nat → Word) :
    (s.doTracek thr k a).1.memOk := by
  grind [State.doTracek, State.countUp_mem, TM.bind_memOk, State.readHier_memOk, State.readPrim_memOk, State.walkTree_memOk, State.memOk]

theorem State.readGrid_memOk {s : State} (h : s.memOk) (k : Nat) (va : Word) :
    (s.readGrid k va).1.memOk := by
  grind [State.readGrid, TM.bind_memOk, State.unitWords_memOk, State.memOk]

theorem State.doMarch_memOk {s : State} (h : s.memOk) (k : Nat) (a : Nat → Word) :
    (s.doMarch k a).1.memOk := by
  grind [State.doMarch, State.countUp_mem, TM.bind_memOk, State.readGrid_memOk, State.memOk]

theorem State.unitQuery_memOk {s : State} (h : s.memOk) (q : Nat) (u : UnitOp) :
    (s.unitQuery q u).1.memOk := by
  grind [State.unitQuery, State.doTrace_memOk, State.doTracek_memOk, State.doMarch_memOk, State.doHitattr_memOk, State.memOk]

theorem State.unitRun_memOk {s : State} (h : s.memOk) (seq : Nat) (o : Op) (u : UnitOp) :
    (s.unitRun seq o u).memOk := by
  grind [State.unitRun, State.unitQuery_memOk, State.unitUpd_mem, State.finishOp_mem, State.sampleUpd_mem, State.unitPoint_mem, State.memOk]

end Sys2Proof.Machine
end

section
/-! Memory and its canonical form: GRAFT. -/

set_option Elab.async false
namespace Sys2Proof.Machine

theorem State.unitWrite_memOk {s : State} (h : s.memOk) (q : Nat) (va : Word) (n : Nat) (v : Word) (fill : Bool) :
    (s.unitWrite q va n v fill).1.memOk := by
  grind [State.unitWrite, State.unitAccess_memOk, State.dropPeerCopy_mem, State.used_mem, State.storeFe_memOk, State.storeNow_memOk, State.memOk]

theorem State.readGraft_memOk {s : State} (h : s.memOk) (k : Nat) (g : GraftOp) :
    (s.readGraft k g).1.memOk := by
  grind [State.readGraft, TM.bind_memOk, State.unitWords_memOk, State.memOk]

theorem State.readGQueue_memOk {s : State} (h : s.memOk) (k : Nat) (va : Word) :
    (s.readGQueue k va).1.memOk := by
  grind [State.readGQueue, TM.bind_memOk, State.unitWords_memOk, State.memOk]

@[simp] theorem GRun.fail_mem (r : GRun) (e : Nat × Word) :
    (r.fail e).s.mem = r.s.mem := by
  grind [GRun.fail]

theorem State.slotRest_memOk {s : State} (h : s.memOk) (q : Nat) (slot : Word) (n : Nat) :
    (s.slotRest q slot n).1.memOk := by
  grind [State.slotRest, TM.bind_memOk, TM.foldl_memOk, State.unitWrite_memOk, State.unitUpd_mem, State.foldl_memOk, State.memOk]

theorem GRun.write_memOk {r : GRun} (h : r.s.memOk) (k : Nat) (q : GQueue) (idx : Nat) (word : Word) :
    (r.write k q idx word).s.memOk := by
  grind [GRun.write, State.slotRest_memOk, GRun.fail_mem, State.unitWrite_memOk, State.unitUpd_mem, State.countUp_mem, State.memOk]

@[simp] theorem State.unitSees_mem (s : State) (q : Nat) (a : Access) :
    (s.unitSees q a).mem = s.mem := by
  grind [State.unitSees, State.see_mem]

theorem State.unitAcquire_memOk {s : State} (h : s.memOk) (k : Nat) (va : Word) :
    (s.unitAcquire k va).1.memOk := by
  grind [State.unitAcquire, State.unitRead_memOk, State.unitSees_mem, State.memOk]

theorem State.unitClaim_memOk {s : State} (h : s.memOk) (k : Nat) (va retire c : Word) :
    (s.unitClaim k va retire c).1.memOk := by
  grind [State.unitClaim, State.unitAccess_memOk, State.used_mem, State.unitUpd_mem, State.unitSees_mem, State.storeNow_memOk, State.memOk]

theorem GRun.claimOne_memOk {r : GRun} (h : r.s.memOk) (k : Nat) (q : GQueue) :
    (r.claimOne k q).s.memOk := by
  grind [GRun.claimOne, TM.bind_memOk, State.unitAcquire_memOk, GRun.fail_mem, State.unitClaim_memOk, State.unitUpd_mem, State.memOk]

theorem State.graftTops_memOk {s : State} (h : s.memOk) (k : Nat) (d : GSides) :
    (s.graftTops k d).1.memOk := by
  grind [State.graftTops, TM.bind_memOk, State.readNode_memOk, State.memOk]

theorem GRun.pairStep_memOk {r : GRun} (h : r.s.memOk) (k : Nat) (d : GSides) (e : GEntry) : (r.pairStep k d e).s.memOk := by
  unfold GRun.pairStep
  extract_lets cx cy next
  have hnext : ∀ x : GRun, x.s.memOk → (next x).s.memOk := fun x hx => by
    unfold next; split
    · exact hx
    · split <;> exact hx
  have hwrite : ∀ (x : GRun) idx w, x.s.memOk → (if (x.write k d.q idx w).stop.isSome then x.write k d.q idx w else next
      (x.write k d.q idx w)).s.memOk :=
    fun x idx w hx => by
      split
      · exact GRun.write_memOk hx _ _ _ _
      · exact hnext _ (GRun.write_memOk hx _ _ _ _)
  have h1 : ((r.s.readRef k d.ha (cx.first + r.x.i)).bind fun s1 a => (s1.readRef k d.hb (cy.first + r.x.j)).bind fun s2 b => (s2, .ok
      (a, b))).1.memOk :=
    TM.bind_memOk (State.readRef_memOk h _ _ _) fun s1 a h1 => TM.bind_memOk (State.readRef_memOk h1 _ _ _) fun s2 b h2 => h2
  split
  next s1 e1 he => rw [he] at h1; exact h1
  next s1 a b he =>
    rw [he] at h1
    extract_lets write
    split
    next idx _ => exact hwrite _ _ _ h1
    next =>
      split
      · exact hnext _ h1
      · have h2 : (((s1.countUp k fun c => { c with tests := c.tests + 1 }).readPrim k d.ha a).bind fun s2 wa =>
            (s2.readPrim k d.hb b).bind fun s3 wb => (s3, .ok (wa, wb))).1.memOk :=
          TM.bind_memOk (State.readPrim_memOk (State.memOk_of_mem (s1.countUp_mem k _) h1) _ _ _) fun s2 wa h2 =>
            TM.bind_memOk (State.readPrim_memOk h2 _ _ _) fun s3 wb h3 => h3
        split
        next s2 e2 he => rw [he] at h2; exact h2
        next s2 wa wb he =>
          rw [he] at h2
          split
          next ba bb _ _ =>
            extract_lets p
            split
            · exact hnext _ h2
            · have h3 := State.graftTops_memOk h2 k d
              split
              next s3 e3 he => rw [he] at h3; exact h3
              next s3 ta tb he =>
                rw [he] at h3
                split
                · have hc := GRun.claimOne_memOk (r := { r with s := s3 }) h3 k d.q
                  extract_lets r1
                  split
                  · exact hc
                  · split
                    next idx _ => exact hwrite _ _ _ hc
                    next => exact hc
                · exact hnext _ h3
          next => exact h2

theorem GRun.expand_memOk {r : GRun} (h : r.s.memOk) (k : Nat) (e : GEntry) (rest : List GEntry) (left : Bool) :
    (r.expand k e rest left).s.memOk := by
  grind [GRun.expand, State.readNode_memOk, GRun.fail_mem, State.memOk]

theorem GRun.turn_memOk {r : GRun} (h : r.s.memOk) (k : Nat) (d : GSides) :
    (r.turn k d).s.memOk := by
  grind [GRun.turn, GRun.pairStep_memOk, GRun.expand_memOk, State.memOk]

theorem GRun.loop_memOk (k : Nat) (d : GSides) (n0 n : Nat) {r : GRun} (h : r.s.memOk) : (GRun.loop k d n0 n r).s.memOk := by
  induction n generalizing r with
  | zero => exact h
  | succ n ih => grind [GRun.loop, GRun.turn_memOk, State.unitPoint_mem, State.memOk]

theorem State.graftOpen_memOk {s : State} (h : s.memOk) (k : Nat) (g : GraftOp) :
    (s.graftOpen k g).1.memOk := by
  grind [State.graftOpen, TM.bind_memOk, State.readHier_memOk, State.readGQueue_memOk, State.readGraft_memOk, State.memOk]

@[simp] theorem State.graftEnd_mem (s : State) (seq : Nat) (o : Op) (g : GraftOp) (r : Except (Nat × Word) Word) :
    (s.graftEnd seq o g r).mem = s.mem := by
  grind [State.graftEnd, State.finishOp_mem, State.sampleUpd_mem]

@[simp] theorem State.setGraft_mem (s : State) (seq : Nat) (f : GraftOp → GraftOp) :
    (s.setGraft seq f).mem = s.mem := by
  grind [State.setGraft]

@[simp] theorem State.retryOver_mem (s : State) (seq : Nat) (g : GraftOp) :
    (s.retryOver seq g).mem = s.mem := by
  grind [State.retryOver]

@[simp] theorem State.graftStop_mem (s : State) (seq : Nat) (g : GraftOp) (state : Nat) (x : GState) (e : GraftEnd) :
    (s.graftStop seq g state x e).mem = s.mem := by
  grind [State.graftStop, State.setGraft_mem, State.unitPoint_mem, State.retryOver_mem]

theorem State.graftOut_memOk {s : State} (h : s.memOk) (seq : Nat) (o : Op) (g : GraftOp) (ws : List (Word × Word)) (e : GraftEnd) :
    (s.graftOut seq o g ws e).memOk := by
  grind [State.graftOut, TM.bind_memOk, TM.foldl_memOk, State.unitWrite_memOk, State.setGraft_mem, State.graftEnd_mem, State.foldl_memOk, State.memOk]

theorem State.graftGo_memOk {s : State} (h : s.memOk) (seq : Nat) (g : GraftOp) (d : GSides) (x : GState) :
    (s.graftGo seq g d x).memOk := by
  grind [State.graftGo, GRun.loop_memOk, State.unitUpd_mem, State.setGraft_mem, State.retryOver_mem, State.graftStop_mem, State.memOk]

theorem State.graftRun_memOk {s : State} (h : s.memOk) (seq : Nat) (o : Op) (g : GraftOp) :
    (s.graftRun seq o g).memOk := by
  grind [State.graftRun, State.graftOut_memOk, State.graftGo_memOk, State.graftOpen_memOk, State.unitUpd_mem, State.graftEnd_mem,
    State.unitPoint_mem, State.setGraft_mem, State.memOk]

@[simp] theorem State.graftSuspend_mem (s : State) (seq : Nat) (g : GraftOp) :
    (s.graftSuspend seq g).mem = s.mem := by
  grind [State.graftSuspend, State.graftStop_mem, State.setGraft_mem]

theorem execGraft_memOk {s : State} (h : s.memOk) (c : Ctl) (vd va : Reg) : (execGraft c vd va s).memOk := by
  refine State.runGang_memOk h _ _ _ _ fun x l recv t hx e => ?_
  cases e
  exact State.memOk_of_mem (State.startOp_mem _ _ _ _ _ _ _ _ _) (State.foldl_memOk hx (fun y k hy => State.memOk_of_mem (y.closeIdem_mem k) hy) _)

@[simp] theorem State.noticeTo_mem (s : State) (w thr : Nat) :
    (s.noticeTo w thr).mem = s.mem := by
  grind [State.noticeTo]

theorem State.formRecord_memOk {s t : State} {thr : Nat} (e : s.formRecord thr = some t) (h : s.memOk) : t.memOk := by
  unfold State.formRecord at e
  split at e
  · grind [State.release_mem, State.updThread_mem, → State.holdWaiter_memOk, State.noticeTo_mem, State.faultOp_memOk, State.memOk]
  · cases e

theorem State.graftRecord_memOk {s t : State} {thr : Nat} (e : s.graftRecord thr = some t) (h : s.memOk) : t.memOk := by
  unfold State.graftRecord at e
  split at e
  · grind [→ State.holdWaiter_memOk, State.noticeTo_mem, State.graftStop_mem, State.memOk]
  · cases e

theorem State.lateArrival_memOk {s : State} (h : s.memOk) (word thr : Nat) :
    (s.lateArrival word thr).memOk := by
  grind [State.lateArrival, State.release_mem, State.dropForm_memOk, State.dropGraft_memOk, State.memOk]

theorem execWaiterRecord_memOk {s : State} (h : s.memOk) (thr : Nat) :
    (execWaiterRecord thr s).memOk := by
  grind [execWaiterRecord, → State.formRecord_memOk, → State.graftRecord_memOk, State.getD_memOk, State.memOk, Out.memOk]

theorem State.formAgain_memOk {s t : State} {r : Nat × Nat} {thr : Nat} (e : s.formAgain r thr = some t) (h : s.memOk) : t.memOk := by
  unfold State.formAgain at e
  split at e
  · grind [→ State.formAway_memOk, State.waitingStep_memOk, State.faultOp_memOk, State.parkAt_mem, → State.formRecord_memOk, State.getD_memOk,
    State.memOk]
  · cases e

theorem State.graftAgain_memOk {s t : State} {r : Nat × Nat} {thr : Nat} (e : s.graftAgain r thr = some t) (h : s.memOk) :
    t.memOk := by
  grind [State.graftAgain, State.graftStop_mem, → State.graftRecord_memOk, State.setGraft_mem, State.getD_memOk, State.memOk]

theorem execFormRetry_memOk {s : State} (h : s.memOk) (thr : Nat) :
    (execFormRetry thr s).memOk := by
  grind [execFormRetry, → State.formAgain_memOk, → State.graftAgain_memOk, → firstSome_spec, State.getD_memOk, State.memOk, Out.memOk]

end Sys2Proof.Machine
end

section
/-! Memory and its canonical form: what pre-emption saves. -/

set_option Elab.async false
namespace Sys2Proof.Machine

@[simp] theorem State.peTo_mem (s : State) (st : PeStage) (ctx : Nat) (result : Option Nat) :
    (s.peTo st ctx result).mem = s.mem := by
  grind [State.peTo, State.setReg_mem]

theorem State.imgWrite_memOk {s : State} (h : s.memOk) (ctx off : Nat) (v : Word) :
    (s.imgWrite ctx off v).memOk := by
  grind [State.imgWrite, State.vaWrite_memOk, Put.memOk, State.memOk]

theorem State.imgWriteAll_memOk {s : State} (h : s.memOk) (ctx : Nat) (l : List (Nat × Word)) : (s.imgWriteAll ctx l).memOk := by
  induction l generalizing s with
  | nil => exact h
  | cons e l ih => grind [State.imgWriteAll, State.imgWrite_memOk, Put.memOk]

theorem State.setHeader_memOk {s : State} (h : s.memOk) (ctx st : Nat) :
    (s.setHeader ctx st).memOk := by
  grind [State.setHeader, → Put.get?_memOk, Put.memOk, State.imgWrite_memOk, State.getD_memOk, State.memOk]

@[simp] theorem State.pinArea_mem (s : State) (ctx : Nat) :
    (s.pinArea ctx).1.mem = s.mem := by
  grind [State.pinArea, State.setCtx_mem]

@[simp] theorem State.returnQueues_mem (s : State) (ctx : Nat) :
    (s.returnQueues ctx).mem = s.mem := by
  grind [State.returnQueues]

theorem State.dropThread_memOk {s : State} (h : s.memOk) (k : Nat) :
    (s.dropThread k).memOk := by
  grind [State.dropThread, State.dropWaiter_memOk, State.memOk]

@[simp] theorem State.unstopEmpty_mem (s : State)  :
    s.unstopEmpty.mem = s.mem := by
  grind [State.unstopEmpty, State.unstop_mem, State.foldl_mem]

theorem State.dropBlock_memOk {s : State} (h : s.memOk) (bid : Nat) :
    (s.dropBlock bid).memOk := by
  grind [State.dropBlock, State.dropThread_memOk, State.updCore_mem, State.foldl_memOk, State.memOk]

theorem State.discardGrove_memOk {s : State} (h : s.memOk) (gid : Nat) (g : Grove) :
    (s.discardGrove gid g).memOk := by
  grind [State.discardGrove, State.updLaunch_mem, State.dropBlock_memOk, State.foldl_memOk, State.memOk]

@[simp] theorem State.orphan_mem (s : State) (ctx : Nat) :
    (s.orphan ctx).mem = s.mem := by
  grind [State.orphan]

@[simp] theorem State.takeMx_mem (s : State) (gone : List Nat) :
    (s.takeMx gone).mem = s.mem := by
  grind [State.takeMx]

theorem State.loseLaunch_memOk {s : State} (h : s.memOk) (ctx lid : Nat) (l : Launch) (past : List Nat) :
    (s.loseLaunch ctx lid l past).memOk := by
  grind [State.loseLaunch, State.setQueue_mem, State.completion_memOk, Put.memOk, Put.stateFrom_memOk, State.updLaunch_mem, State.memOk]

theorem State.forcedReset_memOk {s : State} (h : s.memOk) (ctx : Nat) :
    (s.forcedReset ctx).memOk := by
  grind [State.forcedReset, State.takeMx_mem, State.orphan_mem, State.dropBlock_memOk, State.setCtx_mem, State.loseLaunch_memOk, State.peTo_mem,
    State.setHeader_memOk, State.unstopEmpty_mem, State.foldl_memOk, State.memOk]

@[simp] theorem State.markStops_mem (s : State) (ctx : Nat) :
    (s.markStops ctx).mem = s.mem := by
  grind [State.markStops]

@[simp] theorem State.pinBlocks_mem (s : State) (ctx : Nat) :
    (s.pinBlocks ctx).mem = s.mem := by
  grind [State.pinBlocks, State.pinAll_mem, State.foldl_mem]

theorem State.suspendGrafts_memOk {s : State} (h : s.memOk) (ctx : Nat) :
    (s.suspendGrafts ctx).memOk := by
  grind [State.suspendGrafts, State.graftSuspend_mem, State.dropGraft_memOk, State.foldl_memOk, State.memOk]

theorem State.raiseAllPending_memOk {s : State} (h : s.memOk) (ctx : Nat) : (s.raiseAllPending ctx).memOk := by
  refine State.foldl_memOk h (fun x k hx => ?_) _
  split <;> grind [→ State.raisePending_memOk, State.getD_memOk]

@[simp] theorem State.renameThread_mem (s : State) (k id : Nat) :
    (s.renameThread k id).mem = s.mem := by
  grind [State.renameThread]

@[simp] theorem State.keepLines_mem (s : State) (ctx off : Nat) (b : Block) :
    (s.keepLines ctx off b).mem = s.mem := by
  grind [State.keepLines, State.homeRoom_mem, State.setL2_mem, State.classTouch_mem, State.classServe_mem, State.foldl_mem]

theorem State.keepBlock_memOk {s : State} (h : s.memOk) (ctx off bid : Nat) (b : Block) :
    (s.keepBlock ctx off bid b).memOk := by
  grind [State.keepBlock, State.renameThread_mem, State.setCtx_mem, State.dropBlock_memOk, State.keepLines_mem, State.foldl_memOk, State.memOk]

@[simp] theorem State.keepMx_mem (s : State) (ctx : Nat) (ids : List Nat) :
    (s.keepMx ctx ids).mem = s.mem := by
  grind [State.keepMx, State.takeMx_mem, State.setCtx_mem]

theorem State.leaveCores_memOk {s : State} (h : s.memOk) (ctx : Nat) (img : Image) :
    (s.leaveCores ctx img).memOk := by
  grind [State.leaveCores, State.keepBlock_memOk, State.unstopEmpty_mem, State.keepMx_mem, State.foldl_memOk, State.memOk]

theorem State.writeImage_memOk {s : State} (h : s.memOk) (ctx : Nat) : (s.writeImage ctx).memOk := by
  unfold State.writeImage
  split
  · exact State.suspendGrafts_memOk h ctx
  · extract_lets s0 s1 img room bad
    have h1 : s1.memOk := State.memOk_of_mem (State.pinBlocks_mem _ ctx) (State.suspendGrafts_memOk (State.raiseAllPending_memOk h ctx) ctx)
    have hw := State.imgWriteAll_memOk h1 ctx img.words
    split
    · split
      next => exact State.memOk_of_mem (State.putWaits_mem _ _ _) h
      next => exact State.forcedReset_memOk h ctx
      next s2 e =>
        exact State.memOk_of_mem (by simp) (State.setHeader_memOk (State.leaveCores_memOk (Put.done_memOk e hw) ctx img) ctx 2)
    · exact State.forcedReset_memOk h ctx

end Sys2Proof.Machine
end

section
/-! Memory and its canonical form: RESTORE. -/

set_option Elab.async false
namespace Sys2Proof.Machine

@[simp] theorem State.imgLids_mem (s : State) (ctx : Nat) (v : ImgView) :
    (s.imgLids ctx v).2.mem = s.mem := by
  grind [State.imgLids, State.setCtx_mem]

@[simp] theorem State.putLaunch_mem (s : State) (ctx lid e : Nat) (v : ImgView) (l : ImgLaunch) :
    (s.putLaunch ctx lid e v l).mem = s.mem := by
  grind [State.putLaunch]

@[simp] theorem State.rankAs_mem (s : State) (bid gid rank c : Nat) :
    (s.rankAs bid gid rank c).mem = s.mem := by
  grind [State.rankAs, State.updBlock_mem]

theorem State.placeRecs_mem {s t : State} {ctx d lid gid : Nat} {l : Launch} {m r : RankMap} {rs : List ImgRec}
    (e : s.placeRecs ctx d lid gid l m rs = some (t, r)) : t.mem = s.mem := by
  induction rs generalizing s m with
  | nil => grind [State.placeRecs]
  | cons x rs ih =>
    rw [State.placeRecs] at e
    split at e
    · cases e
    · rename_i s1 c h
      obtain ⟨_, -, hb⟩ := firstSome_spec h
      obtain ⟨s0, hs0, hs1⟩ := Option.map_eq_some_iff.mp hb
      cases hs1
      rw [ih e, State.rankAs_mem, State.placeBlockAs_mem hs0]

theorem State.placeImgGrove_mem {s t : State} {ctx lid e : Nat} {v : ImgView} {m : RankMap} {g : Nat} {r : RankMap}
    (e : s.placeImgGrove ctx lid e v m g = some (t, r)) :
    t.mem = s.mem := by
  grind [State.placeImgGrove, → State.placeRecs_mem, State.foldl_mem, → firstSome_spec, State.getD_mem]

theorem State.placeImgGroves_mem {s t : State} {ctx lid e : Nat} {v : ImgView} {m r : RankMap} {gs : List Nat}
    (eq : s.placeImgGroves ctx lid e v m gs = some (t, r)) : t.mem = s.mem := by
  induction gs generalizing s m with
  | nil => grind [State.placeImgGroves]
  | cons g gs ih => grind [State.placeImgGroves, → State.placeImgGrove_mem]

theorem State.placeImage_mem {s t : State} {ctx : Nat} {v : ImgView} {m r : RankMap} {l : List (Nat × Nat)}
    (e : s.placeImage ctx v m l = some (t, r)) : t.mem = s.mem := by
  induction l generalizing s m with
  | nil => grind [State.placeImage]
  | cons g gs ih => grind [State.placeImage, → State.placeImgGroves_mem]

@[simp] theorem State.fillBlock_mem (s : State) (ctx : Nat) (lids : List Nat) (r : ImgRec) :
    (s.fillBlock ctx lids r).mem = s.mem := by
  grind [State.fillBlock, State.updBlock_mem]

@[simp] theorem State.claimSaved_mem (s : State) (ctx va key : Nat) :
    (s.claimSaved ctx va key).mem = s.mem := by
  grind [State.claimSaved]

theorem State.resumeThread_memOk {s : State} (h : s.memOk) (key bid : Nat) (kt : Option Thread) (w : List Word) :
    (s.resumeThread key bid kt w).memOk := by
  grind [State.resumeThread, State.updThread_mem, State.report_memOk, State.addOp_mem, State.memOk]

@[simp] theorem State.fillThreads_mem (s : State) (ctx : Nat) (lids : List Nat) (r : ImgRec) :
    (s.fillThreads ctx lids r).mem = s.mem := by
  grind [State.fillThreads, State.claimSaved_mem, State.updThread_mem, State.foldl_mem]

@[simp] theorem State.markSpent_mem (s : State) (ctx : Nat) :
    (s.markSpent ctx).mem = s.mem := by
  grind [State.markSpent, State.updBlock_mem, State.foldl_mem]

theorem State.resumeThreads_memOk {s : State} (h : s.memOk) (ctx : Nat) (lids : List Nat) (r : ImgRec) :
    (s.resumeThreads ctx lids r).memOk := by
  grind [State.resumeThreads, State.resumeThread_memOk, State.foldl_memOk, State.memOk]

@[simp] theorem State.fillSpans_mem (s : State) (ctx : Nat) (was : Tbl Launch) (lids : List Nat) :
    (s.fillSpans ctx was lids).mem = s.mem := by
  grind [State.fillSpans, State.updLaunch_mem, State.foldl_mem]

@[simp] theorem State.joinShare_mem (s : State) (ctx lid core : Nat) (w : List Word) (res : List Byte) (acc : State × MxFound) :
    (s.joinShare ctx lid core w res acc).1.mem = acc.1.mem := by
  grind [State.joinShare, State.updCore_mem]

@[simp] theorem State.fillCore_mem (s : State) (ctx : Nat) (lids : List Nat) (m : RankMap) (found : MxFound) (c : ImgCore) :
    (s.fillCore ctx lids m found c).1.mem = s.mem := by
  unfold State.fillCore
  split
  · rfl
  · simp [State.foldl_fst_mem]

@[simp] theorem State.pinRunning_mem (s : State) (found : MxFound) :
    (s.pinRunning found).mem = s.mem := by
  grind [State.pinRunning, State.pinAll_mem, State.foldl_mem]

theorem State.restoreImage_memOk {s t : State} {ctx : Nat} (e : s.restoreImage ctx = .ok t) (h : s.memOk) :
    t.memOk := by
  grind [State.restoreImage, State.imgLids_mem, State.putLaunch_mem, → State.placeImage_mem, State.markSpent_mem, State.fillThreads_mem,
    State.fillBlock_mem, State.fillSpans_mem, State.fillCore_mem, State.resumeThreads_memOk, State.pinRunning_mem, State.setCtx_mem,
    State.foldl_memOk, State.foldl_fst_memOk, State.memOk]

end Sys2Proof.Machine
end

section
/-! Memory and its canonical form: the pre-emption block. -/

set_option Elab.async false
namespace Sys2Proof.Machine

@[simp] theorem State.startDrain_mem (s : State) (ctx : Nat) :
    (s.startDrain ctx).mem = s.mem := by
  grind [State.startDrain, State.peTo_mem, State.returnQueues_mem]

theorem execPeCmdPreempt_memOk {s : State} (h : s.memOk) (ctx : Nat) :
    (execPeCmdPreempt ctx s).memOk := by
  grind [execPeCmdPreempt, State.peTo_mem, State.pinArea_mem, State.startDrain_mem, State.forcedReset_memOk, State.memOk, Out.memOk]

theorem execPeCmdKill_memOk {s : State} (h : s.memOk) (ctx : Nat) :
    (execPeCmdKill ctx s).memOk := by
  grind [execPeCmdKill, State.forcedReset_memOk, State.memOk, Out.memOk]

theorem execPeCmdPin_memOk {s : State} (h : s.memOk) (ctx : Nat) :
    (execPeCmdPin ctx s).memOk := by
  grind [execPeCmdPin, State.pinArea_mem, State.peTo_mem, State.memOk, Out.memOk]

theorem execPeCmdRestore_memOk {s : State} (h : s.memOk) (ctx : Nat) :
    (execPeCmdRestore ctx s).memOk := by
  grind [execPeCmdRestore, → State.restoreImage_memOk, State.peTo_mem, State.setHeader_memOk, State.memOk, Out.memOk]

theorem execPeDrainDone_memOk {s : State} (h : s.memOk)  :
    (execPeDrainDone s).memOk := by
  grind [execPeDrainDone, State.writeImage_memOk, State.vaWrite_memOk, Put.memOk, State.memOk, Out.memOk]

theorem execPeDrainTimeout_memOk {s : State} (h : s.memOk)  :
    (execPeDrainTimeout s).memOk := by
  grind [execPeDrainTimeout, State.discardGrove_memOk, State.peTo_mem, State.setHeader_memOk, State.markStops_mem, State.vaWrite_memOk, Put.memOk,
    State.foldl_memOk, State.memOk, Out.memOk]

theorem execPeSaveDone_memOk {s : State} (h : s.memOk)  :
    (execPeSaveDone s).memOk := by
  grind [execPeSaveDone, State.writeImage_memOk, State.vaWrite_memOk, Put.memOk, State.memOk, Out.memOk]

end Sys2Proof.Machine
end

section
/-! Memory and its canonical form: the picker. -/

set_option Elab.async false
namespace Sys2Proof.Machine

theorem State.front_memOk {s : State} (h : s.memOk) (k : Nat) :
    (s.front k).2.memOk := by
  grind [State.front, → State.pendingOf_memOk, → State.fetchInst_memOk, State.memOk]

@[simp] theorem State.tableIn_mem (s : State) (k : Nat) :
    (s.tableIn k).mem = s.mem := by
  grind [State.tableIn, State.updThread_mem]

@[simp] theorem State.settle_mem (s : State)  :
    s.settle.mem = s.mem := by
  grind [State.settle, State.tableIn_mem, State.foldl_mem]

@[simp] theorem State.ageAll_mem (s : State)  :
    s.ageAll.mem = s.mem := by
  grind [State.ageAll]

theorem State.strike_memOk {s : State} (h : s.memOk)  :
    s.strike.memOk := by
  grind [State.strike, State.updMx_mem, State.endMember_mem, State.failCopy_mem, State.service_memOk, State.elim_memOk, State.memOk]

theorem State.tick_memOk {s : State} (h : s.memOk)  :
    s.tick.memOk := by
  grind [State.tick, State.ageAll_mem, State.settle_mem, State.strike_memOk, State.retireDrain_memOk, State.watchNodes_mem, State.tidyWrites_mem,
    State.leaseTidy_mem, State.drainHeld_memOk, State.memOk]

end Sys2Proof.Machine
end

section
/-! Memory and its canonical form: checkpoints. -/

set_option Elab.async false
namespace Sys2Proof.Machine

@[simp] theorem State.ckTo_mem (s : State) (stage : Nat) (status : Option Nat) :
    (s.ckTo stage status).mem = s.mem := by
  grind [State.ckTo, State.setReg_mem]

theorem State.ckWords_memOk {s : State} (h : s.memOk) (va : Word) (n : Nat) :
    (s.ckWords va n).memOk := by
  grind [State.ckWords, Eng.bind_memOk, Eng.memOk, State.partRead_memOk, State.memOk]

theorem State.ckRelease_memOk {s : State} (h : s.memOk) (va v : Word) :
    (s.ckRelease va v).memOk := by
  grind [State.ckRelease, Eng.bind_memOk, Eng.memOk, State.engAccess_memOk, State.writePa_memOk, State.classAgentWrite_mem, State.memOk]

theorem State.ckComp_memOk {s : State} (h : s.memOk) (status : Nat) :
    (s.ckComp status).memOk := by
  grind [State.ckComp, Eng.bind_memOk, Eng.memOk, State.engAccess_memOk, State.agentPutAs_memOk, State.memOk]

@[simp] theorem State.ckOver_mem (s : State) (status : Nat) :
    (s.ckOver status).mem = s.mem := by
  grind [State.ckOver, State.ckTo_mem]

theorem State.ckEnd_memOk {s : State} (h : s.memOk) (status : Nat) :
    (s.ckEnd status).memOk := by
  grind [State.ckEnd, State.ckComp_memOk, Eng.memOk, State.ckOver_mem, State.service_memOk, State.memOk]

theorem ckStep_memOk {α : Type} {x : Eng α} (h : x.memOk) {k : State → α → State} (hk : ∀ x a, x.memOk → (k x a).memOk) : (ckStep x k).memOk := by
  cases x with
  | ok s v => exact hk s v h
  | err s c va => exact State.ckEnd_memOk h _
  | wait s => exact h

theorem State.ckDesc_memOk {s : State} (h : s.memOk) {k : State → List Word → State} (hk : ∀ x d, x.memOk → (k x d).memOk) : (s.ckDesc k).memOk := by
  grind [State.ckDesc, State.ckWords_memOk, Eng.memOk, State.ckEnd_memOk, State.memOk]

theorem State.ckHash_memOk {s : State} (h : s.memOk)  :
    s.ckHash.memOk := by
  grind [State.ckHash, State.ckDesc_memOk, State.ckEnd_memOk, ckStep_memOk, State.ckWords_memOk, Eng.memOk, State.ckTo_mem, State.memOk]

theorem State.ckGroup_memOk {s : State} (h : s.memOk)  :
    s.ckGroup.memOk := by
  grind [State.ckGroup, State.groupRead_memOk, Eng.memOk, State.memOk]

theorem State.exchange_memOk {s : State} (h : s.memOk) (g : GroupView) :
    (s.exchange g).memOk := by
  grind [State.exchange, State.peerSteps_memOk, Eng.memOk, State.memOk]

theorem State.ckExchange_memOk {s : State} (h : s.memOk)  :
    s.ckExchange.memOk := by
  grind [State.ckExchange, State.ckGroup_memOk, Eng.memOk, State.ckEnd_memOk, ckStep_memOk, State.exchange_memOk, State.ckTo_mem, State.memOk]

theorem State.ckPut_memOk {s : State} (h : s.memOk) {k : State → State} (hk : ∀ x, x.memOk → (k x).memOk) : (s.ckPut k).memOk := by
  grind [State.ckPut, ckStep_memOk, State.engWrite_memOk, State.memOk]

theorem State.ckChunks_memOk {s : State} (h : s.memOk)  :
    s.ckChunks.memOk := by
  grind [State.ckChunks, State.ckPut_memOk, State.ckTo_mem, State.memOk]

theorem State.ckManifest_memOk {s : State} (h : s.memOk)  :
    s.ckManifest.memOk := by
  grind [State.ckManifest, State.ckPut_memOk, ckStep_memOk, State.ckRelease_memOk, Eng.memOk, State.ckEnd_memOk, State.memOk]

theorem execCkCmdSave_memOk {s : State} (h : s.memOk)  :
    (execCkCmdSave s).memOk := by
  grind [execCkCmdSave, State.ckTo_mem, State.memOk, Out.memOk]

theorem State.readManifests_memOk {s : State} (h : s.memOk) (l : List Word) : (s.readManifests l).memOk := by
  induction l generalizing s with
  | nil => exact h
  | cons a l ih => grind [State.readManifests, State.ckWords_memOk, Eng.memOk, Eng.bind_memOk]

theorem State.putPage_memOk {s : State} (h : s.memOk) (r step : Nat) (bs : List Byte) :
    (s.putPage r step bs).memOk := by
  grind [State.putPage, State.putTags_mem, State.writePa_memOk, State.classAgentWrite_mem, State.hwWrite_memOk, State.foldl_memOk, State.memOk]

theorem State.putPages_memOk {s : State} (h : s.memOk) (step : Nat) (l : List Nat) (bs : List Byte) : (s.putPages step l bs).memOk := by
  induction l generalizing s bs with
  | nil => exact h
  | cons r l ih => exact ih (State.putPage_memOk h _ _ _) _

theorem State.activate_memOk {s : State} (h : s.memOk) (step r : Nat) :
    (s.activate step r).memOk := by
  grind [State.activate, State.hwWrite_memOk, State.writePa_memOk, State.useRegion_mem, State.memOk]

theorem State.ckInputs_memOk {s : State} (h : s.memOk) {k : State → List Nat → List Manifest → List Word → State}
    (hk : ∀ x a b c, x.memOk → (k x a b c).memOk) : (s.ckInputs k).memOk := by
  refine State.ckDesc_memOk h fun s2 d h2 => ?_
  split
  · exact State.ckEnd_memOk h2 _
  · refine ckStep_memOk (State.ckWords_memOk h2 _ _) fun s3 vas h3 => ?_
    split
    · exact State.ckEnd_memOk h3 _
    · exact ckStep_memOk (State.ckWords_memOk h3 _ _) fun s4 as h4 => ckStep_memOk (State.readManifests_memOk h4 _) fun s5 all h5 =>
        ckStep_memOk (State.ckWords_memOk h5 _ _) fun s6 table h6 => hk _ _ _ _ h6

theorem State.ckSelect_memOk {s : State} (h : s.memOk)  :
    s.ckSelect.memOk := by
  grind [State.ckSelect, State.ckInputs_memOk, State.ckEnd_memOk, ckStep_memOk, State.ckWords_memOk, Eng.memOk, State.ckTo_mem, State.getD_memOk,
    State.memOk]

@[simp] theorem State.ckExclude_mem (s : State)  :
    s.ckExclude.mem = s.mem := by
  grind [State.ckExclude, State.ckTo_mem]

theorem State.ckRead_memOk {s : State} (h : s.memOk)  :
    s.ckRead.memOk := by
  grind [State.ckRead, State.ckInputs_memOk, ckStep_memOk, State.partRead_memOk, Eng.memOk, State.ckExclude_mem, State.ckEnd_memOk,
    State.activate_memOk, State.putPages_memOk, State.foldl_memOk, State.memOk]

theorem execCkCmdRestore_memOk {s : State} (h : s.memOk)  :
    (execCkCmdRestore s).memOk := by
  grind [execCkCmdRestore, State.ckTo_mem, State.memOk, Out.memOk]

theorem execCkExchangeDone_memOk {s : State} (h : s.memOk)  :
    (execCkExchangeDone s).memOk := by
  grind [execCkExchangeDone, State.ckEnd_memOk, State.ckHash_memOk, State.ckExchange_memOk, State.ckChunks_memOk, State.ckManifest_memOk,
    State.ckSelect_memOk, State.ckRead_memOk, State.memOk, Out.memOk]

end Sys2Proof.Machine
end

section
/-! Memory and its canonical form: coherence across the dies. -/

set_option Elab.async false
namespace Sys2Proof.Machine

@[simp] theorem State.carryMark_mem (s : State) (core sector : Nat) :
    (s.carryMark core sector).mem = s.mem := by
  grind [State.carryMark]

@[simp] theorem State.prefDone_mem (s : State) (core sector v : Nat) :
    (s.prefDone core sector v).mem = s.mem := by
  grind [State.prefDone]

@[simp] theorem State.writeBack_mem (s : State) (core line : Nat) :
    (s.writeBack core line).mem = s.mem := by
  grind [State.writeBack, State.setL2_mem]

@[simp] theorem State.startTxn_mem (s : State) (t : Txn) (inval : Bool) (targets : List (Nat × Option Nat)) (sectors : List Nat) :
    (s.startTxn t inval targets sectors).mem = s.mem := by
  grind [State.startTxn, State.foldl_mem]

@[simp] theorem State.grantRead_mem (s : State) (core sector : Nat) :
    (s.grantRead core sector).mem = s.mem := by
  grind [State.grantRead, State.setL2_mem, State.fresh_mem, State.joinL1_mem, State.prefDone_mem, State.carryMark_mem]

@[simp] theorem State.grantWrite_mem (s : State) (core sector : Nat) :
    (s.grantWrite core sector).mem = s.mem := by
  grind [State.grantWrite, State.setL2_mem, State.fresh_mem, State.carryMark_mem, State.prefDone_mem, State.l1Put_mem]

@[simp] theorem State.dieAnswer_mem (s : State) (id : Nat) (p : Probe) :
    (s.dieAnswer id p).mem = s.mem := by
  grind [State.dieAnswer, State.setL2_mem, State.setDie_mem]

@[simp] theorem State.l2PrefDone_mem (s : State) (d sector : Nat) : (s.l2PrefDone d sector).mem = s.mem := by
  unfold State.l2PrefDone
  dsimp only
  split
  · refine (State.l2Alloc_mem _ _ _).trans (State.foldl_mem (fun x p => ?_) _)
    exact State.elim_mem rfl fun ctx _ => x.classTouch_mem _ _ _
  · rfl

@[simp] theorem State.dirtyAt_mem (s : State) (d sector : Nat) :
    (s.dirtyAt d sector).mem = s.mem := by
  grind [State.dirtyAt, State.setL2_mem]

@[simp] theorem State.finishTxn_mem (s : State) (t : Txn) :
    (s.finishTxn t).mem = s.mem := by
  grind [State.finishTxn, State.grantRead_mem, State.grantWrite_mem, State.dieAnswer_mem, State.setL2_mem, State.setDies_mem, State.l2PrefDone_mem,
    State.dirtyAt_mem, State.foldl_mem, State.elim_mem]

@[simp] theorem State.countAck_mem (s : State) (id : Nat) (p : Probe) :
    (s.countAck id p).mem = s.mem := by
  grind [State.countAck, State.finishTxn_mem]

theorem execL1ReadMiss_memOk {s : State} (h : s.memOk) (core sector : Nat) :
    (execL1ReadMiss core sector s).memOk := by
  grind [execL1ReadMiss, State.classTouch_mem, State.startTxn_mem, State.grantRead_mem, State.memOk, Out.memOk]

theorem execL1WriteUpgrade_memOk {s : State} (h : s.memOk) (core sector : Nat) :
    (execL1WriteUpgrade core sector s).memOk := by
  grind [execL1WriteUpgrade, State.classTouch_mem, State.grantWrite_mem, State.startTxn_mem, State.memOk, Out.memOk]

theorem execEvictionNotice_memOk {s : State} (h : s.memOk) (core line : Nat) :
    (execEvictionNotice core line s).memOk := by
  grind [execEvictionNotice, State.setL2_mem, State.countAck_mem, State.memOk, Out.memOk]

@[simp] theorem State.coreProbe_mem (s : State) (id : Nat) (p : Probe) (c : Nat) :
    (s.coreProbe id p c).mem = s.mem := by
  grind [State.coreProbe, State.writeBack_mem, State.setL2_mem]

@[simp] theorem State.dieProbe_mem (s : State) (id : Nat) (p : Probe) :
    (s.dieProbe id p).mem = s.mem := by
  grind [State.dieProbe, State.dieAnswer_mem, State.startTxn_mem]

@[simp] theorem State.probeArrives_mem (s : State) (id : Nat) (inval : Bool) :
    (s.probeArrives id inval).mem = s.mem := by
  grind [State.probeArrives, State.coreProbe_mem, State.dieProbe_mem]

theorem execProbeAck_memOk {s : State} (h : s.memOk) (probe : Nat) :
    (execProbeAck probe s).memOk := by
  grind [execProbeAck, State.countAck_mem, State.memOk, Out.memOk]

@[simp] theorem State.recall_mem (s : State) (line : Nat) :
    (s.recall line).mem = s.mem := by
  grind [State.recall, State.foldl_mem]

theorem State.hostFill_memOk {s : State} (h : s.memOk) (sector : Nat) :
    (s.hostFill sector).memOk := by
  grind [State.hostFill, State.outsideStore_memOk, State.memOk]

theorem State.atHome_memOk {s : State} (h : s.memOk) (die sector : Nat) (write : Bool) {go : State → State} (hg : ∀ x, x.memOk → (go x).memOk) :
    (s.atHome die sector write go).memOk := by
  grind [State.atHome, State.recall_mem, State.hostFill_memOk, State.tapTouch_mem, State.memOk]

theorem execTaprootRd_memOk {s0 : State} (h : s0.memOk) (die sector : Nat) :
    (execTaprootRd die sector s0).memOk := by
  grind [execTaprootRd, State.l2PrefDone_mem, State.atHome_memOk, State.startTxn_mem, State.setDie_mem, State.memOk, Out.memOk]

@[simp] theorem State.takeExclusive_mem (s : State) (die sector : Nat) :
    (s.takeExclusive die sector).mem = s.mem := by
  grind [State.takeExclusive, State.l2PrefDone_mem, State.setDie_mem, State.startTxn_mem]

theorem execTaprootRdx_memOk {s : State} (h : s.memOk) (die sector : Nat) :
    (execTaprootRdx die sector s).memOk := by
  grind [execTaprootRdx, State.atHome_memOk, State.takeExclusive_mem, State.memOk, Out.memOk]

theorem execTaprootUp_memOk {s : State} (h : s.memOk) (die sector : Nat) :
    (execTaprootUp die sector s).memOk := by
  grind [execTaprootUp, State.atHome_memOk, State.takeExclusive_mem, State.memOk, Out.memOk]

theorem execTaprootEv_memOk {s : State} (h : s.memOk) (die sector : Nat) (dirty : Bool) :
    (execTaprootEv die sector dirty s).memOk := by
  grind [execTaprootEv, State.writeBack_mem, State.setL2_mem, State.setDie_mem, State.countAck_mem, State.foldl_memOk, State.memOk, Out.memOk]

theorem execHostSnoop_memOk {s : State} (h : s.memOk) (addr : Nat) (inval : Bool) :
    (execHostSnoop addr inval s).memOk := by
  grind [execHostSnoop, State.startTxn_mem, State.memOk, Out.memOk]

theorem execWaiterNotice_memOk {s : State} (h : s.memOk) (core word : Nat) :
    (execWaiterNotice core word s).memOk := by
  grind [execWaiterNotice, State.lateArrival_memOk, State.carryMark_mem, State.memOk, Out.memOk]

end Sys2Proof.Machine
end

section
/-! Memory and its canonical form: FRAMEOUT and the encode streams. -/

set_option Elab.async false
namespace Sys2Proof.Machine

@[simp] theorem State.setStream_mem (s : State) (st : Nat) (x : Stream) :
    (s.setStream st x).mem = s.mem := by
  grind [State.setStream]

theorem execFoCtlWrite_memOk {s : State} (h : s.memOk) (stream : Nat) (val : Word) :
    (execFoCtlWrite stream val s).memOk := by
  grind [execFoCtlWrite, State.setReg_mem, State.setStream_mem, State.memOk, Out.memOk]

@[simp] theorem State.tileIn_mem (s : State) (st : Nat) (x : Stream) (frame : Nat) (t : Tile) (closes : Bool) :
    (s.tileIn st x frame t closes).2.mem = s.mem := by
  grind [State.tileIn, State.setStream_mem]

@[simp] theorem State.frameoutRun_mem (s : State) (seq : Nat) (o : Op) (blk off : Nat) (tile : Word) (vd : Nat) :
    (s.frameoutRun seq o blk off tile vd).mem = s.mem := by
  grind [State.frameoutRun, State.finishOp_mem, State.tileIn_mem]

theorem execFrameout_memOk {s : State} (h : s.memOk) (c : Ctl) (vd va vb : Reg) :
    (execFrameout c vd va vb s).memOk := by
  refine State.runGang_memOk h _ _ _ _ fun s l recv t hs e => ?_
  grind [State.startOp_mem, State.closeIdem_mem, State.foldl_memOk, State.memOk]

theorem State.foPut_memOk {s : State} (h : s.memOk) (st n : Nat) (past : List Nat) (bs : List Byte) : (s.foPut st n past bs).memOk := by
  induction bs generalizing s n past with
  | nil => exact h
  | cons b bs ih => exact ih (State.agentPut_memOk h _ _ _ _ _) _ _

theorem execFrameEncoded_memOk {s : State} (h : s.memOk) (stream : Nat) :
    (execFrameEncoded stream s).memOk := by
  grind [execFrameEncoded, State.setReg_mem, State.foPut_memOk, State.setStream_mem, State.getD_memOk, State.memOk, Out.memOk]

end Sys2Proof.Machine
end

section
/-! Memory and its canonical form: security, start-up and power. -/

set_option Elab.async false
namespace Sys2Proof.Machine

@[simp] theorem State.flushSectors_mem (s : State) (p : Nat → Bool) :
    (s.flushSectors p).mem = s.mem := by
  grind [State.flushSectors, State.evictLine_mem, State.foldl_mem]

@[simp] theorem State.freshKeys_mem (s : State)  :
    s.freshKeys.mem = s.mem := by
  grind [State.freshKeys]

@[simp] theorem State.pinKey_mem (s : State) (k : Nat) :
    (s.pinKey k).mem = s.mem := by
  grind [State.pinKey]

theorem execKeyLoad_memOk {s : State} (h : s.memOk) (k : KeyInput) :
    (execKeyLoad k s).memOk := by
  grind [execKeyLoad, State.pinKey_mem, State.flushSectors_mem, State.memOk, Out.memOk]

theorem execZeroise_memOk {s : State} (h : s.memOk)  :
    (execZeroise s).memOk := by
  grind [execZeroise, State.freshKeys_mem, State.memOk, Out.memOk]

theorem execFirmwareImage_memOk {s : State} (h : s.memOk) (img : FwImage) :
    (execFirmwareImage img s).memOk := by
  grind [execFirmwareImage, State.memOk, Out.memOk]

theorem execNonceRequest_memOk {s : State} (h : s.memOk)  :
    (execNonceRequest s).memOk := by
  grind [execNonceRequest, State.memOk, Out.memOk]

theorem execDebugUnlock_memOk {s : State} (h : s.memOk) (tok : UnlockToken) :
    (execDebugUnlock tok s).memOk := by
  grind [execDebugUnlock, State.freshKeys_mem, State.memOk, Out.memOk]

theorem execSpdmMeasurements_memOk {s : State} (h : s.memOk)  :
    (execSpdmMeasurements s).memOk := by
  grind [execSpdmMeasurements, State.memOk, Out.memOk]

theorem State.restarted_memOk {s : State} (h : s.memOk)  :
    s.restarted.memOk := by
  grind [State.restarted, State.reset_memOk, State.memOk]

theorem State.coldStarted_memOk {s : State} (h : s.memOk)  :
    s.coldStarted.memOk := by
  grind [State.coldStarted, State.freshKeys_mem, State.scrubbed_memOk, State.restarted_memOk, State.memOk]

theorem execColdStart_memOk {s : State} (h : s.memOk)  :
    (execColdStart s).memOk := by
  grind [execColdStart, State.coldStarted_memOk, State.memOk, Out.memOk]

theorem execWarmStart_memOk {s : State} (h : s.memOk)  :
    (execWarmStart s).memOk := by
  grind [execWarmStart, State.coldStarted_memOk, State.restarted_memOk, State.scrubbed_memOk, State.memOk, Out.memOk]

theorem execThermalTrip_memOk {s : State} (h : s.memOk)  :
    (execThermalTrip s).memOk := by
  grind [execThermalTrip, State.coldStarted_memOk, State.memOk, Out.memOk]

theorem execEbudRefill_memOk {s : State} (h : s.memOk)  :
    (execEbudRefill s).memOk := by
  grind [execEbudRefill, State.setReg_mem, State.setCtx_mem, State.foldl_memOk, State.memOk, Out.memOk]

end Sys2Proof.Machine
end

section
/-! Memory and its canonical form: register writes and the host's windows. -/

set_option Elab.async false
namespace Sys2Proof.Machine

@[simp] theorem State.smpCtl_mem (s : State) (c : Nat) :
    (s.smpCtl c).mem = s.mem := by
  grind [State.smpCtl, State.updCore_mem]

theorem execRegisterWrite_memOk {s : State} (h : s.memOk) (off : Nat) (val : RegData) :
    (execRegisterWrite off val s).memOk := by
  grind [execRegisterWrite, State.writeReg_mem, State.smpCtl_mem, State.memOk, Out.memOk]

theorem State.hostRead_memOk {s : State} (h : s.memOk) (off n : Nat) :
    (s.hostRead off n).memOk := by
  grind [State.hostRead, State.agentRead_memOk, State.uncorrEntry_memOk, State.memOk]

theorem execHdmAccess_memOk {s : State} (h : s.memOk) (off : Nat) (acc : HdmOp) : (execHdmAccess off acc s).memOk := by
  cases acc <;> grind [execHdmAccess, State.hostRead_memOk, State.agentBytes_memOk, Out.memOk]

theorem State.fillWords_memOk {s : State} (h : s.memOk) (key w : Nat) (bs : List Byte) (n : Nat) : (s.fillWords key w bs n).memOk := by
  induction n generalizing s w bs with
  | zero => exact h
  | succ n ih => exact ih (State.agentPut_memOk h _ _ _ _ _) _ _

theorem execFillAliasWrite_memOk {s : State} (h : s.memOk) (off : Nat) (bytes : List Byte) :
    (execFillAliasWrite off bytes s).memOk := by
  grind [execFillAliasWrite, State.fillWords_memOk, State.setReg_mem, State.memOk, Out.memOk]

theorem execXlInvCmd_memOk {s : State} (h : s.memOk) (die : Nat) (val : Word) :
    (execXlInvCmd die val s).memOk := by
  grind [execXlInvCmd, State.setReg_mem, State.memOk, Out.memOk]

theorem execXlInvalidationDone_memOk {s : State} (h : s.memOk) (die : Nat) :
    (execXlInvalidationDone die s).memOk := by
  grind [execXlInvalidationDone, State.setReg_mem, State.memOk, Out.memOk]

@[simp] theorem State.answer_mem (s : State) (r : ResReq) (ok : Bool) :
    (s.answer r ok).mem = s.mem := by
  grind [State.answer]

theorem execSvCmdGrant_memOk {s : State} (h : s.memOk)  :
    (execSvCmdGrant s).memOk := by
  grind [execSvCmdGrant, State.answer_mem, State.memOk, Out.memOk]

theorem execSvCmdRefuse_memOk {s : State} (h : s.memOk)  :
    (execSvCmdRefuse s).memOk := by
  grind [execSvCmdRefuse, State.answer_mem, State.memOk, Out.memOk]

theorem execSvCmdGiveFrame_memOk {s : State} (h : s.memOk)  :
    (execSvCmdGiveFrame s).memOk := by
  grind [execSvCmdGiveFrame, State.setResCount_memOk, State.hwWrite_memOk, → State.poolPush_memOk, State.service_memOk, State.getD_memOk,
    State.memOk, Out.memOk]

theorem execSvCmdIgnored_memOk {s : State} (h : s.memOk)  :
    (execSvCmdIgnored s).memOk := by
  grind [execSvCmdIgnored, State.memOk, Out.memOk]

theorem execSvPend_memOk {s : State} (h : s.memOk)  :
    (execSvPend s).memOk := by
  grind [execSvPend, → State.svWrite_memOk, State.setReg_mem, State.memOk, Out.memOk]

@[simp] theorem State.tpEnd_mem (s : State) (r : Nat) :
    (s.tpEnd r).mem = s.mem := by
  grind [State.tpEnd, State.setReg_mem]

theorem execTpCmdRelease_memOk {s : State} (h : s.memOk)  :
    (execTpCmdRelease s).memOk := by
  grind [execTpCmdRelease, State.tpEnd_mem, State.unseen_mem, State.memOk, Out.memOk]

@[simp] theorem State.migrationStart_mem (s : State) (src dst tag : Nat) :
    (s.migrationStart src dst tag).mem = s.mem := by
  grind [State.migrationStart, State.setReg_mem]

theorem execTpCmdMigrate_memOk {s : State} (h : s.memOk)  :
    (execTpCmdMigrate s).memOk := by
  grind [execTpCmdMigrate, State.migrationStart_mem, State.tpEnd_mem, State.memOk, Out.memOk]

theorem execTpCmdIgnored_memOk {s : State} (h : s.memOk)  :
    (execTpCmdIgnored s).memOk := by
  grind [execTpCmdIgnored, State.memOk, Out.memOk]

theorem execMigrationPassEnd_memOk {s : State} (h : s.memOk)  :
    (execMigrationPassEnd s).memOk := by
  grind [execMigrationPassEnd, State.tpEnd_mem, State.memOk, Out.memOk]

theorem execFreezeCopyEnd_memOk {s : State} (h : s.memOk)  :
    (execFreezeCopyEnd s).memOk := by
  grind [execFreezeCopyEnd, State.drainHeld_memOk, State.tpEnd_mem, State.moveSwitch_memOk, State.memOk, Out.memOk]

end Sys2Proof.Machine
end

section
/-! Memory and its canonical form: landings. -/

set_option Elab.async false
namespace Sys2Proof.Machine

theorem State.landNow_memOk {s : State} (h : s.memOk) (seq : Nat) (o : Op) :
    (s.landNow seq o).memOk := by
  grind [State.landNow, State.finishOp_mem, State.acquired_mem, State.viaPeer_memOk, State.landLoad_mem, State.doAtomic_memOk, State.doSignal_memOk,
    State.landLds_mem, State.doAtoms_mem, State.doCctl_mem, State.doFence_mem, State.doBar_memOk, State.formTry_memOk, State.arrayStep_mem,
    State.frameoutRun_mem, State.graftRun_memOk, State.unitRun_memOk, State.calltStep_memOk, State.memOk]

theorem execClassVResultLands_memOk {s : State} (h : s.memOk) (op : Nat) :
    (execClassVResultLands op s).memOk := by
  grind [execClassVResultLands, State.landNow_memOk, State.memOk, Out.memOk]

@[simp] theorem State.setWc_mem (s : State) (core : Nat) (es : List WcEnt) :
    (s.setWc core es).mem = s.mem := by
  grind [State.setWc, State.updCore_mem]

theorem State.wcDrain_memOk {s : State} (h : s.memOk) (core : Nat) (e : WcEnt) :
    (s.wcDrain core e).memOk := by
  grind [State.wcDrain, State.doStore_memOk, State.setWc_mem, State.foldl_memOk, State.memOk]

theorem State.wcStore_memOk {s : State} (h : s.memOk) (seq : Nat) (o : Op) (a : Access) :
    (s.wcStore seq o a).memOk := by
  grind [State.wcStore, State.wcDrain_memOk, State.setWc_mem, State.memOk]

theorem State.performNow_memOk {s : State} (h : s.memOk) (seq : Nat) (o : Op) :
    (s.performNow seq o).memOk := by
  grind [State.performNow, State.wcStore_memOk, State.viaPeer_memOk, State.doStore_memOk, State.doSts_mem, State.memOk]

theorem execStorePerformed_memOk {s : State} (h : s.memOk) (op : Nat) :
    (execStorePerformed op s).memOk := by
  grind [execStorePerformed, State.performNow_memOk, State.memOk, Out.memOk]

theorem execPeerResend_memOk {s : State} (h : s.memOk) (op : Nat) : (execPeerResend op s).memOk := by
  unfold execPeerResend
  split
  · exact h
  next o _ =>
    split
    · exact h
    · split
      · exact h
      · split
        · exact State.performNow_memOk h op o
        · split
          · exact State.viaPeer_memOk h op o _ fun x hx => State.doStore_memOk hx op o _ _
          · exact h
        · split
          · exact State.viaPeer_memOk h op o _ fun x hx => State.memOk_of_mem (x.doFill_mem op o _) hx
          · exact h
        · exact State.landNow_memOk h op o

theorem State.touchEnd_memOk {s : State} (h : s.memOk) (seq : Nat) (o : Op) (va pr : Nat) (ok : Bool) :
    (s.touchEnd seq o va pr ok).memOk := by
  grind [State.touchEnd, State.finishOp_mem, State.faultOp_memOk, State.updThread_mem, State.foldl_memOk, State.memOk]

theorem execTouchComplete_memOk {s : State} (h : s.memOk) (op : Nat) : (execTouchComplete op s).memOk := by
  unfold execTouchComplete
  split
  · exact h
  next o _ =>
    split
    next va ctx pr ans _ => cases ans <;> grind [State.touchEnd_memOk, State.hwResidency_memOk, State.memOk, Out.memOk]
    next => exact h

end Sys2Proof.Machine
end

section
/-! Memory and its canonical form: every instruction and event. -/

set_option Elab.async false
namespace Sys2Proof.Machine

theorem exec_memOk {s : State} (h : s.memOk) (i : Instr) : Out.memOk (exec i s) := by
  cases i with
  | c16Mov | c16Addi | c16Shli | c16Shri | c16Sari | i32AbsS64 | i32Neg | i32Not | i32Shli | i32Shri | i32Sari | i32Popc | i32Clz | i32Ctz
  | i32Brev | i32Addi | i32FgetexpD | i32FgetexpF | i32Mov | i32FcvtDF | i32FcvtFD | i32I2fDS64 | i32I2fDN64 | i32F2iS64D | i32F2iN64D | i64Abs
  | i64Neg | i64Not | i64Popc | i64Clz | i64Ctz | i64Brev | i64Shli | i64Shri | i64Sari | i64Addi | bfx | movk | i64Fcvt | i64I2f
  | i64F2i => exact State.rr_memOk h _ _ _ _ _
  | c16Movi | pand | por | pxor | pnot | p2v | v2p | i32Movi | mad | sel | movl | ffma | swr => exact State.fixedOp_memOk h _ _ _ _ _
  | c16Add | c16Sub | c16And | c16Or | c16Xor | i32Add | i32Sub | i32Mul | i32MulhS64 | i32MulhN64 | i32MinS64 | i32MinN64 | i32MaxS64 | i32MaxN64
  | i32And | i32Andn | i32Or | i32Xor | i32Shl | i32Shr | i32Sar | i32Rot | i64Add | i64Sub | i64Mul | i64MulhS | i64MulhN | i64MinS | i64MinN
  | i64MaxS | i64MaxN | i64And | i64Andn | i64Or | i64Xor | i64Shl | i64Shr | i64Sar | i64Rot | lea | bfi
  | fscale => exact State.rrr_memOk h _ _ _ _ _ _
  | c16FaddD | c16FsubD | c16FmulD | i32FaddD | i32FsubD | i32FmulD | i32FaddF | i32FsubF | i32FmulF | i64Fadd | i64Fsub
  | i64Fmul => exact State.frrr_memOk h _ _ _ _ _ _
  | c16FminD | c16FmaxD | i32FminD | i32FmaxD | i32FminF | i32FmaxF | i64Fmin | i64Fmax => exact State.fmm_memOk h _ _ _ _ _ _
  | i32FabsD | i32FnegD | i32FabsF | i32FnegF | i32FclassD | i32FgetmanD | i32FclassF | i32FgetmanF | frnd => exact State.frr_memOk h _ _ _ _ _ _
  | i32SetpEq | i32SetpNe | i32SetpLtS64 | i32SetpLeS64 | i32SetpLtN64 | i32SetpLeN64 | i32FsetpEqD | i32FsetpNeD | i32FsetpLtD | i32FsetpLeD
  | i32FsetpUnD | i32FsetpEqF | i32FsetpNeF | i32FsetpLtF | i32FsetpLeF | i32FsetpUnF | i64Setp | i64Fsetp => exact State.prr_memOk h _ _ _ _ _ _
  | div | rem => exact State.resultOp_memOk h _ _ _ _ _
  | fdiv | fsqrt | frcp | frsq | fexp2 | flog2 | fsin | fcos => exact State.fvar_memOk h _ _ _ _ _ _ _ _
  | ldB8 | ldB16 | ldB32 | ldB64 | ldS8 | ldS16 | ldS32 => exact State.execLoad_memOk h _ _ _ _ _ _ _ _
  | stB8 | stB16 | stB32 | stB64 => exact State.execStore_memOk h _ _ _ _ _ _
  | ldsB8 | ldsB16 | ldsB32 | ldsB64 | ldsS8 | ldsS16 | ldsS32 => exact State.execLds_memOk h _ _ _ _ _ _
  | stsB8 | stsB16 | stsB32 | stsB64 => exact State.execSts_memOk h _ _ _ _ _
  | ldw | ldc | stf | stx | purge | feq => exact State.execFe_memOk h _ _ _ _ _ _ _ _ _ _ _ _ _ _ _
  | atom | red | cas => exact State.execAtomic_memOk h _ _ _ _ _ _ _ _ _ _
  | bara | barw | bars | bare | bart => exact State.barOp_memOk h _ _ _ _ _ _ _ _
  | cpy | cpyx | cpym | publish | coll | halo => exact State.command_memOk h _ _ _ _ _ _ _ _ _ _ _
  | mma | mmag | mmaq => exact State.execMatrix_memOk h _ _ _ _ _ _ _ _
  | trace | tracek | march | hitattr => exact State.traverse_memOk h _ _ _ _ _ _ _ _
  | frCmdIgnored => exact State.memOk_of_mem (State.frIgnore_mem _ _) h
  | wpHitWrite => exact State.memOk_of_mem (State.writeReg_mem _ _ _) h
  | downgradeProbe | invalidateProbe => exact State.memOk_of_mem (State.probeArrives_mem _ _ _) h
  | scratchRefill => exact State.memOk_of_mem (State.refillPage_mem _ _ _) h
  | fpack => exact execFpack_memOk h _ _ _ _ _ _ _
  | funpack => exact execFunpack_memOk h _ _ _ _ _ _ _
  | ldv => exact execLdv_memOk h _ _ _ _ _ _
  | touch => exact execTouch_memOk h _ _ _ _
  | pref => exact execPref_memOk h _ _ _ _ _
  | cctl => exact execCctl_memOk h _ _ _ _
  | atoms => exact execAtoms_memOk h _ _ _ _ _ _ _ _
  | vretire => exact execVretire_memOk h _ _ _
  | fence => exact execFence_memOk h _ _ _
  | bra => exact execBra_memOk h _ _
  | jmp => exact execJmp_memOk h _ _
  | call => exact execCall_memOk h _ _
  | callr => exact execCallr_memOk h _ _
  | callt => exact execCallt_memOk h _ _ _ _ _
  | ret => exact execRet_memOk h _
  | exit => exact execExit_memOk h _
  | nop => exact execNop_memOk h _
  | wait => exact execWait_memOk h _ _ _
  | yield => exact execYield_memOk h _
  | shfl => exact execShfl_memOk h _ _ _ _ _ _
  | vote => exact execVote_memOk h _ _
  | redb => exact execRedb_memOk h _ _ _ _ _
  | launch => exact execLaunch_memOk h _ _ _ _
  | signal => exact execSignal_memOk h _ _ _ _ _
  | idemend => exact execIdemend_memOk h _
  | eqry => exact execEqry_memOk h _ _ _
  | accz => exact execAccz_memOk h _ _ _
  | accrd => exact execAccrd_memOk h _ _ _ _
  | accwr => exact execAccwr_memOk h _ _ _ _
  | permt => exact execPermt_memOk h _ _ _
  | graft => exact execGraft_memOk h _ _ _
  | frameout => exact execFrameout_memOk h _ _ _ _
  | srd => exact execSrd_memOk h _ _ _
  | trap => exact execTrap_memOk h _ _
  | rft => exact execRft_memOk h _ _
  | bkpt => exact execBkpt_memOk h _
  | classVResultLands => exact execClassVResultLands_memOk h _
  | storePerformed => exact execStorePerformed_memOk h _
  | returnStackSpill => exact execReturnStackSpill_memOk h _
  | returnStackFill => exact execReturnStackFill_memOk h _
  | waitExpiry => exact execWaitExpiry_memOk h _
  | yieldExpiry => exact execYieldExpiry_memOk h _
  | touchComplete => exact execTouchComplete_memOk h _
  | threadRetire => exact execThreadRetire_memOk h _
  | blockTableEntryGrant => exact execBlockTableEntryGrant_memOk h _ _
  | waiterRecord => exact execWaiterRecord_memOk h _
  | wake => exact execWake_memOk h _
  | formRetry => exact execFormRetry_memOk h _
  | waiterNotice => exact execWaiterNotice_memOk h _ _
  | engineCredit => exact execEngineCredit_memOk h _
  | abortDelivery => exact execAbortDelivery_memOk h _
  | queueTake => exact execQueueTake_memOk h _ _
  | placementAttempt => exact execPlacementAttempt_memOk h _ _
  | coreQueueStart => exact execCoreQueueStart_memOk h _
  | balanceInterval => exact execBalanceInterval_memOk h _
  | nodeBatchDispatch => exact execNodeBatchDispatch_memOk h _ _
  | nodeBatchTimeout => exact execNodeBatchTimeout_memOk h _ _
  | nodeEndMark => exact execNodeEndMark_memOk h _ _
  | launchCompletion => exact execLaunchCompletion_memOk h _
  | qeCoreCtxWrite => exact execQeCoreCtxWrite_memOk h _ _ _
  | coreOwnerChange => exact execCoreOwnerChange_memOk h _
  | xlInvCmd => exact execXlInvCmd_memOk h _ _
  | xlInvalidationDone => exact execXlInvalidationDone_memOk h _
  | frCmdRetry => exact execFrCmdRetry_memOk h _ _ _
  | frCmdSkip => exact execFrCmdSkip_memOk h _ _ _
  | frCmdKill => exact execFrCmdKill_memOk h _ _ _
  | frPend => exact execFrPend_memOk h _
  | peCmdPreempt => exact execPeCmdPreempt_memOk h _
  | peCmdKill => exact execPeCmdKill_memOk h _
  | peCmdPin => exact execPeCmdPin_memOk h _
  | peCmdRestore => exact execPeCmdRestore_memOk h _
  | peDrainDone => exact execPeDrainDone_memOk h
  | peDrainTimeout => exact execPeDrainTimeout_memOk h
  | peSaveDone => exact execPeSaveDone_memOk h
  | ckCmdSave => exact execCkCmdSave_memOk h
  | ckExchangeDone => exact execCkExchangeDone_memOk h
  | ckCmdRestore => exact execCkCmdRestore_memOk h
  | dbgCmdStop => exact execDbgCmdStop_memOk h _ _
  | dbgCmdResume => exact execDbgCmdResume_memOk h _ _
  | sampleTag => exact execSampleTag_memOk h _ _
  | sampleRecord => exact execSampleRecord_memOk h _ _
  | svCmdGrant => exact execSvCmdGrant_memOk h
  | svCmdRefuse => exact execSvCmdRefuse_memOk h
  | svCmdGiveFrame => exact execSvCmdGiveFrame_memOk h
  | svCmdIgnored => exact execSvCmdIgnored_memOk h
  | svPend => exact execSvPend_memOk h
  | tpCmdRelease => exact execTpCmdRelease_memOk h
  | tpCmdMigrate => exact execTpCmdMigrate_memOk h
  | tpCmdIgnored => exact execTpCmdIgnored_memOk h
  | migrationPassEnd => exact execMigrationPassEnd_memOk h
  | freezeCopyEnd => exact execFreezeCopyEnd_memOk h
  | foCtlWrite => exact execFoCtlWrite_memOk h _ _
  | frameEncoded => exact execFrameEncoded_memOk h _
  | ebudRefill => exact execEbudRefill_memOk h
  | thermalTrip => exact execThermalTrip_memOk h
  | registerWrite => exact execRegisterWrite_memOk h _ _
  | peerDown => exact execPeerDown_memOk h _
  | peerRead peer off size => exact execPeerRead_memOk h peer off size
  | peerWrite peer off bytes => exact execPeerWrite_memOk h peer off bytes
  | leaseHoldExpiry => exact execLeaseHoldExpiry_memOk h _
  | peerResend => exact execPeerResend_memOk h _
  | engineResend => exact execEngineResend_memOk h _
  | ptpRefresh => exact execPtpRefresh_memOk h _
  | fillAliasWrite => exact execFillAliasWrite_memOk h _ _
  | hdmAccess => exact execHdmAccess_memOk h _ _
  | hostSnoop => exact execHostSnoop_memOk h _ _
  | taprootRd => exact execTaprootRd_memOk h _ _
  | taprootRdx => exact execTaprootRdx_memOk h _ _
  | taprootUp => exact execTaprootUp_memOk h _ _
  | taprootEv => exact execTaprootEv_memOk h _ _ _
  | probeAck => exact execProbeAck_memOk h _
  | evictionNotice => exact execEvictionNotice_memOk h _ _
  | l1ReadMiss => exact execL1ReadMiss_memOk h _ _
  | l1WriteUpgrade => exact execL1WriteUpgrade_memOk h _ _
  | reclassifyComplete => exact execReclassifyComplete_memOk h _
  | remoteWriteApply => exact execRemoteWriteApply_memOk h _ _
  | cowCopyDone => exact execCowCopyDone_memOk h _
  | cowCopyError => exact execCowCopyError_memOk h _
  | cowReserveRetry => exact execCowReserveRetry_memOk h _
  | publishBroadcast => exact execPublishBroadcast_memOk h _
  | publishComplete => exact execPublishComplete_memOk h _
  | vretireComplete => exact execVretireComplete_memOk h _
  | sweep => exact execSweep_memOk h _
  | engineAccept => exact execEngineAccept_memOk h _
  | engineCommandStart => exact execEngineCommandStart_memOk h _
  | engineCommandComplete => exact execEngineCommandComplete_memOk h _
  | matrixAccept => exact execMatrixAccept_memOk h _
  | shareStart => exact execShareStart_memOk h _
  | matrixStep => exact execMatrixStep_memOk h _
  | shareReady => exact execShareReady_memOk h _ _
  | shareAbort => exact execShareAbort_memOk h _ _
  | commitNotice => exact execCommitNotice_memOk h _ _
  | abortNotice => exact execAbortNotice_memOk h _ _
  | keyLoad => exact execKeyLoad_memOk h _
  | zeroise => exact execZeroise_memOk h
  | firmwareImage => exact execFirmwareImage_memOk h _
  | nonceRequest => exact execNonceRequest_memOk h
  | debugUnlock => exact execDebugUnlock_memOk h _
  | spdmMeasurements => exact execSpdmMeasurements_memOk h
  | coldStart => exact execColdStart_memOk h
  | warmStart => exact execWarmStart_memOk h
  | heartbeat => exact execHeartbeat_memOk h _
  | portUp => exact execPortUp_memOk h _
  | portDown => exact execPortDown_memOk h _

end Sys2Proof.Machine
end

section
/-! Memory and its canonical form: a gang's turn. -/

set_option Elab.async false
namespace Sys2Proof.Machine

@[simp] theorem State.turnDone_mem (s : State) (g : List Nat) :
    (s.turnDone g).mem = s.mem := by
  unfold State.turnDone
  grind [State.updThread_mem, State.updCore_mem, State.foldl_mem]

@[simp] theorem State.afterIssue_mem (before s : State) : (before.afterIssue s).mem = s.mem := by
  simp [State.afterIssue]

@[simp] theorem State.tagAccepted_mem (s before : State) : (s.tagAccepted before).mem = s.mem := by
  unfold State.tagAccepted
  exact State.foldl_mem (by grind [State.tagIssue_mem]) _

@[simp] theorem State.moved_mem (s : State)  :
    s.moved.mem = s.mem := by
  grind [State.moved, State.holdOps_mem, State.ageAll_mem, State.settle_mem]

end Sys2Proof.Machine
end

section
/-! Memory's canonical form: the moves, and the step. -/

set_option Elab.async false
namespace Sys2Proof.Machine

/-! ## Every event of a unit is an arm of exec -/

/-- Each event of the list is what exec does with some constructor. -/
def AllExec (l : List Event) : Prop := ∀ e ∈ l, ∃ i, e = exec i

theorem AllExec.nil : AllExec [] := fun _ h => nomatch h

theorem AllExec.cons (i : Instr) {l : List Event} (h : AllExec l) : AllExec (exec i :: l) := List.forall_mem_cons.mpr ⟨⟨i, rfl⟩, h⟩

theorem AllExec.append {l m : List Event} (h : AllExec l) (g : AllExec m) : AllExec (l ++ m) := List.forall_mem_append.mpr ⟨h, g⟩

theorem AllExec.ite {c : Prop} [Decidable c] {l m : List Event} (h : AllExec l) (g : AllExec m) : AllExec (if c then l else m) := by
  split
  · exact h
  · exact g

theorem AllExec.flatMap {α : Type} {l : List α} {f : α → List Event} (h : ∀ a, AllExec (f a)) : AllExec (l.flatMap f) := fun e he =>
  have ⟨a, _, ha⟩ := List.mem_flatMap.mp he
  h a e ha

theorem AllExec.map {α : Type} {l : List α} {f : α → Event} (h : ∀ a, ∃ i, f a = exec i) : AllExec (l.map f) := fun _ he =>
  have ⟨a, _, ha⟩ := List.mem_map.mp he
  ha ▸ h a

theorem AllExec.filterMap {α : Type} {l : List α} {f : α → Option Event} (h : ∀ a e, f a = some e → ∃ i, e = exec i) :
    AllExec (l.filterMap f) := fun e he =>
  have ⟨a, _, ha⟩ := List.mem_filterMap.mp he
  h a e ha

theorem sectorEvents_exec (core sec : Nat) : AllExec (sectorEvents core sec) :=
  .cons (.l1ReadMiss _ _) (.cons (.l1WriteUpgrade _ _) (.cons (.taprootRd _ _) (.cons (.taprootRdx _ _) (.cons (.taprootUp _ _) .nil))))

theorem State.threadEvents_exec (s : State) : AllExec s.threadEvents := by
  refine .flatMap fun e => .append ?_ ?_
  · cases e.2.status with
    | wait => exact .cons (.waitExpiry _) .nil
    | yield => exact .cons (.yieldExpiry _) .nil
    | exited => exact .cons (.threadRetire _) .nil
    | form => exact .cons (.waiterRecord _) (.cons (.formRetry _) .nil)
    | held => exact .cons (.engineAccept _) (.cons (.matrixAccept _) .nil)
    | run => exact .map fun _ => ⟨.reclassifyComplete _, rfl⟩
    | fault => exact .nil
    | sync => exact .nil
  · cases e.2.tabled with
    | waits => exact .cons (.blockTableEntryGrant _ _) .nil
    | out => exact .nil
    | held => exact .nil

theorem State.accessEvents_exec (s : State) (core : Nat) (a : Access) : AllExec (s.accessEvents core a) := .ite (sectorEvents_exec _ _) .nil

theorem State.opLandings_exec (s : State) : AllExec s.opLandings := by
  refine .flatMap fun e => ?_
  split
  · exact .cons (.storePerformed _) .nil
  · exact .cons (.storePerformed _) .nil
  · exact .cons (.returnStackSpill _) .nil
  · exact .cons (.returnStackFill _) .nil
  · exact .cons (.touchComplete _) .nil
  · exact .cons (.vretireComplete _) .nil
  · exact .cons (.classVResultLands _) (.cons (.waiterRecord _) (.cons (.formRetry _) .nil))
  · exact .nil
  · exact .cons (.classVResultLands _) .nil

theorem State.opWaits_exec (s : State) : AllExec s.opWaits := by
  refine .flatMap fun _ => .append (.append (.flatMap fun x => .cons (.peerResend _) (.cons (.cowReserveRetry _) (.cons
      (.reclassifyComplete _) .nil)))
    ?_) ?_
  · split
    · exact .cons (.reclassifyComplete _) .nil
    · exact .nil
  · split
    · exact .map fun _ => ⟨.scratchRefill _ _, rfl⟩
    · exact .nil

theorem State.opEvents_exec (s : State) : AllExec s.opEvents :=
  .append (.append s.opLandings_exec s.opWaits_exec) (.flatMap fun _ => .flatMap fun _ => s.accessEvents_exec _ _)

theorem State.workEvents_exec (s : State) : AllExec s.workEvents :=
  .append
    (.append (.flatMap fun _ => .flatMap fun _ => .cons (.queueTake _ _) (.cons (.nodeBatchDispatch _ _) (.cons (.nodeBatchTimeout _ _)
      (.cons (.nodeEndMark _ _) .nil))))
      (.flatMap fun _ => .append (.ite (.cons (.placementAttempt _ _) .nil) .nil) (.ite (.cons (.launchCompletion _) .nil) .nil)))
    (.flatMap fun _ => .append (.append (.ite .nil (.cons (.coreQueueStart _) .nil)) (.ite (.cons (.coreOwnerChange _) .nil) .nil))
      (.ite .nil (.cons (.shareStart _) (.cons (.matrixStep _) .nil))))

theorem State.sampleEvents_exec (s : State) : AllExec s.sampleEvents :=
  .flatMap fun _ => .append (.map fun _ => ⟨.sampleTag _ _, rfl⟩) (.map fun _ => ⟨.sampleRecord _ _, rfl⟩)

theorem State.unitEvents_exec (s : State) : AllExec s.unitEvents :=
  .append (.append (.append (.append (.append (.append
    (.flatMap fun _ => .cons (.engineCredit _) (.cons (.abortDelivery _) .nil))
    (.map fun _ => ⟨.wake _, rfl⟩))
    (.flatMap fun _ => .cons (.engineCommandStart _) (.cons (.engineResend _) (.cons (.publishBroadcast _) (.cons (.publishComplete _)
      (.cons (.engineCommandComplete _) .nil))))))
    (.flatMap fun _ => .flatMap fun _ => .cons (.shareReady _ _) (.cons (.shareAbort _ _) (.cons (.commitNotice _ _)
      (.cons (.abortNotice _ _) .nil)))))
    (.flatMap fun _ => .cons (.cowCopyDone _) (.cons (.cowCopyError _) .nil)))
    (.map fun _ => ⟨.sweep _, rfl⟩))
    (.flatMap fun _ => .map fun _ => ⟨.remoteWriteApply _ _, rfl⟩)

theorem State.probeEvents_exec (s : State) : 
    AllExec (s.probes.flatMap fun e => [execDowngradeProbe e.1, execInvalidateProbe e.1, execProbeAck e.1]) :=
  .flatMap fun _ => .cons (.downgradeProbe _) (.cons (.invalidateProbe _) (.cons (.probeAck _) .nil))

theorem State.coherenceEvents_exec (s : State) : AllExec s.coherenceEvents :=
  .append (.append (.append (.append
    (.flatMap fun _ => .cons (.reclassifyComplete _) (sectorEvents_exec _ _))
    s.probeEvents_exec)
    (.map fun _ => ⟨.evictionNotice _ _, rfl⟩))
    (.flatMap fun _ => .flatMap fun _ => .cons (.taprootEv _ _ _) (.cons (.taprootEv _ _ _) .nil)))
    (.map fun _ => ⟨.waiterNotice _ _, rfl⟩)

theorem State.blockEvents_exec (s : State) : AllExec s.blockEvents :=
  .append (.append (.append (.append (.append (.append (.append (.append (.append
    (.map fun _ => ⟨.xlInvalidationDone _, rfl⟩)
    (.map fun _ => ⟨.frPend _, rfl⟩))
    (.ite .nil (.cons .svPend .nil)))
    (.ite .nil (.cons .peDrainDone (.cons .peDrainTimeout (.cons .peSaveDone .nil)))))
    (.ite .nil (.cons .ckExchangeDone .nil)))
    (.ite (.cons .migrationPassEnd (.cons .freezeCopyEnd .nil)) .nil))
    (.map fun _ => ⟨.frameEncoded _, rfl⟩))
    (.ite (.cons .thermalTrip .nil) .nil))
    (.map fun _ => ⟨.leaseHoldExpiry _, rfl⟩))
    (.ite (.map fun _ => ⟨.peerDown _, rfl⟩) .nil)

theorem State.events_exec (s : State) : AllExec s.events :=
  .append (.append (.append (.append (.append (.append s.threadEvents_exec s.opEvents_exec) s.workEvents_exec) s.sampleEvents_exec) s.unitEvents_exec)
    s.coherenceEvents_exec) s.blockEvents_exec

theorem State.dueRequests_exec (s : State) : AllExec s.dueRequests :=
  .append (.flatMap fun _ => .ite (.flatMap fun _ => s.accessEvents_exec _ _) .nil)
    (.flatMap fun _ => .cons (.taprootRd _ _) (.cons (.taprootRdx _ _) (.cons (.taprootUp _ _) .nil)))

theorem State.promised_exec (s : State) : AllExec s.promised :=
  .append (.append (.append (.append (.append (.append (.append (.append (.append (.append (.append (.append (.append
    (.flatMap fun _ => .map fun _ => ⟨.remoteWriteApply _ _, rfl⟩)
    s.threadEvents_exec) s.opLandings_exec) s.unitEvents_exec) s.probeEvents_exec)
    (.map fun _ => ⟨.evictionNotice _ _, rfl⟩))
    (.map fun _ => ⟨.waiterNotice _ _, rfl⟩))
    (.map fun _ => ⟨.xlInvalidationDone _, rfl⟩))
    (.ite (.cons .migrationPassEnd (.cons .freezeCopyEnd .nil)) .nil))
    (.map fun _ => ⟨.leaseHoldExpiry _, rfl⟩))
    (.ite .nil (.cons .ckExchangeDone .nil)))
    s.workEvents_exec) s.opWaits_exec) s.dueRequests_exec

theorem State.promisedNow_exec (s : State) : AllExec s.promisedNow := .ite .nil (.ite s.promised_exec .nil)

theorem State.urgent_exec (s : State) : AllExec s.urgent := by
  refine .append (.append (.append (.append (.append (.append (.append (.append ?_ ?_) (.ite (.cons (.balanceInterval _) (.cons (.balanceInterval _)
    (.cons (.balanceInterval _) (.cons (.balanceInterval _) .nil)))) .nil)) (.ite (.cons .ebudRefill .nil) .nil))
    (.ite (.cons .thermalTrip .nil) .nil))
        (.flatMap fun _ => .map fun _ => ⟨.sampleTag _ _, rfl⟩)) ?_) ?_) s.promisedNow_exec <;> refine .filterMap fun a e he => ?_
  · split at he <;> cases he
    · exact ⟨.waitExpiry _, rfl⟩
    · exact ⟨.yieldExpiry _, rfl⟩
  · split at he <;> cases he
    exact ⟨.blockTableEntryGrant _ _, rfl⟩
  · split at he
    · split at he <;> cases he
      exact ⟨.classVResultLands _, rfl⟩
    · cases he
  · split at he
    · split at he <;> cases he
      exact ⟨.touchComplete _, rfl⟩
    · cases he

theorem State.inputMove_ne_event (s : State) (busy : Bool) (run : Event) : Move.event run ∉ s.inputMove busy := by
  unfold State.inputMove
  split
  · simp
  · split <;> simp

theorem State.moves_event_exec {s : State} {run : Event} (h : Move.event run ∈ s.moves) : ∃ i, run = exec i := by
  unfold State.moves at h
  split at h
  · simp [State.inputMove_ne_event] at h
  · split at h
    next e he =>
      obtain rfl : run = e := by simpa using h
      exact s.urgent_exec run (List.mem_of_find?_eq_some he)
    next =>
      extract_lets gs es at h
      have hes : run ∈ es := by
        simp only [List.mem_append, List.mem_map, reduceCtorEq, and_false, exists_false, State.inputMove_ne_event, or_false, false_or] at h
        obtain h | h := h
        · split at h
          · cases h
          · simpa using h
        · split at h <;> simp at h
      exact s.events_exec run (List.mem_of_mem_filter hes)

theorem State.nextMove_mem_moves (s : State) : s.nextMove = .tick ∨ s.nextMove ∈ s.moves := by
  unfold State.nextMove
  split
  next h => exact .inl rfl
  next m h => rw [h]; exact .inr (List.mem_singleton_self m)
  next m t _ h =>
    rw [h]
    have hlt : s.pick 0 % (t.length + 1) < (m :: t).length := Nat.mod_lt _ t.length.succ_pos
    rw [List.getD_eq_getElem _ _ hlt]
    exact .inr (List.getElem_mem hlt)

/-- An event that is the next move is what exec does with some constructor. -/
theorem State.nextMove_event_exec {s : State} {run : Event} (e : s.nextMove = .event run) : ∃ i, run = exec i := by
  obtain h | h := s.nextMove_mem_moves <;> rw [e] at h
  · cases h
  · exact State.moves_event_exec h

/-! ## A step -/

theorem State.issueGang_memOk {s : State} (h : s.memOk) (g : List Nat) : Out.memOk (s.issueGang g) := by
  cases g with
  | nil => exact h
  | cons k g =>
    have hat : ∀ w, State.memOk { (s.front k).2 with gang := k :: g, inst := w } := fun _ => State.front_memOk h k
    have hall : ∀ w xs, (State.raiseAll { (s.front k).2 with gang := k :: g, inst := w } xs).memOk := fun w _ => State.raiseAll_memOk (hat w) _
    simp only [State.issueGang]
    split
    · exact State.memOk_of_mem (State.turnDone_mem _ _) (State.raiseDue_memOk h _)
    · exact State.memOk_of_mem (State.afterIssue_mem _ _) (hall _ _)
    · exact State.memOk_of_mem (State.afterIssue_mem _ _) (hall _ _)
    next w i _ =>
      have he := exec_memOk (hat w) i
      split
      next t e => rw [e] at he; exact State.memOk_of_mem (State.afterIssue_mem _ _) he
      · trivial
      · trivial

theorem State.takeInput_memOk {s : State} (h : s.memOk) (e : Instr) : Out.memOk (s.takeInput e) := by
  unfold State.takeInput
  extract_lets s1
  have he := exec_memOk (s := s1) h e
  split
  · split
    next t ht =>
      rw [ht] at he
      show State.memOk (if endsClk e then t.tick else t)
      split
      · exact State.tick_memOk he
      · exact he
    · trivial
    · trivial
  · exact h

/-- One move keeps memory's canonical form when an event that it runs is what exec does with some constructor. -/
theorem State.act_memOk {s : State} (h : s.memOk) {m : Move} (hm : ∀ run, m = .event run → ∃ i, run = exec i) : Out.memOk (s.act m) := by
  unfold State.act
  extract_lets r
  have hr : Out.memOk r := by
    unfold r
    split
    · exact State.issueGang_memOk h _
    next run =>
      obtain ⟨i, rfl⟩ := hm run rfl
      have he := exec_memOk h i
      split
      next t e => rw [e] at he; exact State.memOk_of_mem (t.tagAccepted_mem s) he
      · exact he
    · exact State.takeInput_memOk h _
    · exact State.tick_memOk h
  clear_value r
  cases r with
  | next t => exact State.memOk_of_mem t.moved_mem hr
  | fault _ => trivial
  | refused _ => trivial

/-- Settles O32: whichever move is next, what it does is made of operations that each keep memory's canonical form. -/
theorem memoryInvariant : Obligations.MemoryInvariant := by
  intro s t hs e
  have h := State.act_memOk hs (m := s.nextMove) fun run => State.nextMove_event_exec
  rw [show s.act s.nextMove = .next t from e] at h
  exact h

end Sys2Proof.Machine
end

section
/-! THE REGISTERS (O50). What reads of BAR0 give after a write, and which operations leave the registers alone. -/

set_option Elab.async false
namespace Sys2Proof.Machine

theorem State.reg_setReg (s : State) (off o : Nat) (v : Word) : (s.setReg off v).reg o = if o = off then v else s.reg o := by
  unfold State.setReg State.reg
  by_cases hv : v = (regSpec off).reset
  · by_cases ho : o = off <;> simp [hv, ho, Tbl.find_del]
  · by_cases ho : o = off <;> simp [hv, ho, Tbl.find_put]

@[simp] theorem State.reg_setReg_same (s : State) (off : Nat) (v : Word) : (s.setReg off v).reg off = v := by simp [State.reg_setReg]

theorem State.reg_setReg_other (s : State) {off o : Nat} (v : Word) (h : o ≠ off) : (s.setReg off v).reg o = s.reg o := by simp [State.reg_setReg, h]

theorem State.reg_of_mmio {s t : State} (h : t.mmio = s.mmio) (o : Nat) : t.reg o = s.reg o := by simp [State.reg, h]

/-- What stands outside memory, its copies and the waiters: the registers, the residency requests, and whether a page moves. -/
def State.units (s : State) : Tbl Word × List ResReq × Bool := (s.mmio, s.resReqs, s.migration.isNone)

theorem State.foldl_units {β : Type} {s : State} {f : State → β → State} (hf : ∀ x b, (f x b).units = x.units) (l : List β) :
    (l.foldl f s).units = s.units := by
  induction l generalizing s with
  | nil => rfl
  | cons b l ih => exact (ih (s := f s b)).trans (hf s b)

theorem State.foldl_fst_units {α β : Type} {p : State × α} {f : State × α → β → State × α} (hf : ∀ x b, (f x b).1.units = x.1.units) (l : List β) :
    (l.foldl f p).1.units = p.1.units := by
  induction l generalizing p with
  | nil => rfl
  | cons b l ih => exact (ih (p := f p b)).trans (hf p b)

section
variable {s t : State} (h : t.units = s.units)
include h

theorem State.mmio_of_units : t.mmio = s.mmio := congrArg (·.1) h
theorem State.resReqs_of_units : t.resReqs = s.resReqs := congrArg (·.2.1) h
theorem State.noMigration_of_units : t.migration.isNone = s.migration.isNone := congrArg (·.2.2) h
theorem State.reg_of_units (o : Nat) : t.reg o = s.reg o := State.reg_of_mmio (State.mmio_of_units h) o

end

/-! ## Writes of memory -/

@[simp] theorem State.rekeySector_units (g : Nat) (s : State) (sec : Nat) : (State.rekeySector g s sec).units = s.units := by
  grind [State.rekeySector, State.units]

@[simp] theorem State.rekey_units (s : State) (g pa n : Nat) : (s.rekey g pa n).units = s.units :=
  State.foldl_units (fun x b => State.rekeySector_units g x b) _

@[simp] theorem State.ownSector_units (s : State) (core die : Option Nat) (pa : Nat) : (s.ownSector core die pa).units = s.units := rfl

@[simp] theorem State.setFull_units (s : State) (pa : Nat) (b : Bool) : (s.setFull pa b).units = s.units := by
  grind [State.setFull, State.units]

@[simp] theorem State.writeBits_units (s : State) (w : Writer) (key pa : Nat) (bs : List Byte) (fes : List (Nat × Bool)) :
    (s.writeBits w key pa bs fes).units = s.units := by
  unfold State.writeBits
  extract_lets s1 old e away secs on s2 s3
  have h1 : s1.units = s.units := State.rekey_units _ _ _ _
  have h2 : s2.units = s1.units := State.foldl_units (fun x _ => State.ownSector_units x _ _ _) _
  have h3 : s3.units = s1.units := by
    obtain ⟨e1, e2, -⟩ : _ ∧ _ ∧ _ := by simpa [State.units] using h2
    simp [s3, State.units, e1, e2]
  exact (State.foldl_units (f := fun x f => x.setFull f.1 f.2) (fun x f => x.setFull_units f.1 f.2) fes).trans (h3.trans h1)

@[simp] theorem State.writePa_units (s : State) (w : Writer) (key pa : Nat) (bs : List Byte) (fe : Option Bool) :
    (s.writePa w key pa bs fe).units = s.units := State.writeBits_units _ _ _ _ _ _

@[simp] theorem State.classAgentWrite_units (s : State) (pa : Nat) : (s.classAgentWrite pa).units = s.units := by
  grind [State.classAgentWrite, State.dropCopies, State.units]

@[simp] theorem State.hwWriteBy_units (s : State) (past : List Nat) (pa : Nat) (v : Word) : (s.hwWriteBy past pa v).units = s.units := by
  simp [State.hwWriteBy]

@[simp] theorem State.hwWriteLeaf_units (s : State) (pa : Nat) (v : Word) : (s.hwWriteLeaf pa v).units = s.units := State.writePa_units _ _ _ _ _ _

@[simp] theorem State.hwWrite_units (s : State) (pa : Nat) (v : Word) : (s.hwWrite pa v).units = s.units := State.hwWriteBy_units _ _ _ _

@[simp] theorem State.setResCount_units (s : State) (reg n : Nat) : (s.setResCount reg n).units = s.units := State.hwWrite_units _ _ _

@[simp] theorem State.hwRelease_units (s : State) (past : List Nat) (pa : Nat) (ws : List Word) : (s.hwRelease past pa ws).units = s.units := by
  induction ws generalizing s past pa with
  | nil => rfl
  | cons v vs ih => simp [State.hwRelease, ih]

@[simp] theorem State.wakeWord_units (s : State) (core : Option Nat) (pa : Nat) (b : Bool) : (s.wakeWord core pa b).units = s.units := by
  grind [State.wakeWord, State.units]

@[simp] theorem State.writeWords_units (s : State) (w : Writer) (key pa : Nat) (bs : List Byte) (ws : List Nat) (b : Bool) :
    (s.writeWords w key pa bs ws b).units = s.units :=
  (State.foldl_units (fun x a => State.wakeWord_units x _ a b) _).trans (State.writeBits_units _ _ _ _ _ _)

@[simp] theorem State.agentPutAs_units (s : State) (who : Option Nat) (w : Writer) (key pa : Nat) (bs : List Byte) (fill : Option Bool) :
    (s.agentPutAs who w key pa bs fill).units = s.units := by
  have h0 : (s.dropPeerCopy pa).units = s.units := by unfold State.dropPeerCopy; split <;> rfl
  unfold State.agentPutAs
  extract_lets s0
  split
  · split <;> simp [State.writeWordFe, s0, h0]
  · grind [State.queueOn, State.holdWrite, State.units]

@[simp] theorem State.agentPut_units (s : State) (w : Writer) (key pa : Nat) (bs : List Byte) (fill : Option Bool) :
    (s.agentPut w key pa bs fill).units = s.units := by
  simp [State.agentPut]

@[simp] theorem State.performHeld_units (s : State) (l : List HeldWr) : (s.performHeld l).units = s.units := by
  induction l generalizing s with
  | nil => rfl
  | cons h t ih => simp [State.performHeld, ih]

@[simp] theorem State.drainHeld_units (s : State) : s.drainHeld.units = s.units := State.performHeld_units _ _

@[simp] theorem State.foPut_units (s : State) (st n : Nat) (past : List Nat) (bs : List Byte) : (s.foPut st n past bs).units = s.units := by
  induction bs generalizing s n past with
  | nil => rfl
  | cons b t ih => simp [State.foPut, ih]

/-! ## The switch of a page -/

@[simp] theorem State.copyRange_units (s : State) (g src dst len : Nat) : (s.copyRange g src dst len).units = s.units := rfl

@[simp] theorem State.moveData_units (s : State) (key src dst : Nat) : (s.moveData key src dst).units = s.units := by
  unfold State.moveData
  split <;> rfl

@[simp] theorem State.release_units (s : State) (word ident : Nat) : (s.release word ident).units = s.units := by
  grind [State.release, State.updThread, State.units]

@[simp] theorem State.parkWrite_units (s : State) (past : List Nat) (a : Access) (ws : List Word) (j : Nat) : (s.parkWrite past a ws j).units = s.units := by
  induction ws generalizing s j with
  | nil => rfl
  | cons v vs ih =>
    have hn : (s.ncOut a).units = s.units := by grind [State.ncOut, State.l1Out, State.units]
    simp [State.parkWrite, ih, hn]

@[simp] theorem State.parkKeep_units (s : State) (past : List Nat) (die ctx pa : Nat) (stay : Nat → Bool) :
    (s.parkKeep past die ctx pa stay).units = s.units :=
  State.foldl_fst_units (fun x e => by dsimp only; split <;> simp) _

theorem State.holdWaiter_units {s t : State} {ctx word ident : Nat} (e : s.holdWaiter ctx word ident = some t) : t.units = s.units := by
  have hp : ∀ {x y : State} {past die pa}, x.parkAdd past die ctx pa ident = some y → y.units = x.units := by
    grind [State.parkAdd, State.parkWrite_units, Option.map_eq_some_iff]
  grind [State.holdWaiter, State.units]

@[simp] theorem State.sectorTrim_units (s : State) (sec : Nat) : (s.sectorTrim sec).units = s.units := by
  grind [State.sectorTrim, State.units]

@[simp] theorem State.dropGraft_units (s : State) (k : Nat) : (s.dropGraft k).units = s.units := by
  refine State.foldl_units (fun x e => ?_) _
  split
  · split
    · split
      · exact (State.sectorTrim_units _ _).trans (State.parkKeep_units _ _ _ _ _ _)
      · rfl
    · rfl
  · rfl

@[simp] theorem State.dropForm_units (s : State) (k : Nat) : (s.dropForm k).units = s.units := by
  unfold State.dropForm
  split
  · exact (State.sectorTrim_units _ _).trans (State.parkKeep_units _ _ _ _ _ _)
  · rfl

@[simp] theorem State.dropWaiter_units (s : State) (k : Nat) : (s.dropWaiter k).units = s.units := by
  simp [State.dropWaiter]

@[simp] theorem State.releaseFrame_units (s : State) (frame : Nat) : (s.releaseFrame frame).units = s.units :=
  State.foldl_units (fun x k => by simp) _

@[simp] theorem State.rekeyWords_units (s : State) (old new : Nat) : (s.rekeyWords old new).units = s.units := rfl

@[simp] theorem State.rekeyFrame_units (s : State) (past : List Nat) (old new : Nat) : (s.rekeyFrame past old new).units = s.units := by
  unfold State.rekeyFrame
  extract_lets ws held s1 s2 s3
  have h2 : s2.units = s.units := (State.foldl_units (fun x w => State.foldl_units (fun y c => by split <;> simp) _) _).trans rfl
  have h3 : s3.units = s.units := (State.foldl_units State.sectorTrim_units _).trans h2
  refine (State.foldl_units (fun x h => ?_) _).trans h3
  cases e : x.holdWaiter h.2.1 (movedWord old new h.1) h.2.2 with
  | none => simp
  | some y => simpa using State.holdWaiter_units e

@[simp] theorem State.unseen_units (s : State) (frame : Nat) : (s.unseen frame).units = s.units := rfl

@[simp] theorem State.dropFrame_units (s : State) (frame : Nat) : (s.dropFrame frame).units = s.units := rfl

@[simp] theorem State.dropPage_units (s : State) (ctx page : Nat) : (s.dropPage ctx page).units = s.units := rfl

@[simp] theorem State.moveSwitch_units (s : State) (past : List Nat) (src dst tag : Nat) (resident : Bool) :
    (s.moveSwitch past src dst tag resident).units = s.units := by
  unfold State.moveSwitch
  extract_lets ls key tags s1 sw s2 s3 s4 s5 cls s6 s7 line
  have h1 : s1.units = s.units := State.moveData_units _ _ _ _
  have hw : sw.units = s1.units := State.writePa_units _ _ _ _ _ _
  clear_value s1 sw
  have h2 : s2.units = s.units := by
    unfold s2
    split
    · exact h1
    · exact hw.trans h1
  clear_value s2
  have h3 : s3.units = s.units := by
    unfold s3
    split
    · split
      · simp only [State.units, State.putTags] at h2 ⊢
        exact h2
      · exact h2
    · exact h2
  clear_value s3
  have h4 : s4.units = s.units := (State.foldl_units (fun x l => by
    split
    · simp
    · split <;> simp) _).trans h3
  clear_value s4
  have h5 : s5.units = s.units := by unfold s5; split <;> simp [h4]
  clear_value s5
  have h6 : s6.units = s.units := by
    refine (State.foldl_units (fun x p => x.dropPage_units _ _) _).trans ?_
    rw [State.dropFrame_units, State.unseen_units, h5]
  clear_value s6
  have h7 : s7.units = s.units := by unfold s7; split <;> simpa only [State.units] using h6
  simp only [State.units] at h7 ⊢
  exact h7

end Sys2Proof.Machine
end

section
/-! MEMORY UNDER ONE KEY (O50). Where every sector stands under key 0, the hardware reads the bytes that it wrote. -/

set_option Elab.async false
namespace Sys2Proof.Machine

theorem Mem.readN_eq_map (m : List Host.Cell) (a n : Nat) : Mem.readN m a n = (List.range n).map fun i => Mem.read m (a + i) := by
  induction n generalizing a with
  | zero => rfl
  | succ n ih =>
    rw [Mem.readN, ih, List.range_succ_eq_map, List.map_cons, List.map_map]
    refine congrArg₂ _ rfl (List.map_congr_left fun i _ => ?_)
    exact congrArg (Mem.read m) (Nat.add_right_comm a 1 i)

theorem Mem.readN_writeN_same {m : List Host.Cell} (h : Mem.wf m = true) (a : Nat) (bs : List Byte) :
    Mem.readN (Mem.writeN m a bs) a bs.length = bs := by
  refine List.ext_getElem (Mem.readN_length _ _ _) fun i h1 h2 => ?_
  simp [Mem.readN_eq_map, Mem.read_writeN h, h2]

theorem Mem.readN_writeN_other {m : List Host.Cell} (h : Mem.wf m = true) {a b n : Nat} {bs : List Byte} (hd : b + n ≤ a ∨ a + bs.length ≤ b) :
    Mem.readN (Mem.writeN m a bs) b n = Mem.readN m b n := by
  simp only [Mem.readN_eq_map, Mem.read_writeN h]
  refine List.map_congr_left fun i hi => if_neg ?_
  have := List.mem_range.mp hi
  omega

/-- Every sector that has a key stands under key 0, the one that the hardware writes its structures under. -/
def State.underKey0 (s : State) : Prop := ∀ sec w, s.keyTags.find sec = some w → w = s.keyGen 0

theorem State.underKey0_of_nil {s : State} (h : s.keyTags = []) : s.underKey0 := fun sec w e => by simp [h] at e

theorem State.keyGen_of_keyGens {s t : State} (h : t.keyGens = s.keyGens) (k : Nat) : t.keyGen k = s.keyGen k := by simp [State.keyGen, h]

theorem State.hwRead_of_underKey0 {s : State} (h : s.underKey0) (pa : Nat) : s.hwRead pa = BitVec.ofNat 64 (ofLe (Mem.readN s.mem pa 8)) := by
  have hb : ∀ a, s.byteAt none 0 a = Mem.read s.mem a := fun a => by
    simp only [State.byteAt, State.rawAt, Option.getD_none]
    cases e : s.keyTags.find (a / 64) with
    | none => rfl
    | some w => simp [h _ _ e]
  have hbs : ∀ n a, s.bytesAt none 0 a n = Mem.readN s.mem a n := fun n => by
    induction n with
    | zero => exact fun _ => rfl
    | succ n ih => exact fun a => by rw [State.bytesAt, Mem.readN, hb, ih]
  rw [State.hwRead, State.readPa, hbs]

/-- The same keys of the same sectors, and the same bytes but for what stands at those addresses. -/
theorem State.rekeySector_of_underKey0 {s : State} (h : s.underKey0) (sec : Nat) :
    (State.rekeySector (s.keyGen 0) s sec).mem = s.mem ∧ (State.rekeySector (s.keyGen 0) s sec).keyGens = s.keyGens ∧
      (State.rekeySector (s.keyGen 0) s sec).underKey0 := by
  unfold State.rekeySector
  split
  · exact ⟨rfl, rfl, h⟩
  · split
    next e =>
      refine ⟨rfl, rfl, fun i w hw => ?_⟩
      rw [Tbl.find_put] at hw
      split at hw
      · exact (Option.some.inj hw).symm
      · exact h i w hw
    next w e => rw [if_pos (h _ _ e)]; exact ⟨rfl, rfl, h⟩

theorem State.rekey_of_underKey0 {s : State} (h : s.underKey0) (pa n : Nat) :
    (s.rekey (s.keyGen 0) pa n).mem = s.mem ∧ (s.rekey (s.keyGen 0) pa n).keyGens = s.keyGens ∧ (s.rekey (s.keyGen 0) pa n).underKey0 := by
  unfold State.rekey
  generalize hg : s.keyGen 0 = g
  generalize sectorsOf pa n = l
  induction l generalizing s with
  | nil => exact ⟨rfl, rfl, h⟩
  | cons sec l ih =>
    obtain ⟨h1, h2, h3⟩ := State.rekeySector_of_underKey0 h sec
    rw [hg] at h1 h2 h3
    obtain ⟨i1, i2, i3⟩ := ih h3 ((State.keyGen_of_keyGens h2 0).trans hg)
    exact ⟨i1.trans h1, i2.trans h2, i3⟩

theorem State.foldl_ownSector_keys (l : List Nat) (core die : Option Nat) (s : State) :
    (l.foldl (fun x sec => x.ownSector core die (64 * sec)) s).keyTags = s.keyTags ∧
      (l.foldl (fun x sec => x.ownSector core die (64 * sec)) s).keyGens = s.keyGens := by
  induction l generalizing s with
  | nil => exact ⟨rfl, rfl⟩
  | cons sec l ih => exact ih (s.ownSector core die (64 * sec))

theorem State.hwWrite_of_underKey0 {s : State} (h : s.underKey0) (pa : Nat) (v : Word) :
    (s.hwWrite pa v).mem = Mem.writeN s.mem pa (toLe 8 v.toNat) ∧ (s.hwWrite pa v).underKey0 := by
  have hc : (s.classAgentWrite pa).keyTags = s.keyTags ∧ (s.classAgentWrite pa).keyGens = s.keyGens := by
    unfold State.classAgentWrite
    split
    · split <;> exact ⟨rfl, rfl⟩
    · exact ⟨rfl, rfl⟩
  have h0 : (s.classAgentWrite pa).underKey0 := by
    intro sec w e
    rw [State.keyGen_of_keyGens hc.2]
    exact h sec w (hc.1 ▸ e)
  obtain ⟨h1, h2, h3⟩ := State.rekey_of_underKey0 h0 pa (toLe 8 v.toNat).length
  unfold State.hwWrite State.hwWriteBy State.writePa State.writeBits
  obtain ⟨k1, k2⟩ := State.foldl_ownSector_keys (sectorsOf pa (toLe 8 v.toNat).length) none none
    ((s.classAgentWrite pa).rekey ((s.classAgentWrite pa).keyGen 0) pa (toLe 8 v.toNat).length)
  refine ⟨?_, fun sec w e => ?_⟩
  · simp [h1]
  · refine (h3 sec w (k1 ▸ e)).trans ?_
    exact (State.keyGen_of_keyGens k2 0).symm

theorem State.hwRead_hwWrite_same {s : State} (h : s.underKey0) (hm : Mem.wf s.mem = true) (pa : Nat) (v : Word) : (s.hwWrite pa v).hwRead pa = v := by
  obtain ⟨h1, h2⟩ := State.hwWrite_of_underKey0 h pa v
  have hr := Mem.readN_writeN_same hm pa (toLe 8 v.toNat)
  rw [toLe_length] at hr
  rw [State.hwRead_of_underKey0 h2, h1, hr, ofLe_toLe]
  exact BitVec.eq_of_toNat_eq (by simp [Nat.mod_eq_of_lt v.isLt])

theorem State.hwRead_hwWrite_other {s : State} (h : s.underKey0) (hm : Mem.wf s.mem = true) {pa pb : Nat} (v : Word) (hd : pb + 8 ≤ pa ∨ pa + 8 ≤ pb) :
    (s.hwWrite pa v).hwRead pb = s.hwRead pb := by
  obtain ⟨h1, h2⟩ := State.hwWrite_of_underKey0 h pa v
  rw [State.hwRead_of_underKey0 h2, State.hwRead_of_underKey0 h, h1, Mem.readN_writeN_other hm (by rwa [toLe_length])]

end Sys2Proof.Machine
end

section
/-! THE SERVICE BLOCK AND TAPROOT'S COMMANDS (O50): answers, give-frame, waiting entries, release, migration and its switch. -/

set_option Elab.async false
namespace Sys2Proof.Machine

/-! ## The service block (R431) -/

/-- What an answer leaves of the requests, of the TOUCH behind its own, and of memory. -/
def State.Answered (s : State) (r : ResReq) (q : Nat) (o : Op) (s2 : State) : Prop :=
  s2.resReqs = s.resReqs.erase r ∧ s2.ops.find q = some o ∧ s2.mem = s.mem

theorem State.answer_touch {s : State} {r : ResReq} {q va ctx pr : Nat} {o : Op} (hq : r.op = some q) (ho : s.ops.find q = some o)
    (hk : o.kind = .touch va ctx pr none) (b : Bool) : s.Answered r q { o with kind := .touch va ctx pr (some b) } (s.answer r b) := by
  unfold State.answer
  rw [hq]
  refine ⟨rfl, ?_, rfl⟩
  rw [Tbl.find_upd_same, ho, Option.map_some, hk]

theorem svCmd_answers {s : State} {r : ResReq} {q va ctx pr : Nat} {o : Op} (hr : s.svMatch = some r) (hq : r.op = some q)
    (ho : s.ops.find q = some o) (hk : o.kind = .touch va ctx pr none) :
    s.Leads .svCmdRefuse (s.Answered r q { o with kind := .touch va ctx pr (some false) }) ∧
    s.Leads .svCmdGrant (s.Answered r q
      { o with kind := .touch va ctx pr (some ((s.walk (qeAgent 0) r.ctx r.va).any fun l => l.resident)) }) := by
  refine ⟨⟨s.answer r false, ?_, State.answer_touch hq ho hk _⟩, ⟨s.answer r _, ?_, State.answer_touch hq ho hk _⟩⟩
  · show execSvCmdRefuse s = _
    rw [execSvCmdRefuse, hr]
  · show execSvCmdGrant s = _
    rw [execSvCmdGrant, hr]

theorem bits_pack_count (c : Nat) {k : Nat} (h : k < 2 ^ 32) : bits (pack [(c, 32), (k, 0)]) 31 0 = k := by
  have hc : c * 2 ^ 32 % 2 ^ 64 % 2 ^ 32 = 0 := by omega
  have hk : k % 2 ^ 64 % 2 ^ 32 = k := by omega
  simp only [bits, pack, BitVec.toNat_or, BitVec.toNat_ofNat, Nat.pow_zero, Nat.mul_one, Nat.div_one, Nat.or_mod_two_pow, hc, hk]
  simp

/-- The word that a region's reserve gets at its end, and the count over it. -/
def State.given (s : State) (reg : Nat) (f : Word) : State :=
  (s.hwWrite ((s.hwRead (reg + 32)).toNat + 8 * s.resCount reg) f).setResCount reg (s.resCount reg + 1)

section
variable {s : State} {reg : Nat} (f : Word) (hk : s.keyTags = []) (hm : Mem.wf s.mem = true)
include hk hm

theorem State.given_resCount (hc : s.resCap reg < 2 ^ 32) (hn : s.resCount reg < s.resCap reg) : (s.given reg f).resCount reg = s.resCount reg + 1 := by
  have h0 := State.underKey0_of_nil hk
  obtain ⟨e1, h1⟩ := State.hwWrite_of_underKey0 h0 ((s.hwRead (reg + 32)).toNat + 8 * s.resCount reg) f
  rw [State.given, State.setResCount, State.resCount, State.hwRead_hwWrite_same h1 (e1 ▸ Mem.wf_writeN hm _ _), bits_pack_count _ (by omega)]

theorem State.given_hwRead (hd : (s.hwRead (reg + 32)).toNat + 8 * s.resCount reg + 8 ≤ reg ∨ reg + 64 ≤ (s.hwRead (reg + 32)).toNat + 8 * s.resCount reg) :
    (s.given reg f).hwRead ((s.hwRead (reg + 32)).toNat + 8 * s.resCount reg) = f := by
  have h0 := State.underKey0_of_nil hk
  obtain ⟨e1, h1⟩ := State.hwWrite_of_underKey0 h0 ((s.hwRead (reg + 32)).toNat + 8 * s.resCount reg) f
  rw [State.given, State.setResCount, State.hwRead_hwWrite_other h1 (e1 ▸ Mem.wf_writeN hm _ _) _ (by omega), State.hwRead_hwWrite_same h0 hm]

end

theorem State.given_resReqs (s : State) (reg : Nat) (f : Word) : (s.given reg f).resReqs = s.resReqs :=
  State.resReqs_of_units ((State.setResCount_units _ _ _).trans (State.hwWrite_units _ _ _))

theorem svCmdGiveFrame_exec {s : State} {r : ResReq}
    (hr : s.resReqs.find? (fun r => r.refill && r.ctx == bits (s.reg (Off.sv 0x28)) 9 0) = some r) (hn : s.resCount r.va < s.resCap r.va) :
    exec .svCmdGiveFrame s = .next { s.given r.va (BitVec.ofNat 64 (bits (s.reg (Off.sv 0x30)) 51 16 * 65536)) with
      resReqs := if s.resCount r.va + 1 < s.resCap r.va then s.resReqs else s.resReqs.filter fun x => !(x.refill && x.va == r.va) } := by
  show execSvCmdGiveFrame s = _
  simp only [execSvCmdGiveFrame, hr, if_pos hn]
  rw [← State.given_resReqs s r.va]
  rfl

theorem svCmdGiveFrame_leads {s : State} {r : ResReq}
    (hr : s.resReqs.find? (fun r => r.refill && r.ctx == bits (s.reg (Off.sv 0x28)) 9 0) = some r) (hk : s.keyTags = [])
    (hc : s.resCap r.va < 2 ^ 32) (hn : s.resCount r.va < s.resCap r.va)
    (hd : (s.hwRead (r.va + 32)).toNat + 8 * s.resCount r.va + 8 ≤ r.va ∨ r.va + 64 ≤ (s.hwRead (r.va + 32)).toNat + 8 * s.resCount r.va)
    (hm : Mem.wf s.mem = true) : s.Leads .svCmdGiveFrame fun s2 =>
      s2.resCount r.va = s.resCount r.va + 1 ∧
      s2.hwRead ((s.hwRead (r.va + 32)).toNat + 8 * s.resCount r.va) = BitVec.ofNat 64 (bits (s.reg (Off.sv 0x30)) 51 16 * 65536) ∧
      (s.resCount r.va + 1 = s.resCap r.va → ∀ x ∈ s2.resReqs, ¬(x.refill = true ∧ x.va = r.va)) ∧
      (¬s.resCount r.va + 1 = s.resCap r.va → s2.resReqs = s.resReqs) := by
  have h1 := State.given_resCount (BitVec.ofNat 64 (bits (s.reg (Off.sv 0x30)) 51 16 * 65536)) hk hm hc hn
  have h2 := State.given_hwRead (BitVec.ofNat 64 (bits (s.reg (Off.sv 0x30)) 51 16 * 65536)) hk hm hd
  refine ⟨_, svCmdGiveFrame_exec hr hn, ?_⟩
  generalize s.given r.va _ = t at h1 h2 ⊢
  refine ⟨h1, h2, fun hf x hx => ?_, fun hf => ?_⟩
  · rw [if_neg (by omega)] at hx
    have hp := (List.mem_filter.mp hx).2
    rintro ⟨h1, h2⟩
    simp [h1, h2] at hp
  · exact if_pos (by omega)

theorem State.svWrite_next {s s1 : State} {e : List Word} (h : s.svWrite e = some s1) : s1.reg (Off.sv 0x10) = s.reg (Off.sv 0x10) + 1 := by
  unfold State.svWrite at h
  extract_lets size wr at h
  split at h
  · cases h
    exact State.reg_setReg_same _ _ _
  · cases h

theorem svPend_leads {s s1 : State} {e : List Word} {l : List (List Word)} (hq : s.svQueue = e :: l) (hw : s.svWrite e = some s1) :
    s.Leads .svPend fun s2 => s2.svQueue = l ∧ s2.mem = s1.mem ∧ s2.reg (Off.sv 0x10) = s.reg (Off.sv 0x10) + 1 ∧
      s2.reg (Off.sv 0x20) = BitVec.ofNat 64 l.length := by
  refine ⟨({ s1 with svQueue := l } : State).setReg (Off.sv 0x20) (BitVec.ofNat 64 l.length), ?_, rfl, rfl, ?_, State.reg_setReg_same _ _ _⟩
  · show execSvPend s = _
    simp only [execSvPend, hq, hw]
  · rw [State.reg_setReg_other _ _ (by decide)]
    exact (State.reg_of_mmio (s := s1) rfl _).trans (State.svWrite_next hw)

/-! ## Taproot's commands (R433) -/

/-- A command ends with a result in TP_STATUS and leaves memory alone. -/
def State.EndsWith (s : State) (i : Instr) (n : Nat) : Prop :=
  s.Leads i fun s2 => s2.reg (Off.tp 0x20) = BitVec.ofNat 64 (256 * n) ∧ s2.mem = s.mem

@[simp] theorem State.tpEnd_reg (s : State) (r : Nat) : (s.tpEnd r).reg (Off.tp 0x20) = BitVec.ofNat 64 (256 * r) := State.reg_setReg_same _ _ _

theorem State.endsWith_of_exec {s t : State} {i : Instr} {n : Nat} (e : exec i s = .next (t.tpEnd n)) (h : t.mem = s.mem) : s.EndsWith i n :=
  ⟨_, e, t.tpEnd_reg n, h⟩

theorem tpCmd_busy {s : State} (hb : s.tpBusy = true) : exec .tpCmdRelease s = .next s ∧ exec .tpCmdMigrate s = .next s :=
  ⟨if_pos hb, if_pos hb⟩

section
variable {s : State} (hb : s.tpBusy = false)
include hb

theorem tpCmdRelease_badFrame (h : s.tpSrc % 65536 ≠ 0 ∨ isDevice s.tpSrc = false) : s.EndsWith .tpCmdRelease 3 := by
  refine State.endsWith_of_exec (t := s) ?_ rfl
  show execTpCmdRelease s = _
  rw [execTpCmdRelease, if_neg (by simp [hb]), if_pos (by simpa using h)]

theorem tpCmdRelease_inUse (h0 : s.tpSrc % 65536 = 0) (hd : isDevice s.tpSrc = true) (hu : s.inUse s.tpSrc = true) : s.EndsWith .tpCmdRelease 2 := by
  refine State.endsWith_of_exec (t := s) ?_ rfl
  show execTpCmdRelease s = _
  rw [execTpCmdRelease, if_neg (by simp [hb]), if_neg (by simp [h0, hd]), if_pos hu]

theorem tpCmdRelease_exec (h0 : s.tpSrc % 65536 = 0) (hd : isDevice s.tpSrc = true) (hu : s.inUse s.tpSrc = false) :
    exec .tpCmdRelease s = .next ((s.unseen s.tpSrc).tpEnd 1) := by
  show execTpCmdRelease s = _
  rw [execTpCmdRelease, if_neg (by simp [hb]), if_neg (by simp [h0, hd]), if_neg (by simp [hu])]

theorem tpCmdRelease_free (h0 : s.tpSrc % 65536 = 0) (hd : isDevice s.tpSrc = true) (hu : s.inUse s.tpSrc = false) :
    s.EndsWith .tpCmdRelease 1 ∧ s.Leads .tpCmdRelease fun s2 => s2.frames.find (s.tpSrc / 65536) = none := by
  have e := tpCmdRelease_exec hb h0 hd hu
  refine ⟨State.endsWith_of_exec e (s.unseen_mem _), _, e, ?_⟩
  show Tbl.find (s.frames.del (s.tpSrc / 65536)) _ = none
  simp [Tbl.find_del]

theorem tpCmdMigrate_refused {n : Nat} (hc : s.tpCheck s.tpSrc s.tpDst s.tpTag = n) (hn : n ≠ 0) : s.EndsWith .tpCmdMigrate n := by
  refine State.endsWith_of_exec (t := s) ?_ rfl
  show execTpCmdMigrate s = _
  rw [execTpCmdMigrate, if_neg (by simp [hb]), hc]
  obtain ⟨k, rfl⟩ := Nat.exists_eq_succ_of_ne_zero hn
  rfl

theorem tpCmdMigrate_starts (hc : s.tpCheck s.tpSrc s.tpDst s.tpTag = 0) : s.Leads .tpCmdMigrate fun s2 => s2.tpBusy = true ∧ s2.mem = s.mem ∧
    ∃ m, s2.migration = some m ∧ m.src = s.tpSrc ∧ m.dst = s.tpDst ∧ m.frozen = false := by
  refine ⟨s.migrationStart s.tpSrc s.tpDst s.tpTag, ?_, ?_, rfl, _, rfl, rfl, rfl, rfl⟩
  · show execTpCmdMigrate s = _
    rw [execTpCmdMigrate, if_neg (by simp [hb]), hc]
    rfl
  · show bit ((s.setReg (Off.tp 0x20) 1).reg (Off.tp 0x20)) 0 = true
    rw [State.reg_setReg_same]
    rfl

end

/-! ## Migration (R266, R267) -/

section
variable {s : State} {m : Migration} (hm : s.migration = some m)
include hm

theorem migrationPassEnd_next (hf : m.frozen = false) (hp : m.pass ≠ 0) : s.Leads .migrationPassEnd fun s2 => s2.mem = s.mem ∧
    s2.migration = some (if m.marked.length < 16 ∨ m.pass = 9 then { m with frozen := true }
      else { m with marked := [], pass := m.pass + 1, todo := m.marked }) := by
  by_cases h : m.marked.length < 16 ∨ m.pass = 9
  · refine ⟨{ s with migration := some { m with frozen := true } }, ?_, rfl, by rw [if_pos h]⟩
    show execMigrationPassEnd s = _
    simp [execMigrationPassEnd, hm, hf, hp, h]
  · refine ⟨{ s with migration := some { m with marked := [], pass := m.pass + 1, todo := m.marked } }, ?_, rfl, by rw [if_neg h]⟩
    show execMigrationPassEnd s = _
    simp [execMigrationPassEnd, hm, hf, hp, h]

theorem migrationPassEnd_waits (hf : m.frozen = false) (hp : m.pass = 0) (hc : s.pageCopying m.src = true) : exec .migrationPassEnd s = .next s := by
  show execMigrationPassEnd s = _
  simp [execMigrationPassEnd, hm, hf, hp, hc]

theorem freezeCopyEnd_waits (h : s.pageCopying m.src = true ∨ s.moveHeld m.src m.dst m.tag = true) : exec .freezeCopyEnd s = .next s := by
  show execFreezeCopyEnd s = _
  simp only [execFreezeCopyEnd, hm]
  refine if_pos ?_
  obtain h | h := h <;> simp [h]

theorem freezeCopyEnd_exec (hf : m.frozen = true) (hc : s.pageCopying m.src = false) (hh : s.moveHeld m.src m.dst m.tag = false) :
    ∃ t : State, t.migration = none ∧
      exec .freezeCopyEnd s = .next (t.tpEnd (if s.tpCheck m.src m.dst m.tag = 0 then 1 else s.tpCheck m.src m.dst m.tag)).drainHeld := by
  show ∃ t : State, _ ∧ execFreezeCopyEnd s = _
  simp only [execFreezeCopyEnd, hm, hf, hc, hh, Bool.not_true, Bool.or_self, Bool.false_eq_true, if_false]
  split
  next e =>
    refine ⟨_, ?_, by rw [if_pos e]⟩
    have hu := State.noMigration_of_units (State.moveSwitch_units { s with migration := none } (s.hostWriter false).past m.src m.dst m.tag false)
    exact Option.isNone_iff_eq_none.mp hu
  next n e => exact ⟨{ s with migration := none }, rfl, by rw [if_neg (by simpa using e)]⟩

theorem freezeCopyEnd_leads (hf : m.frozen = true) (hc : s.pageCopying m.src = false) (hh : s.moveHeld m.src m.dst m.tag = false) :
    s.Leads .freezeCopyEnd fun s2 => s2.migration = none ∧
      s2.reg (Off.tp 0x20) = BitVec.ofNat 64 (256 * (if s.tpCheck m.src m.dst m.tag = 0 then 1 else s.tpCheck m.src m.dst m.tag)) := by
  obtain ⟨t, ht, e⟩ := freezeCopyEnd_exec hm hf hc hh
  refine ⟨_, e, ?_, ?_⟩
  · refine Option.isNone_iff_eq_none.mp ((State.noMigration_of_units (State.drainHeld_units _)).trans ?_)
    exact Option.isNone_iff_eq_none.mpr ht
  · rw [State.reg_of_units (State.drainHeld_units _), State.tpEnd_reg]

end

end Sys2Proof.Machine
end

section
/-! REGISTER WRITES AND INVALIDATIONS (O50). -/

set_option Elab.async false
namespace Sys2Proof.Machine

/-! ## Register writes (R3, R4, R427) -/

theorem registerWrite_exec (off : Nat) (val : RegData) (s : State) : exec (.registerWrite off val) s = execRegisterWrite off val s := rfl

theorem aligned_of_rw {off : Nat} (h : (regSpec off).acc = .rw) : off % 8 = 0 := by
  by_contra hc
  simp [regSpec, hc] at h

theorem State.writeReg_rw {s : State} {off : Nat} (v : Word) (hc : rsCount off = none) (ha : (regSpec off).acc = .rw) :
    s.writeReg off v = s.setReg off ((s.reg off &&& ~~~(regSpec off).mask) ||| (v &&& (regSpec off).mask)) := by
  simp [State.writeReg, hc, ha]

theorem rsCount_some {off d n : Nat} (h : rsCount off = some (d, n)) :
    0x40000 ≤ off ∧ off < 0x40400 ∧ off % 8 = 0 ∧ 8 ≤ off % 0x100 ∧ off % 0x100 ≤ 0x28 ∧ d = (off - 0x40000) / 0x100 ∧ n = off % 0x100 / 8 - 1 := by
  unfold rsCount at h
  split at h
  next hc =>
    obtain ⟨h1, h2, h3, h4, h5⟩ := hc
    obtain ⟨rfl, rfl⟩ : _ = d ∧ _ = n := by simpa using h
    exact ⟨h1, h2, h3, h4, h5, rfl, rfl⟩
  next => cases h

theorem regSpec_rs {off : Nat} (h1 : 0x40000 ≤ off) (h2 : off < 0x40400) (h3 : off % 8 = 0) : regSpec off = specRs (off % 0x100) := by
  unfold regSpec
  repeat rw [if_neg (by omega)]
  rw [if_pos (by omega)]

/-- A render count is a plain register, so what cannot be written is no render count. -/
theorem rw_of_rsCount {off : Nat} {p : Nat × Nat} (h : rsCount off = some p) : (regSpec off).acc = .rw := by
  obtain ⟨h1, h2, h3, h4, h5, -, -⟩ := rsCount_some (d := p.1) (n := p.2) h
  have ho : off % 0x100 = 8 ∨ off % 0x100 = 0x10 ∨ off % 0x100 = 0x18 ∨ off % 0x100 = 0x20 ∨ off % 0x100 = 0x28 := by omega
  rw [regSpec_rs h1 h2 h3, specRs, if_neg (by omega), if_pos ho]

theorem State.writeReg_closed {s : State} {off : Nat} (v : Word) (ha : (regSpec off).acc = .ro ∨ (regSpec off).acc = .wo ∨ (regSpec off).acc = .absent) :
    s.writeReg off v = s := by
  have hc : rsCount off = none := by
    cases e : rsCount off with
    | none => rfl
    | some p => simp [rw_of_rsCount e] at ha
  obtain h | h | h := ha <;> simp [State.writeReg, hc, h]

/-- A write leaves the state alone when its width or its address is not that of a register, or the register has an event of its own. -/
theorem registerWrite_misfit {off : Nat} {val : RegData} (s : State) (h : val.width ≠ 8 ∨ off % 8 ≠ 0 ∨ ownEvent off = true ∨ s.powered = false) :
    exec (.registerWrite off val) s = .next s := if_pos h

theorem barRead_misfit {off : Nat} {val : RegData} (s : State) (h : val.width ≠ 8 ∨ off % 8 ≠ 0) : s.barRead off val.width = 2 ^ (8 * val.width) - 1 := by
  rw [State.barRead, if_neg (by omega)]

theorem barRead_unreadable {off : Nat} (s : State) (h8 : off % 8 = 0) (hc : rsCount off = none)
    (ha : (regSpec off).acc = .wo ∨ (regSpec off).acc = .absent) : s.barRead off 8 = 0 := by
  obtain h | h := ha <;> simp [State.barRead, State.readReg, hc, h, h8]

/-- A register without writable bits has no case of its own in a write. -/
theorem registerWrite_closed {off : Nat} {val : RegData} (s : State)
    (ha : (regSpec off).acc = .ro ∨ (regSpec off).acc = .wo ∨ (regSpec off).acc = .absent) : exec (.registerWrite off val) s = .next s := by
  by_cases hm : val.width ≠ 8 ∨ off % 8 ≠ 0 ∨ ownEvent off = true ∨ s.powered = false
  · exact registerWrite_misfit s hm
  · have hrw : (regSpec off).acc ≠ .rw := by obtain h | h | h := ha <;> simp [h]
    have hqe : ¬(0x10000 ≤ off ∧ off < 0x14000 ∧ off % 0x1000 = 0) := fun ⟨h1, h2, h3⟩ => hrw (by
      unfold regSpec
      repeat rw [if_neg (by omega)]
      rw [if_pos (by omega), h3]
      rfl)
    have hfb : off ≠ Off.fb 0x10 := fun h => hrw (h ▸ rfl)
    have hdbg : ¬(0x100000 ≤ off ∧ off % 0x100 = 0xA0 ∧ (regSpec off).acc = .rw) := fun ⟨_, _, h⟩ => hrw h
    rw [registerWrite_exec, execRegisterWrite, State.writeReg_closed _ ha, if_neg hm, if_neg hfb, if_neg hqe, if_neg hdbg]
    simp only [ite_self]

theorem registerWrite_streamOn {off : Nat} {val : RegData} {s : State} (h1 : 0x50000 ≤ off) (h2 : off < 0x50800)
    (hon : s.foOn ((off - 0x50000) / 0x100) = true) (hrd : off % 0x100 ≠ 0x30) : exec (.registerWrite off val) s = .next s := by
  by_cases hm : val.width ≠ 8 ∨ off % 8 ≠ 0 ∨ ownEvent off = true ∨ s.powered = false
  · exact registerWrite_misfit s hm
  · have hfb : off ≠ Off.fb 0x10 := by simp only [Off.fb]; omega
    have hfb0 : off ≠ Off.fb 0 := by simp only [Off.fb]; omega
    rw [registerWrite_exec, execRegisterWrite, if_neg hm, if_neg hfb, if_neg (by omega), if_neg hfb0, if_pos ⟨h1, h2⟩, if_pos (by simp [hon, hrd])]

theorem registerWrite_portUp {val : RegData} {s : State} (h : s.portsUp ≠ []) : exec (.registerWrite (Off.fb 0) val) s = .next s := by
  by_cases hm : val.width ≠ 8 ∨ Off.fb 0 % 8 ≠ 0 ∨ ownEvent (Off.fb 0) = true ∨ s.powered = false
  · exact registerWrite_misfit s hm
  · rw [registerWrite_exec, execRegisterWrite, if_neg hm, if_neg (by decide), if_neg (by decide), if_pos rfl, if_neg (by simpa using h)]

/-- A write of a plain register: the fields, and what the blocks that watch some registers make of it. -/
theorem registerWrite_rw {off : Nat} {v : Word} {s : State} (ho : ownEvent off = false) (hp : s.powered = true) (ha : (regSpec off).acc = .rw)
    (hfb : off ≠ Off.fb 0) (hc : rsCount off = none)
    (hfo : 0x50000 ≤ off → off < 0x50800 → s.foOn ((off - 0x50000) / 0x100) = false ∨ off % 0x100 = 0x30) :
    s.Leads (.registerWrite off { width := 8, word := v }) fun s2 =>
      s2.mmio = (s.writeReg off v).mmio ∧ s2.mem = s.mem ∧ s2.leases = (if off = Off.fb 0x10 ∧ s2.skewOk = false then [] else s.leases) := by
  have hm : ¬((8 : Nat) ≠ 8 ∨ off % 8 ≠ 0 ∨ ownEvent off = true ∨ s.powered = false) := by simp [aligned_of_rw ha, ho, hp]
  have hw : (s.writeReg off v).mem = s.mem ∧ (s.writeReg off v).leases = s.leases := by rw [State.writeReg_rw v hc ha]; exact ⟨rfl, rfl⟩
  obtain ⟨hmem, hl⟩ := hw
  rw [State.Leads, registerWrite_exec, execRegisterWrite, if_neg hm]
  split
  next h =>
    refine ⟨_, rfl, ?_⟩
    split
    next hs => exact ⟨rfl, hmem, by rw [if_neg (by simp [hs]), hl]⟩
    next hs => exact ⟨rfl, hmem, (if_pos ⟨h, Bool.eq_false_of_not_eq_true hs⟩).symm⟩
  next h =>
    have hl0 : ∀ t : State, t.leases = s.leases → t.leases = if off = Off.fb 0x10 ∧ t.skewOk = false then [] else s.leases := fun t ht => by
      rw [if_neg (fun hh => h hh.1), ht]
    split
    · exact ⟨_, rfl, rfl, hmem, hl0 _ hl⟩
    · split
      next hr =>
        have hcond : ¬(s.foOn ((off - 0x50000) / 0x100) && off % 0x100 != 0x30) = true := by
          obtain h | h := hfo hr.1 hr.2 <;> simp [h]
        exact ⟨_, rfl, by rw [if_neg hcond]; exact ⟨rfl, hmem, hl0 _ hl⟩⟩
      · split
        · refine ⟨_, rfl, ?_⟩
          unfold State.smpCtl
          split <;> exact ⟨rfl, hmem, hl0 _ hl⟩
        · exact ⟨_, rfl, rfl, hmem, hl0 _ hl⟩

theorem registerWrite_leads {off : Nat} {v : Word} {s : State} (ho : ownEvent off = false) (hp : s.powered = true) (ha : (regSpec off).acc = .rw)
    (hfb : off ≠ Off.fb 0) (hc : rsCount off = none)
    (hfo : 0x50000 ≤ off → off < 0x50800 → s.foOn ((off - 0x50000) / 0x100) = false ∨ off % 0x100 = 0x30) :
    s.Leads (.registerWrite off { width := 8, word := v }) fun s2 =>
      s2.reg off = (s.reg off &&& ~~~(regSpec off).mask) ||| (v &&& (regSpec off).mask) ∧ (∀ o, o ≠ off → s2.reg o = s.reg o) ∧ s2.mem = s.mem ∧
        s2.leases = (if off = Off.fb 0x10 ∧ s2.skewOk = false then [] else s.leases) := by
  obtain ⟨t, e, hr, hm, hl⟩ := registerWrite_rw (v := v) ho hp ha hfb hc hfo
  rw [State.writeReg_rw v hc ha] at hr
  refine ⟨t, e, ?_, fun o hne => ?_, hm, hl⟩
  · rw [State.reg_of_mmio hr, State.reg_setReg_same]
  · rw [State.reg_of_mmio hr, State.reg_setReg_other _ _ hne]

theorem Render.count_setCount (r : Render) (v : Nat) {n : Nat} (h : n < 5) : (r.setCount v n).count n = v := by
  obtain rfl | rfl | rfl | rfl | rfl : n = 0 ∨ n = 1 ∨ n = 2 ∨ n = 3 ∨ n = 4 := by omega
  all_goals rfl

theorem CtxSt.render_setRender (c : CtxSt) (d : Nat) (r : Render) : (c.setRender d r).render d = r := by
  simp [CtxSt.render, CtxSt.setRender]

theorem registerWrite_renderCount {off d n : Nat} {v : Word} {s : State} (hp : s.powered = true) (hc : rsCount off = some (d, n)) :
    s.Leads (.registerWrite off { width := 8, word := v }) fun s2 =>
      s2.readReg off = v ∧ ((s2.ctxSt (s.rsSel d)).render d).count n = v.toNat ∧ s2.mem = s.mem ∧ s2.mmio = s.mmio := by
  obtain ⟨h1, h2, h3, h4, h5, -, hn⟩ := rsCount_some hc
  have ho : ownEvent off = false := by
    simp [ownEvent, Off.pe, Off.ck, Off.sv, Off.tp]
    omega
  have hm : ¬((8 : Nat) ≠ 8 ∨ off % 8 ≠ 0 ∨ ownEvent off = true ∨ s.powered = false) := by simp [h3, ho, hp]
  have hfb : off ≠ Off.fb 0x10 := by simp only [Off.fb]; omega
  have hfb0 : off ≠ Off.fb 0 := by simp only [Off.fb]; omega
  have e : exec (.registerWrite off { width := 8, word := v }) s = .next (s.writeReg off v) := by
    rw [registerWrite_exec, execRegisterWrite, if_neg hm, if_neg hfb, if_neg (by omega), if_neg hfb0, if_neg (by omega), if_neg (by omega)]
  have hcount : (((s.writeReg off v).ctxSt (s.rsSel d)).render d).count n = v.toNat := by
    simp only [State.writeReg, hc, State.ctxSt, Tbl.find_put_same, Option.getD_some, CtxSt.render_setRender]
    exact Render.count_setCount _ _ (by omega)
  have hmmio : (s.writeReg off v).mmio = s.mmio := by simp only [State.writeReg, hc]
  refine ⟨_, e, ?_, hcount, by simp only [State.writeReg, hc], hmmio⟩
  have hsel : (s.writeReg off v).rsSel d = s.rsSel d := by rw [State.rsSel, State.rsSel, State.reg_of_mmio hmmio]
  have hr : (s.writeReg off v).readReg off = BitVec.ofNat 64 ((((s.writeReg off v).ctxSt (s.rsSel d)).render d).count n) := by
    simp only [State.readReg, hc, hsel, State.ctxSt]
  rw [hr, hcount, BitVec.ofNat_toNat, BitVec.setWidth_eq]

/-! ## Invalidations (R248, R252) -/

theorem xlInvCmd_leads {s : State} {die : Nat} {val : Word} (hd : die < 4) (hg : bit val 10 = true) (hb : bit (s.reg (Off.xl die 0x20)) 0 = false) :
    s.Leads (.xlInvCmd die val) fun s2 => s2.reg (Off.xl die 0x20) = 1 ∧
      s2.invals = s.invals ++ [(die, bits val 9 0, (s.reg (Off.xl die 8)).toNat / 65536, (s.reg (Off.xl die 0x10)).toNat, s.nextSeq)] := by
  refine ⟨_, if_pos ⟨hd, hg, by simp [hb]⟩, ?_, rfl⟩
  exact (State.reg_of_mmio (s := s.setReg (Off.xl die 0x20) 1) rfl _).trans (State.reg_setReg_same _ _ _)

section
variable {s : State} {die : Nat} {i : Nat × Nat × Nat × Nat × Nat} (hi : s.invals.find? (fun i => i.1 == die) = some i)
include hi

theorem xlInvalidationDone_waits (hb : s.invBusy i = true) : exec (.xlInvalidationDone die) s = .next s := by
  show execXlInvalidationDone die s = _
  simp only [execXlInvalidationDone, hi, if_pos hb]

theorem xlInvalidationDone_leads (hb : s.invBusy i = false) : s.Leads (.xlInvalidationDone die) fun s2 =>
    s2.reg (Off.xl die 0x20) = 0 ∧ s2.invals = s.invals.erase i ∧
      (∀ e ∈ s2.tlb, e ∈ s.tlb ∧ invCovers i e.ctx e.vpage = false) ∧ ∀ e ∈ s2.ptes, e ∈ s.ptes ∧ invMeets i e = false := by
  have e : ∃ t : State, exec (.xlInvalidationDone die) s = .next t ∧ t.mmio = (s.setReg (Off.xl die 0x20) 0).mmio ∧ t.invals = s.invals.erase i ∧
      t.tlb = (s.tlb.filter fun e => !invCovers i e.ctx e.vpage) ∧ t.ptes = s.ptes.filter fun e => !invMeets i e := by
    show ∃ t : State, execXlInvalidationDone die s = _ ∧ _
    simp only [execXlInvalidationDone, hi, hb, Bool.false_eq_true, if_false]
    exact ⟨_, rfl, rfl, rfl, rfl, rfl⟩
  obtain ⟨t, e, hr, hv, ht, hp⟩ := e
  refine ⟨t, e, by rw [State.reg_of_mmio hr, State.reg_setReg_same], hv, fun x hx => ?_, fun x hx => ?_⟩
  · rw [ht] at hx
    simpa using hx
  · rw [hp] at hx
    simpa using hx

end

end Sys2Proof.Machine
end

section
/-! ENCODE STREAMS (O50). -/

set_option Elab.async false
namespace Sys2Proof.Machine

/-! ## Encode streams (R345, R347) -/

theorem Off.fo_inj {st a b : Nat} (h : a ≠ b) : Off.fo st a ≠ Off.fo st b := fun e => h (by simpa [Off.fo] using e)

theorem State.reg_setStream (s : State) (st : Nat) (x : Stream) (o : Nat) : (s.setStream st x).reg o = s.reg o := rfl

theorem bits_one (w : Word) (n : Nat) : bits w n n = 0 ∨ bits w n n = 1 := by
  have : bits w n n < 2 := by
    rw [bits, Nat.add_sub_cancel_left]
    exact Nat.mod_lt _ (by decide)
  omega

/-- FO_CTL as a write leaves it: bit 0 says enabled, bit 2 refused, and bit 1 is the written one. -/
theorem foCtl_bits {b : Nat} (h : b = 0 ∨ b = 1) : bit (pack [(b, 1)]) 0 = false ∧
    (bit (pack [(b, 1), (1, 0)]) 0 = true ∧ bit (pack [(b, 1), (1, 0)]) 2 = false) ∧
    bit (pack [(1, 2), (b, 1)]) 0 = false ∧ bit (pack [(1, 2), (b, 1)]) 2 = true := by
  obtain rfl | rfl := h <;> decide

section
variable {s : State} {st : Nat} (val : Word) (hst : st < 8)
include hst

theorem foCtlWrite_off (hv : bit val 0 = false) :
    s.Leads (.foCtlWrite st val) fun s2 => s2.foOn st = false ∧ s2.streams.find st = none ∧ s2.mem = s.mem := by
  have e : exec (.foCtlWrite st val) s = .next { s.setReg (Off.fo st 0) (pack [(bits val 1 1, 1)]) with streams := s.streams.del st } := by
    show execFoCtlWrite st val s = _
    rw [execFoCtlWrite, if_neg (by omega)]
    simp only [hv, Bool.false_eq_true, if_false]
  refine ⟨_, e, ?_, by simp [Tbl.find_del], rfl⟩
  show bit ((s.setReg (Off.fo st 0) (pack [(bits val 1 1, 1)])).reg (Off.fo st 0)) 0 = false
  rw [State.reg_setReg_same]
  exact (foCtl_bits (bits_one val 1)).1

theorem foCtlWrite_exec_opens (hv : bit val 0 = true) (hon : s.foOn st = false) (hc : s.foConfigOk st val = true) :
    exec (.foCtlWrite st val) s = .next ((((s.setReg (Off.fo st 0) (pack [(bits val 1 1, 1), (1, 0)])).setReg (Off.fo st 0x28) 0).setReg
      (Off.fo st 0x38) 0).setStream st {}) := by
  show execFoCtlWrite st val s = _
  rw [execFoCtlWrite, if_neg (by omega)]
  simp only [hv, hon, hc, Bool.false_eq_true, if_true, if_false]

theorem foCtlWrite_exec_refuses (hv : bit val 0 = true) (hon : s.foOn st = false) (hc : s.foConfigOk st val = false) :
    exec (.foCtlWrite st val) s = .next (s.setReg (Off.fo st 0) (pack [(1, 2), (bits val 1 1, 1)])) := by
  show execFoCtlWrite st val s = _
  rw [execFoCtlWrite, if_neg (by omega)]
  simp only [hv, hon, hc, Bool.false_eq_true, if_true, if_false]

theorem foCtlWrite_on (hv : bit val 0 = true) (hon : s.foOn st = false) :
    s.Leads (.foCtlWrite st val) fun s2 => s2.mem = s.mem ∧ s2.foOn st = s.foConfigOk st val ∧ bit (s2.reg (Off.fo st 0)) 2 = !s.foConfigOk st val := by
  obtain ⟨-, hok, hbad⟩ := foCtl_bits (bits_one val 1)
  cases hc : s.foConfigOk st val with
  | true =>
    refine ⟨_, foCtlWrite_exec_opens val hst hv hon hc, ?_⟩
    generalize pack [(bits val 1 1, 1), (1, 0)] = c at hok ⊢
    have hr : (((s.setReg (Off.fo st 0) c).setReg (Off.fo st 0x28) 0).setReg (Off.fo st 0x38) 0).reg (Off.fo st 0) = c := by
      rw [State.reg_setReg_other _ _ (Off.fo_inj (by decide)), State.reg_setReg_other _ _ (Off.fo_inj (by decide)), State.reg_setReg_same]
    rw [State.foOn, State.reg_setStream, hr]
    exact ⟨by simp, hok⟩
  | false =>
    refine ⟨_, foCtlWrite_exec_refuses val hst hv hon hc, State.setReg_mem .., ?_⟩
    rw [State.foOn, State.reg_setReg_same]
    exact hbad

end

/-- What FRAME_ENCODED has to put into the ring, and the room there. -/
def State.foBytes (s : State) (st : Nat) : List Byte := (s.stream st).left.getD (s.encoded st (s.stream st))
def State.foRoom (s : State) (st : Nat) : Nat := (s.reg (Off.fo st 0x20)).toNat - (s.reg (Off.fo st 0x28) - s.reg (Off.fo st 0x30)).toNat

/-- A lease or a migration holds ring byte n from FO_WR on. -/
def State.foHeld (s : State) (st n : Nat) : Prop := s.agentFree .engine (s.foByte st ((s.reg (Off.fo st 0x28)).toNat + n)) = false

section
variable {s : State} {st : Nat} (hon : s.foOn st = true) (he : (s.stream st).encode = true)
include hon he

theorem frameEncoded_waits {n : Nat} (hn : n < min (s.foRoom st) (s.foBytes st).length) (hh : s.foHeld st n) : exec (.frameEncoded st) s = .next s := by
  show execFrameEncoded st s = _
  rw [execFrameEncoded, if_pos (by simp [hon, he]), if_pos]
  simp only [List.any_eq_true, List.mem_range, List.length_take]
  exact ⟨n, hn, by rw [hh]; rfl⟩

theorem frameEncoded_leads (hh : ∀ n, n < min (s.foRoom st) (s.foBytes st).length → ¬s.foHeld st n) : s.Leads (.frameEncoded st) fun s2 =>
    s2.reg (Off.fo st 0x28) = s.reg (Off.fo st 0x28) + BitVec.ofNat 64 (min (s.foRoom st) (s.foBytes st).length) ∧
    ((s.foBytes st).length ≤ s.foRoom st → (s2.stream st).frame = (s.stream st).frame + 1 ∧ (s2.stream st).left = none) ∧
    (s.foRoom st < (s.foBytes st).length → (s2.stream st).left = some ((s.foBytes st).drop (s.foRoom st))) := by
  show ∃ s2, execFrameEncoded st s = _ ∧ _
  rw [execFrameEncoded, if_pos (by simp [hon, he]), if_neg]
  · split
    next h =>
      have h : s.foRoom st < (s.foBytes st).length := h
      refine ⟨_, rfl, ?_, fun hle => by omega, fun _ => ?_⟩
      · refine (State.reg_setStream _ _ _ _).trans ((State.reg_setReg_same _ _ _).trans ?_)
        rw [List.length_take]
        rfl
      · simp only [State.stream, State.setStream, Tbl.find_put_same, Option.getD_some]
        rfl
    next h =>
      have h : ¬s.foRoom st < (s.foBytes st).length := h
      refine ⟨_, rfl, ?_, fun _ => ?_, fun hlt => by omega⟩
      · refine (State.reg_setStream _ _ _ _).trans ((State.reg_setReg_other _ _ (Off.fo_inj (by decide))).trans ?_)
        rw [State.reg_setReg_same, List.length_take]
        rfl
      · simp only [State.stream, State.setStream, Tbl.find_put_same, Option.getD_some]
        trivial
  · simp only [List.any_eq_true, List.mem_range, List.length_take, not_exists, not_and]
    intro n hn
    have := hh n hn
    simp only [State.foHeld, Bool.not_eq_false] at this
    simp [this]

end

end Sys2Proof.Machine
end

section
/-! BUDGETS AND POWER, and the statement of the service block and the registers (O50). -/

set_option Elab.async false
namespace Sys2Proof.Machine

/-! ## Budgets (R438) -/

theorem Tbl.keys_put {α : Type} {t : Tbl α} {k j : Nat} {a : α} (h : j ∈ (t.put k a).map (·.1)) : j = k ∨ j ∈ t.map (·.1) := by
  induction t with
  | nil => exact .inl (by simpa [Tbl.put] using h)
  | cons e t ih =>
    unfold Tbl.put at h
    grind

theorem State.ctxSt_setCtx (s : State) (c d : Nat) (f : CtxSt → CtxSt) : (s.setCtx c f).ctxSt d = if d = c then f (s.ctxSt c) else s.ctxSt d := by
  simp only [State.ctxSt, State.setCtx, Tbl.find_put]
  split <;> rfl

section
variable (g : Nat → CtxSt → CtxSt)

theorem State.foldl_setCtx_ctxSt {l : List Nat} (hl : l.Nodup) (s : State) (d : Nat) :
    (l.foldl (fun (x : State) c => x.setCtx c (g c)) s).ctxSt d = if d ∈ l then g d (s.ctxSt d) else s.ctxSt d := by
  induction l generalizing s with
  | nil => rfl
  | cons c l ih =>
    obtain ⟨hc, hl⟩ := List.nodup_cons.mp hl
    rw [List.foldl_cons, ih hl, State.ctxSt_setCtx]
    by_cases hd : d = c
    · subst hd
      simp [hc]
    · simp [hd]

theorem State.foldl_setCtx_keys (l : List Nat) {s : State} {d : Nat} (h : d ∈ (l.foldl (fun (x : State) c => x.setCtx c (g c)) s).ctxs.map (·.1)) :
    d ∈ l ∨ d ∈ s.ctxs.map (·.1) := by
  induction l generalizing s with
  | nil => exact .inr h
  | cons c l ih =>
    obtain h | h := ih h
    · exact .inl (List.mem_cons_of_mem _ h)
    · obtain rfl | h := Tbl.keys_put h
      · exact .inl List.mem_cons_self
      · exact .inr h

theorem State.foldl_setCtx_kept (l : List Nat) (s : State) :
    let t := l.foldl (fun (x : State) c => x.setCtx c (g c)) s
    t.mmio = s.mmio ∧ t.mem = s.mem ∧ t.refilled = s.refilled := by
  induction l generalizing s with
  | nil => exact ⟨rfl, rfl, rfl⟩
  | cons c l ih => exact ih (s.setCtx c (g c))

end

theorem State.readReg_powerLimit (s : State) :
    s.readReg (Off.pwr 0) = if 15000 < bits (s.reg (Off.pwr 0)) 15 0 then 15000 else s.reg (Off.pwr 0) := by
  have hc : rsCount (Off.pwr 0) = none := by decide
  have ha : (regSpec (Off.pwr 0)).acc = .rw := by decide
  simp only [State.readReg, hc, ha]
  rw [if_neg fun h => absurd h.1 (by decide)]
  simp only [true_and]

theorem State.ebudRate_of_mmio {s t : State} (h : t.mmio = s.mmio) (c : Nat) : t.ebudRate c = s.ebudRate c := by
  simp only [State.ebudRate, State.readReg_powerLimit, State.reg_of_mmio h]

theorem State.mem_ebudCtxs {s : State} {c : Nat} : c ∈ s.ebudCtxs ↔ c ∈ s.ctxs.map (·.1) ∨
    c ∈ (s.mmio.filter fun e => Off.pwr 0x800 ≤ e.1 ∧ e.1 < Off.pwr 0x2800).map fun e => (e.1 - Off.pwr 0x800) / 8 := by
  simp only [State.ebudCtxs, List.mem_dedup, List.mem_append]

/-- A context's budget once refilled at the rate that the state gives it. -/
def State.refillOne (s : State) (c : Nat) (v : CtxSt) : CtxSt := { v with ebud := min (v.ebud + s.ebudRate c) (4 * s.ebudRate c) }

/-- Every context's budget once refilled. -/
def State.refillBudgets (s : State) : State := s.ebudCtxs.foldl (fun (x : State) c => x.setCtx c (s.refillOne c)) s

theorem State.refillBudgets_ebud {s t : State} (hr : t.mmio = s.refillBudgets.mmio) (ht : t.ctxs = s.refillBudgets.ctxs) {c : Nat} (hc : c ∈ t.ebudCtxs) :
    (t.ctxSt c).ebud = min ((s.ctxSt c).ebud + t.ebudRate c) (4 * t.ebudRate c) := by
  obtain ⟨hk, -, -⟩ := State.foldl_setCtx_kept s.refillOne s.ebudCtxs s
  have hm : t.mmio = s.mmio := hr.trans hk
  have hin : c ∈ s.ebudCtxs := by
    obtain h | h := State.mem_ebudCtxs.mp hc
    · obtain h | h := State.foldl_setCtx_keys _ _ (ht ▸ h)
      · exact h
      · exact State.mem_ebudCtxs.mpr (.inl h)
    · exact State.mem_ebudCtxs.mpr (.inr (hm ▸ h))
  have hx : t.ctxSt c = s.refillBudgets.ctxSt c := by rw [State.ctxSt, State.ctxSt, ht]
  rw [hx, State.ebudRate_of_mmio hm, State.refillBudgets, State.foldl_setCtx_ctxSt s.refillOne (l := s.ebudCtxs) (List.nodup_dedup _), if_pos hin]
  rfl

/-- The state with power and temperature measured. -/
def State.measured (s : State) : State :=
  (s.setReg (Off.pwr 0x10) (BitVec.ofNat 64 (Config.power s.draws % 65536))).setReg (Off.pwr 0x18) (BitVec.ofNat 64 (Config.temperature s.draws % 256))

theorem ebudRefill_exec {s : State} (hp : s.powered = true) (hr : s.refilled < s.ptp / 1000) : exec .ebudRefill s = .next { s.measured.refillBudgets with
    refilled := s.measured.refillBudgets.refilled + 1
    tripped := s.measured.refillBudgets.tripped || decide (115 ≤ bits (s.measured.refillBudgets.reg (Off.pwr 0x18)) 7 0) } := by
  show execEbudRefill s = _
  rw [execEbudRefill, if_pos ⟨hp, hr⟩]
  rfl

theorem ebudRefill_leads {s : State} (hp : s.powered = true) (hr : s.refilled < s.ptp / 1000) : s.Leads .ebudRefill fun s2 =>
    s2.refilled = s.refilled + 1 ∧ s2.mem = s.mem ∧
      ∀ c ∈ s2.ebudCtxs, (s2.ctxSt c).ebud = min ((s.ctxSt c).ebud + s2.ebudRate c) (4 * s2.ebudRate c) := by
  obtain ⟨-, hm, hf⟩ :=
    State.foldl_setCtx_kept s.measured.refillOne s.measured.ebudCtxs s.measured
  exact ⟨_, ebudRefill_exec hp hr, congrArg (· + 1) hf, hm, fun c hc => State.refillBudgets_ebud rfl rfl hc⟩

/-! ## Power (R438) -/

theorem Mem.read_filter_of_not {m : List Host.Cell} {p : Host.Cell → Bool} {a : Nat} (h : ∀ c : Host.Cell, c.1 = a → p c = false) :
    Mem.read (m.filter p) a = unlisted := by
  induction m with
  | nil => rfl
  | cons c m ih =>
    rw [List.filter_cons]
    split
    next hp =>
      have hne : c.1 ≠ a := fun e => by simp [h c e] at hp
      simp [Mem.read, hne, ih]
    next => exact ih

theorem thermalTrip_leads {s : State} (hp : s.powered = true) (ht : s.tripped = true ∨ 115 ≤ bits (s.reg (Off.pwr 0x18)) 7 0) :
    s.Leads .thermalTrip fun s2 => s2.powered = false ∧ s2.linkUp = false ∧ s2.threads = [] ∧
      ∀ a, isDevice a = true → Mem.read s2.mem a = 0 ∧ s2.full a = true := by
  refine ⟨{ s.coldStarted with powered := false, linkUp := false }, if_pos ⟨hp, ht⟩, rfl, rfl, rfl, fun a ha => ⟨?_, rfl⟩⟩
  exact Mem.read_filter_of_not fun c e => by simp [e, ha]

/-! ## The statement -/

/-- Settles O50, clause by clause. -/
theorem serviceAndRegisters : Obligations.ServiceAndRegisters := by
  intro s stays ends
  refine ⟨fun r q o va ctx pr hr hq ho hk => svCmd_answers hr hq ho hk, fun r hr hk hc hn hd hm => svCmdGiveFrame_leads hr hk hc hn hd hm, rfl,
    fun e l s1 hq hw => svPend_leads hq hw, rfl, tpCmd_busy,
    fun hb => ⟨tpCmdRelease_badFrame hb, fun h0 hd => ⟨tpCmdRelease_inUse hb h0 hd, tpCmdRelease_free hb h0 hd⟩, fun n => tpCmdMigrate_refused hb,
      tpCmdMigrate_starts hb⟩, fun m hm => ⟨?_, ?_, ?_, ?_⟩, ?_⟩
  · exact migrationPassEnd_next hm
  · exact migrationPassEnd_waits hm
  · exact fun _ => freezeCopyEnd_waits hm
  · exact freezeCopyEnd_leads hm
  refine ⟨fun off v ho hp ha hfb hc hfo => registerWrite_leads ho hp ha hfb hc hfo,
    fun off val h => ⟨registerWrite_misfit s (by tauto), barRead_misfit s h⟩, fun off => barRead_unreadable s, fun off val _ => registerWrite_closed s,
    fun off d n v => registerWrite_renderCount, fun off val => registerWrite_streamOn, fun val => registerWrite_portUp, fun die val => xlInvCmd_leads,
    fun die i hi => ⟨xlInvalidationDone_waits hi, xlInvalidationDone_leads hi⟩, fun st val hst => ⟨foCtlWrite_off val hst, foCtlWrite_on val hst⟩,
    fun st _ hon he => ⟨fun n => frameEncoded_waits hon he, frameEncoded_leads hon he⟩, ebudRefill_leads, thermalTrip_leads⟩

end Sys2Proof.Machine
end

section
/-! THE ISSUE OF ANY INSTRUCTION (O30, O31): every encoded instruction looks at its registers' range and at its guard before anything of its
own (spec/02_one_thread.md R20, R34). -/

namespace Sys2Proof.Machine

variable {s : State} {k : Nat} {t : Thread} {i : Instr} {q : Issue} {named : List Nat}

/-- Every encoded instruction but RFT is one issue by the gang, with the registers of its fields and a body of its own. -/
theorem exec_isIssue (h : Instr.fields i = some (q, named)) (hr : ∀ c skip, i ≠ .rft c skip) :
    ∃ named' reads adv body, (∀ r, r ∈ named' ↔ r ∈ named) ∧ exec i s = .next (s.runGang q named' reads adv body) := by
  cases i <;> cases h
  case rft => exact absurd rfl (hr _ _)
  -- the meaning names the destination once more, as a source
  case c16Add | c16Sub | c16Addi | c16And | c16Or | c16Xor | c16Shli | c16Shri | c16Sari | c16FaddD | c16FsubD | c16FmulD | c16FminD | c16FmaxD
    | bfi | movk => exact ⟨_, _, _, _, by simp, rfl⟩
  -- the meaning names them in another order
  case funpack | ldw | ldc | stf | stx | atom | cas | trace | tracek | march | hitattr =>
    exact ⟨_, _, _, _, by simp [run, or_comm, or_left_comm], rfl⟩
  all_goals exact ⟨_, _, _, _, fun _ => Iff.rfl, rfl⟩

/-- The issue of a running thread under a false guard: it goes on past the instruction, and no flag rises (R34). -/
theorem State.issued_skipped (h : s.threads.find k = some t) (hs : t.status = .run) (n : Nat) :
    ∃ ts, s.issued q k n false true = { s with threads := ts } ∧
      Tbl.find ts k = some (t.succeeded.wentOn s { q with flag := none } (t.past q)) ∧ ∀ j, j ≠ k → Tbl.find ts j = s.threads.find j := by
  refine ⟨_, rfl, ?_, fun j hj => Tbl.find_upd_other _ _ hj⟩
  rw [Tbl.find_upd_same, h, Option.map_some]
  cases t with
  | mk =>
    subst hs
    rename_i reissue _
    cases reissue <;> simp [Thread.wentOn, Thread.succeeded, Thread.past]

/-- A register at or above the thread's count: REGRANGE, whatever the instruction (R20). -/
theorem exec_regrange (h : Instr.fields i = some (q, named)) (ha : s.Alone k t) (hr : ∃ r ∈ named, t.n ≤ r) :
    exec i s = .next (s.takeFault k t.pc s.inst (2 ^ laneOf k) { cause := .regrange }) := by
  obtain ⟨r, hmem, hn⟩ := hr
  have hrft : ∀ c skip, i ≠ .rft c skip := by
    rintro c skip rfl
    cases h
    cases hmem
  obtain ⟨named', reads, adv, body, hiff, hx⟩ := exec_isIssue (s := s) h hrft
  rw [hx, runGang_regrange ha ((hiff r).mpr hmem) hn, raiseAll_one _ _ _ _ rfl rfl]

/-- RFT under a false guard is an issue of the gang as well: what it does to the watchpoints' skip it does under a true guard only. -/
theorem execRft_skipped {c : Ctl} {skip : Bool} (ha : s.Alone k t) (hg : (issue64 c).holds t = false) :
    exec (.rft c skip) s = .next (s.issued (issue64 c) k s.nextSeq false true) := by
  show execRft c skip s = _
  rw [execRft, runGang_skips (named := []) ha (by simp) hg]
  simp [ha.gang, ha.thr, hg]

/-- A false guard: the thread only goes on, whatever the instruction (R34). -/
theorem exec_skipped (h : Instr.fields i = some (q, named)) (ha : s.Alone k t) (hg : q.holds t = false) (hn : ∀ r ∈ named, r < t.n) :
    exec i s = .next (s.issued q k s.nextSeq false true) := by
  by_cases hrft : ∃ c skip, i = .rft c skip
  · obtain ⟨c, skip, rfl⟩ := hrft
    cases h
    exact execRft_skipped ha hg
  · obtain ⟨named', reads, adv, body, hiff, hx⟩ := exec_isIssue (s := s) h fun c skip e => hrft ⟨c, skip, e⟩
    rw [hx, runGang_skips ha (fun r hr => hn r ((hiff r).mp hr)) hg]

/-- Under a false guard the thread goes on past the instruction and nothing else changes (R34). -/
theorem gives_skipped (h : Instr.fields i = some (q, named)) (ha : s.Alone k t) (hs : t.status = .run) (hg : q.holds t = false)
    (hn : ∀ r ∈ named, r < t.n) : s.Gives i k (t.succeeded.wentOn s { q with flag := none } (t.past q)) s := by
  obtain ⟨ts, hts, hk, hj⟩ := State.issued_skipped (q := q) ha.here hs s.nextSeq
  exact ⟨ts, (exec_skipped h ha hg hn).trans (congrArg _ hts), hk, hj⟩

/-- Settles O30. -/
theorem falseGuardHasNoEffect : Obligations.FalseGuardHasNoEffect :=
  fun _ _ _ _ _ _ h ha hs hg => ⟨gives_skipped h ha hs hg, exec_regrange h ha⟩

/-- Settles O31. -/
theorem registerRange : Obligations.RegisterRange := fun _ _ _ _ _ _ h ha hr => exec_regrange h ha hr

end Sys2Proof.Machine
end

section
/-! COMPARES, PREDICATES AND SPECIAL REGISTERS (O5, O27): the values that compares and predicate instructions write
(spec/05_isa_integer_control.md R98-R100), the seventh predicate (spec/02_one_thread.md R21), and what SRD and SWR give (R27, R28). -/

namespace Sys2Proof.Machine

variable {s : State} {k : Nat} {t : Thread} {i : Instr} {q : Issue} {named reads : List Nat}

/-! ## Values -/

theorem sval_eq_toInt (w : Nat) (v : Word) : sval w v = (v.setWidth w).toInt := (BitVec.toInt_setWidth v).symm

theorem nval_eq_toNat (w : Nat) (v : Word) : nval w v = ((v.setWidth w).toNat : Int) := by simp [nval]

/-- A compare's condition, on the integers that R85 reads, is the condition on the operands' low bits (R98). -/
theorem ICond.holds_eq_spec (c : ICond) (w : Nat) (a b : Word) : ICond.holds c w a b = ICond.spec c (a.setWidth w) (b.setWidth w) := by
  cases c <;> simp only [ICond.holds, ICond.spec, sval_eq_toInt, nval_eq_toNat]
  case eq => rw [Bool.eq_iff_iff, beq_iff_eq, beq_iff_eq, Nat.cast_inj, BitVec.toNat_inj]
  case ne => rw [Bool.eq_iff_iff, bne_iff_ne, bne_iff_ne, Ne, Nat.cast_inj, BitVec.toNat_inj]
  case ltS => rfl
  case leS => rfl
  case ltN => simp only [Nat.cast_lt]; rfl
  case leN => simp only [Nat.cast_le]; rfl

theorem ICond.holds_eq_spec_64 (c : ICond) (a b : Word) : ICond.holds c 64 a b = ICond.spec c a b := by
  simpa using ICond.holds_eq_spec c 64 a b

theorem bitsWhere_succ (w : Nat) (f : Nat → Bool) : bitsWhere (w + 1) f = if f w then bitsWhere w f + 2 ^ w else bitsWhere w f := by
  simp [bitsWhere, List.range_succ]

theorem bitsWhere_lt (w : Nat) (f : Nat → Bool) : bitsWhere w f < 2 ^ w := by
  induction w with
  | zero => simp [bitsWhere]
  | succ w ih => rw [bitsWhere_succ]; split <;> omega

theorem testBit_bitsWhere (w : Nat) (f : Nat → Bool) (i : Nat) : (bitsWhere w f).testBit i = (decide (i < w) && f i) := by
  induction w with
  | zero => simp [bitsWhere]
  | succ w ih =>
    have hlt := bitsWhere_lt w f
    have htop : (bitsWhere w f).testBit w = false := Nat.testBit_lt_two_pow hlt
    rw [bitsWhere_succ]
    split
    next hf =>
      rw [Nat.add_comm]
      rcases Nat.lt_trichotomy i w with h | rfl | h
      · simp [Nat.testBit_two_pow_add_gt h, ih, h, Nat.lt_succ_of_lt h]
      · simp [Nat.testBit_two_pow_add_eq, htop, hf]
      · have : 2 ^ w + bitsWhere w f < 2 ^ i := by
          have := Nat.pow_le_pow_right (n := 2) (by omega) h
          omega
        simp [Nat.testBit_lt_two_pow this]
        omega
    next hf =>
      rw [ih]
      by_cases h : i = w
      · simp [h, hf]
      · have : i < w ↔ i < w + 1 := by omega
        simp [this]

theorem predByte_getLsbD (t : Thread) {i : Nat} (h : i < 64) : (predByte t).getLsbD i = (decide (i < 8) && t.pred i) := by
  rw [predByte, BitVec.getLsbD_ofNat, testBit_bitsWhere]
  simp [h]

theorem field_getLsbD (hi lo i : Nat) : (field hi lo).getLsbD i = (decide (i < 64) && (decide (lo ≤ i) && decide (i - lo < hi + 1 - lo))) := by
  simp [field, BitVec.getLsbD_ofNat, Nat.testBit_mul_two_pow, Nat.testBit_two_pow_sub_one]

/-! ## The seventh predicate (R21) -/

theorem Thread.pred_seven (t : Thread) : t.pred 7 = true := rfl

theorem Thread.apply_pred_seven (t : Thread) (b : Bool) : t.apply (.pred 7 b) = t := rfl

theorem Issue.holds_seven (h : q.guard = 7) (t : Thread) : q.holds t = !q.neg := by
  rw [Issue.holds, h, Thread.pred_seven]
  cases q.neg <;> rfl

/-! ## The statement on predicates -/

/-- Settles O5: each instruction is a fixed-latency operation of class I2, whose value is the rule's. -/
theorem predicates : Obligations.Predicates := by
  refine ⟨fun t b q hq => ⟨t.apply_pred_seven b, t.pred_seven, q.holds_seven hq t⟩, fun i q named s k t h ha hs hq hneg hn => ?_, ?_⟩
  · exact gives_skipped h ha hs (by rw [Issue.holds_seven hq, hneg]; rfl) hn
  intro s k t c c2 w cond pd pa pb vd va vb ha q a b sets cmp
  have compares : ∀ (i : Instr) (o : ICond), exec i s = .next (s.prr q 2 pd.toNat va.toNat vb.toNat (ICond.holds o 64)) → cmp i o := by
    intro i o hx e
    have h := gives_fixed 2 (fun t => [.pred pd.toNat (ICond.holds o 64 (t.reg va.toNat) (t.reg vb.toNat))]) hx ha e
    rwa [ICond.holds_eq_spec_64] at h
  refine ⟨compares _ _ rfl, compares _ _ rfl, compares _ _ rfl, compares _ _ rfl, compares _ _ rfl, compares _ _ rfl, ?_, ?_, ?_, ?_, ?_, ?_, ?_⟩
  · exact fun e => gives_fixed 2 (fun t => [.pred pd.toNat (t.pred pa.toNat && t.pred pb.toNat)]) rfl ha e
  · exact fun e => gives_fixed 2 (fun t => [.pred pd.toNat (t.pred pa.toNat || t.pred pb.toNat)]) rfl ha e
  · exact fun e => gives_fixed 2 (fun t => [.pred pd.toNat ((t.pred pa.toNat).xor (t.pred pb.toNat))]) rfl ha e
  · exact fun e => gives_fixed 2 (fun t => [.pred pd.toNat (!t.pred pa.toNat)]) rfl ha e
  · intro e
    have h := gives_fixed (i := .i64Setp c2 cond w pd va vb) 2
      (fun t => [.pred pd.toNat (ICond.holds cond (widthBits w) (t.reg va.toNat) (t.reg vb.toNat))]) rfl ha e
    rwa [ICond.holds_eq_spec] at h
  · exact ⟨predByte t, fun i hi => predByte_getLsbD t hi, fun e => gives_fixed 2 (fun t => [.reg vd.toNat (predByte t) none]) rfl ha e⟩
  · exact fun e => gives_fixed 2 (fun t => (List.range 7).map fun i => .pred i (bit (t.reg va.toNat) i)) rfl ha e

/-! ## Special registers (R27, R28) -/

/-- Two bodies that do the same for a thread alone in its gang make the same issue. -/
theorem runGang_alone_congr (ha : s.Alone k t) (e : q.Executes t named reads) {adv : Bool} {body body' : Body} (h : body s k [k] = body' s k [k]) :
    s.runGang q named reads adv body = s.runGang q named reads adv body' := by
  rw [runGang_alone ha e, runGang_alone ha e, h]

/-- SRD is a fixed-latency operation of the value at issue (R27). -/
theorem gives_srd (ha : s.Alone k t) {c : Ctl} {vd : Reg} (e : (issue64 c).Executes t [vd.toNat] []) (sr : SReg) :
    s.Gives (.srd c sr vd) k (t.afterFixed s (issue64 c) 2 [.reg vd.toNat (s.special k sr) none]) s.numbered :=
  gives_fixed 2 (fun _ => [.reg vd.toNat (s.special k sr) none]) (congrArg Host.Outcome.next (runGang_alone_congr ha e rfl)) ha e

/-- The handler address keeps bits 56 to 1 (R28). -/
theorem and_field_56_1 (v : Word) : v &&& field 56 1 = (v.extractLsb' 1 56).setWidth 64 <<< 1 := by
  refine BitVec.eq_of_getLsbD_eq fun i hi => ?_
  rw [BitVec.getLsbD_and, field_getLsbD]
  simp only [BitVec.getLsbD_shiftLeft, BitVec.getLsbD_setWidth, BitVec.getLsbD_extractLsb']
  rcases i with _ | i
  · simp
  · have : 1 + i = i + 1 := by omega
    simp [hi, this, Bool.and_comm]
    omega

theorem and_low (n v : Nat) : BitVec.ofNat 64 v &&& low n = BitVec.ofNat 64 (v % 2 ^ n) := by
  refine BitVec.eq_of_getLsbD_eq fun i hi => ?_
  rw [low, BitVec.getLsbD_and, BitVec.getLsbD_ofNat, BitVec.getLsbD_ofNat, BitVec.getLsbD_ofNat, Nat.testBit_mod_two_pow,
    Nat.testBit_two_pow_sub_one]
  simp [hi, Bool.and_comm]

theorem bits_low (w : Word) (hi : Nat) : bits w hi 0 = w.toNat % 2 ^ (hi + 1) := by simp [bits]

theorem pack_one (v : Nat) : pack [(v, 0)] = BitVec.ofNat 64 v := by simp [pack]
theorem pack_cons (v lo : Nat) (l : List (Nat × Nat)) : pack ((v, lo) :: l) = (BitVec.ofNat 64 v <<< lo) ||| pack l := by
  rw [pack]
  congr 1
  refine BitVec.eq_of_toNat_eq ?_
  simp [Nat.shiftLeft_eq]

theorem pack_core (d c r : Nat) :
    pack [(d, 26), (c, 16), (r, 0)] = BitVec.ofNat 64 r ||| (BitVec.ofNat 64 c <<< 16) ||| (BitVec.ofNat 64 d <<< 26) := by
  rw [pack_cons, pack_cons, pack_one, BitVec.or_comm, BitVec.or_comm (BitVec.ofNat 64 c <<< 16)]

section
variable {b : Block} {l : Launch} (hb : s.blocks.find t.blk = some b) (hl : s.launches.find b.launch = some l)
include hb hl

theorem State.launchOf_of_find : s.launchOf t = some l := by simp [State.launchOf, hb, hl]

theorem State.ctxOf_of_find : s.ctxOf t = l.ctx := by simp [State.ctxOf, State.launchOf_of_find hb hl]

omit hl in
theorem State.c0Of_of_find : s.c0Of t = b.c0 := by simp [State.c0Of, hb]
end

/-- Settles O27: the value of each register field by field, and the fixed latency of both instructions. -/
theorem specialRegisters : Obligations.SpecialRegisters := by
  intro s k t b g l c sr vd va ha hb hg hl q n value
  have hv : s.special k sr = value := by
    simp only [State.special, ha.thr, hb, Option.elim_some]
    cases sr
    case grove => simp [value, hg, n]
    case span => rw [State.launchOf_of_find hb hl, Option.elim_some, apply_ite (BitVec.ofNat 64), lGroves, bits_low]; rfl
    case core => exact pack_core _ _ _
    case ebud => simp only [State.ctxOf_of_find hb hl]; exact and_low 32 _
    case uctl => rw [State.c0Of_of_find hb, apply_ite (BitVec.ofNat 64)]; rfl
    all_goals rfl
  refine ⟨fun e => ?_, fun e => ?_⟩
  · rw [← hv]
    exact gives_srd ha e sr
  · rw [← and_field_56_1]
    exact gives_fixed 2 (fun t => [.tba (t.reg va.toNat &&& field 56 1)]) rfl ha e

end Sys2Proof.Machine
end

section
/-! THREADS START AND RESULTS LAND (O36, O37): what a placement gives each thread that it adds (spec/02_one_thread.md R19), and which of the
due writes of a register or predicate stays (R31, R32). -/

namespace Sys2Proof.Machine

/-! ## The threads that a placement adds (R19) -/

/-- A table into which an entry is put for each member of a list holds its old entries and those. -/
theorem Tbl.find_foldl_put {α β : Type} {key : β → Nat} {val : β → α} {l : List β} {m : Tbl α} {k : Nat} {a : α}
    (h : Tbl.find (l.foldl (fun m x => m.put (key x) (val x)) m) k = some a) : Tbl.find m k = some a ∨ ∃ x ∈ l, a = val x := by
  induction l generalizing m with
  | nil => exact .inl h
  | cons x l ih =>
    rcases ih h with h | ⟨y, hy, e⟩
    · rw [Tbl.find_put] at h
      split at h
      · exact .inr ⟨x, List.mem_cons_self .., (Option.some.inj h).symm⟩
      · exact .inl h
    · exact .inr ⟨y, List.mem_cons_of_mem _ hy, e⟩

/-- Every thread that a placement adds is one at its start. -/
theorem State.placeBlockAs_starts {s s1 : State} {bid lid gid idx c k : Nat} {l : Launch} {t : Thread}
    (h : s.placeBlockAs bid lid l gid idx c = some s1) (hk : s1.threads.find k = some t) (hs : s.threads.find k ≠ some t) :
    ∃ tid slot tba tls, t = threadStart l.words bid tid slot tba tls s.clk := by
  unfold State.placeBlockAs at h
  split at h
  · cases h
  next slot homes _ =>
    cases h
    rcases Tbl.find_foldl_put hk with h | ⟨x, -, rfl⟩
    · exact absurd h hs
    · exact ⟨_, _, _, _, rfl⟩

theorem lRegs_eq (w : List Word) : lRegs w = 16 * ((w.getD 5 0).toNat / 2 ^ 48 % 4 + 1) := rfl

theorem threadStart_reg (w : List Word) (blk tid slot : Nat) (tba tls : Word) (clk : Nat) {r : Nat} (hr : 0 < r) :
    (threadStart w blk tid slot tba tls clk).reg r = 0 := by
  obtain ⟨r, rfl⟩ := Nat.exists_eq_succ_of_ne_zero hr.ne'
  rw [Thread.reg, threadStart, List.getD_cons_succ, List.getD_eq_getElem?_getD, List.getElem?_replicate]
  split <;> rfl

theorem threadStart_pred (w : List Word) (blk tid slot : Nat) (tba tls : Word) (clk : Nat) {p : Nat} (hp : p < 7) :
    (threadStart w blk tid slot tba tls clk).pred p = false := by
  simp only [Thread.pred, threadStart, if_neg hp.ne, List.getD_eq_getElem?_getD, List.getElem?_replicate]
  split <;> rfl

theorem threadStart_flag (w : List Word) (blk tid slot : Nat) (tba tls : Word) (clk i : Nat) :
    (threadStart w blk tid slot tba tls clk).flags.getD i 0 = 0 := by
  simp only [threadStart, List.getD_eq_getElem?_getD, List.getElem?_replicate]
  split <;> rfl

theorem threadStart_length (w : List Word) (blk tid slot : Nat) (tba tls : Word) (clk : Nat) :
    (threadStart w blk tid slot tba tls clk).regs.length = lRegs w := by
  have := lRegs_eq w
  simp only [threadStart, List.length_cons, List.length_replicate]
  omega

/-- Settles O37. -/
theorem threadStarts : Obligations.ThreadStarts := by
  intro s s1 bid lid l gid idx c h k t hk hs
  obtain ⟨tid, slot, tba, tls, rfl⟩ := State.placeBlockAs_starts h hk hs
  refine ⟨BitVec.eq_of_toNat_eq (by simp [threadStart, lEntry, wordAt]), lRegs_eq _, threadStart_length .., rfl, fun r hr => threadStart_reg _ _ _ _ _ _ _ hr, fun p hp => threadStart_pred _ _ _ _ _ _ _ hp,
    threadStart_flag _ _ _ _ _ _ _, rfl, rfl, rfl, rfl, rfl⟩

/-! ## What lands last stays (R31, R32) -/

section Landings

variable {β : Type} {get : Thread → β} {names : Landing → Prop} (keeps : ∀ u x, ¬names x → get (u.apply x) = get u)

/-- The landings of a list, one after another. -/
def Thread.landList (t : Thread) (l : List PendingWrite) : Thread := l.foldl (fun t w => t.apply w.what) t

theorem Thread.landAll_eq (t : Thread) (clk : Nat) :
    t.landAll clk = ({ t with writes := t.writes.filter fun w => decide (clk < w.landClk) } : Thread).landList (t.writes.filter fun w => decide (w.landClk ≤ clk)) :=
  rfl

include keeps

/-- What no landing of a list names is as it was. -/
theorem Thread.landList_kept {l : List PendingWrite} (h : ∀ x ∈ l, ¬names x.what) (t : Thread) : get (t.landList l) = get t := by
  induction l generalizing t with
  | nil => rfl
  | cons x l ih =>
    rw [List.forall_mem_cons] at h
    exact (ih h.2 _).trans (keeps _ _ h.1)

/-- Of the landings of a list in issue order that name a place, that of the latest-issued instruction stays. -/
theorem Thread.landList_latest {holds : Thread → Prop} (stays : ∀ u x, holds u → holds (u.apply x)) {w : PendingWrite} {v : β}
    (sets : ∀ u, holds u → get (u.apply w.what) = v) {l : List PendingWrite} (hl : l.Pairwise fun x y => x.seq ≤ y.seq) (hw : w ∈ l)
    (latest : ∀ x ∈ l, names x.what → x.seq < w.seq ∨ x = w) {t : Thread} (ht : holds t) : get (t.landList l) = v := by
  induction l generalizing t with
  | nil => cases hw
  | cons x l ih =>
    rw [List.pairwise_cons] at hl
    rw [List.forall_mem_cons] at latest
    by_cases hmem : w ∈ l
    · exact ih hl.2 hmem latest.2 (stays _ _ ht)
    · obtain rfl : w = x := (List.mem_cons.mp hw).resolve_right hmem
      have later : ∀ y ∈ l, ¬names y.what := fun y hy hn => by
        rcases latest.2 y hy hn with h | rfl
        · exact absurd (hl.1 y hy) (by omega)
        · exact hmem hy
      exact (Thread.landList_kept keeps later _).trans (sets t ht)

end Landings

/-- The landing writes register r, or predicate p. -/
def Landing.namesReg (r : Nat) (x : Landing) : Prop := ∃ v m, x = .reg r v m
def Landing.namesPred (p : Nat) (x : Landing) : Prop := ∃ b, x = .pred p b

@[simp] theorem Thread.succeeded_regs (t : Thread) : t.succeeded.regs = t.regs := by unfold Thread.succeeded; split <;> rfl
@[simp] theorem Thread.succeeded_preds (t : Thread) : t.succeeded.preds = t.preds := by unfold Thread.succeeded; split <;> rfl
@[simp] theorem Thread.succeeded_writes (t : Thread) : t.succeeded.writes = t.writes := by unfold Thread.succeeded; split <;> rfl

theorem Thread.apply_regs (t : Thread) (x : Landing) : (t.apply x).regs = match x with
    | .reg r v _ => t.regs.set r v
    | _ => t.regs := by
  cases x with
  | pred p b => simp only [Thread.apply, Thread.setPred]; split <;> rfl
  | unsync => simp only [Thread.apply]; split <;> simp
  | _ => rfl

theorem Thread.apply_preds (t : Thread) (x : Landing) : (t.apply x).preds = match x with
    | .pred p b => if p = 7 then t.preds else t.preds.set p b
    | _ => t.preds := by
  cases x with
  | pred p b => simp only [Thread.apply, Thread.setPred]; split <;> rfl
  | unsync => simp only [Thread.apply]; split <;> simp
  | _ => rfl

@[simp] theorem Thread.apply_writes (t : Thread) (x : Landing) : (t.apply x).writes = t.writes := by
  cases x with
  | pred p b => simp only [Thread.apply, Thread.setPred]; split <;> rfl
  | unsync => simp only [Thread.apply]; split <;> simp
  | _ => rfl

theorem Thread.landList_writes (t : Thread) (l : List PendingWrite) : (t.landList l).writes = t.writes :=
  Thread.landList_kept (get := Thread.writes) (names := fun _ => False) (fun u x _ => u.apply_writes x) (fun _ _ h => h) t

theorem Thread.apply_reg_other (r : Nat) (u : Thread) (x : Landing) (h : ¬x.namesReg r) : (u.apply x).reg r = u.reg r := by
  rw [Thread.reg, Thread.apply_regs]
  cases x with
  | reg r' v m =>
    have hne : r' ≠ r := fun e => h ⟨v, m, by rw [e]⟩
    simp [Thread.reg, List.getD_eq_getElem?_getD, List.getElem?_set_ne hne]
  | _ => rfl

theorem Thread.apply_pred_other (p : Nat) (u : Thread) (x : Landing) (h : ¬x.namesPred p) : (u.apply x).pred p = u.pred p := by
  rw [Thread.pred, Thread.pred, Thread.apply_preds]
  cases x with
  | pred p' b =>
    have hne : p' ≠ p := fun e => h ⟨b, by rw [e]⟩
    dsimp only
    split
    · rfl
    · split <;> simp [List.getD_eq_getElem?_getD, List.getElem?_set_ne hne]
  | _ => rfl

theorem Thread.apply_reg_same (r : Nat) (v : Word) (m : Option Mark) (u : Thread) (h : r < u.regs.length) : (u.apply (.reg r v m)).reg r = v := by
  simp [Thread.reg, Thread.apply_regs, List.getD_eq_getElem?_getD, h]

theorem Thread.apply_pred_same (p : Nat) (b : Bool) (u : Thread) (hp : p < 7) (h : p < u.preds.length) : (u.apply (.pred p b)).pred p = b := by
  simp [Thread.pred, Thread.apply_preds, hp.ne, List.getD_eq_getElem?_getD, h]

theorem Thread.apply_regs_length (u : Thread) (x : Landing) : (u.apply x).regs.length = u.regs.length := by
  rw [Thread.apply_regs]
  split
  · exact List.length_set
  · rfl

theorem Thread.apply_preds_length (u : Thread) (x : Landing) : (u.apply x).preds.length = u.preds.length := by
  rw [Thread.apply_preds]
  split
  · split
    · rfl
    · exact List.length_set
  · rfl

theorem mem_insertWrite {w y : PendingWrite} {l : List PendingWrite} (h : y ∈ insertWrite w l) : y = w ∨ y ∈ l := by
  induction l with
  | nil => exact .inl (List.mem_singleton.mp h)
  | cons x l ih =>
    unfold insertWrite at h
    split at h
    · exact List.mem_cons.mp h
    · rcases List.mem_cons.mp h with rfl | h
      · exact .inr (List.mem_cons_self ..)
      · exact (ih h).imp_right (List.mem_cons_of_mem _)

/-- A write enters in issue order (R32). -/
theorem insertWrite_sorted (w : PendingWrite) {l : List PendingWrite} (h : l.Pairwise fun x y => x.seq ≤ y.seq) :
    (insertWrite w l).Pairwise fun x y => x.seq ≤ y.seq := by
  induction l with
  | nil => exact List.pairwise_singleton ..
  | cons x l ih =>
    rw [List.pairwise_cons] at h
    unfold insertWrite
    split
    next hlt =>
      refine List.pairwise_cons.mpr ⟨fun y hy => ?_, List.pairwise_cons.mpr h⟩
      rcases List.mem_cons.mp hy with rfl | hy
      · omega
      · have := h.1 y hy; omega
    next hlt =>
      refine List.pairwise_cons.mpr ⟨fun y hy => ?_, ih h.2⟩
      rcases mem_insertWrite hy with rfl | hy
      · omega
      · exact h.1 y hy

/-- Settles O36. -/
theorem latestIssueLandsLast : Obligations.LatestIssueLandsLast := by
  intro t clk hs due
  have hdue : due.Pairwise fun x y => x.seq ≤ y.seq := hs.filter _
  refine ⟨fun r v m w hr hw hv latest => ?_, fun r hn => ?_, fun p b w h7 hp hw hb latest => ?_, fun p hn => ?_, fun w => insertWrite_sorted w hs,
    Thread.landList_writes _ _⟩
  · exact Thread.landList_latest (get := (·.reg r)) (Thread.apply_reg_other r) (holds := fun u => r < u.regs.length) (fun u x h => by rwa [Thread.apply_regs_length])
      (fun u h => by rw [hv]; exact u.apply_reg_same r v m h) hdue hw latest hr
  · exact Thread.landList_kept (get := (·.reg r)) (names := Landing.namesReg r) (Thread.apply_reg_other r) (fun x hx ⟨v, m, e⟩ => hn x hx v m e) _
  · exact Thread.landList_latest (get := (·.pred p)) (Thread.apply_pred_other p) (holds := fun u => p < u.preds.length) (fun u x h => by rwa [Thread.apply_preds_length])
      (fun u h => by rw [hb]; exact u.apply_pred_same p b h7 h) hdue hw latest hp
  · exact Thread.landList_kept (get := (·.pred p)) (names := Landing.namesPred p) (Thread.apply_pred_other p) (fun x hx ⟨b, e⟩ => hn x hx b e) _

end Sys2Proof.Machine
end

section
/-! THE ORDER OF A MEMORY INSTRUCTION'S CHECKS (O34): what each check that fails makes of the instruction, for whatever instruction makes the
checks (spec/07_isa_memory_access.md R135-R138, spec/14_translation_and_versions.md R264, R265, spec/22_debug_and_trace.md R382). -/

namespace Sys2Proof.Machine

variable {s : State} {k : Nat} {t : Thread} {i : Instr} {q : Issue} {named reads : List Nat} {a : Word} {align n : Nat} {need : Need} {rd wr : Bool}
  {kind : Kind} {f : FaultInfo} {l : Leaf}

/-! ## An execution that faults -/

theorem Issue.Executes.mono {named' reads' : List Nat} (h : q.Executes t named reads) (hn : ∀ r ∈ named', r ∈ named) (hr : ∀ r ∈ reads', r ∈ reads) :
    q.Executes t named' reads' :=
  ⟨fun r hm => h.range r (hn r hm), h.guard, fun r hm => h.clean r (hr r hm), h.runs⟩

/-- The instruction's only effect is that its thread raises f. -/
def State.Raises (s : State) (i : Instr) (k : Nat) (t : Thread) (f : FaultInfo) : Prop := exec i s = .next (s.raiseAll [(k, t.pc, f)])

/-- An instruction whose body faults for the gang's thread. -/
theorem raises_of_body {adv : Bool} {body : Body} (hx : exec i s = .next (s.runGang q named reads adv body)) (ha : s.Alone k t)
    (e : q.Executes t named reads) (hb : body s k [k] = .error f) : s.Raises i k t f := by
  rw [State.Raises, hx, runGang_alone ha e, hb]

/-- A fault that no comparator and no register's mark is told of (R356). -/
theorem State.Raises.takes (h : s.Raises i k t f) (hh : f.hits = 0) (hr : f.reader = none) :
    exec i s = .next (s.takeFault k t.pc s.inst (2 ^ laneOf k) f) := h.trans (congrArg _ (raiseAll_one s k t.pc f hh hr))

/-- A watchpoint's fault sets the bits of the comparators that matched (R382). -/
theorem State.Raises.watched (h : s.Raises i k t f) (hh : f.hits ≠ 0) (hr : f.reader = none) :
    exec i s = .next ((s.setReg (Off.dbg (coreOf k) 0x60) (s.reg (Off.dbg (coreOf k) 0x60) ||| BitVec.ofNat 64 f.hits)).takeFault k t.pc s.inst
      (2 ^ laneOf k) f) := by
  rw [State.Raises] at h
  rw [h]
  simp [State.raiseAll, hh, hr, laneMask]

/-! ## The checks one by one (R136) -/

theorem bits_63_57 (a : Word) : bits a 63 57 = 0 ↔ a.extractLsb' 57 7 = 0 := by
  rw [← BitVec.toNat_inj]
  simp [bits, BitVec.extractLsb'_toNat, Nat.shiftRight_eq_div_pow]

theorem State.check4_high (h : a.extractLsb' 57 7 ≠ 0) : s.check4 k t a align n need rd wr kind = .error { cause := .badaddr, kind := kind, addr := a } :=
  if_pos (mt (bits_63_57 a).mp h)

section
variable (h0 : a.extractLsb' 57 7 = 0)
include h0

theorem State.check4_misaligned (hm : a.toNat % align ≠ 0) :
    s.check4 k t a align n need rd wr kind = .error { cause := .misalign, kind := kind, addr := a } := by
  rw [State.check4, if_neg (not_not.mpr ((bits_63_57 a).mpr h0)), if_pos hm]

variable (hm : a.toNat % align = 0)
include hm

theorem State.check4_walk {c : Cause} (hw : s.leafFor (Agent.core k) (s.ctxOf t) a need = .error c) :
    s.check4 k t a align n need rd wr kind = .error { cause := c, kind := kind, addr := a } := by
  rw [State.check4, if_neg (not_not.mpr ((bits_63_57 a).mpr h0)), if_neg (not_not.mpr hm), hw]

variable (hw : s.leafFor (Agent.core k) (s.ctxOf t) a need = .ok l)
include hw

theorem State.check4_watch (hs : t.skipWatch = false) (hh : s.watchHits k t a n rd wr ≠ 0) :
    s.check4 k t a align n need rd wr kind = .error { cause := .watch, kind := kind, addr := a, hits := s.watchHits k t a n rd wr } := by
  rw [State.check4, if_neg (not_not.mpr ((bits_63_57 a).mpr h0)), if_neg (not_not.mpr hm), hw]
  simp [hs, hh]

theorem State.check4_passes (hh : t.skipWatch = true ∨ s.watchHits k t a n rd wr = 0) : s.check4 k t a align n need rd wr kind = .ok l := by
  rw [State.check4, if_neg (not_not.mpr ((bits_63_57 a).mpr h0)), if_neg (not_not.mpr hm), hw]
  rcases hh with h | h <;> simp [h]

end

theorem State.check5_of_check4 (h : s.check4 k t a align n need rd wr kind = .error f) : s.check5 k t a align n need rd wr kind = .error f := by
  rw [State.check5, h]

theorem State.check5_away (h : s.check4 k t a align n need rd wr kind = .ok l) (hp : s.place (Agent.core k) (s.ctxOf t) a n l = .error .away) :
    s.check5 k t a align n need rd wr kind = .error { cause := .nonres, kind := kind, addr := a } := by
  rw [State.check5, h]
  simp only [hp]

/-! ## Instructions that make the checks -/

/-- Whatever check4 finds wrong at a is what the instruction raises, naming a step. -/
def State.ChecksFirst (s : State) (i : Instr) (k : Nat) (t : Thread) (a : Word) (align n : Nat) (need : Need) (rd wr : Bool) (kind : Kind) (step : Nat) : Prop :=
  ∀ f, s.check4 k t a align n need rd wr kind = .error f → s.Raises i k t { f with step := step }

/-- Each check that fails faults in its order, with the instruction's kind, address and step. -/
theorem State.ChecksFirst.inOrder {step : Nat} (h : s.ChecksFirst i k t a align n need rd wr kind step) :
    let high := a.extractLsb' 57 7 ≠ 0
    let walk := s.leafFor (Agent.core k) (s.ctxOf t) a need
    let faults := fun (c : Cause) =>
      exec i s = .next (s.takeFault k t.pc s.inst (2 ^ laneOf k) { cause := c, kind := kind, addr := a, step := step })
    (high → faults .badaddr) ∧ (¬high → a.toNat % align ≠ 0 → faults .misalign) ∧
    (∀ e, ¬high → a.toNat % align = 0 → walk = .error e → faults e) ∧
    (∀ l, ¬high → a.toNat % align = 0 → walk = .ok l → t.skipWatch = false → s.watchHits k t a n rd wr ≠ 0 →
      exec i s = .next ((s.setReg (Off.dbg (coreOf k) 0x60) (s.reg (Off.dbg (coreOf k) 0x60) ||| BitVec.ofNat 64 (s.watchHits k t a n rd wr))).takeFault
        k t.pc s.inst (2 ^ laneOf k) { cause := .watch, kind := kind, addr := a, step := step, hits := s.watchHits k t a n rd wr })) := by
  refine ⟨fun hh => ?_, fun hh hm => ?_, fun e hh hm hw => ?_, fun l hh hm hw hs hits => ?_⟩
  · exact (h _ (State.check4_high hh)).takes rfl rfl
  · exact (h _ (State.check4_misaligned (not_not.mp hh) hm)).takes rfl rfl
  · exact (h _ (State.check4_walk (not_not.mp hh) hm hw)).takes rfl rfl
  · exact (h _ (State.check4_watch (not_not.mp hh) hm hw hs hits)).watched hits rfl

theorem State.check4_step (h : s.check4 k t a align n need rd wr kind = .error f) : f.step = 0 := by
  unfold State.check4 at h
  split at h
  · cases h; rfl
  split at h
  · cases h; rfl
  split at h
  · cases h; rfl
  · dsimp only at h
    generalize (if t.skipWatch = true then 0 else s.watchHits k t a n rd wr) = hits at h
    split at h <;> cases h
    rfl

theorem State.ChecksFirst.of_step_zero (h : ∀ f, s.check4 k t a align n need rd wr kind = .error f → s.Raises i k t f) :
    s.ChecksFirst i k t a align n need rd wr kind 0 := fun f hf => by
  have := h f hf
  rwa [← State.check4_step hf]

/-- The checks come first, and then the residency of the page, where it is taken for a fault. -/
structure State.ChecksAll (s : State) (i : Instr) (k : Nat) (t : Thread) (a : Word) (align n : Nat) (need : Need) (rd wr : Bool) (kind : Kind) (taken : Prop) : Prop where
  first : s.ChecksFirst i k t a align n need rd wr kind 0
  away  : taken → ∀ l, s.check4 k t a align n need rd wr kind = .ok l → s.place (Agent.core k) (s.ctxOf t) a n l = .error .away →
    s.Raises i k t { cause := .nonres, kind := kind, addr := a }

theorem State.ChecksAll.nonres {taken : Prop} (h : s.ChecksAll i k t a align n need rd wr kind taken) :
    ∀ l, a.extractLsb' 57 7 = 0 → a.toNat % align = 0 → s.leafFor (Agent.core k) (s.ctxOf t) a need = .ok l →
      (t.skipWatch = true ∨ s.watchHits k t a n rd wr = 0) → s.place (Agent.core k) (s.ctxOf t) a n l = .error .away → taken →
      exec i s = .next (s.takeFault k t.pc s.inst (2 ^ laneOf k) { cause := .nonres, kind := kind, addr := a, step := 0 }) :=
  fun _ hh hm hw hs hp ht => (h.away ht _ (State.check4_passes hh hm hw hs) hp).takes rfl rfl

/-- An instruction that raises whatever check5 finds wrong. -/
theorem State.ChecksAll.of_check5 (h : ∀ f, s.check5 k t a align n need rd wr kind = .error f → s.Raises i k t f) :
    s.ChecksAll i k t a align n need rd wr kind True :=
  ⟨.of_step_zero fun f hf => h f (State.check5_of_check4 hf), fun _ _ hl hp => h _ (State.check5_away hl hp)⟩

/-! ## Each family of instructions -/

section
variable (ha : s.Alone k t) {c : Ctl} {off : BitVec 12} {pr : PReg} {va vb vd src : Reg}
include ha

omit ha in
theorem awayOp_seven {s : State} {l : Nat} {recv : List Nat} {zeros : List Landing} {st : Nat} (h : pr = 7) :
    s.awayOp q l recv pr.toNat kind a zeros st = .error { cause := .nonres, kind := kind, addr := a, step := st } := by
  subst h; rfl

theorem execLoad_checks {hint n : Nat} {sgn : Bool} (e : (issue64 c).Executes t [vd.toNat, va.toNat] [va.toNat])
    (hx : exec i s = .next (s.execLoad c off pr hint n sgn vd va)) :
    s.ChecksAll i k t (t.reg va.toNat + off.signExtend 64) n n .read true false .load (pr = 7) :=
  ⟨.of_step_zero fun f hf => raises_of_body hx ha e (by simp only [ha.thr, Thread.ea, hf]),
   fun hpr l hl hp => raises_of_body hx ha e (by simp only [ha.thr, Thread.ea, hl, hp, awayOp_seven hpr])⟩

theorem execFe_checks {o : FeOp} {waits : Bool} {ord : Order} {src : Option Nat} {dst : Nat} {zeros : List Landing}
    (e : (issue64 c).Executes t (va.toNat :: named) (va.toNat :: reads))
    (hx : exec i s = .next (s.execFe c off pr o named reads need rd wr waits ord src dst zeros va)) :
    s.ChecksAll i k t (t.reg va.toNat + off.signExtend 64) 8 8 need rd wr .fe (pr = 7) :=
  ⟨.of_step_zero fun f hf => raises_of_body hx ha e (by simp only [ha.thr, Thread.ea, hf]),
   fun hpr l hl hp => raises_of_body hx ha e (by simp only [ha.thr, Thread.ea, hl, hp, awayOp_seven hpr])⟩

theorem execStore_checks {hint n : Nat} (e : (issue64 c).Executes t [src.toNat, va.toNat] [src.toNat, va.toNat])
    (hx : exec i s = .next (s.execStore c off hint n src va)) :
    s.ChecksAll i k t (t.reg va.toNat + off.signExtend 64) n n .write false true .store True :=
  .of_check5 fun f hf => raises_of_body hx ha e (by simp only [ha.thr, Thread.ea, hf])

theorem execAtomic_checks {four : Bool} {fn : AtomFn} {ord : Order} {va vx : Nat} {vy vd : Option Nat}
    (e : (issue64 c).Executes t (va :: named) (va :: reads)) (hx : exec i s = .next (s.execAtomic c four fn ord named reads va vx vy vd)) :
    s.ChecksAll i k t (t.reg va) (if four then 4 else 8) (if four then 4 else 8) .write true true .atomic True :=
  .of_check5 fun f hf => raises_of_body hx ha e (by simp only [ha.thr, atomSize, hf])

theorem execSignal_checks {sc : Scope} {fill : Bool} (e : (issue64 c).Executes t [va.toNat, vb.toNat] [va.toNat, vb.toNat]) :
    s.ChecksAll (.signal c sc fill va vb) k t (t.reg va.toNat) 8 8 .write false true .store True :=
  .of_check5 fun f hf => raises_of_body rfl ha e (by simp only [ha.thr, hf])

theorem execCallt_checks {pd : PReg} (e : (issue64 c).Executes t [vd.toNat, va.toNat, vb.toNat] [va.toNat, vb.toNat]) :
    s.ChecksAll (.callt c pd vd va vb) k t (t.reg va.toNat) 64 8 .read true false .shtable True :=
  .of_check5 fun f hf => raises_of_body rfl ha e (by simp only [ha.thr, hf])

theorem execTouch_checks (e : (issue64 c).Executes t [va.toNat] [va.toNat]) :
    s.ChecksFirst (.touch c off pr va) k t (t.reg va.toNat + off.signExtend 64) 1 1 .read true false .load 0 :=
  .of_step_zero fun f hf => raises_of_body rfl ha e (by simp only [ha.thr, Thread.ea, hf])

theorem execCctl_checks {op : CctlOp} (hop : op ≠ .iinvall) (e : (issue64 c).Executes t [va.toNat] [va.toNat]) :
    s.ChecksFirst (.cctl c off op va) k t (t.reg va.toNat + off.signExtend 64) 1 1 .read true false .load 0 :=
  .of_step_zero fun f hf => raises_of_body rfl ha e (by simp only [ha.thr, Thread.ea, hf, if_neg hop])

/-- IINVALL translates nothing, but its address has its form (R136, R146). -/
theorem execIinvall_high (e : (issue64 c).Executes t [va.toNat] [va.toNat]) (h : (t.reg va.toNat + off.signExtend 64).extractLsb' 57 7 ≠ 0) :
    s.Raises (.cctl c off .iinvall va) k t { cause := .badaddr, kind := .load, addr := t.reg va.toNat + off.signExtend 64 } :=
  raises_of_body rfl ha e (by simp only [ha.thr, Thread.ea, if_true, State.checkUntranslated, if_pos (mt (bits_63_57 _).mp h)])

theorem execVretire_checks (e : (issue64 c).Executes t [va.toNat, vb.toNat] [va.toNat, vb.toNat]) :
    s.ChecksFirst (.vretire c va vb) k t (t.reg va.toNat) 1 1 .write false false .versioned ((t.reg vb.toNat).toNat % 2 ^ 32) :=
  fun f hf => raises_of_body rfl ha e (by simp only [ha.thr, hf])

/-! ### LDV: its version checks stand before residency (R264) -/

section
variable {size : LdSize} (e : (issue64 c).Executes t [vd.toNat, va.toNat, vb.toNat] [va.toNat, vb.toNat])
include e

theorem execLdv_checks : s.ChecksFirst (.ldv c size pr vd va vb) k t (t.reg va.toNat) (ldvSize size).1 (ldvSize size).1 .read true false .versioned
    ((t.reg vb.toNat).toNat % 2 ^ 32) :=
  fun f hf => raises_of_body rfl ha e (by simp only [ha.thr, hf])

variable (hl : s.check4 k t (t.reg va.toNat) (ldvSize size).1 (ldvSize size).1 .read true false .versioned = .ok l)
include hl

theorem execLdv_unversioned (hv : l.versioned = false) :
    s.Raises (.ldv c size pr vd va vb) k t { cause := .vnone, kind := .versioned, addr := t.reg va.toNat, step := (t.reg vb.toNat).toNat % 2 ^ 32 } :=
  raises_of_body rfl ha e (by simp only [ha.thr, hl, hv]; rfl)

variable (hv : l.versioned = true)
include hv

theorem execLdv_future (h : (s.regionWO (some (dieOf k)) (s.regionOf l.record)).1 < (t.reg vb.toNat).toNat % 2 ^ 32) :
    s.Raises (.ldv c size pr vd va vb) k t { cause := .vfuture, kind := .versioned, addr := t.reg va.toNat, step := (t.reg vb.toNat).toNat % 2 ^ 32 } :=
  raises_of_body rfl ha e (by simp only [ha.thr, hl, hv, Bool.not_true, Bool.false_eq_true, if_false, if_pos h])

theorem execLdv_working (h : (t.reg vb.toNat).toNat % 2 ^ 32 = (s.regionWO (some (dieOf k)) (s.regionOf l.record)).1) :
    s.Raises (.ldv c size pr vd va vb) k t { cause := .workingread, kind := .versioned, addr := t.reg va.toNat, step := (t.reg vb.toNat).toNat % 2 ^ 32 } :=
  raises_of_body rfl ha e (by simp only [ha.thr, hl, hv, Bool.not_true, Bool.false_eq_true, if_false, ← h, lt_irrefl, if_true])

variable (hw : (t.reg vb.toNat).toNat % 2 ^ 32 < (s.regionWO (some (dieOf k)) (s.regionOf l.record)).1)
include hw

theorem execLdv_retired (h : (t.reg vb.toNat).toNat % 2 ^ 32 < (s.regionWO (some (dieOf k)) (s.regionOf l.record)).2) :
    s.Raises (.ldv c size pr vd va vb) k t { cause := .vretired, kind := .versioned, addr := t.reg va.toNat, step := (t.reg vb.toNat).toNat % 2 ^ 32 } :=
  raises_of_body rfl ha e (by
    simp only [ha.thr, hl, hv, Bool.not_true, Bool.false_eq_true, if_false, if_neg hw.not_gt, if_neg hw.ne, if_pos h])

theorem execLdv_away (h : (s.regionWO (some (dieOf k)) (s.regionOf l.record)).2 ≤ (t.reg vb.toNat).toNat % 2 ^ 32) {f : Nat}
    (hf : s.resolve l.record ((t.reg vb.toNat).toNat % 2 ^ 32) = some f) (hd : isDevice f = true) (hres : l.resident = false) (hpr : pr = 7) :
    s.Raises (.ldv c size pr vd va vb) k t { cause := .nonres, kind := .versioned, addr := t.reg va.toNat, step := (t.reg vb.toNat).toNat % 2 ^ 32 } :=
  raises_of_body rfl ha e (by
    simp only [ha.thr, hl, hv, Bool.not_true, Bool.false_eq_true, if_false, if_neg hw.not_gt, if_neg hw.ne, if_neg h.not_gt, hf, hd, hres, Bool.not_false,
      if_true, awayOp_seven hpr])

end

/-! ### Calls and returns: the spill and the fill of the return stack (R24, R25) -/

omit ha in
theorem State.push_spill_faults {also : List Landing} {ret : Pc} (ht : s.thr k = t) (hw : t.hw.length = 8) (hd : t.depth ≠ 512)
    (hf : s.check5 k t (t.tlsbase + BitVec.ofNat 64 (8 * t.depth)) 8 8 .write false true .retstack = .error f) :
    s.push q k ret also = .error f := by
  simp [State.push, ht, hw, hd, hf]

omit ha in
theorem State.callTo_spill_faults {pc : Pc} {l : List Landing} (ht : s.thr k = t) (hw : t.hw.length = 8) (hd : t.depth ≠ 512)
    (hf : s.check5 k t (t.tlsbase + BitVec.ofNat 64 (8 * t.depth)) 8 8 .write false true .retstack = .error f) :
    s.callTo c k pc l = .error f := by
  simp only [State.callTo, State.push_spill_faults ht hw hd hf]

theorem execCall_checks {d : BitVec 24} (e : (issue64 c).Executes t [] []) (hw : t.hw.length = 8) (hd : t.depth ≠ 512) :
    s.ChecksAll (.call c d) k t (t.tlsbase + BitVec.ofNat 64 (8 * t.depth)) 8 8 .write false true .retstack True :=
  .of_check5 fun _ hf => raises_of_body rfl ha e (State.callTo_spill_faults ha.thr hw hd hf)

theorem execCallr_checks (e : (issue64 c).Executes t [va.toNat] [va.toNat]) (h : targetOk (t.reg va.toNat) = true) (hw : t.hw.length = 8)
    (hd : t.depth ≠ 512) : s.ChecksAll (.callr c va) k t (t.tlsbase + BitVec.ofNat 64 (8 * t.depth)) 8 8 .write false true .retstack True :=
  .of_check5 fun f hf => raises_of_body rfl ha e (by simp only [ha.thr, h, if_true, State.callTo_spill_faults ha.thr hw hd hf])

theorem execRet_checks (e : (issue64 c).Executes t [] []) (hw : t.hw = []) (hd : t.depth ≠ 0) :
    s.ChecksAll (.ret c) k t (t.tlsbase + BitVec.ofNat 64 (8 * (t.depth - 1))) 8 8 .read true false .retstack True :=
  .of_check5 fun f hf => raises_of_body rfl ha e (by simp only [ha.thr, hw, List.getLast?_nil, if_neg hd, hf])

end

theorem targetOk_iff (v : Word) : targetOk v = true ↔ v.extractLsb' 57 7 = 0 ∧ v.getLsbD 0 = false := by
  rw [targetOk, Bool.and_eq_true, beq_iff_eq, bits_63_57, Bool.not_eq_true']
  rfl

/-! ## The statement -/

/-- Settles O34: for each instruction that its body raises what the checks find, in their order. -/
theorem memoryCheckOrder : Obligations.MemoryCheckOrder := by
  intro s k t c off pr pd hint sc fill vd va vb vc ha q ea base faults watched checks order two three
  have all : ∀ {i : Instr} {a : Word} {align n : Nat} {need : Need} {rd wr : Bool} {kind : Kind} {taken : Prop},
      s.ChecksAll i k t a align n need rd wr kind taken → order i a align n need rd wr kind taken := fun h => ⟨h.first.inOrder, h.nonres⟩
  refine ⟨fun e => ?_, fun e => ?_, fun e => ?_, fun size e => ?_, fun e => ?_, fun op ty four ord => ?_, fun e => all (execCallt_checks ha e), ?_⟩
  · have e' : q.Executes t [va.toNat, vd.toNat] [va.toNat] := e.mono (by simp) (by simp)
    have load : ∀ {i : Instr} {hint n : Nat} {sgn : Bool}, exec i s = .next (s.execLoad c off pr hint n sgn vd va) →
        order i ea n n .read true false .load (pr = 7) := fun hx => all (execLoad_checks ha e hx)
    exact ⟨load rfl, load rfl, load rfl, load rfl, load rfl, load rfl, load rfl, all (execFe_checks ha e' rfl), all (execFe_checks ha e' rfl)⟩
  · have e' : q.Executes t [va.toNat, vd.toNat] [va.toNat, vd.toNat] := e.mono (by simp [or_comm]) (by simp [or_comm])
    have store : ∀ {i : Instr} {hint n : Nat}, exec i s = .next (s.execStore c off hint n vd va) → order i ea n n .write false true .store True :=
      fun hx => all (execStore_checks ha e hx)
    exact ⟨store rfl, store rfl, store rfl, store rfl, all (execFe_checks ha e' rfl), all (execFe_checks ha e' rfl)⟩
  · exact ⟨all (execFe_checks ha e rfl), all (execFe_checks ha e rfl), (execTouch_checks ha e).inOrder, fun op hop => (execCctl_checks ha hop e).inOrder,
      fun hh => (execIinvall_high ha e hh).takes rfl rfl⟩
  · refine ⟨(execLdv_checks ha e).inOrder, fun l hl => ⟨fun hv => ?_, fun hv h => ?_, fun hv h => ?_, fun hv hw h => ?_, fun f hv hw h hf hd hres hpr => ?_⟩⟩
    · exact (execLdv_unversioned ha e hl hv).takes rfl rfl
    · exact (execLdv_future ha e hl hv h).takes rfl rfl
    · exact (execLdv_working ha e hl hv h).takes rfl rfl
    · exact (execLdv_retired ha e hl hv hw h).takes rfl rfl
    · exact (execLdv_away ha e hl hv hw h hf hd hres hpr).takes rfl rfl
  · exact ⟨all (execSignal_checks ha e), (execVretire_checks ha e).inOrder⟩
  · exact ⟨fun e => all (execAtomic_checks ha (e.mono (by simp [three, or_left_comm]) (by simp [two])) rfl), fun e => all (execAtomic_checks ha e rfl),
      fun e => all (execAtomic_checks ha (e.mono (by simp [or_left_comm]) (by simp)) rfl)⟩
  · exact ⟨fun d e hw hd => all (execCall_checks ha e hw hd), fun e h1 h2 hw hd => all (execCallr_checks ha e ((targetOk_iff _).mpr ⟨h1, h2⟩) hw hd),
      fun e hw hd => all (execRet_checks ha e hw hd)⟩

end Sys2Proof.Machine
end

section
/-! A STEP RUNS THE DECODED INSTRUCTION (O57): what an issue does with the parcels that it fetches, how many they are, and the bytes they are
(spec/02_one_thread.md R22, spec/04_encoding_and_assembly.md R64, R73, spec/08_parallel_work.md R158, R159). -/

namespace Sys2Proof.Machine

variable {s : State} {k : Nat} {g : List Nat} {w : Word} {s1 : State}

/-! ## The step of an issue -/

theorem State.front_fetched (hp : s.pendingOf k = none) (hf : s.fetchInst k (s.thr k).pc = .ok (w, s1)) :
    s.front k = match decodeWord w with
      | .ok i => (.inst w i, s1)
      | .error _ => (.ill w, s1) := by
  rw [State.front, hp, hf]
  rfl

section
variable (hm : s.nextMove = .issue (k :: g)) (hp : s.pendingOf k = none) (hf : s.fetchInst k (s.thr k).pc = .ok (w, s1))
include hm hp hf

/-- The step of an issue that fetches an instruction is what exec makes of it, then the end of the gang's turn. -/
theorem step_issue {i : Instr} (hd : decodeWord w = .ok i) :
    step s = match exec i { s1 with gang := k :: g, inst := w } with
      | .next s2 => .next (State.afterIssue { s1 with gang := k :: g, inst := w } s2).moved
      | .fault f => .fault f
      | .refused r => .refused r := by
  have hfront : s.front k = (.inst w i, s1) := by rw [State.front_fetched hp hf, hd]
  simp only [step, hm, State.act, State.issueGang, hfront]
  cases exec i { s1 with gang := k :: g, inst := w } <;> rfl

/-- The step of an issue that fetches parcels of no instruction raises ILLEGAL in each member of the gang (R73). -/
theorem step_issue_illegal {e : DecodeErr} (hd : decodeWord w = .error e) :
    step s = .next (State.afterIssue { s1 with gang := k :: g, inst := w }
      (State.raiseAll { s1 with gang := k :: g, inst := w } ((k :: g).map fun j => (j, (s.thr j).pc, { cause := .illegal })))).moved := by
  have hfront : s.front k = (.ill w, s1) := by rw [State.front_fetched hp hf, hd]
  simp only [step, hm, State.act, State.issueGang, hfront]

end

/-! ## The parcels (R64) -/

variable {pc : Pc} {p0 p1 p2 p3 : Nat}

theorem State.fetchParcel_lt (h : s.fetchParcel k pc = .ok p0) : p0 < 65536 := by
  unfold State.fetchParcel at h
  split at h
  · cases h
  next x _ =>
    cases h
    have := ((s.fetchLine k x.key (x.pa / 256)).getD (x.pa % 256) 0).isLt
    have := ((s.fetchLine k x.key (x.pa / 256)).getD (x.pa % 256 + 1) 0).isLt
    omega

theorem State.fetchParcels_succ {n q : Nat} (h0 : s.fetchParcel k pc = .ok p0) (h : s.fetchParcels k (pc + 2) n = .ok q) :
    s.fetchParcels k pc (n + 1) = .ok (p0 + 65536 * q) := by rw [State.fetchParcels, h0, h]

theorem State.fetchParcels_one (h0 : s.fetchParcel k pc = .ok p0) : s.fetchParcels k pc 1 = .ok p0 := State.fetchParcels_succ (n := 0) (q := 0) h0 rfl

/-- The first parcel says how many there are. -/
theorem State.fetchInst_of_parcels {n v : Nat} (h0 : s.fetchParcel k pc = .ok p0) (hn : lengthOf (BitVec.ofNat 16 p0) / 2 = n)
    (h : s.fetchParcels k pc n = .ok v) : ∃ s1, s.fetchInst k pc = .ok (BitVec.ofNat 64 v, s1) := by
  subst hn
  exact ⟨_, by rw [State.fetchInst, h0]; simp only [h]; rfl⟩

/-- The length by the two lowest bits of the first parcel. -/
theorem lengthOf_ofNat (p : Nat) : lengthOf (BitVec.ofNat 16 p) = if p % 2 = 0 then 2 else if p % 4 = 3 then 8 else 4 := by
  have h0 : (BitVec.ofNat 16 p).getLsbD 0 = decide (p % 2 = 1) := by
    rw [BitVec.getLsbD_ofNat, Nat.testBit_zero]; rfl
  have h1 : (BitVec.ofNat 16 p).getLsbD 1 = decide (p / 2 % 2 = 1) := by
    rw [BitVec.getLsbD_ofNat, Nat.testBit_succ, Nat.testBit_zero]; rfl
  rw [Laws.Length.lengthOf_eq, h0, h1]
  rcases Nat.mod_two_eq_zero_or_one p with h | h
  · simp [h]
  · rcases Nat.mod_two_eq_zero_or_one (p / 2) with h2 | h2
    · have : p % 4 ≠ 3 := by omega
      simp [h, h2, this]
    · have : p % 4 = 3 := by omega
      simp [h, h2, this]

theorem State.fetchInst_two (h0 : s.fetchParcel k pc = .ok p0) (hp : p0 % 2 = 0) : ∃ s1, s.fetchInst k pc = .ok (BitVec.ofNat 64 p0, s1) := by
  have hn : lengthOf (BitVec.ofNat 16 p0) / 2 = 1 := by rw [lengthOf_ofNat, if_pos hp]
  exact State.fetchInst_of_parcels h0 hn (State.fetchParcels_one h0)

theorem State.fetchInst_four (h0 : s.fetchParcel k pc = .ok p0) (hp : p0 % 4 = 1) (h1 : s.fetchParcel k (pc + 2) = .ok p1) :
    ∃ s1, s.fetchInst k pc = .ok (BitVec.ofNat 64 (p0 + 2 ^ 16 * p1), s1) := by
  have hn : lengthOf (BitVec.ofNat 16 p0) / 2 = 2 := by rw [lengthOf_ofNat, if_neg (by omega), if_neg (by omega)]
  exact State.fetchInst_of_parcels h0 hn (State.fetchParcels_succ h0 (State.fetchParcels_one h1))

theorem State.fetchInst_eight (h0 : s.fetchParcel k pc = .ok p0) (hp : p0 % 4 = 3) (h1 : s.fetchParcel k (pc + 2) = .ok p1)
    (h2 : s.fetchParcel k (pc + 4) = .ok p2) (h3 : s.fetchParcel k (pc + 6) = .ok p3) :
    ∃ s1, s.fetchInst k pc = .ok (BitVec.ofNat 64 (p0 + 2 ^ 16 * p1 + 2 ^ 32 * p2 + 2 ^ 48 * p3), s1) := by
  have hn : lengthOf (BitVec.ofNat 16 p0) / 2 = 4 := by rw [lengthOf_ofNat, if_neg (by omega), if_pos hp]
  have e4 : pc + 2 + 2 = pc + 4 := by rw [BitVec.add_assoc]; rfl
  have e6 : pc + 2 + 2 + 2 = pc + 6 := by rw [e4, BitVec.add_assoc]; rfl
  have hv : p0 + 2 ^ 16 * p1 + 2 ^ 32 * p2 + 2 ^ 48 * p3 = p0 + 65536 * (p1 + 65536 * (p2 + 65536 * p3)) := by omega
  rw [hv]
  rw [← e4] at h2
  rw [← e6] at h3
  exact State.fetchInst_of_parcels h0 hn (State.fetchParcels_succ h0 (State.fetchParcels_succ h1 (State.fetchParcels_succ h2 (State.fetchParcels_one h3))))

/-! ## The bytes of a parcel (R2, R245) -/

theorem State.bytesAt_getD (s : State) (die : Option Nat) (key pa n : Nat) {i : Nat} (h : i < n) : (s.bytesAt die key pa n).getD i 0 = s.byteAt die key (pa + i) := by
  induction n generalizing pa i with
  | zero => omega
  | succ n ih =>
    rcases i with _ | i
    · rfl
    · rw [State.bytesAt, List.getD_cons_succ, ih _ (by omega)]
      congr 1
      omega

/-- The owner of a line of device memory is the package. -/
theorem State.lineOwner_device {pa : Nat} (h : isDevice pa = true) : s.lineOwner (pa / 256) = s := by
  have hlt : pa < 2 ^ 40 := by simpa [isDevice] using h
  have hpeer : isPeer (256 * (pa / 256)) = false := by simp [isPeer]; omega
  have hhost : s.fromHost (256 * (pa / 256)) = false := by
    have : isHost (256 * (pa / 256)) = false := by simp [isHost]; omega
    simp [State.fromHost, this]
  rw [State.lineOwner, hpeer, if_neg]
  simp only [Bool.false_or, List.all_eq_true, not_forall]
  exact ⟨0, by simp, by simp [hhost]⟩

/-- A parcel that no cached line holds is memory's, lower byte first. -/
theorem State.fetchParcel_uncached {x : Access} (hx : s.fetchAt k pc = .ok x) (hc : s.icLine (coreOf k) x.key (x.pa / 256) = none)
    (hi : x.pa % 256 + 1 < 256) :
    s.fetchParcel k pc = .ok (((s.lineOwner (x.pa / 256)).byteAt (some (dieOf k)) x.key x.pa).toNat +
      256 * ((s.lineOwner (x.pa / 256)).byteAt (some (dieOf k)) x.key (x.pa + 1)).toNat) := by
  have h0 : 256 * (x.pa / 256) + x.pa % 256 = x.pa := Nat.div_add_mod _ _
  have h1 : 256 * (x.pa / 256) + (x.pa % 256 + 1) = x.pa + 1 := by omega
  rw [State.fetchParcel, hx]
  simp only [State.fetchLine, hc, State.lineBytes]
  rw [State.bytesAt_getD _ _ _ _ _ (by omega), State.bytesAt_getD _ _ _ _ _ hi, h0, h1]

/-- Settles O57. -/
theorem stepRunsTheDecodedInstruction : Obligations.StepRunsTheDecodedInstruction := by
  intro s k
  refine ⟨?_, fun g w e s1 hm hp hf hd => step_issue_illegal hm hp hf hd, fun pc p0 h0 => ?_, fun pc x hx hc hi => ?_⟩
  · intro g w i s1 hm hp hf hd at_
    have h := step_issue hm hp hf hd
    exact ⟨fun s2 hx => by rw [h, hx], fun f hx => by rw [h, hx], fun r hx => by rw [h, hx]⟩
  · exact ⟨State.fetchInst_two h0, fun p1 hp => State.fetchInst_four h0 hp, fun p1 p2 p3 hp => State.fetchInst_eight h0 hp⟩
  · exact ⟨State.lineOwner_device, State.fetchParcel_uncached hx hc hi⟩

end Sys2Proof.Machine
end


section
/-! WHO SEES A STORE (O40): what a write inside one sector leaves of memory, keys and the writes on their way. -/

namespace Sys2Proof.Machine

/-- The sector of an address stands under no key or under key g's generation (R254). -/
def State.KeyedFor (s : State) (g pa : Nat) : Prop := s.keyTags.find (pa / 64) = none ∨ s.keyTags.find (pa / 64) = some (s.keyGen g)

theorem sectorsOf_one {pa n : Nat} (h : (pa + max n 1 - 1) / 64 = pa / 64) : sectorsOf pa n = [pa / 64] := by
  simp [sectorsOf, h]

/-- A write under the key that its sector stands under turns no byte: at most the sector takes the key's tag. -/
theorem State.rekey_keyedFor {s : State} {g pa n : Nat} (h : (pa + max n 1 - 1) / 64 = pa / 64) (hk : s.KeyedFor g pa) :
    ∃ tags, s.rekey (s.keyGen g) pa n = { s with keyTags := tags } ∧ (tags.find (pa / 64) = none ∨ tags.find (pa / 64) = some (s.keyGen g)) ∧
      ∀ sec, sec ≠ pa / 64 → tags.find sec = s.keyTags.find sec := by
  rw [State.rekey, sectorsOf_one h, List.foldl_cons, List.foldl_nil, State.rekeySector]
  split
  · exact ⟨_, rfl, hk, fun _ _ => rfl⟩
  · rcases hk with hk | hk <;> rw [hk]
    · exact ⟨_, rfl, .inr (Tbl.find_put_same ..), fun _ hs => Tbl.find_put_other _ _ hs⟩
    · exact ⟨_, if_pos rfl, .inr hk, fun _ _ => rfl⟩

/-- What such a write replaces: its own bytes, under the tag of their sector. -/
theorem State.replaced_keyedFor {s : State} {g pa n : Nat} (h : (pa + max n 1 - 1) / 64 = pa / 64) (hk : s.KeyedFor g pa) :
    s.replaced (s.keyGen g) pa n = ((List.range n).map fun i => (pa + i, Mem.read s.mem (pa + i)), [(pa / 64, s.keyTags.find (pa / 64))]) := by
  rw [State.replaced, sectorsOf_one h]
  rcases hk with hk | hk <;> simp [hk, Function.comp_def]

theorem Tbl.mapVals_id {α : Type} (t : Tbl α) : t.mapVals (fun _ x => x) = t := by simp [Tbl.mapVals]

theorem State.writePa_mem (s : State) (w : Writer) (g pa : Nat) (bs : List Byte) :
    (s.writePa w g pa bs none).mem = Mem.writeN (s.rekey (s.keyGen g) pa bs.length).mem pa bs := rfl

/-- The entry of a write of a thread or an engine among the writes on their way (R236, R237). -/
def State.onItsWay (s : State) (w : Writer) (g pa n : Nat) : Inflight :=
  { thrs := w.thrs, op := w.op, by_ := w.by_, past := w.past, heads := w.heads, dies := [0, 1, 2, 3].filter fun d => w.die != some d
    old := (s.replaced (s.keyGen g) pa n).1, gens := (s.replaced (s.keyGen g) pa n).2, oldFe := [] }

theorem State.writePa_inflight (s : State) {w : Writer} (hn : w.now = false) (g pa : Nat) (bs : List Byte) :
    (s.writePa w g pa bs none).inflight =
      (s.rekey (s.keyGen g) pa bs.length).inflight.put (s.rekey (s.keyGen g) pa bs.length).nextSeq (s.onItsWay w g pa bs.length) := by
  cases w
  subst hn
  exact congrArg (fun l => Tbl.put l _ _) (Tbl.mapVals_id _)

/-- A WRITE INSIDE ONE SECTOR, under the key that the sector stands under, as the reads of R236 and R254 see it: the bytes, the tags, and
the entry of the writes on their way. -/
theorem State.writePa_keyedFor {s : State} {g pa : Nat} {bs : List Byte} (w : Writer) (hn : w.now = false)
    (h : (pa + max bs.length 1 - 1) / 64 = pa / 64) (hk : s.KeyedFor g pa) :
    ∃ e : Inflight, (s.writePa w g pa bs none).inflight = s.inflight.put s.nextSeq e ∧
      e.dies = ([0, 1, 2, 3].filter fun d => w.die != some d) ∧
      e.old = ((List.range bs.length).map fun i => (pa + i, Mem.read s.mem (pa + i))) ∧ e.gens = [(pa / 64, s.keyTags.find (pa / 64))] ∧
      (s.writePa w g pa bs none).mem = Mem.writeN s.mem pa bs ∧ (s.writePa w g pa bs none).keyGens = s.keyGens ∧
      ((s.writePa w g pa bs none).KeyedFor g pa) ∧
      ∀ sec, sec ≠ pa / 64 → (s.writePa w g pa bs none).keyTags.find sec = s.keyTags.find sec := by
  obtain ⟨tags, hr, htag, hother⟩ := State.rekey_keyedFor (n := bs.length) h hk
  obtain ⟨ht, hg⟩ := State.foldl_ownSector_keys (sectorsOf pa bs.length) w.core w.die (s.rekey (s.keyGen g) pa bs.length)
  have htags : (s.writePa w g pa bs none).keyTags = tags := ht.trans (by rw [hr])
  have hgens : (s.writePa w g pa bs none).keyGens = s.keyGens := hg.trans (by rw [hr])
  have hown := State.replaced_keyedFor (n := bs.length) h hk
  refine ⟨_, (State.writePa_inflight s hn g pa bs).trans (by rw [hr]), rfl, congrArg (·.1) hown, congrArg (·.2) hown, ?_, hgens, ?_, fun sec hs => ?_⟩
  · rw [State.writePa_mem, hr]
  · rw [State.KeyedFor, State.keyGen_of_keyGens hgens, htags]
    exact htag
  · rw [htags]
    exact hother sec hs

/-! ## What a die still sees -/

section
variable {t : Tbl Inflight} {n d y : Nat} {e : Inflight}

/-- A write that a die has applied, or that replaced another byte, changes nothing of what the die still sees there. -/
theorem oldByte_put_other (hn : Tbl.find t n = none) (h : e.dies.contains d = false ∨ Tbl.find e.old y = none) :
    oldByte d y (Tbl.put t n e) = oldByte d y t := by
  have he : ∀ l, oldByte d y ((n, e) :: l) = oldByte d y l := fun l => by
    rw [oldByte]
    rcases h with h | h <;> rw [h]
    · rfl
    · exact ite_self _
  induction t with
  | nil => exact he []
  | cons x t ih =>
    obtain ⟨j, a⟩ := x
    rw [Tbl.find_cons] at hn
    split at hn
    · exact nomatch hn
    next hj =>
      rw [Tbl.put, if_neg (Ne.symm hj)]
      split
      · exact he _
      · rw [oldByte, oldByte, ih hn]

/-- What a write replaced is what a die that has not applied it still sees, where no other write is on its way. -/
theorem oldByte_put_same {b : Byte} (hd : e.dies.contains d = true) (hb : Tbl.find e.old y = some b) (h : ∀ x ∈ t, Tbl.find x.2.old y = none) :
    oldByte d y (Tbl.put t n e) = some (b, (Tbl.find e.gens (y / 64)).getD none) := by
  have he : ∀ l, oldByte d y ((n, e) :: l) = some (b, (Tbl.find e.gens (y / 64)).getD none) := fun l => by rw [oldByte, if_pos hd, hb]
  induction t with
  | nil => exact he []
  | cons x t ih =>
    obtain ⟨j, a⟩ := x
    rw [List.forall_mem_cons] at h
    rw [Tbl.put]
    split
    · exact he _
    · split
      · exact he _
      · rw [oldByte, h.1, ih h.2, ite_self]

theorem oldByte_none (h : ∀ x ∈ t, Tbl.find x.2.old y = none) : oldByte d y t = none := by
  induction t with
  | nil => rfl
  | cons x t ih =>
    rw [List.forall_mem_cons] at h
    rw [oldByte, h.1, ih h.2, ite_self]

end

/-! ## The bytes that agents read -/

/-- A byte of a sector under the reader's own key, or under none, is read as it is stored (R254). -/
theorem State.byteAt_plain {s : State} {die : Option Nat} {g x : Nat} {b : Byte} {w : Option Nat} (h : s.rawAt die x = (b, w))
    (hw : w = none ∨ w = some (s.keyGen g)) : s.byteAt die g x = b := by
  unfold State.byteAt
  rw [h]
  rcases hw with rfl | rfl
  · rfl
  · exact if_pos rfl

/-- Reads of one key in two states agree where the stored bytes of the address's 16 bytes and the tag do. -/
theorem State.byteAt_congr {s t : State} {die : Option Nat} {g x : Nat} (hg : t.keyGen g = s.keyGen g) (hx : t.rawAt die x = s.rawAt die x)
    (hb : ∀ i < 16, (t.rawAt die (x / 16 * 16 + i)).1 = (s.rawAt die (x / 16 * 16 + i)).1) : t.byteAt die g x = s.byteAt die g x := by
  have hm : ((List.range 16).map fun i => (t.rawAt die (x / 16 * 16 + i)).1) = (List.range 16).map fun i => (s.rawAt die (x / 16 * 16 + i)).1 :=
    List.map_congr_left fun i hi => hb i (List.mem_range.1 hi)
  unfold State.byteAt
  rw [hx, hm, hg]

theorem State.rawAt_of_applied {s : State} {die : Option Nat} {x : Nat} (h : ∀ d, die = some d → oldByte d x s.inflight = none) :
    s.rawAt die x = (Mem.read s.mem x, s.keyTags.find (x / 64)) := by
  cases die with
  | none => rfl
  | some d => rw [State.rawAt, h d rfl, Option.getD_none]

section
variable {s : State} {w : Writer} {g pa : Nat} {b : Byte} (hm : Mem.wf s.mem = true) (hk : s.KeyedFor g pa) (hw : w.now = false)
  (hn : s.inflight.find s.nextSeq = none)
include hk hw

theorem State.keyGen_writePa_one : (s.writePa w g pa [b] none).keyGen g = s.keyGen g := by
  obtain ⟨e, -, -, -, -, -, hg, -⟩ := State.writePa_keyedFor (bs := [b]) w hw (by simp) hk
  exact State.keyGen_of_keyGens hg g

theorem State.keyedFor_writePa_one : (s.writePa w g pa [b] none).KeyedFor g pa := by
  obtain ⟨e, -, -, -, -, -, -, h, -⟩ := State.writePa_keyedFor (bs := [b]) w hw (by simp) hk
  exact h

include hm in
theorem State.mem_writePa_one (y : Nat) : Mem.read (s.writePa w g pa [b] none).mem y = if y = pa then b else Mem.read s.mem y := by
  obtain ⟨e, -, -, -, -, he, -⟩ := State.writePa_keyedFor (bs := [b]) w hw (by simp) hk
  rw [he]
  exact Mem.read_write hm pa y b

include hn

theorem State.oldByte_writePa_other (d : Nat) {y : Nat} (hy : y ≠ pa) :
    oldByte d y (s.writePa w g pa [b] none).inflight = oldByte d y s.inflight := by
  obtain ⟨e, hi, -, ho, -⟩ := State.writePa_keyedFor (bs := [b]) w hw (by simp) hk
  rw [hi]
  exact oldByte_put_other hn (.inr (by simp [ho, Tbl.find_cons, Ne.symm hy]))

/-- A die in whose order the write has entered sees nothing of what it replaced. -/
theorem State.oldByte_writePa_own {d : Nat} (hd : w.die = some d) : oldByte d pa (s.writePa w g pa [b] none).inflight = oldByte d pa s.inflight := by
  obtain ⟨e, hi, he, -⟩ := State.writePa_keyedFor (bs := [b]) w hw (by simp) hk
  rw [hi]
  exact oldByte_put_other hn (.inl (by simp [he, hd]))

omit hn in
/-- Any other die still sees the byte that the write replaced, under the tag that its sector had. -/
theorem State.oldByte_writePa_away {d : Nat} (h4 : d < 4) (hd : w.die ≠ some d) (h : ∀ e ∈ s.inflight, Tbl.find e.2.old pa = none) :
    oldByte d pa (s.writePa w g pa [b] none).inflight = some (Mem.read s.mem pa, s.keyTags.find (pa / 64)) := by
  obtain ⟨e, hi, he, ho, hg, -⟩ := State.writePa_keyedFor (bs := [b]) w hw (by simp) hk
  have hc : e.dies.contains d = true := by
    rw [he, List.contains_iff_mem, List.mem_filter]
    exact ⟨by simp; omega, by simpa using hd⟩
  rw [hi, oldByte_put_same hc (b := Mem.read s.mem pa) (by simp [ho, Tbl.find_cons]) h, hg, Tbl.find_cons, if_pos rfl, Option.getD_some]

include hm

/-- An agent that has everything that was on its way at a byte reads it as before, where the write is elsewhere. -/
theorem State.byteAt_writePa_other {die : Option Nat} {y : Nat} (hy : y ≠ pa) (h : ∀ d, die = some d → oldByte d y s.inflight = none) :
    (s.writePa w g pa [b] none).byteAt die g y = s.byteAt die g y := by
  have hold := fun (d : Nat) {y : Nat} (hy : y ≠ pa) => State.oldByte_writePa_other (b := b) hk hw hn d hy
  have hraw := State.rawAt_of_applied (s := s.writePa w g pa [b] none) (die := die) (x := y) fun d e => (hold d hy).trans (h d e)
  have hkey := State.keyGen_writePa_one (b := b) hk hw
  rw [State.mem_writePa_one hm hk hw, if_neg hy] at hraw
  by_cases hs : y / 64 = pa / 64
  · rw [State.byteAt_plain hraw (hs ▸ State.keyedFor_writePa_one hk hw), State.byteAt_plain (State.rawAt_of_applied h) (hs ▸ hk)]
  · obtain ⟨e, -, -, -, -, -, -, -, htag⟩ := State.writePa_keyedFor (bs := [b]) w hw (by simp) hk
    refine State.byteAt_congr hkey (by rw [hraw, htag _ hs, State.rawAt_of_applied h]) fun i hi => ?_
    have hne : y / 16 * 16 + i ≠ pa := by omega
    cases die with
    | none => simp [State.rawAt, State.mem_writePa_one hm hk hw, hne]
    | some d =>
      simp only [State.rawAt, hold d hne, State.mem_writePa_one hm hk hw, if_neg hne]
      cases oldByte d (y / 16 * 16 + i) s.inflight <;> rfl

/-- An agent that has applied the write reads the new byte. -/
theorem State.byteAt_writePa_applied {die : Option Nat} (h : ∀ d, die = some d → w.die = some d ∧ oldByte d pa s.inflight = none) :
    (s.writePa w g pa [b] none).byteAt die g pa = b := by
  have hraw := State.rawAt_of_applied (s := s.writePa w g pa [b] none) (die := die) (x := pa) fun d e =>
    (State.oldByte_writePa_own hk hw hn (h d e).1).trans (h d e).2
  rw [State.mem_writePa_one hm hk hw, if_pos rfl] at hraw
  exact State.byteAt_plain hraw (State.keyedFor_writePa_one hk hw)

omit hm hn in
/-- A die that has not applied it reads the old one. -/
theorem State.byteAt_writePa_away {d : Nat} (h4 : d < 4) (hd : w.die ≠ some d) (h : ∀ e ∈ s.inflight, Tbl.find e.2.old pa = none) :
    (s.writePa w g pa [b] none).byteAt (some d) g pa = s.byteAt (some d) g pa := by
  have hraw : (s.writePa w g pa [b] none).rawAt (some d) pa = (Mem.read s.mem pa, s.keyTags.find (pa / 64)) := by
    rw [State.rawAt, State.oldByte_writePa_away hk hw h4 hd h, Option.getD_some]
  rw [State.byteAt_plain hraw (by rw [State.keyGen_writePa_one hk hw]; exact hk)]
  exact (State.byteAt_plain (State.rawAt_of_applied fun d' e => oldByte_none h) hk).symm

end

/-! ## A thread's own store (R39) -/

theorem ofNat_byte_eq_extract (v : Word) (m : Nat) : BitVec.ofNat 8 (v.toNat / 256 ^ m) = v.extractLsb' (8 * m) 8 :=
  BitVec.eq_of_toNat_eq (by rw [BitVec.toNat_ofNat, BitVec.extractLsb'_toNat, Nat.shiftRight_eq_div_pow, Nat.pow_mul])

/-- A store reaches the frame that a read through another access sees: of no other version, or OWNED (R242, R262). -/
theorem State.reaches_iff (s : State) (a r : Access) :
    s.reaches a r = true ↔ a.vrec = r.vrec ∨ ∀ w, a.vrec = some w → s.owned? w = true := by
  simp [State.reaches, Option.all_eq_true]

theorem State.forward_one {s : State} {n j k : Nat} {o : Op} {a r : Access} {v : Word} (hs : s.ops = [(n, o)]) (hr : o.recv = [k])
    (hk : o.kind = .store a v) (hn : n < j) (pa : Nat) (e : Byte) :
    s.forward j k r pa e = if s.paNow a ≤ pa ∧ pa < s.paNow a + a.size ∧ a.key = r.key ∧ (a.vrec = r.vrec ∨ ∀ w, a.vrec = some w → s.owned? w = true)
      then v.extractLsb' (8 * (pa - s.paNow a)) 8 else e := by
  simp only [State.forward, hs, List.foldl_cons, List.foldl_nil, hr, hk, hn, decide_true, List.contains_cons, beq_self_eq_true, Bool.true_or,
    Bool.and_self, if_true, State.reaches_iff, ofNat_byte_eq_extract]

/-- Settles O40: by the entry that the write has among those on their way, which names every die but its own. -/
theorem whoSeesAStore : Obligations.WhoSeesAStore := by
  unfold Obligations.WhoSeesAStore
  intro s k pa g b hm hk hn s2
  have hw : (s.threadWriter k).now = false := rfl
  have hd : (s.threadWriter k).die = some (dieOf k) := rfl
  refine ⟨fun d x h4 h => ?_, fun x => ?_, fun n j o a r v e hs hr ha hj => State.forward_one hs hr ha hj pa e⟩
  · have hold : ∀ d', some d = some d' → oldByte d' x s.inflight = none := fun _ _ => oldByte_none h
    by_cases hx : x = pa
    · subst hx
      by_cases hdie : d = dieOf k
      · rw [if_pos ⟨rfl, hdie⟩]
        exact State.byteAt_writePa_applied hm hk hw hn fun d' e => ⟨hd.trans (by rw [← hdie, e]), hold d' e⟩
      · rw [if_neg fun hc => hdie hc.2]
        exact State.byteAt_writePa_away hk hw h4 (by rw [hd]; simpa using Ne.symm hdie) h
    · rw [if_neg fun hc => hx hc.1]
      exact State.byteAt_writePa_other hm hk hw hn hx hold
  · by_cases hx : x = pa
    · rw [if_pos hx, hx]
      exact State.byteAt_writePa_applied hm hk hw hn (die := none) nofun
    · rw [if_neg hx]
      exact State.byteAt_writePa_other hm hk hw hn hx (die := none) nofun

end Sys2Proof.Machine
end


section
/-! OUTSTANDING OPERATIONS LAND (O38): what reads, fences and cache controls leave alone, how an operation ends in its thread, and the bytes that a
load brings (spec/02_one_thread.md R33, R39). -/

namespace Sys2Proof.Machine

/-! ## What stands beside memory and its copies -/

/-- The clk, the threads, the blocks, the cores, the full/empty bits and the reports that wait: no write of bytes and no read touches them. -/
def State.aside (s : State) := (s.clk, s.threads, s.blocks, s.cores, s.empties, s.frQueue)

/-- The same with memory's bytes and their keys: no read touches them. -/
def State.lasting (s : State) := (s.aside, s.mem, s.keyTags, s.keyGens)

section
variable {s t : State}

theorem State.clk_of_aside (h : t.aside = s.aside) : t.clk = s.clk := congrArg (·.1) h
theorem State.threads_of_aside (h : t.aside = s.aside) : t.threads = s.threads := congrArg (·.2.1) h
theorem State.blocks_of_aside (h : t.aside = s.aside) : t.blocks = s.blocks := congrArg (·.2.2.1) h
theorem State.cores_of_aside (h : t.aside = s.aside) : t.cores = s.cores := congrArg (·.2.2.2.1) h
theorem State.empties_of_aside (h : t.aside = s.aside) : t.empties = s.empties := congrArg (·.2.2.2.2.1) h
theorem State.frQueue_of_aside (h : t.aside = s.aside) : t.frQueue = s.frQueue := congrArg (·.2.2.2.2.2) h
theorem State.aside_of_lasting (h : t.lasting = s.lasting) : t.aside = s.aside := congrArg (·.1) h
theorem State.mem_of_lasting (h : t.lasting = s.lasting) : t.mem = s.mem := congrArg (·.2.1) h

theorem State.keyedFor_of_lasting (h : t.lasting = s.lasting) {g pa : Nat} (hk : s.KeyedFor g pa) : t.KeyedFor g pa := by
  have ht : t.keyTags = s.keyTags := congrArg (·.2.2.1) h
  have hg : t.keyGens = s.keyGens := congrArg (·.2.2.2) h
  rw [State.KeyedFor, ht, State.keyGen_of_keyGens hg]
  exact hk

theorem State.foldl_lasting {β : Type} {f : State → β → State} (hf : ∀ x b, (f x b).lasting = x.lasting) (l : List β) : (l.foldl f s).lasting = s.lasting := by
  induction l generalizing s with
  | nil => rfl
  | cons b l ih => exact (ih (s := f s b)).trans (hf s b)

theorem State.foldl_aside {β : Type} {f : State → β → State} (hf : ∀ x b, (f x b).aside = x.aside) (l : List β) : (l.foldl f s).aside = s.aside := by
  induction l generalizing s with
  | nil => rfl
  | cons b l ih => exact (ih (s := f s b)).trans (hf s b)

end

/-! ### Reads -/

@[simp] theorem State.setHb_lasting (s : State) (k : Nat) (h : Hb) : (s.setHb k h).lasting = s.lasting := rfl

@[simp] theorem State.see_lasting (s : State) (k : Nat) (ids : List Nat) : (s.see k ids).lasting = s.lasting := by
  grind [State.see, State.lasting, State.aside]

@[simp] theorem State.markAcquire_lasting (s : State) (k seq : Nat) (fence : Bool) : (s.markAcquire k seq fence).lasting = s.lasting := by
  grind [State.markAcquire, State.setHb_lasting]

@[simp] theorem State.acquired_lasting (s : State) (seq : Nat) (o : Op) (es : List (Nat × Inflight)) : (s.acquired seq o es).lasting = s.lasting := by
  unfold State.acquired
  split
  · rfl
  · exact State.foldl_lasting (fun x k => by dsimp only; split <;> simp) _

@[simp] theorem State.afterRead_lasting (s : State) (seq : Nat) (o : Op) (pa n : Nat) (fe : Bool) : (s.afterRead seq o pa n fe).lasting = s.lasting := by
  unfold State.afterRead
  dsimp only
  split
  · simp
  · exact (State.foldl_lasting (fun x k => State.setHb_lasting x _ _) _).trans (State.acquired_lasting ..)

@[simp] theorem State.l1Out_lasting (s : State) (line : Nat) : (s.l1Out line).lasting = s.lasting := rfl

@[simp] theorem State.l2Evict_lasting (s : State) (d line : Nat) : (s.l2Evict d line).lasting = s.lasting := rfl

@[simp] theorem State.setL2_lasting (s : State) (x : L2Ent) : (s.setL2 x).lasting = s.lasting := by
  unfold State.setL2
  split
  · rfl
  · cases s.l2Victim x.die x.line <;> rfl

@[simp] theorem State.l1Use_lasting (s : State) (core : Nat) (a : Access) (write : Bool) : (s.l1Use core a write).lasting = s.lasting := by
  unfold State.l1Use
  dsimp only
  split
  · rfl
  · split
    · rfl
    · split
      · split
        · simp
        · rfl
      · rfl

@[simp] theorem State.classTouch_lasting (s : State) (d ctx pa : Nat) : (s.classTouch d ctx pa).lasting = s.lasting := by
  unfold State.classTouch
  split <;> rfl

@[simp] theorem State.snapUnits_lasting (s : State) (seq : Nat) (ks : List Nat) (a : Access) : (s.snapUnits seq ks a).lasting = s.lasting := by
  unfold State.snapUnits
  dsimp only
  split <;> rfl

@[simp] theorem State.readNow_lasting (s : State) (seq : Nat) (o : Op) (a : Access) : (s.readNow seq o a).lasting = s.lasting := by
  simp [State.readNow]

@[simp] theorem State.spadRead_lasting (s : State) (o : Op) (b off : Nat) : (s.spadRead o b off).lasting = s.lasting := by
  unfold State.spadRead
  dsimp only
  split
  · rfl
  · exact State.foldl_lasting (fun x k => State.setHb_lasting x _ _) _

@[simp] theorem State.evictLine_lasting (s : State) (core line : Nat) : (s.evictLine core line).lasting = s.lasting := by
  unfold State.evictLine
  split <;> rfl

@[simp] theorem State.cleanL1_lasting (s : State) (core line : Nat) : (s.cleanL1 core line).lasting = s.lasting := rfl

/-! ### Writes -/

@[simp] theorem State.rekeySector_aside (g : Nat) (s : State) (sec : Nat) : (State.rekeySector g s sec).aside = s.aside := by
  grind [State.rekeySector, State.aside]

@[simp] theorem State.rekey_aside (s : State) (g pa n : Nat) : (s.rekey g pa n).aside = s.aside :=
  State.foldl_aside (State.rekeySector_aside g) _

@[simp] theorem State.ownSector_aside (s : State) (core die : Option Nat) (pa : Nat) : (s.ownSector core die pa).aside = s.aside := rfl

@[simp] theorem State.writePa_aside (s : State) (w : Writer) (key pa : Nat) (bs : List Byte) : (s.writePa w key pa bs none).aside = s.aside := by
  have h : (s.writePa w key pa bs none).aside =
    ((sectorsOf pa bs.length).foldl (fun x sec => x.ownSector w.core w.die (64 * sec)) (s.rekey (s.keyGen key) pa bs.length)).aside := rfl
  rw [h, State.foldl_aside fun x sec => State.ownSector_aside x _ _ _, State.rekey_aside]

@[simp] theorem State.outsideStore_aside (s : State) (pa n : Nat) : (s.outsideStore pa n).aside = s.aside := by
  unfold State.outsideStore
  split
  · simp
  · rfl

@[simp] theorem State.fromOwner_aside (s : State) (o : Op) (a : Access) : (s.fromOwner o a).aside = s.aside := by
  unfold State.fromOwner
  split
  · rfl
  · split
    · split <;> simp
    · split
      · simp
      · rfl

/-! ## How an operation of one thread ends -/

section
variable {s t : State} {op k : Nat} {o : Op} (hr : o.recv = [k])
include hr

theorem State.finishOp_one (l : List Landing) : t.finishOp op o l =
    { t with ops := t.ops.del op, threads := t.threads.upd k fun u => u.queueAll op t.clk (o.ending l) } := by
  rw [State.finishOp, hr]
  rfl

theorem State.finishOp_empties (l : List Landing) : (t.finishOp op o l).empties = t.empties := by rw [State.finishOp_one hr]

theorem State.finishOp_cores (l : List Landing) : (t.finishOp op o l).cores = t.cores := by rw [State.finishOp_one hr]

theorem State.landed_finishOp (hc : t.clk = s.clk) (ht : t.threads = s.threads) (l : List Landing) : s.Landed (t.finishOp op o l) op o k l := by
  rw [State.finishOp_one hr]
  exact ⟨by simp [Tbl.find_del], by simp [hc, ht], fun j hj => by simp [ht, Tbl.find_upd_other _ _ hj]⟩

end

/-- CLASS_V_RESULT_LANDS ends the operation with landings l, memory and the full/empty bits unchanged, in a state of which ok holds. -/
def State.Ends (s : State) (op k : Nat) (o : Op) (ok : State → Prop) (l : List Landing) : Prop :=
  ∃ s2, exec (.classVResultLands op) s = .next s2 ∧ s.Landed s2 op o k l ∧ s2.mem = s.mem ∧ s2.empties = s.empties ∧ ok s2

section
variable {s t : State} {op k : Nat} {o : Op} {l : List Landing} {ok : State → Prop} (hr : o.recv = [k])
  (he : exec (.classVResultLands op) s = .next (t.finishOp op o l)) (hok : ok (t.finishOp op o l))
include hr he hok

theorem State.ends_finishOp (hc : t.clk = s.clk) (ht : t.threads = s.threads) (hm : t.mem = s.mem) (hx : t.empties = s.empties) : s.Ends op k o ok l := by
  refine ⟨_, he, State.landed_finishOp hr hc ht l, by rwa [State.finishOp_mem],
    by rwa [State.finishOp_empties hr], hok⟩

/-- An operation that only reads ends. -/
theorem State.ends_of_lasting (h : t.lasting = s.lasting) : s.Ends op k o ok l :=
  have ha := State.aside_of_lasting h
  State.ends_finishOp hr he hok (State.clk_of_aside ha) (State.threads_of_aside ha) (State.mem_of_lasting h) (State.empties_of_aside ha)

end

section
variable {s : State} {op k : Nat} {o : Op} {excl : Bool}

theorem State.Free.due (h : s.Free op o k excl) : o.earliest ≤ s.clk := by
  have hf := h.free
  simp only [State.canPerform, State.canPerformAs, State.canPerformBut, Bool.and_eq_true, decide_eq_true_eq] at hf
  tauto

/-- CLASS_V_RESULT_LANDS performs an operation that stands free and is not with a peer. -/
theorem State.Free.lands (h : s.Free op o k excl) : exec (.classVResultLands op) s = .next (s.landNow op o) := by
  change execClassVResultLands op s = _
  simp [execClassVResultLands, h.stands, h.home]

theorem State.Free.notPeer (h : s.Free op o k excl) {a : Access} (ha : ∃ r w, o.kind.access = some (a, r, w)) : isPeer a.pa = false := by
  obtain ⟨r, w, ha⟩ := ha
  have hh := h.home
  simp only [OpKind.peerAccess, OpKind.accesses, ha, List.singleton_append, List.find?_cons] at hh
  split at hh
  · exact nomatch hh
  · assumption

/-- The access of an operation that is not with a peer goes on at once, on memory as its owner has left it (R245, R411). -/
theorem State.Free.viaPeer (h : s.Free op o k excl) {a : Access} (ha : ∃ r w, o.kind.access = some (a, r, w)) (go : State → State) :
    s.viaPeer op o a go = go (s.fromOwner o a) := by
  simp [State.viaPeer, State.askOwner, h.notPeer ha]

/-- A load that stands free lands what it finds at its place (R39, R139). -/
theorem State.Free.load (h : s.Free op o k false) {a : Access} {g : Bool} {d p : Nat} (hk : o.kind = .load a g d p) :
    exec (.classVResultLands op) s = .next ((s.fromOwner o a).landLoad op o a g d p) := by
  rw [h.lands, State.landNow]
  simp only [hk, h.free, if_true]
  rw [h.viaPeer ⟨_, _, by rw [hk, OpKind.access]⟩]

end

end Sys2Proof.Machine
end


section
/-! WHAT LANDS (O38): the bytes that a load brings, and each operation that CLASS_V_RESULT_LANDS performs. -/

namespace Sys2Proof.Machine

/-! ## The bits of little-endian values (R2, R139) -/

theorem testBit_ofLe (l : List Byte) (i : Nat) {j : Nat} (hj : j < 8) : (ofLe l).testBit (8 * i + j) = (l.getD i 0).getLsbD j := by
  induction l generalizing i with
  | nil => simp [ofLe]
  | cons b bs ih =>
    have hb : b.toNat < 2 ^ 8 := b.isLt
    rw [ofLe, Nat.add_comm, show (256 : Nat) = 2 ^ 8 from rfl, Nat.testBit_two_pow_mul_add _ hb]
    cases i with
    | zero => simp [hj, BitVec.getLsbD]
    | succ i =>
      rw [if_neg (by omega), show 8 * (i + 1) + j - 8 = 8 * i + j by omega, ih]
      rfl

theorem ofLe_lt (l : List Byte) : ofLe l < 256 ^ l.length := by
  induction l with
  | nil => exact Nat.one_pos
  | cons b bs ih =>
    have hb : b.toNat < 256 := b.isLt
    rw [ofLe, List.length_cons, Nat.pow_succ]
    omega

/-- The low w bits of a number, extended to 64 bits: by the sign that they have, or by zeros (R85). -/
theorem getLsbD_narrow {w : Nat} (sx : Bool) (v : Nat) {j : Nat} (hj : j < 64) (hw : 0 < w) :
    (narrow w sx v).getLsbD j = if j < w then v.testBit j else sx && v.testBit (w - 1) := by
  have hbit : ∀ m, (BitVec.ofNat w v).getLsbD m = (decide (m < w) && v.testBit m) := fun m => BitVec.getLsbD_ofNat ..
  cases sx with
  | true =>
    have he : narrow w true v = (BitVec.ofNat w v).signExtend 64 := by
      rw [narrow, if_pos rfl, BitVec.signExtend, BitVec.toInt_ofNat']
    rw [he, BitVec.getLsbD_signExtend, BitVec.msb_eq_getLsbD_last, hbit, hbit]
    split <;> simp [*]
  | false =>
    have he : narrow w false v = (BitVec.ofNat w v).setWidth 64 := by
      refine BitVec.eq_of_toNat_eq ?_
      rw [narrow, if_neg nofun, BitVec.toNat_setWidth, BitVec.toNat_ofNat, ← Int.natCast_mod, BitVec.ofInt_natCast, BitVec.toNat_ofNat]
    rw [he, BitVec.getLsbD_setWidth, hbit]
    split <;> simp [*]

/-- An item of n bytes, extended: its bytes, and above them zeros or its sign (R139). -/
theorem getLsbD_extend {n : Nat} (g : Bool) {l : List Byte} (hl : l.length = n) (h1 : 1 ≤ n) (h8 : n ≤ 8) {j : Nat} (hj : j < 64) :
    (extend n g (BitVec.ofNat 64 (ofLe l))).getLsbD j = if j < 8 * n then (ofLe l).testBit j else g && (ofLe l).testBit (8 * n - 1) := by
  have hlt : ofLe l < 2 ^ 64 := by
    have hp : (256 : Nat) ^ n ≤ 256 ^ 8 := Nat.pow_le_pow_right (by decide) h8
    have := ofLe_lt l
    rw [hl] at this
    omega
  rw [extend, BitVec.toNat_ofNat, Nat.mod_eq_of_lt hlt, getLsbD_narrow g _ hj (by omega)]

theorem extractLsb'_extend {n : Nat} (g : Bool) {l : List Byte} (hl : l.length = n) (h8 : n ≤ 8) {i : Nat} (hi : i < n) :
    (extend n g (BitVec.ofNat 64 (ofLe l))).extractLsb' (8 * i) 8 = l.getD i 0 := by
  refine BitVec.eq_of_getLsbD_eq fun j hj => ?_
  rw [BitVec.getLsbD_extractLsb', getLsbD_extend g hl (by omega) h8 (by omega), if_pos (by omega), testBit_ofLe l i hj]
  simp [hj]

/-! ## What a load finds -/

theorem State.loadBytes_eq_map (s : State) (seq k : Nat) (a : Access) (pa n : Nat) :
    s.loadBytes seq k a pa n = (List.range n).map fun i => s.forward seq k a (pa + i) (s.byteAt (some (dieOf k)) a.key (pa + i)) := by
  induction n generalizing pa with
  | zero => rfl
  | succ n ih => simp [State.loadBytes, ih, List.range_succ_eq_map, Function.comp_def, Nat.add_assoc, Nat.add_comm 1]

/-- An operation that stands alone finds no earlier store of its thread. -/
theorem State.forward_self {s : State} {op k : Nat} {o : Op} (h : s.ops = [(op, o)]) (a : Access) (pa : Nat) (b : Byte) :
    s.forward op k a pa b = b := by
  simp [State.forward, h]

/-- A byte of a plain access where nothing is on its way is memory's. -/
theorem State.Plain.byteAt {s : State} {a : Access} (h : s.Plain a) (d : Nat) {i : Nat} (hi : i < a.size)
    (hf : ∀ e ∈ s.inflight, Tbl.find e.2.old (s.paNow a + i) = none) : s.byteAt (some d) a.key (s.paNow a + i) = Mem.read s.mem (s.paNow a + i) := by
  refine State.byteAt_plain (State.rawAt_of_applied fun d' _ => oldByte_none hf) ?_
  rw [h.sector i hi]
  exact h.key

theorem State.loadBytes_alone {s : State} {op k : Nat} {o : Op} {a : Access} (ho : s.ops = [(op, o)]) (hp : s.Plain a)
    (hf : ∀ e ∈ s.inflight, ∀ i, i < a.size → Tbl.find e.2.old (s.paNow a + i) = none) :
    s.loadBytes op k a (s.paNow a) a.size = (List.range a.size).map fun i => Mem.read s.mem (s.paNow a + i) := by
  rw [State.loadBytes_eq_map]
  refine List.map_congr_left fun i hi => ?_
  have hi := List.mem_range.1 hi
  rw [State.forward_self ho, hp.byteAt _ hi fun e he => hf e he i hi]

/-! ## Each operation -/

theorem doFence_eq (s : State) (op : Nat) (o : Op) (f : FenceKind) (sc : Scope) :
    ∃ t : State, t.lasting = s.lasting ∧ s.doFence op o f sc = t.finishOp op o [] :=
  ⟨_, State.foldl_lasting (fun x j => by dsimp only; split <;> split <;> simp) _, rfl⟩

/-- A cache control moves copies only; IINVALL leaves its core no instruction lines (R146, R147). -/
theorem doCctl_eq (s : State) (op : Nat) (o : Op) (c : CctlOp) (pa : Nat) :
    ∃ t : State, t.lasting = s.lasting ∧ (c = .iinvall → ∀ e ∈ t.icache, e.1 ≠ coreOf o.thr) ∧ s.doCctl op o c pa = t.finishOp op o [] := by
  refine ⟨_, ?_, ?_, rfl⟩
  · cases c with
    | wbl1 => dsimp only; split <;> simp
    | invl1 => dsimp only; split <;> simp
    | wbl2 =>
      dsimp only
      split
      · rfl
      · exact State.classTouch_lasting ..
    | invl2 => dsimp only; split <;> simp
    | iinv => rfl
    | iinvall => rfl
  · rintro rfl e he
    simpa using (List.mem_filter.1 he).2

section
variable {s : State} {op k : Nat} {o : Op} (h : s.Free op o k false)
include h

theorem ends_result {l : List Landing} (hk : o.kind = .result l) : s.Ends op k o (fun _ => True) l := by
  refine State.ends_of_lasting h.mine.1 (t := s.acquired op o []) ?_ trivial (by simp)
  rw [h.lands]
  simp [State.landNow, hk, h.due]

theorem load_lands {a : Access} {g : Bool} {d p : Nat} (hk : o.kind = .load a g d p) :
    ∃ s2, exec (.classVResultLands op) s = .next s2 ∧
      s.Landed s2 op o k [.reg d (extend a.size g ((s.fromOwner o a).loadValue op k a)) ((s.fromOwner o a).loadMark o a), .pred p true] ∧
      s2.mem = (s.fromOwner o a).mem ∧ s2.empties = s.empties := by
  have ha := State.fromOwner_aside s o a
  rw [h.load hk, State.landLoad, h.mine.2]
  generalize hs0 : s.fromOwner o a = s0 at ha
  generalize ht : (s0.afterRead op o (s0.paNow a) a.size false).readNow op o a = t
  have hl : t.lasting = s0.lasting := by rw [← ht]; simp
  have hta := (State.aside_of_lasting hl).trans ha
  refine ⟨_, rfl, State.landed_finishOp h.mine.1 (State.clk_of_aside hta) (State.threads_of_aside hta) _, ?_, ?_⟩
  · rw [State.finishOp_mem, State.mem_of_lasting hl]
  · rw [State.finishOp_empties h.mine.1, State.empties_of_aside hta]

theorem fromOwner_load {a : Access} {g : Bool} {d p : Nat} (hk : o.kind = .load a g d p) (hh : isHost (s.paNow a) = false) : s.fromOwner o a = s :=
  State.fromOwner_own s o a hh (h.notPeer ⟨_, _, by rw [hk, OpKind.access]⟩)

/-- A load by itself brings memory's bytes, lowest first, with zeros or the sign above them. -/
theorem load_alone {a : Access} {g : Bool} {d p : Nat} (hk : o.kind = .load a g d p) (ho : s.ops = [(op, o)]) (hh : isHost (s.paNow a) = false)
    (h1 : 1 ≤ a.size) (h8 : a.size ≤ 8) (hp : s.Plain a) (hf : ∀ e ∈ s.inflight, ∀ i, i < a.size → Tbl.find e.2.old (s.paNow a + i) = none) :
    ∃ v : Word, s.Ends op k o (fun _ => True) [.reg d v (s.loadMark o a), .pred p true] ∧
      (∀ i, i < a.size → v.extractLsb' (8 * i) 8 = Mem.read s.mem (s.paNow a + i)) ∧
      ∀ j, 8 * a.size ≤ j → j < 64 → v.getLsbD j = (g && v.getLsbD (8 * a.size - 1)) := by
  obtain ⟨s2, he, hl, hm, hx⟩ := load_lands h hk
  rw [fromOwner_load h hk hh] at hl hm
  have hbytes := State.loadBytes_alone (k := k) ho hp hf
  have hlen : (s.loadBytes op k a (s.paNow a) a.size).length = a.size := by simp [hbytes]
  refine ⟨extend a.size g (s.loadValue op k a), ⟨s2, he, hl, hm, hx, trivial⟩, fun i hi => ?_, fun j hj hj64 => ?_⟩
  · rw [State.loadValue, extractLsb'_extend g hlen h8 hi, hbytes]
    simp [List.getD, hi]
  · rw [State.loadValue, getLsbD_extend g hlen h1 h8 hj64, if_neg (by omega), getLsbD_extend g hlen h1 h8 (by omega), if_pos (by omega)]

theorem ends_lds {b off n d : Nat} {x : Block} {g : Bool} (hk : o.kind = .lds b off n g d) (hb : s.blocks.find b = some x) (hbad : (b, off / 8) ∉ s.badSpad) :
    s.Ends op k o (fun _ => True) [.reg d (extend n g (BitVec.ofNat 64 (ofLe (Mem.readN x.scratch off n)))) none] := by
  refine State.ends_of_lasting h.mine.1 (t := s.spadRead o b off) ?_ trivial (by simp)
  rw [h.lands]
  simp [State.landNow, hk, h.free, State.landLds, hb, hbad, Block.spad]

theorem ends_fence {f : FenceKind} {sc : Scope} (hk : o.kind = .fence f sc) (hf : s.fenceOk op o f sc = true) : s.Ends op k o (fun _ => True) [] := by
  obtain ⟨t, ht, he⟩ := doFence_eq s op o f sc
  refine State.ends_of_lasting h.mine.1 ?_ trivial ht
  rw [h.lands, ← he]
  simp [State.landNow, hk, h.free, hf]

theorem ends_cctl {c : CctlOp} {pa : Nat} (hk : o.kind = .cctl c pa) (hc : s.cctlReady o c pa = true) :
    s.Ends op k o (fun s2 => c = .iinvall → ∀ e ∈ s2.icache, e.1 ≠ coreOf k) [] := by
  obtain ⟨t, ht, hi, he⟩ := doCctl_eq s op o c pa
  refine State.ends_of_lasting h.mine.1 ?_ (fun hall e hm => ?_) ht
  · rw [h.lands, ← he]
    simp [State.landNow, hk, h.free, hc]
  · rw [State.finishOp_one h.mine.1] at hm
    exact h.mine.2 ▸ hi hall e hm

/-- An operation on its core's array, at the head of it, changes that core only. -/
theorem ends_array {l : List Landing} {f : Core → Core} {ok : State → Prop} (hh : s.atHead op o = true)
    (hk : (o.kind matches .accz .. | .accrd .. | .accwr .. | .permt ..) = true)
    (he : s.arrayStep op o = (s.updCore (coreOf k) f).finishOp op o l) (hok : ∀ s2 : State, s2.core (coreOf k) = f (s.core (coreOf k)) → ok s2) :
    s.Ends op k o ok l := by
  refine State.ends_finishOp h.mine.1 (t := s.updCore (coreOf k) f) ?_ (hok _ ?_) rfl rfl rfl rfl
  · rw [h.lands, ← he, State.landNow]
    split at hk <;> simp_all [h.free]
  · rw [State.core, State.finishOp_cores h.mine.1]
    simp [State.updCore]

end

theorem State.updCore_updCore (s : State) (c : Nat) (f g : Core → Core) : (s.updCore c f).updCore c g = s.updCore c (g ∘ f) := by
  have hp : ∀ (t : Tbl Core) (x y : Core), Tbl.put (Tbl.put t c x) c y = Tbl.put t c y := fun t x y => by
    induction t with
    | nil => simp [Tbl.put]
    | cons e t ih =>
      obtain ⟨j, z⟩ := e
      by_cases h1 : c < j
      · simp [Tbl.put, h1]
      · by_cases h2 : c = j
        · simp [Tbl.put, h2]
        · simp [Tbl.put, h1, h2, ih]
  simp [State.updCore, State.core, hp]

/-- The bytes that a write of v leaves in n places (R2). -/
theorem getD_toLe (v : Word) {n i : Nat} (h : i < n) : (toLe n v.toNat).getD i 0 = v.extractLsb' (8 * i) 8 := by
  rw [← ofNat_byte_eq_extract]
  generalize v.toNat = m
  induction n generalizing i m with
  | zero => omega
  | succ n ih =>
    cases i with
    | zero => simp [toLe]
    | succ i => simpa [toLe, Nat.pow_succ', Nat.div_div_eq_div_mul] using ih (i := i) (by omega) (m / 256)

theorem read_writeN_toLe {m : List Host.Cell} (hm : Mem.wf m = true) (a n : Nat) (v : Word) (x : Nat) :
    Mem.read (Mem.writeN m a (toLe n v.toNat)) x = if a ≤ x ∧ x < a + n then v.extractLsb' (8 * (x - a)) 8 else Mem.read m x := by
  rw [Mem.read_writeN hm, toLe_length]
  split
  next h => exact getD_toLe v (by omega)
  · rfl

/-- Settles O38: each operation that CLASS_V_RESULT_LANDS performs ends from a state that reads, fences and cache controls leave as it was. -/
theorem resultsLand : Obligations.ResultsLand := by
  unfold Obligations.ResultsLand
  intro s op k o h ends any acc base
  refine ⟨fun l hk => ends_result h hk, fun a g d p hk => ⟨fromOwner_load h hk, load_lands h hk⟩,
    fun a g d p hk ho hh h1 h8 hp hf => load_alone h hk ho hh h1 h8 hp hf, fun b x off n g d hk hb hbad => ends_lds h hk hb hbad,
    fun f sc hk hf => ends_fence h hk hf, fun c pa hk hc => ends_cctl h hk hc,
    fun hh => ⟨fun off n hk hw => ?_, fun off n d hk => ?_, fun off n v hk h8 hw => ?_, fun b off n hk => ?_⟩⟩
  · refine ends_array h hh (by simp [hk]) (by simp only [State.arrayStep, hk, State.updCore_updCore, h.mine.2]; rfl) fun s2 e x => ?_
    rw [show acc s2 = (s2.core (coreOf k)).acc from rfl, e]
    refine (Mem.read_writeN hw _ _ _).trans ?_
    rw [List.length_replicate]
    split
    · exact List.getD_replicate _ (by omega)
    · rfl
  · exact ends_array h hh (by simp [hk]) (by simp only [State.arrayStep, hk, h.mine.2]; rfl) fun s2 e => (congrArg Core.acc e).trans rfl
  · refine ends_array h hh (by simp [hk]) (by simp only [State.arrayStep, hk, State.updCore_updCore, h.mine.2]; rfl) fun s2 e x => ?_
    rw [show acc s2 = (s2.core (coreOf k)).acc from rfl, e]
    exact read_writeN_toLe hw _ n v x
  · exact ends_array h hh (by simp [hk]) (by simp only [State.arrayStep, hk, State.updCore_updCore, h.mine.2]; rfl) fun s2 e => congrArg Core.perm e

end Sys2Proof.Machine
end


section
/-! WAITS THAT END (O43): the clause of the block table's grant asks nothing of the order of the thread table, and fails where that is not canonical. -/

namespace Sys2Proof.Machine

/-- A thread of a block at PC 0 that has waited for an entry of its block table since clk 0 (R158). -/
def waiterOf (blk : Nat) : Thread :=
  { blk := blk, tid := 0, bslot := 0, pc := 0, n := 0, regs := [], preds := [], flags := [], hw := [], depth := 0, tba := 0, tlsbase := 0, tabled := .waits 0 }

/-- Threads 5 and 3 of one partition wait since the same clk, and the table lists 5 first. -/
def unorderedWaiters : State := { State.reset with threads := [(5, waiterOf 1), (3, waiterOf 0)] }

/-- Of waiters since one clk the model takes the first that the table lists, not the lowest. -/
theorem unorderedWaiters_grant : ∃ u, exec (.blockTableEntryGrant (coreOf 3) (partOf 3)) unorderedWaiters =
    .next { unorderedWaiters with threads := [(5, u), (3, waiterOf 0)] } := ⟨{ waiterOf 1 with tabled := .held, since := 0 }, rfl⟩

/-- Refutes O43: among threads that have waited equally long the grant goes to the first in the table, so that in a state whose thread table is
not in rising order the lowest of them, which the statement names, is still waiting (R158). -/
theorem not_threadEvents : ¬ Obligations.ThreadEvents := by
  unfold Obligations.ThreadEvents
  intro h
  obtain ⟨-, -, -, grant, -⟩ := h unorderedWaiters 3 (waiterOf 0) rfl
  have hlow : ∀ j u d, (j, u) ∈ unorderedWaiters.threads → u.tabled = .waits d → coreOf j = coreOf 3 → partOf j = partOf 3 → 0 < d ∨ (d = 0 ∧ 3 ≤ j) := by
    intro j u d hm hd _ _
    obtain ⟨rfl, rfl⟩ | ⟨rfl, rfl⟩ : (j = 5 ∧ u = waiterOf 1) ∨ (j = 3 ∧ u = waiterOf 0) := by simpa [unorderedWaiters] using hm
    · exact .inr ⟨(Tabled.waits.inj hd).symm, by decide⟩
    · exact .inr ⟨(Tabled.waits.inj hd).symm, by decide⟩
  obtain ⟨s2, he, hf, -⟩ := grant 0 rfl (by decide) hlow
  obtain ⟨u, hu⟩ := unorderedWaiters_grant
  obtain rfl := Host.Outcome.next.inj (hu.symm.trans he)
  have htab : (waiterOf 0).tabled = .held := congrArg Thread.tabled (Option.some.inj hf)
  exact nomatch htab

end Sys2Proof.Machine
end


section
/-! FAULT REPORTS AND DEBUG (O48): the commands of the fault-report block, and the stops and samples of a core's debug block
(spec/21_faults_and_preemption.md R361, R363; spec/22_debug_and_trace.md R380-R388). -/

namespace Sys2Proof.Machine

/-! ## The hardware's own writes -/

@[simp] theorem State.classAgentWrite_aside (s : State) (pa : Nat) : (s.classAgentWrite pa).aside = s.aside := by
  unfold State.classAgentWrite
  split
  · split <;> rfl
  · rfl

@[simp] theorem State.hwWrite_aside (s : State) (pa : Nat) (v : Word) : (s.hwWrite pa v).aside = s.aside :=
  (State.writePa_aside ..).trans (State.classAgentWrite_aside ..)

@[simp] theorem State.hwWriteAll_aside (s : State) (pa : Nat) (l : List Word) : (s.hwWriteAll pa l).aside = s.aside := by
  induction l generalizing s pa with
  | nil => rfl
  | cons v l ih => exact (ih _ _).trans (State.hwWrite_aside ..)

@[simp] theorem State.hwWriteAll_units (s : State) (pa : Nat) (l : List Word) : (s.hwWriteAll pa l).units = s.units := by
  induction l generalizing s pa with
  | nil => rfl
  | cons v l ih => exact (ih _ _).trans (State.hwWrite_units ..)

@[simp] theorem State.hwRelease_aside (s : State) (past : List Nat) (pa : Nat) (l : List Word) : (s.hwRelease past pa l).aside = s.aside := by
  induction l generalizing s past pa with
  | nil => rfl
  | cons v l ih => exact (ih _ _ _).trans (State.writePa_aside ..)

/-! ## Commands about a stopped thread (R363) -/

section
variable {s : State} {die k ctx : Nat} {t : Thread}

theorem State.frNames_some (ht : s.threads.find k = some t) (hf : t.status = .fault) (hc : s.ctxOf t = ctx) (hp : ¬(s.pe.stage = .save ∧ s.pe.ctx = ctx)) :
    s.frNames k ctx = some t := by
  have hp' : (s.pe.stage == .save && s.pe.ctx == ctx) = false := by simpa using hp
  simp [State.frNames, hp', State.thread?, ht, hf, hc]

theorem State.frNames_none (h : (∀ t, s.threads.find k = some t → t.status ≠ .fault ∨ s.ctxOf t ≠ ctx) ∨ (s.pe.stage = .save ∧ s.pe.ctx = ctx)) :
    s.frNames k ctx = none := by
  rw [State.frNames]
  split
  · rfl
  next hp =>
    rcases h with h | ⟨h1, h2⟩
    · cases ht : s.threads.find k with
      | none => simp [State.thread?, ht]
      | some t =>
        have hne : ¬(t.status = .fault ∧ s.ctxOf t = ctx) := fun hc => (h t ht).elim (· hc.1) (· hc.2)
        simp [State.thread?, ht, hne]
    · simp [h1, h2] at hp

/-- A command that changes one thread leaves the others and memory. -/
theorem State.leads_updThread {i : Instr} {f : Thread → Thread} (he : exec i s = .next (s.updThread k f)) (ht : s.threads.find k = some t) :
    s.Leads i fun s2 => s2.threads.find k = some (f t) ∧ s2.mem = s.mem ∧ ∀ j, j ≠ k → s2.threads.find j = s.threads.find j :=
  ⟨_, he, by simp [State.updThread, ht], rfl, fun j hj => by simp [State.updThread, Tbl.find_upd_other _ _ hj]⟩

variable (hn : s.frNames k ctx = some t)
include hn

theorem exec_frCmdRetry : exec (.frCmdRetry die k ctx) s = .next (s.resume k fun t => { t with skipWatch := bits t.frec.w1 7 0 == 0x1D }) := by
  change execFrCmdRetry die k ctx s = _
  rw [execFrCmdRetry, hn]

theorem exec_frCmdSkip : exec (.frCmdSkip die k ctx) s =
    .next (if t.frec.unskippable then s.frIgnore die
      else s.resume k fun t => { t with pc := t.pc + BitVec.ofNat 57 t.frec.len, skipWatch := false }) := by
  change execFrCmdSkip die k ctx s = _
  rw [execFrCmdSkip, hn]
  dsimp only
  split <;> rfl

theorem exec_frCmdKill : exec (.frCmdKill die k ctx) s = .next (s.updThread k fun t => { t with status := .exited, reported := false }) := by
  change execFrCmdKill die k ctx s = _
  rw [execFrCmdKill, hn]

end

/-- A command that names nobody is counted, and changes nothing else. -/
theorem frCmd_ignored {s : State} {die k ctx : Nat} (hn : s.frNames k ctx = none) :
    exec (.frCmdRetry die k ctx) s = .next (s.frIgnore die) ∧ exec (.frCmdSkip die k ctx) s = .next (s.frIgnore die) ∧
      exec (.frCmdKill die k ctx) s = .next (s.frIgnore die) := by
  refine ⟨?_, ?_, ?_⟩
  · change execFrCmdRetry die k ctx s = _
    rw [execFrCmdRetry, hn]
  · change execFrCmdSkip die k ctx s = _
    rw [execFrCmdSkip, hn]
  · change execFrCmdKill die k ctx s = _
    rw [execFrCmdKill, hn]

/-! ## The reports that wait (R361) -/

theorem State.frWrite_next {s s1 : State} {die : Nat} {e : List Word} (h : s.frWrite die e = some s1) :
    s1.reg (Off.fr die 0x10) = s.reg (Off.fr die 0x10) + 1 ∧ s1.frQueue = s.frQueue := by
  unfold State.frWrite at h
  extract_lets size wr at h
  split at h
  · obtain rfl := Option.some.inj h
    exact ⟨State.reg_setReg_same .., State.frQueue_of_aside (State.hwRelease_aside ..)⟩
  · cases h

section
variable {s : State} {die : Nat} {e : Nat × List Word} (hq : s.frQueue.find? (fun e => e.1 == die) = some e)
include hq

theorem frPend_waits (hw : s.frWrite die e.2 = none) : exec (.frPend die) s = .next s := by
  change execFrPend die s = _
  simp only [execFrPend, hq, hw]

theorem frPend_leads {s1 : State} (hw : s.frWrite die e.2 = some s1) : s.Leads (.frPend die) fun s2 =>
    s2.mem = s1.mem ∧ s2.frQueue = s.frQueue.erase e ∧ s2.reg (Off.fr die 0x10) = s.reg (Off.fr die 0x10) + 1 := by
  obtain ⟨hreg, hque⟩ := State.frWrite_next hw
  refine ⟨({ s1 with frQueue := s1.frQueue.erase e } : State).frCount die, ?_, State.frCount_mem .., ?_, ?_⟩
  · change execFrPend die s = _
    simp only [execFrPend, hq, hw]
  · exact congrArg (fun l => l.erase e) hque
  · rw [State.frCount, State.reg_setReg_other _ _ (by simp [Off.fr])]
    exact (State.reg_of_mmio rfl _).trans hreg

end

/-! ## A core's debug block (R380-R388) -/

section
variable {s : State} {core part : Nat}

theorem State.core_updCore (s : State) (c : Nat) (f : Core → Core) : (s.updCore c f).core c = f (s.core c) := by
  simp [State.core, State.updCore]

theorem Off.dbg_inj {a b : Nat} (h : a ≠ b) : Off.dbg core a ≠ Off.dbg core b := fun e => h (by simpa [Off.dbg] using e)

theorem regSpec_wpHit (h1 : core % 512 < 288) (h2 : core / 512 < 4) : rsCount (Off.dbg core 0x60) = none ∧ (regSpec (Off.dbg core 0x60)).acc = .w1c := by
  have hm : Off.dbg core 0x60 % 0x100 = 0x60 := by unfold Off.dbg; omega
  have hl : 0x100000 ≤ Off.dbg core 0x60 ∧ Off.dbg core 0x60 < 0x100000 + 0x100 * 1152 := by unfold Off.dbg; omega
  generalize Off.dbg core 0x60 = off at hm hl
  refine ⟨by rw [rsCount, if_neg (by omega)], ?_⟩
  unfold regSpec
  repeat rw [if_neg (by omega)]
  rw [if_pos (by omega), hm]
  rfl

theorem wpHitWrite_leads (h1 : core % 512 < 288) (h2 : core / 512 < 4) (val : Word) : s.Leads (.wpHitWrite core val) fun s2 =>
    s2.reg (Off.dbg core 0x60) = s.reg (Off.dbg core 0x60) &&& ~~~(val &&& (regSpec (Off.dbg core 0x60)).mask) ∧ s2.mem = s.mem ∧ s2.threads = s.threads := by
  obtain ⟨hc, ha⟩ := regSpec_wpHit h1 h2
  refine ⟨s.setReg (Off.dbg core 0x60) (s.reg (Off.dbg core 0x60) &&& ~~~(val &&& (regSpec (Off.dbg core 0x60)).mask)), ?_, State.reg_setReg_same .., rfl, rfl⟩
  change Host.Outcome.next (s.writeReg (Off.dbg core 0x60) val) = _
  simp [State.writeReg, hc, ha]

theorem dbgCmdStop_counted (h : s.debugLocked = true ∨ (s.core core).stopped.contains part = true) :
    exec (.dbgCmdStop core part) s = .next (s.bumpReg (Off.dbg core 0x98)) := by
  change execDbgCmdStop core part s = _
  rw [execDbgCmdStop, if_pos]
  rcases h with h | h <;> simp only [h, Bool.true_or, Bool.or_true]

theorem dbgCmdResume_counted (h : s.debugLocked = true ∨ (s.core core).stopped.contains part = false) :
    exec (.dbgCmdResume core part) s = .next (s.bumpReg (Off.dbg core 0x98)) := by
  change execDbgCmdResume core part s = _
  rw [execDbgCmdResume, if_pos]
  rcases h with h | h <;> simp only [h, Bool.true_or, Bool.not_false, Bool.or_true]

/-- The dump of a stop writes memory only. -/
theorem exec_dbgCmdStop (hd : s.debugLocked = false) (hs : (s.core core).stopped.contains part = false) (hp : part < 4) :
    ∃ t : State, t.aside = (s.updCore core fun c => { c with stopped := c.stopped ++ [part] }).aside ∧ t.units = s.units ∧
      exec (.dbgCmdStop core part) s = .next (t.dbgStatus core fun w => w ||| BitVec.ofNat 64 (2 ^ part + 2 ^ (4 + part))) := by
  have hgo : ¬(s.debugLocked || (s.core core).stopped.contains part || decide (4 ≤ part)) = true := by
    simp only [hd, hs, Bool.false_or, decide_eq_true_eq]
    omega
  exact ⟨_, State.foldl_aside (fun x i => State.hwWriteAll_aside x _ _) _, State.foldl_units (fun x i => State.hwWriteAll_units x _ _) _,
    (if_neg hgo : execDbgCmdStop core part s = _)⟩

/-- A stopped core has its partition stopped, and every register but its status and every thread is as it was. -/
theorem dbgCmdStop_leads (hd : s.debugLocked = false) (hs : (s.core core).stopped.contains part = false) (hp : part < 4) :
    s.Leads (.dbgCmdStop core part) fun s2 => part ∈ (s2.core core).stopped ∧
      s2.reg (Off.dbg core 0x88) = s.reg (Off.dbg core 0x88) ||| BitVec.ofNat 64 (2 ^ part + 2 ^ (4 + part)) ∧ s2.threads = s.threads := by
  obtain ⟨t, ha, hu, he⟩ := exec_dbgCmdStop hd hs hp
  have ht : t.threads = s.threads := (State.threads_of_aside ha).trans rfl
  refine ⟨_, he, ?_, ?_, ht⟩
  · have hc : (t.core core).stopped = (s.core core).stopped ++ [part] := by
      rw [State.core, State.cores_of_aside ha]
      exact congrArg Core.stopped (State.core_updCore s core _)
    exact hc ▸ List.mem_append_right _ (List.mem_singleton.2 rfl)
  · rw [State.dbgStatus, State.reg_setReg_same, State.reg_of_units hu]

theorem dbgCmdResume_leads (hd : s.debugLocked = false) (hs : (s.core core).stopped.contains part = true) : s.Leads (.dbgCmdResume core part) fun s2 =>
    part ∉ (s2.core core).stopped ∧ s2.reg (Off.dbg core 0x88) = s.reg (Off.dbg core 0x88) &&& ~~~BitVec.ofNat 64 (2 ^ part + 2 ^ (4 + part)) ∧
      s2.threads = s.threads ∧ s2.mem = s.mem := by
  refine ⟨s.unstop core part, ?_, ?_, State.reg_setReg_same .., rfl, rfl⟩
  · change execDbgCmdResume core part s = _
    rw [execDbgCmdResume, if_neg]
    simp only [hd, hs, Bool.false_or, Bool.not_true, Bool.false_eq_true, not_false_eq_true]
  · have hc : ((s.unstop core part).core core).stopped = (s.core core).stopped.filter (· != part) :=
      congrArg Core.stopped (State.core_updCore s core fun c => { c with stopped := c.stopped.filter (· != part) })
    rw [hc, List.mem_filter]
    simp

/-- An interval that has ended tags its partition, and the next one is drawn within twice the mean (R388). -/
theorem sampleTag_leads {c : Nat} (ha : (s.core core).sampleAt.find part = some c) (hb : bit (s.reg (Off.dbg core 0xA0)) 0 = true) (hc : c ≤ s.clk) :
    s.Leads (.sampleTag core part) fun s2 => part ∈ (s2.core core).armed ∧ s2.threads = s.threads ∧ s2.mem = s.mem ∧
      ∃ n, (s2.core core).sampleAt.find part = some (s.clk + n) ∧ 1 ≤ n ∧ n ≤ 2 * max 256 (bits (s.reg (Off.dbg core 0xA0)) 20 1) := by
  let tag := fun (x : Core) => { x with armed := if x.armed.contains part then x.armed else x.armed ++ [part]
                                        sampleAt := x.sampleAt.put part (s.clk + s.sampleDraw core part) }
  have hcore : (s.updCore core tag).core core = tag (s.core core) := State.core_updCore ..
  have hdraw : s.pick (7 + part) % (2 * max 256 (bits (s.reg (Off.dbg core 0xA0)) 20 1)) < 2 * max 256 (bits (s.reg (Off.dbg core 0xA0)) 20 1) :=
    Nat.mod_lt _ (by omega)
  refine ⟨s.updCore core tag, ?_, ?_, rfl, rfl, s.sampleDraw core part, ?_, by unfold State.sampleDraw; omega, by unfold State.sampleDraw; omega⟩
  · change execSampleTag core part s = _
    simp only [execSampleTag, ha]
    rw [if_pos (by simp [hb, hc])]
  · rw [hcore]
    dsimp only [tag]
    split
    next h => exact List.contains_iff_mem.1 h
    · simp
  · rw [hcore]
    exact Tbl.find_put_same ..

end

/-! ## The records of samples (R387, R388) -/

/-- The size of a core's ring of sample records, whether it has room, and where the next record goes. -/
def State.ringSize (s : State) (core : Nat) : Nat := (s.reg (Off.dbg core 0xB0)).toNat
def State.ringRoom (s : State) (core : Nat) : Bool :=
  ringOpen (s.ringSize core) 64 65536 && decide ((s.reg (Off.dbg core 0xB8) - s.reg (Off.dbg core 0xC0)).toNat < s.ringSize core)
def State.ringPlace (s : State) (core : Nat) : Nat := (s.reg (Off.dbg core 0xA8)).toNat + 64 * ((s.reg (Off.dbg core 0xB8)).toNat % s.ringSize core)

section
variable {s : State} {core part : Nat} {x : Sample} (hx : (s.core core).samples.find? (fun x => x.part == part && s.sampleDone x) = some x)
include hx

theorem exec_sampleRecord : exec (.sampleRecord core part) s =
    let s1 := s.updCore core fun c => { c with samples := c.samples.erase x }
    .next (if s.ringRoom core then
        (if s.leaseFree (s.ringPlace core) then (s1.hwRelease s1.hwPast (s.ringPlace core) (State.sampleWords x)).bumpReg (Off.dbg core 0xB8)
          else s.ringWaits (core / 512) (s.ringPlace core))
      else s1.bumpReg (Off.dbg core 0xC8)) := by
  change execSampleRecord core part s = _
  simp only [execSampleRecord, hx]
  change (if s.ringRoom core then (if (!s.leaseFree (s.ringPlace core)) = true then _ else _) else _) = _
  cases s.ringRoom core <;> cases s.leaseFree (s.ringPlace core) <;> rfl

/-- A record that a lease holds back waits. -/
theorem sampleRecord_waits (hr : s.ringRoom core = true) (hl : s.leaseFree (s.ringPlace core) = false) : s.Leads (.sampleRecord core part) fun s2 =>
    (s2.core core).samples = (s.core core).samples ∧ s2.mem = s.mem ∧ s2.mmio = s.mmio := by
  refine ⟨s.ringWaits (core / 512) (s.ringPlace core), ?_, ?_⟩
  · rw [exec_sampleRecord hx, hr, hl]
    rfl
  · rw [State.ringWaits, hl]
    exact ⟨rfl, rfl, rfl⟩

/-- A record leaves its core: into the ring, or dropped and counted. -/
theorem sampleRecord_leads (h : s.ringRoom core = false ∨ s.leaseFree (s.ringPlace core) = true) : s.Leads (.sampleRecord core part) fun s2 =>
    (s2.core core).samples = (s.core core).samples.erase x ∧
      (s.ringRoom core = true → s2.reg (Off.dbg core 0xB8) = s.reg (Off.dbg core 0xB8) + 1) ∧
      (s.ringRoom core = false → s2.reg (Off.dbg core 0xC8) = s.reg (Off.dbg core 0xC8) + 1 ∧ s2.mem = s.mem) := by
  refine ⟨_, exec_sampleRecord hx, ?_⟩
  generalize hs1 : (s.updCore core fun c => { c with samples := c.samples.erase x }) = s1
  have hcore : (s1.core core).samples = (s.core core).samples.erase x := hs1 ▸ congrArg Core.samples (State.core_updCore s core _)
  have hmem : s1.mem = s.mem := hs1 ▸ rfl
  have hreg : ∀ o, s1.reg o = s.reg o := hs1 ▸ fun o => rfl
  cases hr : s.ringRoom core with
  | false =>
    refine ⟨hcore, nofun, fun _ => ⟨?_, hmem⟩⟩
    exact (State.reg_setReg_same ..).trans (by rw [hreg])
  | true =>
    rw [h.resolve_left (by simp [hr]), if_pos rfl, if_pos rfl]
    refine ⟨?_, fun _ => ?_, nofun⟩
    · have hc : ∀ t : State, t.cores = s1.cores → t.core core = s1.core core := fun t e => by rw [State.core, e, State.core]
      have ha := State.hwRelease_aside s1 s1.hwPast (s.ringPlace core) (State.sampleWords x)
      exact (congrArg Core.samples (hc _ (State.cores_of_aside ha))).trans hcore
    · exact (State.reg_setReg_same ..).trans (by rw [State.reg_of_units (State.hwRelease_units ..), hreg])

end

/-- Settles O48: by what each command's meaning answers, and because the hardware's writes of memory leave threads, cores and registers. -/
theorem faultReportAndDebug : Obligations.FaultReportAndDebug := by
  unfold Obligations.FaultReportAndDebug
  refine ⟨fun s die k ctx => ?_, fun s core part h1 h2 => ?_⟩
  · intro ignored thread again
    refine ⟨fun t ht hf hc hp => ?_, fun h => ?_, ⟨_, rfl, rfl⟩, fun e s1 hq => ⟨frPend_waits hq, fun hw _ => frPend_leads hq hw⟩⟩
    · have hn := State.frNames_some ht hf hc hp
      refine ⟨State.leads_updThread (exec_frCmdRetry hn) ht, fun hu => ?_, fun hu => ⟨_, exec_frCmdSkip hn, ?_⟩, State.leads_updThread (exec_frCmdKill hn) ht⟩
      · exact State.leads_updThread ((exec_frCmdSkip hn).trans (by rw [hu]; rfl)) ht
      · rw [hu]
        rfl
    · obtain ⟨hr, hs, hk⟩ := frCmd_ignored (die := die) (State.frNames_none h)
      exact ⟨⟨_, hr, rfl⟩, ⟨_, hs, rfl⟩, ⟨_, hk, rfl⟩⟩
  · intro counted bitsOf
    exact ⟨wpHitWrite_leads h1 h2, fun h => ⟨_, dbgCmdStop_counted h, rfl⟩, dbgCmdStop_leads, fun h => ⟨_, dbgCmdResume_counted h, rfl⟩, dbgCmdResume_leads,
      fun c => sampleTag_leads, fun x hx => ⟨sampleRecord_waits hx, sampleRecord_leads hx⟩⟩

end Sys2Proof.Machine
end


section
/-! CALLS AND RETURNS (O17): control instructions of one thread, the return stack, and the loads of CALLT
(spec/02_one_thread.md R24, R25; spec/05_isa_integer_control.md R105-R107; spec/19_traversal_and_render.md R337). -/

namespace Sys2Proof.Machine

/-! ## An instruction that sets the PC itself -/

theorem State.updThread_id (s : State) (k : Nat) : s.updThread k id = s := by
  rw [State.updThread, show (id : Thread → Thread) = fun x => x from rfl, Tbl.upd_id]

theorem State.updThread_updThread (s : State) (k : Nat) (f g : Thread → Thread) :
    (s.updThread k f).updThread k g = s.updThread k fun u => g (f u) := by
  simp [State.updThread, Tbl.upd_upd]

section
variable {s s1 s2 : State} {q : Issue} {k : Nat} {t u : Thread} {named reads : List Nat} {i : Instr} {body : Body}

theorem State.issued_sync_stays {n : Nat} (hf : s1.threads.find k = some u) (hs : u.status = .sync n) (hc : s1.clk = s.clk) (hd : s1.draws = s.draws) :
    ∃ ts, s1.issued q k s.nextSeq true false = { s1 with threads := ts } ∧
      Tbl.find ts k = some (u.wentOn s q u.pc) ∧ ∀ j, j ≠ k → Tbl.find ts j = s1.threads.find j := by
  refine ⟨_, rfl, ?_, fun j hj => Tbl.find_upd_other _ _ hj⟩
  rw [Tbl.find_upd_same, hf, Option.map_some]
  cases u
  subst hs
  cases hfl : q.flag <;> simp [Thread.wentOn, hfl, hc, hd, Thread.queue]

variable (hx : exec i s = .next (s.runGang q named reads false body)) (hb : body s k [k] = .ok s1) (h : s.Alone k t) (e : q.Executes t named reads)
  (hc : s1.clk = s.clk) (hd : s1.draws = s.draws) (hs : { s1 with threads := s2.threads } = s2) (ho : ∀ j, j ≠ k → s1.threads.find j = s2.threads.find j)
include hx hb h e hc hd hs ho

/-- A control instruction whose meaning leaves its thread running as u, and the state but for its threads as s2. -/
theorem gives_control (hf : s1.threads.find k = some u) (hr : u.status = .run) : s.Gives i k (u.succeeded.wentOn s q u.pc) s2 := by
  obtain ⟨ts, h1, h2, h3⟩ := State.issued_run (s := s) (q := q) s1 hf hr hc hd false
  refine ⟨ts, ?_, h2, fun j hj => (h3 j hj).trans (ho j hj)⟩
  rw [hx, runGang_alone h e, hb]
  exact congrArg Host.Outcome.next (h1.trans (by rw [← hs]))

/-- One whose meaning holds its thread, which it makes u, by the operation that it leaves outstanding. -/
theorem gives_held (hf : s1.threads.find k = some { u with status := .sync s.nextSeq }) : s.Gives i k (u.heldOn s.nextSeq s q) s2 := by
  obtain ⟨ts, h1, h2, h3⟩ := State.issued_sync_stays (s := s) (q := q) hf rfl hc hd
  refine ⟨ts, ?_, h2, fun j hj => (h3 j hj).trans (ho j hj)⟩
  rw [hx, runGang_alone h e, hb]
  exact congrArg Host.Outcome.next (h1.trans (by rw [← hs]))

end

section
variable {s s0 : State} {q : Issue} {k : Nat} {t u : Thread} {named reads : List Nat} {i : Instr} {body : Body} {f : Thread → Thread}
  (hx : exec i s = .next (s.runGang q named reads false body)) (h : s.Alone k t) (e : q.Executes t named reads)
include hx h e

/-- A class C instruction that makes its thread u, its flag's fall due in the issue clk (R103). -/
theorem gives_classC (hb : body s k [k] = .ok { s.numbered with threads := s.threads.upd k f }) (hf : f t = u.queueAll s.nextSeq s.clk q.falls)
    (hr : u.status = .run) : s.Gives i k (u.afterControl s q) s.numbered := by
  have hfind : Tbl.find (s.threads.upd k f) k = some (u.queueAll s.nextSeq s.clk q.falls) := by rw [Tbl.find_upd_same, h.here, Option.map_some, hf]
  have hg := gives_control (s2 := s.numbered) hx hb h e rfl rfl rfl (fun j hj => Tbl.find_upd_other _ _ hj) hfind ((Thread.queueAll_status ..).trans hr)
  rwa [Thread.queueAll_pc] at hg

/-- One that leaves an operation outstanding which holds its thread, after changes s0, and changes the thread by f. -/
theorem gives_holding (p : Pending) (hp : p.sync = true) (hk : s.Kept s0)
    (hb : body s k [k] = .ok ((s0.startOp q p.sync p.ord k [k] p.lat p.kind p.also).updThread k f))
    (hf : f { t with status := .sync s.nextSeq } = { f t with status := .sync s.nextSeq }) :
    s.Gives i k ((f t).heldOn s.nextSeq s q) (s0.withOp q k t p) := by
  have ht : s0.threads.find k = some t := by rw [hk.threads]; exact h.here
  refine gives_held hx hb h e (by simp [State.startOp, hp, State.addOp, hk.clk]) (by simp [State.startOp, hp, State.addOp, hk.draws]) ?_ (fun j hj => ?_) ?_
  · simp [State.startOp, State.addOp, State.updThread, State.withOp, Pending.op, State.thr_of_find ht, hp]
  · simp [State.startOp, State.addOp, State.updThread, State.withOp, hp, Tbl.find_upd_other _ _ hj]
  · rw [← hf]
    simp [State.startOp, State.addOp, State.updThread, hp, ht, hk.nextSeq]

end

/-! ## CALL, CALLR and RET -/

theorem branchTarget_eq (pc : Pc) (off : BitVec 24) : branchTarget pc off = pc + 2 * off.signExtend 57 := by
  have hs : (off.signExtend 64).setWidth 57 = off.signExtend 57 := by
    refine BitVec.eq_of_getLsbD_eq fun i hi => ?_
    rw [BitVec.getLsbD_setWidth, BitVec.getLsbD_signExtend, BitVec.getLsbD_signExtend]
    simp [hi, show i < 64 by omega]
  rw [branchTarget, BitVec.setWidth_mul _ _ (by decide), hs]
  rfl

/-- A change of a thread that leaves its queued results alone may be made before they are queued. -/
theorem Thread.queueAll_comm {g : Thread → Thread} (hg : ∀ u w, g (u.queue w) = (g u).queue w) (u : Thread) (n c : Nat) (l : List Landing) :
    g (u.queueAll n c l) = (g u).queueAll n c l := by
  unfold Thread.queueAll
  induction l generalizing u with
  | nil => rfl
  | cons x l ih => rw [List.foldl_cons, ih, hg, List.foldl_cons]

/-- What a class C instruction without a result does to the state: its flag's fall is queued (R103). -/
theorem State.classC_eq (s : State) (q : Issue) (k : Nat) :
    s.classC q k = { s.numbered with threads := s.threads.upd k fun u => u.queueAll s.nextSeq s.clk q.falls } := rfl

theorem State.setPc_fixed (s : State) (q : Issue) (k : Nat) (g : Thread → Thread) (pc : Pc) : ((s.updThread k g).fixed q 1 [k] []).setPc k pc =
    { s.numbered with threads := s.threads.upd k fun u => { (g u).queueAll s.nextSeq s.clk q.falls with pc := pc } } := by
  rw [show (s.updThread k g).fixed q 1 [k] [] = (s.updThread k g).classC q k from rfl, State.classC_eq, State.setPc]
  simp only [State.updThread, State.numbered, Tbl.upd_upd]

theorem State.setPc_classC (s : State) (q : Issue) (k : Nat) (g : Thread → Thread) (pc : Pc) : ((s.classC q k).updThread k g).setPc k pc =
    { s.numbered with threads := s.threads.upd k fun u => { g (u.queueAll s.nextSeq s.clk q.falls) with pc := pc } } := by
  rw [State.classC_eq, State.setPc]
  simp only [State.updThread, State.numbered, Tbl.upd_upd]

section
variable {s : State} {c : Ctl} {k : Nat} {t : Thread} {x : Access} {i : Instr} {named reads : List Nat} {target : Pc} {body : Body}
  (hx : exec i s = .next (s.runGang (issue64 c) named reads false body)) (h : s.Alone k t) (e : (issue64 c).Executes t named reads)
  (hb : body s k [k] = s.callTo c k target [])
include hx h e hb

/-- A call whose return stack has room (R24, R105). -/
theorem gives_call (hl : t.hw.length < 8) :
    s.Gives i k (({ t with hw := t.hw ++ [t.pc + 8], pc := target } : Thread).afterControl s (issue64 c)) s.numbered := by
  have hne : ¬t.hw.length = 8 := by omega
  have hcall : s.callTo c k target [] =
      .ok (((s.updThread k fun u => { u with hw := u.hw ++ [t.pc + 8] }).fixed (issue64 c) 1 [k] []).setPc k target) := by
    simp only [State.callTo, State.push, h.thr, hl, hne, if_true, decide_false, Bool.false_eq_true, if_false]
  have hq := Thread.queueAll_comm (g := fun u => { u with pc := target }) (fun _ _ => rfl) { t with hw := t.hw ++ [t.pc + 8] } s.nextSeq s.clk (issue64 c).falls
  exact gives_classC (u := { t with hw := t.hw ++ [t.pc + 8], pc := target }) hx h e (hb.trans (hcall.trans (congrArg _ (State.setPc_fixed ..)))) hq e.runs

/-- A call whose return stack is full: its oldest entry spills, and the thread is held until it has (R25, R106). -/
theorem gives_call_spills (hl : t.hw.length = 8) (hd : t.depth < 512)
    (hx5 : s.check5 k t (t.tlsbase + BitVec.ofNat 64 (8 * t.depth)) 8 8 .write false true .retstack = .ok x) :
    s.Gives i k (({ t with hw := t.hw.drop 1 ++ [t.pc + 8], depth := t.depth + 1, pc := target } : Thread).heldOn s.nextSeq s (issue64 c))
      (((s.used k t (t.tlsbase + BitVec.ofNat 64 (8 * t.depth))).dropPeerCopy x.pa).withOp (issue64 c) k t
        { kind := .spill x ((t.hw.headD 0).setWidth 64), sync := true }) := by
  have hne : t.depth ≠ 512 := by omega
  have hk : s.Kept ((s.used k t (t.tlsbase + BitVec.ofNat 64 (8 * t.depth))).dropPeerCopy x.pa) := (State.Kept.used ..).trans (State.Kept.dropPeerCopy ..)
  refine gives_holding (f := fun u => { u with hw := u.hw.drop 1 ++ [t.pc + 8], depth := u.depth + 1, pc := target }) hx h e
    { kind := .spill x ((t.hw.headD 0).setWidth 64), sync := true } rfl hk (hb.trans ?_) rfl
  simp only [State.callTo, State.push, h.thr, hl, Nat.lt_irrefl, if_false, hne, hx5, decide_true, if_true, State.setPc, State.updThread_updThread]

end

/-- The thread once it has returned to the newest entry of its hardware part (R24). -/
def Thread.popTo (ret : Pc) (u : Thread) : Thread := { u with hw := u.hw.dropLast, pc := ret }

section
variable {s : State} {c : Ctl} {k : Nat} {t : Thread} {x : Access} (h : s.Alone k t) (e : (issue64 c).Executes t [] [])
include h e

/-- A return to the newest entry of the hardware part (R24, R107). -/
theorem gives_ret {l : List Pc} {ret : Pc} (hl : t.hw = l ++ [ret]) :
    s.Gives (.ret c) k (({ t with hw := l, pc := ret } : Thread).afterControl s (issue64 c)) s.numbered := by
  have hpop : t.popTo ret = { t with hw := l, pc := ret } := by rw [Thread.popTo, hl, List.dropLast_concat]
  rw [← hpop]
  refine gives_classC (f := fun u => (u.queueAll s.nextSeq s.clk (issue64 c).falls).popTo ret) rfl h e ?_
    (Thread.queueAll_comm (g := Thread.popTo ret) (fun _ _ => rfl) t _ _ _) e.runs
  simp only [h.thr, hl, List.getLast?_concat]
  exact congrArg _ (State.setPc_classC ..)

/-- A return to a spilled entry: the thread is held until the fill has brought it (R24, R25). -/
theorem gives_ret_fills (hl : t.hw = []) (hd : 0 < t.depth)
    (hx5 : s.check5 k t (t.tlsbase + BitVec.ofNat 64 (8 * (t.depth - 1))) 8 8 .read true false .retstack = .ok x) :
    s.Gives (.ret c) k (({ t with depth := t.depth - 1 } : Thread).heldOn s.nextSeq s (issue64 c))
      ((s.used k t (t.tlsbase + BitVec.ofNat 64 (8 * (t.depth - 1)))).withOp (issue64 c) k t { kind := .fill x, sync := true }) := by
  have hne : t.depth ≠ 0 := by omega
  refine gives_holding (f := fun u => { u with depth := u.depth - 1 }) rfl h e { kind := .fill x, sync := true } rfl (State.Kept.used ..) ?_ rfl
  simp only [h.thr, hl, List.getLast?_nil, hne, if_false, hx5]

omit e in
/-- CALLT issues with its load of the table's header (R337). -/
theorem gives_callt {pd : PReg} {vd va vb : Reg} (e : (issue64 c).Executes t [vd.toNat, va.toNat, vb.toNat] [va.toNat, vb.toNat])
    (hx5 : s.check5 k t (t.reg va.toNat) 64 8 .read true false .shtable = .ok x) :
    s.Gives (.callt c pd vd va vb) k (t.heldOn s.nextSeq s (issue64 c)) ((s.used k t (t.reg va.toNat)).withOp (issue64 c) k t
      { kind := .callt { vd := vd.toNat, pd := pd.toNat, base := t.reg va.toNat, index := t.reg vb.toNat, want := x }, sync := true }) := by
  refine gives_holding (f := id) rfl h e { kind := .callt _, sync := true } rfl (State.Kept.used ..) ?_ rfl
  simp only [h.thr, hx5, State.updThread_id]

end

end Sys2Proof.Machine
end


section
/-! THE LOADS OF CALLT (O17): the header gives the record's address, and the record the call (spec/19_traversal_and_render.md R337). -/

namespace Sys2Proof.Machine

/-- The header's count and flag choose a record: the index, or record 0 where the header stands in for an index out of range (R337). -/
theorem shaderIndex_of {v index : Word} {n : Nat}
    (h : if (index.setWidth 32).toNat < (v.setWidth 32).toNat then n = (index.setWidth 32).toNat else n = 0 ∧ v.getLsbD 32 = true ∧ 0 < (v.setWidth 32).toNat) :
    shaderIndex v index = some n := by
  have hb : ∀ w : Word, bits w 31 0 = (w.setWidth 32).toNat := fun w => by simp [bits]
  rw [shaderIndex, hb, hb]
  split at h
  next hlt => rw [if_pos hlt, h]
  next hge =>
    obtain ⟨rfl, h32, hpos⟩ := h
    have hb32 : bit v 32 = true := h32
    rw [if_neg hge, hb32, if_pos (by simpa using hpos.ne')]

section
variable {s : State} {op k : Nat} {o : Op} {c : CalltOp} (h : s.Free op o k false) (hk : o.kind = .callt c)
include h hk

/-- The state in which a load of CALLT has been performed. -/
theorem callt_lands : exec (.classVResultLands op) s = .next ((s.fromOwner o c.want).calltStep op o c) := by
  rw [h.lands, State.landNow]
  simp only [hk, h.free, if_true]
  rw [h.viaPeer ⟨_, _, by rw [hk, OpKind.access]⟩]

end

/-- The state after a load of CALLT has been read, as its die sees memory (R337). -/
def State.calltRead (s : State) (op : Nat) (o : Op) (c : CalltOp) : State :=
  (s.afterRead op o (s.paNow c.want) c.want.size false).readNow op o c.want

@[simp] theorem State.calltRead_lasting (s : State) (op : Nat) (o : Op) (c : CalltOp) : (s.calltRead op o c).lasting = s.lasting := by
  simp [State.calltRead]

section
variable {s : State} {op k n : Nat} {o : Op} {c : CalltOp} {t : Thread} {x : Access} {e : Word} (hk : o.thr = k)
  (ht : (s.calltRead op o c).thr k = t)
include hk ht

/-- The header's load: the record's, after its checks, stands in its place. -/
theorem calltStep_header (he : c.entry = none) (hn : shaderIndex (s.loadValue op k c.want) c.index = some n)
    (hx : (s.calltRead op o c).check5 k t (c.base + 64 + BitVec.ofNat 64 (64 * n)) 8 8 .read true false .shtable = .ok x) :
    s.calltStep op o c =
      let e := c.base + 64 + BitVec.ofNat 64 (64 * n)
      let s2 := (s.calltRead op o c).used k t e
      { s2 with ops := s2.ops.put op { o with kind := .callt { c with entry := some e, want := x } } } := by
  subst hk
  unfold State.calltRead at ht hx
  simp only [State.calltStep, he, hn, ht, hx, State.calltRead]

omit ht in
theorem calltStep_record (he : c.entry = some e) : s.calltStep op o c =
    let v := s.loadValue op k c.want
    let s1 := s.calltRead op o c
    if v = 0 then (s1.updThread k fun t => { t with pc := o.pc + 8 }).finishOp op o [.pred c.pd false]
    else if !targetOk v then s1.faultOp op o { cause := .badaddr, kind := .shtable, addr := v }
    else s1.calltCall op o (v.setWidth 57) [.reg c.vd e none, .pred c.pd true] := by
  subst hk
  simp only [State.calltStep, he, State.calltRead]

end

section
variable {s : State} {op k : Nat} {o : Op} {t : Thread} {target : Pc} {l : List Landing} {x : Access} (hk : o.thr = k) (ht : s.thr k = t)
include hk ht

/-- The call of a record whose return stack has room (R106). -/
theorem calltCall_room (hl : t.hw.length < 8) :
    s.calltCall op o target l = (s.updThread k fun t => { t with hw := t.hw ++ [o.pc + 8], pc := target }).finishOp op o l := by
  simp only [State.calltCall, hk, ht, hl, if_true]

/-- One whose push spills: the spill stands in the operation's place, with what lands when it is done (R25, R106). -/
theorem calltCall_spills (hl : t.hw.length = 8) (hd : t.depth < 512)
    (hx : s.check5 k t (t.tlsbase + BitVec.ofNat 64 (8 * t.depth)) 8 8 .write false true .retstack = .ok x) :
    s.calltCall op o target l =
      let s1 := ((s.used k t (t.tlsbase + BitVec.ofNat 64 (8 * t.depth))).dropPeerCopy x.pa).updThread k fun t =>
        { t with hw := t.hw.drop 1 ++ [o.pc + 8], depth := t.depth + 1, pc := target }
      { s1 with ops := s1.ops.put op { o with also := l, kind := .spill x ((t.hw.headD 0).setWidth 64) } } := by
  have hne : t.depth ≠ 512 := by omega
  simp only [State.calltCall, hk, ht, hl, Nat.lt_irrefl, if_false, hne, hx]

end

theorem State.find_updThread {s : State} {k : Nat} {t : Thread} (h : s.threads.find k = some t) (f : Thread → Thread) :
    (s.updThread k f).threads.find k = some (f t) := by
  simp [State.updThread, h]

/-- What a thread and its operation are once an operation of it has ended, from a state in which the thread was made u. -/
theorem State.finishOp_updThread {s : State} {op k : Nat} {o : Op} {t : Thread} (hr : o.recv = [k]) (ht : s.threads.find k = some t)
    (f : Thread → Thread) (l : List Landing) : ((s.updThread k f).finishOp op o l).ops.find op = none ∧
      ((s.updThread k f).finishOp op o l).mem = s.mem ∧
      ((s.updThread k f).finishOp op o l).threads.find k = some ((f t).queueAll op s.clk (o.ending l)) := by
  rw [State.finishOp_one hr]
  exact ⟨by simp [Tbl.find_del], rfl, by simp [State.updThread, ht]⟩

/-- The first load of CALLT, performed, leaves that of the record, or the second gives the call or says that there is none (R337). -/
theorem callt_loads {s : State} {op k : Nat} {o : Op} {c : CalltOp} {t : Thread} (h : s.Free op o k false) (hk : o.kind = .callt c)
    (ht : s.threads.find k = some t) :
    let s0 := s.fromOwner o c.want
    let v := s0.loadValue op k c.want
    let s1 := s0.calltRead op o c
    let leaves := fun (p : Op) (u : Thread) =>
      ∃ s2, exec (.classVResultLands op) s = .next s2 ∧ s2.ops.find op = some p ∧ s2.mem = s0.mem ∧ s2.threads.find k = some u
    let ends := fun (u : Thread) (l : List Landing) =>
      ∃ s2, exec (.classVResultLands op) s = .next s2 ∧ s2.ops.find op = none ∧ s2.mem = s0.mem ∧ s2.threads.find k = some (u.queueAll op s.clk (o.ending l))
    (∀ n x, c.entry = none → shaderIndex v c.index = some n →
      let e := c.base + 64 + BitVec.ofNat 64 (64 * n)
      s1.check5 k t e 8 8 .read true false .shtable = .ok x → leaves { o with kind := .callt { c with entry := some e, want := x } } t) ∧
    (∀ e, c.entry = some e →
      (v = 0 → ends { t with pc := o.pc + 8 } [.pred c.pd false]) ∧
      (v ≠ 0 → targetOk v = true →
        let found : List Landing := [.reg c.vd e none, .pred c.pd true]
        let top := t.tlsbase + BitVec.ofNat 64 (8 * t.depth)
        (t.hw.length < 8 → ends { t with hw := t.hw ++ [o.pc + 8], pc := v.setWidth 57 } found) ∧
        (∀ x, t.hw.length = 8 → t.depth < 512 → s1.check5 k t top 8 8 .write false true .retstack = .ok x →
          leaves { o with also := found, kind := .spill x ((t.hw.headD 0).setWidth 64) }
            { t with hw := t.hw.drop 1 ++ [o.pc + 8], depth := t.depth + 1, pc := v.setWidth 57 }))) := by
  intro s0 v s1 leaves ends
  obtain ⟨hr, hthr⟩ := h.mine
  have hlast : s1.lasting = s0.lasting := State.calltRead_lasting ..
  have ha : s1.aside = s.aside := (State.aside_of_lasting hlast).trans (State.fromOwner_aside ..)
  have hm : s1.mem = s0.mem := State.mem_of_lasting hlast
  have hf : s1.threads.find k = some t := by rw [State.threads_of_aside ha, ht]
  have ht1 : s1.thr k = t := State.thr_of_find hf
  have hclk : s1.clk = s.clk := State.clk_of_aside ha
  have hexec : exec (.classVResultLands op) s = .next (s0.calltStep op o c) := callt_lands h hk
  have hused : ∀ a, (s1.used k t a).threads.find k = some t := fun a => by rw [(State.Kept.used s1 k t a).threads, hf]
  refine ⟨?_, fun e he => ?_⟩
  · intro n x he hn e hx
    rw [calltStep_header hthr ht1 he hn hx] at hexec
    exact ⟨_, hexec, Tbl.find_put_same .., (State.used_mem ..).trans hm, hused e⟩
  · rw [calltStep_record hthr he] at hexec
    refine ⟨fun hv => ?_, ?_⟩
    · obtain ⟨hg, hmem, hth⟩ := State.finishOp_updThread (op := op) hr hf (fun t => { t with pc := o.pc + 8 }) [.pred c.pd false]
      exact ⟨_, hexec.trans (congrArg _ (if_pos hv)), hg, hmem.trans hm, hclk ▸ hth⟩
    · intro hv hok found top
      have hgood : ¬(!targetOk v) = true := by rw [hok]; decide
      have hcall : exec (.classVResultLands op) s = .next (s1.calltCall op o (v.setWidth 57) found) :=
        hexec.trans (congrArg _ ((if_neg hv).trans (if_neg hgood)))
      refine ⟨fun hl => ?_, fun x hl hd hx => ?_⟩
      · obtain ⟨hg, hmem, hth⟩ := State.finishOp_updThread (op := op) hr hf (fun t => { t with hw := t.hw ++ [o.pc + 8], pc := v.setWidth 57 }) found
        exact ⟨_, hcall.trans (congrArg _ (calltCall_room hthr ht1 hl)), hg, hmem.trans hm, hclk ▸ hth⟩
      refine ⟨_, hcall.trans (congrArg _ (calltCall_spills hthr ht1 hl hd hx)), Tbl.find_put_same .., ?_, ?_⟩
      · exact (State.dropPeerCopy_mem ..).trans ((State.used_mem ..).trans hm)
      · have hdrop := (State.Kept.dropPeerCopy (s1.used k t top) x.pa).threads
        exact State.find_updThread (t := t) (by rw [hdrop, hused top]) fun t =>
          { t with hw := t.hw.drop 1 ++ [o.pc + 8], depth := t.depth + 1, pc := v.setWidth 57 }

/-- Settles O17: by the control instructions of one thread, and the two loads that CALLT makes one after the other. -/
theorem callsAndReturns : Obligations.CallsAndReturns := by
  unfold Obligations.CallsAndReturns
  refine ⟨fun s k t c off va h => ?_, ?_, fun s op k o c t h hk ht => ?_⟩
  · intro q a top under calls
    have hcall : ∀ (i : Instr) (regs : List Nat) (target : Pc) (body : Body), exec i s = .next (s.runGang q regs regs false body) →
        body s k [k] = s.callTo c k target [] → calls i regs target := fun i regs target body hx hb e =>
      ⟨gives_call hx h e hb, fun x hl hd h5 => gives_call_spills hx h e hb hl hd h5⟩
    refine ⟨hcall _ _ _ _ rfl ?_, fun h57 h0 => hcall _ _ _ _ rfl ?_, fun e => ⟨fun l ret hl => gives_ret h e hl, ?_⟩⟩
    · rw [h.thr, branchTarget_eq]
    · change (if targetOk ((s.thr k).reg va.toNat) then s.callTo c k (((s.thr k).reg va.toNat).setWidth 57) [] else _) = _
      rw [h.thr, if_pos ((targetOk_iff _).2 ⟨h57, h0⟩)]
    · intro x hl hd h5
      exact gives_ret_fills h e hl hd h5
  · intro s k t c pd vd va vb x h q base e hx
    exact gives_callt h e hx
  · intro s0 v s1 leaves ends
    obtain ⟨header, record⟩ := callt_loads h hk ht
    refine ⟨?_, fun e he => ⟨(record e he).1, fun hv h57 h0 => ?_⟩⟩
    · intro n x he hn e hx
      exact header n x he (shaderIndex_of hn) hx
    · exact (record e he).2 hv ((targetOk_iff v).2 ⟨h57, h0⟩)

end Sys2Proof.Machine
end

section
/-! BINARY FLOATING INSTRUCTIONS OF CLASS F4 (O6): each is a fixed-latency operation of four clk on its operands' values
(spec/06_isa_floating_point.md R112-R118, R122). -/

namespace Sys2Proof.Machine

variable {s : State} {k : Nat} {t : Thread} {i : Instr} {q : Issue} {d a b : Nat}

/-- An instruction on the values of two operands (R113, R115). -/
theorem gives_frrr (y : FTy) (f : FVal → FVal → Nat) (hx : exec i s = .next (s.frrr q y d a b f)) (ha : s.Alone k t)
    (e : q.Executes t [d, a, b] [a, b]) :
    s.Gives i k (t.afterFixed s q 4 [.reg d (BitVec.ofNat 64 (f (FTy.val y (t.reg a)) (FTy.val y (t.reg b)))) none]) s.numbered :=
  gives_fixed 4 (fun t => [.reg d (BitVec.ofNat 64 (f (FTy.val y (t.reg a)) (FTy.val y (t.reg b)))) none]) hx ha e

/-- FMIN and FMAX, on the bits of two operands (R116). -/
theorem gives_fmm (y : FTy) (mx : Bool) (hx : exec i s = .next (s.fmm q y mx d a b)) (ha : s.Alone k t) (e : q.Executes t [d, a, b] [a, b]) :
    s.Gives i k (t.afterFixed s q 4 [.reg d
      (BitVec.ofNat 64 (fminmax y mx ((t.reg a).toNat % 2 ^ (FTy.fmt y).width) ((t.reg b).toNat % 2 ^ (FTy.fmt y).width))) none]) s.numbered :=
  gives_fixed 4 (fun t => [.reg d
    (BitVec.ofNat 64 (fminmax y mx ((t.reg a).toNat % 2 ^ (FTy.fmt y).width) ((t.reg b).toNat % 2 ^ (FTy.fmt y).width))) none]) hx ha e

/-- A compare of the values of two operands (R118). -/
theorem gives_fcmp (y : FTy) (o : FCond) (hx : exec i s = .next (s.prr q 4 d a b fun x z => fcmp o (FTy.val y x) (FTy.val y z)))
    (ha : s.Alone k t) (e : q.Executes t [a, b] [a, b]) :
    s.Gives i k (t.afterFixed s q 4 [.pred d (fcmp o (FTy.val y (t.reg a)) (FTy.val y (t.reg b)))]) s.numbered :=
  gives_fixed 4 (fun t => [.pred d (fcmp o (FTy.val y (t.reg a)) (FTy.val y (t.reg b)))]) hx ha e

theorem sval_64 (v : Word) : sval 64 v = v.toInt := by rw [sval_eq_toInt, BitVec.setWidth_eq]

/-- Settles O6: a sum, difference, product, minimum or maximum on two operands' values, a compare, FFMA and FSCALE. -/
theorem floatTwoSource : Obligations.FloatTwoSource := by
  intro s k t st c32 c rm ty x5 y5 pd vd va vb vc cond ha gives sets val raw add sub mul pick c16 i32 i64 p32
  have sums : ∀ {q i d a b} (y : FTy) (m : Rm), exec i s = .next (s.frrr q y d a b (fadd y m)) → gives q i d [a, b] (add y m a b) :=
    fun y m hx e => gives_frrr y (fadd y m) hx ha e
  have differences : ∀ {q i d a b} (y : FTy) (m : Rm), exec i s = .next (s.frrr q y d a b fun x z => fadd y m x z.neg) →
      gives q i d [a, b] (sub y m a b) :=
    fun y m hx e => gives_frrr y (fun x z => fadd y m x z.neg) hx ha e
  have products : ∀ {q i d a b} (y : FTy) (m : Rm), exec i s = .next (s.frrr q y d a b (fmul y m)) → gives q i d [a, b] (mul y m a b) :=
    fun y m hx e => gives_frrr y (fmul y m) hx ha e
  have picks : ∀ {q i d a b} (y : FTy) (mx : Bool), exec i s = .next (s.fmm q y mx d a b) → gives q i d [a, b] (pick y mx a b) :=
    fun y mx hx e => gives_fmm y mx hx ha e
  have compares : ∀ {q i} (y : FTy) (o : FCond),
      exec i s = .next (s.prr q 4 pd.toNat va.toNat vb.toNat fun x z => fcmp o (FTy.val y x) (FTy.val y z)) →
      sets q i (fcmp o (val y va.toNat) (val y vb.toNat)) :=
    fun y o hx e => gives_fcmp y o hx ha e
  refine ⟨sums .d .rne rfl, differences .d .rne rfl, products .d .rne rfl, picks .d false rfl, picks .d true rfl,
    sums .d .rne rfl, differences .d .rne rfl, products .d .rne rfl, picks .d false rfl, picks .d true rfl,
    sums .f .rne rfl, differences .f .rne rfl, products .f .rne rfl, picks .f false rfl, picks .f true rfl,
    compares .d .eq rfl, compares .d .ne rfl, compares .d .lt rfl, compares .d .le rfl, compares .d .un rfl,
    compares .f .eq rfl, compares .f .ne rfl, compares .f .lt rfl, compares .f .le rfl, compares .f .un rfl,
    sums ty rm rfl, differences ty rm rfl, products ty rm rfl, picks ty false rfl, picks ty true rfl,
    compares ty cond rfl, fun e => ?_, fun e => ?_⟩
  · exact gives_fixed 4 (fun t => [.reg vd.toNat
      (fword (fma ty rm (FTy.val ty (t.reg va.toNat)) (FTy.val ty (t.reg vb.toNat)) (FTy.val ty (t.reg vc.toNat)))) none]) rfl ha e
  · have h := gives_fixed (i := .fscale c rm ty vd va vb) 4 (fun t => [.reg vd.toNat
      (fword (fscaleR ty rm ((t.reg va.toNat).toNat % 2 ^ (FTy.fmt ty).width) (sval 64 (t.reg vb.toNat)))) none]) rfl ha e
    rwa [sval_64] at h

end Sys2Proof.Machine
end

section
/-! ROUNDING TO AN INTEGER (O9): powers of two, the binary exponent of a rational, and RoundInt under each mode
(spec/03_number_formats.md R47, R48). -/

namespace Sys2Proof.Machine

variable {rm : Rm} {neg : Bool} {x u : ℚ} {n : Nat}

/-! ## Powers of two -/

theorem scale2_eq (x : ℚ) (k : ℤ) : scale2 x k = x * 2 ^ k := by
  unfold scale2
  split
  next h => rw [Nat.cast_pow, Nat.cast_ofNat, ← zpow_natCast, Int.toNat_of_nonneg h]
  next h => rw [Nat.cast_pow, Nat.cast_ofNat, ← zpow_natCast, Int.toNat_of_nonneg (by omega), zpow_neg, div_inv_eq_mul]

theorem cast_two_pow (k : Nat) : ((2 ^ k : Nat) : ℚ) = 2 ^ (k : ℤ) := by rw [zpow_natCast]; norm_num

theorem two_zpow_mul (f : Nat) (q : ℤ) : (2 : ℚ) ^ (q + f) = (2 ^ f : Nat) * 2 ^ q := by
  rw [zpow_add₀ two_ne_zero, zpow_natCast, Nat.cast_pow, Nat.cast_ofNat, mul_comm]

/-- The powers of two that log2 names around a positive number. -/
theorem two_pow_log2_bounds {n : Nat} (h : n ≠ 0) : (2 : ℚ) ^ (Nat.log2 n : ℤ) ≤ n ∧ (n : ℚ) < 2 ^ ((Nat.log2 n : ℤ) + 1) := by
  refine ⟨?_, ?_⟩
  · rw [← cast_two_pow]
    exact_mod_cast Nat.log2_self_le h
  · rw [← Int.natCast_succ, ← cast_two_pow]
    exact_mod_cast Nat.lt_log2_self

/-- floorLog2 gives the binary exponent (R48). -/
theorem floorLog2_spec (h : 0 < x) : (2 : ℚ) ^ floorLog2 x ≤ x ∧ x < 2 ^ (floorLog2 x + 1) := by
  have hnum : x.num.natAbs ≠ 0 := by simpa using h.ne'
  have hx : x = (x.num.natAbs : ℚ) / x.den := by
    rw [Nat.cast_natAbs, abs_of_pos (Rat.num_pos.2 h), Rat.num_div_den]
  obtain ⟨hn, hn'⟩ := two_pow_log2_bounds hnum
  obtain ⟨hd, hd'⟩ := two_pow_log2_bounds x.den_ne_zero
  have hden : (0 : ℚ) < x.den := by exact_mod_cast x.den_pos
  set k : ℤ := (Nat.log2 x.num.natAbs : ℤ) - Nat.log2 x.den with hk
  have above : x < 2 ^ (k + 1) := by
    calc x = (x.num.natAbs : ℚ) / x.den := hx
      _ < 2 ^ ((Nat.log2 x.num.natAbs : ℤ) + 1) / x.den := by gcongr
      _ ≤ 2 ^ ((Nat.log2 x.num.natAbs : ℤ) + 1) / 2 ^ (Nat.log2 x.den : ℤ) := by gcongr
      _ = 2 ^ (k + 1) := by rw [← zpow_sub₀ two_ne_zero]; congr 1; omega
  have below : (2 : ℚ) ^ (k - 1) ≤ x := by
    calc (2 : ℚ) ^ (k - 1) = 2 ^ (Nat.log2 x.num.natAbs : ℤ) / 2 ^ ((Nat.log2 x.den : ℤ) + 1) := by
          rw [← zpow_sub₀ two_ne_zero]; congr 1; omega
      _ ≤ 2 ^ (Nat.log2 x.num.natAbs : ℤ) / x.den := by gcongr
      _ ≤ (x.num.natAbs : ℚ) / x.den := by gcongr
      _ = x := hx.symm
  simp only [floorLog2, scale2_eq, one_mul, ← hk]
  split
  next hle => exact ⟨hle, above⟩
  next hlt => exact ⟨below, by simpa using hlt⟩

/-! ## RoundInt (R47) -/

section
variable (h : 0 ≤ x)
include h

theorem natAbs_div_den_add_mod : x = ((x.num.natAbs / x.den : Nat) : ℚ) + ((x.num.natAbs % x.den : Nat) : ℚ) / x.den := by
  have hden : (x.den : ℚ) ≠ 0 := by exact_mod_cast x.den_ne_zero
  have hx : x = (x.num.natAbs : ℚ) / x.den := by
    rw [Nat.cast_natAbs, abs_of_nonneg (Rat.num_nonneg.2 h), Rat.num_div_den]
  conv_lhs => rw [hx, ← Nat.div_add_mod x.num.natAbs x.den]
  push_cast
  field_simp

theorem natAbs_div_den : x.num.natAbs / x.den = ⌊x⌋₊ := by
  have hden : (0 : ℚ) < x.den := by exact_mod_cast x.den_pos
  have hr : ((x.num.natAbs % x.den : Nat) : ℚ) < x.den := by exact_mod_cast Nat.mod_lt _ x.den_pos
  have hx := natAbs_div_den_add_mod h
  refine ((Nat.floor_eq_iff h).2 ⟨?_, ?_⟩).symm
  · have : 0 ≤ ((x.num.natAbs % x.den : Nat) : ℚ) / x.den := by positivity
    linarith
  · have := (div_lt_one hden).2 hr
    linarith

/-- The remainder over the denominator is what x has above its floor. -/
theorem natAbs_mod_den : ((x.num.natAbs % x.den : Nat) : ℚ) = (x - ⌊x⌋₊) * x.den := by
  have hden : (x.den : ℚ) ≠ 0 := by exact_mod_cast x.den_ne_zero
  have hx := natAbs_div_den_add_mod h
  rw [natAbs_div_den h] at hx
  rw [eq_comm, ← eq_div_iff hden]
  linarith

theorem den_lt_two_mul_mod : x.den < 2 * (x.num.natAbs % x.den) ↔ 1 < 2 * (x - ⌊x⌋₊) := by
  rw [← Nat.cast_lt (α := ℚ), Nat.cast_mul, natAbs_mod_den h, Nat.cast_ofNat, ← mul_assoc]
  exact lt_mul_iff_one_lt_left (by exact_mod_cast x.den_pos)

theorem two_mul_mod_eq_den : 2 * (x.num.natAbs % x.den) = x.den ↔ 2 * (x - ⌊x⌋₊) = 1 := by
  rw [← Nat.cast_inj (R := ℚ), Nat.cast_mul, natAbs_mod_den h, Nat.cast_ofNat, ← mul_assoc]
  exact mul_eq_right₀ (by exact_mod_cast x.den_ne_zero)

theorem den_le_two_mul_mod : x.den ≤ 2 * (x.num.natAbs % x.den) ↔ 1 ≤ 2 * (x - ⌊x⌋₊) := by
  rw [Nat.le_iff_lt_or_eq, eq_comm, den_lt_two_mul_mod h, two_mul_mod_eq_den h, le_iff_lt_or_eq, eq_comm (a := (1 : ℚ))]

theorem two_mul_mod_eq_zero : (2 * (x.num.natAbs % x.den) == 0) = true ↔ x = ⌊x⌋₊ := by
  have hden : (x.den : ℚ) ≠ 0 := by exact_mod_cast x.den_ne_zero
  rw [beq_iff_eq, ← Nat.cast_inj (R := ℚ), Nat.cast_mul, natAbs_mod_den h]
  simp [hden, sub_eq_zero]

/-- RoundInt chooses as R47 says: the floor or the integer above it. -/
theorem roundInt_chooses (rm : Rm) (neg : Bool) : Rm.chooses rm neg x 1 (roundInt rm neg x) := by
  have hl := Nat.floor_le h
  have hu := Nat.lt_floor_add_one x
  have low : |x - (⌊x⌋₊ : ℚ) * 1| = x - ⌊x⌋₊ := by rw [mul_one, abs_of_nonneg (sub_nonneg.2 hl)]
  have high : |x - ((⌊x⌋₊ + 1 : Nat) : ℚ) * 1| = 1 - (x - ⌊x⌋₊) := by
    rw [abs_of_nonpos] <;> push_cast <;> linarith
  have down : (⌊x⌋₊ : ℚ) * 1 ≤ x ∧ x < (⌊x⌋₊ : ℚ) * 1 + 1 := by constructor <;> linarith
  have up : x ≤ ((if x = ⌊x⌋₊ then ⌊x⌋₊ else ⌊x⌋₊ + 1 : Nat) : ℚ) * 1 ∧ ((if x = ⌊x⌋₊ then ⌊x⌋₊ else ⌊x⌋₊ + 1 : Nat) : ℚ) * 1 < x + 1 := by
    split
    next h0 => constructor <;> linarith
    next h0 =>
      have : (⌊x⌋₊ : ℚ) < x := lt_of_le_of_ne hl (Ne.symm h0)
      push_cast
      constructor <;> linarith
  cases rm <;> simp only [Rm.chooses, roundInt, natAbs_div_den h, den_lt_two_mul_mod h, two_mul_mod_eq_den h, den_le_two_mul_mod h,
    Bool.or_eq_true, two_mul_mod_eq_zero h]
  case rne =>
    split
    next c =>
      rw [high]
      refine ⟨by rcases c with c | c <;> linarith, fun e => ?_⟩
      have : ⌊x⌋₊ % 2 = 1 := c.elim (fun c => by linarith) (·.2)
      omega
    next c =>
      rw [low]
      rw [not_or, not_lt, not_and] at c
      exact ⟨c.1, fun e => Nat.mod_two_ne_one.1 (c.2 e)⟩
  case rz => exact down
  case rup =>
    cases neg
    · simpa using up
    · simpa using down
  case rdn =>
    cases neg
    · simpa using down
    · simpa using up
  case rna =>
    split
    next c =>
      rw [high]
      exact ⟨by linarith, fun _ => by push_cast; linarith⟩
    next c =>
      rw [low]
      exact ⟨by linarith, fun e => by linarith⟩
end

/-- A choice among units of one is a choice among units u. -/
theorem Rm.chooses_mul (hu : 0 < u) (h : Rm.chooses rm neg x 1 n) : Rm.chooses rm neg (x * u) u n := by
  have near : |x * u - n * u| = |x - n * 1| * u := by rw [mul_one, ← sub_mul, abs_mul, abs_of_pos hu]
  have tie : 2 * (|x - n * 1| * u) = u ↔ 2 * |x - n * 1| = 1 := by rw [← mul_assoc]; exact mul_eq_right₀ hu.ne'
  have le : 2 * |x - n * 1| ≤ 1 → 2 * (|x - n * 1| * u) ≤ u := fun h => by nlinarith
  have down : (n * 1 ≤ x ∧ x < n * 1 + 1) → n * u ≤ x * u ∧ x * u < n * u + u := fun ⟨h, g⟩ => by constructor <;> nlinarith
  have up : (x ≤ n * 1 ∧ n * 1 < x + 1) → x * u ≤ n * u ∧ n * u < x * u + u := fun ⟨h, g⟩ => by constructor <;> nlinarith
  cases rm <;> simp only [Rm.chooses, near, tie] at h ⊢
  case rne => exact ⟨le h.1, h.2⟩
  case rz => exact down h
  case rup => cases neg <;> [exact up h; exact down h]
  case rdn => cases neg <;> [exact down h; exact up h]
  case rna => exact ⟨le h.1, fun e => by have := h.2 e; nlinarith⟩

/-- Under every mode the chosen multiple lies within one unit. -/
theorem Rm.chooses_near (hu : 0 < u) (h : Rm.chooses rm neg x u n) : x - u < n * u ∧ n * u < x + u := by
  have nearest : 2 * |x - n * u| ≤ u → x - u < n * u ∧ n * u < x + u := fun h => by
    have := abs_lt.1 (show |x - n * u| < u by linarith [abs_nonneg (x - n * u)])
    constructor <;> linarith [this.1, this.2]
  cases rm <;> simp only [Rm.chooses] at h
  case rne => exact nearest h.1
  case rz => constructor <;> linarith [h.1, h.2]
  case rup => split at h <;> constructor <;> linarith [h.1, h.2]
  case rdn => split at h <;> constructor <;> linarith [h.1, h.2]
  case rna => exact nearest h.1

end Sys2Proof.Machine
end

section
/-! ENCODINGS (O9): the fields of a number in a format with sign and infinity, and the value they give (spec/03_number_formats.md R44-R46). -/

namespace Sys2Proof.Machine

/-- What R44 gives the two arithmetic formats: a sign, infinities, and the bias of half the exponent's range. -/
structure Fmt.Ieee (m : Fmt) : Prop where
  signed : m.signed = true
  inf : m.inf = true
  e : 2 ≤ m.e
  f : 1 ≤ m.f
  bias : m.bias = 2 ^ (m.e - 1) - 1

theorem FTy.ieee (t : FTy) : (FTy.fmt t).Ieee := by
  cases t
  · exact ⟨rfl, rfl, by decide, by decide, by decide⟩
  · exact ⟨rfl, rfl, by decide, by decide, by decide⟩

variable {m : Fmt} {neg : Bool} {E F r : Nat}

/-! ## Fields -/

theorem Fmt.withSign_eq (m : Fmt) (neg : Bool) (r : Nat) : m.withSign neg r = 2 ^ (m.e + m.f) * neg.toNat + r := by
  cases neg <;> simp [Fmt.withSign]

theorem Fmt.withSign_fields (m : Fmt) (neg : Bool) (E F : Nat) : m.withSign neg (E * 2 ^ m.f + F) = (neg.toNat * 2 ^ m.e + E) * 2 ^ m.f + F := by
  rw [Fmt.withSign_eq, pow_add]
  ring

theorem Fmt.fields_lt (m : Fmt) (hE : E < 2 ^ m.e) (hF : F < 2 ^ m.f) : E * 2 ^ m.f + F < 2 ^ (m.e + m.f) := by
  rw [pow_add]
  nlinarith

section
variable (hE : E < 2 ^ m.e) (hF : F < 2 ^ m.f)
include hE hF

theorem Fmt.signOf_withSign : m.signOf (m.withSign neg (E * 2 ^ m.f + F)) = neg := by
  rw [Fmt.signOf, Fmt.withSign_eq, Nat.testBit_two_pow_mul_add _ (Fmt.fields_lt m hE hF)]
  cases neg <;> simp

theorem Fmt.expOf_withSign : m.expOf (m.withSign neg (E * 2 ^ m.f + F)) = E := by
  rw [Fmt.expOf, Fmt.withSign_fields, Nat.mul_comm, Nat.mul_add_div (by positivity), Nat.div_eq_of_lt hF, Nat.add_zero, Nat.mul_comm,
    Nat.mul_add_mod, Nat.mod_eq_of_lt hE]

omit hE in
theorem Fmt.fracOf_withSign : m.fracOf (m.withSign neg (E * 2 ^ m.f + F)) = F := by
  rw [Fmt.fracOf, Fmt.withSign_fields, Nat.mul_comm, Nat.mul_add_mod, Nat.mod_eq_of_lt hF]

theorem Fmt.withSign_lt (hm : m.Ieee) : m.withSign neg (E * 2 ^ m.f + F) < 2 ^ m.width := by
  have := Fmt.fields_lt m hE hF
  rw [Fmt.width, hm.signed, if_pos rfl, pow_succ, Fmt.withSign]
  split <;> omega
end

theorem Fmt.expOf_lt (m : Fmt) (r : Nat) : m.expOf r < 2 ^ m.e := Nat.mod_lt _ (by positivity)
theorem Fmt.fracOf_lt (m : Fmt) (r : Nat) : m.fracOf r < 2 ^ m.f := Nat.mod_lt _ (by positivity)

theorem Fmt.exp_frac (m : Fmt) (r : Nat) : m.expOf r * 2 ^ m.f + m.fracOf r = r % 2 ^ (m.e + m.f) := by
  rw [Fmt.expOf, Fmt.fracOf, Nat.add_comm m.e, pow_add, Nat.mod_mul]
  ring

/-- An encoding is its fields in their places. -/
theorem Fmt.withSign_signOf (hm : m.Ieee) (h : r < 2 ^ m.width) : m.withSign (m.signOf r) (m.expOf r * 2 ^ m.f + m.fracOf r) = r := by
  have hq : r / 2 ^ (m.e + m.f) < 2 := by
    rw [Nat.div_lt_iff_lt_mul (by positivity), ← pow_succ']
    rwa [Fmt.width, hm.signed, if_pos rfl] at h
  have hs : (m.signOf r).toNat = r / 2 ^ (m.e + m.f) := by
    rw [Fmt.signOf, Nat.toNat_testBit, Nat.mod_eq_of_lt hq]
  rw [Fmt.exp_frac, Fmt.withSign_eq, hs, Nat.div_add_mod]

theorem Fmt.isZero_iff (m : Fmt) (r : Nat) : m.isZero r ↔ r % 2 ^ (m.e + m.f) = 0 := by
  rw [← Fmt.exp_frac]
  simp

/-! ## Codes -/

theorem Fmt.signBit_add (hm : m.Ieee) (neg : Bool) (r : Nat) : m.signBit neg + r = m.withSign neg r := by
  cases neg <;> simp [Fmt.signBit, Fmt.withSign, hm.signed]

theorem Fmt.signBit_eq (hm : m.Ieee) (neg : Bool) : m.signBit neg = m.withSign neg 0 := by rw [← Fmt.signBit_add hm, Nat.add_zero]

theorem Fmt.infCode_eq (m : Fmt) : m.infCode = (2 ^ m.e - 1) * 2 ^ m.f := by rw [Fmt.infCode, pow_add, Nat.sub_mul, Nat.one_mul]

theorem Fmt.nanCode_eq (hm : m.Ieee) : m.nanCode = (2 ^ m.e - 1) * 2 ^ m.f + 2 ^ (m.f - 1) := by
  rw [Fmt.nanCode, if_pos hm.inf, Fmt.infCode_eq]

theorem Fmt.maxCode_eq (hm : m.Ieee) : m.maxCode = (2 ^ m.e - 1) * 2 ^ m.f - 1 := by rw [Fmt.maxCode, if_pos hm.inf, ← Fmt.infCode_eq, Fmt.infCode]

/-! ## Values (R45, R46) -/

theorem Fmt.bias_add (hm : m.Ieee) : m.bias + m.bias = 2 ^ m.e - 2 := by
  have h : (2 : ℤ) ^ m.e = 2 ^ (m.e - 1) * 2 := by rw [← pow_succ, Nat.sub_add_cancel (by have := hm.e; omega)]
  rw [hm.bias, h]
  ring

theorem Fmt.magOf_eq (m : Fmt) (r : Nat) : m.magOf r =
    if m.expOf r = 0 then scale2 (m.fracOf r : Nat) (m.emin - m.f) else scale2 ((2 ^ m.f + m.fracOf r : Nat) : ℚ) ((m.expOf r : ℤ) - m.bias - m.f) := by
  simp only [Fmt.magOf, scale2_eq, Fmt.emin, zpow_sub₀ (two_ne_zero (α := ℚ)), zpow_natCast]
  push_cast
  split <;> field_simp

theorem Fmt.magOf_nonneg (m : Fmt) (r : Nat) : 0 ≤ m.magOf r := by
  unfold Fmt.magOf
  split <;> positivity

theorem Fmt.magOf_eq_zero (m : Fmt) (r : Nat) : m.magOf r = 0 ↔ m.isZero r := by
  unfold Fmt.magOf Fmt.isZero
  split
  next h => simp [h, zpow_ne_zero]
  next h =>
    simp only [h, false_and, iff_false]
    positivity

theorem Fmt.realOf_eq_zero (m : Fmt) (r : Nat) : m.realOf r = 0 ↔ m.isZero r := by
  rw [← Fmt.magOf_eq_zero, Fmt.realOf]
  split <;> simp

section
variable (hm : m.Ieee)
include hm

theorem Fmt.value_of_isNan (h : m.isNan r) : m.value r = .nan (m.signOf r) (m.fracOf r) m.f := by
  obtain ⟨he, hf⟩ := h
  unfold Fmt.expOf at he
  unfold Fmt.fracOf at hf
  simp [Fmt.value, hm.signed, hm.inf, he, hf, Fmt.signOf, Fmt.fracOf]

theorem Fmt.value_of_isInf (h : m.isInf r) : m.value r = .inf (m.signOf r) := by
  obtain ⟨he, hf⟩ := h
  unfold Fmt.expOf at he
  unfold Fmt.fracOf at hf
  simp [Fmt.value, hm.signed, hm.inf, he, hf, Fmt.signOf]

theorem Fmt.value_of_finite (h : m.expOf r ≠ 2 ^ m.e - 1) : m.value r = .fin (m.signOf r) (m.magOf r) := by
  rw [Fmt.magOf_eq, Fmt.signOf]
  unfold Fmt.expOf at h ⊢
  simp only [Fmt.value, Fmt.fracOf, hm.signed, hm.inf, Bool.true_and, beq_iff_eq, h, if_false, Bool.not_true, Bool.false_and, Bool.false_eq_true]
  split <;> rfl
end

end Sys2Proof.Machine
end

section
/-! ROUNDING TO A FORMAT (O9): RoundTo of an exact result, its overflow, and the sign of a zero (spec/03_number_formats.md R47-R50). -/

namespace Sys2Proof.Machine

variable {m : Fmt} (hm : m.Ieee) {rm : Rm} {neg : Bool} {x : ℚ}

/-- r is the finite encoding of a sign and a magnitude. -/
def Fmt.Encodes (m : Fmt) (neg : Bool) (v : ℚ) (r : Nat) : Prop :=
  r < 2 ^ m.width ∧ m.expOf r ≠ 2 ^ m.e - 1 ∧ m.signOf r = neg ∧ m.magOf r = v

/-- The exponent of the quantum that a magnitude has in a format, and the number of quanta that the mode chooses (R48). -/
def Fmt.quantum (m : Fmt) (x : ℚ) : ℤ := max (floorLog2 x) m.emin - m.f
def Fmt.quanta (m : Fmt) (rm : Rm) (neg : Bool) (x : ℚ) : Nat := roundInt rm neg (scale2 x (-m.quantum x))

include hm

theorem Fmt.four_le_two_pow : 4 ≤ 2 ^ m.e := by
  calc 4 = 2 ^ 2 := rfl
    _ ≤ 2 ^ m.e := Nat.pow_le_pow_right (by norm_num) hm.e

/-- Fields with an exponent below the last encode the magnitude that the fields give. -/
theorem Fmt.encodes_fields {E F : Nat} (hE : E < 2 ^ m.e - 1) (hF : F < 2 ^ m.f) :
    m.Encodes neg (if E = 0 then (F : ℚ) * 2 ^ (m.emin - m.f) else ((2 ^ m.f + F : Nat) : ℚ) * 2 ^ ((E : ℤ) - m.bias - m.f))
      (m.withSign neg (E * 2 ^ m.f + F)) := by
  have hE' : E < 2 ^ m.e := by omega
  refine ⟨Fmt.withSign_lt hE' hF hm, ?_, Fmt.signOf_withSign hE' hF, ?_⟩
  · rw [Fmt.expOf_withSign hE' hF]
    omega
  · rw [Fmt.magOf_eq, Fmt.expOf_withSign hE' hF, Fmt.fracOf_withSign hF, scale2_eq, scale2_eq]

/-! ## The largest finite magnitude (R44) -/

theorem Fmt.maxCode_fields : m.maxCode = m.withSign false ((2 ^ m.e - 2) * 2 ^ m.f + (2 ^ m.f - 1)) := by
  have h4 := Fmt.four_le_two_pow hm
  have hf : 1 ≤ 2 ^ m.f := Nat.one_le_two_pow
  have : (2 ^ m.e - 1) * 2 ^ m.f = (2 ^ m.e - 2) * 2 ^ m.f + 2 ^ m.f := by
    rw [← Nat.succ_mul]
    congr 1
    omega
  rw [Fmt.maxCode_eq hm, Fmt.withSign_eq, this, Bool.toNat_false, Nat.mul_zero, Nat.zero_add]
  omega

theorem Fmt.value_maxCode : m.value m.maxCode = .fin false m.maxMag := by
  have h4 := Fmt.four_le_two_pow hm
  have hf : 1 ≤ 2 ^ m.f := Nat.one_le_two_pow
  obtain ⟨-, he, hs, hv⟩ := Fmt.encodes_fields hm (neg := false) (E := 2 ^ m.e - 2) (F := 2 ^ m.f - 1) (by omega) (by omega)
  rw [← Fmt.maxCode_fields hm] at he hs hv
  rw [Fmt.value_of_finite hm he, hs, hv, if_neg (by omega), Fmt.maxMag]
  have exponent : ((2 ^ m.e - 2 : Nat) : ℤ) - m.bias - m.f = m.bias - m.f := by
    have := Fmt.bias_add hm
    push_cast [Nat.cast_sub (show 2 ≤ 2 ^ m.e by omega)]
    linarith
  rw [exponent, zpow_sub₀ two_ne_zero, zpow_natCast]
  push_cast [Nat.cast_sub hf]
  congr 1
  field_simp
  ring

omit hm in
theorem Fmt.maxMag_lt : m.maxMag < 2 ^ (m.bias + 1) := by
  have : 0 < 1 / (2 : ℚ) ^ m.f := by positivity
  rw [Fmt.maxMag, zpow_add_one₀ two_ne_zero, mul_comm]
  gcongr
  linarith

/-! ## Encoding a rounded magnitude -/

/-- A normal significand n at quantum 2^q, whose exponent field is neither 0 nor the last (R45). -/
theorem Fmt.encodes_normal {n : Nat} {q : ℤ} (hl : 2 ^ m.f ≤ n) (hu : n < 2 ^ (m.f + 1)) (hq : m.emin ≤ q + m.f) (hb : q + m.f ≤ m.bias) :
    m.Encodes neg (n * 2 ^ q) (m.withSign neg ((q + m.f + m.bias).toNat * 2 ^ m.f + (n - 2 ^ m.f))) := by
  have hbias := Fmt.bias_add hm
  have h4 := Fmt.four_le_two_pow hm
  rw [pow_succ] at hu
  have h1 : 1 ≤ q + m.f + m.bias := by unfold Fmt.emin at hq; omega
  have hE : ((q + m.f + m.bias).toNat : ℤ) = q + m.f + m.bias := Int.toNat_of_nonneg (by omega)
  have hlast : ((2 ^ m.e - 1 : Nat) : ℤ) = 2 ^ m.e - 1 := by push_cast [Nat.cast_sub (show 1 ≤ 2 ^ m.e by omega)]; rfl
  have h := Fmt.encodes_fields hm (neg := neg) (E := (q + m.f + m.bias).toNat) (F := n - 2 ^ m.f) (by omega) (by omega)
  rwa [if_neg (by omega), hE, Nat.add_sub_cancel' hl, add_sub_cancel_right, add_sub_cancel_right] at h

/-- A significand below the normal ones, at the quantum of the least exponent (R45). -/
theorem Fmt.encodes_subnormal {n : Nat} (hu : n < 2 ^ m.f) : m.Encodes neg (n * 2 ^ (m.emin - m.f)) (m.withSign neg n) := by
  have h4 := Fmt.four_le_two_pow hm
  simpa using Fmt.encodes_fields hm (neg := neg) (E := 0) (F := n) (by omega) hu

/-- encodeFin encodes n quanta that stay within the largest magnitude; a significand 2^(f+1) is 2^f at the next quantum (R45). -/
theorem Fmt.encodes_encodeFin {n : Nat} {q : ℤ} (hn : n ≤ 2 ^ (m.f + 1)) (hq : m.emin ≤ q + m.f) (hs : n < 2 ^ m.f → q = m.emin - m.f)
    (hmax : n * 2 ^ q ≤ m.maxMag) : m.Encodes neg (n * 2 ^ q) (m.encodeFin neg n q) := by
  have below : ∀ {k : Nat} {p : ℤ}, 2 ^ m.f ≤ k → (k : ℚ) * 2 ^ p = n * 2 ^ q → p + m.f ≤ m.bias := by
    intro k p hk he
    have : (2 : ℚ) ^ (p + m.f) < 2 ^ (m.bias + 1) := by
      calc (2 : ℚ) ^ (p + m.f) = (2 ^ m.f : Nat) * 2 ^ p := two_zpow_mul ..
        _ ≤ k * 2 ^ p := by gcongr
        _ = n * 2 ^ q := he
        _ ≤ m.maxMag := hmax
        _ < 2 ^ (m.bias + 1) := Fmt.maxMag_lt
    have := (zpow_lt_zpow_iff_right₀ (one_lt_two (α := ℚ))).1 this
    omega
  have hp : 2 ^ (m.f + 1) = 2 ^ m.f * 2 := pow_succ ..
  have hp1 : 1 ≤ 2 ^ m.f := Nat.one_le_two_pow
  unfold Fmt.encodeFin
  rw [Fmt.signBit_add hm]
  by_cases hc : n = 2 ^ (m.f + 1)
  · have hval : ((2 ^ m.f : Nat) : ℚ) * 2 ^ (q + 1) = n * 2 ^ q := by
      rw [hc, hp, zpow_add_one₀ two_ne_zero]
      push_cast
      ring
    have h := Fmt.encodes_normal hm (neg := neg) (n := 2 ^ m.f) (q := q + 1) le_rfl (by omega) (by omega) (below le_rfl hval)
    simpa only [if_pos hc, lt_irrefl, if_false, hval] using h
  · simp only [if_neg hc]
    split
    next h => exact hs h ▸ Fmt.encodes_subnormal hm h
    next h => exact Fmt.encodes_normal hm (by omega) (by omega) hq (below (by omega) rfl)

theorem Fmt.overflow_eq (rm : Rm) (neg : Bool) : m.overflow false rm neg = m.overflows rm neg := by
  simp only [Fmt.overflow, Fmt.overflows, hm.inf, Fmt.signBit_add hm, Fmt.infCode_eq, Fmt.maxCode_eq hm]
  cases rm <;> cases neg <;> simp [Fmt.withSign]

/-! ## RoundTo (R48-R50) -/

section
variable (hx : 0 < x)
omit hm
include hx

theorem Fmt.quanta_chooses (m : Fmt) (rm : Rm) (neg : Bool) : Rm.chooses rm neg x (2 ^ m.quantum x) (m.quanta rm neg x) := by
  have h := Rm.chooses_mul (show (0 : ℚ) < 2 ^ m.quantum x by positivity)
    (roundInt_chooses (show 0 ≤ scale2 x (-m.quantum x) by rw [scale2_eq]; positivity) rm neg)
  rwa [scale2_eq, mul_assoc, ← zpow_add₀ two_ne_zero, neg_add_cancel, zpow_zero, mul_one, ← scale2_eq] at h

theorem Fmt.quanta_le (m : Fmt) (rm : Rm) (neg : Bool) : m.quanta rm neg x ≤ 2 ^ (m.f + 1) := by
  have hu : (0 : ℚ) < 2 ^ m.quantum x := by positivity
  have : (m.quanta rm neg x : ℚ) * 2 ^ m.quantum x < ((2 ^ (m.f + 1) + 1 : Nat) : ℚ) * 2 ^ m.quantum x := by
    calc (m.quanta rm neg x : ℚ) * 2 ^ m.quantum x < x + 2 ^ m.quantum x := (Rm.chooses_near hu (m.quanta_chooses hx rm neg)).2
      _ ≤ 2 ^ (floorLog2 x + 1) + 2 ^ m.quantum x := by gcongr; exact (floorLog2_spec hx).2.le
      _ ≤ 2 ^ (m.quantum x + (m.f + 1 : Nat)) + 2 ^ m.quantum x := by
          have : floorLog2 x + 1 ≤ m.quantum x + (m.f + 1 : Nat) := by unfold Fmt.quantum; omega
          gcongr
          exact one_le_two
      _ = ((2 ^ (m.f + 1) + 1 : Nat) : ℚ) * 2 ^ m.quantum x := by rw [two_zpow_mul]; push_cast; ring
  exact Nat.lt_succ_iff.1 (Nat.cast_lt.1 (lt_of_mul_lt_mul_right this hu.le))

/-- Fewer quanta than a normal number has come from an exponent below the least. -/
theorem Fmt.quantum_of_quanta_lt (m : Fmt) (h : m.quanta rm neg x < 2 ^ m.f) : m.quantum x = m.emin - m.f := by
  by_contra hq
  have he : floorLog2 x = m.quantum x + m.f := by unfold Fmt.quantum at hq ⊢; omega
  have hu : (0 : ℚ) < 2 ^ m.quantum x := by positivity
  have : ((2 ^ m.f : Nat) : ℚ) * 2 ^ m.quantum x < ((m.quanta rm neg x + 1 : Nat) : ℚ) * 2 ^ m.quantum x := by
    calc ((2 ^ m.f : Nat) : ℚ) * 2 ^ m.quantum x = 2 ^ floorLog2 x := by rw [he, two_zpow_mul]
      _ ≤ x := (floorLog2_spec hx).1
      _ < (m.quanta rm neg x : ℚ) * 2 ^ m.quantum x + 2 ^ m.quantum x := by linarith [(Rm.chooses_near hu (m.quanta_chooses hx rm neg)).1]
      _ = ((m.quanta rm neg x + 1 : Nat) : ℚ) * 2 ^ m.quantum x := by push_cast; ring
  have := Nat.cast_lt.1 (lt_of_mul_lt_mul_right this hu.le)
  omega

include hm

theorem Fmt.roundMag_eq : m.roundMag false rm neg x =
    if m.maxMag < m.quanta rm neg x * 2 ^ m.quantum x then m.overflows rm neg else m.encodeFin neg (m.quanta rm neg x) (m.quantum x) := by
  rw [Fmt.roundMag, hm.signed, Fmt.value_maxCode hm, Fmt.overflow_eq hm, if_neg (by simp), if_neg hx.ne']
  simp only [scale2_eq (Nat.cast _)]
  rfl

/-- The rounding of a positive magnitude with its sign is RoundTo of the signed number. -/
theorem Fmt.roundMag_roundsTo : m.roundsTo rm (if neg then -x else x) (m.roundMag false rm neg x) := by
  have hsign : decide ((if neg then -x else x) < 0) = neg := by cases neg <;> simp [hx, hx.le]
  have habs : |if neg then -x else x| = x := by cases neg <;> simp [abs_of_pos hx]
  obtain ⟨hl, hu⟩ := floorLog2_spec hx
  refine ⟨floorLog2 x, m.quanta rm neg x, by rwa [habs], by rwa [habs], ?_⟩
  rw [hsign, habs]
  change _ ∧ if _ * 2 ^ m.quantum x ≤ m.maxMag then m.Encodes neg (_ * 2 ^ m.quantum x) _ else _
  refine ⟨m.quanta_chooses hx rm neg, ?_⟩
  rw [Fmt.roundMag_eq hm hx]
  split
  next hle =>
    rw [if_neg (not_lt.2 hle)]
    have hq : m.emin ≤ m.quantum x + m.f := by unfold Fmt.quantum; omega
    exact Fmt.encodes_encodeFin hm (m.quanta_le hx rm neg) hq (m.quantum_of_quanta_lt hx) hle
  next hgt => rw [if_pos (not_le.1 hgt)]
end

/-- A magnitude with its sign is rounded once, a zero keeps the sign. -/
theorem Fmt.roundMag_givesExact (hx : 0 ≤ x) : m.givesExact rm (if neg then -x else x) neg (m.roundMag false rm neg x) := by
  unfold Fmt.givesExact
  rcases hx.eq_or_lt with rfl | h
  · simp [Fmt.roundMag, hm.signed, Fmt.signBit_eq hm]
  · rw [if_neg (by cases neg <;> simp [h.ne'])]
    exact Fmt.roundMag_roundsTo hm h

/-- An exact result of either sign is rounded once, a zero takes the sign given. -/
theorem Fmt.round_givesExact (zeroNeg : Bool) : m.givesExact rm x zeroNeg (m.round false rm zeroNeg x) := by
  unfold Fmt.givesExact Fmt.round
  split
  next h => simp [Fmt.roundMag, hm.signed, Fmt.signBit_eq hm]
  next h =>
    have hs : (if decide (x < 0) then -|x| else |x|) = x := by
      by_cases hn : x < 0
      · simp [hn, abs_of_neg hn]
      · simp [hn, abs_of_nonneg (not_lt.1 hn)]
    have := Fmt.roundMag_roundsTo hm (rm := rm) (neg := decide (x < 0)) (abs_pos.2 h)
    rwa [hs] at this

end Sys2Proof.Machine
end

section
/-! OPERATIONS ON VALUES AND ON ENCODED OPERANDS (O9): what fadd, fmul, fma, fdivR and convert give for each kind of value
(spec/03_number_formats.md R46, R50-R54, spec/06_isa_floating_point.md R115, R123). -/

namespace Sys2Proof.Machine

/-! ## Operations on values -/

section
variable {m : Fmt} {t : FTy} {rm : Rm} {x y z v : FVal}

theorem firstNan_cons (m : Fmt) (h : v.isNan = false) (l : List FVal) : firstNan m (v :: l) = firstNan m l := by
  cases v with
  | nan => cases h
  | inf => rfl
  | fin => rfl

theorem sumRound_inf (hm : m.Ieee) (n : Bool) (v : FVal) : sumRound m rm [.inf n, v] =
    if v = .inf (!n) then (2 ^ m.e - 1) * 2 ^ m.f + 2 ^ (m.f - 1) else m.withSign n ((2 ^ m.e - 1) * 2 ^ m.f) := by
  cases n <;>
    simp [sumRound, Fmt.nanCode_eq hm, Fmt.infCode_eq, Fmt.signBit_add hm, Fmt.withSign, eq_comm (a := v)]

theorem sumRound_fin_inf (hm : m.Ieee) (n u : Bool) (x : ℚ) :
    sumRound m rm [.fin n x, .inf u] = m.withSign u ((2 ^ m.e - 1) * 2 ^ m.f) := by
  cases u <;> simp [sumRound, Fmt.infCode_eq, Fmt.signBit_add hm, Fmt.withSign]

theorem zeroSign_pair (rm : Rm) (n u : Bool) (x y : ℚ) :
    zeroSign rm [.fin n x, .fin u y] = if x = 0 ∧ y = 0 ∧ n = u then n else decide (rm = .rdn) := by
  cases n <;> cases u <;> simp [zeroSign, Bool.beq_eq_decide_eq]

theorem sumRound_fin_fin (n u : Bool) (x y : ℚ) : sumRound m rm [.fin n x, .fin u y] =
    m.round false rm (if x = 0 ∧ y = 0 ∧ n = u then n else decide (rm = .rdn)) ((FVal.fin n x).real + (FVal.fin u y).real) := by
  simp [sumRound, zeroSign_pair]

section
variable (ht : FTy.fmt t = m)
include ht

/-! The quotient (R123), by the kinds of its operands. -/

theorem fdivR_inf_inf (n u : Bool) : fdivR t rm (.inf n) (.inf u) = m.nanCode := ht ▸ rfl

theorem fdivR_inf_fin (n u : Bool) (y : ℚ) : fdivR t rm (.inf n) (.fin u y) = m.signBit (n.xor u) + m.infCode := ht ▸ rfl

theorem fdivR_fin_inf (n u : Bool) (x : ℚ) : fdivR t rm (.fin n x) (.inf u) = m.signBit (n.xor u) := ht ▸ rfl

theorem fdivR_fin_fin (n u : Bool) (x y : ℚ) : fdivR t rm (.fin n x) (.fin u y) =
    if y = 0 then (if x = 0 then m.nanCode else m.signBit (n.xor u) + m.infCode) else m.roundMag false rm (n.xor u) (x / y) := ht ▸ rfl

/-! Sums and products of numbers (R115). -/

variable (hx : x.isNan = false) (hy : y.isNan = false)
include hx hy

theorem fadd_eq : fadd t rm x y = sumRound m rm [x, y] := by
  rw [fadd, firstNan_cons _ hx, firstNan_cons _ hy, ht]
  rfl

theorem fmul_of_none (h : FVal.mul x y = none) : fmul t rm x y = m.nanCode := by
  rw [fmul, firstNan_cons _ hx, firstNan_cons _ hy, h, ht]
  rfl

theorem fmul_of_some (h : FVal.mul x y = some v) : fmul t rm x y = m.convert false rm v := by
  rw [fmul, firstNan_cons _ hx, firstNan_cons _ hy, h, ht]
  rfl

theorem fma_of_none (hz : z.isNan = false) (h : FVal.mul x y = none) : fma t rm x y z = m.nanCode := by
  rw [fma, firstNan_cons _ hx, firstNan_cons _ hy, firstNan_cons _ hz, h, ht]
  rfl

theorem fma_of_some (hz : z.isNan = false) (h : FVal.mul x y = some v) : fma t rm x y z = sumRound m rm [v, z] := by
  rw [fma, firstNan_cons _ hx, firstNan_cons _ hy, firstNan_cons _ hz, h, ht]
  rfl
end
end

/-! ## Encoded operands -/

section
variable {m : Fmt} (hm : m.Ieee) {r s : Nat}

theorem Fmt.exp_ne_last (hn : ¬m.isNan r) (hi : ¬m.isInf r) : m.expOf r ≠ 2 ^ m.e - 1 :=
  fun h => hn ⟨h, fun hf => hi ⟨h, hf⟩⟩

/-- The product or quotient of two signed magnitudes. -/
theorem Fmt.realOf_mul (m : Fmt) (r s : Nat) : m.realOf r * m.realOf s =
    if (m.signOf r).xor (m.signOf s) then -(m.magOf r * m.magOf s) else m.magOf r * m.magOf s := by
  unfold Fmt.realOf
  cases m.signOf r <;> cases m.signOf s <;> simp

theorem Fmt.realOf_div (m : Fmt) (r s : Nat) : m.realOf r / m.realOf s =
    if (m.signOf r).xor (m.signOf s) then -(m.magOf r / m.magOf s) else m.magOf r / m.magOf s := by
  unfold Fmt.realOf
  cases m.signOf r <;> cases m.signOf s <;> simp [neg_div, div_neg]

theorem Fmt.abs_realOf (m : Fmt) (r : Nat) : |m.realOf r| = m.magOf r := by
  unfold Fmt.realOf
  split <;> simp [abs_of_nonneg (m.magOf_nonneg r)]

include hm

theorem Fmt.exp_ne_last_of_isZero (h : m.isZero r) : m.expOf r ≠ 2 ^ m.e - 1 := by
  have := Fmt.four_le_two_pow hm
  have := h.1
  omega

theorem Fmt.isNan_value (h : ¬m.isNan r) : (m.value r).isNan = false := by
  by_cases hi : m.isInf r
  · rw [Fmt.value_of_isInf hm hi]
    rfl
  · rw [Fmt.value_of_finite hm (Fmt.exp_ne_last h hi)]
    rfl

/-- The NaN that a format's own NaN is quieted to (R53). -/
theorem Fmt.nan_quiets (h : m.isNan r) (hr : r < 2 ^ m.width) : m.nan (m.signOf r) (m.fracOf r) m.f = r ||| 2 ^ (m.f - 1) := by
  have split : r = 2 ^ m.f * ((m.signOf r).toNat * 2 ^ m.e + m.expOf r) + m.fracOf r := by
    conv_lhs => rw [← Fmt.withSign_signOf hm hr, Fmt.withSign_fields, Nat.mul_comm]
  have hbit : 2 ^ (m.f - 1) < 2 ^ m.f := Nat.pow_lt_pow_right one_lt_two (by have := hm.f; omega)
  conv_rhs => rw [split, Nat.two_pow_add_eq_or_of_lt (m.fracOf_lt r), Nat.or_assoc,
    ← Nat.two_pow_add_eq_or_of_lt (Nat.or_lt_two_pow (m.fracOf_lt r) hbit), h.1, Nat.mul_comm, ← Fmt.withSign_fields]
  rw [Fmt.nan, if_pos hm.inf, if_pos le_rfl, Nat.sub_self, pow_zero, Nat.mul_one, Nat.add_assoc, Fmt.signBit_add hm, Fmt.infCode_eq]

theorem Fmt.value_eq_inf_iff (hr : r < 2 ^ m.width) (n : Bool) : m.value r = .inf n ↔ r = m.withSign n ((2 ^ m.e - 1) * 2 ^ m.f) := by
  have h4 := Fmt.four_le_two_pow hm
  have hE : 2 ^ m.e - 1 < 2 ^ m.e := by omega
  have hF : 0 < 2 ^ m.f := by positivity
  constructor
  · intro h
    by_cases hn : m.isNan r
    · rw [Fmt.value_of_isNan hm hn] at h
      cases h
    by_cases hi : m.isInf r
    · rw [Fmt.value_of_isInf hm hi] at h
      obtain ⟨he, hf⟩ := hi
      cases h
      conv_lhs => rw [← Fmt.withSign_signOf hm hr, he, hf, Nat.add_zero]
    · rw [Fmt.value_of_finite hm (Fmt.exp_ne_last hn hi)] at h
      cases h
  · rintro rfl
    have hi : m.isInf (m.withSign n ((2 ^ m.e - 1) * 2 ^ m.f + 0)) := ⟨Fmt.expOf_withSign hE hF, Fmt.fracOf_withSign hF⟩
    have h := Fmt.value_of_isInf hm hi
    rwa [Fmt.signOf_withSign hE hF] at h

theorem Fmt.withSign_of_isInf (h : m.isInf r) (hr : r < 2 ^ m.width) : m.withSign (m.signOf r) ((2 ^ m.e - 1) * 2 ^ m.f) = r :=
  ((Fmt.value_eq_inf_iff hm hr _).1 (Fmt.value_of_isInf hm h)).symm

/-! ### Products (R50, R52) -/

theorem Fmt.mul_invalid (h : (m.isInf r ∧ m.isZero s) ∨ (m.isZero r ∧ m.isInf s)) : FVal.mul (m.value r) (m.value s) = none := by
  rcases h with ⟨hi, hz⟩ | ⟨hz, hi⟩
  all_goals
    rw [Fmt.value_of_isInf hm hi, Fmt.value_of_finite hm (Fmt.exp_ne_last_of_isZero hm hz)]
    exact if_pos ((m.magOf_eq_zero _).2 hz)

theorem Fmt.mul_infinite (hr : ¬m.isNan r) (hs : ¬m.isNan s) (h : (m.isInf r ∧ ¬m.isZero s) ∨ (¬m.isZero r ∧ m.isInf s)) :
    FVal.mul (m.value r) (m.value s) = some (.inf ((m.signOf r).xor (m.signOf s))) := by
  by_cases hir : m.isInf r <;> by_cases his : m.isInf s
  · rw [Fmt.value_of_isInf hm hir, Fmt.value_of_isInf hm his]
    rfl
  · have hz : ¬m.isZero s := h.elim (·.2) fun h => absurd h.2 his
    rw [Fmt.value_of_isInf hm hir, Fmt.value_of_finite hm (Fmt.exp_ne_last hs his)]
    exact if_neg (mt (m.magOf_eq_zero _).1 hz)
  · have hz : ¬m.isZero r := h.elim (fun h => absurd h.1 hir) (·.1)
    rw [Fmt.value_of_finite hm (Fmt.exp_ne_last hr hir), Fmt.value_of_isInf hm his]
    exact if_neg (mt (m.magOf_eq_zero _).1 hz)
  · exact absurd h (by tauto)

theorem Fmt.mul_finite (hr : m.expOf r ≠ 2 ^ m.e - 1) (hs : m.expOf s ≠ 2 ^ m.e - 1) :
    FVal.mul (m.value r) (m.value s) = some (.fin ((m.signOf r).xor (m.signOf s)) (m.magOf r * m.magOf s)) := by
  rw [Fmt.value_of_finite hm hr, Fmt.value_of_finite hm hs]
  rfl

/-! ### Conversions (R54) -/

omit hm
variable {n : Fmt} (hn : n.Ieee) {rm : Rm}
include hn

theorem Fmt.convert_nan (neg : Bool) (frac width : Nat) : n.convert false rm (.nan neg frac width) =
    n.withSign neg ((2 ^ n.e - 1) * 2 ^ n.f + ((if width ≤ n.f then frac * 2 ^ (n.f - width) else frac / 2 ^ (width - n.f)) ||| 2 ^ (n.f - 1))) := by
  simp only [Fmt.convert, Fmt.nan, hn.inf, if_true, Fmt.signBit_add hn, Fmt.infCode_eq, Fmt.withSign_eq, Nat.add_assoc]

theorem Fmt.convert_inf (neg : Bool) : n.convert false rm (.inf neg) = n.withSign neg ((2 ^ n.e - 1) * 2 ^ n.f) := by
  simp [Fmt.convert, Fmt.convert.neg', hn.inf, hn.signed, Fmt.signBit_add hn, Fmt.infCode_eq]

end

end Sys2Proof.Machine
end

section
/-! THE STATEMENT ON FLOATING ROUNDING (O9): sums, products, quotients and conversions of encoded operands, each a NaN, an infinity or a
number (spec/03_number_formats.md R50-R55, spec/06_isa_floating_point.md R115, R117, R123, R129). -/

namespace Sys2Proof.Machine

theorem eq_not_iff_xor (n u : Bool) : (u = !n) ↔ n.xor u = true := by cases n <;> cases u <;> decide

section
variable {t : FTy} {m : Fmt} {rm : Rm} {r s q : Nat} (ht : FTy.fmt t = m) (hm : m.Ieee)
include ht hm

/-! ## NaN operands (R53) -/

theorem first_nan_quiets (hr : r < 2 ^ m.width) (h : m.isNan r) (y z : FVal) :
    let x := m.value r
    let quiet := r ||| 2 ^ (m.f - 1)
    fadd t rm x y = quiet ∧ fmul t rm x y = quiet ∧ fma t rm x y z = quiet ∧ fdivR t rm x y = quiet := by
  rw [← Fmt.nan_quiets hm h hr, Fmt.value_of_isNan hm h]
  subst ht
  exact ⟨rfl, rfl, rfl, rfl⟩

theorem second_nan_quiets {x : FVal} (hx : x.isNan = false) (hs : s < 2 ^ m.width) (h : m.isNan s) (z : FVal) :
    let y := m.value s
    let quiet := s ||| 2 ^ (m.f - 1)
    fadd t rm x y = quiet ∧ fmul t rm x y = quiet ∧ fma t rm x y z = quiet ∧ fdivR t rm x y = quiet := by
  rw [← Fmt.nan_quiets hm h hs, Fmt.value_of_isNan hm h]
  simp only [fadd, fmul, fma, fdivR, firstNan_cons _ hx]
  subst ht
  exact ⟨rfl, rfl, rfl, rfl⟩

theorem third_nan_quiets {x y : FVal} (hx : x.isNan = false) (hy : y.isNan = false) (hq : q < 2 ^ m.width) (h : m.isNan q) :
    fma t rm x y (m.value q) = q ||| 2 ^ (m.f - 1) := by
  rw [← Fmt.nan_quiets hm h hq, Fmt.value_of_isNan hm h, fma, firstNan_cons _ hx, firstNan_cons _ hy, ht]
  rfl

section
variable (hr : ¬m.isNan r) (hs : ¬m.isNan s)
include hr hs

/-! ## Sums (R50, R52, R115) -/

/-- An infinity and the opposite one are an invalid sum; with anything else the infinity stays. -/
theorem fadd_of_isInf (hi : m.isInf r) : fadd t rm (m.value r) (m.value s) =
    if m.value s = .inf (!m.signOf r) then (2 ^ m.e - 1) * 2 ^ m.f + 2 ^ (m.f - 1) else m.withSign (m.signOf r) ((2 ^ m.e - 1) * 2 ^ m.f) := by
  rw [fadd_eq ht (Fmt.isNan_value hm hr) (Fmt.isNan_value hm hs), Fmt.value_of_isInf hm hi, sumRound_inf hm]

theorem fadd_infinities (hi : m.isInf r) (hj : m.isInf s) (h : (m.signOf r).xor (m.signOf s) = true) :
    fadd t rm (m.value r) (m.value s) = (2 ^ m.e - 1) * 2 ^ m.f + 2 ^ (m.f - 1) := by
  rw [fadd_of_isInf ht hm hr hs hi, Fmt.value_of_isInf hm hj, if_pos (congrArg _ ((eq_not_iff_xor _ _).2 h))]

theorem fadd_infinite_left (hw : r < 2 ^ m.width) (hi : m.isInf r) (h : m.isInf s → (m.signOf r).xor (m.signOf s) = false) :
    fadd t rm (m.value r) (m.value s) = r := by
  rw [fadd_of_isInf ht hm hr hs hi, Fmt.withSign_of_isInf hm hi hw, if_neg]
  by_cases hj : m.isInf s
  · rw [Fmt.value_of_isInf hm hj, FVal.inf.injEq, eq_not_iff_xor, h hj]
    exact Bool.false_ne_true
  · rw [Fmt.value_of_finite hm (Fmt.exp_ne_last hs hj)]
    exact nofun

theorem fadd_infinite_right (hw : s < 2 ^ m.width) (hi : ¬m.isInf r) (hj : m.isInf s) :
    fadd t rm (m.value r) (m.value s) = s := by
  rw [fadd_eq ht (Fmt.isNan_value hm hr) (Fmt.isNan_value hm hs), Fmt.value_of_finite hm (Fmt.exp_ne_last hr hi),
    Fmt.value_of_isInf hm hj, sumRound_fin_inf hm, Fmt.withSign_of_isInf hm hj hw]

theorem fadd_finite (hi : ¬m.isInf r) (hj : ¬m.isInf s) :
    m.givesExact rm (m.realOf r + m.realOf s)
      (if r % 2 ^ (m.e + m.f) = 0 ∧ s % 2 ^ (m.e + m.f) = 0 ∧ m.signOf r = m.signOf s
        then m.signOf r else decide (rm = .rdn))
      (fadd t rm (m.value r) (m.value s)) := by
  rw [fadd_eq ht (Fmt.isNan_value hm hr) (Fmt.isNan_value hm hs), Fmt.value_of_finite hm (Fmt.exp_ne_last hr hi),
    Fmt.value_of_finite hm (Fmt.exp_ne_last hs hj), sumRound_fin_fin]
  simp only [Fmt.magOf_eq_zero, Fmt.isZero_iff]
  exact Fmt.round_givesExact hm _

/-! ## Products and fused products (R50, R52, R115) -/

theorem product_invalid (h : (m.isInf r ∧ m.isZero s) ∨ (m.isZero r ∧ m.isInf s)) :
    let x := m.value r
    let y := m.value s
    let defaultNan := (2 ^ m.e - 1) * 2 ^ m.f + 2 ^ (m.f - 1)
    fmul t rm x y = defaultNan ∧ (¬m.isNan q → fma t rm x y (m.value q) = defaultNan) := by
  have hx := Fmt.isNan_value hm hr
  have hy := Fmt.isNan_value hm hs
  have hn := Fmt.mul_invalid hm h
  rw [← Fmt.nanCode_eq hm]
  exact ⟨fmul_of_none ht hx hy hn, fun hq => fma_of_none ht hx hy (Fmt.isNan_value hm hq) hn⟩

theorem product_infinite (hq : q < 2 ^ m.width)
    (h : (m.isInf r ∧ ¬m.isZero s) ∨ (¬m.isZero r ∧ m.isInf s)) :
    let apart := (m.signOf r).xor (m.signOf s)
    let infinity := (2 ^ m.e - 1) * 2 ^ m.f
    fmul t rm (m.value r) (m.value s) = m.withSign apart infinity ∧
      (¬m.isNan q → fma t rm (m.value r) (m.value s) (m.value q) =
        if q = m.withSign (!apart) infinity then infinity + 2 ^ (m.f - 1) else m.withSign apart infinity) := by
  intro apart infinity
  have hx := Fmt.isNan_value hm hr
  have hy := Fmt.isNan_value hm hs
  have hv := Fmt.mul_infinite hm hr hs h
  refine ⟨?_, fun hn => ?_⟩
  · rw [fmul_of_some ht hx hy hv, Fmt.convert_inf hm]
  · rw [fma_of_some ht hx hy (Fmt.isNan_value hm hn) hv, sumRound_inf hm]
    simp only [Fmt.value_eq_inf_iff hm hq]
    rfl

section
variable (hi : ¬m.isInf r) (hj : ¬m.isInf s)
include hi hj

theorem fmul_finite :
    m.givesExact rm (m.realOf r * m.realOf s) ((m.signOf r).xor (m.signOf s))
      (fmul t rm (m.value r) (m.value s)) := by
  rw [fmul_of_some ht (Fmt.isNan_value hm hr) (Fmt.isNan_value hm hs)
    (Fmt.mul_finite hm (Fmt.exp_ne_last hr hi) (Fmt.exp_ne_last hs hj)), Fmt.realOf_mul]
  exact Fmt.roundMag_givesExact hm (mul_nonneg (Fmt.magOf_nonneg _ _) (Fmt.magOf_nonneg _ _))

theorem fma_infinite_addend (hq : q < 2 ^ m.width) (h : m.isInf q) :
    fma t rm (m.value r) (m.value s) (m.value q) = q := by
  have hn : (m.value q).isNan = false := by rw [Fmt.value_of_isInf hm h]; rfl
  rw [fma_of_some ht (Fmt.isNan_value hm hr) (Fmt.isNan_value hm hs) hn
    (Fmt.mul_finite hm (Fmt.exp_ne_last hr hi) (Fmt.exp_ne_last hs hj)), Fmt.value_of_isInf hm h, sumRound_fin_inf hm,
    Fmt.withSign_of_isInf hm h hq]

theorem fma_finite (hq : ¬m.isNan q) (hk : ¬m.isInf q) :
    let apart := (m.signOf r).xor (m.signOf s)
    m.givesExact rm (m.realOf r * m.realOf s + m.realOf q)
      (if m.realOf r * m.realOf s = 0 ∧ q % 2 ^ (m.e + m.f) = 0 ∧ apart = m.signOf q then apart else decide (rm = .rdn))
      (fma t rm (m.value r) (m.value s) (m.value q)) := by
  rw [fma_of_some ht (Fmt.isNan_value hm hr) (Fmt.isNan_value hm hs) (Fmt.isNan_value hm hq)
    (Fmt.mul_finite hm (Fmt.exp_ne_last hr hi) (Fmt.exp_ne_last hs hj)), Fmt.value_of_finite hm (Fmt.exp_ne_last hq hk),
    sumRound_fin_fin]
  have hz : m.magOf r * m.magOf s = 0 ↔ m.realOf r * m.realOf s = 0 := by
    rw [mul_eq_zero, mul_eq_zero, Fmt.magOf_eq_zero, Fmt.magOf_eq_zero, Fmt.realOf_eq_zero, Fmt.realOf_eq_zero]
  have hv : (FVal.fin ((m.signOf r).xor (m.signOf s)) (m.magOf r * m.magOf s)).real = m.realOf r * m.realOf s := (Fmt.realOf_mul m r s).symm
  simp only [hz, hv, Fmt.magOf_eq_zero, Fmt.isZero_iff]
  exact Fmt.round_givesExact hm _
end

/-! ## Quotients (R50, R52, R123) -/

omit hr hs in
theorem fdivR_invalid (h : (m.isInf r ∧ m.isInf s) ∨ (m.isZero r ∧ m.isZero s)) :
    fdivR t rm (m.value r) (m.value s) = (2 ^ m.e - 1) * 2 ^ m.f + 2 ^ (m.f - 1) := by
  rw [← Fmt.nanCode_eq hm]
  rcases h with ⟨hi, hj⟩ | ⟨hy, hz⟩
  · rw [Fmt.value_of_isInf hm hi, Fmt.value_of_isInf hm hj, fdivR_inf_inf ht]
  · rw [Fmt.value_of_finite hm (Fmt.exp_ne_last_of_isZero hm hy), Fmt.value_of_finite hm (Fmt.exp_ne_last_of_isZero hm hz), fdivR_fin_fin ht,
      if_pos ((m.magOf_eq_zero s).2 hz), if_pos ((m.magOf_eq_zero r).2 hy)]

theorem fdivR_infinite (h : (m.isInf r ∧ ¬m.isInf s) ∨ (¬m.isZero r ∧ ¬m.isInf r ∧ m.isZero s)) :
    fdivR t rm (m.value r) (m.value s) = m.withSign ((m.signOf r).xor (m.signOf s)) ((2 ^ m.e - 1) * 2 ^ m.f) := by
  rw [← Fmt.infCode_eq, ← Fmt.signBit_add hm]
  rcases h with ⟨hi, hj⟩ | ⟨hy, hi, hz⟩
  · rw [Fmt.value_of_isInf hm hi, Fmt.value_of_finite hm (Fmt.exp_ne_last hs hj), fdivR_inf_fin ht]
  · rw [Fmt.value_of_finite hm (Fmt.exp_ne_last hr hi), Fmt.value_of_finite hm (Fmt.exp_ne_last_of_isZero hm hz), fdivR_fin_fin ht,
      if_pos ((m.magOf_eq_zero s).2 hz), if_neg (mt (m.magOf_eq_zero r).1 hy)]

omit hs in
theorem fdivR_infinite_divisor (hi : ¬m.isInf r) (hj : m.isInf s) :
    fdivR t rm (m.value r) (m.value s) = m.withSign ((m.signOf r).xor (m.signOf s)) 0 := by
  rw [Fmt.value_of_finite hm (Fmt.exp_ne_last hr hi), Fmt.value_of_isInf hm hj, fdivR_fin_inf ht, Fmt.signBit_eq hm]

theorem fdivR_finite (hi : ¬m.isInf r) (hj : ¬m.isInf s) (hz : ¬m.isZero s) :
    m.givesExact rm (m.realOf r / m.realOf s) ((m.signOf r).xor (m.signOf s)) (fdivR t rm (m.value r) (m.value s)) := by
  rw [Fmt.value_of_finite hm (Fmt.exp_ne_last hr hi), Fmt.value_of_finite hm (Fmt.exp_ne_last hs hj), fdivR_fin_fin ht,
    if_neg (mt (m.magOf_eq_zero s).1 hz), Fmt.realOf_div]
  exact Fmt.roundMag_givesExact hm (div_nonneg (Fmt.magOf_nonneg _ _) (Fmt.magOf_nonneg _ _))
end
end

/-! ## Differences and conversions (R54, R55, R115, R117, R129) -/

section
variable {m : Fmt} {rm : Rm} {r : Nat}

/-- The encoding with its sign inverted. -/
theorem Fmt.fields_xor (m : Fmt) (r : Nat) : m.signOf (r ^^^ 2 ^ (m.e + m.f)) = !m.signOf r ∧ m.expOf (r ^^^ 2 ^ (m.e + m.f)) = m.expOf r ∧
    m.fracOf (r ^^^ 2 ^ (m.e + m.f)) = m.fracOf r := by
  refine ⟨by simp [Fmt.signOf, Nat.testBit_xor, Nat.testBit_two_pow_self], Nat.eq_of_testBit_eq fun i => ?_, Nat.eq_of_testBit_eq fun i => ?_⟩
  · simp only [Fmt.expOf, Nat.testBit_mod_two_pow, Nat.testBit_div_two_pow, Nat.testBit_xor, Nat.testBit_two_pow]
    by_cases hi : i < m.e
    · have : m.e ≠ i := by omega
      simp [this]
    · simp [hi]
  · simp only [Fmt.fracOf, Nat.testBit_mod_two_pow, Nat.testBit_xor, Nat.testBit_two_pow]
    by_cases hi : i < m.f
    · have : m.e + m.f ≠ i := by omega
      simp [this]
    · simp [hi]

theorem Fmt.value_neg (hm : m.Ieee) (r : Nat) : (m.value r).neg = m.value (r ^^^ 2 ^ (m.e + m.f)) := by
  obtain ⟨hs, he, hf⟩ := m.fields_xor r
  by_cases hn : m.isNan r
  · have hn' : m.isNan (r ^^^ 2 ^ (m.e + m.f)) := ⟨he ▸ hn.1, hf ▸ hn.2⟩
    rw [Fmt.value_of_isNan hm hn, Fmt.value_of_isNan hm hn', hs, hf]
    rfl
  by_cases hi : m.isInf r
  · have hi' : m.isInf (r ^^^ 2 ^ (m.e + m.f)) := ⟨he ▸ hi.1, hf ▸ hi.2⟩
    rw [Fmt.value_of_isInf hm hi, Fmt.value_of_isInf hm hi', hs]
    rfl
  · have h := Fmt.exp_ne_last hn hi
    have hv : m.magOf (r ^^^ 2 ^ (m.e + m.f)) = m.magOf r := by rw [Fmt.magOf, Fmt.magOf, he, hf]
    rw [Fmt.value_of_finite hm h, Fmt.value_of_finite hm (he ▸ h), hs, hv]
    rfl

/-- FSUB's inversion of its second operand's sign, on the register's bits (R117). -/
theorem FTy.val_neg (t : FTy) (w : Word) : (FTy.val t w).neg = FTy.val t (w ^^^ BitVec.ofNat 64 (2 ^ ((FTy.fmt t).e + (FTy.fmt t).f))) := by
  have hw : (FTy.fmt t).e + (FTy.fmt t).f < (FTy.fmt t).width ∧ (FTy.fmt t).width ≤ 64 := by cases t <;> decide
  obtain ⟨hlt, hle⟩ := hw
  have hmod : ∀ n, (FTy.fmt t).e + (FTy.fmt t).f < n → 2 ^ ((FTy.fmt t).e + (FTy.fmt t).f) % 2 ^ n = 2 ^ ((FTy.fmt t).e + (FTy.fmt t).f) :=
    fun n h => Nat.mod_eq_of_lt (Nat.pow_lt_pow_right one_lt_two h)
  rw [FTy.val, FTy.val, BitVec.toNat_xor, BitVec.toNat_ofNat, hmod 64 (by omega), Nat.xor_mod_two_pow, hmod _ hlt]
  exact Fmt.value_neg (FTy.ieee t) _

/-- A conversion to another format: a NaN, an infinity, or one rounding (R54). -/
theorem convert_kinds {n : Fmt} (hm : m.Ieee) (hn : n.Ieee) :
    let c := n.convert false rm (m.value r)
    let frac := if m.f ≤ n.f then m.fracOf r * 2 ^ (n.f - m.f) else m.fracOf r / 2 ^ (m.f - n.f)
    (m.isNan r → c = n.withSign (m.signOf r) ((2 ^ n.e - 1) * 2 ^ n.f + (frac ||| 2 ^ (n.f - 1)))) ∧
    (m.isInf r → c = n.withSign (m.signOf r) ((2 ^ n.e - 1) * 2 ^ n.f)) ∧
    (¬m.isNan r → ¬m.isInf r → n.givesExact rm (m.realOf r) (m.signOf r) c) := by
  refine ⟨fun h => ?_, fun h => ?_, fun h hi => ?_⟩
  · rw [Fmt.value_of_isNan hm h, Fmt.convert_nan hn]
  · rw [Fmt.value_of_isInf hm h, Fmt.convert_inf hn]
  · rw [Fmt.value_of_finite hm (Fmt.exp_ne_last h hi)]
    exact Fmt.roundMag_givesExact hn (m.magOf_nonneg r)

/-- A conversion to an integer: 0, a bound, or one rounding that then saturates (R55). -/
theorem f2i_kinds (hm : m.Ieee) (w : Nat) (sg : Bool) :
    let hi : Int := if sg then 2 ^ (w - 1) - 1 else 2 ^ w - 1
    let lo : Int := if sg then -2 ^ (w - 1) else 0
    let i := f2i w sg rm (m.value r)
    (m.isNan r → i = 0) ∧ (m.isInf r → i = BitVec.ofInt 64 (if m.signOf r then lo else hi)) ∧
    (¬m.isNan r → ¬m.isInf r → ∃ n : Nat, Rm.chooses rm (m.signOf r) |m.realOf r| 1 n ∧
      i = BitVec.ofInt 64 (max lo (min hi (if m.signOf r then -(n : Int) else n)))) := by
  refine ⟨fun h => ?_, fun h => ?_, fun h hi => ⟨roundInt rm (m.signOf r) (m.magOf r), ?_, ?_⟩⟩
  · rw [Fmt.value_of_isNan hm h]
    rfl
  · rw [Fmt.value_of_isInf hm h]
    rfl
  · rw [Fmt.abs_realOf]
    exact roundInt_chooses (m.magOf_nonneg r) rm _
  · rw [Fmt.value_of_finite hm (Fmt.exp_ne_last h hi)]
    rfl
end

/-! ## The statement -/

/-- Settles O9: by the kinds of the operands, each a NaN, an infinity or a number. -/
theorem floatRounding : Obligations.FloatRounding := by
  intro t rm a b c m raw val nan inf zero neg real quiet infinity defaultNan apart sum product fused quotient
  have hm : m.Ieee := FTy.ieee t
  have lt : ∀ w, raw w < 2 ^ m.width := fun w => Nat.mod_lt _ (by positivity)
  have number : ∀ {w}, ¬nan w → (val w).isNan = false := fun h => Fmt.isNan_value hm h
  refine ⟨fun h => first_nan_quiets rfl hm (lt a) h _ _, fun ha h => second_nan_quiets rfl hm (number ha) (lt b) h _,
    fun ha hb h => third_nan_quiets rfl hm (number ha) (number hb) (lt c) h, fun ha hb => ?_, FTy.val_neg t b,
    fun u => convert_kinds hm (FTy.ieee u), fun w sg _ _ => f2i_kinds hm w sg, fun v => Fmt.round_givesExact hm false⟩
  exact ⟨fadd_infinities rfl hm ha hb, fadd_infinite_left rfl hm ha hb (lt a), fadd_infinite_right rfl hm ha hb (lt b),
    fadd_finite rfl hm ha hb, product_invalid rfl hm ha hb, product_infinite rfl hm ha hb (lt c),
    fun hi hj => ⟨fmul_finite rfl hm ha hb hi hj, fma_infinite_addend rfl hm ha hb hi hj (lt c), fma_finite rfl hm ha hb hi hj⟩,
    fdivR_invalid rfl hm, fdivR_infinite rfl hm ha hb, fdivR_infinite_divisor rfl hm ha, fdivR_finite rfl hm ha hb⟩

end Sys2Proof.Machine
end

section
/-! DECODE AND ENCODE (O58, O59): an encoding is a concatenation of fields, so a word is an instruction's when each field of it is; a decoder's
arm reads the same fields, and its mask covers the reserved ones (spec/04_encoding_and_assembly.md R64-R73). -/

namespace Sys2Proof.Machine

/-! ## Fields of a word -/

/-- The bits of p from lo on are those of x. -/
def FieldAt {n k : Nat} (p : BitVec n) (lo : Nat) (x : BitVec k) : Prop := p.extractLsb' lo k = x

/-- Every bit of p that the mask m names is zero. -/
def Clears {n : Nat} (p m : BitVec n) : Prop := p &&& m = 0

/-- A word is its one field of full width. -/
theorem fieldAt_zero_iff {n : Nat} {p q : BitVec n} : FieldAt p 0 q ↔ p = q := by simp [FieldAt]

section
variable {a b : Nat} {x : BitVec a} {y : BitVec b}

theorem append_eq_append_iff {u : BitVec a} {v : BitVec b} : u ++ v = x ++ y ↔ u = x ∧ v = y := by
  refine ⟨fun h => ⟨?_, ?_⟩, fun ⟨hx, hy⟩ => by rw [hx, hy]⟩
  · simpa only [BitVec.extractLsb'_append_eq_left] using congrArg (·.extractLsb' b a) h
  · simpa only [BitVec.extractLsb'_append_eq_right] using congrArg (·.extractLsb' 0 b) h

/-- A field of two parts is two fields. The width of the whole is not indexed, so that a literal one matches. -/
theorem fieldAt_append_iff {n lo : Nat} {p : BitVec n} :
    FieldAt p lo (@HAppend.hAppend (BitVec a) (BitVec b) (no_index (BitVec (a + b))) _ x y) ↔ FieldAt p (lo + b) x ∧ FieldAt p lo y := by
  unfold FieldAt
  rw [← BitVec.extractLsb'_append_extractLsb'_eq_extractLsb' rfl]
  exact append_eq_append_iff

theorem clears_append_iff {m : BitVec (a + b)} :
    Clears (@HAppend.hAppend (BitVec a) (BitVec b) (no_index (BitVec (a + b))) _ x y) m ↔
      Clears x (m.extractLsb' b a) ∧ Clears y (m.extractLsb' 0 b) := by
  have hm : m = m.extractLsb' b a ++ m.extractLsb' 0 b := BitVec.extractLsb'_append_extractLsb'.symm
  have hz : (0 : BitVec (a + b)) = 0#a ++ 0#b := by simp
  unfold Clears
  conv_lhs => rw [hm, BitVec.and_append, hz]
  exact append_eq_append_iff
end

theorem clears_zero {n : Nat} (x : BitVec n) : Clears x 0#n := by simp [Clears]

theorem zero_clears {n : Nat} (m : BitVec n) : Clears 0#n m := by simp [Clears]

/-- A word is clear under a mask when every field of it that the mask covers is zero. -/
theorem clears_iff {n : Nat} {p m : BitVec n} : Clears p m ↔ ∀ lo k, m.extractLsb' lo k = BitVec.allOnes k → p.extractLsb' lo k = 0#k := by
  constructor
  · intro h lo k hm
    rw [← BitVec.and_allOnes (x := p.extractLsb' lo k), ← hm, ← BitVec.extractLsb'_and, h]
    simp
  · intro h
    refine BitVec.eq_of_getLsbD_eq fun j _ => ?_
    rw [BitVec.getLsbD_and]
    cases hm : m.getLsbD j with
    | false => simp
    | true =>
      have h1 : m.extractLsb' j 1 = BitVec.allOnes 1 := by
        refine BitVec.eq_of_getLsbD_eq fun l hl => ?_
        obtain rfl : l = 0 := by omega
        simpa using hm
      simpa using congrArg (·.getLsbD 0) (h j 1 h1)

/-! ## Codes -/

/-- A code that stands for x is x's, where every value's code stands for it and a code stands for no other code's value. -/
theorem ofCode_eq_some_iff {α : Type} {n : Nat} {ofCode : BitVec n → Option α} {toCode : α → BitVec n} (to_of : ∀ x, ofCode (toCode x) = some x)
    (of_to : ∀ b, (ofCode b).all (fun x => toCode x == b)) {b : BitVec n} {x : α} : ofCode b = some x ↔ b = toCode x := by
  constructor
  · intro h
    have := of_to b
    rw [h] at this
    exact (eq_of_beq this).symm
  · rintro rfl
    exact to_of x

theorem Width.ofCode_iff {b : BitVec 2} {x : Width} : Width.ofCode b = some x ↔ b = x.toCode := ofCode_eq_some_iff Width.ofCode_toCode (by decide)
theorem Rm.ofCode_iff {b : BitVec 3} {x : Rm} : Rm.ofCode b = some x ↔ b = x.toCode := ofCode_eq_some_iff Rm.ofCode_toCode (by decide)
theorem FTy.ofCode_iff {b : BitVec 1} {x : FTy} : FTy.ofCode b = some x ↔ b = x.toCode := ofCode_eq_some_iff FTy.ofCode_toCode (by decide)
theorem TyCode.ofCode_iff {b : BitVec 4} {x : TyCode} : TyCode.ofCode b = some x ↔ b = x.toCode := ofCode_eq_some_iff TyCode.ofCode_toCode (by decide)
theorem Scope.ofCode_iff {b : BitVec 3} {x : Scope} : Scope.ofCode b = some x ↔ b = x.toCode := ofCode_eq_some_iff Scope.ofCode_toCode (by decide)
theorem Hint.ofCode_iff {b : BitVec 3} {x : Hint} : Hint.ofCode b = some x ↔ b = x.toCode := ofCode_eq_some_iff Hint.ofCode_toCode (by decide)
theorem ICond.ofCode_iff {b : BitVec 3} {x : ICond} : ICond.ofCode b = some x ↔ b = x.toCode := ofCode_eq_some_iff ICond.ofCode_toCode (by decide)
theorem FCond.ofCode_iff {b : BitVec 3} {x : FCond} : FCond.ofCode b = some x ↔ b = x.toCode := ofCode_eq_some_iff FCond.ofCode_toCode (by decide)
theorem LdSize.ofCode_iff {b : BitVec 3} {x : LdSize} : LdSize.ofCode b = some x ↔ b = x.toCode := ofCode_eq_some_iff LdSize.ofCode_toCode (by decide)
theorem AtomOp.ofCode_iff {b : BitVec 3} {x : AtomOp} : AtomOp.ofCode b = some x ↔ b = x.toCode := ofCode_eq_some_iff AtomOp.ofCode_toCode (by decide)
theorem AtomTy.ofCode_iff {b : BitVec 2} {x : AtomTy} : AtomTy.ofCode b = some x ↔ b = x.toCode := ofCode_eq_some_iff AtomTy.ofCode_toCode (by decide)
theorem AOrder.ofCode_iff {b : BitVec 2} {x : AOrder} : AOrder.ofCode b = some x ↔ b = x.toCode := ofCode_eq_some_iff AOrder.ofCode_toCode (by decide)
theorem FenceKind.ofCode_iff {b : BitVec 2} {x : FenceKind} : FenceKind.ofCode b = some x ↔ b = x.toCode :=
  ofCode_eq_some_iff FenceKind.ofCode_toCode (by decide)
theorem CctlOp.ofCode_iff {b : BitVec 4} {x : CctlOp} : CctlOp.ofCode b = some x ↔ b = x.toCode := ofCode_eq_some_iff CctlOp.ofCode_toCode (by decide)
theorem ShflMode.ofCode_iff {b : BitVec 2} {x : ShflMode} : ShflMode.ofCode b = some x ↔ b = x.toCode :=
  ofCode_eq_some_iff ShflMode.ofCode_toCode (by decide)
theorem RedOp.ofCode_iff {b : BitVec 3} {x : RedOp} : RedOp.ofCode b = some x ↔ b = x.toCode := ofCode_eq_some_iff RedOp.ofCode_toCode (by decide)
theorem RedTy.ofCode_iff {b : BitVec 2} {x : RedTy} : RedTy.ofCode b = some x ↔ b = x.toCode := ofCode_eq_some_iff RedTy.ofCode_toCode (by decide)
theorem PackKind.ofCode_iff {b : BitVec 2} {x : PackKind} : PackKind.ofCode b = some x ↔ b = x.toCode :=
  ofCode_eq_some_iff PackKind.ofCode_toCode (by decide)

theorem frndOfCode_frndToCode (x : FTy) : frndOfCode (frndToCode x) = some x := by cases x <;> rfl

theorem frndOfCode_iff {b : BitVec 8} {x : FTy} : frndOfCode b = some x ↔ b = frndToCode x := ofCode_eq_some_iff frndOfCode_frndToCode (by decide)

theorem BarRef.ofCode_toCode (x : BarRef) : BarRef.ofCode x.toCode = some x := by
  obtain ⟨level, index⟩ := x
  cases level <;> revert index <;> decide

theorem BarRef.ofCode_iff {b : BitVec 6} {x : BarRef} : BarRef.ofCode b = some x ↔ b = x.toCode := ofCode_eq_some_iff BarRef.ofCode_toCode (by decide)

theorem creditOfCode_creditToCode (x : Option BarRef) : creditOfCode (creditToCode x) = some x := by
  cases x with
  | none => rfl
  | some r =>
    obtain ⟨level, index⟩ := r
    cases level <;> revert index <;> decide

theorem creditOfCode_iff {b : BitVec 6} {x : Option BarRef} : creditOfCode b = some x ↔ b = creditToCode x :=
  ofCode_eq_some_iff creditOfCode_creditToCode (by decide)

theorem EngSel.ofCode_toCode (x : EngSel) : EngSel.ofCode x.toCode = some x := by
  cases x with
  | ce n => revert n; decide
  | near => rfl

theorem EngSel.ofCode_iff {b : BitVec 5} {x : EngSel} : EngSel.ofCode b = some x ↔ b = x.toCode := ofCode_eq_some_iff EngSel.ofCode_toCode (by decide)

theorem QrySel.ofCode_toCode (x : QrySel) : QrySel.ofCode x.toCode = some x := by
  cases x with
  | ce n => revert n; decide
  | near => rfl
  | heartwood => rfl

theorem QrySel.ofCode_iff {b : BitVec 5} {x : QrySel} : QrySel.ofCode b = some x ↔ b = x.toCode := ofCode_eq_some_iff QrySel.ofCode_toCode (by decide)

theorem SReg.ofCode_toCode (x : SReg) : SReg.ofCode x.toCode = some x := by
  cases x
  case frec w => revert w; decide
  case frecPrev w => revert w; decide
  all_goals rfl

/-- A number of 18 bits is its upper fifteen bits above its lower three. -/
theorem eq_append_of_div {b : BitVec 18} {n : Nat} (h : b.toNat / 8 = n) : b = BitVec.ofNat 15 n ++ b.extractLsb' 0 3 := by
  have hhigh : b.extractLsb' 3 15 = BitVec.ofNat 15 n := by
    refine BitVec.eq_of_toNat_eq ?_
    rw [BitVec.extractLsb'_toNat, Nat.shiftRight_eq_div_pow, h, BitVec.toNat_ofNat]
  rw [← hhigh]
  exact (BitVec.extractLsb'_append_extractLsb' (w := 15) (len := 3)).symm

/-- A special register's number stands for no other (R27). -/
theorem SReg.ofCode_iff {b : BitVec 18} {x : SReg} : SReg.ofCode b = some x ↔ b = x.toCode := by
  refine ⟨fun h => ?_, fun h => h ▸ SReg.ofCode_toCode x⟩
  unfold SReg.ofCode at h
  split at h
  case h_15 =>
    split at h
    next h4 => cases h; exact eq_append_of_div h4
    next =>
      split at h
      next h5 => cases h; exact eq_append_of_div h5
      next => cases h
  all_goals
    rename_i hb
    cases h
    exact BitVec.eq_of_toNat_eq hb

theorem ofBit_bitOf (b : BitVec 1) : ofBit (bitOf b) = b := by revert b; decide

/-! ## What a decoder's step answers -/

section
variable {n : Nat} {p m : BitVec n} {e : Except DecodeErr Instr} {i : Instr} {α : Type} {ok : Instr → Prop}

theorem resv_eq_of_clears (h : Clears p m) : resv p m e = e := if_pos (beq_iff_eq.mpr h)

theorem sub_some_bind (a : α) (f : α → Except DecodeErr Instr) : (sub (some a)).bind f = f a := rfl

theorem fin_eq_of_wf (h : i.wfError = none) : fin i = .ok i := by rw [fin, h]

/-- What e decodes to, if it decodes, is well formed and as ok says. -/
def Decodes (e : Except DecodeErr Instr) (ok : Instr → Prop) : Prop := ∀ i, e = .ok i → i.wfError = none ∧ ok i

theorem decodes_error (x : DecodeErr) : Decodes (.error x) ok := fun _ h => nomatch h

theorem decodes_fin_iff : Decodes (fin i) ok ↔ (i.wfError = none → ok i) := by
  constructor
  · exact fun h hwf => (h i (fin_eq_of_wf hwf)).2
  · intro h j hj
    unfold fin at hj
    split at hj
    next hwf => cases hj; exact ⟨hwf, h hwf⟩
    next => cases hj

theorem decodes_resv_iff : Decodes (resv p m e) ok ↔ (Clears p m → Decodes e ok) := by
  constructor
  · intro h hc
    rwa [resv_eq_of_clears hc] at h
  · intro h j hj
    unfold resv at hj
    split at hj
    next hc => exact h (beq_iff_eq.mp hc) j hj
    next => cases hj

theorem decodes_sub_iff {o : Option α} {f : α → Except DecodeErr Instr} : Decodes ((sub o).bind f) ok ↔ ∀ a, o = some a → Decodes (f a) ok := by
  cases o with
  | none => exact ⟨fun _ _ h => (nomatch h), fun _ _ h => (nomatch h)⟩
  | some x => exact ⟨fun h a ha => (Option.some.inj ha) ▸ h, fun h => h x rfl⟩

end

/-! ## The three formats -/

section
variable (op : BitVec 8) (c : Ctl) (p : BitVec 30)

theorem enc64_fields : FieldAt (enc64 op c p) 34 p ∧ FieldAt (enc64 op c p) 26 op ∧ FieldAt (enc64 op c p) 25 (ofBit c.neg) ∧
    FieldAt (enc64 op c p) 22 c.guard ∧ FieldAt (enc64 op c p) 18 c.set ∧ FieldAt (enc64 op c p) 6 c.wait ∧ FieldAt (enc64 op c p) 3 c.stall ∧
    FieldAt (enc64 op c p) 2 (ofBit c.uniform) ∧ FieldAt (enc64 op c p) 0 3#2 := by
  have h : FieldAt (enc64 op c p) 0 (enc64 op c p) := fieldAt_zero_iff.mpr rfl
  simpa only [enc64, fieldAt_append_iff, Nat.reduceAdd, and_assoc] using h

theorem enc64_op : (enc64 op c p).extractLsb' 26 8 = op := by
  obtain ⟨-, h, -⟩ := enc64_fields op c p
  exact h

theorem enc64_payload : (enc64 op c p).extractLsb' 34 30 = p := by
  obtain ⟨h, -⟩ := enc64_fields op c p
  exact h

theorem ctlOfWord_enc64 : ctlOfWord (enc64 op c p) = c := by
  obtain ⟨-, -, hneg, hguard, hset, hwait, hstall, huniform, -⟩ := enc64_fields op c p
  simp only [FieldAt] at hneg hguard hset hwait hstall huniform
  simp only [ctlOfWord, hneg, hguard, hset, hwait, hstall, huniform, bitOf_ofBit]
end

/-- A word of 64 bits that ends in 11 is its opcode, its control fields and its bits [63:34] (R67). -/
theorem enc64_of_word {w : BitVec 64} (h0 : w.getLsbD 0 = true) (h1 : w.getLsbD 1 = true) :
    enc64 (w.extractLsb' 26 8) (ctlOfWord w) (w.extractLsb' 34 30) = w := by
  have h : w.extractLsb' 0 2 = 3#2 := by
    refine BitVec.eq_of_getLsbD_eq fun j hj => ?_
    obtain rfl | rfl : j = 0 ∨ j = 1 := by omega
    · simpa using h0
    · simpa using h1
  symm
  rw [← fieldAt_zero_iff, enc64]
  simp only [fieldAt_append_iff, Nat.reduceAdd]
  simp only [FieldAt, ctlOfWord, ofBit_bitOf, h, and_self]

theorem decodeWord_eq (w : BitVec 64) : decodeWord w =
    if w.getLsbD 0 = false then fin (decode16 (w.extractLsb' 0 16)) else if w.getLsbD 1 = false then decode32 (w.extractLsb' 0 32) else decode64 w := by
  have hlow : w.extractLsb' 0 16 = w.setWidth 16 := (BitVec.setWidth_eq_extractLsb' (by omega)).symm
  unfold decodeWord
  rw [hlow, Laws.Length.lengthOf_word]
  cases w.getLsbD 0
  · rfl
  · cases w.getLsbD 1 <;> rfl

/-- i has len bytes, and w is its bits. -/
def Instr.EncodesAs (i : Instr) (len : Nat) (w : BitVec 64) : Prop :=
  ∃ q named, Instr.fields i = some (q, named) ∧ q.len = len ∧ encode i = some w

/-- The bits of an I64 instruction are those of its opcode, its control fields and its own fields. -/
theorem enc64_congr {op op' : BitVec 8} {c : Ctl} {p q : BitVec 30} (hop : op.toNat = op'.toNat) (h : FieldAt p 0 q) : enc64 op' c q = enc64 op c p := by
  rw [BitVec.eq_of_toNat_eq hop, fieldAt_zero_iff.mp h]

/-! ## I64 (R67, R71) -/

/-- VOTE, by its kind (R199). -/
theorem decodeVote_encodes (c : Ctl) (p : BitVec 30) : Decodes (decodeVote c p) (Instr.EncodesAs · 8 (enc64 0x96#8 c p)) := by
  have hkind : p.extractLsb' 24 2 = 0#2 ∨ p.extractLsb' 24 2 = 1#2 ∨ p.extractLsb' 24 2 = 2#2 ∨ p.extractLsb' 24 2 = 3#2 := by
    generalize p.extractLsb' 24 2 = b
    revert b
    decide
  unfold decodeVote
  rcases hkind with h | h | h | h
  all_goals
    simp only [h, BitVec.reduceToNat, decodes_resv_iff, clears_iff, decodes_fin_iff]
    intros
    refine ⟨_, _, rfl, rfl, congrArg some (enc64_congr rfl ?_)⟩
    simp only [encVote]
    simp only [↓fieldAt_append_iff, Nat.reduceAdd, FieldAt, ofBit_bitOf, *, BitVec.reduceExtractLsb', BitVec.reduceAllOnes, and_self]

/-- What an I64 instruction decodes to has its bits: its opcode and control fields stand in the word, and each field of its layout is what
its arm has read, or reserved and zero. -/
theorem decode64_encodes (op : BitVec 8) (c : Ctl) (p : BitVec 30) : Decodes (decode64 (enc64 op c p)) (Instr.EncodesAs · 8 (enc64 op c p)) := by
  unfold decode64
  rw [enc64_op, enc64_payload, ctlOfWord_enc64]
  dsimp only
  split
  case h_115 hop =>
    rw [show op = 0x96#8 from BitVec.eq_of_toNat_eq hop]
    exact decodeVote_encodes c p
  case h_141 =>
    simp only [decodes_resv_iff, clears_iff]
    intro hm
    split
    next hsr =>
      rw [decodes_fin_iff]
      refine fun _ => ⟨_, _, rfl, rfl, congrArg some (enc64_congr (by assumption) ?_)⟩
      simp only [↓fieldAt_append_iff, Nat.reduceAdd, FieldAt, beq_iff_eq.mp hsr, hm, BitVec.reduceExtractLsb', BitVec.reduceAllOnes, and_self]
    next => exact decodes_error _
  all_goals simp only [decodes_resv_iff, clears_iff, decodes_sub_iff, decodes_fin_iff, decodes_error, Width.ofCode_iff, Rm.ofCode_iff,
    FTy.ofCode_iff, TyCode.ofCode_iff, Scope.ofCode_iff, Hint.ofCode_iff, ICond.ofCode_iff, FCond.ofCode_iff, LdSize.ofCode_iff, AtomOp.ofCode_iff,
    AtomTy.ofCode_iff, AOrder.ofCode_iff, FenceKind.ofCode_iff, CctlOp.ofCode_iff, ShflMode.ofCode_iff, RedOp.ofCode_iff, RedTy.ofCode_iff,
    PackKind.ofCode_iff, frndOfCode_iff, BarRef.ofCode_iff, creditOfCode_iff, EngSel.ofCode_iff, QrySel.ofCode_iff, SReg.ofCode_iff]
  all_goals
    intros
    refine ⟨_, _, rfl, rfl, congrArg some (enc64_congr (by assumption) ?_)⟩
    simp only [↓fieldAt_append_iff, Nat.reduceAdd, FieldAt, ofBit_bitOf, *, BitVec.reduceExtractLsb', BitVec.reduceAllOnes, and_self]

theorem resv_eq_of_layout {n : Nat} {p q m : BitVec n} {e : Except DecodeErr Instr} (h : q = p) (hq : Clears q m) : resv p m e = e :=
  resv_eq_of_clears (h ▸ hq)

/-- An arm without reserved bits, as one whose mask is zero. -/
theorem eq_ok_of_resv_zero {n : Nat} (p : BitVec n) (e : Except DecodeErr Instr) {i : Instr} (h : resv p 0#n e = .ok i) : e = .ok i := by
  rwa [resv_eq_of_clears (clears_zero p)] at h

theorem decodeVote_encVote {c : Ctl} {v : VoteOp} {p : BitVec 30} (hp : encVote v = p) (hwf : (Instr.vote c v).wfError = none) :
    decodeVote c p = .ok (.vote c v) := by
  unfold decodeVote
  cases v
  all_goals
    simp only [encVote] at hp
    have hf := fieldAt_zero_iff.mpr hp.symm
    simp only [↓fieldAt_append_iff, Nat.reduceAdd, FieldAt] at hf
    simp only [hf, BitVec.reduceToNat, resv_eq_of_layout hp, clears_append_iff, Nat.reduceAdd, BitVec.reduceExtractLsb', clears_zero, zero_clears,
      and_self, bitOf_ofBit, fin_eq_of_wf hwf]

/-- A well-formed I64 instruction is what its bits decode to: its opcode chooses its arm, whose mask its layout leaves clear, and where each
field gives back what it encodes. -/
theorem decode64_of_encode {i : Instr} {w : BitVec 64} {op : Nat} {c : Ctl} {p : BitVec 30} (hop : (w.extractLsb' 26 8).toNat = op)
    (hc : ctlOfWord w = c) (hp : w.extractLsb' 34 30 = p) (hl : (Instr.fields i).map (·.1.len) = some 8) (he : encode i = some w)
    (hwf : i.wfError = none) : decode64 w = .ok i := by
  unfold decode64
  rw [hop, hc, hp]
  dsimp only
  cases i <;> cases hl
  all_goals
    cases he
    simp only [enc64_op, BitVec.reduceToNat] at hop
    rw [ctlOfWord_enc64] at hc
    rw [enc64_payload] at hp
    subst hop hc
    have hf := fieldAt_zero_iff.mpr hp.symm
  case vote => exact decodeVote_encVote hp hwf
  case' i64Addi | movl => refine eq_ok_of_resv_zero p (fin _) ?_
  case' ldB8 | ldB16 | ldB32 | ldB64 | ldS8 | ldS16 | ldS32 | ldw | ldc | stf | stx | cas | cpym => refine eq_ok_of_resv_zero p ((sub _).bind _) ?_
  all_goals
    refine (resv_eq_of_layout hp ?_).trans ?_
    · simp only [clears_append_iff, Nat.reduceAdd, BitVec.reduceExtractLsb', clears_zero, zero_clears, and_self]
    simp only [↓fieldAt_append_iff, Nat.reduceAdd, FieldAt] at hf
    simp only [hf, sub_some_bind, bitOf_ofBit, fin_eq_of_wf hwf, BEq.rfl, if_true, Width.ofCode_toCode, Rm.ofCode_toCode, FTy.ofCode_toCode,
      TyCode.ofCode_toCode, Scope.ofCode_toCode, Hint.ofCode_toCode, ICond.ofCode_toCode, FCond.ofCode_toCode, LdSize.ofCode_toCode,
      AtomOp.ofCode_toCode, AtomTy.ofCode_toCode, AOrder.ofCode_toCode, FenceKind.ofCode_toCode, CctlOp.ofCode_toCode, ShflMode.ofCode_toCode,
      RedOp.ofCode_toCode, RedTy.ofCode_toCode, PackKind.ofCode_toCode, frndOfCode_frndToCode, BarRef.ofCode_toCode, creditOfCode_creditToCode,
      EngSel.ofCode_toCode, QrySel.ofCode_toCode, SReg.ofCode_toCode]

/-! ## I32 (R66, R70) -/

/-- The lower half of an I32 instruction's word. -/
theorem enc32_low (op : BitVec 8) (k : Ctl32) (hi mid lo : BitVec 6) :
    (enc32 op k hi mid lo).extractLsb' 0 32 = hi ++ mid ++ lo ++ op ++ k.stall ++ ofBit k.uniform ++ 1#2 := by
  have h : FieldAt (enc32 op k hi mid lo) 0 (0#32 ++ hi ++ mid ++ lo ++ op ++ k.stall ++ ofBit k.uniform ++ 1#2) := fieldAt_zero_iff.mpr rfl
  simp only [↓fieldAt_append_iff, Nat.reduceAdd, FieldAt] at h
  rw [← fieldAt_zero_iff]
  simp only [↓fieldAt_append_iff, Nat.reduceAdd, FieldAt, BitVec.extractLsb'_extractLsb'_of_le, Nat.reduceLeDiff, h, and_self]

/-- The bits of an I32 instruction are those of its opcode, its control fields and its own fields. -/
theorem enc32_congr {op : BitVec 8} {p : BitVec 32} {hi mid lo : BitVec 6} (hop : (p.extractLsb' 6 8).toNat = op.toNat)
    (hlow : p.extractLsb' 0 2 = 1#2) (h : FieldAt p 14 (hi ++ mid ++ lo)) :
    enc32 op { stall := p.extractLsb' 3 3, uniform := bitOf (p.extractLsb' 2 1) } hi mid lo = (0#32 ++ p : BitVec 64) := by
  simp only [↓fieldAt_append_iff, Nat.reduceAdd, FieldAt] at h
  have hz : (0#32 ++ p : BitVec 64).extractLsb' 32 32 = 0#32 := BitVec.extractLsb'_append_eq_left
  have hq : ∀ {l n : Nat}, l + n ≤ 32 → (0#32 ++ p : BitVec 64).extractLsb' l n = p.extractLsb' l n := BitVec.extractLsb'_append_eq_of_add_le
  symm
  rw [← fieldAt_zero_iff, enc32]
  simp only [↓fieldAt_append_iff, Nat.reduceAdd, FieldAt]
  simp only [hz, hq, Nat.reduceAdd, Nat.reduceLeDiff, h, BitVec.eq_of_toNat_eq hop, ofBit_bitOf, hlow, and_self]

/-- A field of a field. -/
theorem extractLsb'_extractLsb' {n : Nat} (p : BitVec n) {lo k i l : Nat} (h : i + l ≤ k) :
    (p.extractLsb' lo k).extractLsb' i l = p.extractLsb' (lo + i) l := by
  refine BitVec.eq_of_getLsbD_eq fun j hj => ?_
  have : i + j < k := by omega
  simp [hj, this, Nat.add_assoc]

/-- What an I32 instruction decodes to has its bits. -/
theorem decode32_encodes {p : BitVec 32} (hlow : p.extractLsb' 0 2 = 1#2) : Decodes (decode32 p) (Instr.EncodesAs · 4 (0#32 ++ p)) := by
  unfold decode32
  dsimp only
  split
  all_goals simp only [decodes_resv_iff, clears_iff, decodes_fin_iff, decodes_error]
  all_goals
    intros
    refine ⟨_, _, rfl, rfl, congrArg some (enc32_congr (by assumption) hlow ?_)⟩
    simp only [↓fieldAt_append_iff, Nat.reduceAdd, FieldAt, *, BitVec.reduceExtractLsb', BitVec.reduceAllOnes, and_self,
      extractLsb'_extractLsb', Nat.reduceLeDiff]

/-- A well-formed I32 instruction is what its bits decode to. MOVI's immediate is in two fields. -/
theorem decode32_of_encode {i : Instr} {w : BitVec 64} {p : BitVec 32} {op : Nat} (hop : (p.extractLsb' 6 8).toNat = op)
    (hp : w.extractLsb' 0 32 = p) (hl : (Instr.fields i).map (·.1.len) = some 4) (he : encode i = some w) (hwf : i.wfError = none) :
    decode32 p = .ok i := by
  unfold decode32
  rw [hop]
  dsimp only
  cases i <;> cases hl
  all_goals
    cases he
    rw [enc32_low] at hp
    have hf := fieldAt_zero_iff.mpr hp.symm
    simp only [↓fieldAt_append_iff, Nat.reduceAdd, FieldAt] at hf
    simp only [hf, BitVec.reduceToNat] at hop
    subst hop
  case i32Movi imm =>
    obtain ⟨⟨⟨⟨⟨⟨high, low⟩, hvd⟩, -⟩, hstall⟩, huniform⟩, -⟩ := hf
    have himm : p.extractLsb' 20 12 = imm := by
      rw [← BitVec.extractLsb'_append_extractLsb' (w := 6) (len := 6) (x := imm)]
      exact (fieldAt_append_iff (lo := 20) (x := imm.extractLsb' 6 6) (y := imm.extractLsb' 0 6)).mpr ⟨high, low⟩
    refine (fin_eq_of_wf ?_).trans ?_
    · rfl
    · rw [himm, hvd, hstall, huniform, bitOf_ofBit]
  case' i32Add | i32Sub | i32Mul | i32MulhS64 | i32MulhN64 | i32MinS64 | i32MinN64 | i32MaxS64 | i32MaxN64 | i32And | i32Andn | i32Or | i32Xor
    | i32Shl | i32Shr | i32Sar | i32Rot | i32Shli | i32Shri | i32Sari | i32Addi | i32FaddD | i32FsubD | i32FmulD | i32FminD | i32FmaxD | i32FaddF
    | i32FsubF | i32FmulF | i32FminF | i32FmaxF => refine eq_ok_of_resv_zero p (fin _) ?_
  all_goals
    refine (resv_eq_of_layout hp ?_).trans ?_
    · simp only [clears_append_iff, Nat.reduceAdd, BitVec.reduceExtractLsb', clears_zero, zero_clears, and_self]
    simp only [hf, bitOf_ofBit, fin_eq_of_wf hwf]

/-! ## C16 (R65) -/

/-- Every 16 bits that end in 0 are the bits of what they decode to. -/
theorem decode16_encodes {p : BitVec 16} (hlow : p.extractLsb' 0 1 = 0#1) : Instr.EncodesAs (decode16 p) 2 (0#48 ++ p) := by
  have hz : (0#48 ++ p : BitVec 64).extractLsb' 16 48 = 0#48 := BitVec.extractLsb'_append_eq_left
  have hq : ∀ {l n : Nat}, l + n ≤ 16 → (0#48 ++ p : BitVec 64).extractLsb' l n = p.extractLsb' l n := BitVec.extractLsb'_append_eq_of_add_le
  have hbits : ∀ op : BitVec 4, (p.extractLsb' 1 4).toNat = op.toNat →
      enc16 op (bitOf (p.extractLsb' 5 1)) (p.extractLsb' 6 5) (p.extractLsb' 11 5) = (0#48 ++ p : BitVec 64) := by
    intro op hop
    symm
    rw [← fieldAt_zero_iff, enc16]
    simp only [↓fieldAt_append_iff, Nat.reduceAdd, FieldAt]
    simp only [hz, hq, Nat.reduceAdd, Nat.reduceLeDiff, BitVec.eq_of_toNat_eq hop, ofBit_bitOf, hlow, and_self]
  unfold decode16
  dsimp only
  split
  case h_16 =>
    have hop : (p.extractLsb' 1 4).toNat = 15 := by
      have := (p.extractLsb' 1 4).isLt
      simp only [imp_false] at *
      omega
    exact ⟨_, _, rfl, rfl, congrArg some (hbits _ hop)⟩
  all_goals exact ⟨_, _, rfl, rfl, congrArg some (hbits _ (by assumption))⟩

/-- A C16 instruction is what its bits decode to. -/
theorem decode16_of_encode {i : Instr} {w : BitVec 64} {p : BitVec 16} (hp : w.extractLsb' 0 16 = p) (hl : (Instr.fields i).map (·.1.len) = some 2)
    (he : encode i = some w) : decode16 p = i := by
  subst hp
  cases i <;> cases hl
  all_goals
    have hf := fieldAt_zero_iff.mpr (Option.some.inj he).symm
    simp only [enc16] at hf
    simp only [↓fieldAt_append_iff, Nat.reduceAdd, FieldAt] at hf
    simp only [decode16, BitVec.extractLsb'_extractLsb'_of_le, Nat.reduceAdd, Nat.reduceLeDiff, hf, BitVec.reduceToNat, bitOf_ofBit]

/-! ## The statement -/

theorem fields_len {i : Instr} {q : Issue} {named : List Nat} (h : Instr.fields i = some (q, named)) : q.len = 2 ∨ q.len = 4 ∨ q.len = 8 := by
  cases i <;> cases h <;> simp [issue16, issue32, issue64]

/-- Every instruction that has fields has bits. -/
theorem encode_of_fields {i : Instr} {q : Issue} {named : List Nat} (h : Instr.fields i = some (q, named)) : ∃ w, encode i = some w := by
  cases i <;> cases h <;> exact ⟨_, rfl⟩

section
variable {i : Instr} {w : BitVec 64} (he : encode i = some w)
include he

theorem encode_ends_16 (hl : (Instr.fields i).map (·.1.len) = some 2) : w.getLsbD 0 = false := by
  cases i <;> cases hl <;> cases he <;> exact Laws.Length.low_part _ _ (by omega)

theorem encode_ends_32 (hl : (Instr.fields i).map (·.1.len) = some 4) : w.getLsbD 0 = true ∧ w.getLsbD 1 = false := by
  cases i <;> cases hl <;> cases he <;> exact ⟨Laws.Length.low_part _ _ (by omega), Laws.Length.low_part _ _ (by omega)⟩

theorem encode_ends_64 (hl : (Instr.fields i).map (·.1.len) = some 8) : w.getLsbD 0 = true ∧ w.getLsbD 1 = true := by
  cases i <;> cases hl <;> cases he <;> exact ⟨Laws.Length.low_part _ _ (by omega), Laws.Length.low_part _ _ (by omega)⟩

/-- The bits of a well-formed instruction decode to it, by its format. -/
theorem decodeWord_of_encode (hwf : i.wfError = none) {q : Issue} {named : List Nat} (h : Instr.fields i = some (q, named)) : decodeWord w = .ok i := by
  have hl : (Instr.fields i).map (·.1.len) = some q.len := by rw [h]; rfl
  rw [decodeWord_eq]
  obtain h2 | h4 | h8 := fields_len h
  · rw [h2] at hl
    rw [encode_ends_16 he hl, decode16_of_encode rfl hl he]
    exact fin_eq_of_wf hwf
  · rw [h4] at hl
    obtain ⟨h0, h1⟩ := encode_ends_32 he hl
    rw [h0, h1]
    exact decode32_of_encode rfl rfl hl he hwf
  · rw [h8] at hl
    obtain ⟨h0, h1⟩ := encode_ends_64 he hl
    rw [h0, h1]
    exact decode64_of_encode rfl rfl rfl hl he hwf
end

/-- A word's low bits, by their number: zeros above them. -/
theorem and_ones {m n : Nat} (w : BitVec (m + n)) : w &&& BitVec.ofNat (m + n) (2 ^ n - 1) = 0#m ++ w.extractLsb' 0 n := by
  refine BitVec.eq_of_getLsbD_eq fun j hj => ?_
  rw [BitVec.getLsbD_and, BitVec.getLsbD_append, BitVec.getLsbD_ofNat, Nat.testBit_two_pow_sub_one, BitVec.getLsbD_extractLsb']
  by_cases h : j < n
  · simp [h, hj]
  · simp [h]

theorem extractLsb'_one {n lo : Nat} {w : BitVec n} {b : Bool} (h : w.getLsbD lo = b) : w.extractLsb' lo 1 = ofBit b := by
  refine BitVec.eq_of_getLsbD_eq fun j hj => ?_
  obtain rfl : j = 0 := by omega
  rw [BitVec.getLsbD_extractLsb', Nat.add_zero, h]
  cases b <;> rfl

theorem Decodes.mono {e : Except DecodeErr Instr} {ok ok' : Instr → Prop} (h : Decodes e ok) (hok : ∀ i, ok i → ok' i) : Decodes e ok' :=
  fun i hi => ⟨(h i hi).1, hok i (h i hi).2⟩

/-- The bits w of an instruction, read from a word that holds more. -/
theorem Instr.EncodesAs.low {i : Instr} {len : Nat} {w v : BitVec 64} (h : Instr.EncodesAs i len v) (hv : w &&& BitVec.ofNat 64 (2 ^ (8 * len) - 1) = v) :
    ∃ q named, Instr.fields i = some (q, named) ∧ encode i = some (w &&& BitVec.ofNat 64 (2 ^ (8 * q.len) - 1)) := by
  obtain ⟨q, named, hf, hl, he⟩ := h
  exact ⟨q, named, hf, by rw [hl, hv, he]⟩

/-- What a word decodes to is well formed, and its bits are the word's, up to its length. -/
theorem decodeWord_encodes (w : BitVec 64) :
    Decodes (decodeWord w) fun i => ∃ q named, Instr.fields i = some (q, named) ∧ encode i = some (w &&& BitVec.ofNat 64 (2 ^ (8 * q.len) - 1)) := by
  rw [decodeWord_eq]
  split
  next h0 =>
    have hlow : (w.extractLsb' 0 16).extractLsb' 0 1 = 0#1 := by
      rw [BitVec.extractLsb'_extractLsb'_of_le (by omega)]
      exact extractLsb'_one h0
    exact decodes_fin_iff.mpr fun _ => (decode16_encodes hlow).low (and_ones (m := 48) (n := 16) w)
  next h0 =>
    rw [Bool.not_eq_false] at h0
    split
    next h1 =>
      have hlow : (w.extractLsb' 0 32).extractLsb' 0 2 = 1#2 := by
        rw [BitVec.extractLsb'_extractLsb'_of_le (by omega)]
        exact (fieldAt_append_iff (x := 0#1) (y := 1#1)).mpr ⟨extractLsb'_one h1, extractLsb'_one h0⟩
      exact (decode32_encodes hlow).mono fun _ h => h.low (and_ones (m := 32) (n := 32) w)
    next h1 =>
      have h := decode64_encodes (w.extractLsb' 26 8) (ctlOfWord w) (w.extractLsb' 34 30)
      rw [enc64_of_word h0 (Bool.not_eq_false _ ▸ h1)] at h
      exact h.mono fun _ h => h.low BitVec.and_allOnes

/-- Settles O58: each format by itself, decoded from its encoding and encoded from its decoding. -/
theorem encodeDecode : Obligations.EncodeDecode := by
  refine ⟨fun i hi hwf => ?_, decodeWord_encodes⟩
  obtain ⟨⟨q, named⟩, h⟩ := Option.isSome_iff_exists.mp hi
  obtain ⟨w, he⟩ := encode_of_fields h
  exact ⟨w, he, decodeWord_of_encode he hwf h⟩

/-- Settles O59: the decoder computes each word's instruction. -/
theorem decodedWords : Obligations.DecodedWords := by
  unfold Obligations.DecodedWords
  exact ⟨rfl, rfl, rfl, rfl, rfl, rfl, rfl, rfl, rfl, rfl, rfl, rfl, rfl, rfl, rfl, rfl, rfl, rfl, rfl⟩

end Sys2Proof.Machine
end

section
/-! THE INTEGER FORMS (O1, O2, O3): the low bits of an operation's exact value are what the rules say of the operands' low bits, so each form
leaves its extension for the destination (spec/05_isa_integer_control.md R84-R90, R95, R102; spec/04_encoding_and_assembly.md R65-R67). -/

namespace Sys2Proof.Machine

/-! ## Values at a width -/

/-- The low w bits of an exact result, extended (R85). -/
theorem narrow_eq_extended (w : Nat) (sx : Bool) (v : Int) : narrow w sx v = extended sx (BitVec.ofInt w v) := by
  cases sx with
  | true => rw [narrow, if_pos rfl, extended, if_pos rfl, BitVec.signExtend, BitVec.toInt_ofInt]
  | false =>
    have h0 : 0 ≤ v % (2 ^ w : Nat) := Int.emod_nonneg _ (by positivity)
    refine BitVec.eq_of_toNat_eq ?_
    rw [narrow, if_neg nofun, extended, if_neg nofun, BitVec.toNat_setWidth, BitVec.toNat_ofInt, BitVec.toNat_ofInt]
    omega

theorem leadZeros_eq (f : Nat → Bool) (w : Nat) : leadZeros f w = leadFalse ((List.range w).map fun i => f (w - 1 - i)) := by
  induction w with
  | zero => rfl
  | succ w ih =>
    have hnext : (fun i => f (w - (i + 1))) = fun i => f (w - 1 - i) := funext fun i => by rw [Nat.add_comm, Nat.sub_sub]
    rw [leadZeros, ih, List.range_succ_eq_map, List.map_cons, List.map_map]
    simp only [Function.comp_def, leadFalse, List.takeWhile_cons, Nat.add_sub_cancel, Nat.sub_zero, Nat.succ_eq_add_one, hnext]
    cases f w <;> rfl

theorem foldl_count (f : Nat → Bool) (l : List Nat) (c : Nat) : l.foldl (fun c i => if f i then c + 1 else c) c = c + (l.filter f).length := by
  induction l generalizing c with
  | nil => rfl
  | cons i l ih =>
    rw [List.foldl_cons, ih, List.filter_cons]
    cases f i
    · rfl
    · simp [Nat.add_comm 1, Nat.add_assoc]

section
variable {w : Nat} (x y : BitVec w) (n : Nat)

theorem ofInt_toNat : BitVec.ofInt w x.toNat = x := by rw [BitVec.ofInt_natCast, BitVec.ofNat_toNat, BitVec.setWidth_eq]

theorem ofInt_sub (i j : Int) : BitVec.ofInt w (i - j) = BitVec.ofInt w i - BitVec.ofInt w j := by
  rw [Int.sub_eq_add_neg, BitVec.ofInt_add, BitVec.ofInt_neg, BitVec.sub_eq_add_neg]

/-- The bits of an exact value above the lowest k. -/
theorem ofInt_ediv_two_pow {m k : Nat} (h : k + w ≤ m) (v : Int) : BitVec.ofInt w (v / (2 ^ k : Nat)) = (BitVec.ofInt m v).extractLsb' k w := by
  obtain ⟨l, rfl⟩ := Nat.exists_eq_add_of_le h
  have hsplit : v = v % (2 ^ (k + w + l) : Nat) + (2 ^ k : Nat) * ((2 ^ w : Nat) * ((2 ^ l : Nat) * (v / (2 ^ (k + w + l) : Nat)))) := by
    rw [← Int.mul_assoc, ← Int.mul_assoc, ← Nat.cast_mul, ← Nat.cast_mul, ← Nat.pow_add, ← Nat.pow_add]
    exact (Int.emod_add_mul_ediv ..).symm
  obtain ⟨r, hr⟩ := Int.eq_ofNat_of_zero_le (Int.emod_nonneg v (show ((2 ^ (k + w + l) : Nat) : Int) ≠ 0 by positivity))
  refine BitVec.eq_of_toNat_eq ?_
  rw [BitVec.toNat_ofInt, BitVec.extractLsb'_toNat, BitVec.toNat_ofInt, hr, Int.toNat_natCast, Nat.shiftRight_eq_div_pow]
  rw [hr] at hsplit
  rw [hsplit, Int.add_mul_ediv_left _ _ (by positivity), Int.add_mul_emod_self_left]
  rfl

theorem ofInt_shl : BitVec.ofInt w (if n < w then (x.toNat * 2 ^ n : Nat) else 0) = x <<< n := by
  split
  next => exact BitVec.eq_of_toNat_eq (by rw [BitVec.ofInt_natCast, BitVec.toNat_ofNat, BitVec.toNat_shiftLeft, Nat.shiftLeft_eq])
  next h => exact (BitVec.shiftLeft_eq_zero (Nat.le_of_not_lt h)).symm

theorem ofNat_div_two_pow : BitVec.ofNat w (x.toNat / 2 ^ n) = x >>> n := by
  refine BitVec.eq_of_toNat_eq ?_
  rw [BitVec.toNat_ofNat, BitVec.toNat_ushiftRight, Nat.shiftRight_eq_div_pow, Nat.mod_eq_of_lt]
  exact (Nat.div_le_self ..).trans_lt x.isLt

theorem ofInt_shr : BitVec.ofInt w (if n < w then (x.toNat / 2 ^ n : Nat) else 0) = x >>> n := by
  split
  next => rw [BitVec.ofInt_natCast, ofNat_div_two_pow]
  next h => exact (BitVec.ushiftRight_eq_zero (Nat.le_of_not_lt h)).symm

theorem ofInt_sar : BitVec.ofInt w (if n < w then x.toInt / (2 ^ n : Nat) else if x.toInt < 0 then -1 else 0) = x.sshiftRight n := by
  have hlow : -(2 ^ w : Nat) ≤ 2 * x.toInt := BitVec.le_two_mul_toInt
  have hhigh : 2 * x.toInt < (2 ^ w : Nat) := BitVec.two_mul_toInt_lt
  rw [BitVec.sshiftRight, Int.shiftRight_eq_div_pow]
  congr 1
  split
  next => rfl
  next h =>
    have hpow : 2 ^ w ≤ 2 ^ n := Nat.pow_le_pow_right (by decide) (Nat.le_of_not_lt h)
    split
    · exact (Int.ediv_eq_neg_one_of_neg_of_le (by assumption) (by omega)).symm
    · exact (Int.ediv_eq_zero_of_lt (by omega) (by omega)).symm

theorem ofInt_rot (hw : 0 < w) : BitVec.ofInt w (x.toNat * 2 ^ (n % w) + x.toNat / 2 ^ (w - n % w) : Nat) = x.rotateLeft n := by
  have hshl := ofInt_shl x (n % w)
  rw [if_pos (Nat.mod_lt n hw), BitVec.ofInt_natCast] at hshl
  rw [BitVec.ofInt_natCast, BitVec.ofNat_add, hshl, ofNat_div_two_pow, BitVec.rotateLeft_def]
  refine BitVec.add_eq_or_of_and_eq_zero _ _ (BitVec.eq_of_getLsbD_eq fun i hi => ?_)
  have := Nat.mod_lt n hw
  rw [BitVec.getLsbD_and, BitVec.getLsbD_shiftLeft, BitVec.getLsbD_ushiftRight]
  by_cases hlt : i < n % w
  · simp [hlt]
  · simp [BitVec.getLsbD_of_ge x (w - n % w + i) (by omega)]
end

/-! ## Operations at a width -/

/-- The low w bits of an operation's exact value are what R87 to R89 say of the operands' low bits. -/
theorem IOp.ofInt_eval (o : IOp) {w : Nat} (hw : 0 < w) (h64 : w ≤ 64) (a b : Word) :
    BitVec.ofInt w (o.eval w a b) = o.spec (a.setWidth w) (b.setWidth w) (b.toNat % 64) := by
  have hlow : ∀ v : Word, BitVec.ofInt w v.toNat = v.setWidth w := fun v => by rw [BitVec.ofInt_natCast, BitVec.ofNat_toNat]
  have hbit : ∀ i, (a.setWidth w).toNat.testBit i = (a.setWidth w).getLsbD i := fun _ => rfl
  cases o <;> simp only [IOp.eval, IOp.spec, sval_eq_toInt, nval_eq_toNat, ← BitVec.toNat_setWidth]
  case add => simp only [BitVec.ofInt_add, ofInt_toNat]
  case sub => simp only [ofInt_sub, ofInt_toNat]
  case mul => simp only [BitVec.ofInt_mul, ofInt_toNat]
  case mulhS => rw [ofInt_ediv_two_pow (m := 2 * w) (by omega), BitVec.ofInt_mul]; rfl
  case mulhN => rw [ofInt_ediv_two_pow (m := 2 * w) (by omega), BitVec.ofInt_mul]; simp only [BitVec.ofInt_natCast, BitVec.ofNat_toNat]
  case minS => simp only [BitVec.slt, decide_eq_true_eq, apply_ite (BitVec.ofInt w), BitVec.ofInt_toInt]
  case minN => simp only [BitVec.ult, decide_eq_true_eq, Nat.cast_lt, apply_ite (BitVec.ofInt w), ofInt_toNat]
  case maxS => simp only [BitVec.slt, decide_eq_true_eq, apply_ite (BitVec.ofInt w), BitVec.ofInt_toInt]
  case maxN => simp only [BitVec.ult, decide_eq_true_eq, Nat.cast_lt, apply_ite (BitVec.ofInt w), ofInt_toNat]
  case abs => simp only [BitVec.msb_eq_toInt, decide_eq_true_eq, apply_ite (BitVec.ofInt w), BitVec.ofInt_neg, BitVec.ofInt_toInt]
  case neg => rw [BitVec.ofInt_neg, ofInt_toNat]
  case and => rw [hlow, BitVec.setWidth_and]
  case andn => rw [hlow, BitVec.setWidth_and, BitVec.setWidth_not h64]
  case or => rw [hlow, BitVec.setWidth_or]
  case xor => rw [hlow, BitVec.setWidth_xor]
  case not => rw [hlow, BitVec.setWidth_not h64]
  case shl => exact ofInt_shl _ _
  case shr => exact ofInt_shr _ _
  case sar => exact ofInt_sar _ _
  case rot => exact ofInt_rot _ _ hw
  case popc => rw [foldl_count, Nat.zero_add]; rfl
  case clz => rw [leadZeros_eq]; rfl
  case ctz =>
    rw [leadZeros_eq, BitVec.ofInt_natCast]
    congr 2
    refine List.map_congr_left fun i hi => ?_
    have := List.mem_range.mp hi
    rw [hbit, show w - 1 - (w - 1 - i) = i by omega]
  case brev => rfl

theorem widthBits_pos (w : Width) : 0 < widthBits w := by cases w <;> decide

theorem widthBits_le (w : Width) : widthBits w ≤ 64 := by cases w <;> decide

theorem IOp.result_eq_value (o : IOp) (w : Width) (sx : Bool) (a b : Word) : o.result (widthBits w) sx a b = o.value w sx a b := by
  rw [IOp.result, narrow_eq_extended, IOp.ofInt_eval o (widthBits_pos w) (widthBits_le w), IOp.value]

theorem extended_64 (sx : Bool) (x : Word) : extended sx x = x := by cases sx <;> simp [extended]

theorem IOp.result_64 (o : IOp) (sx : Bool) (a b : Word) : o.result 64 sx a b = o.spec a b (b.toNat % 64) := by
  refine (o.result_eq_value .w64 sx a b).trans ((extended_64 sx _).trans ?_)
  exact congrArg₂ (o.spec · · (b.toNat % 64)) (BitVec.setWidth_eq a) (BitVec.setWidth_eq b)

/-- An immediate's amount fits the six bits that a shift reads (R88). -/
theorem toNat_setWidth_mod {n : Nat} (hn : n ≤ 6) (imm : BitVec n) : (imm.setWidth 64).toNat % 64 = imm.toNat := by
  have : 2 ^ n ≤ 2 ^ 6 := Nat.pow_le_pow_right (by decide) hn
  have := imm.isLt
  rw [BitVec.toNat_setWidth]
  omega

/-- An operation at full width by an immediate amount. -/
theorem IOp.result_64_imm (o : IOp) (sx : Bool) (a : Word) {n : Nat} (hn : n ≤ 6) (imm : BitVec n) :
    o.result 64 sx a (imm.setWidth 64) = o.spec a (imm.setWidth 64) imm.toNat := by
  rw [IOp.result_64, toNat_setWidth_mod hn]

/-- An operation at a width by an immediate amount. -/
theorem IOp.result_imm (o : IOp) (w : Width) (sx : Bool) (a : Word) (amt : BitVec 6) : o.result (widthBits w) sx a (amt.setWidth 64) =
    extended sx (o.spec (a.setWidth (widthBits w)) ((amt.setWidth 64).setWidth (widthBits w)) amt.toNat) := by
  rw [IOp.result_eq_value, IOp.value, toNat_setWidth_mod (Nat.le_refl 6)]

section
variable {s : State} {k : Nat} {t : Thread} {i : Instr} {q : Issue} {d : Nat} {named reads : List Nat}

/-- An instruction that computes one register's value from the thread's. -/
theorem gives_reg (f : Thread → Word) {v : Word} (hx : exec i s = .next (s.fixedOp q 2 named reads fun t => [.reg d (f t) none])) (hv : f t = v)
    (ha : s.Alone k t) (e : q.Executes t named reads) : s.Gives i k (t.afterFixed s q 2 [.reg d v none]) s.numbered :=
  hv ▸ gives_fixed 2 (fun t => [.reg d (f t) none]) hx ha e
end

/-! ## The statements -/

/-- Settles O1: each is a fixed-latency operation at full width. -/
theorem c16Integer : Obligations.C16Integer := by
  intro s k t st vd vb imm ha q a b gives two one
  have hshift : 5 ≤ 6 := by decide
  refine ⟨?_, ?_, ?_, ?_, ?_, ?_, ?_, ?_, ?_, ?_, ?_⟩
  · exact gives_reg _ rfl rfl ha
  · exact gives_reg _ rfl rfl ha
  · exact gives_reg _ rfl (IOp.result_64 .add false a b) ha
  · exact gives_reg _ rfl (IOp.result_64 .sub false a b) ha
  · exact gives_reg _ rfl (IOp.result_64 .add false a _) ha
  · exact gives_reg _ rfl (IOp.result_64 .and false a b) ha
  · exact gives_reg _ rfl (IOp.result_64 .or false a b) ha
  · exact gives_reg _ rfl (IOp.result_64 .xor false a b) ha
  · exact gives_reg _ rfl (IOp.result_64_imm .shl false a hshift imm) ha
  · exact gives_reg _ rfl (IOp.result_64_imm .shr false a hshift imm) ha
  · exact gives_reg _ rfl (IOp.result_64_imm .sar false a hshift imm) ha

/-- Settles O2: each is a fixed-latency operation at full width. -/
theorem i32Integer : Obligations.I32Integer := by
  intro s k t c vd va vb imm imm12 ha q a b gives two one
  have pair : ∀ (i : Instr) (o : IOp), exec i s = .next (s.rrr q 2 vd.toNat va.toNat vb.toNat (IOp.result o 64 false)) → two i o :=
    fun i o hx => gives_reg _ hx (o.result_eq_value .w64 false a b) ha
  have single : ∀ (i : Instr) (o : IOp), exec i s = .next (s.rr q 2 vd.toNat va.toNat fun a => IOp.result o 64 false a 0) →
      one i (o.value .w64 false a 0) := fun i o hx => gives_reg _ hx (o.result_eq_value .w64 false a 0) ha
  have hshift : 6 ≤ 6 := by decide
  refine ⟨pair _ _ rfl, pair _ _ rfl, pair _ _ rfl, pair _ _ rfl, pair _ _ rfl, pair _ _ rfl, pair _ _ rfl, pair _ _ rfl, pair _ _ rfl,
    single _ .abs rfl, ?_, pair _ _ rfl, pair _ _ rfl, pair _ _ rfl, pair _ _ rfl, ?_, pair _ _ rfl, pair _ _ rfl, pair _ _ rfl, pair _ _ rfl,
    ?_, ?_, ?_, single _ .popc rfl, single _ .clz rfl, single _ .ctz rfl, single _ .brev rfl, ?_, ?_, ?_⟩
  · exact gives_reg _ rfl (IOp.result_64 .neg false a 0) ha
  · exact gives_reg _ rfl (IOp.result_64 .not false a 0) ha
  · exact gives_reg _ rfl (IOp.result_64_imm .shl false a hshift imm) ha
  · exact gives_reg _ rfl (IOp.result_64_imm .shr false a hshift imm) ha
  · exact gives_reg _ rfl (IOp.result_64_imm .sar false a hshift imm) ha
  · exact gives_reg _ rfl (IOp.result_64 .add false a _) ha
  · exact gives_reg _ rfl rfl ha
  · exact gives_reg _ rfl rfl ha

/-- Settles O3: each is a fixed-latency operation at the instruction's width. -/
theorem i64Integer : Obligations.I64Integer := by
  intro s k t c w sx vd va vb vc amt imm ha q a b low gives two one
  have pair : ∀ (i : Instr) (o : IOp), exec i s = .next (s.rrr q 2 vd.toNat va.toNat vb.toNat (IOp.result o (widthBits w) sx)) → two i o :=
    fun i o hx => gives_reg _ hx (o.result_eq_value w sx a b) ha
  have single : ∀ (i : Instr) (o : IOp), exec i s = .next (s.rr q 2 vd.toNat va.toNat fun a => IOp.result o (widthBits w) sx a 0) →
      one i (o.value w sx a 0) := fun i o hx => gives_reg _ hx (o.result_eq_value w sx a 0) ha
  refine ⟨pair _ _ rfl, pair _ _ rfl, pair _ _ rfl, pair _ _ rfl, pair _ _ rfl, pair _ _ rfl, pair _ _ rfl, pair _ _ rfl, pair _ _ rfl,
    single _ .abs rfl, single _ .neg rfl, pair _ _ rfl, pair _ _ rfl, pair _ _ rfl, pair _ _ rfl, single _ .not rfl,
    pair _ _ rfl, pair _ _ rfl, pair _ _ rfl, pair _ _ rfl, single _ .popc rfl, single _ .clz rfl, single _ .ctz rfl, single _ .brev rfl,
    ?_, ?_, ?_, ?_, ?_⟩
  · exact gives_reg _ rfl (IOp.result_imm .shl w false a amt) ha
  · exact gives_reg _ rfl (IOp.result_imm .shr w false a amt) ha
  · exact gives_reg _ rfl (IOp.result_imm .sar w true a amt) ha
  · exact gives_reg _ rfl (IOp.result_64 .add false a _) ha
  · refine gives_reg _ rfl ?_ ha
    simp only [narrow_eq_extended, nval_eq_toNat, BitVec.ofInt_add, BitVec.ofInt_mul, ofInt_toNat]
    rfl

end Sys2Proof.Machine
end

section
/-! CONTROL INSTRUCTIONS (O16): what an issue leaves of a thread that its instruction ends, pauses or lets run
(spec/05_isa_integer_control.md R103, R104, R108-R111; spec/10_isa_synchronisation.md R210). -/

namespace Sys2Proof.Machine

/-! ## The issue of an instruction that does not hold its thread -/

/-- The instruction of a thread with this status has issued: it neither parks the thread nor holds it. -/
def TStatus.issues : TStatus → Bool
  | .sync _ => false
  | .form _ _ _ _ _ => false
  | .held _ _ => false
  | .run => true
  | .fault => true
  | .wait _ _ _ => true
  | .yield _ => true
  | .exited => true

section
variable {s s1 s2 : State} {q : Issue} {k : Nat} {t u : Thread} {named reads : List Nat} {i : Instr} {adv : Bool} {body : Body}

/-- The PC at which a thread goes on: past its instruction, or where that has left it (R22). -/
def Thread.goesOnAt (u : Thread) (q : Issue) (adv : Bool) : Pc := if adv then u.past q else u.pc

theorem State.issued_thread (hs : u.status.issues = true) (hc : s1.clk = s.clk) (hd : s1.draws = s.draws) (hf : s1.threads.find k = some u) :
    (s1.issued q k s.nextSeq true adv).threads.find k = some (u.succeeded.wentOn s q (u.goesOnAt q adv)) := by
  rw [State.issued, State.updThread_threads, Tbl.find_upd_same, hf, Option.map_some]
  obtain ⟨⟩ := u
  rename_i status _ _ _ _ _ _ _ _ reissue _
  cases status <;> cases hs
  all_goals
    cases hfl : q.flag <;> cases reissue <;>
      simp [Thread.wentOn, Thread.succeeded, Thread.past, Thread.goesOnAt, hfl, hc, hd, Thread.queue]

theorem State.issued_threads_other {j : Nat} (hj : j ≠ k) : (s1.issued q k s.nextSeq true adv).threads.find j = s1.threads.find j := by
  rw [State.issued, State.updThread_threads, Tbl.find_upd_other _ _ hj]

/-- How a thread goes on depends neither on where its instruction left it nor on whether it was to pass the watchpoints. -/
theorem Thread.wentOn_of_pc_skipWatch (u : Thread) (pc pc' : Pc) (b : Bool) :
    ({ u with pc := pc, skipWatch := b } : Thread).succeeded.wentOn s q pc' = u.succeeded.wentOn s q pc' := by
  obtain ⟨⟩ := u
  rename_i reissue _
  cases hfl : q.flag <;> cases reissue <;> simp [Thread.wentOn, Thread.succeeded, hfl]

theorem Thread.wentOn_of_pc (u : Thread) (pc pc' : Pc) : ({ u with pc := pc } : Thread).succeeded.wentOn s q pc' = u.succeeded.wentOn s q pc' :=
  u.wentOn_of_pc_skipWatch pc pc' u.skipWatch

/-- s1 is s2 but for its threads, of which thread k is u and every other one stands as in s2. -/
def State.IsBut (s1 : State) (k : Nat) (u : Thread) (s2 : State) : Prop :=
  ∃ ts, s1 = { s2 with threads := ts } ∧ Tbl.find ts k = some u ∧ ∀ j, j ≠ k → Tbl.find ts j = s2.threads.find j

theorem State.IsBut.gives (h : s1.IsBut k u s2) (hx : exec i s = .next s1) : s.Gives i k u s2 := by
  obtain ⟨ts, hs, hk, hj⟩ := h
  exact ⟨ts, hx.trans (congrArg _ hs), hk, hj⟩

theorem State.IsBut.thr (h : s1.IsBut k u s2) : s1.thr k = u := by
  obtain ⟨ts, rfl, hk, -⟩ := h
  exact State.thr_of_find hk

theorem State.IsBut.updThread (h : s1.IsBut k u s2) (f : Thread → Thread) : (s1.updThread k f).IsBut k (f u) s2 := by
  obtain ⟨ts, rfl, hk, hj⟩ := h
  exact ⟨Tbl.upd ts k f, rfl, State.find_updThread (s := { s2 with threads := ts }) hk f, fun j hne => (Tbl.find_upd_other _ _ hne).trans (hj j hne)⟩

/-- An issue by one thread of an instruction that neither parks nor holds it: its meaning leaves the thread as u, and the state but for its
threads as s2. -/
theorem runGang_issues (h : s.Alone k t) (e : q.Executes t named reads) (hb : body s k [k] = .ok s1) (hc : s1.clk = s.clk) (hd : s1.draws = s.draws)
    (hs : { s1 with threads := s2.threads } = s2) (ho : ∀ j, j ≠ k → s1.threads.find j = s2.threads.find j) (hf : s1.threads.find k = some u)
    (hr : u.status.issues = true) :
    (s.runGang q named reads adv body).IsBut k (u.succeeded.wentOn s q (u.goesOnAt q adv)) s2 := by
  refine ⟨(s1.issued q k s.nextSeq true adv).threads, ?_, State.issued_thread hr hc hd hf, fun j hj => (State.issued_threads_other hj).trans (ho j hj)⟩
  rw [runGang_alone h e, hb, ← hs]
  rfl

/-- The issue of a class C instruction (R103), which changes the state to s0 with its threads as they were, and its thread by f, whose flag's
fall is due in the issue clk. -/
theorem runGang_control {s0 : State} {f : Thread → Thread} (h : s.Alone k t) (e : q.Executes t named reads)
    (hb : body s k [k] = .ok ((s0.classC q k).updThread k f)) (hk : s.Kept s0) (hf : ∀ v w, f (v.queue w) = (f v).queue w)
    (hr : (f t).status.issues = true) :
    (s.runGang q named reads adv body).IsBut k (({ f t with pc := (f t).goesOnAt q adv } : Thread).afterControl s q) s0.numbered := by
  have hfind : ((s0.classC q k).updThread k f).threads.find k = some ((f t).queueAll s.nextSeq s.clk q.falls) := by
    rw [State.find_updThread (t := t.queueAll s.nextSeq s.clk q.falls), Thread.queueAll_comm hf]
    rw [State.classC_eq, hk.nextSeq, hk.clk, Tbl.find_upd_same, hk.threads, h.here]
    rfl
  have hothers : ∀ j, j ≠ k → ((s0.classC q k).updThread k f).threads.find j = s0.threads.find j := fun j hj => by
    rw [State.updThread_threads, Tbl.find_upd_other _ _ hj, State.classC_eq, Tbl.find_upd_other _ _ hj]
  have hsame : { (s0.classC q k).updThread k f with threads := s0.numbered.threads } = s0.numbered := by rw [State.classC_eq]; rfl
  have hg := runGang_issues (adv := adv) h e hb hk.clk hk.draws hsame hothers hfind ((congrArg _ (Thread.queueAll_status ..)).trans hr)
  have hpc := Thread.queueAll_comm (g := fun v => { v with pc := (f t).goesOnAt q adv }) (fun _ _ => rfl) (f t) s.nextSeq s.clk q.falls
  have hat : ((f t).queueAll s.nextSeq s.clk q.falls).goesOnAt q adv = (f t).goesOnAt q adv := by
    rw [Thread.goesOnAt, Thread.past, Thread.queueAll_pc]
    rfl
  rwa [hat, ← Thread.wentOn_of_pc _ ((f t).goesOnAt q adv), hpc] at hg

/-- The answer of a class C instruction whose meaning is one issue. -/
theorem gives_control_then {s0 : State} {f : Thread → Thread} (hx : exec i s = .next (s.runGang q named reads adv body)) (h : s.Alone k t)
    (e : q.Executes t named reads) (hb : body s k [k] = .ok ((s0.classC q k).updThread k f)) (hk : s.Kept s0)
    (hf : ∀ v w, f (v.queue w) = (f v).queue w) (hr : (f t).status.issues = true) :
    s.Gives i k (({ f t with pc := (f t).goesOnAt q adv } : Thread).afterControl s q) s0.numbered :=
  (runGang_control h e hb hk hf hr).gives hx

theorem Thread.goesOnAt_past (u : Thread) (c : Ctl) : u.goesOnAt (issue64 c) true = u.pc + 8 := rfl

/-- One that the thread goes on past. -/
theorem gives_control_past {s0 : State} {f : Thread → Thread} {c : Ctl} (hx : exec i s = .next (s.runGang (issue64 c) named reads true body))
    (h : s.Alone k t) (e : (issue64 c).Executes t named reads) (hb : body s k [k] = .ok ((s0.classC (issue64 c) k).updThread k f)) (hk : s.Kept s0)
    (hf : ∀ v w, f (v.queue w) = (f v).queue w) (hr : (f t).status.issues = true) :
    s.Gives i k (({ f t with pc := (f t).pc + 8 } : Thread).afterControl s (issue64 c)) s0.numbered := by
  rw [← Thread.goesOnAt_past]
  exact gives_control_then hx h e hb hk hf hr

end

/-- A thread that waits (R110). -/
def Thread.waiting (time : Bool) (d : Nat) (flag : Option Nat) (u : Thread) : Thread := { u with status := .wait time d flag }

/-- A WAIT that waits (R110): the thread goes on past it when its count or time is up, and no number is taken. -/
theorem gives_wait {s : State} {k d : Nat} {t : Thread} {c : Ctl} {time : Bool} {va : Reg} (h : s.Alone k t)
    (e : (issue64 c).Executes t [va.toNat] [va.toNat]) (hw : time = true → s.ptp < (t.reg va.toNat).toNat)
    (hd : (if time then (t.reg va.toNat).toNat else s.clk + bits (t.reg va.toNat) 31 0) = d) :
    s.Gives (.wait c time va) k ((t.waiting time d (issue64 c).flag).succeeded.wentOn s (issue64 c) (t.past (issue64 c))) s := by
  have hnot : ¬(time && decide ((t.reg va.toNat).toNat ≤ s.ptp)) = true := by
    rw [Bool.and_eq_true, decide_eq_true_eq]
    exact fun ⟨h1, h2⟩ => Nat.not_lt.mpr h2 (hw h1)
  refine (runGang_issues (adv := true) (s1 := s.updThread k (Thread.waiting time d (issue64 c).flag)) h e ?_ rfl rfl rfl
    (fun j hj => Tbl.find_upd_other _ _ hj) (State.find_updThread h.here _) rfl).gives rfl
  simp only [h.thr, if_neg hnot, hd]
  rfl

/-- Settles O16: each is a class C instruction that leaves the thread at its PC, or past itself, but a WAIT that waits. -/
theorem controlInstructions : Obligations.ControlInstructions := by
  intro s k t c off va ha q a done waits
  have hk := State.Kept.refl s
  have plain : s.classC q k = (s.classC q k).updThread k id := (State.updThread_id ..).symm
  refine ⟨fun e => ?bra, fun h57 h0 e => ?jmp, fun e => ?nop, fun e => ?exit, fun e => ?yield, fun e => ?count, fun hlt e => ?time,
    fun hle e => ?passed, fun e => ?idemend⟩
  case bra =>
    have hg := gives_control_then (i := .bra c off) (f := fun u => { u with pc := branchTarget t.pc off }) rfl ha e (by rw [← ha.thr]; rfl) hk
      (fun _ _ => rfl) (congrArg _ e.runs)
    rwa [branchTarget_eq] at hg
  case jmp =>
    have hok : targetOk a = true := (targetOk_iff a).mpr ⟨h57, h0⟩
    exact gives_control_then (i := .jmp c va) (f := fun u => { u with pc := a.setWidth 57 }) rfl ha e (by simp only [ha.thr, a, hok, if_true]; rfl) hk
      (fun _ _ => rfl) (congrArg _ e.runs)
  case nop => exact gives_control_past (i := .nop c) (f := id) rfl ha e (congrArg _ plain) hk (fun _ _ => rfl) (congrArg _ e.runs)
  case exit => exact gives_control_then (i := .exit c) (f := fun u => { u with status := .exited }) rfl ha e rfl hk (fun _ _ => rfl) rfl
  case yield => exact gives_control_past (i := .yield c) (f := fun u => { u with status := .yield (s.clk + 32) }) rfl ha e rfl hk (fun _ _ => rfl) rfl
  case count => exact gives_wait ha e nofun (by simp [bits, a])
  case time => exact gives_wait ha e (fun _ => hlt) rfl
  case passed =>
    have hpast : (true && decide (a.toNat ≤ s.ptp)) = true := by simpa using hle
    exact gives_control_past (i := .wait c true va) (f := id) rfl ha e (by simp only [ha.thr, a, hpast, if_true]; exact congrArg _ plain) hk
      (fun _ _ => rfl) (congrArg _ e.runs)
  case idemend =>
    exact gives_control_past (i := .idemend c) (s0 := s.closeIdem k) (f := id) rfl ha e (congrArg _ (State.updThread_id ..).symm)
      (State.Kept.closeIdem s k) (fun _ _ => rfl) (congrArg _ e.runs)

end Sys2Proof.Machine
end

section
/-! RETURN FROM A FAULT (O29): RFT by one thread (spec/21_faults_and_preemption.md R365; spec/22_debug_and_trace.md R383;
spec/04_encoding_and_assembly.md R64). -/

namespace Sys2Proof.Machine

/-- The record's cause is a watchpoint's (R382). -/
def FRec.ofWatch (r : FRec) : Bool := bits r.w1 7 0 == 0x1D

section
variable {s : State} {q : Issue} {k : Nat} {t u : Thread} {c : Ctl} {skip : Bool}

theorem FRec.unskippable_eq_false_iff (r : FRec) : r.unskippable = false ↔ r.w1.toNat / 2 ^ 12 % 16 ≠ 1 ∧ r.w5 = 0 := by
  rw [FRec.unskippable, Bool.or_eq_false_iff, beq_eq_false_iff_ne, bne_eq_false_iff_eq]
  rfl

/-- Where RFT returns to: the record's PC, or past its instruction (R64, R365). -/
theorem Thread.returnFromFault_pc (t : Thread) (skip : Bool) : (t.returnFromFault t.frec.len skip).pc = t.frec.w0.setWidth 57 +
    if skip then (if t.frec.w6.getLsbD 0 = false then 2 else if t.frec.w6.getLsbD 1 = false then 4 else 8 : Pc) else 0 := by
  cases skip with
  | false => simp [Thread.returnFromFault]
  | true =>
    rw [Thread.returnFromFault, FRec.len, Laws.Length.lengthOf_word, if_pos rfl, if_pos rfl, BitVec.setWidth_add _ _ (by decide)]
    cases t.frec.w6.getLsbD 0
    · rfl
    · cases t.frec.w6.getLsbD 1 <;> rfl

theorem Thread.queueAll_frec (t : Thread) (n c : Nat) (l : List Landing) : (t.queueAll n c l).frec = t.frec := by
  induction l generalizing t with
  | nil => rfl
  | cons x l ih => exact (ih _).trans rfl

theorem Thread.queueAll_reissue (t : Thread) (n c : Nat) (l : List Landing) : (t.queueAll n c l).reissue = t.reissue := by
  induction l generalizing t with
  | nil => rfl
  | cons x l ih => exact (ih _).trans rfl

@[simp] theorem Thread.wentOn_frec (u : Thread) (pc : Pc) : (u.wentOn s q pc).frec = u.frec := by
  unfold Thread.wentOn
  cases q.flag <;> rfl

@[simp] theorem Thread.wentOn_skipWatch (u : Thread) (pc : Pc) : (u.wentOn s q pc).skipWatch = false := by
  unfold Thread.wentOn
  cases q.flag <;> rfl

/-- A thread whose instruction no restore issues again keeps its record as it goes on. -/
theorem Thread.afterControl_frec (h : u.reissue = false) : (u.afterControl s q).frec = u.frec := by
  rw [Thread.afterControl, Thread.wentOn_frec, Thread.succeeded, Thread.queueAll_reissue, h, if_neg nofun, Thread.queueAll_frec]

/-- A thread that passes the watchpoints once, or does not (R383). -/
def Thread.passing (b : Bool) (u : Thread) : Thread := { u with skipWatch := b }

/-- A thread that goes on passes no watchpoint, whatever it did before. -/
theorem Thread.afterControl_passing (u : Thread) (b : Bool) : (u.passing b).afterControl s q = u.afterControl s q := by
  rw [Thread.afterControl, Thread.afterControl, ← Thread.queueAll_comm (g := Thread.passing b) (fun _ _ => rfl)]
  exact Thread.wentOn_of_pc_skipWatch _ (u.queueAll s.nextSeq s.clk q.falls).pc _ b

theorem Thread.passing_of_skipWatch (u : Thread) : u.passing u.skipWatch = u := rfl

end

/-- What RFT does to its thread, or that it is none (R365). -/
def rftBody (c : Ctl) (skip : Bool) : Body := fun s l _ =>
  if !bit (s.thr l).frec.w7 0 || (skip && (s.thr l).frec.unskippable) then .error { cause := .illegal }
  else .ok ((s.classC (issue64 c) l).updThread l fun t => t.returnFromFault (s.thr l).frec.len skip)

/-- RFT by one thread: its issue; where that returned from a WATCH stop to retry, the thread then passes the watchpoints once (R383). -/
theorem execRft_alone {s : State} {k : Nat} {t : Thread} {c : Ctl} {skip : Bool} (ha : s.Alone k t) :
    let x := s.runGang (issue64 c) [] [] false (rftBody c skip)
    exec (.rft c skip) s = .next (if !skip && (issue64 c).holds t && bit t.frec.w7 0 && t.frec.ofWatch && !bit (x.thr k).frec.w7 0 then
      x.updThread k (Thread.passing true) else x) := by
  show execRft c skip s = _
  rw [execRft, ha.gang, List.foldl_cons, List.foldl_nil, ha.thr]
  rfl

section
variable {s : State} {k : Nat} {t : Thread} {c : Ctl} {skip : Bool} (ha : s.Alone k t) (e : (issue64 c).Executes t [] [])
include ha e

/-- RFT without a record to return from, or a skip of what may not be skipped (R365). -/
theorem rft_illegal (h : bit t.frec.w7 0 = false ∨ (skip = true ∧ t.frec.unskippable = true)) :
    exec (.rft c skip) s = .next (s.takeFault k t.pc s.inst (2 ^ laneOf k) { cause := .illegal }) := by
  have hbad : (!bit t.frec.w7 0 || (skip && t.frec.unskippable)) = true := by
    obtain h | ⟨rfl, h⟩ := h <;> simp [h]
  have hno : (!skip && (issue64 c).holds t && bit t.frec.w7 0) = false := by
    obtain h | ⟨rfl, h⟩ := h <;> simp [h]
  rw [execRft_alone ha, hno, runGang_alone ha e, rftBody, ha.thr, if_pos hbad]
  exact congrArg _ (raiseAll_one s k t.pc _ rfl rfl)

/-- RFT from an active record (R365, R383). -/
theorem rft_returns (hre : t.reissue = false) (hact : bit t.frec.w7 0 = true) (hskip : skip = true → t.frec.unskippable = false) :
    s.Gives (.rft c skip) k (((t.returnFromFault t.frec.len skip).afterControl s (issue64 c)).passing (!skip && t.frec.ofWatch)) s.numbered := by
  have hgood : ¬(!bit t.frec.w7 0 || (skip && t.frec.unskippable)) = true := by
    cases skip
    · simp [hact]
    · simp [hact, hskip rfl]
  have hbody : rftBody c skip s k [k] = .ok ((s.classC (issue64 c) k).updThread k fun u => u.returnFromFault t.frec.len skip) := by
    rw [rftBody, ha.thr, if_neg hgood]
  have hbut : (s.runGang (issue64 c) [] [] false (rftBody c skip)).IsBut k ((t.returnFromFault t.frec.len skip).afterControl s (issue64 c)) s.numbered :=
    runGang_control (f := fun u => u.returnFromFault t.frec.len skip) ha e hbody (State.Kept.refl s) (fun _ _ => rfl) (congrArg _ e.runs)
  have hoff : bit ((t.returnFromFault t.frec.len skip).afterControl s (issue64 c)).frec.w7 0 = false := by
    rw [Thread.afterControl_frec (by exact hre)]
    exact Nat.zero_testBit 0
  have hx := execRft_alone (c := c) (skip := skip) ha
  dsimp only at hx
  rw [hbut.thr, hoff, e.guard, hact, Bool.and_true, Bool.and_true, Bool.not_false, Bool.and_true] at hx
  cases hpass : !skip && t.frec.ofWatch with
  | true => exact (hbut.updThread (Thread.passing true)).gives (hx.trans (by rw [hpass, if_pos rfl]))
  | false =>
    have hsame : ((t.returnFromFault t.frec.len skip).afterControl s (issue64 c)).skipWatch = false := Thread.wentOn_skipWatch ..
    rw [← hsame, Thread.passing_of_skipWatch]
    exact hbut.gives (hx.trans (by rw [hpass, if_neg nofun]))
end

/-- Settles O29: RFT is a class C instruction that sets the PC from the record, or raises ILLEGAL. -/
theorem returnFromFault : Obligations.ReturnFromFault := by
  intro s k t c skip ha e hre q r active skippable len pc
  have hskip : r.unskippable = false ↔ skippable := FRec.unskippable_eq_false_iff r
  refine ⟨fun hact hs => ?_, fun h => rft_illegal ha e ?_⟩
  · have hg := rft_returns ha e hre hact fun h => hskip.mpr (hs h)
    have hwatch : r.ofWatch = decide (r.w1.toNat % 256 = 0x1D) := by rw [FRec.ofWatch, bits_low]; rfl
    have hret : t.returnFromFault r.len skip = ({ t with frec := { r with w7 := 0 }, pc := pc } : Thread).passing (!skip && r.ofWatch) := by
      rw [show pc = _ from (t.returnFromFault_pc skip).symm]
      rfl
    rw [hret, Thread.afterControl_passing, hwatch] at hg
    exact hg
  · rwa [← hskip, Bool.not_eq_false, Bool.not_eq_true] at h

end Sys2Proof.Machine
end

section
/-! ADDRESSES AND BIT FIELDS (O4): a field is a run of bits of its register, so each result stands bit by bit
(spec/05_isa_integer_control.md R91-R93, R96, R97, R101). -/

namespace Sys2Proof.Machine

/-! ## Bits of the results -/

/-- The bits of an extended result (R85). -/
theorem getLsbD_extended (sx : Bool) {w : Nat} (x : BitVec w) {i : Nat} (hi : i < 64) :
    (extended sx x).getLsbD i = if i < w then x.getLsbD i else sx && x.msb := by
  cases sx with
  | true => rw [extended, if_pos rfl, BitVec.getLsbD_signExtend, decide_eq_true hi, Bool.true_and, Bool.true_and]
  | false =>
    simp only [extended, Bool.false_eq_true, if_false, BitVec.getLsbD_setWidth, hi, decide_true, Bool.true_and, Bool.false_and]
    split
    next => rfl
    next h => exact BitVec.getLsbD_of_ge x i (Nat.le_of_not_lt h)

/-- BFX extends the field that it takes out (R92). -/
theorem bfxResult_eq_extended (pos len : Nat) (sx : Bool) (a : Word) : bfxResult pos len sx a = extended sx (a.extractLsb' pos len) := by
  rw [bfxResult, narrow_eq_extended, BitVec.ofInt_natCast, ← Nat.shiftRight_eq_div_pow]
  rfl

theorem getLsbD_bfxResult {pos len : Nat} (sx : Bool) (a : Word) (hlen : 1 ≤ len) {i : Nat} (hi : i < 64) :
    (bfxResult pos len sx a).getLsbD i = if i < len then a.getLsbD (pos + i) else sx && a.getLsbD (pos + len - 1) := by
  rw [bfxResult_eq_extended, getLsbD_extended sx _ hi, BitVec.msb_eq_getLsbD_last, BitVec.getLsbD_extractLsb', BitVec.getLsbD_extractLsb']
  have hlast : len - 1 < len := by omega
  have htop : pos + (len - 1) = pos + len - 1 := by omega
  simp only [hlast, htop, decide_true, Bool.true_and]
  split
  next h => rw [decide_eq_true h, Bool.true_and]
  next => rfl

theorem getLsbD_fieldMask (pos len : Nat) {i : Nat} (hi : i < 64) : (fieldMask pos len).getLsbD i = decide (pos ≤ i ∧ i < pos + len) := by
  rw [fieldMask, BitVec.getLsbD_ofNat, Nat.testBit_mul_two_pow, Nat.testBit_two_pow_sub_one, decide_eq_true hi, Bool.true_and, ← Bool.decide_and]
  exact decide_eq_decide.mpr (by omega)

/-- BFI replaces the bits of its field (R93). -/
theorem getLsbD_bfiResult (pos len : Nat) (d a : Word) {i : Nat} (hi : i < 64) :
    (bfiResult pos len d a).getLsbD i = if pos ≤ i ∧ i < pos + len then a.getLsbD (i - pos) else d.getLsbD i := by
  rw [bfiResult, BitVec.getLsbD_or, BitVec.getLsbD_and, BitVec.getLsbD_and, BitVec.getLsbD_not, BitVec.getLsbD_shiftLeft, getLsbD_fieldMask pos len hi]
  by_cases h : pos ≤ i ∧ i < pos + len
  · simp [h, hi, Nat.not_lt.mpr h.1]
  · simp [h, hi]

/-- MOVK replaces one of the four 16-bit parts (R97). -/
theorem getLsbD_movk (val : BitVec 16) (pos : Nat) (d : Word) {i : Nat} (hi : i < 64) :
    (bfiResult (16 * pos) 16 d (val.setWidth 64)).getLsbD i = if i / 16 = pos then val.getLsbD (i % 16) else d.getLsbD i := by
  have hpart : 16 * pos ≤ i ∧ i < 16 * pos + 16 ↔ i / 16 = pos := by omega
  rw [getLsbD_bfiResult _ _ _ _ hi]
  simp only [hpart]
  split
  next h =>
    have hbit : i - 16 * pos = i % 16 := by omega
    have hlow : i % 16 < 64 := by omega
    rw [hbit, BitVec.getLsbD_setWidth, decide_eq_true hlow, Bool.true_and]
  next => rfl

/-! ## The statement -/

/-- Settles O4: each is a fixed-latency operation, whose value is the rule's or has the bits that the rule names. -/
theorem addressAndFields : Obligations.AddressAndFields := by
  intro s k t c vd va vb ha q a b d gives
  refine ⟨fun sh => ?lea, fun p neg => ?sel, fun imm => ?movl, fun val pos => ⟨_, ?movk, fun i hi => getLsbD_movk val pos.toNat d hi⟩,
    fun pos len sx hlen _ => ⟨_, ?bfx, fun i hi => getLsbD_bfxResult sx a hlen hi⟩,
    fun pos len _ _ => ⟨_, ?bfi, fun i hi => getLsbD_bfiResult pos.toNat len.toNat d a hi⟩⟩
  case lea => exact gives_reg _ rfl rfl ha
  case sel => exact gives_reg _ rfl (by cases t.pred p.toNat <;> cases neg <;> rfl) ha
  case movl => exact gives_reg _ rfl rfl ha
  case movk => exact gives_reg _ rfl rfl ha
  case bfx => exact gives_reg _ rfl rfl ha
  case bfi => exact gives_reg _ rfl rfl ha

end Sys2Proof.Machine
end

section
/-! DIVISION AND CLASS V (O8): the values of DIV and REM, and the results that stand outstanding for a latency known at issue
(spec/05_isa_integer_control.md R94; spec/06_isa_floating_point.md R123-R126; spec/02_one_thread.md R35). -/

namespace Sys2Proof.Machine

/-! ## The values of division (R94) -/

section
variable {w : Nat} {a b : Word}

theorem sval_eq_zero_iff : sval w b = 0 ↔ b.setWidth w = 0 := by
  rw [sval_eq_toInt, ← BitVec.toInt_zero (w := w), BitVec.toInt_inj]
  rfl

theorem nval_eq_zero_iff : nval w b = 0 ↔ b.setWidth w = 0 := by
  rw [nval_eq_toNat, Int.natCast_eq_zero, ← BitVec.toNat_inj]
  rfl

theorem ofInt_sval : BitVec.ofInt w (sval w a) = a.setWidth w := by rw [sval_eq_toInt, BitVec.ofInt_toInt]

theorem ofInt_nval : BitVec.ofInt w (nval w a) = a.setWidth w := by rw [nval_eq_toNat, ofInt_toNat]

/-- Division by zero. -/
theorem divRem_of_eq_zero (h : b.setWidth w = 0) (sg : Bool) :
    divRem w sg true a b = extended sg (BitVec.allOnes w) ∧ divRem w sg false a b = extended sg (a.setWidth w) := by
  have hones : BitVec.ofInt w (-1) = BitVec.allOnes w := by rw [BitVec.ofInt_neg]; exact BitVec.neg_one_eq_allOnes
  cases sg with
  | true => simp [divRem, sval_eq_zero_iff.mpr h, narrow_eq_extended, hones, ofInt_sval]
  | false => simp [divRem, nval_eq_zero_iff.mpr h, narrow_eq_extended, hones, ofInt_nval]

theorem divRem_unsigned (h : b.setWidth w ≠ 0) :
    divRem w false true a b = extended false (a.setWidth w / b.setWidth w) ∧
      divRem w false false a b = extended false (a.setWidth w % b.setWidth w) := by
  have hy := mt nval_eq_zero_iff.mp h
  simp only [divRem, narrow_eq_extended, Bool.false_eq_true, if_false, if_true, if_neg hy]
  rw [nval_eq_toNat, nval_eq_toNat, ← Int.ofNat_tdiv, ← Int.ofNat_tmod, ← BitVec.toNat_udiv, ← BitVec.toNat_umod, ofInt_toNat, ofInt_toNat]
  exact ⟨rfl, rfl⟩

theorem divRem_signed (h : b.setWidth w ≠ 0) :
    divRem w true true a b = extended true ((a.setWidth w).sdiv (b.setWidth w)) ∧
      divRem w true false a b = extended true ((a.setWidth w).srem (b.setWidth w)) := by
  have hy := mt sval_eq_zero_iff.mp h
  have hdiv : BitVec.ofInt w ((a.setWidth w).toInt.tdiv (b.setWidth w).toInt) = (a.setWidth w).sdiv (b.setWidth w) :=
    BitVec.eq_of_toInt_eq (by rw [BitVec.toInt_ofInt, BitVec.toInt_sdiv])
  simp only [divRem, narrow_eq_extended, Bool.false_eq_true, if_false, if_true, if_neg hy]
  rw [sval_eq_toInt, sval_eq_toInt, hdiv, ← BitVec.toInt_srem, BitVec.ofInt_toInt]
  exact ⟨rfl, rfl⟩

/-- The one overflow: the most negative number by -1. -/
theorem divRem_overflow (hw : 0 < w) (hx : a.setWidth w = BitVec.intMin w) (hy : b.setWidth w = BitVec.allOnes w) :
    divRem w true true a b = extended true (BitVec.intMin w) ∧ divRem w true false a b = 0 := by
  have hne : b.setWidth w ≠ 0 := fun h => by
    have := congrArg BitVec.toInt (hy.symm.trans h)
    simp [BitVec.toInt_allOnes, hw] at this
  have hrem : (BitVec.intMin w).srem (BitVec.allOnes w) = 0 :=
    BitVec.eq_of_toInt_eq (by simp [BitVec.toInt_srem, BitVec.toInt_allOnes, hw])
  obtain ⟨hq, hr⟩ := divRem_signed (a := a) hne
  rw [hx, hy] at hq hr
  rw [hq, hr, hrem, ← BitVec.neg_one_eq_allOnes, BitVec.intMin_sdiv_neg_one]
  exact ⟨rfl, by rw [extended, if_pos rfl, BitVec.signExtend, BitVec.ofNat_eq_ofNat, BitVec.toInt_zero]; rfl⟩
end

/-! ## Latencies (R94, R124) -/

theorem le_latencyOf (id lo hi x y : Nat) : lo ≤ latencyOf id lo hi x y := Nat.le_add_right ..

theorem latencyOf_le {lo hi : Nat} (h : lo ≤ hi) (id x y : Nat) : latencyOf id lo hi x y ≤ hi := by
  have : Config.latency id x y % (hi - lo + 1) < hi - lo + 1 := Nat.mod_lt _ (Nat.succ_pos _)
  rw [latencyOf]
  omega

/-- The latency of DIV (36) and REM (37) on operand bits. -/
def quotientLatency (op : Nat) (w : Width) (sg : Bool) (x y : Nat) : Nat :=
  latencyOf (op + 256 * widthBits w + (if sg then 65536 else 0)) 6 40 x y

theorem divLatency_eq (op : Nat) (w : Width) (sg : Bool) (a b : Word) :
    divLatency op w sg a b = quotientLatency op w sg (a.toNat % 2 ^ widthBits w) (b.toNat % 2 ^ widthBits w) := rfl

/-- The bounds at .f and at .d of the eight floating instructions of class V, in the order of their opcodes: FDIV, FSQRT, FRCP, FRSQ, FEXP2,
FLOG2, FSIN and FCOS (R124). -/
def floatBounds : Nat → (Nat × Nat) × (Nat × Nat)
  | 1 => ((10, 14), (14, 24))
  | 3 | 4 | 5 => ((8, 12), (12, 20))
  | 6 | 7 => ((12, 24), (16, 40))
  | _ => ((10, 14), (14, 22))

theorem floatBounds_le (j : Nat) : (floatBounds j).1.1 ≤ (floatBounds j).1.2 ∧ (floatBounds j).2.1 ≤ (floatBounds j).2.2 := by
  unfold floatBounds
  split <;> decide

/-- The latency of the j-th of them on operand bits. -/
def floatLatency (j : Nat) (ty : FTy) (x y : Nat) : Nat :=
  match ty with
  | .f => latencyOf (48 + j) (floatBounds j).1.1 (floatBounds j).1.2 x y
  | .d => latencyOf (48 + j + 256) (floatBounds j).2.1 (floatBounds j).2.2 x y

theorem fvarLatency_eq (j : Nat) (ty : FTy) (a b : Word) : fvarLatency (48 + j) (floatBounds j).1 (floatBounds j).2 ty a b =
    floatLatency j ty (a.toNat % 2 ^ (FTy.fmt ty).width) (b.toNat % 2 ^ (FTy.fmt ty).width) := by
  cases ty <;> rfl

theorem le_floatLatency (j : Nat) (ty : FTy) (x y : Nat) :
    (if ty = .f then (floatBounds j).1.1 else (floatBounds j).2.1) ≤ floatLatency j ty x y := by
  cases ty <;> exact le_latencyOf ..

theorem floatLatency_le (j : Nat) (ty : FTy) (x y : Nat) :
    floatLatency j ty x y ≤ if ty = .f then (floatBounds j).1.2 else (floatBounds j).2.2 := by
  cases ty with
  | f => exact latencyOf_le (floatBounds_le j).1 ..
  | d => exact latencyOf_le (floatBounds_le j).2 ..

/-! ## Results that stand outstanding (R33, R35) -/

/-- A result known at issue that lands n clk later. -/
def Pending.known (q : Issue) (n : Nat) (l : List Landing) : Pending := { kind := .result l, sync := q.flag.isNone, lat := (n, some n) }

section
variable {s : State} {k : Nat} {t : Thread} {i : Instr} {q : Issue} {d : Nat} {named reads : List Nat}

/-- An instruction of class V whose result and latency are functions of its thread. -/
theorem gives_known (lat : Thread → Nat) (f : Thread → List Landing) (hx : exec i s = .next (s.resultOp q lat named reads f)) (ha : s.Alone k t)
    (e : q.Executes t named reads) :
    s.Gives i k (t.afterOp s q (Pending.known q (lat t) (f t))) (s.withOp q k t (Pending.known q (lat t) (f t))) :=
  gives_op (Pending.known q (lat t) (f t)) s hx (by rw [ha.thr]; rfl) ha e (State.Kept.refl s)

/-- DIV or REM, whose latency is that of the operands' bits at the width. -/
theorem gives_quotient {a b : Nat} (op : Nat) (w : Width) (sg isDiv : Bool) (hx : exec i s = .next (s.resultOp q
      (fun t => divLatency op w sg (t.reg a) (t.reg b)) [d, a, b] [a, b] fun t => [.reg d (divRem (widthBits w) sg isDiv (t.reg a) (t.reg b)) none]))
    (ha : s.Alone k t) (e : q.Executes t [d, a, b] [a, b]) :
    let p := Pending.known q (quotientLatency op w sg ((t.reg a).toNat % 2 ^ widthBits w) ((t.reg b).toNat % 2 ^ widthBits w))
      [.reg d (divRem (widthBits w) sg isDiv (t.reg a) (t.reg b)) none]
    s.Gives i k (t.afterOp s q p) (s.withOp q k t p) := by
  rw [← divLatency_eq]
  exact (gives_known _ _ hx ha e :)

/-- A floating instruction of class V, whose latency is that of the bits x and y of its sources, y being 0 where it has one source. -/
theorem gives_fvar {srcs : List Nat} {x y : Nat} (j : Nat) (ty : FTy) (f : Thread → Nat)
    (hx : exec i s = .next (s.fvar q (48 + j) (floatBounds j).1 (floatBounds j).2 ty d srcs f))
    (h0 : (srcs[0]?.elim 0 t.reg).toNat % 2 ^ (FTy.fmt ty).width = x) (h1 : (srcs[1]?.elim 0 t.reg).toNat % 2 ^ (FTy.fmt ty).width = y)
    (ha : s.Alone k t) (e : q.Executes t (d :: srcs) srcs) :
    let p := Pending.known q (floatLatency j ty x y) [.reg d (fword (f t)) none]
    s.Gives i k (t.afterOp s q p) (s.withOp q k t p) := by
  rw [← h0, ← h1, ← fvarLatency_eq]
  exact (gives_known _ _ hx ha e :)
end

/-! ## The statement -/

/-- Settles O8: the values of division on the operands' low bits; each instruction leaves a result whose latency is within its bounds. -/
theorem variableLatency : Obligations.VariableLatency := by
  refine ⟨fun w a b => ⟨divRem_of_eq_zero, fun h => ?_, divRem_overflow (widthBits_pos w)⟩, quotientLatency 36, quotientLatency 37, floatLatency, ?_⟩
  · obtain ⟨hdivN, hremN⟩ := divRem_unsigned (a := a) h
    obtain ⟨hdivS, hremS⟩ := divRem_signed (a := a) h
    exact ⟨hdivN, hremN, hdivS, hremS⟩
  · intro s k t c w sg rm ty vd va vb ha q a b gives x raw lo low one
    have quotient : ∀ (op : Nat) (i : Instr) (isDiv : Bool), exec i s = .next (s.resultOp q
          (fun t => divLatency op w sg (t.reg va.toNat) (t.reg vb.toNat)) [vd.toNat, va.toNat, vb.toNat] [va.toNat, vb.toNat] fun t =>
            [.reg vd.toNat (divRem (widthBits w) sg isDiv (t.reg va.toNat) (t.reg vb.toNat)) none]) →
        gives i [va.toNat, vb.toNat] 6 40 (quotientLatency op w sg (low (widthBits w) a) (low (widthBits w) b)) (divRem (widthBits w) sg isDiv a b) :=
      fun op i isDiv hx => ⟨le_latencyOf .., latencyOf_le (by decide) .., gives_quotient op w sg isDiv hx ha⟩
    have single : ∀ (j : Nat) (i : Instr) (f : Nat → Nat), exec i s = .next (s.fvar q (48 + j) (floatBounds j).1 (floatBounds j).2 ty vd.toNat [va.toNat]
          fun t => f ((t.reg va.toNat).toNat % 2 ^ (FTy.fmt ty).width)) →
        one j i (floatBounds j).1.1 (floatBounds j).1.2 (floatBounds j).2.1 (floatBounds j).2.2 (f raw) :=
      fun j i f hx => ⟨le_floatLatency .., floatLatency_le .., gives_fvar j ty _ hx rfl (Nat.zero_mod _) ha⟩
    refine ⟨quotient 36 _ true rfl, quotient 37 _ false rfl, ⟨le_floatLatency 0 .., floatLatency_le 0 .., gives_fvar 0 ty
        (fun t => fdivR ty rm (FTy.val ty (t.reg va.toNat)) (FTy.val ty (t.reg vb.toNat))) rfl rfl rfl ha⟩,
      single 1 _ (fsqrtR ty rm) rfl, single 2 _ (fun r => fdivR ty rm (.fin false 1) ((FTy.fmt ty).value r)) rfl,
      single 3 _ (approxR .rsq ty) rfl, single 4 _ (approxR .exp2 ty) rfl, single 5 _ (approxR .log2 ty) rfl, single 6 _ (approxR .sin ty) rfl,
      single 7 _ (approxR .cos ty) rfl⟩

end Sys2Proof.Machine
end

section
/-! ONE-SOURCE FLOATING INSTRUCTIONS AND CONVERSIONS (O7): each is a fixed-latency operation on its operand's low bits, and a change of sign is
one of the encoding's top bit (spec/06_isa_floating_point.md R117, R119-R121, R127-R134). -/

namespace Sys2Proof.Machine

/-! ## Changes of sign (R117) -/

section
variable {n : Nat}

/-- The encoding with its top bit 0. -/
theorem toNat_and_not_topBit (x : BitVec (n + 1)) : (x &&& ~~~(1#(n + 1) <<< n)).toNat = x.toNat % 2 ^ n := by
  refine Nat.eq_of_testBit_eq fun i => ?_
  rw [BitVec.testBit_toNat, ← BitVec.twoPow_eq, BitVec.getLsbD_and, BitVec.getLsbD_not, BitVec.getLsbD_twoPow, Nat.testBit_mod_two_pow,
    BitVec.testBit_toNat]
  obtain hi | rfl | hi := Nat.lt_trichotomy i n
  · simp [hi, Nat.lt_succ_of_lt hi, Nat.ne_of_gt hi]
  · simp
  · have hge : n + 1 ≤ i := hi
    simp [BitVec.getLsbD_of_ge x i hge, Nat.not_lt_of_gt hi]

/-- The encoding with its top bit inverted. -/
theorem toNat_xor_topBit (x : BitVec (n + 1)) : (x ^^^ (1#(n + 1) <<< n)).toNat = (x.toNat + 2 ^ n) % 2 ^ (n + 1) := by
  refine Nat.eq_of_testBit_eq fun i => ?_
  rw [BitVec.testBit_toNat, ← BitVec.twoPow_eq, BitVec.getLsbD_xor, BitVec.getLsbD_twoPow, Nat.testBit_mod_two_pow, Nat.add_comm x.toNat]
  obtain hi | rfl | hi := Nat.lt_trichotomy i n
  · simp [Nat.testBit_two_pow_add_gt hi, BitVec.testBit_toNat, Nat.lt_succ_of_lt hi, Nat.ne_of_gt hi]
  · simp [Nat.testBit_two_pow_add_eq, BitVec.testBit_toNat]
  · have hge : n + 1 ≤ i := hi
    simp [BitVec.getLsbD_of_ge x i hge, Nat.not_lt.mpr hge, Nat.ne_of_lt hi]
end

/-! ## Operands at their types (R113) -/

/-- A .d operand is the whole register. -/
theorem FTy.low_d (a : Word) : a.toNat % 2 ^ (FTy.fmt .d).width = a.toNat := BitVec.toNat_mod_cancel a

/-- A .f operand is the register's low word. -/
theorem FTy.low_f (a : Word) : a.toNat % 2 ^ (FTy.fmt .f).width = (a.setWidth 32).toNat := (BitVec.toNat_setWidth 32 a).symm

theorem FTy.val_d (a : Word) : FTy.val .d a = Fmt.d.value a.toNat := congrArg Fmt.d.value (FTy.low_d a)

theorem FTy.val_f (a : Word) : FTy.val .f a = Fmt.s.value (a.setWidth 32).toNat := congrArg Fmt.s.value (FTy.low_f a)

theorem fword_toNat {n : Nat} (x : BitVec n) : fword x.toNat = x.setWidth 64 := BitVec.ofNat_toNat 64 x

theorem nval_64 (v : Word) : nval 64 v = (v.toNat : Int) := by rw [nval_eq_toNat, BitVec.setWidth_eq]

/-- FCVT of a .f value to .d rounds it into that format (R129). -/
theorem fcvtR_d_f (rm : Rm) (sat : Bool) (a : Word) : fcvtR .d .f rm sat a = fword (Fmt.d.convert sat rm (Fmt.s.value (a.setWidth 32).toNat)) :=
  congrArg (fun v => fword (Fmt.d.convert sat rm v)) (FTy.val_f a)

/-- FCVT of a .d value to .f rounds it into that format (R129). -/
theorem fcvtR_f_d (rm : Rm) (sat : Bool) (a : Word) : fcvtR .f .d rm sat a = fword (Fmt.s.convert sat rm (Fmt.d.value a.toNat)) :=
  congrArg (fun v => fword (Fmt.s.convert sat rm v)) (FTy.val_d a)

/-! ## The issue of one -/

section
variable {s : State} {k : Nat} {t : Thread} {i : Instr} {q : Issue} {lat d a : Nat}

/-- An instruction on one register's word. -/
theorem gives_rr (f : Word → Word) {v : Word} (hx : exec i s = .next (s.rr q lat d a f)) (hv : f (t.reg a) = v) (ha : s.Alone k t)
    (e : q.Executes t [d, a] [a]) : s.Gives i k (t.afterFixed s q lat [.reg d v none]) s.numbered :=
  hv ▸ gives_fixed lat (fun t => [.reg d (f (t.reg a)) none]) hx ha e

/-- An instruction on one operand's bits, which are n. -/
theorem gives_frr (y : FTy) (f : Nat → Nat) {n : Nat} {v : Word} (hx : exec i s = .next (s.frr q lat y d a f))
    (hn : (t.reg a).toNat % 2 ^ (FTy.fmt y).width = n) (hv : fword (f n) = v) (ha : s.Alone k t) (e : q.Executes t [d, a] [a]) :
    s.Gives i k (t.afterFixed s q lat [.reg d v none]) s.numbered :=
  gives_rr (fun w => fword (f (w.toNat % 2 ^ (FTy.fmt y).width))) hx (by rw [hn, hv]) ha e
end

/-! ## The statement -/

/-- Settles O7: sign changes act on the encoding's top bit, the others on the operand's bits or value. -/
theorem floatOneSource : Obligations.FloatOneSource := by
  intro s k t c32 c rm ty dst src sat vd va vb ha gives a lo i32
  have word : ∀ {q i lat v} (f : Word → Word), exec i s = .next (s.rr q lat vd.toNat va.toNat f) → f a = v → gives q i lat v :=
    fun f hx hv => gives_rr f hx hv ha
  have double : ∀ {i lat v} (f : Nat → Nat), exec i s = .next (s.frr (issue32 c32) lat .d vd.toNat va.toNat f) → fword (f a.toNat) = v →
      i32 i lat v := fun f hx hv => gives_frr .d f hx (FTy.low_d a) hv ha
  have single : ∀ {i lat v} (f : Nat → Nat), exec i s = .next (s.frr (issue32 c32) lat .f vd.toNat va.toNat f) → fword (f lo.toNat) = v →
      i32 i lat v := fun f hx hv => gives_frr .f f hx (FTy.low_f a) hv ha
  refine ⟨double _ rfl ?absD, double _ rfl ?negD, single _ rfl ?absF, single _ rfl ?negF,
    double (fclass Fmt.d) rfl rfl, single (fclass Fmt.s) rfl rfl,
    word _ rfl (congrArg fgetexp (FTy.val_d a)), word _ rfl (congrArg fgetexp (FTy.val_f a)),
    double (fgetman Fmt.d) rfl rfl, single (fgetman Fmt.s) rfl rfl,
    word _ rfl (fcvtR_d_f .rne false a), word _ rfl (fcvtR_f_d .rne false a),
    word _ rfl (congrArg (fun v => fword (i2f Fmt.d false .rne v)) (sval_64 a)),
    word _ rfl (congrArg (fun v => fword (i2f Fmt.d false .rne v)) (nval_64 a)),
    word _ rfl (congrArg (f2i 64 true .rne) (FTy.val_d a)), word _ rfl (congrArg (f2i 64 false .rne) (FTy.val_d a)),
    gives_frr ty (frndR ty rm) rfl rfl rfl ha, word (fcvtR dst src rm sat) rfl rfl, word _ rfl rfl, word _ rfl rfl,
    fun kind => ⟨?pack, ?unpack⟩⟩
  case absD => rw [← toNat_and_not_topBit (n := 63) a, fword_toNat, BitVec.setWidth_eq]
  case negD => rw [← toNat_xor_topBit (n := 63) a, fword_toNat, BitVec.setWidth_eq]
  case absF => rw [← toNat_and_not_topBit (n := 31) lo, fword_toNat]
  case negF => rw [← toNat_xor_topBit (n := 31) lo, fword_toNat]
  case pack =>
    intro e
    have h := gives_fixed (i := .fpack c kind ty rm vd va vb) 4
      (fun t => [.reg vd.toNat (fpackR kind ty rm (((List.range (PackKind.count kind)).map (va.toNat + ·)).map t.reg) (t.reg vb.toNat)) none]) rfl ha e
    rwa [List.map_map] at h
  case unpack =>
    intro e
    exact gives_fixed (i := .funpack c kind ty rm vd va vb) 4
      (fun t => (List.range (PackKind.count kind)).map fun j => .reg (vd.toNat + j) (funpackR kind ty rm (t.reg va.toNat) (t.reg vb.toNat) j) none) rfl ha e

end Sys2Proof.Machine
end

section
/-! LOADS, STORES AND THE SCRATCHPAD (O10, O11, O12): an access that passes its checks stands outstanding for its thread
(spec/07_isa_memory_access.md R135-R143; spec/10_isa_synchronisation.md R203, R209; spec/14_translation_and_versions.md R264). -/

namespace Sys2Proof.Machine

/-- The operation of an instruction whose page is away under a predicate other than p7: the zeros that its form names, and a false
predicate (R137). -/
def Pending.away (q : Issue) (zeros : List Landing) (pr : PReg) : Pending := { kind := .result (zeros ++ [.pred pr.toNat false]), sync := q.flag.isNone }

section
variable {s : State} {k : Nat} {t : Thread} {i : Instr} {q : Issue} {c : Ctl} {off : BitVec 12} {pr : PReg} {vd va vb src : Reg} {lf : Leaf} {x : Access}

/-- A page that is away, under another predicate than p7, for an instruction with a result (R137). -/
theorem awayOp_zeros {kind : Kind} {a : Word} {zero : Landing} {step : Nat} (hpr : pr.toNat ≠ 7) :
    let p := Pending.away q [zero] pr
    s.awayOp q k [k] pr.toNat kind a [zero] step = .ok (s.startOp q p.sync p.ord k [k] p.lat p.kind p.also) := if_neg hpr

variable (ha : s.Alone k t)
include ha

/-! ## Loads -/

section
variable {hint n : Nat} {sgn : Bool} (hx : exec i s = .next (s.execLoad c off pr hint n sgn vd va)) (e : (issue64 c).Executes t [vd.toNat, va.toNat] [va.toNat])
  (hl : s.check4 k t (t.reg va.toNat + off.signExtend 64) n n .read true false .load = .ok lf)
include hx e hl

theorem gives_load (hp : s.place (Agent.core k) (s.ctxOf t) (t.reg va.toNat + off.signExtend 64) n lf = .ok x) :
    let q := issue64 c
    let p : Pending := { kind := .load { x with hint := hint } sgn vd.toNat pr.toNat, sync := q.flag.isNone || s.slow x false }
    s.Gives i k (t.afterOp s q p) ((s.used k t (t.reg va.toNat + off.signExtend 64)).withOp q k t p) := by
  intro q p
  exact gives_op p _ hx (by simp only [ha.thr, Thread.ea, hl, hp]; rfl) ha e (State.Kept.used ..)

theorem gives_load_away (hp : s.place (Agent.core k) (s.ctxOf t) (t.reg va.toNat + off.signExtend 64) n lf = .error .away) (hpr : pr.toNat ≠ 7) :
    let p := Pending.away (issue64 c) [.reg vd.toNat 0 none] pr
    s.Gives i k (t.afterOp s (issue64 c) p) (s.withOp (issue64 c) k t p) := by
  intro p
  exact gives_op p s hx (by simp only [ha.thr, Thread.ea, hl, hp, awayOp_zeros hpr]; rfl) ha e (State.Kept.refl s)

end

/-- LDV of a step that its region retains (R258, R264). -/
theorem gives_ldv {size : LdSize} {f : Nat} (e : (issue64 c).Executes t [vd.toNat, va.toNat, vb.toNat] [va.toNat, vb.toNat])
    (hl : s.check4 k t (t.reg va.toNat) (ldvSize size).1 (ldvSize size).1 .read true false .versioned = .ok lf) (hv : lf.versioned = true)
    (ho : (s.regionWO (some (dieOf k)) (s.regionOf lf.record)).2 ≤ (t.reg vb.toNat).toNat % 2 ^ 32)
    (hw : (t.reg vb.toNat).toNat % 2 ^ 32 < (s.regionWO (some (dieOf k)) (s.regionOf lf.record)).1) (hres : lf.resident = true)
    (hf : s.resolve lf.record ((t.reg vb.toNat).toNat % 2 ^ 32) = some f) (hd : isDevice f = true) :
    let q := issue64 c
    let b := t.reg va.toNat
    let p : Pending :=
      { kind := .load { ctx := s.ctxOf t, va := b.toNat, pa := f + b.toNat % 65536, size := (ldvSize size).1, key := lf.key, policy := 0 } (ldvSize size).2 vd.toNat pr.toNat
        sync := q.flag.isNone }
    s.Gives (.ldv c size pr vd va vb) k (t.afterOp s q p) ((s.used k t b).withOp q k t p) := by
  intro q b p
  exact gives_op p _ rfl (by
    simp only [ha.thr, hl, hv, Bool.not_true, Bool.false_eq_true, if_false, if_neg hw.not_gt, if_neg hw.ne, if_neg ho.not_gt, hf, hd, hres]
    rfl) ha e (State.Kept.used ..)

/-! ## Stores -/

theorem gives_store {hint n : Nat} (hx : exec i s = .next (s.execStore c off hint n src va)) (e : (issue64 c).Executes t [src.toNat, va.toNat] [src.toNat, va.toNat])
    (hc : s.check5 k t (t.reg va.toNat + off.signExtend 64) n n .write false true .store = .ok x) :
    let q := issue64 c
    let p : Pending := { kind := .store { x with hint := hint } (t.reg src.toNat), sync := s.slow x true }
    s.Gives i k (t.afterOp s q p) (((s.used k t (t.reg va.toNat + off.signExtend 64)).dropPeerCopy x.pa).withOp q k t p) := by
  intro q p
  exact gives_op p _ hx (by simp only [ha.thr, Thread.ea, hc]; rfl) ha e ((State.Kept.used ..).trans (State.Kept.dropPeerCopy ..))

theorem gives_signal {sc : Scope} {fill : Bool} (e : (issue64 c).Executes t [va.toNat, vb.toNat] [va.toNat, vb.toNat])
    (hc : s.check5 k t (t.reg va.toNat) 8 8 .write false true .store = .ok x) :
    let q := issue64 c
    let p : Pending := { kind := .signal x fill (t.reg vb.toNat), sync := q.flag.isNone || s.slow x true, ord := { rel := true, scope := sc } }
    s.Gives (.signal c sc fill va vb) k (t.afterOp s q p) ((((s.closeIdem k).used k t (t.reg va.toNat)).dropPeerCopy x.pa).withOp q k t p) := by
  intro q p
  exact gives_op p _ rfl (by simp only [ha.thr, hc]; rfl) ha e
    (((State.Kept.closeIdem s k).trans (State.Kept.used ..)).trans (State.Kept.dropPeerCopy ..))

/-! ## The scratchpad -/

omit ha in
/-- An aligned item inside the block's allocation (R143). -/
theorem State.spadCheck_inside {b : Block} {o : Word} {n : Nat} {kind : Kind} (hb : s.blocks.find t.blk = some b) (hm : o.toNat % n = 0)
    (hi : o.toNat + n ≤ b.scratchBytes) : s.spadCheck t o n kind = .ok o.toNat := by
  simp [State.spadCheck, hb, hm, hi.not_gt]

variable {b : Block} (hb : s.blocks.find t.blk = some b)
include hb

section
variable {n : Nat} (hm : (t.reg va.toNat + off.signExtend 64).toNat % n = 0) (hi : (t.reg va.toNat + off.signExtend 64).toNat + n ≤ b.scratchBytes)
include hm hi

theorem gives_lds {sgn : Bool} (hx : exec i s = .next (s.execLds c off n sgn vd va)) (e : (issue64 c).Executes t [vd.toNat, va.toNat] [va.toNat]) :
    let q := issue64 c
    let p : Pending := { kind := .lds t.blk (t.reg va.toNat + off.signExtend 64).toNat n sgn vd.toNat, sync := q.flag.isNone }
    s.Gives i k (t.afterOp s q p) (s.withOp q k t p) := by
  intro q p
  exact gives_op p s hx (by simp only [ha.thr, Thread.ea, State.spadCheck_inside hb hm hi]; rfl) ha e (State.Kept.refl s)

theorem gives_sts (hx : exec i s = .next (s.execSts c off n src va)) (e : (issue64 c).Executes t [src.toNat, va.toNat] [src.toNat, va.toNat]) :
    let q := issue64 c
    let p : Pending := { kind := .sts t.blk (t.reg va.toNat + off.signExtend 64).toNat n (t.reg src.toNat), sync := false }
    s.Gives i k (t.afterOp s q p) (s.withOp q k t p) := by
  intro q p
  exact gives_op p s hx (by simp only [ha.thr, Thread.ea, State.spadCheck_inside hb hm hi]; rfl) ha e (State.Kept.refl s)

end

/-- ATOMS by one thread: no other member of its gang has a step on the item that it could join (R203, R204). -/
theorem gives_atoms {op : AtomOp} {ty : AtomTy} {four : Bool} {ord : AOrder} (hm : (t.reg va.toNat).toNat % (if four then 4 else 8) = 0)
    (hi : (t.reg va.toNat).toNat + (if four then 4 else 8) ≤ b.scratchBytes)
    (e : (issue64 c).Executes t [vd.toNat, va.toNat, vb.toNat] [va.toNat, vb.toNat]) :
    let q := issue64 c
    let p : Pending :=
      { kind := .atoms t.blk (t.reg va.toNat).toNat (if four then 4 else 8) (.op op ty) [{ thr := k, x := t.reg vb.toNat, dst := some vd.toNat, num := s.nextSeq }]
        sync := q.flag.isNone, ord := { acq := AOrder.acq ord, rel := AOrder.rel ord, scope := .blk } }
    s.Gives (.atoms c op ty four ord vd va vb) k (t.afterOp s q p) ((s.closeIdem k).withOp q k t p) := by
  intro q p
  refine gives_op p _ rfl ?_ ha e (State.Kept.closeIdem s k)
  simp only [ha.thr, atomSize, State.spadCheck_inside hb hm hi]
  split
  next e' hfound =>
    have hjoins := List.find?_some hfound
    split at hjoins
    · obtain ⟨⟨-, hne⟩, hk⟩ : (_ ∧ e'.2.thr ≠ k) ∧ e'.2.thr = k := by simpa [ha.gang] using hjoins
      exact absurd hk hne
    · exact nomatch hjoins
  · rfl

end

/-- Settles O10: what the checks and the place of a load give is the operation that its body leaves outstanding. -/
theorem loads : Obligations.Loads := by
  unfold Obligations.Loads
  intro s k t c off pr hint vd va vb ha q a ctx away load
  have each : ∀ (i : Instr) (n : Nat) (sgn : Bool), exec i s = .next (s.execLoad c off pr hint.toCode.toNat n sgn vd va) → load i n sgn :=
    fun i n sgn hx lf e hl => ⟨fun x hp => gives_load ha hx e hl hp, fun hp hpr => gives_load_away ha hx e hl hp hpr⟩
  refine ⟨each _ 1 false rfl, each _ 2 false rfl, each _ 4 false rfl, each _ 8 false rfl, each _ 1 true rfl, each _ 2 true rfl, each _ 4 true rfl, ?_⟩
  intro size lf f b n st wo e hl hv ho hw hres hf hd
  exact gives_ldv ha e hl hv ho hw hres hf hd

/-- Settles O11: the store that passes its checks is the operation that its body leaves outstanding, after this package's copy of a peer's
line is dropped. -/
theorem stores : Obligations.Stores := by
  unfold Obligations.Stores
  intro s k t c off hint sc fill src va vb ha q a b store
  have each : ∀ (i : Instr) (n : Nat), exec i s = .next (s.execStore c off hint.toCode.toNat n src va) → store i n :=
    fun i n hx x e hc => gives_store ha hx e hc
  exact ⟨each _ 1 rfl, each _ 2 rfl, each _ 4 rfl, each _ 8 rfl, fun x e hc => gives_signal ha e hc⟩

/-- Settles O12: an item inside the allocation passes the scratchpad's checks. -/
theorem scratchpad : Obligations.Scratchpad := by
  unfold Obligations.Scratchpad
  intro s k t b c off vd va vb ha hb q o fits lds sts
  have load : ∀ (i : Instr) (n : Nat) (sgn : Bool), exec i s = .next (s.execLds c off n sgn vd va) → lds i n sgn :=
    fun i n sgn hx e hf => gives_lds ha hb hf.1 hf.2 hx e
  have store : ∀ (i : Instr) (n : Nat), exec i s = .next (s.execSts c off n vd va) → sts i n :=
    fun i n hx e hf => gives_sts ha hb hf.1 hf.2 hx e
  exact ⟨load _ 1 false rfl, load _ 2 false rfl, load _ 4 false rfl, load _ 8 false rfl, load _ 1 true rfl, load _ 2 true rfl, load _ 4 true rfl,
    store _ 1 rfl, store _ 2 rfl, store _ 4 rfl, store _ 8 rfl, fun op ty four ord e hf => gives_atoms ha hb hf.1 hf.2 e⟩

end Sys2Proof.Machine
end

section
/-! THE FULL/EMPTY FORMS, AND CACHE CONTROL (O13, O15): what each leaves outstanding, or done in its issue clk
(spec/07_isa_memory_access.md R144-R150; spec/13_consistency_model.md R239; spec/14_translation_and_versions.md R265). -/

namespace Sys2Proof.Machine

/-- What every step of a fold leaves as it was, the fold does. -/
theorem foldl_fixes {σ β γ : Type} {g : σ → γ} {f : σ → β → σ} (hf : ∀ x b, g (f x b) = g x) (l : List β) (s : σ) : g (l.foldl f s) = g s := by
  induction l generalizing s with
  | nil => rfl
  | cons b l ih => exact (ih (f s b)).trans (hf s b)

/-! ## The full/empty forms -/

section
variable {s : State} {k : Nat} {t : Thread} {i : Instr} {c : Ctl} {off : BitVec 12} {pr : PReg} {va vb : Reg} {lf : Leaf} {x : Access} (ha : s.Alone k t)
include ha

/-- A full/empty form on a word of device memory; LDW and FEQ leave the region open (R148-R150). -/
theorem gives_form {o : FeOp} {named reads : List Nat} {need : Need} {rd wr waits : Bool} {ord : Order} {src : Option Nat} {dst : Nat} {zeros : List Landing}
    (hx : exec i s = .next (s.execFe c off pr o named reads need rd wr waits ord src dst zeros va)) (closes : Bool)
    (hcl : (o = .ldw ∨ o = .feq) ↔ closes = false) (e : (issue64 c).Executes t (va.toNat :: named) (va.toNat :: reads))
    (hl : s.check4 k t (t.reg va.toNat + off.signExtend 64) 8 8 need rd wr .fe = .ok lf)
    (hp : s.place (Agent.core k) (s.ctxOf t) (t.reg va.toNat + off.signExtend 64) 8 lf = .ok x) (hd : isDevice x.pa = true) :
    let q := issue64 c
    let p : Pending := { kind := .feform x o (src.elim 0 t.reg) dst pr.toNat, sync := q.flag.isNone || waits || s.slow x wr, ord := ord }
    s.Gives i k (t.afterOp s q p) (((if closes then s.closeIdem k else s).used k t (t.reg va.toNat + off.signExtend 64)).withOp q k t p) := by
  intro q p
  have hk : s.Kept (if closes then s.closeIdem k else s) := by
    split
    · exact State.Kept.closeIdem s k
    · exact State.Kept.refl s
  refine gives_op p _ hx ?_ ha e (hk.trans (State.Kept.used ..))
  simp only [ha.thr, Thread.ea, hl, hp, hd, if_true, hcl]
  cases closes <;> cases src <;> rfl

end

/-- Settles O13: each form is the one execFe with the fields that its row gives. -/
theorem fullEmptyForms : Obligations.FullEmptyForms := by
  unfold Obligations.FullEmptyForms
  intro s k t c off pr pd sc vd va ha q a form
  have each : ∀ (src : Option Nat) (zeros : List Landing) {i : Instr} {o : FeOp} {named reads : List Nat} {need : Need} {rd wr waits acq rel closes : Bool} {dst : Nat},
      exec i s = .next (s.execFe c off pr o named reads need rd wr waits { acq := acq, rel := rel, scope := sc } src dst zeros va) →
      ((o = .ldw ∨ o = .feq) ↔ closes = false) → form i o named reads need rd wr waits acq rel closes (src.elim 0 t.reg) dst :=
    fun _ _ _ _ _ _ _ _ _ _ _ _ closes _ hx hcl lf x e hl hp hd => gives_form ha hx closes hcl e hl hp hd
  exact ⟨each none [.reg vd.toNat 0 none] rfl (by decide), each none [.reg vd.toNat 0 none] rfl (by decide), each (some vd.toNat) [] rfl (by decide),
    each (some vd.toNat) [] rfl (by decide), each none [] rfl (by decide), each none [.pred pd.toNat false] rfl (by decide)⟩

/-! ## TOUCH, CCTL and FENCE -/

section
variable {s : State} {k : Nat} {t : Thread} {c : Ctl} {off : BitVec 12} {pr : PReg} {va vb : Reg} {lf : Leaf} {x : Access} (ha : s.Alone k t)
include ha

section
variable (e : (issue64 c).Executes t [va.toNat] [va.toNat])
include e

section
variable (hl : s.check4 k t (t.reg va.toNat + off.signExtend 64) 1 1 .read true false .load = .ok lf)
include hl

theorem gives_touch_resident (hr : lf.resident = true) :
    let q := issue64 c
    let p : Pending := { kind := .result [.pred pr.toNat true], sync := q.flag.isNone, lat := (0, some 1) }
    s.Gives (.touch c off pr va) k (t.afterOp s q p) (s.withOp q k t p) := by
  intro q p
  exact gives_op p s rfl (by simp only [ha.thr, Thread.ea, hl, State.touchStart, hr, if_true]; rfl) ha e (State.Kept.refl s)

omit ha e hl in
/-- A request stands as well whether it is made before or after its operation enters. -/
theorem startOp_resReqs (s : State) (q : Issue) (sync : Bool) (ord : Order) (kind : OpKind) (r : ResReq) :
    let s1 := s.startOp q sync ord k [k] (0, none) kind
    ({ s1 with resReqs := s1.resReqs ++ [r] } : State) = ({ s with resReqs := s.resReqs ++ [r] } : State).startOp q sync ord k [k] (0, none) kind := by
  cases sync <;> rfl

/-- A page that is not resident is asked for at the service block's software (R144, R430). -/
theorem gives_touch_asks (hr : lf.resident = false) (hb : bit (s.c0Of t) 24 = false) :
    let q := issue64 c
    let p : Pending := { kind := .touch (t.reg va.toNat + off.signExtend 64).toNat (s.ctxOf t) pr.toNat none, sync := q.flag.isNone }
    s.Gives (.touch c off pr va) k (t.afterOp s q p)
      { s.withOp q k t p with
        resReqs := s.resReqs ++ [{ ctx := s.ctxOf t, va := (t.reg va.toNat + off.signExtend 64).toNat, op := some s.nextSeq }] } := by
  intro q p
  refine gives_op p { s with resReqs := s.resReqs ++ [{ ctx := s.ctxOf t, va := (t.reg va.toNat + off.signExtend 64).toNat, op := some s.nextSeq }] } rfl ?_ ha e
    ⟨rfl, rfl, rfl, rfl, rfl, rfl⟩
  simp only [ha.thr, Thread.ea, hl, State.touchStart, hr, hb, Bool.false_eq_true, if_false]
  rw [startOp_resReqs]

/-- CCTL on a line that its cache holds acts when nothing holds it back; on another it is done (R146, R147). -/
theorem gives_cctl {op : CctlOp} (hop : op ≠ .iinvall)
    (hp : s.place (Agent.core k) (s.ctxOf t) (t.reg va.toNat + off.signExtend 64) 1 lf = .ok x) :
    let q := issue64 c
    let used := s.used k t (t.reg va.toNat + off.signExtend 64)
    let p : Pending := if used.cctlMeets (coreOf k) op x.pa then { kind := .cctl op x.pa, sync := q.flag.isNone }
      else { kind := .result [], sync := q.flag.isNone, lat := (0, some 1) }
    s.Gives (.cctl c off op va) k (t.afterOp s q p) (used.withOp q k t p) := by
  intro q used p
  refine gives_op p used rfl ?_ ha e (State.Kept.used ..)
  simp only [ha.thr, Thread.ea, hl, hp, if_neg hop]
  cases hm : used.cctlMeets (coreOf k) op x.pa <;> simp only [p, hm, used] <;> rfl

theorem gives_cctl_away {op : CctlOp} (hop : op ≠ .iinvall) (hr : lf.resident = false) :
    let q := issue64 c
    let p : Pending := { kind := .result [], sync := q.flag.isNone, lat := (0, some 1) }
    s.Gives (.cctl c off op va) k (t.afterOp s q p) (s.withOp q k t p) := by
  intro q p
  have hp : s.place (Agent.core k) (s.ctxOf t) (t.reg va.toNat + off.signExtend 64) 1 lf = .error .away := by simp [State.place, hr]
  exact gives_op p s rfl (by simp only [ha.thr, Thread.ea, hl, hp, if_neg hop]; rfl) ha e (State.Kept.refl s)

end

theorem gives_iinvall (hh : (t.reg va.toNat + off.signExtend 64).extractLsb' 57 7 = 0)
    (hw : t.skipWatch = true ∨ s.watchHits k t (t.reg va.toNat + off.signExtend 64) 1 true false = 0) :
    let q := issue64 c
    let p : Pending := { kind := .cctl .iinvall 0, sync := q.flag.isNone }
    s.Gives (.cctl c off .iinvall va) k (t.afterOp s q p) (s.withOp q k t p) := by
  intro q p
  have hc : s.checkUntranslated k t (t.reg va.toNat + off.signExtend 64) = none := by
    rcases hw with hw | hw <;> simp [State.checkUntranslated, (bits_63_57 _).mpr hh, hw]
  exact gives_op p s rfl (by simp only [ha.thr, Thread.ea, if_true, hc]; rfl) ha e (State.Kept.refl s)

end

theorem gives_fence (kind : FenceKind) (sc : Scope) (e : (issue64 c).Executes t [] []) :
    let p : Pending := { kind := .fence kind sc, sync := true }
    s.Gives (.fence c kind sc) k (t.afterOp s (issue64 c) p) (s.withOp (issue64 c) k t p) :=
  gives_op { kind := .fence kind sc, sync := true } s rfl rfl ha e (State.Kept.refl s)

/-! ## VRETIRE -/

omit ha in
/-- A walk sends Heartwood nothing. -/
theorem State.used_regCmds (s : State) (k : Nat) (t : Thread) (a : Word) : (s.used k t a).regCmds = s.regCmds := by
  have hserve : ∀ (x : State) pa, (x.classServe (dieOf k) pa false).regCmds = x.regCmds := fun x pa => by
    unfold State.classServe; split <;> rfl
  have htouch : ∀ (x : State) ctx pa, (x.classTouch (dieOf k) ctx pa).regCmds = x.regCmds := fun x ctx pa => by
    unfold State.classTouch; split <;> rfl
  have hcache : ∀ (x : State) ag ctx va l, (x.cacheLeaf ag ctx va l).regCmds = x.regCmds := fun x ag ctx va l => by
    unfold State.cacheLeaf; dsimp only; split <;> split <;> rfl
  unfold State.used
  split
  · rw [hcache]
    exact foldl_fixes (g := State.regCmds) (fun x pa => (htouch _ _ _).trans (hserve x pa)) _ s
  · rfl

section
variable (e : (issue64 c).Executes t [va.toNat, vb.toNat] [va.toNat, vb.toNat])
  (hl : s.check4 k t (t.reg va.toNat) 1 1 .write false false .versioned = .ok lf) (hv : lf.versioned = true)
  (hw : (t.reg vb.toNat).toNat % 2 ^ 32 < (s.regionWO (some (dieOf k)) (s.regionOf lf.record)).1)
include e hl hv hw

/-- A step at or below O is retired already. -/
theorem gives_vretire_done (ho : (t.reg vb.toNat).toNat % 2 ^ 32 ≤ (s.regionWO (some (dieOf k)) (s.regionOf lf.record)).2) :
    let q := issue64 c
    let p : Pending := { kind := .result [], sync := q.flag.isNone }
    s.Gives (.vretire c va vb) k (t.afterOp s q p) (s.withOp q k t p) := by
  intro q p
  exact gives_op p s rfl (by
    simp only [ha.thr, hl, hv, Bool.not_true, Bool.false_eq_true, if_false, if_neg hw.not_ge, if_pos ho]; rfl) ha e (State.Kept.refl s)

omit ha e hl hv hw in
theorem startOp_regCmds (s : State) (q : Issue) (sync : Bool) (ord : Order) (kind : OpKind) (n : Nat) (r : RegCmd) :
    let s1 := s.startOp q sync ord k [k] (0, none) kind
    ({ s1 with regCmds := s1.regCmds.put n r } : State) = ({ s with regCmds := s.regCmds.put n r } : State).startOp q sync ord k [k] (0, none) kind := by
  cases sync <;> rfl

/-- A step between O and W becomes a command of its region at Heartwood. -/
theorem gives_vretire (ho : (s.regionWO (some (dieOf k)) (s.regionOf lf.record)).2 < (t.reg vb.toNat).toNat % 2 ^ 32) :
    let q := issue64 c
    let st := (t.reg vb.toNat).toNat % 2 ^ 32
    let reg := s.regionOf lf.record
    let p : Pending := { kind := .vretire reg st, sync := q.flag.isNone }
    s.Gives (.vretire c va vb) k (t.afterOp s q p)
      { (s.used k t (t.reg va.toNat)).withOp q k t p with
        regCmds := s.regCmds.put s.nextSeq { region := reg, w := (s.regionWO (some (dieOf k)) reg).1, o := st, acks := [] } } := by
  intro q st reg p
  have hu := State.Kept.used s k t (t.reg va.toNat)
  refine gives_op p
    { s.used k t (t.reg va.toNat) with regCmds := s.regCmds.put s.nextSeq { region := reg, w := (s.regionWO (some (dieOf k)) reg).1, o := st, acks := [] } } rfl ?_ ha e
    ⟨hu.threads, hu.clk, hu.draws, hu.nextSeq, hu.ops, hu.inst⟩
  simp only [ha.thr, hl, hv, Bool.not_true, Bool.false_eq_true, if_false, if_neg hw.not_ge, if_neg ho.not_ge]
  rw [startOp_regCmds, State.used_regCmds]

end

/-! ## PREF -/

omit ha in
theorem State.Kept.l2Evict (s : State) (d line : Nat) : s.Kept (s.l2Evict d line) := ⟨rfl, rfl, rfl, rfl, rfl, rfl⟩

omit ha in
theorem State.Kept.setL2 (s : State) (y : L2Ent) : s.Kept (s.setL2 y) := by
  unfold State.setL2
  split
  · exact ⟨rfl, rfl, rfl, rfl, rfl, rfl⟩
  · cases s.l2Victim y.die y.line <;> exact ⟨rfl, rfl, rfl, rfl, rfl, rfl⟩

omit ha in
theorem State.Kept.leaseTake (s : State) (pa expiry : Nat) : s.Kept (s.leaseTake pa expiry) := by
  unfold State.leaseTake
  split
  · exact State.Kept.refl s
  · exact ⟨rfl, rfl, rfl, rfl, rfl, rfl⟩

omit ha in
theorem State.Kept.prefetchPeer (s : State) (x : Access) : s.Kept (s.prefetchPeer x) := by
  unfold State.prefetchPeer
  dsimp only
  split
  · exact State.Kept.refl s
  · exact State.Kept.leaseTake ..

omit ha in
/-- A prefetch asks for a line, or brings it into the L2 or under a lease (R145, R412). -/
theorem State.Kept.prefetch (s : State) (k : Nat) (a : Word) (l2 excl : Bool) : s.Kept (s.prefetch k a l2 excl) := by
  unfold State.prefetch
  split
  · exact State.Kept.refl s
  · split
    · exact State.Kept.refl s
    · have hu := State.Kept.used s k (s.thr k) a
      extract_lets s1
      split
      · exact hu.trans (State.Kept.prefetchPeer ..)
      · split
        · exact (hu.trans (State.Kept.classTouch ..)).trans (State.Kept.setL2 ..)
        · exact ⟨hu.threads, hu.clk, hu.draws, hu.nextSeq, hu.ops, hu.inst⟩

/-- An instruction whose meaning is a fixed-latency result, after changes s1. -/
theorem gives_fixed_after {i : Instr} {q : Issue} {named reads : List Nat} {body : Body} (lat : Nat) (l : List Landing) (s1 : State)
    (hx : exec i s = .next (s.runGang q named reads true body)) (hb : body s k [k] = .ok (s1.fixed q lat [k] l)) (e : q.Executes t named reads)
    (hk : s.Kept s1) : s.Gives i k (t.afterFixed s q lat l) s1.numbered := by
  have hfind : (s1.fixed q lat [k] l).threads.find k = some (t.queueAll s.nextSeq (s.clk + lat - 1) (l ++ q.falls)) := by
    simp only [State.fixed, List.foldl_cons, List.foldl_nil, State.landIn_eq, State.updThread, Tbl.find_upd_same, hk.threads, ha.here, Option.map_some, hk.clk,
      hk.nextSeq]
    rfl
  obtain ⟨ts, h1, h2, h3⟩ := State.issued_run (s := s) (q := q) (s1.fixed q lat [k] l) hfind (by rw [Thread.queueAll_status]; exact e.runs) hk.clk hk.draws true
  refine ⟨ts, ?_, ?_, fun j hj => ?_⟩
  · rw [hx, runGang_alone ha e, hb]
    exact congrArg _ (h1.trans rfl)
  · rw [h2]
    simp [Thread.afterFixed, Thread.past, Thread.queueAll_pc]
  · rw [h3 j hj]
    simp only [State.fixed, List.foldl_cons, List.foldl_nil, State.landIn_eq, State.updThread]
    exact Tbl.find_upd_other _ _ hj

theorem gives_pref (l2 excl : Bool) (e : (issue64 c).Executes t [va.toNat] [va.toNat]) :
    s.Gives (.pref c off l2 excl va) k (t.afterFixed s (issue64 c) 1 []) (s.prefetch k (t.reg va.toNat + off.signExtend 64) l2 excl).numbered :=
  gives_fixed_after ha 1 [] _ rfl (by simp only [ha.thr, Thread.ea]) e (State.Kept.prefetch ..)

end

/-- Settles O15: what the address check, the translation and the caches give is what each leaves outstanding, or has done at once. -/
theorem cacheAndOrder : Obligations.CacheAndOrder := by
  unfold Obligations.CacheAndOrder
  intro s k t c off pr va vb ha q a one
  refine ⟨fun lf e hl hr => gives_touch_resident ha e hl hr, fun lf e hl hr hb => gives_touch_asks ha e hl hr hb, fun l2 excl e => gives_pref ha l2 excl e,
    fun op hop lf x e hl hp => gives_cctl ha e hl hop hp, fun op hop lf e hl hr => gives_cctl_away ha e hl hop hr, fun e hh hw => gives_iinvall ha e hh hw,
    fun kind sc e => gives_fence ha kind sc e, fun lf e hl hv => ⟨fun hw ho => gives_vretire_done ha e hl hv hw ho, fun hw ho => gives_vretire ha e hl hv hw ho⟩⟩

end Sys2Proof.Machine
end

section
/-! STORES ARE PERFORMED (O39): the bytes and the bits that a write inside one sector leaves, and the buffer of WC stores
(spec/07_isa_memory_access.md R140, R143; spec/10_isa_synchronisation.md R209; spec/12_memory_hierarchy.md R225). -/

namespace Sys2Proof.Machine

/-! ## One write and its bits -/

theorem State.Plain.keyedFor {s : State} {a : Access} (h : s.Plain a) : s.KeyedFor a.key (s.paNow a) := h.key

theorem State.Plain.oneSector {s : State} {a : Access} (h : s.Plain a) : (s.paNow a + max a.size 1 - 1) / 64 = s.paNow a / 64 := by
  rcases Nat.eq_zero_or_pos a.size with h0 | h0
  · simp [h0]
  · have := h.sector (a.size - 1) (by omega)
    rwa [show s.paNow a + max a.size 1 - 1 = s.paNow a + (a.size - 1) by omega]

/-- A write of a plain access, from a state that has read since: its bytes stand in memory, and what stands beside memory is as it was but for
the bits that the write sets (R229, R254). -/
theorem State.writeBits_plain {s t : State} {a : Access} (hp : s.Plain a) (ht : t.lasting = s.lasting) (w : Writer) (v : Word) (fes : List (Nat × Bool)) :
    ∃ u : State, u.aside = s.aside ∧ u.mem = Mem.writeN s.mem (s.paNow a) (toLe a.size v.toNat) ∧
      t.writeBits w a.key (s.paNow a) (toLe a.size v.toNat) fes = fes.foldl (fun x f => x.setFull f.1 f.2) u := by
  have hsec : (s.paNow a + max (toLe a.size v.toNat).length 1 - 1) / 64 = s.paNow a / 64 := by rw [toLe_length]; exact hp.oneSector
  obtain ⟨tags, hr, -⟩ := State.rekey_keyedFor hsec (State.keyedFor_of_lasting ht hp.keyedFor)
  refine ⟨_, ?_, ?_, rfl⟩
  · calc
      _ = ((sectorsOf (s.paNow a) (toLe a.size v.toNat).length).foldl (fun x sec => x.ownSector w.core w.die (64 * sec))
            (t.rekey (t.keyGen a.key) (s.paNow a) (toLe a.size v.toNat).length)).aside := rfl
      _ = (t.rekey (t.keyGen a.key) (s.paNow a) (toLe a.size v.toNat).length).aside := State.foldl_aside (fun x sec => State.ownSector_aside x _ _ _) _
      _ = s.aside := (State.rekey_aside ..).trans (State.aside_of_lasting ht)
  · dsimp only
    rw [hr, State.mem_of_lasting ht]

/-- Memory after such a write. -/
theorem State.Plain.wrote {s s2 : State} {a : Access} {v : Word} (hp : s.Plain a) (hm : s2.mem = Mem.writeN s.mem (s.paNow a) (toLe a.size v.toNat)) :
    s.Wrote s2 (s.paNow a) a.size v := fun x => by
  rw [hm]
  exact read_writeN_toLe hp.wf _ _ v x

/-- What a store does before its bytes are written leaves memory and what stands beside it. -/
theorem State.storing_lasting (s : State) (core d : Nat) (w : Writer) (a : Access) (pa : Nat) :
    ((((w.op.elim s fun q => s.snapUnits q w.thrs a).l1Use core a true).classTouch d a.ctx pa)).lasting = s.lasting := by
  cases w.op <;> simp

theorem State.storeNow_plain {s : State} {a : Access} (hp : s.Plain a) (k : Nat) (w : Writer) (v : Word) :
    (s.storeNow k w a (toLe a.size v.toNat)).aside = s.aside ∧
      (s.storeNow k w a (toLe a.size v.toNat)).mem = Mem.writeN s.mem (s.paNow a) (toLe a.size v.toNat) := by
  obtain ⟨u, hu, hm, he⟩ := State.writeBits_plain hp (State.storing_lasting s (coreOf k) (dieOf k) w a (s.paNow a)) w v []
  have hs : s.storeNow k w a (toLe a.size v.toNat) = u := he
  rw [hs]
  exact ⟨hu, hm⟩

theorem State.foldl_wakeWord (c : Option Nat) (b : Bool) (l : List Nat) (s : State) :
    ∃ ws, l.foldl (fun x a => x.wakeWord c a b) s = { s with wakes := ws } := by
  induction l generalizing s with
  | nil => exact ⟨_, rfl⟩
  | cons a l ih =>
    have hw : ∃ ws, s.wakeWord c a b = { s with wakes := ws } := by
      unfold State.wakeWord
      split <;> exact ⟨_, rfl⟩
    obtain ⟨ws, hw⟩ := hw
    obtain ⟨vs, hv⟩ := ih (s.wakeWord c a b)
    exact ⟨vs, by rw [List.foldl_cons, hv, hw]⟩

/-- A word becomes FULL, and no other word's bit changes (R228). -/
theorem State.full_setFull_true (s : State) (pa x : Nat) : (s.setFull pa true).full x = if x / 8 = pa / 8 then true else s.full x := by
  have hw : x / 8 * 8 = pa / 8 * 8 ↔ x / 8 = pa / 8 := by omega
  rw [Bool.eq_iff_iff]
  by_cases h : x / 8 = pa / 8 <;> simp [State.full, State.setFull, Addrs.del, hw, h]

/-- A store that fills its word (R149, R209). -/
theorem State.storeFe_fills {s : State} {a : Access} (hp : s.Plain a) (h8 : a.size = 8) (k : Nat) (w : Writer) (v : Word) :
    let u := s.storeFe k w a (some v) true
    u.clk = s.clk ∧ u.threads = s.threads ∧ u.mem = Mem.writeN s.mem (s.paNow a) (toLe a.size v.toNat) ∧
      ∀ x, u.full x = if x / 8 = s.paNow a / 8 then true else s.full x := by
  intro u
  obtain ⟨y, hy, hm, he⟩ := State.writeBits_plain hp (State.storing_lasting s (coreOf k) (dieOf k) w a (s.paNow a)) w v [(s.paNow a / 8 * 8, true)]
  obtain ⟨ws, hu⟩ : ∃ ws, u = { y.setFull (s.paNow a / 8 * 8) true with wakes := ws } := by
    rw [h8] at he
    rw [show y.setFull (s.paNow a / 8 * 8) true = _ from he.symm]
    exact State.foldl_wakeWord ..
  have hfull : ∀ x, y.full x = s.full x := fun x => by rw [State.full, State.full, State.empties_of_aside hy]
  rw [hu]
  refine ⟨show y.clk = s.clk from State.clk_of_aside hy, show y.threads = s.threads from State.threads_of_aside hy, hm, fun x => ?_⟩
  refine (State.full_setFull_true y _ x).trans ?_
  rw [hfull, Nat.mul_div_cancel _ (by decide)]

/-! ## How a store ends -/

section
variable {s : State} {op k : Nat} {o : Op} (h : s.Free op o k false)
include h

/-- STORE_PERFORMED performs an operation that stands free and is not with a peer. -/
theorem State.Free.performs : exec (.storePerformed op) s = .next (s.performNow op o) := by
  change execStorePerformed op s = _
  simp [execStorePerformed, h.stands, h.home]

/-- A store's access goes on at once: it reads nothing of another owner's (R245). -/
theorem State.Free.viaPeer_write {a : Access} (ha : ∃ w, o.kind.access = some (a, false, w)) (hr : o.kind.reads = false) (go : State → State) :
    s.viaPeer op o a go = go s := by
  obtain ⟨w, ha⟩ := ha
  rw [h.viaPeer ⟨_, _, ha⟩, State.fromOwner, hr]
  rfl

/-- A store is performed: its bytes stand in memory, and it is over (R140). -/
theorem State.Free.doStore {a : Access} {v : Word} (hp : s.Plain a) :
    s.Landed (s.doStore op o a v) op o k [] ∧ s.Wrote (s.doStore op o a v) (s.paNow a) a.size v ∧ (s.doStore op o a v).empties = s.empties ∧
      (s.doStore op o a v).cores = s.cores := by
  obtain ⟨ha, hm⟩ := State.storeNow_plain hp o.thr (s.opWriter op o o.recv none) v
  have hr := h.mine.1
  refine ⟨State.landed_finishOp hr (State.clk_of_aside ha) (State.threads_of_aside ha) _, hp.wrote ?_, ?_, ?_⟩
  · exact (State.finishOp_mem ..).trans hm
  · exact (State.finishOp_empties hr _).trans (State.empties_of_aside ha)
  · exact (State.finishOp_cores hr _).trans (State.cores_of_aside ha)

theorem store_performed {a : Access} {v : Word} (hk : o.kind = .store a v) (hpol : a.policy ≠ 2) (hp : s.Plain a) :
    ∃ s2, exec (.storePerformed op) s = .next s2 ∧ s.Landed s2 op o k [] ∧ s.Wrote s2 (s.paNow a) a.size v ∧ s2.empties = s.empties := by
  obtain ⟨hl, hw, he, -⟩ := h.doStore (v := v) hp
  refine ⟨_, ?_, hl, hw, he⟩
  rw [h.performs, State.performNow]
  simp only [hk, h.free, if_true, if_neg hpol]
  rw [h.viaPeer_write ⟨true, by rw [hk, OpKind.access]⟩ (by rw [hk]; rfl)]

/-! ## The buffer of WC stores (R225) -/

section
variable {a : Access} {v : Word} (hk : o.kind = .store a v) (hpol : a.policy = 2)
include hk hpol

theorem State.Free.performs_combining : exec (.storePerformed op) s = .next (s.wcStore op o a) := by
  rw [h.performs, State.performNow]
  simp only [hk, h.free, if_true, if_pos hpol]

/-- A WC store takes an entry of an empty buffer. -/
theorem wc_store_enters (hwc : (s.core (coreOf k)).wc = []) :
    exec (.storePerformed op) s = .next (s.setWc (coreOf k) [{ line := a.pa / 256, ops := [op] }]) := by
  have hlive : s.wcLive (coreOf k) = [] := by simp [State.wcLive, hwc]
  rw [h.performs_combining hk hpol, State.wcStore, h.mine.2]
  simp [hlive]

/-- A WC store that stands in the buffer reaches memory with its entry, which is then empty. -/
theorem wc_store_drains (hwc : (s.core (coreOf k)).wc = [{ line := a.pa / 256, ops := [op] }]) (hp : s.Plain a) :
    exec (.storePerformed op) s = .next ((s.doStore op o a v).setWc (coreOf k) []) := by
  obtain ⟨hl, -, -, hc⟩ := h.doStore (v := v) hp
  have hlive : s.wcLive (coreOf k) = [{ line := a.pa / 256, ops := [op] }] := by simp [State.wcLive, hwc, h.stands]
  have hleft : (s.doStore op o a v).wcLive (coreOf k) = [] := by
    rw [State.wcLive, show (s.doStore op o a v).core (coreOf k) = s.core (coreOf k) by rw [State.core, State.core, hc], hwc]
    simp [hl.gone]
  rw [h.performs_combining hk hpol, State.wcStore, h.mine.2]
  simp [hlive, State.wcDrain, h.stands, hk, h.free, hleft]

end

/-! ## SIGNAL and STS -/

theorem signal_lands {a : Access} {f : Bool} {v : Word} (hk : o.kind = .signal a f v) (h8 : a.size = 8) (hp : s.Plain a) :
    ∃ s2, exec (.classVResultLands op) s = .next s2 ∧ s.Landed s2 op o k [] ∧ s.Wrote s2 (s.paNow a) 8 v ∧
      ∀ x, s2.full x = if x / 8 = s.paNow a / 8 ∧ f = true ∧ isDevice (s.paNow a) = true then true else s.full x := by
  have hr := h.mine.1
  have hx : exec (.classVResultLands op) s = .next (s.doSignal op o a f v) := by
    rw [h.lands, State.landNow]
    simp only [hk, h.free, if_true]
    rw [h.viaPeer_write ⟨true, by rw [hk, OpKind.access]⟩ (by rw [hk]; rfl)]
  have hwrote : ∀ s2 : State, s2.mem = Mem.writeN s.mem (s.paNow a) (toLe a.size v.toNat) → s.Wrote s2 (s.paNow a) 8 v := fun s2 hm => by
    rw [← h8]
    exact hp.wrote hm
  refine ⟨_, hx, ?_⟩
  by_cases hf : f = true ∧ isDevice (s.paNow a) = true
  · obtain ⟨hc, ht, hm, hfull⟩ := State.storeFe_fills hp h8 o.thr (s.opWriter op o o.recv none) v
    have hd : s.doSignal op o a f v = (s.storeFe o.thr (s.opWriter op o o.recv none) a (some v) true).finishOp op o [] := by simp [State.doSignal, hf]
    rw [hd]
    refine ⟨State.landed_finishOp hr hc ht _, hwrote _ ((State.finishOp_mem ..).trans hm), fun x => ?_⟩
    rw [State.full, State.finishOp_empties hr, ← State.full, hfull x]
    simp [hf]
  · obtain ⟨ha, hm⟩ := State.storeNow_plain hp o.thr (s.opWriter op o o.recv none) v
    have hd : s.doSignal op o a f v = (s.storeNow o.thr (s.opWriter op o o.recv none) a (toLe a.size v.toNat)).finishOp op o [] := by
      simp [State.doSignal, hf, h8]
    rw [hd]
    refine ⟨State.landed_finishOp hr (State.clk_of_aside ha) (State.threads_of_aside ha) _, hwrote _ ((State.finishOp_mem ..).trans hm), fun x => ?_⟩
    rw [State.full, State.finishOp_empties hr, State.empties_of_aside ha, ← State.full, if_neg fun hx => hf hx.2]

/-- STS writes its block's scratchpad (R143). -/
theorem sts_performed {b off n : Nat} {x : Block} {v : Word} (hk : o.kind = .sts b off n v) (hb : s.blocks.find b = some x) (hw : Mem.wf x.scratch = true) :
    ∃ s2, exec (.storePerformed op) s = .next s2 ∧ s.Landed s2 op o k [] ∧ s2.mem = s.mem ∧ ∃ y, s2.blocks.find b = some y ∧
      ∀ i, Mem.read y.scratch i = if off ≤ i ∧ i < off + n then v.extractLsb' (8 * (i - off)) 8 else Mem.read x.scratch i := by
  have hr := h.mine.1
  refine ⟨s.doSts op o b off n v, ?_, ?_⟩
  · rw [h.performs, State.performNow]
    simp only [hk, h.free, if_true]
  · obtain ⟨y, hy, hscratch⟩ : ∃ y, (s.doSts op o b off n v).blocks.find b = some y ∧ y.scratch = Mem.writeN x.scratch off (toLe n v.toNat) := by
      rw [State.doSts, State.finishOp_one hr]
      simp [State.spadWrite, hb]
    have hl : s.Landed (s.doSts op o b off n v) op o k [] := by
      rw [State.doSts]
      exact State.landed_finishOp hr (by rfl) (by rfl) _
    refine ⟨hl, State.finishOp_mem .., y, hy, fun i => ?_⟩
    rw [hscratch]
    exact read_writeN_toLe hw off n v i

end

/-- Settles O39: a store's bytes stand in one sector under their key, so that the write turns no other byte; a WC store is its buffer's first. -/
theorem storesPerform : Obligations.StoresPerform := by
  unfold Obligations.StoresPerform
  intro s op k o h ends
  refine ⟨fun a v hk hpol _ hp => store_performed h hk hpol hp, fun a v hk hpol => ⟨fun hwc => ?_, fun hwc _ hp => ?_⟩,
    fun a f v hk h8 hp => signal_lands h hk h8 hp, fun b x off n v hk hb hw _ => sts_performed h hk hb hw⟩
  · exact ⟨_, wc_store_enters h hk hpol hwc, by simp [State.setWc, State.core, State.updCore], rfl, rfl, rfl⟩
  · obtain ⟨hl, hw, -, -⟩ := h.doStore (v := v) hp
    exact ⟨_, wc_store_drains h hk hpol hwc hp, ⟨hl.gone, hl.thread, hl.others⟩, hw, by simp [State.setWc, State.core, State.updCore]⟩

end Sys2Proof.Machine
end

section
/-! FULL/EMPTY FORMS AT THEIR WORD (O41): the statement asks that the form may take its step, with its sector held exclusively; the model lets it look
at its word only where it may read it as well, and an L2 entry that names an owner and no sharer allows the first and not the second. -/

namespace Sys2Proof.Machine

/-- A FEQ by thread 0 on the first word of device memory, past the L1 (R142, R148). -/
def feqPastL1 : Op :=
  { thr := 0, recv := [0], pc := 0, word := 0, issueClk := 0, flag := some 0, sync := false
    kind := .feform { ctx := 0, va := 0, pa := 0, size := 8, key := 0, policy := 0, hint := 2 } .feq 0 0 0 }

/-- Its thread runs, and the L2 of die 0 names core 1 as the owner of the word's sector but as no sharer of its line. -/
def ownerWithoutSharer : State :=
  { State.reset with
    threads := [(0, { blk := 0, tid := 0, bslot := 0, pc := 0, n := 0, regs := [], preds := [], flags := [], hw := [], depth := 0, tba := 0, tlsbase := 0 })]
    ops := [(1, feqPastL1)]
    l2 := [{ die := 0, line := 0, owners := [(0, 1)] }] }

/-- Nothing holds the FEQ back with its sector exclusive: its core is alone for the line (R400). -/
theorem ownerWithoutSharer_free : ownerWithoutSharer.Free 1 feqPastL1 0 true :=
  ⟨rfl, ⟨rfl, rfl⟩, rfl, by decide, _, rfl, .inl rfl⟩

theorem ownerWithoutSharer_plain : ownerWithoutSharer.Plain { ctx := 0, va := 0, pa := 0, size := 8, key := 0, policy := 0, hint := 2 } :=
  ⟨rfl, by decide, .inl rfl⟩

/-- As a read it waits: another core owns the sector (R399). -/
theorem ownerWithoutSharer_waits : exec (.classVResultLands 1) ownerWithoutSharer = .next ownerWithoutSharer := rfl

/-- Refutes O41: where the L2's directory names an owner that is not among a line's sharers, a form that may take its step does not try it, and
stays outstanding. -/
theorem not_fullEmptySteps : ¬ Obligations.FullEmptySteps := by
  unfold Obligations.FullEmptySteps
  intro h
  obtain ⟨s2, he, hl, -⟩ := h ownerWithoutSharer 1 0 feqPastL1 _ .feq 0 0 0 _ ownerWithoutSharer_free rfl rfl rfl rfl ownerWithoutSharer_plain
  obtain rfl := Host.Outcome.next.inj (ownerWithoutSharer_waits.symm.trans he)
  have hgone : some feqPastL1 = none := hl.gone
  exact nomatch hgone

end Sys2Proof.Machine
end

section
/-! FORMS WAIT AND WAKE (O44): waiter records at their home, and what writes of a park area, reads and releases leave of the waiters
(spec/10_isa_synchronisation.md R205-R207; spec/25_die_coherence.md R405, R406). -/

namespace Sys2Proof.Machine

/-! ## What leaves the waiters alone -/

/-- The threads, the wait tables, the wakes and the retries: no write of bytes and no read touches them. -/
def State.waiters (s : State) := (s.threads, s.waitTab, s.wakes, s.retries)

@[simp] theorem State.rekey_waiters (s : State) (g pa n : Nat) : (s.rekey g pa n).waiters = s.waiters :=
  foldl_fixes (g := State.waiters) (fun x sec => by grind [State.rekeySector, State.waiters]) _ s

@[simp] theorem State.writePa_waiters (s : State) (w : Writer) (key pa : Nat) (bs : List Byte) : (s.writePa w key pa bs none).waiters = s.waiters :=
  calc
    _ = ((sectorsOf pa bs.length).foldl (fun x sec => x.ownSector w.core w.die (64 * sec)) (s.rekey (s.keyGen key) pa bs.length)).waiters := rfl
    _ = (s.rekey (s.keyGen key) pa bs.length).waiters :=
      foldl_fixes (g := State.waiters) (f := fun (x : State) sec => x.ownSector w.core w.die (64 * sec)) (fun _ _ => rfl) _ _
    _ = s.waiters := State.rekey_waiters ..

@[simp] theorem State.classAgentWrite_waiters (s : State) (pa : Nat) : (s.classAgentWrite pa).waiters = s.waiters := by
  unfold State.classAgentWrite
  split
  · split <;> rfl
  · rfl

@[simp] theorem State.ncOut_waiters (s : State) (a : Access) : (s.ncOut a).waiters = s.waiters := by
  unfold State.ncOut
  split <;> rfl

@[simp] theorem State.parkWrite_waiters (s : State) (past : List Nat) (a : Access) (ws : List Word) (j : Nat) :
    (s.parkWrite past a ws j).waiters = s.waiters := by
  induction ws generalizing s j with
  | nil => rfl
  | cons v vs ih => simp [State.parkWrite, ih]

@[simp] theorem State.parkKeep_waiters (s : State) (past : List Nat) (die ctx pa : Nat) (stay : Nat → Bool) :
    (s.parkKeep past die ctx pa stay).waiters = s.waiters :=
  foldl_fixes (g := fun p : State × Nat => p.1.waiters) (fun p e => by dsimp only; split <;> simp) _ (s, 0)

@[simp] theorem State.sectorTrim_waiters (s : State) (sec : Nat) : (s.sectorTrim sec).waiters = s.waiters := by
  unfold State.sectorTrim
  split <;> rfl

/-! ## Releases -/

/-- The wait tables and the wakes, which a release leaves too. -/
def State.waitTables (s : State) := (s.waitTab, s.wakes)

theorem State.waitTables_of_waiters {s t : State} (h : t.waiters = s.waiters) : t.waitTables = s.waitTables := congrArg (fun p => (p.2.1, p.2.2.1)) h

theorem State.threads_of_waiters {s t : State} (h : t.waiters = s.waiters) : t.threads = s.threads := congrArg (·.1) h

@[simp] theorem State.release_waitTables (s : State) (w i : Nat) : (s.release w i).waitTables = s.waitTables := by
  unfold State.release
  split <;> rfl

/-- A word's wake takes the waiters of its new state out of the table, and wakes none other (R207). -/
theorem State.releaseWord_waitTables (s : State) (w : Nat) (now : Bool) :
    (s.releaseWord w now).waitTables = (s.waitTab.filter fun x => !(x.word == w && identWants x.ident == now), s.wakes) := by
  unfold State.releaseWord
  extract_lets die past tab s1 s2 s3
  have h2 : s2.waitTables = s1.waitTables := foldl_fixes (g := State.waitTables) (fun x i => State.release_waitTables ..) _ _
  have h3 : s3.waitTables = s2.waitTables := foldl_fixes (g := State.waitTables) (fun x c =>
    (State.waitTables_of_waiters (State.parkKeep_waiters ..)).trans (foldl_fixes (g := State.waitTables) (fun y i => State.release_waitTables ..) _ _)) _ _
  exact (State.waitTables_of_waiters (State.sectorTrim_waiters ..)).trans (h3.trans h2)

theorem identThread_waiterIdent {k : Nat} (h : k < 2 ^ 24) (want l : Bool) : identThread (waiterIdent k want l) = k := by
  cases want <;> cases l <;> simp [identThread, waiterIdent] <;> omega

/-- A release reaches the thread that it names while that waits there and none has reached it: the thread's form is tried again (R207). -/
theorem State.release_reaches {s : State} {k w i : Nat} {t : Thread} {want l r : Bool} (hf : s.threads.find k = some t)
    (hs : t.status = .form w want l r false) (hi : identThread i = k) :
    (s.release w i).threads.find k = some { t with status := .form w want l true true } ∧ (w, k) ∈ (s.release w i).retries := by
  have hw : s.waitsOn (identThread i) w = true := by simp [State.waitsOn, hi, State.thr_of_find hf, hs]
  unfold State.release
  rw [hw, hi]
  simp [hf, hs]

/-- The removal of a form's record leaves the threads (R207). -/
theorem State.dropForm_threads (s : State) (k : Nat) : (s.dropForm k).threads = s.threads := by
  unfold State.dropForm
  split
  · exact (State.threads_of_waiters (State.sectorTrim_waiters ..)).trans ((State.threads_of_waiters (State.parkKeep_waiters ..)).trans rfl)
  · rfl

/-! ## Records -/

theorem State.noticeTo_eq (s : State) (w k : Nat) :
    s.noticeTo w k = { s with wnotes := s.wnotes ++ (s.exclusiveHolder w).toList.map fun c => (c, w, k) } := by
  unfold State.noticeTo
  cases s.exclusiveHolder w <;> simp

/-- The home holds a record in its table while that has room and the word waits nowhere in the park area (R205). -/
theorem State.holdWaiter_tabled {s : State} {ctx w : Nat} (hs : w / 64 ∈ s.sectors)
    (hr : (s.waitTab.filter fun x => homeSlice x.word == homeSlice w).length < 64) (hp : s.parkIds (sliceDie (homeSlice w)) ctx w = []) (i : Nat) :
    s.holdWaiter ctx w i = some { s with waitTab := s.waitTab ++ [{ word := w, ident := i }] } := by
  simp [State.holdWaiter, hs, hr, hp]

/-! A slice reads its park areas through tables and memory, which nothing that a thread does changes. -/

section
variable (s : State) (k : Nat) (f : Thread → Thread)

theorem State.updThread_accessFor (ag : Agent) (ctx : Nat) (va : Word) (n : Nat) (need : Need) :
    (s.updThread k f).accessFor ag ctx va n need = s.accessFor ag ctx va n need := rfl

theorem State.updThread_ctxWord (die ctx i : Nat) : (s.updThread k f).ctxWord die ctx i = s.ctxWord die ctx i := rfl

theorem State.updThread_parkEntry (die ctx i : Nat) : (s.updThread k f).parkEntry die ctx i = s.parkEntry die ctx i := by
  simp only [State.parkEntry, State.parkPlace, State.updThread_accessFor, State.updThread_ctxWord]
  rfl

theorem State.updThread_parkIds (die ctx w : Nat) : (s.updThread k f).parkIds die ctx w = s.parkIds die ctx w := by
  simp only [State.parkIds, State.parkOf, State.parkCands, State.updThread_parkEntry, State.updThread_ctxWord]
  rfl

end

section
variable {s : State} {k w op : Nat} {want l : Bool} {t : Thread} {o : Op} (hf : s.threads.find k = some t) (hs : t.status = .form w want l false false)
  (ho : s.formOp k = some (op, o)) (hh : s.recordHeld k = false)
include hf hs ho hh

/-- A record whose state is there already is released at once (R205). -/
theorem record_released (hk : k < 2 ^ 24) (hw : s.full w = want) (hx : s.exclusiveHolder w = none) :
    ∃ s2, exec (.waiterRecord k) s = .next s2 ∧ s2.threads.find k = some { t with status := .form w want l true true } ∧ (w, k) ∈ s2.retries := by
  have hrel := State.release_reaches (s := s.updThread k fun t => { t with status := .form w want l true false }) (i := waiterIdent k want l)
    (by rw [State.updThread_threads, Tbl.find_upd_same, hf, Option.map_some]) rfl (identThread_waiterIdent hk want l)
  refine ⟨_, ?_, hrel⟩
  change execWaiterRecord k s = _
  simp [execWaiterRecord, hh, State.formRecord, State.thr_of_find hf, hs, ho, hw, hx]

/-- Another record is held in the table, and the core that holds the word's sector exclusively is told (R205, R406). -/
theorem record_held (hn : s.full w ≠ want ∨ s.exclusiveHolder w ≠ none) (hsec : w / 64 ∈ s.sectors)
    (hr : (s.waitTab.filter fun x => homeSlice x.word == homeSlice w).length < 64) (hp : s.parkIds (sliceDie (homeSlice w)) (s.ctxOf t) w = []) :
    ∃ s2, exec (.waiterRecord k) s = .next s2 ∧ s2.threads.find k = some { t with status := .form w want l true false } ∧
      s2.waitTab = s.waitTab ++ [{ word := w, ident := waiterIdent k want l }] ∧
      s2.wnotes = s.wnotes ++ (s.exclusiveHolder w).toList.map fun c => (c, w, k) := by
  have hold := State.holdWaiter_tabled (s := s.updThread k fun t => { t with status := .form w want l true false }) hsec hr
    ((State.updThread_parkIds ..).trans hp) (waiterIdent k want l)
  have hno : ¬(s.full w = want ∧ s.exclusiveHolder w = none) := fun hc => hn.elim (· hc.1) (· hc.2)
  refine ⟨(({ s.updThread k fun t => { t with status := .form w want l true false } with
    waitTab := s.waitTab ++ [{ word := w, ident := waiterIdent k want l }] } : State).noticeTo w k), ?_, ?_⟩
  · change execWaiterRecord k s = _
    simp only [execWaiterRecord, hh, State.formRecord, State.thr_of_find hf, hs, ho, if_neg hno, hold, Bool.false_eq_true, if_false]
    rfl
  · rw [State.noticeTo_eq]
    exact ⟨by simp [hf], rfl, rfl⟩

end

/-! ## Notices -/

section
variable {s : State} {k w core : Nat} {want l : Bool} {t : Thread} (hf : s.threads.find k = some t) (hs : t.status = .form w want l true false)
  (hn : (s.wnotes.find? fun n => n.1 == core && n.2.1 == w) = some (core, w, k)) (hh : s.recordHeld k = false)
include hf hs hn hh

omit hf hs in
/-- The notice's core marks its exclusive copy of a sector that something waits on, and the home hears its answer (R406). -/
theorem notice_answers : ∃ ms, (2 ≤ s.l1State core w → w / 64 ∈ s.sectors → (core, w / 64) ∈ ms) ∧
    exec (.waiterNotice core w) s = .next ({ s with wnotes := s.wnotes.erase (core, w, k), coreMarks := ms }.lateArrival w k) := by
  have hmark : ∃ ms, (2 ≤ s.l1State core w → w / 64 ∈ s.sectors → (core, w / 64) ∈ ms) ∧
      (let s1 := { s with wnotes := s.wnotes.erase (core, w, k) }
       (if 2 ≤ s1.l1State core w then s1.carryMark core (w / 64) else s1) = { s1 with coreMarks := ms }) := by
    by_cases h2 : 2 ≤ s.l1State core w
    · by_cases hc : (s.sectors.contains (w / 64) && !s.coreMarks.contains (core, w / 64)) = true
      · exact ⟨s.coreMarks ++ [(core, w / 64)], fun _ _ => by simp, (if_pos h2).trans (if_pos hc)⟩
      · exact ⟨s.coreMarks, fun _ hm => by simpa [hm] using hc, (if_pos h2).trans (if_neg hc)⟩
    · exact ⟨s.coreMarks, fun h _ => absurd h h2, if_neg h2⟩
  obtain ⟨ms, hm, he⟩ := hmark
  refine ⟨ms, hm, ?_⟩
  change execWaiterNotice core w s = _
  simp only [execWaiterNotice, hn, hh, Bool.false_eq_true, if_false]
  exact congrArg (fun x : State => Host.Outcome.next (x.lateArrival w k)) he

/-- An answer that finds the state there releases the waiter (R205, R406). -/
theorem notice_releases (hk : k < 2 ^ 24) (hw : s.full w = want) :
    ∃ s2, exec (.waiterNotice core w) s = .next s2 ∧ s2.threads.find k = some { t with status := .form w want l true true } ∧ (w, k) ∈ s2.retries := by
  obtain ⟨ms, -, he⟩ := notice_answers hn hh
  refine ⟨_, he, ?_⟩
  generalize hy : ({ s with wnotes := s.wnotes.erase (core, w, k), coreMarks := ms } : State) = y
  have hyf : y.threads.find k = some t := by rw [← hy]; exact hf
  have hyw : y.full w = want := by rw [← hy]; exact hw
  have hla : y.lateArrival w k = (y.dropForm k).release w (waiterIdent k want l) := by
    simp [State.lateArrival, State.thr_of_find hyf, hs, hyw]
  rw [hla]
  exact State.release_reaches (by rw [State.dropForm_threads]; exact hyf) hs (identThread_waiterIdent hk want l)

/-- Another answer leaves the waiter where it is. -/
theorem notice_waits (hw : s.full w ≠ want) :
    ∃ s2, exec (.waiterNotice core w) s = .next s2 ∧ s2.mem = s.mem ∧ s2.threads = s.threads ∧ s2.wnotes = s.wnotes.erase (core, w, k) ∧
      (2 ≤ s.l1State core w → w / 64 ∈ s.sectors → (core, w / 64) ∈ s2.coreMarks) := by
  obtain ⟨ms, hm, he⟩ := notice_answers hn hh
  refine ⟨_, he, ?_⟩
  generalize hy : ({ s with wnotes := s.wnotes.erase (core, w, k), coreMarks := ms } : State) = y
  have hyf : y.threads.find k = some t := by rw [← hy]; exact hf
  have hyw : y.full w ≠ want := by rw [← hy]; exact hw
  have hla : y.lateArrival w k = y := by simp [State.lateArrival, State.thr_of_find hyf, hs, hyw]
  rw [hla, ← hy]
  exact ⟨rfl, rfl, rfl, hm⟩

end

/-! ## Retries -/

@[simp] theorem State.afterRead_retries (s : State) (seq : Nat) (o : Op) (pa n : Nat) (fe : Bool) : (s.afterRead seq o pa n fe).retries = s.retries := by
  have hsee : ∀ (x : State) k ids, (x.see k ids).retries = x.retries := fun x k ids => by unfold State.see; split <;> rfl
  have hmark : ∀ (x : State) k seq f, (x.markAcquire k seq f).retries = x.retries := fun x k seq f => by
    unfold State.markAcquire; dsimp only; split <;> rfl
  have hacq : ∀ es, (s.acquired seq o es).retries = s.retries := fun es => by
    unfold State.acquired
    split
    · rfl
    · exact foldl_fixes (g := State.retries) (fun x k => by dsimp only; split <;> simp [hsee, hmark]) _ s
  unfold State.afterRead
  dsimp only
  split
  · exact hacq _
  · exact (foldl_fixes (g := State.retries) (fun x k => State.setHb_retries x _ _) _ _).trans (hacq _)

@[simp] theorem State.setL2_retries (s : State) (x : L2Ent) : (s.setL2 x).retries = s.retries := by
  unfold State.setL2
  split
  · rfl
  · cases s.l2Victim x.die x.line <;> rfl

@[simp] theorem State.readNow_retries (s : State) (seq : Nat) (o : Op) (a : Access) : (s.readNow seq o a).retries = s.retries := by
  have hsnap : (s.snapUnits seq o.recv a).retries = s.retries := by unfold State.snapUnits; dsimp only; split <;> rfl
  have huse : ∀ (x : State) c, (x.l1Use c a false).retries = x.retries := fun x c => by
    unfold State.l1Use
    dsimp only
    split
    · rfl
    · split
      · rfl
      · split
        · split
          · simp
          · rfl
        · rfl
  have htouch : ∀ (x : State) d pa, (x.classTouch d a.ctx pa).retries = x.retries := fun x d pa => by unfold State.classTouch; split <;> rfl
  rw [State.readNow, htouch, huse, hsnap]

/-- A form's thread leaves it: its operation holds it until the landing (R35, R150). -/
theorem State.leaveForm_one (s : State) {op k w : Nat} {o : Op} {t : Thread} {want l r x : Bool} (hr : o.recv = [k]) (hs : t.status = .form w want l r x) :
    ∃ g, s.leaveForm o op = s.updThread k g ∧ g t = { t with status := .sync op, releases := 0 } :=
  ⟨_, by rw [State.leaveForm, hr]; rfl, by simp [hs]⟩

/-- An LDW whose word is FULL takes its step: it reads the word, and its thread is held until the landing (R148, R150). -/
theorem ldw_step {s : State} {op k dst pr : Nat} {o : Op} {a : Access} {v : Word} {t : Thread} {w : Nat} {want l r x : Bool} (hf : s.threads.find k = some t)
    (hs : t.status = .form w want l r x) (hr : o.recv = [k]) (ht : o.thr = k) :
    let s2 := s.feStep op o a .ldw v dst pr
    s2.ops.find op = none ∧ s2.retries = s.retries ∧ s2.mem = s.mem ∧
      s2.threads.find k = some (({ t with status := .sync op, releases := 0 } : Thread).queueAll op s.clk
        (o.ending [.reg dst (s.loadValue op k a) (s.loadMark o a), .pred pr true])) := by
  intro s2
  let s0 := s.leaveForm o op
  let u := (s0.afterRead op o (s.paNow a) 8 true).readNow op o a
  have hu : u.lasting = s0.lasting := (State.readNow_lasting ..).trans (State.afterRead_lasting ..)
  have hret : u.retries = s0.retries := (State.readNow_retries ..).trans (State.afterRead_retries ..)
  obtain ⟨g, h0, hg⟩ : ∃ g, s0 = s.updThread k g ∧ g t = { t with status := .sync op, releases := 0 } := State.leaveForm_one s hr hs
  have he : s2 = u.finishOp op o [.reg dst (s.loadValue op k a) (s.loadMark o a), .pred pr true] := by rw [← ht]; rfl
  have hl := State.landed_finishOp (o := o) (op := op) hr (State.clk_of_aside (State.aside_of_lasting hu)) (State.threads_of_aside (State.aside_of_lasting hu))
    [.reg dst (s.loadValue op k a) (s.loadMark o a), .pred pr true]
  rw [he]
  refine ⟨hl.gone, ?_, ?_, ?_⟩
  · rw [State.finishOp_one hr]
    exact hret.trans (by rw [h0]; rfl)
  · rw [State.finishOp_mem, State.mem_of_lasting hu, h0]
    rfl
  · rw [hl.thread, h0]
    simp [hf, hg]

/-! What stands for retry holds no operation back, and no read looks at it. -/

section
variable (s : State) (rs : List (Nat × Nat))

theorem State.readPa_retries (die : Option Nat) (key pa n : Nat) : ({ s with retries := rs } : State).readPa die key pa n = s.readPa die key pa n := by
  have hb : ∀ pa, ({ s with retries := rs } : State).bytesAt die key pa n = s.bytesAt die key pa n := by
    induction n with
    | zero => exact fun _ => rfl
    | succ n ih => exact fun pa => congrArg (_ :: ·) (ih (pa + 1))
  rw [State.readPa, hb]
  rfl

theorem State.holds_retries (n : Nat) (x : Op) (m : Nat) (y : Op) : ({ s with retries := rs } : State).holds n x m y = s.holds n x m y := by
  have hc : ({ s with retries := rs } : State).releases y = s.releases y := by
    simp only [State.releases, State.casFails, State.readPa_retries]
    rfl
  simp only [State.holds, hc]
  rfl

theorem State.canPerform_retries (op : Nat) (o : Op) (excl : Bool) :
    ({ s with retries := rs } : State).canPerform op o excl = s.canPerform op o excl := by
  simp only [State.canPerform, State.canPerformAs, State.canPerformBut, State.orderOk, State.holds_retries]
  rfl

theorem State.loadValue_retries (op k : Nat) (a : Access) : ({ s with retries := rs } : State).loadValue op k a = s.loadValue op k a := by
  simp only [State.loadValue, State.loadBytes_eq_map]
  rfl

end
/-- FORM_RETRY takes the step of an LDW that was released, when its word is FULL (R150, R207). -/
theorem retry_takes_step {s : State} {op k w dst pr : Nat} {o : Op} {a : Access} {v : Word} {t : Thread} (hf : s.threads.find k = some t)
    (hs : t.status = .form w true false true true) (hh : s.recordHeld k = false) (hst : (s.core (coreOf k)).stopped.contains (partOf k) = false)
    (ho : s.ops = [(op, o)]) (hk : o.kind = .feform a .ldw v dst pr) (ht : o.thr = k) (hc : s.canPerform op o true = true)
    (hd : isDevice (s.paNow a) = true) (hfull : s.fullAt (some (dieOf k)) (s.paNow a) = true) (hret : s.retries = [(w, k)]) :
    exec (.formRetry k) s = .next (({ s with retries := [] } : State).feStep op o a .ldw v dst pr) := by
  have hop : s.formOp k = some (op, o) := by simp [State.formOp, ho, hk, ht]
  have hcp : s.canPerformAs op o false true = true := by
    have hw : (o.kind.access.any fun x => x.2.2) = false := by rw [hk]; rfl
    rw [State.canPerform, hw, Bool.and_eq_true] at hc
    exact hc.1
  generalize hy : ({ s with retries := [] } : State) = y
  have hcy : y.canPerform op o true = true := by rw [← hy, State.canPerform_retries]; exact hc
  have hdy : isDevice (y.paNow a) = true := by rw [← hy]; exact hd
  have hfy : y.fullAt (some (dieOf k)) (y.paNow a) = true := by rw [← hy]; exact hfull
  have haway : y.formAway op o = none := by simp [State.formAway, hk, hdy]
  have hmust : y.mustWait o = none := by simp [State.mustWait, hk, FeOp.wants, ht, hfy]
  have hagain : s.formAgain (w, k) k = some (y.feStep op o a .ldw v dst pr) := by
    simp [State.formAgain, State.thr_of_find hf, hs, hop, hret, hcp, hy, haway, hmust, hcy, State.waitingStep, hk]
  change execFormRetry k s = _
  have hruns : partOf k ∉ (s.core (coreOf k)).stopped := by simpa using hst
  simp [execFormRetry, hh, hruns, hret, firstSome, hagain]

/-- Settles O44: a record, a notice's answer and a wake each release through the one operation that reaches a waiting thread, and what they do to
park areas leaves the threads and the tables. -/
theorem waitingEvents : Obligations.WaitingEvents := by
  unfold Obligations.WaitingEvents
  intro s k w want l t op o hf ident
  refine ⟨fun hs _ ho hk hh => ⟨fun hw hx => record_released hf hs ho hh hk hw hx, fun hn hsec hr hp => record_held hf hs ho hh hn hsec hr hp⟩, ?_, ?_, ?_⟩
  · intro now hw hheld
    have hany : (s.waitCtxs.any fun c => s.parkHeld c w) = false := by simpa using hheld
    have htab := State.releaseWord_waitTables { s with wakes := s.wakes.erase (w, now) } w now
    refine ⟨({ s with wakes := s.wakes.erase (w, now) } : State).releaseWord w now, ?_, congrArg (·.2) htab, fun x hx => ?_⟩
    · change execWake w s = _
      simp [execWake, hw, hany]
    · rw [show (State.releaseWord _ w now).waitTab = _ from congrArg (·.1) htab, List.mem_filter] at hx
      exact ⟨hx.1, fun hc => by simpa [identWants, hc.1, hc.2] using hx.2⟩
  · intro core hn hh hs hk
    exact ⟨fun hw => notice_releases hf hs hn hh hk hw, fun hw => notice_waits hf hs hn hh hw⟩
  · intro a v dst pr hh hst hs ho hk hr ht hc hd hfull hret
    have hstep := ldw_step (s := { s with retries := [] }) (op := op) (dst := dst) (pr := pr) (a := a) (v := v) hf hs hr ht
    rw [State.loadValue_retries] at hstep
    exact ⟨_, retry_takes_step hf hs hh hst ho hk ht hc hd hfull hret, hstep⟩

end Sys2Proof.Machine
end

section
/-! THE BLOCK TABLES AT REST (O60): every step ends by going through the threads one after another, and what that leaves of one thread's entry no
other thread's turn changes (spec/08_parallel_work.md R158). -/

set_option Elab.async false
namespace Sys2Proof.Machine

theorem State.updThread_find_other (s : State) {j k : Nat} (f : Thread → Thread) (h : j ≠ k) : (s.updThread k f).threads.find j = s.threads.find j := by
  rw [State.updThread_threads, Tbl.find_upd_other _ _ h]

/-- Thread k, if it can issue nothing, holds no entry of a block table and waits for none (R158). -/
def State.restsAt (s : State) (k : Nat) : Prop := ∀ t, s.threads.find k = some t → t.takesEntry = false → t.tabled = .out

theorem State.tableOk_iff {s : State} : s.tableOk ↔ ∀ k, s.restsAt k := Iff.rfl

/-- A thread's turn at its table leaves the other threads alone. -/
theorem State.tableIn_find_other (s : State) {j k : Nat} (h : j ≠ k) : (s.tableIn k).threads.find j = s.threads.find j := by
  simp only [State.tableIn]
  split_ifs
  · rfl
  · exact s.updThread_find_other _ h
  · rfl
  · exact s.updThread_find_other _ h
  · exact s.updThread_find_other _ h

/-- After a thread's turn it rests if it can issue nothing: it has left its table, or takes an entry, or rested already. -/
theorem State.tableIn_restsAt (s : State) (k : Nat) : (s.tableIn k).restsAt k := by
  cases hk : s.threads.find k with
  | none =>
    have hnone : (s.tableIn k).threads.find k = none := by
      simp only [State.tableIn]
      split_ifs <;> simp [hk]
    intro t ht
    simp [hnone] at ht
  | some u =>
    intro t ht htake
    simp only [State.tableIn, State.thr_of_find hk] at ht
    split_ifs at ht with hu hout hin hroom
    · exact (Option.some.inj (hk.symm.trans ht)) ▸ hout
    · simp only [State.updThread_threads, Tbl.find_upd_same, hk, Option.map_some, Option.some.injEq] at ht
      subst ht
      rfl
    all_goals
      have hsame : t.status = u.status := by
        simp only [State.updThread_threads, Tbl.find_upd_same, hk, Option.map_some, Option.some.injEq] at ht
        subst ht
        rfl
      simp [Thread.takesEntry, ← hsame] at hu htake
      exact absurd hu htake

theorem State.tableIn_keeps_restsAt {s : State} {k : Nat} (h : s.restsAt k) (j : Nat) : (s.tableIn j).restsAt k := by
  by_cases hk : k = j
  · exact hk ▸ s.tableIn_restsAt k
  · intro t ht
    exact h t (s.tableIn_find_other hk ▸ ht)

/-- After the turns of some threads each of them rests, and each that rested before. -/
theorem State.foldl_tableIn_restsAt {k : Nat} (ks : List Nat) {s : State} (h : k ∈ ks ∨ s.restsAt k) : (ks.foldl State.tableIn s).restsAt k := by
  induction ks generalizing s with
  | nil => exact h.resolve_left (List.not_mem_nil)
  | cons j ks ih =>
    refine ih ?_
    obtain hmem | hrest := h
    · obtain rfl | hmem := List.mem_cons.mp hmem
      · exact .inr (s.tableIn_restsAt k)
      · exact .inl hmem
    · exact .inr (State.tableIn_keeps_restsAt hrest j)

theorem Tbl.find_none_of_not_mem {α : Type} {t : Tbl α} {k : Nat} (h : k ∉ t.map (·.1)) : Tbl.find t k = none := by
  induction t with
  | nil => rfl
  | cons e t ih =>
    simp only [List.map_cons, List.mem_cons, not_or] at h
    rw [Tbl.find_cons, if_neg (Ne.symm h.1), ih h.2]

theorem State.settle_tableOk (s : State) : s.settle.tableOk := by
  refine State.tableOk_iff.mpr fun k => State.foldl_tableIn_restsAt _ ?_
  by_cases hk : k ∈ s.threads.map (·.1)
  · exact .inl hk
  · exact .inr fun t ht => by simp [Tbl.find_none_of_not_mem hk] at ht

@[simp] theorem State.aged_status (s : State) (k : Nat) (t : Thread) : (s.aged k t).status = t.status := by
  unfold State.aged
  split <;> rfl

@[simp] theorem State.aged_tabled (s : State) (k : Nat) (t : Thread) : (s.aged k t).tabled = t.tabled := by
  unfold State.aged
  split <;> rfl

/-- The clk from which a ready thread counts says nothing of its table. -/
theorem State.ageAll_tableOk {s : State} (h : s.tableOk) : s.ageAll.tableOk := by
  intro k t ht htake
  simp only [State.ageAll, Tbl.find_mapVals, Option.map_eq_some_iff] at ht
  obtain ⟨u, hu, rfl⟩ := ht
  rw [State.aged_tabled]
  exact h k u hu (by simpa [Thread.takesEntry] using htake)

theorem State.moved_tableOk (s : State) : s.moved.tableOk := State.ageAll_tableOk s.settle_tableOk

/-- What a move leaves has been gone through by the tables, and no gang stands. -/
theorem State.act_next {s t : State} {m : Move} (e : s.act m = .next t) : ∃ u : State, t = u.moved := by
  unfold State.act at e
  extract_lets r at e
  cases hr : r with
  | next u =>
    rw [hr] at e
    exact ⟨u, (Host.Outcome.next.inj e).symm⟩
  | fault x => rw [hr] at e; cases e
  | refused x => rw [hr] at e; cases e

/-- Settles O60: every move ends with the block tables' turn, after which nothing touches a thread's entry. -/
theorem tableEntryInvariant : Obligations.TableEntryInvariant := by
  intro s t e
  obtain ⟨u, rfl⟩ := State.act_next e
  exact ⟨u.moved_tableOk, rfl⟩

end Sys2Proof.Machine
end

section
/-! GANGS WHOSE MEMBERS ISSUE APART (O19, O35): without the uniform bit each member takes its own turn, which leaves the other members' threads
alone (spec/08_parallel_work.md R159, R161, R163). -/

set_option Elab.async false
namespace Sys2Proof.Machine

/-! ## Turns -/

/-- The turn of member k under a false guard: it only goes on (R34). -/
def skipTurn (q : Issue) (x : State) (k : Nat) : State := x.issued q k 0 false true

/-- The turn of member k under a true guard: what B does for it, and its issue. -/
def takeTurn (q : Issue) (B : State → Nat → State) (x : State) (k : Nat) : State := (B x k).issued q k x.nextSeq true true

/-- A turn of one thread leaves the threads of the others as they were. -/
def LeavesOthers (f : State → Nat → State) : Prop := ∀ x k j, j ≠ k → (f x k).threads.find j = x.threads.find j

/-- Under a false guard no flag rises, so that the issue number does not matter. -/
theorem State.issued_false (x : State) (q : Issue) (k n : Nat) : x.issued q k n false true = skipTurn q x k := by
  refine congrArg (x.updThread k) (funext fun t => ?_)
  cases t.status <;> cases q.flag <;> rfl

theorem State.issued_find_other (x : State) (q : Issue) (k n : Nat) (g adv : Bool) {j : Nat} (h : j ≠ k) :
    (x.issued q k n g adv).threads.find j = x.threads.find j := x.updThread_find_other _ h

theorem skipTurn_leavesOthers (q : Issue) : LeavesOthers (skipTurn q) := fun x k _ h => x.issued_find_other q k 0 false true h

theorem takeTurn_leavesOthers (q : Issue) {B : State → Nat → State} (hB : LeavesOthers B) : LeavesOthers (takeTurn q B) := fun x k j h =>
  ((B x k).issued_find_other q k _ true true h).trans (hB x k j h)

theorem LeavesOthers.foldl {f : State → Nat → State} (hf : LeavesOthers f) (l : List Nat) (x : State) {j : Nat} (h : j ∉ l) :
    (l.foldl f x).threads.find j = x.threads.find j := by
  induction l generalizing x with
  | nil => rfl
  | cons k l ih =>
    obtain ⟨hk, hl⟩ := not_or.mp (List.mem_cons.not.mp h)
    exact (ih _ hl).trans (hf x k j hk)

theorem State.thr_of_find_eq {x s : State} {k : Nat} (h : x.threads.find k = s.threads.find k) : x.thr k = s.thr k := by
  simp [State.thr, h]

/-! ## The issue of such a gang -/

section
variable {s : State} {q : Issue} {named reads : List Nat} {body : Body} {B : State → Nat → State}
  (hB : ∀ x k, body x k [k] = .ok (B x k)) (ho : LeavesOthers B)
include hB ho

/-- Members without a marked register take their turns one after another, and none of them faults. -/
theorem runGroups_apart (l : List Nat) (x : State) (hl : l.Nodup) (hc : ∀ k ∈ l, ∀ r ∈ reads, (x.thr k).marks.find r = none)
    (fs : List (Nat × Pc × FaultInfo)) :
    runGroups q reads true body (l.map fun k => (k, [k])) x fs = (l.foldl (takeTurn q B) x, fs) := by
  induction l generalizing x with
  | nil => rfl
  | cons k l ih =>
    obtain ⟨hk, hl⟩ := List.nodup_cons.mp hl
    have hclean := asyncFault_clean (hc k List.mem_cons_self)
    simp only [List.map_cons, runGroups, hclean, hB, List.foldl_cons, List.foldl_nil]
    refine ih _ hl fun j hj r hr => ?_
    have hjk : j ≠ k := fun e => hk (e ▸ hj)
    have hthr : (takeTurn q B x k).thr j = x.thr j := State.thr_of_find_eq (takeTurn_leavesOthers q ho x k j hjk)
    exact (congrArg (fun t : Thread => t.marks.find r) hthr).trans (hc j (List.mem_cons_of_mem _ hj) r hr)

/-- THE ISSUE of a gang without the uniform bit, in which every member may execute: those with a false guard go on, then the others take their
turns (R159, R161). -/
theorem runGang_apart (hu : q.uniform = false) (hn : s.gang.Nodup) (hr : ∀ k ∈ s.gang, ∀ r ∈ named, r < (s.thr k).n)
    (hc : ∀ k ∈ s.gang, ∀ r ∈ reads, (s.thr k).marks.find r = none) :
    s.runGang q named reads true body =
      (s.takers q).foldl (takeTurn q B) ((s.gang.filter fun k => !q.holds (s.thr k)).foldl (skipTurn q) s) := by
  have hbad : (s.gang.filter fun k => named.any fun r => decide ((s.thr k).n ≤ r)) = [] := by
    simpa [List.filter_eq_nil_iff] using hr
  have hskip : (s.gang.filter fun k => !q.holds (s.thr k)).foldl (fun x k => x.issued q k s.nextSeq false true) s =
      (s.gang.filter fun k => !q.holds (s.thr k)).foldl (skipTurn q) s := by
    simp only [State.issued_false]
  have htake := runGroups_apart (q := q) (reads := reads) hB ho (s.takers q) ((s.gang.filter fun k => !q.holds (s.thr k)).foldl (skipTurn q) s)
    (hn.filter _) (fun k hk r hkr => by
      obtain ⟨hmem, hguard⟩ := List.mem_filter.mp hk
      rw [State.thr_of_find_eq ((skipTurn_leavesOthers q).foldl _ _ (by simp [hguard]))]
      exact hc k hmem r hkr) []
  simp only [State.runGang, hbad, hu, groupsOf, Bool.false_and, Bool.false_eq_true, if_false, List.isEmpty_nil, if_true, hskip]
  rw [← State.takers, htake, State.raiseAll, List.foldl_nil]

end

end Sys2Proof.Machine
end

section
/-! THE GANG LAW (O35): turns with and without a true guard commute, so that a gang's fixed-latency instruction is its members' one after another
(spec/08_parallel_work.md R159, R161). -/

set_option Elab.async false
namespace Sys2Proof.Machine

/-- Two kinds of steps that commute may be taken one kind after the other. -/
theorem foldl_filter_partition {σ α : Type} {p : α → Bool} {f g : σ → α → σ} (hc : ∀ x j k, p k = true → p j = false → g (f x j) k = f (g x k) j)
    (l : List α) (x : σ) :
    (l.filter p).foldl g ((l.filter fun a => !p a).foldl f x) = l.foldl (fun x a => if p a then g x a else f x a) x := by
  have hpast : ∀ (m : List α) (y : σ) (k : α), p k = true → (∀ a ∈ m, p a = false) → g (m.foldl f y) k = m.foldl f (g y k) := by
    intro m
    induction m with
    | nil => intros; rfl
    | cons a m ih =>
      intro y k hk hm
      obtain ⟨ha, hm⟩ := List.forall_mem_cons.mp hm
      rw [List.foldl_cons, ih _ k hk hm, hc y a k hk ha, List.foldl_cons]
  induction l generalizing x with
  | nil => rfl
  | cons k l ih =>
    cases hk : p k with
    | false => simp [hk, ih]
    | true =>
      have hrest : ∀ a ∈ l.filter (fun a => !p a), p a = false := by simp
      simp [hk, hpast _ x k hk hrest, ih]

/-! ## Instructions of fixed latency -/

/-- What a fixed-latency instruction leaves in member k. -/
def fixedFor (q : Issue) (lat : Nat) (f : Thread → List Landing) (x : State) (k : Nat) : State := x.fixed q lat [k] (f (x.thr k))

theorem fixedFor_leavesOthers (q : Issue) (lat : Nat) (f : Thread → List Landing) : LeavesOthers (fixedFor q lat f) := by
  intro x k j h
  simp only [fixedFor, State.fixed, List.foldl_cons, List.foldl_nil, State.landIn_eq]
  exact x.updThread_find_other _ h

section
variable (q : Issue) (lat : Nat) (f : Thread → List Landing)

/-- One member's result and another member's going on may come in either order. -/
theorem takeTurn_skipTurn_comm (x : State) {j k : Nat} (h : k ≠ j) :
    takeTurn q (fixedFor q lat f) (skipTurn q x j) k = skipTurn q (takeTurn q (fixedFor q lat f) x k) j := by
  have hthr : (skipTurn q x j).thr k = x.thr k := State.thr_of_find_eq (skipTurn_leavesOthers q x j k h)
  simp only [takeTurn, fixedFor, hthr]
  simp only [skipTurn, State.issued, State.fixed, State.landIn, State.updThread, List.foldl_cons, List.foldl_nil]
  rw [Tbl.upd_comm _ _ _ h, Tbl.upd_comm _ _ _ h]

/-- The turn of a member of a gang under its guard. -/
def fixedTurn (x : State) (k : Nat) : State := if q.holds (x.thr k) then takeTurn q (fixedFor q lat f) x k else skipTurn q x k

variable {q lat f} in
theorem fixedTurn_of_holds {x : State} {k : Nat} (h : q.holds (x.thr k) = true) : fixedTurn q lat f x k = takeTurn q (fixedFor q lat f) x k := if_pos h

variable {q lat f} in
theorem fixedTurn_of_not {x : State} {k : Nat} (h : q.holds (x.thr k) = false) : fixedTurn q lat f x k = skipTurn q x k :=
  if_neg (Bool.eq_false_iff.mp h)

theorem fixedTurn_leavesOthers : LeavesOthers (fixedTurn q lat f) := by
  intro x k j h
  unfold fixedTurn
  split
  · exact takeTurn_leavesOthers q (fixedFor_leavesOthers q lat f) x k j h
  · exact skipTurn_leavesOthers q x k j h

/-- A turn does not look at the gang. -/
theorem fixedTurn_gang (x : State) (k : Nat) (g : List Nat) : fixedTurn q lat f { x with gang := g } k = { fixedTurn q lat f x k with gang := g } := by
  cases h : q.holds (x.thr k) with
  | true => rw [fixedTurn_of_holds h, fixedTurn_of_holds (x := { x with gang := g }) h]; rfl
  | false => rw [fixedTurn_of_not h, fixedTurn_of_not (x := { x with gang := g }) h]; rfl

theorem foldl_fixedTurn_gang (l : List Nat) (x : State) (g : List Nat) :
    l.foldl (fixedTurn q lat f) { x with gang := g } = { l.foldl (fixedTurn q lat f) x with gang := g } := by
  induction l generalizing x with
  | nil => rfl
  | cons k l ih => rw [List.foldl_cons, fixedTurn_gang, ih, List.foldl_cons]

/-- A test of each member in its own turn is the test before every turn. -/
theorem foldl_fixedTurn (l : List Nat) (hl : l.Nodup) (s x : State) (h : ∀ k ∈ l, x.threads.find k = s.threads.find k) :
    l.foldl (fun x k => if q.holds (s.thr k) then takeTurn q (fixedFor q lat f) x k else skipTurn q x k) x = l.foldl (fixedTurn q lat f) x := by
  induction l generalizing x with
  | nil => rfl
  | cons k l ih =>
    obtain ⟨hk, hl⟩ := List.nodup_cons.mp hl
    obtain ⟨hxk, hx⟩ := List.forall_mem_cons.mp h
    have hturn : (if q.holds (s.thr k) then takeTurn q (fixedFor q lat f) x k else skipTurn q x k) = fixedTurn q lat f x k := by
      rw [fixedTurn, State.thr_of_find_eq hxk]
    rw [List.foldl_cons, List.foldl_cons, hturn]
    refine ih hl _ fun j hj => ?_
    exact (fixedTurn_leavesOthers q lat f x k j fun e => hk (e ▸ hj)).trans (hx j hj)

end

section
variable {s : State} {q : Issue} {named reads : List Nat} (lat : Nat) (f : Thread → List Landing) (hu : q.uniform = false)
include hu

/-- A fixed-latency instruction of a gang without the uniform bit is its members' turns in the order of the gang. -/
theorem fixedOp_apart (hn : s.gang.Nodup) (hr : ∀ k ∈ s.gang, ∀ r ∈ named, r < (s.thr k).n) (hm : ∀ k ∈ s.gang, (s.thr k).marks = []) :
    s.fixedOp q lat named reads f = s.gang.foldl (fixedTurn q lat f) s := by
  have hgang := runGang_apart (B := fixedFor q lat f) (body := fun s l recv => .ok (s.fixed q lat recv (f (s.thr l)))) (reads := reads)
    (fun _ _ => rfl) (fixedFor_leavesOthers q lat f) hu hn hr fun k hk r _ => by rw [hm k hk]; rfl
  have hpart := foldl_filter_partition (p := fun k => q.holds (s.thr k)) (f := skipTurn q) (g := takeTurn q (fixedFor q lat f))
    (fun x j k hk hj => takeTurn_skipTurn_comm q lat f x fun e => by subst e; exact Bool.noConfusion (hj.symm.trans hk)) s.gang s
  exact hgang.trans (hpart.trans (foldl_fixedTurn q lat f s.gang hn s s fun _ _ => rfl))

/-- By itself a member takes the turn that it takes in the gang. -/
theorem fixedOp_alone_turn {x : State} {k : Nat} (hr : ∀ r ∈ named, r < (x.thr k).n) (hm : (x.thr k).marks = []) :
    ({ x with gang := [k] } : State).fixedOp q lat named reads f = { fixedTurn q lat f x k with gang := [k] } := by
  rw [fixedOp_apart lat f hu (s := { x with gang := [k] }) (List.nodup_singleton k) (fun j hj => List.mem_singleton.mp hj ▸ hr)
    (fun j hj => List.mem_singleton.mp hj ▸ hm),
    List.foldl_cons, List.foldl_nil, fixedTurn_gang]

end

/-- An instruction that is one fixed-latency operation, whose results each member computes from itself alone. -/
def Instr.IsFixedOp (i : Instr) (q : Issue) (named : List Nat) : Prop :=
  ∃ lat reads f, ∀ s, exec i s = .next (s.fixedOp q lat named reads f)

section
variable {i : Instr} {q : Issue} {lat d a b : Nat}

theorem isFixedOp_rr {f : Word → Word} (hx : ∀ s, exec i s = .next (s.rr q lat d a f)) : Instr.IsFixedOp i q [d, a] := ⟨_, _, _, hx⟩

theorem isFixedOp_rrr {f : Word → Word → Word} (hx : ∀ s, exec i s = .next (s.rrr q lat d a b f)) : Instr.IsFixedOp i q [d, a, b] := ⟨_, _, _, hx⟩

theorem isFixedOp_prr {f : Word → Word → Bool} (hx : ∀ s, exec i s = .next (s.prr q lat d a b f)) : Instr.IsFixedOp i q [a, b] := ⟨_, _, _, hx⟩

theorem isFixedOp_frr {y : FTy} {f : Nat → Nat} (hx : ∀ s, exec i s = .next (s.frr q lat y d a f)) : Instr.IsFixedOp i q [d, a] := isFixedOp_rr hx

theorem isFixedOp_frrr {y : FTy} {f : FVal → FVal → Nat} (hx : ∀ s, exec i s = .next (s.frrr q y d a b f)) : Instr.IsFixedOp i q [d, a, b] :=
  isFixedOp_rrr hx

theorem isFixedOp_fmm {y : FTy} {mx : Bool} (hx : ∀ s, exec i s = .next (s.fmm q y mx d a b)) : Instr.IsFixedOp i q [d, a, b] := isFixedOp_rrr hx

end

/-- Every instruction of class I2 or F4 is one such operation, and names no register but those of its fields (R31). -/
theorem exec_isFixed {i : Instr} {q : Issue} {named : List Nat} (h : Instr.fields i = some (q, named)) (hi : Instr.isFixed i = true) :
    ∃ named', (∀ r ∈ named', r ∈ named) ∧ Instr.IsFixedOp i q named' := by
  cases i <;> cases hi <;> cases h
  -- the short forms, BFI and MOVK name their destination once more, as a source
  case c16Add | c16Sub | c16And | c16Or | c16Xor | bfi => exact ⟨_, by simp, isFixedOp_rrr fun _ => rfl⟩
  case c16Addi | c16Shli | c16Shri | c16Sari | movk => exact ⟨_, by simp, isFixedOp_rr fun _ => rfl⟩
  case c16FaddD | c16FsubD | c16FmulD => exact ⟨_, by simp, isFixedOp_frrr fun _ => rfl⟩
  case c16FminD | c16FmaxD => exact ⟨_, by simp, isFixedOp_fmm fun _ => rfl⟩
  -- FUNPACK names its source after its destinations
  case funpack => exact ⟨_, by simp [run, or_comm], _, _, _, fun _ => rfl⟩
  all_goals refine ⟨_, fun _ => id, ?_⟩
  case i32FaddD | i32FsubD | i32FmulD | i32FaddF | i32FsubF | i32FmulF | i64Fadd | i64Fsub | i64Fmul => exact isFixedOp_frrr fun _ => rfl
  case i32FminD | i32FmaxD | i32FminF | i32FmaxF | i64Fmin | i64Fmax => exact isFixedOp_fmm fun _ => rfl
  case i32FabsD | i32FnegD | i32FabsF | i32FnegF | i32FclassD | i32FclassF | i32FgetmanD | i32FgetmanF | frnd => exact isFixedOp_frr fun _ => rfl
  case i32SetpEq | i32SetpNe | i32SetpLtS64 | i32SetpLeS64 | i32SetpLtN64 | i32SetpLeN64 | i32FsetpEqD | i32FsetpNeD | i32FsetpLtD | i32FsetpLeD
    | i32FsetpUnD | i32FsetpEqF | i32FsetpNeF | i32FsetpLtF | i32FsetpLeF | i32FsetpUnF | i64Setp | i64Fsetp => exact isFixedOp_prr fun _ => rfl
  case c16Movi | i32Movi | pand | por | pxor | pnot | p2v | v2p | mad | sel | movl | ffma | swr | fpack => exact ⟨_, _, _, fun _ => rfl⟩
  case i32Add | i32Sub | i32Mul | i32MulhS64 | i32MulhN64 | i32MinS64 | i32MinN64 | i32MaxS64 | i32MaxN64 | i32And | i32Andn | i32Or | i32Xor
    | i32Shl | i32Shr | i32Sar | i32Rot | i64Add | i64Sub | i64Mul | i64MulhS | i64MulhN | i64MinS | i64MinN | i64MaxS | i64MaxN | i64And
    | i64Andn | i64Or | i64Xor | i64Shl | i64Shr | i64Sar | i64Rot | lea | fscale => exact isFixedOp_rrr fun _ => rfl
  -- what is left has one destination and one source
  all_goals exact isFixedOp_rr fun _ => rfl

/-- Members that may execute, each issuing as if it were the gang, take their turns one after another. -/
theorem foldl_alone_turns {i : Instr} {q : Issue} {named reads : List Nat} {lat : Nat} {f : Thread → List Landing} (hu : q.uniform = false)
    (hx : ∀ s, exec i s = .next (s.fixedOp q lat named reads f)) (l : List Nat) (hl : l.Nodup) (x : State)
    (hr : ∀ k ∈ l, ∀ r ∈ named, r < (x.thr k).n) (hm : ∀ k ∈ l, (x.thr k).marks = []) (g g' : List Nat) :
    ({ l.foldl (fun x k => Out.orElse (exec i { x with gang := [k] }) x) { x with gang := g' } with gang := g } : State) =
      { l.foldl (fixedTurn q lat f) x with gang := g } := by
  induction l generalizing x g' with
  | nil => rfl
  | cons k l ih =>
    obtain ⟨hk, hl⟩ := List.nodup_cons.mp hl
    obtain ⟨hrk, hr⟩ := List.forall_mem_cons.mp hr
    obtain ⟨hmk, hm⟩ := List.forall_mem_cons.mp hm
    have hturn : ∀ y, Out.orElse (exec i { x with gang := [k] }) y = { fixedTurn q lat f x k with gang := [k] } := fun y => by
      rw [hx, fixedOp_alone_turn lat f hu hrk hmk]
      rfl
    have hother : ∀ j ∈ l, (fixedTurn q lat f x k).thr j = x.thr j := fun j hj =>
      State.thr_of_find_eq (fixedTurn_leavesOthers q lat f x k j fun e => hk (e ▸ hj))
    rw [List.foldl_cons, List.foldl_cons, hturn]
    exact ih hl _ (fun j hj => by rw [hother j hj]; exact hr j hj) (fun j hj => by rw [hother j hj]; exact hm j hj) _

/-- Settles O35: the gang and its members by themselves take the same turns in the same order. -/
theorem gangIsItsMembers : Obligations.GangIsItsMembers := by
  intro i q named s hfields hfixed hu hnodup hmembers
  obtain ⟨named', hsub, lat, reads, f, hx⟩ := exec_isFixed hfields hfixed
  have hr : ∀ k ∈ s.gang, ∀ r ∈ named', r < (s.thr k).n := fun k hk r hr => by
    obtain ⟨t, ht, -, -, hn⟩ := hmembers k hk
    rw [State.thr_of_find ht]
    exact hn r (hsub r hr)
  have hm : ∀ k ∈ s.gang, (s.thr k).marks = [] := fun k hk => by
    obtain ⟨t, ht, hmarks, -, -⟩ := hmembers k hk
    rw [State.thr_of_find ht, hmarks]
  have hone : s.oneByOne i s.gang = { s.gang.foldl (fixedTurn q lat f) s with gang := s.gang } :=
    foldl_alone_turns hu hx s.gang hnodup s hr hm s.gang s.gang
  rw [hx, fixedOp_apart lat f hu hnodup hr hm, hone, ← foldl_fixedTurn_gang]

end Sys2Proof.Machine
end

section
/-! SHFL, VOTE AND REDB (O19): each taker of a gang leaves its own operation outstanding, whose result comes from the takers of its bundle
(spec/08_parallel_work.md R163, spec/10_isa_synchronisation.md R198-R200). -/

set_option Elab.async false
namespace Sys2Proof.Machine

/-! ## Operations of a gang's members -/

/-- Member k leaves its operation outstanding. -/
def opFor (q : Issue) (p : Nat → Pending) (x : State) (k : Nat) : State :=
  x.startOp q (p k).sync (p k).ord k [k] (p k).lat (p k).kind (p k).also

theorem opFor_leavesOthers (q : Issue) (p : Nat → Pending) : LeavesOthers (opFor q p) := by
  intro x k j h
  unfold opFor State.startOp
  cases (p k).sync
  · rfl
  · exact State.updThread_find_other _ _ h

section
variable {q : Issue} {p : Nat → Pending}

/-- The turn of a running member: its operation stands under the next issue number, and it goes on. -/
theorem takeTurn_opFor {x : State} {k : Nat} {t : Thread} (ht : x.threads.find k = some t) (hrun : t.status = .run) :
    ∃ ts, takeTurn q (opFor q p) x k = { x with threads := ts, ops := x.ops.put x.nextSeq ((p k).op x q k t), nextSeq := x.nextSeq + 1 } ∧
      Tbl.find ts k = some (t.afterOp x q (p k)) ∧ ∀ j, j ≠ k → Tbl.find ts j = x.threads.find j :=
  startOp_issued x (p k) ht hrun rfl rfl rfl rfl rfl

theorem Pending.op_congr {x s : State} (p : Pending) (hc : x.clk = s.clk) (hi : x.inst = s.inst) (k : Nat) (t : Thread) :
    p.op x q k t = p.op s q k t := by
  simp [Pending.op, hc, hi]

theorem Thread.afterOp_congr {x s : State} (t : Thread) (p : Pending) (hc : x.clk = s.clk) (hd : x.draws = s.draws) (hn : x.nextSeq = s.nextSeq) :
    t.afterOp x q p = t.afterOp s q p := by
  simp only [Thread.afterOp, Thread.wentOn, hc, hd, hn]

/-- Later members' turns leave the operations that stand. -/
theorem foldl_takeTurn_ops (l : List Nat) (hl : l.Nodup) (x : State) (hrun : ∀ k ∈ l, ∃ t, x.threads.find k = some t ∧ t.status = .run) {n : Nat}
    (hn : n < x.nextSeq) : (l.foldl (takeTurn q (opFor q p)) x).ops.find n = x.ops.find n := by
  induction l generalizing x with
  | nil => rfl
  | cons k l ih =>
    obtain ⟨hk, hl⟩ := List.nodup_cons.mp hl
    obtain ⟨⟨t, ht, hst⟩, hrun⟩ := List.forall_mem_cons.mp hrun
    obtain ⟨ts, hturn, -, hts⟩ := takeTurn_opFor (q := q) (p := p) ht hst
    rw [List.foldl_cons, hturn]
    refine (ih hl _ (fun j hj => ?_) (Nat.lt_succ_of_lt hn)).trans (Tbl.find_put_other _ _ hn.ne)
    obtain ⟨u, hu, hus⟩ := hrun j hj
    exact ⟨u, (hts j fun e => hk (e ▸ hj)).trans hu, hus⟩

/-- The n-th member's operation stands under the n-th number from the first, and the member has gone on. -/
theorem foldl_takeTurn_nth (l : List Nat) (hl : l.Nodup) (x : State) (hrun : ∀ k ∈ l, ∃ t, x.threads.find k = some t ∧ t.status = .run) {n k : Nat}
    (hk : l[n]? = some k) :
    (l.foldl (takeTurn q (opFor q p)) x).ops.find (x.nextSeq + n) = some ((p k).op x q k (x.thr k)) ∧
      (l.foldl (takeTurn q (opFor q p)) x).threads.find k = some ((x.thr k).afterOp { x with nextSeq := x.nextSeq + n } q (p k)) := by
  induction l generalizing x n with
  | nil => cases hk
  | cons m l ih =>
    obtain ⟨hm, hl⟩ := List.nodup_cons.mp hl
    obtain ⟨⟨t, ht, hst⟩, hrun⟩ := List.forall_mem_cons.mp hrun
    obtain ⟨ts, hturn, htm, hts⟩ := takeTurn_opFor (q := q) (p := p) ht hst
    have hrest : ∀ j ∈ l, ∃ t, Tbl.find ts j = some t ∧ t.status = .run := fun j hj => by
      obtain ⟨u, hu, hus⟩ := hrun j hj
      exact ⟨u, (hts j fun e => hm (e ▸ hj)).trans hu, hus⟩
    rw [List.foldl_cons, hturn]
    cases n with
    | zero =>
      obtain rfl : m = k := by simpa using hk
      constructor
      · rw [foldl_takeTurn_ops l hl _ hrest (Nat.lt_succ_self _), State.thr_of_find ht]
        exact Tbl.find_put_same _ _ _
      · rw [(takeTurn_leavesOthers q (opFor_leavesOthers q p)).foldl l _ hm, State.thr_of_find ht]
        exact htm
    | succ n =>
      have hkl : l[n]? = some k := by simpa using hk
      have hne : k ≠ m := fun e => hm (e ▸ List.mem_of_getElem? hkl)
      obtain ⟨hop, hthread⟩ := ih hl
        { x with threads := ts, ops := x.ops.put x.nextSeq ((p m).op x q m t), nextSeq := x.nextSeq + 1 } hrest hkl
      have hthr := State.thr_of_find_eq (s := x) (x := { x with threads := ts, ops := x.ops.put x.nextSeq ((p m).op x q m t), nextSeq := x.nextSeq + 1 })
        (hts k hne)
      have hnum : x.nextSeq + (n + 1) = x.nextSeq + 1 + n := by omega
      rw [hthr] at hop hthread
      rw [hnum]
      exact ⟨hop, hthread⟩

/-- A bundle-wide instruction whose body leaves an operation outstanding for each taker. -/
theorem givesEach_of_ops {s : State} {i : Instr} {named reads : List Nat} {body : Body} (hx : exec i s = .next (s.runGang q named reads true body))
    (hB : ∀ x k, body x k [k] = .ok (opFor q p x k)) (h : s.Together q named reads) : s.GivesEach i q p := by
  have hthr : ∀ k ∈ s.gang, s.threads.find k = some (s.thr k) ∧ (s.thr k).status = .run ∧ (∀ r ∈ named, r < (s.thr k).n) ∧
      ∀ r ∈ reads, (s.thr k).marks.find r = none := fun k hk => by
    obtain ⟨t, ht, hrest⟩ := h.here k hk
    rw [State.thr_of_find ht]
    exact ⟨ht, hrest⟩
  have hrun := runGang_apart (q := q) hB (opFor_leavesOthers q p) h.apart h.nodup (fun k hk => (hthr k hk).2.2.1) fun k hk => (hthr k hk).2.2.2
  generalize hs0 : (s.gang.filter fun k => !q.holds (s.thr k)).foldl (skipTurn q) s = s0 at hrun
  have hkept : (s0.clk, s0.draws, s0.inst, s0.nextSeq, s0.mem) = (s.clk, s.draws, s.inst, s.nextSeq, s.mem) :=
    hs0 ▸ foldl_fixes (g := fun x : State => (x.clk, x.draws, x.inst, x.nextSeq, x.mem)) (f := skipTurn q) (fun _ _ => rfl) _ s
  simp only [Prod.mk.injEq] at hkept
  obtain ⟨hclk, hdraws, hinst, hseq, hmem⟩ := hkept
  have hfind : ∀ k ∈ s.takers q, s0.threads.find k = s.threads.find k := fun k hk =>
    hs0 ▸ (skipTurn_leavesOthers q).foldl _ s (by simp [(List.mem_filter.mp hk).2])
  refine ⟨_, hx.trans (congrArg _ hrun), ?_, fun n k hk => ?_⟩
  · refine (foldl_fixes (g := State.mem) (fun x k => ?_) _ s0).trans hmem
    unfold takeTurn opFor State.startOp
    cases (p k).sync <;> rfl
  · have hall : ∀ k ∈ s.takers q, ∃ t, s0.threads.find k = some t ∧ t.status = .run := fun k hk => by
      obtain ⟨ht, hst, -⟩ := hthr k (List.mem_filter.mp hk).1
      exact ⟨_, (hfind k hk).trans ht, hst⟩
    obtain ⟨hop, hthread⟩ := foldl_takeTurn_nth (q := q) (p := p) (s.takers q) (h.nodup.filter _) s0 hall hk
    rw [State.thr_of_find_eq (hfind k (List.mem_of_getElem? hk)), hseq] at hop hthread
    exact ⟨hop.trans (congrArg some (Pending.op_congr _ hclk hinst _ _)), hthread.trans (congrArg some (Thread.afterOp_congr _ _ hclk hdraws rfl))⟩

end

/-! ## Takers of one bundle -/

/-- A bit of a lane mask tells of a thread on that lane (R353). -/
theorem laneMask_testBit (ks : List Nat) (i : Nat) : (laneMask ks).testBit i = true ↔ ∃ k ∈ ks, laneOf k = i := by
  have hfold : ∀ (l : List Nat) (m : Nat), (l.foldl (fun m k => m ||| 2 ^ laneOf k) m).testBit i = true ↔ m.testBit i = true ∨ ∃ k ∈ l, laneOf k = i := by
    intro l
    induction l with
    | nil => simp
    | cons k l ih => intro m; simp [ih, Nat.testBit_two_pow, or_assoc]
  simpa [laneMask] using hfold ks 0

theorem State.partners_eq (s : State) (q : Issue) (k : Nat) : s.partners q k = (s.takers q).filter fun j => sameBundle j k := by
  simp [State.partners, State.takers, List.filter_filter, sameBundle]

section
variable {s : State} {q : Issue} {k : Nat}

/-- SHFL reads the taker on the source lane (R198). -/
theorem State.shflFrom_some {m : ShflMode} {vb j : Nat} (h : s.shflFrom q m k vb = some j) :
    j ∈ s.partners q k ∧ some (laneOf j) = shflSource m (laneOf k) ((s.thr k).reg vb) := by
  unfold State.shflFrom at h
  split at h
  next l hl =>
    have hlane : laneOf j = l := by simpa using List.find?_some h
    exact ⟨List.mem_of_find?_eq_some h, by rw [hl, hlane]⟩
  · cases h

theorem State.shflFrom_none {m : ShflMode} {vb : Nat} (h : s.shflFrom q m k vb = none) :
    ∀ j ∈ s.partners q k, some (laneOf j) ≠ shflSource m (laneOf k) ((s.thr k).reg vb) := by
  unfold State.shflFrom at h
  intro j hj
  split at h
  next l hl =>
    have hlane : laneOf j ≠ l := by simpa using List.find?_eq_none.mp h j hj
    rw [hl]
    exact fun e => hlane (Option.some.inj e)
  next hl => simp [hl]

/-- The ballot of some threads has a bit for each that votes for it (R199). -/
theorem ballot_getLsbD (ks : List Nat) (i : Nat) : (BitVec.ofNat 64 (laneMask ks)).getLsbD i = true ↔ ∃ k ∈ ks, laneOf k = i := by
  have hlane : ∀ k, laneOf k < 64 := fun k => (Nat.mod_lt k (by decide : 32 > 0)).trans (by decide)
  rw [BitVec.getLsbD_ofNat, Bool.and_eq_true, decide_eq_true_eq, laneMask_testBit]
  exact ⟨And.right, fun ⟨k, hk, e⟩ => ⟨e ▸ hlane k, k, hk, e⟩⟩

/-- All values equal the first one's when any two are equal. -/
theorem all_eq_head_iff (ps : List Nat) (f : Nat → Word) : (ps.all fun k => f k == f (ps.headD 0)) = true ↔ ∀ i ∈ ps, ∀ j ∈ ps, f i = f j := by
  simp only [List.all_eq_true, beq_iff_eq]
  refine ⟨fun h i hi j hj => (h i hi).trans (h j hj).symm, fun h i hi => h i hi _ ?_⟩
  cases ps with
  | nil => cases hi
  | cons a l => exact List.mem_cons_self

end

/-- What VOTE writes, by each kind of vote (R199). -/
theorem State.voteResult_spec (s : State) (ps : List Nat) (v : VoteOp) :
    match v with
    | .any inv pd pa => ∃ b : Bool, s.voteResult ps v = .pred pd.toNat b ∧ (b = true ↔ ∃ j ∈ ps, (s.thr j).pred pa.toNat ≠ inv)
    | .all inv pd pa => ∃ b : Bool, s.voteResult ps v = .pred pd.toNat b ∧ (b = true ↔ ∀ j ∈ ps, (s.thr j).pred pa.toNat ≠ inv)
    | .ballot inv vd pa => ∃ w : Word, s.voteResult ps v = .reg vd.toNat w none ∧
        ∀ i, w.getLsbD i = true ↔ ∃ j ∈ ps, laneOf j = i ∧ (s.thr j).pred pa.toNat ≠ inv
    | .eq pd va => ∃ b : Bool, s.voteResult ps v = .pred pd.toNat b ∧
        (b = true ↔ ∀ i ∈ ps, ∀ j ∈ ps, (s.thr i).reg va.toNat = (s.thr j).reg va.toNat) := by
  cases v with
  | any inv pd pa => exact ⟨_, rfl, by simp⟩
  | all inv pd pa => exact ⟨_, rfl, by simp⟩
  | ballot inv vd pa =>
    refine ⟨_, rfl, fun i => ?_⟩
    rw [ballot_getLsbD]
    simp only [List.mem_filter, bne_iff_ne]
    exact exists_congr fun j => by tauto
  | eq pd va => exact ⟨_, rfl, all_eq_head_iff ps fun k => (s.thr k).reg va.toNat⟩

theorem RedTy.fty_isSome (ty : RedTy) : (RedTy.fty ty).isSome = true ↔ ty = .d ∨ ty = .f := by
  cases ty <;> simp [RedTy.fty]

/-- Settles O19: each taker's body leaves its own operation outstanding, with what the takers of its bundle hold. -/
theorem bundleWideInstructions : Obligations.BundleWide := by
  intro s c mode pv v op ty vd va vb q mates val
  have hmates : ∀ k, s.partners q k = mates k := s.partners_eq q
  refine ⟨fun h => ?_, fun h => ?_, fun h => ?_⟩
  · refine ⟨fun k => s.shflFrom q mode k vb.toNat, fun k j hj => ?_, fun k hk => ?_, givesEach_of_ops rfl (fun x k => ?_) h⟩
    · exact hmates k ▸ State.shflFrom_some hj
    · exact hmates k ▸ State.shflFrom_none hk
    · cases hfrom : s.shflFrom q mode k vb.toNat <;> simp [opFor, hfrom, val, q]
  · refine ⟨fun k => s.voteResult (mates k) v, fun k => ?_, givesEach_of_ops rfl (fun x k => ?_) h⟩
    · have hspec := s.voteResult_spec (mates k) v
      cases v <;> exact hspec
    · simp only [opFor, ← hmates]
      rfl
  · refine givesEach_of_ops rfl (fun x k => ?_) h
    simp only [opFor, ← hmates, RedTy.fty_isSome]
    rfl

end Sys2Proof.Machine
end

section
/-! THE SCHEDULE'S BOOKS (O46, O47): the queue engines' records of their queues, and the launches, which no write of memory and no copy-on-write
touches (spec/09_scheduling_hardware.md R175, R177). -/

set_option Elab.async false
namespace Sys2Proof.Machine

/-- What the queue engines keep of their queues, and the launches that they have taken. -/
def State.books (s : State) : Tbl QueueSt × Tbl Launch := (s.queues, s.launches)

section
variable {s t : State} (h : t.books = s.books)
include h

theorem State.queue_of_books (d ctx q : Nat) : t.queue d ctx q = s.queue d ctx q :=
  congrArg (fun b : Tbl QueueSt × Tbl Launch => (b.1.find (queueKey d ctx q)).getD {}) h

theorem State.launches_of_books : t.launches = s.launches := congrArg (·.2) h

end

/-! ## Writes of memory -/

@[simp] theorem State.rekey_books (s : State) (g pa n : Nat) : (s.rekey g pa n).books = s.books :=
  foldl_fixes (g := State.books) (fun x sec => by grind [State.rekeySector, State.books]) _ s

@[simp] theorem State.writeBits_books (s : State) (w : Writer) (key pa : Nat) (bs : List Byte) (fes : List (Nat × Bool)) :
    (s.writeBits w key pa bs fes).books = s.books := by
  unfold State.writeBits
  extract_lets s1 old e away secs on s2 s3
  have h2 : s2.books = s1.books :=
    foldl_fixes (g := State.books) (f := fun (x : State) sec => x.ownSector w.core w.die (64 * sec)) (fun _ _ => rfl) secs s1
  have h3 : s3.books = s2.books := rfl
  exact (foldl_fixes (g := State.books) (f := fun (x : State) (f : Nat × Bool) => x.setFull f.1 f.2) (fun _ _ => rfl) fes s3).trans
    (h3.trans (h2.trans (State.rekey_books ..)))

@[simp] theorem State.writePa_books (s : State) (w : Writer) (key pa : Nat) (bs : List Byte) (fe : Option Bool) :
    (s.writePa w key pa bs fe).books = s.books := State.writeBits_books ..

@[simp] theorem State.classAgentWrite_books (s : State) (pa : Nat) : (s.classAgentWrite pa).books = s.books := by
  unfold State.classAgentWrite
  split
  · split <;> rfl
  · rfl

@[simp] theorem State.hwWriteBy_books (s : State) (past : List Nat) (pa : Nat) (v : Word) : (s.hwWriteBy past pa v).books = s.books := by
  simp [State.hwWriteBy]

@[simp] theorem State.hwWrite_books (s : State) (pa : Nat) (v : Word) : (s.hwWrite pa v).books = s.books := State.hwWriteBy_books ..

@[simp] theorem State.hwRelease_books (s : State) (past : List Nat) (pa : Nat) (ws : List Word) : (s.hwRelease past pa ws).books = s.books := by
  induction ws generalizing s past pa with
  | nil => rfl
  | cons v vs ih => simp [State.hwRelease, ih]

@[simp] theorem State.writeWords_books (s : State) (w : Writer) (key pa : Nat) (bs : List Byte) (ws : List Nat) (b : Bool) :
    (s.writeWords w key pa bs ws b).books = s.books :=
  (foldl_fixes (g := State.books) (fun x a => by unfold State.wakeWord; split <;> rfl) _ _).trans (State.writeBits_books ..)

@[simp] theorem State.dropPeerCopy_books (s : State) (pa : Nat) : (s.dropPeerCopy pa).books = s.books := by
  unfold State.dropPeerCopy
  split <;> rfl

@[simp] theorem State.agentPut_books (s : State) (w : Writer) (key pa : Nat) (bs : List Byte) (fill : Option Bool) :
    (s.agentPut w key pa bs fill).books = s.books := by
  unfold State.agentPut State.agentPutAs
  extract_lets s0
  have h0 : s0.books = s.books := s.dropPeerCopy_books pa
  split
  · split <;> simp [State.writeWordFe, h0]
  · grind [State.queueOn, State.holdWrite, State.books]

/-! ## Reads and copies -/

theorem State.foldl_shareSector_books (l : List Nat) (s : State) : (l.foldl State.shareSector s).books = s.books :=
  foldl_fixes (g := State.books) (f := State.shareSector) (fun _ _ => rfl) l s

@[simp] theorem State.hwProbe_books (s : State) (pa n : Nat) : (s.hwProbe pa n).books = s.books := State.foldl_shareSector_books _ s

@[simp] theorem State.agentRead_books (s : State) (pa n : Nat) : (s.agentRead pa n).books = s.books := by
  unfold State.agentRead
  refine (State.foldl_shareSector_books _ _).trans ?_
  split
  · unfold State.outsideStore
    split
    · exact State.writePa_books ..
    · rfl
  · rfl

@[simp] theorem State.ncOut_books (s : State) (a : Access) : (s.ncOut a).books = s.books := by
  unfold State.ncOut
  split <;> rfl

/-! ## The service ring -/

@[simp] theorem State.ringWaits_books (s : State) (d pa : Nat) : (s.ringWaits d pa).books = s.books := by
  unfold State.ringWaits
  split <;> rfl

theorem State.svWrite_books {s t : State} {e : List Word} (h : s.svWrite e = some t) : t.books = s.books := by
  unfold State.svWrite at h
  extract_lets size wr at h
  split at h
  · obtain rfl := Option.some.inj h
    exact State.hwRelease_books s s.hwPast s.svPlace e
  · cases h

@[simp] theorem State.service_books (s : State) (kind ctx : Nat) (e1 e2 : Word) : (s.service kind ctx e1 e2).books = s.books := by
  unfold State.service State.serviceEntry
  generalize [pack [(kind, 0), (ctx, 32)], e1, e2, 0, 0, 0, 0, 0] = e
  extract_lets wait
  have hwait : wait.books = s.books := State.ringWaits_books { s with svQueue := s.svQueue ++ [e] } 0 s.svPlace
  split
  · cases h : s.svWrite e with
    | none => exact hwait
    | some t => exact State.svWrite_books h
  · exact hwait

/-! ## Waiter records of a moved frame -/

@[simp] theorem State.sectorTrim_books (s : State) (sec : Nat) : (s.sectorTrim sec).books = s.books := by
  unfold State.sectorTrim
  split <;> rfl

@[simp] theorem State.release_books (s : State) (word ident : Nat) : (s.release word ident).books = s.books := by
  unfold State.release
  split <;> rfl

@[simp] theorem State.parkWrite_books (s : State) (past : List Nat) (a : Access) (ws : List Word) (j : Nat) :
    (s.parkWrite past a ws j).books = s.books := by
  induction ws generalizing s j with
  | nil => rfl
  | cons v vs ih => simp [State.parkWrite, ih]

@[simp] theorem State.parkKeep_books (s : State) (past : List Nat) (die ctx pa : Nat) (stay : Nat → Bool) :
    (s.parkKeep past die ctx pa stay).books = s.books :=
  foldl_fixes (g := fun p : State × Nat => p.1.books) (fun p e => by dsimp only; split <;> simp) _ (s, 0)

theorem State.parkAdd_books {s t : State} {past : List Nat} {die ctx pa ident : Nat} (h : s.parkAdd past die ctx pa ident = some t) :
    t.books = s.books := by
  grind [State.parkAdd, State.parkWrite_books, Option.map_eq_some_iff]

theorem State.holdWaiter_books {s t : State} {ctx word ident : Nat} (h : s.holdWaiter ctx word ident = some t) : t.books = s.books := by
  grind [State.holdWaiter, → State.parkAdd_books, State.books]

@[simp] theorem State.rekeyFrame_books (s : State) (past : List Nat) (old new : Nat) : (s.rekeyFrame past old new).books = s.books := by
  unfold State.rekeyFrame
  extract_lets ws held s1 s2 s3
  have h2 : s2.books = s1.books := foldl_fixes (g := State.books) (fun x w =>
    foldl_fixes (g := State.books) (fun y c => by split <;> simp) _ x) ws s1
  have h3 : s3.books = s2.books := foldl_fixes (g := State.books) State.sectorTrim_books _ _
  refine (foldl_fixes (g := State.books) (fun x h => ?_) held s3).trans (h3.trans (h2.trans rfl))
  cases e : x.holdWaiter h.2.1 (movedWord old new h.1) h.2.2 with
  | none => simp
  | some y => simpa using State.holdWaiter_books e

/-! ## A copy-on-write -/

@[simp] theorem State.setResCount_books (s : State) (reg n : Nat) : (s.setResCount reg n).books = s.books := State.hwWrite_books ..

theorem State.poolPush_books {s t : State} {frame : Nat} (h : s.poolPush frame = some t) : t.books = s.books := by
  unfold State.poolPush at h
  extract_lets n at h
  split at h
  · obtain rfl := Option.some.inj h
    exact State.hwWrite_books ..
  · cases h

@[simp] theorem State.returnFrame_books (s : State) (reg ctx frame : Nat) : (s.returnFrame reg ctx frame).books = s.books := by
  unfold State.returnFrame
  extract_lets s1 n
  have h1 : s1.books = s.books := rfl
  split
  · simp [h1]
  · split
    · simp [h1]
    · cases h : s1.poolPush frame with
      | none => simp [h1]
      | some t => exact (State.poolPush_books h).trans h1

@[simp] theorem State.refill_books (s : State) (reg n : Nat) : (s.refill reg n).books = s.books := by
  induction n generalizing s with
  | zero => rfl
  | succ n ih =>
    unfold State.refill
    split
    · split
      next f s1 h =>
        have h1 : s1.books = s.books := by
          unfold State.poolPop at h
          extract_lets n at h
          split at h
          · cases h
          · obtain ⟨-, rfl⟩ := Prod.mk.inj (Option.some.inj h)
            rfl
        simp [ih, h1]
      · rfl
    · rfl

@[simp] theorem State.dropSlots_books (s : State) (rec_ o ctx : Nat) : (s.dropSlots rec_ o ctx).books = s.books :=
  foldl_fixes (g := State.books) (fun x e => by split <;> simp) _ s

theorem State.cowStart_books {s t : State} {rec_ key op : Nat} (h : s.cowStart rec_ key op = some t) : t.books = s.books := by
  unfold State.cowStart at h
  extract_lets reg n f s1 at h
  split at h
  · cases h
  · obtain rfl := Option.some.inj h
    have h1 : s1.books = s.books := by simp [s1]
    exact (State.hwProbe_books ..).trans ((State.hwProbe_books ..).trans h1)

@[simp] theorem State.cowSwitch_books (s : State) (c : Cow) : (s.cowSwitch c).books = s.books := by
  unfold State.cowSwitch
  extract_lets old wo ctx past now s1 j s2 s3 s4
  have h1 : s1.books = s.books := State.dropSlots_books ..
  have h2 : s2.books = s1.books := (State.hwWriteBy_books ..).trans (State.hwWriteBy_books ..)
  have h3 : s3.books = s2.books := (State.rekeyFrame_books ..).trans ((State.hwWriteBy_books ..).trans (State.hwWriteBy_books ..))
  have h4 : s4.books = s3.books := by simp only [s4, State.replayFrom, State.books]
  have hs : s4.books = s.books := by rw [h4, h3, h2, h1]
  split
  · split
    · have h5 := State.service_books s4 2 ctx (BitVec.ofNat 64 c.region) 0
      simp only [State.books] at h5 hs ⊢
      exact h5.trans hs
    · exact (State.refill_books ..).trans hs
  · exact hs

theorem State.ownNow_books {s t : State} {ctx : Nat} {a : Access} (h : s.ownNow ctx a = .ok t) : t.books = s.books := by
  grind [State.ownNow, → State.cowStart_books, State.cowSwitch_books]

/-- A queue engine's write of a word touches neither the queues' records nor the launches. -/
theorem State.vaWrite_books {s t : State} {d ctx : Nat} {va v : Word} {fill : Option Bool} {w : Writer} (h : s.vaWrite d ctx va v fill w = .done t) :
    t.books = s.books := by
  grind [State.vaWrite, → State.ownNow_books, State.agentPut_books, State.ncOut_books]

end Sys2Proof.Machine
end

section
/-! QUEUES AND PLACEMENT (O46): the take of a slot, an attempt at one record's groves, the start of a queued block, and what the balancing leaves
of the cores' queues (spec/09_scheduling_hardware.md R173, R177-R183). -/

set_option Elab.async false
namespace Sys2Proof.Machine

/-! ## A queue's record -/

theorem State.queue_setQueue (s : State) (d ctx q : Nat) (f : QueueSt → QueueSt) : (s.setQueue d ctx q f).queue d ctx q = f (s.queue d ctx q) := by
  simp [State.queue, State.setQueue]

/-- A look at the enable bit of a queue that is known to be enabled changes nothing (R177). -/
theorem State.seeEnable_enabled {s : State} {d ctx q : Nat} (h : (s.queue d ctx q).enabled = true) : s.seeEnable d ctx q true = s := by
  simp [State.seeEnable, h]

/-! ## The take of a slot (R177) -/

/-- An unversioned access stands where it was translated to. -/
theorem State.paNow_unversioned (s : State) {a : Access} (h : a.vrec = none) : s.paNow a = a.pa := by
  simp [State.paNow, h]

/-- Unversioned pages are everybody's already (R262). -/
theorem State.ownAll_unversioned (s : State) (ctx : Nat) {as : List Access} (h : ∀ a ∈ as, a.vrec = none) : s.ownAll ctx as = .ok s := by
  induction as with
  | nil => rfl
  | cons a as ih =>
    obtain ⟨ha, has⟩ := List.forall_mem_cons.mp h
    simp [State.ownAll, State.ownNow, ha, ih has]

/-- A queue as QUEUE_TAKE finds it when nothing but the slot's words decides: its engine serves it and knows it enabled, its context is not on
hold, none of its words must wait, and its slot passes the checks. -/
structure State.Takes (s : State) (ctx q d : Nat) (w : List Word) (as : List Access) : Prop where
  served  : s.servedBy ctx q = (s, some (d, w))
  on      : bit (wordAt w 1) 7 = true
  records : bit (wordAt w 1) 8 = false
  enabled : (s.queue d ctx q).enabled = true
  free    : s.onHold ctx = false
  slot    : s.heldRead (qeAgent d) ctx (wordAt w 0 + BitVec.ofNat 64 (64 * ((s.queue d ctx q).taken % 2 ^ bits (wordAt w 1) 4 0))) 8 = false
  head    : s.heldRead (qeAgent d) ctx (wordAt w 2) 1 = false
  check   : s.slotCheck d ctx (wordAt w 0 + BitVec.ofNat 64 (64 * ((s.queue d ctx q).taken % 2 ^ bits (wordAt w 1) 4 0))) (wordAt w 2) = some as

/-- The record of a queue whose slot has passed its checks. -/
def State.slotGood (s : State) (d ctx q : Nat) : State := s.setQueue d ctx q fun x => { x with held := false }

theorem State.slotGood_queue (s : State) (d ctx q : Nat) : (s.slotGood d ctx q).queue d ctx q = { s.queue d ctx q with held := false } :=
  s.queue_setQueue d ctx q _

section
variable {s : State} {ctx q d : Nat} {w : List Word} {as : List Access} (h : s.Takes ctx q d w as)
include h

/-- QUEUE_TAKE comes down to the slot's words. -/
theorem State.Takes.exec_queueTake : exec (.queueTake ctx q) s =
    if as.all (fun a => (s.slotGood d ctx q).full ((s.slotGood d ctx q).paNow a)) then
      .next (((s.slotGood d ctx q).takeSlot d ctx q as (wordAt w 2)).getD
        (as.foldl (fun x a => if x.leaseFree (x.paNow a) then x else x.holdWrite (hwId d) (x.paNow a)) (s.slotGood d ctx q)))
    else .next (s.slotGood d ctx q) := by
  obtain ⟨hserved, hon, hrecords, henabled, hfree, hslot, hhead, hcheck⟩ := h
  have hclear : (!true || false || s.onHold ctx) = false := by simp [hfree]
  show execQueueTake ctx q s = _
  unfold execQueueTake
  rw [hserved]
  simp only [hon, hrecords, State.seeEnable_enabled henabled, hclear, hslot, hhead, hcheck, Bool.or_self, Bool.false_eq_true, if_false]
  rfl

/-- A slot with an EMPTY word is not taken. -/
theorem State.Takes.waits (he : ∃ a ∈ as, (s.slotGood d ctx q).full ((s.slotGood d ctx q).paNow a) = false) :
    exec (.queueTake ctx q) s = .next (s.slotGood d ctx q) := by
  have hall : as.all (fun a => (s.slotGood d ctx q).full ((s.slotGood d ctx q).paNow a)) = false := by
    simpa [List.all_eq_false] using he
  rw [h.exec_queueTake, hall, if_neg Bool.false_ne_true]

end

/-- The record that the take of a slot at pa, under a key, makes a launch of (R166, R177). -/
def State.takenLaunch (s : State) (d ctx q key pa : Nat) (past : List Nat) (s5 : State) : Launch :=
  let ws := (List.range 8).map fun i => s.readPa none key (pa + 8 * i) 8
  { words := ws, ctx := ctx, queue := q, die := d, order := s5.takeCount d, refused := s5.recordCheck ctx ws, past := past, bars := spanBars ws }

/-- The state after the take of that slot, whose writes have led to s5. -/
def State.tookSlot (s : State) (d ctx q key pa : Nat) (past : List Nat) (s5 : State) : State :=
  ({ s5.countTake d with launches := s5.launches.put s5.nextSeq (s.takenLaunch d ctx q key pa past s5), nextSeq := s5.nextSeq + 1 } : State).setQueue
    d ctx q fun x => { x with taken := (x.taken + 1) % 2 ^ 64 }

section
variable (s : State) (d ctx q key pa : Nat) (past : List Nat) (s5 : State)

theorem State.tookSlot_queue : ((s.tookSlot d ctx q key pa past s5).queue d ctx q).taken = ((s5.queue d ctx q).taken + 1) % 2 ^ 64 :=
  congrArg QueueSt.taken (State.queue_setQueue _ d ctx q _)

theorem State.tookSlot_launch :
    (s.tookSlot d ctx q key pa past s5).launches.find s5.nextSeq = some (s.takenLaunch d ctx q key pa past s5) := Tbl.find_put_same _ _ _

end

/-- The take of a slot on unversioned pages, whose writes may be made. -/
theorem State.takeSlot_done {s s5 : State} {d ctx q : Nat} {a : Access} {rest : List Access} {head : Word} (hv : ∀ x ∈ a :: rest, x.vrec = none)
    (hfree : s.agentFree .engine a.pa = true)
    (hdone : (((s.agentRead a.pa 64).classAgentWrite a.pa).writeWords
        { past := s.brought (metByAgent (s.readFrom none a.pa 64 true)), heads := (s.readFrom none a.pa 64 true).flatMap (·.2.heads) } a.key a.pa []
        ((List.range 8).map fun i => a.pa + 8 * i) false).vaWrite d ctx head (BitVec.ofNat 64 ((s.queue d ctx q).taken + 1)) none
      (agentRelease (s.brought (metByAgent (s.readFrom none a.pa 64 true)) ++ [s.nextSeq]) .sys) = .done s5) :
    s.takeSlot d ctx q (a :: rest) head =
      some (s.tookSlot d ctx q a.key a.pa (s.brought (metByAgent (s.readFrom none a.pa 64 true))) s5) := by
  have hpa : s.paNow a = a.pa := s.paNow_unversioned (hv a List.mem_cons_self)
  simp only [State.takeSlot, State.ownAll_unversioned s ctx hv, hpa, hfree, Bool.not_true, Bool.false_eq_true, if_false, hdone, Put.get?,
    Option.map_some]
  rfl

/-! ## Placement (R180, R181) -/

/-- An attempt at a context with one pending record, in the state c that its checks leave. -/
theorem exec_placementAttempt {s c : State} {die ctx lid : Nat} {f : Launch} (hfree : s.onHold ctx = false) (hp : s.pending die ctx ≠ [])
    (hc : (s.ctxChecks ctx).ctxCheck die ctx = (c, true)) (hone : c.pending die ctx = [(lid, f)]) :
    exec (.placementAttempt die ctx) s = .next (c.placeList [(lid, f)] none) := by
  show execPlacementAttempt die ctx s = _
  simp [execPlacementAttempt, hfree, List.isEmpty_eq_false_iff.mpr hp, State.placePending, hc, hone]

theorem State.placeList_span {c : State} {lid : Nat} {f : Launch} (h : (lSpan f.words && !f.node) = true) :
    c.placeList [(lid, f)] none = match c.placeSpan lid f (c.dieOrder f) 0 (lGroves f.words) with
      | some s1 => (s1.startedNow lid f).updLaunch lid fun x => { x with nextGrove := lGroves f.words }
      | none => c := by
  simp only [State.placeList, h, if_true]
  cases c.placeSpan lid f (c.dieOrder f) 0 (lGroves f.words) <;> simp

theorem State.placeList_sweep {c : State} {lid : Nat} {f : Launch} (h : (lSpan f.words && !f.node) = false) :
    c.placeList [(lid, f)] none = c.placeSweep lid 40000 := by
  simp [State.placeList, h]

theorem State.startedNow_threads (s : State) (lid : Nat) (l : Launch) : (s.startedNow lid l).threads = s.threads := by
  unfold State.startedNow
  split_ifs <;> rfl

theorem State.startedNow_blocks (s : State) (lid : Nat) (l : Launch) : (s.startedNow lid l).blocks = s.blocks := by
  unfold State.startedNow
  split_ifs <;> rfl

/-- The launch as its first block starts. -/
def Launch.begun (l : Launch) (first : Launch) : Launch := if first.started then l else { l with started := true }

theorem State.startedNow_find (s : State) (lid : Nat) (first : Launch) :
    (s.startedNow lid first).launches.find lid = (s.launches.find lid).map fun l => l.begun first := by
  unfold State.startedNow Launch.begun
  split_ifs <;> simp [State.updLaunch, State.bumpReg]

/-- The next grove placed, a launch has its words and its grove count, and goes on with the grove after. -/
theorem Launch.placed_begun_nextGrove (l first : Launch) : (l.begun first).placed.nextGrove = l.nextGrove + 1 := by
  unfold Launch.begun
  split_ifs <;> rfl

theorem Launch.placed_begun_due (l first : Launch) : (l.begun first).placed.due = l.forGrove.due := by
  unfold Launch.begun
  split_ifs <;> rfl

/-- A sweep of which no grove is due places nothing more. -/
theorem State.placeSweep_done {s : State} {lid : Nat} {l : Launch} (hl : s.launches.find lid = some l) (hd : l.due ≤ l.nextGrove) (n : Nat) :
    s.placeSweep lid n = s := by
  cases n with
  | zero => rfl
  | succ n => simp [State.placeSweep, hl, hd]

section
variable {c : State} {lid : Nat} {l : Launch} (hl : c.launches.find lid = some l) (hd : l.nextGrove < l.due) (n : Nat)
include hl hd

/-- A grove that finds no room, and no core to wait on, is not placed. -/
theorem State.placeSweep_none (hp : c.placeGrove lid l.forGrove l.nextGrove = none) (hq : c.enqueueGrove lid l.forGrove = none) :
    c.placeSweep lid (n + 1) = c := by
  have hnext : l.forGrove.nextGrove = l.nextGrove := rfl
  simp [State.placeSweep, hl, Nat.not_le.mpr hd, hnext, hp, hq]

theorem State.placeSweep_some {s1 : State} (hp : c.placeGrove lid l.forGrove l.nextGrove = some s1) :
    c.placeSweep lid (n + 1) = ((s1.startedNow lid l.forGrove).updLaunch lid Launch.placed).placeSweep lid n := by
  have hnext : l.forGrove.nextGrove = l.nextGrove := rfl
  simp [State.placeSweep, hl, Nat.not_le.mpr hd, hnext, hp]

end

/-- The launch after its last due grove has been placed. -/
theorem State.placed_find {s1 : State} {lid : Nat} {l : Launch} (hl : s1.launches.find lid = some l) (first : Launch) :
    ((s1.startedNow lid first).updLaunch lid Launch.placed).launches.find lid = some (l.begun first).placed := by
  simp [State.updLaunch, State.startedNow_find, hl]

/-- The last due grove of a sweep, placed whole. -/
theorem State.placeSweep_last {c s1 : State} {lid : Nat} {l : Launch} (hl : c.launches.find lid = some l) (hd : l.due = l.nextGrove + 1)
    (hf : l.forGrove.due = l.due) (hp : c.placeGrove lid l.forGrove l.nextGrove = some s1) (h1 : s1.launches.find lid = some l) (n : Nat) :
    c.placeSweep lid (n + 1) = (s1.startedNow lid l.forGrove).updLaunch lid Launch.placed := by
  rw [State.placeSweep_some hl (by omega) n hp]
  refine State.placeSweep_done (State.placed_find h1 _) ?_ n
  rw [Launch.placed_begun_due, Launch.placed_begun_nextGrove, hf, hd]

/-! ## The cores' queues (R182, R183) -/

theorem State.core_updCore_other (s : State) {c j : Nat} (f : Core → Core) (h : j ≠ c) : (s.updCore c f).core j = s.core j := by
  simp [State.core, State.updCore, Tbl.find_put_other _ _ h]

theorem State.coreQueueStart_eq {s : State} {core lid g : Nat} {t : List (Nat × Nat)} {l : Launch} (hq : (s.core core).queue = (lid, g) :: t)
    (hl : s.launches.find lid = some l) :
    exec (.coreQueueStart core) s =
      let c := (s.ctxCheck (core / 512) l.ctx).1
      let gr : Grove := { launch := lid, index := g, die := core / 512, bars := newBars 8 (lThreads l.words) }
      if (s.ctxCheck (core / 512) l.ctx).2 = false then .next c else
      match ({ c with groves := c.groves.put c.nextSeq gr, nextSeq := c.nextSeq + 1 } : State).placeBlock lid l c.nextSeq 0 core with
      | some s1 => .next ((s1.startedNow lid l).updCore core fun x => { x with queue := t })
      | none => .next c := by
  show execCoreQueueStart core s = _
  simp only [execCoreQueueStart, hq, hl, Bool.not_eq_true'] <;> rfl

/-- One move of a balancing: of the tail of x's queue the blocks that may run on y go there. -/
def State.moveTail (s : State) (x y n : Nat) (p : Nat × Nat → Bool) : State :=
  (s.updCore x fun c => { c with queue := (s.core x).queue.take n ++ ((s.core x).queue.drop n).filter fun q => !p q }).updCore y fun c =>
    { c with queue := c.queue ++ ((s.core x).queue.drop n).filter p }

section
variable (s : State) {x y : Nat} (n : Nat) (p : Nat × Nat → Bool) (h : x ≠ y)
include h

theorem State.moveTail_queue_from : ((s.moveTail x y n p).core x).queue = (s.core x).queue.take n ++ ((s.core x).queue.drop n).filter fun q => !p q := by
  rw [State.moveTail, State.core_updCore_other _ _ h, State.core_updCore]

theorem State.moveTail_queue_to : ((s.moveTail x y n p).core y).queue = (s.core y).queue ++ ((s.core x).queue.drop n).filter p := by
  rw [State.moveTail, State.core_updCore, State.core_updCore_other _ _ h.symm]

omit h in
theorem State.moveTail_queue_other {c : Nat} (hx : c ≠ x) (hy : c ≠ y) : (s.moveTail x y n p).core c = s.core c := by
  rw [State.moveTail, State.core_updCore_other _ _ hy, State.core_updCore_other _ _ hx]

/-- A move loses and invents no queued block. -/
theorem State.moveTail_inQueue (z : Nat × Nat) : (s.moveTail x y n p).inQueue z ↔ s.inQueue z := by
  have hfrom := s.moveTail_queue_from n p h
  have hto := s.moveTail_queue_to n p h
  constructor
  · rintro ⟨c, hc⟩
    by_cases hcy : c = y
    · subst hcy
      rw [hto, List.mem_append, List.mem_filter] at hc
      exact hc.elim (fun hz => ⟨c, hz⟩) fun hz => ⟨x, List.mem_of_mem_drop hz.1⟩
    · by_cases hcx : c = x
      · subst hcx
        rw [hfrom, List.mem_append, List.mem_filter] at hc
        exact ⟨c, hc.elim List.mem_of_mem_take fun hz => List.mem_of_mem_drop hz.1⟩
      · exact ⟨c, s.moveTail_queue_other n p hcx hcy ▸ hc⟩
  · rintro ⟨c, hc⟩
    by_cases hcy : c = y
    · subst hcy
      exact ⟨c, hto ▸ List.mem_append_left _ hc⟩
    · by_cases hcx : c = x
      · subst hcx
        rw [← List.take_append_drop n (s.core c).queue, List.mem_append] at hc
        obtain htake | hdrop := hc
        · exact ⟨c, hfrom ▸ List.mem_append_left _ htake⟩
        · cases hp : p z with
          | true => exact ⟨y, hto ▸ List.mem_append_right _ (List.mem_filter.mpr ⟨hdrop, hp⟩)⟩
          | false => exact ⟨c, hfrom ▸ List.mem_append_right _ (List.mem_filter.mpr ⟨hdrop, by simp [hp]⟩)⟩
      · exact ⟨c, (s.moveTail_queue_other n p hcx hcy).symm ▸ hc⟩

end

/-- What the exchange of a pair comes to: nothing, or a move from one of two different cores to the other. -/
theorem State.balancePair_cases (s : State) (thresh a b : Nat) :
    s.balancePair thresh a b = s ∨ ∃ x y n, x ≠ y ∧ s.balancePair thresh a b = s.moveTail x y n (s.mayRun y) := by
  have hmove : ∀ x y d, x ≠ y → (if (s.core y).nextOwner.isSome then s else s.moveTail x y ((s.core x).queue.length - d / 2) (s.mayRun y)) = s ∨
      ∃ x' y' n, x' ≠ y' ∧ (if (s.core y).nextOwner.isSome then s else s.moveTail x y ((s.core x).queue.length - d / 2) (s.mayRun y)) =
        s.moveTail x' y' n (s.mayRun y') := by
    intro x y d hxy
    split
    · exact .inl rfl
    · exact .inr ⟨x, y, _, hxy, rfl⟩
  unfold State.balancePair
  extract_lets qa qb move
  split
  · exact .inl rfl
  · split
    next hlt => exact hmove a b _ fun e => by subst e; simp [qa, qb] at hlt
    next =>
      split
      next hlt => exact hmove b a _ fun e => by subst e; simp [qa, qb] at hlt
      next => exact .inl rfl

/-- A balancing of any pairs loses and invents no queued block, and leaves memory and the threads. -/
theorem State.foldl_balancePair (s : State) (thresh : Nat) (a b : Nat → Nat) (l : List Nat) :
    (∀ z, (l.foldl (fun x m => x.balancePair thresh (a m) (b m)) s).inQueue z ↔ s.inQueue z) ∧
      (l.foldl (fun x m => x.balancePair thresh (a m) (b m)) s).mem = s.mem ∧
      (l.foldl (fun x m => x.balancePair thresh (a m) (b m)) s).threads = s.threads := by
  induction l generalizing s with
  | nil => exact ⟨fun _ => Iff.rfl, rfl, rfl⟩
  | cons m l ih =>
    obtain ⟨hq, hm, ht⟩ := ih (s.balancePair thresh (a m) (b m))
    obtain he | ⟨x, y, n, hxy, he⟩ := s.balancePair_cases thresh (a m) (b m)
    · rw [he] at hq hm ht
      rw [List.foldl_cons, he]
      exact ⟨hq, hm, ht⟩
    · rw [he] at hq hm ht
      rw [List.foldl_cons, he]
      exact ⟨fun z => (hq z).trans (s.moveTail_inQueue n _ hxy z), hm, ht⟩

theorem State.balanceInterval_leads (s : State) (die : Nat) :
    s.Leads (.balanceInterval die) fun s2 => (∀ x, s2.inQueue x ↔ s.inQueue x) ∧ s2.mem = s.mem ∧ s2.threads = s.threads := by
  have hsame : ∀ x, s.inQueue x ↔ s.inQueue x := fun _ => Iff.rfl
  refine (?_ : ∃ s2, execBalanceInterval die s = .next s2 ∧ _)
  unfold execBalanceInterval
  extract_lets n s1 r ring
  split
  · exact ⟨s, rfl, hsame, rfl, rfl⟩
  · split
    · exact ⟨s1, rfl, hsame, rfl, rfl⟩
    · exact ⟨_, rfl, s1.foldl_balancePair _ _ _ _⟩

/-! ## The statement -/

/-- Settles O46: takes and placements by what each meaning comes to under the clause's premises, the balancing because each exchange of a pair moves
blocks from one queue to the other. -/
theorem queuesAndPlacement : Obligations.QueuesAndPlacement := by
  intro s
  refine ⟨?_, ?_, ?_, s.balanceInterval_leads⟩
  · intro ctx q d w as hserved hon hrecords henabled hfree n slot hslot hhead hcheck s0
    have h : s.Takes ctx q d w as := ⟨hserved, hon, hrecords, henabled, hfree, hslot, hhead, hcheck⟩
    have htaken : (s0.queue d ctx q).taken = n := (congrArg QueueSt.taken (s.slotGood_queue d ctx q)).trans rfl
    refine ⟨fun he => ⟨s0, h.waits he, rfl, rfl, rfl, htaken⟩, ?_⟩
    intro a rest s5 has hall hagent es past hdone
    subst has
    have hv : ∀ x ∈ a :: rest, x.vrec = none := fun x hx => (hall x hx).2
    have hfull : (a :: rest).all (fun x => s0.full (s0.paNow x)) = true := List.all_eq_true.mpr fun x hx => (hall x hx).1
    rw [← htaken] at hdone
    have htake := State.takeSlot_done (q := q) hv hagent hdone
    have hbooks : s5.books = s0.books := by simpa using State.vaWrite_books hdone
    refine ⟨s0.tookSlot d ctx q a.key a.pa past s5, ?_, rfl, rfl, ?_, _, State.tookSlot_launch .., rfl, rfl, rfl, rfl, rfl⟩
    · refine (h.exec_queueTake.trans (if_pos hfull)).trans (congrArg Host.Outcome.next ?_)
      exact (congrArg (fun o : Option State => o.getD _) htake).trans rfl
    · rw [State.tookSlot_queue, State.queue_of_books hbooks, htaken]
  · intro die ctx c lid l hfree hp hc hone hl f span
    have hx := exec_placementAttempt hfree hp hc hone
    refine ⟨fun hs hnone => ?_, fun s1 hs hsome => ?_, fun hs hd hnone hqueue => ?_, fun s1 hs hd hf hsome h1 => ?_⟩
    · rw [hx, State.placeList_span hs, hnone]
    · refine ⟨_, by rw [hx, State.placeList_span hs, hsome], ?_, ?_⟩
      · exact s1.startedNow_threads lid f
      · exact s1.startedNow_blocks lid f
    · rw [hx, State.placeList_sweep (Bool.eq_false_iff.mpr hs), State.placeSweep_none hl hd 39999 hnone hqueue]
    · refine ⟨_, by rw [hx, State.placeList_sweep (Bool.eq_false_iff.mpr hs), State.placeSweep_last hl hd hf hsome h1 39999], ?_, ?_, ?_⟩
      · exact s1.startedNow_threads lid f
      · exact s1.startedNow_blocks lid f
      · rw [State.placed_find h1, Option.map_some, Launch.placed_begun_nextGrove]
  · intro core lid g t l hq hl gr c ok s0
    have hx := State.coreQueueStart_eq hq hl
    refine ⟨fun hno => ?_, fun s1 hok hsome => ?_⟩
    · rw [hx]
      by_cases hok : ok = false
      · exact if_pos hok
      · exact (if_neg hok).trans (by rw [hno.resolve_left hok])
    · refine ⟨(s1.startedNow lid l).updCore core fun x => { x with queue := t }, ?_, s1.startedNow_threads lid l, ?_⟩
      · exact hx.trans ((if_neg fun e => Bool.noConfusion (hok.symm.trans e)).trans (by rw [hsome]))
      · rw [State.core_updCore]

end Sys2Proof.Machine
end

section
/-! NODES, COMPLETION AND OWNERS (O47): what the engines' looks at a node, the end of a launch and a core's change of owner come to
(spec/08_parallel_work.md R165, R167, spec/09_scheduling_hardware.md R174, R186-R190). -/

set_option Elab.async false
namespace Sys2Proof.Machine

/-! ## A node that its engine finds good (R187) -/

section
variable {s s1 : State} {ctx q : Nat} {v : NodeView} (h : s.nodeCheck ctx q = (s1, some v))
include h

/-- NODE_BATCH_DISPATCH of a batch that must wait. -/
theorem nodeBatchDispatch_waits
    (hb : s1.nodeBusy v (s1.queue v.die ctx q).launch (s1.queue v.die ctx q).nextBatch = true ∨ ((s1.queue v.die ctx q).marked = false ∧
      (List.range v.batch).all (fun i => s1.slotFull v ctx ((s1.queue v.die ctx q).nextBatch * v.batch + i) 0) = false)) :
    exec (.nodeBatchDispatch ctx q) s = .next s1 := by
  show execNodeBatchDispatch ctx q s = _
  unfold execNodeBatchDispatch
  rw [h]
  obtain hb | ⟨hm, hr⟩ := hb
  · exact if_pos hb
  · simp [hm, hr]

end

/-- The record of a node's queue once batch g has been dispatched. -/
def QueueSt.dispatched (x : QueueSt) (g : Nat) : QueueSt := { x with nextBatch := g + 1, claimAt := x.claimAt.del g, short := none, marked := false }

/-- Batch g of a node's sweep joins the groves that are pending, under the words of its dispatch. -/
def State.dispatch (s : State) (d ctx q lid g : Nat) (words : List Word) (past : List Nat) : State :=
  (s.updLaunch lid fun x => x.dispatch g words past).setQueue d ctx q fun x => x.dispatched g

theorem State.dispatch_find (s : State) (d ctx q lid g : Nat) (words : List Word) (past : List Nat) :
    (s.dispatch d ctx q lid g words past).launches.find lid = (s.launches.find lid).map fun x => x.dispatch g words past :=
  Tbl.find_upd_same s.launches lid fun x => x.dispatch g words past

theorem State.dispatch_queue (s : State) (d ctx q lid g : Nat) (words : List Word) (past : List Nat) :
    (s.dispatch d ctx q lid g words past).queue d ctx q = (s.queue d ctx q).dispatched g := State.queue_setQueue _ _ _ _ _

/-- NODE_BATCH_DISPATCH of a batch whose slots are FULL, or whose end mark is written. -/
theorem nodeBatchDispatch_goes {s s1 s2 : State} {ctx q lid : Nat} {v : NodeView} (h : s.nodeCheck ctx q = (s1, some v))
    (hb : s1.nodeBusy v (s1.queue v.die ctx q).launch (s1.queue v.die ctx q).nextBatch = false)
    (hr : (s1.queue v.die ctx q).marked = true ∨
      (List.range v.batch).all (fun i => s1.slotFull v ctx ((s1.queue v.die ctx q).nextBatch * v.batch + i) 0) = true)
    (hn : s1.nodeLaunch ctx q v = (s2, lid)) :
    exec (.nodeBatchDispatch ctx q) s =
      .next ((s2.dispatch v.die ctx q lid (s1.queue v.die ctx q).nextBatch v.words (s1.queuePast v.die ctx q)).placePending v.die ctx) := by
  show execNodeBatchDispatch ctx q s = _
  unfold execNodeBatchDispatch
  rw [h]
  simp only [hb, Bool.false_eq_true, if_false, Bool.or_eq_true, hr, if_true, hn]
  rfl

section
variable {s s1 : State} {ctx q : Nat} {v : NodeView} (h : s.nodeCheck ctx q = (s1, some v))
  (hb : s1.nodeBusy v (s1.queue v.die ctx q).launch (s1.queue v.die ctx q).nextBatch = false) (hs : (s1.queue v.die ctx q).short = none)
  (hc : s1.claims v ctx (s1.queue v.die ctx q).nextBatch ≠ 0)
include h hb hs hc

/-- NODE_BATCH_TIMEOUT of a batch whose first claim its engine has not seen yet. -/
theorem nodeBatchTimeout_sees (hf : (s1.queue v.die ctx q).claimAt.find (s1.queue v.die ctx q).nextBatch = none) :
    exec (.nodeBatchTimeout ctx q) s = .next (s1.watchNode v.die ctx q) := by
  show execNodeBatchTimeout ctx q s = _
  unfold execNodeBatchTimeout
  rw [h]
  simp [hb, hs, hc, hf]

/-- NODE_BATCH_TIMEOUT of a batch whose time is over. -/
theorem nodeBatchTimeout_late {t : Nat} {s2 : State} (hf : (s1.queue v.die ctx q).claimAt.find (s1.queue v.die ctx q).nextBatch = some t)
    (h4 : wordAt v.desc 4 ≠ 0) (hp : t + (wordAt v.desc 4).toNat ≤ s1.ptp) (hlt : s1.claims v ctx (s1.queue v.die ctx q).nextBatch < v.batch)
    (hw : s1.vaWrite v.die ctx (wordAt v.desc 3) (BitVec.ofNat 64 ((s1.queue v.die ctx q).nextBatch * v.batch + v.batch)) none
      { past := s1.queuePast v.die ctx q } = .done s2) :
    exec (.nodeBatchTimeout ctx q) s =
      .next (s2.setQueue v.die ctx q fun x => { x with short := some (s1.claims v ctx (s1.queue v.die ctx q).nextBatch) }) := by
  have hlate := And.intro h4 (And.intro hp hlt)
  show execNodeBatchTimeout ctx q s = _
  unfold execNodeBatchTimeout
  rw [h]
  simp only [hb, hs, hc, hf, hlate, hw, Option.isSome_none, Bool.or_self, decide_false, Bool.false_eq_true, if_false, and_self, if_true, ne_eq,
    not_false_eq_true]

end

/-- NODE_END_MARK of a short batch whose claimed slots are FULL. -/
theorem nodeEndMark_marks {s s1 s2 : State} {ctx q n : Nat} {v : NodeView} (h : s.nodeCheck ctx q = (s1, some v))
    (hs : (s1.queue v.die ctx q).short = some n) (hm : (s1.queue v.die ctx q).marked = false)
    (hfull : ((List.range n).all fun i => (List.range v.recWords).all fun j =>
      s1.slotFull v ctx ((s1.queue v.die ctx q).nextBatch * v.batch + i) j) = true)
    (hw : s1.vaWrite v.die ctx (v.slot ((s1.queue v.die ctx q).nextBatch * v.batch + n) 0) (BitVec.allOnes 64) (some true)
      (agentRelease (s1.queuePast v.die ctx q) .pkg) = .done s2) :
    exec (.nodeEndMark ctx q) s = .next (s2.setQueue v.die ctx q fun x => { x with marked := true }) := by
  show execNodeEndMark ctx q s = _
  unfold execNodeEndMark
  rw [h]
  simp only [hs, hm, Bool.false_eq_true, if_false, hfull, if_true, hw]

/-! ## The watch of a node (R186, R187) -/

/-- A batch seen claimed at p keeps the time at which it was seen first. -/
def firstSeen (p : Nat) (m : Tbl Nat) (g : Nat) : Tbl Nat := if (m.find g).isSome then m else m.put g p

theorem firstSeen_find (p : Nat) (m : Tbl Nat) (g j : Nat) :
    (firstSeen p m g).find j = if j = g then some ((m.find j).getD p) else m.find j := by
  unfold firstSeen
  by_cases hj : j = g
  · subst hj
    cases hf : m.find j <;> simp [hf]
  · rw [if_neg hj]
    split
    · rfl
    · exact Tbl.find_put_other _ _ hj

theorem foldl_firstSeen_find (p : Nat) (gs : List Nat) (m : Tbl Nat) (j : Nat) :
    (gs.foldl (firstSeen p) m).find j = if j ∈ gs then some ((m.find j).getD p) else m.find j := by
  induction gs generalizing m with
  | nil => rfl
  | cons g gs ih =>
    rw [List.foldl_cons, ih, firstSeen_find]
    by_cases hg : j = g <;> by_cases hm : j ∈ gs <;> simp [hg, hm]

/-- The record of a node's queue once some batches from the n-th have been seen claimed. -/
def QueueSt.watched (x : QueueSt) (p n some_ : Nat) : QueueSt :=
  { x with claimAt := ((List.range some_).map (n + ·)).foldl (firstSeen p) x.claimAt }

theorem QueueSt.watched_first (x : QueueSt) (p n : Nat) {some_ : Nat} (h : 0 < some_) :
    (x.watched p n some_).claimAt.find n = some ((x.claimAt.find n).getD p) := by
  have hn : n ∈ (List.range some_).map (n + ·) := List.mem_map.mpr ⟨0, List.mem_range.mpr h, rfl⟩
  exact (foldl_firstSeen_find _ _ _ _).trans (if_pos hn)

/-- Claims lie in at least one batch. -/
theorem claimed_pos {c b : Nat} (hc : c ≠ 0) (hb : b ≠ 0) : 0 < (c + b - 1) / b := Nat.div_pos (by omega) (Nat.pos_of_ne_zero hb)

section
variable {s : State} {d ctx q : Nat} {w : List Word} {v : NodeView} (hs : s.serves d ctx q = some (d, w)) (hv : s.viewOf d ctx w = some v)
include hs hv

theorem watchNode_unclaimed (hc : s.claims v ctx (s.queue d ctx q).nextBatch = 0) : s.watchNode d ctx q = s := by
  unfold State.watchNode
  rw [hs, Option.bind_some, hv]
  exact if_pos (.inr hc)

theorem watchNode_claimed (hb : v.batch ≠ 0) (hc : s.claims v ctx (s.queue d ctx q).nextBatch ≠ 0) :
    s.watchNode d ctx q = s.setQueue d ctx q fun x =>
      x.watched s.ptp (s.queue d ctx q).nextBatch ((s.claims v ctx (s.queue d ctx q).nextBatch + v.batch - 1) / v.batch) := by
  unfold State.watchNode
  rw [hs, Option.bind_some, hv]
  exact if_neg (not_or.mpr ⟨hb, hc⟩)

end

/-! ## The end of a launch (R165, R167, R189, R190) -/

/-- A completion word tells of its record's seq below its status. -/
theorem pack_completion (status : Nat) (w : List Word) : pack [(status, 48), (lSeq w, 0)] = BitVec.ofNat 64 (status * 2 ^ 48 + lSeq w) := by
  have hseq : lSeq w < 2 ^ 48 := Nat.mod_lt _ (by decide)
  rw [Nat.mul_comm, Nat.two_pow_add_eq_or_of_lt hseq, BitVec.ofNat_or, Nat.mul_comm]
  simp [pack]

theorem State.svWrite_reg_other {s t : State} {e : List Word} (h : s.svWrite e = some t) {o : Nat} (ho : o ≠ Off.sv 0x10) : t.reg o = s.reg o := by
  unfold State.svWrite at h
  extract_lets size wr at h
  split at h
  · obtain rfl := Option.some.inj h
    rw [State.reg_setReg_other _ _ ho, State.reg_of_units (State.hwRelease_units ..)]
  · cases h

/-- A service entry leaves every register but those of its ring. -/
theorem State.service_reg_other (s : State) (kind ctx : Nat) (e1 e2 : Word) {o : Nat} (h1 : o ≠ Off.sv 0x10) (h2 : o ≠ Off.sv 0x20) :
    (s.service kind ctx e1 e2).reg o = s.reg o := by
  unfold State.service State.serviceEntry
  generalize [pack [(kind, 0), (ctx, 32)], e1, e2, 0, 0, 0, 0, 0] = e
  extract_lets wait
  have hwait : wait.reg o = s.reg o := by
    refine (State.reg_setReg_other _ _ h2).trans ?_
    unfold State.ringWaits
    split <;> rfl
  split
  · cases h : s.svWrite e with
    | none => exact hwait
    | some t => exact State.svWrite_reg_other h h1
  · exact hwait

/-- A completion store that cannot be made raises its engine's count by one. -/
theorem State.compDropped_reg (s : State) {d : Nat} (hd : d < 4) (ctx : Nat) (addr : Word) (seq : Nat) :
    (s.compDropped d ctx addr seq).reg (Off.qe d 0x18) = s.reg (Off.qe d 0x18) + 1 := by
  refine (State.service_reg_other _ _ _ _ _ ?_ ?_).trans (State.reg_setReg_same _ _ _) <;> simp only [Off.qe, Off.sv] <;> omega

theorem State.compDropped_launches (s : State) (d ctx : Nat) (addr : Word) (seq : Nat) : (s.compDropped d ctx addr seq).launches = s.launches :=
  State.launches_of_books (State.service_books ..)

section
variable {s : State} {d ctx status : Nat} {w : List Word} {past : List Nat} {sc : Scope} {p : Put} (ha : bits (wordAt w 2) 2 0 = 0)
  (hsc : Scope.ofCode (BitVec.ofNat 3 (bits (wordAt w 2) 59 57)) = some sc)
  (hw : s.vaWrite d ctx (BitVec.ofNat 64 (bits (wordAt w 2) 56 0)) (BitVec.ofNat 64 (status * 2 ^ 48 + lSeq w))
    (if bit (wordAt w 2) 60 then some true else none) (agentRelease past sc) = p)
include ha hsc hw

/-- The completion word of a record that names a scope and an aligned address is a release there. -/
theorem State.completion_stored (hp : p ≠ .lost) : s.completion d ctx w status past = p := by
  simp only [State.completion, hsc, ha, ne_eq, not_true_eq_false, if_false, pack_completion, hw]
  cases p <;> trivial

theorem State.completion_dropped (hp : p = .lost) :
    s.completion d ctx w status past = .done (s.compDropped d ctx (BitVec.ofNat 64 (bits (wordAt w 2) 56 0)) (lSeq w)) := by
  simp only [State.completion, hsc, ha, ne_eq, not_true_eq_false, if_false, pack_completion, hw, hp]

end

/-- The state without a launch, and without the happens-before notes of its threads. -/
def State.endedLaunch (s : State) (n : Nat) : State := { s with launches := s.launches.del n, hbs := s.hbs.filter fun h => h.1 / 2 ^ 24 != n + 1 }

/-- LAUNCH_COMPLETION of a record's launch that has ended, in its turn, is its completion word. -/
theorem launchCompletion_over {s : State} {n : Nat} {l : Launch} {p : Put} (hl : s.launches.find n = some l) (hnode : l.node = false)
    (hover : s.launchOver n l = true) (hfree : s.orderFree n l = true)
    (hp : (s.endedLaunch n).completion l.die l.ctx l.words l.refused (s.launchPast n l) = p) :
    exec (.launchCompletion n) s = .next (p.from_ s l.die) := by
  subst hp
  show execLaunchCompletion n s = _
  unfold execLaunchCompletion
  rw [hl]
  simp only [hnode, Bool.false_and, Bool.false_eq_true, if_false, hover, hfree, Bool.and_self, if_true]
  rfl

/-! ## The owners of cores (R174) -/

theorem State.evictLine_cores (s : State) (c line : Nat) : (s.evictLine c line).cores = s.cores := by
  unfold State.evictLine
  split <;> rfl

theorem State.core_of_cores {s t : State} (h : t.cores = s.cores) (c : Nat) : t.core c = s.core c := by simp [State.core, h]

theorem State.changeOwner_core (s : State) (c : Nat) (o : Option Nat) :
    (s.changeOwner c o).core c = { s.core c with owner := o, nextOwner := none } := by
  have h1 := s.core_updCore c fun x => { x with owner := o, nextOwner := none }
  unfold State.changeOwner
  dsimp only
  split
  · exact h1
  · refine (State.core_of_cores ?_ c).trans h1
    exact foldl_fixes (g := State.cores) (f := fun (x : State) l => x.evictLine c l) (fun x l => x.evictLine_cores c l) _ _

theorem State.writeReg_core (s : State) (off : Nat) (v : Word) (c : Nat) : (s.writeReg off v).core c = s.core c := by
  unfold State.writeReg
  split
  · rfl
  · split <;> rfl

/-- A write of QE_CORE_CTX changes the owner, or leaves the change to come. -/
theorem qeCoreCtxWrite_leads (s : State) {die idx : Nat} (val : Word) (hd : die < 4) (hi : idx < 280) {c : Nat} {o : Option Nat}
    (hc : c = 512 * die + Config.physOf die idx) (ho : o = if bit val 10 then some (bits val 9 0) else none) :
    s.Leads (.qeCoreCtxWrite die idx val) fun s2 =>
      ((s.writeReg (Off.qe die (0x400 + 8 * idx)) val).coreIdle c o = true → (s2.core c).owner = o ∧ (s2.core c).nextOwner = none) ∧
      ((s.writeReg (Off.qe die (0x400 + 8 * idx)) val).coreIdle c o = false → (s2.core c).owner = (s.core c).owner ∧ (s2.core c).nextOwner = some o) := by
  subst hc ho
  refine ⟨_, if_pos ⟨hd, hi⟩, fun hidle => ?_, fun hbusy => ?_⟩
  · rw [if_pos hidle, State.changeOwner_core]
    exact ⟨rfl, rfl⟩
  · rw [if_neg (Bool.eq_false_iff.mp hbusy), State.core_updCore, State.writeReg_core]
    exact ⟨rfl, rfl⟩

theorem coreOwnerChange_leads {s : State} {c : Nat} {o : Option Nat} (hn : (s.core c).nextOwner = some o) :
    s.Leads (.coreOwnerChange c) fun s2 =>
      (s.coreIdle c o = true → (s2.core c).owner = o ∧ (s2.core c).nextOwner = none) ∧ (s.coreIdle c o = false → s2 = s) := by
  have hx : exec (.coreOwnerChange c) s = if s.coreIdle c o then .next (s.changeOwner c o) else .next s := by
    show execCoreOwnerChange c s = _
    rw [execCoreOwnerChange, hn]
  cases hidle : s.coreIdle c o with
  | true => exact ⟨_, hx.trans (if_pos hidle), fun _ => by rw [State.changeOwner_core]; exact ⟨rfl, rfl⟩, fun h => Bool.noConfusion h⟩
  | false => exact ⟨s, hx.trans (if_neg (Bool.eq_false_iff.mp hidle)), fun h => Bool.noConfusion h, fun _ => rfl⟩

/-! ## The statement -/

/-- Settles O47: a look at a good node by its cases, the end of a launch by what its completion store comes to, the owners by the record of a core. -/
theorem nodesAndCompletion : Obligations.NodesAndCompletion := by
  intro s
  refine ⟨?_, ?_, ?_, fun die idx val hd hi => qeCoreCtxWrite_leads s val hd hi rfl rfl, fun c o => coreOwnerChange_leads⟩
  · intro ctx q s1 v h d st g ready c
    refine ⟨nodeBatchDispatch_waits h, ?_, fun hb hs hc => ?_, fun n s2 hs hm hfull hw => ?_⟩
    · intro s2 lid l hb hr hn hl
      have hx := nodeBatchDispatch_goes h hb hr hn
      have hqueue := s2.dispatch_queue d ctx q lid g v.words (s1.queuePast d ctx q)
      refine ⟨s2.dispatch d ctx q lid g v.words (s1.queuePast d ctx q), ?_, rfl, rfl, ?_, ?_, ?_, hx⟩
      · rw [State.dispatch_find, hl]
        rfl
      · exact congrArg QueueSt.nextBatch hqueue
      · exact congrArg QueueSt.marked hqueue
      · exact congrArg QueueSt.short hqueue
    · refine ⟨nodeBatchTimeout_sees h hb hs hc, fun t s2 ht h4 hptp hbatch hw => ?_⟩
      refine ⟨_, nodeBatchTimeout_late h hb hs hc ht h4 hptp hbatch hw, rfl, ?_⟩
      rw [State.queue_setQueue]
    · refine ⟨_, nodeEndMark_marks h hs hm hfull hw, rfl, rfl, ?_⟩
      rw [State.queue_setQueue]
  · intro d ctx q w v hs hv hb n s2
    by_cases hc : s.claims v ctx n = 0
    · have h2 : s2 = s := watchNode_unclaimed hs hv hc
      exact ⟨fun h => absurd hc h, fun _ => h2, congrArg State.mem h2, congrArg State.threads h2⟩
    · have h2 := watchNode_claimed hs hv hb hc
      refine ⟨fun _ => ?_, fun h => absurd h hc, (congrArg State.mem h2).trans rfl, (congrArg State.threads h2).trans rfl⟩
      rw [show s2 = _ from h2, State.queue_setQueue]
      exact QueueSt.watched_first _ _ _ (claimed_pos hc hb)
  · intro n l hl hnode hover hfree ha sc hsc s0 done
    have hx := fun {p} => launchCompletion_over (p := p) hl hnode hover hfree
    refine ⟨fun s1 hd => ?_, fun h hd => ?_, fun hd hdie => ?_⟩
    · exact hx (State.completion_stored ha hsc hd Put.noConfusion)
    · exact hx (State.completion_stored ha hsc hd Put.noConfusion)
    · refine ⟨_, hx (State.completion_dropped ha hsc hd rfl), ?_, ?_⟩
      · exact (congrArg (Tbl.find · n) (State.compDropped_launches ..)).trans ((Tbl.find_del ..).trans (if_pos rfl))
      · exact State.compDropped_reg s0 hdie _ _ _

end Sys2Proof.Machine
end

section
/-! CHECKPOINTS (O49): CK_STATUS shows the low eight bits of a job's last status, and the statement's clause on a job whose completion word has
still to be stored puts no bound on the status that it keeps (spec/26_fabric_and_checkpoint.md R417, R422). -/

namespace Sys2Proof.Machine

/-! ## The end of a job -/

/-- A status shifted to its field of CK_STATUS keeps eight bits there. -/
theorem bits_status (n : Nat) : bits (pack [(0, 0), (0, 1), (n, 8)]) 15 8 = n % 256 := by
  have hw : pack [(0, 0), (0, 1), (n, 8)] = BitVec.ofNat 64 (n * 2 ^ 8) := by simp [pack]
  rw [hw, bits, BitVec.toNat_ofNat]
  omega

theorem State.ckOver_status (s : State) (n : Nat) : bits ((s.ckOver n).reg (Off.ck 0x10)) 15 8 = n % 256 := by
  have hr : (s.ckOver n).reg (Off.ck 0x10) = pack [(0, 0), (0, 1), (n, 8)] := State.reg_setReg_same _ _ _
  rw [hr, bits_status]

/-- A job without a descriptor of eight words has no completion word. -/
theorem State.ckComp_noDesc {s : State} (h : s.ck.desc.length ≠ 8) (n : Nat) : s.ckComp n = .ok s () :=
  if_neg fun hc => h hc.1

theorem State.ckEnd_noDesc {s : State} (h : s.ck.desc.length ≠ 8) (n : Nat) : s.ckEnd n = s.ckOver n := by
  rw [State.ckEnd, State.ckComp_noDesc h]

/-! ## The statement -/

/-- A job in its first stage that keeps the status 256, with no completion word to store: the model's own jobs end with 0 to 5. -/
def keepsWideStatus : State := { State.reset with ck := { stage := 1, final := some 256 } }

/-- Its end leaves 0 in the status field of CK_STATUS. -/
theorem keepsWideStatus_ends : exec .ckExchangeDone keepsWideStatus = .next (keepsWideStatus.ckEnd 256) ∧
    bits ((keepsWideStatus.ckEnd 256).reg (Off.ck 0x10)) 15 8 = 0 := by
  refine ⟨rfl, ?_⟩
  rw [State.ckEnd_noDesc (by decide), State.ckOver_status]

/-- Refutes O49: of a job that keeps a status of 256 or more the statement asks that number in CK_STATUS, whose status field has eight bits, so that
256 is 0 there (R417). -/
theorem not_preemptionAndCheckpoint : ¬ Obligations.PreemptionAndCheckpoint := by
  unfold Obligations.PreemptionAndCheckpoint
  intro h
  obtain ⟨-, -, -, -, -, -, -, -, -, ended, -⟩ := h keepsWideStatus 0 (by decide)
  obtain ⟨-, fin, -⟩ := ended 256 rfl (by decide)
  obtain ⟨status, -⟩ := fin keepsWideStatus () (State.ckComp_noDesc (by decide) 256)
  have hzero : (0 : Nat) = 256 := keepsWideStatus_ends.2.symm.trans status
  exact nomatch hzero

end Sys2Proof.Machine
end

section
/-! ATOMICS AND LAUNCH AT ISSUE (O14, O20): what passes its checks stands outstanding for its thread, and its block's idempotent region has
closed (spec/10_isa_synchronisation.md R201-R204, R208, R210). -/

namespace Sys2Proof.Machine

/-- In a gang of one no other member's step on the item is there to be joined (R204). -/
theorem joinAtomic_alone {k first : Nat} {a : Access} {fn : AtomFn} {m : AtomMember} {flag : Option Nat} (hm : m.thr = k) (l : Tbl Op) :
    joinAtomic [k] first a fn m flag l = none := by
  induction l with
  | nil => rfl
  | cons e l ih =>
    obtain ⟨seq, o⟩ := e
    rw [joinAtomic]
    split
    · rw [if_neg fun ⟨_, _, _, _, _, hne, hmem⟩ => hne (hm.trans (List.mem_singleton.1 hmem).symm), ih]
    · exact ih

/-- An atomic on memory leaves its own step outstanding, after its block's region has closed and a peer's line is dropped (R203, R210, R413). -/
theorem gives_atomic {s : State} {k : Nat} {t : Thread} {i : Instr} {c : Ctl} {four : Bool} {fn : AtomFn} {ord : Order} {named reads : List Nat}
    {va vx : Nat} {vy vd : Option Nat} {x : Access} (ha : s.Alone k t)
    (hx : exec i s = .next (s.execAtomic c four fn ord named reads va vx vy vd)) (e : (issue64 c).Executes t (va :: named) (va :: reads))
    (hc : s.check5 k t (t.reg va) (atomSize four) (atomSize four) .write true true .atomic = .ok x) (hwc : x.policy ≠ 2) :
    let q := issue64 c
    let p : Pending :=
      { kind := .atomic x fn [{ thr := k, x := t.reg vx, y := vy.elim 0 t.reg, dst := vd, num := s.nextSeq }]
        sync := q.flag.isNone || s.slow x true, ord := ord }
    s.Gives i k (t.afterOp s q p) ((((s.closeIdem k).used k t (t.reg va)).dropPeerCopy x.pa).withOp q k t p) := by
  intro q p
  refine gives_op p _ hx ?_ ha e (((State.Kept.closeIdem s k).trans (State.Kept.used ..)).trans (State.Kept.dropPeerCopy ..))
  have hjoin : ∀ y l, joinAtomic [k] s.nextSeq x fn { thr := k, x := t.reg vx, y := y, dst := vd, num := s.nextSeq } (issue64 c).flag l = none :=
    fun _ l => joinAtomic_alone (by rfl) l
  simp only [ha.thr, hc, if_neg hwc, ha.gang, hjoin]
  cases vy <;> rfl

theorem AOrder.acq_eq (ord : AOrder) : AOrder.acq ord = (ord == .acqRel || ord == .acquire) := by cases ord <;> rfl
theorem AOrder.rel_eq (ord : AOrder) : AOrder.rel ord = (ord == .acqRel || ord == .release) := by cases ord <;> rfl

/-- Settles O14: ATOM, RED and CAS are the one execAtomic with their own operands, result register and order. -/
theorem atomics : Obligations.Atomics := by
  unfold Obligations.Atomics
  intro s k t c four ord sc vd va vb vc ha q a n atomic
  have each : ∀ (acq : Bool) (vy vd : Option Nat) {i : Instr} {fn : AtomFn} {named reads : List Nat} {vx : Nat},
      exec i s = .next (s.execAtomic c four fn { acq := acq && AOrder.acq ord, rel := AOrder.rel ord, scope := sc } named reads va.toNat vx vy vd) →
      atomic i acq fn named reads { thr := k, x := t.reg vx, y := vy.elim 0 t.reg, dst := vd, num := s.nextSeq } := by
    intro acq vy vd i fn named reads vx hx x e hc hwc
    rw [AOrder.acq_eq, AOrder.rel_eq] at hx
    exact gives_atomic ha hx e hc hwc
  exact ⟨fun op ty => ⟨each true none (some vd.toNat) rfl, each false none none rfl⟩, each true (some vc.toNat) (some vd.toNat) rfl⟩

/-- Settles O20: what the checks of LAUNCH give is the operation that its body leaves outstanding. -/
theorem launchInstruction : Obligations.LaunchInstruction := by
  unfold Obligations.LaunchInstruction
  intro s k t c sc va vb slot src ha q e hc p
  exact gives_op p _ rfl (by simp only [ha.thr, hc]; rfl) ha e (((State.Kept.closeIdem s k).trans (State.Kept.used ..)).trans (State.Kept.used ..))

end Sys2Proof.Machine
end

section
/-! BARRIER INSTRUCTIONS (O18): each leaves its event at its barrier, or an answer that the barrier has already (spec/10_isa_synchronisation.md
R191, R192, R196, R197). -/

namespace Sys2Proof.Machine

theorem State.Kept.see (s : State) (k : Nat) (ids : List Nat) : s.Kept (s.see k ids) := by
  unfold State.see
  split
  · exact State.Kept.refl s
  · exact ⟨rfl, rfl, rfl, rfl, rfl, rfl⟩

section
variable {s : State} {k : Nat} {t : Thread} {i : Instr} {c : Ctl} {bar : BarRef} {h : BarHome} {named reads : List Nat} {held acq rel : Bool}
  {f : Thread → BarHome → OpKind} (ha : s.Alone k t) (hh : s.barHome t bar = some h)
  (hx : exec i s = .next (s.barOp c bar named reads held acq rel f)) (e : (issue64 c).Executes t named reads)
include ha hh hx e

/-- A barrier instruction that its barrier answers later (R191, R196). -/
theorem gives_bar (hk : ∀ l, f t h ≠ .result l) :
    let q := issue64 c
    let p : Pending := { kind := f t h, sync := held || q.flag.isNone, ord := { acq := acq, rel := rel, scope := h.scope }, lat := (0, some h.bound) }
    s.Gives i k (t.afterOp s q p) (s.withOp q k t p) := by
  intro q p
  refine gives_op p s hx ?_ ha e (State.Kept.refl s)
  simp only [ha.thr, hh]
  rfl

/-- A barrier instruction that has its answer sees what the completed phases' releases cover (R196, R197). -/
theorem gives_bar_answered {b : Barrier} {l : List Landing} (hb : s.barGet h = some b) (hk : f t h = .result l) :
    let q := issue64 c
    let p : Pending := { kind := .result l, sync := held || q.flag.isNone, ord := { acq := acq, rel := rel, scope := h.scope }, lat := (0, some h.bound) }
    s.Gives i k (t.afterOp s q p) ((s.see k b.done).withOp q k t p) := by
  intro q p
  refine gives_op p _ hx ?_ ha e (State.Kept.see s k b.done)
  simp only [ha.thr, hh, hk, State.barSeen, hb]
  rfl

end

/-- Settles O18: each is the one barOp at its barrier, and only a BARW on a completed phase has a result at issue. -/
theorem barrierInstructions : Obligations.BarrierInstructions := by
  unfold Obligations.BarrierInstructions
  intro s k t c bar h b pd vd va ha hh hb q a ph lat gives ord
  have hph : bits (t.reg va.toNat) 31 0 = ph := by simp [ph, a, bits_low]
  have event : ∀ {i : Instr} {named reads : List Nat} (held acq rel : Bool) (f : Thread → BarHome → OpKind) (kind : OpKind),
      exec i s = .next (s.barOp c bar named reads held acq rel f) → f t h = kind → (∀ l, kind ≠ .result l) →
        gives i named reads { kind := kind, sync := held || q.flag.isNone, ord := ord acq rel, lat := lat } := by
    rintro i named reads held acq rel f kind hx rfl hk e
    exact gives_bar ha hh hx e hk
  refine ⟨event false false true _ _ rfl rfl nofun, event true false true _ _ rfl ?post nofun, event false true true _ _ rfl rfl nofun,
    event false true false _ _ rfl ?test nofun, fun hd => event false true false _ _ rfl ?waits nofun, fun hd => ?answered⟩
  case post => exact congrArg (fun n => OpKind.barEv h (.post n)) (sval_eq_toInt 32 a)
  case test => exact congrArg (fun n => OpKind.barEv h (.test n pd.toNat)) hph
  case waits => simp only [hph, hb, hd, Bool.false_eq_true, if_false]
  case answered =>
    intro p e
    exact gives_bar_answered (i := .barw c bar vd va) ha hh rfl e hb (by simp only [hph, hb, hd, if_true])

end Sys2Proof.Machine
end

section
/-! EVENTS AT A BARRIER (O45): what an arrival, a post, a test, a credit and an abort leave of their barrier and of the operations that wait there
(spec/10_isa_synchronisation.md R193-R197). -/

namespace Sys2Proof.Machine

/-! ## What only tells a thread's order -/

theorem State.foldl_hbs {β : Type} {f : State → β → State} (hf : ∀ x b, ∃ hbs, f x b = { x with hbs := hbs }) (l : List β) (s : State) :
    ∃ hbs, l.foldl f s = { s with hbs := hbs } := by
  induction l generalizing s with
  | nil => exact ⟨s.hbs, rfl⟩
  | cons b l ih =>
    obtain ⟨hbs, hb⟩ := hf s b
    obtain ⟨hbs', hl⟩ := ih (f s b)
    exact ⟨hbs', by rw [List.foldl_cons, hl, hb]⟩

theorem State.see_hbs (s : State) (k : Nat) (ids : List Nat) : ∃ hbs, s.see k ids = { s with hbs := hbs } := by
  unfold State.see
  split
  · exact ⟨s.hbs, rfl⟩
  · exact ⟨_, rfl⟩

theorem State.markAcquire_hbs (s : State) (k seq : Nat) (fence : Bool) : ∃ hbs, s.markAcquire k seq fence = { s with hbs := hbs } := by
  unfold State.markAcquire
  dsimp only
  split
  · exact ⟨_, rfl⟩
  · exact ⟨s.hbs, rfl⟩

theorem State.acquired_hbs (s : State) (seq : Nat) (o : Op) (es : List (Nat × Inflight)) : ∃ hbs, s.acquired seq o es = { s with hbs := hbs } := by
  unfold State.acquired
  split
  · exact ⟨s.hbs, rfl⟩
  · refine State.foldl_hbs (fun x k => ?_) _ s
    obtain ⟨hbs, hy⟩ := x.see_hbs k (x.brought (x.metIn k o.ord.scope es))
    dsimp only
    rw [hy]
    split
    · exact State.markAcquire_hbs ..
    · exact ⟨hbs, rfl⟩

theorem State.barSeen_hbs (s : State) (h : BarHome) (recv : List Nat) : ∃ hbs, s.barSeen h recv = { s with hbs := hbs } := by
  unfold State.barSeen
  cases s.barGet h with
  | none => exact ⟨s.hbs, rfl⟩
  | some b => exact State.foldl_hbs (fun x k => x.see_hbs k b.done) recv s

/-! ## A barrier's event -/

/-- A waiting operation once an event has left its barrier as b: answered when b completes the phase that it waits for. -/
def Barrier.answers (b : Barrier) (h : BarHome) (clk : Nat) (o : Op) : Op :=
  if b.arrivals = b.expected ∧ b.balance = 0 then releaseBar h b.phase (if b.abort then 1 else 0) clk o else o

theorem Barrier.answers_closed {b : Barrier} (hc : b.arrivals = b.expected ∧ b.balance = 0) (h : BarHome) (clk : Nat) :
    b.answers h clk = releaseBar h b.phase (if b.abort then 1 else 0) clk := funext fun _ => if_pos hc

theorem Barrier.answers_open {b : Barrier} (hc : ¬(b.arrivals = b.expected ∧ b.balance = 0)) (h : BarHome) (clk : Nat) : b.answers h clk = id :=
  funext fun _ => if_neg hc

theorem statusWord_abort (p : Nat) (abort : Bool) :
    statusWord p (if abort then 1 else 0) = BitVec.ofNat 64 (p * 2 ^ 32) ||| (if abort then 1 else 0) := by
  cases abort <;> simp [statusWord, pack]

theorem Barrier.answers_kind (b : Barrier) (h : BarHome) (clk : Nat) {o : Op} {p d : Nat} (hk : o.kind = .barw h p d) :
    (b.answers h clk o).kind = if b.arrivals = b.expected ∧ b.balance = 0 ∧ p = b.phase then
      .result [.reg d (BitVec.ofNat 64 (p * 2 ^ 32) ||| (if b.abort then 1 else 0)) none] else .barw h p d := by
  by_cases hc : b.arrivals = b.expected ∧ b.balance = 0
  · rw [Barrier.answers_closed hc, releaseBar, hk]
    by_cases hp : p = b.phase
    · simp only [hc, hp, and_self, if_true, statusWord_abort]
    · simp only [hp, and_false, if_false, hk]
  · rw [Barrier.answers_open hc, id, hk]
    exact (if_neg fun h => hc ⟨h.1, h.2.1⟩).symm

theorem Barrier.settled_past (b : Barrier) (past : List Nat) : ({ b with past := past } : Barrier).settled.counts = b.settled.counts := by
  unfold Barrier.settled
  dsimp only
  split <;> rfl

/-- A level's barrier i, read where the level is not spent, after the level's barriers have been written. -/
theorem barOfLevel_upd {α : Type} {t : Tbl α} {n i : Nat} {b : Barrier} (v : Barrier) {spent : α → Bool} {bars : α → List Barrier} {put : α → α}
    (hspent : ∀ x, spent (put x) = spent x) (hbars : ∀ x, bars (put x) = (bars x).set i v)
    (hb : (t.find n).bind (fun x => if spent x then none else (bars x)[i]?) = some b) :
    ((t.upd n put).find n).bind (fun x => if spent x then none else (bars x)[i]?) = some v := by
  simp only [Option.bind_eq_some_iff, Tbl.find_upd_same] at hb ⊢
  obtain ⟨x, hx, hb⟩ := hb
  split at hb
  · exact nomatch hb
  · next hlive =>
    have hi := (List.getElem?_eq_some_iff.1 hb).1
    exact ⟨put x, by rw [hx, Option.map_some], by simp [hspent, hbars, hlive, hi]⟩

theorem State.barGet_barSet {s : State} {h : BarHome} {b : Barrier} (hb : s.barGet h = some b) (v : Barrier) : (s.barSet h v).barGet h = some v := by
  cases h with
  | block id i => exact barOfLevel_upd v (spent := Block.spent) (bars := Block.bars) (put := fun x => { x with bars := x.bars.set i v }) (fun _ => rfl) (fun _ => rfl) hb
  | grove id i => exact barOfLevel_upd v (spent := Grove.spent) (bars := Grove.bars) (put := fun x => { x with bars := x.bars.set i v }) (fun _ => rfl) (fun _ => rfl) hb
  | span id i => exact barOfLevel_upd v (spent := fun _ => false) (bars := Launch.bars) (put := fun x => { x with bars := x.bars.set i v }) (fun _ => rfl) (fun _ => rfl) hb

/-- State t is s once barrier h stands as b with what has reached it counted: its waiters are answered when the phase completes, and
clk, threads, memory, messages and commands are as they were (R193, R196). -/
structure State.Recorded (s t : State) (h : BarHome) (b : Barrier) : Prop where
  clk     : t.clk = s.clk
  threads : t.threads = s.threads
  mem     : t.mem = s.mem
  msgs    : t.msgs = s.msgs
  cmds    : t.cmds = s.cmds
  ops     : ∀ n, t.ops.find n = (s.ops.find n).map (b.answers h s.clk)
  bar     : (t.barGet h).map Barrier.counts = some b.settled.counts

/-- A barrier put back with other operations and orders beside it. -/
theorem State.recorded_barSet {s : State} {h : BarHome} {b0 b v : Barrier} {ops : Tbl Op} (hbs : Tbl Hb) (hb : s.barGet h = some b0)
    (hops : ∀ n, Tbl.find ops n = (s.ops.find n).map (b.answers h s.clk)) (hv : v.counts = b.settled.counts) :
    s.Recorded { s.barSet h v with ops := ops, hbs := hbs } h b := by
  have hg : (({ s.barSet h v with ops := ops, hbs := hbs } : State).barGet h).map Barrier.counts = some b.settled.counts := by
    rw [show ({ s.barSet h v with ops := ops, hbs := hbs } : State).barGet h = (s.barSet h v).barGet h by cases h <;> rfl,
      State.barGet_barSet hb, Option.map_some, hv]
  cases h <;> exact ⟨rfl, rfl, rfl, rfl, rfl, hops, hg⟩

theorem State.recorded_barPut {s : State} {h : BarHome} {b0 : Barrier} (hb : s.barGet h = some b0) (b : Barrier) : s.Recorded (s.barPut h b) h b := by
  unfold State.barPut
  split
  next hc =>
    dsimp only
    obtain ⟨hbs, he⟩ := State.foldl_hbs (fun x k => State.see_hbs x k _) (s.ops.flatMap fun e => waitsAt h b.phase e.2) _
    rw [he]
    refine State.recorded_barSet hbs hb (fun n => ?_) ?_
    · rw [Tbl.find_mapVals, show (s.barSet h _).ops = s.ops by cases h <;> rfl]
      rw [Barrier.answers_closed hc]
    · rw [Barrier.settled, if_pos hc]; rfl
  next hc =>
    rw [show s.barSet h b = { s.barSet h b with ops := s.ops, hbs := s.hbs } by cases h <;> rfl]
    refine State.recorded_barSet s.hbs hb (fun n => ?_) ?_
    · rw [Barrier.answers_open hc, Option.map_id, id]
    · rw [Barrier.settled, if_neg hc]

theorem State.finishOp_barGet {t : State} {op k : Nat} {o : Op} (hr : o.recv = [k]) (l : List Landing) (h : BarHome) :
    (t.finishOp op o l).barGet h = t.barGet h := by
  rw [State.finishOp_one hr]
  cases h <;> rfl

/-! ## Events of operations -/

theorem balanceFits_iff (n : Int) : balanceFits n = true ↔ -(2 ^ 31) ≤ n ∧ n < 2 ^ 31 := by
  simp only [balanceFits, Bool.and_eq_true, decide_eq_true_eq]
  omega

section
variable {s : State} {h : BarHome} {b : Barrier} {op k : Nat} {o : Op} (hb : s.barGet h = some b) (f : s.Free op o k false)
include hb f

omit hb in
/-- An event lands when nothing holds it back. -/
theorem State.Free.doBar {e : BarEv} (hk : o.kind = .barEv h e) : exec (.classVResultLands op) s = .next (s.doBar op o h e) := by
  rw [f.lands, State.landNow]
  simp only [hk, f.free, if_true]

theorem arrival_lands {dst : Nat} (hk : o.kind = .barEv h (.arrive dst)) :
    ∃ s2, exec (.classVResultLands op) s = .next s2 ∧ s.Landed s2 op o k [.reg dst (BitVec.ofNat 64 b.phase) none] ∧
      (s2.barGet h).map Barrier.counts = some (b.withArrival k).settled.counts ∧
      ∀ n w p d, n ≠ op → s.ops.find n = some w → w.kind = .barw h p d → ∃ x, s2.ops.find n = some x ∧
        x.kind = if b.arrivals + 1 = b.expected ∧ b.balance = 0 ∧ p = b.phase then
          .result [.reg d (BitVec.ofNat 64 (p * 2 ^ 32) ||| (if b.abort then 1 else 0)) none] else .barw h p d := by
  obtain ⟨hr, ht⟩ := f.mine
  have he : s.doBar op o h (.arrive dst) =
      (s.barPut h { b.withArrival k with past := (b.past ++ s.barPast op o h).dedup }).finishOp op o [.reg dst (BitVec.ofNat 64 b.phase) none] := by
    simp only [State.doBar, hb, Barrier.withArrival, ht, List.contains_iff_mem]
  have hp := State.recorded_barPut hb { b.withArrival k with past := (b.past ++ s.barPast op o h).dedup }
  refine ⟨_, f.doBar hk, ?_, ?_, fun n w p d hn hw hwk => ?_⟩
  · rw [he]
    exact State.landed_finishOp hr hp.clk hp.threads _
  · rw [he, State.finishOp_barGet hr, hp.bar, Barrier.settled_past]
  · rw [he, State.finishOp_one hr]
    refine ⟨_, ?_, Barrier.answers_kind { b.withArrival k with past := (b.past ++ s.barPast op o h).dedup } h s.clk hwk⟩
    rw [Tbl.find_del, if_neg hn, hp.ops, hw, Option.map_some]

theorem post_lands {n : Int} (hk : o.kind = .barEv h (.post n)) (hlo : -(2 ^ 31) ≤ b.balance + n) (hhi : b.balance + n < 2 ^ 31) :
    ∃ s2, exec (.classVResultLands op) s = .next s2 ∧ s.Landed s2 op o k [] ∧
      (s2.barGet h).map Barrier.counts = some ({ b with balance := b.balance + n } : Barrier).settled.counts := by
  obtain ⟨hr, -⟩ := f.mine
  have hfits : balanceFits (b.balance + n) = true := (balanceFits_iff _).2 ⟨hlo, hhi⟩
  have he : s.doBar op o h (.post n) =
      (s.barPut h { ({ b with balance := b.balance + n } : Barrier) with past := (b.past ++ s.barPast op o h).dedup }).finishOp op o [] := by
    simp only [State.doBar, hb, hfits, if_true]
  have hp := State.recorded_barPut hb { ({ b with balance := b.balance + n } : Barrier) with past := (b.past ++ s.barPast op o h).dedup }
  refine ⟨_, f.doBar hk, ?_, ?_⟩
  · rw [he]
    exact State.landed_finishOp hr hp.clk hp.threads _
  · rw [he, State.finishOp_barGet hr, hp.bar, Barrier.settled_past]

theorem test_lands {p pd : Nat} (hk : o.kind = .barEv h (.test p pd)) :
    ∃ s2, exec (.classVResultLands op) s = .next s2 ∧ s.Landed s2 op o k [.pred pd (phaseDone b p)] ∧ s2.barGet h = some b := by
  obtain ⟨hr, -⟩ := f.mine
  obtain ⟨hbs, he⟩ : ∃ hbs, s.doBar op o h (.test p pd) = ({ s with hbs := hbs } : State).finishOp op o [.pred pd (phaseDone b p)] := by
    simp only [State.doBar, hb]
    split
    next hd =>
      obtain ⟨h1, e1⟩ := s.barSeen_hbs h o.recv
      obtain ⟨h2, e2⟩ := State.acquired_hbs { s with hbs := h1 } op o []
      exact ⟨h2, by rw [e1, e2, hd]⟩
    next hd => exact ⟨s.hbs, by rw [Bool.eq_false_iff.2 hd]⟩
  refine ⟨_, f.doBar hk, ?_, ?_⟩
  · rw [he]
    exact State.landed_finishOp hr (by rfl) (by rfl) _
  · rw [he, State.finishOp_barGet hr, ← hb]
    cases h <;> rfl

end

/-! ## Messages of commands -/

/-- Instruction i delivers a message: it is gone, its barrier stands as b2, its command goes on with the code err, and memory is as it was. -/
def State.Delivers (s : State) (i : Instr) (msg id : Nat) (c : Cmd) (h : BarHome) (b2 : Barrier) (err : Nat) : Prop :=
  ∃ s2, exec i s = .next s2 ∧ s2.msgs.find msg = none ∧ (s2.barGet h).map Barrier.counts = some b2.counts ∧
    s2.cmds.find id = some { c with stage := 3, err := err } ∧ s2.mem = s.mem

/-- The state once a message has been taken out. -/
def State.without (s : State) (msg : Nat) : State := { s with msgs := s.msgs.del msg }

theorem State.without_barGet (s : State) (msg : Nat) (h : BarHome) : (s.without msg).barGet h = s.barGet h := by cases h <;> rfl

section
variable {s : State} {h : BarHome} {b b2 : Barrier} {msg id : Nat} {m : Msg} {c : Cmd} {i : Instr} (hb : s.barGet h = some b)
  (hm : s.msgs.find msg = some m) (hh : m.bar = h) (hid : m.cmd = some id) (hc : s.cmds.find id = some c) (hl : s.levelSaved h = false)

section
variable (code : Nat)
include hid hc

/-- A command goes on once its message has changed nothing but its barrier. -/
theorem delivers_of {t : State} (he : exec i s = .next (t.creditDone m code)) (hmsgs : t.msgs = s.msgs.del msg) (hcmds : t.cmds = s.cmds) (hmem : t.mem = s.mem)
    (hbar : (t.barGet h).map Barrier.counts = some b2.counts) : s.Delivers i msg id c h b2 (if code = 0 then c.err else code) := by
  have hd : t.creditDone m code = { t with cmds := t.cmds.upd id fun x => { x with stage := 3, err := if code = 0 then x.err else code } } := by
    rw [State.creditDone, hid]
  have hg : (t.creditDone m code).barGet h = t.barGet h := by
    rw [hd]
    cases h <;> rfl
  refine ⟨_, he, ?_, by rw [hg, hbar], ?_, by rw [hd]; exact hmem⟩
  · rw [hd]
    exact (congrArg (Tbl.find · msg) hmsgs).trans ((Tbl.find_del ..).trans (if_pos rfl))
  · rw [hd]
    simp only [Tbl.find_upd_same, hcmds, hc, Option.map_some]

include hb

theorem delivers_applied (b1 : Barrier) (he : exec i s = .next (((s.without msg).barPut h b1).creditDone m code)) :
    s.Delivers i msg id c h b1.settled (if code = 0 then c.err else code) := by
  have hp := State.recorded_barPut ((State.without_barGet s msg h).trans hb) b1
  exact delivers_of hid hc code he hp.msgs hp.cmds hp.mem hp.bar

theorem delivers_refused (he : exec i s = .next ((s.without msg).creditDone m code)) : s.Delivers i msg id c h b (if code = 0 then c.err else code) := by
  exact delivers_of hid hc code he rfl rfl rfl (by rw [State.without_barGet, hb, Option.map_some])

end

include hb hm hh hl

theorem exec_engineCredit (ha : m.abort = false) : exec (.engineCredit msg) s =
    if balanceFits (b.balance - m.n) then
      .next (((s.without msg).barPut h { ({ b with balance := b.balance - m.n } : Barrier) with past := s.creditPast m b }).creditDone m 0)
    else .next ((s.without msg).creditDone m 9) := by
  have hb1 := (State.without_barGet s msg h).trans hb
  change execEngineCredit msg s = _
  rw [State.without] at hb1
  simp only [execEngineCredit, hm, ha, hh, hl, hb1, Bool.or_self, Bool.false_eq_true, if_false]
  rfl

theorem exec_abortDelivery (ha : m.abort = true) : exec (.abortDelivery msg) s =
    if balanceFits (b.balance - m.n) then
      .next (((s.without msg).barPut h { b with balance := b.balance - m.n, abort := true }).creditDone m 0)
    else .next ((s.without msg).creditDone m 0) := by
  have hb1 := (State.without_barGet s msg h).trans hb
  change execAbortDelivery msg s = _
  rw [State.without] at hb1
  simp only [execAbortDelivery, hm, ha, hh, hl, hb1, Bool.not_true, Bool.or_self, Bool.false_eq_true, if_false]
  rfl

include hid hc

theorem credit_delivered (ha : m.abort = false) :
    (balanceFits (b.balance - m.n) = true → s.Delivers (.engineCredit msg) msg id c h ({ b with balance := b.balance - m.n } : Barrier).settled c.err) ∧
    (balanceFits (b.balance - m.n) = false → s.Delivers (.engineCredit msg) msg id c h b 9) := by
  have he := exec_engineCredit hb hm hh hl ha
  refine ⟨fun hf => ?_, fun hf => ?_⟩
  · have hd := delivers_applied hb hid hc 0 _ (he.trans (if_pos hf))
    rw [State.Delivers, Barrier.settled_past] at hd
    exact hd
  · exact delivers_refused hb hid hc 9 (he.trans (if_neg (by simp [hf])))

theorem abort_delivered (ha : m.abort = true) :
    (balanceFits (b.balance - m.n) = true →
      s.Delivers (.abortDelivery msg) msg id c h ({ b with balance := b.balance - m.n, abort := true } : Barrier).settled c.err) ∧
    (balanceFits (b.balance - m.n) = false → s.Delivers (.abortDelivery msg) msg id c h b c.err) := by
  have he := exec_abortDelivery hb hm hh hl ha
  exact ⟨fun hf => delivers_applied hb hid hc 0 _ (he.trans (if_pos hf)), fun hf => delivers_refused hb hid hc 0 (he.trans (if_neg (by simp [hf])))⟩

end

/-- Settles O45: each event puts its barrier back by barPut, which counts as Barrier.settled says and answers the phase's waiters; an event that
does not fit leaves it. -/
theorem barrierEvents : Obligations.BarrierEvents := by
  unfold Obligations.BarrierEvents
  intro s h b hb
  refine ⟨fun op k o f => ⟨fun dst hk => arrival_lands hb f hk, fun n hk hlo hhi => post_lands hb f hk hlo hhi, fun p pd hk => test_lands hb f hk⟩, ?_⟩
  intro msg m id c hm hh hid hc hl fits gone
  have hfits : balanceFits (b.balance - m.n) = true ↔ fits := balanceFits_iff _
  have hover : ¬fits → balanceFits (b.balance - m.n) = false := fun hn => Bool.eq_false_iff.2 (mt hfits.1 hn)
  refine ⟨fun ha => ?_, fun ha => ?_⟩
  · obtain ⟨applied, refused⟩ := credit_delivered hb hm hh hid hc hl ha
    exact ⟨fun hf => applied (hfits.2 hf), fun hn => refused (hover hn)⟩
  · obtain ⟨applied, refused⟩ := abort_delivered hb hm hh hid hc hl ha
    exact ⟨fun hf => applied (hfits.2 hf), fun hn => refused (hover hn)⟩

end Sys2Proof.Machine
end

section
/-! ATOMICS AT THEIR ITEM (O42, not settled): the step of one member on memory as its owner has left it, and what the statement rests on. It holds
where the item keeps its place while the host's stores are read (R245), and fails where they fall on the page record under the item; which of the two the
model does is a free choice, an opaque function, so that neither the statement nor its negation follows (spec/10_isa_synchronisation.md R200-R204). -/

namespace Sys2Proof.Machine

/-! ## The values of one member's step -/

/-- The operation on integers that an update makes (R201). -/
def AtomOp.intOp (o : AtomOp) (t : AtomTy) : Option IOp :=
  match o with
  | .add => some .add
  | .min => some (if t = .s then .minS else .minN)
  | .max => some (if t = .s then .maxS else .maxN)
  | .and => some .and
  | .or => some .or
  | .xor => some .xor
  | .exch => none

theorem toNat_narrow_mod (i : IOp) {w : Nat} (hw : 0 < w) (h64 : w ≤ 64) (a b : Word) :
    (i.result w false a b).toNat % 2 ^ w = (i.spec (a.setWidth w) (b.setWidth w) (b.toNat % 64)).toNat := by
  rw [IOp.result, narrow_eq_extended, IOp.ofInt_eval i hw h64, extended, if_neg nofun, ← BitVec.toNat_setWidth, BitVec.setWidth_setWidth_of_le _ h64,
    BitVec.setWidth_eq]

/-- The new value of an integer item (R201). -/
theorem atomNew_int {o : AtomOp} {t : AtomTy} {i : IOp} (hi : AtomOp.intOp o t = some i) (ht : AtomTy.fty t = none) {n : Nat} (hn : 0 < n) (h8 : n ≤ 8)
    (old x : Word) :
    atomNew o t n old.toNat (x.toNat % 2 ^ (8 * n)) = (i.spec (old.setWidth (8 * n)) (x.setWidth (8 * n)) (x.toNat % 2 ^ (8 * n) % 2 ^ 64 % 64)).toNat := by
  have hx : (BitVec.ofNat 64 (x.toNat % 2 ^ (8 * n))).setWidth (8 * n) = x.setWidth (8 * n) := by
    rw [← BitVec.toNat_setWidth, BitVec.ofNat_toNat, BitVec.setWidth_setWidth_of_le _ (by omega), BitVec.setWidth_eq]
  have h := toNat_narrow_mod i (w := 8 * n) (by omega) (by omega) old (BitVec.ofNat 64 (x.toNat % 2 ^ (8 * n)))
  rw [hx, BitVec.toNat_ofNat] at h
  rw [← h]
  cases o <;> simp only [AtomOp.intOp, Option.some.injEq, reduceCtorEq] at hi <;> subst hi <;> simp only [atomNew, ht, BitVec.ofNat_toNat, BitVec.setWidth_eq]

/-! ## What one member's step leaves -/

/-- An update of one integer item always writes (R204). -/
theorem atomStep_op {o : AtomOp} {t : AtomTy} (ht : AtomTy.fty t = none) (n old : Nat) (m : AtomMember) :
    atomStep (.op o t) n old [m] = ([old], atomNew o t n old (m.x.toNat % 2 ^ (8 * n)), true) := by
  cases o <;> simp only [atomStep, ht, atomSeq]

/-- CAS writes where the item equals its comparand (R202). -/
theorem atomStep_cas (n old : Nat) (m : AtomMember) : atomStep .cas n old [m] =
    if old = m.x.toNat % 2 ^ (8 * n) then ([old], m.y.toNat % 2 ^ (8 * n), true) else ([old], old, false) := by
  by_cases h : old = m.x.toNat % 2 ^ (8 * n)
  · simp only [atomStep, atomSeq, if_pos h]
  · simp only [atomStep, atomSeq, if_neg h]

/-! ## The place of an access depends on what reads leave as it was -/

section
variable {s t : State} (h : t.lasting = s.lasting)
include h

theorem State.bytesAt_of_lasting (key pa n : Nat) : t.bytesAt none key pa n = s.bytesAt none key pa n := by
  have ht : t.keyTags = s.keyTags := congrArg (·.2.2.1) h
  have hg : t.keyGens = s.keyGens := congrArg (·.2.2.2) h
  have hb : ∀ pa, t.byteAt none key pa = s.byteAt none key pa := fun pa => by
    simp only [State.byteAt, State.rawAt, State.mem_of_lasting h, ht, State.keyGen_of_keyGens hg]
  induction n generalizing pa with
  | zero => rfl
  | succ n ih => rw [State.bytesAt, State.bytesAt, hb, ih]

theorem State.paNow_of_lasting (a : Access) : t.paNow a = s.paNow a := by
  unfold State.paNow
  split
  · simp only [State.wframe, State.hwRead, State.readPa, State.bytesAt_of_lasting h]
  · rfl

theorem State.Plain.of_lasting {a : Access} (hp : s.Plain a) : t.Plain a := by
  have hpa := State.paNow_of_lasting h a
  refine ⟨by rw [State.mem_of_lasting h]; exact hp.wf, fun i hi => by rw [hpa]; exact hp.sector i hi, ?_⟩
  rw [hpa]
  exact State.keyedFor_of_lasting h hp.key

end

/-! ## One member's step -/

/-- What a member receives of the item's old value. -/
def AtomMember.gets (m : AtomMember) (v : Word) : List Landing :=
  match m.dst with
  | some r => [.reg r v none]
  | none => []

section
variable {s : State} {op k : Nat} {o : Op} {a : Access} {fn : AtomFn} {m : AtomMember} (f : s.Free op o k false) (hk : o.kind = .atomic a fn [m])
include f hk

/-- An atomic that stands free takes its step on memory as its owner has left it (R203, R245). -/
theorem State.Free.atomic : exec (.classVResultLands op) s = .next ((s.fromOwner o a).doAtomic op o a fn [m]) := by
  rw [f.lands, State.landNow]
  simp only [hk, f.free, if_true]
  rw [f.viaPeer ⟨_, _, by rw [hk, OpKind.access]⟩]

/-- A step that writes. -/
theorem atomic_writes (hp : (s.fromOwner o a).Plain a) {v : Nat} {new : Word}
    (hstep : atomStep fn a.size ((s.fromOwner o a).loadValue op k a).toNat [m] = ([v], new.toNat, true)) :
    ∃ s2, exec (.classVResultLands op) s = .next s2 ∧ s.Landed s2 op o k (m.gets (fn.ext a.size v)) ∧
      (s.fromOwner o a).Wrote s2 ((s.fromOwner o a).paNow a) a.size new := by
  obtain ⟨hr, ht⟩ := f.mine
  have ha := State.fromOwner_aside s o a
  refine ⟨_, f.atomic hk, ?_⟩
  generalize hs0 : s.fromOwner o a = s0 at hp hstep ha
  have hread : (s0.afterRead op o (s0.paNow a) a.size false).lasting = s0.lasting := State.afterRead_lasting ..
  obtain ⟨hside, hmem⟩ := State.storeNow_plain (hp.of_lasting hread) k ((s0.afterRead op o (s0.paNow a) a.size false).opWriter op o o.recv (some a)) new
  rw [State.mem_of_lasting hread, State.paNow_of_lasting hread] at hmem
  have hall := (hside.trans (State.aside_of_lasting hread)).trans ha
  have he : s0.doAtomic op o a fn [m] = ((s0.afterRead op o (s0.paNow a) a.size false).storeNow k
      ((s0.afterRead op o (s0.paNow a) a.size false).opWriter op o o.recv (some a)) a (toLe a.size new.toNat)).finishOp op o (m.gets (fn.ext a.size v)) := by
    simp only [State.doAtomic, ht, hstep, if_true]
    rfl
  rw [he]
  exact ⟨State.landed_finishOp hr (State.clk_of_aside hall) (State.threads_of_aside hall) _, hp.wrote ((State.finishOp_mem ..).trans hmem)⟩

/-- A step that only reads. -/
theorem atomic_reads {v new : Nat} (hstep : atomStep fn a.size ((s.fromOwner o a).loadValue op k a).toNat [m] = ([v], new, false)) :
    ∃ s2, exec (.classVResultLands op) s = .next s2 ∧ s.Landed s2 op o k (m.gets (fn.ext a.size v)) ∧ s2.mem = (s.fromOwner o a).mem := by
  obtain ⟨hr, ht⟩ := f.mine
  have ha := State.fromOwner_aside s o a
  refine ⟨_, f.atomic hk, ?_⟩
  generalize hs0 : s.fromOwner o a = s0 at hstep ha
  have hread : ((s0.afterRead op o (s0.paNow a) a.size false).readNow op o a).lasting = s0.lasting := by simp
  have hall := (State.aside_of_lasting hread).trans ha
  have he : s0.doAtomic op o a fn [m] = ((s0.afterRead op o (s0.paNow a) a.size false).readNow op o a).finishOp op o (m.gets (fn.ext a.size v)) := by
    simp only [State.doAtomic, ht, hstep, Bool.false_eq_true, if_false]
    rfl
  rw [he]
  exact ⟨State.landed_finishOp hr (State.clk_of_aside hall) (State.threads_of_aside hall) _, (State.finishOp_mem ..).trans (State.mem_of_lasting hread)⟩

end

/-! ## The statement, where the place stays -/

theorem State.loadValue_lt (s : State) (op k : Nat) (a : Access) : (s.loadValue op k a).toNat < 2 ^ (8 * a.size) := by
  have hl := ofLe_lt (s.loadBytes op k a (s.paNow a) a.size)
  rw [State.loadBytes_eq_map, List.length_map, List.length_range, show (256 : Nat) = 2 ^ 8 from rfl, ← Nat.pow_mul, ← State.loadBytes_eq_map] at hl
  rw [State.loadValue, BitVec.toNat_ofNat]
  exact (Nat.mod_le _ _).trans_lt hl

/-- An item of type .s reaches its register with its sign (R201). -/
theorem AtomFn.ext_signed {o : AtomOp} {n : Nat} (v : Word) : AtomFn.ext (.op o .s) n v.toNat = (v.setWidth (8 * n)).signExtend 64 := by
  rw [AtomFn.ext, atomExt, narrow_eq_extended, BitVec.ofInt_natCast, BitVec.ofNat_toNat]
  rfl

theorem setWidth_of_lt {w : Nat} {v : Word} (h : v.toNat < 2 ^ w) : (v.setWidth w).setWidth 64 = v := by
  refine BitVec.eq_of_toNat_eq ?_
  rw [BitVec.toNat_setWidth, BitVec.toNat_setWidth, Nat.mod_eq_of_lt h, Nat.mod_eq_of_lt v.isLt]

theorem toNat_setWidth_64 {w : Nat} (h : w ≤ 64) (x : BitVec w) : (x.setWidth 64).toNat = x.toNat := by
  have := Nat.pow_le_pow_right (n := 2) (by decide) h
  rw [BitVec.toNat_setWidth, Nat.mod_eq_of_lt (x.isLt.trans_le this)]

/-- The statement, where an item's place is the same before and after its owner's stores are read: each operation's value is what R201 and R202 give. -/
theorem atomicSteps_of_place
    (place : ∀ (s : State) (op k : Nat) (o : Op) (a : Access) (fn : AtomFn) (m : AtomMember), s.Free op o k false → o.kind = .atomic a fn [m] →
      (s.fromOwner o a).paNow a = s.paNow a) : Obligations.AtomicSteps := by
  unfold Obligations.AtomicSteps
  intro s op k o a fn m f hk hm s0 hsize hp w pa old x y e gives
  have hn : 0 < a.size ∧ a.size ≤ 8 := by omega
  have hlt : old.toNat < 2 ^ w := s0.loadValue_lt op k a
  have hext : e.setWidth 64 = old := setWidth_of_lt hlt
  have hpa : s0.paNow a = pa := place s op k o a fn m f hk
  have writes : ∀ (ext : Word) (v : Nat) (new : BitVec w), atomStep fn a.size old.toNat [m] = ([v], new.toNat, true) → fn.ext a.size v = ext → gives ext (some new) := by
    rintro _ v new hstep rfl
    rw [← toNat_setWidth_64 (by omega) new] at hstep
    obtain ⟨s2, he, hl, hw⟩ := atomic_writes f hk hp hstep
    exact ⟨s2, he, hl, hpa ▸ hw⟩
  have update : ∀ (o : AtomOp) (t : AtomTy) (ext : Word) (new : BitVec w), AtomTy.fty t = none →
      atomNew o t a.size old.toNat (m.x.toNat % 2 ^ w) = new.toNat → AtomFn.ext (.op o t) a.size old.toNat = ext → fn = .op o t → gives ext (some new) := by
    rintro o t ext new ht hnew hext rfl
    exact writes ext old.toNat new (by rw [atomStep_op ht, hnew]) hext
  have signed : ∀ (o : AtomOp) (i : IOp), AtomOp.intOp o .s = some i → fn = .op o .s → gives (e.signExtend 64) (some (i.spec e x _)) :=
    fun o i hi => update o .s _ _ rfl (atomNew_int hi rfl hn.1 hn.2 old m.x) (AtomFn.ext_signed old)
  have plain : ∀ (o : AtomOp) (i : IOp), AtomOp.intOp o .n = some i → fn = .op o .n → gives (e.setWidth 64) (some (i.spec e x _)) :=
    fun o i hi => update o .n _ _ rfl (atomNew_int hi rfl hn.1 hn.2 old m.x) ((BitVec.ofNat_toNat ..).trans (hext ▸ rfl))
  refine ⟨fun hh => State.fromOwner_own s o a hh (f.notPeer ⟨_, _, by rw [hk, OpKind.access]⟩), signed .add .add rfl, plain .add .add rfl,
    signed .min .minS rfl, plain .min .minN rfl, signed .max .maxS rfl, plain .max .maxN rfl, plain .and .and rfl, plain .or .or rfl, plain .xor .xor rfl,
    ?exch, ?cas⟩
  case exch =>
    refine update .exch .n _ _ rfl ?_ ((BitVec.ofNat_toNat ..).trans (hext ▸ rfl))
    rw [atomNew, Nat.mod_mod, ← BitVec.toNat_setWidth]
  case cas =>
    rintro rfl
    have hmeets : old.toNat = m.x.toNat % 2 ^ w ↔ e = x := by
      rw [← BitVec.toNat_inj, BitVec.toNat_setWidth, BitVec.toNat_setWidth, Nat.mod_eq_of_lt hlt]
    by_cases hx : e = x
    · rw [if_pos hx]
      refine writes _ old.toNat y ?_ ((BitVec.ofNat_toNat ..).trans (hext ▸ rfl))
      rw [atomStep_cas, if_pos (hmeets.2 hx), BitVec.toNat_setWidth]
    · rw [if_neg hx]
      obtain ⟨s2, he, hl, hmem⟩ := atomic_reads f hk ((atomStep_cas ..).trans (if_neg (mt hmeets.1 hx)))
      refine ⟨s2, he, ?_, hmem⟩
      rw [show AtomFn.ext .cas a.size old.toNat = e.setWidth 64 from (BitVec.ofNat_toNat ..).trans (hext ▸ rfl)] at hl
      exact hl

/-! ## The statement rests on a free choice -/

/-- Where nobody stores outside the package between two reads, every access keeps its place. -/
theorem State.fromOwner_kept {s : State} {o : Op} {a : Access} (h : Config.choose s.draws 15 % 2 = 0) : s.fromOwner o a = s := by
  have hpick : s.pick 15 % 2 = 0 := h
  simp [State.fromOwner, State.outsideStore, hpick]

theorem State.writePa_of_underKey0 {s : State} (h : s.underKey0) (w : Writer) (pa : Nat) (bs : List Byte) :
    (s.writePa w 0 pa bs none).mem = Mem.writeN s.mem pa bs ∧ (s.writePa w 0 pa bs none).underKey0 := by
  obtain ⟨h1, -, h3⟩ := State.rekey_of_underKey0 h pa bs.length
  obtain ⟨k1, k2⟩ := State.foldl_ownSector_keys (sectorsOf pa bs.length) w.core w.die (s.rekey (s.keyGen 0) pa bs.length)
  refine ⟨by rw [State.writePa_mem, h1], fun sec g e => ?_⟩
  have hgens : (s.writePa w 0 pa bs none).keyGens = (s.rekey (s.keyGen 0) pa bs.length).keyGens := k2
  rw [State.keyGen_of_keyGens hgens]
  exact h3 sec g (k1 ▸ e)

/-- The two lowest bytes of a working frame's number stand in its record (R257). -/
theorem State.wframe_bytes {s : State} (h : s.underKey0) (r : Nat) :
    s.wframe r / 2 ^ 16 % 256 = (Mem.read s.mem (r + 2)).toNat ∧ s.wframe r / 2 ^ 24 % 256 = (Mem.read s.mem (r + 3)).toNat := by
  have hlt : ∀ b : Byte, b.toNat < 256 := fun b => b.isLt
  rw [State.wframe, State.hwRead_of_underKey0 h, bits, BitVec.toNat_ofNat, Mem.readN_eq_map]
  simp only [List.range_succ, List.range_zero, List.nil_append, List.cons_append, List.map_cons, List.map_nil, ofLe]
  have h0 := hlt (Mem.read s.mem (r + 0)); have h1 := hlt (Mem.read s.mem (r + 1)); have h2 := hlt (Mem.read s.mem (r + 2))
  have h3 := hlt (Mem.read s.mem (r + 3))
  omega

/-- A frame of host memory, whose address has 1 in bits [23:16] and 0 in bits [31:24]. -/
def hostFrame : Nat := 0x8000000010000

/-- Its first four bytes as an item of a working page whose record stands at r. -/
def itemOnRecord (r : Nat) : Access := { ctx := 0, va := 0, pa := 0, size := 4, key := 0, policy := 1, vrec := some r }

def exchMember (x : Word) : AtomMember := { thr := 0, x := x, dst := none }

def exchOp (r : Nat) (x : Word) : Op :=
  { thr := 0, recv := [0], pc := 0, word := 0, issueClk := 0, flag := none, sync := false, kind := .atomic (itemOnRecord r) (.op .exch .n) [exchMember x] }

/-- Thread 0 exchanges that item, at draw d, and the record at r names the frame. -/
def recordUnderItem (r d : Nat) (x : Word) : State :=
  { State.reset with
    draws := d
    threads := [(0, { blk := 0, tid := 0, bslot := 0, pc := 0, n := 0, regs := [], preds := [], flags := [], hw := [], depth := 0, tba := 0, tlsbase := 0 })]
    mem := [(r + 2, 1#8), (r + 6, 8#8)]
    ops := [(1, exchOp r x)] }

theorem State.paNow_itemOnRecord (s : State) (r : Nat) : s.paNow (itemOnRecord r) = s.wframe r := by simp [State.paNow, itemOnRecord]

theorem recordUnderItem_paNow {r : Nat} (hr : r = hostFrame - 2 ∨ r = hostFrame - 3) (d : Nat) (x : Word) :
    (recordUnderItem r d x).paNow (itemOnRecord r) = hostFrame := by
  have h : (recordUnderItem r d x).paNow (itemOnRecord r) = (recordUnderItem r 0 0).paNow (itemOnRecord r) := rfl
  rw [h]
  rcases hr with rfl | rfl <;> decide

/-- The exchange stands free: its page is of the working step, and nothing else is outstanding. -/
theorem recordUnderItem_free {r : Nat} (hr : r = hostFrame - 2 ∨ r = hostFrame - 3) (d : Nat) (x : Word) :
    (recordUnderItem r d x).Free 1 (exchOp r x) 0 false := by
  have h : (recordUnderItem r d x).canPerform 1 (exchOp r x) false = (recordUnderItem r 0 0).canPerform 1 (exchOp r 0) false := rfl
  refine ⟨rfl, ⟨rfl, rfl⟩, rfl, h.trans ?_, _, rfl, .inl rfl⟩
  rcases hr with rfl | rfl <;> decide

/-- The lowest byte that the host stores to the frame at draw d. -/
def hostByte (d : Nat) : Byte := (Config.unstated d (2 ^ 20 + hostFrame + 0)).setWidth 8

section
variable {r d : Nat} {x : Word} (hr : r = hostFrame - 2 ∨ r = hostFrame - 3) (hd : Config.choose d 15 % 2 = 1)
include hr hd

/-- The read finds the item, and so the record, as the host has stored there. -/
theorem recordUnderItem_fromOwner : ∃ bs, bs.length = 4 ∧ bs.getD 0 0 = hostByte d ∧
    ((recordUnderItem r d x).fromOwner (exchOp r x) (itemOnRecord r)).mem = Mem.writeN (recordUnderItem r d x).mem hostFrame bs ∧
    ((recordUnderItem r d x).fromOwner (exchOp r x) (itemOnRecord r)).underKey0 := by
  have hpick : (recordUnderItem r d x).pick 15 % 2 = 1 := hd
  have hhost : (recordUnderItem r d x).fromHost hostFrame = true := rfl
  have hreads : (exchOp r x).kind.reads = true := rfl
  have hpeer : isPeer (itemOnRecord r).pa = false := rfl
  have hkeys : (recordUnderItem r d x).underKey0 := State.underKey0_of_nil rfl
  simp only [State.fromOwner, hreads, hpeer, recordUnderItem_paNow hr, hhost, State.outsideStore, hpick, show isHost hostFrame = true from rfl, Bool.not_true,
    Bool.false_eq_true, if_false, if_true, Bool.true_or, beq_self_eq_true, Bool.and_self]
  obtain ⟨hm, hk⟩ := State.writePa_of_underKey0 hkeys
    { by_ := .host, now := true, heads := [{ by_ := .host, scope := .sys, past := [] }] } hostFrame
    ((List.range (itemOnRecord r).size).map fun i => (Config.unstated (recordUnderItem r d x).draws (2 ^ 20 + hostFrame + i)).setWidth 8)
  exact ⟨_, by simp [itemOnRecord], rfl, hm, hk⟩

end

/-- The host's byte cannot be both of the bytes of a record that may lie under it, so that one of the two records names another frame after it. -/
theorem exists_record_moves (d : Nat) : ∃ r, (r = hostFrame - 2 ∨ r = hostFrame - 3) ∧
    ∀ s : State, s.underKey0 → Mem.read s.mem hostFrame = hostByte d → s.wframe r ≠ hostFrame := by
  by_cases h1 : hostByte d = 1#8
  · refine ⟨hostFrame - 3, .inr rfl, fun s hk hm hf => ?_⟩
    have hb := (s.wframe_bytes hk (hostFrame - 3)).2
    rw [hf, Nat.sub_add_cancel (by decide), hm, h1] at hb
    exact absurd hb (by decide)
  · refine ⟨hostFrame - 2, .inl rfl, fun s hk hm hf => h1 ?_⟩
    have hb := (s.wframe_bytes hk (hostFrame - 2)).1
    rw [hf, Nat.sub_add_cancel (by decide), hm] at hb
    exact BitVec.eq_of_toNat_eq hb.symm

theorem itemOnRecord_plain {s : State} (hm : Mem.wf s.mem = true) (hk : s.underKey0) (r : Nat) : s.Plain (itemOnRecord r) := by
  refine ⟨hm, fun i hi => ?_, ?_⟩
  · have hi : i < 4 := hi
    rw [s.paNow_itemOnRecord, State.wframe]
    omega
  · cases e : s.keyTags.find (s.paNow (itemOnRecord r) / 64) with
    | none => exact .inl rfl
    | some w => exact .inr (congrArg some (hk _ w e))

theorem lowByte_setWidth (b : Byte) : (((b.setWidth 64).setWidth 32).setWidth 64).extractLsb' (8 * 0) 8 = b := by
  refine BitVec.eq_of_getLsbD_eq fun i hi => ?_
  rw [BitVec.getLsbD_extractLsb']
  simp only [BitVec.getLsbD_setWidth]
  grind

/-- Where the host may store between the reads of a record and of an item, the statement fails: the record that lies under the item then
names another frame, and the item's step is there. -/
theorem not_atomicSteps_of_choice {d : Nat} (hd : Config.choose d 15 % 2 = 1) : ¬ Obligations.AtomicSteps := by
  unfold Obligations.AtomicSteps
  intro h
  obtain ⟨r, hr, hne⟩ := exists_record_moves d
  let x : Word := (hostByte d + 1).setWidth 64
  obtain ⟨bs, hlen, hbyte, hm, hk⟩ := recordUnderItem_fromOwner (x := x) hr hd
  have hfree := recordUnderItem_free hr d x
  have hpa := recordUnderItem_paNow hr d x
  have hstep := h (recordUnderItem r d x) 1 0 (exchOp r x) (itemOnRecord r) (.op .exch .n) (exchMember x) hfree rfl rfl (.inl rfl)
  generalize hs0 : (recordUnderItem r d x).fromOwner (exchOp r x) (itemOnRecord r) = s0 at hm hk hstep
  have hwf : Mem.wf (recordUnderItem r d x).mem = true := by rcases hr with rfl | rfl <;> rfl
  have hread : Mem.read s0.mem hostFrame = hostByte d := by
    rw [hm, Mem.read_writeN hwf, if_pos ⟨Nat.le_refl _, by omega⟩, Nat.sub_self, hbyte]
  have hmoved := s0.paNow_itemOnRecord r
  have haway := hne s0 hk hread
  obtain ⟨p, hp⟩ : ∃ p, s0.wframe r = p * 65536 := ⟨_, rfl⟩
  have hplain : s0.Plain (itemOnRecord r) := itemOnRecord_plain (by rw [hm]; exact Mem.wf_writeN hwf ..) hk r
  obtain ⟨-, -, -, -, -, -, -, -, -, -, exch, -⟩ := hstep hplain
  obtain ⟨s2, he, -, hw⟩ := exch rfl
  have hnew : atomStep (.op .exch .n) 4 (s0.loadValue 1 0 (itemOnRecord r)).toNat [exchMember x] =
      ([(s0.loadValue 1 0 (itemOnRecord r)).toNat], ((x.setWidth 32).setWidth 64).toNat, true) := by
    rw [atomStep_op rfl, atomNew, Nat.mod_mod, toNat_setWidth_64 (by decide), BitVec.toNat_setWidth]
    rfl
  subst hs0
  obtain ⟨s3, he3, -, hw3⟩ := atomic_writes hfree rfl hplain hnew
  obtain rfl := Host.Outcome.next.inj (he.symm.trans he3)
  have hkept : Mem.read s2.mem hostFrame = hostByte d := by
    rw [hw3 hostFrame, if_neg, hread]
    rw [hmoved, hp]
    rw [hp] at haway
    rintro ⟨hlo, hhi⟩
    have hhi : hostFrame < p * 65536 + 4 := hhi
    simp only [hostFrame] at haway hlo hhi
    omega
  have hwrote : Mem.read s2.mem hostFrame = hostByte d + 1 := by
    refine (hw hostFrame).trans ?_
    rw [hpa, if_pos ⟨Nat.le_refl _, by simp [itemOnRecord]⟩, Nat.sub_self]
    exact lowByte_setWidth _
  rw [hkept] at hwrote
  bv_omega

/-- The statement holds exactly where the host's stores to its own memory (R245) never come before a read: that is the free choice 15, and the choices
are an opaque function of the draws (Config.choose). -/
theorem atomicSteps_iff : Obligations.AtomicSteps ↔ ∀ d, Config.choose d 15 % 2 = 0 := by
  refine ⟨fun h d => (Nat.mod_two_eq_zero_or_one _).resolve_right fun hd => not_atomicSteps_of_choice hd h, fun h => atomicSteps_of_place ?_⟩
  intro s op k o a fn m _ _
  rw [State.fromOwner_kept (h s.draws)]

end Sys2Proof.Machine
end

section
/-! REMOTE WRITES (O52): the clause of REMOTE_WRITE_APPLY asks nothing of the order of the writes on their way, and fails where their table is not
canonical (spec/12_memory_hierarchy.md R222, spec/13_consistency_model.md R236). -/

namespace Sys2Proof.Machine

/-- A write of one byte at pa that some dies have still to apply. -/
def writeTo (pa : Nat) (dies : List Nat) : Inflight := { dies := dies, old := [(pa, 0)], oldFe := [], past := [] }

/-- Message 0, which only die 0 has still to apply, stands in the table after message 1, which another die has. -/
def unorderedWrites : State := { State.reset with inflight := [(1, writeTo 64 [1]), (0, writeTo 0 [0])] }

/-- Nothing on its way comes before message 0 at die 0. -/
theorem unorderedWrites_free : (unorderedWrites.inflight.any fun x => x.2.dies.contains 0 &&
    ((writeTo 0 [0]).past.contains x.1 || (decide (x.1 < 0) && x.2.sectors.any ((writeTo 0 [0]).sectors.contains ·)))) = false := by decide

/-- Die 0 applies it: its new entry, put before message 1, is forgotten, and the old one is left. -/
theorem unorderedWrites_apply : exec (.remoteWriteApply 0 0) unorderedWrites = .next unorderedWrites := rfl

/-- Refutes O52: in a table that is not in rising order the write that a die has applied is put beside its old entry, which goes on naming the die
once the new one is forgotten (R236). -/
theorem not_coherenceEvents : ¬ Obligations.CoherenceEvents := by
  unfold Obligations.CoherenceEvents
  intro h
  obtain ⟨-, -, -, -, -, -, -, -, -, -, apply⟩ := h unorderedWrites
  obtain ⟨-, applied⟩ := apply 0 0 (writeTo 0 [0]) rfl (by decide)
  obtain ⟨s2, he, -, -, -, hdies⟩ := applied unorderedWrites_free
  obtain rfl := Host.Outcome.next.inj (unorderedWrites_apply.symm.trans he)
  exact hdies _ rfl (by decide)

end Sys2Proof.Machine
end

section
/-! COPIES (O53): what a copy has read stands in its command, but under the number 2^62, the checkpoint block's name, in that block. The clause on a copy of
one byte asks of the command alone that it has read nothing (spec/16_engines_model.md R273, R280). -/

namespace Sys2Proof.Machine

theorem State.updCmd_find (s : State) (id : Nat) (f : Cmd → Cmd) : (s.updCmd id f).cmds.find id = (s.cmds.find id).map f := Tbl.find_upd_same ..

/-! ## A copy whose bytes are all written -/

/-- With every byte written a run of a copy only marks the command done. -/
theorem State.pieces_of_written {s : State} {id : Nat} {c : Cmd} (hc : s.cmds.find id = some c) (hw : s.cmdBytes c ≤ c.unit) (n : Nat) :
    s.pieces id n = s ∨ s.pieces id n = s.updCmd id fun x => { x with done := true, got := [], wrote := [] } := by
  cases n with
  | zero => exact .inl rfl
  | succ n =>
    simp only [State.pieces, hc]
    by_cases hd : c.done = true
    · exact .inl (if_pos hd)
    · exact .inr (by rw [if_neg hd, if_pos (.inr hw)])

/-- It reads nothing ahead: its command is done, or has no byte left. -/
theorem State.readAhead_of_done {s : State} {id : Nat} {c : Cmd} (hc : s.cmds.find id = some c) (hd : c.done = true ∨ s.cmdBytes c ≤ c.unit) (n : Nat) :
    s.readAhead id n = s := by
  cases n with
  | zero => rfl
  | succ n => simp only [State.readAhead, hc]; exact if_pos (by simpa using hd)

/-- A run of such a copy, however long, leaves memory as it is. -/
theorem State.run_of_written_mem {s : State} {id : Nat} {c : Cmd} (hc : s.cmds.find id = some c) (hw : s.cmdBytes c ≤ c.unit) (n m : Nat) :
    ((s.pieces id n).readAhead id m).mem = s.mem := by
  obtain he | he := State.pieces_of_written hc hw n
  · rw [he, State.readAhead_of_done hc (.inr hw)]
  · have hdone : (s.updCmd id fun x => { x with done := true, got := [], wrote := [] }).cmds.find id = some { c with done := true, got := [], wrote := [] } :=
      (State.updCmd_find ..).trans (congrArg _ hc)
    rw [he, State.readAhead_of_done hdone (.inl rfl), State.updCmd_mem]

/-- The last byte of a copy is its next word. -/
theorem State.nextWord_last (s : State) {c : Cmd} {total : Nat} (h : total = c.unit + 1) (i : Nat) : s.nextWord c total i = c.dstSpan c.unit total := by
  have hz : s.pick (64 + i) % (total - c.unit) = 0 := by rw [h, Nat.add_sub_cancel_left, Nat.mod_one]
  simp only [State.nextWord, hz, Nat.add_zero, ite_self]

/-! ## The statement -/

/-- A CPY of one byte from 0x5000 to 0x6000 that has started and done nothing yet. -/
def oneByteCopy : Cmd :=
  { engine := 0, kind := .cpy, thr := 0, recv := [], ctx := 0, die := 0, launch := 0, grove := 0, blkId := 0, pc := 0, regs := [0x5000, 0x6000]
    credit := none, token := 0, flag := none, sync := false, ordered := false, started := true }

/-- It has the checkpoint block's number, which has read a byte 1 under key 0; root word and tables lead context 0 to one leaf, read and write,
that maps the first 2^30 bytes to themselves (R249). -/
def copyAsCheckpoint : State :=
  { State.reset with
    mem := [(0, 1), (1, 0x10), (0x1000, 1), (0x1001, 0x20), (0x2000, 1), (0x2001, 0x30), (0x3000, 0xB2)]
    cmds := [(ckId, oneByteCopy)]
    ck := { got := [(0, ([1], false))] } }

/-- Its access to one byte at va. -/
def byteAccess (va : Nat) : Access := { ctx := 0, va := va, pa := va, size := 1, key := 0, policy := 0 }

theorem copyAsCheckpoint_source : copyAsCheckpoint.accessFor (Agent.engine 0) 0 (oneByteCopy.a 0) 1 .read = .ok (byteAccess 0x5000) := by rfl

theorem copyAsCheckpoint_target : copyAsCheckpoint.accessFor (Agent.engine 0) 0 (oneByteCopy.a 1) 1 .write = .ok (byteAccess 0x6000) := by rfl

/-- No cache holds anything that its read could move. -/
theorem copyAsCheckpoint_engCaches : copyAsCheckpoint.engCaches (byteAccess 0x5000) 1 false = copyAsCheckpoint := by rfl

/-- Its first byte is the one that the checkpoint block has read. -/
theorem copyAsCheckpoint_read : engAll (fun s i => s.copyByte ckId oneByteCopy (0 + i)) copyAsCheckpoint (List.range 1) = .ok copyAsCheckpoint [1] := by rfl

/-- The state once that byte is written. -/
def copyAsCheckpointWrote : State := copyAsCheckpoint.writePa (cmdWriter ckId oneByteCopy) 0 0x6000 [1] none

theorem copyAsCheckpoint_word : copyAsCheckpoint.copyWord ckId oneByteCopy (0, 1) = .ok copyAsCheckpointWrote () := by
  unfold State.copyWord
  rw [copyAsCheckpoint_read]
  rfl

theorem copyAsCheckpointWrote_read : Mem.read copyAsCheckpointWrote.mem 0x6000 = 1 := by rfl

/-- The command then has no byte left to write. -/
theorem copyAsCheckpointWrote_cmd : (copyAsCheckpointWrote.updCmd ckId fun x => x.advance (0, 1)).cmds.find ckId = some (oneByteCopy.advance (0, 1)) := by rfl

/-- A run of the command writes that byte, and no other after it. -/
theorem copyAsCheckpoint_runs : exec (.engineCommandStart ckId) copyAsCheckpoint = .next (copyAsCheckpoint.runCmd ckId oneByteCopy) ∧
    Mem.read (copyAsCheckpoint.runCmd ckId oneByteCopy).mem 0x6000 = 1 := by
  refine ⟨rfl, ?_⟩
  have hnext (i : Nat) : copyAsCheckpoint.nextWord oneByteCopy 1 i = (0, 1) := State.nextWord_last _ rfl i
  have hone (n : Nat) : copyAsCheckpoint.pieces ckId (1 + n) = (copyAsCheckpointWrote.updCmd ckId fun x => x.advance (0, 1)).pieces ckId n := by
    rw [Nat.add_comm]
    simp only [State.pieces, show copyAsCheckpoint.cmds.find ckId = some oneByteCopy from rfl, show copyAsCheckpoint.cmdBytes oneByteCopy = 1 from rfl, hnext,
      copyAsCheckpoint_word]
    rfl
  have hrun : (copyAsCheckpoint.runCmd ckId oneByteCopy).mem = copyAsCheckpointWrote.mem := by
    rw [State.runCmd]
    simp only [show oneByteCopy.kind = .cpy from rfl, hone]
    rw [State.run_of_written_mem copyAsCheckpointWrote_cmd (by decide), State.updCmd_mem]
  rw [hrun, copyAsCheckpointWrote_read]

/-- Refutes O53: of the command that has the checkpoint block's number the statement asks the byte that memory holds at its source, and the model writes
the one that the block has read (R280). -/
theorem not_versionsAndEngines : ¬ Obligations.VersionsAndEngines := by
  unfold Obligations.VersionsAndEngines
  intro h
  obtain ⟨-, -, -, -, -, -, -, -, -, run, -⟩ := h copyAsCheckpoint
  obtain ⟨-, -, -, -, copy, -⟩ := run ckId oneByteCopy rfl rfl (by decide)
  have moved := copy (byteAccess 0x5000) (byteAccess 0x6000) rfl rfl rfl rfl rfl rfl rfl rfl rfl rfl rfl copyAsCheckpoint_source
  rw [copyAsCheckpoint_engCaches] at moved
  obtain ⟨s2, he, wrote, -⟩ := moved copyAsCheckpoint_target rfl rfl rfl rfl rfl rfl rfl rfl rfl (by decide) rfl rfl ⟨rfl, by decide, .inl rfl⟩
  obtain rfl := Host.Outcome.next.inj (copyAsCheckpoint_runs.1.symm.trans he)
  have hzero : Mem.read (copyAsCheckpoint.runCmd ckId oneByteCopy).mem 0x6000 = 0 := wrote 0x6000
  rw [copyAsCheckpoint_runs.2] at hzero
  exact absurd hzero (by decide)

end Sys2Proof.Machine
end


section
/-! THE SHARES OF A MATRIX OPERATION (O23): partner i's span is the difference of two bounds, so the spans up to one add up to its bound
(spec/18_matrix_engine.md R311). -/

namespace Sys2Proof.Machine

variable {total g p : Nat}

/-- Where partner i's span begins: a bound of whole groups, or the end (R311). -/
def shareBound (total g p i : Nat) : Nat := min total (i * ((total + g - 1) / g) / p * g)

theorem shareSpan_eq (i : Nat) : shareSpan total g p i = shareBound total g p (i + 1) - shareBound total g p i := rfl

theorem shareBound_zero : shareBound total g p 0 = 0 := by simp [shareBound]

theorem shareBound_le_succ (i : Nat) : shareBound total g p i ≤ shareBound total g p (i + 1) := by
  have : i * ((total + g - 1) / g) / p ≤ (i + 1) * ((total + g - 1) / g) / p := Nat.div_le_div_right (Nat.mul_le_mul_right _ (Nat.le_succ i))
  exact min_le_min le_rfl (Nat.mul_le_mul_right g this)

/-- The spans of the first n partners add up to the bound of the next. -/
theorem sum_shareSpan (n : Nat) : ((List.range n).map (shareSpan total g p)).sum = shareBound total g p n := by
  induction n with
  | zero => exact shareBound_zero.symm
  | succ n ih =>
    rw [List.range_succ, List.map_append, List.sum_append, ih, List.map_singleton, List.sum_singleton, shareSpan_eq]
    exact Nat.add_sub_cancel' (shareBound_le_succ n)

/-- The groups cover the total. -/
theorem le_groups_mul (hg : 0 < g) : total ≤ (total + g - 1) / g * g := by
  have h := Nat.div_add_mod (total + g - 1) g
  have hlt := Nat.mod_lt (total + g - 1) hg
  rw [Nat.mul_comm] at h
  omega

theorem shareBound_last (hg : 0 < g) (hp : 0 < p) : shareBound total g p p = total := by
  rw [shareBound, Nat.mul_div_cancel_left _ hp]
  exact min_eq_left (le_groups_mul hg)

/-- With as many groups as partners each partner's bound lies below the next one's. -/
theorem shareSpan_pos (hg : 0 < g) (hle : p ≤ (total + g - 1) / g) {i : Nat} (hi : i < p) : 0 < shareSpan total g p i := by
  set n := (total + g - 1) / g with hn
  have hp : 0 < p := by omega
  have hnext : i * n / p + 1 ≤ (i + 1) * n / p := by
    rw [← Nat.add_div_right _ hp, Nat.succ_mul]
    exact Nat.div_le_div_right (Nat.add_le_add_left hle _)
  have hlow : i * n / p < n := Nat.div_lt_of_lt_mul (Nat.mul_lt_mul_of_pos_right hi (by omega))
  have hbelow : (n - 1) * g < total := by
    have hmul : n * g ≤ total + g - 1 := Nat.div_mul_le_self _ _
    have : (n - 1) * g + g = n * g := by rw [← Nat.succ_mul]; congr 1; omega
    omega
  have hstart : i * n / p * g < total := lt_of_le_of_lt (Nat.mul_le_mul_right g (by omega)) hbelow
  have hgrow : i * n / p * g + g ≤ (i + 1) * n / p * g := by
    rw [← Nat.succ_mul]
    exact Nat.mul_le_mul_right g hnext
  rw [shareSpan_eq, shareBound, shareBound, ← hn]
  omega

/-- Settles O23, by induction over the partners. -/
theorem sharesCoverTheOperation : Obligations.SharesCoverTheOperation := by
  intro total g p hg hp
  refine ⟨(sum_shareSpan p).trans (shareBound_last hg hp), fun hle i hi => shareSpan_pos hg hle hi, fun i _ => ?_⟩
  rw [sum_shareSpan, shareBound]
  rcases Nat.le_total total ((i + 1) * ((total + g - 1) / g) / p * g) with h | h
  · exact .inr (min_eq_left h)
  · exact .inl (by rw [min_eq_right h]; exact Nat.dvd_mul_left g _)

end Sys2Proof.Machine
end


section
/-! INSTRUCTIONS THAT A UNIT TAKES OR HOLDS (O24, O25, O26): an operation for a core's array or for the traversal unit stands outstanding with what its
thread read at issue; while the array is full the thread is held and issues nothing (spec/18_matrix_engine.md R305, R320-R322,
spec/19_traversal_and_render.md R327). -/

namespace Sys2Proof.Machine

section
variable {s : State} {k : Nat} {t : Thread} {i : Instr} {q : Issue} {named reads : List Nat} {body : Body}
  (hx : exec i s = .next (s.runGang q named reads true body)) (h : s.Alone k t) (e : q.Executes t named reads)
include hx h e

/-- A thread held at its instruction has issued nothing (R271, R314, R320). -/
theorem gives_holdAt (hb : body s k [k] = .ok (s.holdAt [k])) : s.Gives i k { t with status := .held s.inst [k] } s := by
  refine ⟨((s.holdAt [k]).issued q k s.nextSeq true true).threads, ?_, ?_, fun j hj => ?_⟩
  · rw [hx, runGang_alone h e, hb]
    rfl
  · simp [State.issued, State.holdAt, State.updThread, Tbl.find_upd_same, h.here]
  · simp [State.issued, State.holdAt, State.updThread, Tbl.find_upd_other _ _ hj]

/-- An operation that enters its core's array, or holds the thread while that is full (R305, R320). -/
theorem gives_arrayOp {kind : OpKind} (hb : body s k [k] = .ok (s.arrayOp q k [k] kind)) :
    ((s.core (coreOf k)).array.length < 8 → s.Gives i k (t.afterOp s q { kind := kind, sync := q.flag.isNone })
      ((s.withOp q k t { kind := kind, sync := q.flag.isNone }).withArray (coreOf k) (.op s.nextSeq))) ∧
    (8 ≤ (s.core (coreOf k)).array.length → s.Gives i k { t with status := .held s.inst [k] } s) := by
  refine ⟨fun hroom => ?_, fun hfull => gives_holdAt hx h e ?_⟩
  · refine gives_op { kind := kind, sync := q.flag.isNone } (s.withArray (coreOf k) (.op s.nextSeq)) hx ?_ h e ⟨rfl, rfl, rfl, rfl, rfl, rfl⟩
    rw [hb, State.arrayOp, if_neg (by omega), State.startOp, State.startOp]
    cases q.flag <;> rfl
  · rw [hb, State.arrayOp, if_pos hfull]

end

/-! ## Accumulators and the permutation table -/

/-- An access inside the launch's accumulators passes the checks of R321. -/
theorem State.accCheck_inside {s : State} {k off n align : Nat} (ha : off % align = 0) (hb : off + n ≤ s.accBytes k) : s.accCheck k off n align = none := by
  rw [State.accCheck, if_neg (by simpa using ha), if_neg (by omega)]

/-- Settles O24: inside their limits the four pass their checks, and each is one operation for the array. -/
theorem accumulatorInstructions : Obligations.AccumulatorInstructions := by
  intro s k t b c four vd va vb ha hb
  refine ⟨fun h1 h2 h3 e => ?_, fun h1 h2 => ⟨fun e => ?_, fun e => ?_⟩, fun h1 h2 h3 e => ?_⟩
  · refine gives_arrayOp rfl ha e ?_
    simp only [ha.thr, bits_low, h2, State.accCheck_inside h1 h3]
    rfl
  · refine gives_arrayOp rfl ha e ?_
    simp only [ha.thr, bits_low, atomSize, State.accCheck_inside h1 h2]
  · refine gives_arrayOp rfl ha e ?_
    simp only [ha.thr, bits_low, atomSize, State.accCheck_inside h1 h2]
  · refine gives_arrayOp rfl ha e ?_
    simp only [ha.thr, bits_low, hb]
    rw [if_neg (by simpa using h1), if_neg (by simpa using h2), if_neg (by simpa using h3)]

/-! ## The traversal unit, GRAFT and FRAMEOUT at issue -/

/-- An instruction of the traversal unit stands outstanding with its operand block (R327). -/
theorem gives_traverse {s : State} {k : Nat} {t : Thread} {i : Instr} {c : Ctl} {n m : Nat} {vd va : Nat} {extra : List Nat} {pre : Nat → Option FaultInfo}
    {query : Thread → UnitQ} (hx : exec i s = .next (s.traverse c n vd va m extra pre query)) (ha : s.Alone k t) (hp : pre k = none)
    (e : (issue64 c).Executes t (extra ++ (List.range n).map (va + ·) ++ (List.range m).map (vd + ·)) (extra ++ (List.range n).map (va + ·))) :
    let p : Pending := { kind := .unit { q := query t, vd := vd, a := (List.range n).map fun j => t.reg (va + j) }, sync := (issue64 c).flag.isNone }
    s.Gives i k (t.afterOp s (issue64 c) p) (s.withOp (issue64 c) k t p) := by
  refine gives_op _ s hx ?_ ha e (State.Kept.refl s)
  simp only [hp, ha.thr]

/-- Settles O26: each leaves its operation outstanding once its block's idempotent region has closed. -/
theorem graftAndFrameout : Obligations.GraftAndFrameout := by
  intro s k t c vd va vb ha
  refine ⟨fun e => ?_, fun e => ?_⟩
  · refine gives_op _ (s.closeIdem k) rfl ?_ ha e (State.Kept.closeIdem s k)
    rw [← ha.thr]
    rfl
  · refine gives_op _ (s.closeIdem k) rfl ?_ ha e (State.Kept.closeIdem s k)
    rw [← ha.thr, ← bits_low]
    rfl

end Sys2Proof.Machine
end


section
/-! KEYS, IMAGES, TOKENS AND THE STARTS (O55): which key a slot holds after each change, what a start keeps of memory, and what the security
complex answers (spec/27_host_security_startup.md R434-R437). -/

namespace Sys2Proof.Machine

variable {s : State}

/-! ## Keys (R434) -/

theorem State.flushSectors_lasting (s : State) (p : Nat → Bool) : (s.flushSectors p).lasting = s.lasting := by
  unfold State.flushSectors
  exact foldl_fixes (g := State.lasting) (fun x (l : L1Line) => x.evictLine_lasting l.core l.line) _ _

theorem State.evictLine_heldWr (s : State) (core line : Nat) : (s.evictLine core line).heldWr = s.heldWr := by
  unfold State.evictLine
  split <;> rfl

theorem State.flushSectors_heldWr (s : State) (p : Nat → Bool) : (s.flushSectors p).heldWr = s.heldWr := by
  unfold State.flushSectors
  exact foldl_fixes (g := State.heldWr) (fun x (l : L1Line) => x.evictLine_heldWr l.core l.line) _ _

/-- A slot's key is found in the table, or is the random one of the table's epoch. -/
theorem State.keyGen_slot {k : Nat} (hk : k ≤ 4096) : s.keyGen k = (s.keyGens.find k).getD (randomKey k ((s.keyGens.find 4096).getD 0)) := by
  simp [State.keyGen, Nat.not_lt.2 hk]

/-- The name of a key that its slot no longer holds gives that key. -/
theorem State.keyGen_oldKey (g : Nat) : s.keyGen (oldKey g) = g := by
  have h : 4096 < 4097 + g := by omega
  simp [State.keyGen, oldKey, h]

theorem State.keyGen_put_same {x : State} {k g : Nat} (hk : k < 4096) (h : x.keyGens = s.keyGens.put k g) : x.keyGen k = g := by
  simp [State.keyGen_slot hk.le, h]

theorem State.keyGen_put_other {x : State} {j k g : Nat} (hj : j < 4096) (hk : k < 4096) (hne : j ≠ k) (h : x.keyGens = s.keyGens.put k g) :
    x.keyGen j = s.keyGen j := by
  rw [State.keyGen_slot hj.le, State.keyGen_slot hj.le, h, Tbl.find_put_other _ _ hne, Tbl.find_put_other _ _ (by omega)]

/-- KEY_LOAD where the lifecycle allows keys: the slot holds the key given, the others what they held, and what waits to be written goes on
under the old one. -/
theorem keyLoad_loads {k m : Nat} (hk : k < 4096) (hl : s.lifecycle = .prod ∨ s.lifecycle = .prodUnlocked) :
    s.Leads (.keyLoad { slot := k, material := m }) fun s2 => s2.keyGen k = loadedKey m ∧ (∀ j, j < 4096 → j ≠ k → s2.keyGen j = s.keyGen j) ∧
      s2.mem = s.mem ∧ s2.keyGen (oldKey (s.keyGen k)) = s.keyGen k ∧
      s2.heldWr = s.heldWr.map fun h => { h with key := if h.key = k then oldKey (s.keyGen k) else h.key } := by
  have hgens : (s.flushSectors (s.sectorOfKey k)).keyGens = s.keyGens := congrArg (·.2.2.2) (s.flushSectors_lasting _)
  have hput : (((s.flushSectors (s.sectorOfKey k)).pinKey k).keyGens.put k (loadedKey m)) = s.keyGens.put k (loadedKey m) := by
    rw [← hgens]
    rfl
  have hrun : exec (.keyLoad { slot := k, material := m }) s = .next { (s.flushSectors (s.sectorOfKey k)).pinKey k with
      keyEpoch := ((s.flushSectors (s.sectorOfKey k)).pinKey k).keyEpoch + 1
      keyGens := ((s.flushSectors (s.sectorOfKey k)).pinKey k).keyGens.put k (loadedKey m) } := by
    change execKeyLoad _ s = _
    rcases hl with hl | hl <;> simp only [execKeyLoad, hl, if_pos hk]
  refine ⟨_, hrun, State.keyGen_put_same (s := s) hk hput, fun j hj hne => State.keyGen_put_other (s := s) hj hk hne hput, s.flushSectors_mem _,
    State.keyGen_oldKey _, ?_⟩
  change (s.flushSectors (s.sectorOfKey k)).heldWr.map _ = _
  rw [State.flushSectors_heldWr, State.keyGen_of_keyGens hgens]

/-- A random key of an epoch is none of an epoch before, and none that is loaded. -/
theorem randomKey_fresh {k e : Nat} (hk : k < 4096) :
    (∀ j e', j < 4096 → e' ≤ e → randomKey k (e + 1) ≠ randomKey j e') ∧ ∀ m, randomKey k (e + 1) ≠ loadedKey m := by
  constructor
  · intro j e' hj he
    unfold randomKey
    omega
  · intro m
    unfold randomKey loadedKey
    omega

/-- Where the table holds the next epoch alone, every slot's key is a random one that none had. -/
theorem State.keys_fresh {x : State} (he : x.keyEpoch = s.keyEpoch + 1) (hg : x.keyGens = [(4096, s.keyEpoch + 1)]) :
    x.keyEpoch = s.keyEpoch + 1 ∧ ∀ k, k < 4096 → x.keyGen k = randomKey k (s.keyEpoch + 1) ∧
      (∀ j e, j < 4096 → e ≤ s.keyEpoch → x.keyGen k ≠ randomKey j e) ∧ ∀ m, x.keyGen k ≠ loadedKey m := by
  refine ⟨he, fun k hk => ?_⟩
  have hne : 4096 ≠ k := by omega
  have hkey : x.keyGen k = randomKey k (s.keyEpoch + 1) := by simp [State.keyGen_slot hk.le, hg, Tbl.find, hne]
  rw [hkey]
  exact ⟨rfl, randomKey_fresh hk⟩

/-! ## Images, tokens and measurements (R435, R436) -/

theorem firmwareImage_accepted {img : FwImage} (h : (Config.imageVerifies img.ident && decide (s.rollback ≤ img.version)) = true) :
    s.Leads (.firmwareImage img) fun s2 => s2.firmware = some img ∧ s2.threads = s.threads ∧ s2.romHold = decide (s.lifecycle = .decommissioned) := by
  refine ⟨_, if_pos h, rfl, rfl, ?_⟩
  cases s.lifecycle <;> rfl

theorem firmwareImage_refused {img : FwImage} (h : (Config.imageVerifies img.ident && decide (s.rollback ≤ img.version)) = false) :
    (s.linkUp = true → exec (.firmwareImage img) s = .next s) ∧
      (s.linkUp = false → s.Leads (.firmwareImage img) fun s2 => s2.firmware = some img ∧ s2.romHold = true ∧ s2.mem = s.mem) := by
  have hrun : exec (.firmwareImage img) s = if s.linkUp then .next s else .next { s with firmware := some img, romHold := true } :=
    if_neg (by simp only [State.firmwareOk, h]; decide)
  constructor
  · intro hup
    rw [hrun, if_pos hup]
  · intro hdown
    exact ⟨_, hrun.trans (if_neg (by simp [hdown])), rfl, rfl, rfl⟩

theorem tokenOk_of_used {tok : UnlockToken} (h : tok.nonce ∈ s.usedNonces) : s.tokenOk tok = false := by
  simp [State.tokenOk, h]

theorem debugUnlock_accepted {tok : UnlockToken} (h : s.tokenOk tok = true) : s.Leads (.debugUnlock tok) fun s2 =>
    s2.lifecycle = .prodUnlocked ∧ tok.nonce ∉ s2.nonces ∧ tok.nonce ∈ s2.usedNonces ∧
      (s2.keyEpoch = s.keyEpoch + 1 ∧ ∀ k, k < 4096 → s2.keyGen k = randomKey k (s.keyEpoch + 1) ∧
        (∀ j e, j < 4096 → e ≤ s.keyEpoch → s2.keyGen k ≠ randomKey j e) ∧ ∀ m, s2.keyGen k ≠ loadedKey m) ∧
      s2.debugLocked = false := by
  refine ⟨_, if_pos h, rfl, ?_, List.mem_cons_self .., State.keys_fresh rfl rfl, rfl⟩
  simp

/-! ## The starts (R437) -/

/-- A filter that keeps an address's cell leaves the byte there. -/
theorem Mem.read_filter_of {m : List Host.Cell} {p : Host.Cell → Bool} {a : Nat} (hm : Mem.wf m = true) (h : ∀ c : Host.Cell, c.1 = a → p c = true) :
    Mem.read (m.filter p) a = Mem.read m a := by
  induction m with
  | nil => rfl
  | cons c m ih =>
    have hrest := ih (Mem.wf_tail hm)
    rw [List.filter_cons]
    split
    next => simp only [Mem.read, hrest]
    next hp =>
      have hne : c.1 ≠ a := fun e => hp (h c e)
      rw [hrest]
      simp only [Mem.read, if_neg hne]
      split
      next hlt => exact Mem.read_above (Mem.wf_above hm) hlt.le
      next => rfl

/-- The scrub leaves every word of device memory zero and FULL. -/
theorem State.scrubbed_clean (s : State) {a : Nat} (ha : isDevice a = true) : Mem.read s.scrubbed.mem a = 0 ∧ s.scrubbed.full a = true :=
  ⟨Mem.read_filter_of_not fun c e => by simp [e, ha], rfl⟩

/-- The scrub leaves host and peer memory. -/
theorem State.scrubbed_read (hm : Mem.wf s.mem = true) {a : Nat} (ha : isDevice a = false) : Mem.read s.scrubbed.mem a = Mem.read s.mem a :=
  Mem.read_filter_of hm fun c e => by simp [e, ha]

theorem coldStart_leads : s.Leads .coldStart fun s2 =>
    (s2.threads = [] ∧ s2.launches = [] ∧ s2.blocks = [] ∧ s2.ops = [] ∧ s2.mmio = [] ∧ s2.leases = [] ∧ s2.granted = [] ∧ s2.tlb = [] ∧
      s2.romHold = s.bootHold ∧ s2.linkUp = !s.bootHold) ∧
    (∀ a, isDevice a = true → Mem.read s2.mem a = 0 ∧ s2.full a = true) ∧
    (s2.keyEpoch = s.keyEpoch + 1 ∧ ∀ k, k < 4096 → s2.keyGen k = randomKey k (s.keyEpoch + 1) ∧
      (∀ j e, j < 4096 → e ≤ s.keyEpoch → s2.keyGen k ≠ randomKey j e) ∧ ∀ m, s2.keyGen k ≠ loadedKey m) ∧
    s2.lifecycle ≠ .prodUnlocked ∧ (Mem.wf s.mem = true → ∀ a, isDevice a = false → Mem.read s2.mem a = Mem.read s.mem a) := by
  refine ⟨s.coldStarted, rfl, ⟨rfl, rfl, rfl, rfl, rfl, rfl, rfl, rfl, rfl, rfl⟩, fun a ha => s.restarted.scrubbed_clean ha, State.keys_fresh rfl rfl, ?_,
    fun hm a ha => State.scrubbed_read (s := s.restarted) hm ha⟩
  change (if s.lifecycle = Lifecycle.prodUnlocked then Lifecycle.prod else s.lifecycle) ≠ .prodUnlocked
  split
  · decide
  · assumption

theorem warmStart_leads (hp : s.powered = true) : s.Leads .warmStart fun s2 =>
    (s2.threads = [] ∧ s2.launches = [] ∧ s2.blocks = [] ∧ s2.ops = [] ∧ s2.mmio = [] ∧ s2.leases = [] ∧ s2.granted = [] ∧ s2.tlb = [] ∧
      s2.romHold = s.bootHold ∧ s2.linkUp = !s.bootHold) ∧
    (∀ k, k < 4096 → s2.keyGen k = s.keyGen k) ∧ s2.lifecycle = s.lifecycle ∧
    (s.scrubEpoch = s.keyEpoch → s2.mem = s.mem ∧ s2.empties = s.empties) ∧
    (s.scrubEpoch ≠ s.keyEpoch → ∀ a, isDevice a = true → Mem.read s2.mem a = 0 ∧ s2.full a = true) := by
  have hrun : exec .warmStart s = if s.scrubEpoch = s.keyEpoch then .next s.restarted else .next s.restarted.scrubbed := if_neg (by simp [hp])
  by_cases he : s.scrubEpoch = s.keyEpoch
  · exact ⟨s.restarted, hrun.trans (if_pos he), ⟨rfl, rfl, rfl, rfl, rfl, rfl, rfl, rfl, rfl, rfl⟩, fun k _ => rfl, rfl, fun _ => ⟨rfl, rfl⟩,
      fun hne => absurd he hne⟩
  · exact ⟨s.restarted.scrubbed, hrun.trans (if_neg he), ⟨rfl, rfl, rfl, rfl, rfl, rfl, rfl, rfl, rfl, rfl⟩, fun k _ => rfl, rfl, fun h => absurd h he,
      fun _ a ha => s.restarted.scrubbed_clean ha⟩

/-! ## The statement -/

/-- Settles O55, clause by clause. -/
theorem securityEvents : Obligations.SecurityEvents := by
  intro s stays started scrubbed newKeys
  refine ⟨fun k m hk => ⟨keyLoad_loads hk, ?_⟩, ⟨s.freshKeys, rfl, State.keys_fresh rfl rfl, rfl⟩, fun img => firmwareImage_accepted,
    fun img => firmwareImage_refused, ⟨_, rfl, rfl, rfl, Nat.lt_succ_self _, rfl⟩, fun tok => ⟨fun h => if_neg (by simp [h]), tokenOk_of_used, debugUnlock_accepted⟩,
    ⟨_, rfl, rfl⟩, coldStart_leads, warmStart_leads⟩
  intro hl
  change execKeyLoad _ s = _
  rcases hl with hl | hl <;> simp [execKeyLoad, hl]

end Sys2Proof.Machine
end


section
/-! TRAP AND BKPT (O28): the record that a fault writes, and the report of a stop, which leaves the threads as they are
(spec/21_faults_and_preemption.md R354, R356, R359-R361, R364, R366). -/

namespace Sys2Proof.Machine

/-! ## A report reads and writes no thread -/

/-- The state with other threads. -/
def State.withThreads (s : State) (ts : Tbl Thread) : State := { s with threads := ts }

section
variable (s : State) (ts : Tbl Thread)

theorem State.foldl_withThreads {β : Type} {f : State → β → State} (hf : ∀ x b, f (x.withThreads ts) b = (f x b).withThreads ts) (l : List β) :
    l.foldl f (s.withThreads ts) = (l.foldl f s).withThreads ts := by
  induction l generalizing s with
  | nil => rfl
  | cons b l ih => rw [List.foldl_cons, hf, ih, List.foldl_cons]

theorem State.rekeySector_withThreads (g sec : Nat) : State.rekeySector g (s.withThreads ts) sec = (State.rekeySector g s sec).withThreads ts := by
  have htags : (s.withThreads ts).keyTags = s.keyTags := rfl
  have hplain : ∀ pa, (s.withThreads ts).plain g pa = s.plain g pa := fun _ => rfl
  simp only [State.rekeySector, htags, hplain]
  split
  · rfl
  · cases s.keyTags.find sec with
    | none => rfl
    | some w =>
      by_cases hw : w = g
      · simp only [if_pos hw]
      · simp only [if_neg hw]
        generalize (List.range 64).map (fun i => s.plain g (sec * 64 + i)) = bs
        rfl

theorem State.rekey_withThreads (g pa n : Nat) : (s.withThreads ts).rekey g pa n = (s.rekey g pa n).withThreads ts :=
  State.foldl_withThreads s ts (fun x sec => State.rekeySector_withThreads x ts g sec) _

theorem State.writePa_withThreads (w : Writer) (key pa : Nat) (bs : List Byte) :
    (s.withThreads ts).writePa w key pa bs none = (s.writePa w key pa bs none).withThreads ts := by
  have hown : ∀ x : State, (sectorsOf pa bs.length).foldl (fun x sec => x.ownSector w.core w.die (64 * sec)) (x.withThreads ts) =
      ((sectorsOf pa bs.length).foldl (fun x sec => x.ownSector w.core w.die (64 * sec)) x).withThreads ts :=
    fun x => State.foldl_withThreads x ts (fun _ _ => rfl) _
  have hkey : (s.withThreads ts).keyGen key = s.keyGen key := rfl
  simp only [State.writePa, State.writeBits, hkey, State.rekey_withThreads, hown]
  rfl

theorem State.hwRelease_withThreads (past : List Nat) (pa : Nat) (l : List Word) :
    (s.withThreads ts).hwRelease past pa l = (s.hwRelease past pa l).withThreads ts := by
  induction l generalizing s past pa with
  | nil => rfl
  | cons v l ih =>
    rw [State.hwRelease, State.writePa_withThreads, ih]
    rfl

theorem State.frWrite_withThreads (d : Nat) (e : List Word) : (s.withThreads ts).frWrite d e = (s.frWrite d e).map (·.withThreads ts) := by
  have hfree : ∀ pa, (s.withThreads ts).leaseFree pa = s.leaseFree pa := fun _ => rfl
  have hreg : ∀ o, (s.withThreads ts).reg o = s.reg o := fun _ => rfl
  have hplace : (s.withThreads ts).frPlace d = s.frPlace d := rfl
  have hpast : (s.withThreads ts).hwPast = s.hwPast := rfl
  simp only [State.frWrite, hfree, hreg, hplace, hpast, State.hwRelease_withThreads]
  split <;> rfl

/-- A report enters the ring or waits, whatever the threads (R361). -/
theorem State.report_withThreads (d : Nat) (e : List Word) : (s.withThreads ts).report d e = (s.report d e).withThreads ts := by
  have hqueue : (s.withThreads ts).frQueue = s.frQueue := rfl
  rw [State.report, State.report, hqueue, State.frWrite_withThreads]
  split
  · cases s.frWrite d e with
    | some s1 => rfl
    | none =>
      have hwait : ∀ x : State, ∀ pa, (x.withThreads ts).ringWaits d pa = (x.ringWaits d pa).withThreads ts := fun x pa => by
        have hfree : (x.withThreads ts).leaseFree pa = x.leaseFree pa := rfl
        rw [State.ringWaits, State.ringWaits, hfree]
        split <;> rfl
      exact congrArg (State.frCount · d) (hwait { s with frQueue := s.frQueue ++ [(d, e)] } (s.frPlace d))
  · rfl

end

/-! ## What taking a fault comes to -/

/-- The thread stopped at a place, with the record of its fault (R359). -/
def Thread.stoppedAt (u : Thread) (pc : Pc) (r : FRec) : Thread := { u.shift r with pc := pc, status := .fault, since := 0, releases := 0, reported := true }

section
variable {s : State} {k : Nat} {t : Thread} {i : Instr} {f : FaultInfo} (h : s.threads.find k = some t) (hl : f.lanes = none)
  (hx : exec i s = .next (s.takeFault k t.pc s.inst (2 ^ laneOf k) f))
include h hl hx

/-- The handler runs with the record active (R356, R360). -/
theorem gives_handler (hm : (!bit (s.c0Of t) 26 && f.cause != .bkpt) = true) (he : t.entersHandler = true) :
    s.Gives i k { t.shift { f.toRec t.pc s.inst (2 ^ laneOf k) with w7 := 1 } with
      pc := t.tba.setWidth 57, status := .run, readyAt := s.clk + 1 + Config.fetchDelay s.draws, since := 0, releases := 0 } s := by
  have hrun : s.takeFault k t.pc s.inst (2 ^ laneOf k) f = s.updThread k fun u =>
      { u.shift { f.toRec t.pc s.inst (2 ^ laneOf k) with w7 := 1 } with
        pc := u.tba.setWidth 57, status := .run, readyAt := s.clk + 1 + Config.fetchDelay s.draws, since := 0, releases := 0 } := by
    simp only [State.takeFault, State.thread?, h, hm, he, hl, Option.getD_none, Bool.and_self, ↓reduceIte]
  refine ⟨_, hx.trans (congrArg _ hrun), ?_, fun j hj => Tbl.find_upd_other _ _ hj⟩
  rw [Tbl.find_upd_same, h]
  rfl

/-- The thread stays stopped at its PC, and a report goes to its die's ring (R359-R361). -/
theorem gives_stopped {hw : Bool} (hm : (!bit (s.c0Of t) 26 && f.cause != .bkpt) = hw) (he : (hw && t.entersHandler) = false) {r : FRec}
    (hr : r = if hw then { f.toRec t.pc s.inst (2 ^ laneOf k) with w7 := 1 } else f.toRec t.pc s.inst (2 ^ laneOf k)) :
    s.Gives i k (t.stoppedAt t.pc r) (s.report (dieOf k) (reportWords r (s.ctxOf t) k)) := by
  have hrun : s.takeFault k t.pc s.inst (2 ^ laneOf k) f =
      (s.withThreads (s.threads.upd k (·.stoppedAt t.pc r))).report (dieOf k) (reportWords r (s.ctxOf t) k) := by
    simp only [State.takeFault, State.thread?, h, hm, he, hl, Option.getD_none, Bool.false_eq_true, ↓reduceIte, ← hr]
    rfl
  have hsame : s.report (dieOf k) (reportWords r (s.ctxOf t) k) = (s.report (dieOf k) (reportWords r (s.ctxOf t) k)).withThreads s.threads :=
    State.report_withThreads s s.threads ..
  have hthreads : (s.report (dieOf k) (reportWords r (s.ctxOf t) k)).threads = s.threads := by
    rw [hsame]
    rfl
  rw [State.report_withThreads] at hrun
  refine ⟨_, hx.trans (congrArg _ hrun), ?_, fun j hj => ?_⟩
  · rw [Tbl.find_upd_same, h]
    rfl
  · rw [hthreads]
    exact Tbl.find_upd_other _ _ hj

end

/-! ## TRAP and BKPT -/

/-- The record of a fault without an access, of the code given (R354). -/
theorem FaultInfo.toRec_plain (c : Cause) (n : Nat) (pc : Pc) (inst : Word) (lanes : Nat) :
    ({ cause := c, trapCode := n } : FaultInfo).toRec pc inst lanes =
      { w0 := pc.setWidth 64, w1 := BitVec.ofNat 64 (31 * 2 ^ 32) ||| BitVec.ofNat 64 c.code, w2 := 0, w3 := BitVec.ofNat 64 (n * 2 ^ 32)
        w4 := BitVec.ofNat 64 lanes, w5 := 0, w6 := inst, w7 := 0 } := by
  simp only [FaultInfo.toRec, pack, Kind.code, Nat.zero_mul, Nat.zero_mod, Nat.pow_zero, Nat.mul_one, BitVec.ofNat_eq_ofNat, BitVec.zero_or, BitVec.or_zero]
  rw [if_neg (by simp : ¬(Kind.none = .fetch ∨ 0#64 ≠ 0#64))]

theorem reportWords_eq (r : FRec) (ctx k : Nat) :
    reportWords r ctx k = [r.w0, r.w1, r.w2, r.w3, r.w4, r.w5, r.w6, BitVec.ofNat 64 (ctx * 2 ^ 32) ||| BitVec.ofNat 64 k] := by
  simp [reportWords, pack]

theorem exec_raises {s : State} {k : Nat} {t : Thread} {c : Ctl} {i : Instr} {f : FaultInfo} (ha : s.Alone k t) (e : (issue64 c).Executes t [] [])
    (hx : exec i s = .next (s.runGang (issue64 c) [] [] true fun _ _ _ => .error f)) (hh : f.hits = 0) (hr : f.reader = none) :
    exec i s = .next (s.takeFault k t.pc s.inst (2 ^ laneOf k) f) := by
  rw [hx, runGang_alone ha e, ← raiseAll_one _ _ _ _ hh hr]

/-- Settles O28: both raise their own cause, and the thread takes the fault. -/
theorem trapAndBreakpoint : Obligations.TrapAndBreakpoint := by
  intro s k t b c code ha hb e
  have hc0 : s.c0Of t = b.c0 := by simp only [State.c0Of, hb]
  have htrap : exec (.trap c code) s = _ := exec_raises ha e rfl rfl rfl
  have hbkpt : exec (.bkpt c) s = _ := exec_raises ha e rfl rfl rfl
  have hrec := FaultInfo.toRec_plain .trap code.toNat t.pc s.inst (2 ^ laneOf k)
  have hmode : ∀ hw, b.c0.getLsbD 26 = !hw → (!bit (s.c0Of t) 26 && Cause.trap != Cause.bkpt) = hw := by
    intro hw h
    rw [hc0, bit, ← BitVec.getLsbD, h]
    cases hw <;> rfl
  refine ⟨fun hhw hact htba => ?_, fun hhw hno => ?_, fun hhw => ?_, ?_⟩
  · have g := gives_handler ha.here rfl htrap (hmode true hhw) (by rw [Thread.entersHandler, bit, ← BitVec.getLsbD, hact]; simpa using htba)
    rw [hrec] at g
    exact g
  · have hin : (true && t.entersHandler) = false := by
      rw [Thread.entersHandler, bit, ← BitVec.getLsbD]
      rcases hno with hact | htba <;> simp [*]
    have g := gives_stopped ha.here rfl htrap (hmode true hhw) hin rfl
    rw [hrec, reportWords_eq] at g
    exact g
  · have g := gives_stopped ha.here rfl htrap (hmode false (by simpa using hhw)) rfl rfl
    rw [hrec, reportWords_eq] at g
    exact g
  · have g := gives_stopped ha.here rfl hbkpt (hw := false) (by simp) rfl rfl
    rw [show ({ cause := .bkpt } : FaultInfo).toRec t.pc s.inst (2 ^ laneOf k) = _ from FaultInfo.toRec_plain .bkpt 0 t.pc s.inst (2 ^ laneOf k), reportWords_eq] at g
    exact g

end Sys2Proof.Machine
end


section
/-! THE TRAVERSAL UNIT (O25): a query that has what it needs ends its operation with its result block, an error with a marked status word
(spec/19_traversal_and_render.md R327-R335). -/

namespace Sys2Proof.Machine

/-- The result block of an error: zeros, and a marked status word with its code (R328). -/
theorem traverseOut_error (pc : Pc) (vd st m code : Nat) (va : Word) :
    traverseOut pc vd st m (.error (code, va)) = (List.range m).map fun j =>
      if j = st then .reg (vd + j) (BitVec.ofNat 64 (2 ^ 63) ||| BitVec.ofNat 64 (code * 2 ^ 48))
        (some { issuePc := pc.setWidth 64, source := 19, code := code, addr := va })
      else .reg (vd + j) 0 none := by
  refine List.map_congr_left fun j _ => ?_
  split <;> simp [pack]

/-- What a query comes to when its operation is looked at: the state it leaves, and its answer, its error, or an access to wait for (R327, R329). -/
def State.unitAnswer (s : State) (op : Nat) (u : UnitOp) : TM (List Word) := (s.unitUpd op fun x => { x with count := {} }).unitQuery op u

section
variable {s : State} {op k : Nat} {o : Op} {u : UnitOp} {r : Except (Nat × Word) (List Word)} (h : s.Free op o k false) (hk : o.kind = .unit u)
  (hq : (s.unitAnswer op u).2 = r)
include h hk hq

theorem exec_unit : exec (.classVResultLands op) s = .next (match ((s.unitAnswer op u).1, r) with
    | (s1, .error (0, _)) => s1
    | (s1, r) => ((s1.unitPoint op).sampleUpd op fun x => { x with level := (s1.unitOf op).level }).finishOp op o
        (traverseOut o.pc u.vd u.q.results.2 u.q.results.1 r)) := by
  rw [h.lands, State.landNow]
  simp only [hk, h.free, ↓reduceIte]
  rw [← hq]
  rfl

/-- A query that has what it needs lands its result block (R327). -/
theorem unit_lands (hr : ∀ va, r ≠ .error (0, va)) : ∃ s2, exec (.classVResultLands op) s = .next s2 ∧
    (s.unitAnswer op u).1.Landed s2 op o k (traverseOut o.pc u.vd u.q.results.2 u.q.results.1 r) ∧ s2.mem = (s.unitAnswer op u).1.mem := by
  rw [exec_unit h hk hq]
  generalize (s.unitAnswer op u).1 = s1
  split
  next va heq => exact absurd (congrArg Prod.snd heq) (hr _)
  next heq =>
    obtain ⟨rfl, rfl⟩ := Prod.mk.inj heq
    exact ⟨_, rfl, State.landed_finishOp (s := s1) h.mine.1 (by rfl) (by rfl) _, State.finishOp_mem ..⟩

/-- A query that waits for an access goes on later (R329). -/
theorem unit_waits {va : Word} (hr : r = .error (0, va)) : exec (.classVResultLands op) s = .next (s.unitAnswer op u).1 := by
  rw [exec_unit h hk hq, hr]
  rfl

end

/-- A ray that is none is BADRAY, before any read (R330). -/
theorem trace_badRay (s : State) (op : Nat) (u : UnitOp) {anyHit : Bool} (hu : u.q = .trace anyHit) (hr : rayOf (fun j => u.a.getD j 0) = none) :
    (s.unitQuery op u).2 = .error (1, 0) := by
  have hr' : rayOf (wordAt u.a) = none := hr
  rw [State.unitQuery, hu]
  simp only [State.doTrace, hr']

/-- Settles O25: each instruction leaves its query outstanding, and a query lands its block, lands its error, or waits. -/
theorem traversalInstructions : Obligations.TraversalInstructions := by
  refine ⟨fun s k t c anyHit km1 vd va vb ha => ⟨fun e => ?_, fun hg e => ?_, fun e => ?_, fun e => ?_⟩, fun s op k o u h hk => ?_⟩
  · exact gives_traverse (n := 6) (m := 3) (extra := []) (pre := fun _ => none) (query := fun _ => .trace anyHit) rfl ha rfl e
  · exact gives_traverse (n := 6) (m := km1.toNat + 2) (extra := []) (pre := fun k => if Config.gaussCapable (coreOf k % 512) then none else some { cause := .gausscap })
      (query := fun _ => .tracek (km1.toNat + 1)) rfl ha (if_pos hg) e
  · exact gives_traverse (n := 5) (m := 5) (extra := []) (pre := fun _ => none) (query := fun _ => .march) rfl ha rfl e
  · exact gives_traverse (n := 3) (m := 2) (extra := [vb.toNat]) (pre := fun _ => none) (query := fun t => .hitattr (t.reg vb.toNat)) rfl ha rfl e
  · intro r lands
    refine ⟨fun ws hr => unit_lands h hk hr (by simp), fun code at_ hr hc => ?_, fun at_ hr => unit_waits h hk hr rfl,
      fun anyHit hu hray => trace_badRay _ op u hu hray⟩
    have hl := unit_lands h hk hr (by simpa using hc)
    rwa [traverseOut_error] at hl

end Sys2Proof.Machine
end


section
/-! MATRIX INSTRUCTIONS (O22): an operation enters every partner's array with a queued share for each, or its thread is held; the acceptance of a held
instruction is its issue (spec/18_matrix_engine.md R309-R311, R314, R319). -/

namespace Sys2Proof.Machine

/-! ## The acceptance of a held instruction -/

/-- A thread held alone at an instruction gives the state in which it stands at it again (R271, R314). -/
theorem State.Holds.heldBy {h s : State} {k : Nat} {i : Instr} {w : Word} (g : h.Holds k i w s) : h.heldBy k = some (s, i) := by
  obtain ⟨hmay, hdue⟩ := g.free
  rw [State.heldBy, g.held]
  simp only [List.all_cons, List.all_nil, hmay, hdue, Bool.not_false, Bool.and_self, ↓reduceIte, g.word, Option.map_some]
  rw [State.unhold, g.held, g.goes]
  rfl

/-! ## The shares of an operation -/

theorem sharesOf_places (m n : Nat) (split : Bool) (bs : List (Nat × Nat)) : (sharesOf m n split bs).map (fun x => (x.rank, x.blk)) = bs := by
  rw [sharesOf, List.map_map]
  exact List.zipIdx_map_fst 0 bs

/-- A new share has done nothing yet (R314). -/
theorem sharesOf_queued {m n : Nat} {split : Bool} {bs : List (Nat × Nat)} {x : Share} (h : x ∈ sharesOf m n split bs) :
    x.state = .queued ∧ x.step = 0 ∧ x.result = [] ∧ (x.rank, x.blk) ∈ bs := by
  obtain ⟨y, hy, rfl⟩ := List.mem_map.mp h
  exact ⟨rfl, rfl, rfl, List.fst_mem_of_mem_zipIdx hy⟩

/-! ## An accepted operation -/

/-- One share enters the array of its block's core. -/
def State.enterArray (s : State) (id : Nat) (b : Nat × Nat) : State := s.updCore (s.coreOfBlock b.2) fun c => { c with array := c.array ++ [.share id b.1] }

theorem State.array_updCore (s : State) (c d : Nat) (a : ArrayCmd) {x : ArrayCmd} (h : x ∈ (s.core d).array) :
    x ∈ ((s.updCore c fun y => { y with array := y.array ++ [a] }).core d).array := by
  by_cases hd : d = c
  · subst hd
    rw [State.core_updCore]
    exact List.mem_append_left _ h
  · rwa [State.core_updCore_other _ _ hd]

/-- What the entries of the shares leave: all but the cores, and what stood in the arrays. -/
theorem State.foldl_enterArray (id : Nat) (bs : List (Nat × Nat)) (s : State) : ∃ cs, bs.foldl (State.enterArray · id) s = { s with cores := cs } ∧
    (∀ c x, x ∈ (s.core c).array → x ∈ (({ s with cores := cs } : State).core c).array) ∧
    ∀ b ∈ bs, .share id b.1 ∈ (({ s with cores := cs } : State).core (s.coreOfBlock b.2)).array := by
  induction bs generalizing s with
  | nil => exact ⟨s.cores, rfl, fun _ _ h => h, nofun⟩
  | cons b bs ih =>
    obtain ⟨cs, he, hold, hnew⟩ := ih (s.enterArray id b)
    have hb : .share id b.1 ∈ ((s.enterArray id b).core (s.coreOfBlock b.2)).array := by
      rw [State.enterArray, State.core_updCore]
      exact List.mem_append_right _ (List.mem_singleton.mpr rfl)
    refine ⟨cs, he, fun c x h => hold c x (State.array_updCore s _ c _ h), fun y hy => ?_⟩
    rcases List.mem_cons.mp hy with rfl | hy
    · exact hold _ _ hb
    · exact hnew y hy

/-! ## The issue of an operation -/

/-- The state in which a unit takes a thread's instruction: the block's idempotent region has closed, and a synchronous one holds the thread (R35). -/
def State.taking (s : State) (k : Nat) (sync : Bool) : State := ({ s.closeIdem k with nextSeq := s.nextSeq + 1 } : State).syncOn [k] sync s.nextSeq

theorem State.taking_clk (s : State) (k : Nat) (sync : Bool) : (s.taking k sync).clk = s.clk := by cases sync <;> rfl
theorem State.taking_draws (s : State) (k : Nat) (sync : Bool) : (s.taking k sync).draws = s.draws := by cases sync <;> rfl
theorem State.taking_mem (s : State) (k : Nat) (sync : Bool) : (s.taking k sync).mem = s.mem := by cases sync <;> rfl

section
variable {s : State} {k : Nat} {t : Thread} {i : Instr} {q : Issue} {named reads : List Nat} {body : Body}

theorem State.issued_taken {x : State} {sync : Bool} (h : s.threads.find k = some t) (hr : t.status = .run) (hx : x.threads = (s.taking k sync).threads)
    (hc : x.clk = s.clk) (hd : x.draws = s.draws) : (x.issued q k s.nextSeq true true).threads.find k = some (t.handedOver s q sync) := by
  cases sync with
  | false =>
    obtain ⟨ts, he, hk, -⟩ := State.issued_run (s := s) (q := q) x (u := t) (by rw [hx]; exact h) hr hc hd true
    rw [he]
    exact hk
  | true =>
    have hf : x.threads.find k = some { t with status := .sync s.nextSeq } := by
      rw [hx, State.taking, State.syncOn, if_pos rfl, List.foldl_cons, List.foldl_nil, State.updThread_threads, Tbl.find_upd_same]
      exact congrArg _ h
    obtain ⟨ts, he, hk, -⟩ := State.issued_sync (s := s) (q := q) x hf rfl hc hd
    rw [he]
    exact hk

/-- An instruction that a unit takes, which leaves x, has been handed over by its thread. -/
theorem hands_over {x : State} {sync : Bool} (hx : exec i s = .next (s.runGang q named reads true body)) (h : s.Alone k t) (e : q.Executes t named reads)
    (hb : body s k [k] = .ok x) (ht : x.threads = (s.taking k sync).threads) (hc : x.clk = s.clk) (hd : x.draws = s.draws) :
    ∃ ts, exec i s = .next { x with threads := ts } ∧ Tbl.find ts k = some (t.handedOver s q sync) := by
  refine ⟨(x.issued q k s.nextSeq true true).threads, ?_, State.issued_taken h.here e.runs ht hc hd⟩
  rw [hx, runGang_alone h e, hb]
  rfl

end

/-! ## The blocks that a mask names -/

/-- The blocks that a mask names depend on the blocks' places and on which of them live. -/
theorem State.maskBlocks_congr {s x : State} (hb : ∀ g r, (x.groveBlock g r).map (·.1) = (s.groveBlock g r).map (·.1)) (hl : ∀ b, x.blockLive b = s.blockLive b)
    (g m : Nat) : x.maskBlocks g m = s.maskBlocks g m := by
  refine List.filterMap_congr fun r _ => ?_
  have hr := hb g r
  cases hx : x.groveBlock g r <;> cases hs : s.groveBlock g r <;> simp_all

theorem Tbl.any_upd {α : Type} (t : Tbl α) (k : Nat) {f : α → α} {p : α → Bool} (hp : ∀ a, p (f a) = p a) :
    (t.upd k f).any (fun e => p e.2) = t.any fun e => p e.2 := by
  rw [Tbl.upd, List.any_map]
  refine List.any_congr rfl fun e => ?_
  rw [Function.comp]
  split
  · exact hp e.2
  · rfl

theorem Tbl.find?_upd_key {α : Type} (t : Tbl α) (k : Nat) {f : α → α} {p : α → Bool} (hp : ∀ a, p (f a) = p a) :
    ((t.upd k f).find? fun e => p e.2).map (·.1) = (t.find? fun e => p e.2).map (·.1) := by
  induction t with
  | nil => rfl
  | cons e t ih =>
    have he : p (if e.1 = k then (e.1, f e.2) else e).2 = p e.2 := by split <;> simp [hp]
    have hkey : (if e.1 = k then (e.1, f e.2) else e).1 = e.1 := by split <;> rfl
    rw [Tbl.upd, List.map_cons, List.find?_cons, List.find?_cons, he]
    cases p e.2
    · exact ih
    · exact congrArg some hkey

/-- A thread's place is its own while a unit takes its instruction. -/
theorem State.taking_maskBlocks (s : State) (k : Nat) (sync : Bool) (g m : Nat) : (s.taking k sync).maskBlocks g m = s.maskBlocks g m := by
  refine State.maskBlocks_congr (fun g r => ?_) (fun b => ?_) g m
  · have hblocks : (s.taking k sync).blocks = s.blocks.upd (s.thr k).blk fun b => { b with idemOpen := false } := by cases sync <;> rfl
    rw [State.groveBlock, State.groveBlock, hblocks]
    exact Tbl.find?_upd_key (p := fun b : Block => b.grove == g && b.idx == r) s.blocks _ fun _ => rfl
  · cases sync with
    | false => rfl
    | true => exact Tbl.any_upd (f := fun u : Thread => { u with status := .sync s.nextSeq }) (p := fun u : Thread => u.blk == b) s.threads k fun _ => rfl

/-! ## MMA, MMAG and MMAQ -/

/-- What an accepted operation leaves (R311, R314). -/
structure State.MxEntered (s s1 : State) (k : Nat) (t : Thread) (q : Issue) (o : MxOp) (shares : List Share) : Prop where
  thread : s1.threads.find k = some (t.handedOver s q q.flag.isNone)
  mem    : s1.mem = s.mem
  stands : s1.mxOps.find s.nextSeq = some { o with shares := shares }
  places : shares.map (fun x => (x.rank, x.blk)) = s.maskBlocks o.grove o.mask
  queued : ∀ x ∈ shares, x.state = .queued ∧ x.step = 0 ∧ x.result = [] ∧ .share s.nextSeq x.rank ∈ (s1.core (s1.coreOfBlock x.blk)).array

/-- The acceptance of an operation by every partner's array. -/
theorem State.mxAccept_enters (x : State) (id : Nat) (o : MxOp) : ∃ cs,
    x.mxAccept id o = { x with mxOps := x.mxOps.put id { o with shares := sharesOf o.m o.n o.split (x.maskBlocks o.grove o.mask) }, cores := cs } ∧
    ∀ b ∈ x.maskBlocks o.grove o.mask, .share id b.1 ∈ (({ x with cores := cs } : State).core (x.coreOfBlock b.2)).array := by
  obtain ⟨cs, he, -, hin⟩ := State.foldl_enterArray id (x.maskBlocks o.grove o.mask)
    { x with mxOps := x.mxOps.put id { o with shares := sharesOf o.m o.n o.split (x.maskBlocks o.grove o.mask) } }
  exact ⟨cs, he, hin⟩

section
variable {s : State} {k : Nat} {t : Thread} {i : Instr} {c : Ctl} {en : BitVec 2} {fmt : TyCode} {gather perm : Bool} {bar : Option BarRef} {vd va : Reg}
  {o : MxOp} (ho : o = s.asksMatrix c en fmt gather perm bar vd va k t)
  (hx : exec i s = .next (s.execMatrix c en fmt gather perm bar vd va)) (ha : s.Alone k t)
  (e : (issue64 c).Executes t (vd.toNat :: [va.toNat, va.toNat + 1, va.toNat + 2]) [va.toNat, va.toNat + 1, va.toNat + 2])
  (hbar : ∀ b, bar = some b → (s.barHome t b).isSome = true) (hrank : s.badRank o.grove o.mask = none)
include ho hx ha e hbar hrank

omit e in
/-- What the issue of an operation comes to for a thread alone: it is accepted, or the thread is held (R314). -/
theorem execMatrix_body : ∃ body : Body, exec i s = .next (s.runGang (issue64 c) (vd.toNat :: [va.toNat, va.toNat + 1, va.toNat + 2])
      [va.toNat, va.toNat + 1, va.toNat + 2] true body) ∧ body s k [k] = .ok (if s.arraysFree (s.maskBlocks o.grove o.mask) then
        (s.taking k (issue64 c).flag.isNone).mxAccept s.nextSeq o else s.holdAt [k]) := by
  refine ⟨_, hx, ?_⟩
  have hnobar : (bar.any fun b => (s.barHome t b).isNone) = false := by
    cases bar with
    | none => rfl
    | some b => simpa using hbar b rfl
  subst ho
  rcases hblk : s.blocks.find t.blk with _ | b
  all_goals
    simp only [State.asksMatrix, hblk] at hrank ⊢
    simp only [ha.thr, hnobar, hblk, Bool.false_eq_true, ↓reduceIte]
    erw [hrank]
    dsimp only
    split
    next hf => exact congrArg Except.ok (if_pos hf).symm
    next hf => exact congrArg Except.ok (if_neg hf).symm

theorem matrix_held (hf : s.arraysFree (s.maskBlocks o.grove o.mask) = false) : s.Gives i k { t with status := .held s.inst [k] } s := by
  obtain ⟨body, hb, hk⟩ := execMatrix_body ho hx ha hbar hrank
  exact gives_holdAt hb ha e (by rw [hk, hf]; rfl)

theorem matrix_enters (hf : s.arraysFree (s.maskBlocks o.grove o.mask) = true) :
    ∃ s1 shares, exec i s = .next s1 ∧ s.MxEntered s1 k t (issue64 c) o shares := by
  obtain ⟨body, hb, hk⟩ := execMatrix_body ho hx ha hbar hrank
  obtain ⟨cs, he, hin⟩ := State.mxAccept_enters (s.taking k (issue64 c).flag.isNone) s.nextSeq o
  rw [hf, if_pos rfl, he] at hk
  rw [State.taking_maskBlocks] at hin hk
  obtain ⟨ts, hs, ht⟩ := hands_over hb ha e hk rfl (State.taking_clk ..) (State.taking_draws ..)
  refine ⟨_, sharesOf o.m o.n o.split (s.maskBlocks o.grove o.mask), hs, ht, State.taking_mem .., ?_, sharesOf_places .., fun x hx => ?_⟩
  · exact Tbl.find_put_same _ _ _
  · obtain ⟨h1, h2, h3, hmem⟩ := sharesOf_queued hx
    exact ⟨h1, h2, h3, hin _ hmem⟩

end

/-- A matrix instruction whose acceptance is its issue (R309, R310, R314). -/
theorem matrix_asks {s : State} {k : Nat} {t : Thread} {i : Instr} {c : Ctl} {en : BitVec 2} {fmt : TyCode} {gather perm : Bool} {bar : Option BarRef} {vd va : Reg}
    (hx : exec i s = .next (s.execMatrix c en fmt gather perm bar vd va)) (ha : s.Alone k t)
    (hacc : ∀ (h : State) (w : Word), h.Holds k i w s → exec (.matrixAccept k) h = exec i s)
    (e : (issue64 c).Executes t (vd.toNat :: [va.toNat, va.toNat + 1, va.toNat + 2]) [va.toNat, va.toNat + 1, va.toNat + 2])
    (hbar : ∀ b, bar = some b → (s.barHome t b).isSome = true)
    (hrank : s.badRank (s.asksMatrix c en fmt gather perm bar vd va k t).grove (s.asksMatrix c en fmt gather perm bar vd va k t).mask = none) :
    let o := s.asksMatrix c en fmt gather perm bar vd va k t
    let entered := fun (s1 : State) (shares : List Share) => s1.threads.find k = some (t.handedOver s (issue64 c) (issue64 c).flag.isNone) ∧ s1.mem = s.mem ∧
      s1.mxOps.find s.nextSeq = some { o with shares := shares } ∧ shares.map (fun x => (x.rank, x.blk)) = s.maskBlocks o.grove o.mask ∧
      ∀ x ∈ shares, x.state = .queued ∧ x.step = 0 ∧ x.result = [] ∧ .share s.nextSeq x.rank ∈ (s1.core (s1.coreOfBlock x.blk)).array
    (s.arraysFree (s.maskBlocks o.grove o.mask) = false → s.Gives i k { t with status := .held s.inst [k] } s) ∧
    (s.arraysFree (s.maskBlocks o.grove o.mask) = true → (∃ s1 shares, exec i s = .next s1 ∧ entered s1 shares) ∧
      ∀ (h : State) (w : Word), h.Holds k i w s → ∃ s1 shares, exec (.matrixAccept k) h = .next s1 ∧ entered s1 shares) := by
  intro o entered
  refine ⟨fun hf => matrix_held rfl hx ha e hbar hrank hf, fun hf => ?_⟩
  obtain ⟨s1, shares, he, g⟩ := matrix_enters rfl hx ha e hbar hrank hf
  have hin : entered s1 shares := ⟨g.thread, g.mem, g.stands, g.places, g.queued⟩
  exact ⟨⟨s1, shares, he, hin⟩, fun h w hh => ⟨s1, shares, (hacc h w hh).trans he, hin⟩⟩

section
variable {h s : State} {k : Nat} {w : Word} {c : Ctl} {en : BitVec 2} {fmt : TyCode} {bar : Option BarRef} {vd va : Reg}

theorem matrixAccept_mma (g : h.Holds k (.mma c en fmt bar vd va) w s) : exec (.matrixAccept k) h = exec (.mma c en fmt bar vd va) s := by
  change execMatrixAccept k h = _
  rw [execMatrixAccept, g.heldBy]
  rfl

theorem matrixAccept_mmag (g : h.Holds k (.mmag c en fmt bar vd va) w s) : exec (.matrixAccept k) h = exec (.mmag c en fmt bar vd va) s := by
  change execMatrixAccept k h = _
  rw [execMatrixAccept, g.heldBy]
  rfl

theorem matrixAccept_mmaq (g : h.Holds k (.mmaq c en fmt bar vd va) w s) : exec (.matrixAccept k) h = exec (.mmaq c en fmt bar vd va) s := by
  change execMatrixAccept k h = _
  rw [execMatrixAccept, g.heldBy]
  rfl

end

/-- Settles O22: the three differ in their operation only, and the acceptance of each is its issue. -/
theorem matrixInstructions : Obligations.MatrixInstructions := fun _ _ _ _ _ _ _ _ _ ha =>
  ⟨fun e hbar hrank => matrix_asks rfl ha (fun _ _ => matrixAccept_mma) e hbar hrank,
    fun e hbar hrank => matrix_asks rfl ha (fun _ _ => matrixAccept_mmag) e hbar hrank,
    fun e hbar hrank => matrix_asks rfl ha (fun _ _ => matrixAccept_mmaq) e hbar hrank⟩

end Sys2Proof.Machine
end


section
/-! MATRIX EVENTS (O54): what the events of a share leave of it, of its operation and of its core (spec/18_matrix_engine.md R305, R312-R317). -/

namespace Sys2Proof.Machine

/-! ## One share of an operation -/

theorem State.share_some {s : State} {id rank : Nat} {o : MxOp} {x : Share} (h : s.share id rank = some (o, x)) :
    s.mxOps.find id = some o ∧ o.shares.find? (fun y => y.rank == rank) = some x := by
  rw [State.share, Option.bind_eq_some_iff] at h
  obtain ⟨p, hp, h⟩ := h
  obtain ⟨y, hy, he⟩ := Option.map_eq_some_iff.mp h
  obtain ⟨rfl, rfl⟩ := Prod.mk.inj he
  exact ⟨hp, hy⟩

theorem State.share_rank {s : State} {id rank : Nat} {o : MxOp} {x : Share} (h : s.share id rank = some (o, x)) : x.rank = rank := by
  simpa using List.find?_some (State.share_some h).2

/-- A share changed by a function that keeps its rank. -/
theorem find?_updShare {l : List Share} {rank : Nat} {f : Share → Share} (hf : ∀ y, (f y).rank = y.rank) :
    (l.map fun y => if y.rank = rank then f y else y).find? (fun y => y.rank == rank) = (l.find? fun y => y.rank == rank).map f := by
  rw [List.find?_map]
  have hp : ((fun y : Share => y.rank == rank) ∘ fun y => if y.rank = rank then f y else y) = fun y => y.rank == rank := by
    funext y
    rw [Function.comp]
    split <;> simp [*]
  rw [hp]
  cases hx : l.find? fun y => y.rank == rank with
  | none => rfl
  | some x => simp [show x.rank = rank by simpa using List.find?_some hx]

section
variable {s : State} {id rank : Nat} {o : MxOp} {x : Share}

/-- The share of an operation that a state holds: only the operations matter. -/
theorem State.share_of_mxOps {u : State} (h : u.mxOps = s.mxOps) : u.share id rank = s.share id rank := by rw [State.share, State.share, h]

/-- A share changed with its operation (R314). -/
theorem State.share_upd (h : s.share id rank = some (o, x)) {f : Share → Share} (hf : ∀ y, (f y).rank = y.rank) {g : MxOp → MxOp}
    (hg : ∀ p, (g p).shares = p.shares.map fun y => if y.rank = rank then f y else y) : (s.updMx id g).share id rank = some (g o, f x) := by
  obtain ⟨ho, hx⟩ := State.share_some h
  rw [State.share, State.updMx, Tbl.find_upd_same, ho, Option.map_some, Option.bind_some, hg, find?_updShare hf, hx]
  rfl

theorem State.share_updShare (h : s.share id rank = some (o, x)) {f : Share → Share} (hf : ∀ y, (f y).rank = y.rank) :
    (s.updShare id rank f).share id rank = some (o.updShare rank f, f x) := State.share_upd h hf fun _ => rfl

/-- The share after its change. -/
theorem State.share_after (h : s.share id rank = some (o, x)) {f : Share → Share} (hf : ∀ y, (f y).rank = y.rank) :
    ((s.updShare id rank f).share id rank).map (·.2) = some (f x) := by rw [State.share_updShare h hf, Option.map_some]

/-- An operation's other fields change nothing of its shares. -/
theorem State.share_updMx (h : s.share id rank = some (o, x)) {g : MxOp → MxOp} (hg : ∀ p, (g p).shares = p.shares) :
    (s.updMx id g).share id rank = some (g o, x) := by
  obtain ⟨ho, hx⟩ := State.share_some h
  rw [State.share, State.updMx, Tbl.find_upd_same, ho, Option.map_some, Option.bind_some, hg, hx]
  rfl

theorem State.share_beside (h : s.share id rank = some (o, x)) {g : MxOp → MxOp} (hg : ∀ p, (g p).shares = p.shares) :
    ((s.updMx id g).share id rank).map (·.2) = some x := by rw [State.share_updMx h hg, Option.map_some]

/-- Another partner's share, and whether it has ended, stay. -/
theorem MxOp.updShare_other {f : Share → Share} {y : Share} (hy : y ∈ o.shares) (hr : y.rank ≠ rank) : y ∈ (o.updShare rank f).shares :=
  List.mem_map.mpr ⟨y, hy, if_neg hr⟩

/-- While a partner has not ended the operation goes on (R315). -/
theorem State.mxEnd_goesOn (h : s.mxOps.find id = some o) {y : Share} (hy : y ∈ o.shares) (he : y.state ≠ .ended) : s.mxEnd id = s := by
  have hany : (o.shares.any fun x => x.state != .ended) = true := List.any_eq_true.mpr ⟨y, hy, by simpa using he⟩
  rw [State.mxEnd, h]
  exact if_pos hany

end

/-! ## What the pinning of a scratchpad and a credit leave -/

/-- The operations, the accumulators and the arrays. -/
def State.arrays (s : State) := (s.mxOps, s.cores, s.mem)

theorem State.refillPage_arrays (s : State) (bid p : Nat) : (s.refillPage bid p).arrays = s.arrays := by
  unfold State.refillPage
  split
  · rfl
  · split
    · rfl
    · split <;> rfl

theorem State.pinAll_arrays (s : State) (bid : Nat) : (s.pinAll bid).arrays = s.arrays := by
  unfold State.pinAll
  split
  · rfl
  · exact foldl_fixes (g := State.arrays) (fun x p => State.refillPage_arrays x bid p) _ s

theorem State.see_arrays (s : State) (k : Nat) (ids : List Nat) : (s.see k ids).arrays = s.arrays := by
  unfold State.see
  split <;> rfl

theorem State.barPut_arrays (s : State) (h : BarHome) (b : Barrier) : (s.barPut h b).arrays = s.arrays := by
  have hset : ∀ b, (s.barSet h b).arrays = s.arrays := fun b => by cases h <;> rfl
  unfold State.barPut
  split
  · exact (foldl_fixes (g := State.arrays) (fun x k => State.see_arrays x k _) _ _).trans (hset _)
  · exact hset b

theorem State.barCredit_arrays (s : State) (h : Option BarHome) (n : Nat) (abort : Bool) (past : List Nat) : (s.barCredit h n abort past).1.arrays = s.arrays := by
  unfold State.barCredit
  split
  · rfl
  · split
    · rfl
    · split
      · exact State.barPut_arrays ..
      · rfl

theorem State.partnerFault_arrays (s : State) (x : Share) : (s.partnerFault x).arrays = s.arrays := by
  unfold State.partnerFault
  split
  · split
    · dsimp only
      split <;> rfl
    · rfl
  · rfl

section
variable {s u : State} (h : u.arrays = s.arrays)
include h
theorem State.mxOps_of_arrays : u.mxOps = s.mxOps := congrArg (·.1) h
theorem State.core_of_arrays (c : Nat) : u.core c = s.core c := congrArg (fun a : _ × Tbl Core × _ => (a.2.1.find c).getD {}) h
theorem State.mem_of_arrays : u.mem = s.mem := congrArg (·.2.2) h
end

/-- Once the share has left its array, nothing of it stands there. -/
theorem State.leaveArray_gone (s : State) (blk id rank : Nat) : .share id rank ∉ ((s.leaveArray blk id rank).core (s.coreOfBlock blk)).array := by
  rw [State.leaveArray, State.core_updCore]
  simp

/-- The state once a step's energy is paid from its context's budget, in the clk of its array's step (R305, R317). -/
def State.paid (s : State) (ctx cost core : Nat) : State :=
  (s.setCtx ctx fun c => { c with ebud := c.ebud - cost }).updCore core fun c => { c with mxClk := s.clk + 1 }

theorem State.ebud_of_paid {s u : State} {ctx cost core : Nat} (h : u.ctxs = (s.paid ctx cost core).ctxs) : (u.ctxSt ctx).ebud = (s.ctxSt ctx).ebud - cost := by
  have hctxs : u.ctxs = s.ctxs.put ctx { s.ctxSt ctx with ebud := (s.ctxSt ctx).ebud - cost } := h
  rw [State.ctxSt, hctxs, Tbl.find_put_same, Option.getD_some]

theorem State.mxClk_of_paid {s u : State} {ctx cost core : Nat} (h : u.cores = (s.paid ctx cost core).cores) : (u.core core).mxClk = s.clk + 1 := by
  rw [State.core_of_cores h, State.paid, State.core_updCore]

/-- A share one step further, with the results and rows it has then (R312). -/
def Share.stepped (y : Share) (res : List Host.Cell) (rows : List Nat) (n : Nat) (last : Bool) : Share :=
  { y with result := res, rows := rows, step := n, state := if last then .ready else .running }

section
variable {s : State} {id rank : Nat} {o : MxOp} {x : Share} (h : s.share id rank = some (o, x))
include h

/-! ## A share starts and steps -/

section
variable {core : Nat} {r : List ArrayCmd} (ha : (s.core core).array = .share id rank :: r)
include ha

theorem State.headShare_eq : s.headShare core = some (id, o, x) := by
  rw [State.headShare, ha]
  simp only [h, Option.map_some]

section
variable (hq : x.state = .queued) (hs : o.stop = false) (hr : s.mxReady id o = true)
include hq hs hr

/-- A share that passes its checks runs, its scratchpad pinned (R313, R314). -/
theorem shareStart_runs (hc : s.shareCheck o x = none) :
    s.Leads (.shareStart core) fun s2 => (s2.share id rank).map (·.2) = some { x with state := .running } ∧ s2.mem = s.mem := by
  have hp := State.pinAll_arrays s x.blk
  have hrun := State.share_updShare ((State.share_of_mxOps (State.mxOps_of_arrays hp)).trans h) (f := fun y => { y with state := .running }) fun _ => rfl
  refine ⟨((s.pinAll x.blk).updShare id rank fun y => { y with state := .running }).updMx id fun p => { p with past := s.mxPast id p }, ?_,
    State.share_beside hrun fun _ => rfl, ?_⟩
  · change execShareStart core s = _
    simp only [execShareStart, State.headShare_eq h ha, hq, hs, hr, hc, State.share_rank h, Bool.not_false, and_self, ↓reduceIte]
  · exact State.mem_of_arrays (s := s) (u := s.pinAll x.blk) hp

/-- A share that fails one aborts with its code (R313, R314). -/
theorem shareStart_aborts {n : Nat} (hc : s.shareCheck o x = some n) : s.Leads (.shareStart core) fun s2 =>
    (s2.share id rank).map (·.2) = some { x with state := .aborting, fail := some (n, 0, 0) } ∧ s2.blocks = s.blocks := by
  refine ⟨s.updShare id rank fun y => { y with state := .aborting, fail := some (n, 0, 0) }, ?_, State.share_after h fun _ => rfl, rfl⟩
  change execShareStart core s = _
  simp only [execShareStart, State.headShare_eq h ha, hq, hs, hr, hc, State.share_rank h, Bool.not_false, and_self, ↓reduceIte]

end

section
variable (hr : x.state = .running) (hh : o.halts x = false)

/-- A step that the budget does not cover, or a second one in a clk, does not take place (R305, R317). -/
theorem matrixStep_waits (hw : (s.ctxSt (s.mxCtx o)).ebud < 2 ^ o.energy ∨ s.clk < (s.core core).mxClk) : exec (.matrixStep core) s = .next s := by
  change execMatrixStep core s = _
  simp only [execMatrixStep, State.headShare_eq h ha]
  rw [if_pos (by tauto)]

include hr hh in
/-- A step costs its energy and advances its share by one (R306, R312, R314, R317). -/
theorem matrixStep_advances (hb : 2 ^ o.energy ≤ (s.ctxSt (s.mxCtx o)).ebud) (hc : (s.core core).mxClk ≤ s.clk) (hbad : x.bad = false)
    (hg : x.step % o.ks = 0 ∧ x.step / o.ks % (x.nsp / 32) = 0 → s.gatherBad o x (x.step / o.ks / (x.nsp / 32)) = none)
    (hu : s.stepUncorr o x (x.step / o.ks / (x.nsp / 32)) (x.step / o.ks % (x.nsp / 32)) (x.step % o.ks) = none) :
    s.Leads (.matrixStep core) fun s2 => (s2.ctxSt (s.mxCtx o)).ebud = (s.ctxSt (s.mxCtx o)).ebud - 2 ^ o.energy ∧ s2.mem = s.mem ∧
      (s2.core core).mxClk = s.clk + 1 ∧
      ∃ y, (s2.share id rank).map (·.2) = some y ∧ y.step = x.step + 1 ∧ y.state = (if x.step + 1 = o.stepsOf x then .ready else .running) := by
  have hgood : (if x.step % o.ks = 0 ∧ x.step / o.ks % (x.nsp / 32) = 0 then s.gatherBad o x (x.step / o.ks / (x.nsp / 32)) else none) = none := by
    split
    · exact hg ‹_›
    · rfl
  have hpay : ¬(x.state ≠ .running ∨ o.halts x = true ∨ (s.ctxSt (s.mxCtx o)).ebud < 2 ^ o.energy ∨ s.clk < (s.core core).mxClk) := by
    rw [hr, hh]
    simp only [ne_eq, not_true_eq_false, Bool.false_eq_true, false_or]
    omega
  obtain ⟨res, rows, he⟩ : ∃ res rows, exec (.matrixStep core) s = .next (((s.paid (s.mxCtx o) (2 ^ o.energy) core).updMx id fun p =>
      { p with steps := p.steps + 1 }).updShare id rank fun y => y.stepped res rows (x.step + 1) (decide (x.step + 1 = o.stepsOf x))) := by
    rw [show exec (.matrixStep core) s = execMatrixStep core s from rfl]
    simp only [execMatrixStep, State.headShare_eq h ha, hgood, hbad, hu, if_neg hpay, State.share_rank h, Bool.false_eq_true, ↓reduceIte]
    exact ⟨_, _, rfl⟩
  have hpaid : (s.paid (s.mxCtx o) (2 ^ o.energy) core).share id rank = some (o, x) := (State.share_of_mxOps (by rfl)).trans h
  have hcounted := State.share_updMx hpaid (g := fun p => { p with steps := p.steps + 1 }) fun _ => rfl
  have hstepped := State.share_after hcounted (f := fun y => y.stepped res rows (x.step + 1) (decide (x.step + 1 = o.stepsOf x))) fun _ => rfl
  refine ⟨_, he, State.ebud_of_paid (core := core) ?_, ?_, State.mxClk_of_paid (ctx := s.mxCtx o) (cost := 2 ^ o.energy) ?_, _, hstepped, ?_, ?_⟩
  · rfl
  · rfl
  · rfl
  · rfl
  · simp only [Share.stepped, decide_eq_true_eq]

end
end

/-! ## What reaches the coordinator -/

theorem shareReady_sent (hr : x.state = .ready) (hs : x.sent = false) :
    s.Leads (.shareReady id rank) fun s2 => (s2.share id rank).map (·.2) = some { x with sent := true } ∧ s2.mem = s.mem := by
  refine ⟨s.updShare id rank fun y => { y with sent := true }, ?_, State.share_after h fun _ => rfl, rfl⟩
  change execShareReady id rank s = _
  simp only [execShareReady, h, hr, hs, Bool.not_false, and_self, ↓reduceIte]

/-- The first abort that reaches the coordinator is the operation's (R314, R316). -/
theorem shareAbort_sent {c st a : Nat} (hf : x.fail = some (c, st, a)) (ha : x.state = .aborting) (hs : x.sent = false) :
    s.Leads (.shareAbort id rank) fun s2 => (s2.share id rank).map (·.2) = some { x with sent := true } ∧ s2.mem = s.mem ∧
      (s2.mxOps.find id).map (·.abort) = some (if o.abort = none then some (c, rank, st) else o.abort) := by
  have hup := State.share_updShare h (f := fun y => { y with sent := true }) fun _ => rfl
  refine ⟨(s.updShare id rank fun y => { y with sent := true }).updMx id fun o => if o.abort.isSome then o else { o with abort := some (c, rank, st) }, ?_, ?_, rfl, ?_⟩
  · change execShareAbort id rank s = _
    simp only [execShareAbort, h, hf, ha, hs, Bool.not_false, and_self, ↓reduceIte]
  · rw [State.share_updMx hup fun p => by split <;> rfl]
    rfl
  · rw [State.updMx, Tbl.find_upd_same, (State.share_some hup).1]
    have hab : (o.updShare rank fun y => { y with sent := true }).abort = o.abort := rfl
    rw [Option.map_some, Option.map_some]
    cases ho : o.abort with
    | none => simp [hab, ho]
    | some f => simp [hab, ho]

/-! ## A share ends -/

omit h in
/-- A partner ends while another goes on: nothing of the operation lands (R315). -/
theorem State.mxEnd_ended (hothers : ∃ y ∈ o.shares, y.rank ≠ rank ∧ y.state ≠ .ended) {v : State} {p : MxOp} {z : Share} {f : Share → Share}
    (hv : v.share id rank = some (p, z)) (hp : p.shares = (o.updShare rank f).shares) :
    v.mxEnd id = v := by
  obtain ⟨y, hy, hr, he⟩ := hothers
  exact State.mxEnd_goesOn (State.share_some hv).1 (hp ▸ MxOp.updShare_other hy hr) he

end

end Sys2Proof.Machine
end


section
/-! MATRIX SHARES COMMIT OR ABORT (O54): a commit writes its part of the accumulators, and a partner that ends while another goes on leaves the
operation standing (spec/18_matrix_engine.md R314-R316). -/

namespace Sys2Proof.Machine

/-- Copies of a buffer's items into memory at a distance: an address that one of them covers holds the buffer's byte. -/
theorem read_foldl_copy {r : List Host.Cell} {base ae : Nat} (l : List Nat) {m : List Host.Cell} (hm : Mem.wf m = true) {a : Nat}
    (ha : (∃ off ∈ l, off ≤ a ∧ a < off + ae) ∨ Mem.read m (base + a) = Mem.read r a) :
    Mem.read (l.foldl (fun x off => Mem.writeN x (base + off) (Mem.readN r off ae)) m) (base + a) = Mem.read r a := by
  induction l generalizing m with
  | nil =>
    obtain ⟨_, h, -⟩ | h := ha
    · exact nomatch h
    · exact h
  | cons off l ih =>
    refine ih (Mem.wf_writeN hm _ _) ?_
    by_cases hin : off ≤ a ∧ a < off + ae
    · right
      obtain ⟨d, rfl⟩ := Nat.exists_eq_add_of_le hin.1
      rw [Mem.read_writeN hm, Mem.readN_length, if_pos (by omega), show base + (off + d) - (base + off) = d by omega, Mem.readN_eq_map, List.getD_eq_getElem?_getD,
        List.getElem?_map, List.getElem?_range (by omega)]
      rfl
    · obtain ⟨o, ho, h⟩ | h := ha
      · obtain rfl | ho := List.mem_cons.mp ho
        · exact absurd h hin
        · exact .inl ⟨o, ho, h⟩
      · right
        rw [Mem.read_writeN hm, Mem.readN_length, if_neg (by omega), h]

/-- The offsets of a share's elements in its result (R314). -/
def Share.cells (x : Share) (ae : Nat) : List Nat := (List.range x.ms).flatMap fun m => (List.range x.ns).map fun n => (m * x.nsp + n) * ae

theorem Share.mem_cells {x : Share} {ae m n : Nat} (hm : m < x.ms) (hn : n < x.ns) : (m * x.nsp + n) * ae ∈ x.cells ae :=
  List.mem_flatMap.mpr ⟨m, List.mem_range.mpr hm, List.mem_map.mpr ⟨n, List.mem_range.mpr hn, rfl⟩⟩

/-- The state in which a share's result has reached the accumulators of its core, and the share has left the array (R314). -/
def State.committed (s : State) (o : MxOp) (x : Share) (id rank : Nat) : State :=
  let put := fun a off => Mem.writeN a (accBase (s.launchIdOf x.blk) + o.accOff + off) (Mem.readN x.result off o.ae)
  (s.updCore (s.coreOfBlock x.blk) fun c => { c with acc := (x.cells o.ae).foldl put c.acc }).leaveArray x.blk id rank

theorem State.committed_acc {s : State} {x : Share} (hwf : Mem.wf (s.core (s.coreOfBlock x.blk)).acc = true) (o : MxOp) (id rank : Nat) {m n i : Nat}
    (hm : m < x.ms) (hn : n < x.ns) (hi : i < o.ae) :
    Mem.read ((s.committed o x id rank).core (s.coreOfBlock x.blk)).acc (accBase (s.launchIdOf x.blk) + o.accOff + (m * x.nsp + n) * o.ae + i) =
      Mem.read x.result ((m * x.nsp + n) * o.ae + i) := by
  have hcore : ((s.committed o x id rank).core (s.coreOfBlock x.blk)).acc = (x.cells o.ae).foldl
      (fun a off => Mem.writeN a (accBase (s.launchIdOf x.blk) + o.accOff + off) (Mem.readN x.result off o.ae)) (s.core (s.coreOfBlock x.blk)).acc := by
    show ((State.updCore (State.updCore s (s.coreOfBlock x.blk) _) (s.coreOfBlock x.blk) _).core (s.coreOfBlock x.blk)).acc = _
    rw [State.core_updCore, State.core_updCore]
  rw [hcore, Nat.add_assoc]
  exact read_foldl_copy _ hwf (.inl ⟨_, Share.mem_cells hm hn, by omega⟩)

section
variable {s : State} {id rank : Nat} {o : MxOp} {x : Share} (h : s.share id rank = some (o, x)) (hsv : s.savedHeld o.recv = false)
  (hothers : ∃ y ∈ o.shares, y.rank ≠ rank ∧ y.state ≠ .ended)
include h hsv hothers

/-- COMMIT_NOTICE while another partner goes on (R314, R315). -/
theorem commitNotice_leads (hst : x.state = .ready) (hab : o.abort = none) (hall : (o.shares.all fun y => y.sent || y.state == .ended) = true)
    (hwf : Mem.wf (s.core (s.coreOfBlock x.blk)).acc = true) : s.Leads (.commitNotice id rank) fun s2 =>
    (s2.share id rank).map (·.2) = some { x with state := .ended } ∧ s2.mem = s.mem ∧ .share id rank ∉ (s2.core (s.coreOfBlock x.blk)).array ∧
      ∀ m n i, m < x.ms → n < x.ns → i < o.ae →
        Mem.read (s2.core (s.coreOfBlock x.blk)).acc (accBase (s.launchIdOf x.blk) + o.accOff + (m * x.nsp + n) * o.ae + i) =
          Mem.read x.result ((m * x.nsp + n) * o.ae + i) := by
  obtain ⟨r, hr⟩ : ∃ r, r = (s.committed o x id rank).barCredit (s.shareBar o x) (o.shareBytes x) false o.past := ⟨_, rfl⟩
  have harr : r.1.arrays = (s.committed o x id rank).arrays := hr ▸ State.barCredit_arrays ..
  have he : exec (.commitNotice id rank) s = .next (((r.1.updShare id rank fun y => { y with state := .ended }).updMx id fun p =>
      if r.2 then p else { p with barbal := some (min rank (p.barbal.getD rank)) }).mxEnd id) := by
    subst hr
    change execCommitNotice id rank s = _
    simp only [execCommitNotice, h, hsv, hst, hab, hall, Bool.not_false, Option.isNone_none, and_self, ↓reduceIte]
    rfl
  have hgone : r.1.share id rank = some (o, x) := (State.share_of_mxOps (s := s) (State.mxOps_of_arrays (s := s.committed o x id rank) harr)).trans h
  have hup := State.share_updMx (State.share_updShare hgone (f := fun y => { y with state := .ended }) fun _ => rfl)
    (g := fun p => if r.2 then p else { p with barbal := some (min rank (p.barbal.getD rank)) }) fun p => by split <;> rfl
  rw [State.mxEnd_ended hothers hup (by split <;> rfl)] at he
  have hcore : ∀ c, r.1.core c = (s.committed o x id rank).core c := State.core_of_arrays harr
  refine ⟨_, he, by rw [hup]; rfl, State.mem_of_arrays (u := r.1) (s := s.committed o x id rank) harr, ?_, fun m n i hm hn hi => ?_⟩
  · show ArrayCmd.share id rank ∉ (r.1.core (s.coreOfBlock x.blk)).array
    rw [hcore]
    exact State.leaveArray_gone _ x.blk id rank
  · show Mem.read (r.1.core (s.coreOfBlock x.blk)).acc _ = _
    rw [hcore]
    exact State.committed_acc hwf o id rank hm hn hi

/-- ABORT_NOTICE while another partner goes on (R314-R316). -/
theorem abortNotice_leads {f : Nat × Nat × Nat} (hab : o.abort = some f) (hst : x.state ≠ .ended) : s.Leads (.abortNotice id rank) fun s2 =>
    (s2.share id rank).map (·.2) = some { x with state := .ended } ∧ s2.mem = s.mem ∧
      (s2.core (s.coreOfBlock x.blk)).acc = (s.core (s.coreOfBlock x.blk)).acc ∧ .share id rank ∉ (s2.core (s.coreOfBlock x.blk)).array := by
  obtain ⟨u, hu⟩ : ∃ u, u = (((s.leaveArray x.blk id rank).barCredit (s.shareBar o x) (o.shareBytes x) true []).1).partnerFault x := ⟨_, rfl⟩
  have harr : u.arrays = (s.leaveArray x.blk id rank).arrays := hu ▸ (State.partnerFault_arrays ..).trans (State.barCredit_arrays ..)
  have he : exec (.abortNotice id rank) s = .next ((u.updShare id rank fun y => { y with state := .ended }).mxEnd id) := by
    subst hu
    change execAbortNotice id rank s = _
    simp only [execAbortNotice, h, hsv, hab, hst, Bool.not_false, Option.isSome_some, ne_eq, not_false_eq_true, and_self, ↓reduceIte]
  have hgone : u.share id rank = some (o, x) := (State.share_of_mxOps (s := s) (State.mxOps_of_arrays (s := s.leaveArray x.blk id rank) harr)).trans h
  have hup := State.share_updShare hgone (f := fun y => { y with state := .ended }) fun _ => rfl
  rw [State.mxEnd_ended hothers hup rfl] at he
  have hcore : (u.updShare id rank fun y => { y with state := .ended }).core (s.coreOfBlock x.blk) = (s.leaveArray x.blk id rank).core (s.coreOfBlock x.blk) :=
    State.core_of_arrays harr _
  refine ⟨_, he, by rw [hup]; rfl, State.mem_of_arrays (u := u) (s := s.leaveArray x.blk id rank) harr, ?_, ?_⟩
  · rw [hcore, State.leaveArray, State.core_updCore]
  · rw [hcore]
    exact State.leaveArray_gone s x.blk id rank

end

/-- Settles O54: what each event of a share comes to, one lemma each. -/
theorem matrixEvents : Obligations.MatrixEvents := by
  intro s id rank o x h
  refine ⟨fun core r ha => ⟨fun hq hs hr => ⟨shareStart_runs h ha hq hs hr, fun c => shareStart_aborts h ha hq hs hr⟩,
      fun hr hh => ⟨matrixStep_waits h ha, matrixStep_advances h ha hr hh⟩⟩,
    shareReady_sent h, fun c st a => shareAbort_sent h, ?_, ?_⟩
  · exact fun hsv hst hab hall hothers _ hwf => commitNotice_leads h hsv hothers hst hab hall hwf
  · exact fun f hsv hab hst hothers => abortNotice_leads h hsv hothers hab hst

end Sys2Proof.Machine
end



section
/-! MARKED REGISTERS (O33): every encoded instruction looks at the marks of the registers that it reads before anything of its own
(spec/16_engines_model.md R276, spec/21_faults_and_preemption.md R357). -/

namespace Sys2Proof.Machine

/-- The fault of a marked register that an instruction reads (R276, R357). -/
def Mark.fault (m : Mark) (r : Nat) : FaultInfo :=
  { cause := if m.source = 20 then .uncorr else .async, addr := m.addr, source := m.source, tokenReg := r, code := m.code, step := m.step, issuePc := m.issuePc }

section
variable {s : State} {k r : Nat} {t : Thread} {m : Mark} {q : Issue} {named reads : List Nat}

/-- The lowest marked register that is read faults. -/
theorem asyncFault_lowest (hr : r < 64) (hm : r ∈ reads) (hk : t.marks.find r = some m) (hlow : ∀ x ∈ reads, x < r → t.marks.find x = none) :
    asyncFault t reads = some (m.fault r) := by
  have hfirst : (List.range 64).find? (fun x => reads.contains x && (t.marks.find x).isSome) = some r := by
    rw [List.find?_range_eq_some]
    refine ⟨by simp [hm, hk], List.mem_range.mpr hr, fun x hx => ?_⟩
    by_cases hx' : x ∈ reads
    · simp [hlow x hx' hx]
    · simp [hx']
  simp only [asyncFault, hfirst, hk, Option.map_some, Mark.fault]

/-- The thread's issue once its body faults: nothing else happens. -/
theorem runGang_body_error (h : s.Alone k t) (hn : ∀ r ∈ named, r < t.n) (hg : q.holds t = true) (hc : ∀ r ∈ reads, t.marks.find r = none) {f : FaultInfo}
    {adv : Bool} {body : Body} (hb : body s k [k] = .error f) : s.runGang q named reads adv body = s.raiseAll [(k, t.pc, f)] := by
  have hthr := h.thr
  have hbad : (named.any fun r => decide (t.n ≤ r)) = false := by simpa [List.any_eq_false] using hn
  have hdiff : differing s [k] reads = [] := by simp [differing]
  have hgr : groupsOf q [k] = [(k, [k])] := by unfold groupsOf; split <;> simp
  simp only [State.runGang, h.gang, List.filter_cons, List.filter_nil, hthr, hbad, hg, Bool.false_eq_true, ↓reduceIte, List.isEmpty_nil, Bool.not_true,
    List.foldl_nil, hgr, runGroups, asyncFault_clean hc, hdiff, hb]
  simp [State.raiseAll, hthr]

/-- The member that read the register reports its mark, which is cleared, and takes the fault (R161, R357). -/
theorem State.raiseAll_mark (s : State) (k : Nat) (pc : Pc) (m : Mark) (r : Nat) :
    s.raiseAll [(k, pc, { m.fault r with reader := some k })] =
      (s.updThread k fun u => { u with marks := u.marks.del r }).takeFault k pc s.inst (2 ^ laneOf k) (m.fault r) := by
  simp only [State.raiseAll, laneMask, List.foldl_cons, List.foldl_nil, List.map_cons, List.map_nil, Nat.zero_or, Mark.fault, ↓reduceIte]
  rfl

end

section
variable {s : State} {k : Nat} {t : Thread} {i : Instr} {q : Issue} {named : List Nat}

/-- Every encoded instruction that reads a register, but CPYM, is one issue by the gang that looks at the marks of what it reads. -/
theorem exec_looksAtMarks (h : Instr.fields i = some (q, named)) (hr : ∀ c skip, i ≠ .rft c skip)
    (hc : ∀ c ord eng credit vd va vb, i ≠ .cpym c ord eng credit vd va vb) (s : State) (t : Thread) :
    ∃ named' reads adv body, (∀ r, r ∈ named' ↔ r ∈ named) ∧ (∀ r, r ∈ reads ↔ r ∈ Instr.reads t i) ∧ exec i s = .next (s.runGang q named' reads adv body) := by
  cases i <;> cases h
  case rft => exact absurd rfl (hr _ _)
  case cpym => exact absurd rfl (hc _ _ _ _ _ _ _)
  -- the meaning names the destination once more, as a source
  case c16Add | c16Sub | c16Addi | c16And | c16Or | c16Xor | c16Shli | c16Shri | c16Sari | c16FaddD | c16FsubD | c16FmulD | c16FminD | c16FmaxD
    | bfi | movk =>
    refine ⟨_, _, _, _, ?_, ?_, rfl⟩
    · simp
    · exact fun _ => Iff.rfl
  -- the meaning names them in another order
  case stf | stx =>
    refine ⟨_, _, _, _, ?_, ?_, rfl⟩
    · simp [or_comm]
    · exact fun _ => (List.Perm.swap _ _ []).mem_iff
  case funpack | ldw | ldc | atom | cas | trace | tracek | march | hitattr =>
    refine ⟨_, _, _, _, ?_, ?_, rfl⟩
    · simp [run, or_comm, or_left_comm]
    · exact fun _ => Iff.rfl
  all_goals
    refine ⟨_, _, _, _, ?_, ?_, rfl⟩
    · exact fun _ => Iff.rfl
    · exact fun _ => Iff.rfl

/-- CPYM looks at the marks of what it reads, its image's operands too, before its command is made (R299). -/
theorem cpym_marked {c : Ctl} {ord : Bool} {eng : EngSel} {credit : Option BarRef} {vd va vb : Reg} {r : Nat} {m : Mark} (ha : s.Alone k t)
    (hg : (issue64 c).holds t = true) (hn : ∀ x ∈ vd.toNat :: vb.toNat :: run va 8, x < t.n) (hr : r < 64) (hm : r ∈ Instr.reads t (.cpym c ord eng credit vd va vb))
    (hk : t.marks.find r = some m) (hlow : ∀ x ∈ Instr.reads t (.cpym c ord eng credit vd va vb), x < r → t.marks.find x = none) :
    exec (.cpym c ord eng credit vd va vb) s = .next (s.raiseAll [(k, t.pc, { m.fault r with reader := some k })]) := by
  refine congrArg Host.Outcome.next (runGang_body_error (reads := []) (adv := true) ha hn hg nofun ?_)
  have hreads : vb.toNat :: (regRun va 8 ++ (matrixImage (t.reg vb.toNat)).elim [] fun m => [m.2.2.2.2.2.2.2, m.2.2.2.2.2.2.2 + 1, m.2.2.2.2.2.2.2 + 2]) =
      Instr.reads t (.cpym c ord eng credit vd va vb) := by
    cases h : matrixImage (t.reg vb.toNat) <;> simp [Instr.reads, h, regRun, run, List.range_succ]
  have hdiff : ∀ l, differing s [k] l = [] := by simp [differing]
  simp only [ha.thr, hreads, hdiff, ite_self, List.isEmpty_nil, Bool.not_true, Bool.false_eq_true, ↓reduceIte, asyncFault_lowest hr hm hk hlow, List.head?_cons]

end

/-- Settles O33: RFT reads no register, and every other instruction looks at its marks before its effect. -/
theorem markedRegister : Obligations.MarkedRegister := by
  intro i q named s k t r m h ha hg hn hr hm hk hlow
  refine Eq.trans ?_ (congrArg Host.Outcome.next (State.raiseAll_mark s k t.pc m r))
  by_cases hrft : ∃ c skip, i = .rft c skip
  · obtain ⟨c, skip, rfl⟩ := hrft
    cases h
    exact nomatch hm
  by_cases hcpym : ∃ c ord eng credit vd va vb, i = .cpym c ord eng credit vd va vb
  · obtain ⟨c, ord, eng, credit, vd, va, vb, rfl⟩ := hcpym
    cases h
    exact cpym_marked ha hg hn hr hm hk hlow
  · obtain ⟨named', reads, adv, body, hnamed, hreads, hx⟩ := exec_looksAtMarks h (fun c skip e => hrft ⟨c, skip, e⟩)
      (fun c ord eng credit vd va vb e => hcpym ⟨c, ord, eng, credit, vd, va, vb, e⟩) s t
    rw [hx, runGang_async ha (fun x hx => hn x ((hnamed x).1 hx)) hg
      (asyncFault_lowest hr ((hreads r).2 hm) hk fun x hx => hlow x ((hreads x).1 hx))]

end Sys2Proof.Machine
end


section
/-! THE ENGINES OF A DIE THAT A PACKAGE DOES NOT HAVE (O21): the statement speaks of every thread number, and beyond die 3 the engine that .near
names can be Heartwood's number, whose queue holds 128 commands and not 64 (spec/16_engines_model.md R271, R273). -/

namespace Sys2Proof.Machine

theorem State.accept_nextSeq (s : State) (id : Nat) (c : Cmd) : (s.accept id c).nextSeq = id + 1 := by
  have hsync : ∀ (x : State) (l : List Nat) (b : Bool) (n : Nat), (x.syncOn l b n).nextSeq = x.nextSeq := by
    intro x l b n
    cases b with
    | false => rfl
    | true => exact foldl_fixes (g := State.nextSeq) (f := fun x k => x.updThread k fun t => { t with status := .sync n }) (fun _ _ => rfl) l x
  have hdepth : ∀ (x : State) (e : Nat), (x.depthReg e).nextSeq = x.nextSeq := by
    intro x e
    unfold State.depthReg
    split <;> rfl
  rw [State.accept, hsync, hdepth]

/-- A CPY whose engine has room is accepted under the next issue number (R271). -/
theorem cpy_accepted {s : State} {k : Nat} {t : Thread} {c : Ctl} {ord : Bool} {eng : EngSel} {credit : Option BarRef} {vd va : Reg} (ha : s.Alone k t)
    (e : (issue64 c).Executes t (vd.toNat :: ([] ++ (List.range 8).map (va.toNat + ·))) ([] ++ (List.range 8).map (va.toNat + ·)))
    (hroom : ¬ engLimit (s.pickEngine (dieOf k) eng) ≤ s.engDepth (s.pickEngine (dieOf k) eng)) :
    ∃ s1, exec (.cpy c ord eng credit vd va) s = .next s1 ∧ s1.nextSeq = s.nextSeq + 1 := by
  refine ⟨_, congrArg Host.Outcome.next (runGang_alone ha e true _), ?_⟩
  simp only [Bool.false_eq_true, ↓reduceIte, if_neg hroom]
  exact State.accept_nextSeq ..

/-- A command of engine e. -/
def commandAt (e : Nat) : Cmd :=
  { engine := e, kind := .cpy, thr := 0, recv := [], ctx := 0, die := 0, launch := 0, grove := 0, blkId := 0, pc := 0, regs := [], credit := none, token := 0
    flag := none, sync := false, ordered := false }

/-- A thread number whose die, by its number, would be die 4. -/
def farThread : Nat := 16777216

/-- A thread with eight registers, running. -/
def farState : Thread :=
  { blk := 0, tid := 0, bslot := 0, pc := 0, n := 8, regs := [], preds := [], flags := [], hw := [], depth := 0, tba := 0, tlsbase := 0 }

/-- Engine 17 has 64 commands, as many as 18 and 19, and engine 16 has one more: .near on die 4 is engine 17. -/
def fullEngines : State :=
  { State.reset with
    gang := [farThread], threads := [(farThread, farState)]
    cmds := List.replicate 65 (0, commandAt 16) ++ (List.replicate 64 (0, commandAt 17) ++ (List.replicate 64 (0, commandAt 18) ++ List.replicate 64 (0, commandAt 19))) }

theorem fullEngines_depth : fullEngines.engDepth 16 = 65 ∧ fullEngines.engDepth 17 = 64 ∧ fullEngines.engDepth 18 = 64 ∧ fullEngines.engDepth 19 = 64 := by
  simp [State.engDepth, fullEngines, commandAt]

theorem fullEngines_near : fullEngines.pickEngine 4 .near = 17 := by
  obtain ⟨h16, h17, h18, h19⟩ := fullEngines_depth
  simp [State.pickEngine, State.nearEngine, h16, h17, h18, h19]

theorem fullEngines_alone : fullEngines.Alone farThread farState := ⟨rfl, rfl⟩

/-- CPY with the guard p7 and no flag. -/
def plainCtl : Ctl := { guard := 7, neg := false, set := 15, wait := 0, stall := 0, uniform := false }

theorem farState_executes : (issue64 plainCtl).Executes farState ((0 : Reg).toNat :: ([] ++ (List.range 8).map ((0 : Reg).toNat + ·)))
    ([] ++ (List.range 8).map ((0 : Reg).toNat + ·)) :=
  ⟨by decide, by decide, fun _ _ => rfl, rfl⟩

/-- Refutes O21: a thread of die 4, by its number, whose nearest engine is number 17, with 64 commands, has its CPY accepted, where the statement holds it. -/
theorem not_engineCommands : ¬ Obligations.EngineCommands := by
  intro h
  obtain ⟨h16, h17, h18, h19⟩ := fullEngines_depth
  have hnamed : 17 / 4 = dieOf farThread ∧ ∀ j, j / 4 = dieOf farThread →
      fullEngines.engDepth 17 ≤ fullEngines.engDepth j ∧ (fullEngines.engDepth j = fullEngines.engDepth 17 → 17 ≤ j) := by
    refine ⟨rfl, fun j hj => ?_⟩
    have hj4 : j / 4 = 4 := hj
    obtain rfl | rfl | rfl | rfl : j = 16 ∨ j = 17 ∨ j = 18 ∨ j = 19 := by omega
    · omega
    · omega
    · omega
    · omega
  obtain ⟨hclaims, -⟩ := h fullEngines farThread farState plainCtl false false .near none 0 0 0 17 fullEngines_alone
  obtain ⟨hcpy, -⟩ := hclaims hnamed
  obtain ⟨hheld, -⟩ := hcpy farState_executes
  obtain ⟨ts, he, -⟩ := hheld h17.ge
  have hroom : ¬ engLimit (fullEngines.pickEngine (dieOf farThread) .near) ≤ fullEngines.engDepth (fullEngines.pickEngine (dieOf farThread) .near) := by
    rw [show dieOf farThread = 4 from rfl, fullEngines_near, h17]
    decide
  obtain ⟨s1, hs, hn⟩ := cpy_accepted (ord := false) (credit := none) fullEngines_alone farState_executes hroom
  have hsame := Host.Outcome.next.inj (he.symm.trans hs)
  rw [← hsame] at hn
  exact absurd hn (Nat.ne_of_lt (Nat.lt_succ_self _))

end Sys2Proof.Machine
end


section
/-! THE FABRIC AND THE HOST'S ACCESSES (O51): the down bits, the ports, the leases at the owner, and what a read or a write of an agent leaves
(spec/16_engines_model.md R289, spec/26_fabric_and_checkpoint.md R408-R416, spec/27_host_security_startup.md R426, R428). -/

namespace Sys2Proof.Machine

variable {s : State}

/-! ## Packages that are down, and ports (R408, R415) -/

/-- The bit of FB_DOWN for package f, as software reads it. -/
def State.isDown (s : State) (f : Nat) : Bool := (s.reg (Off.fb (0x100 + 8 * (f / 64)))).getLsbD (f % 64)

/-- Setting or clearing the bit of one package leaves the others'. -/
theorem State.isDown_setDown (s : State) (f g : Nat) (b : Bool) : (s.setDown f b).isDown g = if g = f then b else s.isDown g := by
  have hlt : g % 64 < 64 := Nat.mod_lt _ (by decide)
  unfold State.isDown State.setDown
  by_cases hw : g / 64 = f / 64
  · have hmask : (BitVec.ofNat 64 (2 ^ (f % 64))).getLsbD (g % 64) = decide (g = f) := by
      rw [BitVec.getLsbD_ofNat, Nat.testBit_two_pow, decide_eq_true hlt, Bool.true_and]
      exact decide_eq_decide.2 (by omega)
    rw [hw, State.reg_setReg_same]
    generalize BitVec.ofNat 64 (2 ^ (f % 64)) = m at hmask ⊢
    cases b with
    | false =>
      rw [if_neg (by simp), BitVec.getLsbD_and, BitVec.getLsbD_not, hmask]
      by_cases hgf : g = f <;> simp [hgf, Nat.mod_lt]
    | true =>
      rw [if_pos rfl, BitVec.getLsbD_or, hmask]
      by_cases hgf : g = f <;> simp [hgf]
  · have hgf : g ≠ f := fun e => hw (by rw [e])
    have hoff : Off.fb (0x100 + 8 * (g / 64)) ≠ Off.fb (0x100 + 8 * (f / 64)) := by
      unfold Off.fb
      omega
    rw [State.reg_setReg_other _ _ hoff, if_neg hgf]

theorem peerDown_marks {f : Nat} (hf : f < 1024) (h : bits (s.reg (Off.fb 0x38)) 31 0 < s.ptp - (s.heard.find f).getD 0) :
    s.Leads (.peerDown f) fun s2 => ∀ g, g < 1024 → s2.isDown g = (decide (g = f) || s.isDown g) := by
  refine ⟨_, if_pos ⟨hf, h⟩, fun g _ => ?_⟩
  rw [State.isDown_setDown]
  by_cases hg : g = f <;> simp [hg]

theorem peerDown_stays {f : Nat} (h : s.ptp - (s.heard.find f).getD 0 ≤ bits (s.reg (Off.fb 0x38)) 31 0) : exec (.peerDown f) s = .next s :=
  if_neg fun hc => absurd hc.2 (Nat.not_lt.2 h)

theorem heartbeat_clears {f : Nat} (hf : f < 1024) :
    s.Leads (.heartbeat f) fun s2 => s2.heard.find f = some s.ptp ∧ ∀ g, g < 1024 → s2.isDown g = (decide (g ≠ f) && s.isDown g) := by
  refine ⟨_, if_pos hf, Tbl.find_put_same _ _ _, fun g _ => ?_⟩
  rw [State.isDown_setDown]
  by_cases hg : g = f
  · simp [hg]
  · simp only [ne_eq, hg, not_false_eq_true, decide_true, Bool.true_and]
    rfl

theorem Addrs.mem_add (l : List Nat) (a x : Nat) : x ∈ Addrs.add l a ↔ x = a ∨ x ∈ l := by
  induction l with
  | nil => simp [Addrs.add]
  | cons j l ih =>
    simp only [Addrs.add]
    split
    · exact List.mem_cons
    · split
      · next h => simp [h]
      · simp only [List.mem_cons, ih]
        tauto

theorem portUp_lists {n : Nat} (hn : n < 16) :
    s.Leads (.portUp n) fun s2 => (n ∈ s2.portsUp ∧ ∀ m ∈ s.portsUp, m ∈ s2.portsUp) ∧ s2.mem = s.mem :=
  ⟨_, if_pos hn, ⟨(Addrs.mem_add ..).2 (.inl rfl), fun _ hm => (Addrs.mem_add ..).2 (.inr hm)⟩, rfl⟩

theorem portDown_unlists (n : Nat) : s.Leads (.portDown n) fun s2 => n ∉ s2.portsUp ∧ s2.mem = s.mem :=
  ⟨_, rfl, by simp [Addrs.del], rfl⟩

theorem ptpRefresh_leads (off : Word) : s.Leads (.ptpRefresh off) fun s2 => s2.reg (Off.fb 0x30) = off ∧ s2.mem = s.mem ∧
    s2.leases = if bits (s.reg (Off.fb 0x10)) 31 0 < off.toInt.natAbs then [] else s.leases := by
  by_cases h : bits (s.reg (Off.fb 0x10)) 31 0 < off.toInt.natAbs
  · exact ⟨_, if_pos h, State.reg_setReg_same .., rfl, by rw [if_pos h]⟩
  · exact ⟨_, if_neg h, State.reg_setReg_same .., rfl, by rw [if_neg h]; rfl⟩

/-! ## An agent's reads (R223, R409, R426) -/

/-- What the time, the registers and the leases are: no agent's read changes them. -/
def State.dated (s : State) := (s.ptp, s.mmio, s.granted)

theorem State.ncOut_lasting (s : State) (a : Access) : (s.ncOut a).lasting = s.lasting := by
  unfold State.ncOut
  split <;> rfl

theorem State.ncOut_dated (s : State) (a : Access) : (s.ncOut a).dated = s.dated := by
  unfold State.ncOut
  split <;> rfl

/-- A read of an agent in device memory only probes copies. -/
theorem State.agentRead_here (s : State) {pa : Nat} (n : Nat) (hp : isHost pa = false) :
    (s.agentRead pa n).lasting = s.lasting ∧ (s.agentRead pa n).dated = s.dated := by
  have hfrom : s.fromHost pa = false := by simp [State.fromHost, hp]
  have hread : s.agentRead pa n = (sectorsOf pa n).foldl State.shareSector s := by simp [State.agentRead, hfrom]
  rw [hread]
  exact ⟨foldl_fixes (g := State.lasting) (f := State.shareSector) (fun _ _ => rfl) _ _, foldl_fixes (g := State.dated) (f := State.shareSector) (fun _ _ => rfl) _ _⟩

/-- No agent meets an error where no sector has one. -/
theorem State.uncorrEntry_clean {ctx pa n : Nat} (h : ∀ i, i < n → (pa + i) / 64 ∉ s.badMem) : s.uncorrEntry ctx pa n = s :=
  if_neg (by simpa using h)

theorem State.incoming_device {off n : Nat} {need : Need} {a : Access} (h : s.incoming off n need = .ok a) : isDevice (s.paNow a) = true := by
  unfold State.incoming at h
  dsimp only at h
  split at h
  · cases h
  · split at h
    · cases h
    · cases h
    · split at h
      · cases h
        assumption
      · cases h

theorem isHost_of_device {pa : Nat} (h : pa ≤ 2 ^ 40) : isHost pa = false := by
  simp only [isHost, decide_eq_false_iff_not]
  omega

/-! ## Leases (R412, R414) -/

theorem State.emax_grant (s : State) (line : Nat) : (s.grant line).emax line = some (max ((s.emax line).getD 0) (s.ptp + s.leaseLen)) := by
  simp [State.emax, State.grant]

theorem peerRead_leads {peer off n : Nat} {a : Access} (h : s.incoming off n .read = .ok a) (hh : s.incomingHeld off n .read = false)
    (hb : ∀ i, i < n → (s.paNow a + i) / 64 ∉ s.badMem) :
    s.Leads (.peerRead peer off n) fun s2 => s2.mem = s.mem ∧ s2.threads = s.threads ∧ s2.reply = (s.bytesAt none a.key (s.paNow a) n).map BitVec.toNat ∧
      (a.policy = 0 → s.heldOn (s.paNow a / 256) = 0 → ∃ e, s2.emax (s.paNow a / 256) = some e ∧ s.ptp + s.leaseLen ≤ e) ∧
      (a.policy ≠ 0 ∨ s.heldOn (s.paNow a / 256) ≠ 0 → s2.granted = s.granted) := by
  have hhost : isHost (s.paNow a) = false := isHost_of_device (by simpa [isDevice] using (Nat.le_of_lt (by simpa [isDevice] using State.incoming_device h)))
  obtain ⟨x, hx⟩ : ∃ x, x = (s.ncOut a).agentRead (s.paNow a) n := ⟨_, rfl⟩
  obtain ⟨hl, hd⟩ := State.agentRead_here (s.ncOut a) n hhost
  have hlast : x.lasting = s.lasting := hx ▸ hl.trans (s.ncOut_lasting a)
  have hdated : x.dated = s.dated := hx ▸ hd.trans (s.ncOut_dated a)
  have hrun : exec (.peerRead peer off n) s = .next (if a.policy = 0 ∧ s.heldOn (s.paNow a / 256) = 0
      then ({ x with reply := (x.bytesAt none a.key (x.paNow a) n).map BitVec.toNat } : State).grant (s.paNow a / 256)
      else { x with reply := (x.bytesAt none a.key (x.paNow a) n).map BitVec.toNat }) := by
    change execPeerRead peer off n s = _
    simp only [execPeerRead, h, hh, Bool.false_eq_true, ↓reduceIte, State.uncorrEntry_clean hb, ← hx]
  have hmem := State.mem_of_lasting hlast
  have hthr := State.threads_of_aside (State.aside_of_lasting hlast)
  have hbytes : x.bytesAt none a.key (x.paNow a) n = s.bytesAt none a.key (s.paNow a) n := by
    rw [State.bytesAt_of_lasting hlast, State.paNow_of_lasting hlast]
  have hptp : x.ptp = s.ptp := congrArg (·.1) hdated
  have hlen : x.leaseLen = s.leaseLen := by rw [State.leaseLen, State.leaseLen, State.reg_of_mmio (congrArg (·.2.1) hdated)]
  rw [hbytes] at hrun
  by_cases hg : a.policy = 0 ∧ s.heldOn (s.paNow a / 256) = 0
  · rw [if_pos hg] at hrun
    refine ⟨_, hrun, hmem, hthr, rfl, fun _ _ => ⟨_, State.emax_grant .., ?_⟩, fun hn => absurd hg (by tauto)⟩
    refine le_trans (le_of_eq ?_) (le_max_right _ _)
    exact congrArg₂ (· + ·) hptp.symm hlen.symm
  · rw [if_neg hg] at hrun
    exact ⟨_, hrun, hmem, hthr, rfl, fun h0 h1 => absurd ⟨h0, h1⟩ hg, fun _ => congrArg (·.2.2) hdated⟩

/-- A request that must wait is not taken yet. -/
theorem incoming_waits {peer off n : Nat} {need : Need} {a : Access} (h : s.incoming off n need = .ok a) (hh : s.incomingHeld off n need = true) :
    (need = .read → exec (.peerRead peer off n) s = .next s) ∧
      ∀ bs : List Byte, need = .write → bs.length = n → exec (.peerWrite peer off bs) s = .next s := by
  refine ⟨?_, ?_⟩
  · rintro rfl
    change execPeerRead peer off n s = _
    simp only [execPeerRead, h, hh, ↓reduceIte]
  · rintro bs rfl rfl
    change execPeerWrite peer off bs s = _
    simp only [execPeerWrite, h, hh, ↓reduceIte]

/-! ## An agent's writes (R149, R245, R266, R414) -/

theorem State.agentBytes_one (s : State) (w : Writer) (key pa : Nat) (b : Byte) : s.agentBytes w key pa [b] 1 = s.agentPut w key pa [b] none := by
  have htake : [b].take (64 - pa % 64) = [b] := List.take_of_length_le (by simp; omega)
  simp only [State.agentBytes, List.isEmpty_cons, Bool.false_eq_true, ↓reduceIte, htake]

theorem State.dropPeerCopy_device {pa : Nat} (h : pa < 2 ^ 40) : s.dropPeerCopy pa = s := by
  have hp : isPeer pa = false := by
    simp only [isPeer, Bool.and_eq_false_iff, decide_eq_false_iff_not]
    omega
  rw [State.dropPeerCopy, hp]
  rfl

/-- The access of one agent's write, on a place and a key of its own. -/
def agentAccess (key pa n : Nat) : Access := { ctx := 0, va := 0, pa := pa, size := n, key := key, policy := 0 }

/-- A write inside one sector, which its own key or none was written under. -/
theorem State.agentAccess_plain {key pa n : Nat} (hw : Mem.wf s.mem = true) (hs : ∀ i, i < n → (pa + i) / 64 = pa / 64)
    (hk : s.keyTags.find (pa / 64) = none ∨ s.keyTags.find (pa / 64) = some (s.keyGen key)) : s.Plain (agentAccess key pa n) := ⟨hw, hs, hk⟩

theorem State.classAgentWrite_lasting (s : State) (pa : Nat) : (s.classAgentWrite pa).lasting = s.lasting := by
  unfold State.classAgentWrite
  split
  · split <;> rfl
  · rfl

theorem toLe_byte (b : Byte) : toLe 1 (b.setWidth 64).toNat = [b] := by
  have hb : b.toNat < 2 ^ 8 := b.isLt
  have hround : BitVec.ofNat 8 (b.setWidth 64).toNat = b := BitVec.eq_of_toNat_eq (by simp; omega)
  rw [toLe, toLe, hround]

/-- A byte that may be written now stands in memory. -/
theorem State.agentPut_wrote {w : Writer} {key pa : Nat} {b : Byte} (hd : pa < 2 ^ 40) (hf : s.agentFree w.by_ pa = true) (hw : Mem.wf s.mem = true)
    (hk : s.keyTags.find (pa / 64) = none ∨ s.keyTags.find (pa / 64) = some (s.keyGen key)) :
    s.Wrote (s.agentPut w key pa [b] none) pa 1 (b.setWidth 64) := by
  have hp := State.agentAccess_plain (n := 1) hw (fun i hi => by rw [Nat.lt_one_iff.1 hi, Nat.add_zero]) hk
  have hput : s.agentPut w key pa [b] none = (s.classAgentWrite pa).writePa w key pa [b] none := by
    rw [State.agentPut, State.agentPutAs, State.dropPeerCopy_device hd]
    exact if_pos hf
  obtain ⟨u, -, hm, he⟩ := State.writeBits_plain hp (s.classAgentWrite_lasting pa) w (b.setWidth 64) []
  have hu : s.agentPut w key pa [b] none = u := by
    rw [hput, State.writePa, ← toLe_byte b]
    exact he
  rw [hu]
  exact hp.wrote hm

/-- A word that may be filled now stands in memory, FULL (R149, R428). -/
theorem State.agentPut_fills {w : Writer} {key pa : Nat} {v : Word} (hd : pa < 2 ^ 40) (h8 : pa % 8 = 0) (hf : s.agentFree w.by_ pa = true)
    (hw : Mem.wf s.mem = true) (hk : s.keyTags.find (pa / 64) = none ∨ s.keyTags.find (pa / 64) = some (s.keyGen key)) :
    s.Wrote (s.agentPut w key pa (toLe 8 v.toNat) (some true)) pa 8 v ∧ (s.agentPut w key pa (toLe 8 v.toNat) (some true)).full pa = true := by
  have hp := State.agentAccess_plain (n := 8) hw (fun i hi => by omega) hk
  have hword : BitVec.ofNat 64 (ofLe (toLe 8 v.toNat)) = v := by
    rw [ofLe_toLe]
    exact BitVec.eq_of_toNat_eq (by have := v.isLt; simp; omega)
  obtain ⟨y, -, hm, he⟩ := State.writeBits_plain hp (s.classAgentWrite_lasting pa) w v [(pa / 8 * 8, true)]
  obtain ⟨ws, hu⟩ : ∃ ws, s.agentPut w key pa (toLe 8 v.toNat) (some true) = { y.setFull (pa / 8 * 8) true with wakes := ws } := by
    have hput : s.agentPut w key pa (toLe 8 v.toNat) (some true) = (s.classAgentWrite pa).writeWordFe w key pa (some v) true := by
      rw [State.agentPut, State.agentPutAs, State.dropPeerCopy_device hd, ← hword, hword]
      exact (if_pos hf).trans (by rw [hword])
    rw [hput, show y.setFull (pa / 8 * 8) true = _ from he.symm]
    exact State.foldl_wakeWord ..
  rw [hu]
  refine ⟨hp.wrote (s2 := { y.setFull (pa / 8 * 8) true with wakes := ws }) hm, (State.full_setFull_true y (pa / 8 * 8) pa).trans (if_pos (by omega))⟩

/-- What an agent's write looks at does not depend on the L1s, which an NC access of the agent changes. -/
theorem State.ncOut_agentFree (s : State) (a : Access) (by_ : Author) (pa : Nat) : (s.ncOut a).agentFree by_ pa = s.agentFree by_ pa := by
  unfold State.ncOut
  split <;> rfl

/-- A byte that a lease holds back stands among the held writes, and memory is as it was (R414). -/
theorem State.agentPut_held {w : Writer} {pa key : Nat} {bs : List Byte} (hd : pa < 2 ^ 40) (hz : s.frozen pa = false) (hf : s.agentFree w.by_ pa = false)
    (hr : w.heads = []) : (s.agentPut w key pa bs none).mem = s.mem ∧
      (s.agentPut w key pa bs none).heldWr = s.heldWr ++ [{ id := s.nextSeq, key := key, pa := pa, bytes := bs, by_ := w.by_, thrs := w.thrs, past := w.past }] := by
  have hf' : ¬ s.agentFreeFor none w.by_ pa = true := by
    rw [show s.agentFreeFor none w.by_ pa = false from hf]
    simp
  rw [State.agentPut, State.agentPutAs, State.dropPeerCopy_device hd]
  simp only [if_neg hf', hz, hr, Bool.false_eq_true, ↓reduceIte]
  exact ⟨rfl, rfl⟩

section
variable {peer off : Nat} {b : Byte} {a : Access} (h : s.incoming off 1 .write = .ok a) (hh : s.incomingHeld off 1 .write = false) (hv : a.vrec = none)
include h hh hv

/-- What PEER_WRITE of a byte comes to, once its page and its home are free. -/
theorem peerWrite_puts : exec (.peerWrite peer off [b]) s = .next ((s.ncOut a).agentPut { by_ := .peer } a.key (s.paNow a) [b] none) := by
  change execPeerWrite peer off [b] s = _
  have hown : s.ownNow a.ctx a = .ok s := by simp only [State.ownNow, hv]
  simp only [execPeerWrite, List.length_singleton, h, hh, hown, Bool.false_eq_true, ↓reduceIte, State.agentBytes_one]

omit hv in
/-- A page that is not held leaves the lease to decide. -/
theorem incoming_agentFree : s.frozen (s.paNow a) = false ∧ s.agentFree .peer (s.paNow a) = s.leaseFree (s.paNow a) := by
  have hheld : s.agentHeld a = false := by
    rw [State.incomingHeld, h] at hh
    simp only [Bool.or_eq_false_iff] at hh
    exact hh.1.1
  rw [State.agentHeld, Bool.or_eq_false_iff, Bool.or_eq_false_iff, State.pageHeld, Bool.or_eq_false_iff] at hheld
  obtain ⟨⟨⟨hz, -⟩, hr⟩, -⟩ := hheld
  refine ⟨hz, ?_⟩
  have hr' : s.replayFreeFor s.nextSeq (s.paNow a) = true := by simpa [State.replayFree] using hr
  simp only [State.agentFree, State.agentFreeFor, State.leaseFree, hz, Option.getD_none, hr', Bool.not_false, Bool.and_true]
  exact Bool.and_true _

theorem peerWrite_held (hl : s.leaseFree (s.paNow a) = false) : s.Leads (.peerWrite peer off [b]) fun s2 => s2.mem = s.mem ∧
    s2.heldWr = s.heldWr ++ [{ id := s.nextSeq, key := a.key, pa := s.paNow a, bytes := [b], by_ := .peer }] := by
  obtain ⟨hz, hf⟩ := incoming_agentFree h hh
  have hd : s.paNow a < 2 ^ 40 := by simpa [isDevice] using State.incoming_device h
  have hnc := State.agentPut_held (s := s.ncOut a) (w := { by_ := .peer }) (key := a.key) (bs := [b]) hd
    (by unfold State.ncOut; split <;> exact hz) ((s.ncOut_agentFree a _ _).trans (hf.trans hl)) rfl
  refine ⟨_, peerWrite_puts h hh hv, hnc.1.trans (s.ncOut_mem a), hnc.2.trans ?_⟩
  unfold State.ncOut
  split <;> rfl

theorem peerWrite_written (hl : s.leaseFree (s.paNow a) = true) (hw : Mem.wf s.mem = true)
    (hk : s.keyTags.find (s.paNow a / 64) = none ∨ s.keyTags.find (s.paNow a / 64) = some (s.keyGen a.key)) :
    s.Leads (.peerWrite peer off [b]) fun s2 => s.Wrote s2 (s.paNow a) 1 (b.setWidth 64) := by
  obtain ⟨-, hf⟩ := incoming_agentFree h hh
  have hd : s.paNow a < 2 ^ 40 := by simpa [isDevice] using State.incoming_device h
  have hwrote := State.agentPut_wrote (s := s.ncOut a) (w := { by_ := .peer }) (key := a.key) (b := b) hd ((s.ncOut_agentFree a _ _).trans (hf.trans hl))
    (by rwa [s.ncOut_mem]) (State.keyedFor_of_lasting (s.ncOut_lasting a) hk)
  refine ⟨_, peerWrite_puts h hh hv, fun x => ?_⟩
  rw [hwrote x, s.ncOut_mem]

end

/-! ## The end of a lease (R414) -/

theorem leaseHoldExpiry_none {line : Nat} (h : (s.granted.find? fun l => l.line == line) = none) : exec (.leaseHoldExpiry line) s = .next s := by
  change execLeaseHoldExpiry line s = _
  simp only [execLeaseHoldExpiry, h]

/-- No write waits: nothing is to be made. -/
theorem State.drainHeld_nil (h : s.heldWr = []) : s.drainHeld = { s with heldWr := [] } := by
  rw [State.drainHeld, h]
  rfl

section
variable {line : Nat} {l : Lease} (h : (s.granted.find? fun l => l.line == line) = some l)
include h

theorem leaseHoldExpiry_waits (ho : s.leaseOver l = false) : exec (.leaseHoldExpiry line) s = .next s := by
  change execLeaseHoldExpiry line s = _
  simp only [execLeaseHoldExpiry, h, ho, Bool.not_false, ↓reduceIte]

theorem leaseHoldExpiry_again (ho : s.leaseOver l = true) (hn : s.heldWr = []) (he : l.expiry = 0) :
    s.Leads (.leaseHoldExpiry line) fun s2 => s2.mem = s.mem ∧ s2.reg (Off.fb 0x40) = s.reg (Off.fb 0x40) := by
  have hrun : exec (.leaseHoldExpiry line) s = .next s.drainHeld.leaseTidy := by
    change execLeaseHoldExpiry line s = _
    simp only [execLeaseHoldExpiry, h, ho, he, Bool.not_true, Bool.false_eq_true, ↓reduceIte]
  rw [State.drainHeld_nil hn] at hrun
  exact ⟨_, hrun, rfl, rfl⟩

end

/-- The lease of a line that is over: it has no time left, and holds the writes that still wait, but those of the hardware. -/
def Lease.ended (l : Lease) (s : State) : Lease := { l with expiry := 0, held := (l.waiting s).filter (decide <| · < 2 ^ 63) }

/-- The state in which the leases of a line have ended, with their writes counted (R414). -/
def State.leaseEnded (s : State) (line : Nat) : State :=
  let s1 := { s with granted := s.granted.map fun (x : Lease) => if x.line = line then x.ended s else x, heldWr := [] }
  (s1.setReg (Off.fb 0x40) (s1.reg (Off.fb 0x40) + BitVec.ofNat 64 (s.heldOn line))).leaseTidy

section
variable {line : Nat} {l : Lease} (h : (s.granted.find? fun l => l.line == line) = some l) (hall : ∀ x ∈ s.granted, x.line = line → x = l) (hn : s.heldWr = [])

include h hn in
theorem leaseHoldExpiry_ends (ho : s.leaseOver l = true) (he : l.expiry ≠ 0) : exec (.leaseHoldExpiry line) s = .next (s.leaseEnded line) := by
  change execLeaseHoldExpiry line s = _
  simp only [execLeaseHoldExpiry, h, ho, he, Bool.not_true, Bool.false_eq_true, ↓reduceIte]
  rw [State.drainHeld_nil (by exact hn)]
  rfl

/-- A write waits after the end of the leases as it did before it. -/
theorem State.leaseEnded_waits (s : State) (hn : s.heldWr = []) (line q : Nat) : (s.leaseEnded line).writeWaits q = s.writeWaits q := by
  rw [State.writeWaits, State.writeWaits, hn]
  rfl

include hall in
/-- A lease of the line, after its end, is the one that was there, with its writes; one that has none is forgotten. -/
theorem State.leaseEnded_granted {x : Lease} (hx : x ∈ (s.leaseEnded line).granted) (hl : x.line = line) : x = l.ended s ∧ (l.ended s).held ≠ [] := by
  obtain ⟨hmap, hkept⟩ := List.mem_filter.1 hx
  obtain ⟨y, hy, rfl⟩ := List.mem_map.1 hmap
  by_cases hyl : y.line = line
  · obtain rfl := hall y hy hyl
    rw [if_pos hyl] at hkept ⊢
    refine ⟨rfl, fun hnone => ?_⟩
    simp [State.leaseOver, Lease.waiting, hnone, show (y.ended s).expiry = 0 from rfl] at hkept
  · rw [if_neg hyl] at hl
    exact absurd hl hyl

include hall in
/-- The lease of a line that held no write is gone, and writes to the line go on (R414). -/
theorem State.leaseEnded_gone (hnone : (l.ended s).held = []) : (s.leaseEnded line).emax line = none ∧ (s.leaseEnded line).leaseFree (256 * line) = true := by
  have hline : ∀ x ∈ (s.leaseEnded line).granted, x.line ≠ line := fun x hx hl => (State.leaseEnded_granted hall hx hl).2 hnone
  have hdiv : 256 * line / 256 = line := Nat.mul_div_cancel_left _ (by decide)
  have hheld : (s.leaseEnded line).heldWr = [] := rfl
  constructor
  · rw [State.emax, List.find?_eq_none.2 fun x hx => by simpa using hline x hx]
    rfl
  · rw [State.leaseFree, State.leaseFreeFor, hheld, List.any_nil, Bool.not_false, Bool.and_true, List.all_eq_true]
    intro x hx
    simp [hdiv, hline x hx]

include h hall hn in
/-- The first of the writes that an ended lease holds may be made, and no other (R414). -/
theorem State.leaseEnded_first {q : Nat} {rest : List Nat} (hq : (l.ended s).held = q :: rest) (r : Nat) :
    (s.leaseEnded line).leaseFreeFor (some r) (256 * line) = decide (r = q) := by
  have hdiv : 256 * line / 256 = line := Nat.mul_div_cancel_left _ (by decide)
  have hheld : (s.leaseEnded line).heldWr = [] := rfl
  have hwaits : ∀ p ∈ q :: rest, (s.leaseEnded line).writeWaits p = true := by
    intro p hp
    rw [State.leaseEnded_waits s hn]
    rw [← hq, Lease.ended, List.mem_filter, Lease.waiting, List.mem_filter] at hp
    obtain ⟨⟨-, hw⟩, hlow⟩ := hp
    have hnot : ¬ 2 ^ 63 ≤ p := by simpa using hlow
    rwa [decide_eq_false hnot, Bool.or_false] at hw
  have hall' : (q :: rest).filter (fun p => (s.leaseEnded line).writeWaits p || some r == some p) = q :: rest :=
    List.filter_eq_self.2 fun p hp => by rw [hwaits p hp, Bool.true_or]
  have hl : l.line = line := by simpa using List.find?_some h
  have hmem : l.ended s ∈ (s.leaseEnded line).granted := by
    refine List.mem_filter.2 ⟨List.mem_map.2 ⟨l, List.mem_of_find?_eq_some h, if_pos hl⟩, ?_⟩
    have hfirst : (l.ended s).waiting (s.leaseEnded line) ≠ [] := by
      refine List.ne_nil_of_mem (a := q) (List.mem_filter.2 ⟨hq ▸ List.mem_cons_self .., ?_⟩)
      rw [hwaits q (List.mem_cons_self ..), Bool.true_or]
    rw [Bool.not_eq_true', Bool.and_eq_false_iff]
    exact .inr (List.isEmpty_eq_false_iff.2 hfirst)
  rw [State.leaseFreeFor, hheld, List.any_nil, Bool.not_false, Bool.and_true, Bool.eq_iff_iff, List.all_eq_true, decide_eq_true_eq]
  constructor
  · intro hfree
    have hone := hfree _ hmem
    rw [hq, hall'] at hone
    simpa [hdiv, show (l.ended s).line = line from hl, show (l.ended s).expiry = 0 from rfl] using hone
  · intro e x hx
    by_cases hxl : x.line = line
    · obtain ⟨rfl, -⟩ := State.leaseEnded_granted hall hx hxl
      rw [hq, hall']
      simp [e, show (l.ended s).expiry = 0 from rfl]
    · simp [hdiv, hxl]

end

/-! ## Refused accesses go again (R289, R411, R416) -/

section
variable {op : Nat} {o : Op} {a : Access} {v : Word} {w : PeerWait} (hop : s.ops.find op = some o) (hk : o.kind = .store a v) (hp : isPeer a.pa = true)
  (hw : s.peerWaits.find? (fun w => w.op == op) = some w)
include hop hk hp hw

omit hk hp in
theorem peerResend_waits (ht : s.ptp < w.notBefore) : exec (.peerResend op) s = .next s := by
  change execPeerResend op s = _
  simp only [execPeerResend, hop, hw, ht, decide_true, Bool.or_true, ↓reduceIte]

/-- Once its hint has passed, a store asks its owner again, and does what the owner's answer says. -/
theorem peerResend_asks (ht : w.notBefore ≤ s.ptp) (h2 : a.policy ≠ 2) (hc : s.canPerform op o false = true) :
    exec (.peerResend op) s = .next (s.viaPeer op o a fun s => s.doStore op o a v) := by
  have haccess : o.kind.peerAccess.isNone = false := by simp [OpKind.peerAccess, OpKind.accesses, OpKind.access, hk, hp]
  have hnow : ¬ s.ptp < w.notBefore := Nat.not_lt.2 ht
  change execPeerResend op s = _
  simp only [execPeerResend, hop, hw, haccess, hnow, decide_false, Bool.or_self, Bool.false_eq_true, ↓reduceIte]
  simp only [State.performNow, hk, hc, h2, ↓reduceIte]

theorem peerResend_leads (ht : w.notBefore ≤ s.ptp) (h2 : a.policy ≠ 2) (hc : s.canPerform op o false = true) :
    (∀ s1, s.askOwner op o a = .yes s1 → exec (.peerResend op) s = .next (s1.doStore op o a v)) ∧
      (∀ s1, s.askOwner op o a = .wait s1 → exec (.peerResend op) s = .next s1) ∧
      (∀ s1 c, s.askOwner op o a = .bad s1 c →
        exec (.peerResend op) s = .next (s1.faultOp op o { cause := c, kind := .store, addr := BitVec.ofNat 64 a.va })) := by
  rw [peerResend_asks hop hk hp hw ht h2 hc]
  have hkind : o.kind.kind = .store := by rw [hk]; rfl
  refine ⟨fun s1 h => ?_, fun s1 h => ?_, fun s1 c h => ?_⟩
  · rw [State.viaPeer, h]
  · rw [State.viaPeer, h]
  · rw [State.viaPeer, h, hkind]

end

theorem engineResend_leads {id : Nat} {c : Cmd} (h : s.cmds.find id = some c) : ((∀ r ∈ c.refused, s.ptp < r.2.2) → exec (.engineResend id) s = .next s) ∧
    ∀ r ∈ c.refused, r.2.2 ≤ s.ptp → exec (.engineResend id) s = exec (.engineCommandStart id) s := by
  have hrun : exec (.engineResend id) s = if c.refused.any (fun r => decide (r.2.2 ≤ s.ptp)) then .next (s.engineStep id c) else .next s := by
    change execEngineResend id s = _
    simp only [execEngineResend, h]
  refine ⟨fun hr => ?_, fun r hr ht => ?_⟩
  · rw [hrun, if_neg (by simpa using hr)]
  · rw [hrun, if_pos (List.any_eq_true.2 ⟨r, hr, decide_eq_true ht⟩)]
    change _ = execEngineCommandStart id s
    rw [execEngineCommandStart, h, Option.elim_some]

/-! ## The host's accesses (R426, R428) -/

section
variable (hup : s.linkUp = true)

/-- What a host read returns, and what it leaves. -/
theorem State.hostRead_leaves {off n : Nat} (hn : off + n ≤ 2 ^ 40) (hb : ∀ i, i < n → (off + i) / 64 ∉ s.badMem) :
    (s.hostRead off n).reply = (s.bytesAt none s.hostKey off n).map BitVec.toNat ∧ (s.hostRead off n).mem = s.mem ∧
      (s.hostRead off n).empties = s.empties ∧ (s.hostRead off n).threads = s.threads := by
  obtain ⟨hl, hd⟩ := State.agentRead_here s n (isHost_of_device (le_trans (Nat.le_add_right off n) hn))
  have ha := State.aside_of_lasting hl
  have hkey : (s.agentRead off n).hostKey = s.hostKey := by
    rw [State.hostKey, State.hostKey, State.reg_of_mmio (congrArg (·.2.1) hd)]
  rw [State.hostRead, State.uncorrEntry_clean hb]
  refine ⟨?_, State.mem_of_lasting hl, State.empties_of_aside ha, State.threads_of_aside ha⟩
  dsimp only
  rw [hkey, State.bytesAt_of_lasting hl]

include hup

theorem hdmAccess_reads {off n : Nat} (hn : off + n ≤ 2 ^ 40) :
    exec (.hdmAccess off (.read n)) s = .next (s.hostRead off n) ∧ exec (.hdmAccess off (.aliasRead n)) s = .next (s.hostRead off n) := by
  have hdown : ¬ (!s.linkUp) = true := by simp [hup]
  exact ⟨(if_neg hdown).trans (if_pos hn), (if_neg hdown).trans (if_pos hn)⟩

theorem hdmAccess_writes {off : Nat} {b : Byte} (hd : off < 2 ^ 40) (hf : s.agentFree .host off = true) (hw : Mem.wf s.mem = true)
    (hk : s.keyTags.find (off / 64) = none ∨ s.keyTags.find (off / 64) = some (s.keyGen s.hostKey)) :
    s.Leads (.hdmAccess off (.write [b])) fun s2 => s.Wrote s2 off 1 (b.setWidth 64) := by
  have hdown : ¬ (!s.linkUp) = true := by simp [hup]
  have hrun : exec (.hdmAccess off (.write [b])) s = .next (s.agentBytes (s.hostWriter false) s.hostKey off [b] 1) := (if_neg hdown).trans (if_pos hd)
  rw [State.agentBytes_one] at hrun
  exact ⟨_, hrun, State.agentPut_wrote (w := s.hostWriter false) hd hf hw hk⟩

/-- A fill write of one whole word fills it, and counts nothing. -/
theorem fillAliasWrite_fills {off : Nat} {v : Word} (h8 : off % 8 = 0) (hd : off < 2 ^ 40) (hf : s.agentFree .host off = true) (hw : Mem.wf s.mem = true)
    (hk : s.keyTags.find (off / 64) = none ∨ s.keyTags.find (off / 64) = some (s.keyGen s.hostKey)) :
    s.Leads (.fillAliasWrite off (toLe 8 v.toNat)) fun s2 => s.Wrote s2 off 8 v ∧ s2.full off = true ∧ s2.reg (Off.sv 0x60) = s.reg (Off.sv 0x60) := by
  have hrun : exec (.fillAliasWrite off (toLe 8 v.toNat)) s = .next (s.agentPut (s.hostWriter true) s.hostKey off (toLe 8 v.toNat) (some true)) := by
    change execFillAliasWrite off (toLe 8 v.toNat) s = _
    have hlen := toLe_length 8 v.toNat
    have hin : (!s.linkUp || decide (2 ^ 40 < off + 8) || (toLe 8 v.toNat).isEmpty) = false := by
      simp only [hup, Bool.not_true, Bool.false_or, Bool.or_eq_false_iff, decide_eq_false_iff_not]
      exact ⟨by omega, rfl⟩
    have hlo : 8 * ((off + 7) / 8) = off := by omega
    have hone : (off + 8) / 8 - (off + 7) / 8 = 1 := by omega
    have hcov : (off + 8 + 7) / 8 - off / 8 = 1 := by omega
    simp only [execFillAliasWrite, hin, hlen, hlo, hone, hcov, Bool.false_eq_true, ↓reduceIte, Nat.sub_self, List.drop_zero, State.fillWords]
    rw [List.take_of_length_le hlen.le]
  have hfill := State.agentPut_fills (w := s.hostWriter true) (v := v) hd h8 hf hw hk
  exact ⟨_, hrun, hfill.1, hfill.2, State.reg_of_units (State.agentPut_units ..) _⟩

/-- A byte of a fill write is dropped, and counted. -/
theorem fillAliasWrite_drops {off : Nat} {b : Byte} (hd : off < 2 ^ 40) :
    s.Leads (.fillAliasWrite off [b]) fun s2 => s2.mem = s.mem ∧ s2.reg (Off.sv 0x60) = s.reg (Off.sv 0x60) + 1 := by
  have hrun : exec (.fillAliasWrite off [b]) s = .next (s.setReg (Off.sv 0x60) (s.reg (Off.sv 0x60) + 1)) := by
    change execFillAliasWrite off [b] s = _
    have hin : (!s.linkUp || decide (2 ^ 40 < off + 1) || [b].isEmpty) = false := by
      simp only [hup, Bool.not_true, Bool.false_or, Bool.or_eq_false_iff, decide_eq_false_iff_not]
      exact ⟨by omega, rfl⟩
    have hnone : (off + 1) / 8 - (off + 7) / 8 = 0 := by omega
    have hcov : (off + 1 + 7) / 8 - off / 8 = 1 := by omega
    simp only [execFillAliasWrite, hin, List.length_singleton, hnone, hcov, Bool.false_eq_true, ↓reduceIte, State.fillWords, one_ne_zero, Nat.sub_zero]
    rfl
  exact ⟨_, hrun, rfl, State.reg_setReg_same ..⟩

end

/-! ## The statement -/

/-- Settles O51, clause by clause. -/
theorem fabricEvents : Obligations.FabricEvents := by
  intro s stays down
  refine ⟨fun f hf => ⟨peerDown_marks hf, peerDown_stays, heartbeat_clears hf⟩, fun n => portUp_lists, portDown_unlists, ptpRefresh_leads,
    fun peer off n need a => incoming_waits, fun peer off n a => peerRead_leads, fun peer off b a h hh hv => ⟨peerWrite_held h hh hv, peerWrite_written h hh hv⟩,
    fun line => leaseHoldExpiry_none, fun line l h hall => ⟨leaseHoldExpiry_waits h, fun ho hn => ⟨leaseHoldExpiry_again h ho hn, fun he => ?_⟩⟩,
    fun op o a v w hop hk hp h2 hc hw => ⟨peerResend_waits hop hw, fun ht => peerResend_leads hop hk hp hw ht h2 hc⟩,
    fun id c h _ => engineResend_leads h, fun hup => ⟨fun off n hn hb => ?_, fun off b => hdmAccess_writes hup, fun off v => fillAliasWrite_fills hup,
      fun off b => fillAliasWrite_drops hup⟩⟩
  · have hheld : s.heldOn line = (l.waiting s).length := by rw [State.heldOn, h, Option.elim_some]
    refine ⟨_, leaseHoldExpiry_ends h hn ho he, rfl, State.reg_setReg_same .., fun h0 => State.leaseEnded_gone hall ?_,
      fun q rest hq r => State.leaseEnded_first h hall hn hq r⟩
    rw [hheld, List.length_eq_zero_iff] at h0
    rw [Lease.ended, h0]
    rfl
  · obtain ⟨hread, halias⟩ := hdmAccess_reads hup hn
    exact ⟨⟨_, hread, State.hostRead_leaves hn hb⟩, ⟨_, halias, State.hostRead_leaves hn hb⟩⟩

end Sys2Proof.Machine
end
